-- ==== Sys2Proof/Word.lean ====
section
/-! DEFINITION. The word types of the model (02_number_formats.md R39 R40). -/

namespace Sys2Proof

/-- One byte. -/
abbrev Byte := BitVec 8
/-- A 32-bit word. -/
abbrev Word32 := BitVec 32
/-- A 64-bit doubleword: a register of any block, a scalar register of a Hand. -/
abbrev Word64 := BitVec 64
/-- A vector register, and a 64-byte descriptor (R104, R129). -/
abbrev Vec := BitVec 512

end Sys2Proof
end

