-- ==== Sys2Proof/Config.lean ====
section
/-! DEFINITION. What an implementation fixes and the manual does not give, and the free values. Every constant here
has no body: nothing can be proved of its value, so a claim holds whatever it is (log entries 7 and 12). -/

namespace Sys2Proof

/-- The free values: the `n`-th value that the manual leaves open in a run (R13, R82, R128, R404). -/
opaque Config.freeWord : Nat → Word64

/-- Trelviut's assigned PCIe Vendor ID (R337: "Trelviut's assigned Vendor ID"). -/
opaque Config.vendorId : BitVec 16

/-- Trelviut's JEDEC manufacturer identity (R410). -/
opaque Config.jedecId : BitVec 11

/-- The die of the target package to which a request for an LPDDR household address is sent (R309 gives the packet a DST_DIE
and no rule for it). -/
opaque Config.ferryDie : Nat → Nat

/-- How the 4-bit LC_CAP of MC_SHARES reads when the share is 16 (R213, Table 7.11). -/
opaque Config.lcCapSixteen : BitVec 4

/-- The bytes of the records whose layout the manual leaves open (IDENTIFY and SETTINGS_READ of R350, the fuses of R412) are values of this
function of the record kind, the fields' values and the byte number. -/
opaque Config.openRecord : Nat → List Nat → Nat → Byte

/-- VDD_CORE of a die in mV at a clock level, as an offset (R376: it "follows the level"; the manual gives no values). -/
opaque Config.coreMv : Nat → Nat → Nat

/-- Bytes of the data of an adapter slot's adapter (R299 gives it an address and no length; log entry 87). -/
opaque Config.adapterLen : Word32 → Nat

/-- Byte `j` of sector `n` of the counting pattern of a loop-back (R407 names the pattern and gives no bytes). -/
opaque Config.countByte : Nat → Nat → Byte

/-- The SMBus command code of each block that the target answers (R421 gives none). -/
opaque Config.smbCommand : Nat → Byte

end Sys2Proof
end

