-- ==== Sys2Proof/Syntax.lean ====
section
/-! DEFINITION. The commands of the block: one constructor of `Instr` for every row of spec/opcode_table.json, with
the unit that acts, the value written or the outside fact that the command reports as operands. The table gives no
operands, so they are the model's (log entry 13). -/

namespace Sys2Proof

/-- A physical hamlet slot of a die (R7, R16). -/
structure HamletRef where
  die : Nat
  slot : Nat
deriving DecidableEq, Repr, Inhabited

/-- Mill `idx` of the hamlet in a slot (R7). -/
structure MillRef where
  die : Nat
  slot : Nat
  idx : Nat
deriving DecidableEq, Repr, Inhabited

/-- Hand `idx` of the hamlet in a slot (R7, R129). -/
structure HandRef where
  die : Nat
  slot : Nat
  idx : Nat
deriving DecidableEq, Repr, Inhabited

/-- Ring `idx` of the hamlet in a slot (R168). -/
structure RingRef where
  die : Nat
  slot : Nat
  idx : Nat
deriving DecidableEq, Repr, Inhabited

/-- A parish of a die (R7). -/
structure ParishRef where
  die : Nat
  par : Nat
deriving DecidableEq, Repr, Inhabited

/-- LPDDR controller `ctl` of a die (R205). -/
structure CtlRef where
  die : Nat
  ctl : Nat
deriving DecidableEq, Repr, Inhabited

/-- A die-to-die edge: direction 0 north, 1 east, 2 south, 3 west (R389, Table 14.3). -/
structure EdgeRef where
  die : Nat
  dir : Nat
deriving DecidableEq, Repr, Inhabited

/-- A correction rewrite: its controller, and the wrong bytes of each codeword of the sector as it is found now (R208). -/
structure Rewrite where
  ctl : CtlRef
  errs : List Nat
deriving DecidableEq, Repr, Inhabited

/-- What comes over a direction of an edge (R389): the flits that the sender has sent since the last report, the sequence number of the flit that
is reported, its bytes and its CRC-32C as the receiver sees them, and the lanes whose parity did not match in it. The flits before it have come
unharmed. -/
structure EdgeFlit where
  edge : EdgeRef
  sent : List (List Byte)
  seq : BitVec 12
  got : List Byte
  crc : Word32
  lanes : List Nat
deriving DecidableEq, Repr, Inhabited

/-- A Porter: 0-1 of a hamlet, 0-3 of a parish (R215). -/
inductive PorterRef
  | hamlet (die slot n : Nat)
  | parish (die par n : Nat)
deriving DecidableEq, Repr, Inhabited

/-- A Tally unit: 0-1 of a hamlet, 0-1 of a parish (R265). -/
inductive TallyRef
  | hamlet (die slot n : Nat)
  | parish (die par n : Nat)
deriving DecidableEq, Repr, Inhabited

/-- The two descriptor engines of a parish (R233, R245). -/
inductive ParishEngine
  | press
  | merge
deriving DecidableEq, Repr, Inhabited

/-- A physical upset of one sum or stored element (R95, R96): what is added to the first result and, when the unit is
recomputed, to the second. -/
structure Upset where
  row : Nat
  col : Nat
  first : Int
  second : Int
deriving DecidableEq, Repr, Inhabited

/-- Where an uncorrectable error of a Hand's own state lies (R153). -/
inductive HwPlace
  | scalar (n : Nat)
  | vector (n : Nat)
  | predicate (n : Nat)
  | control (csr : Nat)
  | buffer (offset : Nat)
deriving DecidableEq, Repr, Inhabited

/-- What the link ECC reported of one read (R211): single-bit corrections, and how many tries in a row were uncorrected. -/
structure LinkEcc where
  single : Nat
  uncorrected : Nat
deriving DecidableEq, Repr, Inhabited

/-- A sector of a site with the number of wrong bytes in each of its four codewords (R208). -/
structure SectorErr where
  sector : Nat
  errs : List Nat
deriving DecidableEq, Repr, Inhabited

/-- One flit as it arrives: its 256 bytes, and the wrong symbols in each codeword that begins within it (R304, R308). -/
structure FlitIn where
  raw : List Byte
  errs : List Nat
deriving DecidableEq, Repr, Inhabited

/-- The identity flit of the far end (R306). -/
structure PeerId where
  coord : BitVec 15
  die : BitVec 3
  port : BitVec 2
  role : BitVec 3
  dir : BitVec 3
  index : BitVec 2
  board : BitVec 4
  dims : BitVec 15
deriving DecidableEq, Repr, Inhabited

/-- How the physical part of a full training ended (R306): no lock, or locked at half or full rate with an identity. -/
inductive TrainOutcome
  | noLock
  | locked (half : Bool) (peer : PeerId)
deriving DecidableEq, Repr, Inhabited

/-- What sends an ACTIVE Landing into RETRAIN (R307); with `farReset` the far end trains again after its own reset (R330). -/
inductive RetrainTrigger
  | uncorrectable
  | alignment
  | replayLimit
  | request
  | farReset
deriving DecidableEq, Repr, Inhabited

/-- A write of the host to its own memory (R339). -/
structure HostWrite where
  addr : Nat
  data : List Byte
deriving DecidableEq, Repr, Inhabited

/-- The causes of a job fault (R393). -/
inductive JobFaultCause
  | hand (h : HandRef)
  | slotFault (m : HamletRef)
  | edgeLost
  | unreachable
  | stepBlock
deriving DecidableEq, Repr, Inhabited

/-- How the training of one site ended at cold boot (R205). -/
inductive SiteOutcome
  | rate9600
  | rate8533
  | failed
  | otherDensity
deriving DecidableEq, Repr, Inhabited

/-- One link of a board description, laid out as LANDING_CFG (R321, R330). -/
structure LinkDesc where
  role : BitVec 3
  dir : BitVec 3
  index : BitVec 2
  profile : Bool
  rateCap : Bool
deriving DecidableEq, Repr, Inhabited

/-- A coordinate range that an uplink circuit reaches (R322): the first and last x, y and z. -/
structure UplinkRange where
  lo : BitVec 15
  hi : BitVec 15
deriving DecidableEq, Repr, Inhabited

/-- One package of a board group (R325). -/
structure GroupMember where
  board : BitVec 4
  coord : BitVec 15
deriving DecidableEq, Repr, Inhabited

/-- A regulator on the PMBus: the number of its rail and its address (R418). -/
structure RegDesc where
  rail : Nat
  addr : BitVec 7
deriving DecidableEq, Repr, Inhabited

/-- What READ_VIN (mV), READ_IIN (mA) and READ_PIN (W) of a regulator give, or none where the bus does not answer (R418). -/
structure RegRead where
  rail : Nat
  read : Option (Nat × Nat × Nat)
deriving DecidableEq, Repr, Inhabited

/-- A board description: what its bytes say (R312, R321, R322, R325, R418). The manual gives no byte layout for it. -/
structure BoardDesc where
  coord : BitVec 15
  dims : BitVec 15
  board : BitVec 4
  message : Bool
  links : List LinkDesc
  uplinks : List UplinkRange
  group : List GroupMember
  regulators : List RegDesc := []
deriving DecidableEq, Repr, Inhabited

/-- What the bank self-test of a boot or a warm reset found (R26): slots and granules with a bank that the spare does not mend, and those where
the spare bank stands in. -/
structure BankTest where
  badSlots : List HamletRef := []
  mendedSlots : List HamletRef := []
  badGranules : List (ParishRef × Nat) := []
  mendedGranules : List (ParishRef × Nat) := []
deriving DecidableEq, Repr, Inhabited

/-- What the boot ROM, the training and the self-tests find (R378, R379, R26, R205). -/
structure BootOutcome where
  copyA : Bool
  copyB : Bool
  version : Word32
  build : Word32
  math : Byte
  sites : List SiteOutcome
  badSlots : List HamletRef
  repaired : List HamletRef
  banks : BankTest
  board : Option BoardDesc
deriving DecidableEq, Repr, Inhabited

/-- The triggers of a PCIe hot reset (Table 13.7). -/
inductive HotTrigger
  | inBand
  | linkDown
  | perst
deriving DecidableEq, Repr, Inhabited

/-- A PCIe hot reset: its trigger, and the errors that the PCIe link reported up to it, true for an uncorrectable one (R386). -/
structure HotReset where
  why : HotTrigger
  aer : List Bool := []
deriving DecidableEq, Repr, Inhabited

/-- What the checks of steps 6 and 7 of a warm reset find (R381). -/
structure WarmOutcome where
  signatureOk : Bool
  copyA : Bool
  copyB : Bool
  banks : BankTest
deriving DecidableEq, Repr, Inhabited

/-- What the governor reads in one tick besides power and dies: whether a site is above 105 °C (R376), whether a rail reads outside its commanded
window (R405), and whether PMB_ALERT_N is high again (R421). -/
structure RailRead where
  siteHot : Bool
  railOut : Bool
  alertHigh : Bool := false
deriving DecidableEq, Repr, Inhabited

/-- A word or block that a read found uncorrectable (R387, R392): of memory, by its package address; of a weight set or the staging buffer of a
Mill; or of Reeve memory, the Ledger or a key slot. -/
inductive BadWord
  | data (a : Nat)
  | weights (u : MillRef) (set : Nat)
  | staging (u : MillRef) (word : Nat)
  | firmware (d : Nat)
deriving DecidableEq, Repr, Inhabited

/-- Where a single-bit error was corrected (R387, Table 14.3). -/
inductive SramPlace
  | slot (m : HamletRef) (addr : Nat)
  | granary (p : ParishRef) (addr : Nat)
  | parishLogic (p : ParishRef)
  | sieveLedger (die : Nat)
  | reeve (die : Nat)
deriving DecidableEq, Repr, Inhabited

/-- Who writes a register: a PCIe function in its BAR0 (R333), or the Reeve of a die in its MMIO (R330). -/
inductive RegAgent
  | host (fn : Nat)
  | reeve (die : Nat)
deriving DecidableEq, Repr, Inhabited

/-- The instruments of Table 14.8. -/
inductive Instrument
  | monitors
  | fuses
  | logbook
  | laneMargin
  | loopback
  | memoryTest
  | debugPort
  | scan
deriving DecidableEq, Repr, Inhabited

/-- State of a unit that lies at no package address and that the debug port reaches (R412): an element, a column scale and the bias of a weight
set, a byte of a staging buffer, an element, the format tag and the bias of an accumulator line, a register or the PC of a Hand, a word of its
instruction buffer, a byte in the block buffers of its expander, and a byte of a Press table. -/
inductive DebugPlace
  | weight (u : MillRef) (set col row : Nat)
  | scale (u : MillRef) (set col : Nat)
  | setBias (u : MillRef) (set : Nat)
  | staging (u : MillRef) (i : Nat)
  | acc (u : MillRef) (line i : Nat)
  | accTag (u : MillRef) (line : Nat)
  | accBias (u : MillRef) (line : Nat)
  | scalar (h : HandRef) (i : Nat)
  | vector (h : HandRef) (i : Nat)
  | predicate (h : HandRef) (i : Nat)
  | pc (h : HandRef)
  | ibuf (h : HandRef) (i : Nat)
  | expander (h : HandRef) (buf i : Nat)
  | pressTable (slot i : Nat)
deriving DecidableEq, Repr, Inhabited

/-- What is done to an instrument over the IEEE 1687 network (R412); `peek` and `poke` are the debug port's at a unit. -/
inductive IjtagOp
  | read (i : Instrument) (addr : Nat)
  | run (i : Instrument)
  | write (addr : Nat) (data : Byte)
  | peek (p : DebugPlace)
  | poke (p : DebugPlace) (data : List Byte)
  | blowLock
deriving DecidableEq, Repr, Inhabited

/-- The two moves of UNLOCK (R413): the nonce that the part issues, and whether the signature given checks. -/
inductive UnlockOp
  | challenge (nonce : BitVec 128)
  | response (signatureOk : Bool)
deriving DecidableEq, Repr, Inhabited

/-- What a loop-back run finds: whether the follower of depth 4 answers (R408), and what it measured (R409). -/
structure LoopOutcome where
  follower : Bool
  sent : Word64
  received : Word64
  errors : Word64
  lane : BitVec 16
  micros : Word32
deriving DecidableEq, Repr, Inhabited

/-- The commands: one constructor per row of spec/opcode_table.json, in its order. -/
inductive Instr
  /-- LOAD_W, R108. -/
  | loadW (u : MillRef)
  /-- TRIT_MM, R72. -/
  | tritMm (u : MillRef) (ups : List Upset)
  /-- BIN_MM, R77. -/
  | binMm (u : MillRef) (ups : List Upset)
  /-- LOG_MM, R78. -/
  | logMm (u : MillRef)
  /-- FINISH, R87. -/
  | finish (u : MillRef) (ups : List Upset)
  /-- RANGE, R93. -/
  | range (u : MillRef)
  /-- FENCE, R118. -/
  | fence (u : MillRef)
  /-- DIGEST_TAG, R119. -/
  | digestTag (u : MillRef)
  /-- MILL_DISPATCH, R120. -/
  | millDispatch (u : MillRef)
  /-- MILL_DESC_WIN_PUSH, R121. -/
  | millDescWinPush (u : MillRef) (v : Word64)
  /-- MILL_RING_FETCH, R122. -/
  | millRingFetch (u : MillRef)
  /-- MILL_QCTRL_WRITE, R123. -/
  | millQctrlWrite (u : MillRef) (v : Word64)
  /-- MODE_CHANGE_APPLY, R123. -/
  | modeChangeApply (u : MillRef)
  /-- HALTED_CLEAR, R124. -/
  | haltedClear (u : MillRef) (v : Word64)
  /-- CLASS_DRAIN, R86. -/
  | classDrain (u : MillRef)
  /-- MILL_RING_WAIT, R70. -/
  | millRingWait (u : MillRef)
  /-- INT, R135. -/
  | int (h : HandRef)
  /-- DIV, R136. -/
  | div (h : HandRef)
  /-- ADDI, R135. -/
  | addi (h : HandRef)
  /-- SHI, R134. -/
  | shi (h : HandRef)
  /-- LUI, R134. -/
  | lui (h : HandRef)
  /-- LUIH, R134. -/
  | luih (h : HandRef)
  /-- BR, R137. -/
  | br (h : HandRef)
  /-- PBR, R137. -/
  | pbr (h : HandRef)
  /-- JAL, R137. -/
  | jal (h : HandRef)
  /-- JALR, R137. -/
  | jalr (h : HandRef)
  /-- LOCAL_LOAD, R138. -/
  | localLoad (h : HandRef)
  /-- LOCAL_STORE, R138. -/
  | localStore (h : HandRef)
  /-- VLD, R138. -/
  | vld (h : HandRef)
  /-- VST, R138. -/
  | vst (h : HandRef)
  /-- VSTN, R138. -/
  | vstn (h : HandRef)
  /-- GLD, R139. -/
  | gld (h : HandRef)
  /-- GST, R139. -/
  | gst (h : HandRef)
  /-- GVLD, R139. -/
  | gvld (h : HandRef)
  /-- GVST, R139. -/
  | gvst (h : HandRef)
  /-- GVSTN, R139. -/
  | gvstn (h : HandRef)
  /-- HFENCE, R140. -/
  | hfence (h : HandRef)
  /-- CSR, R155. -/
  | csr (h : HandRef)
  /-- VI, R141. -/
  | vi (h : HandRef)
  /-- VF, R142. -/
  | vf (h : HandRef)
  /-- VX, R143. -/
  | vx (h : HandRef)
  /-- VRSUM, R143. -/
  | vrsum (h : HandRef)
  /-- VC, R144. -/
  | vc (h : HandRef)
  /-- TERN, R145. -/
  | tern (h : HandRef)
  /-- PACKT, R145. -/
  | packt (h : HandRef)
  /-- UNPACKT, R145. -/
  | unpackt (h : HandRef)
  /-- PR, R134. -/
  | pr (h : HandRef)
  /-- WAIT, R154. -/
  | wait (h : HandRef)
  /-- ERET, R146. -/
  | eret (h : HandRef)
  /-- HALT, R146. -/
  | halt (h : HandRef)
  /-- TRAP, R146. -/
  | trap (h : HandRef)
  /-- IBLD, R132. -/
  | ibld (h : HandRef)
  /-- RGET, R146. -/
  | rget (h : HandRef)
  /-- RGETX, R147. -/
  | rgetx (h : HandRef)
  /-- RREL, R146. -/
  | rrel (h : HandRef)
  /-- RRSV, R146. -/
  | rrsv (h : HandRef)
  /-- RPUB, R146. -/
  | rpub (h : HandRef)
  /-- VRX, R147. -/
  | vrx (h : HandRef)
  /-- BADD, R180. -/
  | badd (h : HandRef)
  /-- BWAIT, R181. -/
  | bwait (h : HandRef)
  /-- BREAD, R146. -/
  | bread (h : HandRef)
  /-- LOT, R149. -/
  | lot (h : HandRef)
  /-- PISSUE, R150. -/
  | pissue (h : HandRef)
  /-- MPUSH, R150. -/
  | mpush (h : HandRef)
  /-- TFEED, R151. -/
  | tfeed (h : HandRef)
  /-- TRD, R268. -/
  | trd (h : HandRef)
  /-- TWR, R268. -/
  | twr (h : HandRef)
  /-- HW_FAULT, R153. -/
  | hwFault (h : HandRef) (w : HwPlace)
  /-- EVENT_TAKE, R154. -/
  | eventTake (h : HandRef)
  /-- RING_WAIT_END, R171. -/
  | ringWaitEnd (r : RingRef)
  /-- RING_STALL, R175. -/
  | ringStall (r : RingRef) (n : Nat)
  /-- WAIT_STALL, R176. -/
  | waitStall (h : HandRef)
  /-- PUSH_STALL, R150. -/
  | pushStall (h : HandRef)
  /-- BWAIT_SATISFIED, R182. -/
  | bwaitSatisfied (h : HandRef)
  /-- BELL_ADD_APPLY, R180. -/
  | bellAddApply (n : Nat)
  /-- RING_CFG_WRITE, R178. -/
  | ringCfgWrite (r : RingRef) (v : Word64)
  /-- FENCE_AND_SCRUB, R187. -/
  | fenceAndScrub (m : HamletRef)
  /-- SCRUB_FILL, R187. -/
  | scrubFill (m : HamletRef) (stuck : List (Nat × Byte))
  /-- SCRUB_CHECK, R187. -/
  | scrubCheck (m : HamletRef)
  /-- GRANULE_SCRUB, R188. -/
  | granuleScrub (p : ParishRef) (g : Nat) (stuck : List (Nat × Byte))
  /-- HAMLET_GATE, R369. -/
  | hamletGate (m : HamletRef)
  /-- HAMLET_RETAIN, R369. -/
  | hamletRetain (m : HamletRef)
  /-- HAMLET_OFF, R369. -/
  | hamletOff (m : HamletRef)
  /-- HAMLET_WAKE, R370. -/
  | hamletWake (m : HamletRef)
  /-- COPY, R217. -/
  | copy (p : PorterRef)
  /-- GATHER, R217. -/
  | gather (p : PorterRef)
  /-- SCATTER, R217. -/
  | scatter (p : PorterRef)
  /-- REDUCE, R219. -/
  | reduce (p : PorterRef)
  /-- PORTER_DESC_WIN_PUSH, R215. -/
  | porterDescWinPush (p : PorterRef) (v : Word64)
  /-- PORTER_COMPLETE, R220. -/
  | porterComplete (p : PorterRef)
  /-- PORTER_HALTED_CLEAR, R221. -/
  | porterHaltedClear (p : PorterRef) (v : Word64)
  /-- TRANSLATION_MISS, R200. -/
  | translationMiss (d : Nat) (hh : Nat) (page : Nat) (bad : Nat)
  /-- GRANARY_FILL, R203. -/
  | granaryFill (p : ParishRef) (line : Nat) (bad : Bool)
  /-- LPDDR_READ, R207. -/
  | lpddrRead (c : CtlRef) (sector : Nat) (errs : List Nat) (link : LinkEcc) (job : Nat)
  /-- LPDDR_WRITE, R207. -/
  | lpddrWrite (c : CtlRef) (addr : Nat) (data : List Byte)
  /-- CORRECTION_REWRITE, R208. -/
  | correctionRewrite (c : Rewrite)
  /-- DAILY_READ_THROUGH, R208. -/
  | dailyReadThrough (c : CtlRef) (found : List SectorErr)
  /-- REFRESH_UPDATE, R212. -/
  | refreshUpdate (c : CtlRef) (temp : Nat)
  /-- SCAN, R235. -/
  | scan (p : ParishRef)
  /-- BUILD, R229. -/
  | build (p : ParishRef)
  /-- ENCODE, R226. -/
  | encode (p : ParishRef)
  /-- DECODE, R241. -/
  | decode (p : ParishRef)
  /-- LOADT, R235. -/
  | loadt (p : ParishRef)
  /-- MASKIDX, R239. -/
  | maskidx (p : ParishRef)
  /-- MERGE, R247. -/
  | merge (p : ParishRef)
  /-- PRESS_COMPLETE, R237. -/
  | pressComplete (p : ParishRef) (e : ParishEngine)
  /-- TABLE_SLOT_VISIBLE, R231. -/
  | tableSlotVisible (slot : Nat)
  /-- TALLY_SNOOP_UNIT, R269. -/
  | tallySnoopUnit (t : TallyRef)
  /-- TALLY_FLUSH, R270. -/
  | tallyFlush (t : TallyRef) (v : Word64)
  /-- TALLY_CTRL_WRITE, R273. -/
  | tallyCtrlWrite (t : TallyRef) (v : Word64)
  /-- TALLY_VALUE_WRITE, R268. -/
  | tallyValueWrite (t : TallyRef) (v : Word64)
  /-- STEP_BOUNDARY, R36. -/
  | stepBoundary (j : Nat)
  /-- STEP_REPLAY, R301. -/
  | stepReplay (j : Nat) (trace : Option Nat)
  /-- MIRROR_RESTORE, R301. -/
  | mirrorRestore (t : Nat) (b : Nat)
  /-- SIEVE_ROW, R294. -/
  | sieveRow (d : Nat) (j : Nat)
  /-- SIEVE_SAMPLE, R295. -/
  | sieveSample (j : Nat)
  /-- CELLAR_COPY_OUT, R290. -/
  | cellarCopyOut (e : Nat) (ok : Bool)
  /-- CELLAR_COPY_IN, R290. -/
  | cellarCopyIn (e : Nat) (ok : Bool)
  /-- EXPIRY, R290. -/
  | expiry (e : Nat)
  /-- FLIT_RECEIVE, R311. -/
  | flitReceive (l : Nat) (f : FlitIn)
  /-- NAK_REPLAY, R311. -/
  | nakReplay (l : Nat) (ack : BitVec 16)
  /-- ACK_TIMEOUT, R311. -/
  | ackTimeout (l : Nat)
  /-- ACK_SEND, R311. -/
  | ackSend (l : Nat)
  /-- WRITE, R317. -/
  | write (d : Nat)
  /-- READ, R309. -/
  | read (d : Nat)
  /-- FERRY_REDUCE, R309. -/
  | ferryReduce (d : Nat)
  /-- MSG, R326. -/
  | msg (d : Nat)
  /-- WACK, R317. -/
  | wack (d : Nat)
  /-- RDATA, R309. -/
  | rdata (d : Nat)
  /-- BELL, R327. -/
  | bell (d : Nat)
  /-- CTRL, R309. -/
  | ctrl (d : Nat) (reset : Option (BitVec 15))
  /-- MCRED, R326. -/
  | mcred (d : Nat)
  /-- BOUND_SLOT_SEND, R326. -/
  | boundSlotSend (r : RingRef)
  /-- LANDING_DETECT, R305. -/
  | landingDetect (l : Nat)
  /-- TRAIN, R306. -/
  | train (l : Nat) (o : TrainOutcome)
  /-- RETRAIN, R307. -/
  | retrain (l : Nat) (t : RetrainTrigger) (ok : Bool)
  /-- EDGE_REPLAY, R389. -/
  | edgeReplay (e : EdgeFlit)
  /-- EDGE_RETRAIN, R389. -/
  | edgeRetrain (die dir : Nat) (ok : Bool)
  /-- PB_CTRL_WRITE, R338. -/
  | pbCtrlWrite (fn : Nat) (k : Nat) (v : Word64)
  /-- PB_DOORBELL, R339. -/
  | pbDoorbell (fn : Nat) (k : Nat) (v : Word64) (hw : List HostWrite)
  /-- PB_CPL_HEAD_WRITE, R339. -/
  | pbCplHeadWrite (fn : Nat) (k : Nat) (v : Word64)
  /-- COMMAND_TAKE, R340. -/
  | commandTake (k : Nat)
  /-- COMPLETION_WRITE, R342. -/
  | completionWrite (k : Nat)
  /-- NOTICE, R345. -/
  | notice (k : Nat)
  /-- MSIX_HOLDOFF, R346. -/
  | msixHoldoff (k : Nat)
  /-- IDENTIFY, R350. -/
  | identify (k : Nat)
  /-- ECHO, R406. -/
  | echo (k : Nat)
  /-- LOGBOOK_READ, R401. -/
  | logbookRead (k : Nat)
  /-- LOGBOOK_CLEAR, R401. -/
  | logbookClear (k : Nat)
  /-- NOTICE_ROUTE, R345. -/
  | noticeRoute (k : Nat)
  /-- HH_OPEN, R351. -/
  | hhOpen (k : Nat)
  /-- HH_CLOSE, R351. -/
  | hhClose (k : Nat)
  /-- HH_QUOTA, R298. -/
  | hhQuota (k : Nat)
  /-- KEY_LOAD, R352. -/
  | keyLoad (k : Nat)
  /-- KEY_ERASE, R352. -/
  | keyErase (k : Nat)
  /-- MEM_MAP, R352. -/
  | memMap (k : Nat) (hint : Nat)
  /-- MEM_UNMAP, R352. -/
  | memUnmap (k : Nat)
  /-- BAR2_SET, R335. -/
  | bar2Set (k : Nat)
  /-- PRESS_SLOT, R230. -/
  | pressSlot (k : Nat) (hint : Nat)
  /-- ADMIT_BEGIN, R353. -/
  | admitBegin (k : Nat) (hint : Nat)
  /-- ADMIT_DATA, R353. -/
  | admitData (k : Nat)
  /-- ADMIT_END, R353. -/
  | admitEnd (k : Nat)
  /-- ADMIT_RESUME, R353. -/
  | admitResume (k : Nat)
  /-- ADMIT_ABORT, R350. -/
  | admitAbort (k : Nat)
  /-- WEIGHT_MAP, R353. -/
  | weightMap (k : Nat)
  /-- WEIGHT_UNMAP, R350. -/
  | weightUnmap (k : Nat)
  /-- WEIGHT_FREE, R353. -/
  | weightFree (k : Nat)
  /-- BLOCK_RELOAD, R354. -/
  | blockReload (k : Nat)
  /-- JOB_LOAD, R355. -/
  | jobLoad (k : Nat) (hint : Nat) (repair : List MillRef)
  /-- JOB_START, R355. -/
  | jobStart (k : Nat)
  /-- JOB_KILL, R355. -/
  | jobKill (k : Nat)
  /-- JOB_STATUS, R356. -/
  | jobStatus (k : Nat)
  /-- JOB_UNLOAD, R355. -/
  | jobUnload (k : Nat)
  /-- JOB_END, R355. -/
  | jobEnd (j : Nat)
  /-- JOB_TIME_LIMIT, R355. -/
  | jobTimeLimit (j : Nat)
  /-- JOB_FAULT, R393. -/
  | jobFault (j : Nat) (c : JobFaultCause)
  /-- SESSION_OPEN, R357. -/
  | sessionOpen (k : Nat) (hint : Nat)
  /-- SESSION_CLOSE, R357. -/
  | sessionClose (k : Nat)
  /-- SUBMIT, R357. -/
  | submit (k : Nat) (hint : Nat)
  /-- CANCEL, R278. -/
  | cancel (k : Nat)
  /-- PAUSE, R290. -/
  | pause (k : Nat)
  /-- RESUME, R290. -/
  | resume (k : Nat) (hint : Nat)
  /-- ADAPTER_LOAD, R299. -/
  | adapterLoad (k : Nat) (hint : Nat)
  /-- ADAPTER_RETIRE, R299. -/
  | adapterRetire (k : Nat)
  /-- GRAMMAR_LOAD, R293. -/
  | grammarLoad (k : Nat) (hint : Nat)
  /-- GRAMMAR_FREE, R357. -/
  | grammarFree (k : Nat)
  /-- LEDGER_QUERY, R350. -/
  | ledgerQuery (k : Nat)
  /-- TOPOLOGY_SET, R359. -/
  | topologySet (k : Nat) (b : BoardDesc)
  /-- LINK_ASSIGN, R359. -/
  | linkAssign (k : Nat)
  /-- LINK_STATUS, R350. -/
  | linkStatus (k : Nat)
  /-- POWER_CAP, R375. -/
  | powerCap (k : Nat)
  /-- POWER_STATE, R372. -/
  | powerState (k : Nat)
  /-- DETERMINISM, R257. -/
  | determinism (k : Nat)
  /-- LPDDR_SHARES, R213. -/
  | lpddrShares (k : Nat)
  /-- LOT_SEED, R64. -/
  | lotSeed (k : Nat)
  /-- SETTINGS_READ, R358. -/
  | settingsRead (k : Nat)
  /-- DIGEST_FLUSH, R270. -/
  | digestFlush (k : Nat)
  /-- LOOPBACK, R407. -/
  | loopback (k : Nat) (o : LoopOutcome)
  /-- WARM_RESET, R350. -/
  | warmReset (k : Nat)
  /-- BAR2_READ, R335. -/
  | bar2Read (fn : Nat) (off : Nat) (n : Nat)
  /-- BAR2_WRITE, R335. -/
  | bar2Write (fn : Nat) (off : Nat) (data : List Byte)
  /-- GOVERNOR_TICK, R376: what the regulators read, and the die temperatures in °C, in die order. -/
  | governorTick (regs : List RegRead) (temps : List Nat) (rails : RailRead)
  /-- LEVEL_CHANGE, R377. -/
  | levelChange
  /-- GOVERNOR_LIMIT, R376. -/
  | governorLimit
  /-- DOZE_ENTRY, R371. -/
  | dozeEntry
  /-- DOZE_EXIT, R371. -/
  | dozeExit
  /-- DEEP_EXIT, R374. -/
  | deepExit (good : Nat)
  /-- HEARTBEAT, R337. -/
  | heartbeat
  /-- COLD_BOOT, R379. -/
  | coldBoot (o : BootOutcome)
  /-- POWER_LOSS, R380. -/
  | powerLoss
  /-- WRST_N, R381. -/
  | wrstN (ns : Nat)
  /-- WARM_RESET_SEQUENCE, R381. -/
  | warmResetSequence (o : WarmOutcome)
  /-- PCIE_HOT_RESET, R381. -/
  | pcieHotReset (why : HotReset)
  /-- PF_FLR, R381. -/
  | pfFlr
  /-- VF_FLR, R334. -/
  | vfFlr (n : Nat)
  /-- THERMTRIP, R380. -/
  | thermtrip (d : Nat)
  /-- PMB_ALERT, R421. -/
  | pmbAlert (rail : Nat)
  /-- UNCORRECTABLE_PRIVATE, R394. -/
  | uncorrectablePrivate (x : BadWord)
  /-- SRAM_CORRECT, R387. -/
  | sramCorrect (a : SramPlace)
  /-- REGISTER_WRITE, R10. -/
  | registerWrite (who : RegAgent) (addr : Nat) (v : Word64)
  /-- IDCODE, R410. -/
  | idcode (d : Nat)
  /-- SAMPLE_PRELOAD, R411. -/
  | samplePreload (d : Nat)
  /-- EXTEST, R411. -/
  | extest (d : Nat)
  /-- EXTEST_PULSE, R411. -/
  | extestPulse (d : Nat)
  /-- EXTEST_TRAIN, R411. -/
  | extestTrain (d : Nat)
  /-- CLAMP, R411. -/
  | clamp (d : Nat)
  /-- HIGHZ, R411. -/
  | highz (d : Nat)
  /-- IJTAG, R412. -/
  | ijtag (d : Nat) (op : IjtagOp)
  /-- UNLOCK, R413. -/
  | unlock (d : Nat) (op : UnlockOp)
  /-- BYPASS, R411. -/
  | bypass (d : Nat) (code : Byte)
  /-- LOCK_FUSE, R413. -/
  | lockFuse (d : Nat)
  /-- ILLEGAL, R134. -/
  | illegal (h : HandRef)
  /-- VF_ENABLE, R334. -/
  | vfEnable (n : Nat)
  /-- WRST_N_DEASSERT, R381. -/
  | wrstNDeassert (o : WarmOutcome)
  /-- PERST_N_DEASSERT, R379. -/
  | perstNDeassert
deriving DecidableEq, Repr, Inhabited

end Sys2Proof
end

