-- ==== Sys2Proof/WellFormed.lean ====
section
/-! DEFINITION. Which commands are well formed: the numbers in a command name units of the largest part (Table 0.3, Table
1.1) and the amounts of data are those of their rules. -/

namespace Sys2Proof

/-- Dies 0-7, slots 0-17 (Table 0.3). -/
def HamletRef.wf (m : HamletRef) : Bool := decide (m.die < 8) && decide (m.slot < 18)
/-- Mills 0-3 of a slot. -/
def MillRef.wf (u : MillRef) : Bool := decide (u.die < 8) && decide (u.slot < 18) && decide (u.idx < 4)
/-- Hands 0-3 of a slot. -/
def HandRef.wf (h : HandRef) : Bool := decide (h.die < 8) && decide (h.slot < 18) && decide (h.idx < 4)
/-- Rings 0-63 of a slot (R168). -/
def RingRef.wf (r : RingRef) : Bool := decide (r.die < 8) && decide (r.slot < 18) && decide (r.idx < 64)
/-- Parishes 0-3 of a die. -/
def ParishRef.wf (p : ParishRef) : Bool := decide (p.die < 8) && decide (p.par < 4)
/-- Controllers 0-5 of a die (R205). -/
def CtlRef.wf (c : CtlRef) : Bool := decide (c.die < 8) && decide (c.ctl < 6)
/-- Four edges of a die (R389). -/
def EdgeRef.wf (e : EdgeRef) : Bool := decide (e.die < 8) && decide (e.dir < 4)
/-- An edge flit has at most 256 bytes, and a direction of an edge 450 lanes (R22, R389). -/
def EdgeFlit.wf (f : EdgeFlit) : Bool :=
  f.edge.wf && (f.sent.all fun b => decide (b.length ≤ 256)) && decide (f.got.length ≤ 256) && f.lanes.all fun l => decide (l < 450)
/-- Porters 0-1 of a hamlet and 0-3 of a parish (R215). -/
def PorterRef.wf : PorterRef → Bool
  | .hamlet d s n => decide (d < 8) && decide (s < 18) && decide (n < 2)
  | .parish d p n => decide (d < 8) && decide (p < 4) && decide (n < 4)
/-- Tally units 0-1 of a hamlet and of a parish (R265). -/
def TallyRef.wf : TallyRef → Bool
  | .hamlet d s n => decide (d < 8) && decide (s < 18) && decide (n < 2)
  | .parish d p n => decide (d < 8) && decide (p < 4) && decide (n < 2)
/-- A flit is 256 bytes (R308). -/
def FlitIn.wf (f : FlitIn) : Bool := decide (f.raw.length = 256)
/-- The structures that R153 numbers: registers, the control registers of Table 5.8, the words of the buffer. -/
def HwPlace.wf : HwPlace → Bool
  | .scalar n => decide (n < 32)
  | .vector n => decide (n < 32)
  | .predicate n => decide (n < 8)
  | .control c => decide (c ≤ 0x00D)
  | .buffer o => decide (o < 0x8000)
/-- The words of a Mill's two weight sets and its staging buffer of 64 KiB (R71, R90), and a die. -/
def BadWord.wf : BadWord → Bool
  | .data a => decide (a < 2 ^ 48)
  | .weights u k => u.wf && decide (k < 2)
  | .staging u w => u.wf && decide (w < 8192)
  | .firmware d => decide (d < 8)

/-- The places of class 1 of Table 14.3. -/
def SramPlace.wf : SramPlace → Bool
  | .slot m _ => m.wf
  | .granary p _ => p.wf
  | .parishLogic p => p.wf
  | .sieveLedger d => decide (d < 8)
  | .reeve d => decide (d < 8)
/-- Functions 0 (PF) to 15 and Reeves. -/
def RegAgent.wf : RegAgent → Bool
  | .host fn => decide (fn < 16)
  | .reeve d => decide (d < 8)
/-- A host write lies in the 64-bit bus address space. -/
def HostWrite.wf (w : HostWrite) : Bool := decide (w.addr + w.data.length ≤ 2 ^ 64)
/-- Four codewords of 136 symbols (R208). -/
def SectorErr.wf (e : SectorErr) : Bool := decide (e.errs.length = 4) && e.errs.all fun n => decide (n ≤ 136)
/-- A description of at most 24 links and 16 packages (R320, R325). -/
def BoardDesc.wf (b : BoardDesc) : Bool := decide (b.links.length ≤ 24) && decide (b.group.length ≤ 16)
/-- Slots and granules that exist. -/
def BankTest.wf (o : BankTest) : Bool :=
  o.badSlots.all HamletRef.wf && o.mendedSlots.all HamletRef.wf && o.badGranules.all (fun c => c.1.wf && decide (c.2 < 40)) &&
    o.mendedGranules.all fun c => c.1.wf && decide (c.2 < 40)
/-- One outcome for each of at most 48 sites, and slots that exist. -/
def BootOutcome.wf (o : BootOutcome) : Bool :=
  decide (o.sites.length ≤ 48) && o.badSlots.all HamletRef.wf && o.repaired.all HamletRef.wf && o.banks.wf

/-- State that a unit holds (R66, R131, R134). -/
def DebugPlace.wf : DebugPlace → Bool
  | .weight u k _ _ => u.wf && decide (k < 2)
  | .scale u k c => u.wf && decide (k < 2) && decide (c < 128)
  | .setBias u k => u.wf && decide (k < 2)
  | .staging u i => u.wf && decide (i < 65536)
  | .acc u l _ => u.wf && decide (l < 1024)
  | .accTag u l => u.wf && decide (l < 1024)
  | .accBias u l => u.wf && decide (l < 1024)
  | .scalar h i => h.wf && decide (i < 32)
  | .vector h i => h.wf && decide (i < 32)
  | .predicate h i => h.wf && decide (i < 8)
  | .pc h => h.wf
  | .ibuf h i => h.wf && decide (i < 8192)
  | .expander h _ _ => h.wf
  | .pressTable k i => decide (k < 16) && decide (i < 128)
/-- The state that a debug port moves. -/
def IjtagOp.wf : IjtagOp → Bool
  | .peek p | .poke p _ => p.wf
  | .read _ _ | .run _ | .write _ _ | .blowLock => true

/-- A command names units, numbers and amounts of data that exist on some Atoltu 88. -/
def Instr.wf : Instr → Bool
  | .loadW u => u.wf
  | .tritMm u _ => u.wf
  | .binMm u _ => u.wf
  | .logMm u => u.wf
  | .finish u _ => u.wf
  | .range u => u.wf
  | .fence u => u.wf
  | .digestTag u => u.wf
  | .millDispatch u => u.wf
  | .millDescWinPush u _ => u.wf
  | .millRingFetch u => u.wf
  | .millQctrlWrite u _ => u.wf
  | .modeChangeApply u => u.wf
  | .haltedClear u _ => u.wf
  | .classDrain u => u.wf
  | .millRingWait u => u.wf
  | .int h => h.wf
  | .div h => h.wf
  | .addi h => h.wf
  | .shi h => h.wf
  | .lui h => h.wf
  | .luih h => h.wf
  | .br h => h.wf
  | .pbr h => h.wf
  | .jal h => h.wf
  | .jalr h => h.wf
  | .localLoad h => h.wf
  | .localStore h => h.wf
  | .vld h => h.wf
  | .vst h => h.wf
  | .vstn h => h.wf
  | .gld h => h.wf
  | .gst h => h.wf
  | .gvld h => h.wf
  | .gvst h => h.wf
  | .gvstn h => h.wf
  | .hfence h => h.wf
  | .csr h => h.wf
  | .vi h => h.wf
  | .vf h => h.wf
  | .vx h => h.wf
  | .vrsum h => h.wf
  | .vc h => h.wf
  | .tern h => h.wf
  | .packt h => h.wf
  | .unpackt h => h.wf
  | .pr h => h.wf
  | .wait h => h.wf
  | .eret h => h.wf
  | .halt h => h.wf
  | .trap h => h.wf
  | .ibld h => h.wf
  | .rget h => h.wf
  | .rgetx h => h.wf
  | .rrel h => h.wf
  | .rrsv h => h.wf
  | .rpub h => h.wf
  | .vrx h => h.wf
  | .badd h => h.wf
  | .bwait h => h.wf
  | .bread h => h.wf
  | .lot h => h.wf
  | .pissue h => h.wf
  | .mpush h => h.wf
  | .tfeed h => h.wf
  | .trd h => h.wf
  | .twr h => h.wf
  | .hwFault h w => h.wf && w.wf
  | .eventTake h => h.wf
  | .ringWaitEnd r => r.wf
  | .ringStall r _ => r.wf
  | .waitStall h => h.wf
  | .pushStall h => h.wf
  | .bwaitSatisfied h => h.wf
  | .bellAddApply _ => true
  | .ringCfgWrite r _ => r.wf
  | .fenceAndScrub m => m.wf
  | .scrubFill m stuck => m.wf && stuck.all fun c => decide (c.1 < 0x600000)
  | .scrubCheck m => m.wf
  | .granuleScrub p g stuck => p.wf && decide (g < 40) && stuck.all fun c => decide (c.1 < 0x100000)
  | .hamletGate m => m.wf
  | .hamletRetain m => m.wf
  | .hamletOff m => m.wf
  | .hamletWake m => m.wf
  | .copy p => p.wf
  | .gather p => p.wf
  | .scatter p => p.wf
  | .reduce p => p.wf
  | .porterDescWinPush p _ => p.wf
  | .porterComplete p => p.wf
  | .porterHaltedClear p _ => p.wf
  | .translationMiss d hh _ _ => decide (d < 8) && decide (hh < 64)
  | .granaryFill p _ _ => p.wf
  | .lpddrRead c _ errs _ _ => c.wf && decide (errs.length = 4) && errs.all fun n => decide (n ≤ 136)
  | .lpddrWrite c _ data => c.wf && decide (0 < data.length)
  | .correctionRewrite c => c.ctl.wf
  | .dailyReadThrough c found => c.wf && found.all SectorErr.wf
  | .refreshUpdate c _ => c.wf
  | .scan p => p.wf
  | .build p => p.wf
  | .encode p => p.wf
  | .decode p => p.wf
  | .loadt p => p.wf
  | .maskidx p => p.wf
  | .merge p => p.wf
  | .pressComplete p _ => p.wf
  | .tableSlotVisible slot => decide (0 < slot) && decide (slot < 16)
  | .tallySnoopUnit t => t.wf
  | .tallyFlush t _ => t.wf
  | .tallyCtrlWrite t _ => t.wf
  | .tallyValueWrite t _ => t.wf
  | .stepBoundary j => decide (0 < j) && decide (j < 65536)
  | .stepReplay j _ => decide (0 < j) && decide (j < 65536)
  | .mirrorRestore _ _ => true
  | .sieveRow d j => decide (d < 8) && decide (0 < j) && decide (j < 65536)
  | .sieveSample j => decide (0 < j) && decide (j < 65536)
  | .cellarCopyOut e _ => decide (e < 16384)
  | .cellarCopyIn e _ => decide (e < 16384)
  | .expiry e => decide (e < 16384)
  | .flitReceive l f => decide (l < 24) && f.wf
  | .nakReplay l _ => decide (l < 24)
  | .ackTimeout l => decide (l < 24)
  | .ackSend l => decide (l < 24)
  | .write d => decide (d < 8)
  | .read d => decide (d < 8)
  | .ferryReduce d => decide (d < 8)
  | .msg d => decide (d < 8)
  | .wack d => decide (d < 8)
  | .rdata d => decide (d < 8)
  | .bell d => decide (d < 8)
  | .ctrl d _ => decide (d < 8)
  | .mcred d => decide (d < 8)
  | .boundSlotSend r => r.wf
  | .landingDetect l => decide (l < 24)
  | .train l _ => decide (l < 24)
  | .retrain l _ _ => decide (l < 24)
  | .edgeReplay e => e.wf
  | .edgeRetrain die dir _ => EdgeRef.wf ⟨die, dir⟩
  | .pbCtrlWrite fn k _ => decide (fn < 16) && decide (k < 16)
  | .pbDoorbell fn k _ hw => decide (fn < 16) && decide (k < 16) && hw.all HostWrite.wf
  | .pbCplHeadWrite fn k _ => decide (fn < 16) && decide (k < 16)
  | .commandTake k => decide (k < 16)
  | .completionWrite k => decide (k < 16)
  | .notice k => decide (k < 16)
  | .msixHoldoff k => decide (k < 16)
  | .identify k => decide (k < 16)
  | .echo k => decide (k < 16)
  | .logbookRead k => decide (k < 16)
  | .logbookClear k => decide (k < 16)
  | .noticeRoute k => decide (k < 16)
  | .hhOpen k => decide (k < 16)
  | .hhClose k => decide (k < 16)
  | .hhQuota k => decide (k < 16)
  | .keyLoad k => decide (k < 16)
  | .keyErase k => decide (k < 16)
  | .memMap k _ => decide (k < 16)
  | .memUnmap k => decide (k < 16)
  | .bar2Set k => decide (k < 16)
  | .pressSlot k _ => decide (k < 16)
  | .admitBegin k _ => decide (k < 16)
  | .admitData k => decide (k < 16)
  | .admitEnd k => decide (k < 16)
  | .admitResume k => decide (k < 16)
  | .admitAbort k => decide (k < 16)
  | .weightMap k => decide (k < 16)
  | .weightUnmap k => decide (k < 16)
  | .weightFree k => decide (k < 16)
  | .blockReload k => decide (k < 16)
  | .jobLoad k _ _ => decide (k < 16)
  | .jobStart k => decide (k < 16)
  | .jobKill k => decide (k < 16)
  | .jobStatus k => decide (k < 16)
  | .jobUnload k => decide (k < 16)
  | .jobEnd j => decide (0 < j) && decide (j < 65536)
  | .jobTimeLimit j => decide (0 < j) && decide (j < 65536)
  | .jobFault j _ => decide (0 < j) && decide (j < 65536)
  | .sessionOpen k _ => decide (k < 16)
  | .sessionClose k => decide (k < 16)
  | .submit k _ => decide (k < 16)
  | .cancel k => decide (k < 16)
  | .pause k => decide (k < 16)
  | .resume k _ => decide (k < 16)
  | .adapterLoad k _ => decide (k < 16)
  | .adapterRetire k => decide (k < 16)
  | .grammarLoad k _ => decide (k < 16)
  | .grammarFree k => decide (k < 16)
  | .ledgerQuery k => decide (k < 16)
  | .topologySet k b => decide (k < 16) && b.wf
  | .linkAssign k => decide (k < 16)
  | .linkStatus k => decide (k < 16)
  | .powerCap k => decide (k < 16)
  | .powerState k => decide (k < 16)
  | .determinism k => decide (k < 16)
  | .lpddrShares k => decide (k < 16)
  | .lotSeed k => decide (k < 16)
  | .settingsRead k => decide (k < 16)
  | .digestFlush k => decide (k < 16)
  | .loopback k _ => decide (k < 16)
  | .warmReset k => decide (k < 16)
  | .bar2Read fn _ n => decide (fn < 16) && decide (0 < n) && decide (n ≤ 4096)
  | .bar2Write fn _ data => decide (fn < 16) && decide (0 < data.length) && decide (data.length ≤ 4096)
  | .governorTick regs temps _ => (regs.all fun r => decide (r.rail < 32)) && decide (temps.length ≤ 8)
  | .levelChange => true
  | .governorLimit => true
  | .dozeEntry => true
  | .dozeExit => true
  | .deepExit good => decide (good ≤ 2)
  | .heartbeat => true
  | .coldBoot o => o.wf
  | .powerLoss => true
  | .wrstN _ => true
  | .warmResetSequence _ => true
  | .pcieHotReset _ => true
  | .pfFlr => true
  | .vfFlr n => decide (0 < n) && decide (n < 16)
  | .thermtrip d => decide (d < 8)
  | .pmbAlert _ => true
  | .uncorrectablePrivate x => x.wf
  | .sramCorrect a => a.wf
  | .registerWrite who _ _ => who.wf
  | .idcode d => decide (d < 8)
  | .samplePreload d => decide (d < 8)
  | .extest d => decide (d < 8)
  | .extestPulse d => decide (d < 8)
  | .extestTrain d => decide (d < 8)
  | .clamp d => decide (d < 8)
  | .highz d => decide (d < 8)
  | .ijtag d op => decide (d < 8) && op.wf
  | .unlock d _ => decide (d < 8)
  | .bypass d _ => decide (d < 8)
  | .lockFuse d => decide (d < 8)
  | .illegal h => h.wf
  | .vfEnable n => decide (n < 16)
  | .wrstNDeassert _ => true
  | .perstNDeassert => true

end Sys2Proof
end

