-- ==== Sys2Proof/Machine/Bits.lean ====
section
/-! DEFINITION. Bit fields, byte order and sign extension (R39, R104). -/

namespace Sys2Proof.Machine

/-- Bits [lo + len - 1 : lo] of a number. -/
def bitsOf (v lo len : Nat) : Nat := (v >>> lo) % 2 ^ len

/-- Bit `i` of a number. -/
def bitAt (v i : Nat) : Bool := (v >>> i) % 2 == 1

/-- Bits [lo + len - 1 : lo] of a word. -/
def fieldOf {n : Nat} (w : BitVec n) (lo len : Nat) : Nat := bitsOf w.toNat lo len

/-- A truth value as the number of a one-bit field. -/
def flag (b : Bool) : Nat := if b then 1 else 0

/-- The number whose `len` low bits are two's complement, as an integer. -/
def signed (len v : Nat) : Int := if bitAt v (len - 1) then (v % 2 ^ len : Nat) - (2 ^ len : Nat) else (v % 2 ^ len : Nat)

/-- An integer's two's complement in `len` bits, as a number. -/
def unsigned (len : Nat) (i : Int) : Nat := (i % (2 ^ len : Nat)).toNat

/-- A number's `n` low bytes, least significant first (R39). -/
def toBytes : Nat → Nat → List Byte
  | 0, _ => []
  | n + 1, v => BitVec.ofNat 8 v :: toBytes n (v / 256)

/-- The number that bytes spell, least significant first (R39). -/
def ofBytes : List Byte → Nat
  | [] => 0
  | b :: bs => b.toNat + 256 * ofBytes bs

/-- The bytes of a list, `n` at a time. -/
def chunks {α : Type} (n : Nat) (l : List α) : List (List α) :=
  (List.range ((l.length + (n - 1)) / (if n = 0 then 1 else n))).map fun i => (l.drop (n * i)).take n

/-- The numbers that a byte list spells, `n` bytes each. -/
def words (n : Nat) (l : List Byte) : List Nat := (chunks n l).map ofBytes

/-- Bytes from `a` on, `n` of them, with zeros past the end. -/
def slice (l : List Byte) (a n : Nat) : List Byte :=
  (l.drop a).take n ++ List.replicate (n - (l.length - a)) 0

/-- The number in bytes `a` to `a + n - 1` of a record. -/
def recNat (l : List Byte) (a n : Nat) : Nat := ofBytes (slice l a n)

/-- A list padded with zero bytes to a multiple of `n`. -/
def padTo (n : Nat) (l : List Byte) : List Byte := l ++ List.replicate ((n - l.length % n) % n) 0

/-- Lane `i` of width `w` of a vector register (R130). -/
def lane (w : Nat) (v : Vec) (i : Nat) : Nat := bitsOf v.toNat (w * i) w

/-- The vector register whose lanes of width `w` are the numbers given (R130). -/
def ofLanes (w : Nat) (l : List Nat) : Vec := BitVec.ofNat 512 ((l.zipIdx.map fun (x, i) => (x % 2 ^ w) <<< (w * i)).foldl (· + ·) 0)

/-- The 64 bytes of a vector register or descriptor. -/
def vecBytes (v : Vec) : List Byte := toBytes 64 v.toNat

/-- The vector register that up to 64 bytes spell. -/
def vecOf (l : List Byte) : Vec := BitVec.ofNat 512 (ofBytes l)

/-- ceil (a / b). -/
def ceilDiv (a b : Nat) : Nat := (a + (b - 1)) / b

/-- A counter that stops at its largest value. -/
def satAdd {n : Nat} (c : BitVec n) (k : Nat) : BitVec n := BitVec.ofNat n (min (c.toNat + k) (2 ^ n - 1))

/-- The first numbers of a list that add up to `n`, and whether they do. -/
def takeSum : List Nat → Nat → Option Nat
  | _, 0 => some 0
  | [], _ + 1 => none
  | a :: t, n + 1 => if n + 1 < a then none else (takeSum t (n + 1 - a)).map (· + 1)

end Sys2Proof.Machine
end

