-- ==== Sys2Proof/Machine/Tables.lean ====
section
/-! DEFINITION. The containers of the state: sorted tables with a default for what is not listed, byte memory in canonical
form (log entry 4), and sorted sets of numbers. -/

namespace Sys2Proof.Machine

/-- A table from numbers to values, in rising order of key. What an unlisted key reads as is said where it is read. -/
structure Tab (α : Type) where
  cells : List (Nat × α) := []
deriving DecidableEq, Repr, Inhabited

/-- The value listed at a key of a rising list. -/
def lookupCell {α : Type} : List (Nat × α) → Nat → Option α
  | [], _ => none
  | (a, x) :: t, k => if k < a then none else if k = a then some x else lookupCell t k

/-- A rising list with a key set to a value. -/
def insertCell {α : Type} : List (Nat × α) → Nat → α → List (Nat × α)
  | [], k, v => [(k, v)]
  | (a, x) :: t, k, v =>
    if k < a then (k, v) :: (a, x) :: t
    else if k = a then (k, v) :: t
    else (a, x) :: insertCell t k v

/-- A rising list without a key. -/
def eraseCell {α : Type} : List (Nat × α) → Nat → List (Nat × α)
  | [], _ => []
  | (a, x) :: t, k => if k < a then (a, x) :: t else if k = a then t else (a, x) :: eraseCell t k

/-- The listed value at `k`. -/
def Tab.find {α : Type} (t : Tab α) (k : Nat) : Option α := lookupCell t.cells k

/-- The value at `k`, which is `d` where `k` is not listed. -/
def Tab.get {α : Type} (t : Tab α) (d : α) (k : Nat) : α := (t.find k).getD d

/-- The table with `k` set to `v`. -/
def Tab.set {α : Type} (t : Tab α) (k : Nat) (v : α) : Tab α := ⟨insertCell t.cells k v⟩

/-- The table without `k`. -/
def Tab.del {α : Type} (t : Tab α) (k : Nat) : Tab α := ⟨eraseCell t.cells k⟩

/-- The keys listed. -/
def Tab.keys {α : Type} (t : Tab α) : List Nat := t.cells.map Prod.fst

/-- Every listed value changed by `f`. -/
def Tab.mapV {α : Type} (f : Nat → α → α) (t : Tab α) : Tab α := ⟨t.cells.map fun c => (c.1, f c.1 c.2)⟩

/-- The listed entries that satisfy `p`. -/
def Tab.keep {α : Type} (p : Nat → α → Bool) (t : Tab α) : Tab α := ⟨t.cells.filter fun c => p c.1 c.2⟩

/-- The first number below `n`, from `hint` on and then round from 0, that satisfies `p` (a free choice of the firmware,
log entry 14). -/
def pickFree (p : Nat → Bool) (lo n hint : Nat) : Option Nat :=
  ((List.range n).map fun i => lo + (hint + i) % (if n = 0 then 1 else n)).find? p

/-! Memory. -/

/-- Byte memory: rising addresses, no byte equal to what an unlisted address reads as. -/
abbrev Memory := List Host.Cell

/-- What a byte of memory that nothing has written reads as: 0x00 (DESIGN CHOICE, log entry 4; unsafe). -/
def Memory.unlisted : Byte := 0#8

/-- The byte at an address. -/
def Memory.read (m : Memory) (a : Nat) : Byte := (lookupCell m a).getD Memory.unlisted

/-- Memory with one byte written, in canonical form. -/
def Memory.write (m : Memory) (a : Nat) (b : Byte) : Memory :=
  if b = Memory.unlisted then eraseCell m a else insertCell m a b

/-- The cells of a run of bytes from an address: the bytes that an unlisted address does not read as. -/
def cellsOf : Nat → List Byte → Memory
  | _, [] => []
  | a, b :: bs => if b = Memory.unlisted then cellsOf (a + 1) bs else (a, b) :: cellsOf (a + 1) bs

/-- Bytes written upward from an address. -/
def Memory.writeBytes (m : Memory) (a : Nat) (l : List Byte) : Memory :=
  (m.filter fun c => decide (c.1 < a)) ++ cellsOf a l ++ m.filter fun c => decide (a + l.length ≤ c.1)

/-- `n` bytes from address `a` on of cells that begin at `a` or above. -/
def bytesFrom : Nat → Nat → Memory → List Byte
  | 0, _, _ => []
  | n + 1, a, [] => Memory.unlisted :: bytesFrom n (a + 1) []
  | n + 1, a, (k, b) :: t => if k = a then b :: bytesFrom n (a + 1) t else Memory.unlisted :: bytesFrom n (a + 1) ((k, b) :: t)

/-- `n` bytes read upward from an address. -/
def Memory.readBytes (m : Memory) (a n : Nat) : List Byte := bytesFrom n a (m.filter fun c => decide (a ≤ c.1))

/-- Memory with the bytes from `a` to `a + n - 1` zero. -/
def Memory.zero (m : Memory) (a n : Nat) : Memory := m.filter fun c => c.1 < a || a + n ≤ c.1

/-- The canonical form: addresses strictly rising, no entry equal to what an unlisted address reads as. -/
def Memory.wf : Memory → Bool
  | [] => true
  | [c] => c.2 != Memory.unlisted
  | c :: c' :: t => c.2 != Memory.unlisted && decide (c.1 < c'.1) && Memory.wf (c' :: t)

/-! Sorted sets of numbers. -/

/-- A rising list of numbers with one put in. -/
def setInsert : List Nat → Nat → List Nat
  | [], k => [k]
  | a :: t, k => if k < a then k :: a :: t else if k = a then a :: t else a :: setInsert t k

/-- A list of numbers without those from `a` to `a + n - 1`. -/
def setErase (s : List Nat) (a n : Nat) : List Nat := s.filter fun x => x < a || a + n ≤ x

end Sys2Proof.Machine
end

