-- ==== Sys2Proof/Machine/State.lean ====
section
/-! DEFINITION. The state of one Atoltu 88 package as plain data: every register, FIFO, buffer, counter, mode and pin that
spec/ gives it (INVENTORY.md lists them with rule and reset value), the queue of waiting commands, and the state after
power-on. -/

namespace Sys2Proof.Machine

/-! ## Variant (R4 to R6, R192) -/

/-- Die count of the part (R4). -/
inductive DieCount
  | two
  | four
  | eight
deriving DecidableEq, Repr, Inhabited

/-- Speed grade -15 or -13 (R6). -/
inductive Grade
  | g15
  | g13
deriving DecidableEq, Repr, Inhabited

/-- Stepping (R4). -/
inductive Stepping
  | a0
  | b0
deriving DecidableEq, Repr, Inhabited

/-- Density of every LPDDR5X site (R192). -/
inductive Density
  | gib64
  | gib128
deriving DecidableEq, Repr, Inhabited

/-- The ordering code, the board's memory and its straps (STRAP_SMB_ADDR, R421; STRAP_PCIE_CLK, R420): what never changes while the part
lives. -/
structure Part where
  dies : DieCount
  grade : Grade
  stepping : Stepping
  density : Density
  strapSmbAddr : BitVec 2 := 0
  strapPcieClk : Bool := false
deriving DecidableEq, Repr, Inhabited

/-! ## Mill (03, 04) -/

/-- A ternary weight (R40). -/
inductive Trit
  | neg
  | zero
  | pos
deriving DecidableEq, Repr, Inhabited

/-- The stationary tile of a weight set, by column (R71). -/
inductive Tile
  | none
  | trit (cols : List (List Trit)) (scales : List (BitVec 16))
  | binary (cols : List (List Bool))
  | lns (cols : List (List Byte)) (bias : Byte)
deriving DecidableEq, Repr, Inhabited

/-- A weight set with what LOAD_W computes for it (R73, R76) and the poison mark of R82. -/
structure WeightSet where
  tile : Tile := .none
  gmax : Nat := 0
  gpmax : Nat := 0
  poisoned : Bool := false
deriving DecidableEq, Repr, Inhabited

/-- Format tag of an accumulator line (R83). -/
inductive AccTag
  | empty
  | int32
  | bin
  | lns16
deriving DecidableEq, Repr, Inhabited

/-- One accumulator element: its value (INT32, or LNS16 in the low 16 bits), its carried residue (0b111 is "none", R51)
and its saturation mark (R47, R48). -/
structure AccElem where
  val : Word32 := 0
  res : BitVec 3 := 0
  mark : Bool := false
deriving DecidableEq, Repr, Inhabited

/-- One accumulator line (R83): 64 elements of an integer tile or 128 of an LNS16 tile; `wide` where a transposed tile wrote it (R128);
`span` the first line and the end of the tile in progress that it belongs to (R85). -/
structure AccLine where
  tag : AccTag := .empty
  wide : Bool := false
  poison : Bool := false
  bias : BitVec 32 := 0
  elems : List AccElem := []
  span : Option (Nat × Nat) := none
deriving DecidableEq, Repr, Inhabited

/-- Arithmetic class of the datapath (R86, R102). -/
inductive MillClass
  | none
  | integer
  | logarithmic
deriving DecidableEq, Repr, Inhabited

/-- A dispatched descriptor: its dispatch number and the MILL_LAYER it captured (R119). -/
structure Dispatched where
  seq : Nat
  desc : Vec
  layer : Word32
deriving DecidableEq, Repr, Inhabited

/-- MILL_STICKY (Table 3.10). -/
structure MillSticky where
  clipSat : Bool := false
  widenRefused : Bool := false
  accSat : Bool := false
  expErr : Bool := false
  poisonIn : Bool := false
  residueCorr : Bool := false
  residueFail : Bool := false
  finishResidue : Bool := false
deriving DecidableEq, Repr, Inhabited

/-- MILL_FIRST_ERR (Table 3.11). -/
structure MillFirstErr where
  tile : Word32 := 0
  cause : BitVec 3 := 0
  row : BitVec 10 := 0
deriving DecidableEq, Repr, Inhabited

/-- MILL_QSTATUS flags (Table 4.10). -/
structure MillQStatus where
  dropped : Bool := false
  badType : Bool := false
  poisonDesc : Bool := false
  shortSlot : Bool := false
  halted : Bool := false
  foreign : Bool := false
deriving DecidableEq, Repr, Inhabited

/-- A ring slot: the ring and the slot's index. -/
structure SlotRef where
  ring : RingRef
  idx : Nat
deriving DecidableEq, Repr, Inhabited

/-- A claimed descriptor-ring slot and its descriptors that have not yet entered the queue (R122, R123); `dead` once its release has met a
disabled ring, where it waits for good (R178). -/
structure DescSlot where
  slot : SlotRef
  rest : List Vec
  dead : Bool := false
deriving DecidableEq, Repr, Inhabited

/-- A slot's payload as an engine took it (R107): its declared format and bias, its bytes and whether it is poisoned. -/
structure SlotIn where
  fmt : BitVec 4
  bias : Byte
  poison : Bool
  bytes : List Byte
deriving DecidableEq, Repr, Inhabited

/-- A descriptor that a unit of a Mill has started and the slots it has taken so far (R70, R107). -/
structure MillRun where
  d : Dispatched
  taken : List SlotIn
deriving DecidableEq, Repr, Inhabited

/-- Who stores to a register of a unit (R121, R196): a Hand, a Porter, an engine of a parish, the host (whose window reaches no register, R19), another package, a
Reeve or debug. -/
inductive Writer
  | hand (h : HandRef)
  | porter (p : PorterRef)
  | engine (p : ParishRef) (e : ParishEngine)
  | host
  | remote (coord : BitVec 15) (die : BitVec 3)
  | reeve
  | debug
deriving DecidableEq, Repr, Inhabited

/-- Whether a write is made by a Reeve or debug, which keep to the RSVD bits and write what compiled code may not (R185). -/
def Writer.trusted : Writer → Bool
  | .reeve => true
  | .debug => true
  | _ => false

/-- A Mill (R68 to R103, R120 to R125); `winBy` names those who have stored to the push window since the last push, `pushPtr` is the
pointer of R158. -/
structure Mill where
  sets : Tab WeightSet := {}
  acc : Tab AccLine := {}
  staging : List Byte := []
  stagingBad : List Nat := []
  queue : List Vec := []
  loadQ : List Dispatched := []
  compQ : List Dispatched := []
  finQ : List Dispatched := []
  loadRun : Option MillRun := none
  compRun : Option MillRun := none
  finRun : Option MillRun := none
  nextSeq : Nat := 0
  cls : MillClass := .none
  draining : Bool := false
  sticky : MillSticky := {}
  recomputes : BitVec 16 := 0
  widened : BitVec 16 := 0
  clipped : BitVec 16 := 0
  firstErr : MillFirstErr := {}
  retirePending : Bool := false
  ringMode : Bool := false
  dring : BitVec 16 := 0
  pendMode : Option (Bool × BitVec 16) := none
  qstatus : MillQStatus := {}
  accepted : Word32 := 0
  fenceToken : Word32 := 0
  fences : Word32 := 0
  layer : Word32 := 0
  badDesc : Word64 := 0
  win : Tab Word64 := {}
  winBy : List Writer := []
  dslot : Option DescSlot := none
  pushPtr : Nat := 0
deriving DecidableEq, Repr, Inhabited

/-! ## Hand (05) -/

/-- Whether a Hand runs (R146, R153, R159). -/
inductive HandMode
  | stopped
  | running
  | halted
  | faulted
deriving DecidableEq, Repr, Inhabited

/-- What a waiting Hand waits for (R154, R140, R317); `disabled` is the wait that never ends of a release or publish on a disabled ring
(R178). -/
inductive HandWait
  | none
  | claim (r : RingRef) (expand : Bool)
  | reserve (r : RingRef)
  | bell (ctr : Nat) (target : Word32) (satisfied : Bool)
  | porter (p : PorterRef)
  | mill (u : MillRef)
  | sleep
  | remote
  | disabled
deriving DecidableEq, Repr, Inhabited

/-- A block in a buffer of an expander (R241): its decoded bytes that have not been taken; damage that its first byte meets; or a LEN after which
no block can be found (R428). -/
inductive ExpBlock
  | data (l : List Byte)
  | damaged
  | lost
deriving DecidableEq, Repr, Inhabited

/-- A Press expander attached to a slot (R147): the bytes of the blocks that have not been started, the blocks in its buffers in stream
order, and whether the slot is poisoned. -/
structure Expander where
  slot : SlotRef
  rest : List Byte
  bufs : List ExpBlock
  poisoned : Bool
deriving DecidableEq, Repr, Inhabited

/-- A Hand (R129, Table 5.8). -/
structure Hand where
  sregs : Tab Word64 := {}
  vregs : Tab Vec := {}
  pregs : Tab Word64 := {}
  pc : Word64 := 0
  ibuf : Tab Word32 := {}
  mode : HandMode := .stopped
  wait : HandWait := .none
  waitFrom : Nat := 0
  stalled : Bool := false
  hamlet : BitVec 4 := 0
  evEn : Bool := false
  inHandler : Bool := false
  fault : Bool := false
  causeCode : Byte := 0
  causeEvent : Bool := false
  epc : BitVec 15 := 0
  tval : Word64 := 0
  xvec : BitVec 15 := 0
  evec : BitVec 15 := 0
  evPend : BitVec 6 := 0
  evMask : BitVec 6 := 0
  flags : BitVec 4 := 0
  seed : Word64 := 0
  cycles : Word64 := 0
  scratch : Word64 := 0
  claims : List SlotRef := []
  resvs : List SlotRef := []
  exp : Option Expander := none
  rbuf : Tab Byte := {}
deriving DecidableEq, Repr, Inhabited

/-! ## Rings and Bells (06) -/

/-- State of a ring slot (R171), with the out-of-order marks of R172. -/
inductive SlotState
  | free
  | reserved
  | ready
  | published
  | claimed
  | done
deriving DecidableEq, Repr, Inhabited

/-- The requesters of a ring (R171), with who asks; a Mill by its unit: 0 load, 1 compute, 2 Finish, 3 the descriptor queue; by the NoC
port also the Landings of the die for a bound ring (R326) and its Sieve (R292). -/
inductive RingAgent
  | hand (h : HandRef)
  | mill (u : MillRef) (unit : Nat)
  | porter (p : PorterRef)
  | engine (p : ParishRef) (e : ParishEngine)
  | landing
deriving DecidableEq, Repr, Inhabited

/-- A slot granted to a waiting engine that has not yet taken it up (R171). -/
structure Grant where
  agent : RingAgent
  claim : Bool
  idx : Nat
deriving DecidableEq, Repr, Inhabited

/-- A request that waits at a ring (R171, R175): the MCLK cycle it arrived in, whether its stall has been raised, and whether the ring was
disabled then, so that the wait never ends (R178). -/
structure Waiter where
  agent : RingAgent
  claim : Bool
  expand : Bool
  since : Nat
  stalled : Bool
  dead : Bool
deriving DecidableEq, Repr, Inhabited

/-- The binding of a sending ring (R326): the remote coordinate, die, hamlet and ring; the credits held and the sequence
of the slots sent and not yet acknowledged. -/
structure RingBinding where
  coord : BitVec 15
  die : BitVec 3
  hamlet : BitVec 4
  ring : BitVec 6
  credits : Nat
  sent : List (Nat × Nat)
deriving DecidableEq, Repr, Inhabited

/-- Where a slot of a receiving bound ring came from (R326): the sender's coordinate and die and the tag of its last packet. -/
structure MsgOrigin where
  coord : BitVec 15
  die : BitVec 3
  tag : BitVec 14
deriving DecidableEq, Repr, Inhabited

/-- A ring (R168, R171, R179); `origins` names the sender to which the credit of a slot goes back (R326), `senders` the Hand whose MSG a slot of a
sending bound ring is until its WACK (R317). -/
structure Ring where
  enable : Bool := false
  base : BitVec 17 := 0
  stride : BitVec 15 := 0
  count : BitVec 11 := 0
  head : Nat := 0
  claim : Nat := 0
  pub : Nat := 0
  rsv : Nat := 0
  seq : Word64 := 0
  slots : Tab SlotState := {}
  waiters : List Waiter := []
  grant : Nat := 0
  grants : List Grant := []
  bind : Option RingBinding := none
  origins : Tab MsgOrigin := {}
  senders : Tab HandRef := {}
deriving DecidableEq, Repr, Inhabited

/-- Where a Bell add comes from (R180). -/
inductive BellSource
  | hand (h : HandRef)
  | mill (u : MillRef)
  | porter (p : PorterRef)
  | engine (p : ParishRef) (e : ParishEngine)
  | remote (coord : BitVec 15) (die : BitVec 3)
  | reeve
deriving DecidableEq, Repr, Inhabited

/-- A Bell add on its way (R180): source, the counter it goes to and value. -/
structure BellAdd where
  src : BellSource
  dst : HamletRef × Nat
  amount : Word32
deriving DecidableEq, Repr, Inhabited

/-! ## Tally units (09) -/

/-- An open layer of a Tally unit (R269). -/
structure OpenLayer where
  layer : Word32
  digest : Word64
  units : Nat
  poison : Bool
deriving DecidableEq, Repr, Inhabited

/-- A snooped unit that waits to be absorbed (R266): its bytes, its tags, whether a tag is appended and its poison. -/
structure Snooped where
  bytes : List Byte
  layer : Word32
  tile : Word32
  poison : Bool
  scrub : Bool
deriving DecidableEq, Repr, Inhabited

/-- A Tally unit (Table 9.7); `wild` once its TALLY_CTRL took a value that makes its values and its log unpredictable (R404). -/
structure Tally where
  enable : Bool := false
  alg : BitVec 2 := 0
  mode : BitVec 2 := 0
  source : BitVec 3 := 0
  mills : BitVec 4 := 0
  value : Word64 := 0
  alive : Word64 := 0
  logBase : BitVec 43 := 0
  logSize : BitVec 24 := 0
  logNext : BitVec 24 := 0
  overflow : Bool := false
  logFault : Bool := false
  logStopped : Bool := false
  poisonSeen : Bool := false
  nonzero : Bool := false
  dropped : Word32 := 0
  layers : List OpenLayer := []
  snoopQ : List Snooped := []
  wild : Bool := false
deriving DecidableEq, Repr, Inhabited

/-! ## Porters (07) -/

/-- A Porter descriptor with the Hand that issued it (R215, R150), and whether a Reeve pushed it. -/
structure PorterDesc where
  desc : Vec
  issuer : Option HandRef
  byReeve : Bool := false
deriving DecidableEq, Repr, Inhabited

/-- A Porter descriptor whose transfer has been made and which waits to complete (R220). -/
structure PorterRun where
  desc : PorterDesc
  poisoned : Bool
deriving DecidableEq, Repr, Inhabited

/-- The descriptor that a Porter runs (R217, R218): its next row, what it took of its source ring and has not used, the bytes it
has read from other packages by address with their poison, the destination slot that it fills with the rows it holds, whether it has
written poison, whether it breaks R222, and whether its publish has met a disabled ring, where it waits for good (R178). -/
structure PorterCur where
  desc : PorterDesc
  row : Nat := 0
  stream : List SlotIn := []
  rbuf : Tab (Byte × Bool) := {}
  slot : Option Nat := none
  fill : List Byte := []
  fillRows : Nat := 0
  fillPoison : Bool := false
  poisoned : Bool := false
  broken : Bool := false
  hung : Bool := false
deriving DecidableEq, Repr, Inhabited

/-- PORTER_STICKY (Table 7.11). -/
structure PorterSticky where
  badDesc : Bool := false
  xlate : Bool := false
  badDst : Bool := false
  poison : Bool := false
  foreign : Bool := false
deriving DecidableEq, Repr, Inhabited

/-- A Porter (R215, R223). -/
structure Porter where
  queue : List PorterDesc := []
  cur : Option PorterCur := none
  run : Option PorterRun := none
  sticky : PorterSticky := {}
  halted : Bool := false
  errTile : Word32 := 0
  errRow : BitVec 24 := 0
  errCause : BitVec 3 := 0
  done : Word32 := 0
  win : Tab Word64 := {}
  winBy : List Writer := []
deriving DecidableEq, Repr, Inhabited

/-! ## Hamlet (06, 13) -/

/-- RING_ERR and BELL_STATUS (Tables 6.4, 6.6). -/
structure HamletErr where
  foreign : Bool := false
  lenOver : Bool := false
  cfgActive : Bool := false
  bellForeign : Bool := false
  waitStall : Bool := false
deriving DecidableEq, Repr, Inhabited

/-- Power state of a hamlet (Table 13.3). -/
inductive HamletState
  | active
  | gated
  | retain
  | off
deriving DecidableEq, Repr, Inhabited

/-- Phase of fence-and-scrub (R187). -/
inductive FencePhase
  | lowered
  | raised
  | filled
deriving DecidableEq, Repr, Inhabited

/-- A hamlet slot with its units (R15, R16). -/
structure Hamlet where
  mills : Tab Mill := {}
  hands : Tab Hand := {}
  rings : Tab Ring := {}
  tallies : Tab Tally := {}
  porters : Tab Porter := {}
  bells : Tab Word32 := {}
  waitLimit : Word32 := 0x0010_0000
  ringStall : Word64 := 0
  err : HamletErr := {}
  power : HamletState := .off
  hint : BitVec 2 := 0
  wakes : Word32 := 0
  idleSince : Nat := 0
  fence : FencePhase := .lowered
  aliveBefore : Word64 := 0
  retired : Bool := false
  hwFault : Bool := false
deriving DecidableEq, Repr, Inhabited

/-! ## Parish (07, 08) -/

/-- A way of the Granary cache that holds a line (R201): the line's die-local number and whether it is dirty. -/
structure CacheWay where
  line : Nat
  dirty : Bool
deriving DecidableEq, Repr, Inhabited

/-- The descriptor that a Press engine or merge tree runs (R233, R246): what it has taken of its source ring, what has come of a source
in another package, and whether a slot broke the form that R107 or R246 asks for. -/
structure EngineCur where
  desc : Vec
  stream : List SlotIn := []
  rbuf : Tab (Byte × Bool) := {}
  broken : Bool := false
deriving DecidableEq, Repr, Inhabited

/-- A Press or merge descriptor whose work is done and which waits to complete (R237), and whether its record has been sent to another
package. -/
structure EngineRun where
  desc : Vec
  code : Byte
  result : Word32
  fault : Word32
  told : Bool := false
deriving DecidableEq, Repr, Inhabited

/-- The Press engine of a parish (R233, Table 8.6). -/
structure Press where
  enable : Bool := false
  dring : BitVec 16 := 0
  household : BitVec 6 := 0
  done : Word32 := 0
  errors : BitVec 16 := 0
  hist : Tab Word32 := {}
  dslot : Option DescSlot := none
  cur : Option EngineCur := none
  run : Option EngineRun := none
  installing : Bool := false
deriving DecidableEq, Repr, Inhabited

/-- One merge record (R244). -/
structure MergeRec where
  row : Nat
  rank : Nat
  source : Nat
  poison : Bool
  elems : List Word32
deriving DecidableEq, Repr, Inhabited

/-- The merge tree of a parish (R245, Table 8.6). -/
structure Merge where
  enable : Bool := false
  dring : BitVec 16 := 0
  household : BitVec 6 := 0
  done : Word32 := 0
  errors : BitVec 16 := 0
  buffer : List MergeRec := []
  dslot : Option DescSlot := none
  cur : Option EngineCur := none
  run : Option EngineRun := none
deriving DecidableEq, Repr, Inhabited

/-- A parish (R15, R223, R251). -/
structure Parish where
  porters : Tab Porter := {}
  tallies : Tab Tally := {}
  press : Press := {}
  merge : Merge := {}
  scratch : BitVec 40 := 0
  retired : BitVec 40 := 0
  owner : Tab Nat := {}
  hits : Word32 := 0
  misses : Word32 := 0
  ways : Tab CacheWay := {}
  rr : Tab Nat := {}
deriving DecidableEq, Repr, Inhabited

/-- An LPDDR controller (Table 7.11, R208); `resetN` is the level of its site's LP_Sn_RESET_N (R419). -/
structure Controller where
  rate : BitVec 2 := 0
  density : Bool := false
  refresh : BitVec 2 := 0
  corrected : BitVec 16 := 0
  poisoned : BitVec 16 := 0
  link : BitVec 16 := 0
  rewrites : List Nat := []
  lastReadThrough : Word64 := 0
  resetN : Bool := false
deriving DecidableEq, Repr, Inhabited

/-! ## Ferry (11) -/

/-- Landing states (Table 11.3). -/
inductive LandingState
  | disabled
  | detect
  | train
  | active
  | retrain
  | standby
  | failed
deriving DecidableEq, Repr, Inhabited

/-- A packet (Table 11.4, Table 11.5): header fields and payload. What the package knows of it beside: the slice in which it travels (R313); the
links, with class and lane, that delivered its flits to the reorder store (R315); and the receive buffers that its flits still hold (R310). -/
structure Packet where
  cls : BitVec 2
  op : BitVec 4
  dst : BitVec 15
  dstDie : BitVec 3
  src : BitVec 15
  srcDie : BitVec 3
  household : BitVec 6
  tag : BitVec 14
  addr : BitVec 48
  len : BitVec 12
  pseq : BitVec 16
  poison : Bool
  status : BitVec 4
  vl : Bool
  payload : List Byte
  jobSlice : Option (BitVec 15 × BitVec 15) := none
  via : List (Nat × Nat) := []
  buf : List (Nat × Nat) := []
deriving DecidableEq, Repr, Inhabited

/-- A DATA flit that waits on a link or stands in its replay buffer (R311): its sequence number, the header fields of its packet, its number in
the packet and its payload bytes, the credit that it returns (CR_SEL, CR_COUNT), how often it has been replayed, the receive buffer that it
holds while it is in transit (R310), and whether a link has sent it once that has left ACTIVE since (R316). -/
structure SentFlit where
  lseq : BitVec 16
  packet : Packet
  fidx : Nat
  part : List Byte
  cr : Nat × Nat := (0, 0)
  tries : Nat := 0
  via : Option (Nat × Nat) := none
  sentOnce : Bool := false
deriving DecidableEq, Repr, Inhabited

/-- LANDING_STICKY (Table 11.9). -/
structure LandingSticky where
  uncorr : Bool := false
  crc : Bool := false
  replayLimit : Bool := false
  retrainFail : Bool := false
  wiring : Bool := false
  failover : Bool := false
deriving DecidableEq, Repr, Inhabited

/-- A Landing and its link L0-L23 (R305 to R311, Table 11.9). `rxSeq` is the last LSEQ accepted in order; `parked` are the flits that wait
in its receive buffers for a full reorder store (R315); `recent` says of the last 63 flits sent, newest first, which were BELL or CTRL (R310);
`rxFlits` is the place in the codeword stream of the flit that comes next, `cwBad` says whether the codeword that reaches into it is
uncorrectable, and `uncorrAt` are the times of the last 17 uncorrectable codewords, newest first (R304, R307). -/
structure Landing where
  role : BitVec 3 := 0
  dir : BitVec 3 := 0
  index : BitVec 2 := 0
  profile : Bool := false
  rateCap : Bool := false
  state : LandingState := .disabled
  rate : BitVec 2 := 0
  peer : BitVec 15 := 0
  peerDie : BitVec 3 := 0
  peerPort : BitVec 2 := 0
  corrected : BitVec 16 := 0
  uncorr : BitVec 16 := 0
  replays : BitVec 16 := 0
  retrains : BitVec 16 := 0
  sticky : LandingSticky := {}
  txSeq : BitVec 16 := 0
  rxSeq : BitVec 16 := 0xffff
  nakSent : Bool := false
  unacked : Nat := 0
  replay : List SentFlit := []
  out : List SentFlit := []
  recent : List Bool := []
  credits : Tab Nat := {}
  owed : Tab Nat := {}
  parked : List SentFlit := []
  rxFlits : Nat := 0
  cwBad : Bool := false
  uncorrAt : List Word64 := []
  fullRateFails : Nat := 0
  failures : Nat := 0
  saved : Bool := false
  followerAt : Option Word64 := none
deriving DecidableEq, Repr, Inhabited

/-- FERRY_TORUS, the uplink ranges and the board group (R312, R322, R325). -/
structure Torus where
  coord : BitVec 15 := 0
  dims : BitVec 15 := 0
  board : BitVec 4 := 0
  message : Bool := false
  valid : Bool := false
  uplinks : List UplinkRange := []
  group : List GroupMember := []
deriving DecidableEq, Repr, Inhabited

/-- What names a packet in transit (R314, R315): its ends and its number in its flow. -/
structure PacketId where
  src : BitVec 15
  srcDie : BitVec 3
  dst : BitVec 15
  dstDie : BitVec 3
  pseq : BitVec 16
deriving DecidableEq, Repr, Inhabited

/-- Receive state of one flow (R315): the expected number and the packets held for reordering. -/
structure Flow where
  expect : BitVec 16 := 0
  held : List Packet := []
deriving DecidableEq, Repr, Inhabited

/-- Flits of a packet that has not arrived whole (R309, R315). -/
structure Partial where
  flow : Nat
  pseq : BitVec 16
  head : Packet
  flits : Tab (List Byte)
deriving DecidableEq, Repr, Inhabited

/-- A slot of a receiving bound ring of which not all MSG packets have come (R326): the sender, the ring, the bytes so far. -/
structure MsgPart where
  coord : BitVec 15
  die : BitVec 3
  ring : BitVec 16
  bytes : List Byte
  poison : Bool
deriving DecidableEq, Repr, Inhabited

/-- Who waits for the answer of a remote request (R317, R318). -/
inductive Requester
  | handLoad (h : HandRef) (off : Nat)
  | handStore (h : HandRef)
  | porterRead (p : PorterRef) (ea : Nat)
  | porterWrite (p : PorterRef) (row : Nat)
  | engineRead (p : ParishRef) (e : ParishEngine) (ea : Nat)
  | engineWrite (p : ParishRef) (e : ParishEngine)
  | slot (r : RingRef) (idx : Nat) (last : Bool)
deriving DecidableEq, Repr, Inhabited

/-- An open request of a die (R317): its tag, who waits, how many bytes were asked for and the package asked. -/
structure OpenRequest where
  tag : Nat
  who : Requester
  bytes : Nat
  dst : BitVec 15 := 0
deriving DecidableEq, Repr, Inhabited

/-! ## Logbook (14) -/

/-- A Logbook record (Table 14.2). -/
structure LogRecord where
  index : Word32
  cls : BitVec 4
  severity : BitVec 2
  die : BitVec 3
  place : BitVec 5
  household : BitVec 6
  job : BitVec 16
  event : BitVec 16
  addr : BitVec 48
  detail : Word32
  time : Word64
deriving DecidableEq, Repr, Inhabited

/-- The Logbook block of a die (Table 14.4). -/
structure LogBlock where
  any : BitVec 16 := 0
  severe : BitVec 16 := 0
  lost : BitVec 16 := 0
  suppressed : BitVec 16 := 0
  first : Tab LogRecord := {}
  lastCorrected : Tab Word64 := {}
deriving DecidableEq, Repr, Inhabited

/-- An edge flit in the replay buffer of its sender (R389): its sequence number, its bytes and how often it has been replayed. -/
structure KeptFlit where
  seq : BitVec 12
  bytes : List Byte
  tries : Nat := 0
deriving DecidableEq, Repr, Inhabited

/-- A direction of a die-to-die edge (R22, R389): the sequence number of the next flit at the sender and at the receiver, the last 64 flits
sent, oldest first; the times of the last 64 parity mismatches of a lane, newest first, the lanes marked failing, and the lanes that retrains
have taken out; the failed retrains in succession, and whether the edge is lost. -/
structure Edge where
  txSeq : BitVec 12 := 0
  rxSeq : BitVec 12 := 0
  kept : List KeptFlit := []
  parity : Tab (List Word64) := {}
  failing : List Nat := []
  failed : List Nat := []
  retrainFails : Nat := 0
  lost : Bool := false
deriving DecidableEq, Repr, Inhabited

/-- What the TAP of a die shifts out (R410, R411). -/
inductive TapData
  | idcode (v : Word32)
  | boundary
  | bypass
  | network (v : List Byte)
  | nonce (v : BitVec 128)
deriving DecidableEq, Repr, Inhabited

/-- The TAP of a die (R410): instruction, selected data register, whether it holds the pins, and the nonce that UNLOCK issued (R413). -/
structure Tap where
  ir : Byte := 0x01
  data : TapData := .bypass
  pins : Bool := false
  nonce : Option (BitVec 128) := none
deriving DecidableEq, Repr, Inhabited

/-- A die (R15 to R18): Logbook block, edges, flows, translation cache, TAP. -/
structure Die where
  log : LogBlock := {}
  edges : Tab Edge := {}
  noLpddr : Bool := false
  flowsIn : Tab Flow := {}
  flowsOut : Tab (BitVec 16) := {}
  partials : List Partial := []
  inbox : List Packet := []
  msgs : List MsgPart := []
  reqs : List OpenRequest := []
  nextTag : Nat := 0
  tcache : List (Nat × Nat) := []
  tap : Tap := {}
  tripped : Bool := false
deriving DecidableEq, Repr, Inhabited

/-! ## Households, memory and admission (07, 12) -/

/-- A household (R198, R351). -/
structure Household where
  isOpen : Bool := false
  vf : Nat := 0
  ptBase : Nat := 0
  ptLen : Nat := 0
  entryQuota : Nat := 0
  tokenQuota : Nat := 0
  noticePb : Option Nat := none
deriving DecidableEq, Repr, Inhabited

/-- A key slot (R210, R352). -/
structure KeySlot where
  owner : Nat
  key : List Byte
deriving DecidableEq, Repr, Inhabited

/-- A Press table slot 1-15 (R230): owner (0 none) and image. -/
structure PressSlot where
  owner : Nat := 0
  image : Option (List Byte) := none
deriving DecidableEq, Repr, Inhabited

/-- A Press slot write that is not yet visible everywhere (R231): the household that the slot belonged to when it began, and who writes it. -/
structure SlotWrite where
  slot : Nat
  owner : Nat
  image : List Byte
  by_ : Option ParishRef
deriving DecidableEq, Repr, Inhabited

/-- A tensor in admission or admitted (R353): its pages by number in the interleaved view. -/
structure Tensor where
  bytes : Nat
  mirror : Bool
  pages : List Nat
  mirrorPages : List Nat
  bits : List Nat
  admitted : Bool
  maps : List (Nat × Nat)
deriving DecidableEq, Repr, Inhabited

/-! ## Jobs (12) -/

/-- One PLACEMENT record (Table 12.16). -/
structure PlaceSpec where
  die : Nat
  hamlets : BitVec 16
  hints : Word32
  granules : List Nat
  press : BitVec 4
  merge : BitVec 4
deriving DecidableEq, Repr, Inhabited

/-- One HAND_CODE section. -/
structure CodeSpec where
  die : Nat
  hamlet : Nat
  unit : Nat
  entry : Nat
  words : List Word32
deriving DecidableEq, Repr, Inhabited

/-- One RING_TABLE section. -/
structure RingSpec where
  die : Nat
  hamlet : Nat
  cfgs : List Word64
deriving DecidableEq, Repr, Inhabited

/-- One TALLY_TABLE section. -/
structure TallySpec where
  die : Nat
  place : Nat
  parish : Bool
  regs : List Word64
deriving DecidableEq, Repr, Inhabited

/-- One record of a BELL_BIND or RING_BIND section. -/
structure BindSpec where
  die : Nat
  hamlet : Nat
  loc : Nat
  coord : BitVec 15
  rdie : BitVec 3
  rhamlet : BitVec 4
  rnum : BitVec 6
deriving DecidableEq, Repr, Inhabited

/-- One SCRATCH_DATA section. -/
structure DataSpec where
  die : Nat
  hamlet : Nat
  off : Nat
  data : List Byte
deriving DecidableEq, Repr, Inhabited

/-- One ENGINE_RINGS section. -/
structure EngineSpec where
  die : Nat
  par : Nat
  press : BitVec 16
  merge : BitVec 16
deriving DecidableEq, Repr, Inhabited

/-- The serving fields of a job image (R282). -/
structure ServSpec where
  stepBlock : Word64 := 0
  vocab : Nat := 0
  rowsMax : Nat := 0
  reqMax : Nat := 0
  prefill : Nat := 0
  stepBell : BitVec 16 := 0
deriving DecidableEq, Repr, Inhabited

/-- What a job image says (Tables 12.15 and 12.16). -/
structure JobImage where
  reqMode : BitVec 2 := 0
  dies : Nat := 0
  serving : Bool := false
  argBytes : Nat := 64
  waitLimit : Word32 := 0
  origin : BitVec 15 := 0
  extents : BitVec 15 := 0
  serv : ServSpec := {}
  places : List PlaceSpec := []
  codes : List CodeSpec := []
  rings : List RingSpec := []
  tallies : List TallySpec := []
  bellBinds : List BindSpec := []
  ringBinds : List BindSpec := []
  sieves : List (Nat × BitVec 16) := []
  scratch : List DataSpec := []
  engines : List EngineSpec := []
deriving DecidableEq, Repr, Inhabited

/-- Why a job ends (Table 12.9). -/
inductive JobEnd
  | halted
  | killed
  | limit
  | fault
deriving DecidableEq, Repr, Inhabited

/-- State of a job (Table 12.14); a job whose agents are stopped and whose scrub has not ended is `ending` (R355). -/
inductive JobState
  | loaded
  | running
  | ending (cause : JobEnd)
  | ended
  | killed
  | faulted
deriving DecidableEq, Repr, Inhabited

/-- A placed logical hamlet: die, logical number, slot, far mark (R30) and wake hint. -/
structure Placed where
  die : Nat
  logical : Nat
  slot : Nat
  far : Bool
  hint : BitVec 2
deriving DecidableEq, Repr, Inhabited

/-- A scrub record of the job status (R187, Table 12.14). -/
structure ScrubRec where
  die : Nat
  logical : Nat
  digest : Word32
  time : Word32
deriving DecidableEq, Repr, Inhabited

/-- A row of the current step (Table 10.4). -/
structure StepRow where
  entry : Nat
  sample : Bool
  pos : Nat
  token : BitVec 18
deriving DecidableEq, Repr, Inhabited

/-- What the sampler decided for a request (R294 to R296). -/
structure Verdict where
  entry : Nat
  token : Option (BitVec 18)
deriving DecidableEq, Repr, Inhabited

/-- A ranked candidate (R294): token and FP32 logit. -/
structure Candidate where
  token : Nat
  logit : Word32
deriving DecidableEq, Repr, Inhabited

/-- The candidates that a die's Sieve sent for a sampled row (R294). -/
structure SieveSent where
  die : Nat
  row : Nat
  cands : List Candidate
deriving DecidableEq, Repr, Inhabited

/-- A step record (Table 10.5). -/
structure StepRecord where
  step : Nat
  rows : Nat
  requests : Nat
  replay : Bool
  held : Bool
  late : Nat
  widened : Nat
  clipped : Nat
  duration : Word32
deriving DecidableEq, Repr, Inhabited

/-- The serving state of a job (R282 to R287, R300, R301); `wild` after a slot that breaks R292, `kvWild` once the KV cache has been misused
(R404), `blockLost` when the step block could not be written (R281), `badBlocks` the poisoned LPDDR blocks that the step has read (R300). -/
structure Serving where
  step : Nat := 0
  active : Bool := false
  rows : List StepRow := []
  batch : List Nat := []
  replay : Bool := false
  poisoned : Bool := false
  held : Bool := false
  wild : Bool := false
  kvWild : Bool := false
  blockLost : Bool := false
  badBlocks : List Nat := []
  started : Word64 := 0
  widenBase : Nat := 0
  clipBase : Nat := 0
  taken : Tab Nat := {}
  sent : List SieveSent := []
  verdicts : List Verdict := []
  records : List StepRecord := []
deriving DecidableEq, Repr, Inhabited

/-- A job (R355, R356, R258); `logKey` is the key in the header of its digest log (R260, log entry 65); `unreached` where an UNREACHABLE answer came for a packet of it (R318). -/
structure Job where
  state : JobState
  household : Nat
  image : JobImage
  places : List Placed
  granules : List (ParishRef × Nat)
  mode : BitVec 2 := 0
  lapsed : Bool := false
  raised : Bool := false
  timedOut : Bool := false
  unreached : Bool := false
  stalls : Word64 := 0
  endedAt : Word64 := 0
  seed : Word64 := 0
  argBlock : Word64 := 0
  logKey : Word64 := 0
  limitMs : Nat := 0
  startedAt : Word64 := 0
  scrubs : List ScrubRec := []
  serving : Serving := {}
deriving DecidableEq, Repr, Inhabited

/-! ## Serving (10) -/

/-- Ledger states (Table 10.2). -/
inductive EntryState
  | free
  | queued
  | active
  | held
  | pausing
  | paused
  | resuming
deriving DecidableEq, Repr, Inhabited

/-- A request that waits for a boundary or for a copy to end (R278). -/
inductive EntryWish
  | none
  | cancel
  | pause (ttl : Nat)
deriving DecidableEq, Repr, Inhabited

/-- A Ledger entry (Table 10.1), with its page numbers and the wish of R278. -/
structure Entry where
  state : EntryState := .free
  household : Nat := 0
  priority : Nat := 0
  session : Nat := 0
  seq : Word32 := 0
  deadline : Word64 := 0
  length : Nat := 0
  promptLen : Nat := 0
  maxNew : Nat := 0
  generated : Nat := 0
  final : Nat := 0
  pageList : Word64 := 0
  pages : List Nat := []
  adapter : Nat := 0
  adapterVer : Word32 := 0
  grammar : Nat := 0
  gstate : Nat := 0
  seed : Word64 := 0
  sample : Bool := false
  topK : Nat := 0
  rtemp : Word32 := 0
  topP : Word32 := 0
  eos : Nat := 0
  outBuf : Word64 := 0
  promptBuf : Word64 := 0
  expiry : Word64 := 0
  cellarOff : Word64 := 0
  lastStep : Word32 := 0
  lastToken : BitVec 18 := 0
  wish : EntryWish := .none
  crcs : List Word32 := []
deriving DecidableEq, Repr, Inhabited

/-- A serving session (R357). -/
structure Session where
  job : Nat
  household : Nat
  kvBase : Word64
  pageBytes : Nat
  pool : Nat
  cellarBase : Word64
  cellarBytes : Nat
  closing : Bool
deriving DecidableEq, Repr, Inhabited

/-- An adapter slot (R299); `changed` where its data was written while a request pinned it (R404). -/
structure Adapter where
  household : Nat
  id : Word32
  version : Word32
  ha : Word64
  current : Bool
  count : Nat
  changed : Bool := false
deriving DecidableEq, Repr, Inhabited

/-- One edge of an automaton (Table 10.6). -/
structure GrammarEdge where
  lo : Nat
  hi : Nat
  next : Nat
deriving DecidableEq, Repr, Inhabited

/-- One state of an automaton. -/
structure GrammarState where
  first : Nat
  count : Nat
  accept : Bool
deriving DecidableEq, Repr, Inhabited

/-- A grammar slot (R293): owner, where the image is kept, and its header. The states and edges stay in the image (R297). -/
structure Grammar where
  household : Nat
  ha : Word64
  vocabM1 : Nat
  start : Nat
  states : Nat
  edges : Nat
deriving DecidableEq, Repr, Inhabited

/-! ## Postboxes (12) -/

/-- A command (Table 12.6); `fetched` is its number in the order in which the head Reeve fetched the commands of all postboxes (R344). -/
structure Command where
  opcode : BitVec 16
  seq : Word32
  tag : Word64
  args : List Word64
  epoch : Nat
  fetched : Nat := 0
deriving DecidableEq, Repr, Inhabited

/-- A completion or notice to be written (Table 12.7). -/
structure Completion where
  opcode : BitVec 16
  status : Byte
  seq : Word32
  tag : Word64
  result : Word64
  epoch : Nat
deriving DecidableEq, Repr, Inhabited

/-- PB_ERR (Table 12.5). -/
structure PostboxErr where
  ringFault : Bool := false
  overrun : Bool := false
  config : Bool := false
  noticeLost : Bool := false
deriving DecidableEq, Repr, Inhabited

/-- A postbox (R338 to R347). `epoch` counts the times it was stopped or disabled. -/
structure Postbox where
  enable : Bool := false
  irqEn : Bool := false
  holdoff : BitVec 16 := 0
  cmdBase : Word64 := 0
  cplBase : Word64 := 0
  cmdLog2 : BitVec 4 := 0
  cplLog2 : BitVec 4 := 0
  tail : Word32 := 0
  cplHead : Word32 := 0
  cmdHead : Word32 := 0
  running : Bool := false
  cplTail : Word32 := 0
  err : PostboxErr := {}
  echo : Word64 := 0
  cur : Option Command := none
  cplQ : List Completion := []
  held : List Completion := []
  lost : Nat := 0
  irqUntil : Option Word64 := none
  irqDue : Bool := false
  epoch : Nat := 0
deriving DecidableEq, Repr, Inhabited

/-- A notice produced for a postbox (Table 12.9). -/
structure Notice where
  pb : Nat
  opcode : BitVec 16
  result : Word64
deriving DecidableEq, Repr, Inhabited

/-- What leaves the part apart from writes of host memory: an interrupt (R346), the completion of a BAR2 read (R335), SMBus Host
Notify (R421), or a flit on a link (R308). -/
inductive HostOut
  | msix (fn vector : Nat)
  | readData (data : List Byte) (ep : Bool)
  | hostNotify
  | flit (link : Nat) (data : List Byte)
  | identity (link : Nat) (id : PeerId)
deriving DecidableEq, Repr, Inhabited

/-! ## Package -/

/-- IDENT_STATE.STATE (Table 12.4). -/
inductive IdentState
  | boot
  | ready
  | failed
  | undefined
deriving DecidableEq, Repr, Inhabited

/-- IDENT_STATE.POWER (R371). -/
inductive PackagePower
  | run
  | doze
  | deep
deriving DecidableEq, Repr, Inhabited

/-- The identity block's changing registers (Table 12.4). -/
structure Ident where
  state : IdentState := .boot
  power : PackagePower := .run
  heartbeat : Word32 := 0
  bar2Faults : Word32 := 0
  fwVersion : Word32 := 0
  fwBuild : Word32 := 0
  math : Byte := 0
deriving DecidableEq, Repr, Inhabited

/-- The package settings (R64, R213, R257, R371, R375): `powerCap` none is the rated power. -/
structure Settings where
  powerCap : Option Nat := none
  detMode : BitVec 2 := 1
  lcCap : BitVec 5 := 12
  backFloor : BitVec 4 := 1
  lotSeed : Word64 := 0
  dozeBarred : Bool := false
  dozeForced : Bool := false
deriving DecidableEq, Repr, Inhabited

/-- The power governor (R376): level, level asked for, ticks below 90 % of the cap, since when level 7 has
not held, the power readings of the last 10 ms, and what the regulators (R418) and the die sensors read last. -/
structure Governor where
  level : BitVec 3 := 0
  target : BitVec 3 := 0
  lowTicks : Nat := 0
  sevenSince : Option Word64 := none
  reported : Bool := false
  readings : List Nat := []
  regs : List RegRead := []
  temps : List Nat := []
deriving DecidableEq, Repr, Inhabited

/-- The supply rails (R417, R418): whether the part has read the board description in flash, the regulators that it gives, and the VDD_CORE of a
die in mV that the part has commanded; a die that is not listed has the boot value. -/
structure Rails where
  described : Bool := false
  regs : List RegDesc := []
  coreMv : Tab Nat := {}
deriving DecidableEq, Repr, Inhabited

/-- VDD_CORE of die `d` in mV; 800 at boot (Table 15.3). -/
def Rails.core (r : Rails) (d : Nat) : Nat := r.coreMv.get 800 d

/-- The pins (Table 15.5); true is high. -/
structure Pins where
  porst : Bool := false
  wrst : Bool := true
  perst : Bool := true
  thermtrip : Bool := true
  pmbAlert : Bool := true
deriving DecidableEq, Repr, Inhabited

/-- The reset classes that run as a sequence (R380, R383). -/
inductive ResetStep
  | none
  | commanded
  | heldAtFive
deriving DecidableEq, Repr, Inhabited

/-- Lifecycle states (R413). -/
inductive Lifecycle
  | production
  | locked
  | test
deriving DecidableEq, Repr, Inhabited

/-- The Deep save area (R372). -/
structure DeepSave where
  ledger : Tab Entry
  nextSeq : Word32
  sessions : Tab Session
  adapters : Tab Adapter
  grammars : Tab Grammar
  sieves : Tab (Tab Word64)
  pressSlots : Tab PressSlot
  settings : Settings
deriving DecidableEq, Repr, Inhabited

/-- Why the model would stop where the hardware goes on: for no reason. No command raises a fault; a host error whose effect the manual calls
unpredictable leaves free values (R13, log entry 7). -/
inductive Fault
deriving DecidableEq, Repr

/-- Why a command has no meaning. -/
inductive Refusal
  /-- A command that the model does not give a meaning. Raised by an arm of `exec` only. Safe: the model stops. -/
  | notModelled (mnemonic : String)
deriving DecidableEq, Repr, Inhabited

/-- The package. -/
structure State where
  part : Part
  ident : Ident
  clock : Word64
  mclk : Nat
  mem : Memory
  sramPoison : List Nat
  defects : List (Nat × Byte)
  blkPoison : List Nat
  hostMem : Memory
  hostDeny : List (Nat × Nat)
  settings : Settings
  gov : Governor
  rails : Rails
  pcieSris : Bool
  activity : Nat
  hamlets : Tab Hamlet
  parishes : Tab Parish
  controllers : Tab Controller
  landings : Tab Landing
  dies : Tab Die
  pressSlots : Tab PressSlot
  pressPend : List SlotWrite
  keySlots : Tab KeySlot
  households : Tab Household
  jobs : Tab Job
  sessions : Tab Session
  ledger : Tab Entry
  nextSeq : Word32
  adapters : Tab Adapter
  grammars : Tab Grammar
  sieves : Tab (Tab Word64)
  tensors : Tab Tensor
  postboxes : Tab Postbox
  fetchNext : Nat
  noticeQ : List Notice
  numVFs : Nat
  bar2Household : Nat
  bar2Base : Nat
  msix : Tab Word64
  msixPend : List Nat
  bar2Log2 : Nat × Nat
  hostOut : List HostOut
  pins : Pins
  resetStep : ResetStep
  lifecycle : Lifecycle
  torus : Torus
  logNext : Word32
  logRing : Tab LogRecord
  bellFlight : List BellAdd
  stranded : List SentFlit
  cut : List PacketId
  deepSave : Option DeepSave
  deepWake : Bool
  reload : List (Nat × Nat)
  stopped : Bool
  freeCtr : Nat
  pending : List Instr
deriving DecidableEq, Repr, Inhabited

/-- The part that the reset state describes: AT88-8-15-B0 with 128 GiB sites and both straps 0 (DESIGN CHOICE, log entry 1). -/
def Part.reset : Part := { dies := .eight, grade := .g15, stepping := .b0, density := .gib128 }

/-- The package at power-on, before COLD_BOOT has run: every register at its Cold value (R10), every queue empty. -/
def State.reset : State :=
  { part := Part.reset, ident := {}, clock := 0, mclk := 0, mem := [], sramPoison := [], defects := [], blkPoison := []
    hostMem := [], hostDeny := [], settings := {}, gov := {}, rails := {}, pcieSris := false, activity := 0
    hamlets := {}, parishes := {}, controllers := {}, landings := {}, dies := {}
    pressSlots := {}, pressPend := [], keySlots := {}, households := {}, jobs := {}, sessions := {}
    ledger := {}, nextSeq := 0, adapters := {}, grammars := {}, sieves := {}, tensors := {}, postboxes := {}, fetchNext := 0, noticeQ := []
    numVFs := 0, bar2Household := 0, bar2Base := 0, msix := {}, msixPend := [], bar2Log2 := (34, 32), hostOut := [], pins := {}, resetStep := .none
    lifecycle := .production, torus := {}, logNext := 1, logRing := {}, bellFlight := [], stranded := [], cut := []
    deepSave := none, deepWake := false, reload := [], stopped := false, freeCtr := 0, pending := [] }

end Sys2Proof.Machine
end

