-- ==== Sys2Proof/Machine/Access.lean ====
section
/-! DEFINITION. Reading and changing one unit of the state, the geometry of the package (R5, R16, R20, R21) and the job that
owns a unit (R8, R355). Every read and write of a unit goes through these. -/

namespace Sys2Proof.Machine

/-! Keys of the tables of State. -/

/-- Key of a hamlet slot: 18 slots to a die (R7). -/
def slotKey (die slot : Nat) : Nat := die * 18 + slot
/-- Key of a parish: 4 to a die (R7). -/
def parKey (p : ParishRef) : Nat := p.die * 4 + p.par
/-- Key of a controller: its site number (R7). -/
def ctlKey (c : CtlRef) : Nat := c.die * 6 + c.ctl

/-- The slot of a Mill. -/
def millSlot (u : MillRef) : HamletRef := ⟨u.die, u.slot⟩
/-- The slot of a Hand. -/
def handSlot (h : HandRef) : HamletRef := ⟨h.die, h.slot⟩
/-- The slot of a ring. -/
def ringSlot (r : RingRef) : HamletRef := ⟨r.die, r.slot⟩

/-! Units. A unit that the state does not list is at its cold values. -/

def State.hamlet (s : State) (m : HamletRef) : Hamlet := s.hamlets.get {} (slotKey m.die m.slot)
def State.setHamlet (s : State) (m : HamletRef) (h : Hamlet) : State :=
  { s with hamlets := s.hamlets.set (slotKey m.die m.slot) h }
def State.modHamlet (s : State) (m : HamletRef) (f : Hamlet → Hamlet) : State := s.setHamlet m (f (s.hamlet m))

def State.mill (s : State) (u : MillRef) : Mill := (s.hamlet (millSlot u)).mills.get {} u.idx
def State.setMill (s : State) (u : MillRef) (x : Mill) : State :=
  s.modHamlet (millSlot u) fun m => { m with mills := m.mills.set u.idx x }
def State.modMill (s : State) (u : MillRef) (f : Mill → Mill) : State := s.setMill u (f (s.mill u))

def State.hand (s : State) (h : HandRef) : Hand := (s.hamlet (handSlot h)).hands.get {} h.idx
def State.setHand (s : State) (h : HandRef) (x : Hand) : State :=
  s.modHamlet (handSlot h) fun m => { m with hands := m.hands.set h.idx x }
def State.modHand (s : State) (h : HandRef) (f : Hand → Hand) : State := s.setHand h (f (s.hand h))

def State.ring (s : State) (r : RingRef) : Ring := (s.hamlet (ringSlot r)).rings.get {} r.idx
def State.setRing (s : State) (r : RingRef) (x : Ring) : State :=
  s.modHamlet (ringSlot r) fun m => { m with rings := m.rings.set r.idx x }
def State.modRing (s : State) (r : RingRef) (f : Ring → Ring) : State := s.setRing r (f (s.ring r))

def State.parish (s : State) (p : ParishRef) : Parish := s.parishes.get {} (parKey p)
def State.setParish (s : State) (p : ParishRef) (x : Parish) : State := { s with parishes := s.parishes.set (parKey p) x }
def State.modParish (s : State) (p : ParishRef) (f : Parish → Parish) : State := s.setParish p (f (s.parish p))

def State.porter (s : State) (p : PorterRef) : Porter :=
  match p with
  | .hamlet d k n => (s.hamlet ⟨d, k⟩).porters.get {} n
  | .parish d q n => (s.parish ⟨d, q⟩).porters.get {} n
def State.setPorter (s : State) (p : PorterRef) (x : Porter) : State :=
  match p with
  | .hamlet d k n => s.modHamlet ⟨d, k⟩ fun m => { m with porters := m.porters.set n x }
  | .parish d q n => s.modParish ⟨d, q⟩ fun m => { m with porters := m.porters.set n x }
def State.modPorter (s : State) (p : PorterRef) (f : Porter → Porter) : State := s.setPorter p (f (s.porter p))

def State.tally (s : State) (t : TallyRef) : Tally :=
  match t with
  | .hamlet d k n => (s.hamlet ⟨d, k⟩).tallies.get {} n
  | .parish d q n => (s.parish ⟨d, q⟩).tallies.get {} n
def State.setTally (s : State) (t : TallyRef) (x : Tally) : State :=
  match t with
  | .hamlet d k n => s.modHamlet ⟨d, k⟩ fun m => { m with tallies := m.tallies.set n x }
  | .parish d q n => s.modParish ⟨d, q⟩ fun m => { m with tallies := m.tallies.set n x }
def State.modTally (s : State) (t : TallyRef) (f : Tally → Tally) : State := s.setTally t (f (s.tally t))

def State.die (s : State) (d : Nat) : Die := s.dies.get {} d
def State.setDie (s : State) (d : Nat) (x : Die) : State := { s with dies := s.dies.set d x }
def State.modDie (s : State) (d : Nat) (f : Die → Die) : State := s.setDie d (f (s.die d))

def State.ctl (s : State) (c : CtlRef) : Controller := s.controllers.get {} (ctlKey c)
def State.modCtl (s : State) (c : CtlRef) (f : Controller → Controller) : State :=
  { s with controllers := s.controllers.set (ctlKey c) (f (s.ctl c)) }

def State.landing (s : State) (l : Nat) : Landing := s.landings.get {} l
def State.setLanding (s : State) (l : Nat) (x : Landing) : State := { s with landings := s.landings.set l x }
def State.modLanding (s : State) (l : Nat) (f : Landing → Landing) : State := s.setLanding l (f (s.landing l))

def State.postbox (s : State) (k : Nat) : Postbox := s.postboxes.get {} k
def State.setPostbox (s : State) (k : Nat) (x : Postbox) : State := { s with postboxes := s.postboxes.set k x }
def State.modPostbox (s : State) (k : Nat) (f : Postbox → Postbox) : State := s.setPostbox k (f (s.postbox k))

def State.household (s : State) (h : Nat) : Household := s.households.get {} h
def State.modHousehold (s : State) (h : Nat) (f : Household → Household) : State :=
  { s with households := s.households.set h (f (s.household h)) }

def State.modJob (s : State) (j : Nat) (f : Job → Job) : State :=
  match s.jobs.find j with
  | some x => { s with jobs := s.jobs.set j (f x) }
  | none => s

def State.entry (s : State) (e : Nat) : Entry := s.ledger.get {} e
def State.modEntry (s : State) (e : Nat) (f : Entry → Entry) : State :=
  { s with ledger := s.ledger.set e (f (s.entry e)) }

/-- Bell counter `c` of a hamlet (R180). -/
def State.bell (s : State) (m : HamletRef) (c : Nat) : Word32 := (s.hamlet m).bells.get 0 c

/-- A fresh free value: a value that the manual leaves open (log entry 7). -/
def State.fresh (s : State) : Word64 × State := (Config.freeWord s.freeCtr, { s with freeCtr := s.freeCtr + 1 })

/-- `n` free bytes from a counter value on. -/
def freeBytes (c n : Nat) : List Byte := (List.range n).map fun i => (Config.freeWord (c + i)).setWidth 8

/-- `n` fresh free bytes. -/
def State.freshBytes (s : State) (n : Nat) : List Byte × State := (freeBytes s.freeCtr n, { s with freeCtr := s.freeCtr + n })

/-! Geometry. -/

/-- Number of dies (R4). -/
def State.dieCount (s : State) : Nat :=
  match s.part.dies with
  | .two => 2
  | .four => 4
  | .eight => 8

/-- Row and column of a die in the mesh (R20). -/
def meshPos (n d : Nat) : Nat × Nat :=
  if n = 2 then (0, d) else if n = 4 then (d / 2, d % 2) else (d / 4, d % 4)

/-- Edges crossed between two dies (R21). -/
def hops (n a b : Nat) : Nat :=
  let p := meshPos n a
  let q := meshPos n b
  (p.1 - q.1) + (q.1 - p.1) + (p.2 - q.2) + (q.2 - p.2)

/-- The neighbour of a die in a direction 0 north, 1 east, 2 south, 3 west, where there is one (R20). -/
def neighbour (n d dir : Nat) : Option Nat :=
  let p := meshPos n d
  let cols := if n = 8 then 4 else 2
  let rows := if n = 2 then 1 else 2
  if dir = 0 then (if 0 < p.1 then some (d - cols) else none)
  else if dir = 1 then (if p.2 + 1 < cols then some (d + 1) else none)
  else if dir = 2 then (if p.1 + 1 < rows then some (d + cols) else none)
  else if 0 < p.2 then some (d - 1) else none

/-- The parish that logical hamlet `k` belongs to (Table 0.3). -/
def parishOf (d k : Nat) : ParishRef := ⟨d, k / 4⟩

/-! Jobs and the units they hold. -/

/-- Whether a job holds its resources (R355: from load until it ends). -/
def Job.live (j : Job) : Bool :=
  match j.state with
  | .loaded => true
  | .running => true
  | _ => false

/-- Whether a job is stopped and waits for its scrub (R355). -/
def Job.isEnding (j : Job) : Bool :=
  match j.state with
  | .ending _ => true
  | _ => false

/-- The slots of a job. -/
def Job.slots (j : Job) : List HamletRef := j.places.map fun p => ⟨p.die, p.slot⟩

/-- The parishes that hold a hamlet of a job. -/
def Job.parishes (j : Job) : List ParishRef := (j.places.map fun p => parishOf p.die p.logical).eraseDups

/-- The engines of a parish that a job asked for. -/
def Job.asksEngine (j : Job) (p : ParishRef) (e : ParishEngine) : Bool :=
  match j.image.places.find? fun q => q.die == p.die with
  | some q =>
    (match e with
    | .press => q.press.getLsbD p.par
    | .merge => q.merge.getLsbD p.par)
  | none => false

/-- The parishes whose units a job may use: those that hold a hamlet of it, and those whose engines it asked for (R251). -/
def Job.unitParishes (j : Job) : List ParishRef :=
  (j.parishes ++ j.image.places.flatMap fun p => ((List.range 4).map fun q => (⟨p.die, q⟩ : ParishRef)).filter fun r =>
    j.asksEngine r .press || j.asksEngine r .merge).eraseDups

/-- The slot that serves a logical hamlet of a job (R8). -/
def Job.slotOf (j : Job) (die logical : Nat) : Option Nat :=
  (j.places.find? fun p => p.die == die && p.logical == logical).map (·.slot)

/-- The placement of a slot in a job. -/
def Job.placeAt (j : Job) (m : HamletRef) : Option Placed := j.places.find? fun p => p.die == m.die && p.slot == m.slot

/-- The live job that holds a slot. -/
def State.jobAt (s : State) (m : HamletRef) : Option (Nat × Job) :=
  s.jobs.cells.find? fun c => c.2.live && (c.2.placeAt m).isSome

/-- The parish that a slot serves: that of its logical hamlet (R30), and its own where it serves none. -/
def State.parishOfSlot (s : State) (m : HamletRef) : ParishRef :=
  match s.jobAt m with
  | some (_, j) => parishOf m.die (((j.placeAt m).map (·.logical)).getD m.slot)
  | none => parishOf m.die m.slot

/-- Whether some job holds a slot. -/
def State.heldSlot (s : State) (m : HamletRef) : Bool := s.jobs.cells.any fun c => (c.2.live || c.2.isEnding) && (c.2.placeAt m).isSome

/-- Whether a slot's domain has no use and is always unpowered (R367): it holds no job, and is retired or a spare. -/
def State.unused (s : State) (m : HamletRef) : Bool := !s.heldSlot m && ((s.hamlet m).retired || decide (16 ≤ m.slot))

/-- The first live job that holds a hamlet of a parish (log entry 20). -/
def State.jobOfParish (s : State) (p : ParishRef) : Option (Nat × Job) :=
  s.jobs.cells.find? fun c => c.2.live && c.2.places.any fun q => q.die == p.die && q.logical / 4 == p.par

/-- The live job that a Porter works for: the issuer's job, else the job of its hamlet or parish. -/
def State.jobOfPorter (s : State) (p : PorterRef) (issuer : Option HandRef) : Option (Nat × Job) :=
  match issuer, p with
  | some h, _ => s.jobAt (handSlot h)
  | none, .hamlet d k _ => s.jobAt ⟨d, k⟩
  | none, .parish d q _ => s.jobOfParish ⟨d, q⟩

/-- The live job that a Tally unit works for. -/
def State.jobOfTally (s : State) (t : TallyRef) : Option (Nat × Job) :=
  match t with
  | .hamlet d k _ => s.jobAt ⟨d, k⟩
  | .parish d q _ => s.jobOfParish ⟨d, q⟩

/-- The hamlet slot that logical hamlet `k` of die `d` of a job is served by. -/
def Job.hamletOf (j : Job) (d k : Nat) : Option HamletRef := (j.slotOf d k).map fun n => ⟨d, n⟩

end Sys2Proof.Machine
end

