-- ==== Sys2Proof/Machine/Codes.lean ====
section
/-! DEFINITION. Check codes and ciphers: the Tally algorithms (Table 9.4), the inline code RS(136,128) (R208) and AES-256-XTS
(R210, IEEE 1619). -/

namespace Sys2Proof.Machine

/-! CRC-32C: polynomial 0x1EDC6F41 reflected (0x82F63B78). -/

/-- One bit of a reflected CRC-32C register. -/
def crc32cBit (c : Nat) : Nat := if c % 2 = 1 then (c / 2) ^^^ 0x82f63b78 else c / 2

/-- `n` bits of a reflected CRC-32C register. -/
def crc32cBits : Nat → Nat → Nat
  | 0, c => c
  | n + 1, c => crc32cBits n (crc32cBit c)

/-- One byte into a CRC-32C register. -/
def crc32cByte (c : Nat) (b : Byte) : Nat := crc32cBits 8 (c ^^^ b.toNat)

/-- CRC-32C continued from a result over more bytes: initial value and final XOR all ones. -/
def crc32cFrom (res : Nat) (l : List Byte) : Nat := (l.foldl crc32cByte (res ^^^ 0xffffffff)) ^^^ 0xffffffff

/-- CRC-32C of bytes (Table 9.4). -/
def crc32c (l : List Byte) : Nat := crc32cFrom 0 l

/-! CRC-64/ECMA-182. -/

/-- `n` bits of a CRC-64 register, most significant first. -/
def crc64Bits : Nat → Nat → Nat
  | 0, c => c
  | n + 1, c => crc64Bits n (if bitAt c 63 then ((2 * c) % 2 ^ 64) ^^^ 0x42f0e1eba9ea3693 else 2 * c)

/-- One byte into a CRC-64 register. -/
def crc64Byte (c : Nat) (b : Byte) : Nat := crc64Bits 8 (c ^^^ (b.toNat * 2 ^ 56))

/-- CRC-64/ECMA-182 continued (Table 9.4: initial value 0, no final XOR). -/
def crc64From (res : Nat) (l : List Byte) : Nat := l.foldl crc64Byte res

/-- One 32-bit word into Fletcher-64. -/
def fletcherWord (v w : Nat) : Nat :=
  let m := 2 ^ 32 - 1
  let a := (v % 2 ^ 32 + w) % m
  let b := (v / 2 ^ 32 + a) % m
  b * 2 ^ 32 + a

/-- Fletcher-64 continued over little-endian words (Table 9.4). -/
def fletcherFrom (res : Nat) (l : List Byte) : Nat := (words 4 l).foldl fletcherWord res

/-- The algorithm of TALLY_CTRL.ALG continued from a result (Table 9.4); the reserved code leaves the value. -/
def tallyFrom (alg : BitVec 2) (res : Nat) (l : List Byte) : Nat :=
  if alg = 0 then crc32cFrom (res % 2 ^ 32) l
  else if alg = 1 then crc64From res l
  else if alg = 2 then fletcherFrom res l
  else res

/-! RS(136,128) over GF(2^8) with x^8 + x^4 + x^3 + x^2 + 1 (R208). -/

/-- Product in a field of 256 elements with reduction polynomial `poly`, over the bits of `b` from the top. -/
def gfMulBits (poly : Nat) : Nat → Nat → Nat → Nat → Nat
  | 0, _, _, acc => acc
  | n + 1, a, b, acc =>
    let d := if 128 ≤ acc then (2 * acc) ^^^ poly else 2 * acc
    gfMulBits poly n a b (if bitAt b n then d ^^^ a else d)

/-- Product under the polynomial of R208. -/
def gfMul (a b : Nat) : Nat := gfMulBits 0x11d 8 a b 0

/-- a^n. -/
def gfPow (a : Nat) : Nat → Nat
  | 0 => 1
  | n + 1 => gfMul a (gfPow a n)

/-- Multiply a polynomial, highest coefficient first, by (x - r). -/
def polyTimes (p : List Nat) (r : Nat) : List Nat :=
  List.zipWith (· ^^^ ·) (p ++ [0]) (0 :: p.map (gfMul r))

/-- The generator (x - a^0) ... (x - a^7), highest coefficient first (R208). -/
def rsGenerator : List Nat := (List.range 8).foldl (fun p i => polyTimes p (gfPow 2 i)) [1]

/-- One data symbol into the remainder register of eight check symbols. -/
def rsStep (r : List Nat) (x : Nat) : List Nat :=
  let k := (r.headD 0) ^^^ x
  List.zipWith (fun a g => a ^^^ gfMul k g) (r.drop 1 ++ [0]) (rsGenerator.drop 1)

/-- The eight check symbols of 128 data symbols, symbol 0 the coefficient of x^135 (R208). -/
def rsCheck (data : List Nat) : List Nat := data.foldl rsStep (List.replicate 8 0)

/-- The 32 check bytes of a 512-byte sector: codeword j holds data bytes k with k mod 4 = j, and check symbol i of codeword
j is check byte 4 i + j (R208). -/
def sectorCheck (data : List Byte) : List Byte :=
  let cw := (List.range 4).map fun j => rsCheck ((List.range 128).map fun i => (data.getD (4 * i + j) 0).toNat)
  (List.range 32).map fun n => BitVec.ofNat 8 ((cw.getD (n % 4) []).getD (n / 4) 0)

/-- The check bytes as stored: the bitwise inverse marks a poisoned block (R209). -/
def storedCheck (data : List Byte) (poisoned : Bool) : List Byte :=
  if poisoned then (sectorCheck data).map fun b => ~~~b else sectorCheck data

/-! AES-256 (FIPS 197) and XTS (IEEE 1619). -/

/-- Product in AES's field. -/
def aesMul (a b : Nat) : Nat := gfMulBits 0x11b 8 a b 0

/-- Inverse in AES's field, a^254; 0 for 0. -/
def aesInv (a : Nat) : Nat :=
  let a2 := aesMul a a
  let a4 := aesMul a2 a2
  let a8 := aesMul a4 a4
  let a16 := aesMul a8 a8
  let a32 := aesMul a16 a16
  let a64 := aesMul a32 a32
  let a128 := aesMul a64 a64
  aesMul a2 (aesMul a4 (aesMul a8 (aesMul a16 (aesMul a32 (aesMul a64 a128)))))

/-- A byte turned left by n bits. -/
def rotl8 (a n : Nat) : Nat := ((a <<< n) ||| (a >>> (8 - n))) % 256

/-- The S-box. -/
def aesSub (a : Nat) : Nat :=
  let b := aesInv a
  b ^^^ rotl8 b 1 ^^^ rotl8 b 2 ^^^ rotl8 b 3 ^^^ rotl8 b 4 ^^^ 0x63

/-- The inverse S-box. -/
def aesSubInv (a : Nat) : Nat := aesInv (rotl8 a 1 ^^^ rotl8 a 3 ^^^ rotl8 a 6 ^^^ 0x05)

/-- Next words of the AES-256 key schedule: word i from word i - 8 and word i - 1. -/
def aesNextWord (i : Nat) (old prev : List Nat) : List Nat :=
  let t := if i % 8 = 0 then
      (List.zipWith (· ^^^ ·) ((prev.drop 1 ++ prev.take 1).map aesSub) [(List.range (i / 8 - 1)).foldl (fun a _ => aesMul 2 a) 1, 0, 0, 0])
    else if i % 8 = 4 then prev.map aesSub else prev
  List.zipWith (· ^^^ ·) old t

/-- The key schedule, `n` words still to make. -/
def aesSchedule : Nat → List (List Nat) → List (List Nat)
  | 0, ws => ws
  | n + 1, ws =>
    let i := ws.length
    aesSchedule n (ws ++ [aesNextWord i (ws.getD (i - 8) []) (ws.getD (i - 1) [])])

/-- The fifteen round keys of 16 bytes of a 32-byte key. -/
def aesRoundKeys (key : List Nat) : List (List Nat) :=
  (chunks 4 (aesSchedule 52 (chunks 4 key))).map List.flatten

/-- ShiftRows on 16 bytes in column order: byte r + 4 c comes from column c + r. -/
def aesShift (s : List Nat) : List Nat := (List.range 16).map fun i => s.getD ((i + 4 * (i % 4)) % 16) 0

/-- Inverse ShiftRows. -/
def aesShiftInv (s : List Nat) : List Nat := (List.range 16).map fun i => s.getD ((i + 16 - 4 * (i % 4)) % 16) 0

/-- MixColumns with a row of coefficients. -/
def aesMix (m : List Nat) (s : List Nat) : List Nat :=
  (List.range 16).map fun i =>
    (List.range 4).foldl (fun acc j => acc ^^^ aesMul (m.getD ((j + 4 - i % 4) % 4) 0) (s.getD (4 * (i / 4) + j) 0)) 0

/-- Bytewise XOR. -/
def xorBytes (a b : List Nat) : List Nat := List.zipWith (· ^^^ ·) a b

/-- Encrypt 16 bytes. -/
def aesEncrypt (rk : List (List Nat)) (b : List Nat) : List Nat :=
  let s := (List.range 13).foldl
    (fun s i => xorBytes (aesMix [2, 3, 1, 1] (aesShift (s.map aesSub))) (rk.getD (i + 1) [])) (xorBytes b (rk.getD 0 []))
  xorBytes (aesShift (s.map aesSub)) (rk.getD 14 [])

/-- Decrypt 16 bytes. -/
def aesDecrypt (rk : List (List Nat)) (b : List Nat) : List Nat :=
  let s := (List.range 13).foldl
    (fun s i => aesMix [14, 11, 13, 9] (xorBytes ((aesShiftInv s).map aesSubInv) (rk.getD (13 - i) [])))
    (xorBytes b (rk.getD 14 []))
  xorBytes ((aesShiftInv s).map aesSubInv) (rk.getD 0 [])

/-- The tweak times alpha in GF(2^128), least significant byte first (IEEE 1619). -/
def xtsAlpha (t : Nat) : Nat := if bitAt t 127 then ((2 * t) % 2 ^ 128) ^^^ 0x87 else 2 * t

/-- XTS over whole 16-byte blocks with one direction of the cipher, from a tweak. -/
def xtsBlocks (f : List Nat → List Nat) : List (List Nat) → Nat → List Nat
  | [], _ => []
  | b :: bs, t =>
    let tw := (toBytes 16 t).map BitVec.toNat
    xorBytes (f (xorBytes b tw)) tw ++ xtsBlocks f bs (xtsAlpha t)

/-- AES-256-XTS of a data unit: 64 key bytes (data key, tweak key), data unit number, direction (R210). -/
def aesXts (decrypt : Bool) (key : List Byte) (unit : Nat) (data : List Byte) : List Byte :=
  let k := key.map BitVec.toNat
  let k1 := aesRoundKeys (k.take 32)
  let t0 := aesEncrypt (aesRoundKeys (k.drop 32)) ((toBytes 16 unit).map BitVec.toNat)
  let tw := ofBytes (t0.map (BitVec.ofNat 8))
  (xtsBlocks (if decrypt then aesDecrypt k1 else aesEncrypt k1) (chunks 16 (data.map BitVec.toNat)) tw).map (BitVec.ofNat 8)

end Sys2Proof.Machine
end

