-- ==== Sys2Proof/Machine/Ops.lean ====
section
/-! DEFINITION. The shared operations: Logbook records (R397 to R402), notices and events, waking a hamlet (R370), household
addresses (R191 to R199), memory with poison and page encryption (R209, R210, R387), and entering and leaving an exception
handler of a Hand (R153, R146). -/

namespace Sys2Proof.Machine

/-! ## Notices, interrupts and events -/

/-- A notice is produced for a postbox (R345). -/
def State.notify (s : State) (pb : Nat) (op : BitVec 16) (result : Word64) : State :=
  { s with noticeQ := s.noticeQ ++ [⟨pb, op, result⟩] }

/-- The notice postbox of a household: the one that NOTICE_ROUTE named, else its VF's, else postbox 0 (R345). -/
def State.noticeBox (s : State) (hh : Nat) : Nat := ((s.household hh).noticePb).getD (s.household hh).vf

/-- A household notice (R345). -/
def State.notifyHousehold (s : State) (hh : Nat) (op : BitVec 16) (result : Word64) : State :=
  s.notify (s.noticeBox hh) op result

/-- Something leaves for the host or the board. -/
def State.emit (s : State) (o : HostOut) : State := { s with hostOut := s.hostOut ++ [o] }

/-- A doubleword of the MSI-X table of a function: of each entry the address, and the data with the mask bit, which resets to 1 (PCIe's layout,
log entry 119). -/
def State.msixWord (s : State) (fn i : Nat) : Word64 := s.msix.get (if i % 2 = 1 then BitVec.ofNat 64 (2 ^ 32) else 0) (fn * 64 + i)

/-- Whether a vector is masked. -/
def State.msixMasked (s : State) (fn vector : Nat) : Bool := (s.msixWord fn (2 * vector + 1)).getLsbD 32

/-- A vector is raised: its message leaves, or its pending bit is set while it is masked (log entry 119). -/
def State.raiseMsix (s : State) (fn vector : Nat) : State :=
  if s.msixMasked fn vector then { s with msixPend := setInsert s.msixPend (fn * 32 + vector) } else s.emit (.msix fn vector)

/-- Bits of HEVPEND (Table 5.8). -/
inductive EventBit
  | mill
  | fence
  | ringStall
  | pushStall
  | porter
  | reeve
deriving DecidableEq, Repr

/-- The place of an event in HEVPEND. -/
def EventBit.index : EventBit → Nat
  | .mill => 0
  | .fence => 1
  | .ringStall => 2
  | .pushStall => 3
  | .porter => 4
  | .reeve => 5

/-- An event source sets its bit in HEVPEND, where it stays until software clears it (R154). -/
def State.raiseEvent (s : State) (h : HandRef) (e : EventBit) : State :=
  s.modHand h fun x => { x with evPend := x.evPend ||| BitVec.ofNat 6 (2 ^ e.index) }

/-- The event of a Mill goes to the Hand of its number (R103). -/
def State.millEvent (s : State) (u : MillRef) (e : EventBit) : State := s.raiseEvent ⟨u.die, u.slot, u.idx⟩ e

/-! ## The Logbook -/

/-- What a record says (Table 14.2). -/
structure LogReq where
  cls : Nat
  severity : Nat
  die : Nat
  place : Nat := 0
  household : Nat := 0
  job : Nat := 0
  event : Nat
  addr : Nat := 0
  detail : Nat := 0
deriving DecidableEq, Repr

/-- AOCLK ticks in one second (R365). -/
def ticksPerSecond : Nat := 25000000

/-- The record of a request at an index and a time (Table 14.2). -/
def LogReq.record (r : LogReq) (index : Word32) (time : Word64) : LogRecord :=
  { index := index, cls := BitVec.ofNat 4 r.cls, severity := BitVec.ofNat 2 r.severity, die := BitVec.ofNat 3 r.die
    place := BitVec.ofNat 5 r.place, household := BitVec.ofNat 6 r.household, job := BitVec.ofNat 16 r.job
    event := BitVec.ofNat 16 r.event, addr := BitVec.ofNat 48 r.addr, detail := BitVec.ofNat 32 r.detail, time := time }

/-- A written record sets the sticky bits and the first-error record of a block (R401). -/
def LogBlock.note (b : LogBlock) (r : LogRecord) : LogBlock :=
  let c := r.cls.toNat
  { b with
    any := b.any ||| BitVec.ofNat 16 (2 ^ c)
    severe := if 2 ≤ r.severity.toNat then b.severe ||| BitVec.ofNat 16 (2 ^ c) else b.severe
    first := if (b.first.find c).isSome then b.first else b.first.set c r }

/-- Whether a CORRECTED record of the request's class and place was produced in the last second (R400). -/
def State.suppressed (s : State) (r : LogReq) : Bool :=
  decide (r.severity = 1) &&
    (match ((s.die r.die).log.lastCorrected.find (r.cls * 32 + r.place)) with
    | some t => decide (s.clock.toNat < t.toNat + ticksPerSecond)
    | none => false)

/-- Whether a record may be written at a place of the ring (R400). -/
def State.logRoom (s : State) (index : Word32) : Bool :=
  match s.logRing.find (index.toNat % 1920) with
  | none => true
  | some r => decide (r.severity.toNat < 2)

/-- The record is written to the ring and noted in the block of its die and in that of die 0, or counted as lost (R400). -/
def State.logWrite (s : State) (rec : LogRecord) : State :=
  if s.logRoom rec.index then
    let s1 := { s with logRing := s.logRing.set (rec.index.toNat % 1920) rec }
    let s2 := s1.modDie rec.die.toNat fun x => { x with log := x.log.note rec }
    if rec.die = 0 then s2 else s2.modDie 0 fun x => { x with log := x.log.note rec }
  else s.modDie 0 fun x => { x with log := { x.log with lost := satAdd x.log.lost 1 } }

/-- The ALERT of a household: its notice, and vector 1 of its VF. Where its notices go to postbox 0, the one notice there serves both (R402, log
entry 21). -/
def State.alertHousehold (s : State) (hh : Nat) (index : Word32) : State :=
  if hh = 0 then s
  else
    let t := if s.noticeBox hh = 0 then s else s.notifyHousehold hh 0xf006 (index.setWidth 64)
    if (s.household hh).vf = 0 then t else t.raiseMsix (s.household hh).vf 1

/-- ALERT notices and vectors of a record (R402). -/
def State.logAlert (s : State) (rec : LogRecord) : State :=
  if 2 ≤ rec.severity.toNat ∨ (rec.severity = 0 ∧ (rec.cls = 7 ∨ rec.cls = 11)) then
    ((s.notify 0 0xf006 (rec.index.setWidth 64)).raiseMsix 0 16).alertHousehold rec.household.toNat rec.index
  else s

/-- A FATAL record sets IDENT_STATE to UNDEFINED (R389, R392, R405). -/
def State.logFatal (s : State) (rec : LogRecord) : State :=
  if rec.severity = 3 then { s with ident := { s.ident with state := .undefined } } else s

/-- Whether ALERT_N is asserted: a SEVERE bit of die 0's LOG_STICKY is set (R402). -/
def State.alertN (s : State) : Bool := (s.die 0).log.severe != 0

/-- When ALERT_N asserts the part sends Host Notify (R421, Table 15.5). -/
def State.hostNotify (s t : State) : State := if !s.alertN && t.alertN then t.emit .hostNotify else t

/-- Produce a Logbook record (R397 to R402). -/
def State.logEvent (s : State) (r : LogReq) : State :=
  if s.suppressed r then
    s.modDie r.die fun x => { x with log := { x.log with suppressed := satAdd x.log.suppressed 1 } }
  else
    let rec_ := r.record s.logNext s.clock
    let s1 := { s with logNext := s.logNext + 1 }
    let s2 := if r.severity = 1 then
        s1.modDie r.die fun x => { x with log := { x.log with lastCorrected := x.log.lastCorrected.set (r.cls * 32 + r.place) s.clock } }
      else s1
    s.hostNotify (((s2.logWrite rec_).logAlert rec_).logFatal rec_)

/-! ## Waking a hamlet -/

/-- Mills that keep nothing but RETIRE_PENDING and the pointer of R158 (R100, R101; log entry 92). -/
def Hamlet.coldMills (m : Hamlet) : Tab Mill := m.mills.mapV fun _ u => { retirePending := u.retirePending, pushPtr := u.pushPtr }

/-- On wake from Retain the Mills, Hands, Tally units and Porters are at their cold values (R101, R160, Table 13.3); from Off the rings and
Bells too (R186).
The zero-fill of the scratchpad is made by `State.wake`. -/
def Hamlet.woken (m : Hamlet) : Hamlet :=
  match m.power with
  | .active => m
  | .gated => { m with power := .active }
  | .retain => { m with power := .active, mills := m.coldMills, hands := m.hands.mapV fun _ x => { hamlet := x.hamlet }, tallies := {}, porters := {}, wakes := m.wakes + 1 }
  | .off =>
    { m with power := .active, mills := m.coldMills, hands := m.hands.mapV fun _ x => { hamlet := x.hamlet }, rings := {}, bells := {}, tallies := {}, porters := {}
             waitLimit := 0x00100000, ringStall := 0, err := {}, wakes := m.wakes + 1 }

/-- Package address of an offset in the scratchpad of a slot (Table 7.1). -/
def sramAddr (m : HamletRef) (off : Nat) : Nat := 0xe00000000000 + m.die * 0x40000000 + 0x10000000 + m.slot * 0x800000 + off

/-- Package address of an offset in a granule of a die (Table 7.1). -/
def granuleAddr (d g off : Nat) : Nat := 0xe00000000000 + d * 0x40000000 + g * 0x100000 + off

/-- Bytes of a scratchpad (R161). -/
def padBytes : Nat := 0x600000

/-- Zeros written over whole words of on-chip memory, which clears their poison (R187, R387). -/
def State.zeroSram (s : State) (a n : Nat) : State :=
  { s with mem := s.mem.zero a n, sramPoison := setErase s.sramPoison (a / 8) (n / 8) }

/-- Whether the package sleeps in Deep, with its PLLs off: from its entry until a doorbell's exit has restored the saved state (R372, R374). -/
def State.asleep (s : State) : Bool := decide (s.ident.power = .deep) && s.deepSave.isSome

/-- The package enters Run: forced Doze ends (R369). -/
def State.toRun (s : State) : State :=
  { s with ident := { s.ident with power := .run }, settings := { s.settings with dozeForced := false }, activity := s.mclk }

/-- Activity returns a package in Doze to Run at once (R371). -/
def State.rouse (s : State) : State := if s.ident.power = .doze then s.toRun else s

/-- A parish engine, Porter or Sieve works in this cycle, or the Reeve takes a command (R371). -/
def State.stir (s : State) : State := { s.rouse with activity := s.mclk }

/-- A wake trigger returns a hamlet to Active (R186, R370), and the package to Run (R371); a slot without use stays unpowered (R367). -/
def State.wake (s : State) (m : HamletRef) : State :=
  let x := s.hamlet m
  if s.unused m then s
  else
  match x.power with
  | .active => s
  | .off => ((s.zeroSram (sramAddr m 0) padBytes).setHamlet m { x.woken with idleSince := s.mclk }).rouse
  | _ => (s.setHamlet m { x.woken with idleSince := s.mclk }).rouse

/-! ## The package address map -/

/-- Data pages of 2 MiB of a die (Table 7.2). -/
def dataPages : Density → Nat
  | .gib64 => 185042
  | .gib128 => 370085

/-- The host die of a die without LPDDR: the nearest die with LPDDR, the lower-numbered on a tie (R206). -/
def State.hostDie (s : State) (d : Nat) : Option Nat :=
  let ok := (List.range s.dieCount).filter fun i => !(s.die i).noLpddr
  let best := ok.foldl (fun b i => min b (hops s.dieCount d i)) 8
  ok.find? fun i => hops s.dieCount d i == best

/-- How many dies a die hosts (R206). -/
def State.hosted (s : State) (d : Nat) : Nat :=
  ((List.range s.dieCount).filter fun i => (s.die i).noLpddr && s.hostDie i == some d).length

/-- Whether every die has LPDDR, so that the interleaved view reaches memory (R205). -/
def State.allLpddr (s : State) : Bool := (List.range s.dieCount).all fun i => !(s.die i).noLpddr

/-- DIE_TOP in pages of 2 MiB (R192, R206). -/
def State.topPages (s : State) (d : Nat) : Nat :=
  if (s.die d).noLpddr then 0 else dataPages s.part.density - 1024 - 1024 * s.hosted d

/-- 2 MiB. -/
def pageBytes : Nat := 0x200000

/-- Base of a die's LPDDR window (Table 7.1). -/
def lpddrBase (d : Nat) : Nat := d * 0xc000000000

/-- Base of the interleaved view (Table 7.1). -/
def viewBase : Nat := 0x080000000000

/-- Base of on-chip memory (Table 7.1). -/
def sramBase : Nat := 0xe00000000000

/-- Whether a package address names on-chip memory. -/
def isSram (a : Nat) : Bool := decide (sramBase ≤ a)

/-- The die-local package address of an LPDDR address of either view, inside the valid part of Table 7.1 (R191, R195). -/
def State.dieLocal (s : State) (a : Nat) : Option Nat :=
  if a < viewBase then
    (if a / 0xc000000000 < s.dieCount ∧ a % 0xc000000000 < s.topPages (a / 0xc000000000) * pageBytes then some a else none)
  else if a < sramBase ∧ s.allLpddr = true then
    let x := a - viewBase
    let g := x / 0x10000
    if x < s.dieCount * (s.topPages 0 * pageBytes) then
      some (lpddrBase (g % s.dieCount) + (g / s.dieCount) * 0x10000 + x % 0x10000)
    else none
  else none

/-- Die, controller and home parish of a die-local package address (R194). -/
def lpddrCtl (a : Nat) : CtlRef := ⟨a / 0xc000000000, (a % 0xc000000000 / 0x1000) % 6⟩
def lpddrHome (a : Nat) : ParishRef := ⟨a / 0xc000000000, (a % 0xc000000000 / 0x1000) % 4⟩

/-! ## Household addresses -/

/-- How the bytes of an LPDDR page are kept (R210): as they are, under a key pair, or unreachable for want of the key. -/
inductive Crypt
  | plain
  | key (k : List Byte)
  | noKey
deriving DecidableEq, Repr

/-- What an effective address reaches. -/
inductive Target
  | mem (addr : Nat) (c : Crypt)
  | reg (m : HamletRef) (off : Nat)
  | granary (p : ParishRef) (off : Nat)
  | controller (c : CtlRef) (off : Nat)
  | remote (ea : Nat)
deriving DecidableEq, Repr

/-- Who makes an access (R197): its household, its job, none for the host's BAR2 window and for a request of another package, and whether
it is the host. -/
structure Actor where
  household : Nat
  job : Option Nat
  host : Bool := false
deriving DecidableEq, Repr

/-- Whether a job is the actor's, or, for the host or another package, a job of the household whose scrub has not ended (log entry 22). -/
def Actor.owns (a : Actor) (n : Nat) (j : Job) : Bool :=
  match a.job with
  | some k => j.live && n == k
  | none => (j.live || j.isEnding) && j.household == a.household

/-- The slot of a logical hamlet placed for the actor. -/
def State.placedFor (s : State) (a : Actor) (d k : Nat) : Option HamletRef :=
  (s.jobs.cells.filter fun c => a.owns c.1 c.2).findSome? fun c => c.2.hamletOf d k

/-- Whether a parish holds a hamlet placed for the actor (Table 7.4). -/
def State.parishFor (s : State) (a : Actor) (p : ParishRef) : Bool :=
  s.jobs.cells.any fun c => a.owns c.1 c.2 && c.2.places.any fun q => q.die == p.die && q.logical / 4 == p.par

/-- A page table entry (Table 7.5). -/
def pteValid (e : Word64) : Bool := e.getLsbD 0
def pteWrite (e : Word64) : Bool := e.getLsbD 1
def pteProt (e : Word64) : Bool := e.getLsbD 2
def pteKey (e : Word64) : Nat := fieldOf e 3 6
def ptePage (e : Word64) : Nat := fieldOf e 21 27

/-- How a page is kept for a household (R210). -/
def State.cryptFor (s : State) (hh : Nat) (e : Word64) : Crypt :=
  if pteProt e then
    (match s.keySlots.find (pteKey e) with
    | some k => if k.owner = hh then .key k.key else .noKey
    | none => .noKey)
  else .plain

/-- 2 GiB, the size of a reserved region (R192). -/
def reservedBytes : Nat := 0x80000000

/-- Package address of a byte of the reserved region of a die: the top of its data capacity, or the second area that its host die keeps for it,
above DIE_TOP in the order of the hosted dies (R192, R206, log entry 102). -/
def State.reservedAddr (s : State) (d off : Nat) : Nat :=
  match (if (s.die d).noLpddr then s.hostDie d else none) with
  | some h =>
    let before := ((List.range d).filter fun i => (s.die i).noLpddr && s.hostDie i == some h).length
    lpddrBase h + s.topPages h * pageBytes + reservedBytes * before + off
  | none => lpddrBase d + (dataPages s.part.density - 1024) * pageBytes + off

/-- Package address of the entry of a page in a die's copy of a household's page table: PT_BASE + 8 h (R198). -/
def State.pteAddr (s : State) (d hh page : Nat) : Nat := s.reservedAddr d ((s.household hh).ptBase + 8 * page)

/-- The page table entry of a page, as die 0 holds it; every die holds the same (R193, R198). -/
def State.pte (s : State) (hh page : Nat) : Word64 := BitVec.ofNat 64 (ofBytes (s.mem.readBytes (s.pteAddr 0 hh page) 8))

/-- Entries written from a page on in the copy of every die (R198). -/
def State.putPtes (s : State) (hh page : Nat) (l : List Word64) : State :=
  { s with mem := (List.range s.dieCount).foldl (fun m d => m.writeBytes (s.pteAddr d hh page) (l.flatMap fun e => toBytes 8 e.toNat)) s.mem }

/-- The valid entries of a household's page table, by page. -/
def State.ptesOf (s : State) (hh : Nat) : List (Nat × Word64) :=
  let a := s.pteAddr 0 hh 0
  let n := (s.household hh).ptLen
  let cells := s.mem.filter fun c => decide (a ≤ c.1) && decide (c.1 < a + 8 * n)
  ((cells.map fun c => (c.1 - a) / 8).dedup.map fun i => (i, s.pte hh i)).filter fun e => pteValid e.2

/-- Translation of an LPDDR household address (R198, R199). -/
def State.translate (s : State) (hh : Nat) (write : Bool) (ha : Nat) : Option Target :=
  let x := s.household hh
  let page := ha / pageBytes
  if page < x.ptLen then
    let e := s.pte hh page
    if pteValid e && (!write || pteWrite e) then
      (s.dieLocal (ptePage e * pageBytes + ha % pageBytes)).map fun a => .mem a (s.cryptFor hh e)
    else none
  else none

/-- The on-chip part of Table 7.4: scratch granules of the household and scratchpads of the actor. -/
def State.resolveSram (s : State) (a : Actor) (o : Nat) : Option Target :=
  let d := o / 0x40000000
  let x := o % 0x40000000
  if s.dieCount ≤ d then none
  else if x < 160 * 0x100000 then
    let g := x / 0x100000
    let p := s.parish ⟨d, g / 40⟩
    if p.scratch.getLsbD (g % 40) then
      (match p.owner.find (g % 40) with
      | some n => (s.jobs.find n).bind fun j => if j.household = a.household then some (.mem (sramBase + o) .plain) else none
      | none => none)
    else none
  else if x < 0x10000000 then none
  else
    let k := (x - 0x10000000) / 0x800000
    let off := (x - 0x10000000) % 0x800000
    if k < 16 ∧ off < padBytes then (s.placedFor a d k).map fun m => .mem (sramAddr m off) .plain else none

/-- The register part of Table 7.4. The blocks of hamlets and parishes ask for an issuing job, and the host has none: it programs no Mill,
Hand, Porter, ring or Bell directly (R19); the controllers ask for any job of the household. -/
def State.resolveRegs (s : State) (a : Actor) (write : Bool) (o : Nat) : Option Target :=
  let d := o / 0x10000000
  let x := o % 0x10000000
  if s.dieCount ≤ d then none
  else if 0x100000 ≤ x ∧ x < 0x200000 then
    if a.host then none else (s.placedFor a d ((x - 0x100000) / 0x10000)).map fun m => .reg m (x % 0x10000)
  else if 0x800000 ≤ x ∧ x < 0x900000 ∧ 0x8000 ≤ x % 0x40000 ∧ x % 0x40000 < 0x9000 then
    let p : ParishRef := ⟨d, (x - 0x800000) / 0x40000⟩
    if !write && !a.host && s.parishFor a p then some (.granary p (x % 0x1000)) else none
  else if 0x3000000 ≤ x ∧ x < 0x3006000 then
    if write || !(s.jobs.cells.any fun c => a.owns c.1 c.2) then none else some (.controller ⟨d, (x - 0x3000000) / 0x1000⟩ (x % 0x1000))
  else none

/-- What an effective address reaches, none where the access faults (R197, Table 7.4). -/
def State.resolve (s : State) (a : Actor) (write : Bool) (ea : Nat) : Option Target :=
  if 2 ^ 52 ≤ ea then none
  else if ea / 2 ^ 48 ≠ s.torus.board.toNat then
    (if s.torus.message || !(s.torus.group.any fun g => g.board.toNat == ea / 2 ^ 48) then none else some (.remote ea))
  else
    let ha := ea % 2 ^ 48
    if ha < viewBase then s.translate a.household write ha
    else if ha < sramBase then none
    else if ha < 0xf00000000000 then s.resolveSram a (ha - sramBase)
    else s.resolveRegs a write (ha - 0xf00000000000)

/-! ## Firmware structures in LPDDR (R192, R193, R206, R392) -/

/-- Whether a die-local package address lies in the data capacity of a die with LPDDR: below its DIE_TOP or in its reserved region (R192). -/
def State.isData (s : State) (a : Nat) : Bool :=
  decide (a / 0xc000000000 < s.dieCount) && !(s.die (a / 0xc000000000)).noLpddr &&
    decide (a % 0xc000000000 < dataPages s.part.density * pageBytes)

/-- The structures of a reserved region beside the page tables, each kept twice at different sites (R193, R392, log entry 102): the admission
journal, the save area for Deep and the die's poison list. -/
inductive FirmArea
  | journal
  | deepSave
  | poisonList
deriving DecidableEq, Repr

/-- The first block of a structure; its second copy lies 4 KiB on, at the next controller (R194, log entry 102). -/
def FirmArea.off : FirmArea → Nat
  | .journal => 0x0000
  | .deepSave => 0x2000
  | .poisonList => 0x4000

/-- The two copies of a structure of a die. -/
def State.firmCopies (s : State) (d : Nat) (f : FirmArea) : List Nat := [s.reservedAddr d f.off, s.reservedAddr d (f.off + 0x1000)]

/-- The copies of the block of a household's page table that holds an entry, a die's own first (R193, R200). -/
def State.tableCopies (s : State) (d hh page : Nat) : List Nat :=
  (d :: (List.range s.dieCount).filter fun i => i != d).map fun i => s.pteAddr i hh page

/-- A structure is read: where its first copy is poisoned, the head Reeve uses another and rewrites the poisoned block from it; where every copy
is poisoned, the error is FATAL (R392). -/
def State.readFirm (s : State) (d hh : Nat) (copies : List Nat) : State :=
  let bad := fun a => s.blkPoison.contains (a / 2048)
  match copies with
  | [] => s
  | a :: _ =>
    if !bad a then s
    else
      match copies.find? fun b => !bad b with
      | some b =>
        { s with mem := s.mem.writeBytes (2048 * (a / 2048)) (s.mem.readBytes (2048 * (b / 2048)) 2048)
                 blkPoison := s.blkPoison.erase (a / 2048) }.logEvent
          { cls := 1, severity := 1, die := d, place := 27, household := hh, event := 3, addr := 2048 * (a / 2048) }
      | none => s.logEvent { cls := 13, severity := 3, die := d, household := hh, event := 1 }

/-- A structure of a die that hosts no LPDDR and has no host is not there. -/
def State.readArea (s : State) (d : Nat) (f : FirmArea) : State := s.readFirm d 0 (s.firmCopies d f)

/-! ## Memory -/

/-- The 512-byte sectors that `n` bytes from `a` touch (R207). -/
def sectorsOf (a n : Nat) : List Nat := (List.range ((a + n + 511) / 512 - a / 512)).map fun i => a / 512 + i

/-- The 2 KiB blocks that `n` bytes from `a` touch (R208). -/
def blocksOf (a n : Nat) : List Nat := (List.range ((a + n + 2047) / 2048 - a / 2048)).map fun i => a / 2048 + i

/-- The doublewords that `n` bytes from `a` touch. -/
def wordsOf (a n : Nat) : List Nat := (List.range ((a + n + 7) / 8 - a / 8)).map fun i => a / 8 + i

/-- The plaintext of a sector kept under a key (R210). -/
def plainSector (m : Memory) (k : List Byte) (sec : Nat) : List Byte := aesXts true k sec (m.readBytes (512 * sec) 512)

/-- The bytes that an agent sees at `n` package addresses from `a`. -/
def State.bytesAt (s : State) (a n : Nat) (c : Crypt) : List Byte :=
  match c with
  | .plain => s.mem.readBytes a n
  | .noKey => List.replicate n 0
  | .key k => slice ((sectorsOf a n).map (plainSector s.mem k)).flatten (a % 512) n

/-- The bytes placed at offset `o` of a list. -/
def spliceBytes (l : List Byte) (o : Nat) (d : List Byte) : List Byte := l.take o ++ d ++ l.drop (o + d.length)

/-- Memory with a sector's plaintext stored under a key. -/
def putSector (k : List Byte) (m : Memory) (x : Nat × List Byte) : Memory := m.writeBytes (512 * x.1) (aesXts false k x.1 x.2)

/-- Memory with bytes written at package address `a`. -/
def State.putBytes (s : State) (a : Nat) (d : List Byte) (c : Crypt) : Memory :=
  match c with
  | .plain => s.mem.writeBytes a d
  | .noKey => s.mem
  | .key k =>
    let secs := sectorsOf a d.length
    let old := (secs.map (plainSector s.mem k)).flatten
    (List.zip secs (chunks 512 (spliceBytes old (a % 512) d))).foldl (putSector k) s.mem

/-- Whether one of `n` package addresses from `a` lies in a poisoned block or word (R209, R387). -/
def State.poisonedAt (s : State) (a n : Nat) : Bool :=
  if isSram a then (wordsOf a n).any fun w => s.sramPoison.contains w
  else (blocksOf a n).any fun b => s.blkPoison.contains b

/-- The first poisoned doubleword among `n` addresses of on-chip memory from `a`. -/
def State.firstPoison (s : State) (a n : Nat) : Option Nat := (wordsOf a n).find? fun w => s.sramPoison.contains w

/-- A block of LPDDR takes the mark of R209, and its controller counts it (Table 7.11). -/
def State.markBlock (s : State) (b : Nat) : State :=
  if s.blkPoison.contains b then s
  else { (s.modCtl (lpddrCtl (2048 * b)) fun x => { x with poisoned := satAdd x.poisoned 1 }) with blkPoison := setInsert s.blkPoison b }

/-- The poison lists after a write: a poisoned write marks all it touches; another clears the words or blocks that it covers
whole (R209, R218, R387). -/
def State.poisonAfter (s : State) (a n : Nat) (poisoned : Bool) : State :=
  if isSram a then
    if poisoned then { s with sramPoison := (wordsOf a n).foldl setInsert s.sramPoison }
    else { s with sramPoison := setErase s.sramPoison ((a + 7) / 8) ((a + n) / 8 - (a + 7) / 8) }
  else if poisoned then (blocksOf a n).foldl State.markBlock s
  else { s with blkPoison := setErase s.blkPoison ((a + 2047) / 2048) ((a + n) / 2048 - (a + 2047) / 2048) }

/-- Write bytes at package address `a`. A write to a page without its key is discarded (R210). -/
def State.store (s : State) (a : Nat) (d : List Byte) (c : Crypt) (poisoned : Bool) : State :=
  match c with
  | .noKey => s
  | _ => { s with mem := s.putBytes a d c }.poisonAfter a d.length poisoned

/-- The slot that a package address of a scratchpad belongs to. -/
def slotOfAddr (a : Nat) : Option HamletRef :=
  let o := a - sramBase
  if isSram a && decide (0x10000000 ≤ o % 0x40000000) then
    some ⟨o / 0x40000000, (o % 0x40000000 - 0x10000000) / 0x800000⟩
  else none

/-- Whether a granule is fenced: it is retired, or waits for the scrub of the job that held it (R187, R188). -/
def State.granuleFenced (s : State) (p : ParishRef) (g : Nat) : Bool :=
  (s.parish p).retired.getLsbD g ||
  match (s.parish p).owner.find g with
  | some n => ((s.jobs.find n).map fun j => !j.live).getD true
  | none => false

/-- Whether a package address lies behind a raised fence (R188, R189). -/
def State.fenced (s : State) (a : Nat) : Bool :=
  match slotOfAddr a with
  | some m => (s.hamlet m).fence != .lowered
  | none =>
    let o := a - sramBase
    isSram a && s.granuleFenced ⟨o / 0x40000000, o % 0x40000000 / 0x100000 / 40⟩ (o % 0x40000000 / 0x100000 % 40)

/-- An access from outside wakes the hamlet that it reaches (R186). -/
def State.wakeFor (s : State) (a : Nat) : State :=
  match slotOfAddr a with
  | some m => s.wake m
  | none => s

/-- The runs of `n` bytes from `ea` that each lie in one aligned 2 KiB. -/
def runsOf (ea n : Nat) : List (Nat × Nat) :=
  (blocksOf ea n).map fun b => (max ea (2048 * b), min (ea + n) (2048 * (b + 1)) - max ea (2048 * b))

/-- Read `n` bytes from a place in memory: the bytes and whether they carry poison. A fenced place reads zeros (R189). -/
def State.loadMem (s : State) (a n : Nat) (c : Crypt) : List Byte × Bool :=
  if s.fenced a then (List.replicate n 0, false) else (s.bytesAt a n c, s.poisonedAt a n)

/-- Write to a place in memory; a fenced place discards it (R189). -/
def State.storeMem (s : State) (a : Nat) (d : List Byte) (c : Crypt) (poisoned : Bool) : State :=
  if s.fenced a then s else s.store a d c poisoned

/-! ## The Granary cache -/

/-- Ways of a parish's cache: its granules in cache mode (R201). -/
def Parish.cacheWays (p : Parish) : Nat := ((List.range 40).filter fun j => !p.scratch.getLsbD j && !p.retired.getLsbD j).length

/-- The set of the line at a die-local package address (R201). -/
def cacheSet (a : Nat) : Nat :=
  let o := a % 0xc000000000
  ((o / 0x4000) * 8 + (o % 0x1000) / 512) % 2048

/-- Key of way `w` of a set. -/
def wayKey (set w : Nat) : Nat := set * 40 + w

/-- The way of a set that holds a line (numbered by its sector). -/
def Parish.wayOf (p : Parish) (line : Nat) : Option Nat :=
  (List.range p.cacheWays).find? fun w => ((p.ways.find (wayKey (cacheSet (512 * line)) w)).map (·.line)) == some line

/-- The way that a fill takes and the pointer after it: the lowest invalid way, else the pointer's (R203). -/
def Parish.victim (p : Parish) (set : Nat) : Nat × Nat :=
  let rr := p.rr.get 0 set
  match (List.range p.cacheWays).find? fun w => (p.ways.find (wayKey set w)).isNone with
  | some w => (w, rr)
  | none => (rr, if rr + 1 < p.cacheWays then rr + 1 else 0)

/-- A line enters the cache (R203). Its contents are always those of memory, so only its presence and dirt are kept. -/
def Parish.fill (p : Parish) (line : Nat) (dirty : Bool) : Parish :=
  if p.cacheWays = 0 then p
  else
    let set := cacheSet (512 * line)
    let v := p.victim set
    { p with ways := p.ways.set (wayKey set v.1) ⟨line, dirty⟩, rr := if v.2 = 0 then p.rr.del set else p.rr.set set v.2 }

/-- One access to a line at its home: a hit is counted and dirties the way of a write, a miss is counted and allocates where
the access does (R201, R203, Table 7.11). -/
def Parish.access (p : Parish) (line : Nat) (write alloc : Bool) : Parish :=
  match p.wayOf line with
  | some w =>
    { p with hits := p.hits + 1
             ways := if write then p.ways.set (wayKey (cacheSet (512 * line)) w) ⟨line, true⟩ else p.ways }
  | none =>
    let q := { p with misses := p.misses + 1 }
    if alloc then q.fill line write else q

/-- The homes of the lines that an LPDDR access touches take note of it (R202). -/
def State.touch (s : State) (a n : Nat) (write alloc : Bool) : State :=
  if isSram a then s
  else (sectorsOf a n).foldl (fun t sec => t.modParish (lpddrHome (512 * sec)) fun p => p.access sec write alloc) s

/-- Every line of every cache of a die written back and invalidated, and every pointer at 0 (R203). -/
def Parish.flushed (p : Parish) : Parish := { p with ways := {}, rr := {} }

/-- Every Granary cache of the package written back and invalidated. -/
def State.flushCaches (s : State) : State := { s with parishes := s.parishes.mapV fun _ p => p.flushed }

/-! ## Host memory -/

/-- Whether an access of the part to host memory faults (R348): the host refuses it, or it leaves the 64-bit bus address space. -/
def State.hostFaults (s : State) (a n : Nat) : Bool := decide (2 ^ 64 < a + n) || s.hostDeny.any fun r => decide (a < r.1 + r.2) && decide (r.1 < a + n)

/-- Bytes of host memory, none where the access faults. -/
def State.hostRead (s : State) (a n : Nat) : Option (List Byte) := if s.hostFaults a n then none else some (s.hostMem.readBytes a n)

/-- Host memory written, none where the access faults. -/
def State.hostWrite (s : State) (a : Nat) (d : List Byte) : Option State :=
  if s.hostFaults a d.length then none else some { s with hostMem := s.hostMem.writeBytes a d }

/-! ## Exceptions of a Hand -/

/-- HCAUSE codes (Table 5.8). -/
inductive Cause
  | illegal
  | fetch
  | align
  | access
  | trap
  | poison
  | expand
  | rings
  | hwFault
deriving DecidableEq, Repr

/-- The code of a cause. -/
def Cause.code : Cause → Byte
  | .illegal => 1
  | .fetch => 2
  | .align => 3
  | .access => 4
  | .trap => 5
  | .poison => 6
  | .expand => 7
  | .rings => 8
  | .hwFault => 9

/-- What HEPC holds for a PC: its 15 low bits, of which bits [1:0] read 0 (log entry 18). -/
def epcOf (pc : Word64) : BitVec 15 := pc.setWidth 15 &&& 0x7ffc

/-- Whether an instruction may be fetched at a PC (R131). -/
def pcValid (pc : Word64) : Bool := decide (pc.toNat < 0x8000) && decide (pc.toNat % 4 = 0)

/-- HEPC, HCAUSE and HTVAL of an exception at the Hand's PC (R153). -/
def Hand.record (x : Hand) (c : Cause) (tval : Word64) : Hand :=
  { x with epc := epcOf x.pc, causeCode := c.code, causeEvent := false, tval := tval, wait := .none, stalled := false }

/-- The Hand stops on an exception with FAULT (R153). -/
def Hand.stopFault (x : Hand) : Hand := { x with mode := .faulted, fault := true }

/-- A synchronous exception at the Hand's PC: the handler is entered where there is one and none runs, and otherwise the Hand
stops (R153). A handler address from which nothing can be fetched raises FETCH, with IN_HANDLER set. -/
def Hand.exception (x : Hand) (c : Cause) (tval : Word64) : Hand :=
  let y := x.record c tval
  if x.xvec ≠ 0 ∧ x.inHandler = false then
    let z := { y with inHandler := true, pc := x.xvec.setWidth 64 }
    if pcValid z.pc then z else (z.record .fetch z.pc).stopFault
  else y.stopFault

/-- Execution continues at a PC; a PC outside the buffer raises FETCH there (R131, R137). -/
def Hand.goto (x : Hand) (pc : Word64) : Hand :=
  if pcValid pc then { x with pc := pc } else { x with pc := pc }.exception .fetch pc

/-- Execution continues at the next instruction. -/
def Hand.advance (x : Hand) : Hand := x.goto (x.pc + 4)

/-- ERET: PC = HEPC, IN_HANDLER = 0 (Table 5.7). -/
def Hand.eret (x : Hand) : Hand := { x with inHandler := false }.goto (x.epc.setWidth 64)

/-- An event is taken: HEPC names the instruction given, HCAUSE has EVENT = 1 and CODE 0, and the Hand continues at HEVEC (R154). -/
def Hand.takeEvent (x : Hand) (epc : Word64) : Hand :=
  { x with epc := epcOf epc, causeCode := 0, causeEvent := true, inHandler := true, wait := .none, stalled := false }.goto
    (x.evec.setWidth 64)

/-- Whether an enabled event is pending (R154). -/
def Hand.eventEnabled (x : Hand) : Bool := (x.evPend &&& x.evMask) != 0

/-- Whether the Hand takes an event at its next instruction boundary (R154). -/
def Hand.eventDue (x : Hand) : Bool := x.evEn && !x.inHandler && x.eventEnabled

/-! ## Registers of a Hand -/

/-- s[n]; s0 reads as zero (R129). -/
def Hand.s (x : Hand) (n : Nat) : Word64 := if n = 0 then 0 else x.sregs.get 0 n
/-- s[n] written; a write to s0 is discarded (R129). -/
def Hand.setS (x : Hand) (n : Nat) (v : Word64) : Hand := if n = 0 then x else { x with sregs := x.sregs.set n v }
/-- v[n]. -/
def Hand.v (x : Hand) (n : Nat) : Vec := x.vregs.get 0 n
/-- v[n] written. -/
def Hand.setV (x : Hand) (n : Nat) (v : Vec) : Hand := { x with vregs := x.vregs.set n v }
/-- p[n]; p0 reads as all ones (R129). -/
def Hand.p (x : Hand) (n : Nat) : Word64 := if n = 0 then BitVec.allOnes 64 else x.pregs.get 0 n
/-- p[n] written; a write to p0 is discarded (R129). -/
def Hand.setP (x : Hand) (n : Nat) (v : Word64) : Hand := if n = 0 then x else { x with pregs := x.pregs.set n v }

end Sys2Proof.Machine
end

