-- ==== Sys2Proof/Machine/Clock.lean ====
section
/-! DEFINITION. The passing of time: one AOCLK tick of 40 ns (R365), which is what a step does when no command waits
(DESIGN CHOICE, log entry 11). -/

namespace Sys2Proof.Machine

/-- MCLK cycles in one AOCLK tick at a governor level (R363, R376): 40 ns at 1.5 or 1.3 GHz less 100 MHz for each level. -/
def mclkPerTick (g : Grade) (level : BitVec 3) : Nat :=
  (match g with | .g15 => 60 | .g13 => 52) - 4 * level.toNat

/-- HCLK cycles in one AOCLK tick at a governor level (R376). -/
def hclkPerTick (level : BitVec 3) : Nat := 80 - 4 * level.toNat

/-- Whether AOCLK runs: the package has power (PORST_N high) and THERMTRIP_N has not stopped every clock (R17, R380). -/
def State.clocked (s : State) : Bool := s.pins.porst && !s.stopped

/-- Whether HCYCLE counts in the hamlet of a key: a job runs there, and the hamlet keeps its Hands, Active or Gated (Table 5.8, R160, log entry 11). -/
def State.countsCycles (s : State) (key : Nat) (m : Hamlet) : Bool :=
  (m.power == .active || m.power == .gated) &&
    s.jobs.cells.any fun c => c.2.state == .running && c.2.places.any fun q => slotKey q.die q.slot == key

/-- HCYCLE advances, whatever the Hand does (Table 5.8). -/
def Hand.tick (n : Nat) (h : Hand) : Hand := { h with cycles := h.cycles + BitVec.ofNat 64 n }

/-- One AOCLK tick: the village clock advances by one; outside Deep, where the PLLs are off (R372), the fast clocks advance. -/
def State.tick (s : State) : State :=
  if s.clocked then
    if s.asleep then { s with clock := s.clock + 1 }
    else
      { s with
        clock := s.clock + 1
        mclk := s.mclk + mclkPerTick s.part.grade s.gov.level
        hamlets := s.hamlets.mapV fun k m =>
          if !s.countsCycles k m then m else { m with hands := m.hands.mapV fun _ h => h.tick (hclkPerTick s.gov.level) } }
  else s

end Sys2Proof.Machine
end

