-- ==== Sys2Proof/Machine/Operands.lean ====
section
/-! DEFINITION. The encoding of the Hand's instructions (R133, R134, Tables 5.1 to 5.7): what a word says, with every check that
makes it illegal. -/

namespace Sys2Proof.Machine

/-- A decoded instruction: one constructor per row of the command table that a Hand executes, with its fields. -/
inductive HandOp
  | int (fn a b d : Nat)
  | div (fn a b d : Nat)
  | addi (op a d : Nat) (imm : Word64)
  | shi (kind amt a d : Nat)
  | lui (d : Nat) (imm : Word64)
  | luih (d : Nat) (imm : Word64)
  | br (cond a b : Nat) (off : Word64)
  | pbr (cond p : Nat) (off : Word64)
  | jal (d : Nat) (off : Word64)
  | jalr (d a : Nat) (imm : Word64)
  | localLoad (op a d : Nat) (imm : Word64)
  | localStore (op a d : Nat) (imm : Word64)
  | vld (a d : Nat) (off : Word64)
  | vst (a d : Nat) (off : Word64)
  | vstn (a b d : Nat)
  | gld (a d : Nat) (off : Word64)
  | gst (a d : Nat) (off : Word64)
  | gvld (a d : Nat) (off : Word64)
  | gvst (a d : Nat) (off : Word64)
  | gvstn (a b d : Nat)
  | hfence
  | csr (num op a d : Nat)
  | vi (op ty p b a d : Nat)
  | vf (op ty p b a d : Nat)
  | vx (op ty b a d : Nat)
  | vrsum (op ty a d : Nat)
  | vc (fn b a d : Nat)
  | tern (b a d : Nat)
  | packt (a d : Nat)
  | unpackt (a d : Nat)
  | pr (fn b a d : Nat)
  | wait
  | eret
  | halt
  | trap (code : Nat)
  | ibld (a b d : Nat)
  | rget (a d : Nat)
  | rgetx (a d : Nat)
  | rrel (a : Nat)
  | rrsv (a d : Nat)
  | rpub (a b : Nat)
  | vrx (d : Nat)
  | badd (a b : Nat)
  | bwait (a b : Nat)
  | bread (a d : Nat)
  | lot (a b d : Nat)
  | pissue (a b : Nat)
  | mpush (a b : Nat)
  | tfeed (a b : Nat)
  | trd (a d : Nat)
  | twr (a b : Nat)
  | illegal
deriving DecidableEq, Repr

/-! Fields (Table 5.1). -/

def opcOf (w : Word32) : Nat := fieldOf w 0 7
def fnOf (w : Word32) : Nat := fieldOf w 25 7
def pOf (w : Word32) : Nat := fieldOf w 22 3
def bOf (w : Word32) : Nat := fieldOf w 17 5
def aOf (w : Word32) : Nat := fieldOf w 12 5
def dOf (w : Word32) : Nat := fieldOf w 7 5
/-- IMM15, sign-extended (R133). -/
def imm15Of (w : Word32) : Word64 := (w.extractLsb' 17 15).signExtend 64
/-- IMM20, sign-extended. -/
def imm20Of (w : Word32) : Word64 := (w.extractLsb' 12 20).signExtend 64
/-- IMM12, sign-extended. -/
def imm12Of (w : Word32) : Word64 := (w.extractLsb' 20 12).signExtend 64
/-- COND of format B, whose registers lie in [16:12] B and [11:7] A. -/
def condOf (w : Word32) : Nat := fieldOf w 17 3

/-- An instruction, or illegal where a check fails. -/
def legal (ok : Bool) (i : HandOp) : HandOp := if ok then i else .illegal

/-- INT, Table 5.3: FN 0x14 to 0x17 are the row DIV. -/
def decodeInt (w : Word32) : HandOp :=
  let fn := fnOf w
  if pOf w ≠ 0 then .illegal
  else if fn ≤ 0x0d ∨ (0x10 ≤ fn ∧ fn ≤ 0x12) then .int fn (aOf w) (bOf w) (dOf w)
  else if 0x14 ≤ fn ∧ fn ≤ 0x17 then .div fn (aOf w) (bOf w) (dOf w)
  else if 0x18 ≤ fn ∧ fn ≤ 0x1a then legal (bOf w == 0) (.int fn (aOf w) 0 (dOf w))
  else .illegal

/-- VI and VF, Table 5.4. -/
def decodeVi (w : Word32) : HandOp :=
  let op := bitsOf (fnOf w) 3 4
  let ty := bitsOf (fnOf w) 0 3
  legal (decide (ty ≤ 2) && decide (op ≤ 14) && (!(op == 12 || op == 13) || decide (dOf w < 8)))
    (.vi op ty (pOf w) (bOf w) (aOf w) (dOf w))

def decodeVf (w : Word32) : HandOp :=
  let op := bitsOf (fnOf w) 3 4
  let ty := bitsOf (fnOf w) 0 3
  legal ((ty == 3 || ty == 4) && decide (op ≤ 14) && (!(decide (7 ≤ op) && decide (op ≤ 12)) || bOf w == 0) &&
      (!(op == 13 || op == 14) || decide (dOf w < 8)))
    (.vf op ty (pOf w) (bOf w) (aOf w) (dOf w))

/-- VX, Table 5.5: FN[6:3] 3 to 5 are the row VRSUM. -/
def decodeVx (w : Word32) : HandOp :=
  let op := bitsOf (fnOf w) 3 4
  let ty := bitsOf (fnOf w) 0 3
  if pOf w ≠ 0 ∨ 4 < ty ∨ 7 < op then .illegal
  else if 3 ≤ op ∧ op ≤ 5 then .vrsum op ty (aOf w) (dOf w)
  else legal (!(op == 6) || ty == 0) (.vx op ty (bOf w) (aOf w) (dOf w))

/-- VC, Table 5.6, with the register groups of R134. -/
def decodeVc (w : Word32) : HandOp :=
  let fn := fnOf w
  let a := aOf w
  let b := bOf w
  let d := dOf w
  if pOf w ≠ 0 then .illegal
  else if fn = 0x02 ∨ fn = 0x03 ∨ fn = 0x0d ∨ fn = 0x10 then legal (a % 2 == 0) (.vc fn b a d)
  else if fn = 0x07 ∨ fn = 0x0c then legal (a % 4 == 0) (.vc fn b a d)
  else if fn = 0x08 then legal (a % 4 == 0 && b % 2 == 0) (.vc fn b a d)
  else if fn = 0x06 then legal (decide (b < 4)) (.vc fn b a d)
  else if fn ≤ 0x11 then .vc fn b a d
  else if fn = 0x18 then legal (a % 2 == 0) (.tern b a d)
  else if fn = 0x19 then legal (a % 4 == 0) (.packt a d)
  else if fn = 0x1a then legal (d % 4 == 0) (.unpackt a d)
  else .illegal

/-- PR, Table 5.2: a predicate field has bits [4:3] zero. -/
def decodePr (w : Word32) : HandOp :=
  let fn := fnOf w
  let a := aOf w
  let b := bOf w
  let d := dOf w
  if pOf w ≠ 0 then .illegal
  else if fn ≤ 2 then legal (decide (a < 8) && decide (b < 8) && decide (d < 8)) (.pr fn b a d)
  else if fn = 3 then legal (decide (a < 8) && b == 0 && decide (d < 8)) (.pr fn b a d)
  else if fn = 4 then legal (decide (a < 8)) (.pr fn b a d)
  else if fn = 5 then legal (decide (d < 8)) (.pr fn b a d)
  else .illegal

/-- SYS, Table 5.7. -/
def decodeSys (w : Word32) : HandOp :=
  let fn := fnOf w
  if pOf w ≠ 0 then .illegal
  else if fn = 0 then .wait
  else if fn = 1 then .eret
  else if fn = 2 then .halt
  else if fn = 3 then .trap (bOf w)
  else if fn = 4 then .ibld (aOf w) (bOf w) (dOf w)
  else .illegal

/-- RING, BELL, LOT, PORT, MPUSH and TALLY, Table 5.7. -/
def decodeUnit (w : Word32) : HandOp :=
  let fn := fnOf w
  let a := aOf w
  let b := bOf w
  let d := dOf w
  if pOf w ≠ 0 then .illegal
  else if opcOf w = 0x50 then
    (if fn = 0 then .rget a d
    else if fn = 1 then .rgetx a d
    else if fn = 2 then .rrel a
    else if fn = 3 then .rrsv a d
    else if fn = 4 then .rpub a b
    else if fn = 5 then legal (a == 0 && b == 0) (.vrx d)
    else .illegal)
  else if opcOf w = 0x51 then
    (if fn = 0 then .badd a b else if fn = 1 then .bwait a b else if fn = 2 then .bread a d else .illegal)
  else if opcOf w = 0x52 then legal (fn == 0) (.lot a b d)
  else if opcOf w = 0x53 then legal (fn == 0) (.pissue a b)
  else if opcOf w = 0x54 then legal (fn == 0) (.mpush a b)
  else if fn = 0 then .tfeed a b
  else if fn = 1 then .trd a d
  else if fn = 2 then .twr a b
  else .illegal

/-- The opcode map (Table 5.2). A field that a row says must be 0 and is not makes the word ILLEGAL, as an RSVD bit does (log entry 137). -/
def decodeHand (w : Word32) : HandOp :=
  let o := opcOf w
  let a := aOf w
  let d := dOf w
  let i := imm15Of w
  if o = 0x01 then decodeInt w
  else if 0x02 ≤ o ∧ o ≤ 0x07 then .addi o a d i
  else if o = 0x08 then
    legal (decide (bitsOf i.toNat 8 7 = 0) && decide (bitsOf i.toNat 6 2 ≠ 3)) (.shi (bitsOf i.toNat 6 2) (bitsOf i.toNat 0 6) a d)
  else if o = 0x09 then .lui d (imm20Of w)
  else if o = 0x0a then .luih d (imm20Of w)
  else if o = 0x0c then .jal d (imm20Of w)
  else if o = 0x0d then .jalr d a i
  else if o = 0x0e then legal (decide (condOf w ≤ 5)) (.br (condOf w) d a (imm12Of w))
  else if o = 0x0f then legal (decide (condOf w ≤ 1) && decide (d < 8) && a == 0) (.pbr (condOf w) d (imm12Of w))
  else if 0x10 ≤ o ∧ o ≤ 0x16 then .localLoad (o - 0x10) a d i
  else if 0x18 ≤ o ∧ o ≤ 0x1b then .localStore (o - 0x18) a d i
  else if o = 0x1c then .vld a d (4 * i)
  else if o = 0x1d then .vst a d (4 * i)
  else if o = 0x1e then legal (fnOf w == 0 && pOf w == 0) (.vstn a (bOf w) d)
  else if o = 0x20 then .gld a d (8 * i)
  else if o = 0x21 then .gst a d (8 * i)
  else if o = 0x22 then .gvld a d (4 * i)
  else if o = 0x23 then .gvst a d (4 * i)
  else if o = 0x24 then legal (w == 0x24) .hfence
  else if o = 0x25 then legal (fnOf w == 0 && pOf w == 0) (.gvstn a (bOf w) d)
  else if o = 0x28 then legal (!w.getLsbD 19 && decide (fieldOf w 20 12 ≤ 0x0d)) (.csr (fieldOf w 20 12) (fieldOf w 17 2) a d)
  else if o = 0x29 then decodeSys w
  else if o = 0x40 then decodeVi w
  else if o = 0x41 then decodeVf w
  else if o = 0x42 then decodeVx w
  else if o = 0x43 then decodeVc w
  else if o = 0x44 then decodePr w
  else if 0x50 ≤ o ∧ o ≤ 0x55 then decodeUnit w
  else .illegal

/-- The instruction word at a Hand's PC. -/
def Hand.word (x : Hand) : Word32 := x.ibuf.get 0 (x.pc.toNat / 4)

/-- Whether a Hand can issue: its hamlet is Active, it runs, it waits for nothing, no event is due (R152, R154). -/
def State.handReady (s : State) (h : HandRef) : Bool :=
  let x := s.hand h
  decide ((s.hamlet (handSlot h)).power = .active) && decide (x.mode = .running) && decide (x.wait = .none) && !x.eventDue

/-- The ordering points of R140. -/
def HandOp.orders : HandOp → Bool
  | .hfence => true
  | .rpub _ _ => true
  | .rrel _ => true
  | .badd _ _ => true
  | .mpush _ _ => true
  | .pissue _ _ => true
  | .tfeed _ _ => true
  | _ => false

/-- Whether a MSG of a Hand, a slot that it published on the sending end of a bound ring, still waits for its WACK (R317, R326). -/
def State.msgsOpen (s : State) (h : HandRef) : Bool := s.hamlets.cells.any fun m => m.2.rings.cells.any fun r => r.2.senders.cells.any fun c => c.2 == h

/-- The instruction that a Hand issues next, none where it cannot issue: an ordering point waits for the WACK of each earlier MSG of its Hand
(R317). -/
def State.handOp (s : State) (h : HandRef) : Option HandOp :=
  let op := decodeHand (s.hand h).word
  if s.handReady h && !(op.orders && s.msgsOpen h) then some op else none

/-- A hamlet is not idle in this cycle (R369). -/
def State.busy (s : State) (m : HamletRef) : State := s.modHamlet m fun x => { x with idleSince := s.mclk }

/-- What a meaning answers. -/
abbrev Res := Host.Outcome State Fault Refusal

/-- A further part of a meaning on the state that an earlier part gave. -/
def Res.bind (r : Res) (f : State → Res) : Res :=
  match r with
  | .next s => f s
  | .fault e => .fault e
  | .refused e => .refused e

/-- An instruction changes its Hand only. -/
def State.retire (s : State) (h : HandRef) (f : Hand → Hand) : State := (s.modHand h f).busy (handSlot h)

/-- An instruction raises an exception. -/
def State.except (s : State) (h : HandRef) (c : Cause) (tval : Word64) : State := s.retire h fun x => x.exception c tval

end Sys2Proof.Machine
end

