-- ==== Sys2Proof/Machine/Postbox.lean ====
section
/-! DEFINITION. Postboxes (R338 to R347): their registers, taking commands, completions, notices and interrupts, and the form in which a
command of the head Reeve answers (R343, R348, R349). -/

namespace Sys2Proof.Machine

/-! ## Who reaches a postbox (R334) -/

/-- Whether a postbox belongs to a VF. -/
def State.vfBox (s : State) (k : Nat) : Bool := decide (0 < k) && decide (k ≤ s.numVFs)

/-- Whether function `fn` reaches postbox `k`: the PF reaches those that no VF has, VF n its own. -/
def State.reachesBox (s : State) (fn k : Nat) : Bool :=
  if fn = 0 then decide (k < 16) && !s.vfBox k else k == fn && s.vfBox k

/-- The household bound to a VF, 0 where there is none (R351). -/
def State.vfHousehold (s : State) (k : Nat) : Nat :=
  ((s.households.cells.find? fun h => h.2.isOpen && h.2.vf == k).map Prod.fst).getD 0

/-- Whether the registers of the part answer the host: it has power, its clocks run and PERST_N is high (R379, R380). -/
def State.answers (s : State) : Bool := s.clocked && s.pins.perst

/-- Whether the Reeves run firmware that serves postboxes: booted, not in Deep and not in a reset (R372, R378, R381). -/
def State.serves (s : State) : Bool :=
  s.answers && decide (s.ident.power ≠ .deep) && decide (s.resetStep = .none) &&
    (decide (s.ident.state = .ready) || decide (s.ident.state = .undefined))

/-! ## Registers (Table 12.5) -/

/-- Entries of the command and completion rings. -/
def Postbox.cmdSize (x : Postbox) : Nat := 2 ^ x.cmdLog2.toNat
def Postbox.cplSize (x : Postbox) : Nat := 2 ^ x.cplLog2.toNat

/-- Whether PB_SIZE holds a value that is not reserved. -/
def Postbox.sizeValid (x : Postbox) : Bool :=
  decide (4 ≤ x.cmdLog2.toNat) && decide (x.cmdLog2.toNat ≤ 12) && decide (x.cmdLog2.toNat ≤ x.cplLog2.toNat) && decide (x.cplLog2.toNat ≤ 13)

/-- PB_CTRL written (R338). -/
def Postbox.writeCtrl (x : Postbox) (v : Word64) : Postbox :=
  let y := { x with irqEn := v.getLsbD 1, holdoff := BitVec.ofNat 16 (fieldOf v 16 16) }
  if v.getLsbD 0 then
    if x.enable then y
    else if x.sizeValid then
      { y with enable := true, running := true, cmdHead := 0, cplTail := 0, tail := 0, cplHead := 0, epoch := x.epoch + 1 }
    else { y with err := { x.err with config := true } }
  else if x.enable then { y with enable := false, running := false, epoch := x.epoch + 1 }
  else y

/-- A postbox stops: it takes no further command (R347). -/
def Postbox.stopOn (x : Postbox) (e : PostboxErr) : Postbox := { x with running := false, err := e }

/-- PB_DOORBELL written: the count is taken while the postbox runs, and one that breaks R339 stops it (R347). -/
def Postbox.ringDoorbell (x : Postbox) (v : Word64) : Postbox :=
  let t : Word32 := v.setWidth 32
  if x.running = false then x
  else if x.cmdSize < (t - x.cmdHead).toNat then { x with tail := t }.stopOn { x.err with overrun := true }
  else { x with tail := t }

/-- A register of a postbox written (Table 12.5). -/
def Postbox.writeReg (x : Postbox) (off : Nat) (v : Word64) : Postbox :=
  match off with
  | 0x000 => x.writeCtrl v
  | 0x008 => if x.enable then x else { x with cmdBase := v &&& ~~~0x3f#64 }
  | 0x010 => if x.enable then x else { x with cplBase := v &&& ~~~0x1f#64 }
  | 0x018 => if x.enable then x else { x with cmdLog2 := BitVec.ofNat 4 (fieldOf v 0 4), cplLog2 := BitVec.ofNat 4 (fieldOf v 4 4) }
  | 0x020 => x.ringDoorbell v
  | 0x028 => { x with cplHead := v.setWidth 32 }
  | 0x040 =>
    { x with err := { ringFault := x.err.ringFault && !v.getLsbD 0, overrun := x.err.overrun && !v.getLsbD 1
                      config := x.err.config && !v.getLsbD 2, noticeLost := x.err.noticeLost && !v.getLsbD 3 } }
  | 0x048 => { x with echo := v }
  | _ => x

/-- A register of a postbox as it reads (Table 12.5). -/
def State.boxReg (s : State) (k off : Nat) : Nat :=
  let x := s.postbox k
  match off with
  | 0x000 => flag x.enable + 2 * flag x.irqEn + x.holdoff.toNat * 2 ^ 16
  | 0x008 => x.cmdBase.toNat
  | 0x010 => x.cplBase.toNat
  | 0x018 => x.cmdLog2.toNat + x.cplLog2.toNat * 16
  | 0x028 => x.cplHead.toNat
  | 0x030 => x.cmdHead.toNat + flag (x.enable && x.running) * 2 ^ 32
  | 0x038 => x.cplTail.toNat
  | 0x040 => flag x.err.ringFault + 2 * flag x.err.overrun + 4 * flag x.err.config + 8 * flag x.err.noticeLost
  | 0x048 => x.echo.toNat
  | 0x050 => if s.vfBox k then s.vfHousehold k % 64 + 64 else 0
  | _ => 0

/-- A function writes a register of a postbox. A write that sets ENABLE is discarded in BOOT (R379); a doorbell of an enabled postbox in
Deep is captured (R374). -/
def State.writeBox (s : State) (fn k off : Nat) (v : Word64) : State :=
  if s.reachesBox fn k = false ∨ s.answers = false then s
  else if off = 0 ∧ v.getLsbD 0 = true ∧ s.ident.state = .boot then s
  else
    let t := s.modPostbox k fun x => x.writeReg off v
    if off = 0x020 ∧ (s.postbox k).enable = true ∧ s.ident.power = .deep then { t with deepWake := true } else t

/-- PB_CTRL_WRITE (R338). -/
def execPbCtrlWrite (fn k : Nat) (v : Word64) (s : State) : Res := .next (s.writeBox fn k 0 v)

/-- What the host wrote to its own memory. -/
def State.hostWrites (s : State) (l : List HostWrite) : State :=
  { s with hostMem := l.foldl (fun m w => m.writeBytes w.addr w.data) s.hostMem }

/-- PB_DOORBELL: the host has written its commands and then writes the count (R336, R339). -/
def execPbDoorbell (fn k : Nat) (v : Word64) (hw : List HostWrite) (s : State) : Res := .next ((s.hostWrites hw).writeBox fn k 0x020 v)

/-- PB_CPL_HEAD_WRITE (R339). -/
def execPbCplHeadWrite (fn k : Nat) (v : Word64) (s : State) : Res := .next (s.writeBox fn k 0x028 v)

/-! ## Entries and interrupts (R342, R345, R346) -/

/-- AOCLK ticks of a holdoff in µs. -/
def holdoffTicks (h : BitVec 16) : Nat := 25 * h.toNat

/-- The function and vector of a postbox (R346). -/
def State.boxVector (s : State) (k : Nat) : Nat × Nat := if s.vfBox k then (k, 0) else (0, k)

/-- The postbox raises its interrupt, or owes one until its holdoff has passed (R346). -/
def State.interrupt (s : State) (k : Nat) : State :=
  let x := s.postbox k
  if x.irqEn = false then s
  else if (match x.irqUntil with
    | some t => decide (s.clock.toNat < t.toNat)
    | none => false) then s.modPostbox k fun y => { y with irqDue := true }
  else (s.modPostbox k fun y => { y with irqDue := false, irqUntil := some (s.clock + BitVec.ofNat 64 (holdoffTicks x.holdoff)) }).raiseMsix
    (s.boxVector k).1 (s.boxVector k).2

/-- MSIX_HOLDOFF: the holdoff has passed, and an interrupt that is owed is raised (R346). -/
def execMsixHoldoff (k : Nat) (s : State) : Res := if (s.postbox k).irqDue then .next (s.interrupt k) else .next s

/-- The 32 bytes of a completion entry (Table 12.7). -/
def Completion.entry (c : Completion) (count : Word32) : List Byte :=
  let b := toBytes 2 c.opcode.toNat ++ [c.status, 0] ++ toBytes 4 c.seq.toNat ++ toBytes 8 c.tag.toNat ++ toBytes 8 c.result.toNat ++
    toBytes 4 (count + 1).toNat
  b ++ toBytes 4 (crc32c b)

/-- Whether the part may write an entry (R339): the postbox runs, its ring has room, and the part is not in Deep or a reset. -/
def State.boxRoom (s : State) (k : Nat) : Bool :=
  let x := s.postbox k
  s.serves && x.enable && x.running && decide ((x.cplTail - x.cplHead).toNat < x.cplSize)

/-- An entry is written to the completion ring; a fault there stops the postbox (R342, R347). -/
def State.writeEntry (s : State) (k : Nat) (c : Completion) : State :=
  let x := s.postbox k
  match s.hostWrite (x.cplBase.toNat + 32 * (x.cplTail.toNat % x.cplSize)) (c.entry x.cplTail) with
  | some t => (t.modPostbox k fun y => { y with cplTail := y.cplTail + 1 }).interrupt k
  | none => s.modPostbox k fun y => y.stopOn { y.err with ringFault := true }

/-- COMPLETION_WRITE: the oldest completion is written when there is room; one of a command taken before the postbox was stopped is
dropped (R338, R339, R347). -/
def execCompletionWrite (k : Nat) (s : State) : Res :=
  match (s.postbox k).cplQ with
  | [] => .next s
  | c :: rest =>
    let t := s.modPostbox k fun x => { x with cplQ := rest }
    if c.epoch ≠ (s.postbox k).epoch then .next t
    else if s.boxRoom k then .next (t.writeEntry k c)
    else .next s

/-- A notice as an entry (R345): SEQ, TAG and STATUS 0. -/
def noticeEntry (op : BitVec 16) (result : Word64) : Completion := { opcode := op, status := 0, seq := 0, tag := 0, result := result, epoch := 0 }

/-- The oldest notice produced for a postbox and the others. -/
def takeNotice (k : Nat) : List Notice → Option (Notice × List Notice)
  | [] => none
  | n :: t => if n.pb = k then some (n, t) else (takeNotice k t).map fun r => (r.1, n :: r.2)

/-- NOTICE: the next notice of a postbox is written where it may be, held ones first; else it is held, or lost and counted when 256 are
held (R345). -/
def execNotice (k : Nat) (s : State) : Res :=
  let x := s.postbox k
  if s.boxRoom k then
    match x.held with
    | c :: rest => .next ((s.modPostbox k fun y => { y with held := rest }).writeEntry k c)
    | [] =>
      if x.lost ≠ 0 then
        .next ((s.modPostbox k fun y => { y with lost := 0 }).writeEntry k (noticeEntry 0xf007 (BitVec.ofNat 64 x.lost)))
      else
        match takeNotice k s.noticeQ with
        | some (n, q) => .next ({ s with noticeQ := q }.writeEntry k (noticeEntry n.opcode n.result))
        | none => .next s
  else
    match takeNotice k s.noticeQ with
    | none => .next s
    | some (n, q) =>
      let t := { s with noticeQ := q }
      if x.held.length < 256 then .next (t.modPostbox k fun y => { y with held := y.held ++ [noticeEntry n.opcode n.result] })
      else .next (t.modPostbox k fun y => { y with lost := y.lost + 1, err := { y.err with noticeLost := true } })

/-! ## Commands (R340, R341, R343, R349) -/

/-- Statuses (Table 12.8). -/
def stOk : Nat := 0
def stBusy : Nat := 1
def stArg : Nat := 2
def stUnknown : Nat := 3
def stDenied : Nat := 4
def stState : Nat := 5
def stNotFound : Nat := 6
def stNoMemory : Nat := 7
def stNoSlot : Nat := 8
def stUnplaceable : Nat := 9
def stCellarFull : Nat := 10
def stIo : Nat := 11
def stCrc : Nat := 12
def stSeq : Nat := 13
def stDataCrc : Nat := 14
def stResetNeeded : Nat := 15

/-- The commands of interface level 3 (Tables 12.10 to 12.13). -/
def knownOpcode (op : Nat) : Bool :=
  let n := op % 256
  decide (1 ≤ n) && (match op / 256 with
    | 1 => decide (n ≤ 9)
    | 0 => decide (n ≤ 5)
    | 2 => decide (n ≤ 9)
    | 3 => decide (n ≤ 5)
    | 4 => decide (n ≤ 11)
    | 5 => decide (n ≤ 3)
    | 6 => decide (n ≤ 6)
    | 7 => decide (n ≤ 3)
    | _ => false)

/-- The commands marked P, which run only from PF postboxes (R349). -/
def pfOnly (op : Nat) : Bool :=
  [0x0004, 0x0101, 0x0102, 0x0103, 0x0108, 0x0201, 0x0202, 0x0203, 0x0204, 0x0205, 0x0206, 0x0207, 0x0208, 0x0209, 0x0501, 0x0502, 0x0601,
    0x0602, 0x0603, 0x0604, 0x0605, 0x0702, 0x0703].contains op

/-- The commands that run in UNDEFINED (Table 12.8): WARM_RESET, IDENTIFY and LOGBOOK_READ. -/
def runsUndefined (op : Nat) : Bool := [0x0703, 0x0001, 0x0003].contains op

/-- The command that 64 bytes spell (Table 12.6); its RSVD bytes carry nothing (log entry 30). -/
def commandOf (b : List Byte) (epoch fetched : Nat) : Command :=
  { opcode := BitVec.ofNat 16 (recNat b 0 2), seq := BitVec.ofNat 32 (recNat b 4 4), tag := BitVec.ofNat 64 (recNat b 8 8)
    args := (List.range 5).map fun i => BitVec.ofNat 64 (recNat b (16 + 8 * i) 8), epoch := epoch, fetched := fetched }

/-- A command completes: its entry waits to be written (R340, R344), and the postbox can take the next one. -/
def State.completeCmd (s : State) (k : Nat) (c : Command) (status : Nat) (result : Word64) : State :=
  s.modPostbox k fun x =>
    { x with cur := none, cplQ := x.cplQ ++ [⟨c.opcode, BitVec.ofNat 8 status, c.seq, c.tag, result, c.epoch⟩] }

/-- COMMAND_TAKE: the next command is fetched and consumed; a bad CRC, a wrong SEQ, a reserved opcode and a command that the postbox may not
send complete without effect (R340, R343, R349, R350). A fault of the fetch stops the postbox (R347). -/
def execCommandTake (k : Nat) (s : State) : Res :=
  let x := s.postbox k
  if s.serves = false ∨ x.enable = false ∨ x.running = false ∨ x.cur.isSome = true ∨ x.tail = x.cmdHead then .next s
  else
    match s.hostRead (x.cmdBase.toNat + 64 * (x.cmdHead.toNat % x.cmdSize)) 64 with
    | none => .next (s.modPostbox k fun y => y.stopOn { y.err with ringFault := true })
    | some b =>
      let c := commandOf b x.epoch s.fetchNext
      let op := c.opcode.toNat
      let t := { s.stir with fetchNext := s.fetchNext + 1 }.modPostbox k fun y => { y with cmdHead := y.cmdHead + 1 }
      if crc32c (b.take 60) ≠ recNat b 60 4 then .next (t.completeCmd k c stCrc 0)
      else if c.seq ≠ x.cmdHead + 1 then .next (t.completeCmd k c stSeq 0)
      else if s.ident.state = .undefined ∧ runsUndefined op = false then .next (t.completeCmd k c stResetNeeded 0)
      else if knownOpcode op = false then .next (t.completeCmd k c stUnknown 0)
      else if pfOnly op = true ∧ s.vfBox k = true then .next (t.completeCmd k c stDenied 0)
      else .next (t.modPostbox k fun y => { y with cur := some c })

/-- What a command answers: status, RESULT and the state with its effect. -/
structure Reply where
  status : Nat
  result : Word64
  state : State

/-- A command refused without effect. -/
def refuse (s : State) (status : Nat) : Reply := ⟨status, 0, s⟩
/-- A command done. -/
def done (s : State) (result : Nat) : Reply := ⟨stOk, BitVec.ofNat 64 result, s⟩

/-- A result buffer is written after the command's effect; a fault there completes it with IO (R348). -/
def answer (s : State) (addr : Nat) (data : List Byte) (result : Nat) : Reply :=
  match s.hostWrite addr data with
  | some t => done t result
  | none => ⟨stIo, 0, s⟩

/-- Argument `i` of a command. -/
def Command.arg (c : Command) (i : Nat) : Nat := (c.args.getD i 0).toNat

/-- The household of a household command (R349). -/
def State.cmdHousehold (s : State) (k : Nat) (c : Command) : Nat := if s.vfBox k then s.vfHousehold k else c.arg 0 % 64

/-- What a command may touch of which R344 speaks; a slot is a key slot, a Press slot or a grammar slot. -/
inductive CommandObject
  | household (n : Nat)
  | job (n : Nat)
  | entry (n : Nat)
  | session (n : Nat)
  | tensor (n : Nat)
  | keySlot (n : Nat)
  | pressSlot (n : Nat)
  | grammarSlot (n : Nat)
deriving DecidableEq, Repr, Inhabited

/-- The objects that the arguments of a command name (Tables 12.10 to 12.13, log entry 136). -/
def State.objects (s : State) (k : Nat) (c : Command) : List CommandObject :=
  let own : CommandObject := .household (s.cmdHousehold k c)
  match c.opcode.toNat with
  | 0x0005 => [own]
  | 0x0101 => [own]
  | 0x0102 => [own]
  | 0x0103 => [own]
  | 0x0104 => [own, .keySlot (c.arg 1)]
  | 0x0105 => [own, .keySlot (c.arg 1)]
  | 0x0106 => [own]
  | 0x0107 => [own]
  | 0x0108 => [own]
  | 0x0109 => [own, .pressSlot (c.arg 2)]
  | 0x0201 => [.tensor (c.arg 0)]
  | 0x0202 => [.tensor (c.arg 0)]
  | 0x0203 => [.tensor (c.arg 0)]
  | 0x0204 => [.tensor (c.arg 0)]
  | 0x0205 => [.tensor (c.arg 0)]
  | 0x0206 => [.tensor (c.arg 0), .household (c.arg 1)]
  | 0x0207 => [.tensor (c.arg 0), .household (c.arg 1)]
  | 0x0208 => [.tensor (c.arg 0)]
  | 0x0209 => [.tensor (c.arg 0)]
  | 0x0301 => [own]
  | 0x0302 => [.job (c.arg 0)]
  | 0x0303 => [.job (c.arg 0)]
  | 0x0304 => [.job (c.arg 0)]
  | 0x0305 => [.job (c.arg 0)]
  | 0x0401 => [.job (c.arg 0)]
  | 0x0402 => [.session (c.arg 0)]
  | 0x0403 => [.session (c.arg 0)]
  | 0x0404 => [.entry (c.arg 0)]
  | 0x0405 => [.entry (c.arg 0)]
  | 0x0406 => [.entry (c.arg 0)]
  | 0x0407 => [own]
  | 0x0408 => [own]
  | 0x0409 => [own]
  | 0x040a => [own, .grammarSlot (c.arg 1)]
  | 0x0701 => [.job (c.arg 0)]
  | _ => []

/-- Whether a command may take effect: no command on one of its objects that was fetched before it waits at another postbox (R344). -/
def State.turn (s : State) (k : Nat) (c : Command) : Bool :=
  s.postboxes.cells.all fun x => x.1 == k || (x.2.cur.all fun d =>
    decide (c.fetched ≤ d.fetched) || (s.objects k c).all fun o => !(s.objects x.1 d).contains o)

/-- A row of the command set: the command of that opcode that a postbox has taken has its effect and completes, once it is its turn (R344). -/
def State.command (s : State) (k op : Nat) (body : Command → Reply) : Res :=
  match (s.postbox k).cur with
  | none => .next s
  | some c =>
    if s.serves = false ∨ c.opcode.toNat ≠ op ∨ s.turn k c = false then .next s
    else if s.ident.state = .undefined ∧ runsUndefined op = false then .next (s.completeCmd k c stResetNeeded 0)
    else .next ((body c).state.completeCmd k c (body c).status (body c).result)

/-- Whether a household is open. -/
def State.isOpen (s : State) (hh : Nat) : Bool := (s.household hh).isOpen

/-- A household command for an open household, NOT_FOUND for another. -/
def State.forHousehold (s : State) (k : Nat) (c : Command) (f : Nat → Reply) : Reply :=
  if s.isOpen (s.cmdHousehold k c) then f (s.cmdHousehold k c) else refuse s stNotFound

/-- Whether a postbox reaches what belongs to a household: a VF only its own (R334). -/
def State.boxReaches (s : State) (k hh : Nat) : Bool := !s.vfBox k || s.vfHousehold k == hh

/-- A command on a job, NOT_FOUND for one that there is not or that the postbox does not reach. -/
def State.forJob (s : State) (k : Nat) (c : Command) (f : Nat → Job → Reply) : Reply :=
  match s.jobs.find (c.arg 0) with
  | some j => if s.boxReaches k j.household then f (c.arg 0) j else refuse s stNotFound
  | none => refuse s stNotFound

end Sys2Proof.Machine
end

