-- ==== Sys2Proof/Machine/Floats.lean ====
section
/-! DEFINITION. BF16 and FP32 arithmetic of the part: R52, the roundings R60 and R61, and the correctly rounded functions
of R142. A value is exact until it is rounded once. -/

namespace Sys2Proof.Machine

/-- The two floating-point formats (R40). -/
inductive Fmt
  | bf16
  | fp32
deriving DecidableEq, Repr

/-- Bits of precision, the leading one included. -/
def Fmt.prec : Fmt → Nat
  | .bf16 => 8
  | .fp32 => 24

/-- Width of the encoding. -/
def Fmt.width : Fmt → Nat
  | .bf16 => 16
  | .fp32 => 32

/-- How a result is rounded: R60, or R61 with its 16-bit lane. -/
inductive Rounding
  | nearest
  | stochastic (u : Nat)
deriving DecidableEq, Repr

/-- The sticky flags of R142. -/
structure FpFlags where
  nv : Bool := false
  of_ : Bool := false
  uf : Bool := false
  dz : Bool := false
deriving DecidableEq, Repr

/-- Flags raised by either of two operations. -/
def FpFlags.or (a b : FpFlags) : FpFlags :=
  { nv := a.nv || b.nv, of_ := a.of_ || b.of_, uf := a.uf || b.uf, dz := a.dz || b.dz }

/-- A floating-point result: its encoding and the flags it sets. -/
structure FpRes where
  bits : Nat
  flags : FpFlags := {}
deriving DecidableEq, Repr

/-- A value read from an encoding (R52): a subnormal is a zero of its sign. A finite value is (-1)^neg x m x 2^e. -/
inductive FpVal
  | nan (signaling : Bool)
  | inf (neg : Bool)
  | fin (neg : Bool) (m : Nat) (e : Int)
deriving DecidableEq, Repr

/-- Number of bits of a number; 0 for 0. -/
def bitLen (n : Nat) : Nat := if n = 0 then 0 else Nat.log2 n + 1

/-- The value of an encoding with `p` bits of precision and an 8-bit exponent (R52). -/
def decodeFp (f : Fmt) (w : Nat) : FpVal :=
  let fb := f.prec - 1
  let neg := bitAt w (f.width - 1)
  let ex := bitsOf w fb 8
  let fr := bitsOf w 0 fb
  if ex = 255 then (if fr = 0 then .inf neg else .nan (!bitAt w (fb - 1)))
  else if ex = 0 then .fin neg 0 0
  else .fin neg (2 ^ fb + fr) ((ex : Int) - 127 - fb)

/-- The encoding of a sign, a biased exponent and a fraction. -/
def packFp (f : Fmt) (neg : Bool) (ex fr : Nat) : Nat :=
  (flag neg) * 2 ^ (f.width - 1) + ex * 2 ^ (f.prec - 1) + fr

/-- The canonical quiet NaN (R52). -/
def Fmt.nan (f : Fmt) : Nat := packFp f false 255 (2 ^ (f.prec - 2))

/-- Infinity of a sign. -/
def Fmt.inf (f : Fmt) (neg : Bool) : Nat := packFp f neg 255 0

/-- Zero of a sign. -/
def Fmt.zero (f : Fmt) (neg : Bool) : Nat := packFp f neg 0 0

/-- Whether the retained magnitude `m`, of which `rem` of `sh` bits (and, below them, more when `more`) are discarded, moves one step up
(R60, and R61 for BF16 and FP32). -/
def roundsUp (r : Rounding) (m rem sh : Nat) (more : Bool) : Bool :=
  match r with
  | .nearest => if sh = 0 then false else decide (2 ^ (sh - 1) < rem) || (decide (rem = 2 ^ (sh - 1)) && (more || m % 2 == 1))
  | .stochastic u => decide (65536 ≤ (if 16 ≤ sh then rem >>> (sh - 16) else rem <<< (16 - sh)) + u)

/-- The magnitude (q + a part below one when `more`) x 2^e rounded once to a format (R52, R60, R61): judged after rounding
with no lower limit of the exponent, flushed to zero below 2^-126, infinity above the range. Where `more` holds, q has more bits
than the format. -/
def roundFp (f : Fmt) (r : Rounding) (neg : Bool) (q : Nat) (e : Int) (more : Bool) : FpRes :=
  if q = 0 then ⟨f.zero neg, {}⟩ else
  let len := bitLen q
  let sh := len - f.prec
  let m0 := if f.prec ≤ len then q >>> sh else q <<< (f.prec - len)
  let e0 : Int := if f.prec ≤ len then e + sh else e - ((f.prec - len : Nat) : Int)
  let m1 := if roundsUp r m0 (q % 2 ^ sh) sh more then m0 + 1 else m0
  let m2 := if m1 = 2 ^ f.prec then 2 ^ (f.prec - 1) else m1
  let e2 : Int := if m1 = 2 ^ f.prec then e0 + 1 else e0
  let ex : Int := e2 + ((f.prec - 1 : Nat) : Int)
  if ex < -126 then ⟨f.zero neg, { uf := true }⟩
  else if 127 < ex then ⟨f.inf neg, { of_ := true }⟩
  else ⟨packFp f neg (ex + 127).toNat (m2 - 2 ^ (f.prec - 1)), {}⟩

/-- The exact dyadic value i x 2^e rounded once; an exact zero takes the sign given. -/
def roundDyadic (f : Fmt) (r : Rounding) (i : Int) (e : Int) (zeroNeg : Bool) : FpRes :=
  if i = 0 then ⟨f.zero zeroNeg, {}⟩ else roundFp f r (decide (i < 0)) i.natAbs e false

/-- The integer of a sign and a magnitude. -/
def signedMag (neg : Bool) (m : Nat) : Int := if neg then -(m : Int) else m

/-- An invalid result: the canonical NaN with NV when `bad`. -/
def nanRes (f : Fmt) (bad : Bool) : FpRes := ⟨f.nan, { nv := bad }⟩

/-- Whether a value is a signaling NaN. -/
def FpVal.isSnan : FpVal → Bool
  | .nan s => s
  | _ => false

/-- Whether a value is a NaN. -/
def FpVal.isNan : FpVal → Bool
  | .nan _ => true
  | _ => false

/-- The value with its sign turned. -/
def FpVal.negate : FpVal → FpVal
  | .nan s => .nan s
  | .inf n => .inf (!n)
  | .fin n m e => .fin (!n) m e

/-- The exact sum of two finite values, rounded once; an exact zero is +0 unless both operands are -0 (IEEE 754). -/
def addFin (f : Fmt) (r : Rounding) (n1 : Bool) (m1 : Nat) (e1 : Int) (n2 : Bool) (m2 : Nat) (e2 : Int) : FpRes :=
  let e := min e1 e2
  let i := signedMag n1 (m1 <<< (e1 - e).toNat) + signedMag n2 (m2 <<< (e2 - e).toNat)
  roundDyadic f r i e (n1 && n2 && decide (m1 = 0) && decide (m2 = 0))

/-- Sum (R142): a NaN operand gives NaN, with NV for a signaling one; infinity minus infinity is invalid. -/
def fpAddV (f : Fmt) (r : Rounding) (a b : FpVal) : FpRes :=
  match a, b with
  | .nan s, y => nanRes f (s || y.isSnan)
  | .inf _, .nan s => nanRes f s
  | .fin _ _ _, .nan s => nanRes f s
  | .inf x, .inf y => if x = y then ⟨f.inf x, {}⟩ else nanRes f true
  | .inf x, .fin _ _ _ => ⟨f.inf x, {}⟩
  | .fin _ _ _, .inf y => ⟨f.inf y, {}⟩
  | .fin n1 m1 e1, .fin n2 m2 e2 => addFin f r n1 m1 e1 n2 m2 e2

/-- a x b + c, rounded once (R142). A product 0 x infinity is invalid whatever c holds. -/
def fpFmaV (f : Fmt) (r : Rounding) (a b c : FpVal) : FpRes :=
  let snan := a.isSnan || b.isSnan || c.isSnan
  match a, b with
  | .inf _, .fin _ 0 _ => nanRes f true
  | .fin _ 0 _, .inf _ => nanRes f true
  | .nan _, _ => nanRes f snan
  | _, .nan _ => nanRes f snan
  | .inf x, .inf y =>
    match c with
    | .nan _ => nanRes f snan
    | .inf z => if (x != y) = z then ⟨f.inf z, {}⟩ else nanRes f true
    | .fin _ _ _ => ⟨f.inf (x != y), {}⟩
  | .inf x, .fin y _ _ =>
    match c with
    | .nan _ => nanRes f snan
    | .inf z => if (x != y) = z then ⟨f.inf z, {}⟩ else nanRes f true
    | .fin _ _ _ => ⟨f.inf (x != y), {}⟩
  | .fin x _ _, .inf y =>
    match c with
    | .nan _ => nanRes f snan
    | .inf z => if (x != y) = z then ⟨f.inf z, {}⟩ else nanRes f true
    | .fin _ _ _ => ⟨f.inf (x != y), {}⟩
  | .fin x m1 e1, .fin y m2 e2 =>
    match c with
    | .nan _ => nanRes f snan
    | .inf z => ⟨f.inf z, {}⟩
    | .fin z m3 e3 => addFin f r (x != y) (m1 * m2) (e1 + e2) z m3 e3

/-- a x b, rounded once (R142). -/
def fpMulV (f : Fmt) (r : Rounding) (a b : FpVal) : FpRes :=
  match a, b with
  | .nan s, y => nanRes f (s || y.isSnan)
  | .inf _, .nan s => nanRes f s
  | .fin _ _ _, .nan s => nanRes f s
  | .inf x, .inf y => ⟨f.inf (x != y), {}⟩
  | .inf x, .fin y m _ => if m = 0 then nanRes f true else ⟨f.inf (x != y), {}⟩
  | .fin x m _, .inf y => if m = 0 then nanRes f true else ⟨f.inf (x != y), {}⟩
  | .fin x m1 e1, .fin y m2 e2 => if m1 * m2 = 0 then ⟨f.zero (x != y), {}⟩ else roundFp f r (x != y) (m1 * m2) (e1 + e2) false

def fpAdd (f : Fmt) (a b : Nat) : FpRes := fpAddV f .nearest (decodeFp f a) (decodeFp f b)
def fpSub (f : Fmt) (a b : Nat) : FpRes := fpAddV f .nearest (decodeFp f a) (decodeFp f b).negate
def fpMul (f : Fmt) (a b : Nat) : FpRes := fpMulV f .nearest (decodeFp f a) (decodeFp f b)
def fpFma (f : Fmt) (a b c : Nat) : FpRes := fpFmaV f .nearest (decodeFp f a) (decodeFp f b) (decodeFp f c)
/-- c - a x b (VFMS). -/
def fpFms (f : Fmt) (a b c : Nat) : FpRes := fpFmaV f .nearest (decodeFp f a).negate (decodeFp f b) (decodeFp f c)

/-- The encoding of a value that was read (subnormals read as zero, R52). -/
def encodeVal (f : Fmt) (v : FpVal) : Nat :=
  match v with
  | .nan _ => f.nan
  | .inf n => f.inf n
  | .fin n m e => (roundDyadic f .nearest (signedMag n m) e n).bits

/-- Whether a finite or infinite value lies below another in the order of real numbers; zeros are equal. -/
def FpVal.lt : FpVal → FpVal → Bool
  | .nan _, _ => false
  | _, .nan _ => false
  | .inf x, .inf y => x && !y
  | .inf x, .fin _ _ _ => x
  | .fin _ _ _, .inf y => !y
  | .fin n1 m1 e1, .fin n2 m2 e2 =>
    decide (signedMag n1 (m1 <<< (e1 - min e1 e2).toNat) < signedMag n2 (m2 <<< (e2 - min e1 e2).toNat))

/-- Whether two values are equal real numbers or the same infinity. -/
def FpVal.eqv (a b : FpVal) : Bool := !a.isNan && !b.isNan && !a.lt b && !b.lt a

/-- Whether a value is a zero of negative sign. -/
def FpVal.negZero : FpVal → Bool
  | .fin n m _ => n && decide (m = 0)
  | _ => false

/-- VFMIN and VFMAX order -0 below +0; a NaN operand gives the canonical NaN (R142). -/
def fpMin (f : Fmt) (a b : Nat) : FpRes :=
  let x := decodeFp f a
  let y := decodeFp f b
  if x.isNan || y.isNan then nanRes f (x.isSnan || y.isSnan)
  else if y.lt x || (x.eqv y && y.negZero) then ⟨encodeVal f y, {}⟩ else ⟨encodeVal f x, {}⟩

def fpMax (f : Fmt) (a b : Nat) : FpRes :=
  let x := decodeFp f a
  let y := decodeFp f b
  if x.isNan || y.isNan then nanRes f (x.isSnan || y.isSnan)
  else if x.lt y || (x.eqv y && x.negZero) then ⟨encodeVal f y, {}⟩ else ⟨encodeVal f x, {}⟩

/-- VFABS and VFNEG never set NV (R142). -/
def fpAbs (f : Fmt) (a : Nat) : FpRes :=
  match decodeFp f a with
  | .nan _ => ⟨f.nan, {}⟩
  | .inf _ => ⟨f.inf false, {}⟩
  | .fin _ m e => ⟨encodeVal f (.fin false m e), {}⟩

def fpNeg (f : Fmt) (a : Nat) : FpRes := ⟨encodeVal f (decodeFp f a).negate, {}⟩

/-- VFCMPLT: NV with a NaN of either kind (R142). -/
def fpLt (f : Fmt) (a b : Nat) : Bool × FpFlags :=
  let x := decodeFp f a
  let y := decodeFp f b
  (x.lt y, { nv := x.isNan || y.isNan })

/-- VFCMPEQ: NV with a signaling NaN only (R142). -/
def fpEq (f : Fmt) (a b : Nat) : Bool × FpFlags :=
  let x := decodeFp f a
  let y := decodeFp f b
  (x.eqv y, { nv := x.isSnan || y.isSnan })

/-- Integer square root, the `k` low bits of the root still to be found. -/
def isqrtBits : Nat → Nat → Nat → Nat
  | 0, _, r => r
  | k + 1, n, r => if (r + 2 ^ k) * (r + 2 ^ k) ≤ n then isqrtBits k n (r + 2 ^ k) else isqrtBits k n r

/-- floor (sqrt n). -/
def isqrt (n : Nat) : Nat := isqrtBits (bitLen n / 2 + 1) n 0

/-- 1 / x, rounded once; ±0 gives infinity with DZ (R142). -/
def fpRcp (f : Fmt) (a : Nat) : FpRes :=
  match decodeFp f a with
  | .nan s => nanRes f s
  | .inf n => ⟨f.zero n, {}⟩
  | .fin n m e =>
    if m = 0 then ⟨f.inf n, { dz := true }⟩
    else roundFp f .nearest n (2 ^ 64 / m) (-64 - e) (decide (2 ^ 64 % m ≠ 0))

/-- 1 / sqrt x, rounded once (R142). -/
def fpRsq (f : Fmt) (a : Nat) : FpRes :=
  match decodeFp f a with
  | .nan s => nanRes f s
  | .inf n => if n then nanRes f true else ⟨f.zero false, {}⟩
  | .fin n m e =>
    if m = 0 then ⟨f.inf n, { dz := true }⟩
    else if n then nanRes f true
    else
      let m' := if e % 2 = 0 then m else 2 * m
      let e' := if e % 2 = 0 then e else e - 1
      let q := isqrt (2 ^ 160 / m')
      roundFp f .nearest false q (-80 - e' / 2) (decide (q * q * m' ≠ 2 ^ 160))

/-- Fraction bits of the fixed-point numbers that the two transcendental functions use. The exact results are irrational, so
they lie on no rounding boundary, and this many bits separate every one from every boundary (DEDUCED, log entry 15). -/
def fixBits : Nat := 160

/-- 2^(f / 2^k) in fixed point, from the bits of f from the top: each bit j multiplies by 2^(2^-j). -/
def exp2Bits : Nat → Nat → Nat → Nat → Nat
  | 0, _, _, acc => acc
  | k + 1, f, root, acc =>
    let root' := isqrt (root <<< fixBits)
    exp2Bits k f root' (if bitAt f k then (acc * root') >>> fixBits else acc)

/-- 2^x, rounded once (R142). -/
def fpExp2 (f : Fmt) (a : Nat) : FpRes :=
  match decodeFp f a with
  | .nan s => nanRes f s
  | .inf n => if n then ⟨f.zero false, {}⟩ else ⟨f.inf false, {}⟩
  | .fin n m e =>
    if m = 0 then roundFp f .nearest false 1 0 false
    else if (bitLen m : Int) + e < -32 then
      (if n then roundFp f .nearest false (2 ^ 64 - 1) (-64) true else roundFp f .nearest false (2 ^ 64) (-64) true)
    else if 10 < (bitLen m : Int) + e then (if n then ⟨f.zero false, { uf := true }⟩ else ⟨f.inf false, { of_ := true }⟩)
    else
      let k := (-e).toNat
      let i : Int := signedMag n (m <<< e.toNat)
      let whole : Int := i / (2 ^ k : Nat)
      let frac := (i % (2 ^ k : Nat)).toNat
      if frac = 0 then roundFp f .nearest false 1 whole false
      else roundFp f .nearest false (exp2Bits k frac (2 ^ (fixBits + 1)) (2 ^ fixBits)) (whole - fixBits) true

/-- Bits of log2 of a number of [1, 2) in fixed point with 256 fraction bits, by repeated squaring. -/
def log2Bits : Nat → Nat → Nat → Nat
  | 0, _, acc => acc
  | k + 1, y, acc =>
    let z := (y * y) >>> 256
    if 2 ^ 257 ≤ z then log2Bits k (z >>> 1) (2 * acc + 1) else log2Bits k z (2 * acc)

/-- log2 x, rounded once; ±0 gives -infinity with DZ (R142). -/
def fpLog2 (f : Fmt) (a : Nat) : FpRes :=
  match decodeFp f a with
  | .nan s => nanRes f s
  | .inf n => if n then nanRes f true else ⟨f.inf false, {}⟩
  | .fin n m e =>
    if m = 0 then ⟨f.inf true, { dz := true }⟩
    else if n then nanRes f true
    else
      let len := bitLen m
      let ex : Int := e + (len - 1 : Nat)
      if m = 2 ^ (len - 1) then roundDyadic f .nearest ex 0 false
      else
        let l := log2Bits 110 (m <<< (257 - len)) 0
        let v : Int := ex * (2 ^ 110 : Nat) + l
        if 0 ≤ v then roundFp f .nearest false v.toNat (-110) true
        else roundFp f .nearest true (v.natAbs - 1) (-110) true

/-- An FP32 encoding rounded to BF16 (R52): NaN gives the canonical NaN, with NV for a signaling one. -/
def f32ToBf16 (r : Rounding) (w : Nat) : FpRes :=
  match decodeFp .fp32 w with
  | .nan s => nanRes .bf16 s
  | .inf n => ⟨Fmt.bf16.inf n, {}⟩
  | .fin n m e => roundDyadic .bf16 r (signedMag n m) e n

/-- A BF16 encoding as FP32, exact (Table 5.6). -/
def bf16ToF32 (w : Nat) : FpRes :=
  match decodeFp .bf16 w with
  | .nan s => nanRes .fp32 s
  | v => ⟨encodeVal .fp32 v, {}⟩

/-- An integer rounded from i x 2^e: R60 on the signed value, or R61 from the floor. -/
def roundInt (r : Rounding) (i : Int) (e : Int) : Int :=
  if 0 ≤ e then i * (2 ^ e.toNat : Nat)
  else
    let k := (-e).toNat
    let fl : Int := i / (2 ^ k : Nat)
    let rem := (i % (2 ^ k : Nat)).toNat
    match r with
    | .nearest =>
      if 2 ^ (k - 1) < rem ∨ (rem = 2 ^ (k - 1) ∧ fl % 2 ≠ 0) then fl + 1 else fl
    | .stochastic u => if 65536 ≤ (if 16 ≤ k then rem >>> (k - 16) else rem <<< (16 - k)) + u then fl + 1 else fl

end Sys2Proof.Machine
end

