-- ==== Sys2Proof/Machine/Lots.lean ====
section
/-! DEFINITION. The Lot generator: Philox4x32-10 (R63), its lanes and dithers. -/

namespace Sys2Proof.Machine

/-- One round of Philox4x32 on the counter words, with the round's keys (R63). -/
def philoxRound (k0 k1 : Nat) (c : Nat × Nat × Nat × Nat) : Nat × Nat × Nat × Nat :=
  let p0 := 0xd2511f53 * c.1
  let p1 := 0xcd9e8d57 * c.2.2.1
  ((p1 / 2 ^ 32) ^^^ c.2.1 ^^^ k0, p1 % 2 ^ 32, (p0 / 2 ^ 32) ^^^ c.2.2.2 ^^^ k1, p0 % 2 ^ 32)

/-- `n` rounds, the keys raised after each (R63). -/
def philoxRounds : Nat → Nat → Nat → Nat × Nat × Nat × Nat → Nat × Nat × Nat × Nat
  | 0, _, _, c => c
  | n + 1, k0, k1, c =>
    philoxRounds n ((k0 + 0x9e3779b9) % 2 ^ 32) ((k1 + 0xbb67ae85) % 2 ^ 32) (philoxRound k0 k1 c)

/-- The 128-bit value X of one evaluation: key K = LOT_SEED_BASE xor S, element index, tile id and stream id (R63). -/
def lotValue (base seed : Word64) (index tile stream : Nat) : Nat :=
  let k := (base ^^^ seed).toNat
  let r := philoxRounds 10 (bitsOf k 0 32) (bitsOf k 32 32)
    (bitsOf index 0 32, bitsOf index 32 32, tile % 2 ^ 32, stream % 2 ^ 32)
  r.1 + 2 ^ 32 * r.2.1 + 2 ^ 64 * r.2.2.1 + 2 ^ 96 * r.2.2.2

/-- 16-bit lane `j` of a value (R63). -/
def lotLane (x j : Nat) : Nat := bitsOf x (16 * j) 16

/-- 5-bit dither `j` of a value (R63). -/
def lotDither (x j : Nat) : Nat := bitsOf x (5 * j) 5

/-- The streams that belong to the firmware (R65). -/
def firmwareStream (stream : Nat) : Bool := decide (0xffff0000 ≤ stream)

end Sys2Proof.Machine
end

