-- ==== Sys2Proof/Machine/Numbers.lean ====
section
/-! DEFINITION. The formats and the arithmetic of the Mills (02): ternary weights, scales, residues, the log path and the
conversions. -/

namespace Sys2Proof.Machine

/-! Ternary weights (R41 to R43). -/

/-- The value of a trit. -/
def Trit.toInt : Trit → Int
  | .neg => -1
  | .zero => 0
  | .pos => 1

/-- A base-3 digit as a trit (R41). -/
def tritOfDigit (d : Nat) : Trit := if d = 0 then .neg else if d = 1 then .zero else .pos

/-- The base-3 digit of a trit. -/
def Trit.digit : Trit → Nat
  | .neg => 0
  | .zero => 1
  | .pos => 2

/-- The five trits of a packed byte; none for the reserved values 243 to 255 (R41). -/
def unpackByte (b : Byte) : Option (List Trit) :=
  if b.toNat ≤ 242 then some ((List.range 5).map fun i => tritOfDigit (b.toNat / 3 ^ i % 3)) else none

/-- The packed byte of five trits (R41). -/
def packByte (t : List Trit) : Byte := BitVec.ofNat 8 ((List.range 5).foldl (fun a i => a + (t.getD i .zero).digit * 3 ^ i) 0)

/-- The trits of byte `i` of a packed column, none where it breaks R41 or, for byte 51, R42. -/
def columnByte (i : Nat) (b : Byte) : Option (List Trit) :=
  if i = 51 then (if 120 ≤ b.toNat ∧ b.toNat ≤ 122 then unpackByte b else none) else unpackByte b

/-- A packed column of 52 bytes: its 256 trits, and whether it breaks R41 or R42. A byte that does reads as five zero trits. -/
def unpackColumn (l : List Byte) : List Trit × Bool :=
  let ts := (List.range 52).map fun i => columnByte i (l.getD i 0)
  (((ts.map fun o => o.getD (List.replicate 5 .zero)).flatten).take 256, ts.any Option.isNone)

/-- The packed column of 256 trits (R42). -/
def packColumn (t : List Trit) : List Byte :=
  (List.range 52).map fun i => packByte ((List.range 5).map fun j => if 5 * i + j < 256 then t.getD (5 * i + j) .zero else .zero)

/-- The column length in 4-byte words that the expander takes from an SP16 header's LEN field alone (R82). -/
def sp16Words (len : Nat) : Nat := if len < 9 then 9 else if 17 < len then 17 else len

/-- The SP16 column in some bytes: its trits, and whether it breaks R43 or Table 2.2. -/
def sp16Column (l : List Byte) : List Trit × Bool :=
  let hd := recNat l 0 4
  let nnz := bitsOf hd 0 9
  let len := bitsOf hd 16 8
  let masks := (List.range 16).map fun g => recNat l (4 + 2 * g) 2
  let ones := (List.range 256).filter fun k => bitAt (masks.getD (k / 16) 0) (k % 16)
  let want := ceilDiv (36 + ceilDiv nnz 8) 4
  let tail := l.drop 36
  let sgn := fun j => bitAt (tail.getD (j / 8) 0).toNat (j % 8)
  let unused := (List.range ((4 * want - 36) * 8 - nnz)).any fun j => sgn (nnz + j)
  let trits := (List.range 256).map fun k =>
    if bitAt (masks.getD (k / 16) 0) (k % 16) then
      (if sgn ((ones.filter (fun i => decide (i < k))).length) then Trit.neg else .pos)
    else .zero
  (trits, decide (nnz ≠ ones.length) || decide (bitsOf hd 9 7 ≠ 0) || decide (bitsOf hd 24 8 ≠ 0) || decide (len ≠ want) || unused)

/-! Group occupancy (R73, R76). -/

/-- Whether a group of trits holds a non-zero weight. -/
def occupied (g : List Trit) : Bool := g.any fun t => t != .zero

/-- g_max: the largest count of occupied groups of 16 K positions in a column (R73). -/
def gMax (cols : List (List Trit)) : Nat :=
  (cols.map fun c => ((chunks 16 c).filter occupied).length).foldl max 0

/-- g'_max: the largest count of occupied groups of 16 columns in a stored row (R76). -/
def gPrimeMax (cols : List (List Trit)) : Nat :=
  ((List.range 256).map fun k => ((chunks 16 (cols.map fun c => c.getD k .zero)).filter occupied).length).foldl max 0

/-! Residues (R49 to R51). -/

/-- The residue of an integer, 0 to 6. -/
def residue (x : Int) : Nat := (x % 7).toNat

/-- The code "none" of a saturated element (R51). -/
def noResidue : BitVec 3 := 7

/-! Scales (R46). -/

/-- E and M of an E8M3 container. -/
def e8m3 (w : BitVec 16) : Nat × Nat := (fieldOf w 3 8, fieldOf w 0 3)

/-- A free E8M3. -/
def freeScale (c : Nat) : BitVec 16 := ((Config.freeWord c).setWidth 11).setWidth 16

/-- An E8M3 as it stands; a container with a RSVD bit set (Table 2.1) gives a free one (R10, log entry 7). -/
def cleanScale (c : Nat) (w : BitVec 16) : BitVec 16 := if w.toNat < 2048 then w else freeScale c

/-- 1.0 as an E8M3 (R71). -/
def e8m3One : BitVec 16 := 0x03f8

/-- The scaled value of an accumulator value as P x 2^e, zero when a scale is zero (R46). -/
def scaleExact (a : Int) (sa sw sr : BitVec 16) : Int × Int :=
  let x := e8m3 sa
  let y := e8m3 sw
  let z := e8m3 sr
  if x.1 = 0 ∨ y.1 = 0 ∨ z.1 = 0 then (0, 0)
  else (a * (8 + x.2 : Nat) * (8 + y.2 : Nat) * (8 + z.2 : Nat), (x.1 + y.1 + z.1 : Nat) - 390)

/-- An integer kept within ±lim, and whether it was outside. -/
def clampMag (lim : Nat) (x : Int) : Int × Bool :=
  if (lim : Int) < x then (lim, true) else if x < -(lim : Int) then (-(lim : Int), true) else (x, false)

/-- INT32 saturation (R47). -/
def sat32 (x : Int) : Int × Bool :=
  if 2 ^ 31 - 1 < x then (2 ^ 31 - 1, true) else if x < -(2 ^ 31) then (-(2 ^ 31), true) else (x, false)

/-! LNS16 values (R48, R53, R54): sign and L; L = 0 is zero. -/

/-- An LNS16 value, with the mark of R48 when it saturated. -/
structure Lns where
  neg : Bool
  l : Nat
  sat : Bool := false
deriving DecidableEq, Repr

/-- L brought into range: above 32,767 saturates and is marked, below 1 is zero (R48). -/
def lnsOf (neg : Bool) (l : Int) : Lns :=
  if 32767 < l then ⟨neg, 32767, true⟩ else if l < 1 then ⟨false, 0, false⟩ else ⟨neg, l.toNat, false⟩

/-- The LNS16 code of a value. -/
def Lns.code (x : Lns) : Nat := (flag x.neg) * 2 ^ 15 + x.l

/-- The value of an LNS16 code. -/
def lnsOfCode (w : Nat) : Lns := ⟨bitAt w 15 && decide (bitsOf w 0 15 ≠ 0), bitsOf w 0 15, false⟩

/-- The product of two LNS8 codes, exact (R53). -/
def lnsMul (a b : Byte) : Lns :=
  let la := bitsOf a.toNat 0 7
  let lb := bitsOf b.toNat 0 7
  if la = 0 ∨ lb = 0 then ⟨false, 0, false⟩
  else lnsOf (bitAt a.toNat 7 != bitAt b.toNat 7) (32 * (((la : Int) - 64) + ((lb : Int) - 64)) + 16384)

/-- Table 2.3. -/
def tPlus : List Int :=
  [256, 240, 225, 211, 198, 185, 172, 161, 150, 139, 130, 120, 112, 104, 96, 89] ++
  [82, 76, 70, 65, 60, 55, 51, 47, 44, 40, 37, 34, 31, 29, 26, 24] ++
  [22, 21, 19, 17, 16, 15, 13, 12, 11, 10, 10, 9, 8, 7, 7, 6] ++
  [6, 5, 5, 4, 4, 4, 3, 3, 3, 3, 2, 2, 2, 2, 2, 2]

/-- Table 2.4. -/
def tMinus : List Int :=
  [-1167, -919, -679, -545, -454, -386, -333, -291, -256, -227, -201, -180, -161, -145, -130, -118] ++
  [-106, -96, -87, -79, -72, -65, -59, -54, -49, -45, -41, -37, -34, -31, -29, -26] ++
  [-24, -22, -20, -18, -17, -15, -14, -13, -12, -11, -10, -9, -8, -8, -7, -6] ++
  [-6, -5, -5, -4, -4, -4, -3, -3, -3, -3, -2, -2, -2, -2, -2, -2]

/-- The larger operand x and the smaller y of an addition, with the dither r (R54). -/
def lnsAddOrdered (x y : Lns) (r : Nat) : Lns :=
  let d := x.l - y.l
  let i := (d + r) >>> 5
  let z := if x.neg = y.neg then lnsOf x.neg (x.l + tPlus.getD i 0)
    else if d = 0 then ⟨false, 0, false⟩
    else lnsOf x.neg (x.l + tMinus.getD i 0)
  { z with sat := z.sat || ((x.sat || y.sat) && decide (z.l ≠ 0)) }

/-- The sum of two LNS16 values of one bias with dither r (R54). A mark of an operand stays on a non-zero result (log entry
16). -/
def lnsAdd (x y : Lns) (r : Nat) : Lns :=
  if x.l = 0 then y else if y.l = 0 then x
  else if x.l < y.l then lnsAddOrdered y x r else lnsAddOrdered x y r

/-- A value rebiased from bias `b` to `b'`: L + 256 x (b' - b) (R80); a zero stays zero. -/
def lnsRebias (x : Lns) (b b' : Int) : Lns :=
  if x.l = 0 then x else
  let z := lnsOf x.neg ((x.l : Int) + 256 * (b' - b))
  { z with sat := z.sat || (x.sat && decide (z.l ≠ 0)) }

/-- q rounded and brought into 7 bits: above 127 becomes 127 and counts a clip, below 1 becomes zero (R57). -/
def lns8Of (neg : Bool) (q : Int) : Byte × Bool :=
  if 127 < q then (BitVec.ofNat 8 ((flag neg) * 128 + 127), true)
  else if q < 1 then (0, false)
  else (BitVec.ofNat 8 ((flag neg) * 128 + q.toNat), false)

/-- LNS16 of bias B16 to LNS8 of bias Bo (R57): q = 64 + (L - 16,384) / 32 - 8 B16 + 8 Bo. -/
def lns16ToLns8 (x : Lns) (b16 bo : Int) (r : Rounding) : Byte × Bool :=
  if x.l = 0 then (0, false)
  else lns8Of x.neg (roundInt r ((x.l : Int) - 16384) (-5) + 64 - 8 * b16 + 8 * bo)

/-- A finite non-zero magnitude m x 2^e, BF16 or FP32, to LNS8 of bias b (R58): 64 + 8 log2 |v| + 8 b to nearest. With t
= floor (16 log2 |v|) the nearest integer to 8 log2 |v| is floor ((t + 1) / 2). -/
def magToLns8 (neg : Bool) (m : Nat) (e : Int) (b : Int) : Byte × Bool :=
  let t : Int := (bitLen (m ^ 16) - 1 : Nat) + 16 * e
  lns8Of neg (64 + (t + 1) / 2 + 8 * b)

/-- A value to LNS8 (R58): infinity gives L = 127, a NaN gives 0x00 and NV. The second part is a clip, the third NV. -/
def valToLns8 (v : FpVal) (b : Int) : Byte × Bool × Bool :=
  match v with
  | .nan _ => (0, false, true)
  | .inf n => (BitVec.ofNat 8 ((flag n) * 128 + 127), true, false)
  | .fin n m e => if m = 0 then (0, false, false) else ((magToLns8 n m e b).1, (magToLns8 n m e b).2, false)

/-- Table 2.6. -/
def lnsMantissas : List Nat := [0x00, 0x0c, 0x18, 0x26, 0x35, 0x45, 0x57, 0x6b]

/-- LNS8 of bias b to BF16 (R59); L = 0 gives +0. -/
def lns8ToBf16 (c : Byte) (b : Int) : FpRes :=
  let l := bitsOf c.toNat 0 7
  if l = 0 then ⟨0, {}⟩
  else
    let q : Int := (l : Int) - 64 - 8 * b
    roundFp .bf16 .nearest (bitAt c.toNat 7) (128 + lnsMantissas.getD (q % 8).toNat 0) (q / 8 - 7) false

/-- The largest r below the bits still to be found with r^256 ≤ n. -/
def root256 : Nat → Nat → Nat → Nat
  | 0, _, r => r
  | k + 1, n, r => if (r + 2 ^ k) ^ 256 ≤ n then root256 k n (r + 2 ^ k) else root256 k n r

/-- 2^(j / 256) rounded to the nearest 24-bit significand, as an integer of 24 bits (Table 3.4). -/
def mu (j : Nat) : Nat := if j = 0 then 2 ^ 23 else (root256 25 (2 ^ (24 * 256 + j)) 0 + 1) / 2

/-- An LNS16 value of bias b as FP32 (Table 3.4). -/
def lns16ToF32 (x : Lns) (b : Int) : FpRes :=
  if x.l = 0 then ⟨0, {}⟩
  else
    let q : Int := (x.l : Int) - 16384 - 256 * b
    roundFp .fp32 .nearest x.neg (mu (q % 256).toNat) (q / 256 - 23) false

/-- E8M3 of an FP32 encoding (R145). -/
def f32ToE8m3 (w : Nat) : Nat × FpFlags :=
  match decodeFp .fp32 w with
  | .nan _ => (0, { nv := true })
  | .inf n => if n then (0, { nv := true }) else (254 * 8 + 7, { of_ := true })
  | .fin n m e =>
    if m = 0 then (0, {})
    else if n then (0, { nv := true })
    else
      let ex : Int := e + 23 + 127
      let fr := (roundInt .nearest ((m : Int) - 2 ^ 23) (-20)).toNat
      let ex' : Int := if fr = 8 then ex + 1 else ex
      let fr' := if fr = 8 then 0 else fr
      if 254 < ex' then (254 * 8 + 7, { of_ := true }) else (ex'.toNat * 8 + fr', {})

/-- FP32 of an E8M3 container, exact (Table 5.6); the RSVD bits are not read. -/
def e8m3ToF32 (w : Nat) : FpRes :=
  let ex := bitsOf w 3 8
  if ex = 0 then ⟨0, {}⟩
  else if ex = 255 then ⟨Fmt.fp32.nan, { nv := true }⟩
  else ⟨packFp .fp32 false ex (bitsOf w 0 3 * 2 ^ 20), {}⟩

end Sys2Proof.Machine
end

