-- ==== Sys2Proof/Machine/Mem.lean ====
section
/-! DEFINITION. Access to memory by effective address: by Hands, Porters, Tally units and engines of a job, and by the host's
BAR2 window (R191, R197 to R202). -/

namespace Sys2Proof.Machine

/-- A run of bytes in memory: its package address, its length and how it is kept. -/
structure Place where
  addr : Nat
  len : Nat
  crypt : Crypt
deriving DecidableEq, Repr

/-- The runs of memory that an access reaches, none where a byte faults or is not memory of this package. -/
def State.places (s : State) (a : Actor) (write : Bool) (ea n : Nat) : Option (List Place) :=
  (runsOf ea n).mapM fun r =>
    match s.resolve a write r.1 with
    | some (.mem x c) => some ⟨x, r.2, c⟩
    | _ => none

/-- What an access to some runs does besides moving data: hamlets wake (R186), lines are counted and allocated (R201). -/
def State.arrive (s : State) (write alloc : Bool) (ps : List Place) : State :=
  ps.foldl (fun t p => (t.wakeFor p.addr).touch p.addr p.len write alloc) s

/-- The bytes of some runs and whether any carries poison. -/
def State.loadPlaces (s : State) (ps : List Place) : List Byte × Bool :=
  let l := ps.map fun p => s.loadMem p.addr p.len p.crypt
  ((l.map Prod.fst).flatten, l.any Prod.snd)

/-- Bytes written to some runs. -/
def State.storePlaces (s : State) : List Place → List Byte → Bool → State
  | [], _, _ => s
  | p :: ps, d, poisoned => (s.storeMem p.addr (d.take p.len) p.crypt poisoned).storePlaces ps (d.drop p.len) poisoned

/-- Read `n` bytes of memory at an address. -/
def State.readEa (s : State) (a : Actor) (alloc : Bool) (ea n : Nat) : Option ((List Byte × Bool) × State) :=
  (s.places a false ea n).map fun ps =>
    let t := s.arrive false alloc ps
    (t.loadPlaces ps, t)

/-- Write bytes of memory at an address. -/
def State.writeEa (s : State) (a : Actor) (alloc : Bool) (ea : Nat) (d : List Byte) (poisoned : Bool) : Option State :=
  (s.places a true ea d.length).map fun ps => (s.arrive true alloc ps).storePlaces ps d poisoned

/-- The effective address of a household address in this package; a number that is no household address of 48 bits becomes an address that
faults (R197, log entry 98). -/
def State.ownEa (s : State) (ha : Nat) : Nat := if ha < 2 ^ 48 then s.torus.board.toNat * 2 ^ 48 + ha else 2 ^ 52

/-- The actor for a job. -/
def actorOf (n : Nat) (j : Job) : Actor := { household := j.household, job := some n }

end Sys2Proof.Machine
end

