-- ==== Sys2Proof/Machine/FerryOps.lean ====
section
/-! DEFINITION. Sending packets over Ferry (R308 to R317): the form of a flit, routes, bundles, flows and credit. -/

namespace Sys2Proof.Machine

/-! Coordinates. -/

/-- Component of a coordinate: axis 0 x, 1 y, 2 z (Table 11.4). -/
def axisOf (c : BitVec 15) (axis : Nat) : Nat := fieldOf c (5 * axis) 5
/-- Ring length of an axis (R312). -/
def dimOf (dims : BitVec 15) (axis : Nat) : Nat := fieldOf dims (5 * axis) 5 + 1

/-! Slices (R254, R324). -/

/-- Whether a coordinate lies in the slice of an image on rings of the lengths given, wrapping where the slice does (R254). -/
def JobImage.inSlice (im : JobImage) (dims c : BitVec 15) : Bool :=
  [0, 1, 2].all fun a =>
    let n := dimOf dims a
    let o := axisOf im.origin a
    decide (o < n) && decide (axisOf c a < n) && decide ((axisOf c a + n - o) % n < axisOf im.extents a + 1)

/-- Packages of a slice. -/
def JobImage.packages (im : JobImage) : Nat := (axisOf im.extents 0 + 1) * (axisOf im.extents 1 + 1) * (axisOf im.extents 2 + 1)

/-- The rank of a coordinate in a slice (R254). -/
def JobImage.rank (im : JobImage) (dims c : BitVec 15) : Nat :=
  let o (a : Nat) : Nat := (axisOf c a + dimOf dims a - axisOf im.origin a) % dimOf dims a
  o 0 + (axisOf im.extents 0 + 1) * (o 1 + (axisOf im.extents 1 + 1) * o 2)

/-- Classes of packets (Table 11.4): 0 BELL, 1 CTRL, 2 RSP, 3 REQ. -/
def clsBell : BitVec 2 := 0
def clsCtrl : BitVec 2 := 1
def clsRsp : BitVec 2 := 2
def clsReq : BitVec 2 := 3

/-- Origin and extents of the slice of an image. -/
def JobImage.span (im : JobImage) : BitVec 15 × BitVec 15 := (im.origin, im.extents)

/-- The job of a packet that this package did not send: the first live job of its household whose slice holds both its ends (log entry 122). -/
def State.jobOfPacket (s : State) (p : Packet) : Option Job :=
  if p.household = 0 then none
  else
    (s.jobs.cells.find? fun c => c.2.live && c.2.household == p.household.toNat && c.2.image.inSlice s.torus.dims p.src &&
      c.2.image.inSlice s.torus.dims p.dst).map Prod.snd

/-- The slice in which such a packet travels (R313). -/
def State.sliceOf (s : State) (p : Packet) : Option (BitVec 15 × BitVec 15) := (s.jobOfPacket p).map (·.image.span)

/-- A packet with the slice in which it travels. -/
def State.sliced (s : State) (p : Packet) : Packet := if p.jobSlice.isSome then p else { p with jobSlice := s.sliceOf p }

/-- Whether the way along an axis is the positive one (R313). -/
def positiveWay (dim src dst : Nat) (slice : Option (Nat × Nat)) : Bool :=
  let shorter := decide (2 * ((dst + dim - src) % dim) ≤ dim)
  match slice with
  | none => shorter
  | some (origin, extent) =>
    if extent = dim then shorter
    else decide ((src + dim - origin) % dim < (dst + dim - origin) % dim)

/-- The direction in which a packet leaves a package on rings of the lengths given: 0 +x, 1 -x, 2 +y, 3 -y, 4 +z, 5 -z; none at its
destination (R313). -/
def directionFrom (dims here dst : BitVec 15) (slice : Option (BitVec 15 × BitVec 15)) : Option Nat :=
  match [0, 1, 2].find? fun a => axisOf here a != axisOf dst a with
  | none => none
  | some a =>
    let span := slice.map fun x => (axisOf x.1 a, axisOf x.2 a + 1)
    some (2 * a + if positiveWay (dimOf dims a) (axisOf here a) (axisOf dst a) span then 0 else 1)

/-- The direction in which a packet leaves this package. -/
def State.direction (s : State) (dst : BitVec 15) (slice : Option (BitVec 15 × BitVec 15)) : Option Nat :=
  directionFrom s.torus.dims s.torus.coord dst slice

/-- Whether a coordinate lies in a range that an uplink circuit reaches (R322). -/
def uplinkHolds (r : UplinkRange) (c : BitVec 15) : Bool :=
  [0, 1, 2].all fun a => decide (axisOf r.lo a ≤ axisOf c a) && decide (axisOf c a ≤ axisOf r.hi a)

/-- The live links of the bundle that a packet leaves by, in ascending number (R314, R322). -/
def State.bundle (s : State) (dst : BitVec 15) (slice : Option (BitVec 15 × BitVec 15)) : List Nat :=
  let up := s.torus.uplinks.any fun r => uplinkHolds r dst
  (List.range (3 * s.dieCount)).filter fun l =>
    let x := s.landing l
    decide (x.state = .active) &&
      (if up then x.role == 2
      else x.role == 1 && (s.direction dst slice) == some x.dir.toNat)

/-- The sum of an endpoint's numbers (R314). -/
def endpointSum (c : BitVec 15) (die : BitVec 3) : Nat := axisOf c 0 + axisOf c 1 + axisOf c 2 + die.toNat

/-- The link of a bundle that a flow takes (R314). -/
def pinnedLink (links : List Nat) (p : Packet) : Option Nat :=
  links[(endpointSum p.src p.srcDie + endpointSum p.dst p.dstDie + p.cls.toNat) % links.length]?

/-- The link by which a packet leaves: none where no live link leads on (R314, R318). -/
def State.linkFor (s : State) (p : Packet) : Option Nat := pinnedLink (s.bundle p.dst p.jobSlice) p

/-- The virtual lane of a packet on its next hop by a link (R310): 0 from the source, on an uplink and after a turn, 1 once it has crossed the
dateline of its axis. -/
def State.lane (s : State) (p : Packet) (x : Landing) (fromAxis : Option Nat) : Bool :=
  let a := x.dir.toNat / 2
  let here := axisOf s.torus.coord a
  let crosses := if x.dir.toNat % 2 = 0 then here + 1 == dimOf s.torus.dims a else here == 0
  x.role == 1 && (crosses || (p.vl && fromAxis == some a))

/-! Flits (Table 11.4). -/

/-- Flits of a packet (R309). -/
def Packet.flitCount (p : Packet) : Nat := max 1 (ceilDiv p.payload.length 224)

/-- DW1 to DW3 of a flit, CRC zero. -/
def Packet.dw1 (p : Packet) : Nat :=
  p.cls.toNat + flag p.vl * 2 ^ 2 + p.op.toNat * 2 ^ 3 + p.dst.toNat * 2 ^ 7 + p.dstDie.toNat * 2 ^ 22 + p.src.toNat * 2 ^ 25 +
    p.srcDie.toNat * 2 ^ 40 + p.household.toNat * 2 ^ 43 + p.tag.toNat * 2 ^ 49
def Packet.dw2 (p : Packet) : Nat := p.addr.toNat + p.len.toNat * 2 ^ 48
def Packet.dw3 (p : Packet) (fidx : Nat) : Nat :=
  p.pseq.toNat + fidx * 2 ^ 16 + flag p.poison * 2 ^ 21 + p.status.toNat * 2 ^ 24

/-- Payload bytes of flit `i`, padded with zeros (R309). -/
def Packet.part (p : Packet) (i : Nat) : List Byte := slice (p.payload.drop (224 * i)) 0 224

/-- DW0 of a flit. -/
def linkWord (data nak : Bool) (lseq ack : BitVec 16) (sel count : Nat) : Nat :=
  flag data + flag nak * 2 ^ 4 + lseq.toNat * 2 ^ 6 + ack.toNat * 2 ^ 22 + sel * 2 ^ 38 + count * 2 ^ 41

/-- The bytes of a DATA flit, with its CRC-32C over bytes 0-27 and 32-255 (R308). -/
def SentFlit.bytes (f : SentFlit) (ack : BitVec 16) : List Byte :=
  let p := f.packet
  let head := toBytes 8 (linkWord true false f.lseq ack f.cr.1 f.cr.2) ++ toBytes 8 p.dw1 ++ toBytes 8 p.dw2 ++ toBytes 4 (p.dw3 f.fidx)
  head ++ toBytes 4 (crc32c (head ++ f.part)) ++ f.part

/-- The bytes of an IDLE flit: DW0 only (R308). -/
def idleFlit (w0 : Nat) : List Byte := toBytes 8 w0 ++ List.replicate 248 0

/-- CR_SEL of a class and lane. -/
def creditKey (cls : BitVec 2) (vl : Bool) : Nat := 2 * cls.toNat + flag vl

/-- Receive buffers per class (Table 11.6). -/
def bufferFlits (cls : Nat) : Nat := if cls < 2 then 128 else 2048

/-- Credit of a link that has just entered ACTIVE: every buffer of the far end is empty (R310). -/
def fullCredits : Tab Nat := ⟨(List.range 8).map fun k => (k, bufferFlits (k / 2))⟩

/-- Whether a packet of a flow that expects `e` lies in the reorder store (R315). -/
def Packet.early (p : Packet) (e : BitVec 16) : Bool := p.pseq != e

/-- Flits of a packet by its header. -/
def Packet.flitsOf (p : Packet) : Nat :=
  if [1, 4, 8].contains p.op.toNat || (p.op == 5 && p.status != 0) then 1 else ceilDiv (p.len.toNat + 1) 224

/-- The packets of which a die's reorder store holds flits, with the number of those flits (R315). -/
def Die.stored (x : Die) : List (Packet × Nat) :=
  (x.flowsIn.cells.flatMap fun c => c.2.held.map fun p => (p, p.flitsOf)) ++
    x.partials.filterMap fun y => if y.head.early ((x.flowsIn.get {} y.flow).expect) then some (y.head, y.flits.cells.length) else none

/-- Flits in the reorder store of a die (R315). -/
def Die.heldFlits (x : Die) : Nat := (x.stored.map Prod.snd).foldl (· + ·) 0

/-- Whether a reorder store is full. -/
def Die.storeFull (x : Die) : Bool := decide (4096 ≤ x.heldFlits)

/-- Whether a link returns no credit for a class and lane, because it delivered flits of them that lie in a full reorder store (R315). -/
def State.heldBack (s : State) (l k : Nat) : Bool :=
  s.dies.cells.any fun d => d.2.storeFull && d.2.stored.any fun p => p.1.via.contains (l, k)

/-- The credit that a link returns in its next flit: the first class and lane for which it owes some, of those not held back (R310). -/
def Landing.nextCredit (x : Landing) (back : Nat → Bool) : Nat × Nat :=
  match x.owed.cells.find? fun c => c.2 != 0 && !back c.1 with
  | some (k, n) => (k, min n 4095)
  | none => (0, 0)

/-- What a flit acknowledges and returns is no longer owed. -/
def Landing.settled (x : Landing) (cr : Nat × Nat) : Landing :=
  { x with unacked := 0, owed := if cr.2 = 0 then x.owed else x.owed.set cr.1 (x.owed.get 0 cr.1 - cr.2) }

/-- Receive buffers are free again: their links owe the credit (R310). -/
def State.owe (s : State) (l : List (Nat × Nat)) : State :=
  l.foldl (fun t b => t.modLanding b.1 fun y => { y with owed := y.owed.set b.2 (y.owed.get 0 b.2 + 1) }) s

/-- The oldest flit of a class that waits with credit. -/
def Landing.ready (x : Landing) (c : Nat) : Option SentFlit :=
  x.out.find? fun f => f.packet.cls.toNat == c && decide (0 < x.credits.get 0 (creditKey f.packet.cls f.packet.vl))

/-- Whether BELL and CTRL have taken their 16 of 64 flits in a row while others wait (R310). -/
def Landing.capped (x : Landing) : Bool :=
  (x.out.any fun f => decide (2 ≤ f.packet.cls.toNat)) && decide (16 ≤ (x.recent.filter id).length)

/-- The next flit that a link sends: of the first class of Table 11.6, but BELL and CTRL take at most 16 of any 64 flits in a row while
others wait (R310). Where the others have no credit, IDLE flits pass and BELL and CTRL go on (log entry 140). -/
def Landing.nextFlit (x : Landing) : Option SentFlit :=
  let data := [2, 3].findSome? x.ready
  let first := [0, 1].findSome? x.ready
  if x.capped && data.isSome then data else first.orElse fun _ => data

/-- The last 63 flits, with the IDLE flits that pass before one of BELL or CTRL that the cap holds back. -/
def Landing.paced (x : Landing) (f : SentFlit) : Landing :=
  if x.capped && decide (f.packet.cls.toNat < 2) then { x with recent := (List.replicate 48 false ++ x.recent).take 63 } else x

/-- The last 63 flits with one more. -/
def Landing.sentOne (x : Landing) (first : Bool) : Landing := { x with recent := (first :: x.recent).take 63 }

/-- Send the flits that wait on a link while there is credit and room in the replay buffer (R310, R311); a flit in transit leaves its receive
buffer. The fuel is the number of flits that wait. -/
def State.pumpLink : Nat → State → Nat → State
  | 0, s, _ => s
  | n + 1, s, l =>
    let x := s.landing l
    match x.nextFlit with
    | none => s
    | some f =>
      if x.state != .active || decide (2048 ≤ x.replay.length) then s
      else
        let k := creditKey f.packet.cls f.packet.vl
        let cr := x.nextCredit (s.heldBack l)
        let sent : SentFlit := { f with lseq := x.txSeq, cr := cr, tries := 0, via := none }
        let y := { ((x.settled cr).paced f).sentOne (decide (f.packet.cls.toNat < 2)) with
          out := x.out.erase f, replay := x.replay ++ [sent], txSeq := x.txSeq + 1, credits := x.credits.set k (x.credits.get 0 k - 1) }
        State.pumpLink n (((s.setLanding l y).owe f.via.toList).emit (.flit l (sent.bytes x.rxSeq))) l

/-- Send everything that a link can send now. -/
def State.pump (s : State) (l : Nat) : State := State.pumpLink (s.landing l).out.length s l

/-- The flits of a packet. -/
def Packet.flits (p : Packet) : List SentFlit :=
  (List.range p.flitCount).map fun i => { lseq := 0, packet := { p with payload := [] }, fidx := i, part := p.part i }

/-- Put a packet on the link that its flow takes; none where no live link leads on (R314, R318). -/
def State.route (s : State) (p : Packet) : Option State :=
  (s.linkFor p).map fun l =>
    let q := { p with vl := s.lane p (s.landing l) none }
    (s.modLanding l fun x => { x with out := x.out ++ q.flits }).pump l

/-- Key of an outgoing flow of a die: destination coordinate, die and class (R314). -/
def flowKey (c : BitVec 15) (die : BitVec 3) (cls : BitVec 2) : Nat := c.toNat * 32 + die.toNat * 4 + cls.toNat

/-- A packet of a die with the next number of its flow (R315), and the state after. -/
def State.numbered (s : State) (p : Packet) : Packet × State :=
  let k := flowKey p.dst p.dstDie p.cls
  let n := (s.die p.srcDie.toNat).flowsOut.get 0 k
  ({ s.sliced p with pseq := n, vl := false }, s.modDie p.srcDie.toNat fun y => { y with flowsOut := y.flowsOut.set k (n + 1) })

/-- Send a packet from a die; none where no live link leads on. -/
def State.sendPacket (s : State) (p : Packet) : Option State :=
  let q := s.numbered p
  q.2.route q.1

/-- Send a packet that no answer of UNREACHABLE can take back: where no live link leads on it waits for one (R316). -/
def State.postPacket (s : State) (p : Packet) : State :=
  let q := s.numbered p
  match q.2.route q.1 with
  | some t => t
  | none => { q.2 with stranded := q.2.stranded ++ q.1.flits }

/-- A packet from a die of this package with the fields that most requests leave zero. -/
def State.packetFrom (s : State) (die : Nat) (cls : BitVec 2) (op : Nat) (dst : BitVec 15) (dstDie hh tag addr : Nat)
    (payload : List Byte) : Packet :=
  { cls := cls, op := BitVec.ofNat 4 op, dst := dst, dstDie := BitVec.ofNat 3 dstDie, src := s.torus.coord, srcDie := BitVec.ofNat 3 die
    household := BitVec.ofNat 6 hh, tag := BitVec.ofNat 14 tag, addr := BitVec.ofNat 48 addr
    len := BitVec.ofNat 12 (payload.length - 1), pseq := 0, poison := false, status := 0, vl := false, payload := payload }

/-- The coordinate of a package of the board group. -/
def State.memberCoord (s : State) (board : Nat) : BitVec 15 :=
  ((s.torus.group.find? fun g => g.board.toNat == board).map (·.coord)).getD 0

/-- The die to which a request for a household address goes: the one that an on-chip address names; for LPDDR the manual
does not say (log entry 12). -/
def requestDie (ha : Nat) : Nat :=
  if ha < sramBase then Config.ferryDie ha % 8
  else if ha < 0xf00000000000 then (ha - sramBase) / 0x40000000 % 8
  else (ha - 0xf00000000000) / 0x10000000 % 8

/-- The job of the agent that makes a request. -/
def State.jobOfRequester (s : State) : Requester → Option (Nat × Job)
  | .handLoad h _ => s.jobAt (handSlot h)
  | .handStore h => s.jobAt (handSlot h)
  | .porterRead p _ => s.jobOfPorter p ((s.porter p).cur.bind (·.desc.issuer))
  | .porterWrite p _ => s.jobOfPorter p ((s.porter p).cur.bind (·.desc.issuer))
  | .engineRead p _ _ => s.jobOfParish p
  | .engineWrite p _ => s.jobOfParish p
  | .slot r _ _ => s.jobAt (ringSlot r)

/-- A request of a die to another package: it takes a tag, stays open until its answer and travels in the slice of the job that makes it (R309,
R313, R317). -/
def State.request (s : State) (die : Nat) (op ea hh n : Nat) (payload : List Byte) (poison : Bool) (who : Requester) : Option State :=
  let ha := ea % 2 ^ 48
  let tag := (s.die die).nextTag % 16384
  let dst := s.memberCoord (ea / 2 ^ 48)
  let p := { s.packetFrom die clsReq op dst (requestDie ha) hh tag ha payload with jobSlice := (s.jobOfRequester who).map fun (j : Nat × Job) => j.2.image.span }
  let q := if op = 1 then { p with len := BitVec.ofNat 12 (n - 1) } else { p with poison := poison }
  (s.modDie die fun x => { x with nextTag := (tag + 1) % 16384, reqs := x.reqs ++ [⟨tag, who, n, dst⟩] }).sendPacket q

/-- The pieces of a transfer to another package: cut at 4 KiB boundaries of the destination address (R309) and to the size given. -/
def pieces (most : Nat) : Nat → Nat → Nat → List (Nat × Nat)
  | 0, _, _ => []
  | fuel + 1, ea, n =>
    if n = 0 then []
    else
      let k := min n (min most (4096 - ea % 4096))
      (ea, k) :: pieces most fuel (ea + k) (n - k)

/-- READ requests for some bytes (R309): none where no link leads there. -/
def State.ask (s : State) (die hh ea n : Nat) (who : Nat → Requester) : Option State :=
  (pieces 4096 n ea n).foldl (fun t x => t.bind fun u => u.request die 1 x.1 hh x.2 [] false (who x.1)) (some s)

/-- Bytes sent in WRITE packets (R309): none where no link leads there. -/
def State.tell (s : State) (die hh ea : Nat) (d : List Byte) (poisoned : Bool) (who : Requester) : Option State :=
  (pieces 4096 d.length ea d.length).foldl
    (fun t x => t.bind fun u => u.request die 0 x.1 hh x.2 (slice d (x.1 - ea) x.2) poisoned who) (some s)

/-- Open requests of a die that satisfy a test. -/
def State.openReqs (s : State) (die : Nat) (p : Requester → Bool) : Bool := (s.die die).reqs.any fun r => p r.who

end Sys2Proof.Machine
end

