-- ==== Sys2Proof/Machine/Rings.lean ====
section
/-! DEFINITION. Rings (R168 to R175): slots in a scratchpad, their indices, headers, waits and grants. -/

namespace Sys2Proof.Machine

/-- COUNT, at least 1. -/
def Ring.size (r : Ring) : Nat := max 1 r.count.toNat
/-- Offset of slot `i` in the scratchpad (R168). -/
def Ring.slotOff (r : Ring) (i : Nat) : Nat := 64 * r.base.toNat + 64 * r.stride.toNat * i
/-- Payload capacity (R168). -/
def Ring.capacity (r : Ring) : Nat := 64 * (r.stride.toNat - 1)
/-- State of a slot. -/
def Ring.slot (r : Ring) (i : Nat) : SlotState := r.slots.get .free i
/-- A slot put into a state; FREE slots are not listed. -/
def Ring.setSlot (r : Ring) (i : Nat) (x : SlotState) : Ring :=
  match x with
  | .free => { r with slots := r.slots.del i }
  | _ => { r with slots := r.slots.set i x }
/-- The index after `i`. -/
def Ring.after (r : Ring) (i : Nat) : Nat := if i + 1 < r.size then i + 1 else 0

/-- Whether a RING_CFG value has only valid fields and the ring lies below 0x60_0000 (R168, Table 6.4). -/
def cfgValid (v : Word64) : Bool :=
  let base := 64 * fieldOf v 6 17
  let stride := fieldOf v 24 15
  let count := fieldOf v 40 11
  decide (fieldOf v 1 5 = 0) && decide (fieldOf v 23 1 = 0) && decide (fieldOf v 39 1 = 0) && decide (fieldOf v 51 13 = 0) &&
    (!v.getLsbD 0 || (decide (2 ≤ stride) && decide (stride ≤ 16385) && decide (1 ≤ count) && decide (count ≤ 1024) &&
      decide (base + 64 * stride * count ≤ padBytes)))

/-- A disabled ring given a RING_CFG value; where it sets ENABLE, all indices and RING_SEQ become 0 and every slot FREE (R178). -/
def Ring.configured (r : Ring) (v : Word64) : Ring :=
  let y := { r with enable := v.getLsbD 0, base := BitVec.ofNat 17 (fieldOf v 6 17), stride := BitVec.ofNat 15 (fieldOf v 24 15)
                    count := BitVec.ofNat 11 (fieldOf v 40 11) }
  if v.getLsbD 0 then { y with head := 0, claim := 0, pub := 0, rsv := 0, seq := 0, slots := {}, grant := 0, grants := [], origins := {}, senders := {} }
  else y

/-- RING_CFG as it reads (Table 6.4). -/
def Ring.cfgWord (r : Ring) : Word64 :=
  BitVec.ofNat 64 (flag r.enable + r.base.toNat * 2 ^ 6 + r.stride.toNat * 2 ^ 24 + r.count.toNat * 2 ^ 40)

/-! Headers (Table 6.2). -/

/-- A slot header. -/
structure SlotHdr where
  fmt : BitVec 4
  bias : Byte
  poison : Bool
  len : Nat
  layer : Word32
  tile : Word32
deriving DecidableEq, Repr

/-- DW0 of a header with its fields and zero RSVD bits. -/
def hdrWord (fmt : BitVec 4) (bias : Byte) (poison : Bool) (len : Nat) : Word64 :=
  BitVec.ofNat 64 (fmt.toNat + bias.toNat * 2 ^ 8 + flag poison * 2 ^ 16 + (len % 2 ^ 21) * 2 ^ 32)

/-- Bytes of a hamlet's scratchpad from an offset, with their poison. -/
def State.padRead (s : State) (m : HamletRef) (off n : Nat) : List Byte × Bool := s.loadMem (sramAddr m off) n .plain

/-- Bytes written into a hamlet's scratchpad; what would lie past its end is not written. -/
def State.padWrite (s : State) (m : HamletRef) (off : Nat) (d : List Byte) (poisoned : Bool) : State :=
  s.storeMem (sramAddr m off) (d.take (padBytes - off)) .plain poisoned

/-- The header of slot `i`; an uncorrectable word of it is poison as its POISON bit is (R164, R390). -/
def State.slotHdr (s : State) (r : RingRef) (i : Nat) : SlotHdr :=
  let b := s.padRead (ringSlot r) ((s.ring r).slotOff i) 64
  let w := recNat b.1 0 8
  { fmt := BitVec.ofNat 4 (bitsOf w 0 4), bias := BitVec.ofNat 8 (bitsOf w 8 8), poison := bitAt w 16 || b.2, len := bitsOf w 32 21
    layer := BitVec.ofNat 32 (recNat b.1 8 4), tile := BitVec.ofNat 32 (recNat b.1 12 4) }

/-- Offset of the payload of slot `i` (R168). -/
def Ring.payloadOff (r : Ring) (i : Nat) : Nat := r.slotOff i + 64

/-- The payload of a slot as an engine takes it: poisoned by its header or by an uncorrectable word (R82, R164). -/
def State.slotIn (s : State) (r : RingRef) (i : Nat) : SlotIn :=
  let h := s.slotHdr r i
  let b := s.padRead (ringSlot r) ((s.ring r).payloadOff i) (min h.len (s.ring r).capacity)
  { fmt := h.fmt, bias := h.bias, poison := h.poison || b.2, bytes := b.1 }

/-! Indices (R171, R172). -/

/-- Reserve the slot at RSV when it is FREE. -/
def Ring.reserve (r : Ring) : Option (Nat × Ring) :=
  if r.enable && r.slot r.rsv == .free then some (r.rsv, { r.setSlot r.rsv .reserved with rsv := r.after r.rsv }) else none

/-- Claim the slot at CLAIM when PUB has moved past it. -/
def Ring.claimSlot (r : Ring) : Option (Nat × Ring) :=
  if r.enable && r.slot r.claim == .published then some (r.claim, { r.setSlot r.claim .claimed with claim := r.after r.claim }) else none

/-- PUB advances over every ready slot; the slots made visible, in order, are appended to the list (R172). -/
def Ring.advancePub : Nat → Ring → List Nat → Ring × List Nat
  | 0, r, l => (r, l)
  | n + 1, r, l =>
    if r.slot r.pub == .ready then
      Ring.advancePub n { r.setSlot r.pub .published with pub := r.after r.pub, seq := r.seq + 1 } (l ++ [r.pub])
    else (r, l)

/-- HEAD advances over every done slot, which become FREE (R172). -/
def Ring.advanceHead : Nat → Ring → Ring
  | 0, r => r
  | n + 1, r =>
    if r.slot r.head == .done then Ring.advanceHead n { r.setSlot r.head .free with head := r.after r.head } else r

/-- A release marks a slot done and HEAD advances (R172). -/
def Ring.release (r : Ring) (i : Nat) : Ring := Ring.advanceHead r.size (r.setSlot i .done)

/-- The release of a slot of a receiving bound ring returns its message credit in an MCRED packet, with the tag of the last packet of
the slot (R326). -/
def State.returnCredit (s : State) (r : RingRef) (i : Nat) : State :=
  match (s.ring r).origins.find i with
  | none => s
  | some o =>
    let j := s.jobAt (ringSlot r)
    let hh := (j.map fun c => c.2.household).getD 0
    let t := s.modRing r fun x => { x with origins := x.origins.del i }
    t.postPacket { t.packetFrom r.die clsRsp 8 o.coord o.die.toNat hh o.tag.toNat 0 [] with len := 0, jobSlice := j.map fun c => c.2.image.span }

/-- A release by the holder of a claimed slot; it wakes the hamlet of the ring (R186). On a disabled ring it does not come about (R178). -/
def State.releaseSlot (s : State) (r : RingRef) (i : Nat) : State :=
  if (s.ring r).enable then ((s.wake (ringSlot r)).modRing r fun x => x.release i).returnCredit r i else s

/-- Every byte of a ring's slots takes a free value, where a host error leaves the ring's contents unpredictable (R128, R177). -/
def State.freeRing (s : State) (r : RingRef) : State :=
  let x := s.ring r
  let b := s.freshBytes (64 * x.stride.toNat * x.size)
  b.2.padWrite (ringSlot r) (x.slotOff 0) b.1 false

/-- DW2 is the slot's number since ENABLE and DW3 to DW7 are zero when it becomes visible (R169). -/
def State.stampSlots (s : State) (r : RingRef) : List Nat → Word64 → State
  | [], _ => s
  | i :: t, q =>
    (s.padWrite (ringSlot r) ((s.ring r).slotOff i + 16) (toBytes 8 q.toNat ++ List.replicate 40 0) false).stampSlots r t (q + 1)

/-- The publish of a slot of an enabled ring: LEN above the capacity is written as the capacity and sets LEN_OVER; DW0 (and DW1 where the producer gives
it) is written; PUB advances and every slot made visible is stamped (R169, R172, R173). It wakes the hamlet of the ring (R186). -/
def State.publishOpen (s0 : State) (r : RingRef) (i : Nat) (dw0 : Word64) (dw1 : Option Word64) : State :=
  let s := s0.wake (ringSlot r)
  let x := s.ring r
  let len := fieldOf dw0 32 21
  let long := decide (x.capacity < len)
  let w := if long then BitVec.ofNat 64 (dw0.toNat - len * 2 ^ 32 + x.capacity * 2 ^ 32) else dw0
  let s1 := if long then s.modHamlet (ringSlot r) fun m => { m with err := { m.err with lenOver := true } } else s
  let s2 := s1.padWrite (ringSlot r) (x.slotOff i) (toBytes 8 w.toNat) false
  let s3 := match dw1 with
    | some v => s2.padWrite (ringSlot r) (x.slotOff i + 8) (toBytes 8 v.toNat) false
    | none => s2
  let a := Ring.advancePub x.size ((s3.ring r).setSlot i .ready) []
  (s3.setRing r a.1).stampSlots r a.2 x.seq

/-- A publish by the holder of a reserved slot; on a disabled ring it does not come about (R178). -/
def State.publishSlot (s : State) (r : RingRef) (i : Nat) (dw0 : Word64) (dw1 : Option Word64) : State :=
  if (s.ring r).enable then s.publishOpen r i dw0 dw1 else s

/-! Requests (R171). -/

/-- The place of a requester in the order of R171: hands 0-3, Mills 4-7, Porters 8-9, the NoC port 10. -/
def agentPort (m : HamletRef) : RingAgent → Nat
  | .hand h => if handSlot h = m then h.idx else 10
  | .mill u _ => if millSlot u = m then 4 + u.idx else 10
  | .porter (.hamlet d k n) => if (⟨d, k⟩ : HamletRef) = m then 8 + n else 10
  | .porter (.parish _ _ _) => 10
  | .engine _ _ => 10
  | .landing => 10

/-- How far a requester lies past the grant pointer. -/
def portDistance (grant port : Nat) : Nat := (port + 11 - grant) % 11

/-- The pointer moves to the requester after the one granted. -/
def portAfter (port : Nat) : Nat := (port + 1) % 11

/-- Reserve or claim for an agent that is not kept waiting: a slot granted to it earlier, or the next slot where no other
request of its kind waits before it. A request that finds its slot counts as one of a cycle of its own (log entry 131). -/
def State.takeSlot (s : State) (r : RingRef) (a : RingAgent) (claim : Bool) : Option (Nat × State) :=
  let x := s.ring r
  match x.grants.find? fun g => g.agent == a && g.claim == claim with
  | some g => if x.enable then some (g.idx, s.setRing r { x with grants := x.grants.erase g }) else none
  | none =>
    if x.waiters.any fun w => w.claim == claim && (!w.dead || w.agent == a) then none
    else
      match (if claim then x.claimSlot else x.reserve) with
      | some (i, y) => some (i, s.setRing r { y with grant := portAfter (agentPort (ringSlot r) a) })
      | none => none

/-- An agent begins to wait at a ring, unless it waits there already (R175); at a disabled ring the wait never ends (R178). -/
def State.joinRing (s : State) (r : RingRef) (a : RingAgent) (claim expand : Bool) : State :=
  let x := s.ring r
  if x.waiters.any fun w => w.agent == a && w.claim == claim then s
  else s.setRing r { x with waiters := x.waiters ++ [⟨a, claim, expand, s.mclk, false, !x.enable⟩] }

/-- An agent stops waiting at a ring. -/
def State.leaveRing (s : State) (r : RingRef) (a : RingAgent) : State :=
  s.modRing r fun x => { x with waiters := x.waiters.filter fun w => w.agent != a }

/-- A Hand that leaves a ring wait waits there no longer: an event has ended the wait (R154), or the Hand has stopped (R152). -/
def State.quitWait (s : State) (h : HandRef) : State :=
  match (s.hand h).wait with
  | .claim r _ => s.leaveRing r (.hand h)
  | .reserve r => s.leaveRing r (.hand h)
  | _ => s

/-- Whether the next request of a kind can be granted. -/
def Ring.grantable (r : Ring) (claim : Bool) : Bool := (if claim then r.claimSlot else r.reserve).isSome

/-- Whether waiter `a` is granted before waiter `b`: in cycle order, and within a cycle in the order of the grant pointer. -/
def waiterBefore (m : HamletRef) (grant : Nat) (a b : Waiter) : Bool :=
  decide (a.since < b.since) ||
    (decide (a.since = b.since) &&
      decide (portDistance grant (agentPort m a.agent) < portDistance grant (agentPort m b.agent)))

/-- The waiter that is granted next, of those whose slot is free or published (R171). -/
def State.nextGrant (s : State) (r : RingRef) : Option Waiter :=
  let x := s.ring r
  (x.waiters.filter fun w => !w.dead && x.grantable w.claim).foldl
    (fun b w => match b with
      | none => some w
      | some v => if waiterBefore (ringSlot r) x.grant w v then some w else some v) none

/-- The ring that a reference of R106 names for a job, none where the hamlet is not placed for it (R174). -/
def Job.ringOf (j : Job) (ref : Nat) : Option RingRef :=
  (j.hamletOf (bitsOf ref 10 3) (bitsOf ref 6 4)).map fun m => ⟨m.die, m.slot, bitsOf ref 0 6⟩

/-- What a ring or Bell counter reference names for a job: a hamlet of the job; one of another job of the household, whose use is
unpredictable (R128, R148); or one not placed for the household, which is refused (R174, R180). -/
inductive RefKind
  | job (r : RingRef)
  | outside
  | foreign
deriving DecidableEq, Repr

/-- What a reference of R106 names for the job that holds a slot. -/
def State.refKind (s : State) (j : Job) (ref : Nat) : RefKind :=
  match j.ringOf ref with
  | some r => .job r
  | none =>
    if s.jobs.cells.any fun c => c.2.live && c.2.household == j.household && (c.2.ringOf ref).isSome then .outside else .foreign

/-- The issuing hamlet's RING_ERR.FOREIGN is set (R174). -/
def State.foreignRing (s : State) (m : HamletRef) : State :=
  s.modHamlet m fun x => { x with err := { x.err with foreign := true } }

/-- The payload address of a slot in the household address map: the scratchpad of the ring's logical hamlet (Table 7.4). -/
def slotEa (board : Nat) (die logical off : Nat) : Nat :=
  board * 2 ^ 48 + sramBase + die * 0x40000000 + 0x10000000 + logical * 0x800000 + off

/-! Engines at rings: Mills, Porters and the engines of a parish. -/

/-- Whether an enabled ring shares bytes with another enabled ring of its hamlet (R168). -/
def Hamlet.ringsOverlap (m : Hamlet) (k : Nat) : Bool :=
  let r := m.rings.get {} k
  r.enable && m.rings.cells.any fun c =>
    c.1 != k && c.2.enable && decide (c.2.slotOff 0 < r.slotOff r.size) && decide (r.slotOff 0 < c.2.slotOff c.2.size)

/-- Whether a job binds a ring of this package as the far end of a bound ring (R326, log entry 38). -/
def Job.bindsRing (j : Job) (coord : BitVec 15) (r : RingRef) : Bool :=
  j.image.ringBinds.any fun b => b.coord == coord && j.ringOf (b.rdie.toNat * 1024 + b.rhamlet.toNat * 64 + b.rnum.toNat) == some r

/-- Whether a ring is the receiving end of a bound ring: it is named as one, or holds slots that came from another package (R326). -/
def State.receiving (s : State) (r : RingRef) : Bool :=
  !(s.ring r).origins.cells.isEmpty || (s.jobAt (ringSlot r)).any fun j => j.2.bindsRing s.torus.coord r

/-- A claim on the sending end of a bound ring, a reserve on a receiving one (R326), or the use of a ring that overlaps another (R168) leaves the
ring's contents unpredictable. -/
def State.boundUse (s : State) (r : RingRef) (claim : Bool) : State :=
  if (if claim then (s.ring r).bind.isSome else s.receiving r) || (s.hamlet (ringSlot r)).ringsOverlap r.idx then s.freeRing r else s

/-! Raw access (R177). -/

/-- Slots of enabled rings that an access touches without holding them, or whose DW0 a write touches; in rings that overlap every access counts
(R168). -/
def State.rawSlots (s : State) (holds : List SlotRef) (write : Bool) (a n : Nat) : List SlotRef :=
  match slotOfAddr a with
  | none => []
  | some m =>
    let off := a - sramAddr m 0
    (s.hamlet m).rings.cells.flatMap fun c =>
      let r := c.2
      let w := 64 * r.stride.toNat
      let lo := (off - 64 * r.base.toNat) / w
      let hi := min r.size (ceilDiv (off + n - 64 * r.base.toNat) w)
      if !r.enable || w == 0 then []
      else
        ((List.range (hi - lo)).map fun i => SlotRef.mk ⟨m.die, m.slot, c.1⟩ (lo + i)).filter fun x =>
          decide (off < r.slotOff x.idx + w) && decide (r.slotOff x.idx < off + n) &&
            (!holds.contains x || (s.hamlet m).ringsOverlap c.1 || (write && decide (off < r.slotOff x.idx + 8)))

/-- A slot's bytes take free values (R177, log entry 7). -/
def State.freeSlot (s : State) (x : SlotRef) : State :=
  let r := s.ring x.ring
  let b := s.freshBytes (64 * r.stride.toNat)
  b.2.padWrite (ringSlot x.ring) (r.slotOff x.idx) b.1 false

/-- The slots of rings that some places touch. -/
def State.rawPlaces (s : State) (write : Bool) (ps : List Place) : List SlotRef :=
  ps.flatMap fun p => s.rawSlots [] write p.addr p.len

/-! KV pools (R288, R404). -/

/-- The page of a session's KV pool that holds a household address (R288). -/
def Session.pageAt (q : Session) (ha : Nat) : Option Nat :=
  if q.kvBase.toNat ≤ ha ∧ ha < q.kvBase.toNat + q.pool * q.pageBytes then some ((ha - q.kvBase.toNat) / (if q.pageBytes = 0 then 1 else q.pageBytes))
  else none

/-- The first of `n` addresses from `ea` in each 512-byte sector that they touch; the pages of a pool are of whole sectors. -/
def sectorStarts (ea n : Nat) : List Nat := (sectorsOf ea n).map fun b => max ea (512 * b)

/-- Whether a household address lies in the KV pool of a job of an actor's household that has misused its KV (R404). -/
def State.kvOpenAt (s : State) (a : Actor) (ha : Nat) : Bool :=
  s.sessions.cells.any fun c => c.2.household == a.household && (c.2.pageAt ha).isSome &&
    ((s.jobs.find c.2.job).map fun j => j.serving.kvWild).getD false
def State.kvOpen (s : State) (a : Actor) (ea n : Nat) : Bool := (sectorStarts ea n).any fun x => s.kvOpenAt a (x % 2 ^ 48)

/-- Memory read by a Reeve or a Tally unit, which hold no slot: bytes of a ring's slots, and KV that has been misused, read free (R177, R404). -/
def State.readMem (s : State) (a : Actor) (ea n : Nat) : Option ((List Byte × Bool) × State) :=
  (s.readEa a false ea n).map fun r =>
    if (s.rawPlaces false ((s.places a false ea n).getD [])).isEmpty && !s.kvOpen a ea n then r
    else (((r.2.freshBytes n).1, r.1.2), (r.2.freshBytes n).2)

/-- Memory written by a Reeve or a Tally unit; a ring's slots that it touches are left with free bytes (R177). -/
def State.writeMem (s : State) (a : Actor) (ea : Nat) (d : List Byte) (poisoned : Bool) : Option State :=
  (s.writeEa a false ea d poisoned).map fun t => (s.rawPlaces true ((s.places a true ea d.length).getD [])).foldl State.freeSlot t

/-- An engine asks for a slot: it gets one, or it waits at the ring. -/
def State.engineSlot (s : State) (r : RingRef) (a : RingAgent) (claim : Bool) : Option Nat × State :=
  let t := (s.wake (ringSlot r)).boundUse r claim
  match t.takeSlot r a claim with
  | some (i, u) => (some i, u)
  | none => (none, t.joinRing r a claim false)

/-- Whole slots taken from a ring and released until they are enough (R70, R107): the slots, whether they are enough. The fuel is more
than the slots that can be published. -/
def State.gatherSlots (r : RingRef) (a : RingAgent) (enough : List SlotIn → Bool) :
    Nat → List SlotIn → State → List SlotIn × Bool × State
  | 0, l, s => (l, enough l, s)
  | n + 1, l, s =>
    if enough l then (l, true, s)
    else
      match s.engineSlot r a true with
      | (none, t) => (l, false, t)
      | (some i, t) =>
        State.gatherSlots r a enough n (l ++ [t.slotIn r i]) (t.releaseSlot r i)

/-- Slots as a unit of a Mill uses their values: the bytes and the bias of a poisoned slot are free (R82). -/
def State.freePoison : List SlotIn → State → List SlotIn × State
  | [], s => ([], s)
  | x :: l, s =>
    let b := s.freshBytes (x.bytes.length + 1)
    let y := if x.poison then ({ x with bytes := b.1.drop 1, bias := b.1.headD 0 }, b.2) else (x, s)
    let z := State.freePoison l y.2
    (y.1 :: z.1, z.2)

/-- Whether some unit of an agent waits at a ring. -/
def State.waitsAtRing (s : State) (p : RingAgent → Bool) : Bool :=
  s.hamlets.cells.any fun m => m.2.rings.cells.any fun r => r.2.waiters.any fun w => p w.agent

end Sys2Proof.Machine
end

