-- ==== Sys2Proof/Machine/HostError.lean ====
section
/-! DEFINITION. Host errors whose whole effect the manual calls unpredictable (R128, R150, R216): any value or effect confined to the state
of the offending job and the memory of its household (R13). The values are constants without a body, so nothing can be proved of them (log
entry 7). -/

namespace Sys2Proof

/-! Any state of a unit, and any bytes at any addresses. -/

/-- Any state of a Mill. -/
opaque Config.anyMill : Nat → Machine.Mill
/-- Any state of a Hand. -/
opaque Config.anyHand : Nat → Machine.Hand
/-- Any indices and slot states of a ring. -/
opaque Config.anyRing : Nat → Machine.Ring
/-- Any state of a Tally unit. -/
opaque Config.anyTally : Nat → Machine.Tally
/-- Any state of a Porter. -/
opaque Config.anyPorter : Nat → Machine.Porter
/-- Any histogram, descriptor and result of a Press engine. -/
opaque Config.anyPress : Nat → Machine.Press
/-- Any buffer, descriptor and result of a merge tree. -/
opaque Config.anyMerge : Nat → Machine.Merge
/-- Any bytes, each with the address to which it is written. -/
opaque Config.anyBytes : Nat → List (Nat × Byte)

namespace Machine

/-! ## The offending job -/

/-- An accumulator line whose residues agree with its values, so that the Finish stage reports no fault of the Mill (R13, R50). -/
def AccLine.settled (l : AccLine) : AccLine :=
  { l with elems := l.elems.map fun e =>
      { e with res := if e.mark || l.tag == .lns16 then noResidue else BitVec.ofNat 3 (residue e.val.toInt) } }

/-- A claimed descriptor slot of a ring of the job. -/
def ownSlot (j : Job) (d : Option DescSlot) : Option DescSlot := d.filter fun x => j.slots.contains (ringSlot x.slot.ring)

/-- A Porter descriptor whose issuer, where it has one, is a Hand of the job. -/
def PorterDesc.ofJob (j : Job) (d : PorterDesc) : PorterDesc := { d with issuer := d.issuer.filter fun h => j.slots.contains (handSlot h) }

/-- Any state of a Mill in place of `o`; a retirement that is pending is the device's and stays. -/
def Mill.any (j : Job) (c : Nat) (o : Mill) : Mill :=
  let x := Config.anyMill c
  { x with acc := x.acc.mapV fun _ l => l.settled, dslot := ownSlot j x.dslot, retirePending := o.retirePending }

/-- Any state of a Hand in place of `o`. -/
def Hand.any (c : Nat) (o : Hand) : Hand := { Config.anyHand c with hamlet := o.hamlet }

/-- Any indices and slot states of a ring in place of those of `o`; its place, its waiters and its far end stay. -/
def Ring.any (c : Nat) (o : Ring) : Ring :=
  let x := Config.anyRing c
  { o with head := x.head % o.size, claim := x.claim % o.size, pub := x.pub % o.size, rsv := x.rsv % o.size, seq := x.seq, slots := x.slots }

/-- Any state of a Porter, with descriptors of the job. -/
def Porter.any (j : Job) (c : Nat) : Porter :=
  let x := Config.anyPorter c
  { x with
    queue := x.queue.map (PorterDesc.ofJob j)
    cur := x.cur.map fun y => { y with desc := y.desc.ofJob j }
    run := x.run.map fun y => { y with desc := y.desc.ofJob j } }

/-- Any state of the units, rings and counters of a hamlet; its power, fence and retirement are the device's and stay. -/
def Hamlet.any (j : Job) (c : Nat) (o : Hamlet) : Hamlet :=
  { o with
    mills := (List.range 4).foldl (fun t i => t.set i (Mill.any j (c + i) (o.mills.get {} i))) {}
    hands := (List.range 4).foldl (fun t i => t.set i (Hand.any (c + i) (o.hands.get {} i))) {}
    rings := o.rings.mapV fun i r => Ring.any (c + i) r
    tallies := (List.range 2).foldl (fun t i => t.set i (Config.anyTally (c + i))) {}
    porters := (List.range 2).foldl (fun t i => t.set i (Porter.any j (c + i))) {}
    bells := (List.range 64).foldl (fun t i => t.set i ((Config.freeWord (c + i)).setWidth 32)) {} }

/-- Whether the registers of the Porters and the Tally units of a parish are a job's: it is the first there (log entry 20). -/
def State.parishServes (s : State) (p : ParishRef) (n : Nat) : Bool := (s.jobOfParish p).any fun j => j.1 == n

/-- A parish Porter with any descriptors of job `n` in place of those it holds of that job, and with any registers where they are the job's; what
it holds of another job stays (R13). -/
def State.anyPorter (s : State) (n : Nat) (j : Job) (c : Nat) (p : PorterRef) (own : Bool) : Porter :=
  let o := s.porter p
  let x := Porter.any j c
  let mine (d : PorterDesc) : Bool := (s.jobOfPorter p d.issuer).any fun k => k.1 == n
  { (if own then x else o) with
    queue := o.queue.filter (fun d => !mine d) ++ x.queue.filter mine
    cur := if (o.cur.any fun y => !mine y.desc) then o.cur else x.cur.filter fun y => mine y.desc
    run := if (o.run.any fun y => !mine y.desc) then o.run else x.run.filter fun y => mine y.desc }

/-- Any state of the units of a parish that work for job `n`: what its Porters hold of it, its engines, and its Tally units. -/
def State.anyParish (s : State) (n : Nat) (j : Job) (c : Nat) (p : ParishRef) (o : Parish) : Parish :=
  let x := Config.anyPress c
  let y := Config.anyMerge c
  let own := s.parishServes p n
  { o with
    porters := (List.range 4).foldl (fun t i => t.set i (s.anyPorter n j (c + i) (.parish p.die p.par i) own)) {}
    tallies := if own then (List.range 2).foldl (fun t i => t.set i (Config.anyTally (c + i))) {} else o.tallies
    press := if j.asksEngine p .press then
        { o.press with done := x.done, errors := x.errors, hist := x.hist, dslot := ownSlot j x.dslot, cur := x.cur, run := x.run }
      else o.press
    merge := if j.asksEngine p .merge then
        { o.merge with done := y.done, errors := y.errors, buffer := y.buffer, dslot := ownSlot j y.dslot, cur := y.cur, run := y.run }
      else o.merge }

/-- Whether a byte of memory belongs to the household of a job: to a hamlet or granule of a job of it, or to a page that it may write
(R13). -/
def State.memoryOf (s : State) (j : Job) (a : Nat) : Bool :=
  let ours := fun p : Job → Bool => s.jobs.cells.any fun c => c.2.live && c.2.household == j.household && p c.2
  match slotOfAddr a with
  | some m => decide ((a - sramBase) % 0x40000000 % 0x800000 < padBytes) && ours fun k => k.slots.contains m
  | none =>
    if isSram a then
      let o := a - sramBase
      ours fun k => k.granules.any fun g => g.1.die == o / 0x40000000 && g.1.par * 40 + g.2 == o % 0x40000000 / 0x100000
    else
      (s.ptesOf j.household).any fun e => pteWrite e.2 && s.dieLocal (ptePage e.2 * pageBytes + a % pageBytes) == some a

/-- The memory of a job and of its household with any bytes in it. -/
def State.anyMemory (s : State) (j : Job) (c : Nat) : Memory :=
  (Config.anyBytes c).foldl (fun m x => if s.memoryOf j x.1 then m.write x.1 x.2 else m) s.mem

/-- How many free values a host error takes. -/
def hostErrorValues : Nat := 64

/-- The state of a job and the memory of its household after an unpredictable effect (R13). -/
def State.unpredictable (s : State) (n : Nat) (j : Job) : State :=
  let c := s.freeCtr
  let a := j.slots.foldl (fun t m => t.modHamlet m fun x => x.any j (c + hostErrorValues * slotKey m.die m.slot)) { s with mem := s.anyMemory j c }
  let b := j.unitParishes.foldl
    (fun t p => t.modParish p fun x => s.anyParish n j (c + hostErrorValues * (256 + parKey p)) p x) a
  { b with freeCtr := c + hostErrorValues * 512 }

/-- A host error of a job, whose whole effect is unpredictable (R13). Where there is no job, nothing happens: there is no state for the effect
to touch. -/
def State.jobError (s : State) (x : Option (Nat × Job)) : State :=
  match x with
  | some (n, j) => s.unpredictable n j
  | none => s

/-- A host error of the job that holds a hamlet. -/
def State.hostError (s : State) (m : HamletRef) : Res :=
  .next ((s.jobError (s.jobAt m)).busy m)

end Machine

end Sys2Proof
end

