-- ==== Sys2Proof/Machine/Bells.lean ====
section
/-! DEFINITION. Bell counters (R180 to R183): adds on their way, their application, waits, and the carrying of an add to a bound
counter of another package (R327). -/

namespace Sys2Proof.Machine

/-- Every Bell counter of a job takes a free value: the job's Bell state after an add to a counter outside the job (R148, Table
14.5). -/
def State.freeBells (s : State) (j : Job) : State :=
  let fill : State → Placed → State := fun t p =>
    { t.modHamlet ⟨p.die, p.slot⟩ fun m =>
        { m with bells := ⟨(List.range 64).map fun c => (c, (Config.freeWord (t.freeCtr + c)).setWidth 32)⟩ } with
      freeCtr := t.freeCtr + 64 }
  j.places.foldl fill s

/-- An add sets out for a counter, in issue order of its source (R180). -/
def State.castBell (s : State) (src : BellSource) (dst : HamletRef) (ctr : Nat) (amount : Word32) : State :=
  { s with bellFlight := s.bellFlight ++ [⟨src, (dst, ctr % 64), amount⟩] }

/-- BELL_STATUS.FOREIGN of an issuing port (R180). -/
def State.foreignBell (s : State) (m : HamletRef) : State :=
  s.modHamlet m fun x => { x with err := { x.err with bellForeign := true } }

/-- An add from the agent of a job whose port is that of hamlet `m`: to a counter of the job; dropped where the hamlet named is not
placed for the household; unpredictable for the job's Bell state where it is another job's (R148, R180). -/
def State.sendBell (s : State) (j : Job) (m : HamletRef) (src : BellSource) (ref : Nat) (amount : Word32) : State :=
  match s.refKind j ref with
  | .job r => s.castBell src (ringSlot r) r.idx amount
  | .foreign => s.foreignBell m
  | .outside => s.freeBells j

/-- Whether a counter satisfies a target (R181). -/
def bellMet (counter target : Word32) : Bool := decide ((counter - target).toNat < 2 ^ 31)

/-- A waiting BWAIT that the counter's new value satisfies stays satisfied (R181). -/
def Hand.judgeBell (x : Hand) (ctr : Nat) (v : Word32) : Hand :=
  match x.wait with
  | .bell c t sat => if c = ctr ∧ bellMet v t = true then { x with wait := .bell c t true } else { x with wait := .bell c t sat }
  | _ => x

/-- The binding of a hamlet's counter to a counter of another package (R183). -/
def Job.bellBind (j : Job) (m : HamletRef) (ctr : Nat) : Option BindSpec :=
  (j.placeAt m).bind fun p => j.image.bellBinds.find? fun b => b.die == m.die && b.hamlet == p.logical && b.loc == ctr && decide (56 ≤ ctr)

/-- The add record of a Bell packet (R327). -/
def bellRecord (b : BindSpec) (amount : Word32) : List Byte :=
  toBytes 2 (b.rnum.toNat + b.rhamlet.toNat * 64 + b.rdie.toNat * 1024) ++ toBytes 2 0 ++ toBytes 2 (amount.toNat % 65536) ++
    List.replicate 10 0

/-- The BELL flit of a flow that waits in a list with room for one more record: the last of the flow, where it holds fewer than 14 (R327) and no
link has sent it. -/
def openFrame (l : List SentFlit) (p : Packet) : Option SentFlit :=
  (l.reverse.find? fun f => f.packet.cls == clsBell && f.packet.src == p.src && f.packet.srcDie == p.srcDie && f.packet.dst == p.dst &&
    f.packet.dstDie == p.dstDie && f.packet.household == p.household).filter fun f => decide (f.packet.len.toNat + 1 ≤ 13 * 16) && !f.sentOnce

/-- A frame with one more record. -/
def SentFlit.addRecord (f : SentFlit) (r : List Byte) : SentFlit :=
  let n := f.packet.len.toNat + 1
  { f with packet := { f.packet with len := BitVec.ofNat 12 (n + 15) }, part := slice (f.part.take n ++ r) 0 224 }

/-- A list of waiting flits with a record in one of them. -/
def packRecord (l : List SentFlit) (f : SentFlit) (r : List Byte) : List SentFlit := l.map fun g => if g = f then f.addRecord r else g

/-- A record joins the frame of its flow that waits to be sent, on its link or for a live one, so that the Landing packs the adds that wait when it
sends; else it begins a frame (R327). -/
def State.postBell (s : State) (p : Packet) : State :=
  let q := s.sliced p
  match s.linkFor q with
  | some l =>
    (match openFrame (s.landing l).out q with
    | some f => s.modLanding l fun x => { x with out := packRecord x.out f p.payload }
    | none => s.postPacket q)
  | none =>
    match openFrame s.stranded q with
    | some f => { s with stranded := packRecord s.stranded f p.payload }
    | none => s.postPacket q

/-- An add to a bound counter is also carried to the counter that it is bound to (R183). -/
def State.forwardBell (s : State) (m : HamletRef) (ctr : Nat) (amount : Word32) : State :=
  match s.jobAt m with
  | none => s
  | some (_, j) =>
    match j.bellBind m ctr with
    | none => s
    | some b => s.postBell { s.packetFrom m.die clsBell 6 b.coord b.rdie.toNat j.household 0 0 (bellRecord b amount) with jobSlice := some j.image.span }

/-- An add is applied to its counter modulo 2^32: it wakes the hamlet (R186), and the waits on the counter are judged (R181). An add
to a hamlet behind a raised fence is dropped (R187). -/
def State.applyBell (s : State) (a : BellAdd) : State :=
  let m := a.dst.1
  let c := a.dst.2
  if (s.hamlet m).fence != .lowered then s
  else
    let t := s.wake m
    let v := t.bell m c + a.amount
    (t.modHamlet m fun x => { x with bells := x.bells.set c v, hands := x.hands.mapV fun _ h => h.judgeBell c v }).forwardBell m c a.amount

/-- Whether an earlier add on its way has the same source and counter as add `n` (R180). -/
def State.bellBlocked (s : State) (n : Nat) (a : BellAdd) : Bool :=
  (s.bellFlight.take n).any fun b => b.src == a.src && b.dst == a.dst

/-- BELL_ADD_APPLY: add `n` of those on their way arrives, unless an earlier one of its source and counter is still on its way
(R180). -/
def execBellAddApply (n : Nat) (s : State) : Res :=
  match s.bellFlight[n]? with
  | none => .next s
  | some a => if s.bellBlocked n a then .next s else .next ({ s with bellFlight := s.bellFlight.eraseIdx n }.applyBell a)

/-- BWAIT_SATISFIED: a BWAIT whose condition has held once completes (R181, R182). -/
def execBwaitSatisfied (h : HandRef) (s : State) : Res :=
  match (s.hand h).wait with
  | .bell _ _ true => .next (s.retire h fun x => { x with wait := .none, stalled := false }.advance)
  | _ => .next s

/-- MCLK cycles after which a wait at a hamlet's ring or counter counts as stalled (Table 6.4). -/
def Hamlet.limit (m : Hamlet) : Nat := max m.waitLimit.toNat 1024

/-- The head Reeve counts a stall in the status record of the job at a hamlet (R175). -/
def State.countStall (s : State) (m : HamletRef) : State :=
  match s.jobAt m with
  | some (n, _) => s.modJob n fun j => { j with stalls := j.stalls + 1 }
  | none => s

/-- WAIT_STALL: a BWAIT has waited for the limit of its hamlet (R176). -/
def execWaitStall (h : HandRef) (s : State) : Res :=
  let x := s.hand h
  match x.wait with
  | .bell _ _ false =>
    if x.stalled = false ∧ (s.hamlet (handSlot h)).limit ≤ s.mclk - x.waitFrom then
      let t := s.modHamlet (handSlot h) fun m => { m with err := { m.err with waitStall := true } }
      .next (((t.modHand h fun y => { y with stalled := true }).raiseEvent h .ringStall).countStall (handSlot h))
    else .next s
  | _ => .next s

end Sys2Proof.Machine
end

