-- ==== Sys2Proof/Machine/MillQueue.lean ====
section
/-! DEFINITION. The queue of a Mill (R68, R86, R118 to R124): pushes, descriptor rings, dispatch, fences, digest tags, mode changes
and the class drain. -/

namespace Sys2Proof.Machine

/-! Fields of a descriptor (R104, R105). -/

/-- TYPE. -/
def descType (d : Vec) : Nat := fieldOf d 0 8
/-- TILE_ID. -/
def descTile (d : Vec) : Word32 := BitVec.ofNat 32 (fieldOf d 32 32)
/-- ACC_BASE. -/
def descBase (d : Vec) : Nat := fieldOf d 96 10
/-- M. -/
def descRows (d : Vec) : Nat := fieldOf d 106 11
/-- LOT_STREAM. -/
def descStream (d : Vec) : Nat := fieldOf d 128 32
/-- Whether bit fields, by low bit and length, are all zero. -/
def zeroFields (d : Vec) (l : List (Nat × Nat)) : Bool := l.all fun f => fieldOf d f.1 f.2 == 0

/-- The doubleword `n` of a descriptor. -/
def descDw (d : Vec) (n : Nat) : Word64 := BitVec.ofNat 64 (fieldOf d (64 * n) 64)

/-- The descriptors in bytes. -/
def descsOf (l : List Byte) : List Vec := (chunks 64 l).map vecOf

/-- Whether a TYPE is defined (Table 4.1). -/
def millTypeValid (t : Nat) : Bool := [0x01, 0x02, 0x03, 0x04, 0x08, 0x09, 0x10, 0x11].contains t

/-! Pushes and modes. -/

/-- A descriptor enters the queue and is counted (R120, R124). -/
def Mill.accept (x : Mill) (d : Vec) : Mill := { x with queue := x.queue ++ [d], accepted := x.accepted + 1 }

/-- What a ring reference names for the job at a hamlet. -/
def State.ringAt (s : State) (m : HamletRef) (ref : Nat) : RefKind :=
  match s.jobAt m with
  | some (_, j) => s.refKind j ref
  | none => .foreign

/-- The ring from which a Mill in RING mode fetches descriptors, where its DRING names one of the job (R122). -/
def State.descRing (s : State) (u : MillRef) : Option RingRef :=
  match (s.mill u).ringMode, s.ringAt (millSlot u) ((s.mill u).dring.toNat % 8192) with
  | true, .job r => some r
  | _, _ => none

/-- Whether the queue of a Mill is empty: no descriptor waits, and no descriptor-ring slot is claimed whose descriptors have not all
entered (R123). -/
def State.queueEmpty (s : State) (u : MillRef) : Bool :=
  (s.mill u).queue.isEmpty && ((s.mill u).dslot.all fun d => d.rest.isEmpty) &&
    !((s.descRing u).any fun r => (s.ring r).grants.any fun g => g.agent == .mill u 3)

/-- A pending change of MODE or DRING takes effect when the queue is empty (R123); the Mill then waits no longer at the old ring. -/
def State.applyMode (s : State) (u : MillRef) : State :=
  match (s.mill u).pendMode with
  | some (m, r) =>
    if s.queueEmpty u then
      (match s.descRing u with
      | some q => s.leaveRing q (.mill u 3)
      | none => s).modMill u fun x => { x with ringMode := m, dring := r, pendMode := none }
    else s
  | none => s

/-- A push that never waits: discarded with DROPPED in RING mode or where the queue is full (R121). -/
def Mill.push (x : Mill) (d : Vec) : Mill :=
  if x.ringMode = true ∨ 8 ≤ x.queue.length then { x with qstatus := { x.qstatus with dropped := true } } else x.accept d

/-- The descriptor that a store to the last doubleword of a push window pushes: what the window holds. Where two agents assembled in it, it
is free (R121, R128). -/
def State.winDesc (s : State) (win : Tab Word64) (by_ : List Writer) (w : Writer) : Vec × State :=
  if by_.all (· == w) then (ofLanes 64 ((List.range 8).map fun i => (win.get 0 i).toNat), s)
  else (vecOf (s.freshBytes 64).1, (s.freshBytes 64).2)

/-- A store to MILL_DESC_WIN7 (R121). -/
def State.pushMillWin (s : State) (u : MillRef) (w : Writer) (v : Word64) : State :=
  let t := s.applyMode u
  let x := t.mill u
  let d := t.winDesc (x.win.set 7 v) x.winBy w
  d.2.setMill u ({ x with win := x.win.set 7 v, winBy := [] }.push d.1)

/-- MILL_DESC_WIN_PUSH: the store of the Reeve, which the window serves (R121). -/
def execMillDescWinPush (u : MillRef) (v : Word64) (s : State) : Res := .next (s.pushMillWin u .reeve v)

/-- A write of MILL_QCTRL is held as a pending change (R123). -/
def Mill.writeQctrl (x : Mill) (v : Word64) : Mill :=
  let m := v.getLsbD 0
  let r := BitVec.ofNat 16 (fieldOf v 8 16)
  if m = x.ringMode ∧ r = x.dring then { x with pendMode := none } else { x with pendMode := some (m, r) }

/-- A register value as a write acts on it: a free value where it sets a RSVD bit (R10, R404, log entry 7). -/
def State.regValue (s : State) (reserved v : Word64) : Word64 × State :=
  if v &&& reserved = 0 then (v, s) else (s.fresh.1 &&& ~~~reserved, s.fresh.2)

/-- RSVD bits of MILL_QCTRL, those of the ring reference in DRING among them (R106). -/
def qctrlReserved : Word64 := ~~~0x1fff01#64

/-- MILL_QCTRL_WRITE (R123). -/
def execMillQctrlWrite (u : MillRef) (v : Word64) (s : State) : Res :=
  let w := s.regValue qctrlReserved v
  .next (w.2.modMill u fun x => x.writeQctrl w.1)

/-- MODE_CHANGE_APPLY (R123). -/
def execModeChangeApply (u : MillRef) (s : State) : Res := .next (s.applyMode u)

/-! Rejections. -/

/-- HALTED clears when the four error bits are clear (R124). -/
def MillQStatus.settle (q : MillQStatus) : MillQStatus :=
  if q.badType || q.poisonDesc || q.shortSlot || q.foreign then q else { q with halted := false }

/-- W1C of MILL_QSTATUS. -/
def Mill.writeQstatus (x : Mill) (v : Word64) : Mill :=
  let q := x.qstatus
  { x with qstatus := ({ dropped := q.dropped && !v.getLsbD 1, badType := q.badType && !v.getLsbD 2
                         poisonDesc := q.poisonDesc && !v.getLsbD 3, shortSlot := q.shortSlot && !v.getLsbD 4
                         halted := q.halted, foreign := q.foreign && !v.getLsbD 6 } : MillQStatus).settle }

/-- RSVD bits of MILL_QSTATUS. -/
def qstatusReserved : Word64 := 0xffffff80

/-- HALTED_CLEAR: a write to MILL_QSTATUS (R124). -/
def execHaltedClear (u : MillRef) (v : Word64) (s : State) : Res :=
  let w := s.regValue qstatusReserved v
  .next (w.2.modMill u fun x => x.writeQstatus w.1)

/-- A rejection: MILL_BAD_DESC takes the first since HALTED last cleared, HALTED is set and a Mill event raised (R124). -/
def State.rejectMill (s : State) (u : MillRef) (dw0 : Word64) (f : MillQStatus → MillQStatus) : State :=
  (s.modMill u fun x =>
    { x with badDesc := if x.qstatus.halted then x.badDesc else dw0, qstatus := { f x.qstatus with halted := true } }).millEvent u .mill

/-! RING mode (R122). -/

/-- Descriptors of a claimed slot enter the queue while there is room; the slot is released after the last, or waits for good for its release where
the ring is disabled then (R178). -/
def State.unpackSlot (s : State) (u : MillRef) : State :=
  let x := s.mill u
  match x.dslot with
  | none => s
  | some ds =>
    let n := 8 - x.queue.length
    let y := (ds.rest.take n).foldl Mill.accept x
    if ds.rest.length ≤ n then
      (if (s.ring ds.slot.ring).enable && !ds.dead then (s.setMill u { y with dslot := none }).releaseSlot ds.slot.ring ds.slot.idx
      else s.setMill u { y with dslot := some { ds with rest := [], dead := true } })
    else s.setMill u { y with dslot := some { ds with rest := ds.rest.drop n } }

/-- Whether the payload of a descriptor-ring slot breaks R122: empty, or not a multiple of 64 bytes. -/
def shortPayload (l : List Byte) : Bool := decide (l.length = 0) || decide (l.length % 64 ≠ 0)

/-- The checks of a claimed slot (R124). MILL_BAD_DESC takes the first 8 payload bytes, with zeros for those that a shorter payload does not
have (log entry 101). -/
def State.takeDescSlot (s : State) (u : MillRef) (r : RingRef) (i : Nat) : State :=
  let x := s.slotIn r i
  let dw0 := BitVec.ofNat 64 (recNat x.bytes 0 8)
  if x.poison || shortPayload x.bytes then
    (s.rejectMill u dw0 fun q =>
      { q with poisonDesc := q.poisonDesc || x.poison, shortSlot := q.shortSlot || shortPayload x.bytes }).releaseSlot r i
  else (s.modMill u fun m => { m with dslot := some { slot := ⟨r, i⟩, rest := descsOf x.bytes } }).unpackSlot u

/-- MILL_RING_FETCH (R122, R124). A ring that was refused is tried again once FOREIGN is clear; a halt for another reason stops dispatch and not
the fetch (log entry 128). -/
def execMillRingFetch (u : MillRef) (s : State) : Res :=
  let t := s.applyMode u
  let x := t.mill u
  if (s.hamlet (millSlot u)).power ≠ .active ∨ x.ringMode = false then .next s
  else if x.dslot.isSome then .next (t.unpackSlot u)
  else if x.qstatus.foreign then .next t
  else
    match t.ringAt (millSlot u) (x.dring.toNat % 8192) with
    | .outside => t.hostError (millSlot u)
    | .foreign => .next ((t.foreignRing (millSlot u)).rejectMill u 0 fun q => { q with foreign := true })
    | .job r =>
      match t.engineSlot r (.mill u 3) true with
      | (none, v) => .next v
      | (some i, v) => .next ((v.takeDescSlot u r i).busy (millSlot u))

/-! Dispatch (R68, R118 to R120). -/

/-- The descriptor that dispatch takes next, while the Mill is not halted and its hamlet runs. -/
def State.nextDesc (s : State) (u : MillRef) : Option Vec :=
  let x := s.mill u
  if (s.hamlet (millSlot u)).power = .active ∧ x.qstatus.halted = false then x.queue.head? else none

/-- The oldest descriptor leaves the queue. -/
def Mill.pop (x : Mill) : Mill := { x with queue := x.queue.drop 1 }

/-- The oldest descriptor enters a unit queue of at most four, with its dispatch number and the digest tag (R68, R119). -/
def Mill.dispatch (x : Mill) (d : Vec) : Mill :=
  let e : Dispatched := ⟨x.nextSeq, d, x.layer⟩
  let y := { x.pop with nextSeq := x.nextSeq + 1 }
  let t := descType d
  if t = 0x01 then (if x.loadQ.length < 4 then { y with loadQ := x.loadQ ++ [e] } else x)
  else if t ≤ 0x04 then (if x.compQ.length < 4 then { y with compQ := x.compQ ++ [e] } else x)
  else if x.finQ.length < 4 then { y with finQ := x.finQ ++ [e] }
  else x

/-- MILL_DISPATCH: the oldest descriptor goes to the queue of its unit; a reserved TYPE is rejected (R120, R124). FENCE and
DIGEST_TAG act at dispatch in their own steps. -/
def execMillDispatch (u : MillRef) (s : State) : Res :=
  match s.nextDesc u with
  | none => .next s
  | some d =>
    if !millTypeValid (descType d) then
      .next (((s.modMill u Mill.pop).rejectMill u (descDw d 0) fun q => { q with badType := true }).busy (millSlot u))
    else if 0x10 ≤ descType d then .next s
    else .next ((s.modMill u fun x => x.dispatch d).busy (millSlot u))

/-- Whether every descriptor already dispatched to the units that a FENCE names has completed (R118). -/
def Mill.fenceMet (x : Mill) (d : Vec) : Bool :=
  (!d.getLsbD 8 || (x.loadQ.isEmpty && x.loadRun.isNone)) && (!d.getLsbD 9 || (x.compQ.isEmpty && x.compRun.isNone)) &&
    (!d.getLsbD 10 || (x.finQ.isEmpty && x.finRun.isNone))

/-- Whether the fields of a FENCE are valid (Table 4.8). -/
def fenceValid (d : Vec) : Bool :=
  zeroFields d [(13, 19), (64, 96), (173, 3), (192, 320)] &&
    (if d.getLsbD 12 then fieldOf d 176 16 != 0 else zeroFields d [(160, 32)])

/-- FENCE: when its waits are met, the token, the Bell add and the fence event, in that order (R118). -/
def execFence (u : MillRef) (s : State) : Res :=
  match s.nextDesc u with
  | none => .next s
  | some d =>
    if descType d ≠ 0x10 then .next s
    else if !fenceValid d then s.hostError (millSlot u)
    else if !(s.mill u).fenceMet d then .next s
    else
      let t := s.modMill u fun x => { x.pop with fenceToken := descTile d, fences := x.fences + 1 }
      let v := if d.getLsbD 12 then
          (match t.jobAt (millSlot u) with
          | some (_, j) => t.sendBell j (millSlot u) (.mill u) (fieldOf d 160 13) (BitVec.ofNat 32 (fieldOf d 176 16))
          | none => t.foreignBell (millSlot u))
        else t
      .next ((if d.getLsbD 11 then v.millEvent u .fence else v).busy (millSlot u))

/-- DIGEST_TAG sets MILL_LAYER (R119). -/
def execDigestTag (u : MillRef) (s : State) : Res :=
  match s.nextDesc u with
  | none => .next s
  | some d =>
    if descType d ≠ 0x11 then .next s
    else if !zeroFields d [(8, 24), (64, 448)] then s.hostError (millSlot u)
    else .next ((s.modMill u fun x => { x.pop with layer := descTile d }).busy (millSlot u))

/-! The class drain (R86). -/

/-- Arithmetic class of a compute descriptor. -/
def classOf (d : Vec) : MillClass := if descType d = 0x04 then .logarithmic else .integer

/-- Whether the compute descriptor that is next needs a drain: its class is the other one. -/
def Mill.needsDrain (x : Mill) (d : Vec) : Bool := decide (x.cls ≠ .none) && decide (x.cls ≠ classOf d)

/-- CLASS_DRAIN: the Mill drains before a compute descriptor of the other class (R86). -/
def execClassDrain (u : MillRef) (s : State) : Res :=
  let x := s.mill u
  match x.compRun, x.compQ with
  | none, d :: _ => if (s.hamlet (millSlot u)).power = .active ∧ x.needsDrain d.desc = true then .next ((s.setMill u { x with draining := true }).busy (millSlot u)) else .next s
  | _, _ => .next s

end Sys2Proof.Machine
end

