-- ==== Sys2Proof/Machine/PressCode.lean ====
section
/-! DEFINITION. The Press codec (R224 to R232, R240, R428): code tables, blocks and the package's table slots. -/

namespace Sys2Proof.Machine

/-! Code tables. -/

/-- The code length of every exponent in a table image (R227). -/
def tableLengths (image : List Byte) : List Nat := image.flatMap fun b => [b.toNat % 16, b.toNat / 16]

/-- The image of 256 code lengths (R227). -/
def tableImage (ls : List Nat) : List Byte :=
  (List.range 128).map fun i => BitVec.ofNat 8 (ls.getD (2 * i) 0 + 16 * ls.getD (2 * i + 1) 0)

/-- A valid image: lengths 0 to 12, at least one coded exponent, and the sum of 2^(-length) at most 1 (R227). -/
def tableValid (image : List Byte) : Bool :=
  let ls := tableLengths image
  let coded := ls.filter fun l => l != 0
  decide (image.length = 128) && ls.all (fun l => decide (l ≤ 12)) && !coded.isEmpty &&
    decide ((coded.map fun l => 2 ^ (12 - l)).sum ≤ 4096)

/-- The tag of a table (R227). -/
def tableTag (image : List Byte) : Nat := crc32c image % 65536

/-- Code length of an exponent in the default table (Table 8.2). -/
def defaultLength (e : Nat) : Nat :=
  if e = 0 then 3
  else if 112 ≤ e ∧ e ≤ 127 then 5
  else if 104 ≤ e ∧ e ≤ 111 then 6
  else if (96 ≤ e ∧ e ≤ 103) ∨ (128 ≤ e ∧ e ≤ 135) then 7
  else 12

/-- The default table, slot 0 (Table 8.2). -/
def defaultImage : List Byte := tableImage ((List.range 256).map defaultLength)

/-- The first code and the exponents of every length from `len` on, given the code and count of the length before (R228). -/
def codeGroups (ls : List Nat) : Nat → Nat → Nat → Nat → List (Nat × List Nat)
  | 0, _, _, _ => []
  | n + 1, len, code, before =>
    let first := 2 * (code + before)
    let es := (List.range 256).filter fun e => ls.getD e 0 == len
    (first, es) :: codeGroups ls n (len + 1) first es.length

/-- The canonical code of a table: for each length 1 to 12 its first code and its exponents in order (R228). -/
def tableCode (image : List Byte) : List (Nat × List Nat) := codeGroups (tableLengths image) 12 1 0 0

/-- The bits of an exponent's code, most significant first. -/
def codeBits (len code : Nat) : List Bool := (List.range len).map fun i => bitAt code (len - 1 - i)

/-- The code of an exponent; none where it is not coded. -/
def encodeExp : List (Nat × List Nat) → Nat → Nat → Option (List Bool)
  | [], _, _ => none
  | (first, es) :: t, len, e =>
    match es.findIdx? fun x => x == e with
    | some i => some (codeBits len (first + i))
    | none => encodeExp t (len + 1) e

/-- The exponent that a bit stream begins with and the rest of the stream; none where it begins with no code. -/
def decodeExp : List (Nat × List Nat) → Nat → List Bool → Option (Nat × List Bool)
  | [], _, _ => none
  | _ :: _, _, [] => none
  | (first, es) :: t, code, b :: bs =>
    let c := 2 * code + flag b
    match (if first ≤ c then es[c - first]? else none) with
    | some e => some (e, bs)
    | none => decodeExp t c bs

/-- `n` exponents of a bit stream and the rest of it. -/
def decodeExps (g : List (Nat × List Nat)) : Nat → List Bool → Option (List Nat × List Bool)
  | 0, bs => some ([], bs)
  | n + 1, bs => (decodeExp g 0 bs).bind fun x => (decodeExps g n x.2).map fun y => (x.1 :: y.1, y.2)

/-- The bits of bytes, bit 0 of each first (R225). -/
def bitsOfBytes (l : List Byte) : List Bool := l.flatMap fun b => (List.range 8).map fun i => b.getLsbD i

/-- Bytes filled from bit 0 upward, the last padded with zero bits (R225). -/
def bytesOfBits (l : List Bool) : List Byte :=
  (chunks 8 l).map fun c => BitVec.ofNat 8 ((c.zipIdx.map fun x => if x.1 then 2 ^ x.2 else 0).sum)

/-- The least length of at least 1 for which the weight times 2^length reaches the total (R229). -/
def buildLength (w total : Nat) : Nat := ((List.range 64).find? fun l => decide (total ≤ w * 2 ^ (l + 1))).getD 63 + 1

/-- The table that BUILD forms from a histogram of 256 counters; none from an empty one (R229). -/
def buildTable (h : List Nat) : Option (List Byte) :=
  let t := h.sum
  let ws := h.map fun x => if x = 0 then 0 else 2048 * x + t
  if t = 0 then none else some (tableImage (ws.map fun w => if w = 0 then 0 else buildLength w ws.sum))

/-! Table slots (R230). -/

/-- The image in a slot; slot 0 holds the default table. -/
def State.pressImage (s : State) (slot : Nat) : Option (List Byte) :=
  if slot = 0 then some defaultImage else (s.pressSlots.find slot).bind (·.image)

/-- Whether a household owns a slot. -/
def State.ownsSlot (s : State) (hh slot : Nat) : Bool :=
  match s.pressSlots.find slot with
  | some x => x.owner == hh
  | none => false

/-- The image with which a household may decode a block of a slot (R230). -/
def State.imageFor (s : State) (hh slot : Nat) : Option (List Byte) :=
  if slot = 0 ∨ s.ownsSlot hh slot = true then s.pressImage slot else none

/-- Table writes on their way that come to an end: their engines wait for them no more (R231). -/
def State.dropWrites (s : State) (p : SlotWrite → Bool) : State :=
  let l := (s.pressPend.filter p).filterMap (·.by_)
  { s with
    pressPend := s.pressPend.filter fun w => !p w
    parishes := s.parishes.mapV fun k y => if l.any fun q => parKey q == k then { y with press := { y.press with installing := false } } else y }

/-- PRESS_SLOTS.LOADED (Table 8.6). -/
def State.loadedSlots (s : State) : Nat := ((List.range 16).map fun k => if (s.pressImage k).isSome then 2 ^ k else 0).sum

/-! Blocks (Table 8.1). -/

/-- The length field of a block's header. -/
def blockLen (b : List Byte) : Nat := bitsOf (recNat b 4 4) 16 13

/-- The number of values that a block's header names. -/
def blockCount (b : List Byte) : Nat := bitsOf (recNat b 0 4) 8 11 + 1

/-- Whether LEN lets the next block be found (R428). -/
def lenUsable (n : Nat) : Bool := decide (n % 4 = 0) && decide (16 ≤ n) && decide (n ≤ 4112)

/-- The values of a CODED payload of `c` values under a table; none where R225 or R240 is broken. -/
def decodeCoded (image : List Byte) (c : Nat) (p : List Byte) : Option (List Nat) :=
  let raw := p.take c
  (decodeExps (tableCode image) c (bitsOfBytes (p.drop c))).bind fun x =>
    let used := 8 * (p.length - c) - x.2.length
    if raw.length = c ∧ x.2.any id = false ∧ p.length = 4 * ceilDiv (c + ceilDiv used 8) 4 then
      some (List.zipWith (fun (r : Byte) e => r.toNat / 128 * 2 ^ 15 + e * 2 ^ 7 + r.toNat % 128) raw x.1)
    else none

/-- The values of a STORED payload of `c` values. -/
def decodeStored (c : Nat) (p : List Byte) : Option (List Nat) :=
  if p.length = 4 * ceilDiv (2 * c) 4 ∧ (p.drop (2 * c)).all (fun b => b == 0) = true then some (words 2 (p.take (2 * c))) else none

/-- The values of a whole block; none where it is damaged (R240). `image` is what the consumer may use of each slot. -/
def decodeBlock (image : Nat → Option (List Byte)) (b : List Byte) : Option (List Nat) :=
  let w0 := recNat b 0 4
  let w1 := recNat b 4 4
  let c := blockCount b
  let plain := decide (bitsOf w0 6 2 = 0) && decide (bitsOf w0 19 13 = 0) && decide (bitsOf w1 29 3 = 0) &&
    decide (recNat b 12 4 = 0) && decide (b.length = blockLen b)
  let vals :=
    if bitsOf w0 0 2 = 0 then
      (image (bitsOf w0 2 4)).bind fun t => if tableTag t = bitsOf w1 0 16 then decodeCoded t c (b.drop 16) else none
    else if bitsOf w0 0 2 = 1 ∧ bitsOf w0 2 4 = 0 ∧ bitsOf w1 0 16 = 0 then decodeStored c (b.drop 16)
    else none
  vals.bind fun v =>
    if plain = true ∧ crc32c (v.flatMap (toBytes 2)) = recNat b 8 4 then some v else none

/-- A block's header (Table 8.1). -/
def blockHeader (mode table c tag len crc : Nat) : List Byte :=
  toBytes 4 (mode + table * 4 + (c - 1) * 2 ^ 8) ++ toBytes 4 (tag + len * 2 ^ 16) ++ toBytes 4 crc ++ toBytes 4 0

/-- Encode up to 2,048 values (R225, R226): CODED under the table given where every exponent has a code and the block is smaller,
else STORED. -/
def encodeBlock (table : Option (Nat × List Byte)) (v : List Nat) : List Byte :=
  let dense := v.flatMap (toBytes 2)
  let crc := crc32c dense
  let stored := blockHeader 1 0 v.length 0 (16 + (padTo 4 dense).length) crc ++ padTo 4 dense
  match table with
  | none => stored
  | some (slot, image) =>
    match v.mapM fun x => encodeExp (tableCode image) 1 (bitsOf x 7 8) with
    | none => stored
    | some codes =>
      let p := padTo 4 ((v.map fun x => BitVec.ofNat 8 (x / 2 ^ 15 * 128 + x % 128)) ++ bytesOfBits codes.flatten)
      if p.length < (padTo 4 dense).length then blockHeader 0 slot v.length (tableTag image) (16 + p.length) crc ++ p else stored

end Sys2Proof.Machine
end

