-- ==== Sys2Proof/Machine/MillData.lean ====
section
/-! DEFINITION. The load and compute units of a Mill (R69 to R86, R95, R96, R107 to R111): interlocks, operands, tiles and sums. -/

namespace Sys2Proof.Machine

/-! ## Errors (R82, R96, R102, R103) -/

/-- CAUSE of MILL_FIRST_ERR (Table 3.11). -/
def causeOperand : BitVec 3 := 1
def causePoison : BitVec 3 := 2
def causeScale : BitVec 3 := 3
def causeResidue : BitVec 3 := 4
def causeFinish : BitVec 3 := 5

/-- MILL_FIRST_ERR keeps the first error. -/
def Mill.firstError (x : Mill) (cause : BitVec 3) (tile : Word32) (row : Nat) : Mill :=
  if x.firstErr.cause = 0 then { x with firstErr := { tile := tile, cause := cause, row := BitVec.ofNat 10 row } } else x

/-- An error that raises a Mill event: a sticky bit, the first-error record and the event (R82, R103). -/
def State.millError (s : State) (u : MillRef) (f : MillSticky → MillSticky) (cause : BitVec 3) (tile : Word32) (row : Nat) : State :=
  (s.modMill u fun x => { x with sticky := f x.sticky }.firstError cause tile row).millEvent u .mill

/-- EXP_ERR and POISON_IN. -/
def setExpErr (k : MillSticky) : MillSticky := { k with expErr := true }
def setPoisonIn (k : MillSticky) : MillSticky := { k with poisonIn := true }

/-- A residue record of the Logbook (R96, Table 14.3 class 3). -/
def State.residueLog (s : State) (u : MillRef) (severity event : Nat) : State :=
  let j := s.jobAt (millSlot u)
  s.logEvent { cls := 3, severity := severity, die := u.die, place := u.slot, event := event
               household := (j.map fun x => x.2.household).getD 0, job := (j.map Prod.fst).getD 0 }

/-! ## Interlocks (R69, R114) -/

/-- Accumulator lines per row of a compute descriptor (Table 3.2). -/
def linesPerRow (d : Vec) : Nat := if descType d = 0x04 then 1 else if descType d = 0x02 ∧ d.getLsbD 9 = true then 4 else 2

/-- Whether a descriptor has the transposed shape. -/
def descWide (d : Vec) : Bool := if 0x08 ≤ descType d then d.getLsbD 8 else linesPerRow d == 4

/-- First line and end of the lines that a descriptor counts as reading or writing (R69). -/
def lineSpan (d : Vec) : Nat × Nat :=
  let l := if 0x08 ≤ descType d then (if d.getLsbD 8 then 4 else 2) else linesPerRow d
  (descBase d, min (descBase d + l * descRows d) 1024)

/-- Whether the lines of two descriptors overlap. -/
def spansMeet (a b : Vec) : Bool := decide ((lineSpan a).1 < (lineSpan b).2) && decide ((lineSpan b).1 < (lineSpan a).2)

/-- The weight set from which a FINISH takes its scales (R112). -/
def finishSet (d : Vec) : Option Nat := if descType d = 0x08 ∧ (fieldOf d 26 2 = 1 ∨ fieldOf d 26 2 = 2) then some (fieldOf d 26 2 - 1) else none

/-- The descriptors that have been dispatched to a unit and have not completed. -/
def Mill.loads (x : Mill) : List Dispatched := (x.loadRun.map (·.d)).toList ++ x.loadQ
def Mill.computes (x : Mill) : List Dispatched := (x.compRun.map (·.d)).toList ++ x.compQ
def Mill.finishes (x : Mill) : List Dispatched := (x.finRun.map (·.d)).toList ++ x.finQ

/-- Whether some descriptor of a list that was dispatched before `e` satisfies a test. -/
def blocks (l : List Dispatched) (e : Dispatched) (p : Vec → Bool) : Bool := l.any fun o => decide (o.seq < e.seq) && p o.desc

/-- Whether a LOAD_W may start (R69, R114). -/
def Mill.loadFree (x : Mill) (e : Dispatched) : Bool :=
  let w := fieldOf e.desc 8 1
  !blocks x.computes e (fun d => fieldOf d 8 1 == w) && !blocks x.finishes e (fun d => finishSet d == some w)

/-- Whether a compute descriptor may start (R69). -/
def Mill.computeFree (x : Mill) (e : Dispatched) : Bool :=
  let w := fieldOf e.desc 8 1
  !blocks x.loads e (fun d => fieldOf d 8 1 == w) && !blocks x.finishes e (spansMeet e.desc)

/-- Whether a FINISH or RANGE may start (R69, R114). -/
def Mill.finishFree (x : Mill) (e : Dispatched) : Bool :=
  !blocks x.computes e (spansMeet e.desc) &&
    (match finishSet e.desc with
    | some w => !blocks x.loads e (fun d => fieldOf d 8 1 == w)
    | none => true)

/-- A Mill can work: its hamlet runs. -/
def State.millRuns (s : State) (u : MillRef) : Bool := decide ((s.hamlet (millSlot u)).power = .active)

/-! ## Operands -/

/-- Why input stopped: it has come whole, it waits at the ring, or the ring is refused (R82). -/
inductive Input
  | ready (l : List SlotIn)
  | waiting
  | refused
  | outside
deriving DecidableEq, Repr

/-- Input from a ring for a unit, continuing with what it has taken (R70, R107). Where the slots published at the time do not hold it all, the
unit waits at the slot boundary for those that follow (R70; log entry 129 says how Table 4.13 is read). -/
def State.input (s : State) (u : MillRef) (unit ref : Nat) (taken : List SlotIn) (enough : List SlotIn → Bool) : Input × List SlotIn × State :=
  match s.ringAt (millSlot u) ref with
  | .foreign => (.refused, taken, s.foreignRing (millSlot u))
  | .outside => (.outside, taken, s)
  | .job r =>
    let g := State.gatherSlots r (.mill u unit) enough ((s.ring r).size + 1) taken s
    if g.2.1 then (.ready g.1, g.1, g.2.2) else (.waiting, g.1, g.2.2)

/-- The bytes of some slots. -/
def allBytes (l : List SlotIn) : List Byte := l.flatMap (·.bytes)

/-- Whether a slot is poisoned. -/
def anyPoison (l : List SlotIn) : Bool := l.any (·.poison)

/-- For every byte of some slots, whether its slot is poisoned. -/
def poisonMap (l : List SlotIn) : List Bool := l.flatMap fun x => List.replicate x.bytes.length x.poison

/-- The signed bias of a byte. -/
def biasOf (b : Byte) : Int := b.toInt

/-! ## LOAD_W (R71, R81, R82, R108) -/

/-- KIND of a LOAD_W. -/
def loadKind (d : Vec) : Nat := fieldOf d 9 3

/-- Whether the fields of a LOAD_W are valid (Table 4.2). -/
def loadValid (d : Vec) : Bool :=
  zeroFields d [(13, 3), (24, 8), (77, 3), (80, 432)] && decide (loadKind d ≤ 4) &&
    (if loadKind d < 3 then zeroFields d [(12, 1), (16, 8)] else !d.getLsbD 12 || zeroFields d [(16, 8)])

/-- The length of an SP16 source: 256 bytes of scales and the columns that their LEN fields end (R82); none while it is not
known. -/
def sp16End (l : List Byte) : Nat → Nat → Option Nat
  | 0, pos => if pos ≤ l.length then some pos else none
  | n + 1, pos => if l.length < pos + 4 then none else sp16End l n (pos + 4 * sp16Words (bitsOf (recNat l pos 4) 16 8))

/-- The blocks of a Press stream that give `want` values: offset and length of each; the last has no length where its LEN is not usable
(R428). None while a block is not there whole. The fuel is the number of values. -/
def pressBlocks (l : List Byte) : Nat → Nat → Nat → Option (List (Nat × Option Nat))
  | 0, _, _ => some []
  | fuel + 1, pos, want =>
    if want = 0 then some []
    else if l.length < pos + 16 then none
    else
      let b := slice l pos 16
      let n := blockLen b
      if lenUsable n = false then some [(pos, none)]
      else if l.length < pos + n then none
      else (pressBlocks l fuel (pos + n) (want - blockCount b)).map fun t => (pos, some n) :: t

/-- The end of the bytes that a Press source takes: whole slots to its last block, and the rest of the slot of a block whose LEN is not
usable (R428). -/
def pressEnd (l : List Byte) (bs : List (Nat × Option Nat)) : Nat :=
  match bs.getLast? with
  | some (p, some n) => p + n
  | some (_, none) => l.length
  | none => 0

/-- How many bytes a LOAD_W takes of its source; none while this is not known or they have not come. -/
def loadEnd (kind : Nat) (l : List Byte) : Option Nat :=
  let fixed := fun n => if n ≤ l.length then some n else none
  match kind with
  | 0 => fixed 6912
  | 1 => sp16End l 128 256
  | 2 => fixed 32768
  | 3 => fixed 8192
  | _ => (pressBlocks l 8192 0 8192).map (pressEnd l)

/-- The columns of an SP16 source: offset and byte length of each. -/
def sp16Cols (l : List Byte) : Nat → Nat → List (Nat × Nat)
  | 0, _ => []
  | n + 1, pos =>
    let k := 4 * sp16Words (bitsOf (recNat l pos 4) 16 8)
    (pos, k) :: sp16Cols l n (pos + k)

/-- A free trit. -/
def freeTrit (c : Nat) : Trit := tritOfDigit ((Config.freeWord c).toNat % 3)

/-- What an expander made of a source: the tile, whether an element of it from an unpoisoned slot was an operand error, and whether a scale
of an unpoisoned slot was reserved (R82). -/
structure Loaded where
  tile : Tile
  bad : Bool
  badScale : Bool
deriving DecidableEq, Repr

/-- A packed column, and whether a byte breaks R41 or R42. -/
def packedCol (l : List Byte) : List Trit × Bool :=
  let ts := (List.range 52).map fun i => columnByte i (l.getD i 0)
  ((ts.flatMap fun x => x.getD (List.replicate 5 .zero)).take 256, ts.any Option.isNone)

/-- A ternary source: 128 scales, then 128 columns (R108). A scale with a RSVD bit set is free, from `c` on. -/
def loadTernary (kind : Nat) (l : List Byte) (pz : List Bool) (c : Nat) : Loaded :=
  let sc := (List.range 128).map fun n => cleanScale (c + n) (BitVec.ofNat 16 (recNat l (2 * n) 2))
  let spans := if kind = 0 then (List.range 128).map fun n => (256 + 52 * n, 52) else sp16Cols l 128 256
  let cols := spans.map fun x =>
    let r := if kind = 0 then packedCol (slice l x.1 x.2) else sp16Column (slice l x.1 x.2)
    (r.1, r.2 && !((pz.drop x.1).take x.2).any id)
  let badSc := sc.zipIdx.any fun x => (e8m3 x.1).1 == 255 && !(pz.getD (2 * x.2) false)
  { tile := .trit (cols.map Prod.fst) sc, bad := cols.any Prod.snd, badScale := badSc }

/-- A binary source: column n at bytes 256 n to 256 n + 255 (R108). -/
def loadBinary (l : List Byte) : Loaded :=
  { tile := .binary ((List.range 128).map fun n => bitsOfBytes (slice l (256 * n) 256)), bad := false, badScale := false }

/-- An LNS8 source: column n at codes 64 n to 64 n + 63 (R108). -/
def loadLns (codes : List Byte) (bias : Byte) (bad : Bool) : Loaded :=
  { tile := .lns ((List.range 128).map fun n => slice codes (64 * n) 64) bias, bad := bad, badScale := false }

/-- The values of one block of a Press source, none where it is damaged or its LEN is not usable (R240, R428). -/
def pressValues (image : Nat → Option (List Byte)) (l : List Byte) (b : Nat × Option Nat) : Option (List Nat) :=
  b.2.bind fun n => decodeBlock image (slice l b.1 n)

/-- A Press source: the first 8,192 values, as LNS8 under R58; a damaged block of an unpoisoned slot is an operand error (R81, R82). -/
def loadPress (image : Nat → Option (List Byte)) (l : List Byte) (bias : Byte) (pz : List Bool) : Loaded :=
  let bs := (pressBlocks l 8192 0 8192).getD []
  let vs := bs.map fun b => (b, pressValues image l b)
  let bad := vs.any fun x => x.2.isNone && !((pz.drop x.1.1).take (x.1.2.getD 16)).any id
  let vals := vs.flatMap fun x => x.2.getD []
  loadLns ((vals.take 8192).map fun v => (valToLns8 (decodeFp .bf16 v) (biasOf bias)).1) bias bad

/-- g_max and g'_max of a tile (R73, R76). -/
def Tile.density : Tile → Nat × Nat
  | .trit cols _ => (gMax cols, gPrimeMax cols)
  | _ => (0, 0)

/-- LOAD_W ends: the set is filled, or marked poisoned after an operand error or a poisoned input (R82). Of several errors of one descriptor
the first in MILL_FIRST_ERR is the poison, then the operand error, then the reserved scale, and none of them names a row (log entry 103). -/
def State.loadDone (s : State) (u : MillRef) (d : Vec) (x : Loaded) (poisoned refused : Bool) : State :=
  let g := x.tile.density
  let w : WeightSet := { tile := x.tile, gmax := g.1, gpmax := g.2, poisoned := poisoned || x.bad || x.badScale || refused }
  let t := s.modMill u fun m => { m with sets := m.sets.set (fieldOf d 8 1) w, loadRun := none }
  let a := if poisoned then t.millError u setPoisonIn causePoison (descTile d) 0 else t
  let b := if x.bad || refused then a.millError u setExpErr causeOperand (descTile d) 0 else a
  if x.badScale then b.millError u setExpErr causeScale (descTile d) 0 else b

/-- The tile that a LOAD_W makes of its bytes. -/
def State.expand (s : State) (u : MillRef) (d : Vec) (l : List SlotIn) : Loaded :=
  let hh := ((s.jobAt (millSlot u)).map fun j => j.2.household).getD 0
  let bias := if d.getLsbD 12 then (l.head?.map (·.bias)).getD 0 else BitVec.ofNat 8 (fieldOf d 16 8)
  let b := allBytes l
  match loadKind d with
  | 0 => loadTernary 0 b (poisonMap l) (s.freeCtr + 33280)
  | 1 => loadTernary 1 b (poisonMap l) (s.freeCtr + 33280)
  | 2 => loadBinary b
  | 3 => loadLns (b.take 8192) bias false
  | _ => loadPress (s.imageFor hh) b bias (poisonMap l)

/-- A tile whose every element is free, of the kind that a LOAD_W fills (R82, R128). -/
def freeTile (c kind : Nat) : Tile :=
  if kind < 2 then
    .trit ((List.range 128).map fun n => (List.range 256).map fun k => freeTrit (c + 256 * n + k))
      ((List.range 128).map fun n => (Config.freeWord (c + 32768 + n)).setWidth 16)
  else if kind = 2 then .binary ((List.range 128).map fun n => bitsOfBytes (freeBytes (c + 256 * n) 256))
  else .lns ((List.range 128).map fun n => freeBytes (c + 64 * n) 64) ((Config.freeWord (c + 32768)).setWidth 8)

/-- The part of a LOAD_W after its input has come: an operand error or a poisoned input leaves the tile unpredictable (R82); so does input that
ends inside a slot, which leaves the ring's later contents unpredictable too (R107, R128). Operand errors are reported in both cases. -/
def State.loadFinish (s : State) (u : MillRef) (d : Vec) (l : List SlotIn) : State :=
  let b := allBytes l
  let x := s.expand u d l
  let t := { s with freeCtr := s.freeCtr + 33408 }
  let free := freeTile s.freeCtr (loadKind d)
  if b.length = (loadEnd (loadKind d) b).getD 0 then
    t.loadDone u d (if anyPoison l || x.bad || x.badScale then { x with tile := free } else x) (anyPoison l) false
  else
    let v := match t.ringAt (millSlot u) (fieldOf d 64 13) with
      | .job r => t.freeRing r
      | _ => t
    v.loadDone u d { x with tile := free } (anyPoison l) false

/-- The tile that a refused source gives: the operand read as zeros (R82). -/
def zeroTile (d : Vec) : Tile :=
  let bias := BitVec.ofNat 8 (fieldOf d 16 8)
  if loadKind d < 2 then .trit (List.replicate 128 (List.replicate 256 .zero)) (List.replicate 128 0)
  else if loadKind d = 2 then .binary (List.replicate 128 (List.replicate 2048 false))
  else .lns (List.replicate 128 (List.replicate 64 0)) bias

/-- A LOAD_W that runs goes on with what its ring supplies. -/
def State.loadGo (s : State) (u : MillRef) (run : MillRun) : Res :=
  let d := run.d.desc
  if !loadValid d then s.hostError (millSlot u)
  else
    let i := s.input u 0 (fieldOf d 64 13) run.taken fun l => !l.isEmpty && (loadEnd (loadKind d) (allBytes l)).isSome
    match i.1 with
    | .outside => s.hostError (millSlot u)
    | .refused => .next ((i.2.2.loadDone u d { tile := zeroTile d, bad := false, badScale := false } false true).busy (millSlot u))
    | .waiting => .next ((i.2.2.modMill u fun m => { m with loadRun := some { run with taken := i.2.1 } }).busy (millSlot u))
    | .ready l => .next ((i.2.2.loadFinish u d l).busy (millSlot u))

/-- LOAD_W: the load unit starts its oldest descriptor when the interlocks let it, or goes on with the one that runs (R108). -/
def execLoadW (u : MillRef) (s : State) : Res :=
  let x := s.mill u
  if !s.millRuns u then .next s
  else
    match x.loadRun, x.loadQ with
    | some run, _ => s.loadGo u run
    | none, e :: rest =>
      if x.loadFree e then (s.setMill u { x with loadQ := rest, loadRun := some ⟨e, []⟩ }).loadGo u ⟨e, []⟩ else .next s
    | none, [] => .next s

/-! ## Accumulator lines (R83 to R85) -/

/-- A line at its cold value. -/
def Mill.line (x : Mill) (i : Nat) : AccLine := x.acc.get {} i

/-- Lines put into the accumulator from a line on; a line past 1,023 does not exist. -/
def putLines (t : Tab AccLine) : Nat → List AccLine → Tab AccLine
  | _, [] => t
  | i, l :: ls => putLines (if i < 1024 then t.set i l else t) (i + 1) ls

/-- One element written or added: the sum saturates and is marked under ADD, and the residues add (R47, R50, R51, R84). -/
def addElem (old : AccElem) (v : Int) (r : BitVec 3) : AccElem :=
  let x := sat32 (old.val.toInt + v)
  let sat := old.mark || x.2
  { val := BitVec.ofInt 32 x.1
    res := if sat || old.res == noResidue || r == noResidue then noResidue else BitVec.ofNat 3 ((old.res.toNat + r.toNat) % 7)
    mark := sat }

/-- An element written as it stands; a sum never leaves INT32 here. -/
def newElem (v : Int) (r : BitVec 3) : AccElem := { val := BitVec.ofInt 32 v, res := r, mark := false }

/-- A line of an integer tile after 64 sums with their residues (R84). -/
def sumLine (old : AccLine) (tag : AccTag) (wide add poison : Bool) (span : Nat × Nat) (vs : List (Int × BitVec 3)) : AccLine :=
  if add = true ∧ old.tag = tag then
    { old with elems := List.zipWith (fun e (x : Int × BitVec 3) => addElem e x.1 x.2) old.elems vs, poison := old.poison || poison
               span := old.span.or (some span) }
  else { tag := tag, wide := wide, poison := poison, bias := 0, elems := vs.map (fun x => newElem x.1 x.2), span := some span }

/-- A line whose contents are free, with residues that agree, so that the Finish stage reports no fault of the Mill (R13, R50). -/
def freeLine (c : Nat) (tag : AccTag) (wide poison : Bool) (span : Option (Nat × Nat)) : AccLine :=
  AccLine.settled
    { tag := tag, wide := wide, poison := poison, bias := ((Config.freeWord (c + 128)).setWidth 8).signExtend 32, span := span
      elems := (List.range (if tag = .lns16 then 128 else 64)).map fun i =>
        let w := Config.freeWord (c + i)
        { val := w.setWidth 32, mark := w.getLsbD 35 } }

/-- The line ranges of a list that a line lies in. -/
def inSpans (ps : List (Nat × Nat)) (i : Nat) : Bool := ps.any fun p => decide (p.1 ≤ i) && decide (i < p.2)

/-- The lines of some tiles take free contents: those of the descriptor's own tile with its tag, others with the tag they have (R85, R128). -/
def State.freeLines (s : State) (u : MillRef) (d : Vec) (tag : AccTag) (ps : List (Nat × Nat)) : State :=
  let own := lineSpan d
  let one := fun (x : Mill) i =>
    let l := x.line i
    if own.1 ≤ i ∧ i < own.2 then freeLine (s.freeCtr + 256 * i) tag (descWide d) false (some own)
    else freeLine (s.freeCtr + 256 * i) (if l.tag = .empty then tag else l.tag) l.wide l.poison l.span
  { s.modMill u fun x => { x with acc := ((List.range 1024).filter (inSpans ps)).foldl (fun t i => t.set i (one x i)) x.acc } with
    freeCtr := s.freeCtr + 256 * 1024 }

/-- The format that a compute descriptor writes (R83). -/
def descTag (d : Vec) : AccTag :=
  match descType d with
  | 0x03 => .bin
  | 0x04 => .lns16
  | _ => .int32

/-- The tiles in progress that a descriptor's lines belong to, its own first (R85). -/
def Mill.tilesMet (x : Mill) (d : Vec) : List (Nat × Nat) :=
  let p := lineSpan d
  (p :: (List.range (p.2 - p.1)).filterMap fun i => (x.line (p.1 + i)).span).dedup

/-- Whether a line belongs to a tile in progress of another span, format or shape than a descriptor's. -/
def AccLine.ofOther (l : AccLine) (d : Vec) : Bool :=
  match l.span with
  | some p => p != lineSpan d || decide (l.tag ≠ descTag d) || l.wide != descWide d
  | none => false

/-- Whether an OVERWRITE finds another tile in progress in its lines (R85, log entry 74). -/
def Mill.overOther (x : Mill) (d : Vec) : Bool :=
  let p := lineSpan d
  !d.getLsbD 10 && (List.range (p.2 - p.1)).any fun i => (x.line (p.1 + i)).ofOther d

/-- The most rows of a descriptor for a tile of some format (Table 3.2). -/
def mostRows (d : Vec) (tag : AccTag) : Nat := if tag = .lns16 then 1024 else if descWide d then 256 else 512

/-! ## Integer compute (R72, R75 to R77, R95, R96) -/

/-- The rows of activations in a slot: a list of elements for each row, and whether they are INT4. -/
abbrev ActRow := List Int × Bool

/-- Two's complement elements of a row of bytes. -/
def int8Row (l : List Byte) : List Int := l.map BitVec.toInt
def int4Row (l : List Byte) : List Int := l.flatMap fun b => [signed 4 (b.toNat % 16), signed 4 (b.toNat / 16)]

/-- Whether the rows of a slot are INT4 under ACT_FMT (R109). -/
def slotIsInt4 (d : Vec) (x : SlotIn) : Bool := if fieldOf d 11 2 = 0 then x.fmt == 1 else fieldOf d 11 2 == 2

/-- Bytes of an activation row in a slot (R109, R110, R111). -/
def rowBytes (d : Vec) (x : SlotIn) : Nat :=
  match descType d with
  | 0x02 => (if d.getLsbD 9 then 128 else 256) / (if slotIsInt4 d x then 2 else 1)
  | 0x03 => 256
  | _ => 64

/-- Whether slots hold the rows of a compute descriptor. -/
def rowsReady (d : Vec) (l : List SlotIn) : Bool :=
  !l.isEmpty && decide (descRows d ≤ (l.map fun x => x.bytes.length / rowBytes d x).sum)

/-- Whether slots end with the last row and hold whole rows only (R107, R128). -/
def rowsEnd (d : Vec) (l : List SlotIn) : Bool :=
  decide ((l.map fun x => x.bytes.length / rowBytes d x).sum = descRows d) && l.all fun x => decide (x.bytes.length % rowBytes d x = 0)

/-- Whether every slot has a format that R109 takes (R128). -/
def rowsFmt (d : Vec) (l : List SlotIn) : Bool :=
  l.all fun x => decide (descType d ≠ 0x02) || decide (fieldOf d 11 2 ≠ 0) || x.fmt == 1 || x.fmt == 2

/-- The rows of a TRIT_MM. -/
def actRows (d : Vec) (l : List SlotIn) : List ActRow :=
  l.flatMap fun x =>
    let q := slotIsInt4 d x
    (chunks (rowBytes d x) x.bytes).map fun b => (if q then int4Row b else int8Row b, q)

/-- One sum of products with trits (R72). -/
def tritDot (w : List Trit) (x : List Int) : Int := (List.zipWith (fun (t : Trit) v => t.toInt * v) w x).sum

/-- The sums of one activation row: one for each stored column, or for each stored row in transposed mode (R72, R76). -/
def tritSums (cols : List (List Trit)) (wide : Bool) (x : List Int) : List Int :=
  if wide then (List.range 256).map fun k => tritDot (cols.map fun c => c.getD k .zero) x else cols.map fun c => tritDot c x

/-- The counts of equal bits over positions 0 to K - 1 (R77). -/
def binSums (cols : List (List Bool)) (k : Nat) (row : List Byte) : List Int :=
  let a := (bitsOfBytes row).take k
  cols.map fun c => (((List.zipWith (fun p q => p == q) a c).filter id).length : Int)

/-- The rows of the unit that a row belongs to: a pair of INT4 rows is one unit (R75). -/
def unitOf (q : List Bool) (row : Nat) : List Nat :=
  let a := 2 * (row / 2)
  if q.getD a false && q.getD (a + 1) false then [a, a + 1] else [row]

/-- What upsets add to a sum. -/
def upsetAt (ups : List Upset) (row col : Nat) (f : Upset → Int) : Int :=
  ((ups.filter fun u => u.row == row && u.col == col).map f).sum

/-- Whether the sums of a unit, `w` columns wide, show an upset in some residue (R95). -/
def mismatch (ups : List Upset) (w : Nat) (rows : List Nat) (f : Upset → Int) : Bool :=
  ups.any fun u => rows.contains u.row && decide (u.col < w) && residue (upsetAt ups u.row u.col f) != 0

/-- The sums of a row with their residues after the check of R95: the first result where no residue differs, else the second; a second
mismatch leaves the code "none" (R96). -/
def checkedRow (ups : List Upset) (q : List Bool) (row : Nat) (sums : List Int) : List (Int × BitVec 3) :=
  let us := unitOf q row
  let again := mismatch ups sums.length us (·.first)
  let fails := again && mismatch ups sums.length us (·.second)
  sums.zipIdx.map fun x =>
    (x.1 + upsetAt ups row x.2 (if again then (·.second) else (·.first)),
      if fails then noResidue else BitVec.ofNat 3 (residue x.1))

/-- The first row of a unit whose second result mismatches (R96). -/
def failedRow (ups : List Upset) (w : Nat) (rows : List Nat) : Nat :=
  (rows.find? fun r => mismatch ups w [r] (·.second)).getD (rows.headD 0)

/-- The units that were recomputed: those mended, each by its first row, and those that failed again, each by the first row that fails, of
rows `w` columns wide (R95, R96). -/
def recomputed (ups : List Upset) (q : List Bool) (m w : Nat) : List Nat × List Nat :=
  let us := ((List.range m).map fun r => unitOf q r).filter fun u => mismatch ups w u (·.first)
  let mended := (us.filter fun u => !mismatch ups w u (·.second)).map fun u => u.headD 0
  let failed := (us.filter fun u => mismatch ups w u (·.second)).map (failedRow ups w)
  (mended.eraseDups, failed.eraseDups)

/-- Sums of an integer tile written to its lines (R83, R84). -/
def Mill.writeSums (x : Mill) (d : Vec) (tag : AccTag) (poison : Bool) (rows : List (List (Int × BitVec 3))) : Mill :=
  let n := linesPerRow d
  let parts := rows.flatMap fun r => (List.range n).map fun i => (r.drop (64 * i)).take 64
  let ls := parts.zipIdx.map fun p => sumLine (x.line (descBase d + p.2)) tag (n == 4) (d.getLsbD 10) poison (lineSpan d) p.1
  { x with acc := putLines x.acc (descBase d) ls }

/-- Every line of a tile marked poisoned (R82). -/
def Mill.poisonLines (x : Mill) (a b : Nat) : Mill :=
  { x with acc := putLines x.acc a ((List.range (b - a)).map fun i => { x.line (a + i) with poison := true }) }

/-- One recompute that was used (R95). -/
def State.recomputeOk (u : MillRef) (s : State) : State :=
  (s.modMill u fun x => { x with recomputes := satAdd x.recomputes 1, sticky := { x.sticky with residueCorr := true } }).residueLog u 1 1

/-- One recompute that failed (R96). -/
def State.recomputeBad (u : MillRef) (tile : Word32) (s : State) (row : Nat) : State :=
  ((s.modMill u fun x => { x with retirePending := true }).millError u (fun k => { k with residueFail := true }) causeResidue tile row).residueLog
    u 2 2

/-- Whether a compute descriptor may go on with its operands as they are: the set holds a tile of its kind, its rows and lines are in
range, no line has another tag, and it overwrites no other tile in progress (R85, R128). -/
def Mill.tileOk (x : Mill) (d : Vec) (tag : AccTag) (l : List SlotIn) : Bool :=
  let p := lineSpan d
  rowsEnd d l && rowsFmt d l && !x.overOther d && decide (descRows d ≤ mostRows d tag) && decide (descBase d + linesPerRow d * descRows d ≤ 1024) &&
    (!d.getLsbD 10 || (List.range (p.2 - p.1)).all fun i => decide ((x.line (p.1 + i)).tag = .empty) || decide ((x.line (p.1 + i)).tag = tag))

/-- The end of a compute descriptor: poison of its lines and the errors of its input (R82). -/
def State.computeDone (s : State) (u : MillRef) (d : Vec) (poisoned refused dirty : Bool) : State :=
  let p := lineSpan d
  let t := s.modMill u fun x =>
    { (if poisoned || refused || dirty then x.poisonLines p.1 p.2 else x) with compRun := none }
  let a := if poisoned then t.millError u setPoisonIn causePoison (descTile d) 0 else t
  if refused then a.millError u setExpErr causeOperand (descTile d) 0 else a

/-- The first row that a poisoned slot supplies. -/
def poisonRow (d : Vec) : Nat → List SlotIn → Nat
  | _, [] => 0
  | n, x :: t => if x.poison then n else poisonRow d (n + x.bytes.length / rowBytes d x) t

/-- An integer compute descriptor on its rows: `sums` gives a row's sums from its slot bytes. -/
def State.integerRun (s : State) (u : MillRef) (ups : List Upset) (d : Vec) (tag : AccTag) (l : List SlotIn) (refused : Bool)
    (rows : List (List Int)) (q : List Bool) : State :=
  let x := s.mill u
  let set := x.sets.get {} (fieldOf d 8 1)
  let r := recomputed ups q (descRows d) (64 * linesPerRow d)
  let dirty := set.poisoned || !r.2.isEmpty
  let checked := rows.zipIdx.map fun y => checkedRow ups q y.2 y.1
  let t := s.setMill u (x.writeSums d tag false checked)
  let a := r.1.foldl (fun v _ => v.recomputeOk u) t
  let b := r.2.foldl (fun v row => v.recomputeBad u (descTile d) row) a
  let c := b.computeDone u d false refused (dirty || anyPoison l)
  if anyPoison l then c.millError u setPoisonIn causePoison (descTile d) (poisonRow d 0 l) else c

/-- The tiles of a descriptor and those that its lines belong to take free contents; every line where M is out of range (R85, R128). -/
def State.freeTiles (s : State) (u : MillRef) (d : Vec) (tag : AccTag) : State :=
  s.freeLines u d tag (if mostRows d tag < descRows d then [(0, 1024)] else (s.mill u).tilesMet d)

/-- The rest of a compute descriptor whose tile is unpredictable: free lines, every line where M is out of range; a ring whose input does not
end with a slot keeps free contents (R128). -/
def State.tileFree (s : State) (u : MillRef) (d : Vec) (tag : AccTag) (l : List SlotIn) (refused : Bool) : State :=
  let t := if rowsEnd d l || refused then s else
    (match s.ringAt (millSlot u) (fieldOf d 64 13) with
    | .job r => s.freeRing r
    | _ => s)
  (t.freeTiles u d tag).computeDone u d (anyPoison l) refused (((s.mill u).sets.get {} (fieldOf d 8 1)).poisoned)

/-- The fields that a compute descriptor must leave zero and the values that are reserved (Tables 4.3 to 4.5). -/
def computeValid (d : Vec) : Bool :=
  decide (descRows d ≠ 0) &&
    (match descType d with
    | 0x02 => zeroFields d [(13, 19), (77, 3), (80, 16), (117, 395)] && decide (fieldOf d 11 2 ≠ 3)
    | 0x03 =>
      zeroFields d [(9, 1), (11, 5), (28, 4), (77, 3), (80, 16), (117, 395)] && decide (1 ≤ fieldOf d 16 12) && decide (fieldOf d 16 12 ≤ 2048)
    | _ =>
      zeroFields d [(9, 1), (11, 1), (13, 3), (24, 8), (77, 3), (80, 16), (117, 11), (160, 352)] &&
        (!d.getLsbD 12 || zeroFields d [(16, 8)]))

/-- Rows of zeros that a refused ring supplies (R82), in the format of the descriptor. -/
def zeroRows (d : Vec) : List SlotIn :=
  let x : SlotIn := ⟨2, 0, false, []⟩
  [{ x with bytes := List.replicate (descRows d * rowBytes d x) 0 }]

/-- TRIT_MM on its operands. -/
def State.tritRun (s : State) (u : MillRef) (ups : List Upset) (d : Vec) (l : List SlotIn) (refused : Bool) : State :=
  let x := s.mill u
  let wide := d.getLsbD 9
  match (x.sets.get {} (fieldOf d 8 1)).tile with
  | .trit cols _ =>
    if x.tileOk d .int32 l then
      let rows := actRows d l
      s.integerRun u ups d .int32 l refused (rows.map fun r => tritSums cols wide r.1) (rows.map Prod.snd)
    else s.tileFree u d .int32 l refused
  | _ => s.tileFree u d .int32 l refused

/-- BIN_MM on its operands. -/
def State.binRun (s : State) (u : MillRef) (ups : List Upset) (d : Vec) (l : List SlotIn) (refused : Bool) : State :=
  let x := s.mill u
  match (x.sets.get {} (fieldOf d 8 1)).tile with
  | .binary cols =>
    if x.tileOk d .bin l then
      let rows := chunks 256 (allBytes l)
      s.integerRun u ups d .bin l refused (rows.map fun r => binSums cols (fieldOf d 16 12) r) []
    else s.tileFree u d .bin l refused
  | _ => s.tileFree u d .bin l refused

/-! ## The log path (R78 to R80) -/

/-- Dithers of an element: the values of R63 at its four element indices, free under a firmware stream (R65, R79). -/
def ditherOf (s : State) (seed : Word64) (d : Vec) (elem a : Nat) : Nat :=
  let i := elem * 4 + a / 25
  let x := if firmwareStream (descStream d) then
      (Config.freeWord (s.freeCtr + 2 * i)).toNat + 2 ^ 64 * (Config.freeWord (s.freeCtr + 2 * i + 1)).toNat
    else lotValue s.settings.lotSeed seed i (descTile d).toNat (descStream d)
  lotDither x (a % 25)

/-- One level of the tree: additions from number `a` on over pairs (R78). -/
def treeLevel (dither : Nat → Nat) : Nat → List Lns → List Lns
  | a, x :: y :: t => lnsAdd x y (dither a) :: treeLevel dither (a + 1) t
  | _, l => l

/-- The tree of 63 additions over 64 products (R78). -/
def lnsTree (dither : Nat → Nat) (l : List Lns) : Lns :=
  let l1 := treeLevel dither 0 l
  let l2 := treeLevel dither 32 l1
  let l3 := treeLevel dither 48 l2
  let l4 := treeLevel dither 56 l3
  let l5 := treeLevel dither 60 l4
  (treeLevel dither 62 l5).headD ⟨false, 0, false⟩

/-- An element of an LNS16 line. -/
def AccElem.lns (e : AccElem) : Lns := { lnsOfCode e.val.toNat with sat := e.mark }
def Lns.elem (x : Lns) : AccElem := { val := BitVec.ofNat 32 x.code, res := noResidue, mark := x.sat }

/-- A line of an LNS16 tile after a row of codes (R78, R80, R84). Each line has a bias of its own: under ADD a line that is tagged LNS16 keeps
its own, and one that is EMPTY takes the bias given (log entry 104). -/
def logLine (dither : Nat → Nat → Nat) (cols : List (List Byte)) (row : List Byte) (bprod btile : Int) (add : Bool)
    (span : Nat × Nat) (old : AccLine) : AccLine :=
  let keep := add && decide (old.tag = .lns16)
  let bacc := if keep then old.bias.toInt else btile
  let sums := cols.zipIdx.map fun c =>
    lnsTree (dither c.2) (List.zipWith (fun a b => lnsRebias (lnsMul a b) bprod bacc) row c.1)
  if keep then
    { old with elems := List.zipWith (fun (e : AccElem) (x : Lns × Nat) => (lnsAdd x.1 e.lns (dither x.2 63)).elem) old.elems sums.zipIdx
               span := old.span.or (some span) }
  else { tag := .lns16, wide := false, poison := false, bias := BitVec.ofInt 32 bacc, elems := sums.map Lns.elem, span := some span }

/-- The rows of a LOG_MM with the bias of each (R80, R111). -/
def logRows (d : Vec) (l : List SlotIn) : List (List Byte × Int) :=
  l.flatMap fun x =>
    let b := if d.getLsbD 12 then biasOf x.bias else biasOf (BitVec.ofNat 8 (fieldOf d 16 8))
    (chunks 64 x.bytes).map fun r => (r, b)

/-- LOG_MM on its operands. -/
def State.logRun (s : State) (u : MillRef) (d : Vec) (l : List SlotIn) (refused : Bool) : State :=
  let x := s.mill u
  let set := x.sets.get {} (fieldOf d 8 1)
  match set.tile with
  | .lns cols bias =>
    if x.tileOk d .lns16 l then
      let seed := ((s.jobAt (millSlot u)).map fun j => j.2.seed).getD 0
      let rows := logRows d l
      let add := d.getLsbD 10
      let first := x.line (descBase d)
      let btile := if add = true ∧ first.tag = .lns16 then first.bias.toInt else (rows.head?.map Prod.snd).getD 0 + biasOf bias
      let ls := rows.zipIdx.map fun r =>
        logLine (fun n a => ditherOf s seed d (r.2 * 128 + n) a) cols r.1.1 (r.1.2 + biasOf bias) btile add (lineSpan d) (x.line (descBase d + r.2))
      let t := s.setMill u { x with acc := putLines x.acc (descBase d) ls }
      let v := if firmwareStream (descStream d) then { t with freeCtr := t.freeCtr + 8 * 128 * descRows d } else t
      let c := v.computeDone u d false refused (set.poisoned || anyPoison l)
      if anyPoison l then c.millError u setPoisonIn causePoison (descTile d) (poisonRow d 0 l) else c
    else s.tileFree u d .lns16 l refused
  | _ => s.tileFree u d .lns16 l refused

/-! ## The compute unit -/

/-- A compute descriptor that runs goes on with what its ring supplies; `f` acts once the rows have come. -/
def State.computeGo (s : State) (u : MillRef) (run : MillRun) (f : State → List SlotIn → Bool → State) : Res :=
  let d := run.d.desc
  if !computeValid d then s.hostError (millSlot u)
  else
    let i := s.input u 1 (fieldOf d 64 13) run.taken (rowsReady d)
    match i.1 with
    | .outside => s.hostError (millSlot u)
    | .refused => .next ((f i.2.2 (zeroRows d) true).busy (millSlot u))
    | .waiting => .next ((i.2.2.modMill u fun m => { m with compRun := some { run with taken := i.2.1 } }).busy (millSlot u))
    | .ready l =>
      let z := State.freePoison l i.2.2
      .next ((f z.2 z.1 false).busy (millSlot u))

/-- The compute unit starts its oldest descriptor, of a given TYPE, when the interlocks and the class let it, or goes on with the one
that runs (R68, R69, R86). -/
def State.computeUnit (s : State) (u : MillRef) (type : Nat) (f : Vec → State → List SlotIn → Bool → State) : Res :=
  let x := s.mill u
  if !s.millRuns u then .next s
  else
    match x.compRun, x.compQ with
    | some run, _ => if descType run.d.desc = type then s.computeGo u run (f run.d.desc) else .next s
    | none, e :: rest =>
      if descType e.desc = type ∧ x.computeFree e = true ∧ (x.needsDrain e.desc = false ∨ x.draining = true) then
        (s.setMill u { x with compQ := rest, compRun := some ⟨e, []⟩, cls := classOf e.desc, draining := false }).computeGo u ⟨e, []⟩ (f e.desc)
      else .next s
    | none, [] => .next s

/-- TRIT_MM (R72, R76). -/
def execTritMm (u : MillRef) (ups : List Upset) (s : State) : Res := s.computeUnit u 0x02 fun d t l r => t.tritRun u ups d l r

/-- BIN_MM (R77). -/
def execBinMm (u : MillRef) (ups : List Upset) (s : State) : Res := s.computeUnit u 0x03 fun d t l r => t.binRun u ups d l r

/-- LOG_MM (R78). -/
def execLogMm (u : MillRef) (s : State) : Res := s.computeUnit u 0x04 fun d t l r => t.logRun u d l r

end Sys2Proof.Machine
end

