-- ==== Sys2Proof/Machine/HandInt.lean ====
section
/-! DEFINITION. Integer operations, control flow, predicates and system instructions of a Hand (R134 to R137, R146, R153 to R155). -/

namespace Sys2Proof.Machine

/-- Leading zeros, trailing zeros and ones of a doubleword (Table 5.3). -/
def clz64 (x : Word64) : Nat := 64 - (if x.toNat = 0 then 0 else Nat.log2 x.toNat + 1)
def ctz64 (x : Word64) : Nat := ((List.range 64).find? fun i => x.getLsbD i).getD 64
def popc64 (x : Word64) : Nat := ((List.range 64).filter fun i => x.getLsbD i).length

/-- The INT operations (Table 5.3). -/
def intResult (fn : Nat) (x y : Word64) : Word64 :=
  match fn with
  | 0x00 => x + y
  | 0x01 => x - y
  | 0x02 => x &&& y
  | 0x03 => x ||| y
  | 0x04 => x ^^^ y
  | 0x05 => x <<< (y.toNat % 64)
  | 0x06 => x >>> (y.toNat % 64)
  | 0x07 => x.sshiftRight (y.toNat % 64)
  | 0x08 => BitVec.ofNat 64 (flag (x.slt y))
  | 0x09 => BitVec.ofNat 64 (flag (x.ult y))
  | 0x0a => if x.slt y then x else y
  | 0x0b => if x.slt y then y else x
  | 0x0c => if x.ult y then x else y
  | 0x0d => if x.ult y then y else x
  | 0x10 => x * y
  | 0x11 => BitVec.ofInt 64 (x.toInt * y.toInt / 2 ^ 64)
  | 0x12 => BitVec.ofNat 64 (x.toNat * y.toNat / 2 ^ 64)
  | 0x18 => BitVec.ofNat 64 (clz64 x)
  | 0x19 => BitVec.ofNat 64 (ctz64 x)
  | _ => BitVec.ofNat 64 (popc64 x)

/-- The division operations (Table 5.3, R136): FN 0x14 to 0x17. -/
def divResult (fn : Nat) (x y : Word64) : Word64 :=
  match fn with
  | 0x14 => if y = 0 then BitVec.allOnes 64 else BitVec.ofInt 64 (x.toInt.tdiv y.toInt)
  | 0x15 => if y = 0 then BitVec.allOnes 64 else x / y
  | 0x16 => if y = 0 then x else BitVec.ofInt 64 (x.toInt.tmod y.toInt)
  | _ => if y = 0 then x else x % y

/-- INT writes s[D] from s[A] and s[B] (R135). -/
def execInt (h : HandRef) (s : State) : Res :=
  match s.handOp h with
  | some (.int fn a b d) => .next (s.retire h fun x => (x.setS d (intResult fn (x.s a) (x.s b))).advance)
  | _ => .next s

/-- DIV, DIVU, REM and REMU (R136). -/
def execDiv (h : HandRef) (s : State) : Res :=
  match s.handOp h with
  | some (.div fn a b d) => .next (s.retire h fun x => (x.setS d (divResult fn (x.s a) (x.s b))).advance)
  | _ => .next s

/-- The INT operation of an immediate opcode 0x02 to 0x07: ADD, AND, OR, XOR, SLT, SLTU (Table 5.2). -/
def immFn (op : Nat) : Nat :=
  match op with
  | 0x02 => 0x00
  | 0x03 => 0x02
  | 0x04 => 0x03
  | 0x05 => 0x04
  | 0x06 => 0x08
  | _ => 0x09

/-- ADDI to SLTIU use the sign-extended IMM15 in place of s[B] (R135). -/
def execAddi (h : HandRef) (s : State) : Res :=
  match s.handOp h with
  | some (.addi op a d imm) => .next (s.retire h fun x => (x.setS d (intResult (immFn op) (x.s a) imm)).advance)
  | _ => .next s

/-- Shift by an immediate amount: 0 SLL, 1 SRL, 2 SRA (Table 5.2). -/
def shiftResult (kind amt : Nat) (x : Word64) : Word64 :=
  match kind with
  | 0 => x <<< amt
  | 1 => x >>> amt
  | _ => x.sshiftRight amt

/-- SHI (R134). -/
def execShi (h : HandRef) (s : State) : Res :=
  match s.handOp h with
  | some (.shi kind amt a d) => .next (s.retire h fun x => (x.setS d (shiftResult kind amt (x.s a))).advance)
  | _ => .next s

/-- LUI: s[D] = IMM20 x 2^12, sign-extended (Table 5.2). -/
def execLui (h : HandRef) (s : State) : Res :=
  match s.handOp h with
  | some (.lui d imm) => .next (s.retire h fun x => (x.setS d (imm <<< 12)).advance)
  | _ => .next s

/-- LUIH: s[D] = s[D][31:0] zero-extended, plus IMM20 x 2^32 (Table 5.2). -/
def execLuih (h : HandRef) (s : State) : Res :=
  match s.handOp h with
  | some (.luih d imm) => .next (s.retire h fun x => (x.setS d (((x.s d).setWidth 32).setWidth 64 + imm <<< 32)).advance)
  | _ => .next s

/-- The comparison of a branch (Table 5.2): EQ, NE, LT, GE, LTU, GEU. -/
def condHolds (cond : Nat) (x y : Word64) : Bool :=
  match cond with
  | 0 => x == y
  | 1 => x != y
  | 2 => x.slt y
  | 3 => !x.slt y
  | 4 => x.ult y
  | _ => !x.ult y

/-- BR sets PC = PC + 4 x IMM12 where the comparison holds (R137). -/
def execBr (h : HandRef) (s : State) : Res :=
  match s.handOp h with
  | some (.br cond a b off) =>
    .next (s.retire h fun x => if condHolds cond (x.s a) (x.s b) then x.goto (x.pc + 4 * off) else x.advance)
  | _ => .next s

/-- PBR branches when some bit of p[A] is set (ANY) or none is (NONE) (R137). -/
def execPbr (h : HandRef) (s : State) : Res :=
  match s.handOp h with
  | some (.pbr cond p off) =>
    .next (s.retire h fun x => if (x.p p != 0) == (cond == 0) then x.goto (x.pc + 4 * off) else x.advance)
  | _ => .next s

/-- JAL sets s[D] = PC + 4 and PC = PC + 4 x IMM20 (R137). -/
def execJal (h : HandRef) (s : State) : Res :=
  match s.handOp h with
  | some (.jal d off) => .next (s.retire h fun x => (x.setS d (x.pc + 4)).goto (x.pc + 4 * off))
  | _ => .next s

/-- JALR sets s[D] = PC + 4 and PC = (s[A] + IMM15) with bits [1:0] cleared (R137). -/
def execJalr (h : HandRef) (s : State) : Res :=
  match s.handOp h with
  | some (.jalr d a imm) => .next (s.retire h fun x => (x.setS d (x.pc + 4)).goto ((x.s a + imm) &&& ~~~3#64))
  | _ => .next s

/-- PR: PAND, POR, PXOR, PNOT, PTOS, STOP (Table 5.2). -/
def prResult (fn b a d : Nat) (x : Hand) : Hand :=
  match fn with
  | 0 => x.setP d (x.p a &&& x.p b)
  | 1 => x.setP d (x.p a ||| x.p b)
  | 2 => x.setP d (x.p a ^^^ x.p b)
  | 3 => x.setP d (~~~ x.p a)
  | 4 => x.setS d (x.p a)
  | _ => x.setP d (x.s a)

def execPr (h : HandRef) (s : State) : Res :=
  match s.handOp h with
  | some (.pr fn b a d) => .next (s.retire h fun x => (prResult fn b a d x).advance)
  | _ => .next s

/-! Control registers (Table 5.8). -/

/-- A control register as it reads. -/
def csrRead (s : State) (h : HandRef) (num : Nat) : Word64 :=
  let x := s.hand h
  match num with
  | 0x0 => BitVec.ofNat 64 (h.idx % 4 + x.hamlet.toNat * 4 + (h.slot % 32) * 64 + (h.die % 8) * 2048)
  | 0x1 => BitVec.ofNat 64 (flag x.evEn + 2 * flag x.inHandler + 4 * flag x.fault)
  | 0x2 => BitVec.ofNat 64 (x.causeCode.toNat + 256 * flag x.causeEvent)
  | 0x3 => x.epc.setWidth 64
  | 0x4 => x.tval
  | 0x5 => x.xvec.setWidth 64
  | 0x6 => x.evec.setWidth 64
  | 0x7 => x.evPend.setWidth 64
  | 0x8 => x.evMask.setWidth 64
  | 0x9 => x.flags.setWidth 64
  | 0xa => x.seed
  | 0xb => x.cycles
  | 0xc => s.clock
  | _ => x.scratch

/-- RSVD bits of the registers that have writable fields (Table 5.8). -/
def csrReserved (num : Nat) : Word64 :=
  match num with
  | 0x1 => ~~~7#64
  | 0x3 => ~~~0x7fff#64
  | 0x5 => ~~~0x7fff#64
  | 0x6 => ~~~0x7fff#64
  | 0x7 => ~~~0x3f#64
  | 0x8 => ~~~0x3f#64
  | 0x9 => ~~~0xf#64
  | _ => 0

/-- The writable fields of a control register set to a value; RO fields keep theirs (R155). -/
def Hand.csrSet (x : Hand) (num : Nat) (v : Word64) : Hand :=
  match num with
  | 0x1 => { x with evEn := v.getLsbD 0 }
  | 0x3 => { x with epc := epcOf v }
  | 0x5 => { x with xvec := v.setWidth 15 }
  | 0x6 => { x with evec := v.setWidth 15 }
  | 0x8 => { x with evMask := v.setWidth 6 }
  | 0xa => { x with seed := v }
  | 0xd => { x with scratch := v }
  | _ => x

/-- The W1C fields of a control register with the bits of a value cleared (R155). -/
def Hand.csrClear (x : Hand) (num : Nat) (v : Word64) : Hand :=
  match num with
  | 0x7 => { x with evPend := x.evPend &&& ~~~(v.setWidth 6) }
  | 0x9 => { x with flags := x.flags &&& ~~~(v.setWidth 4) }
  | _ => x

/-- The W1C fields set to a free value, where the effect of a write is unpredictable (R404). -/
def Hand.csrFree (x : Hand) (num : Nat) (v : Word64) : Hand :=
  match num with
  | 0x7 => { x with evPend := v.setWidth 6 }
  | 0x9 => { x with flags := v.setWidth 4 }
  | _ => x.csrSet num v

/-- A CSR write: OP 1 writes s[A], OP 2 sets its bits, OP 3 clears them; a W1C field is cleared by OP 1 and OP 3 (R155). -/
def Hand.csrWrite (x : Hand) (num op : Nat) (old v : Word64) : Hand :=
  match op with
  | 1 => (x.csrSet num v).csrClear num v
  | 2 => x.csrSet num (old ||| v)
  | 3 => (x.csrSet num (old &&& ~~~v)).csrClear num v
  | _ => x

/-- Whether a write puts a non-zero value into a RSVD field of a register (R10, R404). -/
def csrBreaks (num op : Nat) (v : Word64) : Bool := (op == 1 || op == 2) && (v &&& csrReserved num) != 0

/-- CSR access (R155): s[D] receives the old value. A non-zero RSVD field leaves the register's writable fields with a free value
(R404, log entry 7). -/
def execCsr (h : HandRef) (s : State) : Res :=
  match s.handOp h with
  | some (.csr num op a d) =>
    let old := csrRead s h num
    let v := (s.hand h).s a
    if csrBreaks num op v then
      .next (s.fresh.2.retire h fun x => ((x.csrFree num s.fresh.1).setS d old).advance)
    else .next (s.retire h fun x => ((x.csrWrite num op old v).setS d old).advance)
  | _ => .next s

/-! System instructions. -/

/-- WAIT completes at once where an enabled event is pending, and sleeps otherwise (R154). -/
def execWait (h : HandRef) (s : State) : Res :=
  match s.handOp h with
  | some .wait => .next (s.retire h fun x => if x.eventEnabled then x.advance else { x with wait := .sleep })
  | _ => .next s

/-- ERET: PC = HEPC, IN_HANDLER = 0 (R146). -/
def execEret (h : HandRef) (s : State) : Res :=
  match s.handOp h with
  | some .eret => .next (s.retire h Hand.eret)
  | _ => .next s

/-- HALT stops the Hand; the halted mode is its report to the head Reeve (R146). -/
def execHalt (h : HandRef) (s : State) : Res :=
  match s.handOp h with
  | some .halt => .next (s.retire h fun x => { x with mode := .halted })
  | _ => .next s

/-- TRAP raises TRAP with HTVAL = B (R146). -/
def execTrap (h : HandRef) (s : State) : Res :=
  match s.handOp h with
  | some (.trap code) => .next (s.except h .trap (BitVec.ofNat 64 code))
  | _ => .next s

/-- An illegal word raises ILLEGAL with HTVAL = the word (R134, R153). -/
def execIllegal (h : HandRef) (s : State) : Res :=
  match s.handOp h with
  | some .illegal => .next (s.except h .illegal ((s.hand h).word.setWidth 64))
  | _ => .next s

/-- An uncorrectable error in the Hand's own state stops it with CODE 9, whatever HXVEC holds (R153, R386). -/
def hwTval : HwPlace → Word64
  | .scalar n => BitVec.ofNat 64 (n % 32)
  | .vector n => BitVec.ofNat 64 (32 + n % 32)
  | .predicate n => BitVec.ofNat 64 (64 + n % 8)
  | .control n => BitVec.ofNat 64 (128 + n % 14)
  | .buffer off => BitVec.ofNat 64 (2 ^ 63 + off % 0x8000)

/-- HW_FAULT: the slot has reported a hardware fault (R393). -/
def execHwFault (h : HandRef) (w : HwPlace) (s : State) : Res :=
  if (s.hand h).mode = .running then
    .next ((((s.quitWait h).modHand h fun x => (x.record .hwFault (hwTval w)).stopFault).modHamlet (handSlot h) fun m => { m with hwFault := true }).busy
      (handSlot h))
  else .next s

end Sys2Proof.Machine
end

