-- ==== Sys2Proof/Machine/TallyOps.lean ====
section
/-! DEFINITION. Tally units (R265 to R273): absorbing input, unit digests, the digest log and the registers. -/

namespace Sys2Proof.Machine

/-- A framed unit: the payload padded to a multiple of 8, then LAYER and TILE where a tag is appended (R266). -/
def Snooped.framed (u : Snooped) : List Byte :=
  padTo 8 u.bytes ++ (if u.scrub then [] else toBytes 4 u.layer.toNat ++ toBytes 4 u.tile.toNat)

/-- A log entry (Table 9.6) before it is written. -/
structure TallyEntry where
  layer : Word32
  tile : Word32
  digest : Word64
  units : Nat
  poison : Bool
  split : Bool
  flush : Bool
deriving DecidableEq, Repr

/-- Logical hamlet or parish number, die, parish mark and unit number of an entry (Table 9.6). -/
def State.tallyPlace (s : State) (t : TallyRef) : Nat :=
  match t with
  | .hamlet d k n =>
    let logical := (((s.jobAt ⟨d, k⟩).bind fun j => j.2.placeAt ⟨d, k⟩).map (·.logical)).getD 0
    logical % 16 + (d % 8) * 16 + (n % 2) * 2 ^ 8
  | .parish d q n => q % 16 + (d % 8) * 16 + 2 ^ 7 + (n % 2) * 2 ^ 8

/-- The 32 bytes of an entry (Table 9.6). -/
def TallyEntry.bytes (e : TallyEntry) (place : Nat) (time : Word64) : List Byte :=
  toBytes 4 e.layer.toNat ++ toBytes 4 e.tile.toNat ++ toBytes 8 e.digest.toNat ++
    toBytes 8 (min e.units (2 ^ 24 - 1) + flag e.poison * 2 ^ 24 + flag e.split * 2 ^ 25 + flag e.flush * 2 ^ 26 + place * 2 ^ 32) ++
    toBytes 8 time.toNat

/-- What a unit writes for an entry: free bytes once its values are unpredictable (R404, log entry 7). -/
def State.entryBytes (s : State) (t : TallyRef) (e : TallyEntry) : List Byte × State :=
  if (s.tally t).wild then s.freshBytes 32 else (e.bytes (s.tallyPlace t) s.clock, s)

/-- Write one log entry (R271). -/
def State.tallyLog (s : State) (t : TallyRef) (e : TallyEntry) : State :=
  let x := s.tally t
  if x.logSize = 0 ∨ x.logStopped = true then s
  else if x.logSize ≤ x.logNext then
    s.modTally t fun y => { y with overflow := true, dropped := satAdd y.dropped 1 }
  else
    match s.jobOfTally t with
    | none => s.modTally t fun y => { y with logFault := true, logStopped := true }
    | some (n, j) =>
      let ea := s.ownEa (32 * x.logBase.toNat + 32 * x.logNext.toNat)
      let b := s.entryBytes t e
      match b.2.writeMem (actorOf n j) ea b.1 false with
      | some s' => s'.modTally t fun y =>
          { y with logNext := y.logNext + 1, overflow := y.overflow || decide (y.logNext + 1 = y.logSize) }
      | none => s.modTally t fun y => { y with logFault := true, logStopped := true }

/-- The entry of an open layer. -/
def OpenLayer.entry (l : OpenLayer) (split flush : Bool) : TallyEntry :=
  { layer := l.layer, tile := 0xffffffff, digest := l.digest, units := l.units, poison := l.poison, split := split, flush := flush }

/-- Input enters the running value and the alive count; with SOURCE SCRUB a word that is not zero sets NONZERO (R267, R272). -/
def Tally.feed (x : Tally) (b : List Byte) : Tally :=
  { x with nonzero := x.nonzero || (x.source == 4 && (words 8 b).any fun w => w != 0)
           value := BitVec.ofNat 64 (tallyFrom x.alg x.value.toNat b), alive := x.alive + BitVec.ofNat 64 (b.length / 8) }

/-- A unit takes input in mode STREAM or by TFEED: the running value is free once the unit's values are unpredictable (R404). -/
def State.feedTally (s : State) (t : TallyRef) (b : List Byte) : State :=
  if (s.tally t).wild then s.fresh.2.modTally t fun y => { y.feed b with value := s.fresh.1 } else s.modTally t fun y => y.feed b

/-- A unit digest added into the open layer of its LAYER (R269). -/
def addLayer (ls : List OpenLayer) (layer : Word32) (d : Word64) (poison : Bool) : List OpenLayer :=
  if ls.any fun l => l.layer == layer then
    ls.map fun l => if l.layer = layer then { l with digest := l.digest + d, units := l.units + 1, poison := l.poison || poison } else l
  else ls ++ [⟨layer, d, 1, poison⟩]

/-- Whether a unit of a layer finds four other layers open. -/
def fifthLayer (ls : List OpenLayer) (layer : Word32) : Bool := decide (4 ≤ ls.length) && !ls.any fun l => l.layer == layer

/-- A unit of a fifth layer first writes the entry of the layer opened earliest, with SPLIT, and closes it (R269). -/
def State.tallySplit (s : State) (t : TallyRef) (layer : Word32) : State :=
  match (s.tally t).layers with
  | l :: rest =>
    if fifthLayer (l :: rest) layer then
      (s.modTally t fun y => { y with layers := rest }).tallyLog t (l.entry true false)
    else s
  | [] => s

/-- Absorb one snooped unit (R266, R267, R269). -/
def State.absorb (s : State) (t : TallyRef) (u : Snooped) : State :=
  let b := u.framed
  let s1 := s.modTally t fun y =>
    { y with
      poisonSeen := y.poisonSeen || u.poison
      nonzero := y.nonzero || (u.scrub && (words 8 b).any fun w => w != 0) }
  let x := s1.tally t
  let d := BitVec.ofNat 64 (tallyFrom x.alg 0 b)
  let counted := s1.modTally t fun y => { y with alive := y.alive + BitVec.ofNat 64 (b.length / 8) }
  if u.scrub = true ∨ x.mode = 0 then s1.feedTally t b
  else if x.mode = 1 then
    (counted.tallySplit t u.layer).modTally t fun y => { y with layers := addLayer y.layers u.layer d u.poison }
  else counted.tallyLog t { layer := u.layer, tile := u.tile, digest := d, units := 1, poison := u.poison, split := false, flush := false }

/-- Absorb every unit that waits (R267: before a TFEED that follows them). -/
def State.absorbAll (s : State) (t : TallyRef) : State :=
  let q := (s.tally t).snoopQ
  q.foldl (fun s' u => s'.absorb t u) (s.modTally t fun y => { y with snoopQ := [] })

/-- A snoop source offers a unit: it waits to be absorbed where the unit snoops that source (R266, R267). -/
def State.offer (s : State) (t : TallyRef) (source : Nat) (mill : Option Nat) (u : Snooped) : State :=
  let x := s.tally t
  let hit := match mill with
    | some m => x.mills.getLsbD m
    | none => true
  if x.enable && decide (x.source.toNat = source) && hit then s.modTally t fun y => { y with snoopQ := y.snoopQ ++ [u] } else s

/-- Both Tally units of a hamlet are offered a Mill's output. -/
def State.offerHamlet (s : State) (u : MillRef) (x : Snooped) : State :=
  (s.offer (.hamlet u.die u.slot 0) 1 (some u.idx) x).offer (.hamlet u.die u.slot 1) 1 (some u.idx) x

/-- Both Tally units of a parish are offered an engine's output. -/
def State.offerParish (s : State) (p : ParishRef) (source : Nat) (x : Snooped) : State :=
  (s.offer (.parish p.die p.par 0) source none x).offer (.parish p.die p.par 1) source none x

/-- Write the entry of every open layer in order of opening and close them (R270). -/
def State.tallyFlushAll (s : State) (t : TallyRef) : State :=
  let ls := (s.tally t).layers
  ls.foldl (fun s' l => s'.tallyLog t (l.entry false true)) (s.modTally t fun y => { y with layers := [] })

/-! Registers (Table 9.7). -/

/-- TALLY_CTRL as it reads. -/
def Tally.ctrlWord (x : Tally) : Word64 :=
  BitVec.ofNat 64 (flag x.enable + x.alg.toNat * 2 + x.mode.toNat * 8 + x.source.toNat * 32 + x.mills.toNat * 256)

/-- Whether compiled code may write a TALLY_CTRL value: no reserved code, no SCRUB, MILLS only with FINISH, RSVD zero (R266,
Table 9.7). -/
def tallyCtrlValid (v : Word64) : Bool :=
  decide (fieldOf v 1 2 ≠ 3) && decide (fieldOf v 3 2 ≠ 3) && decide (fieldOf v 5 3 ≤ 3) &&
    (decide (fieldOf v 8 4 = 0) || decide (fieldOf v 5 3 = 1)) && decide (fieldOf v 12 52 = 0)

/-- A write to TALLY_CTRL: ALG, MODE and SOURCE are kept while ENABLE is 1; setting ENABLE from 0 zeroes the open
layers (log entry 23). -/
def Tally.setCtrl (x : Tally) (v : Word64) : Tally :=
  let y := if x.enable then x else
    { x with alg := BitVec.ofNat 2 (fieldOf v 1 2), mode := BitVec.ofNat 2 (fieldOf v 3 2), source := BitVec.ofNat 3 (fieldOf v 5 3) }
  { y with enable := v.getLsbD 0, mills := BitVec.ofNat 4 (fieldOf v 8 4), layers := if v.getLsbD 0 && !x.enable then [] else y.layers }

/-- TALLY_CTRL, TALLY_LOG_BASE and TALLY_LOG_CTRL as the job image's Tally table gives them (R273). -/
def Tally.configured (regs : List Word64) : Tally :=
  let x : Tally := { logBase := BitVec.ofNat 43 (fieldOf (regs.getD 1 0) 5 43), logSize := BitVec.ofNat 24 (fieldOf (regs.getD 2 0) 0 24) }
  x.setCtrl (regs.getD 0 0)

/-- A Tally register as it reads, by offset. -/
def Tally.readReg (x : Tally) (off : Nat) : Word64 :=
  match off with
  | 0x00 => x.ctrlWord
  | 0x08 => x.value
  | 0x10 => x.alive
  | 0x18 => BitVec.ofNat 64 (x.logBase.toNat * 32)
  | 0x20 => BitVec.ofNat 64 (x.logSize.toNat + x.logNext.toNat * 2 ^ 32)
  | 0x28 =>
    BitVec.ofNat 64 (flag x.overflow + 2 * flag x.logFault + 4 * flag x.poisonSeen + 8 * flag (!x.layers.isEmpty) + 16 * flag x.nonzero +
      x.dropped.toNat * 2 ^ 32)
  | _ => 0

/-- A write to TALLY_STATUS clears the W1C bits written 1. -/
def Tally.clearStatus (x : Tally) (v : Word64) : Tally :=
  { x with overflow := x.overflow && !v.getLsbD 0, logFault := x.logFault && !v.getLsbD 1
           poisonSeen := x.poisonSeen && !v.getLsbD 2, nonzero := x.nonzero && !v.getLsbD 4 }

/-- A unit whose TALLY_CTRL took a value that must not be written: its values are free, and so are its later values and its log (R404, log entry 7). -/
def Tally.scramble (x : Tally) (c : Nat) (v : Word64) : Tally :=
  { x.setCtrl ((v &&& 1#64) ||| (Config.freeWord c &&& 0xffe#64)) with
    value := Config.freeWord (c + 1), alive := Config.freeWord (c + 2), wild := true }

/-- A write of TALLY_CTRL: units that wait were complete before it and are absorbed first. A value that compiled code must not write
leaves the unit's values free (R266, R404, log entry 7); a Reeve sets what it likes. -/
def State.writeTallyCtrl (s : State) (t : TallyRef) (v : Word64) (trusted : Bool := false) : State :=
  let u := s.absorbAll t
  if trusted || tallyCtrlValid v then u.modTally t fun x => x.setCtrl v
  else { u with freeCtr := u.freeCtr + 3 }.modTally t fun x => x.scramble u.freeCtr v

/-- A write of 1 to TALLY_FLUSH writes the open layers, whatever ENABLE holds (R270). -/
def State.writeTallyFlush (s : State) (t : TallyRef) (v : Word64) : State :=
  if v.getLsbD 0 then (s.absorbAll t).tallyFlushAll t else s

/-- Whether a Tally unit is one that only the head Reeve sets: a parish unit (R273). -/
def tallyOfReeve : TallyRef → Bool
  | .parish _ _ _ => true
  | .hamlet _ _ _ => false

/-- TALLY_CTRL_WRITE: compiled code's for a hamlet unit, the head Reeve's for a parish unit (R273). -/
def execTallyCtrlWrite (t : TallyRef) (v : Word64) (s : State) : Res := .next (s.writeTallyCtrl t v (tallyOfReeve t))

/-- TALLY_VALUE gives the access of TWR through MMIO (R268). -/
def execTallyValueWrite (t : TallyRef) (v : Word64) (s : State) : Res := .next (s.modTally t fun x => { x with value := v })

/-- TALLY_FLUSH (R270). -/
def execTallyFlush (t : TallyRef) (v : Word64) (s : State) : Res := .next (s.writeTallyFlush t v)

/-- The oldest snooped unit that waits is absorbed (R269). -/
def execTallySnoopUnit (t : TallyRef) (s : State) : Res :=
  match (s.tally t).snoopQ with
  | [] => .next s
  | u :: rest => .next ((s.modTally t fun y => { y with snoopQ := rest }).absorb t u)

end Sys2Proof.Machine
end

