-- ==== Sys2Proof/Machine/HandUnit.lean ====
section
/-! DEFINITION. The unit instructions of a Hand (R140, R146 to R151, R154): rings, the Press expander, Bells, descriptor
pushes, Tally units, and the end of waits. -/

namespace Sys2Proof.Machine

/-- The instruction word as HTVAL records it. -/
def State.wordOf (s : State) (h : HandRef) : Word64 := (s.hand h).word.setWidth 64

/-! ## Rings -/

/-- The ring part [12:0] of a reference (R106; bits above it are disregarded, log entry 24). -/
def refOf (v : Word64) : Nat := fieldOf v 0 13

/-! ## The expander -/

/-- The next block of a stream starts into a buffer (R231, R240): decoded under what its consumer may use of the table slots now, damaged, or
one after which no block can be found. A usable LEN lets the expander go on after the block (R428). -/
def Expander.startBlock (e : Expander) (image : Nat → Option (List Byte)) : Expander :=
  let n := blockLen e.rest
  if 16 ≤ e.rest.length ∧ lenUsable n = true ∧ n ≤ e.rest.length then
    { e with rest := e.rest.drop n
             bufs := e.bufs ++ [match decodeBlock image (e.rest.take n) with
               | some v => .data (v.flatMap (toBytes 2))
               | none => .damaged] }
  else { e with rest := [], bufs := e.bufs ++ [.lost] }

/-- Blocks start while one of the two buffers is free (R241, log entry 116); the fuel is the number of buffers. -/
def Expander.start (image : Nat → Option (List Byte)) : Nat → Expander → Expander
  | 0, e => e
  | n + 1, e => if 2 ≤ e.bufs.length ∨ e.rest = [] then e else Expander.start image n (e.startBlock image)

/-- Bytes that a VRX has gathered go back in front of the stream. -/
def putBack (l : List Byte) (t : List ExpBlock) : List ExpBlock := if l = [] then t else .data l :: t

/-- The next 64 bytes of a stream behind those already gathered, fewer at its end; none where a block is damaged. A damaged block that can be
passed is passed (R428, log entry 25). The fuel is more than the number of blocks that 64 bytes may take. -/
def Expander.take (image : Nat → Option (List Byte)) : Nat → List Byte → Expander → Option (List Byte) × Expander
  | 0, l, e => (some l, e)
  | n + 1, l, e =>
    if 64 ≤ l.length then (some l, e)
    else
      match e.bufs with
      | [] => (some l, e)
      | .lost :: _ => (none, { e with bufs := putBack l e.bufs })
      | .damaged :: t => (none, Expander.start image 2 { e with bufs := putBack l t })
      | .data d :: t =>
        let k := 64 - l.length
        if k < d.length then (some (l ++ d.take k), { e with bufs := .data (d.drop k) :: t })
        else Expander.take image n (l ++ d) (Expander.start image 2 { e with bufs := t })

/-- The expander that a household's Hand attaches to a slot: it starts decoding at its first payload byte (R147, R241). -/
def State.expander (s : State) (hh : Nat) (r : RingRef) (i : Nat) : Expander :=
  let x := s.slotIn r i
  Expander.start (s.imageFor hh) 2 { slot := ⟨r, i⟩, rest := x.bytes, bufs := [], poisoned := x.poison }

/-! ## Ring instructions -/

/-- The payload address of a slot of a job's ring in the household address map (R146, R168). -/
def State.payloadEa (s : State) (j : Job) (r : RingRef) (i : Nat) : Word64 :=
  let logical := ((j.placeAt (ringSlot r)).map (·.logical)).getD 0
  BitVec.ofNat 64 (slotEa s.torus.board.toNat r.die logical ((s.ring r).payloadOff i))

/-- A slot granted to a Hand: the instruction completes with its payload address (R146, R147). -/
def State.giveSlot (s : State) (h : HandRef) (j : Job) (r : RingRef) (i d : Nat) (claim expand : Bool) : State :=
  let ea := s.payloadEa j r i
  let e := s.expander j.household r i
  s.retire h fun x =>
    let y := if claim then { x with claims := x.claims ++ [SlotRef.mk r i] } else { x with resvs := x.resvs ++ [SlotRef.mk r i] }
    let z := if expand then { y with exp := some e } else y
    ({ z with wait := .none, stalled := false }.setS d ea).advance

/-- A Hand begins to wait (R154, R175). -/
def State.handWaits (s : State) (h : HandRef) (w : HandWait) : State :=
  s.modHand h fun x => { x with wait := w, waitFrom := s.mclk, stalled := false }

/-- RGET, RGETX and RRSV (R146, R171, R174). -/
def State.holdSlot (s : State) (h : HandRef) (a d : Nat) (claim expand : Bool) : Res :=
  let x := s.hand h
  if 4 ≤ (if claim then x.claims.length else x.resvs.length) then .next (s.except h .rings (s.wordOf h))
  else
    match s.jobAt (handSlot h) with
    | none => .next ((s.foreignRing (handSlot h)).retire h fun y => (y.setS d 0).advance)
    | some (_, j) =>
      match s.refKind j (refOf (x.s a)) with
      | .foreign => .next ((s.foreignRing (handSlot h)).retire h fun y => (y.setS d 0).advance)
      | .outside => s.hostError (handSlot h)
      | .job r =>
        let t := (s.wake (ringSlot r)).boundUse r claim
        match t.takeSlot r (.hand h) claim with
        | some (i, u) => .next (u.giveSlot h j r i d claim expand)
        | none =>
          .next (((t.joinRing r (.hand h) claim expand).handWaits h (if claim then .claim r expand else .reserve r)).busy (handSlot h))

/-- RGET claims the head slot of ring s[A] (R146). -/
def execRget (h : HandRef) (s : State) : Res :=
  match s.handOp h with
  | some (.rget a d) => s.holdSlot h a d true false
  | _ => .next s

/-- RGETX claims a slot and attaches the expander to it (R147). -/
def execRgetx (h : HandRef) (s : State) : Res :=
  match s.handOp h with
  | some (.rgetx a d) => s.holdSlot h a d true true
  | _ => .next s

/-- RRSV reserves the tail slot of ring s[A] (R146). -/
def execRrsv (h : HandRef) (s : State) : Res :=
  match s.handOp h with
  | some (.rrsv a d) => s.holdSlot h a d false false
  | _ => .next s

/-- The oldest slot of a list of holds on a ring of a job. -/
def heldOn (l : List SlotRef) (j : Job) (ref : Nat) : Option SlotRef :=
  (j.ringOf ref).bind fun r => l.find? fun x => x.ring == r

/-- The expander without an attachment to a slot that is released (R147). -/
def Hand.detach (x : Hand) (c : SlotRef) : Hand :=
  match x.exp with
  | some e => if e.slot = c then { x with exp := none } else x
  | none => x

/-- RREL releases the oldest slot that the Hand claimed on the ring, and raises RINGS where there is none (R146); on a disabled ring it waits for ever (R178). -/
def execRrel (h : HandRef) (s : State) : Res :=
  match s.handOp h with
  | some (.rrel a) =>
    let x := s.hand h
    match (s.jobAt (handSlot h)).bind fun j => heldOn x.claims j.2 (refOf (x.s a)) with
    | none => .next (s.except h .rings (s.wordOf h))
    | some c =>
      if (s.ring c.ring).enable then
        .next ((s.releaseSlot c.ring c.idx).retire h fun y => ({ y with claims := y.claims.erase c }.detach c).advance)
      else .next ((s.handWaits h .disabled).busy (handSlot h))
  | _ => .next s

/-- RSVD bits of header DW0 (Table 6.2). -/
def hdrReserved : Word64 := 0xffe00000fffe00f0

/-- The header word of a publish: a free value where a RSVD bit is set or FMT is reserved (R10, R170, log entry 7). -/
def State.hdrFor (s : State) (w : Word64) : Word64 × State :=
  if w &&& hdrReserved ≠ 0 ∨ 14 ≤ fieldOf w 0 4 then s.fresh else (w, s)

/-- A slot that a Hand publishes on the sending end of a bound ring is a MSG of the Hand until its WACK (R317, R326). -/
def State.noteSender (s : State) (h : HandRef) (c : SlotRef) : State :=
  if (s.ring c.ring).bind.isSome then s.modRing c.ring fun r => { r with senders := r.senders.set c.idx h } else s

/-- RPUB publishes the oldest slot that the Hand reserved on the ring, with header word s[B] (R146, R169); on a disabled ring it waits for
ever (R178). -/
def execRpub (h : HandRef) (s : State) : Res :=
  match s.handOp h with
  | some (.rpub a b) =>
    let x := s.hand h
    match (s.jobAt (handSlot h)).bind fun j => heldOn x.resvs j.2 (refOf (x.s a)) with
    | none => .next (s.except h .rings (s.wordOf h))
    | some c =>
      if (s.ring c.ring).enable then
        let w := s.hdrFor (x.s b)
        .next (((w.2.publishSlot c.ring c.idx w.1 none).noteSender h c).retire h fun y => { y with resvs := y.resvs.erase c }.advance)
      else .next ((s.handWaits h .disabled).busy (handSlot h))
  | _ => .next s

/-- VRX returns the next 64 decoded bytes, zeros past the end or where no slot is attached; a damaged block or a poisoned slot
raises EXPAND (R147, R241). -/
def execVrx (h : HandRef) (s : State) : Res :=
  match s.handOp h with
  | some (.vrx d) =>
    match (s.hand h).exp with
    | none => .next (s.retire h fun x => (x.setV d 0).advance)
    | some e =>
      if e.poisoned then .next (s.except h .expand (s.wordOf h))
      else
        let hh := ((s.jobAt (handSlot h)).map fun j => j.2.household).getD 0
        match Expander.take (s.imageFor hh) 34 [] e with
        | (some l, e') => .next (s.retire h fun x => ({ x with exp := some e' }.setV d (vecOf (slice l 0 64))).advance)
        | (none, e') => .next ((s.modHand h fun x => { x with exp := some e' }).except h .expand (s.wordOf h))
  | _ => .next s

/-! ## Bells -/

/-- BADD adds s[B][15:0] to counter s[A][15:0] (R146, R180). -/
def execBadd (h : HandRef) (s : State) : Res :=
  match s.handOp h with
  | some (.badd a b) =>
    let x := s.hand h
    let v := BitVec.ofNat 32 (fieldOf (x.s b) 0 16)
    match s.jobAt (handSlot h) with
    | none => .next ((s.foreignBell (handSlot h)).retire h Hand.advance)
    | some (_, j) => .next ((s.sendBell j (handSlot h) (.hand h) (refOf (x.s a)) v).retire h Hand.advance)
  | _ => .next s

/-- BWAIT on counter c: satisfied at once, or it waits (R181). -/
def State.waitBell (s : State) (h : HandRef) (c : Nat) (target : Word32) : State :=
  if bellMet (s.bell (handSlot h) c) target then s.retire h Hand.advance
  else (s.handWaits h (.bell c target false)).busy (handSlot h)

/-- BWAIT waits on counter s[A] of the Hand's own hamlet for value s[B] (R181). A counter of another hamlet leaves the wait
unpredictable: a free bit ends it at once or lets it wait on the counter of that number (R404, log entry 7). -/
def execBwait (h : HandRef) (s : State) : Res :=
  match s.handOp h with
  | some (.bwait a b) =>
    let x := s.hand h
    let ref := refOf (x.s a)
    let t := (x.s b).setWidth 32
    match (s.jobAt (handSlot h)).bind fun j => j.2.ringOf ref with
    | some r =>
      if ringSlot r = handSlot h then .next (s.waitBell h r.idx t)
      else if s.fresh.1.getLsbD 0 then .next (s.fresh.2.retire h Hand.advance)
      else .next (s.fresh.2.waitBell h r.idx t)
    | none =>
      if s.fresh.1.getLsbD 0 then .next (s.fresh.2.retire h Hand.advance)
      else .next (s.fresh.2.waitBell h (ref % 64) t)
  | _ => .next s

/-- BREAD reads counter s[A][15:0]; a counter outside the job gives a free value (R146, R148). -/
def execBread (h : HandRef) (s : State) : Res :=
  match s.handOp h with
  | some (.bread a d) =>
    let x := s.hand h
    match (s.jobAt (handSlot h)).bind fun j => j.2.ringOf (refOf (x.s a)) with
    | some r =>
      let t := s.wake (ringSlot r)
      .next (t.retire h fun y => (y.setS d ((t.bell (ringSlot r) r.idx).setWidth 64)).advance)
    | none => .next (s.fresh.2.retire h fun y => (y.setS d s.fresh.1).advance)
  | _ => .next s

/-! ## Pushes -/

/-- The state in which a Hand that waits in a push tries again, its wait count kept. -/
def State.pushReady (s : State) (h : HandRef) : State :=
  match (s.hand h).wait with
  | .porter _ => s.modHand h fun x => { x with wait := .none }
  | .mill _ => s.modHand h fun x => { x with wait := .none }
  | _ => s

/-- Whether a Hand waits in a push. -/
def Hand.pushing (x : Hand) : Bool :=
  match x.wait with
  | .porter _ => true
  | .mill _ => true
  | _ => false

/-- A push that finds its queue full waits; one that waits already keeps its count (R150). -/
def State.pushWaits (s : State) (h : HandRef) (w : HandWait) : State :=
  if (s.hand h).pushing then s else (s.handWaits h w).busy (handSlot h)

/-- Porter s[B][2:0] as a Hand names it: its hamlet's, or those of its hamlet's logical parish (R150). -/
def State.porterFor (s : State) (h : HandRef) (n : Nat) : Option PorterRef :=
  if n < 2 then some (.hamlet h.die h.slot n)
  else if n < 4 then none
  else
    let p := s.parishOfSlot (handSlot h)
    some (.parish p.die p.par (n - 4))

/-- PISSUE issues the descriptor in v[A] to a Porter, and waits while its queue is full (R150, R215). Porters 2 and 3 give an unpredictable
result: any effect within the job, after which the Hand goes on (R13, R150, log entry 7). -/
def execPissue (h : HandRef) (s : State) : Res :=
  match (s.pushReady h).handOp h with
  | some (.pissue a b) =>
    let x := s.hand h
    match s.porterFor h (fieldOf (x.s b) 0 3) with
    | none => (s.hostError (handSlot h)).bind fun t => .next (t.retire h fun y => { y with pc := x.pc, mode := .running, wait := .none, stalled := false }.advance)
    | some p =>
      if (s.porter p).queue.length < 8 then
        .next ((s.modPorter p fun y => { y with queue := y.queue ++ [⟨x.v a, some h, false⟩] }).retire h
          fun y => { y with wait := .none, stalled := false }.advance)
      else .next (s.pushWaits h (.porter p))
  | _ => .next s

/-- How far a Hand lies past the push pointer of a Mill (R158). -/
def pushDistance (ptr idx : Nat) : Nat := (idx + 4 - ptr % 4) % 4

/-- Whether another Hand of a Hand's hamlet waits in a push to a Mill and comes before it in the round-robin order of the pointer: what waits
for room arrives in the MCLK in which there is room (R158). -/
def State.pushBehind (s : State) (u : MillRef) (h : HandRef) : Bool :=
  let ptr := (s.mill u).pushPtr
  (List.range 4).any fun i =>
    i != h.idx && (s.hand ⟨h.die, h.slot, i⟩).wait == .mill u && decide (pushDistance ptr i < pushDistance ptr h.idx)

/-- MPUSH pushes the descriptor in v[A] to Mill s[B][1:0]: discarded in RING mode, waiting while the queue is full (R121, R150). Hands that
wait push in the order of the pointer, which then stands after the Hand that has pushed (R158). -/
def execMpush (h : HandRef) (s : State) : Res :=
  match (s.pushReady h).handOp h with
  | some (.mpush a b) =>
    let x := s.hand h
    let u : MillRef := ⟨h.die, h.slot, fieldOf (x.s b) 0 2⟩
    let t := s.applyMode u
    let m := t.mill u
    let done : Hand → Hand := fun y => { y with wait := .none, stalled := false }.advance
    if m.ringMode then .next ((t.setMill u { m with qstatus := { m.qstatus with dropped := true } }).retire h done)
    else if m.queue.length < 8 ∧ t.pushBehind u h = false then
      .next ((t.setMill u { m.accept (x.v a) with pushPtr := (h.idx + 1) % 4 }).retire h done)
    else .next (t.pushWaits h (.mill u))
  | _ => .next s

/-- PUSH_STALL: a push has waited for the limit of the Hand's hamlet (R150). -/
def execPushStall (h : HandRef) (s : State) : Res :=
  let x := s.hand h
  if x.pushing = true ∧ x.stalled = false ∧ (s.hamlet (handSlot h)).limit ≤ s.mclk - x.waitFrom then
    .next ((s.modHand h fun y => { y with stalled := true }).raiseEvent h .pushStall)
  else .next s

/-! ## Tally units -/

/-- Tally unit `n` of a Hand's hamlet. -/
def tallyFor (h : HandRef) (v : Word64) : TallyRef := .hamlet h.die h.slot (fieldOf v 0 1)

/-- TFEED feeds v[A] to a Tally unit, after the snooped units that were complete before it (R151, R267). -/
def execTfeed (h : HandRef) (s : State) : Res :=
  match s.handOp h with
  | some (.tfeed a b) =>
    let x := s.hand h
    let t := tallyFor h (x.s b)
    .next (((s.absorbAll t).feedTally t (vecBytes (x.v a))).retire h Hand.advance)
  | _ => .next s

/-- TRD reads the running value (R268). -/
def execTrd (h : HandRef) (s : State) : Res :=
  match s.handOp h with
  | some (.trd a d) => .next (s.retire h fun x => (x.setS d (s.tally (tallyFor h (x.s a))).value).advance)
  | _ => .next s

/-- TWR replaces the running value (R268). -/
def execTwr (h : HandRef) (s : State) : Res :=
  match s.handOp h with
  | some (.twr a b) =>
    let x := s.hand h
    .next ((s.modTally (tallyFor h (x.s a)) fun y => { y with value := x.s b }).retire h Hand.advance)
  | _ => .next s

/-! ## Events and the end of waits -/

/-- EVENT_TAKE: at an instruction boundary, or in a wait that events may end, a pending enabled event is taken; a Hand that sleeps in
WAIT goes on (R154). -/
def execEventTake (h : HandRef) (s : State) : Res :=
  let x := s.hand h
  if (s.hamlet (handSlot h)).power = .active ∧ x.mode = .running ∧ x.eventEnabled = true then
    match x.wait with
    | .sleep =>
      .next (s.retire h fun y => if y.eventDue then y.takeEvent (y.pc + 4) else { y with wait := .none }.advance)
    | .remote => .next s
    | .disabled => .next s
    | _ => if x.eventDue then .next ((s.quitWait h).retire h fun y => y.takeEvent y.pc) else .next s
  else .next s

/-- The destination register of the ring instruction at which a Hand waits. -/
def Hand.ringDest (x : Hand) : Nat :=
  match decodeHand x.word with
  | .rget _ d => d
  | .rgetx _ d => d
  | .rrsv _ d => d
  | _ => 0

/-- A granted slot goes to its requester: a waiting Hand's instruction completes, an engine finds the slot when it goes on. -/
def State.grantSlot (s : State) (r : RingRef) (w : Waiter) (i : Nat) : State :=
  match w.agent with
  | .hand h =>
    match s.jobAt (handSlot h) with
    | some (_, j) => s.giveSlot h j r i (s.hand h).ringDest w.claim w.expand
    | none => s
  | a => s.modRing r fun x => { x with grants := x.grants ++ [⟨a, w.claim, i⟩] }

/-- RING_WAIT_END: the waiting request that is next in the order of R171 is granted. -/
def execRingWaitEnd (r : RingRef) (s : State) : Res :=
  match s.nextGrant r with
  | none => .next s
  | some w =>
    let x := s.ring r
    match (if w.claim then x.claimSlot else x.reserve) with
    | none => .next s
    | some (i, y) =>
      .next ((s.setRing r { y with waiters := y.waiters.erase w, grant := portAfter (agentPort (ringSlot r) w.agent) }).grantSlot r w i)

/-- Whether a wait is counted: not those of a descriptor queue (R122, R233). -/
def State.countedWait (s : State) (w : Waiter) : Bool :=
  match w.agent with
  | .mill _ 3 => false
  | .engine p .press => (s.parish p).press.cur.isSome
  | .engine p .merge => (s.parish p).merge.cur.isSome
  | _ => true

/-- The Hand at which the RING_STALL event of a wait is raised (R175). -/
def State.stallHand (s : State) (w : Waiter) : Option HandRef :=
  match w.agent with
  | .hand h => some h
  | .mill u _ => some ⟨u.die, u.slot, u.idx⟩
  | .porter p => (s.porter p).cur.bind fun c => c.desc.issuer
  | .engine _ _ => none
  | .landing => none

/-- RING_STALL: a counted wait has reached the limit of the ring's hamlet; it raises at most one event (R175). -/
def execRingStall (r : RingRef) (n : Nat) (s : State) : Res :=
  let m := ringSlot r
  match (s.ring r).waiters[n]? with
  | none => .next s
  | some w =>
    if w.stalled = false ∧ s.countedWait w = true ∧ (s.hamlet m).limit ≤ s.mclk - w.since then
      let t := s.modRing r fun x => { x with waiters := x.waiters.set n { w with stalled := true } }
      let u := t.modHamlet m fun x => { x with ringStall := x.ringStall ||| BitVec.ofNat 64 (2 ^ r.idx) }
      let v := match s.stallHand w with
        | some h => u.raiseEvent h .ringStall
        | none => u
      .next (v.countStall m)
    else .next s

/-- Clearing ENABLE on a ring in use leaves its contents unpredictable (R178). -/
def State.disableRing (s : State) (r : RingRef) : State :=
  let x := s.ring r
  let busy := x.slots.cells.any (fun c => c.2 == .reserved || c.2 == .claimed) || !x.waiters.isEmpty
  let t := s.setRing r { x with enable := false }
  if busy then t.freeRing r else t

/-- A write of RING_CFG (R178): it sets a disabled ring up; while ENABLE is 1 only ENABLE may change, and a change of another field
is discarded with CFG_ACTIVE. -/
def State.writeRingCfg (s : State) (r : RingRef) (v : Word64) : State :=
  let x := s.ring r
  let w := if cfgValid v then (v, s) else s.fresh
  if x.enable then
    if v &&& ~~~1#64 = x.cfgWord &&& ~~~1#64 then (if v.getLsbD 0 then s else s.disableRing r)
    else s.modHamlet (ringSlot r) fun m => { m with err := { m.err with cfgActive := true } }
  else w.2.setRing r (x.configured w.1)

/-- RING_CFG_WRITE (R178). A reserved value leaves the register with a free value (R404, log entry 7). -/
def execRingCfgWrite (r : RingRef) (v : Word64) (s : State) : Res := .next (s.writeRingCfg r v)

end Sys2Proof.Machine
end

