-- ==== Sys2Proof/Machine/Regs.lean ====
section
/-! DEFINITION. The memory-mapped registers of a die (R196, Table 7.3) by block and offset, and accesses by effective address that
reach memory or registers (R139, R197). A register is eight bytes; a write acts on the doublewords that it covers whole (log entry
27). -/

namespace Sys2Proof.Machine

/-- Whether a unit that satisfies a test waits at a ring. -/
def State.ringWait (s : State) (a : RingAgent → Bool) : Nat := flag (s.waitsAtRing a)

/-! ## Mill (Tables 3.8 to 3.11, 4.9 to 4.11) -/

/-- The logical hamlet that a slot serves; 0 when no job is placed. -/
def State.logicalOf (s : State) (m : HamletRef) : Nat := (((s.jobAt m).bind fun j => j.2.placeAt m).map (·.logical)).getD 0

/-- Code of an arithmetic class (Table 3.9). -/
def MillClass.code : MillClass → Nat
  | .none => 0
  | .integer => 1
  | .logarithmic => 2

/-- MILL_STATUS (Table 3.9). -/
def State.millStatus (s : State) (u : MillRef) : Nat :=
  let x := s.mill u
  flag x.loadRun.isSome + 2 * flag x.compRun.isSome + 4 * flag x.finRun.isSome + 8 * flag x.draining + 16 * x.cls.code +
    64 * s.ringWait (fun a => a == .mill u 0 || a == .mill u 1 || a == .mill u 2) + 128 * flag x.retirePending + 256 * x.queue.length

/-- MILL_STICKY (Table 3.10). -/
def MillSticky.bits (k : MillSticky) : Nat :=
  flag k.clipSat + 2 * flag k.widenRefused + 4 * flag k.accSat + 8 * flag k.expErr + 16 * flag k.poisonIn + 32 * flag k.residueCorr +
    64 * flag k.residueFail + 128 * flag k.finishResidue

/-- W1C of MILL_STICKY; clearing the last set bit clears MILL_FIRST_ERR (R102). -/
def Mill.clearSticky (x : Mill) (v : Word64) : Mill :=
  let k := x.sticky
  let y : MillSticky :=
    { clipSat := k.clipSat && !v.getLsbD 0, widenRefused := k.widenRefused && !v.getLsbD 1, accSat := k.accSat && !v.getLsbD 2
      expErr := k.expErr && !v.getLsbD 3, poisonIn := k.poisonIn && !v.getLsbD 4, residueCorr := k.residueCorr && !v.getLsbD 5
      residueFail := k.residueFail && !v.getLsbD 6, finishResidue := k.finishResidue && !v.getLsbD 7 }
  { x with sticky := y, firstErr := if y.bits = 0 ∧ k.bits ≠ 0 then {} else x.firstErr }

/-- MILL_QSTATUS (Table 4.10). -/
def Mill.qstatusWord (x : Mill) : Nat :=
  let q := x.qstatus
  flag x.pendMode.isSome + 2 * flag q.dropped + 4 * flag q.badType + 8 * flag q.poisonDesc + 16 * flag q.shortSlot + 32 * flag q.halted +
    64 * flag q.foreign + x.accepted.toNat * 2 ^ 32

/-- A register of a Mill block. -/
def State.millReg (s : State) (u : MillRef) (off : Nat) : Nat :=
  let x := (s.applyMode u).mill u
  match off with
  | 0x000 => u.idx % 4 + (s.logicalOf (millSlot u) % 16) * 2 ^ 8 + (u.slot % 32) * 2 ^ 12 + (u.die % 8) * 2 ^ 17
  | 0x008 => s.millStatus u
  | 0x010 => x.sticky.bits
  | 0x018 => x.recomputes.toNat + x.widened.toNat * 2 ^ 16 + x.clipped.toNat * 2 ^ 32
  | 0x020 => x.firstErr.tile.toNat + x.firstErr.cause.toNat * 2 ^ 32 + x.firstErr.row.toNat * 2 ^ 35
  | 0x180 => flag x.ringMode + x.dring.toNat * 2 ^ 8
  | 0x188 => x.qstatusWord
  | 0x190 => x.fenceToken.toNat + x.fences.toNat * 2 ^ 32
  | 0x198 => x.layer.toNat
  | 0x1a0 => x.badDesc.toNat
  | _ => 0

/-- RSVD bits of a Mill register that software may write. -/
def millReserved (off : Nat) : Word64 :=
  match off with
  | 0x010 => ~~~0xff#64
  | 0x180 => qctrlReserved
  | 0x188 => qstatusReserved
  | _ => 0

/-- An agent stores to a doubleword of a push window that does not push (R121). -/
def noteWriter (l : List Writer) (w : Writer) : List Writer := if l.contains w then l else l ++ [w]

/-- A write to a register of a Mill block; a register that is not writable keeps its value. -/
def State.writeMillReg (s : State) (u : MillRef) (w : Writer) (off : Nat) (v : Word64) : State :=
  if off < 0x100 then (if off = 0x010 then s.modMill u fun x => x.clearSticky v else s)
  else if off < 0x138 then s.modMill u fun x => { x with win := x.win.set ((off - 0x100) / 8) v, winBy := noteWriter x.winBy w }
  else if off = 0x138 then s.pushMillWin u w v
  else if off = 0x180 then s.modMill u fun x => x.writeQctrl v
  else if off = 0x188 then s.modMill u fun x => x.writeQstatus v
  else s

/-! ## Porter (Table 7.11) -/

/-- PORTER_STICKY. -/
def PorterSticky.bits (k : PorterSticky) : Nat :=
  flag k.badDesc + 2 * flag k.xlate + 4 * flag k.badDst + 8 * flag k.poison + 16 * flag k.foreign

/-- A register of a Porter block. -/
def Porter.reg (x : Porter) (off : Nat) : Nat :=
  match off with
  | 0x080 => flag (x.cur.isSome || x.run.isSome) + 2 * x.queue.length + 32 * flag x.halted
  | 0x088 => x.sticky.bits
  | 0x090 => x.errTile.toNat + x.errRow.toNat * 2 ^ 32 + x.errCause.toNat * 2 ^ 56
  | 0x098 => x.done.toNat
  | _ => 0

/-- A descriptor from the window enters the queue; where the queue is full it is discarded, as under R121. -/
def State.pushPorterWin (s : State) (p : PorterRef) (w : Writer) (v : Word64) : State :=
  let x := s.porter p
  let y := { x with win := x.win.set 7 v, winBy := [] }
  let d := s.winDesc y.win x.winBy w
  d.2.setPorter p (if 8 ≤ y.queue.length then y else { y with queue := y.queue ++ [⟨d.1, none, w == .reeve⟩] })

/-- W1C of PORTER_STICKY; HALTED clears when the four bits that stop the Porter are clear (R221). -/
def Porter.clearSticky (x : Porter) (v : Word64) : Porter :=
  let k := x.sticky
  let y : PorterSticky :=
    { badDesc := k.badDesc && !v.getLsbD 0, xlate := k.xlate && !v.getLsbD 1, badDst := k.badDst && !v.getLsbD 2
      poison := k.poison && !v.getLsbD 3, foreign := k.foreign && !v.getLsbD 4 }
  { x with sticky := y, halted := x.halted && (y.badDesc || y.xlate || y.badDst || y.foreign) }

/-- A write to a register of a Porter block. -/
def State.writePorterReg (s : State) (p : PorterRef) (w : Writer) (off : Nat) (v : Word64) : State :=
  if off < 0x038 then s.modPorter p fun x => { x with win := x.win.set (off / 8) v, winBy := noteWriter x.winBy w }
  else if off = 0x038 then s.pushPorterWin p w v
  else if off = 0x088 then s.modPorter p fun x => x.clearSticky v
  else s

/-- RSVD bits of a Porter register that software may write. -/
def porterReserved (off : Nat) : Word64 := if off = 0x088 then ~~~0x1f#64 else 0

/-! ## Rings and Bells (Tables 6.4, 6.6) -/

/-- RING_PTR. -/
def Ring.ptrWord (r : Ring) : Nat :=
  r.head + r.claim * 2 ^ 11 + r.pub * 2 ^ 22 + r.rsv * 2 ^ 33 + flag (r.waiters.any (·.claim)) * 2 ^ 44 +
    flag (r.waiters.any fun w => !w.claim) * 2 ^ 45

/-- A register of the ring control block, by its offset from +0x8000. -/
def State.ringReg (s : State) (m : HamletRef) (off : Nat) : Nat :=
  let x := s.hamlet m
  if off < 0x1000 then
    let r := x.rings.get {} (off / 64)
    (if off % 64 = 0 then r.cfgWord.toNat else if off % 64 = 8 then r.ptrWord else if off % 64 = 16 then r.seq.toNat else 0)
  else if off = 0x1000 then x.waitLimit.toNat
  else if off = 0x1008 then x.ringStall.toNat
  else if off = 0x1010 then flag x.err.foreign + 2 * flag x.err.lenOver + 4 * flag x.err.cfgActive
  else 0

/-- A write to the ring control block. -/
def State.writeRingReg (s : State) (m : HamletRef) (off : Nat) (v : Word64) : State :=
  if off < 0x1000 then (if off % 64 = 0 then s.writeRingCfg ⟨m.die, m.slot, off / 64⟩ v else s)
  else if off = 0x1000 then s.modHamlet m fun x => { x with waitLimit := v.setWidth 32 }
  else if off = 0x1008 then s.modHamlet m fun x => { x with ringStall := x.ringStall &&& ~~~v }
  else if off = 0x1010 then
    s.modHamlet m fun x => { x with err := { x.err with
      foreign := x.err.foreign && !v.getLsbD 0, lenOver := x.err.lenOver && !v.getLsbD 1, cfgActive := x.err.cfgActive && !v.getLsbD 2 } }
  else s

/-- RSVD bits of the ring control registers that compiled code may write; those of RING_CFG are judged in its own write. -/
def ringReserved (off : Nat) : Word64 :=
  if off = 0x1000 then ~~~0xffffffff#64 else if off = 0x1010 then ~~~7#64 else 0

/-- A register of the Bell port, by its offset from +0xA000. -/
def State.bellReg (s : State) (m : HamletRef) (off : Nat) : Nat :=
  if off < 0x200 then (s.bell m (off / 8)).toNat
  else if off = 0x200 then flag (s.hamlet m).err.bellForeign + 2 * flag (s.hamlet m).err.waitStall
  else 0

/-- A write to the Bell port: only a Reeve writes BELL_CNT (R185). -/
def State.writeBellReg (s : State) (m : HamletRef) (w : Writer) (off : Nat) (v : Word64) : State :=
  if off < 0x200 then
    (if w.trusted then s.modHamlet m fun x => { x with bells := x.bells.set (off / 8) (v.setWidth 32) } else s)
  else if off = 0x200 then
    s.modHamlet m fun x => { x with err := { x.err with
      bellForeign := x.err.bellForeign && !v.getLsbD 0, waitStall := x.err.waitStall && !v.getLsbD 1 } }
  else s

/-- RSVD bits of BELL_STATUS. -/
def bellReserved (off : Nat) : Word64 := if off = 0x200 then ~~~3#64 else 0

/-! ## Tally units (Table 9.7) -/

/-- A write to a Tally register. -/
def State.writeTallyReg (s : State) (t : TallyRef) (trusted : Bool) (off : Nat) (v : Word64) : State :=
  match off with
  | 0x00 => s.writeTallyCtrl t v trusted
  | 0x08 => s.modTally t fun x => { x with value := v }
  | 0x18 => s.modTally t fun x => { x with logBase := BitVec.ofNat 43 (fieldOf v 5 43) }
  | 0x20 => s.modTally t fun x => { x with logSize := BitVec.ofNat 24 (fieldOf v 0 24) }
  | 0x28 => s.modTally t fun x => x.clearStatus v
  | 0x30 => s.writeTallyFlush t v
  | _ => s

/-- RSVD bits of the Tally registers; those of TALLY_CTRL are judged in its own write. -/
def tallyReserved (off : Nat) : Word64 :=
  match off with
  | 0x18 => ~~~0xffffffffffe0#64
  | 0x20 => 0xff000000ff000000
  | 0x28 => 0xffffffe0
  | 0x30 => ~~~1#64
  | _ => 0

/-! ## A hamlet block -/

/-- Power state code (Table 13.3). -/
def HamletState.code : HamletState → Nat
  | .active => 0
  | .gated => 1
  | .retain => 2
  | .off => 3

/-- HAMLET_PWR (Table 13.9). -/
def State.hamletPwr (s : State) (m : HamletRef) : Nat :=
  let x := s.hamlet m
  x.power.code + x.hint.toNat * 4 + s.gov.level.toNat * 16 + x.wakes.toNat * 2 ^ 32

/-- A doubleword of a hamlet block as it reads (Table 7.3). -/
def State.hamletReg (s : State) (m : HamletRef) (off : Nat) : Nat :=
  if off < 0x4000 then s.millReg ⟨m.die, m.slot, off / 0x1000⟩ (off % 0x1000)
  else if off < 0x8000 then
    (if off % 0x1000 < 0x70 then (csrRead s ⟨m.die, m.slot, (off - 0x4000) / 0x1000⟩ (off % 0x1000 / 8)).toNat else 0)
  else if off < 0xa000 then s.ringReg m (off - 0x8000)
  else if off < 0xb000 then s.bellReg m (off - 0xa000)
  else if off < 0xb200 then ((s.tally (.hamlet m.die m.slot ((off - 0xb000) / 0x100))).readReg (off % 0x100)).toNat
  else if off < 0xc000 then 0
  else if off < 0xd000 then (s.porter (.hamlet m.die m.slot ((off - 0xc000) / 0x800))).reg (off % 0x800)
  else if off = 0xd000 then s.hamletPwr m
  else 0

/-- A Mill or Porter register written, a free value where compiled code sets a RSVD bit (R10, R404). -/
def State.guarded (s : State) (w : Writer) (reserved v : Word64) : Word64 × State := if w.trusted then (v, s) else s.regValue reserved v

/-- A doubleword of a hamlet block written by compiled code, a Reeve or debug. -/
def State.writeHamletReg (s : State) (m : HamletRef) (by_ : Writer) (off : Nat) (v : Word64) : State :=
  if off < 0x4000 then
    let w := s.guarded by_ (millReserved (off % 0x1000)) v
    w.2.writeMillReg ⟨m.die, m.slot, off / 0x1000⟩ by_ (off % 0x1000) w.1
  else if off < 0x8000 then
    let h : HandRef := ⟨m.die, m.slot, (off - 0x4000) / 0x1000⟩
    let num := off % 0x1000 / 8
    if 0x70 ≤ off % 0x1000 then s
    else if csrBreaks num 1 v && !by_.trusted then s.fresh.2.modHand h fun x => x.csrFree num s.fresh.1
    else s.modHand h fun x => x.csrWrite num 1 (csrRead s h num) v
  else if off < 0xa000 then
    let w := s.guarded by_ (ringReserved (off - 0x8000)) v
    w.2.writeRingReg m (off - 0x8000) w.1
  else if off < 0xb000 then
    let w := s.guarded by_ (bellReserved (off - 0xa000)) v
    w.2.writeBellReg m by_ (off - 0xa000) w.1
  else if off < 0xb200 then
    let w := s.guarded by_ (tallyReserved (off % 0x100)) v
    w.2.writeTallyReg (.hamlet m.die m.slot ((off - 0xb000) / 0x100)) by_.trusted (off % 0x100) w.1
  else if off < 0xc000 then s
  else if off < 0xd000 then
    let w := s.guarded by_ (porterReserved (off % 0x800)) v
    w.2.writePorterReg (.hamlet m.die m.slot ((off - 0xc000) / 0x800)) by_ (off % 0x800) w.1
  else s

/-! ## Parish and controller blocks -/

/-- GRAN_MODE and GRAN_COUNTS (Table 7.11). -/
def Parish.granReg (p : Parish) (off : Nat) : Nat :=
  match off with
  | 0x0 => p.scratch.toNat
  | 0x8 => p.hits.toNat + p.misses.toNat * 2 ^ 32
  | _ => 0

/-- PRESS_SLOTS: slot 0 always holds its table (Table 8.6). -/
def State.slotsWord (s : State) : Nat := s.pressSlots.cells.foldl (fun n c => if c.2.image.isSome then n + 2 ^ c.1 else n) 1

/-- A doubleword of the Press block, by its offset from +0x9000 (Table 8.6). -/
def State.pressReg (s : State) (p : ParishRef) (off : Nat) : Nat :=
  let x := (s.parish p).press
  if off = 0x00 then flag x.enable + x.dring.toNat * 2 ^ 8 + x.household.toNat * 2 ^ 24
  else if off = 0x08 then flag (x.cur.isSome || x.run.isSome) + 2 * s.ringWait (fun a => a == .engine p .press)
  else if off = 0x10 then x.done.toNat + x.errors.toNat * 2 ^ 32
  else if off = 0x18 then s.slotsWord
  else if 0x800 ≤ off ∧ off < 0xc00 then (x.hist.get 0 ((off - 0x800) / 4)).toNat + (x.hist.get 0 ((off - 0x800) / 4 + 1)).toNat * 2 ^ 32
  else 0

/-- Bytes of a record of a merge descriptor (R244, R245). -/
def mergeSize (d : Vec) : Nat := 16 + 4 * fieldOf d 208 16

/-- Records received for the current MERGE: those in the buffer, or the whole records that have come of an array in another package. -/
def Merge.held (x : Merge) : Nat :=
  match x.cur with
  | some c => max x.buffer.length (c.rbuf.cells.length / mergeSize c.desc)
  | none => x.buffer.length

/-- A doubleword of the merge block, by its offset from +0xA000 (Table 8.6). -/
def State.mergeReg (s : State) (p : ParishRef) (off : Nat) : Nat :=
  let x := (s.parish p).merge
  if off = 0x00 then flag x.enable + x.dring.toNat * 2 ^ 8 + x.household.toNat * 2 ^ 24
  else if off = 0x08 then flag (x.cur.isSome || x.run.isSome) + 2 * x.held
  else if off = 0x10 then x.done.toNat + x.errors.toNat * 2 ^ 32
  else 0

/-- A doubleword of a parish block (Table 7.3); only the Reeves reach all of it. -/
def State.parishReg (s : State) (p : ParishRef) (off : Nat) : Nat :=
  if off < 0x4000 then (s.porter (.parish p.die p.par (off / 0x1000))).reg (off % 0x1000)
  else if off < 0x8000 then 0
  else if off < 0x9000 then (s.parish p).granReg (off - 0x8000)
  else if off < 0xa000 then s.pressReg p (off - 0x9000)
  else if off < 0xb000 then s.mergeReg p (off - 0xa000)
  else if off < 0xb200 then ((s.tally (.parish p.die p.par ((off - 0xb000) / 0x100))).readReg (off % 0x100)).toNat
  else 0

/-- PRESS_QCTRL or MERGE_QCTRL written by a Reeve (Table 8.6). -/
def State.writeEngineCtrl (s : State) (p : ParishRef) (e : ParishEngine) (v : Word64) : State :=
  let r := BitVec.ofNat 16 (fieldOf v 8 16)
  let h := BitVec.ofNat 6 (fieldOf v 24 6)
  s.modParish p fun x =>
    match e with
    | .press => { x with press := { x.press with enable := v.getLsbD 0, dring := r, household := h } }
    | .merge => { x with merge := { x.merge with enable := v.getLsbD 0, dring := r, household := h } }

/-- A doubleword of a parish block written by a Reeve. -/
def State.writeParishReg (s : State) (p : ParishRef) (off : Nat) (v : Word64) : State :=
  if off < 0x4000 then s.writePorterReg (.parish p.die p.par (off / 0x1000)) .reeve (off % 0x1000) v
  else if off = 0x9000 then s.writeEngineCtrl p .press v
  else if off = 0xa000 then s.writeEngineCtrl p .merge v
  else if 0xb000 ≤ off ∧ off < 0xb200 then s.writeTallyReg (.parish p.die p.par ((off - 0xb000) / 0x100)) true (off % 0x100) v
  else s

/-- A controller register (Table 7.11). The 4-bit LC_CAP has no stated reading for a share of 16 (log entry 12). -/
def State.ctlReg (s : State) (c : CtlRef) (off : Nat) : Nat :=
  let x := s.ctl c
  match off with
  | 0x00 => x.rate.toNat + 4 * flag x.density + x.refresh.toNat * 8
  | 0x08 => x.corrected.toNat + x.poisoned.toNat * 2 ^ 16 + x.link.toNat * 2 ^ 32
  | 0x10 => (if s.settings.lcCap = 16 then Config.lcCapSixteen.toNat else s.settings.lcCap.toNat) + s.settings.backFloor.toNat * 16
  | _ => 0

/-! ## Accesses by effective address -/

/-- A run of an access: memory of this package, or a block of registers. -/
inductive Run
  | mem (p : Place)
  | hamlet (m : HamletRef) (off len : Nat)
  | gran (p : ParishRef) (off len : Nat)
  | ctl (c : CtlRef) (off len : Nat)
deriving DecidableEq, Repr

/-- The runs of an access within this package, none where a byte faults or lies in another package. -/
def State.runs (s : State) (a : Actor) (write : Bool) (ea n : Nat) : Option (List Run) :=
  (runsOf ea n).mapM fun r =>
    match s.resolve a write r.1 with
    | some (.mem x c) => some (.mem ⟨x, r.2, c⟩)
    | some (.reg m off) => some (.hamlet m off r.2)
    | some (.granary p off) => some (.gran p off r.2)
    | some (.controller c off) => some (.ctl c off r.2)
    | _ => none

/-- The bytes of a run of doublewords. -/
def regBytes (f : Nat → Nat) (off n : Nat) : List Byte :=
  slice ((List.range ((off + n + 7) / 8 - off / 8)).flatMap fun i => toBytes 8 (f (8 * (off / 8 + i)))) (off % 8) n

/-- The doublewords that a write covers whole, with their values. -/
def wholeWords (off : Nat) (d : List Byte) : List (Nat × Word64) :=
  let lo := (off + 7) / 8
  (List.range ((off + d.length) / 8 - lo)).map fun i => (8 * (lo + i), BitVec.ofNat 64 (recNat d (8 * (lo + i) - off) 8))

/-- An access to a hamlet block wakes the hamlet, but for a read of HAMLET_PWR alone (R186, R385). -/
def State.wakeBlock (s : State) (m : HamletRef) (write : Bool) (off n : Nat) : State :=
  if !write && decide (0xd000 ≤ off) && decide (off + n ≤ 0xd008) then s else s.wake m

/-- What a run does besides moving data. -/
def Run.arrive (write alloc : Bool) (s : State) : Run → State
  | .mem p => (s.wakeFor p.addr).touch p.addr p.len write alloc
  | .hamlet m off n => s.wakeBlock m write off n
  | _ => s

/-- Whether a hamlet is behind a raised fence. -/
def State.behindFence (s : State) (m : HamletRef) : Bool := (s.hamlet m).fence != .lowered

/-- The bytes of a run and whether they carry poison; a fenced hamlet reads zeros (R189). -/
def Run.load (s : State) : Run → List Byte × Bool
  | .mem p => s.loadMem p.addr p.len p.crypt
  | .hamlet m off n => (if s.behindFence m then List.replicate n 0 else regBytes (s.hamletReg m) off n, false)
  | .gran p off n => (regBytes (s.parish p).granReg off n, false)
  | .ctl c off n => (regBytes (s.ctlReg c) off n, false)

/-- The length of a run. -/
def Run.len : Run → Nat
  | .mem p => p.len
  | .hamlet _ _ n => n
  | .gran _ _ n => n
  | .ctl _ _ n => n

/-- Bytes written to a run. -/
def Run.store (s : State) (by_ : Writer) (d : List Byte) (poisoned : Bool) : Run → State
  | .mem p => s.storeMem p.addr d p.crypt poisoned
  | .hamlet m off _ =>
    if s.behindFence m then s else (wholeWords off d).foldl (fun t w => t.writeHamletReg m by_ w.1 w.2) s
  | _ => s

/-- Bytes written to some runs. -/
def State.storeRuns (s : State) (by_ : Writer) : List Run → List Byte → Bool → State
  | [], _, _ => s
  | r :: rs, d, poisoned => (r.store s by_ (d.take r.len) poisoned).storeRuns by_ rs (d.drop r.len) poisoned

/-! Raw access (R177). -/

/-- The slots that some runs touch raw. -/
def State.rawRuns (s : State) (holds : List SlotRef) (write : Bool) (rs : List Run) : List SlotRef :=
  rs.flatMap fun r =>
    match r with
    | .mem p => s.rawSlots holds write p.addr p.len
    | _ => []

/-- The poisoned LPDDR blocks that a step of a serving job reads are kept with the step (R300). -/
def State.noteBad (s : State) (a : Actor) (rs : List Run) : State :=
  let bad := (rs.flatMap fun r => match r with
    | .mem p => if isSram p.addr then [] else blocksOf p.addr p.len
    | _ => []).filter fun b => s.blkPoison.contains b
  match a.job, bad with
  | _, [] => s
  | none, _ => s
  | some n, l => s.modJob n fun j => if j.serving.active then
      { j with serving := { j.serving with badBlocks := l.foldl setInsert j.serving.badBlocks } } else j

/-! KV pages (R285, R289) and adapters (R299). -/

/-- Whether a request of the current step may read page `i` of its list, or write it: positions below LENGTH and those of its own rows can be
read, and only the latter are written. -/
def Serving.kvMay (v : Serving) (e : Nat) (x : Entry) (write : Bool) (i : Nat) : Bool :=
  let rows := (v.rows.filter fun r => r.entry == e).length
  v.batch.contains e && decide (128 * i < x.length + rows) && (!write || decide (x.length < 128 * (i + 1)))

/-- Whether a household address lies in the KV pool of a session of a job. -/
def State.poolOf (s : State) (n ha : Nat) : Bool := s.sessions.cells.any fun c => c.2.job == n && (c.2.pageAt ha).isSome

/-- Whether a KV access of a job's agents at a household address is one that no request of the step may make. -/
def State.kvMisuse (s : State) (n : Nat) (j : Job) (write : Bool) (ha : Nat) : Bool :=
  s.sessions.cells.any fun c => c.2.job == n &&
    match c.2.pageAt ha with
    | none => false
    | some p => !s.ledger.cells.any fun e => e.2.session == c.1 && decide (e.2.state = .active) &&
        (e.2.pages.zipIdx.any fun q => q.1 == p && j.serving.kvMay e.1 e.2 write q.2)

/-- A step that reads KV beyond LENGTH, or writes it to a page that is not its own or with poison (R300), is a host error: the KV cache and the
tokens of the job are free from then on (R404, log entry 87). -/
def State.noteKv (s : State) (a : Actor) (write : Bool) (ea n : Nat) (poisoned : Bool := false) : State :=
  match a.job with
  | none => s
  | some k =>
    match s.jobs.find k with
    | none => s
    | some j =>
      if j.serving.active && (sectorStarts ea n).any fun x =>
          s.kvMisuse k j write (x % 2 ^ 48) || (poisoned && s.poolOf k (x % 2 ^ 48)) then
        s.modJob k fun x => { x with serving := { x.serving with kvWild := true } }
      else s

/-- Whether a write of `n` bytes by an actor of a household changes the data of an adapter that a request pins: it covers the data's first
byte, or begins in the data, whose length is open (R299, log entry 87). -/
def Adapter.writtenAt (x : Adapter) (hh ea n : Nat) : Bool :=
  let ha := ea % 2 ^ 48
  x.household == hh && decide (0 < x.count) && decide (0 < n) &&
    ((decide (ha ≤ x.ha.toNat) && decide (x.ha.toNat < ha + n)) ||
      (decide (x.ha.toNat < ha) && decide (ha < x.ha.toNat + Config.adapterLen x.id)))

/-- Adapters whose data a write changes while a request pins them: the tokens of those requests are free from then on (R404). -/
def State.noteAdapters (s : State) (a : Actor) (ea n : Nat) : State :=
  if s.adapters.cells.any fun c => c.2.writtenAt a.household ea n then
    { s with adapters := s.adapters.mapV fun _ x => if x.writtenAt a.household ea n then { x with changed := true } else x }
  else s

/-- Read memory or registers at an address, by an agent that holds some slots: the bytes, their poison and the state after; none where
the access faults. Raw access to ring memory, and KV that has been misused, reads free bytes. -/
def State.readAt (s : State) (a : Actor) (holds : List SlotRef) (alloc : Bool) (ea n : Nat) : Option ((List Byte × Bool) × State) :=
  (s.runs a false ea n).map fun rs =>
    let t := ((rs.foldl (Run.arrive false alloc) s).noteBad a rs).noteKv a false ea n
    let l := rs.map fun r => r.load t
    if (t.rawRuns holds false rs).isEmpty && !t.kvOpen a ea n then (((l.map Prod.fst).flatten, l.any Prod.snd), t)
    else (((t.freshBytes n).1, l.any Prod.snd), (t.freshBytes n).2)

/-- Write memory or registers at an address, by a writer that holds some slots; none where the access faults. Raw access to ring memory
leaves the slots with free bytes. -/
def State.writeAt (s : State) (a : Actor) (by_ : Writer) (holds : List SlotRef) (alloc : Bool) (ea : Nat) (d : List Byte) (poisoned : Bool) :
    Option State :=
  (s.runs a true ea d.length).map fun rs =>
    let t := ((rs.foldl (Run.arrive true alloc) s).noteKv a true ea d.length poisoned).noteAdapters a ea d.length
    (t.rawRuns holds true rs).foldl State.freeSlot (t.storeRuns by_ rs d poisoned)

/-- The slots that a Hand holds. -/
def State.heldBy (s : State) (h : HandRef) : List SlotRef := (s.hand h).claims ++ (s.hand h).resvs

/-- Whether an address lies in another package that the board group reaches (R197). -/
def State.isRemote (s : State) (a : Actor) (write : Bool) (ea : Nat) : Bool :=
  match s.resolve a write ea with
  | some (.remote _) => true
  | _ => false

end Sys2Proof.Machine
end

