-- ==== Sys2Proof/Machine/Porters.lean ====
section
/-! DEFINITION. Porters (R215 to R223): their descriptors, rows, rings as endpoints, REDUCE, errors and completion. -/

namespace Sys2Proof.Machine

/-! ## Descriptors (Table 7.10) -/

/-- ROW_BYTES, ROWS and SLOT_ROWS. -/
def rowLen (d : Vec) : Nat := fieldOf d 192 24
def rowCount (d : Vec) : Nat := fieldOf d 216 24
def slotRows (d : Vec) : Nat := if fieldOf d 240 16 = 0 then rowCount d else fieldOf d 240 16
/-- SRC_RING and DST_RING. -/
def srcRing (d : Vec) : Bool := d.getLsbD 12
def dstRing (d : Vec) : Bool := d.getLsbD 13
/-- Address of row `i` of a source or destination: its base and signed stride, modulo 2^64 (R217). -/
def rowEa (d : Vec) (base stride i : Nat) : Nat :=
  unsigned 64 ((fieldOf d base 64 : Nat) + (i : Int) * signed 48 (fieldOf d stride 48))
/-- Row `i` of SRC and of DST. -/
def srcEa (d : Vec) (i : Nat) : Nat := rowEa d 64 256 i
def dstEa (d : Vec) (i : Nat) : Nat := rowEa d 128 320 i
/-- OP of a REDUCE. -/
def reduceOp (d : Vec) : Nat := fieldOf d 384 3

/-- Whether a TYPE is defined. -/
def porterTypeValid (t : Nat) : Bool := decide (1 ≤ t) && decide (t ≤ 4)

/-- The checks of BAD_DESC (R221). -/
def porterDescValid (d : Vec) : Bool :=
  porterTypeValid (descType d) && decide (fieldOf d 8 2 ≠ 3) && decide (fieldOf d 10 2 < 2) &&
    zeroFields d [(28, 4), (304, 16), (368, 16), (461, 3), (480, 32)] &&
    (!srcRing d || zeroFields d [(77, 51)]) && (!dstRing d || zeroFields d [(141, 51)]) &&
    (decide (descType d ≠ 4) || (decide (reduceOp d < 4) && zeroFields d [(388, 28)])) &&
    (decide (descType d ≠ 1) || zeroFields d [(384, 64)])

/-- Whether the counts of rows are values that Table 7.10 does not reserve. -/
def porterRowsValid (d : Vec) : Bool := decide (rowLen d ≠ 0) && decide (rowCount d ≠ 0)

/-- The die of a Porter, and its hamlet where it has one. -/
def porterDie : PorterRef → Nat
  | .hamlet d _ _ => d
  | .parish d _ _ => d

/-- Whether a Porter can work: a hamlet's runs only while the hamlet is Active. -/
def State.porterRuns (s : State) (p : PorterRef) : Bool :=
  match p with
  | .hamlet d k _ => decide ((s.hamlet ⟨d, k⟩).power = .active)
  | .parish _ _ _ => true

/-- A Porter works in this cycle (R369, R371). -/
def State.porterBusy (s : State) (p : PorterRef) : State :=
  match p with
  | .hamlet d k _ => s.stir.busy ⟨d, k⟩
  | .parish _ _ _ => s.stir

/-- The job, household and hamlet port of a descriptor: those of the issuing Hand, else of the Porter's hamlet or parish. -/
def State.porterJob (s : State) (p : PorterRef) (e : PorterDesc) : Option (Nat × Job) := s.jobOfPorter p e.issuer
def State.porterActor (s : State) (p : PorterRef) (e : PorterDesc) : Actor :=
  match s.porterJob p e with
  | some (n, j) => actorOf n j
  | none => { household := 0, job := none }
def State.porterPort (s : State) (p : PorterRef) (e : PorterDesc) : HamletRef :=
  match e.issuer, p with
  | some h, _ => handSlot h
  | none, .hamlet d k _ => ⟨d, k⟩
  | none, .parish d q _ =>
    ((s.porterJob p e).bind fun j => (j.2.places.find? fun x => x.die == d && x.logical / 4 == q).map fun x => ⟨x.die, x.slot⟩).getD ⟨d, 4 * q⟩

/-- The slots that a descriptor may reach by address: those that its issuer holds (R177). -/
def State.porterHolds (s : State) (e : PorterDesc) : List SlotRef :=
  match e.issuer with
  | some h => s.heldBy h
  | none => []

/-! ## Errors (R221) -/

/-- The causes of PORTER_FIRST_ERR. -/
inductive PorterErr
  | badDesc
  | xlate
  | badDst
  | foreign
  | poison
deriving DecidableEq, Repr

/-- CAUSE. -/
def PorterErr.code : PorterErr → BitVec 3
  | .badDesc => 1
  | .xlate => 2
  | .badDst => 3
  | .foreign => 4
  | .poison => 5

/-- The sticky bit of a cause. -/
def PorterSticky.note (k : PorterSticky) : PorterErr → PorterSticky
  | .badDesc => { k with badDesc := true }
  | .xlate => { k with xlate := true }
  | .badDst => { k with badDst := true }
  | .foreign => { k with foreign := true }
  | .poison => { k with poison := true }

/-- An error is recorded: its sticky bit, and PORTER_FIRST_ERR where it is the first. -/
def Porter.note (x : Porter) (e : PorterErr) (tile : Word32) (row : Nat) : Porter :=
  let y := { x with sticky := x.sticky.note e }
  if x.errCause = 0 then { y with errTile := tile, errRow := BitVec.ofNat 24 row, errCause := e.code } else y

/-- The PORTER event at the Hand that issued a descriptor. -/
def State.porterEvent (s : State) (e : PorterDesc) : State :=
  match e.issuer with
  | some h => s.raiseEvent h .porter
  | none => s

/-- An error stops a descriptor: it is recorded, the Porter halts and the event is raised (R221). -/
def State.porterStop (s : State) (p : PorterRef) (e : PorterDesc) (k : PorterErr) (row : Nat) : State :=
  (s.modPorter p fun x => { x.note k (descTile e.desc) row with cur := none, run := none, halted := true }).porterEvent e

/-! ## REDUCE (R219) -/

/-- The Lot lane of element `e`. `foreign` where compiled code names a stream of the firmware, which draws free bits; the firmware's own
running sums draw those of R63 (R65, R219). -/
def reduceLane (base seed : Word64) (free tile stream : Nat) (foreign : Bool) (e : Nat) : Nat :=
  if foreign then (Config.freeWord (free + e)).toNat % 65536
  else lotLane (lotValue base seed (e / 8) tile stream) (e % 8)

/-- The sum of two elements under an OP: INT32 wrapping or saturating, FP32 or BF16. -/
def reduceElem (op : Nat) (r : Rounding) (a b : Nat) : Nat :=
  if op = 0 then (a + b) % 2 ^ 32
  else if op = 1 then unsigned 32 (max (-(2 ^ 31 : Int)) (min (2 ^ 31 - 1) (signed 32 a + signed 32 b)))
  else if op = 2 then (fpAddV .fp32 r (decodeFp .fp32 a) (decodeFp .fp32 b)).bits
  else (fpAddV .bf16 r (decodeFp .bf16 a) (decodeFp .bf16 b)).bits

/-- Bytes of an element. -/
def reduceSize (op : Nat) : Nat := if op = 3 then 2 else 4

/-- What a REDUCE needs beside its elements: OP, ROUND, stream, tile, the number of its first element, and whether a Reeve pushed it. -/
structure ReduceSpec where
  op : Nat
  round : Bool
  stream : Nat
  tile : Nat
  first : Nat
  byReeve : Bool := false
deriving DecidableEq, Repr

/-- Whether compiled code draws on a stream of the firmware (R65). -/
def ReduceSpec.foreign (q : ReduceSpec) : Bool := q.round && firmwareStream q.stream && !q.byReeve

/-- The elements of a row added into those at the destination. -/
def reduceBytes (q : ReduceSpec) (base seed : Word64) (free : Nat) (old new : List Byte) : List Byte :=
  let n := reduceSize q.op
  ((List.zip (words n old) (words n new)).zipIdx.flatMap fun x =>
    let r := if q.round then .stochastic (reduceLane base seed free q.tile q.stream q.foreign (q.first + x.2)) else .nearest
    toBytes n (reduceElem q.op r x.1.1 x.1.2))

/-- Whether a granule of a die, by its number there, is in scratch mode. -/
def State.isScratch (s : State) (d g : Nat) : Bool := decide (g < 160) && (s.parish ⟨d, g / 40⟩).scratch.getLsbD (g % 40)

/-- Whether the destination of a REDUCE is of the kinds that R219 allows: an LPDDR page or a granule in scratch mode. The modes of another
package's granules are for their home to judge. -/
def State.reduceDst (s : State) (ea n : Nat) (remote : Bool) : Bool :=
  let ha := ea % 2 ^ 48
  let o := (ha - sramBase) % 0x40000000
  let g := o / 0x100000
  decide (ha < viewBase) ||
    (decide (sramBase ≤ ha) && decide (ha < 0xf00000000000) && decide (o < 160 * 0x100000) &&
      (remote || (List.range ((o + n - 1) / 0x100000 - g + 1)).all fun i => s.isScratch ((ha - sramBase) / 0x40000000) (g + i)))

/-- Free Lot bits used up by the elements of a firmware stream that compiled code names. -/
def State.spendLots (s : State) (q : ReduceSpec) (n : Nat) : State :=
  if q.foreign then { s with freeCtr := s.freeCtr + q.first + n } else s

/-- The home adds the elements into memory (R219): none where the access faults. -/
def State.reduceAt (s : State) (a : Actor) (seed : Word64) (q : ReduceSpec) (ea : Nat) (d : List Byte) (poisoned alloc : Bool) :
    Option State :=
  match s.places a true ea d.length with
  | none => none
  | some ps =>
    let t := s.arrive true alloc ps
    let old := t.loadPlaces ps
    let u := (t.noteKv a true ea d.length (poisoned || old.2)).noteAdapters a ea d.length
    some ((u.rawPlaces true ps).foldl State.freeSlot
      ((u.storePlaces ps (reduceBytes q s.settings.lotSeed seed s.freeCtr old.1 d) (poisoned || old.2)).spendLots q (d.length / reduceSize q.op)))

/-- The 16-byte block in front of the elements of a REDUCE packet (R309). -/
def ReduceSpec.block (q : ReduceSpec) : List Byte :=
  toBytes 4 (q.op + 8 * flag q.round) ++ toBytes 4 q.stream ++ toBytes 4 q.tile ++ toBytes 4 q.first

/-! ## Rows -/

/-- What fetching some bytes gives. -/
inductive Fetch
  | bytes (d : List Byte) (poison : Bool) (s : State)
  | waiting (s : State)
  | fault
deriving DecidableEq, Repr

/-- Whether a requester is a Porter that reads, or that writes. -/
def readsFor (p : PorterRef) : Requester → Bool
  | .porterRead q _ => q == p
  | _ => false
def writesFor (p : PorterRef) : Requester → Bool
  | .porterWrite q _ => q == p
  | _ => false

/-- READ requests of a Porter to another package. -/
def State.askRemote (s : State) (p : PorterRef) (hh ea n : Nat) : Option State := s.ask (porterDie p) hh ea n (.porterRead p)

/-- The bytes of a descriptor's row or index entry: read here, or from another package, where the Porter waits for the answers. -/
def State.porterFetch (s : State) (p : PorterRef) (c : PorterCur) (a : Actor) (ea n : Nat) : Fetch :=
  if s.isRemote a false ea then
    let l := (List.range n).map fun i => c.rbuf.find (ea + i)
    if l.all Option.isSome then .bytes (l.map fun b => (b.map Prod.fst).getD 0) (l.any fun b => (b.map Prod.snd).getD false) s
    else if s.openReqs (porterDie p) (readsFor p) then .waiting s
    else
      match s.askRemote p a.household ea n with
      | some t => .waiting t
      | none => .fault
  else
    match s.readAt a (s.porterHolds c.desc) (c.desc.desc.getLsbD 10) ea n with
    | some (b, t) => .bytes b.1 b.2 t
    | none => .fault

/-- Bytes of a row of a Porter sent to another package. -/
def State.tellRemote (s : State) (p : PorterRef) (row hh ea : Nat) (d : List Byte) (poisoned : Bool) : Option State :=
  s.tell (porterDie p) hh ea d poisoned (.porterWrite p row)

/-- A REDUCE for another package: a stream of the firmware that compiled code names becomes a free one, so that the home draws free bits (R65). -/
def State.sentSpec (s : State) (q : ReduceSpec) : ReduceSpec × State :=
  if q.foreign then ({ q with stream := s.fresh.1.toNat % 2 ^ 32 }, s.fresh.2) else (q, s)

/-- Elements of a row sent to another package in REDUCE packets of at most 4,080 bytes of elements (R309). -/
def State.reduceRemote (s : State) (p : PorterRef) (row hh : Nat) (q : ReduceSpec) (ea : Nat) (d : List Byte) (poisoned : Bool) : Option State :=
  let v := s.sentSpec q
  (pieces 4080 d.length ea d.length).foldl
    (fun t x => t.bind fun u =>
      u.request (porterDie p) 2 x.1 hh x.2 ({ v.1 with first := q.first + (x.1 - ea) / reduceSize q.op }.block ++ slice d (x.1 - ea) x.2) poisoned
        (.porterWrite p row)) (some v.2)

/-- The REDUCE of row `r` of a descriptor. -/
def reduceSpec (d : Vec) (byReeve : Bool) (r : Nat) : ReduceSpec :=
  { byReeve := byReeve, op := reduceOp d, round := d.getLsbD 387, stream := fieldOf d 416 32, tile := (descTile d).toNat
    first := r * (rowLen d / reduceSize (reduceOp d)) }

/-- A row delivered to memory: the state after, or the error. -/
def State.deliverMem (s : State) (p : PorterRef) (e : PorterDesc) (r ea : Nat) (b : List Byte) (poisoned : Bool) : Except PorterErr State :=
  let d := e.desc
  let a := s.porterActor p e
  let alloc := d.getLsbD 10
  let seed := ((s.porterJob p e).map fun j => j.2.seed).getD 0
  let remote := s.isRemote a true ea
  let out :=
    if descType d = 4 then
      (if remote then s.reduceRemote p r a.household (reduceSpec d e.byReeve r) ea b poisoned
      else s.reduceAt a seed (reduceSpec d e.byReeve r) ea b poisoned alloc)
    else if remote then s.tellRemote p r a.household ea b poisoned
    else s.writeAt a (.porter p) (s.porterHolds e) alloc ea b poisoned
  if descType d = 4 ∧ s.reduceDst ea b.length remote = false then .error .badDst
  else
    match out with
    | some t => .ok t
    | none => .error .xlate

/-- The stream without its first `n` bytes; slots that are used up leave it. -/
def dropStream : Nat → List SlotIn → List SlotIn
  | _, [] => []
  | n, x :: l => if x.bytes.length ≤ n then dropStream (n - x.bytes.length) l else { x with bytes := x.bytes.drop n } :: l

/-- What a row of a descriptor comes to. -/
inductive RowOut
  | next (c : PorterCur) (s : State)
  | hold (c : PorterCur) (s : State)
  | stop (e : PorterErr) (s : State)
deriving DecidableEq, Repr

/-- The index entry of a row: none for the types without one. -/
inductive RowEntry
  | plain
  | index (i : Nat)
  | empty (poison : Bool)
deriving DecidableEq, Repr

/-- The index entry that some bytes spell (R217, R390). -/
def rowEntry (d : List Byte) (poison : Bool) : RowEntry :=
  if poison then .empty true else if ofBytes d = 0xffffffff then .empty false else .index (ofBytes d)

/-- The destination slot is published with the rows that it holds (R218). -/
def State.publishFill (s : State) (r : RingRef) (c : PorterCur) : State :=
  match c.slot with
  | none => s
  | some i =>
    let d := c.desc.desc
    let x := s.ring r
    let t := s.padWrite (ringSlot r) (x.payloadOff i) (c.fill.take x.capacity) false
    let w := hdrWord (BitVec.ofNat 4 (fieldOf d 16 4)) (BitVec.ofNat 8 (fieldOf d 20 8)) c.fillPoison (min c.fill.length (2 ^ 21 - 1))
    let h := t.hdrFor w
    h.2.publishSlot r i h.1 (some 0)

/-- Nothing of a slot is held. -/
def PorterCur.emptied (c : PorterCur) : PorterCur := { c with slot := none, fill := [], fillRows := 0, fillPoison := false }

/-- A row packed into the destination slot; the slot is published after its last row (R218). A publish on a disabled ring waits for good (R178). -/
def State.pack (s : State) (r : RingRef) (c : PorterCur) (b : List Byte) (poisoned : Bool) : PorterCur × State :=
  let d := c.desc.desc
  let y := { c with fill := c.fill ++ b, fillRows := c.fillRows + 1, fillPoison := c.fillPoison || poisoned }
  if y.fillRows = slotRows d ∨ c.row + 1 = rowCount d then
    (if (s.ring r).enable then (y.emptied, s.publishFill r y) else ({ y with hung := true }, s))
  else (y, s)

/-- A row with its bytes goes to its destination; `skip` where a SCATTER leaves it out: in a destination slot such a row counts as one of its rows
and adds no bytes (log entry 132). `s0` is the state before the row was read, to
which a wait for a slot goes back. -/
def State.putRow (s s0 : State) (p : PorterRef) (c0 c : PorterCur) (ring : Option RingRef) (ea : Nat) (b : List Byte) (poisoned skip : Bool) :
    RowOut :=
  let done := fun (y : PorterCur) (t : State) =>
    if y.hung then RowOut.hold y t
    else RowOut.next { y with row := y.row + 1, rbuf := {}, poisoned := y.poisoned || (poisoned && !skip) } t
  match ring with
  | some r =>
    let row := if skip then [] else b
    (match c.slot with
    | some _ =>
      let z := s.pack r c row (poisoned && !skip)
      done z.1 z.2
    | none =>
      match s.engineSlot r (.porter p) false with
      | (some i, t) =>
        let z := t.pack r { c with slot := some i } row (poisoned && !skip)
        done z.1 z.2
      | (none, _) => .hold c0 (s0.engineSlot r (.porter p) false).2)
  | none =>
    if skip then done c s
    else
      match s.deliverMem p c.desc c.row ea b poisoned with
      | .ok t => done c t
      | .error e => .stop e s

/-- PORTER_STICKY.POISON, with the record where it is the first (R218, R390). -/
def State.notePoison (s : State) (p : PorterRef) (c : PorterCur) (poisoned : Bool) : State :=
  if poisoned then s.modPorter p fun x => x.note .poison (descTile c.desc.desc) c.row else s

/-- The rings of a descriptor, resolved for its job. -/
structure PorterRings where
  src : Option RingRef
  dst : Option RingRef
deriving DecidableEq, Repr

/-- A row whose index entry is known. -/
def State.rowWith (s s0 : State) (p : PorterRef) (c : PorterCur) (q : PorterRings) (e : RowEntry) : RowOut :=
  let d := c.desc.desc
  let n := rowLen d
  let gather := decide (descType d = 2)
  let si := match e with
    | .index i => if gather then i else c.row
    | _ => c.row
  let di := match e with
    | .index i => if gather then c.row else i
    | _ => c.row
  let gone := match e with
    | .empty _ => true
    | _ => false
  let bad := match e with
    | .empty b => b
    | _ => false
  if gather && gone then (s.notePoison p c bad).putRow s0 p c c q.dst (dstEa d di) (List.replicate n 0) bad false
  else
    match q.src with
    | some r =>
      let g := State.gatherSlots r (.porter p) (fun l => decide (n ≤ (allBytes l).length)) ((s.ring r).size + 1) c.stream s
      if g.2.1 then
        let y := { c with stream := dropStream n g.1 }
        let pz := ((poisonMap g.1).take n).any id
        (g.2.2.notePoison p c (pz || bad)).putRow g.2.2 p { c with stream := g.1 } y q.dst (dstEa d di) ((allBytes g.1).take n) pz gone
      else .hold { c with stream := g.1 } g.2.2
    | none =>
      if gone then (s.notePoison p c bad).putRow s0 p c c q.dst 0 [] bad true
      else
        match s.porterFetch p c (s.porterActor p c.desc) (srcEa d si) n with
        | .bytes b pz t => (t.notePoison p c pz).putRow s0 p c c q.dst (dstEa d di) b pz false
        | .waiting t => .hold c t
        | .fault => .stop .xlate s

/-- One row of a descriptor (R217, R218). -/
def State.porterRow (s : State) (p : PorterRef) (c : PorterCur) (q : PorterRings) : RowOut :=
  let d := c.desc.desc
  if descType d = 2 ∨ descType d = 3 then
    match s.porterFetch p c (s.porterActor p c.desc) ((fieldOf d 384 64 + 4 * c.row) % 2 ^ 64) 4 with
    | .bytes b pz t => t.rowWith s p c q (rowEntry b pz)
    | .waiting t => .hold c t
    | .fault => .stop .xlate s
  else s.rowWith s p c q .plain

/-! ## Host errors (R222) -/

/-- Index entries of a descriptor as they stand; those that cannot be read count as empty. -/
def State.porterIndexes (s : State) (a : Actor) (d : Vec) : List RowEntry :=
  (List.range (rowCount d)).map fun r =>
    if descType d = 2 ∨ descType d = 3 then
      (match s.places a false ((fieldOf d 384 64 + 4 * r) % 2 ^ 64) 4 with
      | some ps => rowEntry (s.loadPlaces ps).1 (s.loadPlaces ps).2
      | none => .empty false)
    else .plain

/-- Source and destination addresses of the rows that a descriptor moves. -/
def rowMoves (d : Vec) (l : List RowEntry) : List (Nat × Nat) :=
  l.zipIdx.filterMap fun x =>
    match x.1 with
    | .plain => some (srcEa d x.2, dstEa d x.2)
    | .index i => some (if descType d = 2 then (srcEa d i, dstEa d x.2) else (srcEa d x.2, dstEa d i))
    | .empty _ => none

/-- Package addresses of some rows. -/
def State.rowPlaces (s : State) (a : Actor) (write : Bool) (l : List Nat) (n : Nat) : List Place :=
  l.flatMap fun ea => (s.places a write ea n).getD []

/-- Whether two runs of memory share a byte. -/
def placesMeet (x y : Place) : Bool := decide (x.addr < y.addr + y.len) && decide (y.addr < x.addr + x.len)

/-- Whether a descriptor breaks R222: source and destination overlap, or a REDUCE is not aligned to its elements. -/
def State.porterBroken (s : State) (p : PorterRef) (e : PorterDesc) : Bool :=
  let d := e.desc
  let a := s.porterActor p e
  let mv := rowMoves d (s.porterIndexes a d)
  let src := if srcRing d then [] else s.rowPlaces a false (mv.map Prod.fst) (rowLen d)
  let dst := if dstRing d then [] else s.rowPlaces a true (mv.map Prod.snd) (rowLen d)
  let n := reduceSize (reduceOp d)
  (src.any fun x => dst.any fun y => placesMeet x y) ||
    (decide (descType d = 4) &&
      (decide (rowLen d % n ≠ 0) || mv.any fun m => (!srcRing d && decide (m.1 % n ≠ 0)) || decide (m.2 % n ≠ 0)))

/-- The destination bytes of a descriptor take free values (R222, log entry 7). -/
def State.freeDst (s : State) (p : PorterRef) (e : PorterDesc) (ring : Option RingRef) : State :=
  let d := e.desc
  let a := s.porterActor p e
  match ring with
  | some r => s.freeRing r
  | none =>
    (rowMoves d (s.porterIndexes a d)).zipIdx.foldl (fun t x =>
      let m := x.1
      let b := t.freshBytes (rowLen d)
      let out := if t.isRemote a true m.2 then b.2.tellRemote p x.2 a.household m.2 b.1 false
        else b.2.writeAt a (.porter p) (s.porterHolds e) false m.2 b.1 false
      out.getD t) s

/-! ## Running a descriptor -/

/-- All rows are done: a stream that ends inside a slot, or a descriptor that breaks R222, leaves its destination free; the descriptor
then waits to complete (R220). -/
def State.porterFinish (s : State) (p : PorterRef) (c : PorterCur) (q : PorterRings) : State :=
  let rest := !(allBytes c.stream).isEmpty
  let t := if rest then (match q.src with | some r => s.freeRing r | none => s) else s
  let u := if rest || c.broken then t.freeDst p c.desc q.dst else t
  u.modPorter p fun x => { x with cur := none, run := some ⟨c.desc, c.poisoned⟩ }

/-- A descriptor stops for an error: the slot that it fills is published first (log entry 72); on a disabled ring that waits for good (R178). -/
def State.stopFilled (s : State) (p : PorterRef) (c : PorterCur) (e : PorterErr) (dst : Option RingRef) : State :=
  match dst, c.slot with
  | some r, some _ =>
    if (s.ring r).enable then (s.publishFill r c).porterStop p c.desc e c.row else s.modPorter p fun x => { x with cur := some { c with hung := true } }
  | _, _ => s.porterStop p c.desc e c.row

/-- The rows of a descriptor one after another, until it ends, waits or stops; the fuel is the number of rows. Rows before a failing
row are complete, and a slot that holds some of them is published. -/
def State.porterRows (p : PorterRef) (q : PorterRings) : Nat → State → PorterCur → State
  | 0, s, c => s.porterFinish p c q
  | n + 1, s, c =>
    if c.hung then s.modPorter p fun x => { x with cur := some c }
    else
      match s.porterRow p c q with
      | .next c' t => State.porterRows p q n t c'
      | .hold c' t => t.modPorter p fun x => { x with cur := some c' }
      | .stop e t => t.stopFilled p c e q.dst

/-- What the ring fields of a descriptor name. -/
inductive PorterRingKind
  | rings (q : PorterRings)
  | foreign
  | outside (dst : Option RingRef)
deriving DecidableEq, Repr

/-- A ring of another job of the household. -/
def State.outsideRing (s : State) (hh ref : Nat) : Option RingRef :=
  (s.jobs.cells.filter fun c => c.2.live && c.2.household == hh).findSome? fun c => c.2.ringOf ref

/-- The rings of a descriptor (R174, R221, R222). -/
def State.porterRings (s : State) (p : PorterRef) (e : PorterDesc) : PorterRingKind :=
  let d := e.desc
  let sr := fieldOf d 64 13
  let dr := fieldOf d 128 13
  match s.porterJob p e with
  | none => if srcRing d || dstRing d then .foreign else .rings ⟨none, none⟩
  | some (_, j) =>
    let ks := s.refKind j sr
    let kd := s.refKind j dr
    if (srcRing d && ks == .foreign) || (dstRing d && kd == .foreign) then .foreign
    else if (srcRing d && ks == .outside) || (dstRing d && kd == .outside) then
      .outside (if dstRing d then (match j.ringOf dr with | some r => some r | none => s.outsideRing j.household dr) else none)
    else .rings ⟨if srcRing d then j.ringOf sr else none, if dstRing d then j.ringOf dr else none⟩

/-- A descriptor goes on from its next row. -/
def State.porterGo (s : State) (p : PorterRef) (c : PorterCur) : State :=
  match s.porterRings p c.desc with
  | .foreign => (s.foreignRing (s.porterPort p c.desc)).porterStop p c.desc .foreign c.row
  | .outside dst =>
    (s.freeDst p c.desc dst).modPorter p fun x => { x with cur := none, run := some ⟨c.desc, c.poisoned⟩ }
  | .rings q => State.porterRows p q (rowCount c.desc.desc - c.row) s c

/-- A descriptor leaves the queue and starts: the checks of BAD_DESC and of a REDUCE into a ring come first (R219, R221). Counts of rows
that Table 7.10 reserves have no stated effect. -/
def State.porterStart (s : State) (p : PorterRef) (e : PorterDesc) (rest : List PorterDesc) : Res :=
  let t := s.modPorter p fun x => { x with queue := rest }
  if !porterDescValid e.desc then .next (t.porterStop p e .badDesc 0)
  else if !porterRowsValid e.desc then .next (t.jobError (t.porterJob p e))
  else if descType e.desc = 4 ∧ dstRing e.desc = true then .next (t.porterStop p e .badDst 0)
  else .next (t.porterGo p { desc := e, broken := t.porterBroken p e })

/-- A Porter runs or goes on with a descriptor of one TYPE; a reserved TYPE is taken up by each of the four commands. -/
def State.runPorter (s : State) (p : PorterRef) (ty : Nat) : Res :=
  let x := s.porter p
  if !s.porterRuns p then .next s
  else
    match x.run, x.cur, x.queue with
    | none, some c, _ => if descType c.desc.desc = ty then .next ((s.porterGo p c).porterBusy p) else .next s
    | none, none, e :: rest =>
      if x.halted = false ∧ (descType e.desc = ty ∨ porterTypeValid (descType e.desc) = false) then (s.porterBusy p).porterStart p e rest
      else .next s
    | _, _, _ => .next s

/-- COPY (R217). -/
def execCopy (p : PorterRef) (s : State) : Res := s.runPorter p 1
/-- GATHER (R217). -/
def execGather (p : PorterRef) (s : State) : Res := s.runPorter p 2
/-- SCATTER (R217). -/
def execScatter (p : PorterRef) (s : State) : Res := s.runPorter p 3
/-- REDUCE (R219). -/
def execReduce (p : PorterRef) (s : State) : Res := s.runPorter p 4

/-- PORTER_DESC_WIN_PUSH: a store to PORTER_DESC_WIN7 (R215). -/
def execPorterDescWinPush (p : PorterRef) (v : Word64) (s : State) : Res := .next (s.pushPorterWin p .reeve v)

/-- PORTER_HALTED_CLEAR: a write to PORTER_STICKY (R221). -/
def execPorterHaltedClear (p : PorterRef) (v : Word64) (s : State) : Res :=
  let w := s.regValue (porterReserved 0x088) v
  .next (w.2.modPorter p fun x => x.clearSticky w.1)

/-- BELL_ADD of a descriptor (Tables 7.10 and 8.3); the value 0, which neither allows, adds a free value (R10, log entry 7). -/
def State.bellAmount (s : State) (d : Vec) : Word32 × State :=
  let n := fieldOf d 464 16
  if n = 0 then ((s.fresh.1.setWidth 16).setWidth 32, s.fresh.2) else (BitVec.ofNat 32 n, s)

/-- The Bell add of a descriptor (R220). -/
def State.porterBell (s : State) (p : PorterRef) (e : PorterDesc) : State :=
  if e.desc.getLsbD 14 then
    let v := s.bellAmount e.desc
    match s.porterJob p e with
    | some (_, j) => v.2.sendBell j (s.porterPort p e) (.porter p) (fieldOf e.desc 448 13) v.1
    | none => v.2.foreignBell (s.porterPort p e)
  else s

/-- PORTER_COMPLETE: every write is visible, those to other packages by their answers; then the Bell add, PORTER_DONE and the event
(R220, R317). -/
def execPorterComplete (p : PorterRef) (s : State) : Res :=
  match (s.porter p).run with
  | none => .next s
  | some r =>
    if s.openReqs (porterDie p) (writesFor p) then .next s
    else
      let t := (s.porterBell p r.desc).modPorter p fun x => { x with run := none, done := x.done + 1 }
      .next ((if r.desc.desc.getLsbD 15 || r.poisoned then t.porterEvent r.desc else t).porterBusy p)

end Sys2Proof.Machine
end

