-- ==== Sys2Proof/Machine/Press.lean ====
section
/-! DEFINITION. The Press engine and the merge tree of a parish (R229 to R251, R428). -/

namespace Sys2Proof.Machine

/-! ## Engines -/

/-- What the two engines of a parish have in common. -/
structure Engine where
  enable : Bool
  dring : BitVec 16
  dslot : Option DescSlot
  cur : Option EngineCur
  run : Option EngineRun
deriving DecidableEq, Repr

/-- An engine of a parish. -/
def State.engine (s : State) (p : ParishRef) (e : ParishEngine) : Engine :=
  let x := s.parish p
  match e with
  | .press => ⟨x.press.enable, x.press.dring, x.press.dslot, x.press.cur, x.press.run⟩
  | .merge => ⟨x.merge.enable, x.merge.dring, x.merge.dslot, x.merge.cur, x.merge.run⟩

/-- The descriptors of an engine: the claimed slot, the one that runs and the one that waits to complete. -/
def State.setEngine (s : State) (p : ParishRef) (e : ParishEngine) (x : Engine) : State :=
  s.modParish p fun y =>
    match e with
    | .press => { y with press := { y.press with dslot := x.dslot, cur := x.cur, run := x.run } }
    | .merge => { y with merge := { y.merge with dslot := x.dslot, cur := x.cur, run := x.run } }

/-- Whether a job's image asks for an engine (Table 12.16). -/
def Job.holdsEngine (j : Job) (p : ParishRef) (e : ParishEngine) : Bool :=
  j.image.places.any fun q =>
    q.die == p.die && (match e with | .press => q.press.getLsbD p.par | .merge => q.merge.getLsbD p.par)

/-- The live job that holds an engine (R233, R245). -/
def State.engineJob (s : State) (p : ParishRef) (e : ParishEngine) : Option (Nat × Job) :=
  s.jobs.cells.find? fun c => c.2.live && c.2.holdsEngine p e

/-! ## Descriptors (Table 8.3) -/

/-- SRC, DST, INDEX and STATUS. -/
def pressSrc (d : Vec) : Nat := fieldOf d 64 64
def pressDst (d : Vec) : Nat := fieldOf d 128 64
def pressIndex (d : Vec) : Nat := fieldOf d 256 64
def pressStatus (d : Vec) : Nat := fieldOf d 384 64
/-- COUNT of SCAN, ENCODE and DECODE; TILES and ROWS of MASKIDX; TABLE; BASE. -/
def pressCount (d : Vec) : Nat := fieldOf d 192 32
def maskTiles (d : Vec) : Nat := fieldOf d 192 10
def maskRows (d : Vec) : Nat := fieldOf d 202 10
def pressTable (d : Vec) : Nat := fieldOf d 16 4
def maskBase (d : Vec) : Nat := fieldOf d 320 32

/-- The checks of BAD_DESC that both engines share. -/
def engineDescValid (d : Vec) : Bool :=
  decide (fieldOf d 8 2 ≠ 3) && decide (fieldOf d 10 2 < 2) && zeroFields d [(224, 32), (461, 3), (480, 32)] &&
    (!srcRing d || zeroFields d [(77, 51)]) && (!dstRing d || zeroFields d [(141, 51)]) && (d.getLsbD 14 || zeroFields d [(464, 16)])

/-- COUNT of a Press descriptor in its range. -/
def pressCountValid (d : Vec) : Bool :=
  match descType d with
  | 0x01 => decide (1 ≤ pressCount d)
  | 0x03 => decide (1 ≤ pressCount d)
  | 0x04 => decide (1 ≤ pressCount d) && decide (pressCount d ≤ 2 ^ 24)
  | 0x06 => decide (1 ≤ maskTiles d) && decide (maskTiles d ≤ 512) && decide (1 ≤ maskRows d) && decide (maskRows d ≤ 512) &&
      zeroFields d [(212, 12)]
  | _ => decide (pressCount d = 0)

/-- The checks of BAD_DESC for a Press descriptor (R238, Table 8.3). -/
def pressDescValid (d : Vec) : Bool :=
  let t := descType d
  decide (1 ≤ t) && decide (t ≤ 6) && engineDescValid d && zeroFields d [(21, 11), (352, 32)] && pressCountValid d &&
    (if t = 2 ∨ t = 5 then decide (pressTable d ≠ 0) else t == 3 || decide (pressTable d = 0)) &&
    (t == 1 || !d.getLsbD 20) && (!(t == 2) || decide (pressSrc d = 0)) && (!(t == 1 || t == 5) || decide (pressDst d = 0)) &&
    (t == 3 || decide (pressIndex d = 0)) && (t == 6 || decide (maskBase d = 0))

/-- Fields of a merge descriptor (R245). -/
def mergeFmt (d : Vec) : Nat := fieldOf d 16 2
def mergeExpect (d : Vec) : Nat := fieldOf d 192 16
def mergeElems (d : Vec) : Nat := fieldOf d 208 16
def mergeSource (d : Vec) : Nat := fieldOf d 256 16

/-- The checks of BAD_DESC for a merge descriptor. -/
def mergeDescValid (d : Vec) : Bool :=
  decide (descType d = 1) && engineDescValid d && decide (mergeFmt d ≠ 3) &&
    zeroFields d [(18, 14), (272, 48), (320, 64)] && decide (1 ≤ mergeExpect d) && decide (mergeExpect d ≤ 8192) &&
    decide (1 ≤ mergeElems d) && decide (mergeElems d ≤ 4096)

/-! ## What a descriptor comes to -/

/-- CODE of Table 8.5. -/
inductive PressCodeVal
  | ok
  | badDesc
  | xlate
  | damaged
  | badTable
  | foreign
  | poison
  | capacity
deriving DecidableEq, Repr

/-- The code's number. -/
def PressCodeVal.num : PressCodeVal → Byte
  | .ok => 0
  | .badDesc => 1
  | .xlate => 2
  | .damaged => 3
  | .badTable => 4
  | .foreign => 5
  | .poison => 6
  | .capacity => 7

/-- A code with the block or record that met it; the first error of a descriptor is kept. -/
structure PressErr where
  code : PressCodeVal := .ok
  place : Nat := 0
deriving DecidableEq, Repr

/-- The error of a descriptor whose write failed at block or record `k`: that one, unless an earlier one, or one in reading the same block, came
first (R237). -/
def PressErr.atWrite (a : PressErr) (k : Nat) : PressErr := if a.code ≠ .ok ∧ a.place ≤ k then a else ⟨.xlate, k⟩

/-- The first of two errors. -/
def PressErr.then (a : PressErr) (c : PressCodeVal) (place : Nat) : PressErr := if a.code = .ok ∧ c ≠ .ok then ⟨c, place⟩ else a

/-- What running a descriptor gives: its end, or a wait at a ring. -/
inductive Work
  | ended (s : State) (e : PressErr) (result : Nat)
  | waits (c : EngineCur) (s : State)
deriving DecidableEq, Repr

/-- A part of the output, a block or record: bytes and their poison. -/
structure OutPart where
  bytes : List Byte
  poison : Bool := false
deriving DecidableEq, Repr

/-- The bytes of some parts. -/
def partBytes (l : List OutPart) : List Byte := l.flatMap (·.bytes)

/-- The context of a running descriptor: its engine, job and rings. -/
structure EngineCtx where
  par : ParishRef
  eng : ParishEngine
  num : Nat
  job : Job
  src : Option RingRef
  dst : Option RingRef
deriving DecidableEq, Repr

/-- The actor of an engine. -/
def EngineCtx.actor (x : EngineCtx) : Actor := actorOf x.num x.job

/-! Memory of this package and of others (R197, log entry 99). -/

/-- Whether a requester is an engine that reads, or that writes. -/
def engineReads (p : ParishRef) (e : ParishEngine) : Requester → Bool
  | .engineRead q g _ => q == p && g == e
  | _ => false
def engineWrites (p : ParishRef) (e : ParishEngine) : Requester → Bool
  | .engineWrite q g => q == p && g == e
  | _ => false

/-- Bytes that have come from another package, with their poison; none while one is missing. -/
def EngineCur.seen (c : EngineCur) (ea n : Nat) : Option (List Byte × Bool) :=
  let l := (List.range n).map fun i => c.rbuf.find (ea + i)
  if l.all Option.isSome then some (l.map fun b => (b.map Prod.fst).getD 0, l.any fun b => (b.map Prod.snd).getD false) else none

/-- The slot that an engine holds: that of its descriptors (R177, R233). -/
def State.engineHolds (s : State) (p : ParishRef) (e : ParishEngine) : List SlotRef := ((s.engine p e).dslot.map (·.slot)).toList

/-- Memory that an engine reads: of this package, or what has come from another one. -/
def State.engineLoad (s : State) (x : EngineCtx) (c : EngineCur) (ea n : Nat) : Option ((List Byte × Bool) × State) :=
  if s.isRemote x.actor false ea then (c.seen ea n).map fun b => (b, s)
  else s.readAt x.actor (s.engineHolds x.par x.eng) (c.desc.getLsbD 10) ea n

/-- Memory that an engine writes: of this package, or by WRITE packets to another one. -/
def State.engineStore (s : State) (p : ParishRef) (e : ParishEngine) (a : Actor) (alloc : Bool) (ea : Nat) (d : List Byte) (poisoned : Bool) :
    Option State :=
  if s.isRemote a true ea then s.tell p.die a.household ea d poisoned (.engineWrite p e)
  else s.writeAt a (.engine p e) (s.engineHolds p e) alloc ea d poisoned

/-- Some runs of a part written one after another, until one faults: whether all were (R238). -/
def State.writePart (s : State) (x : EngineCtx) (alloc : Bool) (ea : Nat) (p : OutPart) : List (Nat × Nat) → State × Bool
  | [] => (s, true)
  | r :: rs =>
    match s.engineStore x.par x.eng x.actor alloc r.1 (slice p.bytes (r.1 - ea) r.2) p.poison with
    | some t => t.writePart x alloc ea p rs
    | none => (s, false)

/-- Memory parts written from an address on, until one faults: how many were written whole. -/
def State.writeParts (s : State) (x : EngineCtx) (alloc : Bool) : Nat → List OutPart → State × Nat
  | _, [] => (s, 0)
  | ea, p :: ps =>
    let w := s.writePart x alloc ea p (runsOf ea p.bytes.length)
    if w.2 then
      let r := w.1.writeParts x alloc (ea + p.bytes.length) ps
      (r.1, r.2 + 1)
    else (w.1, 0)

/-- The whole output in one slot of a ring (R235); what the manual does not give of the header is free (log entry 7). -/
def State.sendOutSlot (s : State) (r : RingRef) (i fmt : Nat) (l : List OutPart) : State :=
  let b := partBytes l
  let x := s.ring r
  let t := s.padWrite (ringSlot r) (x.payloadOff i) (b.take x.capacity) false
  let w := hdrWord (BitVec.ofNat 4 fmt) (t.fresh.1.setWidth 8) (l.any (·.poison)) (min b.length (2 ^ 21 - 1))
  t.fresh.2.fresh.2.publishSlot r i w (some t.fresh.2.fresh.1)

/-- The output of a descriptor: a descriptor whose input broke R107 or R246 leaves free bytes (R128, log entry 7). -/
def State.outParts (s : State) (c : EngineCur) : List OutPart → List OutPart × State
  | [] => ([], s)
  | p :: ps =>
    let y := if c.broken then (OutPart.mk (s.freshBytes p.bytes.length).1 p.poison, (s.freshBytes p.bytes.length).2) else (p, s)
    let z := y.2.outParts c ps
    (y.1 :: z.1, z.2)

/-- Output to the destination. `s0` is the state to which a wait for a slot goes back; `result` is RESULT from the parts that were written
whole. -/
def State.putOut (s s0 : State) (x : EngineCtx) (c : EngineCur) (fmt : Nat) (l : List OutPart) (e : PressErr) (result : List OutPart → Nat) :
    Work :=
  let d := c.desc
  match x.dst with
  | some r =>
    (match s.engineSlot r (.engine x.par x.eng) false with
    | (some i, u) => .ended (u.sendOutSlot r i fmt l) e (result l)
    | (none, _) => .waits c (s0.engineSlot r (.engine x.par x.eng) false).2)
  | none =>
    let w := s.writeParts x (d.getLsbD 10) (pressDst d) l
    .ended w.1 (if w.2 = l.length then e else e.atWrite w.2) (result (l.take w.2))

/-! ## Input -/

/-- Input of a fixed length: from the source ring as whole slots, or from memory. -/
inductive SrcIn
  | bytes (d : List Byte) (poison : List Bool) (c : EngineCur) (s : State)
  | waits (c : EngineCur) (s : State)
  | fault
deriving DecidableEq, Repr

/-- Whole slots from a source ring until they are enough; a slot that goes on past what is needed breaks R107. -/
def State.pressGather (s : State) (x : EngineCtx) (c : EngineCur) (r : RingRef) (enough : List SlotIn → Bool) : EngineCur × Bool × State :=
  let g := State.gatherSlots r (.engine x.par x.eng) enough ((s.ring r).size + 1) c.stream s
  ({ c with stream := g.1 }, g.2.1, g.2.2)

/-- `n` bytes of input. -/
def State.pressInput (s : State) (x : EngineCtx) (c : EngineCur) (n : Nat) : SrcIn :=
  match x.src with
  | some r =>
    let g := s.pressGather x c r fun l => decide (n ≤ (allBytes l).length)
    if g.2.1 then
      let long := decide (n < (allBytes g.1.stream).length)
      let t := if long then g.2.2.freeRing r else g.2.2
      .bytes ((allBytes g.1.stream).take n) ((poisonMap g.1.stream).take n) { g.1 with broken := long } t
    else .waits g.1 g.2.2
  | none =>
    match s.engineLoad x c (pressSrc c.desc) n with
    | some (b, t) => .bytes b.1 (List.replicate n b.2) c t
    | none => .fault

/-- POISON where some input is poisoned. -/
def poisonErr (l : List Bool) : PressErr := if l.any id then { code := .poison } else {}

/-! ## SCAN, BUILD, LOADT, MASKIDX -/

/-- The histogram with the exponents of some BF16 values counted (Table 8.4). -/
def countExps (h : Tab Word32) (l : List Nat) : Tab Word32 :=
  l.foldl (fun t v => t.set (bitsOf v 7 8) (satAdd (t.get 0 (bitsOf v 7 8)) 1)) h

/-- The values of some bytes enter the histogram of a parish, which CLEAR zeroes first. -/
def State.countScan (s : State) (p : ParishRef) (d : Vec) (b : List Byte) : State :=
  s.modParish p fun y => { y with press := { y.press with hist := countExps (if d.getLsbD 20 then {} else y.press.hist) (words 2 b) } }

/-- What the runs of a source give before the first that faults. -/
def State.readUntil (s : State) (x : EngineCtx) (c : EngineCur) : List (Nat × Nat) → List Byte × State
  | [] => ([], s)
  | r :: rs =>
    match s.engineLoad x c r.1 r.2 with
    | some (b, t) => (b.1 ++ (t.readUntil x c rs).1, (t.readUntil x c rs).2)
    | none => ([], s)

/-- A SCAN that a translation fault stops has counted the values read before it (R238). -/
def State.scanStopped (s : State) (x : EngineCtx) (c : EngineCur) : Work :=
  let z := s.readUntil x c (runsOf (pressSrc c.desc) (2 * pressCount c.desc))
  .ended (z.2.countScan x.par c.desc (z.1.take (z.1.length / 2 * 2))) ⟨.xlate, 0⟩ (z.1.length / 2)

/-- Bytes from an address on that have come from another package. -/
def EngineCur.came (c : EngineCur) (ea n : Nat) : List Byte :=
  (((List.range n).map fun i => c.rbuf.find (ea + i)).takeWhile Option.isSome).map fun b => (b.map Prod.fst).getD 0

/-- The same where the source lies in another package: the values that have come are counted; with their number. -/
def State.scanCame (s : State) (p : ParishRef) (c : EngineCur) : State × Nat :=
  let b := c.came (pressSrc c.desc) (2 * pressCount c.desc)
  (s.countScan p c.desc (b.take (b.length / 2 * 2)), b.length / 2)

/-- Whether a descriptor is a SCAN. -/
def isScan (e : ParishEngine) (d : Vec) : Bool := e == .press && descType d == 1

/-- SCAN (Table 8.4). -/
def State.pressScan (s : State) (x : EngineCtx) (c : EngineCur) : Work :=
  let d := c.desc
  match s.pressInput x c (2 * pressCount d) with
  | .waits c' t => .waits c' t
  | .fault => s.scanStopped x c
  | .bytes b pz _ t => .ended (t.countScan x.par d b) (poisonErr pz) (pressCount d)

/-- A table image goes into a slot; the write completes when it is visible everywhere (R231). -/
def State.install (s : State) (x : EngineCtx) (slot : Nat) (image : List Byte) : State :=
  State.modParish { s with pressPend := s.pressPend ++ [⟨slot, x.job.household, image, some x.par⟩] } x.par fun y => { y with press := { y.press with installing := true } }

/-- BUILD (R229): the slot is installed and the image written where DST names a place. -/
def State.pressBuild (s : State) (x : EngineCtx) (c : EngineCur) : Work :=
  let d := c.desc
  match buildTable ((List.range 256).map fun e => ((s.parish x.par).press.hist.get 0 e).toNat) with
  | none => .ended s ⟨.badTable, 0⟩ 0
  | some image =>
    let t := s.install x (pressTable d) image
    if dstRing d = false ∧ pressDst d = 0 then .ended t {} (tableTag image)
    else t.putOut s x c 0 [⟨image, false⟩] {} fun _ => tableTag image

/-- LOADT (R227): a poisoned image is not installed. -/
def State.pressLoadt (s : State) (x : EngineCtx) (c : EngineCur) : Work :=
  match s.pressInput x c 128 with
  | .waits c' t => .waits c' t
  | .fault => .ended s ⟨.xlate, 0⟩ 0
  | .bytes b pz c' t =>
    if pz.any id then .ended t ⟨.poison, 0⟩ (tableTag b)
    else if c'.broken then .ended ((t.freshBytes 128).2.install x (pressTable c.desc) (t.freshBytes 128).1) {} 0
    else if tableValid b then .ended (t.install x (pressTable c.desc) b) {} (tableTag b)
    else .ended t ⟨.badTable, 0⟩ (tableTag b)

/-- The active neurons of TILES x ROWS rows of 128 bits, in ascending order (R239). -/
def activeNeurons (tiles rows : Nat) (b : List Byte) : List Nat :=
  (List.range (128 * tiles)).filter fun j =>
    (List.range rows).any fun m => (b.getD ((j / 128 * rows + m) * 16 + j % 128 / 8) 0).getLsbD (j % 8)

/-- A list of entries padded with 0xFFFF_FFFF to a multiple of 128 (R239). -/
def padIndex (l : List Nat) : List Nat := l ++ List.replicate ((128 - l.length % 128) % 128) 0xffffffff

/-- MASKIDX (R239). -/
def State.pressMaskidx (s : State) (x : EngineCtx) (c : EngineCur) : Work :=
  let d := c.desc
  match s.pressInput x c (maskTiles d * maskRows d * 16) with
  | .waits c' t => .waits c' t
  | .fault => .ended s ⟨.xlate, 0⟩ 0
  | .bytes b pz c' t =>
    let act := activeNeurons (maskTiles d) (maskRows d) b
    let l := padIndex (act.map fun j => (maskBase d + j) % 2 ^ 32)
    let o := t.outParts c' [⟨l.flatMap (toBytes 4), pz.any id⟩]
    o.2.putOut (if x.src.isSome then t else s) x c' 0 o.1 (poisonErr pz) fun _ => act.length

/-! ## ENCODE -/

/-- The blocks of a stream of values, each with the poison of its values. -/
def encodeParts (table : Option (Nat × List Byte)) (b : List Byte) (pz : List Bool) : List OutPart :=
  (List.zip (chunks 4096 b) (chunks 4096 pz)).map fun x => ⟨encodeBlock table (words 2 x.1), x.2.any id⟩

/-- The block index (R235): the offset of every block and the length of the stream. -/
def blockIndex (l : List OutPart) : List Nat :=
  (List.range (l.length + 1)).map fun i => ((l.take i).map fun p => p.bytes.length).sum

/-- Whether a household address range touches a page with PROT = 1 (R236). -/
def State.touchesProt (s : State) (hh ea n : Nat) : Bool :=
  let ha := ea % 2 ^ 48
  decide (ha < viewBase) &&
    (List.range ((ha + n + pageBytes - 1) / pageBytes - ha / pageBytes)).any fun i => decide (ha / pageBytes + i < (s.household hh).ptLen) && pteProt (s.pte hh (ha / pageBytes + i))

/-- The number of the first poisoned block. -/
def firstPoisoned (l : List OutPart) : PressErr :=
  match l.findIdx? (·.poison) with
  | some i => ⟨.poison, i⟩
  | none => {}

/-- Input bytes of an ENCODE from memory, block by block until one faults. -/
def State.encodeRead (x : EngineCtx) (c : EngineCur) : Nat → Nat → Nat → State → List Byte × List Bool × Bool × State
  | 0, _, _, s => ([], [], true, s)
  | k + 1, ea, n, s =>
    match s.engineLoad x c ea (min n 4096) with
    | none => ([], [], false, s)
    | some (b, t) =>
      let r := State.encodeRead x c k (ea + 4096) (n - 4096) t
      (b.1 ++ r.1, List.replicate b.1.length b.2 ++ r.2.1, r.2.2.1, r.2.2.2)

/-- The stream and the index of an ENCODE once its input is there. Whether a page of another package has PROT = 1 is free here (log entry
99). -/
def State.encodeOut (s s0 : State) (x : EngineCtx) (c : EngineCur) (b : List Byte) (pz : List Bool) (whole : Bool) : Work :=
  let d := c.desc
  let n := 2 * pressCount d + 16 * ceilDiv (pressCount d) 2048
  let far := x.dst.isNone && s.isRemote x.actor true (pressDst d)
  let prot := if far then s.fresh.1.getLsbD 0 else x.dst.isNone && s.touchesProt x.job.household (pressDst d) n
  let table := if prot then none
    else (s.imageFor x.job.household (pressTable d)).map fun i => (pressTable d, i)
  let o := (if far then s.fresh.2 else s).outParts c (encodeParts table b pz)
  let parts := o.1
  let err := (firstPoisoned parts).then (if whole then .ok else .xlate) parts.length
  let u := o.2.offerParish x.par 3
    { bytes := partBytes parts, layer := BitVec.ofNat 32 (fieldOf d 48 16), tile := BitVec.ofNat 32 (fieldOf d 32 16)
      poison := parts.any (·.poison), scrub := false }
  match u.putOut s0 x c 10 parts err fun l => (partBytes l).length with
  | .waits c' t => .waits c' t
  | .ended t e r =>
    if pressIndex d = 0 ∨ whole = false ∨ e.code = .xlate then .ended t e r
    else
      match t.engineStore x.par x.eng x.actor (d.getLsbD 10) (pressIndex d) ((blockIndex parts).flatMap (toBytes 4)) (parts.any (·.poison)) with
      | some v => .ended v e r
      | none => .ended t (e.atWrite parts.length) r

/-- ENCODE (R224 to R226, R236). -/
def State.pressEncode (s : State) (x : EngineCtx) (c : EngineCur) : Work :=
  let d := c.desc
  match x.src with
  | some _ =>
    (match s.pressInput x c (2 * pressCount d) with
    | .waits c' t => .waits c' t
    | .fault => .ended s ⟨.xlate, 0⟩ 0
    | .bytes b pz c' t => t.encodeOut t x c' b pz true)
  | none =>
    let r := State.encodeRead x c (ceilDiv (pressCount d) 2048) (pressSrc d) (2 * pressCount d) s
    r.2.2.2.encodeOut s x c r.1 r.2.1 r.2.2.1

/-! ## DECODE -/

/-- What of a stream a DECODE sees: the bytes of the slots that it has taken, or memory. -/
inductive Stream
  | slots (b : List Byte) (pz : List Bool)
  | memory (x : EngineCtx) (c : EngineCur) (ea : Nat)
deriving DecidableEq, Repr

/-- `n` bytes at an offset of a stream, whether they are poisoned, and the state after. -/
def Stream.get (q : Stream) (s : State) (off n : Nat) : Option ((List Byte × Bool) × State) :=
  match q with
  | .slots b pz => some ((slice b off n, ((pz.drop off).take n).any id), s)
  | .memory x c ea => s.engineLoad x c (ea + off) n

/-- Whether slots hold a stream's blocks: all of them, or up to a header after which no block can be found (R428). -/
def blocksHere : Nat → List Byte → Bool
  | 0, _ => true
  | n + 1, b =>
    if b.length < 16 then false
    else !lenUsable (blockLen b) || (decide (blockLen b ≤ b.length) && blocksHere n (b.drop (blockLen b)))

/-- What decoding some blocks gives: the parts to write, the first error, the offset reached and whether it stopped early. -/
structure Decoded where
  parts : List OutPart
  err : PressErr
  stop : Bool
  off : Nat
deriving DecidableEq, Repr

/-- The values of a block as bytes; zeros marked poisoned where it is damaged (R238). -/
def decodedPart (image : Nat → Option (List Byte)) (b : List Byte) (poison : Bool) : OutPart × PressCodeVal :=
  match decodeBlock image b with
  | some v => (⟨v.flatMap (toBytes 2), poison⟩, if poison then .poison else .ok)
  | none => (⟨List.replicate (2 * blockCount b) 0, true⟩, if poison then .poison else .damaged)

/-- Blocks decoded one after another (R238, R428): `k` is the number of the next block. -/
def decodeBlocks (image : Nat → Option (List Byte)) (q : Stream) : Nat → Nat → Decoded → State → Decoded × State
  | 0, _, r, s => (r, s)
  | n + 1, k, r, s =>
    match q.get s r.off 16 with
    | none => ({ r with err := r.err.then .xlate k, stop := true }, s)
    | some (h, t) =>
      let len := blockLen h.1
      if !lenUsable len then
        ({ r with parts := r.parts ++ [⟨List.replicate (2 * blockCount h.1) 0, true⟩]
                  err := r.err.then (if h.2 then .poison else .damaged) k, stop := true }, t)
      else
        match q.get t r.off len with
        | none => ({ r with err := r.err.then .xlate k, stop := true }, t)
        | some (b, u) =>
          let p := decodedPart image b.1 b.2
          decodeBlocks image q n (k + 1) { r with parts := r.parts ++ [p.1], err := r.err.then p.2 k, off := r.off + len } u

/-- The output of a DECODE once its input is there. -/
def State.decodeOut (s s0 : State) (x : EngineCtx) (c : EngineCur) (q : Stream) (have_ : Nat) : Work :=
  let d := c.desc
  let r := decodeBlocks (s.imageFor x.job.household) q (pressCount d) 0 ⟨[], {}, false, 0⟩ s
  let long := !r.1.stop && decide (r.1.off < have_)
  let c' := { c with broken := long }
  let t := if long then (match x.src with | some g => r.2.freeRing g | none => r.2) else r.2
  let o := t.outParts c' r.1.parts
  let u := o.2.offerParish x.par 3
    { bytes := partBytes o.1, layer := BitVec.ofNat 32 (fieldOf d 48 16), tile := BitVec.ofNat 32 (fieldOf d 32 16)
      poison := o.1.any (·.poison), scrub := false }
  u.putOut s0 x c' 3 o.1 r.1.err fun l => (partBytes l).length / 2

/-- DECODE (R241, R428). -/
def State.pressDecode (s : State) (x : EngineCtx) (c : EngineCur) : Work :=
  let d := c.desc
  match x.src with
  | some r =>
    let g := s.pressGather x c r fun l => blocksHere (pressCount d) (allBytes l)
    if g.2.1 then
      let b := allBytes g.1.stream
      g.2.2.decodeOut g.2.2 x g.1 (.slots b (poisonMap g.1.stream)) b.length
    else .waits g.1 g.2.2
  | none => s.decodeOut s x c (.memory x c (pressSrc d)) 0

/-! ## MERGE -/

/-- The record that some bytes spell (R244). -/
def mergeRec (d : Vec) (b : List Byte) (poison : Bool) : MergeRec :=
  { row := recNat b 0 3, rank := recNat b 3 1, source := recNat b 4 2, poison := poison || bitAt (recNat b 8 8) 0
    elems := (words 4 (b.drop 16)).take (mergeElems d) |>.map (BitVec.ofNat 32) }

/-- The records of a slot or of an array without poison. -/
def mergeRecs (d : Vec) (b : List Byte) (poison : Bool) : List MergeRec :=
  (chunks (mergeSize d) b).map fun r => mergeRec d r poison

/-- The records of an array, each with the poison of its own bytes (R248). -/
def mergeRecsOf (d : Vec) (b : List Byte) (pz : List Bool) : List MergeRec :=
  (chunks (mergeSize d) b).zipIdx.map fun r => mergeRec d r.1 (((pz.drop (mergeSize d * r.2)).take (mergeSize d)).any id)

/-- The poison of every byte that an engine reads. -/
def State.enginePoison (s : State) (a : Actor) (c : EngineCur) (ea n : Nat) : List Bool :=
  if s.isRemote a false ea then (List.range n).map fun i => ((c.rbuf.find (ea + i)).map Prod.snd).getD false
  else ((s.places a false ea n).getD []).flatMap fun p =>
    (List.range p.len).map fun i => !s.fenced (p.addr + i) && s.poisonedAt (p.addr + i) 1

/-- Sort key (ROW, RANK, SOURCE) (R247). -/
def MergeRec.key (r : MergeRec) : Nat := (r.row * 2 ^ 8 + r.rank) * 2 ^ 16 + r.source

/-- A record put behind those whose key is not greater. -/
def insertRec (r : MergeRec) : List MergeRec → List MergeRec
  | [] => [r]
  | a :: t => if r.key < a.key then r :: a :: t else a :: insertRec r t

/-- Records in ascending order; equal keys keep their order of arrival (R247). -/
def sortRecs (l : List MergeRec) : List MergeRec := l.foldl (fun t r => insertRec r t) []

/-- The sum of two payloads under FMT. -/
def addElems (fmt : Nat) (a b : List Word32) : List Word32 :=
  List.zipWith (fun x y =>
    BitVec.ofNat 32 (reduceElem (if fmt = 0 then 2 else if fmt = 1 then 0 else 1) .nearest x.toNat y.toNat)) a b

/-- The output record of the records of one row, in key order (R247, R248). -/
def sumRow (fmt source : Nat) : List MergeRec → List MergeRec
  | [] => []
  | r :: t =>
    [{ row := r.row, rank := 0, source := source, poison := r.poison || t.any (·.poison)
       elems := t.foldl (fun acc q => addElems fmt acc q.elems) r.elems }]

/-- The rows of a sorted list in ascending order. -/
def rowHeads (l : List MergeRec) : List Nat :=
  (l.map (·.row)).foldl (fun acc r => if acc.getLast? = some r then acc else acc ++ [r]) []

/-- The output records of a MERGE (R248). -/
def mergeRows (fmt source : Nat) (l : List MergeRec) : List MergeRec :=
  (rowHeads l).flatMap fun r => sumRow fmt source (l.filter fun q => q.row == r)

/-- The bytes of an output record. -/
def MergeRec.bytes (r : MergeRec) : List Byte :=
  toBytes 8 (r.row + r.rank * 2 ^ 24 + r.source * 2 ^ 32) ++ toBytes 8 (flag r.poison) ++ r.elems.flatMap fun e => toBytes 4 e.toNat

/-- The merge buffer of a parish. -/
def State.setBuffer (s : State) (p : ParishRef) (l : List MergeRec) : State :=
  s.modParish p fun y => { y with merge := { y.merge with buffer := l } }

/-- The output of a MERGE once its records are there: sort, sum, write (R247, R248). The buffer keeps them until the descriptor completes. -/
def State.mergeOut (s s0 : State) (x : EngineCtx) (c : EngineCur) (l : List MergeRec) : Work :=
  let d := c.desc
  let recs := l.take (mergeExpect d)
  let rows := mergeRows (mergeFmt d) (mergeSource d) (sortRecs recs)
  let err := match recs.findIdx? (·.poison) with
    | some i => (⟨.poison, i⟩ : PressErr)
    | none => {}
  let o := s.outParts c (rows.map fun r => ⟨r.bytes, false⟩)
  let u := (o.2.setBuffer x.par recs).offerParish x.par 2
    { bytes := partBytes o.1, layer := BitVec.ofNat 32 (fieldOf d 48 16), tile := BitVec.ofNat 32 (fieldOf d 32 16)
      poison := rows.any (·.poison), scrub := false }
  u.putOut s0 x c 0 o.1 err List.length

/-- Whole slots of records taken until EXPECT have come; a slot that does not end with a record breaks R246. -/
def State.mergeTake (x : EngineCtx) (r : RingRef) : Nat → EngineCur → State → EngineCur × Bool × State
  | 0, c, s => (c, false, s)
  | n + 1, c, s =>
    let have_ := (s.parish x.par).merge.buffer
    if mergeExpect c.desc ≤ have_.length then (c, true, s)
    else
      match s.engineSlot r (.engine x.par .merge) true with
      | (none, t) => (c, false, t)
      | (some i, t) =>
        let y := t.slotIn r i
        let l := have_ ++ mergeRecs c.desc y.bytes y.poison
        let odd := decide (y.bytes.length % mergeSize c.desc ≠ 0) || decide (mergeExpect c.desc < l.length)
        let u := (t.setBuffer x.par l).releaseSlot r i
        State.mergeTake x r n { c with broken := c.broken || odd } (if odd then u.freeRing r else u)

/-- MERGE (R246 to R248). -/
def State.mergeRun (s : State) (x : EngineCtx) (c : EngineCur) : Work :=
  let d := c.desc
  if 2 ^ 21 < mergeExpect d * mergeSize d then .ended s ⟨.capacity, 0⟩ 0
  else
    match x.src with
    | some r =>
      let g := State.mergeTake x r ((s.ring r).size + 2) c s
      if g.2.1 then g.2.2.mergeOut g.2.2 x g.1 (g.2.2.parish x.par).merge.buffer else .waits g.1 g.2.2
    | none =>
      let n := mergeExpect d * mergeSize d
      match s.engineLoad x c (pressSrc d) n with
      | none =>
        .ended s ⟨.xlate, ((List.range (mergeExpect d)).find? fun k =>
          (s.places x.actor false (pressSrc d + mergeSize d * k) (mergeSize d)).isNone).getD 0⟩ 0
      | some (b, t) =>
        t.mergeOut s x c (if b.2 then mergeRecsOf d b.1 (s.enginePoison x.actor c (pressSrc d) n) else mergeRecs d b.1 false)

/-! ## Running a descriptor -/

/-- A descriptor whose work has ended waits to complete (R237). -/
def State.engineEnd (s : State) (p : ParishRef) (e : ParishEngine) (d : Vec) (err : PressErr) (result : Nat) : State :=
  s.setEngine p e { s.engine p e with
    cur := none, run := some ⟨d, err.code.num, BitVec.ofNat 32 result, BitVec.ofNat 32 err.place, false⟩ }

/-- The checks of a descriptor that come before its work (R238). -/
def State.engineCheck (s : State) (j : Job) (e : ParishEngine) (d : Vec) : PressCodeVal :=
  let named := descType d = 2 ∨ descType d = 5 ∨ (descType d = 3 ∧ pressTable d ≠ 0)
  let refused := (srcRing d && s.refKind j (fieldOf d 64 13) == .foreign) || (dstRing d && s.refKind j (fieldOf d 128 13) == .foreign)
  match e with
  | .press =>
    if !pressDescValid d then .badDesc
    else if (named ∧ s.ownsSlot j.household (pressTable d) = false) ∨ refused = true then .foreign
    else .ok
  | .merge => if !mergeDescValid d then .badDesc else if refused then .foreign else .ok

/-- Whether a descriptor names a ring of another job of the household (R128). -/
def State.engineOutside (s : State) (j : Job) (d : Vec) : Bool :=
  (srcRing d && s.refKind j (fieldOf d 64 13) == .outside) || (dstRing d && s.refKind j (fieldOf d 128 13) == .outside)

/-- The work of a descriptor. -/
def State.engineWork (s : State) (x : EngineCtx) (c : EngineCur) : Work :=
  match x.eng with
  | .merge => s.mergeRun x c
  | .press =>
    match descType c.desc with
    | 1 => s.pressScan x c
    | 2 => s.pressBuild x c
    | 3 => s.pressEncode x c
    | 4 => s.pressDecode x c
    | 5 => s.pressLoadt x c
    | _ => s.pressMaskidx x c

/-! A source in another package (R197, R309, log entry 99). -/

/-- The first bytes of a run that have not come, at most 4 KiB of them. -/
def EngineCur.missing (c : EngineCur) (ea n : Nat) : Option (Nat × Nat) :=
  ((List.range (ceilDiv n 4096)).find? fun k => (c.rbuf.find (ea + 4096 * k)).isNone).map fun k => (ea + 4096 * k, min 4096 (n - 4096 * k))

/-- The next bytes that a DECODE needs of its stream, with the number of their block (R428). -/
def EngineCur.blockMissing (c : EngineCur) : Nat → Nat → Nat → Option (Nat × Nat × Nat)
  | 0, _, _ => none
  | n + 1, k, ea =>
    match c.seen ea 16 with
    | none => some (k, ea, 16)
    | some (h, _) =>
      if !lenUsable (blockLen h) then none
      else
        match c.missing (ea + 16) (blockLen h - 16) with
        | some x => some (k, x)
        | none => c.blockMissing n (k + 1) (ea + blockLen h)

/-- The next bytes that a descriptor needs of a source in another package, with the number of their block or record. -/
def EngineCur.want (c : EngineCur) (e : ParishEngine) : Option (Nat × Nat × Nat) :=
  let d := c.desc
  let src := pressSrc d
  let per := fun n unit : Nat => (c.missing src n).map fun x => ((x.1 - src) / unit, x)
  match e with
  | .merge => per (mergeExpect d * mergeSize d) (mergeSize d)
  | .press =>
    match descType d with
    | 1 => per (2 * pressCount d) (2 ^ 33)
    | 3 => per (2 * pressCount d) 4096
    | 4 => c.blockMissing (pressCount d) 0 src
    | 5 => per 128 128
    | _ => per (maskTiles d * maskRows d * 16) (2 ^ 33)

/-- Whether a descriptor reads a source in another package. -/
def State.farSource (s : State) (x : EngineCtx) (d : Vec) : Bool :=
  x.src.isNone && !(x.eng == .press && descType d == 2) && !(x.eng == .merge && decide (2 ^ 21 < mergeExpect d * mergeSize d)) &&
    s.isRemote x.actor false (pressSrc d)

/-- The source of a descriptor is asked for piece by piece; then its work is done. -/
def State.engineFetchWork (s : State) (x : EngineCtx) (c : EngineCur) : Work :=
  if s.farSource x c.desc then
    match c.want x.eng with
    | none => s.engineWork x c
    | some (k, ea, n) =>
      if s.openReqs x.par.die (engineReads x.par x.eng) then .waits c s
      else
        match s.ask x.par.die x.job.household ea n (.engineRead x.par x.eng) with
        | some t => .waits c t
        | none => if isScan x.eng c.desc then .ended (s.scanCame x.par c).1 ⟨.xlate, k⟩ (s.scanCame x.par c).2 else .ended s ⟨.xlate, k⟩ 0
  else s.engineWork x c

/-- A descriptor runs or goes on. -/
def State.engineGo (s : State) (p : ParishRef) (e : ParishEngine) (n : Nat) (j : Job) (c : EngineCur) : Res :=
  let d := c.desc
  let k := s.engineCheck j e d
  if k ≠ .ok then .next (s.engineEnd p e d ⟨k, 0⟩ 0)
  else if s.engineOutside j d then .next ((s.jobError (some (n, j))).setEngine p e { s.engine p e with cur := none })
  else
    let x : EngineCtx := ⟨p, e, n, j, if srcRing d then j.ringOf (fieldOf d 64 13) else none, if dstRing d then j.ringOf (fieldOf d 128 13) else none⟩
    match s.engineFetchWork x c with
    | .ended t err r => .next (t.engineEnd p e d err r)
    | .waits c' t => .next (t.setEngine p e { t.engine p e with cur := some c' })

/-- A slot of a descriptor ring that is poisoned, or holds no whole descriptor, counts as a descriptor that ended in an error: DONE and ERRORS
advance and the event is raised (R237, R390, log entry 28). -/
def State.slotLost (s : State) (p : ParishRef) (e : ParishEngine) (m : HamletRef) : State :=
  (s.modParish p fun y =>
    match e with
    | .press => { y with press := { y.press with done := y.press.done + 1, errors := satAdd y.press.errors 1 } }
    | .merge => { y with merge := { y.merge with done := y.merge.done + 1, errors := satAdd y.merge.errors 1 } }).raiseEvent
    ⟨m.die, m.slot, 0⟩ .porter

/-- The next descriptor of an engine, from the slot that it holds or from one that it claims (R122, R233). A poisoned slot, or one without
a whole descriptor, is released, counted and not run (log entry 28). -/
def State.engineFetch (s : State) (p : ParishRef) (e : ParishEngine) (j : Job) : State :=
  let x := s.engine p e
  if x.dslot.isSome then s
  else
    match j.ringOf (x.dring.toNat % 8192) with
    | none => s
    | some r =>
      match s.engineSlot r (.engine p e) true with
      | (none, t) => t
      | (some i, t) =>
        let y := t.slotIn r i
        let l := descsOf (y.bytes.take (y.bytes.length / 64 * 64))
        if y.poison = true ∨ l = [] then (t.slotLost p e (ringSlot r)).releaseSlot r i
        else t.setEngine p e { t.engine p e with dslot := some { slot := ⟨r, i⟩, rest := l } }

/-- A descriptor leaves the held slot, which is released after its last, or waits for good for its release where the ring is disabled then (R178). -/
def State.engineTake (s : State) (p : ParishRef) (e : ParishEngine) (ds : DescSlot) (d : Vec) (rest : List Vec) : State :=
  let c := some ({ desc := d } : EngineCur)
  if rest = [] then
    (if (s.ring ds.slot.ring).enable && !ds.dead then (s.setEngine p e { s.engine p e with dslot := none, cur := c }).releaseSlot ds.slot.ring ds.slot.idx
    else s.setEngine p e { s.engine p e with dslot := some { ds with rest := [], dead := true }, cur := c })
  else s.setEngine p e { s.engine p e with dslot := some { ds with rest := rest }, cur := c }

/-- Whether a TYPE is defined for an engine. -/
def engineType (e : ParishEngine) (t : Nat) : Bool :=
  match e with
  | .press => decide (1 ≤ t) && decide (t ≤ 6)
  | .merge => decide (t = 1)

/-- An engine fetches, starts or goes on with a descriptor of one TYPE; a reserved TYPE is taken up by each command of the engine. -/
def State.runEngine (s : State) (p : ParishRef) (e : ParishEngine) (ty : Nat) : Res :=
  let x := s.engine p e
  match s.engineJob p e with
  | none => .next s
  | some (n, j) =>
    if x.enable = false ∨ x.run.isSome then .next s
    else
      match x.cur with
      | some c => if descType c.desc = ty ∨ engineType e (descType c.desc) = false then s.stir.engineGo p e n j c else .next s
      | none =>
        let t := s.engineFetch p e j
        match (t.engine p e).dslot with
        | none => .next t
        | some ds =>
          match ds.rest with
          | [] => .next t
          | d :: rest =>
            if descType d = ty ∨ engineType e (descType d) = false then
              (t.stir.engineTake p e ds d rest).engineGo p e n j { desc := d }
            else .next t

/-- SCAN (R235). -/
def execScan (p : ParishRef) (s : State) : Res := s.runEngine p .press 1
/-- BUILD (R229). -/
def execBuild (p : ParishRef) (s : State) : Res := s.runEngine p .press 2
/-- ENCODE (R226). -/
def execEncode (p : ParishRef) (s : State) : Res := s.runEngine p .press 3
/-- DECODE (R241). -/
def execDecode (p : ParishRef) (s : State) : Res := s.runEngine p .press 4
/-- LOADT (R235). -/
def execLoadt (p : ParishRef) (s : State) : Res := s.runEngine p .press 5
/-- MASKIDX (R239). -/
def execMaskidx (p : ParishRef) (s : State) : Res := s.runEngine p .press 6
/-- MERGE (R247). -/
def execMerge (p : ParishRef) (s : State) : Res := s.runEngine p .merge 1

/-! ## Completion -/

/-- The completion record (Table 8.5). -/
def EngineRun.record (r : EngineRun) : List Byte :=
  [r.code, 0, 0, 0] ++ toBytes 4 (descTile r.desc).toNat ++ toBytes 4 r.result.toNat ++ toBytes 4 (if r.code = 0 then 0 else r.fault.toNat)

/-- DONE and ERRORS of an engine. -/
def State.countEngine (s : State) (p : ParishRef) (e : ParishEngine) (code : Byte) : State :=
  let n := if code = 0 then 0 else 1
  s.modParish p fun y =>
    match e with
    | .press => { y with press := { y.press with run := none, done := y.press.done + 1, errors := satAdd y.press.errors n } }
    | .merge => { y with merge := { y.merge with run := none, buffer := [], done := y.merge.done + 1, errors := satAdd y.merge.errors n } }

/-- Whether the completion record goes to another package and has not been sent. -/
def State.recordFar (s : State) (n : Nat) (j : Job) (r : EngineRun) : Bool :=
  pressStatus r.desc != 0 && !r.told && s.isRemote (actorOf n j) true (pressStatus r.desc)

/-- PRESS_COMPLETE: a descriptor of the Press engine or the merge tree completes: the record, the Bell add, the event (R237), each write
having taken effect (R220, R317). A table write completes when it is visible everywhere (R231). -/
def execPressComplete (p : ParishRef) (e : ParishEngine) (s : State) : Res :=
  match (s.engine p e).run, s.engineJob p e with
  | some r, some (n, j) =>
    if (e = .press ∧ (s.parish p).press.installing = true) ∨ s.openReqs p.die (engineWrites p e) = true then .next s
    else if s.recordFar n j r then
      .next (((s.engineStore p e (actorOf n j) false (pressStatus r.desc) r.record false).getD s).setEngine p e
        { s.engine p e with run := some { r with told := true } })
    else
      let m := ((j.ringOf ((s.engine p e).dring.toNat % 8192)).map ringSlot).getD ⟨p.die, 4 * p.par⟩
      let t := if pressStatus r.desc = 0 ∨ r.told = true then s
        else (s.engineStore p e (actorOf n j) (r.desc.getLsbD 10) (pressStatus r.desc) r.record false).getD s
      let u := if r.desc.getLsbD 14 then
          (t.bellAmount r.desc).2.sendBell j m (.engine p e) (fieldOf r.desc 448 13) (t.bellAmount r.desc).1
        else t
      let v := u.countEngine p e r.code
      .next (if r.desc.getLsbD 15 || r.code != 0 then (v.raiseEvent ⟨m.die, m.slot, 0⟩ .porter).stir else v.stir)
  | _, _ => .next s

/-- TABLE_SLOT_VISIBLE: the oldest write of a slot that is on its way becomes visible everywhere, and completes (R231). A slot is written only
for the household that owns it (R230). -/
def execTableSlotVisible (slot : Nat) (s : State) : Res :=
  match s.pressPend.find? fun w => w.slot == slot with
  | none => .next s
  | some w =>
    let x := s.pressSlots.get {} slot
    let t := s.dropWrites fun y => y == w
    .next (if x.owner = w.owner then { t with pressSlots := t.pressSlots.set slot { x with image := some w.image } } else t)

end Sys2Proof.Machine
end

