-- ==== Sys2Proof/Machine/Jobs.lean ====
section
/-! DEFINITION. Stopping a job and fence-and-scrub of its hamlets and granules (R100, R160, R187 to R190, R251, R273, R355), and the
hamlet states (R368 to R370). -/

namespace Sys2Proof.Machine

/-! ## Stopping a job -/

/-- The Tally units that serve a job: those of its hamlets, and those of the parishes of which it is the first job (log entry 20). -/
def State.talliesOf (s : State) (n : Nat) (j : Job) : List TallyRef :=
  (j.slots.flatMap fun m => [TallyRef.hamlet m.die m.slot 0, .hamlet m.die m.slot 1]) ++
    ((j.parishes.filter fun p => (s.jobOfParish p).map Prod.fst == some n).flatMap fun p =>
      [TallyRef.parish p.die p.par 0, .parish p.die p.par 1])

/-- Every Tally unit of a job is flushed (R270). -/
def State.flushJob (s : State) (n : Nat) (j : Job) : State := (s.talliesOf n j).foldl (fun t u => t.writeTallyFlush u 1) s

/-- Whether a Porter's descriptor is of a job. -/
def State.descOf (s : State) (n : Nat) (p : PorterRef) (e : PorterDesc) : Bool := (s.porterJob p e).map Prod.fst == some n

/-- A parish Porter loses the descriptors of a job; where it serves the job only, it returns to cold. -/
def State.stopPorter (s : State) (n : Nat) (p : PorterRef) : State :=
  let own := (s.jobOfPorter p none).map Prod.fst == some n
  let x := s.porter p
  let active := (x.cur.any fun c => s.descOf n p c.desc) || x.run.any fun r => s.descOf n p r.desc
  let t := if active then
      s.modDie (porterDie p) fun y => { y with reqs := y.reqs.filter fun r => !(readsFor p r.who || writesFor p r.who) }
    else s
  t.modPorter p fun x =>
    let y := { x with
      queue := x.queue.filter fun e => !s.descOf n p e
      cur := x.cur.filter fun c => !s.descOf n p c.desc
      run := x.run.filter fun r => !s.descOf n p r.desc }
    if own then { queue := y.queue, cur := y.cur, run := y.run } else y

/-- Whether a requester is an engine of a parish that a job asked for. -/
def requesterOf (j : Job) (p : ParishRef) : Requester → Bool
  | .engineRead q e _ => q == p && j.asksEngine p e
  | .engineWrite q e => q == p && j.asksEngine p e
  | _ => false

/-- The parish units of a job stop: its Porters' descriptors are dropped, its engines' queues, histogram, buffer and registers
return to cold (R251), and a table write that its Press has begun comes to nothing (log entry 110). -/
def State.stopParish (s : State) (n : Nat) (j : Job) (p : ParishRef) : State :=
  let t := (List.range 4).foldl (fun u i => u.stopPorter n (.parish p.die p.par i)) s
  let w := t.modDie p.die fun x => { x with reqs := x.reqs.filter fun r => !requesterOf j p r.who }
  let v := if j.asksEngine p .press then w.dropWrites fun x => x.by_ == some p else w
  v.modParish p fun x =>
    { x with
      press := if j.asksEngine p .press then {} else x.press
      merge := if j.asksEngine p .merge then {} else x.merge
      tallies := if (s.jobOfParish p).map Prod.fst = some n then {} else x.tallies }

/-- Mills as job end leaves them: RETIRE_PENDING and the pointer of R158, which job start does not reset, are kept (R100). -/
def Hamlet.stoppedMills (m : Hamlet) : Tab Mill := m.coldMills

/-- The units of a hamlet stop: Mills keep RETIRE_PENDING only (R100), Hands, Porters and Tally units nothing (R160, R223, R273), and
nobody waits at its rings. -/
def Hamlet.stopUnits (m : Hamlet) : Hamlet :=
  { m with mills := m.stoppedMills, hands := {}, porters := {}, tallies := {}
           rings := m.rings.mapV fun _ r => { r with waiters := [], grants := [] } }

/-- Whether a requester is a unit of some slots; those of a parish are `requesterOf` and those of `State.stopPorter`. -/
def requesterIn (slots : List HamletRef) : Requester → Bool
  | .handLoad h _ => slots.contains (handSlot h)
  | .handStore h => slots.contains (handSlot h)
  | .porterRead (.hamlet d k _) _ => slots.contains ⟨d, k⟩
  | .porterWrite (.hamlet d k _) _ => slots.contains ⟨d, k⟩
  | .porterRead (.parish _ _ _) _ => false
  | .porterWrite (.parish _ _ _) _ => false
  | .engineRead _ _ _ => false
  | .engineWrite _ _ => false
  | .slot r _ _ => slots.contains (ringSlot r)

/-- Requests of stopped units are closed and Bell adds to their hamlets are dropped (R187 step 3). -/
def State.dropTraffic (s : State) (slots : List HamletRef) : State :=
  { s with
    bellFlight := s.bellFlight.filter fun a => !slots.contains a.dst.1
    dies := s.dies.mapV fun _ d => { d with reqs := d.reqs.filter fun r => !requesterIn slots r.who } }

/-- Code of an end (Table 12.9). -/
def JobEnd.code : JobEnd → Nat
  | .halted => 0
  | .killed => 1
  | .limit => 2
  | .fault => 3

/-- A job stops: its Tally units are flushed (R270), its agents stop, and it waits for its scrub (R187, R355). -/
def State.stopJob (s : State) (n : Nat) (why : JobEnd) : State :=
  match s.jobs.find n with
  | none => s
  | some j =>
    let a := s.flushJob n j
    let b := j.unitParishes.foldl (fun t p => t.stopParish n j p) a
    let c := j.slots.foldl (fun t m => t.modHamlet m Hamlet.stopUnits) b
    (c.dropTraffic j.slots).modJob n fun x =>
      { x with state := .ending why, endedAt := s.clock, timedOut := x.timedOut || decide (why = .limit) }

/-- State of a job whose scrub has ended (Table 12.14). -/
def JobEnd.final : JobEnd → JobState
  | .halted => .ended
  | .killed => .killed
  | .limit => .killed
  | .fault => .faulted

/-- Whether every hamlet and granule of a job has been scrubbed. -/
def Job.scrubbed (j : Job) : Bool :=
  j.granules.isEmpty && j.places.all fun p => j.scrubs.any fun r => r.die == p.die && r.logical == p.logical

/-- A job whose scrub is complete takes its last state and sends JOB_ENDED (R355, Table 12.9). -/
def State.settleJob (s : State) (n : Nat) : State :=
  match s.jobs.find n with
  | none => s
  | some j =>
    match j.state with
    | .ending why =>
      if j.scrubbed then
        (s.modJob n fun x => { x with state := why.final }).notifyHousehold j.household 0xf001 (BitVec.ofNat 64 (n + why.code * 2 ^ 16))
      else s
    | _ => s

/-! ## Fence and scrub (R187) -/

/-- The ending job that holds a slot not yet scrubbed. -/
def State.scrubDue (s : State) (m : HamletRef) : Option (Nat × Job × Placed) :=
  s.jobs.cells.findSome? fun c =>
    if c.2.isEnding then
      (c.2.placeAt m).bind fun p =>
        if c.2.scrubs.any fun r => r.die == p.die && r.logical == p.logical then none else some (c.1, c.2, p)
    else none

/-- Steps 1 to 3: the units are stopped, the fence is raised. -/
def State.raiseFence (s : State) (m : HamletRef) : State :=
  ((s.wake m).dropTraffic [m]).modHamlet m fun x => { x.stopUnits with fence := .raised }

/-- CRC-64/ECMA-182 of a region and whether any of its words is not zero; the digest of zeros is 0 (R187, R272). -/
def State.readback (s : State) (a n : Nat) : Word64 × Bool :=
  if s.mem.any fun c => decide (a ≤ c.1) && decide (c.1 < a + n) then
    (BitVec.ofNat 64 (crc64From 0 (s.mem.readBytes a n)), true)
  else (0, false)

/-- SOURCE SCRUB of Table 9.5, which only the Reeve sets. -/
def sourceScrub : BitVec 3 := 4

/-- Tally unit 0 reads a region of `n` bytes back with SOURCE SCRUB under CRC-64/ECMA-182: digest, NONZERO and alive count (R187, R272). -/
def Tally.scrubbed (x : Tally) (d : Word64 × Bool) (n : Nat) : Tally :=
  { x with source := sourceScrub, alg := 1, value := d.1, nonzero := d.2, alive := x.alive + BitVec.ofNat 64 (n / 8) }

/-- A region of `n` bytes from `a` is zero-filled; a byte that a defective bank does not let go keeps its value (R187). -/
def State.fillRegion (s : State) (a n : Nat) : State :=
  let t := s.zeroSram a n
  { t with mem := (s.defects.filter fun c => decide (a ≤ c.1) && decide (c.1 < a + n)).foldl (fun m c => m.write c.1 c.2) t.mem }

/-- Bytes of a region of `n` bytes from `a` that a defective bank does not let go, from now on (R187, log entry 111). -/
def State.addDefects (s : State) (a n : Nat) (stuck : List (Nat × Byte)) : State :=
  { s with defects := s.defects ++ (stuck.filter fun c => decide (c.1 < n)).map fun c => (a + c.1, c.2) }

/-- Steps 4 and 5: the banks are zero-filled, ring and Bell registers take their cold values, Tally unit 0 reads back. -/
def State.fillHamlet (s : State) (m : HamletRef) : State :=
  let t := s.fillRegion (sramAddr m 0) padBytes
  t.modHamlet m fun x =>
    { x with rings := {}, bells := {}, waitLimit := 0x00100000, ringStall := 0, err := {}, fence := .filled
             aliveBefore := (x.tallies.get {} 0).alive
             tallies := x.tallies.set 0 ((x.tallies.get {} 0).scrubbed (t.readback (sramAddr m 0) padBytes) padBytes) }

/-- Whether the three checks of step 6 hold: digest, NONZERO, and an alive count of 786,432 words (R272). -/
def Hamlet.scrubOk (m : Hamlet) : Bool :=
  let t := m.tallies.get {} 0
  !t.nonzero && t.alive - m.aliveBefore == 786432 && t.value == 0

/-- A slot that holds no job is Off (R369); what outlasts the job stays. -/
def Hamlet.vacated (m : Hamlet) : Hamlet :=
  { mills := m.coldMills, wakes := m.wakes, retired := m.retired, hwFault := m.hwFault }

/-- Step 6: the digest and the clock are recorded, and the fence is lowered, or the slot is retired behind it and the Logbook told
(R28, R187). Either way the slot holds no job and is Off (R369). -/
def State.checkHamlet (s : State) (m : HamletRef) (n : Nat) (j : Job) (p : Placed) : State :=
  let x := s.hamlet m
  let rec_ : ScrubRec := ⟨p.die, p.logical, ((x.tallies.get {} 0).value).setWidth 32, s.clock.setWidth 32⟩
  let t := s.modJob n fun k => { k with scrubs := k.scrubs ++ [rec_] }
  if x.scrubOk then t.setHamlet m x.vacated
  else
    (t.setHamlet m { x.vacated with retired := true, fence := x.fence }).logEvent
      { cls := 12, severity := 2, die := m.die, place := m.slot, household := j.household, job := n, event := 1 }

/-- The granule number of a job's granule in its die. -/
def granuleNo (p : ParishRef) (g : Nat) : Nat := 40 * p.par + g

/-- Bytes of a granule (R188). -/
def granuleBytes : Nat := 0x100000

/-- A granule returns to cache mode with every line written back and invalidated (R201, R203). -/
def Parish.freeGranule (p : Parish) (g : Nat) : Parish :=
  { p.flushed with scratch := p.scratch &&& ~~~(BitVec.ofNat 40 (2 ^ g)), owner := p.owner.del g }

/-- A granule is retired and the Logbook told (R188). The number of its parish's cache ways changes, so that every line is written back and
invalidated and the pointers begin anew (R203). -/
def State.retireGranule (s : State) (p : ParishRef) (g hh n : Nat) : State :=
  (s.modParish p fun x => { x.flushed with retired := x.retired ||| BitVec.ofNat 40 (2 ^ g) }).logEvent
    { cls := 12, severity := 2, die := p.die, place := 18 + p.par, household := hh, job := n, event := 1 }

/-- Whether the readback of a granule passes the three checks (R187, R272). -/
def Tally.granuleOk (x : Tally) : Bool := !x.nonzero && x.alive == 131072 && x.value == 0

/-- A granule is scrubbed: zero-filled, read back by Tally unit 0 of its parish, which the Reeve holds meanwhile, and freed, or retired and
recorded (R188). The unit is as before for a job that it serves, and cold where it serves none (R273, log entry 112). -/
def State.scrubGranule (s : State) (p : ParishRef) (g n : Nat) (hh : Nat) : State :=
  let a := granuleAddr p.die (granuleNo p g) 0
  let t := s.fillRegion a granuleBytes
  let u := t.modParish p fun x =>
    { x.freeGranule g with tallies := if (s.jobOfParish p).isSome then x.tallies else x.tallies.del 0 }
  let v := u.modJob n fun k => { k with granules := k.granules.filter fun c => c != (p, g) }
  if (({} : Tally).scrubbed (t.readback a granuleBytes) granuleBytes).granuleOk then v else v.retireGranule p g hh n

/-- The whole scrub of a stopped job in one go. -/
def State.scrubJob (s : State) (n : Nat) : State :=
  match s.jobs.find n with
  | none => s
  | some j =>
    let one : State → Placed → State := fun t p => (((t.raiseFence ⟨p.die, p.slot⟩).fillHamlet ⟨p.die, p.slot⟩).checkHamlet ⟨p.die, p.slot⟩ n j p)
    let todo := j.places.filter fun p => !(j.scrubs.any fun r => r.die == p.die && r.logical == p.logical)
    let a := todo.foldl one s
    j.granules.foldl (fun t c => t.scrubGranule c.1 c.2 n j.household) a

/-- FENCE_AND_SCRUB (R187 steps 1 to 3): due once a job that held the slot has stopped. -/
def execFenceAndScrub (m : HamletRef) (s : State) : Res :=
  if (s.scrubDue m).isSome ∧ (s.hamlet m).fence = .lowered then .next (s.raiseFence m) else .next s

/-- SCRUB_FILL (R187 steps 4 and 5); the defects that it meets are there whether or not the fill is due. -/
def execScrubFill (m : HamletRef) (stuck : List (Nat × Byte)) (s : State) : Res :=
  let t := s.addDefects (sramAddr m 0) padBytes stuck
  if (s.hamlet m).fence = .raised then .next (t.fillHamlet m) else .next t

/-- SCRUB_CHECK (R187 step 6); the job's last scrub ends the job (R355). -/
def execScrubCheck (m : HamletRef) (s : State) : Res :=
  match s.scrubDue m with
  | some (n, j, p) => if (s.hamlet m).fence = .filled then .next ((s.checkHamlet m n j p).settleJob n) else .next s
  | none => .next s

/-- GRANULE_SCRUB (R188): a granule of a stopped job; the defects that it meets are there whether or not the scrub is due. -/
def execGranuleScrub (p : ParishRef) (g : Nat) (stuck : List (Nat × Byte)) (s : State) : Res :=
  let t := s.addDefects (granuleAddr p.die (granuleNo p g) 0) granuleBytes stuck
  match s.jobs.cells.find? fun c => c.2.isEnding && c.2.granules.contains (p, g) with
  | some (n, j) => .next ((t.scrubGranule p g n j.household).settleJob n)
  | none => .next t

/-! ## Hamlet states (R368 to R370) -/

/-- Whether a Mill's queues are empty and its units idle (R101). -/
def Mill.quiet (x : Mill) : Bool :=
  x.queue.isEmpty && x.loadQ.isEmpty && x.compQ.isEmpty && x.finQ.isEmpty && x.loadRun.isNone && x.compRun.isNone && x.finRun.isNone &&
    x.dslot.isNone

/-- Whether a Hand does not issue: it does not run, or it waits in WAIT, BWAIT or a ring instruction (R369). -/
def Hand.quiet (x : Hand) : Bool :=
  decide (x.mode ≠ .running) || ((match x.wait with
    | .none => false
    | .porter _ => false
    | .mill _ => false
    | .remote => false
    | .disabled => true
    | .claim _ _ => true
    | .reserve _ => true
    | .bell _ _ _ => true
    | .sleep => true) && !x.eventDue)

/-- Whether a hamlet is idle (R369). -/
def Hamlet.idle (m : Hamlet) : Bool :=
  (m.mills.cells.all fun c => c.2.quiet) && (m.hands.cells.all fun c => c.2.quiet) &&
    (m.porters.cells.all fun c => c.2.queue.isEmpty && c.2.cur.isNone && c.2.run.isNone) &&
    m.tallies.cells.all fun c => c.2.snoopQ.isEmpty

/-- Whether R101 and R160 let a hamlet leave the Gated state: its Mills are quiet and no Hand runs. -/
def Hamlet.mayRetain (m : Hamlet) : Bool :=
  (m.mills.cells.all fun c => c.2.quiet) && m.hands.cells.all fun c => c.2.mode == .halted || c.2.mode == .stopped

/-- MCLK cycles for which a hamlet has been idle. -/
def State.idleFor (s : State) (m : HamletRef) : Nat := s.mclk - (s.hamlet m).idleSince

/-- RETAIN_IDLE (100 µs) and OFF_IDLE (10 ms) in MCLK; forced Doze sets them to zero (R369). -/
def State.retainIdle (s : State) : Nat := if s.settings.dozeForced then 0 else 2500 * mclkPerTick s.part.grade s.gov.level
def State.offIdle (s : State) : Nat := if s.settings.dozeForced then 0 else 250000 * mclkPerTick s.part.grade s.gov.level

/-- HAMLET_GATE: after 64 MCLK of idle the hardware gates the hamlet (R369). -/
def execHamletGate (m : HamletRef) (s : State) : Res :=
  let x := s.hamlet m
  if x.power = .active ∧ x.idle = true ∧ 64 ≤ s.idleFor m ∧ x.fence = .lowered then .next (s.setHamlet m { x with power := .gated })
  else .next s

/-- HAMLET_RETAIN: hint 1 or 2, RETAIN_IDLE of idle, and R101 and R160 permit (R369). -/
def execHamletRetain (m : HamletRef) (s : State) : Res :=
  let x := s.hamlet m
  if (x.power = .active ∨ x.power = .gated) ∧ x.idle = true ∧ x.mayRetain = true ∧ (x.hint = 1 ∨ x.hint = 2) ∧ s.retainIdle ≤ s.idleFor m ∧
      x.fence = .lowered then
    .next (s.setHamlet m { x with power := .retain })
  else .next s

/-- HAMLET_OFF: hint 2 and OFF_IDLE of idle; a slot that holds no job is Off as soon as the access that woke it is served, also behind a fence that
is never lowered (R187, R369). -/
def execHamletOff (m : HamletRef) (s : State) : Res :=
  let x := s.hamlet m
  if x.power ≠ .off ∧ (x.fence = .lowered ∨ x.retired = true) ∧ s.heldSlot m = false then
    .next (s.setHamlet m { x.vacated with wakes := x.wakes, fence := x.fence })
  else if x.power ≠ .off ∧ x.idle = true ∧ x.mayRetain = true ∧ x.hint = 2 ∧ s.offIdle ≤ s.idleFor m ∧ x.fence = .lowered then
    .next (s.setHamlet m { x with power := .off })
  else .next s

/-- HAMLET_WAKE: a control Bell signal or a Reeve's access wakes a hamlet that holds a job (R186, R370). -/
def execHamletWake (m : HamletRef) (s : State) : Res := if (s.jobAt m).isSome then .next (s.wake m) else .next s

end Sys2Proof.Machine
end

