-- ==== Sys2Proof/Machine/Lpddr.lean ====
section
/-! DEFINITION. Translation caches (R200, R392), Granary fills (R203, R388), the LPDDR controllers (R205 to R212) and uncorrectable
errors in memory (R387, R394, R396). -/

namespace Sys2Proof.Machine

/-! ## Whose a byte of LPDDR is -/

/-- The interleaved page and the offset in it of a die-local package address (R195). -/
def State.interleaved (s : State) (a : Nat) : Nat × Nat :=
  let d := a / 0xc000000000
  let o := a % 0xc000000000
  let x := ((o / 0x10000) * s.dieCount + d) * 0x10000 + o % 0x10000
  (x / pageBytes, x % pageBytes)

/-- The die-local package address of an offset in an interleaved page (R195). -/
def State.pageAddr (s : State) (page off : Nat) : Nat :=
  let x := page * pageBytes + off
  let g := x / 0x10000
  lpddrBase (g % s.dieCount) + (g / s.dieCount) * 0x10000 + x % 0x10000

/-- PAGE values of the two views for a die-local package address. -/
def State.pageFields (s : State) (a : Nat) : List Nat := [a / pageBytes, viewBase / pageBytes + (s.interleaved a).1]

/-- The first household that maps a die-local package address through either view; 0 where there is none. -/
def State.pageOwner (s : State) (a : Nat) : Nat :=
  ((s.households.cells.find? fun h => (s.ptesOf h.1).any fun c => (s.pageFields a).contains (ptePage c.2)).map Prod.fst).getD 0

/-- The tensor that holds a die-local package address, the byte's offset in it and whether the address is of its mirror (R353). -/
def State.tensorAt (s : State) (a : Nat) : Option (Nat × Tensor × Nat × Bool) :=
  let q := s.interleaved a
  s.tensors.cells.findSome? fun c =>
    match c.2.pages.idxOf? q.1 with
    | some i => some (c.1, c.2, i * pageBytes + q.2, false)
    | none => (c.2.mirrorPages.idxOf? q.1).map fun i => (c.1, c.2, i * pageBytes + q.2, true)

/-- The die-local address of a byte of a tensor, or of its mirror. -/
def State.tensorAddr (s : State) (t : Tensor) (mirror : Bool) (off : Nat) : Nat :=
  s.pageAddr ((if mirror then t.mirrorPages else t.pages).getD (off / pageBytes) 0) (off % pageBytes)

/-! ## Poisoning a block (R209, R394, R396) -/

/-- A poisoned block of an admitted tensor asks the host for its data once, unless its mirror is whole (R396). -/
def State.askReload (s : State) (a : Nat) : State :=
  match s.tensorAt a with
  | some (id, t, off, m) =>
    let b := off / 2048
    if t.admitted = false ∨ s.reload.contains (id, b) = true ∨ (t.mirror = true ∧ s.blkPoison.contains (s.tensorAddr t (!m) off / 2048) = false) then s
    else { s with reload := s.reload ++ [(id, b)] }.notify 0 0xf005 (BitVec.ofNat 64 (id % 2 ^ 32 + b * 2 ^ 32))
  | none => s

/-- The block at a die-local package address is poisoned and recorded CONTAINED: with HOUSEHOLD 0, the tensor and the job for an admitted
tensor, else with the household that owns it (R394, R396). The head Reeve enters it in the die's poison list (R193). -/
def State.poisonBlock (s : State) (a cls place job : Nat) : State :=
  if s.blkPoison.contains (a / 2048) then s
  else
    let t := s.markBlock (a / 2048)
    let base := 2048 * (a / 2048)
    let r : LogReq := { cls := cls, severity := 2, die := a / 0xc000000000, place := place, event := 2, addr := base, job := job }
    (((t.logEvent (match s.tensorAt a with
      | some (id, _, _, _) => { r with detail := id }
      | none => { r with household := s.pageOwner a })).readArea (a / 0xc000000000) .poisonList).askReload base)

/-! ## Translation caches -/

/-- TRANSLATION_MISS: a die that does not hold an entry reads it from its copy of the table (R200). The `bad` first copies, its own and then
the others', are found uncorrectable by this read or by the repair; a poisoned copy is rewritten from another, and a table with no good copy
is FATAL (R392). A full cache drops its oldest entry (log entry 29). -/
def execTranslationMiss (d hh page bad : Nat) (s : State) : Res :=
  let x := s.household hh
  if x.ptLen ≤ page ∨ s.dieCount ≤ d ∨ (s.die d).tcache.contains (hh, page) = true then .next s
  else
    let copies := s.tableCopies d hh page
    let t := (copies.take bad).foldl (fun u a => u.markBlock (a / 2048)) s
    let u := t.readFirm d hh copies
    if copies.all fun a => t.blkPoison.contains (a / 2048) then .next u
    else
      let c := (u.die d).tcache ++ [(hh, page)]
      .next (u.modDie d fun y => { y with tcache := if 4096 < c.length then c.drop 1 else c })

/-! ## Granary -/

/-- A line is at home in a parish and lies in LPDDR (R194). -/
def State.homeLine (s : State) (p : ParishRef) (line : Nat) : Bool :=
  lpddrHome (512 * line) == p && s.dieLocal (512 * line) == some (512 * line)

/-- A line of the cache found uncorrectable (R388): a clean one is refetched, a dirty one is written back with its block poisoned. -/
def State.badLine (s : State) (p : ParishRef) (line : Nat) (dirty : Bool) : State :=
  if dirty then s.poisonBlock (512 * line) 1 (18 + p.par) 0
  else s.logEvent { cls := 1, severity := 1, die := p.die, place := 18 + p.par, household := s.pageOwner (512 * line), event := 1, addr := 512 * line }

/-- GRANARY_FILL: a missing line enters its set, and a dirty victim is written back; with `bad`, the line that leaves or is refetched was
found uncorrectable (R201, R203, R388). -/
def execGranaryFill (p : ParishRef) (line : Nat) (bad : Bool) (s : State) : Res :=
  let x := s.parish p
  let set := cacheSet (512 * line)
  if s.homeLine p line = false ∨ x.cacheWays = 0 then .next s
  else
    match x.wayOf line with
    | some w =>
      if bad then
        let way := x.ways.get ⟨line, false⟩ (wayKey set w)
        .next ((s.modParish p fun y => { y with ways := y.ways.set (wayKey set w) ⟨line, false⟩ }).badLine p line way.dirty)
      else .next s
    | none =>
      let t := s.modParish p fun y => y.fill line false
      match x.ways.find (wayKey set (x.victim set).1) with
      | some v => if bad then .next (t.badLine p v.line v.dirty) else .next t
      | none => .next t

/-! ## Controllers -/

/-- The die-local package address of a controller's data address (R194). -/
def siteAddr (c : CtlRef) (a : Nat) : Nat := lpddrBase c.die + ((a / 4096) * 6 + c.ctl) * 4096 + a % 4096

/-- The link ECC of a read: corrections and up to two repeats are counted (R211). -/
def State.linkRead (s : State) (c : CtlRef) (l : LinkEcc) : State :=
  let n := l.single + min 2 l.uncorrected
  if n = 0 then s
  else
    let t := s.modCtl c fun x => { x with link := satAdd x.link n }
    if l.uncorrected = 0 then t
    else t.logEvent { cls := 2, severity := 1, die := c.die, place := c.ctl, event := 3, detail := min 2 l.uncorrected }

/-- The inline code of one sector: up to 4 wrong bytes in a codeword are corrected and a rewrite is scheduled, more poison the block
(R208, R209). A block that bears the mark is not decoded; the read of a block of an admitted tensor asks for its data where no request of this
session of the package has (R396). -/
def State.decodeSector (s : State) (c : CtlRef) (sector job : Nat) (errs : List Nat) : State :=
  let a := siteAddr c (512 * sector)
  if s.isData a = false then s
  else if s.blkPoison.contains (a / 2048) then s.askReload (2048 * (a / 2048))
  else if errs.all fun n => n == 0 then s
  else if errs.any fun n => decide (4 < n) then
    s.poisonBlock a 2 c.ctl job
  else
    (s.modCtl c fun x => { x with corrected := satAdd x.corrected 1, rewrites := x.rewrites ++ [sector] }).logEvent
      { cls := 2, severity := 1, die := c.die, place := c.ctl, household := s.pageOwner a, event := 1, addr := a }

/-- LPDDR_READ (R207, R208, R211): a sector is read and decoded; a poisoned block that a step reads is kept with the step (R300). -/
def execLpddrRead (c : CtlRef) (sector : Nat) (errs : List Nat) (link : LinkEcc) (job : Nat) (s : State) : Res :=
  if (s.die c.die).noLpddr = true ∨ s.dieCount ≤ c.die then .next s
  else
    .next (((s.linkRead c link).decodeSector c sector job errs).noteBad { household := 0, job := some job }
      [.mem ⟨siteAddr c (512 * sector), 512, .plain⟩])

/-- One byte, or part of one 4 KiB stripe, of a controller's write. -/
def State.siteWrite (s : State) (c : CtlRef) : Nat → List (List Byte) → State
  | _, [] => s
  | a, d :: ds =>
    let x := siteAddr c a
    let t := if s.isData x then { s with mem := s.mem.writeBytes x d } else s
    t.siteWrite c (a + d.length) ds

/-- The runs of a controller's data that each lie in one 2 KiB block. -/
def siteRuns (a : Nat) (d : List Byte) : List (List Byte) := (runsOf a d.length).map fun r => slice d (r.1 - a) r.2

/-- LPDDR_WRITE (R207, R209): bytes are written at a controller's data address as they are to be stored; a partial sector is read and
rewritten, and a write that covers a block clears its poison. -/
def execLpddrWrite (c : CtlRef) (addr : Nat) (data : List Byte) (s : State) : Res :=
  if (s.die c.die).noLpddr = true ∨ s.dieCount ≤ c.die then .next s
  else
    let t := s.siteWrite c addr (siteRuns addr data)
    let whole := (blocksOf addr data.length).filter fun b => decide (addr ≤ 2048 * b) && decide (2048 * (b + 1) ≤ addr + data.length)
    .next { t with blkPoison := whole.foldl (fun l b => l.erase (siteAddr c (2048 * b) / 2048)) t.blkPoison }

/-- Whether a STRICT job runs, which defers the correction rewrites and the daily read-through of every controller (R264). -/
def State.strictRuns (s : State) : Bool := s.jobs.cells.any fun c => c.2.state == .running && c.2.mode == 2

/-- CORRECTION_REWRITE: the oldest sector that waits is read again and rewritten with its corrected data; where it is found uncorrectable now,
its block is poisoned (R208, R394). -/
def execCorrectionRewrite (w : Rewrite) (s : State) : Res :=
  if s.strictRuns then .next s
  else
    match (s.ctl w.ctl).rewrites with
    | [] => .next s
    | sector :: rest =>
      let t := s.modCtl w.ctl fun x => { x with rewrites := rest }
      .next (if w.errs.any fun n => decide (4 < n) then t.decodeSector w.ctl sector 0 w.errs else t)

/-- AOCLK ticks in 24 hours. -/
def ticksPerDay : Nat := 86400 * ticksPerSecond

/-- DAILY_READ_THROUGH: every sector of the site is read; those found wrong are corrected or poison their block (R208). -/
def execDailyReadThrough (c : CtlRef) (found : List SectorErr) (s : State) : Res :=
  if (s.die c.die).noLpddr = true ∨ s.dieCount ≤ c.die ∨ s.strictRuns = true ∨ s.clock.toNat < (s.ctl c).lastReadThrough.toNat + ticksPerDay then .next s
  else .next ((found.foldl (fun t e => t.decodeSector c e.sector 0 e.errs) s).modCtl c fun x => { x with lastReadThrough := s.clock })

/-- MC_STATUS.REFRESH for a temperature (Table 7.9). -/
def refreshCode (temp : Nat) : BitVec 2 := if temp ≤ 85 then 0 else if temp ≤ 95 then 1 else if temp ≤ 105 then 2 else 3

/-- REFRESH_UPDATE: the refresh rate follows MR4, and reaching 95 °C or 105 °C is recorded (R212). -/
def execRefreshUpdate (c : CtlRef) (temp : Nat) (s : State) : Res :=
  let r := refreshCode temp
  let old := (s.ctl c).refresh
  let t := s.modCtl c fun x => { x with refresh := r }
  if (s.die c.die).noLpddr = true ∨ s.dieCount ≤ c.die then .next s
  else if old = r ∨ r.toNat < 2 then .next t
  else .next (t.logEvent { cls := 2, severity := 0, die := c.die, place := c.ctl, event := 3 + r.toNat, detail := temp })

/-! ## Errors found in memory -/

/-- The job that holds a slot until its scrub has ended, so that an error which the scrub finds counts against it (R391). -/
def State.jobHolding (s : State) (m : HamletRef) : Option (Nat × Job) :=
  s.jobs.cells.find? fun c => (c.2.live || c.2.isEnding) && c.2.slots.contains m

/-- The job that holds a scratchpad or scratch granule at an on-chip address, and the Logbook place of the address (Table 14.3). -/
def State.sramPlace (s : State) (a : Nat) : Nat × Option (Nat × Job) :=
  let o := a - sramBase
  match slotOfAddr a with
  | some m => (m.slot, s.jobHolding m)
  | none =>
    let p : ParishRef := ⟨o / 0x40000000, o % 0x40000000 / 0x100000 / 40⟩
    (18 + p.par, ((s.parish p).owner.find (o % 0x40000000 / 0x100000 % 40)).bind fun n => (s.jobs.find n).map fun j => (n, j))

/-- A record of an on-chip word that has been poisoned, with the household and job that hold it (R391, R394). -/
def State.notePoisoned (s : State) (die place addr : Nat) (j : Option (Nat × Job)) : State :=
  s.logEvent { cls := 1, severity := 2, die := die, place := place, household := (j.map fun c => c.2.household).getD 0
               job := (j.map Prod.fst).getD 0, event := 2, addr := addr }

/-- Whether an on-chip address is of a scratchpad or of a granule in scratch mode. -/
def State.isPad (s : State) (a : Nat) : Bool :=
  let o := (a - sramBase) % 0x40000000
  isSram a && decide ((a - sramBase) / 0x40000000 < s.dieCount) &&
    (match slotOfAddr a with
    | some m => decide (m.slot < 18) && decide ((o - 0x10000000) % 0x800000 < padBytes)
    | none => s.isScratch ((a - sramBase) / 0x40000000) (o / 0x100000))

/-- UNCORRECTABLE_PRIVATE: a word or block found uncorrectable is poisoned in place, recorded CONTAINED and alerted (R387, R394). A weight set
of a Mill takes the mark of R82, and a word of its staging buffer the mark of R387; a word of Reeve memory, of the Ledger or of a key slot is
FATAL (R392). -/
def execUncorrectablePrivate (x : BadWord) (s : State) : Res :=
  match x with
  | .data a =>
    if isSram a then
      (if s.isPad a then
        .next ({ s with sramPoison := setInsert s.sramPoison (a / 8) }.notePoisoned ((a - sramBase) / 0x40000000) (s.sramPlace a).1 (8 * (a / 8))
          (s.sramPlace a).2)
      else .next s)
    else
      (match (if s.isData a then some a else s.dieLocal a) with
      | some y =>
        if s.blkPoison.contains (y / 2048) then .next s
        else .next (s.poisonBlock y 2 (lpddrCtl y).ctl 0)
      | none => .next s)
  | .weights u k =>
    if (s.hamlet (millSlot u)).power ≠ .active then .next s
    else .next ((s.modMill u fun y => { y with sets := y.sets.set (k % 2) { y.sets.get {} (k % 2) with poisoned := true } }).notePoisoned u.die u.slot 0
      (s.jobHolding (millSlot u)))
  | .staging u w =>
    if (s.hamlet (millSlot u)).power ≠ .active then .next s
    else .next ((s.modMill u fun y => { y with stagingBad := setInsert y.stagingBad (w % 8192) }).notePoisoned u.die u.slot 0 (s.jobHolding (millSlot u)))
  | .firmware d => .next (s.logEvent { cls := 13, severity := 3, die := d, event := 1 })

/-- SRAM_CORRECT: a single-bit error is corrected and the word rewritten; only the Logbook shows it (R387), with the job that holds the slot or the
granule, also while it is scrubbed (R391). -/
def execSramCorrect (x : SramPlace) (s : State) : Res :=
  let r (die place addr : Nat) (j : Option (Nat × Job)) : LogReq :=
    { cls := 1, severity := 1, die := die, place := place, event := 1, addr := addr
      household := (j.map fun c => c.2.household).getD 0, job := (j.map Prod.fst).getD 0 }
  match x with
  | .slot m a => .next (s.logEvent (r m.die m.slot (sramAddr m a) (s.jobHolding m)))
  | .granary p a => .next (s.logEvent (r p.die (18 + p.par) a (if s.isPad a then (s.sramPlace a).2 else none)))
  | .parishLogic p => .next (s.logEvent (r p.die (22 + p.par) 0 none))
  | .sieveLedger d => .next (s.logEvent (r d 26 0 none))
  | .reeve d => .next (s.logEvent (r d 27 0 none))

end Sys2Proof.Machine
end

