-- ==== Sys2Proof/Machine/Serving.lean ====
section
/-! DEFINITION. Serving (R275 to R301): the Ledger's entries and their ends, steps, the Sieve and its sampler, the Cellar, held steps and
their replay. -/

namespace Sys2Proof.Machine

/-! ## Entries -/

/-- Codes of the states (Table 10.2). -/
def EntryState.code : EntryState → Nat
  | .free => 0
  | .queued => 1
  | .active => 2
  | .held => 3
  | .pausing => 4
  | .paused => 5
  | .resuming => 6

/-- Final statuses (Table 10.3). -/
def finKilled : Nat := 1
def finDeadEnd : Nat := 2
def finMissed : Nat := 3
def finLate : Nat := 4
def finCancelled : Nat := 5
def finExpired : Nat := 6
def finCellar : Nat := 7
def finOk : Nat := 8
def finMaxTokens : Nat := 9
def finOutputFault : Nat := 10

/-- The job of an entry, through its session. -/
def State.entryJob (s : State) (x : Entry) : Option (Nat × Job) :=
  (s.sessions.find x.session).bind fun q => (s.jobs.find q.job).map fun j => (q.job, j)

/-- The step number of the job of an entry. -/
def State.entryStep (s : State) (x : Entry) : Nat := ((s.entryJob x).map fun j => j.2.serving.step).getD 0

/-- Whether an entry's deadline has passed (R286). -/
def State.pastDeadline (s : State) (x : Entry) : Bool := x.deadline != 0 && decide (x.deadline.toNat < s.clock.toNat)

/-- An output record (R280). -/
def outRecord (token : Nat) (late last : Bool) (final : Nat) (noToken : Bool) (step : Nat) : List Byte :=
  toBytes 8 (token % 2 ^ 18 + flag late * 2 ^ 18 + flag last * 2 ^ 19 + (if last then final else 0) * 2 ^ 20 + flag noToken * 2 ^ 24 +
    (step % 2 ^ 32) * 2 ^ 32)

/-- A write with the household's number through its page table, none where it faults or meets a poisoned block (R281). -/
def State.writeFor (s : State) (hh ha : Nat) (d : List Byte) : Option State :=
  match s.places { household := hh, job := none } true (s.ownEa ha) d.length with
  | none => none
  | some ps => if ps.any fun p => !isSram p.addr && s.poisonedAt p.addr p.len then none else
      s.writeMem { household := hh, job := none } (s.ownEa ha) d false

/-- An output record goes at OUT_BUF + 8 x GENERATED (R280). -/
def State.writeOut (s : State) (x : Entry) (d : List Byte) : Option State := s.writeFor x.household (x.outBuf.toNat + 8 * x.generated) d

/-- The count of an adapter slot falls by one; a slot without CURRENT is freed at zero and reported (R299). -/
def State.unpin (s : State) (slot : Nat) : State :=
  match s.adapters.find slot with
  | none => s
  | some a =>
    if a.count ≤ 1 ∧ a.current = false then
      { s with adapters := s.adapters.del slot }.notifyHousehold a.household 0xf003 (BitVec.ofNat 64 (slot + a.id.toNat * 2 ^ 32))
    else { s with adapters := s.adapters.set slot { a with count := a.count - 1 } }

/-- An entry returns to FREE with its final status; its pages and pins are given back (R278, R288, R299). -/
def State.closeEntry (s : State) (e final : Nat) : State :=
  let x := s.entry e
  (s.modEntry e fun y => { y with state := .free, final := final, pages := [], wish := .none, crcs := [], expiry := 0 }).unpin x.adapter

/-- An output fault is recorded and alerts the household (R281). -/
def State.outputFault (s : State) (x : Entry) : State :=
  s.logEvent { cls := 11, severity := 0, die := 0, household := x.household, job := ((s.entryJob x).map Prod.fst).getD 0, event := 4 }

/-- A request ends without a token: its last record is written, or cannot be (R279, R280, R281). -/
def State.endEntry (s : State) (e final : Nat) (late : Bool) : State :=
  let x := s.entry e
  match s.writeOut x (outRecord 0 late true final true (s.entryStep x)) with
  | some t => t.closeEntry e final
  | none => (s.outputFault x).closeEntry e (if final = finKilled then finKilled else finOutputFault)

/-- The entries in use that satisfy a test. -/
def State.entriesWhere (s : State) (p : Entry → Bool) : List Nat :=
  (s.ledger.cells.filter fun c => c.2.state != .free && p c.2).map Prod.fst

/-- The sessions of a job. -/
def State.sessionsOf (s : State) (n : Nat) : List Nat := (s.sessions.cells.filter fun c => c.2.job == n).map Prod.fst

/-- The entries of a job. -/
def State.entriesOf (s : State) (n : Nat) : List Nat := s.entriesWhere fun x => (s.sessionsOf n).contains x.session

/-- The entries of a job end KILLED, with final records, and its sessions close (R351, R393). -/
def State.killEntries (s : State) (n : Nat) : State :=
  let t := (s.entriesOf n).foldl (fun u e => u.endEntry e finKilled false) s
  { t with sessions := t.sessions.keep fun _ q => q.job != n }

/-! ## Grammar automata (R293, R297) -/

/-- A state and an edge of an automaton image (Table 10.6). -/
def grammarState (v : Nat) : GrammarState := ⟨bitsOf v 0 24, bitsOf v 24 18, bitAt v 42⟩
def grammarEdge (v : Nat) : GrammarEdge := ⟨bitsOf v 0 18, bitsOf v 18 18, bitsOf v 36 16⟩

/-- Key of doubleword `k` of the state table and edge list of grammar slot `i` in a Sieve cache. -/
def sieveKey (i k : Nat) : Nat := i * 2 ^ 26 + k

/-- What a Sieve finds when it reads a grammar image: a value, poison, or no memory at the image's household address. -/
inductive GramRead (α : Type)
  | ok (x : α)
  | poison
  | lost
deriving DecidableEq, Repr

/-- Doubleword `k` of the states and edges of a grammar: from the cache of the die's Sieve, else from the image (R297). -/
def State.grammarWord (s : State) (d i : Nat) (g : Grammar) (k : Nat) : GramRead Nat :=
  match (s.sieves.get {} d).find (sieveKey i k) with
  | some w => .ok w.toNat
  | none =>
    match s.places { household := g.household, job := none } false (s.ownEa (g.ha.toNat + 32 + 8 * k)) 8 with
    | none => .lost
    | some ps => if (s.loadPlaces ps).2 then .poison else .ok (recNat (s.loadPlaces ps).1 0 8)

/-- Several doublewords, in order. -/
def State.grammarWords (s : State) (d i : Nat) (g : Grammar) : List Nat → GramRead (List Nat)
  | [] => .ok []
  | k :: ks =>
    match s.grammarWord d i g k, s.grammarWords d i g ks with
    | .ok w, .ok ws => .ok (w :: ws)
    | .lost, _ => .lost
    | _, .lost => .lost
    | _, _ => .poison

/-- What a grammar state allows: the edges that leave it and whether EOS is allowed. -/
structure GramView where
  edges : List GrammarEdge
  accept : Bool
deriving DecidableEq, Repr

/-- Whether a token is allowed. -/
def GramView.allows (g : GramView) (eos t : Nat) : Bool :=
  (g.edges.any fun e => decide (e.lo ≤ t) && decide (t ≤ e.hi)) || (t == eos && g.accept)

/-- The state after a token: NEXT of the edge that holds it, and no change without one (R296). -/
def GramView.next (g : GramView) (st t : Nat) : Nat :=
  ((g.edges.find? fun e => decide (e.lo ≤ t) && decide (t ≤ e.hi)).map (·.next)).getD st

/-- The doublewords of the image that say what a state allows: that of the state, and those of its edges. -/
def gramWordsOf (g : Grammar) (st : Nat) (x : GrammarState) : List Nat := st :: (List.range x.count).map fun i => g.states + x.first + i

/-- What the Sieve of a die finds that an entry's grammar state allows; GRAMMAR 0 allows every token and keeps the state. -/
def State.gramView (s : State) (d : Nat) (x : Entry) : GramRead GramView :=
  match s.grammars.find x.grammar with
  | none => .ok ⟨[⟨0, 2 ^ 18, x.gstate⟩], true⟩
  | some g =>
    match s.grammarWord d x.grammar g x.gstate with
    | .ok w =>
      (match s.grammarWords d x.grammar g ((gramWordsOf g x.gstate (grammarState w)).drop 1) with
      | .ok ws => .ok ⟨ws.map grammarEdge, (grammarState w).accept⟩
      | .poison => .poison
      | .lost => .lost)
    | .poison => .poison
    | .lost => .lost

/-- Doublewords that a Sieve cache holds: 4 MiB (R297). -/
def sieveWords : Nat := 524288

/-- The Sieve of a die caches what it has read for an entry's grammar state (R297); at more than 4 MiB the words of the lowest keys go (log
entry 88). -/
def State.cacheGrammar (s : State) (d : Nat) (x : Entry) : State :=
  match s.grammars.find x.grammar with
  | none => s
  | some g =>
    match s.grammarWord d x.grammar g x.gstate with
    | .ok w =>
      let ks := gramWordsOf g x.gstate (grammarState w)
      let c := ks.foldl (fun (t : Tab Word64) k => match s.grammarWord d x.grammar g k with
        | .ok v => t.set (sieveKey x.grammar k) (BitVec.ofNat 64 v)
        | _ => t) (s.sieves.get {} d)
      { s with sieves := s.sieves.set d ⟨c.cells.drop (c.cells.length - sieveWords)⟩ }
    | _ => s

/-- No Sieve holds words of a grammar slot. -/
def State.dropSieve (s : State) (i : Nat) : State := { s with sieves := s.sieves.mapV fun _ t => t.keep fun k _ => k / 2 ^ 26 != i }

/-- GSTATE after a token, which die 0 takes from the edge that holds it (R296); free where the image can no longer be read. -/
def State.grammarNext (s : State) (x : Entry) (t : Nat) : Nat × State :=
  match s.gramView 0 x with
  | .ok g => (g.next x.gstate t, s)
  | _ => (s.fresh.1.toNat % 65536, s.fresh.2)

/-! ## The Sieve (R291 to R297) -/

/-- The shard of a die: its first token and its tokens (R291). -/
def shardOf (v n d : Nat) : Nat × Nat :=
  let w := ceilDiv v (64 * n) * 64
  (d * w, min ((d + 1) * w) v - d * w)

/-- The rows of the current step that are sampled, in block order. -/
def Serving.sampled (x : Serving) : List StepRow := x.rows.filter (·.sample)

/-- Rows that a die's Sieve has taken in this step. -/
def Serving.takenBy (x : Serving) (d : Nat) : Nat := x.taken.get 0 d

/-- Whether candidate `a` ranks before `b`: the greater logit, then the lower token; zeros of both signs are equal (R294). -/
def Candidate.before (a b : Candidate) : Bool :=
  let x := decodeFp .fp32 a.logit.toNat
  let y := decodeFp .fp32 b.logit.toNat
  y.lt x || (!x.lt y && decide (a.token < b.token))

/-- A ranked list with a candidate put in its place. -/
def rankIn : List Candidate → Candidate → List Candidate
  | [], c => [c]
  | b :: t, c => if c.before b then c :: b :: t else b :: rankIn t c

/-- The first 64 candidates in rank order (R294). -/
def topRanked (l : List Candidate) : List Candidate := l.foldl (fun acc c => (rankIn acc c).take 64) []

/-- Whether a logit takes part: not NaN, not minus infinity (R294). -/
def logitCounts (w : Nat) : Bool :=
  match decodeFp .fp32 w with
  | .nan _ => false
  | .inf neg => !neg
  | .fin _ _ _ => true

/-- The candidates of a shard for a request that ends with token `eos` (R294). -/
def shardCandidates (g : GramView) (eos lo : Nat) (logits : List Nat) : List Candidate :=
  topRanked ((logits.zipIdx.filter fun (w, i) => logitCounts w && g.allows eos (lo + i)).map fun (w, i) => ⟨lo + i, BitVec.ofNat 32 w⟩)

/-- The Sieve ring of a die of a job. -/
def Job.sieveRing (j : Job) (d : Nat) : Option RingRef :=
  (j.image.sieves.find? fun x => x.1 == d).bind fun x => j.ringOf x.2.toNat

/-- A slot taken by a Sieve for row `i`: ranked; or the step is poisoned, by the slot or by a word of the grammar image (R300, R390); or its
results are open, by a slot that breaks R292 or an image that its household no longer maps (log entry 88). -/
def State.sieveTake (s : State) (n d : Nat) (row : Nat × StepRow) (shard : Nat × Nat) (x : SlotIn) : State :=
  let e := s.entry row.2.entry
  (s.cacheGrammar d e).modJob n fun j =>
    let v := j.serving
    let w := { v with taken := v.taken.set d (row.1 + 1) }
    { j with serving :=
        if x.poison then { w with poisoned := true }
        else if x.fmt ≠ 4 ∨ x.bytes.length ≠ 4 * shard.2 then { w with wild := true, sent := w.sent ++ [⟨d, row.1, []⟩] }
        else
          match s.gramView d e with
          | .ok g => { w with sent := w.sent ++ [⟨d, row.1, shardCandidates g e.eos shard.1 (words 4 x.bytes)⟩] }
          | .poison => { w with poisoned := true }
          | .lost => { w with wild := true, sent := w.sent ++ [⟨d, row.1, []⟩] } }

/-- SIEVE_ROW: a die's Sieve takes the slot of the next sampled row, ranks it and releases the slot (R292, R294, R300). -/
def execSieveRow (d n : Nat) (s : State) : Res :=
  match s.jobs.find n with
  | none => .next s
  | some j =>
    let i := j.serving.takenBy d
    let shard := shardOf j.image.serv.vocab s.dieCount d
    match j.serving.sampled[i]?, j.sieveRing d with
    | some row, some r =>
      if j.state ≠ .running ∨ j.serving.active = false ∨ shard.2 = 0 ∨ s.dieCount ≤ d then .next s
      else
        (match ((s.wake (ringSlot r)).boundUse r true).takeSlot r .landing true with
        | none => .next s
        | some (k, t) =>
          .next (((t.sieveTake n d (i, row) shard (t.slotIn r k)).releaseSlot r k).stir))
    | _, _ => .next s

/-! The sampler (R295): every operation is one FP32 operation rounded under R60. -/

/-- One FP32 product, sum and difference. -/
def mul32 (a b : Nat) : Nat := (fpMul .fp32 a b).bits
def add32 (a b : Nat) : Nat := (fpAdd .fp32 a b).bits
def sub32 (a b : Nat) : Nat := (fpSub .fp32 a b).bits
/-- Greater than, and greater than or equal to. -/
def gt32 (a b : Nat) : Bool := (decodeFp .fp32 b).lt (decodeFp .fp32 a)
def ge32 (a b : Nat) : Bool := gt32 a b || (decodeFp .fp32 a).eqv (decodeFp .fp32 b)
/-- Whether an encoding is a NaN or an infinity. -/
def isNan32 (a : Nat) : Bool := (decodeFp .fp32 a).isNan
def isInf32 (a : Nat) : Bool :=
  match decodeFp .fp32 a with
  | .inf _ => true
  | _ => false

/-- Weights of the first K candidates (R295 step 2). -/
def weights (rtemp : Nat) (ls : List Nat) : List Nat :=
  let ss := ls.map fun l => mul32 l rtemp
  ss.map fun x => (fpExp2 .fp32 (mul32 (sub32 x (ss.getD 0 0)) 0x3fb8aa3b)).bits

/-- Running sums from a first value (R295 step 3). -/
def runningSums : Nat → List Nat → List Nat
  | _, [] => []
  | c, w :: t => add32 c w :: runningSums (add32 c w) t

/-- C of R295. -/
def cumulative : List Nat → List Nat
  | [] => []
  | w :: t => w :: runningSums w t

/-- (x0 >> 8) x 2^-24 as an FP32 number, which is exact (R295 step 5). -/
def uniform32 (x0 : Nat) : Nat := (roundDyadic .fp32 .nearest ((x0 / 256 : Nat) : Int) (-24) false).bits

/-- The token that the sampler picks; none ends the request DEAD_END (R295). -/
def State.sample (s : State) (x : Entry) (pos : Nat) (cs : List Candidate) : Option (BitVec 18) :=
  match cs with
  | [] => none
  | c0 :: _ =>
    if x.sample = false then some (BitVec.ofNat 18 c0.token)
    else
      let ws := weights x.rtemp.toNat ((cs.take x.topK).map fun c => c.logit.toNat)
      if isInf32 x.rtemp.toNat ∨ (ws.any isNan32) = true then none
      else
        let cum := cumulative ws
        let tau := mul32 x.topP.toNat (cum.getLastD 0)
        let m := ((cum.findIdx? fun c => ge32 c tau).map (· + 1)).getD cum.length
        let x0 := lotValue s.settings.lotSeed x.seed pos 0 0xffff0001 % 2 ^ 32
        let t := mul32 (uniform32 x0) (cum.getD (m - 1) 0)
        let i := ((cum.take m).findIdx? fun c => gt32 c t).getD (m - 1)
        some (BitVec.ofNat 18 ((cs.getD i c0).token))

/-- Dies whose shard holds tokens. -/
def State.sieveDies (s : State) (j : Job) : List Nat :=
  (List.range s.dieCount).filter fun d => (shardOf j.image.serv.vocab s.dieCount d).2 != 0

/-- SIEVE_SAMPLE: die 0 merges the candidates of the next row, once every die has sent its own, and samples (R294, R295). -/
def execSieveSample (n : Nat) (s : State) : Res :=
  match s.jobs.find n with
  | none => .next s
  | some j =>
    let v := j.serving
    let i := v.verdicts.length
    match v.sampled[i]? with
    | none => .next s
    | some row =>
      let sent := v.sent.filter fun c => c.row == i
      if j.state ≠ .running ∨ v.active = false ∨ v.poisoned = true ∨ (s.sieveDies j).all (fun d => sent.any fun c => c.die == d) = false then .next s
      else
        let x := s.entry row.entry
        .next ((s.modJob n fun k => { k with serving := { v with
          verdicts := v.verdicts ++ [⟨row.entry, s.sample x row.pos (topRanked (sent.flatMap (·.cands)))⟩] } }).stir)

/-! ## Steps (R282 to R287) -/

/-- Whether entry `a` is ranked before `b` (R283). -/
def State.rankedBefore (s : State) (a b : Entry) : Bool :=
  let dl (x : Entry) : Nat := if x.deadline = 0 then 2 ^ 64 else x.deadline.toNat
  let age (x : Entry) : Nat := (s.nextSeq - x.seq).toNat
  decide (b.priority < a.priority) ||
    (a.priority == b.priority && (decide (dl a < dl b) || (dl a == dl b && decide (age b < age a))))

/-- An entry number put into a ranked list. -/
def State.rankEntry (s : State) : List Nat → Nat → List Nat
  | [], e => [e]
  | f :: t, e => if s.rankedBefore (s.entry e) (s.entry f) then e :: f :: t else f :: s.rankEntry t e

/-- The QUEUED and ACTIVE entries of a job in rank order (R284). -/
def State.ranked (s : State) (n : Nat) : List Nat :=
  ((s.entriesOf n).filter fun e => (s.entry e).state == .queued || (s.entry e).state == .active).foldl s.rankEntry []

/-- The batch under construction; `bad` are the poisoned blocks of the prompts read for it, none where no prompt carried poison. -/
structure Batch where
  rows : List StepRow
  reqs : List Nat
  st : State
  bad : Option (List Nat) := none

/-- Input tokens of prompt rows from PROMPT_BUF, and the poisoned blocks that they were read from (R390); free ones where the buffer cannot be
read or carries poison (log entry 31). -/
def State.promptTokens (s : State) (x : Entry) (k : Nat) : List (BitVec 18) × Option (List Nat) × State :=
  let who : Actor := { household := x.household, job := none }
  let ea := s.ownEa (x.promptBuf.toNat + 4 * x.length)
  let bad := (((s.places who false ea (4 * k)).getD []).flatMap fun p => if isSram p.addr then [] else blocksOf p.addr p.len).filter fun b =>
    s.blkPoison.contains b
  match s.readMem who ea (4 * k) with
  | some ((b, false), t) => ((words 4 b).map (BitVec.ofNat 18), none, t)
  | r => (((List.range k).map fun i => (Config.freeWord (s.freeCtr + i)).setWidth 18), r.map fun _ => bad, { s with freeCtr := s.freeCtr + k })

/-- One ranked entry is offered rows (R284 step 3, R285). -/
def offerRows (j : Job) (b : Batch) (e : Nat) : Batch :=
  let x := b.st.entry e
  let room := j.image.serv.rowsMax - b.rows.length
  if j.image.serv.reqMax ≤ b.reqs.length ∨ room = 0 then b
  else if x.length < x.promptLen then
    let k := min (min (x.promptLen - x.length) j.image.serv.prefill) room
    let t := b.st.promptTokens x k
    let rows := (List.range k).map fun i => (⟨e, x.length + i + 1 == x.promptLen, x.length + i, t.1.getD i 0⟩ : StepRow)
    { rows := b.rows ++ rows, reqs := b.reqs ++ [e], st := t.2.2
      bad := match t.2.1 with
        | some l => some (l.foldl setInsert (b.bad.getD []))
        | none => b.bad }
  else { b with rows := b.rows ++ [⟨e, true, x.length, x.lastToken⟩], reqs := b.reqs ++ [e] }

/-- The record of a row (Table 10.4). -/
def State.rowBytes (s : State) (r : StepRow) : List Byte :=
  let x := s.entry r.entry
  let base := ((s.adapters.find x.adapter).map fun a => a.ha.toNat).getD 0
  toBytes 8 (r.entry + x.household * 2 ^ 14 + flag r.sample * 2 ^ 20 + r.pos * 2 ^ 32) ++ toBytes 8 (r.token.toNat + x.adapter * 2 ^ 18) ++
    toBytes 8 x.pageList.toNat ++ toBytes 8 base

/-- The step block (Table 10.4). -/
def State.stepBlock (s : State) (step : Nat) (rows : List StepRow) (reqs : Nat) (replay : Bool) : List Byte :=
  toBytes 8 step ++ toBytes 8 (rows.length + reqs * 2 ^ 16 + flag replay * 2 ^ 29) ++ toBytes 8 (rows.filter (·.sample)).length ++
    List.replicate 40 0 ++ rows.flatMap s.rowBytes

/-- MILL_COUNTS.WIDENED and CLIPPED summed over a job's Mills. -/
def State.millSums (s : State) (j : Job) : Nat × Nat :=
  j.slots.foldl (fun a m => (s.hamlet m).mills.cells.foldl (fun b c => (b.1 + c.2.widened.toNat, b.2 + c.2.clipped.toNat)) a) (0, 0)

/-- A step starts: its block is written, its entries are ACTIVE, and the step counter gets 1 through the control Bell network (R285). A block
that cannot be written stops the job's steps (R281). -/
def State.startStep (s : State) (n : Nat) (j : Job) (rows : List StepRow) (reqs : List Nat) (replay : Bool) : State :=
  let step := j.serving.step
  match s.writeFor j.household j.image.serv.stepBlock.toNat (s.stepBlock step rows reqs.length replay) with
  | none => s.modJob n fun k => { k with serving := { k.serving with active := false, blockLost := true } }
  | some t =>
    let c := t.millSums j
    let u := reqs.foldl (fun v e => v.modEntry e fun x => { x with state := .active, lastStep := BitVec.ofNat 32 step }) t
    let w := u.modJob n fun k => { k with serving :=
      { step := step, active := true, rows := rows, batch := reqs, replay := replay, started := s.clock, widenBase := c.1, clipBase := c.2
        kvWild := k.serving.kvWild, records := k.serving.records } }
    match j.ringOf j.image.serv.stepBell.toNat with
    | some r => w.castBell .reeve (ringSlot r) r.idx 1
    | none => w

/-- The next batch is selected and its step starts (R284); entries past their deadline end DEADLINE_MISSED (R286). A prompt read with poison makes
the step poisoned (R300, R390). The sessions with a final record are told in the result. -/
def State.selectBatch (s : State) (n : Nat) : State × List Nat :=
  let gone := (s.ranked n).filter fun e => (s.entry e).state == .queued && s.pastDeadline (s.entry e)
  let a := gone.foldl (fun t e => t.endEntry e finMissed false) s
  let told := gone.map fun e => (s.entry e).session
  match a.jobs.find n with
  | none => (a, told)
  | some j =>
    let order := a.ranked n
    let b := order.foldl (offerRows j) ⟨[], [], a, none⟩
    let c := order.foldl (fun t e => t.modEntry e fun x => { x with state := .queued }) b.st
    if b.reqs.isEmpty then (c.modJob n fun k => { k with serving := { k.serving with active := false, rows := [], batch := [] } }, told)
    else
      let t := c.startStep n j b.rows b.reqs false
      (match b.bad with
      | some l => t.modJob n fun k => { k with serving := { k.serving with poisoned := true, badBlocks := l } }
      | none => t, told)

/-- The verdict of an entry in the step: none where it had no sampled row. -/
def Serving.verdictOf (v : Serving) (e : Nat) : Option (Option (BitVec 18)) := (v.verdicts.find? fun x => x.entry == e).map (·.token)

/-- What a host error makes of a request's result: any token, or none (R292, R404, log entry 7). -/
def State.wildToken (s : State) (vocab : Nat) : Option (BitVec 18) × State :=
  (if s.fresh.1.getLsbD 63 then none else some (BitVec.ofNat 18 (s.fresh.1.toNat % (if vocab = 0 then 1 else vocab))), s.fresh.2)

/-- Whether the data of the adapter of a request has changed while a request pinned it. -/
def State.adapterChanged (s : State) (x : Entry) : Bool := ((s.adapters.find x.adapter).map (·.changed)).getD false

/-- The result of a request that had a sampled row: the sampler's, or a free one after a host error (R292, R404). -/
def State.resultOf (s : State) (j : Job) (x : Entry) (token : Option (BitVec 18)) : Option (BitVec 18) × State :=
  if j.serving.wild || j.serving.kvWild || s.adapterChanged x then s.wildToken j.image.serv.vocab else (token, s)

/-- The final status of a request that received a token, 0 where it goes on (R279). -/
def State.finalFor (s : State) (x : Entry) (closing : Bool) (token : Nat) : Nat :=
  if s.pastDeadline x then finLate
  else if x.wish = .cancel ∨ closing = true then finCancelled
  else if token = x.eos then finOk
  else if x.generated + 1 = x.maxNew then finMaxTokens
  else 0

/-- One request of a step at its boundary: LENGTH advances, its token is appended, it ends or goes on; whether a record was written (R280,
R286, R289, R296). -/
def State.entryBoundary (s : State) (j : Job) (e : Nat) : State × Bool :=
  let v := j.serving
  let rows := (v.rows.filter fun r => r.entry == e).length
  let t := s.modEntry e fun x => { x with length := x.length + rows }
  let x := t.entry e
  let late := t.pastDeadline x
  let closing := ((t.sessions.find x.session).map (·.closing)).getD true
  match v.verdictOf e with
  | none =>
    if late then (t.endEntry e finLate true, true)
    else if x.wish = .cancel ∨ closing = true then (t.endEntry e finCancelled false, true)
    else (t, false)
  | some token =>
    let w := t.resultOf j x token
    match w.1 with
    | none => (w.2.endEntry e finDeadEnd late, true)
    | some tok0 =>
      let tok := tok0.toNat
      let final := t.finalFor x closing tok
      match w.2.writeOut x (outRecord tok late (final != 0) final false v.step) with
      | none => ((w.2.outputFault x).closeEntry e finOutputFault, false)
      | some u =>
        let g := u.grammarNext x tok
        let y := g.2.modEntry e fun z => { z with generated := z.generated + 1, lastToken := tok0, gstate := g.1 }
        (if final = 0 then y else y.closeEntry e final, true)

/-- A PAUSE asked for during the step takes effect at the boundary (R278, R290). -/
def Entry.pauseNow (x : Entry) : Entry :=
  match x.state, x.wish with
  | .active, .pause _ => { x with state := .pausing }
  | _, _ => x

/-- The entries of closing sessions end CANCELLED at a boundary, those in a copy when it completes, and a session without entries goes
(R357); a QUEUED entry past its deadline ends DEADLINE_MISSED, which stands higher in Table 10.3 (R279). -/
def State.closeSessions (s : State) (n : Nat) : State :=
  let mine : Entry → Bool := fun x => match s.sessions.find x.session with
    | some q => q.job == n && q.closing
    | none => false
  let now := (s.entriesWhere mine).filter fun e => (s.entry e).state != .pausing && (s.entry e).state != .resuming
  let t := now.foldl (fun u e => u.endEntry e (if (s.entry e).state == .queued && s.pastDeadline (s.entry e) then finMissed else finCancelled) false) s
  let u := (t.entriesWhere mine).foldl (fun w e => w.modEntry e fun x => { x with wish := .cancel }) t
  { u with sessions := u.sessions.keep fun k q => !(q.job == n && q.closing) || !(u.entriesWhere fun x => x.session == k).isEmpty }

/-- APPEND notices: one for each session that got records at the boundary (R280, Table 12.9). -/
def State.appendNotices (s : State) (hh step : Nat) (sessions : List Nat) : State :=
  sessions.eraseDups.foldl (fun t q => t.notifyHousehold hh 0xf002 (BitVec.ofNat 64 (q + (step % 2 ^ 32) * 2 ^ 16))) s

/-- The step record of a boundary (Table 10.5); the ring holds 1,024. -/
def State.addRecord (s : State) (n : Nat) (j : Job) (held : Bool) (late : Nat) : State :=
  let v := j.serving
  let c := s.millSums j
  let r : StepRecord :=
    { step := v.step, rows := v.rows.length, requests := v.batch.length, replay := v.replay, held := held, late := late
      widened := c.1 - v.widenBase, clipped := c.2 - v.clipBase, duration := BitVec.ofNat 32 (min (s.clock - v.started).toNat (2 ^ 32 - 1)) }
  s.modJob n fun k => { k with serving := { k.serving with records := (if 1024 ≤ k.serving.records.length then k.serving.records.drop 1
    else k.serving.records) ++ [r] } }

/-- Whether every row that is to be sampled has been taken by every Sieve and, but in a poisoned step, sampled. -/
def State.stepDone (s : State) (j : Job) : Bool :=
  let v := j.serving
  let k := v.sampled.length
  (s.sieveDies j).all (fun d => v.takenBy d == k) && (v.poisoned || v.verdicts.length == k)

/-- The boundary of a step that was not poisoned (R280, R284, R287). -/
def State.goodBoundary (s : State) (n : Nat) (j : Job) : State :=
  let one : State × List Nat × Nat → Nat → State × List Nat × Nat := fun a e =>
    let r := a.1.entryBoundary j e
    let x := r.1.entry e
    (r.1.modEntry e Entry.pauseNow, if r.2 then a.2.1 ++ [x.session] else a.2.1, if x.state = .free ∧ x.final = finLate then a.2.2 + 1 else a.2.2)
  let a := j.serving.batch.foldl one (s, [], 0)
  let b := (a.1.addRecord n j false a.2.2).closeSessions n
  let c := b.modJob n fun k => { k with serving := { k.serving with step := k.serving.step + 1, active := false } }
  let d := c.selectBatch n
  d.1.appendNotices j.household j.serving.step (a.2.1 ++ d.2)

/-- The boundary of a poisoned step: nothing is appended, its requests are HELD, and the job starts no further step; each poisoned block of an
admitted tensor that the step read asks for its data, where it has not done so and is still poisoned (R300, R396). The entries of closing sessions
end (R357). -/
def State.poisonedBoundary (s : State) (n : Nat) (j : Job) : State :=
  let a := (j.serving.badBlocks.filter fun b => s.blkPoison.contains b).foldl (fun u b => u.askReload (2048 * b)) s
  let t := j.serving.batch.foldl (fun u e => u.modEntry e fun x => { x with state := .held }) a
  (((t.addRecord n j true 0).modJob n fun k => { k with serving := { k.serving with active := false, held := true } }).logEvent
    { cls := 11, severity := 0, die := 0, household := j.household, job := n, event := 1 }).closeSessions n

/-- STEP_BOUNDARY: the step's rows are done, or no step runs, and the next batch is selected (R36, R280 to R287, R300). -/
def execStepBoundary (n : Nat) (s : State) : Res :=
  match s.jobs.find n with
  | none => .next s
  | some j =>
    if j.state ≠ .running ∨ j.image.serving = false ∨ j.serving.held = true ∨ j.serving.blockLost = true then .next s
    else if j.serving.active then
      (if s.stepDone j then .next (if j.serving.poisoned then s.poisonedBoundary n j else s.goodBoundary n j) else .next s)
    else
      let d := (s.closeSessions n).selectBatch n
      .next (d.1.appendNotices j.household j.serving.step d.2)

/-! ## Held steps (R301, R395, R396) -/

/-- The blocks that the held step read and that are still poisoned, with whether each is of an admitted tensor. -/
def State.badLeft (s : State) (v : Serving) : List (Nat × Bool) :=
  (v.badBlocks.filter fun b => s.blkPoison.contains b).map fun b => (b, match s.tensorAt (2048 * b) with
    | some (_, x, _, _) => x.admitted
    | none => false)

/-- Household addresses at which a household maps a die-local package address. -/
def State.mappedAt (s : State) (hh a : Nat) : List Nat :=
  let q := s.interleaved a
  (s.ptesOf hh).filterMap fun c =>
    if ptePage c.2 = a / pageBytes then some (c.1 * pageBytes + a % pageBytes)
    else if ptePage c.2 = viewBase / pageBytes + q.1 then some (c.1 * pageBytes + q.2)
    else none

/-- The sessions and pool pages of a job that hold a die-local package address. -/
def State.poolPages (s : State) (n hh a : Nat) : List (Nat × Nat) :=
  (s.sessionsOf n).flatMap fun k => match s.sessions.find k with
    | some q => ((s.mappedAt hh a).filterMap q.pageAt).map fun p => (k, p)
    | none => []

/-- A job stops on a fault: its entries end KILLED, a CONTAINED record names it and the cause, and it waits for its scrub (R393). -/
def State.faultJob (s : State) (n : Nat) (die place detail : Nat) : State :=
  match s.jobs.find n with
  | none => s
  | some j =>
    ((s.killEntries n).stopJob n .fault).logEvent
      { cls := 10, severity := 2, die := die, place := place, household := j.household, job := n, event := 1, detail := detail }

/-- A recovery raises the effective mode of a NORMAL job to ORDERED: the mode word is rewritten and the status notes it (R258, R259). Where the
mode word cannot be written the mode that compiled code reads stays, and nothing is raised (log entry 27). The Hands of the job get the event of
the head Reeve (Table 5.8, log entry 125). -/
def State.raiseMode (s : State) (n : Nat) : State :=
  match s.jobs.find n with
  | none => s
  | some j =>
    if 1 ≤ j.mode.toNat then s
    else
      match s.writeFor j.household j.argBlock.toNat (toBytes 4 1) with
      | some t => j.slots.foldl (fun u m => (List.range 4).foldl (fun v i => v.raiseEvent ⟨m.die, m.slot, i⟩ .reeve) u)
        (t.modJob n fun k => { k with mode := 1, raised := true })
      | none => s

/-- The held step is issued again: the same number, the same rows in order, without the requests that are no longer HELD (R301). -/
def State.replayStep (s : State) (n : Nat) (j : Job) : State :=
  let keep : Nat → Bool := fun e => (s.entry e).state == .held && j.serving.batch.contains e
  let rows := j.serving.rows.filter fun r => keep r.entry
  let reqs := j.serving.batch.filter keep
  let u := State.raiseMode (s.modJob n fun k => { k with serving := { k.serving with held := false } }) n
  if reqs.isEmpty then
    u.modJob n fun k => { k with serving := { k.serving with rows := [], batch := [], poisoned := false, badBlocks := [], step := k.serving.step + 1 } }
  else u.startStep n ((u.jobs.find n).getD j) rows reqs true

/-- The recovery from a poisoned block of the household's own data: one in the KV pool of a session of the job ends the HELD requests that hold
its page and is zeroed whole; none where it lies elsewhere, which faults the job (R395). -/
def State.recoverBlock (s : State) (n : Nat) (j : Job) (b : Nat) : Option State :=
  let pages := s.poolPages n j.household (2048 * b)
  if pages.isEmpty then none
  else
    let hit : Entry → Bool := fun x => x.state == .held && pages.any fun p => p.1 == x.session && x.pages.contains p.2
    let t := (s.entriesWhere hit).foldl (fun u e => u.endEntry e finKilled false) s
    some { t with mem := t.mem.zero (2048 * b) 2048, blkPoison := t.blkPoison.erase b }

/-- STEP_REPLAY: once every block of an admitted tensor that the held step read has been restored (R396), the step is replayed. A poisoned block
of the household's own data, one that the step read or one that the head Reeve has traced the poison to, is recovered first or faults the
job (R301, R395). -/
def execStepReplay (n : Nat) (trace : Option Nat) (s : State) : Res :=
  match s.jobs.find n with
  | none => .next s
  | some j =>
    let left := s.badLeft j.serving
    if j.state ≠ .running ∨ j.serving.held = false ∨ (left.any fun b => b.2) = true then .next s
    else
      let traced := (trace.toList.map fun a => a / 2048).filter fun b =>
        s.blkPoison.contains b && !(s.mappedAt j.household (2048 * b)).isEmpty && (s.tensorAt (2048 * b)).isNone
      let own := traced.foldl setInsert (left.map Prod.fst)
      match own.find? fun b => (s.poolPages n j.household (2048 * b)).isEmpty with
      | some b => .next (s.faultJob n (2048 * b / 0xc000000000) 0 6)
      | none =>
        let u := own.foldl (fun t b => (t.recoverBlock n j b).getD t) s
        .next (u.replayStep n ((u.jobs.find n).getD j))

/-- The restoration of a block of a tensor is recorded, and its request for data is closed (R396). -/
def State.blockRestored (s : State) (t off a : Nat) : State :=
  { s with reload := s.reload.erase (t, off / 2048) }.logEvent
    { cls := 2, severity := 0, die := a / 0xc000000000, place := (lpddrCtl a).ctl, event := 7, addr := a, detail := t }

/-- A block of a tensor written whole, which clears its poison (R209). -/
def State.putBlock (s : State) (a : Nat) (d : List Byte) : State :=
  { s with mem := s.mem.writeBytes a d, blkPoison := s.blkPoison.erase (a / 2048) }

/-- MIRROR_RESTORE: a poisoned block of a mirrored tensor, or of its mirror, is copied from the other copy, unless that is poisoned too
(R301, R396). -/
def execMirrorRestore (t b : Nat) (s : State) : Res :=
  match s.tensors.find t with
  | none => .next s
  | some x =>
    let off := 2048 * b
    let p := s.tensorAddr x false off
    let q := s.tensorAddr x true off
    if x.admitted = false ∨ x.mirror = false ∨ x.bytes ≤ off then .next s
    else if s.blkPoison.contains (p / 2048) = true ∧ s.blkPoison.contains (q / 2048) = false then
      .next ((s.putBlock p (s.mem.readBytes q 2048)).blockRestored t off p)
    else if s.blkPoison.contains (q / 2048) = true ∧ s.blkPoison.contains (p / 2048) = false then
      .next ((s.putBlock q (s.mem.readBytes p 2048)).blockRestored t off q)
    else .next s

/-! ## The Cellar (R290) -/

/-- The pages that hold an entry's committed positions. -/
def Entry.usedPages (x : Entry) : Nat := ceilDiv x.length 128

/-- Bytes of a page of household data as they are copied: ciphertext under its key slot for a protected page, with the tweak taken from the
Cellar offset (R290). -/
def State.cellarBytes (s : State) (hh ha off : Nat) (decrypt : Bool) (d : List Byte) : List Byte :=
  match (if ha / pageBytes < (s.household hh).ptLen then s.cryptFor hh (s.pte hh (ha / pageBytes)) else .plain) with
  | .key k => ((chunks 512 d).zipIdx.map fun (b, i) => aesXts decrypt k (off / 512 + i) b).flatten
  | _ => d

/-- Page `i` of an entry goes to the Cellar: its CRC-32C and the state; none where it cannot be read whole and without poison, or the host
refuses the write. -/
def State.pageOut (s : State) (x : Entry) (q : Session) (i : Nat) : Option (Word32 × State) :=
  let ha := q.kvBase.toNat + (x.pages.getD i 0) * q.pageBytes
  let off := x.cellarOff.toNat + i * q.pageBytes
  match s.readMem { household := x.household, job := none } (s.ownEa ha) q.pageBytes with
  | some ((b, false), t) =>
    let d := s.cellarBytes x.household ha off false b
    (t.hostWrite (q.cellarBase.toNat + off) d).map fun u => (BitVec.ofNat 32 (crc32c d), u)
  | _ => none

/-- Page `i` of an entry comes back from the Cellar, checked against its CRC. -/
def State.pageIn (s : State) (x : Entry) (q : Session) (i : Nat) : Option State :=
  let ha := q.kvBase.toNat + (x.pages.getD i 0) * q.pageBytes
  let off := x.cellarOff.toNat + i * q.pageBytes
  match s.hostRead (q.cellarBase.toNat + off) q.pageBytes with
  | some d =>
    if BitVec.ofNat 32 (crc32c d) = x.crcs.getD i 0 then
      s.writeMem { household := x.household, job := none } (s.ownEa ha) (s.cellarBytes x.household ha off true d) false
    else none
  | none => none

/-- A failed copy ends the request CELLAR_FAILED and is recorded (R278, R290). -/
def State.cellarFails (s : State) (e : Nat) : State :=
  let x := s.entry e
  (s.endEntry e finCellar false).logEvent
    { cls := 11, severity := 0, die := 0, household := x.household, job := ((s.entryJob x).map Prod.fst).getD 0, event := 2 }

/-- Whether a step of a job runs, so that a boundary is to come. -/
def State.stepRuns (s : State) (n : Nat) : Bool := ((s.jobs.find n).map fun j => decide (j.state = .running) && j.serving.active).getD false

/-- A copy has ended: a CANCEL that arrived meanwhile takes effect (R278), and a closing session goes where no boundary is to come (R36, R357). -/
def State.copyEnded (s : State) (e : Nat) : State :=
  let x := s.entry e
  let t := if x.wish = .cancel ∧ x.state ≠ .free then s.endEntry e finCancelled false else s
  match s.entryJob x with
  | some (n, _) => if ((s.sessions.find x.session).map (·.closing)).getD false && !t.stepRuns n then t.closeSessions n else t
  | none => t

/-- Time to live of a PAUSE in AOCLK ticks. -/
def ttlTicks (ms : Nat) : Nat := 25000 * ms

/-- CELLAR_COPY_OUT: the committed pages are in the Cellar, all pages return to the pool, and the entry is PAUSED until EXPIRY; a copy that
fails ends it (R290). -/
def execCellarCopyOut (e : Nat) (ok : Bool) (s : State) : Res :=
  let x := s.entry e
  match s.sessions.find x.session with
  | none => .next s
  | some q =>
    if x.state ≠ .pausing then .next s
    else
      let one : Option (List Word32 × State) → Nat → Option (List Word32 × State) := fun a i =>
        a.bind fun p => (p.2.pageOut x q i).map fun r => (p.1 ++ [r.1], r.2)
      match (List.range x.usedPages).foldl one (if ok then some ([], s) else none) with
      | none => .next ((s.cellarFails e).copyEnded e)
      | some (crcs, t) =>
        let ttl := match x.wish with
          | .pause ms => ms
          | _ => 0
        .next ((t.modEntry e fun y =>
          { y with state := .paused, pages := [], crcs := crcs, expiry := s.clock + BitVec.ofNat 64 (ttlTicks ttl)
                   wish := if x.wish = .cancel then .cancel else .none }).copyEnded e)

/-- CELLAR_COPY_IN: the pages are back and checked, and the entry is QUEUED, unless its deadline has passed; a copy that fails ends it (R286,
R290). -/
def execCellarCopyIn (e : Nat) (ok : Bool) (s : State) : Res :=
  let x := s.entry e
  match s.sessions.find x.session with
  | none => .next s
  | some q =>
    if x.state ≠ .resuming then .next s
    else
      match (List.range x.usedPages).foldl (fun a i => a.bind fun t => t.pageIn x q i) (if ok then some s else none) with
      | none => .next ((s.cellarFails e).copyEnded e)
      | some t =>
        let u := t.modEntry e fun y => { y with state := .queued, crcs := [], cellarOff := 0 }
        if t.pastDeadline x then .next ((u.endEntry e finMissed false).copyEnded e) else .next (u.copyEnded e)

/-- EXPIRY: a PAUSED entry whose EXPIRY is reached ends EXPIRED (R290). -/
def execExpiry (e : Nat) (s : State) : Res :=
  let x := s.entry e
  if x.state = .paused ∧ x.expiry.toNat ≤ s.clock.toNat then .next ((s.endEntry e finExpired false).copyEnded e) else .next s

end Sys2Proof.Machine
end

