-- ==== Sys2Proof/Machine/Commands.lean ====
section
/-! DEFINITION. The commands of Table 12.10 and the weights of Table 12.11: identity, Logbook, households, keys, memory, Press slots,
admission (R335, R345, R350 to R354, R401). -/

namespace Sys2Proof.Machine

/-! ## Identity (R260, R337) -/

/-- Codes of the part (R4, R6, R260). -/
def Part.dieCode (p : Part) : Nat :=
  match p.dies with
  | .two => 2
  | .four => 4
  | .eight => 8
def Part.gradeCode (p : Part) : Nat :=
  match p.grade with
  | .g15 => 0x0f
  | .g13 => 0x0d
def Part.steppingCode (p : Part) : Nat :=
  match p.stepping with
  | .a0 => 0x00
  | .b0 => 0x10

/-- The bit-identity key with a slice shape class (Table 9.2). -/
def State.keyWord (s : State) (shape : Nat) : Word64 :=
  BitVec.ofNat 64 (s.part.steppingCode + s.part.gradeCode * 2 ^ 8 + 2 ^ 16 + s.ident.math.toNat * 2 ^ 24 + s.part.dieCode * 2 ^ 32 +
    shape % 2 ^ 8 * 2 ^ 36)

/-- IDENT_STATE codes (Table 12.4). -/
def IdentState.code : IdentState → Nat
  | .boot => 0
  | .ready => 1
  | .failed => 2
  | .undefined => 3
def PackagePower.code : PackagePower → Nat
  | .run => 0
  | .doze => 1
  | .deep => 2

/-- A register of the identity block as it reads (Table 12.4). -/
def State.identReg (s : State) (off : Nat) : Nat :=
  match off with
  | 0x00 => Config.vendorId.toNat + (0x0880 + s.part.dieCode) * 2 ^ 16 + s.part.steppingCode * 2 ^ 32 + 3 * 2 ^ 40
  | 0x08 => (s.keyWord 0).toNat
  | 0x10 => s.ident.fwVersion.toNat + s.ident.fwBuild.toNat * 2 ^ 32
  | 0x18 => s.ident.state.code + s.ident.power.code * 8 + s.ident.heartbeat.toNat * 2 ^ 32
  | 0x20 => s.clock.toNat
  | 0x28 => s.ident.bar2Faults.toNat
  | _ => 0

/-- Logical hamlets of a die that no slot can serve: their slot is retired and the spare of their half is retired or already needed (R16,
R31). Where the slots of several hamlets of a half are retired and its spare is good, the lowest-numbered of them is covered, which the spec
leaves open (log entry 113). -/
def State.unavailable (s : State) (d lg : Nat) : Bool :=
  let out (k : Nat) : Bool := (s.hamlet ⟨d, k⟩).retired
  out lg && (out (16 + lg / 8) || (List.range (lg % 8)).any fun i => out (8 * (lg / 8) + i))

/-- What the identity record names: key, firmware, sites, available hamlets, retired granules and link roles (R31, R188, R205, R350). -/
def State.identityFields (s : State) : List Nat :=
  [s.identReg 0x00, s.identReg 0x08, s.identReg 0x10, s.dieCount, dataPages s.part.density] ++
    ((List.range s.dieCount).flatMap fun d =>
      flag (s.die d).noLpddr :: ((List.range 6).map fun c => (s.ctl ⟨d, c⟩).rate.toNat + 4 * flag (s.ctl ⟨d, c⟩).density) ++
        ((List.range 16).map fun lg => flag (!s.unavailable d lg)) ++ (List.range 4).map fun p => (s.parish ⟨d, p⟩).retired.toNat) ++
    (List.range (3 * s.dieCount)).map fun l => (s.landing l).role.toNat

/-- A record whose layout the manual leaves open (log entry 12): kind 0 IDENTIFY, 1 the fuses, 2 SETTINGS_READ. -/
def openBytes (kind n : Nat) (fields : List Nat) : List Byte := (List.range n).map fun i => Config.openRecord kind fields i

/-- IDENTIFY (R350). -/
def execIdentify (k : Nat) (s : State) : Res := s.command k 0x0001 fun c => answer s (c.arg 0) (openBytes 0 4096 s.identityFields) 4096

/-- ECHO, the firmware echo (R350, R406). -/
def execEcho (k : Nat) (s : State) : Res := s.command k 0x0002 fun c => done s (c.arg 0)

/-! ## The Logbook (R398, R401) -/

/-- The 32 bytes of a record (Table 14.2). -/
def LogRecord.bytes (r : LogRecord) : List Byte :=
  toBytes 8 (r.index.toNat + r.cls.toNat * 2 ^ 32 + r.severity.toNat * 2 ^ 36 + r.die.toNat * 2 ^ 39 + r.place.toNat * 2 ^ 42 +
      r.household.toNat * 2 ^ 47) ++
    toBytes 8 (r.job.toNat + r.event.toNat * 2 ^ 16 + r.addr.toNat * 2 ^ 32) ++
    toBytes 8 (r.addr.toNat / 2 ^ 32 + r.detail.toNat * 2 ^ 32) ++ toBytes 8 r.time.toNat

/-- A record put into a list in ascending INDEX. -/
def orderIn : List LogRecord → LogRecord → List LogRecord
  | [], r => [r]
  | x :: t, r => if r.index.toNat < x.index.toNat then r :: x :: t else x :: orderIn t r

/-- The held records in ascending INDEX. -/
def State.heldRecords (s : State) : List LogRecord := (s.logRing.cells.map Prod.snd).foldl orderIn []

/-- LOGBOOK_READ (R401). -/
def execLogbookRead (k : Nat) (s : State) : Res :=
  s.command k 0x0003 fun c =>
    let l := (s.heldRecords.filter fun r => decide (c.arg 1 ≤ r.index.toNat)).take (c.arg 2)
    if l.isEmpty then done s 0 else answer s (c.arg 0) (l.flatMap LogRecord.bytes) l.length

/-- The sticky bits and first-error records of a block set again from some records, the oldest first (R401). -/
def LogBlock.reset (b : LogBlock) (l : List LogRecord) : LogBlock := l.foldl LogBlock.note { b with any := 0, severe := 0, first := {} }

/-- LOGBOOK_CLEAR (R401). -/
def execLogbookClear (k : Nat) (s : State) : Res :=
  s.command k 0x0004 fun c =>
    let t := { s with logRing := s.logRing.keep fun _ r => decide (c.arg 0 < r.index.toNat) }
    let l := t.heldRecords
    let n := s.logRing.cells.length - t.logRing.cells.length
    done { t with dies := t.dies.mapV fun d x => { x with log := x.log.reset (l.filter fun r => d == 0 || r.die.toNat == d) } } n

/-- A record of LOG_FIRST or LOG_RING as doublewords. -/
def recordWord (r : Option LogRecord) (i : Nat) : Nat := (r.map fun x => recNat x.bytes (8 * i) 8).getD 0

/-- A doubleword of a die's Logbook block (Table 14.4). -/
def State.logReg (s : State) (d off : Nat) : Nat :=
  let b := (s.die d).log
  if off = 0 then s.logNext.toNat + (if d = 0 then s.logRing.cells.length * 2 ^ 32 else 0)
  else if off = 8 then b.any.toNat + b.severe.toNat * 2 ^ 16
  else if off = 16 then b.lost.toNat + b.suppressed.toNat * 2 ^ 16
  else if 0x100 ≤ off ∧ off < 0x300 then recordWord (b.first.find ((off - 0x100) / 32)) (off % 32 / 8)
  else if 0x1000 ≤ off ∧ off < 0x10000 ∧ d = 0 then recordWord (s.logRing.find ((off - 0x1000) / 32)) (off % 32 / 8)
  else 0

/-- NOTICE_ROUTE (R345). Here and below an argument with a bit that its layout
does not name is refused with ARG (R348, log entry 30). -/
def execNoticeRoute (k : Nat) (s : State) : Res :=
  s.command k 0x0005 fun c => s.forHousehold k c fun hh =>
    let pb := c.arg 1
    if 16 ≤ pb then refuse s stArg
    else done (s.modHousehold hh fun x => { x with noticePb := some pb }) 0

/-! ## Households (R351) -/

/-- Data pages of the package: the sum of DIE_TOP / 2 MiB. -/
def State.allPages (s : State) : Nat := ((List.range s.dieCount).map s.topPages).foldl (· + ·) 0

/-- 32 MiB, the place of a page table in a reserved region (log entry 102). -/
def tableBytes : Nat := 0x2000000

/-- An empty page table in the reserved region of every die; its blocks are written whole, which clears their poison (R198, R209, R351). -/
def State.emptyTable (s : State) (hh : Nat) : State :=
  (List.range s.dieCount).foldl (fun t d =>
    let a := t.pteAddr d hh 0
    { t with mem := t.mem.zero a tableBytes, blkPoison := setErase t.blkPoison (a / 2048) (tableBytes / 2048) }) s

/-- HH_OPEN (R351). PT_BASE gives each household its own place (R198, log entry 102). -/
def execHhOpen (k : Nat) (s : State) : Res :=
  s.command k 0x0101 fun c =>
    let hh := c.arg 0 % 64
    let vf := c.arg 0 / 256 % 16
    if c.arg 0 ≠ hh + 256 * vf ∨ hh = 0 ∨ c.arg 1 = 0 ∨ s.allPages < c.arg 1 then refuse s stArg
    else if s.isOpen hh = true ∨ (vf ≠ 0 ∧ s.vfHousehold vf ≠ 0) then refuse s stState
    else
      let x : Household := { isOpen := true, vf := vf, ptBase := tableBytes * hh, ptLen := c.arg 1, entryQuota := c.arg 2, tokenQuota := c.arg 3 }
      done (State.emptyTable { s with households := s.households.set hh x } hh) 0

/-- Entries of a household leave every translation cache (R200). -/
def State.forget (s : State) (hh lo n : Nat) : State :=
  { s with dies := s.dies.mapV fun _ x => { x with tcache := x.tcache.filter fun e => !(e.1 == hh && decide (lo ≤ e.2) && decide (e.2 < lo + n)) } }

/-- Entries written for consecutive pages, after which no die holds an older one (R200). -/
def State.mapPages (s : State) (hh first : Nat) (l : List Word64) : State := (s.putPtes hh first l).forget hh first l.length

/-- The entries of some pages cleared (R352). -/
def State.unmapPages (s : State) (hh : Nat) (l : List Nat) : State := l.foldl (fun t i => t.mapPages hh i [0]) s

/-- What a household keeps to itself is lost with it: its pages, its keys and its VF (R351). -/
def State.forgetHousehold (s : State) (hh : Nat) : State :=
  let t := (s.forget hh 0 (s.household hh).ptLen).unmapPages hh ((s.ptesOf hh).map Prod.fst)
  { t with
    households := t.households.del hh
    tensors := t.tensors.mapV fun _ x => { x with maps := x.maps.filter fun m => m.1 != hh }
    keySlots := t.keySlots.keep fun _ x => x.owner != hh
    bar2Household := if t.bar2Household = hh then 0 else t.bar2Household }

/-- The Press slots of a household are released, and writes on their way to them come to nothing (R230, R351). -/
def State.freePressSlots (s : State) (hh : Nat) : State :=
  let t := s.dropWrites fun w => w.owner == hh
  { t with pressSlots := t.pressSlots.keep fun _ x => x.owner != hh }

/-- Steps 4 to 6 of HH_CLOSE: pages, keys, Press slots and the VF are released (R351). -/
def State.dropHousehold (s : State) (hh : Nat) : State := (s.forgetHousehold hh).freePressSlots hh

/-- The jobs of a household that hold resources. -/
def State.jobsOfHousehold (s : State) (hh : Nat) : List Nat :=
  (s.jobs.cells.filter fun c => c.2.household == hh && (c.2.live || c.2.isEnding)).map Prod.fst

/-- A job is killed and scrubbed in one go. -/
def State.killNow (s : State) (n : Nat) : State :=
  let t := if ((s.jobs.find n).map Job.live).getD false then s.stopJob n .killed else s
  (t.scrubJob n).settleJob n

/-- HH_CLOSE in the order of R351: entries, jobs, sessions with adapters and grammars, pages, keys and Press slots, the VF. -/
def State.closeHousehold (s : State) (hh : Nat) : State :=
  let a := (s.entriesWhere fun x => x.household == hh).foldl (fun t e => t.endEntry e finKilled false) s
  let b := (a.jobsOfHousehold hh).foldl State.killNow a
  let c := { b with
    sessions := b.sessions.keep fun _ x => x.household != hh
    adapters := b.adapters.keep fun _ x => x.household != hh
    grammars := b.grammars.keep fun _ x => x.household != hh }
  c.dropHousehold hh

/-- HH_CLOSE (R351). -/
def execHhClose (k : Nat) (s : State) : Res :=
  s.command k 0x0102 fun c =>
    let hh := c.arg 0 % 64
    if s.isOpen hh then done (s.closeHousehold hh) 0 else refuse s stNotFound

/-- HH_QUOTA (R298). -/
def execHhQuota (k : Nat) (s : State) : Res :=
  s.command k 0x0103 fun c =>
    let hh := c.arg 0 % 64
    if s.isOpen hh then done (s.modHousehold hh fun x => { x with entryQuota := c.arg 1, tokenQuota := c.arg 2 }) 0 else refuse s stNotFound

/-- KEY_LOAD: STATE where another household owns the slot (R352). -/
def execKeyLoad (k : Nat) (s : State) : Res :=
  s.command k 0x0104 fun c => s.forHousehold k c fun hh =>
    let slot := c.arg 1
    if 64 ≤ slot then refuse s stArg
    else
      match s.hostRead (c.arg 2) 64 with
      | none => refuse s stIo
      | some key =>
        if ((s.keySlots.find slot).map fun x => x.owner != hh).getD false then refuse s stState
        else done { s with keySlots := s.keySlots.set slot ⟨hh, key⟩ } 0

/-- KEY_ERASE: NOT_FOUND for a slot that the household does not own (R352). -/
def execKeyErase (k : Nat) (s : State) : Res :=
  s.command k 0x0105 fun c => s.forHousehold k c fun hh =>
    let slot := c.arg 1
    if 64 ≤ slot then refuse s stArg
    else if ((s.keySlots.find slot).map fun x => x.owner == hh).getD false then done { s with keySlots := s.keySlots.del slot } 0
    else refuse s stNotFound

/-! ## Pages (R352) -/

/-- Pages of the interleaved view; none when a die has no LPDDR (R205). -/
def State.viewPages (s : State) : Nat := if s.allLpddr then s.dieCount * s.topPages 0 else 0

/-- PAGE value of a page of the interleaved view and of a die. -/
def viewPage (q : Nat) : Nat := viewBase / pageBytes + q
def diePage (d p : Nat) : Nat := lpddrBase d / pageBytes + p

/-- PAGE values in use: mapped, or of a tensor (R352, R353). -/
def State.pagesInUse (s : State) : List Nat :=
  (s.households.cells.flatMap fun h => (s.ptesOf h.1).map fun c => ptePage c.2) ++
    s.tensors.cells.flatMap fun t => (t.2.pages ++ t.2.mirrorPages).map viewPage

/-- Whether a page of the interleaved view is free, in it and in the die-local view. -/
def State.viewFree (s : State) (used : List Nat) (q : Nat) : Bool :=
  !used.contains (viewPage q) && (List.range s.dieCount).all fun d => !used.contains (diePage d (q / s.dieCount))

/-- Whether a page of a die is free in both views. -/
def State.dieFree (s : State) (used : List Nat) (d p : Nat) : Bool :=
  !used.contains (diePage d p) && (List.range s.dieCount).all fun i => !used.contains (viewPage (s.dieCount * p + i))

/-- The first `n` free pages from a hint on, round the `total` (a choice of the firmware, log entry 14); the fuel is the pages looked at. -/
def scanFree (free : Nat → Bool) (total : Nat) : Nat → Nat → Nat → Option (List Nat)
  | _, _, 0 => some []
  | 0, _, _ + 1 => none
  | f + 1, p, n + 1 =>
    if free (p % total) then (scanFree free total f (p + 1) n).map (p % total :: ·) else scanFree free total f (p + 1) (n + 1)

/-- Free pages of the interleaved view. -/
def State.allocView (s : State) (used : List Nat) (n hint : Nat) : Option (List Nat) :=
  scanFree (s.viewFree used) s.viewPages (min s.viewPages (n + s.dieCount * used.length)) hint n

/-- Free pages of a die. -/
def State.allocDie (s : State) (used : List Nat) (d n hint : Nat) : Option (List Nat) :=
  scanFree (s.dieFree used d) (s.topPages d) (min (s.topPages d) (n + used.length)) hint n

/-- The 64 KiB runs of a page of either view: die-local package addresses. -/
def State.pageRuns (s : State) (view : Bool) (d p : Nat) : List Nat :=
  (List.range 32).map fun i => if view then s.pageAddr p (0x10000 * i) else lpddrBase d + p * pageBytes + 0x10000 * i

/-- A run of 64 KiB written with zeros as a page that is kept so, which clears its poison (R352). -/
def State.zeroRun (c : Crypt) (s : State) (a : Nat) : State :=
  match c with
  | .plain => { s with mem := s.mem.zero a 0x10000, blkPoison := setErase s.blkPoison (a / 2048) 32 }
  | _ => s.store a (List.replicate 0x10000 0) c false

/-- A page table entry (Table 7.5). -/
def pteWord (w prot : Bool) (key page : Nat) : Word64 :=
  BitVec.ofNat 64 (1 + flag w * 2 + flag prot * 4 + (if prot then key % 64 else 0) * 8 + page * 2 ^ 21)

/-- Whether some pages of a household lie below PT_LEN and are not mapped. -/
def State.unmapped (s : State) (hh first n : Nat) : Bool :=
  decide (first + n ≤ (s.household hh).ptLen) &&
    (s.ptesOf hh).all fun c => !(decide (first ≤ c.1) && decide (c.1 < first + n))

/-- MEM_MAP: free pages are zero-filled and mapped (R352). -/
def execMemMap (k hint : Nat) (s : State) : Res :=
  s.command k 0x0106 fun c => s.forHousehold k c fun hh =>
    let f := c.arg 3
    let prot := bitAt f 1
    let key := bitsOf f 2 6
    let local_ := bitAt f 8
    let d := bitsOf f 9 3
    if 2 ^ 12 ≤ f ∨ s.unmapped hh (c.arg 1) (c.arg 2) = false ∨ (local_ = true ∧ s.dieCount ≤ d) ∨
        (prot = true ∧ ((s.keySlots.find key).map fun x => x.owner == hh).getD false = false) then refuse s stArg
    else
      match (if local_ then s.allocDie s.pagesInUse d (c.arg 2) hint else s.allocView s.pagesInUse (c.arg 2) hint) with
      | none => refuse s stNoMemory
      | some ps =>
        let es := ps.map fun p => pteWord (bitAt f 0) prot key (if local_ then diePage d p else viewPage p)
        let crypt := s.cryptFor hh (pteWord (bitAt f 0) prot key 0)
        let t := (ps.flatMap fun p => s.pageRuns (!local_) d p).foldl (State.zeroRun crypt) s
        done (t.mapPages hh (c.arg 1) es) (c.arg 2)

/-- MEM_UNMAP: pages that the household mapped return to the free pool; pages of a tensor leave by WEIGHT_UNMAP only (R352, R353). -/
def execMemUnmap (k : Nat) (s : State) : Res :=
  s.command k 0x0107 fun c => s.forHousehold k c fun hh =>
    let first := c.arg 1
    let n := c.arg 2
    let weights := s.tensors.cells.flatMap fun t => (t.2.pages ++ t.2.mirrorPages).map viewPage
    let goes := ((s.ptesOf hh).filter fun e => decide (first ≤ e.1) && decide (e.1 < first + n) && !weights.contains (ptePage e.2)).map Prod.fst
    if (s.household hh).ptLen < first + n then refuse s stArg else done (s.unmapPages hh goes) goes.length

/-- BAR2_SET (R335); a BASE that is no household address is refused (log entry 98). -/
def execBar2Set (k : Nat) (s : State) : Res :=
  s.command k 0x0108 fun c =>
    if 64 ≤ c.arg 0 ∨ c.arg 1 % pageBytes ≠ 0 ∨ 2 ^ 48 ≤ c.arg 1 then refuse s stArg
    else if c.arg 0 ≠ 0 ∧ s.isOpen (c.arg 0) = false then refuse s stNotFound
    else done { s with bar2Household := c.arg 0, bar2Base := c.arg 1 } 0

/-- PRESS_SLOT claim (R230). -/
def State.claimSlot (s : State) (hh slot hint : Nat) : Reply :=
  let owner (i : Nat) : Nat := (s.pressSlots.get {} i).owner
  match (if slot = 0 then pickFree (fun i => owner i == 0) 1 15 hint else some slot) with
  | none => refuse s stNoSlot
  | some i =>
    if owner i = 0 then done { s with pressSlots := s.pressSlots.set i { owner := hh } } i
    else refuse s (if owner i = hh then stState else stNoSlot)

/-- PRESS_SLOT: claim, release (which empties the slot) and load (R227, R230, R231). -/
def execPressSlot (k hint : Nat) (s : State) : Res :=
  s.command k 0x0109 fun c => s.forHousehold k c fun hh =>
    let op := c.arg 1
    let slot := c.arg 2
    if 2 < op ∨ 15 < slot ∨ (op ≠ 0 ∧ slot = 0) then refuse s stArg
    else if op = 0 then s.claimSlot hh slot hint
    else if (s.pressSlots.get {} slot).owner ≠ hh then refuse s stNotFound
    else if op = 1 then done (State.dropWrites { s with pressSlots := s.pressSlots.del slot } fun w => w.slot == slot) slot
    else
      match s.hostRead (c.arg 3) 128 with
      | none => refuse s stIo
      | some image =>
        if tableValid image then
          done (State.dropWrites { s with pressSlots := s.pressSlots.set slot ⟨hh, some image⟩ } fun w => w.slot == slot) (tableTag image)
        else refuse s stArg

/-! ## Weight admission (R353, R354) -/

/-- Bytes of a chunk, and chunks of a tensor (R353). -/
def chunkBytes : Nat := 0x4000000
def Tensor.chunks (t : Tensor) : Nat := ceilDiv t.bytes chunkBytes
/-- Bytes of chunk `i`. -/
def Tensor.chunkLen (t : Tensor) (i : Nat) : Nat := min chunkBytes (t.bytes - i * chunkBytes)

/-- One mirror page for a page: free, not taken yet, and at other sites (R353): pages whose numbers differ modulo 3 lie at other
controllers, block by block (R194, R195). -/
def State.mirrorFor (s : State) (used : List Nat) (p hint : Nat) : Option Nat :=
  (scanFree (fun q => s.viewFree used q && decide (q % 3 ≠ p % 3)) s.viewPages (min s.viewPages (3 + 3 * s.dieCount * used.length)) hint 1).bind
    List.head?

/-- Mirror pages for some pages. -/
def State.allocMirror (s : State) (hint : Nat) : List Nat → List Nat → Option (List Nat)
  | _, [] => some []
  | used, p :: ps =>
    (s.mirrorFor used p hint).bind fun q => (s.allocMirror hint (viewPage q :: used) ps).map (q :: ·)

/-- A command on the admission journal, which die 0 keeps twice: it is read first, and a journal without a good copy is FATAL (R353, R392). -/
def State.withJournal (s : State) (f : State → Reply) : Reply :=
  let t := s.readArea 0 .journal
  if t.ident.state = .undefined then refuse t stResetNeeded else f t

/-- ADMIT_BEGIN (R353). -/
def execAdmitBegin (k hint : Nat) (s : State) : Res :=
  s.command k 0x0201 fun c => s.withJournal fun s =>
    let id := c.arg 0
    let bytes := c.arg 1
    let mirror := bitAt (c.arg 2) 0
    if 2 ≤ c.arg 2 ∨ id = 0 ∨ 2 ^ 32 ≤ id ∨ bytes = 0 ∨ bytes % 2048 ≠ 0 then refuse s stArg
    else if (s.tensors.find id).isSome then refuse s stState
    else if 64 ≤ (s.tensors.cells.filter fun t => !t.2.admitted).length then refuse s stBusy
    else
      let used := s.pagesInUse
      match s.allocView used (ceilDiv bytes pageBytes) hint with
      | none => refuse s stNoMemory
      | some ps =>
        match (if mirror then s.allocMirror hint (ps.map viewPage ++ used) ps else some []) with
        | none => refuse s stNoMemory
        | some ms =>
          let t : Tensor := { bytes := bytes, mirror := mirror, pages := ps, mirrorPages := ms, bits := [], admitted := false, maps := [] }
          done { s with tensors := s.tensors.set id t } t.chunks

/-- A tensor's journal record, or the status of there being none. -/
def State.forTensor (s : State) (id : Nat) (admitted : Bool) (f : Tensor → Reply) : Reply :=
  match s.tensors.find id with
  | none => refuse s stNotFound
  | some t => if t.admitted = admitted then f t else refuse s stState

/-- Bytes of a tensor written to one of its copies in runs of at most one 2 KiB block, which clears the poison of the blocks covered (R209). -/
def State.tensorWrite (s : State) (t : Tensor) (mirror : Bool) (off : Nat) (d : List Byte) : State :=
  (runsOf off d.length).foldl (fun u r =>
    (u.store (u.tensorAddr t mirror r.1) (slice d (r.1 - off) r.2) .plain false)) s

/-- Bytes of a tensor and of its mirror written. -/
def State.tensorPut (s : State) (t : Tensor) (off : Nat) (d : List Byte) : State :=
  let u := s.tensorWrite t false off d
  if t.mirror then u.tensorWrite t true off d else u

/-- ADMIT_DATA: a chunk is read, checked and written, and then its bit is set (R353, R384). -/
def execAdmitData (k : Nat) (s : State) : Res :=
  s.command k 0x0202 fun c => s.withJournal fun s => s.forTensor (c.arg 0) false fun t =>
    let i := c.arg 1
    if t.chunks ≤ i ∨ 2 ^ 32 ≤ c.arg 3 then refuse s stArg
    else
      match s.hostRead (c.arg 2) (t.chunkLen i) with
      | none => refuse s stIo
      | some d =>
        if crc32c d ≠ c.arg 3 then refuse s stDataCrc
        else
          let u := s.tensorPut t (i * chunkBytes) d
          done { u with tensors := u.tensors.set (c.arg 0) { t with bits := setInsert t.bits i } } 0

/-- ADMIT_END: STATE while any bit is clear (R353). -/
def execAdmitEnd (k : Nat) (s : State) : Res :=
  s.command k 0x0203 fun c => s.withJournal fun s => s.forTensor (c.arg 0) false fun t =>
    if t.bits.length < t.chunks then refuse s stState else done { s with tensors := s.tensors.set (c.arg 0) { t with admitted := true } } 0

/-- The bitmap of chunks, ceil (chunks / 8) bytes (R353). -/
def Tensor.bitmap (t : Tensor) : List Byte := toBytes (ceilDiv t.chunks 8) (t.bits.foldl (fun n i => n + 2 ^ i) 0)

/-- ADMIT_RESUME gives the bitmap and the first clear bit (R353). -/
def execAdmitResume (k : Nat) (s : State) : Res :=
  s.command k 0x0204 fun c => s.withJournal fun s => s.forTensor (c.arg 0) false fun t =>
    answer s (c.arg 1) t.bitmap (((List.range t.chunks).find? fun i => !t.bits.contains i).getD t.chunks)

/-- ADMIT_ABORT gives the journal record and the pages back (R353). -/
def execAdmitAbort (k : Nat) (s : State) : Res :=
  s.command k 0x0205 fun c => s.withJournal fun s => s.forTensor (c.arg 0) false fun _ => done { s with tensors := s.tensors.del (c.arg 0) } 0

/-- WEIGHT_MAP: an admitted tensor is mapped with W = 0 (R199, R353). -/
def execWeightMap (k : Nat) (s : State) : Res :=
  s.command k 0x0206 fun c =>
    let hh := c.arg 1
    if s.isOpen hh = false then refuse s stNotFound
    else s.forTensor (c.arg 0) true fun t =>
      if t.maps.any fun m => m.1 == hh then refuse s stState
      else if s.unmapped hh (c.arg 2) t.pages.length = false then refuse s stArg
      else
        let u := s.mapPages hh (c.arg 2) (t.pages.map fun p => pteWord false false 0 (viewPage p))
        done { u with tensors := u.tensors.set (c.arg 0) { t with maps := t.maps ++ [(hh, c.arg 2)] } } t.pages.length

/-- WEIGHT_UNMAP (R353). -/
def execWeightUnmap (k : Nat) (s : State) : Res :=
  s.command k 0x0207 fun c =>
    match s.tensors.find (c.arg 0) with
    | none => refuse s stNotFound
    | some t =>
      match t.maps.find? fun m => m.1 == c.arg 1 with
      | none => refuse s stNotFound
      | some m =>
        let n := t.pages.length
        let u := s.mapPages m.1 m.2 (List.replicate n 0)
        done { u with tensors := u.tensors.set (c.arg 0) { t with maps := t.maps.erase m } } 0

/-- WEIGHT_FREE: STATE while any household maps the tensor (R353). -/
def execWeightFree (k : Nat) (s : State) : Res :=
  s.command k 0x0208 fun c => s.forTensor (c.arg 0) true fun t =>
    if t.maps.isEmpty then done { s with tensors := s.tensors.del (c.arg 0), reload := s.reload.filter fun r => r.1 != c.arg 0 } 0
    else refuse s stState

/-- Whether a replay runs of a job whose household maps a tensor: a reload waits for it (R396). -/
def State.replayRuns (s : State) (t : Tensor) : Bool :=
  s.jobs.cells.any fun c => c.2.live && c.2.serving.active && c.2.serving.replay && t.maps.any fun m => m.1 == c.2.household

/-- The effect of BLOCK_RELOAD. -/
def State.blockReload (s : State) (c : Command) : Reply :=
  s.forTensor (c.arg 0) true fun t =>
    let off := c.arg 1
    if off % 2048 ≠ 0 ∨ t.bytes ≤ off then refuse s stArg
    else
      match s.hostRead (c.arg 2) 2048 with
      | none => refuse s stIo
      | some d =>
        let a := s.tensorAddr t false off
        let bad := s.blkPoison.contains (a / 2048) || (t.mirror && s.blkPoison.contains (s.tensorAddr t true off / 2048))
        let u := s.tensorPut t off d
        done (if bad then u.blockRestored (c.arg 0) off a else u) 0

/-- BLOCK_RELOAD: the block and its mirror are written whole, which clears the poison (R354); it waits for a replay that reads the tensor
(R396). -/
def execBlockReload (k : Nat) (s : State) : Res :=
  match (s.postbox k).cur with
  | none => .next s
  | some c =>
    if ((s.tensors.find (c.arg 0)).map s.replayRuns).getD false = true ∧ c.opcode = 0x0209 then .next s else s.command k 0x0209 s.blockReload

end Sys2Proof.Machine
end

