-- ==== Sys2Proof/Machine/HandMem.lean ====
section
/-! DEFINITION. Loads and stores of a Hand (R138 to R140): local ones to its own scratchpad, IBLD (R132), global ones by effective address, and those
that reach another package (R317, R318). -/

namespace Sys2Proof.Machine

/-! ## Local accesses (R138) -/

/-- The scratchpad offset of a local effective address. -/
def localOff (ea : Word64) : Nat := ea.toNat % 2 ^ 23

/-- The exception of a local access, if any (R138): ACCESS at an offset of 0x60_0000 or above, which comes before ALIGN; an aligned access
whose bytes run past the end raises ACCESS (log entry 10). -/
def localCause (ea : Word64) (n align : Nat) : Option Cause :=
  if padBytes ≤ localOff ea then some .access
  else if ea.toNat % align ≠ 0 then some .align
  else if padBytes < localOff ea + n then some .access
  else none

/-- Bytes of a Hand's own scratchpad, with their poison; raw access to ring memory reads free bytes (R177). -/
def State.localRead (s : State) (h : HandRef) (off n : Nat) : (List Byte × Bool) × State :=
  let b := s.padRead (handSlot h) off n
  if (s.rawSlots (s.heldBy h) false (sramAddr (handSlot h) off) n).isEmpty then (b, s)
  else (((s.freshBytes n).1, b.2), (s.freshBytes n).2)

/-- Bytes written to a Hand's own scratchpad; raw access to ring memory leaves the slots with free bytes (R177). -/
def State.localWrite (s : State) (h : HandRef) (off : Nat) (d : List Byte) : State :=
  (s.rawSlots (s.heldBy h) true (sramAddr (handSlot h) off) d.length).foldl State.freeSlot (s.padWrite (handSlot h) off d false)

/-- A local load of `n` bytes: `f` puts them into the register. Poisoned data raises POISON before any register is written (R164). -/
def State.localLoad (s : State) (h : HandRef) (ea : Word64) (n align : Nat) (f : List Byte → Hand → Hand) : Res :=
  match localCause ea n align with
  | some c => .next (s.except h c ea)
  | none =>
    let r := s.localRead h (localOff ea) n
    if r.1.2 then .next (s.except h .poison ea) else .next (r.2.retire h fun x => (f r.1.1 x).advance)

/-- A local store. -/
def State.localStore (s : State) (h : HandRef) (ea : Word64) (d : List Byte) (align : Nat) : Res :=
  match localCause ea d.length align with
  | some c => .next (s.except h c ea)
  | none => .next ((s.localWrite h (localOff ea) d).retire h Hand.advance)

/-- Bytes of a scalar load: LDB, LDBU, LDH, LDHU, LDW, LDWU, LDD. -/
def loadSize (op : Nat) : Nat := if op ≤ 1 then 1 else if op ≤ 3 then 2 else if op ≤ 5 then 4 else 8

/-- The value of a scalar load: LDBU, LDHU and LDWU zero-extend, the others sign-extend. -/
def loadValue (op : Nat) (d : List Byte) : Word64 :=
  if op % 2 = 1 then BitVec.ofNat 64 (ofBytes d) else BitVec.ofInt 64 (signed (8 * loadSize op) (ofBytes d))

/-- LDB to LDD (R138). -/
def execLocalLoad (h : HandRef) (s : State) : Res :=
  match s.handOp h with
  | some (.localLoad op a d imm) =>
    s.localLoad h ((s.hand h).s a + imm) (loadSize op) (loadSize op) fun b x => x.setS d (loadValue op b)
  | _ => .next s

/-- STB to STD store the low bytes of s[D] (R138). -/
def execLocalStore (h : HandRef) (s : State) : Res :=
  match s.handOp h with
  | some (.localStore op a d imm) =>
    s.localStore h ((s.hand h).s a + imm) (toBytes (2 ^ op) ((s.hand h).s d).toNat) (2 ^ op)
  | _ => .next s

/-- VLD (R138). -/
def execVld (h : HandRef) (s : State) : Res :=
  match s.handOp h with
  | some (.vld a d off) => s.localLoad h ((s.hand h).s a + off) 64 4 fun b x => x.setV d (vecOf b)
  | _ => .next s

/-- VST (R138). -/
def execVst (h : HandRef) (s : State) : Res :=
  match s.handOp h with
  | some (.vst a d off) => s.localStore h ((s.hand h).s a + off) (vecBytes ((s.hand h).v d)) 4
  | _ => .next s

/-- Whether s[B] is a byte count of VSTN and GVSTN. -/
def storeCount (v : Word64) : Bool := decide (1 ≤ v.toNat) && decide (v.toNat ≤ 64)

/-- VSTN stores bytes 0 to s[B] - 1 of v[D]; another count raises ILLEGAL (R138), before the address is looked at (log entry 138). -/
def execVstn (h : HandRef) (s : State) : Res :=
  match s.handOp h with
  | some (.vstn a b d) =>
    let x := s.hand h
    if storeCount (x.s b) then s.localStore h (x.s a) ((vecBytes (x.v d)).take (x.s b).toNat) 4
    else .next (s.except h .illegal (s.wordOf h))
  | _ => .next s

/-! ## IBLD -/

/-- The first of the three values of IBLD that is not a multiple of 64 (R132). -/
def ibldOdd (src dst n : Word64) : Option Word64 := [src, dst, n].find? fun v => decide (v.toNat % 64 ≠ 0)

/-- Words of a byte list put into an instruction buffer from a word index on. -/
def putWords (b : Tab Word32) : Nat → List Nat → Tab Word32
  | _, [] => b
  | i, w :: ws => putWords (b.set i (BitVec.ofNat 32 w)) (i + 1) ws

/-- IBLD copies s[D] bytes from scratchpad offset s[A] into the buffer at s[B]; an uncorrectable word stops the copy before it with
POISON (R132). Raw access to ring memory copies free bytes (R177). -/
def execIbld (h : HandRef) (s : State) : Res :=
  match s.handOp h with
  | some (.ibld a b d) =>
    let x := s.hand h
    let src := x.s a
    let dst := x.s b
    let n := x.s d
    match ibldOdd src dst n with
    | some v => .next (s.except h .align v)
    | none =>
      if padBytes < src.toNat + n.toNat then .next (s.except h .access src)
      else if 0x8000 < dst.toNat + n.toNat then .next (s.except h .access dst)
      else
        let base := sramAddr (handSlot h) 0
        let bad := s.firstPoison (base + src.toNat) n.toNat
        let len := match bad with
          | some w => 8 * w - (base + src.toNat)
          | none => n.toNat
        let r := s.localRead h src.toNat len
        let t := r.2.modHand h fun y => { y with ibuf := putWords y.ibuf (dst.toNat / 4) (words 4 r.1.1) }
        match bad with
        | some w => .next (t.except h .poison (BitVec.ofNat 64 (8 * w - base)))
        | none => .next (t.retire h Hand.advance)
  | _ => .next s

/-! ## Global accesses (R139) -/

/-- The actor for a Hand; a Hand without a job reaches nothing. -/
def State.handActor (s : State) (h : HandRef) : Option Actor := (s.jobAt (handSlot h)).map fun j => actorOf j.1 j.2

/-- Whether an access stays within what R139 lets a Hand reach, here or in another package. -/
def State.reaches (s : State) (a : Actor) (write : Bool) (ea n : Nat) : Bool :=
  (runsOf ea n).all fun r => (s.resolve a write r.1).isSome

/-- The exception of a global access, if any: ACCESS comes before ALIGN. -/
def State.globalCause (s : State) (a : Actor) (write : Bool) (ea : Word64) (n align : Nat) : Option Cause :=
  if s.reaches a write ea.toNat n then (if ea.toNat % align ≠ 0 then some .align else none) else some .access

/-- Whether a requester is a Hand. -/
def asksFor (h : HandRef) : Requester → Bool
  | .handLoad k _ => k == h
  | .handStore k => k == h
  | _ => false

/-- A Hand's access to another package is sent in packets and the Hand waits for the answers; with no link that leads there it raises
ACCESS (R309, R317, R318). -/
def State.remoteAccess (s : State) (h : HandRef) (hh : Nat) (ea : Word64) (n : Nat) (data : Option (List Byte)) : State :=
  let e := ea.toNat
  let send : Option State → Nat × Nat → Option State := fun t x =>
    t.bind fun u =>
      match data with
      | none => u.request h.die 1 x.1 hh x.2 [] false (.handLoad h (x.1 - e))
      | some d => u.request h.die 0 x.1 hh x.2 (slice d (x.1 - e) x.2) false (.handStore h)
  match (pieces 4096 n e n).foldl send (some s) with
  | some t => t.retire h fun x => { x with wait := .remote, waitFrom := s.mclk, stalled := false, rbuf := {} }
  | none => s.except h .access ea

/-- A global load. -/
def State.globalLoad (s : State) (h : HandRef) (ea : Word64) (n align : Nat) (f : List Byte → Hand → Hand) : Res :=
  match s.handActor h with
  | none => .next (s.except h .access ea)
  | some a =>
    match s.globalCause a false ea n align with
    | some c => .next (s.except h c ea)
    | none =>
      if s.isRemote a false ea.toNat then .next (s.remoteAccess h a.household ea n none)
      else
        match s.readAt a (s.heldBy h) true ea.toNat n with
        | none => .next (s.except h .access ea)
        | some (b, t) =>
          if b.2 then .next (t.except h .poison ea) else .next (t.retire h fun x => (f b.1 x).advance)

/-- A global store. -/
def State.globalStore (s : State) (h : HandRef) (ea : Word64) (d : List Byte) (align : Nat) : Res :=
  match s.handActor h with
  | none => .next (s.except h .access ea)
  | some a =>
    match s.globalCause a true ea d.length align with
    | some c => .next (s.except h c ea)
    | none =>
      if s.isRemote a true ea.toNat then .next (s.remoteAccess h a.household ea d.length (some d))
      else
        match s.writeAt a (.hand h) (s.heldBy h) true ea.toNat d false with
        | none => .next (s.except h .access ea)
        | some t => .next (t.retire h Hand.advance)

/-- s[D] from eight bytes, and v[D] from 64. -/
def putScalar (d : Nat) (b : List Byte) (x : Hand) : Hand := x.setS d (BitVec.ofNat 64 (ofBytes b))
def putVector (d : Nat) (b : List Byte) (x : Hand) : Hand := x.setV d (vecOf b)

/-- GLD (R139). -/
def execGld (h : HandRef) (s : State) : Res :=
  match s.handOp h with
  | some (.gld a d off) => s.globalLoad h ((s.hand h).s a + off) 8 8 (putScalar d)
  | _ => .next s

/-- GST (R139). -/
def execGst (h : HandRef) (s : State) : Res :=
  match s.handOp h with
  | some (.gst a d off) => s.globalStore h ((s.hand h).s a + off) (toBytes 8 ((s.hand h).s d).toNat) 8
  | _ => .next s

/-- GVLD (R139). -/
def execGvld (h : HandRef) (s : State) : Res :=
  match s.handOp h with
  | some (.gvld a d off) => s.globalLoad h ((s.hand h).s a + off) 64 4 (putVector d)
  | _ => .next s

/-- GVST (R139). -/
def execGvst (h : HandRef) (s : State) : Res :=
  match s.handOp h with
  | some (.gvst a d off) => s.globalStore h ((s.hand h).s a + off) (vecBytes ((s.hand h).v d)) 4
  | _ => .next s

/-- GVSTN (R138, R139). -/
def execGvstn (h : HandRef) (s : State) : Res :=
  match s.handOp h with
  | some (.gvstn a b d) =>
    let x := s.hand h
    if storeCount (x.s b) then s.globalStore h (x.s a) ((vecBytes (x.v d)).take (x.s b).toNat) 4
    else .next (s.except h .illegal (s.wordOf h))
  | _ => .next s

/-- HFENCE is an ordering point: every earlier access has been made when it issues, since an access that is on its way holds the Hand
(R140, R317). -/
def execHfence (h : HandRef) (s : State) : Res :=
  match s.handOp h with
  | some .hfence => .next (s.retire h Hand.advance)
  | _ => .next s

/-! ## Answers from another package -/

/-- The effective address of the global access at which a Hand waits. -/
def Hand.remoteEa (x : Hand) : Word64 :=
  match decodeHand x.word with
  | .gld a _ off => x.s a + off
  | .gst a _ off => x.s a + off
  | .gvld a _ off => x.s a + off
  | .gvst a _ off => x.s a + off
  | .gvstn a _ _ => x.s a
  | _ => 0

/-- The requests of a Hand are closed. -/
def State.closeHand (s : State) (h : HandRef) : State :=
  s.modDie h.die fun x => { x with reqs := x.reqs.filter fun r => !asksFor h r.who }

/-- An access to another package ends in an exception with HTVAL = EA (R318). -/
def State.remoteFails (s : State) (h : HandRef) (c : Cause) : State :=
  if (s.hand h).wait = .remote then ((s.closeHand h).modHand h fun x => { x with rbuf := {} }).except h c (s.hand h).remoteEa else s

/-- The bytes that have come for a load. -/
def Hand.remoteBytes (x : Hand) (n : Nat) : List Byte := (List.range n).map fun i => x.rbuf.get 0 i

/-- The instruction completes when every answer has come. -/
def State.remoteDone (s : State) (h : HandRef) : State :=
  let x := s.hand h
  if x.wait = .remote ∧ s.openReqs h.die (asksFor h) = false then
    s.retire h fun y =>
      let z := { y with wait := .none, rbuf := {} }
      (match decodeHand x.word with
      | .gld _ d _ => putScalar d (x.remoteBytes 8) z
      | .gvld _ d _ => putVector d (x.remoteBytes 64) z
      | _ => z).advance
  else s

end Sys2Proof.Machine
end

