-- ==== Sys2Proof/Machine/Ferry.lean ====
section
/-! DEFINITION. Ferry (R305 to R329): flits received and sent, retry, reordering, the packets that arrive, bound rings, the states of a
Landing and its training, and the die-to-die edges (R389). -/

namespace Sys2Proof.Machine

/-- The die and the port of link `l` (R320). -/
def linkDie (l : Nat) : Nat := l / 3
def linkPort (l : Nat) : Nat := l % 3

/-! ## Acknowledgement, credit and replay (R310, R311) -/

/-- An IDLE flit with acknowledgement and credit. -/
def State.sendIdle (s : State) (l : Nat) (nak : Bool) : State :=
  let x := s.landing l
  let cr := x.nextCredit (s.heldBack l)
  (s.setLanding l ((x.settled cr).sentOne false)).emit (.flit l (idleFlit (linkWord false nak 0 x.rxSeq cr.1 cr.2)))

/-- NAK after a discarded flit; no second one until a flit is accepted (R311). -/
def State.sendNak (s : State) (l : Nat) : State :=
  if (s.landing l).nakSent then s else (s.modLanding l fun x => { x with nakSent := true }).sendIdle l true

/-- Flits up to ACK leave the replay buffer. -/
def Landing.acked (x : Landing) (ack : BitVec 16) : Landing :=
  { x with replay := x.replay.filter fun f => decide (0x8000 ≤ (ack - f.lseq).toNat) }

/-- Every unacknowledged flit is sent again, in LSEQ order (R311). -/
def State.replayLink (s : State) (l : Nat) : State :=
  let x := s.landing l
  if x.state ≠ .active ∨ x.replay.isEmpty = true then s
  else
    let again := x.replay.map fun f => { f with tries := f.tries + 1 }
    let t := s.setLanding l { x with
      replay := again, replays := satAdd x.replays 1
      recent := again.foldl (fun l f => (decide (f.packet.cls.toNat < 2) :: l).take 63) x.recent
      sticky := { x.sticky with replayLimit := x.sticky.replayLimit || again.any fun f => decide (8 < f.tries) } }
    again.foldl (fun u f => u.emit (.flit l (f.bytes x.rxSeq))) t

/-! ## Answers (R310, R318) -/

/-- An answer to a packet. -/
def State.answerPacket (s : State) (d : Nat) (q : Packet) (op status : Nat) (payload : List Byte) (poison : Bool) : State :=
  s.postPacket { s.packetFrom d clsRsp op q.src q.srcDie.toNat q.household.toNat q.tag.toNat 0 payload with
    status := BitVec.ofNat 4 status, poison := poison }

/-- Statuses of an answer (Table 11.4). -/
def rspOk : Nat := 0
def rspXlate : Nat := 1
def rspUnreachable : Nat := 2
def rspBad : Nat := 3

/-- The operation that answers a request (Table 11.5). -/
def Packet.answerOp (p : Packet) : Nat := if p.op = 1 then 5 else 4

/-- Whether an operation belongs to the class of its packet (Table 11.5). -/
def Packet.opValid (p : Packet) : Bool :=
  match p.cls.toNat with
  | 0 => p.op == 6
  | 1 => p.op == 7
  | 2 => [4, 5, 8].contains p.op.toNat
  | _ => decide (p.op.toNat ≤ 3)

/-- Flits of the answer to a request (Table 11.5). -/
def Packet.answerFlits (p : Packet) : Nat := if p.op = 1 then ceilDiv (p.len.toNat + 1) 224 else 1

/-- Whether the RSP buffer that the answer to a request needs on its link has space beside the answers that wait there (R310); an answer that no
live link can carry needs none. -/
def State.answerRoom (s : State) (d : Nat) (p : Packet) : Bool :=
  let q := s.sliced (s.packetFrom d clsRsp 4 p.src p.srcDie.toNat p.household.toNat 0 0 [])
  match s.linkFor q with
  | none => true
  | some l =>
    let x := s.landing l
    let k := creditKey clsRsp (s.lane q x none)
    decide ((x.out.filter fun f => creditKey f.packet.cls f.packet.vl == k).length + p.answerFlits ≤ x.credits.get 0 k)

/-- The requests of a reserved OP that are the oldest at a die are answered BAD as there is buffer space for the answers (R310, R318); the
fuel is the number of packets that wait. -/
def State.answerBad : Nat → State → Nat → State
  | 0, s, _ => s
  | n + 1, s, d =>
    match (s.die d).inbox.find? fun p => p.cls == clsReq with
    | some p =>
      if p.opValid = false ∧ s.answerRoom d p = true then
        State.answerBad n (((s.modDie d fun x => { x with inbox := x.inbox.erase p }).owe p.buf).answerPacket d p p.answerOp rspBad [] false) d
      else s
    | none => s

/-- The same at every die. -/
def State.answerBads (s : State) : State := (List.range s.dieCount).foldl (fun t d => State.answerBad (t.die d).inbox.length t d) s

/-- What DW0 of a flit acknowledges and returns, and its NAK. -/
def State.linkControl (s : State) (l w : Nat) : State :=
  let k := bitsOf w 38 3
  let n := bitsOf w 41 12
  let t := s.modLanding l fun x =>
    { x.acked (BitVec.ofNat 16 (bitsOf w 22 16)) with credits := if n = 0 then x.credits else x.credits.set k (x.credits.get 0 k + n) }
  ((if bitAt w 4 then t.replayLink l else t).pump l).answerBads

/-- NAK_REPLAY: a NAK with its ACK arrives, and the flits after it are sent again (R311). -/
def execNakReplay (l : Nat) (ack : BitVec 16) (s : State) : Res :=
  if (s.landing l).state = .active then .next (((s.modLanding l fun x => x.acked ack).replayLink l).pump l) else .next s

/-- ACK_TIMEOUT: no acknowledgement has come for 10 µs (R311). -/
def execAckTimeout (l : Nat) (s : State) : Res := .next (s.replayLink l)

/-- ACK_SEND: what has been received is acknowledged, at the latest after 100 ns (R311). -/
def execAckSend (l : Nat) (s : State) : Res :=
  let x := s.landing l
  if x.state = .active ∧ (0 < x.unacked ∨ 0 < (x.nextCredit (s.heldBack l)).2) then .next (s.sendIdle l false) else .next s

/-! ## Packets put together and in order (R309, R315) -/

/-- The packet fields of a flit (Table 11.4). -/
def flitPacket (b : List Byte) : Packet :=
  let v := recNat b 8 8
  let w := recNat b 16 8
  let x := recNat b 24 4
  { cls := BitVec.ofNat 2 v, vl := bitAt v 2, op := BitVec.ofNat 4 (bitsOf v 3 4), dst := BitVec.ofNat 15 (bitsOf v 7 15)
    dstDie := BitVec.ofNat 3 (bitsOf v 22 3), src := BitVec.ofNat 15 (bitsOf v 25 15), srcDie := BitVec.ofNat 3 (bitsOf v 40 3)
    household := BitVec.ofNat 6 (bitsOf v 43 6), tag := BitVec.ofNat 14 (bitsOf v 49 14), addr := BitVec.ofNat 48 w
    len := BitVec.ofNat 12 (bitsOf w 48 12), pseq := BitVec.ofNat 16 x, poison := bitAt x 21, status := BitVec.ofNat 4 (bitsOf x 24 4), payload := [] }

/-- Whether a packet of an operation carries LEN + 1 bytes (Table 11.5); an error answer carries none. -/
def Packet.carries (p : Packet) : Bool := !([1, 4, 8].contains p.op.toNat) && (p.op != 5 || p.status == 0)

/-- A packet is delivered to a die; a request of a reserved OP is answered BAD in its turn, another packet of one is dropped (R318). -/
def State.deliver (s : State) (d : Nat) (p : Packet) : State :=
  if p.opValid = true ∨ p.cls = clsReq then
    let t := s.modDie d fun x => { x with inbox := x.inbox ++ [p] }
    State.answerBad (t.die d).inbox.length t d
  else s.owe p.buf

/-- Packets of a flow that are next in PSEQ order, with the flow after them. -/
def Flow.drain : Nat → Flow → List Packet → Flow × List Packet
  | 0, f, out => (f, out)
  | n + 1, f, out =>
    match f.held.find? fun p => p.pseq == f.expect with
    | none => (f, out)
    | some p => Flow.drain n { f with expect := f.expect + 1, held := f.held.filter fun q => q.pseq != p.pseq } (out ++ [p])

/-- A whole packet of a flow is delivered or held until those before it have been (R315). -/
def State.acceptPacket (s : State) (d : Nat) (p : Packet) : State :=
  let k := flowKey p.src p.srcDie p.cls
  let f := (s.die d).flowsIn.get {} k
  let r := Flow.drain (f.held.length + 1) { f with held := f.held ++ [p] } []
  r.2.foldl (fun t q => t.deliver d q) (s.modDie d fun x => { x with flowsIn := x.flowsIn.set k r.1 })

/-- Whether a PSEQ of a flow has been delivered or is held. -/
def Flow.has (f : Flow) (n : BitVec 16) : Bool := decide (0x8000 ≤ (n - f.expect).toNat) || f.held.any fun p => p.pseq == n

/-- A flit of a packet is kept with the others, FIDX 0 beginning it anew (R315). A flit of the packet that is due holds its receive buffer until
the packet is taken; one that lies in the reorder store has left it (R310). `held` says whether the flit holds a buffer of link `l`. -/
def State.keepFlit (s : State) (l d : Nat) (p : Packet) (fidx : Nat) (part : List Byte) (held due : Bool) : State :=
  let k := flowKey p.src p.srcDie p.cls
  let key := (l, creditKey p.cls p.vl)
  let x := s.die d
  let same (y : Partial) : Bool := y.flow == k && y.pseq == p.pseq
  let old := if fidx = 0 then none else x.partials.find? same
  let head := (old.map fun y : Partial => y.head).getD p
  let h := if due then { head with buf := if held then head.buf ++ [key] else head.buf } else { head with via := head.via ++ [key] }
  let flits := ((old.map fun y : Partial => y.flits).getD {}).set fidx part
  let rest := x.partials.filter fun y => !same y
  let t := s.owe ((if fidx = 0 then (x.partials.filter same).flatMap (·.head.buf) else []) ++ if due || !held then [] else [key])
  if (List.range p.flitsOf).all fun i => (flits.find i).isSome then
    let data := ((List.range p.flitsOf).flatMap fun i => flits.get [] i).take (if p.carries then p.len.toNat + 1 else 0)
    (t.modDie d fun y => { y with partials := rest }).acceptPacket d { h with payload := data }
  else t.modDie d fun y => { y with partials := rest ++ [⟨k, p.pseq, h, flits⟩] }

/-- A flit for a die of this package: a duplicate is discarded; one of the packet that is due, or one for which the reorder store has room, is
kept; another waits in its receive buffer (R315). -/
def State.arriveFlit (s : State) (l d : Nat) (p : Packet) (fidx : Nat) (part : List Byte) (held : Bool) : State :=
  let key := (l, creditKey p.cls p.vl)
  let f := (s.die d).flowsIn.get {} (flowKey p.src p.srcDie p.cls)
  if f.has p.pseq = true ∨ p.flitsOf ≤ fidx then s.owe (if held then [key] else [])
  else if p.pseq = f.expect ∨ (s.die d).storeFull = false then s.keepFlit l d p fidx part held (p.pseq == f.expect)
  else
    s.modLanding l fun x => { x with parked := x.parked ++ [{ lseq := 0, packet := p, fidx := fidx, part := part, via := if held then some key else none }] }

/-- Flits that wait in the receive buffers of links for the reorder store of a die. -/
def State.parkedFor (s : State) (d : Nat) : List (Nat × SentFlit) :=
  s.landings.cells.flatMap fun c => (c.2.parked.filter fun f => f.packet.dstDie.toNat == d).map fun f => (c.1, f)

/-- The flits that wait for the store of a die try again, as long as that helps; the fuel is their number. -/
def State.unpark : Nat → State → Nat → State
  | 0, s, _ => s
  | n + 1, s, d =>
    let l := s.parkedFor d
    let t := { s with landings := s.landings.mapV fun _ x => { x with parked := x.parked.filter fun f => f.packet.dstDie.toNat != d } }
    let u := l.foldl (fun v f => v.arriveFlit f.1 d f.2.packet f.2.fidx f.2.part f.2.via.isSome) t
    if (u.parkedFor d).length < l.length then State.unpark n u d else u

/-! ## Flits in transit (R313, R314, R318) -/

/-- The axis of a torus link. -/
def Landing.axis (x : Landing) : Option Nat := if x.role = 1 then some (x.dir.toNat / 2) else none

/-- What names a packet. -/
def Packet.id (p : Packet) : PacketId := ⟨p.src, p.srcDie, p.dst, p.dstDie, p.pseq⟩

/-- A request that no live link can carry on is answered UNREACHABLE at its first flit, and its other flits are dropped (R318). -/
def State.cutRequest (s : State) (l : Nat) (p : Packet) : State :=
  { s with cut := if p.flitsOf = 1 ∨ s.cut.contains p.id = true then s.cut else s.cut ++ [p.id] }.answerPacket (linkDie l) p p.answerOp rspUnreachable [] false

/-- A flit for another package goes on, and holds its receive buffer until it is sent. Where no live link leads there a request is answered
UNREACHABLE (R318), and anything else waits for one, the rest of a request that has gone on in part too (R316). -/
def State.forwardFlit (s : State) (l : Nat) (p : Packet) (fidx : Nat) (part : List Byte) : State :=
  let q := s.sliced p
  let key := (l, creditKey p.cls p.vl)
  let f : SentFlit := { lseq := 0, packet := q, fidx := fidx, part := part, via := some key }
  if p.cls = clsReq ∧ 0 < fidx ∧ s.cut.contains p.id = true then
    { (s.owe [key]) with cut := if p.flitsOf ≤ fidx + 1 then s.cut.erase p.id else s.cut }
  else
  match s.linkFor q with
  | some k =>
    (s.modLanding k fun x => { x with out := x.out ++ [{ f with packet := { q with vl := s.lane p (s.landing k) (s.landing l).axis } }] }).pump k
  | none =>
    if p.cls = clsReq ∧ fidx = 0 then (s.owe [key]).cutRequest l p else { s with stranded := s.stranded ++ [f] }

/-- A DATA flit that is next in LSEQ order (R311). -/
def State.acceptFlit (s : State) (l : Nat) (b : List Byte) : State :=
  let w := recNat b 0 8
  let p := flitPacket b
  let d := p.dstDie.toNat
  let fidx := bitsOf (recNat b 24 4) 16 5
  let part := b.drop 32
  let t := (s.modLanding l fun x => { x with rxSeq := BitVec.ofNat 16 (bitsOf w 6 16), nakSent := false, unacked := x.unacked + 1 }).linkControl l w
  let v :=
    if p.dst = t.torus.coord then
      (let u := t.arriveFlit l d p fidx part true
      u.unpark (u.parkedFor d).length d)
    else t.forwardFlit l p fidx part
  if 32 ≤ (v.landing l).unacked then v.sendIdle l false else v

/-! ## Codewords (R304) -/

/-- Data bits of a codeword: 514 symbols of 10 bits. -/
def codewordBits : Nat := 5140

/-- Codewords of the stream that begin within the first `n` flits. -/
def wordsBegun (n : Nat) : Nat := ceilDiv (2048 * n) codewordBits

/-- Whether a number of wrong symbols is more than the decoder corrects. -/
def uncorrectable (n : Nat) : Bool := decide (15 < n)

/-- One flit of the stream comes: the codewords that begin within it are decoded and counted; whether the flit overlaps an uncorrectable one.
Flits and codewords meet again after 1,285 flits. -/
def Landing.decodeFlit (x : Landing) (now : Word64) (errs : List Nat) : Bool × Landing :=
  let n := x.rxFlits
  let new := (List.range (wordsBegun (n + 1) - wordsBegun n)).map fun i => errs.getD i 0
  let bad := (new.filter uncorrectable).length
  let into := decide (2048 * n % codewordBits ≠ 0) && x.cwBad
  (into || decide (0 < bad),
    { x with
      rxFlits := (n + 1) % 1285, cwBad := (new.map uncorrectable).getLastD x.cwBad
      corrected := satAdd x.corrected (new.filter fun e => decide (0 < e) && decide (e ≤ 15)).length, uncorr := satAdd x.uncorr bad
      uncorrAt := (List.replicate bad now ++ x.uncorrAt).take 17
      sticky := { x.sticky with uncorr := x.sticky.uncorr || decide (0 < bad) } })

/-- FLIT_RECEIVE (R304, R308, R311): a flit in an uncorrectable codeword, with a bad CRC or out of order is discarded and answered with NAK; an
IDLE flit carries DW0 only. -/
def execFlitReceive (l : Nat) (f : FlitIn) (s : State) : Res :=
  if (s.landing l).state ≠ .active then .next s
  else
    let c := (s.landing l).decodeFlit s.clock f.errs
    let a := s.setLanding l c.2
    let w := recNat f.raw 0 8
    let bad := a.modLanding l fun x => { x with sticky := { x.sticky with crc := true } }
    if c.1 then .next (a.sendNak l)
    else if bitsOf w 0 4 = 0 then .next (a.linkControl l w)
    else if bitsOf w 0 4 ≠ 1 then .next a
    else if recNat f.raw 28 4 ≠ crc32c (f.raw.take 28 ++ f.raw.drop 32) then .next (bad.sendNak l)
    else if BitVec.ofNat 16 (bitsOf w 6 16) ≠ (a.landing l).rxSeq + 1 then .next (a.sendNak l)
    else .next (a.acceptFlit l f.raw)

/-! ## Requests that arrive (R317, R318) -/

/-- The oldest packet of a class that waits at a die, where it is of the operation given, and the state without it: its receive buffers are free.
A request is taken only once the buffer space for its answer is there (R310). -/
def State.takePacket (s : State) (d : Nat) (cls : BitVec 2) (op : BitVec 4) : Option (Packet × State) :=
  match (s.die d).inbox.find? fun p => p.cls == cls with
  | some p =>
    if p.op = op ∧ (cls = clsReq → s.answerRoom d p = true) then some (p, (s.modDie d fun x => { x with inbox := x.inbox.erase p }).owe p.buf) else none
  | none => none

/-- Who an arriving request acts for: its household at this package. -/
def Packet.actor (p : Packet) : Actor := { household := p.household.toNat, job := none }

/-- Whether a request's household is open here (R318). -/
def State.hostsPacket (s : State) (p : Packet) : Bool := decide (p.household ≠ 0) && (s.household p.household.toNat).isOpen

/-- WRITE: the bytes are written and the WACK returned, or XLATE (R317, R318). -/
def execWrite (d : Nat) (s : State) : Res :=
  match s.takePacket d clsReq 0 with
  | none => .next s
  | some (p, t) =>
    match (if t.hostsPacket p then t.writeAt p.actor (.remote p.src p.srcDie) [] false (t.ownEa p.addr.toNat) p.payload p.poison else none) with
    | some u => .next (u.answerPacket d p 4 rspOk [] false)
    | none => .next (t.answerPacket d p 4 rspXlate [] false)

/-- READ: RDATA of LEN + 1 bytes, with their poison, or XLATE (R317, R318). -/
def execRead (d : Nat) (s : State) : Res :=
  match s.takePacket d clsReq 1 with
  | none => .next s
  | some (p, t) =>
    match (if t.hostsPacket p then t.readAt p.actor [] false (t.ownEa p.addr.toNat) (p.len.toNat + 1) else none) with
    | some (b, u) => .next (u.answerPacket d p 5 rspOk b.1 b.2)
    | none => .next (t.answerPacket d p 5 rspXlate [] false)

/-- The block in front of the elements of a REDUCE packet, none where a field of it or the length is reserved (R309, R318). Its home draws the Lots
of the stream that it names (R219); the sender has put a free one in place of a firmware stream that compiled code named (R65). -/
def reducePacket (b : List Byte) : Option ReduceSpec :=
  let v := recNat b 0 4
  let op := v % 8
  if b.length < 16 ∨ 3 < op ∨ 16 ≤ v ∨ (b.length - 16) % reduceSize op ≠ 0 then none
  else some ⟨op, bitAt v 3, recNat b 4 4, recNat b 8 4, recNat b 12 4, true⟩

/-- The job seed that a packet's Lots take: that of its job here (log entry 36). -/
def State.seedOf (s : State) (p : Packet) : Word64 := ((s.jobOfPacket p).map (·.seed)).getD 0

/-- REDUCE: the home of each element adds it under R219 with the values of the packet (R309, R317). -/
def execFerryReduce (d : Nat) (s : State) : Res :=
  match s.takePacket d clsReq 2 with
  | none => .next s
  | some (p, t) =>
    match reducePacket p.payload with
    | none => .next (t.answerPacket d p 4 rspBad [] false)
    | some q =>
      if p.addr.toNat % reduceSize q.op ≠ 0 ∨ t.reduceDst p.addr.toNat (p.payload.length - 16) false = false then .next (t.answerPacket d p 4 rspBad [] false)
      else
        match (if t.hostsPacket p then t.reduceAt p.actor (t.seedOf p) q (t.ownEa p.addr.toNat) (p.payload.drop 16) p.poison false
          else none) with
        | some u => .next (u.answerPacket d p 4 rspOk [] false)
        | none => .next (t.answerPacket d p 4 rspXlate [] false)

/-! ## Messages (R326) -/

/-- The bytes of a slot as MSG packets carry it: its 64-byte header and LEN bytes of payload (Table 11.5, log entry 37). -/
def slotHeaderBytes : Nat := 64

/-- The receiving ring that a MSG names for a household: the ring of its live job (R106, R174). -/
def State.msgRing (s : State) (hh : Nat) (ref : Nat) : Option RingRef :=
  (s.jobs.cells.filter fun c => c.2.live && c.2.household == hh).findSome? fun c => c.2.ringOf ref

/-- A whole slot has come: a slot of the ring is reserved, written and published, and where it came from is noted (R326 step 3). -/
def State.publishMsg (s : State) (r : RingRef) (m : MsgPart) (tag : BitVec 14) : Option State :=
  match (s.wake (ringSlot r)).takeSlot r .landing false with
  | none => none
  | some (i, t) =>
    let x := t.ring r
    let dw0 := recNat m.bytes 0 8
    let len := min (bitsOf dw0 32 21) x.capacity
    let u := (t.setRing r { x with origins := x.origins.set i ⟨m.coord, m.die, tag⟩ }).padWrite (ringSlot r) (x.payloadOff i)
      ((m.bytes.drop slotHeaderBytes).take len) false
    let h := hdrWord (BitVec.ofNat 4 (bitsOf dw0 0 4)) (BitVec.ofNat 8 (bitsOf dw0 8 8)) (bitAt dw0 16 || m.poison) (bitsOf dw0 32 21)
    some (u.publishSlot r i h (some (BitVec.ofNat 64 (recNat m.bytes 8 8))))

/-- MSG: part of a slot of a bound ring (R326). -/
def execMsg (d : Nat) (s : State) : Res :=
  match s.takePacket d clsReq 3 with
  | none => .next s
  | some (p, t) =>
    match t.msgRing p.household.toNat p.addr.toNat with
    | none => .next (t.answerPacket d p 4 rspXlate [] false)
    | some r =>
      let ref := BitVec.ofNat 16 p.addr.toNat
      let same (m : MsgPart) : Bool := m.coord == p.src && m.die == p.srcDie && m.ring == ref
      let old := ((t.die d).msgs.find? same).getD ⟨p.src, p.srcDie, ref, [], false⟩
      let m := { old with bytes := old.bytes ++ p.payload, poison := old.poison || p.poison }
      let rest := (t.die d).msgs.filter fun x => !same x
      let u := t.modDie d fun x => { x with msgs := rest }
      if m.bytes.length < slotHeaderBytes + bitsOf (recNat m.bytes 0 8) 32 21 then
        .next ((u.modDie d fun x => { x with msgs := rest ++ [m] }).answerPacket d p 4 rspOk [] false)
      else
        match u.publishMsg r m p.tag with
        | some v => .next (v.answerPacket d p 4 rspOk [] false)
        | none => .next (u.answerPacket d p 4 rspBad [] false)

/-- The MSG packets of a slot, one request each, with the poison of their bytes: the tags that they take and the state after; none where no link
leads there. -/
def State.sendMsgs (s : State) (r : RingRef) (b : RingBinding) (j : Job) (idx : Nat) : List (List Byte × Bool) → Option State
  | [] => some s
  | d :: t =>
    let tag := (s.die r.die).nextTag % 16384
    let ref := b.ring.toNat + b.hamlet.toNat * 64 + b.die.toNat * 1024
    let p := { s.packetFrom r.die clsReq 3 b.coord b.die.toNat j.household tag ref d.1 with poison := d.2, jobSlice := some j.image.span }
    let u := s.modDie r.die fun x =>
      { x with nextTag := (tag + 1) % 16384, reqs := x.reqs ++ [⟨tag, .slot r idx t.isEmpty, d.1.length, b.coord⟩] }
    (u.sendPacket p).bind fun v =>
      (if t.isEmpty then v.modRing r fun x => { x with bind := x.bind.map fun c => { c with sent := c.sent ++ [(tag, idx)] } } else v).sendMsgs r b j idx t

/-- A slot as MSG packets carry it, cut at 4,096 bytes, each part with its poison (R326, R390). -/
def State.msgParts (s : State) (r : RingRef) (i : Nat) : List (List Byte × Bool) :=
  let x := s.ring r
  let n := slotHeaderBytes + min (s.slotHdr r i).len x.capacity
  (List.range (ceilDiv n 4096)).map fun k => s.padRead (ringSlot r) (x.slotOff i + 4096 * k) (min 4096 (n - 4096 * k))

/-- BOUND_SLOT_SEND: a published slot of the sending end of a bound ring is claimed with a message credit and sent in MSG packets (R326 steps 1
and 2). -/
def execBoundSlotSend (r : RingRef) (s : State) : Res :=
  match (s.ring r).bind, s.jobAt (ringSlot r) with
  | some b, some (_, j) =>
    if b.credits = 0 ∨ j.state ≠ .running then .next s
    else
      (match (s.wake (ringSlot r)).takeSlot r .landing true with
      | none => .next s
      | some (i, u) =>
        let c := { b with credits := b.credits - 1 }
        let t := u.modRing r fun x => { x with bind := some c }
        .next ((t.sendMsgs r c j i (t.msgParts r i)).getD s))
  | _, _ => .next s

/-! ## Answers that arrive (R317, R318) -/

/-- The coordinate of the neighbour of a package in a direction. -/
def neighbourOf (dims c : BitVec 15) (dir : Nat) : BitVec 15 :=
  let step (a : Nat) : Nat :=
    let n := dimOf dims a
    if dir / 2 = a then (if dir % 2 = 0 then (axisOf c a + 1) % n else (axisOf c a + n - 1) % n) else axisOf c a
  BitVec.ofNat 15 (step 0 + 32 * step 1 + 1024 * step 2)

/-- Whether the routes of a job's slice pass through the bundle by which a package would have sent a packet on to a destination: the link to its
neighbour in that direction, or an uplink of this package (R313, R318, R322). -/
def State.routesBy (s : State) (j : Job) (at_ dst : BitVec 15) (way : Option (BitVec 15 × BitVec 15)) : Bool :=
  let dims := s.torus.dims
  let mine := j.image.inSlice dims
  decide (1 < j.image.packages) && mine at_ &&
    (if at_ == s.torus.coord && s.torus.uplinks.any fun r => uplinkHolds r dst then mine dst
    else
      match directionFrom dims at_ dst way with
      | none => false
      | some dir =>
        let n := neighbourOf dims at_ dir
        mine n && directionFrom dims at_ n (some j.image.span) == some dir)

/-- A package had no live link in the bundle that a packet needed: every job whose slice routes through it learns that (R318). -/
def State.markUnreached (s : State) (at_ dst : BitVec 15) (way : Option (BitVec 15 × BitVec 15)) : State :=
  { s with jobs := s.jobs.mapV fun _ j => if j.live && s.routesBy j at_ dst way then { j with unreached := true } else j }

/-- A Porter's descriptor stops with XLATE because a request for one of its rows did not take effect; its other requests are closed (R221, R318). A
read is always one for the row at which the Porter is. -/
def State.porterFails (s : State) (p : PorterRef) (row : Option Nat) : State :=
  let t := s.modDie (porterDie p) fun x => { x with reqs := x.reqs.filter fun r => !(readsFor p r.who || writesFor p r.who) }
  match (s.porter p).cur, (s.porter p).run with
  | some c, _ => t.porterStop p c.desc .xlate (row.getD c.row)
  | none, some r => t.porterStop p r.desc .xlate (row.getD (rowCount r.desc.desc - 1))
  | none, none => t

/-- An engine's descriptor ends with XLATE because a request of it did not take effect; its other requests are closed (R238, R318, log entry
99). A record that does not take effect is lost. -/
def State.engineFails (s : State) (p : ParishRef) (e : ParishEngine) : State :=
  let t := s.modDie p.die fun x => { x with reqs := x.reqs.filter fun r => !(engineReads p e r.who || engineWrites p e r.who) }
  match (s.engine p e).cur, (s.engine p e).run with
  | some c, _ =>
    let k := ((c.want e).map Prod.fst).getD 0
    if isScan e c.desc then (t.scanCame p c).1.engineEnd p e c.desc ⟨.xlate, k⟩ (t.scanCame p c).2 else t.engineEnd p e c.desc ⟨.xlate, k⟩ 0
  | none, some r => if r.told = false ∧ r.code = 0 then t.setEngine p e { t.engine p e with run := some { r with code := 2 } } else t
  | none, none => t

/-- Bytes that came for an engine's read. -/
def EngineCur.take (c : EngineCur) (ea : Nat) (d : List Byte) (poison : Bool) : EngineCur :=
  { c with rbuf := (d.zipIdx).foldl (fun t (b, i) => t.set (ea + i) (b, poison)) c.rbuf }

/-- A request ended with an error: a Hand raises ACCESS, a Porter or an engine stops with XLATE (R318); a MSG has been answered (R317). -/
def State.requestFails (s : State) (w : Requester) : State :=
  match w with
  | .handLoad h _ => s.remoteFails h .access
  | .handStore h => s.remoteFails h .access
  | .porterRead p _ => s.porterFails p none
  | .porterWrite p row => s.porterFails p (some row)
  | .engineRead p e _ => s.engineFails p e
  | .engineWrite p e => s.engineFails p e
  | .slot r i _ => s.modRing r fun x => { x with senders := x.senders.del i }

/-- The open request that an answer names, and the state without it. -/
def State.closeRequest (s : State) (d : Nat) (p : Packet) : Option (OpenRequest × State) :=
  ((s.die d).reqs.find? fun r => r.tag == p.tag.toNat).map fun r => (r, s.modDie d fun x => { x with reqs := x.reqs.erase r })

/-- An answer with an error status. -/
def State.errorAnswer (s : State) (p : Packet) (r : OpenRequest) : State :=
  let way := (s.jobOfRequester r.who).map fun (j : Nat × Job) => j.2.image.span
  let t := s.requestFails r.who
  if p.status.toNat = rspUnreachable then t.markUnreached p.src r.dst way else t

/-- WACK: the request has taken effect, or did not (R317, R318); after that of the last packet of a slot, the sending slot is released
(R326 step 4). -/
def execWack (d : Nat) (s : State) : Res :=
  match s.takePacket d clsRsp 4 with
  | none => .next s
  | some (p, t) =>
    match t.closeRequest d p with
    | none => .next t
    | some (r, u) =>
      if p.status ≠ 0 then .next (u.errorAnswer p r)
      else
        match r.who with
        | .handStore h => .next (u.remoteDone h)
        | .slot q i true => .next ((u.modRing q fun x => { x with senders := x.senders.del i }).releaseSlot q i)
        | _ => .next u

/-- Bytes that came for a Porter's read. -/
def PorterCur.take (c : PorterCur) (ea : Nat) (d : List Byte) (poison : Bool) : PorterCur :=
  { c with rbuf := (d.zipIdx).foldl (fun t (b, i) => t.set (ea + i) (b, poison)) c.rbuf }

/-- RDATA: the bytes of a READ, poisoned ones raising POISON at a Hand, or an error (R318). -/
def execRdata (d : Nat) (s : State) : Res :=
  match s.takePacket d clsRsp 5 with
  | none => .next s
  | some (p, t) =>
    match t.closeRequest d p with
    | none => .next t
    | some (r, u) =>
      if p.status ≠ 0 then .next (u.errorAnswer p r)
      else
        match r.who with
        | .handLoad h off =>
          if p.poison then .next (u.remoteFails h .poison)
          else
            .next ((u.modHand h fun x => { x with rbuf := ((p.payload.take r.bytes).zipIdx).foldl (fun b (v, i) => b.set (off + i) v) x.rbuf }).remoteDone h)
        | .porterRead q ea => .next (u.modPorter q fun x => { x with cur := x.cur.map fun c => c.take ea (p.payload.take r.bytes) p.poison })
        | .engineRead q e ea =>
          .next (u.setEngine q e { u.engine q e with cur := (u.engine q e).cur.map fun c => c.take ea (p.payload.take r.bytes) p.poison })
        | _ => .next u

/-- Whether a job binds a counter of this package as the far end of a bound counter (R327, log entry 38). -/
def Job.bindsCounter (j : Job) (coord : BitVec 15) (ref : Nat) : Bool :=
  j.image.bellBinds.any fun b => b.coord == coord && b.rdie.toNat == bitsOf ref 10 3 && b.rhamlet.toNat == bitsOf ref 6 4 && b.rnum.toNat == bitsOf ref 0 6

/-- One add record of a Bell frame: it sets out for its counter, or is dropped with FOREIGN at the remote port (R327). -/
def State.bellArrives (p : Packet) (s : State) (v : Nat) : State :=
  let ref := bitsOf v 0 16
  let jobs := s.jobs.cells.filter fun c => c.2.live && c.2.household == p.household.toNat
  match jobs.find? fun c => c.2.bindsCounter s.torus.coord ref && (c.2.ringOf ref).isSome with
  | some (_, j) =>
    (match j.ringOf ref with
    | some r => s.castBell (.remote p.src p.srcDie) (ringSlot r) r.idx (BitVec.ofNat 32 (bitsOf v 32 16))
    | none => s)
  | none =>
    match jobs.findSome? fun c => c.2.ringOf ref with
    | some r => s.foreignBell (ringSlot r)
    | none => s

/-- BELL: the 1 to 14 add records of a Bell frame (R327). -/
def execBell (d : Nat) (s : State) : Res :=
  match s.takePacket d clsBell 6 with
  | none => .next s
  | some (p, t) => .next (((chunks 16 p.payload).take 14).foldl (fun u r => u.bellArrives p (ofBytes r)) t)

/-- What a die keeps of the flows with a package: nothing (R330). -/
def Die.forgetPeer (x : Die) (c : BitVec 15) : Die :=
  { x with flowsIn := x.flowsIn.keep fun k _ => k / 32 != c.toNat, flowsOut := x.flowsOut.keep fun k _ => k / 32 != c.toNat
           partials := x.partials.filter fun y => y.flow / 32 != c.toNat, msgs := x.msgs.filter fun m => m.coord != c }

/-- A package was reset: the state of its flows is cleared, and no flit for it that waits is sent any more, so that no packet of one reset epoch
is delivered in another (R330, log entry 64). -/
def State.forgetPeer (s : State) (c : BitVec 15) : State :=
  let bufs := s.dies.cells.flatMap fun d => (d.2.partials.filter fun y => y.flow / 32 == c.toNat).flatMap (·.head.buf)
  let lost := s.landings.cells.flatMap fun x => (x.2.parked.filter fun f => f.packet.src == c) ++ x.2.out.filter fun f => f.packet.dst == c
  State.owe { s with
    dies := s.dies.mapV fun _ x => x.forgetPeer c
    landings := s.landings.mapV fun _ x =>
      { x with out := x.out.filter fun f => f.packet.dst != c, parked := x.parked.filter fun f => f.packet.src != c }
    cut := s.cut.filter fun p => p.src != c && p.dst != c
    stranded := s.stranded.filter fun f => f.packet.dst != c } (bufs ++ lost.flatMap fun f => f.via.toList)

/-- CTRL: a Reeve-to-Reeve message, whose contents the manual leaves to the firmware: it is taken (log entry 39). One from which the head Reeve
learns that a package was reset clears the state of that package's flows (R330, log entry 64). -/
def execCtrl (d : Nat) (reset : Option (BitVec 15)) (s : State) : Res :=
  match s.takePacket d clsCtrl 7 with
  | none => .next s
  | some (_, t) =>
    match reset with
    | none => .next t
    | some c => .next (t.forgetPeer c)

/-- A message credit comes back to the ring whose slot the tag names (R326 step 5). -/
def Ring.creditBack (r : Ring) (tag : Nat) : Ring :=
  { r with bind := r.bind.map fun b =>
      if b.sent.any fun x => x.1 == tag then { b with credits := b.credits + 1, sent := b.sent.filter fun x => x.1 != tag } else b }

/-- MCRED (R326). -/
def execMcred (d : Nat) (s : State) : Res :=
  match s.takePacket d clsRsp 8 with
  | none => .next s
  | some (p, t) =>
    .next ((List.range 18).foldl (fun u k =>
      u.modHamlet ⟨d, k⟩ fun m => { m with rings := m.rings.mapV fun _ r => r.creditBack p.tag.toNat }) t)

/-! ## Landing states (R305 to R307, R316, R323) -/

/-- A packet holds no buffer of a link. -/
def Packet.offLink (l : Nat) (p : Packet) : Packet := { p with via := p.via.filter fun b => b.1 != l, buf := p.buf.filter fun b => b.1 != l }
def SentFlit.offLink (l : Nat) (f : SentFlit) : SentFlit := { f with via := f.via.filter fun b => b.1 != l }

/-- A die holds no buffer of a link. -/
def Die.offLink (l : Nat) (x : Die) : Die :=
  { x with inbox := x.inbox.map (Packet.offLink l), partials := x.partials.map fun y => { y with head := y.head.offLink l }
           flowsIn := x.flowsIn.mapV fun _ f => { f with held := f.held.map (Packet.offLink l) } }

/-- A flit that waits, or has not been acknowledged, goes to the link that its flow now uses; it waits where there is none (R316). -/
def State.repin (s : State) (f : SentFlit) : State :=
  let g := { f with lseq := 0, cr := (0, 0), tries := 0 }
  match s.linkFor f.packet with
  | some k => (s.modLanding k fun x => { x with out := x.out ++ [g] }).pump k
  | none => { s with stranded := s.stranded ++ [g] }

/-- The flits on a link that move when the live links of a bundle change: those of packets of which none has been sent yet, where their flow now
takes another link (R309, R316). -/
def State.moving (s : State) (l : Nat) : List SentFlit :=
  let out := (s.landing l).out
  out.filter fun f => s.linkFor f.packet != some l && out.any fun g =>
    g.fidx == 0 && g.packet.src == f.packet.src && g.packet.srcDie == f.packet.srcDie && g.packet.dst == f.packet.dst && g.packet.dstDie == f.packet.dstDie &&
      g.packet.cls == f.packet.cls && g.packet.pseq == f.packet.pseq

/-- Flows are pinned anew at once: flits without a live link first, then those that wait on the links (R316). -/
def State.repinAll (s : State) : State :=
  let t := s.stranded.foldl State.repin { s with stranded := [] }
  (List.range (3 * s.dieCount)).foldl (fun u l =>
    let m := u.moving l
    m.foldl State.repin (u.modLanding l fun x => { x with out := x.out.filter fun f => !m.contains f })) t

/-- A link enters ACTIVE: numbers, credits, buffers and codewords begin anew, flows re-pin onto it (R304, R306, R310, R316, log entry 40). -/
def State.linkUp (s : State) (l : Nat) : State :=
  let t := s.modLanding l fun x =>
    { x with state := .active, txSeq := 0, rxSeq := 0xffff, nakSent := false, unacked := 0, replay := [], credits := fullCredits, owed := {}
             recent := [], failures := 0, fullRateFails := 0, saved := true, rxFlits := 0, cwBad := false, uncorrAt := [] }
  let u := { t with
    dies := t.dies.mapV fun _ x => x.offLink l, stranded := t.stranded.map (SentFlit.offLink l)
    landings := t.landings.mapV fun _ x => { x with out := x.out.map (SentFlit.offLink l), parked := x.parked.map (SentFlit.offLink l) } }
  (u.pump l).repinAll

/-- A flit that a link has sent. -/
def SentFlit.resent (f : SentFlit) : SentFlit := { f with sentOnce := true }

/-- A link leaves ACTIVE for a state: its unacknowledged and waiting flits are re-pinned in their old order, and the flows of the bundle with
them (R316). -/
def State.linkDown (s : State) (l : Nat) (st : LandingState) : State :=
  let x := s.landing l
  ((x.replay.map SentFlit.resent ++ x.out).foldl State.repin (s.setLanding l { x with state := st, replay := [], out := [] })).repinAll

/-- A link enters FAILED: it is recorded and reported as LINK_DOWN (R307, R323). RATE stays that of its saved results (log entry 135). -/
def State.linkFailed (s : State) (l : Nat) : State :=
  (((s.linkDown l .failed).modLanding l fun x => { x with sticky := { x.sticky with retrainFail := true } }).logEvent
    { cls := 4, severity := 2, die := linkDie l, place := linkPort l, event := 2 }).notify 0 0xf004 (BitVec.ofNat 64 l)

/-- LANDING_DETECT: a signal is found (Table 11.3). -/
def execLandingDetect (l : Nat) (s : State) : Res :=
  if (s.landing l).state = .detect then .next (s.modLanding l fun x => { x with state := .train, fullRateFails := 0 }) else .next s

/-- The opposite direction. -/
def oppositeDir (d : Nat) : Nat := if d % 2 = 0 then d + 1 else d - 1

/-- The link of a torus direction and index on the AT88-8 (Table 11.8). -/
def wiredLink (dir index : Nat) : Nat := 6 * index + dir

/-- Whether the far end of a link is what R306 asks for: an uplink accepts any identity, and the circuit of a standby link that stands in
ends at whatever link the switch patched (R323). -/
def State.peerOk (s : State) (l : Nat) (p : PeerId) : Bool :=
  let x := s.landing l
  if x.role = 2 then true
  else
    decide (x.role = 1) && decide (p.role = 1) && p.dir.toNat == oppositeDir x.dir.toNat && p.index == x.index &&
      p.coord == neighbourOf s.torus.dims s.torus.coord x.dir.toNat && p.dims == s.torus.dims &&
      (decide (s.part.dies ≠ .eight) || l != wiredLink x.dir.toNat x.index.toNat || p.die.toNat * 3 + p.port.toNat == wiredLink (oppositeDir x.dir.toNat) x.index.toNat)

/-- Whether a link trains at the half rate: it is capped, or the full rate has failed twice (R306 step 1). -/
def Landing.halfRate (x : Landing) : Bool := x.rateCap || decide (2 ≤ x.fullRateFails)

/-- The identity flit of this end of a link (R306 step 3). -/
def State.identityOf (s : State) (l : Nat) : PeerId :=
  let x := s.landing l
  { coord := s.torus.coord, die := BitVec.ofNat 3 (linkDie l), port := BitVec.ofNat 2 (linkPort l), role := x.role, dir := x.dir, index := x.index
    board := s.torus.board, dims := s.torus.dims }

/-- TRAIN: an attempt of full training ends (R306). A link that has locked sends its identity. A first and second failure at the full rate are followed by another attempt; a failed
identity check sets WIRING and ends in FAILED. -/
def execTrain (l : Nat) (o : TrainOutcome) (s : State) : Res :=
  let x := s.landing l
  if x.state ≠ .train then .next s
  else
    match o with
    | .noLock =>
      if x.halfRate then .next (s.linkFailed l) else .next (s.setLanding l { x with fullRateFails := x.fullRateFails + 1 })
    | .locked half p =>
      let t := s.emit (.identity l (s.identityOf l))
      if half ≠ x.halfRate then .next s
      else if s.peerOk l p then
        .next ((t.setLanding l { x with rate := if half then 1 else 2, peer := p.coord, peerDie := p.die, peerPort := p.port }).linkUp l)
      else
        .next (((t.setLanding l { x with sticky := { x.sticky with wiring := true } }).logEvent
          { cls := 4, severity := 2, die := linkDie l, place := linkPort l, event := 3 }).linkFailed l)

/-- AOCLK ticks of 1 ms. -/
def ticksPerMs : Nat := 25000

/-- Whether a trigger of R307 that the state shows holds: more than 16 uncorrectable codewords in 1 ms, or a flit replayed more than 8 times. -/
def Landing.triggered (x : Landing) (now : Word64) : RetrainTrigger → Bool
  | .uncorrectable => decide (17 ≤ x.uncorrAt.length) && decide ((now - x.uncorrAt.getD 16 0).toNat ≤ ticksPerMs)
  | .replayLimit => x.replay.any fun f => decide (8 < f.tries)
  | _ => true

/-- The far end of a link was reset: what is known of its package's flows is cleared, in the link's replay buffer too (R330). -/
def State.farReset (s : State) (l : Nat) : State :=
  let c := (s.landing l).peer
  (s.modLanding l fun x => { x with replay := x.replay.filter fun f => f.packet.dst != c }).forgetPeer c

/-- The state in which a link retrains: where the far end was reset, without its flows. -/
def State.retrainFrom (s : State) (l : Nat) : RetrainTrigger → State
  | .farReset => s.farReset l
  | _ => s

/-- The rate of a link that has retrained: that of its saved results, and without any the one at which R306 would train it (log entry 135). -/
def Landing.savedRate (x : Landing) : BitVec 2 := if x.rate = 0 then (if x.halfRate then 1 else 2) else x.rate

/-- RETRAIN: a trigger takes an ACTIVE link to RETRAIN; in RETRAIN an attempt from saved results ends, and the third failure in succession
ends in FAILED (R307). -/
def execRetrain (l : Nat) (t : RetrainTrigger) (ok : Bool) (s0 : State) : Res :=
  let s := s0.retrainFrom l t
  let x := s.landing l
  match x.state with
  | .active =>
    if x.triggered s.clock t then
      .next (((s.setLanding l { x with retrains := satAdd x.retrains 1, failures := 0 }).linkDown l .retrain).logEvent
        { cls := 4, severity := 1, die := linkDie l, place := linkPort l, event := 1 })
    else .next s0
  | .retrain =>
    if ok then .next ((s.setLanding l { x with rate := x.savedRate }).linkUp l)
    else if 3 ≤ x.failures + 1 then .next (s.linkFailed l)
    else .next (s.setLanding l { x with failures := x.failures + 1 })
  | _ => .next s0

/-! ## Die-to-die edges (R22, R389) -/

/-- An edge of a die. -/
def State.edge (s : State) (e : EdgeRef) : Edge := (s.die e.die).edges.get {} e.dir
def State.modEdge (s : State) (e : EdgeRef) (f : Edge → Edge) : State :=
  s.modDie e.die fun x => { x with edges := x.edges.set e.dir (f (x.edges.get {} e.dir)) }

/-- Whether an edge is there, powered and not lost. -/
def State.edgeLive (s : State) (e : EdgeRef) : Bool :=
  s.clocked && decide (e.die < s.dieCount) && (neighbour s.dieCount e.die e.dir).isSome && decide (s.ident.power ≠ .deep) && !(s.edge e).lost

/-- A flit is sent and kept for replay beside the 63 before it (R389). -/
def Edge.send (x : Edge) (b : List Byte) : Edge :=
  { x with kept := (x.kept ++ [(⟨x.txSeq, b, 0⟩ : KeptFlit)]).drop (x.kept.length - 63), txSeq := x.txSeq + 1 }

/-- A parity mismatch of a lane; the 64th in 1 ms marks the lane failing. A lane that a retrain has taken out carries nothing (R22, R389). -/
def Edge.mismatch (now : Word64) (x : Edge) (l : Nat) : Edge :=
  if x.failed.contains l then x
  else
    let t := (now :: x.parity.get [] l).take 64
    let bad := decide (64 ≤ t.length) && decide ((now - t.getD 63 0).toNat ≤ ticksPerMs)
    { x with parity := x.parity.set l t, failing := if bad && !x.failing.contains l then x.failing ++ [l] else x.failing }

/-- The reported flit comes: one whose CRC-32C holds is accepted, with those before it; a bad one is refused, and it and all that were sent after it are
replayed. One that was accepted before, or is not kept, changes nothing (R389, log entry 134). -/
def Edge.receive (x : Edge) (f : EdgeFlit) : Edge :=
  if (x.kept.any fun k => k.seq == f.seq) = false ∨ 64 ≤ (f.seq - x.rxSeq).toNat then x
  else if crc32c f.got = f.crc.toNat then { x with rxSeq := f.seq + 1 }
  else
    { x with rxSeq := f.seq
             kept := x.kept.map fun k => if (k.seq - f.seq).toNat < 64 then { k with tries := k.tries + 1 } else k }

/-- Whether the retrain of a direction is due: a lane is failing, a flit has been replayed 8 times, or a retrain has failed (R389). -/
def Edge.due (x : Edge) : Bool :=
  !x.failing.isEmpty || (x.kept.any fun k => decide (8 ≤ k.tries)) || decide (x.retrainFails ≠ 0)

/-- EDGE_REPLAY: a flit with a bad CRC is refused and replayed with those after it; nothing is lost or duplicated (R389). -/
def execEdgeReplay (f : EdgeFlit) (s : State) : Res :=
  if s.edgeLive f.edge then
    .next (s.modEdge f.edge fun x => Edge.receive (f.lanes.foldl (Edge.mismatch s.clock) (f.sent.foldl Edge.send x)) f)
  else .next s

/-- A record of a direction of an edge. -/
def edgeRecord (e : EdgeRef) (severity event detail : Nat) : LogReq :=
  { cls := 5, severity := severity, die := e.die, place := e.dir, event := event, detail := detail }

/-- A failing lane is taken out: the spare of its group stands in for the first, and the group is out at the second (R22). A group has 8 lanes
and a spare. -/
def State.spareLane (e : EdgeRef) (s : State) (l : Nat) : State :=
  let n := ((s.edge e).failed.filter fun i => i / 9 == l / 9).length
  let t := s.modEdge e fun x => { x with failed := x.failed ++ [l] }
  if n = 0 then t.logEvent (edgeRecord e 1 1 (l / 9)) else if n = 1 then t.logEvent (edgeRecord e 1 2 (l / 9)) else t

/-- A retrain that worked: every failing lane is taken out (R22, Table 1.5). Their records come before that of the retrain, which R400 may hold
back. -/
def State.edgeTrained (s : State) (e : EdgeRef) : State :=
  (((s.edge e).failing.foldl (State.spareLane e) s).modEdge e fun x =>
    { x with failing := [], parity := x.parity.keep fun l _ => !x.failing.contains l, retrainFails := 0
             kept := x.kept.map fun k => { k with tries := 0 } }).logEvent (edgeRecord e 1 3 0)

/-- EDGE_RETRAIN: the third failure in succession loses the edge: a FATAL record is written and IDENT_STATE reads UNDEFINED (R389). -/
def execEdgeRetrain (die dir : Nat) (ok : Bool) (s : State) : Res :=
  let e : EdgeRef := ⟨die, dir⟩
  let x := s.edge e
  if s.edgeLive e = false ∨ x.due = false then .next s
  else if ok then .next (s.edgeTrained e)
  else
    let a := s.logEvent (edgeRecord e 1 3 0)
    if 3 ≤ x.retrainFails + 1 then .next ((a.modEdge e fun y => { y with retrainFails := 3, lost := true }).logEvent (edgeRecord e 3 4 0))
    else .next (a.modEdge e fun y => { y with retrainFails := y.retrainFails + 1 })

end Sys2Proof.Machine
end

