-- ==== Sys2Proof/Machine/JobImage.lean ====
section
/-! DEFINITION. The job-image container (R360, R361, R430): the checks that JOB_LOAD makes, and what the image says. -/

namespace Sys2Proof.Machine

/-- An entry of the section table (R361). -/
structure ImgSec where
  ty : Nat
  die : Nat
  hamlet : Nat
  unit : Nat
  off : Nat
  len : Nat
  param : Nat
deriving DecidableEq, Repr

/-- `n` bytes of an image from an offset. -/
def imageBytes (b : List Byte) (off n : Nat) : List Byte := (b.drop off).take n

/-- A little-endian number in an image. -/
def imageNat (b : List Byte) (off n : Nat) : Nat := ofBytes (imageBytes b off n)

/-- CRC-32C of an image with the four bytes of its CRC read as zero (Table 12.15). -/
def imageCrc (b : List Byte) : Nat := crc32c (b.take 12 ++ [0, 0, 0, 0] ++ b.drop 16)

/-- Whether a value lies in a range. -/
def within (lo hi v : Nat) : Bool := decide (lo ≤ v) && decide (v ≤ hi)

/-- The rules of Table 12.15 for the serving fields (R282, R360): STEP_BLOCK and VOCAB are 0 unless SERVING. -/
def servingFieldsOk (b : List Byte) : Bool :=
  if bitAt (imageNat b 18 1) 0 then
    within 1 262144 (imageNat b 48 4) && within 1 8192 (imageNat b 52 2) && within 1 4096 (imageNat b 54 2) && within 1 8192 (imageNat b 56 2) &&
      decide (imageNat b 58 2 < 2 ^ 13)
  else decide (imageNat b 40 8 = 0) && decide (imageNat b 48 4 = 0)

/-- The rules of Table 12.15 for an image of `n` bytes (R360). -/
def headerOk (b : List Byte) (n : Nat) : Bool :=
  decide (imageNat b 0 4 = 0x38385441) && decide (imageNat b 4 2 = 3) && within 1 4096 (imageNat b 6 2) && decide (imageNat b 8 4 = n) &&
    decide (128 + 16 * imageNat b 6 2 ≤ n) && decide (imageNat b 12 4 = imageCrc b) && decide (imageNat b 16 1 ≤ 2) &&
    [0, 2, 4, 8].contains (imageNat b 17 1) && decide (imageNat b 18 2 ≤ 1) && within 64 (2 ^ 24) (imageNat b 20 4) &&
    decide (imageNat b 28 4 = 0) && decide (imageNat b 32 2 < 2 ^ 15) && decide (imageNat b 34 2 < 2 ^ 15) && decide (imageNat b 36 4 = 0) &&
    servingFieldsOk b && (imageBytes b 60 68).all fun x => x == 0

/-- The image that a header begins. -/
def headerImage (b : List Byte) : JobImage :=
  { reqMode := BitVec.ofNat 2 (imageNat b 16 1), dies := imageNat b 17 1, serving := bitAt (imageNat b 18 1) 0, argBytes := imageNat b 20 4
    waitLimit := BitVec.ofNat 32 (imageNat b 24 4), origin := BitVec.ofNat 15 (imageNat b 32 2), extents := BitVec.ofNat 15 (imageNat b 34 2)
    serv := { stepBlock := BitVec.ofNat 64 (imageNat b 40 8), vocab := imageNat b 48 4, rowsMax := imageNat b 52 2, reqMax := imageNat b 54 2
              prefill := imageNat b 56 2, stepBell := BitVec.ofNat 16 (imageNat b 58 2) } }

/-- Entry `i` of the section table; none where its RSVD bits are not zero, its type is reserved or it leaves the image (R361). -/
def sectionAt (b : List Byte) (n i : Nat) : Option ImgSec :=
  let v := imageNat b (128 + 16 * i) 16
  let x : ImgSec :=
    { ty := bitsOf v 0 8, die := bitsOf v 8 3, hamlet := bitsOf v 11 4, unit := bitsOf v 15 2, off := bitsOf v 32 32, len := bitsOf v 64 32
      param := bitsOf v 96 32 }
  if bitsOf v 17 15 = 0 ∧ 1 ≤ x.ty ∧ x.ty ≤ 9 ∧ x.off + x.len ≤ n then some x else none

/-- Whether two sections share no byte. -/
def ImgSec.apart (x y : ImgSec) : Bool := decide (x.off + x.len ≤ y.off) || decide (y.off + y.len ≤ x.off)

/-- Whether no two sections overlap (R361). -/
def allApart : List ImgSec → Bool
  | [] => true
  | x :: t => t.all x.apart && allApart t

/-- PLACEMENT. -/
def JobImage.addPlace (im : JobImage) (x : ImgSec) (d : List Byte) : Option JobImage :=
  let v := ofBytes d
  let hints := bitsOf v 32 32
  let granules := (List.range 4).map fun p => bitsOf v (64 + 8 * p) 8
  if x.len = 16 ∧ (im.places.all fun p => p.die != x.die) = true ∧ bitsOf v 16 16 = 0 ∧ bitsOf v 104 24 = 0 ∧
      ((List.range 16).all fun k => bitsOf hints (2 * k) 2 != 3) = true ∧ (granules.all fun g => decide (g ≤ 40)) = true then
    some { im with places := im.places ++ [⟨x.die, BitVec.ofNat 16 v, BitVec.ofNat 32 hints, granules, BitVec.ofNat 4 (bitsOf v 96 4),
      BitVec.ofNat 4 (bitsOf v 100 4)⟩] }
  else none

/-- HAND_CODE. -/
def JobImage.addCode (im : JobImage) (x : ImgSec) (d : List Byte) : Option JobImage :=
  if x.len % 4 = 0 ∧ 4 ≤ x.len ∧ x.len ≤ 0x8000 ∧ (im.codes.all fun c => !(c.die == x.die && c.hamlet == x.hamlet && c.unit == x.unit)) = true then
    some { im with codes := im.codes ++ [⟨x.die, x.hamlet, x.unit, x.param, (words 4 d).map (BitVec.ofNat 32)⟩] }
  else none

/-- RING_TABLE: a value with a reserved field is refused (R430, log entry 32). -/
def JobImage.addRings (im : JobImage) (x : ImgSec) (d : List Byte) : Option JobImage :=
  let v := (words 8 d).map (BitVec.ofNat 64)
  if x.len = 512 ∧ (im.rings.all fun c => !(c.die == x.die && c.hamlet == x.hamlet)) = true ∧ (v.all cfgValid) = true then
    some { im with rings := im.rings ++ [⟨x.die, x.hamlet, v⟩] }
  else none

/-- Whether TALLY_CTRL, TALLY_LOG_BASE and TALLY_LOG_CTRL hold no reserved value; SCRUB is for the Reeves and may stand here. -/
def tallyTableOk (ctrl base log : Word64) : Bool :=
  (tallyCtrlValid ctrl || (decide (fieldOf ctrl 5 3 = 4) && tallyCtrlValid (ctrl &&& ~~~0xe0#64))) && decide (fieldOf base 0 5 = 0) &&
    decide (fieldOf base 48 16 = 0) && decide (fieldOf log 24 8 = 0) && decide (fieldOf log 56 8 = 0)

/-- TALLY_TABLE. -/
def JobImage.addTally (im : JobImage) (x : ImgSec) (d : List Byte) : Option JobImage :=
  let v := (words 8 d).map (BitVec.ofNat 64)
  let par := x.unit == 1
  let place := if par then x.hamlet % 4 else x.hamlet
  if x.len = 48 ∧ x.unit ≤ 1 ∧ (im.tallies.all fun c => !(c.die == x.die && c.place == place && c.parish == par)) = true ∧
      tallyTableOk (v.getD 0 0) (v.getD 1 0) (v.getD 2 0) = true ∧ tallyTableOk (v.getD 3 0) (v.getD 4 0) (v.getD 5 0) = true then
    some { im with tallies := im.tallies ++ [⟨x.die, place, par, v⟩] }
  else none

/-- The records of a BELL_BIND or RING_BIND section put after those before it: none where a RSVD bit is not zero, a local number lies outside
56-63 or is named twice for one hamlet. -/
def addBinds (x : ImgSec) : List BindSpec → List (List Byte) → Option (List BindSpec)
  | l, [] => some l
  | l, r :: t =>
    let v := ofBytes r
    let loc := bitsOf v 0 8
    if bitsOf v 36 92 = 0 ∧ 56 ≤ loc ∧ loc ≤ 63 ∧ (l.all fun c => !(c.die == x.die && c.hamlet == x.hamlet && c.loc == loc)) = true then
      addBinds x (l ++ [⟨x.die, x.hamlet, loc, BitVec.ofNat 15 (bitsOf v 8 15), BitVec.ofNat 3 (bitsOf v 23 3), BitVec.ofNat 4 (bitsOf v 26 4),
        BitVec.ofNat 6 (bitsOf v 30 6)⟩]) t
    else none

/-- Whether a section is 1 to 8 whole records of 16 B. -/
def ImgSec.bindLen (x : ImgSec) : Bool := decide (x.len % 16 = 0) && within 16 128 x.len

/-- SIEVE_RING. -/
def JobImage.addSieve (im : JobImage) (x : ImgSec) (d : List Byte) : Option JobImage :=
  if x.len = 8 ∧ ofBytes d < 2 ^ 13 ∧ (im.sieves.all fun c => c.1 != x.die) = true then
    some { im with sieves := im.sieves ++ [(x.die, BitVec.ofNat 16 (ofBytes d))] }
  else none

/-- SCRATCH_DATA. -/
def JobImage.addScratch (im : JobImage) (x : ImgSec) (d : List Byte) : Option JobImage :=
  if x.param + x.len ≤ padBytes then some { im with scratch := im.scratch ++ [⟨x.die, x.hamlet, x.param, d⟩] } else none

/-- ENGINE_RINGS; a later section for the same parish takes the place of an earlier one. -/
def JobImage.addEngines (im : JobImage) (x : ImgSec) (d : List Byte) : Option JobImage :=
  let v := ofBytes d
  let par := x.hamlet % 4
  if x.len = 8 ∧ v < 2 ^ 32 then
    some { im with engines := (im.engines.filter fun c => !(c.die == x.die && c.par == par)) ++
      [⟨x.die, par, BitVec.ofNat 16 v, BitVec.ofNat 16 (bitsOf v 16 16)⟩] }
  else none

/-- A section added to what the image says, none where it breaks Table 12.16 or R430. -/
def JobImage.addSection (im : JobImage) (b : List Byte) (x : ImgSec) : Option JobImage :=
  let d := imageBytes b x.off x.len
  match x.ty with
  | 1 => im.addPlace x d
  | 2 => im.addCode x d
  | 3 => im.addRings x d
  | 4 => im.addTally x d
  | 5 => if x.bindLen then (addBinds x im.bellBinds (chunks 16 d)).map fun l => { im with bellBinds := l } else none
  | 6 => if x.bindLen then (addBinds x im.ringBinds (chunks 16 d)).map fun l => { im with ringBinds := l } else none
  | 7 => im.addSieve x d
  | 8 => im.addScratch x d
  | 9 => im.addEngines x d
  | _ => none

/-- The sections of an image added one after another. -/
def JobImage.addSections (b : List Byte) : JobImage → List ImgSec → Option JobImage
  | im, [] => some im
  | im, x :: t => (im.addSection b x).bind fun y => JobImage.addSections b y t

/-- Whether an image places a hamlet, and whether a parish holds a placed hamlet. -/
def JobImage.placesHamlet (im : JobImage) (d k : Nat) : Bool := im.places.any fun p => p.die == d && p.hamlets.getLsbD k
def JobImage.placesParish (im : JobImage) (d q : Nat) : Bool := im.places.any fun p => p.die == d && bitsOf p.hamlets.toNat (4 * q) 4 != 0

/-- What an image asks of an engine's ring reference: its RSVD bits are zero, where the engine is asked for. -/
def EngineSpec.refsOk (e : EngineSpec) (im : JobImage) : Bool :=
  (im.places.find? fun p => p.die == e.die).all fun p =>
    (!p.press.getLsbD e.par || decide (e.press.toNat < 2 ^ 13)) && (!p.merge.getLsbD e.par || decide (e.merge.toNat < 2 ^ 13))

/-- Whether every section names a die, a hamlet or a parish that the image places (R430). -/
def JobImage.refsOk (im : JobImage) : Bool :=
  (im.codes.all fun c => im.placesHamlet c.die c.hamlet) && (im.rings.all fun c => im.placesHamlet c.die c.hamlet) &&
    (im.tallies.all fun c => if c.parish then im.placesParish c.die c.place else im.placesHamlet c.die c.place) &&
    (im.bellBinds.all fun c => im.placesHamlet c.die c.hamlet) && (im.ringBinds.all fun c => im.placesHamlet c.die c.hamlet) &&
    (im.scratch.all fun c => im.placesHamlet c.die c.hamlet) && (im.sieves.all fun c => im.places.any fun p => p.die == c.1) &&
    im.engines.all fun c => im.placesParish c.die c.par && c.refsOk im

/-- What an image of `n` bytes says, none where it breaks R360, R361 or R430. -/
def parseImage (b : List Byte) (n : Nat) : Option JobImage :=
  if headerOk b n then
    ((List.range (imageNat b 6 2)).mapM (sectionAt b n)).bind fun l =>
      if allApart l then ((headerImage b).addSections b l).bind fun im => if im.refsOk then some im else none else none
  else none

/-! ## What is asked of the package -/

/-- The logical hamlets that an image places, by die and number. -/
def JobImage.wants (im : JobImage) : List (Nat × Nat) :=
  (List.range 8).flatMap fun d => ((List.range 16).filter fun k => im.placesHamlet d k).map fun k => (d, k)

end Sys2Proof.Machine
end

