-- ==== Sys2Proof/Machine/JobRows.lean ====
section
/-! DEFINITION. The life of a job (R97, R159, R254, R258, R264, R315, R324, R355, R356, R362, R393): load, start, kill, status, unload, its
end, time limit and fault, and DIGEST_FLUSH. -/

namespace Sys2Proof.Machine

/-! ## Slices (R254, R324) -/

/-- Whether R324 lets this package take part in a slice: its coordinate lies inside and no extent exceeds its ring. -/
def State.sliceOk (s : State) (im : JobImage) : Bool :=
  im.inSlice s.torus.dims s.torus.coord && [0, 1, 2].all fun a => decide (axisOf im.extents a + 1 ≤ dimOf s.torus.dims a)

/-- ceil (log2 n): the slice shape class (Table 9.2). -/
def shapeClass (n : Nat) : Nat := ((List.range 16).find? fun k => decide (n ≤ 2 ^ k)).getD 15

/-- The bit-identity key of a job (R260). -/
def State.jobKey (s : State) (im : JobImage) : Word64 := s.keyWord (shapeClass im.packages)

/-- The coordinates of the torus. -/
def allCoords (dims : BitVec 15) : List (BitVec 15) :=
  (List.range (dimOf dims 2)).flatMap fun z => (List.range (dimOf dims 1)).flatMap fun y => (List.range (dimOf dims 0)).map fun x =>
    BitVec.ofNat 15 (x + 32 * y + 1024 * z)

/-- Peer endpoints of a die: the dies of the other packages of the slices of some images (R315). -/
def State.peers (s : State) (l : List JobImage) : Nat :=
  s.dieCount * ((allCoords s.torus.dims).filter fun c => c != s.torus.coord && l.any fun im => im.inSlice s.torus.dims c).length

/-- Images of the jobs that hold resources. -/
def State.heldImages (s : State) : List JobImage := (s.jobs.cells.filter fun c => c.2.live || c.2.isEnding).map (·.2.image)

/-! ## Placement (R16, R31, R97, R355) -/

/-- Whether a slot may take a hamlet: not retired, held by no job, its fence lowered. -/
def State.freeSlotAt (s : State) (m : HamletRef) : Bool :=
  !(s.hamlet m).retired && !s.heldSlot m && decide ((s.hamlet m).fence = .lowered)

/-- A slot is retired and the Logbook told (R28). -/
def State.retireSlot (s : State) (m : HamletRef) : State :=
  (s.modHamlet m fun x => { x with retired := true }).logEvent { cls := 3, severity := 2, die := m.die, place := m.slot, event := 5 }

/-- The test of R97 on a free slot: a Mill with RETIRE_PENDING that the spare columns repair is clear again, and a slot with one that they do
not repair is retired. -/
def State.testSlot (s : State) (repair : List MillRef) (m : HamletRef) : State :=
  let x := s.hamlet m
  let due := (x.mills.cells.filter fun c => c.2.retirePending).map Prod.fst
  if s.freeSlotAt m = false then s
  else if due.isEmpty then s
  else if due.all fun i => repair.contains ⟨m.die, m.slot, i⟩ then
    (s.modHamlet m fun y => { y with mills := y.mills.mapV fun _ u => { u with retirePending := false } }).logEvent
      { cls := 3, severity := 1, die := m.die, place := m.slot, event := 4 }
  else s.retireSlot m

/-- The slot that can stand in for a logical hamlet (R16). -/
def standIn (d k : Nat) : HamletRef := ⟨d, if k < 8 then 16 else 17⟩

/-- The tests that a placement of a logical hamlet asks for: its own slot, and its stand-in where that is retired. -/
def State.testFor (repair : List MillRef) (s : State) (c : Nat × Nat) : State :=
  let t := s.testSlot repair ⟨c.1, c.2⟩
  if (t.hamlet ⟨c.1, c.2⟩).retired then t.testSlot repair (standIn c.1 c.2) else t

/-- The wake hint of a logical hamlet (R361). -/
def JobImage.hint (im : JobImage) (d k : Nat) : BitVec 2 :=
  ((im.places.find? fun p => p.die == d).map fun p => BitVec.ofNat 2 (bitsOf p.hints.toNat (2 * k) 2)).getD 0

/-- Every free slot that reported a hardware fault is retired before the next job load (R393). -/
def State.retireFaulty (s : State) : State :=
  s.hamlets.cells.foldl (fun t c => if c.2.hwFault && t.freeSlotAt ⟨c.1 / 18, c.1 % 18⟩ then t.retireSlot ⟨c.1 / 18, c.1 % 18⟩ else t) s

/-- Logical hamlets put on slots: the own slot, or the stand-in of a retired one; none where one has no slot or is unavailable (R16, R31,
R355). -/
def State.placeAll (s : State) (im : JobImage) : List Placed → List (Nat × Nat) → Option (List Placed)
  | l, [] => some l
  | l, (d, k) :: t =>
    let sp := standIn d k
    if s.unavailable d k then none
    else if s.freeSlotAt ⟨d, k⟩ then s.placeAll im (l ++ [⟨d, k, k, false, im.hint d k⟩]) t
    else if (s.hamlet ⟨d, k⟩).retired = true ∧ s.freeSlotAt sp = true ∧ (l.all fun p => !(p.die == d && p.slot == sp.slot)) = true then
      s.placeAll im (l ++ [⟨d, k, sp.slot, true, im.hint d k⟩]) t
    else none

/-- The granules of a parish that may become scratch, from the one that the firmware prefers (log entry 14). -/
def State.freeGranules (s : State) (p : ParishRef) (hint : Nat) : List Nat :=
  ((List.range 40).map fun i => (hint + i) % 40).filter fun g =>
    !(s.parish p).scratch.getLsbD g && !(s.parish p).retired.getLsbD g && ((s.parish p).owner.find g).isNone

/-- Whether the scrub of a granule would find a byte that a defective bank does not let go (R187, R188). -/
def State.granuleBad (s : State) (p : ParishRef) (g : Nat) : Bool :=
  let a := granuleAddr p.die (granuleNo p g) 0
  s.defects.any fun c => decide (a ≤ c.1) && decide (c.1 < a + granuleBytes) && c.2 != 0

/-- The granules that a request of `n` takes of those that are free, and those that it finds bad on the way (R188). -/
def State.tryGranules (s : State) (p : ParishRef) : Nat → List Nat → List Nat × List Nat
  | 0, _ => ([], [])
  | _, [] => ([], [])
  | n + 1, g :: l =>
    if s.granuleBad p g then
      let x := s.tryGranules p (n + 1) l
      (x.1, g :: x.2)
    else
      let x := s.tryGranules p n l
      (g :: x.1, x.2)

/-- The granules that a job asks for, by parish. -/
def granuleWants (l : List PlaceSpec) : List (ParishRef × Nat) :=
  l.flatMap fun p => (List.range 4).map fun q => (⟨p.die, q⟩, p.granules.getD q 0)

/-- The granules of a job, none where a parish has too few (R355). -/
def State.pickGranules (s : State) (hint : Nat) (l : List PlaceSpec) : Option (List (ParishRef × Nat)) :=
  ((granuleWants l).mapM fun c =>
    let x := (s.tryGranules c.1 c.2 (s.freeGranules c.1 hint)).1
    if x.length < c.2 then none else some (x.map fun g => (c.1, g))).map List.flatten

/-- Granules whose scrub for a job fails are retired and recorded, whether or not the job then finds room (R188). -/
def State.retireBad (s : State) (hh hint : Nat) (l : List PlaceSpec) : State :=
  (granuleWants l).foldl (fun t c => ((s.tryGranules c.1 c.2 (s.freeGranules c.1 hint)).2).foldl (fun u g => u.retireGranule c.1 g hh 0) t) s

/-- The parish engines that an image asks for. -/
def JobImage.engineWants (im : JobImage) : List (ParishRef × ParishEngine) :=
  im.places.flatMap fun p => (List.range 4).flatMap fun q =>
    (if p.press.getLsbD q then [(⟨p.die, q⟩, ParishEngine.press)] else []) ++ if p.merge.getLsbD q then [(⟨p.die, q⟩, ParishEngine.merge)] else []

/-- Whether a job holds an engine. -/
def State.heldEngine (s : State) (c : ParishRef × ParishEngine) : Bool :=
  s.jobs.cells.any fun j => (j.2.live || j.2.isEnding) && j.2.asksEngine c.1 c.2

/-- The reference that an image gives for an engine's descriptor ring. -/
def JobImage.engineRing (im : JobImage) (c : ParishRef × ParishEngine) : BitVec 16 :=
  match im.engines.find? fun e => e.die == c.1.die && e.par == c.1.par with
  | some e => (match c.2 with
    | .press => e.press
    | .merge => e.merge)
  | none => 0

/-- An engine is assigned to a job (R233, R245, R251). -/
def State.assignEngine (hh : Nat) (im : JobImage) (s : State) (c : ParishRef × ParishEngine) : State :=
  s.writeParishReg c.1 (match c.2 with
    | .press => 0x9000
    | .merge => 0xa000) (BitVec.ofNat 64 (1 + (im.engineRing c).toNat * 2 ^ 8 + hh % 64 * 2 ^ 24))

/-- A granule leaves cache mode for a job: the parish's cache is written back and invalidated, the granule is scrubbed (R203, R188); one whose
scrub fails is not taken (`State.retireBad`). -/
def State.takeGranule (n : Nat) (s : State) (c : ParishRef × Nat) : State :=
  (s.fillRegion (granuleAddr c.1.die (granuleNo c.1 c.2) 0) granuleBytes).modParish c.1 fun x =>
    { x.flushed with scratch := x.scratch ||| BitVec.ofNat 40 (2 ^ c.2), owner := x.owner.set c.2 n }

/-- A slot becomes a hamlet of a job: its Hands know their hamlet (HID), and its wake hint is set. -/
def State.takeSlotFor (s : State) (p : Placed) : State :=
  s.modHamlet ⟨p.die, p.slot⟩ fun x =>
    { x with hint := p.hint, idleSince := s.mclk
             hands := (List.range 4).foldl (fun t i => t.set i { hamlet := BitVec.ofNat 4 p.logical }) x.hands }

/-- A job number that no record has, looked for from the one that the firmware prefers (log entry 14). -/
def State.freeJob (s : State) (hint : Nat) : Option Nat :=
  ((List.range (min 65535 (s.jobs.cells.length + 1))).map fun i => 1 + (hint + i) % 65535).find? fun n => (s.jobs.find n).isNone

/-- The higher of two modes (R258). -/
def maxMode (a b : BitVec 2) : BitVec 2 := if a.toNat < b.toNat then b else a

/-- A job takes its slots, granules and engines. -/
def State.takeJob (s : State) (n hh : Nat) (im : JobImage) (ps : List Placed) (gs : List (ParishRef × Nat)) : State :=
  let j : Job := { state := .loaded, household := hh, image := im, places := ps, granules := gs, mode := maxMode s.settings.detMode im.reqMode }
  let a := ps.foldl State.takeSlotFor { s with jobs := s.jobs.set n j }
  let b := gs.foldl (State.takeGranule n) a
  im.engineWants.foldl (State.assignEngine hh im) b

/-- Placement of a job whose image passes the checks (R355). The tests of R97 stand also where the job is refused after them. -/
def State.placeJob (s : State) (hh : Nat) (im : JobImage) (hint : Nat) (repair : List MillRef) : Reply :=
  if (im.dies ≠ 0 ∧ im.dies ≠ s.dieCount) ∨ (im.places.any fun p => decide (s.dieCount ≤ p.die)) = true ∨ s.sliceOk im = false ∨
      8192 < s.peers (im :: s.heldImages) ∨ im.engineWants.any s.heldEngine = true then refuse s stUnplaceable
  else
    let r := s.retireFaulty.retireBad hh (hint / 65536) im.places
    match r.pickGranules (hint / 65536) im.places with
    | none => refuse r stUnplaceable
    | some gs =>
      let t := im.wants.foldl (State.testFor repair) r
      match t.placeAll im [] im.wants, t.freeJob hint with
      | none, _ => refuse t stUnplaceable
      | some _, none => refuse t stBusy
      | some ps, some n => done (t.takeJob n hh im ps gs) n

/-- JOB_LOAD (R355). -/
def execJobLoad (k hint : Nat) (repair : List MillRef) (s : State) : Res :=
  s.command k 0x0301 fun c => s.forHousehold k c fun hh =>
    if c.arg 2 < 144 ∨ 2 ^ 32 ≤ c.arg 2 then refuse s stArg
    else
      match s.hostRead (c.arg 1) (c.arg 2) with
      | none => refuse s stIo
      | some b =>
        match parseImage b (c.arg 2) with
        | none => refuse s stArg
        | some im => s.placeJob hh im hint repair

/-! ## Start (R159, R178, R185, R264, R273, R355, R362) -/

/-- The argument-block header (Table 12.17). -/
def State.argHeader (s : State) (n : Nat) (j : Job) (mode : BitVec 2) (seed : Word64) : List Byte :=
  toBytes 4 mode.toNat ++ toBytes 4 0 ++ toBytes 8 n ++ toBytes 8 (j.image.rank s.torus.dims s.torus.coord) ++
    toBytes 8 (s.jobKey j.image).toNat ++ toBytes 8 seed.toNat ++ List.replicate 24 0

/-- What a Mill keeps at job start: errors, counts, MILL_LAYER, and the counts of descriptors and FENCEs since job start are 0 (R102, R119,
Table 4.10). -/
def Mill.jobStart (x : Mill) : Mill :=
  { x with sticky := {}, recomputes := 0, widened := 0, clipped := 0, firstErr := {}, accepted := 0, fences := 0, layer := 0 }

/-- What a Porter keeps at job start (R223). -/
def Porter.jobStart (x : Porter) : Porter := { x with sticky := {}, halted := false, errTile := 0, errRow := 0, errCause := 0, done := 0 }

/-- A Tally table of a hamlet or parish as registers (R273). -/
def tallyUnits (regs : List Word64) : Tab Tally := ⟨[(0, Tally.configured (regs.take 3)), (1, Tally.configured (regs.drop 3))]⟩

/-- A hamlet at job start: it is woken by the control network, Bells are 0, limits, error records and Tally units are set. -/
def State.startHamlet (s : State) (j : Job) (p : Placed) : State :=
  let m : HamletRef := ⟨p.die, p.slot⟩
  let im := j.image
  let t := (s.wake m).modHamlet m fun x =>
    { x with bells := {}, wakes := 0, idleSince := s.mclk
             waitLimit := if im.waitLimit = 0 then 0x00100000 else im.waitLimit
             mills := x.mills.mapV fun _ u => u.jobStart
             porters := x.porters.mapV fun _ q => q.jobStart
             tallies := match im.tallies.find? fun c => !c.parish && c.die == p.die && c.place == p.logical with
               | some c => tallyUnits c.regs
               | none => {} }
  let u := match im.rings.find? fun c => c.die == p.die && c.hamlet == p.logical with
    | some c => (c.cfgs.zipIdx).foldl (fun v (w, i) => v.writeRingCfg ⟨m.die, m.slot, i⟩ w) t
    | none => t
  (im.scratch.filter fun c => c.die == p.die && c.hamlet == p.logical).foldl (fun v c => v.padWrite m c.off c.data false) u

/-- COUNT that an image gives a ring of another package of the slice, where the same image is loaded (R324, R326). -/
def JobImage.remoteCount (im : JobImage) (b : BindSpec) : Nat :=
  match im.rings.find? fun c => c.die == b.rdie.toNat && c.hamlet == b.rhamlet.toNat with
  | some c => fieldOf (c.cfgs.getD b.rnum.toNat 0) 40 11
  | none => 0

/-- The sending ends of bound rings (R326). -/
def State.bindRings (s : State) (j : Job) : State :=
  j.image.ringBinds.foldl (fun t b =>
    match j.slotOf b.die b.hamlet with
    | some k => t.modRing ⟨b.die, k, b.loc⟩ fun r => { r with bind := some ⟨b.coord, b.rdie, b.rhamlet, b.rnum, j.image.remoteCount b, []⟩ }
    | none => t) s

/-- The Tally units and Porters of a parish at job start; a unit that serves another job is left to it (log entry 20). -/
def State.startParish (s : State) (n : Nat) (j : Job) (p : ParishRef) : State :=
  let t := s.modParish p fun x =>
    { x with press := if j.asksEngine p .press then { x.press with done := 0, errors := 0 } else x.press
             merge := if j.asksEngine p .merge then { x.merge with done := 0, errors := 0 } else x.merge }
  if (s.jobOfParish p).map Prod.fst = some n then
    t.modParish p fun x =>
      { x with porters := x.porters.mapV fun _ q => q.jobStart
               tallies := match j.image.tallies.find? fun c => c.parish && c.die == p.die && c.place == p.par with
                 | some c => tallyUnits c.regs
                 | none => {} }
  else t

/-- A Hand as the head Reeve sets it up: s1 is the argument block, HSEED the job seed, every other register 0 but HID and HTIME. One with an
entry point gets its buffer and runs from there; one without stays stopped (R159). -/
def Hand.started (x : Hand) (seed arg : Word64) (c : Option CodeSpec) : Hand :=
  let y : Hand := ({ hamlet := x.hamlet, seed := seed } : Hand).setS 1 arg
  match c with
  | some c => { y with ibuf := putWords {} 0 (c.words.map BitVec.toNat), mode := .running }.goto (BitVec.ofNat 64 c.entry)
  | none => y

/-- The Hands of a hamlet of a job at its start; s1 gets JOB_START's A2 as it came, without a package number (R159, log entry 139). -/
def State.startHands (s : State) (j : Job) (seed arg : Word64) (p : Placed) : State :=
  (List.range 4).foldl (fun t i =>
    t.modHand ⟨p.die, p.slot, i⟩ fun x =>
      x.started seed arg (j.image.codes.find? fun c => c.die == p.die && c.hamlet == p.logical && c.unit == i)) s

/-- What a STRICT job asks for at its start: the caches of the parishes of its hamlets, engines and granules and its translation entries are gone, the round-robin pointers of R158, R171 and R203 are 0
(R264). -/
def State.startStrict (s : State) (j : Job) : State :=
  let a := (j.unitParishes ++ j.granules.map Prod.fst).foldl (fun t p => t.modParish p Parish.flushed) s
  let b := { a with dies := a.dies.mapV fun _ d => { d with tcache := d.tcache.filter fun e => e.1 != j.household } }
  j.slots.foldl (fun t m => t.modHamlet m fun x =>
    { x with rings := x.rings.mapV fun _ r => { r with grant := 0 }, mills := x.mills.mapV fun _ u => { u with pushPtr := 0 } }) b

/-- A job starts. -/
def State.startJob (s : State) (n : Nat) (j : Job) (mode : BitVec 2) (seed arg : Word64) (limit : Nat) : State :=
  let a := j.places.foldl (fun t p => t.startHamlet j p) s
  let b := a.bindRings j
  let c := j.unitParishes.foldl (fun t p => t.startParish n j p) b
  let d := if mode = 2 then c.startStrict j else c
  let e := j.places.foldl (fun t p => t.startHands j seed arg p) d
  (e.modJob n fun k => { k with state := .running, mode := mode, seed := seed, argBlock := arg, logKey := s.jobKey j.image, limitMs := limit, startedAt := s.clock }).stir

/-- JOB_START: STATE unless the job is loaded and has not run; a header that cannot be written completes with IO and leaves it loaded (R355,
R362, log entry 34). -/
def execJobStart (k : Nat) (s : State) : Res :=
  s.command k 0x0302 fun c => s.forJob k c fun n j =>
    if j.state ≠ .loaded then refuse s stState
    else
      let mode := maxMode s.settings.detMode j.image.reqMode
      let seed := BitVec.ofNat 64 (c.arg 1)
      match s.writeMem (actorOf n j) (s.ownEa (c.arg 2)) (s.argHeader n j mode seed) false with
      | none => refuse s stIo
      | some t => done (t.startJob n j mode seed (BitVec.ofNat 64 (c.arg 2)) (c.arg 3)) 0

/-! ## Ends (R355, R393) -/

/-- A job stops for a reason other than a fault: its entries end KILLED, its agents stop, and it ends when it has been scrubbed. -/
def State.endJob (s : State) (n : Nat) (why : JobEnd) : State := ((s.killEntries n).stopJob n why).settleJob n

/-- JOB_KILL (R355). -/
def execJobKill (k : Nat) (s : State) : Res :=
  s.command k 0x0303 fun c => s.forJob k c fun n j => if j.live then done (s.endJob n .killed) 0 else refuse s stState

/-- STATE of the status record (Table 12.14); a job whose scrub has not ended still runs. -/
def JobState.code : JobState → Nat
  | .loaded => 1
  | .running => 2
  | .ending _ => 2
  | .ended => 3
  | .killed => 4
  | .faulted => 5

/-- PLACEMENT and SCRUB records of a logical hamlet (Table 12.14). -/
def Job.placeRecord (j : Job) (i : Nat) : List Byte :=
  match j.places.find? fun p => p.die == i / 16 && p.logical == i % 16 with
  | some p => toBytes 8 (p.slot + flag p.far * 2 ^ 5 + 2 ^ 6)
  | none => toBytes 8 0
def Job.scrubRecord (j : Job) (i : Nat) : List Byte :=
  match j.scrubs.find? fun p => p.die == i / 16 && p.logical == i % 16 with
  | some p => toBytes 8 (p.digest.toNat + p.time.toNat * 2 ^ 32)
  | none => toBytes 8 0

/-- The status record (Table 12.14). -/
def State.jobRecord (s : State) (j : Job) : List Byte :=
  [BitVec.ofNat 8 j.state.code, j.mode.setWidth 8, BitVec.ofNat 8 (flag j.lapsed + 2 * flag j.raised + 4 * flag j.timedOut), 0, 0, 0, 0, 0] ++
    toBytes 8 (s.jobKey j.image).toNat ++ toBytes 8 j.stalls.toNat ++ toBytes 8 j.endedAt.toNat ++
    ((List.range 128).flatMap j.placeRecord) ++ ((List.range 128).flatMap j.scrubRecord) ++ List.replicate 2016 0

/-- JOB_STATUS (R356). -/
def execJobStatus (k : Nat) (s : State) : Res :=
  s.command k 0x0304 fun c => s.forJob k c fun _ j => answer s (c.arg 1) (s.jobRecord j) j.state.code

/-- JOB_UNLOAD frees the record; a job that never ran gives its resources back, scrubbed (R355). -/
def execJobUnload (k : Nat) (s : State) : Res :=
  s.command k 0x0305 fun c => s.forJob k c fun n j =>
    if j.state = .running ∨ j.isEnding = true then refuse s stState
    else
      let t := if j.state = .loaded then (((s.killEntries n).stopJob n .killed).scrubJob n) else s
      done { t with jobs := t.jobs.del n } 0

/-- Whether a Hand of a code section has halted: it neither runs nor has stopped on a fault. -/
def State.codeHalted (s : State) (j : Job) (c : CodeSpec) : Bool :=
  match j.slotOf c.die c.hamlet with
  | some k => decide ((s.hand ⟨c.die, k, c.unit⟩).mode ≠ .running) && decide ((s.hand ⟨c.die, k, c.unit⟩).mode ≠ .faulted)
  | none => true

/-- JOB_END: every Hand with an entry point has halted (R355). -/
def execJobEnd (n : Nat) (s : State) : Res :=
  match s.jobs.find n with
  | some j => if j.state = .running ∧ j.image.codes.all (s.codeHalted j) = true then .next (s.endJob n .halted) else .next s
  | none => .next s

/-- AOCLK ticks of a time limit. -/
def limitTicks (ms : Nat) : Nat := 25000 * ms

/-- JOB_TIME_LIMIT: the limit of JOB_START has passed (R355). -/
def execJobTimeLimit (n : Nat) (s : State) : Res :=
  match s.jobs.find n with
  | some j =>
    if j.state = .running ∧ j.limitMs ≠ 0 ∧ limitTicks j.limitMs ≤ (s.clock - j.startedAt).toNat then .next (s.endJob n .limit) else .next s
  | none => .next s

/-- Whether a package of a job's slice cannot be reached because the bundle that leads there has no live link (R318). -/
def State.cutOff (s : State) (j : Job) : Bool :=
  (allCoords s.torus.dims).any fun c =>
    c != s.torus.coord && j.image.inSlice s.torus.dims c && (s.bundle c (some j.image.span)).isEmpty

/-- Whether a cause of R393 holds for a job, with the die and slot that the record names. -/
def State.faultPlace (s : State) (n : Nat) (j : Job) : JobFaultCause → Option (Nat × Nat)
  | .hand h => if (s.jobAt (handSlot h)).map Prod.fst = some n ∧ (s.hand h).mode = .faulted then some (h.die, h.slot) else none
  | .slotFault m => if (j.placeAt m).isSome then some (m.die, m.slot) else none
  | .edgeLost =>
    ((List.range s.dieCount).find? fun d => (s.die d).edges.cells.any fun e => e.2.lost).map fun d => (d, 0)
  | .unreachable => if j.unreached = true ∨ s.cutOff j = true then some (0, 0) else none
  | .stepBlock => if j.serving.blockLost then some (0, 0) else none

/-- DETAIL of the record: the causes in the order of R393 (log entry 35). -/
def causeDetail : JobFaultCause → Nat
  | .hand _ => 1
  | .slotFault _ => 2
  | .edgeLost => 3
  | .unreachable => 4
  | .stepBlock => 5

/-- JOB_FAULT (R393): a Hand stopped with FAULT, a power-good or clock fault of a hamlet, a lost edge, an unreachable bundle, or a step
block that cannot be written. -/
def execJobFault (n : Nat) (c : JobFaultCause) (s : State) : Res :=
  match s.jobs.find n with
  | none => .next s
  | some j =>
    match (if j.live then s.faultPlace n j c else none) with
    | none => .next s
    | some (d, p) =>
      let t := match c with
        | .hand h => if (s.hand h).causeCode = Cause.hwFault.code then s.modHamlet (handSlot h) fun x => { x with hwFault := true } else s
        | .slotFault m => s.modHamlet m fun x => { x with hwFault := true }
        | _ => s
      .next ((t.faultJob n d p (causeDetail c)).settleJob n)

/-- DIGEST_FLUSH applies R270 without ending the job; STATE for a job that does not run. -/
def execDigestFlush (k : Nat) (s : State) : Res :=
  s.command k 0x0701 fun c => s.forJob k c fun n j => if j.state = .running then done (s.flushJob n j) 0 else refuse s stState

end Sys2Proof.Machine
end

