-- ==== Sys2Proof/Machine/Settings.lean ====
section
/-! DEFINITION. The commands of Table 12.13: topology and links (R312, R320 to R323, R359), package settings (R64, R213, R257, R358, R371,
R372, R375), loop-backs (R407 to R409) and WARM_RESET (R350). -/

namespace Sys2Proof.Machine

/-! ## Completions written at once -/

/-- Whether the completion of the command that a postbox runs can be written now: nothing waits before it, and there is room; or the
postbox was stopped, and it is never written (R338, R339, R347). -/
def State.canAnswer (s : State) (k : Nat) (c : Command) : Bool :=
  let x := s.postbox k
  decide (c.epoch ≠ x.epoch) || !x.running || (x.cplQ.isEmpty && s.boxRoom k)

/-- A command completes and its entry is written before anything else happens (R350, R372). -/
def State.answerNow (s : State) (k : Nat) (c : Command) (status : Nat) : State :=
  let t := s.modPostbox k fun x => { x with cur := none }
  let x := s.postbox k
  if c.epoch ≠ x.epoch ∨ x.running = false then t
  else t.writeEntry k ⟨c.opcode, BitVec.ofNat 8 status, c.seq, c.tag, 0, c.epoch⟩

/-- Whether a job is loaded, runs or still holds resources. -/
def State.anyJob (s : State) : Bool := s.jobs.cells.any fun c => c.2.live || c.2.isEnding

/-! ## Topology (R312, R320, R321, R359) -/

/-- Links of the package. -/
def State.linkCount (s : State) : Nat := 3 * s.dieCount

/-- The role, direction and index of a link on the AT88-8 (Table 11.8). -/
def fixedRole (l : Nat) : BitVec 3 × BitVec 3 × BitVec 2 :=
  if l < 18 then (1, BitVec.ofNat 3 (l % 6), BitVec.ofNat 2 (l / 6))
  else if l % 3 = 0 then (2, 0, BitVec.ofNat 2 (l / 3 - 6))
  else (3, 0, BitVec.ofNat 2 (l / 3 - 6))

/-- Whether a role, direction and index are not reserved (Table 11.9). -/
def roleOk (role dir index : Nat) : Bool := decide (role ≤ 3) && decide (dir ≤ 5) && decide (index ≤ 2)

/-- The indices of the torus links of a direction in a description. -/
def linkIndices (b : BoardDesc) (dir : Nat) : List Nat :=
  (b.links.filter fun x => x.role == 1 && x.dir.toNat == dir).map fun x => x.index.toNat

/-- The rules of R321 for the AT88-2 and AT88-4. -/
def linksOk (b : BoardDesc) : Bool :=
  let ix := linkIndices b
  ((List.range 6).all fun d => decide ((ix d).length ≤ 3) && (List.range (ix d).length).all fun i => (ix d).contains i) &&
    ((List.range 3).all fun a => (ix (2 * a)).length == (ix (2 * a + 1)).length && (dimOf b.dims a != 1 || (ix (2 * a)).isEmpty)) &&
    decide ((b.links.filter fun x => x.role == 2).length ≤ 2) && decide ((b.links.filter fun x => x.role == 3).length ≤ 4)

/-- Whether the head Reeve accepts a board description: the coordinate lies in the torus, the group has at most 16 packages, no field is
reserved, and R321 holds where it applies. -/
def State.boardOk (s : State) (b : BoardDesc) : Bool :=
  ((List.range 3).all fun a => decide (axisOf b.coord a < dimOf b.dims a)) && decide (b.group.length ≤ 16) &&
    decide (b.links.length ≤ s.linkCount) && (b.links.all fun x => roleOk x.role.toNat x.dir.toNat x.index.toNat) &&
    (decide (s.part.dies = .eight) || linksOk b)

/-- What a description says of link `l`; on the AT88-8 the roles are those of Table 11.8. -/
def State.linkDesc (s : State) (b : BoardDesc) (l : Nat) : LinkDesc :=
  let x := (b.links[l]?).getD ⟨0, 0, 0, false, false⟩
  match s.part.dies with
  | .eight => { x with role := (fixedRole l).1, dir := (fixedRole l).2.1, index := (fixedRole l).2.2 }
  | _ => x

/-- Whether a Landing has the configuration of a description. -/
def Landing.has (x : Landing) (d : LinkDesc) : Bool :=
  x.role == d.role && x.dir == d.dir && x.index == d.index && x.profile == d.profile && x.rateCap == d.rateCap

/-- The state that a newly assigned role gives (Table 11.3). -/
def roleState (role : BitVec 3) : LandingState := if role = 0 then .disabled else if role = 3 then .standby else .detect

/-- A link is given a configuration: one that it has and works with stays as it is; else its role is withdrawn and assigned anew (Table
11.3). -/
def State.assignLink (s : State) (l : Nat) (d : LinkDesc) : State :=
  let x := s.landing l
  if x.has d = true ∧ x.state ≠ .failed ∧ x.state ≠ .disabled then s
  else
    (if x.state = .active then s.linkDown l .disabled else s).modLanding l fun y =>
      { y with role := d.role, dir := d.dir, index := d.index, profile := d.profile, rateCap := d.rateCap, state := roleState d.role, rate := 0
               saved := false, fullRateFails := 0, failures := 0, followerAt := none }

/-- A board description takes effect (R312, R320 to R322, R325). -/
def State.installBoard (s : State) (b : BoardDesc) : State :=
  let t := { s with torus := { coord := b.coord, dims := b.dims, board := b.board, message := b.message, valid := true
                               uplinks := b.uplinks, group := b.group } }
  (List.range s.linkCount).foldl (fun u l => u.assignLink l (s.linkDesc b l)) t

/-- TOPOLOGY_SET: what the bytes at A0 say is the operand, because the manual gives them no layout (log entry 13). STATE while a job is
loaded, ARG for a description that the head Reeve refuses (R321, R359). -/
def execTopologySet (k : Nat) (b : BoardDesc) (s : State) : Res :=
  s.command k 0x0501 fun c =>
    if s.anyJob then refuse s stState
    else
      match s.hostRead (c.arg 0) (c.arg 1) with
      | none => refuse s stIo
      | some _ => if s.boardOk b then done (s.installBoard b) 0 else refuse s stArg

/-- Whether another link than `l` holds a torus direction and index and has not failed. -/
def State.heldElsewhere (s : State) (l : Nat) (dir : BitVec 3) (index : BitVec 2) : Bool :=
  (List.range s.linkCount).any fun i =>
    let x := s.landing i
    i != l && x.role == 1 && x.dir == dir && x.index == index && x.state != .failed

/-- A STANDBY link takes the direction and index of a FAILED torus link (R359). -/
def State.standsIn (s : State) (l : Nat) (d : LinkDesc) : Bool :=
  decide ((s.landing l).state = .standby) && d.role == 1 &&
    (List.range s.linkCount).any fun i =>
      let x := s.landing i
      x.role == 1 && x.dir == d.dir && x.index == d.index && x.state == .failed

/-- The changes of links that are accepted while jobs are loaded (R359). A FAILED link keeps its configuration until it is reassigned, so
what it held before it failed is what it holds. -/
def State.assignable (s : State) (l : Nat) (d : LinkDesc) : Bool :=
  let x := s.landing l
  s.standsIn l d ||
    (decide (x.state = .failed) && (d.role == 3 || (d.role == x.role && d.dir == x.dir && d.index == x.index && !s.heldElsewhere l d.dir d.index)))

/-- LINK_ASSIGN (R323, R359). On an AT88-8 too it takes any role that is not reserved (log entry 130). -/
def execLinkAssign (k : Nat) (s : State) : Res :=
  s.command k 0x0502 fun c =>
    let l := c.arg 0
    let a := c.arg 1
    let x := s.landing l
    let d : LinkDesc := ⟨BitVec.ofNat 3 (bitsOf a 0 3), BitVec.ofNat 3 (bitsOf a 3 3), BitVec.ofNat 2 (bitsOf a 6 2), x.profile, x.rateCap⟩
    if s.linkCount ≤ l ∨ 256 ≤ a ∨ roleOk (bitsOf a 0 3) (bitsOf a 3 3) (bitsOf a 6 2) = false then refuse s stArg
    else if s.anyJob = true ∧ s.assignable l d = false then refuse s stState
    else
      let t := s.assignLink l d
      if s.standsIn l d then
        done ((t.modLanding l fun y => { y with sticky := { y.sticky with failover := true } }).logEvent
          { cls := 4, severity := 0, die := linkDie l, place := linkPort l, event := 4 }) 0
      else done t 0

/-- Codes of the Landing states (Table 11.3). -/
def LandingState.code : LandingState → Nat
  | .disabled => 0
  | .detect => 1
  | .train => 2
  | .active => 3
  | .retrain => 4
  | .standby => 5
  | .failed => 6

/-- LANDING_STICKY. -/
def LandingSticky.bits (k : LandingSticky) : Nat :=
  flag k.uncorr + 2 * flag k.crc + 4 * flag k.replayLimit + 8 * flag k.retrainFail + 16 * flag k.wiring + 32 * flag k.failover

/-- A register of a Landing as it reads (Table 11.9). -/
def Landing.reg (x : Landing) (off : Nat) : Nat :=
  match off with
  | 0x000 => x.role.toNat + x.dir.toNat * 8 + x.index.toNat * 64 + flag x.profile * 256 + flag x.rateCap * 512
  | 0x008 => x.state.code + x.rate.toNat * 8 + x.peer.toNat * 32 + x.peerDie.toNat * 2 ^ 20 + x.peerPort.toNat * 2 ^ 23
  | 0x010 => x.corrected.toNat + x.uncorr.toNat * 2 ^ 16 + x.replays.toNat * 2 ^ 32 + x.retrains.toNat * 2 ^ 48
  | 0x018 => x.sticky.bits
  | _ => 0

/-- FERRY_TORUS and a die's FERRY_FLOWS as they read (Table 11.9). -/
def State.ferryReg (s : State) (d off : Nat) : Nat :=
  let t := s.torus
  match off with
  | 0x0 => t.coord.toNat + t.dims.toNat * 2 ^ 15 + t.board.toNat * 2 ^ 30 + flag t.message * 2 ^ 34 + flag t.valid * 2 ^ 35
  | 0x8 =>
    let x := s.die d
    ((x.flowsIn.keys ++ x.flowsOut.keys).map fun f => f / 4).eraseDups.length + x.heldFlits * 2 ^ 14
  | _ => 0

/-- LINK_STATUS: 32 bytes for each link, then 16 bytes for the package as die 0 reads them (Table 12.13, log entry 42). -/
def execLinkStatus (k : Nat) (s : State) : Res :=
  s.command k 0x0503 fun c =>
    let links := (List.range s.linkCount).flatMap fun l => [0x000, 0x008, 0x010, 0x018].flatMap fun o => toBytes 8 ((s.landing l).reg o)
    let data := links ++ toBytes 8 (s.ferryReg 0 0) ++ toBytes 8 (s.ferryReg 0 8)
    answer s (c.arg 0) data data.length

/-! ## Settings (R64, R213, R257, R358, R375) -/

/-- Rated power in watts (Table 0.2). -/
def Part.rated (p : Part) : Nat :=
  match p.dies, p.grade with
  | .two, .g15 => 520
  | .two, .g13 => 460
  | .four, .g15 => 1000
  | .four, .g13 => 890
  | .eight, .g15 => 1900
  | .eight, .g13 => 1700

/-- The power cap in force. -/
def State.cap (s : State) : Nat := s.settings.powerCap.getD s.part.rated

/-- POWER_CAP: 0 is the rated power; else 40 % of it to all of it (R375). -/
def execPowerCap (k : Nat) (s : State) : Res :=
  s.command k 0x0601 fun c =>
    let w := c.arg 0
    if w = 0 then done { s with settings := { s.settings with powerCap := none } } 0
    else if 2 * s.part.rated ≤ 5 * w ∧ w ≤ s.part.rated then done { s with settings := { s.settings with powerCap := some w } } 0
    else refuse s stArg

/-- DETERMINISM (R257). -/
def execDeterminism (k : Nat) (s : State) : Res :=
  s.command k 0x0603 fun c =>
    if c.arg 0 ≤ 2 then done { s with settings := { s.settings with detMode := BitVec.ofNat 2 (c.arg 0) } } 0 else refuse s stArg

/-- LPDDR_SHARES (R213). -/
def execLpddrShares (k : Nat) (s : State) : Res :=
  s.command k 0x0604 fun c =>
    if within 4 16 (c.arg 0) = true ∧ c.arg 1 ≤ 4 then
      done { s with settings := { s.settings with lcCap := BitVec.ofNat 5 (c.arg 0), backFloor := BitVec.ofNat 4 (c.arg 1) } } 0
    else refuse s stArg

/-- LOT_SEED (R64). -/
def execLotSeed (k : Nat) (s : State) : Res :=
  s.command k 0x0605 fun c => done { s with settings := { s.settings with lotSeed := BitVec.ofNat 64 (c.arg 0) } } 0

/-- SETTINGS_READ: power cap, mode, shares, LOT_SEED_BASE and Press slots loaded, in 64 bytes without a stated layout (log entry 12). -/
def execSettingsRead (k : Nat) (s : State) : Res :=
  s.command k 0x0606 fun c =>
    let x := s.settings
    answer s (c.arg 0) (openBytes 2 64 [s.cap, x.detMode.toNat, x.lcCap.toNat, x.backFloor.toNat, x.lotSeed.toNat, s.slotsWord]) 64

/-! ## POWER_STATE (R369, R371, R372) -/

/-- Whether a command that another postbox took has not completed, or a completion has not been written (R372). -/
def State.othersBusy (s : State) (k : Nat) : Bool :=
  (List.range 16).any fun i =>
    let x := s.postbox i
    i != k && (x.cur.isSome || x.cplQ.any fun c => decide (c.epoch = x.epoch) && x.running)

/-- Whether POWER_STATE 2 is refused (R372). -/
def State.deepRefused (s : State) (k : Nat) : Bool :=
  s.anyJob || (s.ledger.cells.any fun c => c.2.state == .pausing || c.2.state == .resuming) || s.othersBusy k

/-- A Landing in Deep is DISABLED (R329). -/
def State.linksOff (s : State) : State :=
  (List.range s.linkCount).foldl (fun t l => if (t.landing l).state = .active then t.linkDown l .disabled
    else t.modLanding l fun x => { x with state := .disabled }) s

/-- Steps 2 to 4 of R372: caches written back, the serving state saved, every switchable domain down. -/
def State.enterDeep (s : State) : State :=
  let save : DeepSave := ⟨s.ledger, s.nextSeq, s.sessions, s.adapters, s.grammars, s.sieves, s.pressSlots, s.settings⟩
  let t := { s.flushCaches.linksOff with blkPoison := s.blkPoison.filter fun b => !(s.firmCopies 0 .deepSave).any fun a => a / 2048 == b }
  { t with
    ident := { t.ident with power := .deep }, deepSave := some save, deepWake := false
    ledger := {}, nextSeq := 0, sessions := {}, adapters := {}, grammars := {}, sieves := {}, pressSlots := {}
    hamlets := t.hamlets.mapV fun _ m => { m.vacated with fence := m.fence } }

/-- Whether a parish has a busy Porter or engine. -/
def Parish.busy (p : Parish) : Bool :=
  p.press.cur.isSome || p.press.run.isSome || p.merge.cur.isSome || p.merge.run.isSome ||
    p.porters.cells.any fun x => !x.2.queue.isEmpty || x.2.cur.isSome || x.2.run.isSome

/-- Whether the Sieve works on a step: its candidates have been sent and tokens are still to be sampled (R294, R371). -/
def State.sieveBusy (s : State) : Bool :=
  s.jobs.cells.any fun c =>
    let x := c.2.serving
    c.2.live && x.active && !x.sent.isEmpty && decide (x.verdicts.length < (x.rows.filter (·.sample)).length)

/-- Whether nothing works: every hamlet Gated, in Retain or Off, and no parish engine, Porter or Sieve busy (Table 13.4). -/
def State.quiet (s : State) : Bool :=
  (s.hamlets.cells.all fun m => m.2.power != .active) && (s.parishes.cells.all fun p => !p.2.busy) && !s.sieveBusy

/-- POWER_STATE 0 bars Doze; 1 allows it and forces it, at once where nothing works and else as soon as nothing does (R371, Table 13.4, log entry
121); 2 writes its completion and enters Deep (R372). -/
def execPowerState (k : Nat) (s : State) : Res :=
  match (s.postbox k).cur with
  | some c =>
    if c.opcode = 0x0602 ∧ c.arg 0 = 2 ∧ s.serves = true ∧ s.ident.state ≠ .undefined ∧ s.deepRefused k = false then
      if s.canAnswer k c then .next (s.answerNow k c stOk).enterDeep else .next s
    else
      s.command k 0x0602 fun c =>
        if c.arg 0 = 0 then
          done { s with settings := { s.settings with dozeBarred := true } }.toRun 0
        else if c.arg 0 = 1 then
          let t := { s with settings := { s.settings with dozeBarred := false, dozeForced := true } }
          done (if t.quiet then { t with ident := { t.ident with power := .doze } } else t) 0
        else refuse s (if c.arg 0 = 2 then stState else stArg)
  | none => .next s

/-! ## LOOPBACK (R407 to R409) -/

/-- Whether the target of a loop-back is there. -/
def State.loopTarget (s : State) (kind index : Nat) : Bool :=
  if kind = 1 then index == 0
  else if kind = 2 then decide (index < s.linkCount)
  else if kind = 3 then decide (index / 4 < s.dieCount) && (neighbour s.dieCount (index / 4) (index % 4)).isSome
  else kind == 4 && decide (index < 6 * s.dieCount)

/-- Whether the arguments of LOOPBACK are in range (R407, R408). -/
def State.loopArgs (s : State) (kind index depth count : Nat) : Bool :=
  s.loopTarget kind index && within 1 4 depth && decide (count < 2 ^ 32) && (decide (count ≠ 0) || (kind == 2 && depth == 4)) &&
    !(kind == 1 && decide (3 ≤ depth))

/-- Whether an admission chunk is in flight: another postbox runs ADMIT_DATA. -/
def State.chunkInFlight (s : State) : Bool :=
  s.postboxes.cells.any fun x => (x.2.cur.map fun c => c.opcode == 0x0202).getD false

/-- Whether the conditions of R408 hold. -/
def State.loopReady (s : State) (kind index depth count : Nat) (follower : Bool) : Bool :=
  let quiet := !s.anyJob && !s.chunkInFlight
  if kind = 2 then
    let x := (s.landing index).state
    (x == .disabled || x == .standby || x == .failed) && (depth != 4 || count == 0 || follower)
  else if kind = 3 then quiet
  else if kind = 4 then depth == 4 || (quiet && !s.ledger.cells.any fun c => c.2.state == .pausing || c.2.state == .resuming)
  else true

/-- Units of a run: as many are sent as A2 asks for, or fewer where the run ends at 1 s; none comes that was not sent (R407, R408). -/
def loopWithin (count : Nat) (o : LoopOutcome) : LoopOutcome :=
  let sent := if o.micros.toNat < 1000000 then count else max 1 (min o.sent.toNat count)
  let got := min o.received.toNat sent
  { o with sent := BitVec.ofNat 64 sent, received := BitVec.ofNat 64 got, errors := BitVec.ofNat 64 (min o.errors.toNat got)
           micros := BitVec.ofNat 32 (min o.micros.toNat 1000000) }

/-- The result record (R409): only a run that failed names a lane. -/
def loopRecord (status depth : Nat) (o : LoopOutcome) : List Byte :=
  let run := status != 2
  [BitVec.ofNat 8 status, BitVec.ofNat 8 depth] ++ List.replicate 6 0 ++ toBytes 8 (if run then o.sent.toNat else 0) ++
    toBytes 8 (if run then o.received.toNat else 0) ++ toBytes 8 (if run then o.errors.toNat else 0) ++
    toBytes 2 (if status = 1 then o.lane.toNat else 0xffff) ++ [0, 0] ++ toBytes 4 (if run then o.micros.toNat else 0) ++ List.replicate 24 0

/-- Package addresses of the sectors of a site's 2 MiB test area, in the reserved region of its die (R407, log entry 102). -/
def State.testSectors (s : State) (c : CtlRef) : List Nat :=
  let stripes := ((List.range 3072).map fun i => s.reservedAddr c.die (0x1000000 + 4096 * i)).filter fun a => lpddrCtl a == c
  stripes.flatMap fun a => (List.range 8).map fun i => a + 512 * i

/-- Sector `n` of the counting pattern (R407), whose bytes are open (log entry 123). -/
def countSector (n : Nat) : List Byte := (List.range 512).map (Config.countByte n)

/-- Depth 4 of an LPDDR site writes the sectors of the counting pattern in turn, from the first sector of the test area again when it is full;
blocks written whole lose their poison (R209). -/
def State.testMemory (s : State) (c : CtlRef) (n : Nat) : State :=
  let area := s.testSectors c
  let l := area.take n
  let last (i : Nat) : Nat := i + (n - 1 - i) / area.length * area.length
  let t := { s with mem := (l.zipIdx).foldl (fun (m : Memory) (a : Nat × Nat) => m.writeBytes a.1 (countSector (last a.2))) s.mem }
  let whole := l.filter fun a => a % 2048 == 0 && l.contains (a + 1536)
  { t with blkPoison := whole.foldl (fun b a => b.erase (a / 2048)) t.blkPoison }

/-- The die of a loop-back's target. -/
def loopDie (kind index : Nat) : Nat := if kind = 2 then index / 3 else if kind = 3 then index / 4 else if kind = 4 then index / 6 else 0

/-- LOOPBACK: with count 0 the Landing waits as follower (R408); else the test runs, is recorded, and its result is written. -/
def execLoopback (k : Nat) (o : LoopOutcome) (s : State) : Res :=
  s.command k 0x0702 fun c =>
    let kind := bitsOf (c.arg 0) 0 8
    let index := bitsOf (c.arg 0) 8 8
    let depth := c.arg 1
    let count := c.arg 2
    if s.loopArgs kind index depth count = false then refuse s stArg
    else if s.loopReady kind index depth count o.follower = false then refuse s stState
    else if count = 0 then done (s.modLanding index fun x => { x with followerAt := some s.clock }) 0
    else
      let r := loopWithin count o
      let status := if kind = 3 ∧ depth = 4 ∧ o.follower = false then 2 else if r.errors = 0 ∧ r.received = r.sent then 0 else 1
      let t := if kind = 3 then s.edgeTrained ⟨index / 4, index % 4⟩
        else if kind = 4 ∧ depth = 4 then s.testMemory ⟨index / 6, index % 6⟩ r.sent.toNat else s
      answer (t.logEvent { cls := 14, severity := 0, die := loopDie kind index, event := 2 }) (c.arg 3) (loopRecord status depth r) 0

/-! ## WARM_RESET -/

/-- WARM_RESET writes its completion; the sequence follows (R350, R380). -/
def execWarmReset (k : Nat) (s : State) : Res :=
  match (s.postbox k).cur with
  | some c =>
    if c.opcode = 0x0703 ∧ s.serves = true ∧ s.canAnswer k c = true then .next { s.answerNow k c stOk with resetStep := .commanded }
    else .next s
  | none => .next s

end Sys2Proof.Machine
end

