-- ==== Sys2Proof/Machine/Bar.lean ====
section
/-! DEFINITION. What the host and the Reeves do without a command: BAR2 accesses (R335), writes of registers that have no row of their own
(R10, R330, R333), VF Enable (R334), and the loss of a VF (R334, R382). -/

namespace Sys2Proof.Machine

/-! ## BAR2 (R335, R373) -/

/-- Whether a function is there: the PF, or an enabled VF. -/
def State.fnLive (s : State) (fn : Nat) : Bool := fn == 0 || s.vfBox fn

/-- The household and BASE of a function's BAR2: BAR2_SET's for the PF, its own and 0 for a VF (R335). -/
def State.bar2Of (s : State) (fn : Nat) : Nat × Nat := if fn = 0 then (s.bar2Household, s.bar2Base) else (s.vfHousehold fn, 0)

/-- Bytes of a function's BAR2 (Table 12.2). -/
def State.bar2Size (s : State) (fn : Nat) : Nat := 2 ^ (if fn = 0 then s.bar2Log2.1 else s.bar2Log2.2)

/-- Bytes of a function's BAR0 (Table 12.2). -/
def bar0Size (fn : Nat) : Nat := if fn = 0 then 0x400000 else 0x40000

/-- A faulted access advances IDENT_BAR2.FAULTS, which stops at its last value (Table 12.4). -/
def State.bar2Fault (s : State) : State := { s with ident := { s.ident with bar2Faults := satAdd s.ident.bar2Faults 1 } }

/-- Who accesses through BAR2, none where no household is set or the package is in Deep (R335, R373). -/
def State.bar2Actor (s : State) (fn : Nat) : Option Actor :=
  let h := (s.bar2Of fn).1
  if h = 0 ∨ s.isOpen h = false ∨ s.ident.power = .deep then none else some { household := h, job := none, host := true }

/-- BAR2_READ: the data, with EP where it carries poison; all ones where the access faults (R335). An offset past the BAR reaches no function. -/
def execBar2Read (fn off n : Nat) (s : State) : Res :=
  if s.answers = false ∨ s.fnLive fn = false ∨ s.bar2Size fn < off + n then .next s
  else
    match (s.bar2Actor fn).bind fun a => s.readAt a [] true (s.ownEa ((s.bar2Of fn).2 + off)) n with
    | some (d, t) => .next (t.emit (.readData d.1 d.2))
    | none => .next (s.bar2Fault.emit (.readData (List.replicate n 0xff) false))

/-- BAR2_WRITE: a write that faults is discarded (R335). -/
def execBar2Write (fn off : Nat) (data : List Byte) (s : State) : Res :=
  if s.answers = false ∨ s.fnLive fn = false ∨ s.bar2Size fn < off + data.length then .next s
  else
    match (s.bar2Actor fn).bind fun a => s.writeAt a .host [] true (s.ownEa ((s.bar2Of fn).2 + off)) data false with
    | some t => .next t
    | none => .next s.bar2Fault

/-! ## The SMBus target (R421) -/

/-- The part's 7-bit SMBus address: 0x58 and STRAP_SMB_ADDR. -/
def State.smbAddr (s : State) : Byte := 0x58 + s.part.strapSmbAddr.setWidth 8

/-- The blocks that the SMBus target gives out. -/
inductive SmbItem
  | identity
  | identState
  | dieTemps
  | level
  | logSticky
deriving DecidableEq, Repr, Inhabited

/-- The number of a block, by which `Config.smbCommand` gives its command code. -/
def SmbItem.num : SmbItem → Nat
  | .identity => 0
  | .identState => 1
  | .dieTemps => 2
  | .level => 3
  | .logSticky => 4

/-- The bytes of a block: the identity block of Table 12.4, IDENT_STATE, a byte in °C for each die, the governor level, die 0's LOG_STICKY. -/
def State.smbData (s : State) : SmbItem → List Byte
  | .identity => [0x00, 0x08, 0x10, 0x18, 0x20, 0x28].flatMap fun o => toBytes 8 (s.identReg o)
  | .identState => toBytes 8 (s.identReg 0x18)
  | .dieTemps => (List.range s.dieCount).map fun d => BitVec.ofNat 8 (s.gov.temps.getD d 0)
  | .level => [s.gov.level.setWidth 8]
  | .logSticky => toBytes 8 (s.logReg 0 0x008)

/-- One bit of the CRC-8 of SMBus, polynomial x^8 + x^2 + x + 1, most significant bit first. -/
def crc8Bit (c : Byte) : Byte := if c.getLsbD 7 then (c <<< 1) ^^^ 0x07 else c <<< 1

/-- The packet error code of the bytes of a transfer. -/
def pec (l : List Byte) : Byte := l.foldl (fun c b => crc8Bit (crc8Bit (crc8Bit (crc8Bit (crc8Bit (crc8Bit (crc8Bit (crc8Bit (c ^^^ b)))))))) ) 0

/-- What a block read at the part's address returns: the count, the data and the PEC over the whole transfer; none while the always-on block
does not run (R17). The part takes no other transfer (log entry 61). -/
def State.smbRead (s : State) (x : SmbItem) : Option (List Byte) :=
  let d := s.smbData x
  let sent := BitVec.ofNat 8 d.length :: d
  if s.clocked then some (sent ++ [pec ([s.smbAddr <<< 1, Config.smbCommand x.num, (s.smbAddr <<< 1) ||| 1] ++ sent)]) else none

/-! ## Registers -/

/-- Vectors of a function (Table 12.1). -/
def vectors (fn : Nat) : Nat := if fn = 0 then 17 else 2

/-- A doubleword of the MSI-X table written; a vector that is pending and is unmasked by it leaves (log entry 119). -/
def State.writeMsix (s : State) (fn i : Nat) (v : Word64) : State :=
  let t := { s with msix := s.msix.set (fn * 64 + i) v }
  if s.msixPend.contains (fn * 32 + i / 2) = true ∧ t.msixMasked fn (i / 2) = false then
    { t with msixPend := t.msixPend.erase (fn * 32 + i / 2) }.emit (.msix fn (i / 2))
  else t

/-- The pending-bit array of a function (Table 12.3). -/
def State.pendingBits (s : State) (fn : Nat) : Nat :=
  ((List.range (vectors fn)).map fun v => if s.msixPend.contains (fn * 32 + v) then 2 ^ v else 0).sum

/-- A doubleword of BAR0 as a function reads it (Table 12.3): the identity block; a postbox that it reaches, and zero for another one (R334); die
0's Logbook block for the PF and zero for a VF (R397, R403); the MSI-X table and its pending bits; the rest is RSVD. None where nothing
answers. -/
def State.readBar0 (s : State) (fn addr : Nat) : Option Nat :=
  if s.fnLive fn = false ∨ s.answers = false ∨ bar0Size fn ≤ addr then none
  else if addr < 0x10000 then some (s.identReg addr)
  else if addr < 0x20000 then
    let k := if fn = 0 then (addr - 0x10000) / 0x1000 else fn
    some (if s.reachesBox fn k = true ∧ (fn = 0 ∨ addr < 0x11000) then s.boxReg k (addr % 0x1000) else 0)
  else if addr < 0x30000 then some (if fn = 0 then s.logReg 0 (addr - 0x20000) else 0)
  else if addr < 0x30000 + 16 * vectors fn then some (s.msixWord fn ((addr - 0x30000) / 8)).toNat
  else if addr = 0x31000 then some (s.pendingBits fn)
  else some 0

/-- A register of BAR0 written by a function (Table 12.3): a postbox or the MSI-X table; every other register there is read-only or RSVD. -/
def State.writeBar0 (s : State) (fn addr : Nat) (v : Word64) : State :=
  if s.fnLive fn = false ∨ s.answers = false then s
  else if 0x10000 ≤ addr ∧ addr < 0x20000 then
    if fn = 0 then s.writeBox 0 ((addr - 0x10000) / 0x1000) (addr % 0x1000) v
    else if addr < 0x11000 then s.writeBox fn fn (addr % 0x1000) v
    else s
  else if 0x30000 ≤ addr ∧ addr < 0x30000 + 16 * vectors fn then s.writeMsix fn ((addr - 0x30000) / 8) v
  else s

/-- LANDING_STICKY cleared by writing ones (Table 11.9). -/
def LandingSticky.clear (k : LandingSticky) (v : Word64) : LandingSticky :=
  { uncorr := k.uncorr && !v.getLsbD 0, crc := k.crc && !v.getLsbD 1, replayLimit := k.replayLimit && !v.getLsbD 2
    retrainFail := k.retrainFail && !v.getLsbD 3, wiring := k.wiring && !v.getLsbD 4, failover := k.failover && !v.getLsbD 5 }

/-- A register of a die's MMIO written by a Reeve (Table 7.3); an access to a hamlet block wakes the hamlet (R370), and one to a slot that is always
unpowered changes nothing (R367). -/
def State.writeMmio (s : State) (d x : Nat) (v : Word64) : State :=
  if s.dieCount ≤ d then s
  else if 0x100000 ≤ x ∧ x < 0x220000 then
    let m : HamletRef := ⟨d, (x - 0x100000) / 0x10000⟩
    if s.unused m then s else (s.wake m).writeHamletReg m .reeve (x % 0x10000) v
  else if 0x800000 ≤ x ∧ x < 0x900000 then s.writeParishReg ⟨d, (x - 0x800000) / 0x40000⟩ (x % 0x40000) v
  else if 0x2000000 ≤ x ∧ x < 0x2003000 ∧ x % 0x1000 = 0x18 then
    s.modLanding (3 * d + (x - 0x2000000) / 0x1000) fun y => { y with sticky := y.sticky.clear v }
  else s

/-- A register of a die's MMIO as it reads (Table 7.3), none where the manual names no register. -/
def State.readMmio (s : State) (d x : Nat) : Option Nat :=
  if s.dieCount ≤ d then none
  else if 0x100000 ≤ x ∧ x < 0x220000 then some (s.hamletReg ⟨d, (x - 0x100000) / 0x10000⟩ (x % 0x10000))
  else if 0x800000 ≤ x ∧ x < 0x900000 then some (s.parishReg ⟨d, (x - 0x800000) / 0x40000⟩ (x % 0x40000))
  else if 0x2000000 ≤ x ∧ x < 0x2003000 then some ((s.landing (3 * d + (x - 0x2000000) / 0x1000)).reg (x % 0x1000))
  else if 0x2003000 ≤ x ∧ x < 0x2004000 then some (s.ferryReg d (x % 0x1000))
  else if 0x3000000 ≤ x ∧ x < 0x3006000 then some (s.ctlReg ⟨d, (x - 0x3000000) / 0x1000⟩ (x % 0x1000))
  else if 0x4000000 ≤ x ∧ x < 0x4010000 then some (s.logReg d (x - 0x4000000))
  else none

/-- REGISTER_WRITE: an aligned doubleword written by the host to BAR0 or by a Reeve to its die's MMIO (R10, R330, R333). Compiled code
writes registers with its global stores. -/
def execRegisterWrite (who : RegAgent) (addr : Nat) (v : Word64) (s : State) : Res :=
  if addr % 8 ≠ 0 then .next s
  else
    match who with
    | .host fn => .next (s.writeBar0 fn addr v)
    | .reeve d => if s.clocked = true ∧ s.asleep = false then .next (s.writeMmio d addr v) else .next s

/-! ## Virtual functions (R334, R351, R382) -/

/-- What the Ledger and the tables of serving hold of a household is lost. -/
def State.loseServing (s : State) (hh : Nat) : State :=
  { s with
    ledger := s.ledger.keep fun _ x => x.household != hh
    sessions := s.sessions.keep fun _ x => x.household != hh
    adapters := s.adapters.keep fun _ x => x.household != hh
    grammars := s.grammars.keep fun _ x => x.household != hh }

/-- The same of a Deep save area (log entry 43). -/
def DeepSave.without (x : DeepSave) (hh : Nat) : DeepSave :=
  { x with
    ledger := x.ledger.keep fun _ e => e.household != hh
    sessions := x.sessions.keep fun _ e => e.household != hh
    adapters := x.adapters.keep fun _ e => e.household != hh
    grammars := x.grammars.keep fun _ e => e.household != hh }

/-- A household is lost with its entries; its jobs are scrubbed, and its Press tables stay (Table 13.8). -/
def State.loseHousehold (s : State) (hh : Nat) : State :=
  let a := (s.jobsOfHousehold hh).foldl State.killNow (s.loseServing hh)
  let b := a.forgetHousehold hh
  { b with jobs := b.jobs.keep fun _ j => j.household != hh, deepSave := b.deepSave.map fun x => x.without hh }

/-- A postbox returns to its cold values; its notices and the command it took are gone (R359, R381). -/
def State.coldBox (s : State) (k : Nat) : State :=
  { s with postboxes := s.postboxes.del k, noticeQ := s.noticeQ.filter fun n => n.pb != k }

/-- The effects of a VF FLR (Table 13.8). -/
def State.loseVf (s : State) (n : Nat) : State :=
  (if s.vfHousehold n = 0 then s else s.loseHousehold (s.vfHousehold n)).coldBox n

/-- VF_FLR (R334, R382); it is absorbed by a reset that runs (R383). -/
def execVfFlr (n : Nat) (s : State) : Res :=
  if s.answers = true ∧ s.vfBox n = true ∧ s.resetStep ≠ .heldAtFive then .next (s.loseVf n) else .next s

/-- VF_ENABLE: the host sets the number of VFs, 0 where it clears VF Enable; a VF that goes loses what a VF FLR loses (R334, log entry
44). -/
def execVfEnable (n : Nat) (s : State) : Res :=
  if s.answers then
    .next { ((List.range (s.numVFs - n)).foldl (fun t i => t.loseVf (n + 1 + i)) s) with numVFs := n }
  else .next s

/-- PERST_N_DEASSERT: the PCIe controller answers and trains its link (R379). -/
def execPerstNDeassert (s : State) : Res := .next { s with pins := { s.pins with perst := true } }

end Sys2Proof.Machine
end

