-- ==== Sys2Proof/Machine/Flags.lean ====
section
/-! DEFINITION. The sticky floating-point flags of a Hand (R142, HFLAGS of Table 5.8). -/

namespace Sys2Proof.Machine

/-- HFLAGS [3:0] as NV, OF, UF, DZ from bit 0 up: the order in which Table 5.8 lists them (DEDUCED, log entry 17). -/
def FpFlags.bits (f : FpFlags) : BitVec 4 := BitVec.ofNat 4 (flag f.nv + 2 * flag f.of_ + 4 * flag f.uf + 8 * flag f.dz)

/-- Flags of a list of lane results. -/
def flagsOf (l : List FpFlags) : FpFlags := l.foldl FpFlags.or {}

/-- Sticky flags set. -/
def Hand.raiseFlags (x : Hand) (f : FpFlags) : Hand := { x with flags := x.flags ||| f.bits }

end Sys2Proof.Machine
end

