-- ==== Sys2Proof/Machine/HandVec.lean ====
section
/-! DEFINITION. Vector operations, conversions and ternarisation of a Hand (R130, R141 to R145, R149). -/

namespace Sys2Proof.Machine

/-- Lane width of a type code (Table 5.4): INT8, INT16, INT32, BF16, FP32. -/
def laneWidth (ty : Nat) : Nat :=
  match ty with
  | 0 => 8
  | 1 => 16
  | 2 => 32
  | 3 => 16
  | _ => 32

/-- Lane count of a type code. -/
def laneCount (ty : Nat) : Nat := 512 / laneWidth ty

/-- The lanes of a register. -/
def lanesOf (w : Nat) (v : Vec) : List Nat := (List.range (512 / w)).map fun i => lane w v i

/-- New lanes where the predicate bit is 1, the old ones elsewhere (R130). -/
def mergeLanes (w : Nat) (p : Word64) (old : Vec) (new : List Nat) : Vec :=
  ofLanes w ((List.range (512 / w)).map fun i => if p.getLsbD i then new.getD i 0 else lane w old i)

/-- A predicate from lane results: bits whose lane is not governed or does not exist are 0 (R141). -/
def packPred (p : Word64) (l : List Bool) : Word64 :=
  BitVec.ofNat 64 ((l.zipIdx.map fun x => if x.1 && p.getLsbD x.2 then 2 ^ x.2 else 0).foldl (· + ·) 0)

/-- An integer kept in the signed range of a lane. -/
def satLane (w : Nat) (x : Int) : Nat :=
  unsigned w (if (2 ^ (w - 1) : Nat) ≤ x then (2 ^ (w - 1) : Nat) - 1 else if x < -((2 ^ (w - 1) : Nat) : Int) then -((2 ^ (w - 1) : Nat) : Int) else x)

/-- One lane of a VI operation (Table 5.4): x from v[A], y from v[B], c the value of s[B]. -/
def viLane (op w x y c : Nat) : Nat :=
  match op with
  | 0 => (x + y) % 2 ^ w
  | 1 => (x + 2 ^ w - y) % 2 ^ w
  | 2 => satLane w (signed w x + signed w y)
  | 3 => satLane w (signed w x - signed w y)
  | 4 => (x * y) % 2 ^ w
  | 5 => if signed w y < signed w x then y else x
  | 6 => if signed w x < signed w y then y else x
  | 7 => x &&& y
  | 8 => x ||| y
  | 9 => x ^^^ y
  | 10 => (x <<< (c % w)) % 2 ^ w
  | _ => unsigned w (signed w x / (2 ^ (c % w) : Nat))

/-- VI (R141). -/
def viResult (op ty p b a d : Nat) (x : Hand) : Hand :=
  let w := laneWidth ty
  let la := lanesOf w (x.v a)
  let lb := lanesOf w (x.v b)
  if op = 12 then x.setP d (packPred (x.p p) (List.zipWith (fun y z => y == z) la lb))
  else if op = 13 then x.setP d (packPred (x.p p) (List.zipWith (fun y z => decide (signed w y < signed w z)) la lb))
  else if op = 14 then
    x.setV d (ofLanes w ((List.range (512 / w)).map fun i => if (x.p p).getLsbD i then la.getD i 0 else lb.getD i 0))
  else x.setV d (mergeLanes w (x.p p) (x.v d) (List.zipWith (fun y z => viLane op w y z ((x.s b).toNat % 64)) la lb))

def execVi (h : HandRef) (s : State) : Res :=
  match s.handOp h with
  | some (.vi op ty p b a d) => .next (s.retire h fun x => (viResult op ty p b a d x).advance)
  | _ => .next s

/-- The format of a VF type code: 3 BF16, 4 FP32. -/
def fmtOf (ty : Nat) : Fmt := if ty = 3 then .bf16 else .fp32

/-- One lane of a VF operation (Table 5.4): y from v[A], z from v[B], c the lane of v[D]. -/
def vfLane (op : Nat) (f : Fmt) (y z c : Nat) : FpRes :=
  match op with
  | 0 => fpAdd f y z
  | 1 => fpSub f y z
  | 2 => fpMul f y z
  | 3 => fpFma f y z c
  | 4 => fpFms f y z c
  | 5 => fpMin f y z
  | 6 => fpMax f y z
  | 7 => fpAbs f y
  | 8 => fpNeg f y
  | 9 => fpRcp f y
  | 10 => fpRsq f y
  | 11 => fpExp2 f y
  | _ => fpLog2 f y

/-- The flags of the lanes that a predicate governs (R142). -/
def governed (p : Word64) (l : List FpFlags) : FpFlags :=
  flagsOf (l.zipIdx.map fun x => if p.getLsbD x.2 then x.1 else {})

/-- VF (R141, R142). -/
def vfResult (op ty p b a d : Nat) (x : Hand) : Hand :=
  let f := fmtOf ty
  let w := laneWidth ty
  let idx := List.range (512 / w)
  if op = 13 ∨ op = 14 then
    let r := idx.map fun i => (if op = 13 then fpLt else fpEq) f (lane w (x.v a) i) (lane w (x.v b) i)
    (x.setP d (packPred (x.p p) (r.map Prod.fst))).raiseFlags (governed (x.p p) (r.map Prod.snd))
  else
    let r := idx.map fun i => vfLane op f (lane w (x.v a) i) (lane w (x.v b) i) (lane w (x.v d) i)
    (x.setV d (mergeLanes w (x.p p) (x.v d) (r.map (·.bits)))).raiseFlags (governed (x.p p) (r.map (·.flags)))

def execVf (h : HandRef) (s : State) : Res :=
  match s.handOp h with
  | some (.vf op ty p b a d) => .next (s.retire h fun x => (vfResult op ty p b a d x).advance)
  | _ => .next s

/-- VBCAST, VEXT, VINS, VPERM and VMOV (Table 5.5). -/
def vxResult (op ty b a d : Nat) (x : Hand) : Hand :=
  let w := laneWidth ty
  let n := laneCount ty
  let i := (x.s b).toNat % n
  match op with
  | 0 => x.setV d (ofLanes w (List.replicate n ((x.s a).toNat % 2 ^ w)))
  | 1 =>
    let e := lane w (x.v a) i
    x.setS d (if ty ≤ 2 then BitVec.ofInt 64 (signed w e) else BitVec.ofNat 64 e)
  | 2 => x.setV d (ofLanes w ((List.range n).map fun j => if j = i then (x.s a).toNat % 2 ^ w else lane w (x.v d) j))
  | 6 => x.setV d (ofLanes 8 ((List.range 64).map fun j => lane 8 (x.v a) (lane 8 (x.v b) j % 64)))
  | _ => x.setV d (x.v a)

def execVx (h : HandRef) (s : State) : Res :=
  match s.handOp h with
  | some (.vx op ty b a d) => .next (s.retire h fun x => (vxResult op ty b a d x).advance)
  | _ => .next s

/-- One level of the reduction tree: element j from elements 2 j and 2 j + 1 (R143). -/
def pairUp {α : Type} (f : α → α → α) : List α → List α
  | a :: b :: t => f a b :: pairUp f t
  | l => l

/-- The fixed tree of R143 over a power of two of elements. -/
def treeReduce {α : Type} (f : α → α → α) : Nat → List α → List α
  | 0, l => l
  | n + 1, l => treeReduce f n (pairUp f l)

/-- VRSUM, VRMAX, VRMIN of two integer lanes. -/
def reduceInt (op w y z : Nat) : Nat :=
  match op with
  | 3 => (y + z) % 2 ^ w
  | 4 => if signed w y < signed w z then z else y
  | _ => if signed w z < signed w y then z else y

/-- The same for two FP lanes; the flags of all levels are gathered. -/
def reduceFp (op : Nat) (f : Fmt) (y z : FpRes) : FpRes :=
  let r := match op with
    | 3 => fpAdd f y.bits z.bits
    | 4 => fpMax f y.bits z.bits
    | _ => fpMin f y.bits z.bits
  { r with flags := (y.flags.or z.flags).or r.flags }

/-- VRSUM, VRMAX and VRMIN: lane 0 of v[D] is the reduction, the other lanes are 0 (R143). -/
def vrsumResult (op ty a d : Nat) (x : Hand) : Hand :=
  let w := laneWidth ty
  if ty ≤ 2 then x.setV d (ofLanes w ((treeReduce (reduceInt op w) 6 (lanesOf w (x.v a))).take 1))
  else
    let r := ((treeReduce (reduceFp op (fmtOf ty)) 5 ((lanesOf w (x.v a)).map fun b => ⟨b, {}⟩)).take 1).headD ⟨0, {}⟩
    (x.setV d (ofLanes w [r.bits])).raiseFlags r.flags

def execVrsum (h : HandRef) (s : State) : Res :=
  match s.handOp h with
  | some (.vrsum op ty a d) => .next (s.retire h fun x => (vrsumResult op ty a d x).advance)
  | _ => .next s

/-! Conversions (Table 5.6). -/

/-- The lanes of `n` consecutive registers. -/
def groupLanes (x : Hand) (w a n : Nat) : List Nat := ((List.range n).map fun i => lanesOf w (x.v (a + i))).flatten

/-- FP32 to an integer in a range; NaN gives 0 and NV. -/
def f32ToInt (r : Rounding) (lo hi : Int) (w : Nat) : Int × FpFlags :=
  match decodeFp .fp32 w with
  | .nan _ => (0, { nv := true })
  | .inf n => (if n then lo else hi, {})
  | .fin n m e => (max lo (min hi (roundInt r (signedMag n m) e)), {})

/-- An integer as FP32 (R60). -/
def intToF32 (i : Int) : Nat := (roundDyadic .fp32 .nearest i 0 false).bits

/-- A 16-bit random lane of consecutive registers. -/
def randomLane (x : Hand) (b j : Nat) : Nat := lane 16 (x.v (b + j / 32)) (j % 32)

/-- Results of lane width `w` written with the flags of every lane. -/
def Hand.putLanes (x : Hand) (d w : Nat) (l : List (Nat × FpFlags)) : Hand :=
  (x.setV d (ofLanes w (l.map Prod.fst))).raiseFlags (flagsOf (l.map Prod.snd))

/-- An LNS8 conversion result as a lane. -/
def lnsLane (r : Byte × Bool × Bool) : Nat × FpFlags := (r.1.toNat, { nv := r.2.2 })

/-- The conversions of Table 5.6 other than TERN, PACKT and UNPACKT. -/
def vcResult (fn b a d : Nat) (x : Hand) : Hand :=
  let bias : Int := signed 8 ((x.s b).toNat % 256)
  let exact := fun (r : FpRes) => (r.bits, r.flags)
  match fn with
  | 0x00 => x.putLanes d 32 (((lanesOf 16 (x.v a)).take 16).map fun w => exact (bf16ToF32 w))
  | 0x01 => x.putLanes d 32 (((lanesOf 16 (x.v a)).drop 16).map fun w => exact (bf16ToF32 w))
  | 0x02 => x.putLanes d 16 ((groupLanes x 32 a 2).map fun w => exact (f32ToBf16 .nearest w))
  | 0x03 =>
    x.putLanes d 16 ((groupLanes x 32 a 2).zipIdx.map fun w => exact (f32ToBf16 (.stochastic (randomLane x b w.2)) w.1))
  | 0x04 => x.putLanes d 32 ((lanesOf 32 (x.v a)).map fun w => (intToF32 (signed 32 w), {}))
  | 0x05 =>
    x.putLanes d 32 ((lanesOf 32 (x.v a)).map fun w =>
      let r := f32ToInt .nearest (-(2 ^ 31)) (2 ^ 31 - 1) w
      (unsigned 32 r.1, r.2))
  | 0x06 => x.putLanes d 32 ((((lanesOf 8 (x.v a)).drop (16 * b)).take 16).map fun w => (unsigned 32 (signed 8 w), {}))
  | 0x07 =>
    x.putLanes d 8 ((groupLanes x 32 a 4).map fun w =>
      let r := f32ToInt .nearest (-127) 127 w
      (unsigned 8 r.1, r.2))
  | 0x08 =>
    x.putLanes d 8 ((groupLanes x 32 a 4).zipIdx.map fun w =>
      let r := f32ToInt (.stochastic (randomLane x b w.2)) (-127) 127 w.1
      (unsigned 8 r.1, r.2))
  | 0x09 =>
    x.putLanes d 4 ((lanesOf 8 (x.v a) ++ lanesOf 8 (x.v b)).map fun w => (unsigned 4 (max (-7) (min 7 (signed 8 w))), {}))
  | 0x0a => x.putLanes d 8 (((lanesOf 4 (x.v a)).take 64).map fun w => (unsigned 8 (signed 4 w), {}))
  | 0x0b => x.putLanes d 8 (((lanesOf 4 (x.v a)).drop 64).map fun w => (unsigned 8 (signed 4 w), {}))
  | 0x0c => x.putLanes d 8 ((groupLanes x 32 a 4).map fun w => lnsLane (valToLns8 (decodeFp .fp32 w) bias))
  | 0x0d => x.putLanes d 8 ((groupLanes x 16 a 2).map fun w => lnsLane (valToLns8 (decodeFp .bf16 w) bias))
  | 0x0e => x.putLanes d 16 (((lanesOf 8 (x.v a)).take 32).map fun w => exact (lns8ToBf16 (BitVec.ofNat 8 w) bias))
  | 0x0f => x.putLanes d 16 (((lanesOf 8 (x.v a)).drop 32).map fun w => exact (lns8ToBf16 (BitVec.ofNat 8 w) bias))
  | 0x10 => x.putLanes d 16 ((groupLanes x 32 a 2).map fun w => f32ToE8m3 w)
  | _ => x.putLanes d 32 (((lanesOf 16 (x.v a)).take 16).map fun w => exact (e8m3ToF32 w))

def execVc (h : HandRef) (s : State) : Res :=
  match s.handOp h with
  | some (.vc fn b a d) => .next (s.retire h fun x => (vcResult fn b a d x).advance)
  | _ => .next s

/-- A trit as an INT8 lane. -/
def Trit.lane (t : Trit) : Nat := unsigned 8 t.toInt

/-- The sign of an INT8 lane as a trit (R145). -/
def tritOfLane (w : Nat) : Trit := if w % 256 = 0 then .zero else if bitAt w 7 then .neg else .pos

/-- One element of TERN: +1 where x > t, otherwise -1 where x < -t, otherwise 0; a NaN gives 0 and NV (R145). -/
def ternElement (t x : FpVal) : Nat × FpFlags :=
  if t.isNan || x.isNan then (Trit.zero.lane, { nv := true })
  else if t.lt x then (Trit.pos.lane, {})
  else if x.lt t.negate then (Trit.neg.lane, {})
  else (Trit.zero.lane, {})

/-- TERN (R145). -/
def ternResult (b a d : Nat) (x : Hand) : Hand :=
  let t := decodeFp .fp32 ((x.s b).toNat % 2 ^ 32)
  x.putLanes d 8 ((groupLanes x 16 a 2).map fun w => ternElement t (decodeFp .bf16 w))

def execTern (h : HandRef) (s : State) : Res :=
  match s.handOp h with
  | some (.tern b a d) => .next (s.retire h fun x => (ternResult b a d x).advance)
  | _ => .next s

/-- PACKT writes the packed column of 256 lanes into bytes 0-51 and zero into the rest (R145). -/
def packtResult (a d : Nat) (x : Hand) : Hand :=
  x.setV d (vecOf (packColumn ((groupLanes x 8 a 4).map tritOfLane)))

def execPackt (h : HandRef) (s : State) : Res :=
  match s.handOp h with
  | some (.packt a d) => .next (s.retire h fun x => (packtResult a d x).advance)
  | _ => .next s

/-- UNPACKT reverses PACKT; a byte that breaks R41 or R42 unpacks as zero trits and sets NV (R145). -/
def unpacktResult (a d : Nat) (x : Hand) : Hand :=
  let r := unpackColumn ((vecBytes (x.v a)).take 52)
  let l := r.1.map Trit.lane
  ((List.range 4).foldl (fun y i => y.setV (d + i) (ofLanes 8 ((l.drop (64 * i)).take 64))) x).raiseFlags { nv := r.2 }

def execUnpackt (h : HandRef) (s : State) : Res :=
  match s.handOp h with
  | some (.unpackt a d) => .next (s.retire h fun x => (unpacktResult a d x).advance)
  | _ => .next s

/-- A free vector register value of eight free doublewords (log entry 7). -/
def State.freshVec (s : State) : Vec × State :=
  (ofLanes 64 ((List.range 8).map fun i => (Config.freeWord (s.freeCtr + i)).toNat), { s with freeCtr := s.freeCtr + 8 })

/-- LOT: four evaluations with element indices s[A] + e, tile id s[B][31:0], stream id s[B][63:32] and seed HSEED (R149). -/
def lotResult (base : Word64) (a b d : Nat) (x : Hand) : Hand :=
  let tile := fieldOf (x.s b) 0 32
  let stream := fieldOf (x.s b) 32 32
  x.setV d (ofLanes 128 ((List.range 4).map fun e => lotValue base x.seed (x.s a + BitVec.ofNat 64 e).toNat tile stream))

/-- LOT (R149); a stream of the firmware gives an unpredictable result (R65, R404). -/
def execLot (h : HandRef) (s : State) : Res :=
  match s.handOp h with
  | some (.lot a b d) =>
    if firmwareStream (fieldOf ((s.hand h).s b) 32 32) then
      .next (s.freshVec.2.retire h fun x => (x.setV d s.freshVec.1).advance)
    else .next (s.retire h fun x => (lotResult s.settings.lotSeed a b d x).advance)
  | _ => .next s

end Sys2Proof.Machine
end

