-- ==== Sys2Proof/Machine/Power.lean ====
section
/-! DEFINITION. The power governor (R375 to R377), the switchable domains (R366, R367), Doze (R371), the exit from
Deep (R373, R374) and the heartbeat (R337). -/

namespace Sys2Proof.Machine

/-! ## The governor -/

/-- Whether the governor runs: the fast clocks and the Reeves do. -/
def State.governed (s : State) : Bool := s.clocked && !s.asleep && decide (s.ident.state ≠ .boot)

/-- The mean input power of the last 10 ms against a share of the cap in percent: whether it is above it. -/
def Governor.above (g : Governor) (cap percent : Nat) : Bool := decide (cap * percent * g.readings.length < 100 * g.readings.foldl (· + ·) 0)

/-- Whether the mean is below 90 % of the cap. -/
def Governor.below90 (g : Governor) (cap : Nat) : Bool := decide (100 * g.readings.foldl (· + ·) 0 < 90 * cap * g.readings.length)

/-- The level asked for after a reading: up by one while a condition holds, down by one after 10 ms below 90 % of the cap (R376). -/
def Governor.judge (g : Governor) (cap : Nat) (hot : Bool) (now : Word64) : Governor :=
  if hot || g.above cap 100 then
    { g with
      target := if g.target = 7 then 7 else g.target + 1, lowTicks := 0
      sevenSince := if g.level = 7 then some (g.sevenSince.getD now) else none }
  else
    let h := { g with sevenSince := none, reported := false }
    if g.below90 cap then
      (if 9 ≤ g.lowTicks then { h with target := if g.target = 0 then 0 else g.target - 1, lowTicks := 0 }
      else { h with lowTicks := g.lowTicks + 1 })
    else { h with lowTicks := 0 }

/-- A record of the governor; DETAIL reports the level (R377, log entry 120). -/
def State.govEvent (s : State) (cls severity die event : Nat) (place : Nat := 0) : State :=
  s.logEvent { cls := cls, severity := severity, die := die, place := place, event := event, detail := s.gov.level.toNat }

/-- What comes from the regulators whose addresses the part knows (R418). -/
def State.regReads (s : State) (l : List RegRead) : List RegRead := l.filter fun r => s.rails.regs.any fun x => x.rail == r.rail

/-- The input power in W, where there is a regulator and every one has answered (R418). -/
def inputPower (l : List RegRead) : Option Nat :=
  if l.isEmpty || l.any fun r => r.read.isNone then none else some (l.foldl (fun n r => n + (r.read.map fun v => v.2.2).getD 0) 0)

/-- Whether a die sensor reads above 100 °C (R376). -/
def hotAt (temps : List Nat) (d : Nat) : Bool := decide (100 < temps.getD d 0)

/-- GOVERNOR_TICK: the power and the temperatures are read. A die that rises above 100 °C is recorded (R376, Table 14.3), a regulator that does not
answer gives no reading and is recorded with its rail (R418, Table 14.3), and a rail found outside its commanded window is FATAL (R405). -/
def execGovernorTick (regs : List RegRead) (temps : List Nat) (x : RailRead) (s0 : State) : Res :=
  let s := if x.alertHigh then { s0 with pins := { s0.pins with pmbAlert := true } } else s0
  if s.governed = false then .next s
  else
    let l := s.regReads regs
    let g := match inputPower l with
      | some w => { s.gov with readings := (s.gov.readings ++ [w]).drop (s.gov.readings.length - 9) }
      | none => s.gov
    let dies := (List.range s.dieCount).filter (hotAt temps)
    let t := { s with gov := { (g.judge s.cap (!dies.isEmpty || x.siteHot) s.clock) with regs := l, temps := temps } }
    let u := (dies.filter fun d => !hotAt s.gov.temps d).foldl (fun v d => v.govEvent 7 0 d 1) t
    let v := (l.filter fun r => r.read.isNone).foldl (fun w r => w.govEvent 8 0 0 2 r.rail) u
    .next (if x.railOut then v.govEvent 13 3 0 2 else v)

/-- VDD_CORE in mV that a die's AVSBus commands at a level: 650 to 850 (R376, Table 15.3); which value is open. -/
def coreVolt (d level : Nat) : Nat := 650 + Config.coreMv d level % 201

/-- The core voltages follow the level, once the part has read a board description (R376, R418). -/
def State.setVolts (s : State) : State :=
  if s.rails.described = false then s
  else { s with rails := { s.rails with coreMv := (List.range s.dieCount).foldl (fun t d => t.set d (coreVolt d s.gov.level.toNat)) {} } }

/-- LEVEL_CHANGE: the level that the governor asked for is taken; running STRICT jobs have lapsed (R264, R377). -/
def execLevelChange (s : State) : Res :=
  if s.governed = false ∨ s.gov.target = s.gov.level then .next s
  else
    .next <| State.setVolts { s with
      gov := { s.gov with level := s.gov.target }
      jobs := s.jobs.mapV fun _ j => if j.state = .running ∧ j.mode = 2 then { j with lapsed := true } else j }

/-- AOCLK ticks in 100 ms. -/
def hundredMs : Nat := 2500000

/-- GOVERNOR_LIMIT: a condition that still holds 100 ms after level 7 is recorded once, and with it a mean that exceeds the cap (R376, Table
14.3). -/
def execGovernorLimit (s : State) : Res :=
  match s.gov.sevenSince with
  | some t =>
    if s.governed = true ∧ s.gov.reported = false ∧ t.toNat + hundredMs ≤ s.clock.toNat then
      let u := State.govEvent { s with gov := { s.gov with reported := true } } 7 0 0 2
      .next (if s.gov.above s.cap 100 then u.govEvent 8 0 0 3 else u)
    else .next s
  | none => .next s

/-! ## Doze (R371) -/

/-- Whether the package has been without activity for 1 ms (R371). -/
def State.quietMs (s : State) : Bool :=
  let last := s.hamlets.cells.foldl (fun n m => max n m.2.idleSince) s.activity
  decide (last + 25000 * mclkPerTick s.part.grade s.gov.level ≤ s.mclk)

/-- Whether switchable domain `n` of die `d` is powered (R366, R367, R372): hamlet slots, Granary halves, parish logic and NoC quadrants,
controllers, Landings, edges, the PCIe controller, the Sieve and the Reeve's fast domain, in the order of Table 13.2. -/
def State.domainOn (s : State) (d n : Nat) : Bool :=
  if s.clocked = false ∨ s.dieCount ≤ d ∨ 50 ≤ n then false
  else if s.asleep then n == 47 && d == 0
  else if n < 18 then decide ((s.hamlet ⟨d, n⟩).power ≠ .off)
  else if n < 34 then true
  else if n < 40 then !(s.die d).noLpddr && decide ((s.ctl ⟨d, n - 34⟩).rate ≠ 3)
  else if n < 43 then decide ((s.landing (3 * d + (n - 40))).state ≠ .disabled)
  else if n < 47 then (neighbour s.dieCount d (n - 43)).isSome
  else n != 47 || d == 0

/-- DOZE_ENTRY: after 1 ms without activity, or as soon as nothing works where POWER_STATE 1 has forced it (Table 13.4). -/
def execDozeEntry (s : State) : Res :=
  if s.clocked = true ∧ s.ident.power = .run ∧ s.settings.dozeBarred = false ∧ s.quiet = true ∧ (s.settings.dozeForced = true ∨ s.quietMs = true) then
    .next { s with ident := { s.ident with power := .doze } }
  else .next s

/-- DOZE_EXIT: there is activity (Table 13.4). -/
def execDozeExit (s : State) : Res := if s.ident.power = .doze then .next s.toRun else .next s

/-! ## Deep (R373, R374) -/

/-- A Landing as the wake from Deep or a reset finds it: one with a role retrains from saved results (R329, R330, Table 11.3). -/
def Landing.rewake (x : Landing) : Landing := { x with state := if x.role = 0 then .disabled else .retrain, failures := 0 }

/-- The saved state returns; without a copy of the save area whose CRC holds the serving state is lost and the loss recorded (R374). -/
def State.restore (s : State) (x : DeepSave) (good : Nat) : State :=
  let t := { s with pressSlots := x.pressSlots, settings := x.settings, deepSave := none }
  if good = 0 then t.logEvent { cls := 11, severity := 0, die := 0, event := 3 }
  else
    let u := { t with ledger := x.ledger, nextSeq := x.nextSeq, sessions := x.sessions, adapters := x.adapters, grammars := x.grammars, sieves := x.sieves }
    if good = 1 then u.logEvent { cls := 1, severity := 1, die := 0, place := 27, event := 3 } else u

/-- Entries whose EXPIRY has passed end EXPIRED (R373). -/
def State.expireAll (s : State) : State :=
  (s.entriesWhere fun x => x.state == .paused && decide (x.expiry.toNat ≤ s.clock.toNat)).foldl
    (fun t e => (t.endEntry e finExpired false).copyEnded e) s

/-- DEEP_EXIT, the steps of Table 13.5: after a doorbell the clocks run, the Landings begin to retrain and the saved state returns, with `good` of
the two copies of the save area whose CRC holds (R374); a poisoned copy is repaired from the other, and both poisoned are FATAL (R392). Once no
Landing retrains, ACTIVE or FAILED, the package is in Run. -/
def execDeepExit (good : Nat) (s : State) : Res :=
  if s.ident.power ≠ .deep ∨ s.deepWake = false ∨ s.clocked = false then .next s
  else
    match s.deepSave with
    | some x =>
      let t := s.readArea 0 .deepSave
      let lost := (s.firmCopies 0 .deepSave).all fun a => s.blkPoison.contains (a / 2048)
      .next (State.restore { t with landings := t.landings.mapV fun _ y => y.rewake } x (if lost then 0 else good))
    | none =>
      if s.landings.cells.any fun y => y.2.state == .retrain then .next s
      else .next (State.toRun { s with deepWake := false }).expireAll

/-- HEARTBEAT: advances every 1 ms while READY (Table 12.4). -/
def execHeartbeat (s : State) : Res :=
  if s.clocked = true ∧ s.ident.state = .ready then .next { s with ident := { s.ident with heartbeat := s.ident.heartbeat + 1 } } else .next s

end Sys2Proof.Machine
end

