-- ==== Sys2Proof/Machine/Reset.lean ====
section
/-! DEFINITION. Boot and the reset classes (R26, R205, R378 to R384, R392, R421). A sequence is one step, but for a warm reset that the
low pin holds at step 5. -/

namespace Sys2Proof.Machine

/-! ## What a reset leaves (Table 13.8) -/

/-- A hamlet slot after its scrub: Off and empty, with RETIRE_PENDING, the retirement and a fence that is never lowered (R100, R187). -/
def Hamlet.afterReset (m : Hamlet) : Hamlet :=
  { m.vacated with wakes := 0, fence := if m.retired && m.fence != .lowered then m.fence else .lowered }

/-- A Landing in a reset: its configuration, rate and peer are kept, its counts, buffers and numbers are not (Table 11.9, R330). It is DISABLED
until it retrains (log entry 135). -/
def Landing.afterReset (x : Landing) : Landing :=
  { role := x.role, dir := x.dir, index := x.index, profile := x.profile, rateCap := x.rateCap, rate := x.rate, peer := x.peer
    peerDie := x.peerDie, peerPort := x.peerPort, saved := x.saved }

/-- A die after a reset: Logbook, lane maps and TAP are kept, flows and requests start anew (R330). -/
def Die.afterReset (x : Die) : Die := { log := x.log, edges := x.edges, noLpddr := x.noLpddr, tap := x.tap, tripped := x.tripped }

/-- A controller after a reset: its training is kept (Table 7.11). -/
def Controller.afterReset (x : Controller) : Controller :=
  { rate := x.rate, density := x.density, lastReadThrough := x.lastReadThrough, resetN := x.resetN }

/-- Every job that runs or is loaded stops, and every hamlet and scratch granule that a job held is fenced and scrubbed (R381 steps 1 and 4);
the other slots are Off and hold nothing. -/
def State.scrubJobs (s : State) : State :=
  let a := (s.jobs.cells.filter fun c => c.2.live).foldl (fun t c => t.stopJob c.1 .killed) s
  (a.jobs.cells.filter fun c => c.2.isEnding).foldl (fun t c => t.scrubJob c.1) a

/-- Steps 1 to 5 of R381: jobs stop and are scrubbed, caches are written back, commands that were taken write no completion, and every fast
domain is reset. On-chip memory is lost but for what a defective bank behind a fence does not let go; retired granules stay retired. -/
def State.resetDomains (s : State) : State :=
  let a := s.scrubJobs
  State.setVolts { a with
    ident := { a.ident with state := .boot, power := .run }
    mem := a.mem.filter fun c => decide (c.1 < sramBase) || a.fenced c.1
    sramPoison := [], gov := {}, activity := a.mclk
    hamlets := a.hamlets.mapV fun _ m => m.afterReset
    parishes := a.parishes.mapV fun _ p => { retired := p.retired }
    controllers := a.controllers.mapV fun _ x => x.afterReset
    landings := a.landings.mapV fun _ x => x.afterReset
    stranded := [], cut := []
    dies := a.dies.mapV fun _ x => x.afterReset
    jobs := {}, pressPend := [], noticeQ := [], bellFlight := [], reload := []
    postboxes := a.postboxes.mapV fun _ x => { x with running := false, cur := none, cplQ := [], held := [] } }

/-- Step 8 of R381 with the state that step 9 shows: the rows of Table 13.8 that read "lost", "cold" and "default", and Landings that retrain.
LPDDR, the admission journal, the Logbook, training results and the village clock are kept. -/
def State.resetItems (a : State) (st : IdentState) : State :=
  { a with
    ident := { a.ident with state := st, power := .run, heartbeat := 0, bar2Faults := 0 }
    settings := {}
    landings := a.landings.mapV fun _ x => x.rewake
    pressSlots := {}, keySlots := {}, households := {}, sessions := {}, ledger := {}, nextSeq := 0
    adapters := {}, grammars := {}, sieves := {}, tensors := a.tensors.mapV fun _ t => { t with maps := [] }
    postboxes := {}, numVFs := 0, bar2Household := 0, bar2Base := 0, msix := {}, msixPend := [], deepSave := none, deepWake := false }

/-- The state that a PCIe hot reset and a PF FLR leave: steps 1 to 5 and 8 to 9 of R381. -/
def State.clearFor (s : State) (st : IdentState) : State := s.resetDomains.resetItems st

/-- IDENT_STATE after a reset that does not clear UNDEFINED (R392) and cannot mend a failed boot. -/
def State.stateAfter (s : State) : IdentState :=
  match s.ident.state with
  | .undefined => .undefined
  | .failed => .failed
  | _ => .ready

/-- Whether a reset of this strength acts now: the part is booted and no stronger sequence is held (R383). -/
def State.resettable (s : State) : Bool := s.clocked && decide (s.ident.state ≠ .boot) && decide (s.resetStep ≠ .heldAtFive)

/-- The errors that the PCIe link has reported are recorded while the Logbook runs: class 6, event 1 for a correctable and event 2 for an
uncorrectable one (R386, Table 14.3); their severities are the model's (log entry 97). -/
def State.logAer (s : State) (aer : List Bool) : State :=
  if s.clocked = false ∨ s.ident.state = .boot then s
  else
    aer.foldl (fun t bad => t.logEvent { cls := 6, severity := if bad then 2 else 1, die := 0, event := if bad then 2 else 1 }) s

/-- PCIE_HOT_RESET: steps 1 to 5 and 8 to 9 (R381); a link down is recorded (Table 14.3), and so is what AER reported before. -/
def execPcieHotReset (x : HotReset) (s0 : State) : Res :=
  let s := s0.logAer x.aer
  let t := if x.why = .perst then { s with pins := { s.pins with perst := false } } else s
  if s.resettable = false then .next t
  else
    let u := t.clearFor s.stateAfter
    .next (if x.why = .linkDown then u.logEvent { cls := 6, severity := 0, die := 0, event := 3 } else u)

/-- PF_FLR: as a PCIe hot reset; the link stays up and VF Enable is cleared (R381). -/
def execPfFlr (s : State) : Res := if s.resettable then .next (s.clearFor s.stateAfter) else .next s

/-! ## Warm reset (R381) -/

/-- What a warm reset leaves of an edge: the lanes that retrains have taken out and those marked failing are kept with the lane maps (Table
13.8). A lost edge is trained fully from the start (R389), and its lanes are all in service again (log entry 133). -/
def Edge.retrained (x : Edge) : Edge := if x.lost then {} else { failing := x.failing, failed := x.failed }

/-- Steps 1 to 5 of a warm reset; a failed boot stays FAILED, and the edges are trained again. -/
def State.warmFirst (s : State) : State :=
  let t := s.resetDomains
  { t with
    ident := { t.ident with state := if s.ident.state = .failed then .failed else .boot }
    dies := t.dies.mapV fun _ x => { x with edges := x.edges.mapV fun _ e => e.retrained } }

/-- Records of what the self-test repaired (Table 14.3). -/
def State.logRepair (s : State) (die : Nat) : State := s.logEvent { cls := 9, severity := 0, die := die, event := 3 }

/-- The bytes of a region have no defect any more, and none of them keeps a value. -/
def State.mended (s : State) (a n : Nat) : State :=
  { s.zeroSram a n with defects := s.defects.filter fun c => !(decide (a ≤ c.1) && decide (c.1 < a + n)) }

/-- A granule after the bank self-test: one that the spare bank mends is recorded, and returns where it was retired; one that it does not mend
is retired, or stays so (R26, R27, R188, log entry 114). -/
def State.testGranule (o : BankTest) (s : State) (c : ParishRef × Nat) : State :=
  let was := (s.parish c.1).retired.getLsbD c.2
  if o.badGranules.contains c then (if was then s else s.retireGranule c.1 c.2 0 0)
  else if was || o.mendedGranules.contains c then
    ((s.mended (granuleAddr c.1.die (granuleNo c.1 c.2) 0) granuleBytes).modParish c.1 fun x =>
      { x with retired := x.retired &&& ~~~(BitVec.ofNat 40 (2 ^ c.2)) }).logRepair c.1.die
  else s

/-- A slot that the self-test cannot repair is retired (R26, R28, R31). -/
def State.bootSlot (s : State) (m : HamletRef) : State :=
  (s.modHamlet m fun x => { x with retired := true }).logEvent { cls := 3, severity := 2, die := m.die, place := m.slot, event := 5 }

/-- A slot after the bank self-test: one whose scratchpad bank the spare does not mend is retired, and one that it mends is recorded (R26,
R27). A slot that a failed scrub has retired stays behind its fence (R187). -/
def State.testPad (o : BankTest) (s : State) (m : HamletRef) : State :=
  if (s.hamlet m).retired then s
  else if o.badSlots.contains m then s.bootSlot m
  else if o.mendedSlots.contains m then (s.mended (sramAddr m 0) padBytes).logRepair m.die
  else s

/-- The self-test of scratchpad and Granary banks (R26, R381 step 6). -/
def State.testBanks (s : State) (o : BankTest) : State :=
  let granules := (List.range (4 * s.dieCount)).flatMap fun i => (List.range 40).filterMap fun g =>
    let c : ParishRef × Nat := (⟨i / 4, i % 4⟩, g)
    if (s.parish c.1).retired.getLsbD g || o.badGranules.contains c || o.mendedGranules.contains c then some c else none
  ((o.badSlots ++ o.mendedSlots).filter fun m => decide (m.die < s.dieCount)).foldl (State.testPad o) (granules.foldl (State.testGranule o) s)

/-- The firmware is loaded from the first copy that passes; a failed copy and the failure of both are recorded (R378, Table 14.3). -/
def State.loadCopies (s : State) (a b : Bool) : State :=
  if a then s
  else
    let t := s.logEvent { cls := 9, severity := 0, die := 0, event := 1 }
    if b then t else t.logEvent { cls := 9, severity := 2, die := 0, event := 2 }

/-- Steps 6 to 9. In TEST the part stays UNDEFINED (R413). -/
def State.warmRest (s : State) (o : WarmOutcome) : State :=
  let t := (s.testBanks o.banks).resetItems s.ident.state
  let u := if o.signatureOk then t else t.loadCopies o.copyA o.copyB
  let st : IdentState :=
    if s.ident.state = .failed ∨ (o.signatureOk = false ∧ o.copyA = false ∧ o.copyB = false) then .failed
    else if s.lifecycle = .test then .undefined else .ready
  { u with ident := { u.ident with state := st }, resetStep := .none }

/-- WARM_RESET_SEQUENCE: what WARM_RESET asked for (R350, R381). -/
def execWarmResetSequence (o : WarmOutcome) (s : State) : Res :=
  if s.clocked = true ∧ s.resetStep = .commanded then .next (s.warmFirst.warmRest o) else .next s

/-- Whether the instructions that take the pins act: WRST_N is low, or the package is in TEST (R411). -/
def State.pinsFree (s : State) : Bool := !s.pins.wrst || decide (s.lifecycle = .test)

/-- A TAP that holds an instruction which takes the pins: it acts where those act, and as BYPASS elsewhere (R411). -/
def Tap.settle (free : Bool) (x : Tap) : Tap :=
  if [0x03#8, 0x04#8, 0x05#8, 0x06#8, 0x07#8].contains x.ir then
    { x with pins := free, data := if free && decide (x.ir.toNat ≤ 5) then .boundary else .bypass }
  else x

/-- Every TAP acts as WRST_N and the lifecycle now say. -/
def State.settlePins (s : State) : State := { s with dies := s.dies.mapV fun _ x => { x with tap := x.tap.settle s.pinsFree } }

/-- WRST_N low for `ns`: below 200 ns it is ignored, below 1 µs a free value says whether a warm reset starts, from 1 µs on the reset runs
to step 5 and is held while the pin stays low (R381, R421). -/
def execWrstN (ns : Nat) (s : State) : Res :=
  if ns < 200 then .next s
  else if ns < 1000 then
    if s.clocked = false ∨ s.ident.state = .boot ∨ s.resetStep ≠ .none then .next s
    else .next (if s.fresh.1.getLsbD 0 then { s.fresh.2 with resetStep := .commanded } else s.fresh.2)
  else
    let t := State.settlePins { s with pins := { s.pins with wrst := false } }
    if s.clocked = false ∨ s.ident.state = .boot ∨ s.resetStep = .heldAtFive then .next t else .next { t.warmFirst with resetStep := .heldAtFive }

/-- WRST_N_DEASSERT: a held warm reset goes on past step 5 (R381, R421). -/
def execWrstNDeassert (o : WarmOutcome) (s : State) : Res :=
  let t := State.settlePins { s with pins := { s.pins with wrst := true } }
  if s.resetStep = .heldAtFive then .next (t.warmRest o) else .next t

/-! ## Power (R365, R378 to R380, R413) -/

/-- Without power or clocks nothing of the part is left but its fuses; the host's memory, what has left the part and the model's own fields
stay. -/
def State.lost (s : State) : State :=
  { State.reset with
    part := s.part, hostMem := s.hostMem, hostDeny := s.hostDeny, hostOut := s.hostOut, freeCtr := s.freeCtr, pending := s.pending
    pins := { s.pins with thermtrip := true }
    lifecycle := match s.lifecycle with | .test => .production | x => x }

/-- POWER_LOSS (R380): TEST is left, THERMTRIP_N is released (R413, R421). -/
def execPowerLoss (s : State) : Res := .next { s.lost with pins := { s.lost.pins with porst := false } }

/-- THERMTRIP: a die sensor at 120 °C; every clock stops, and the board removes power (R380, R421). The result is a power loss, so that
nothing that the part held is read again. -/
def execThermtrip (d : Nat) (s : State) : Res :=
  if s.clocked = true ∧ d < s.dieCount then
    .next ({ s.lost with stopped := true, pins := { s.lost.pins with thermtrip := false } }.modDie d fun x => { x with tripped := true })
  else .next s

/-- PMB_ALERT: a regulator fault is recorded (R421, Table 14.3), whenever the always-on block runs. -/
def execPmbAlert (rail : Nat) (s : State) : Res :=
  if s.clocked then
    .next ({ s with pins := { s.pins with pmbAlert := false } }.logEvent { cls := 8, severity := 2, die := 0, place := rail, event := 1 })
  else .next s

/-! ## Cold boot (Table 13.6) -/

/-- The outcome of site `i`, which is controller `i % 6` of die `i / 6`. -/
def siteOutcome (o : BootOutcome) (i : Nat) : SiteOutcome := (o.sites[i]?).getD .rate9600

/-- Whether a site leaves its die without LPDDR (R205). -/
def siteBad : SiteOutcome → Bool
  | .failed => true
  | .otherDensity => true
  | _ => false

/-- Whether every site runs at 8,533 MT/s: one has failed at 9,600 (R205). -/
def slowSites (o : BootOutcome) (n : Nat) : Bool :=
  (List.range (6 * n)).any fun i => siteOutcome o i == .rate8533 || siteOutcome o i == .failed

/-- A site takes its rate, and its LP_Sn_RESET_N rises (R419); one that failed or differs is recorded and its die has no LPDDR (R205, Table
7.11). -/
def State.trainSite (o : BootOutcome) (s : State) (i : Nat) : State :=
  let x := siteOutcome o i
  let rate : BitVec 2 := if x = .failed then 3 else if slowSites o s.dieCount then 1 else 2
  let big := decide (s.part.density = .gib128)
  let t := s.modCtl ⟨i / 6, i % 6⟩ fun c => { c with resetN := true, rate := rate, density := if x = .otherDensity then !big else big }
  if siteBad x then
    (t.modDie (i / 6) fun y => { y with noLpddr := true }).logEvent { cls := 2, severity := 0, die := i / 6, place := i % 6, event := 4 }
  else t

/-- The boot that finds a good copy (Table 13.6): sites, self-tests, identity, links, READY. Without LPDDR anywhere it is FAILED (R206). Without a board
description every link stays without a role until TOPOLOGY_SET or LINK_ASSIGN gives it one, on an AT88-8 too (R32, log entry 115). -/
def State.boot (s : State) (o : BootOutcome) : State :=
  let a := (List.range (6 * s.dieCount)).foldl (State.trainSite o) s
  let b := o.badSlots.foldl State.bootSlot a
  let c := (o.repaired.foldl (fun t m => t.logRepair m.die) b).testBanks o.banks
  let ok := (List.range s.dieCount).any fun d => !(c.die d).noLpddr
  let e := { c with ident := { c.ident with fwVersion := o.version, fwBuild := o.build, math := o.math, state := if ok then .ready else .failed } }
  match o.board with
  | some d =>
    if e.boardOk d then State.setVolts { e.installBoard d with rails := { described := true, regs := d.regulators } } else e
  | none => e

/-- COLD_BOOT: PORST_N rises, STRAP_PCIE_CLK is sampled, the village clock starts at 0, the boot ROM verifies the copies (R365, R378, R379,
R420). -/
def execColdBoot (o : BootOutcome) (s : State) : Res :=
  if s.pins.porst then .next s
  else
    let t := { s.lost with pins := { s.lost.pins with porst := true }, pcieSris := s.part.strapPcieClk }.loadCopies o.copyA o.copyB
    if o.copyA || o.copyB then .next (t.boot o)
    else .next { t with ident := { t.ident with state := .failed } }

end Sys2Proof.Machine
end

