-- ==== Sys2Proof/Machine/Jtag.lean ====
section
/-! DEFINITION. The TAPs, the IEEE 1687 instruments and the test lifecycle (R410 to R413). -/

namespace Sys2Proof.Machine

/-! ## Instructions (R410, R411) -/

/-- Whether the TAP of a die answers: the die is there and has power. -/
def State.tapLive (s : State) (d : Nat) : Bool := s.pins.porst && decide (d < s.dieCount)

/-- An instruction loaded into a TAP, with the data register it selects and whether it takes the pins. -/
def State.tapLoad (s : State) (d : Nat) (ir : Byte) (data : TapData) (pins : Bool) : State :=
  if s.tapLive d then s.modDie d fun x => { x with tap := { x.tap with ir := ir, data := data, pins := pins } } else s

/-- The IDCODE of a die (R410). -/
def State.idcodeWord (s : State) (d : Nat) : Word32 :=
  BitVec.ofNat 32 ((match s.part.stepping with | .a0 => 0 | .b0 => 1) * 2 ^ 28 + (0x88d0 + d) * 2 ^ 12 + Config.jedecId.toNat * 2 + 1)

/-- An instruction that takes the pins; at any other time it acts as BYPASS (R411). -/
def State.tapPins (s : State) (d : Nat) (ir : Byte) (data : TapData) : State :=
  if s.pinsFree then s.tapLoad d ir data true else s.tapLoad d ir .bypass false

/-- IDCODE (R410). -/
def execIdcode (d : Nat) (s : State) : Res := .next (s.tapLoad d 0x01 (.idcode (s.idcodeWord d)) false)
/-- SAMPLE/PRELOAD (Table 14.7). -/
def execSamplePreload (d : Nat) (s : State) : Res := .next (s.tapLoad d 0x02 .boundary false)
/-- EXTEST (Table 14.7). -/
def execExtest (d : Nat) (s : State) : Res := .next (s.tapPins d 0x03 .boundary)
/-- EXTEST_PULSE (Table 14.7). -/
def execExtestPulse (d : Nat) (s : State) : Res := .next (s.tapPins d 0x04 .boundary)
/-- EXTEST_TRAIN (Table 14.7). -/
def execExtestTrain (d : Nat) (s : State) : Res := .next (s.tapPins d 0x05 .boundary)
/-- CLAMP: the pins are held while the bypass register is selected (Table 14.7, IEEE 1149.1). -/
def execClamp (d : Nat) (s : State) : Res := .next (s.tapPins d 0x06 .bypass)
/-- HIGHZ (Table 14.7, IEEE 1149.1). -/
def execHighz (d : Nat) (s : State) : Res := .next (s.tapPins d 0x07 .bypass)

/-- The codes that Table 14.7 lists besides BYPASS. -/
def tapListed (code : Byte) : Bool := [0x01#8, 0x02#8, 0x03#8, 0x04#8, 0x05#8, 0x06#8, 0x07#8, 0x10#8, 0x11#8].contains code

/-- BYPASS, and every code that Table 14.7 does not list (R411). -/
def execBypass (d : Nat) (code : Byte) (s : State) : Res := if tapListed code then .next s else .next (s.tapLoad d code .bypass false)

/-! ## Instruments (R412) -/

/-- What an access to the network shifts out of a die. -/
def State.network (s : State) (d : Nat) (out : List Byte) : State := s.tapLoad d 0x10 (.network out) false

/-- A measurement that the manual gives no value. -/
def State.measured (s : State) (d n : Nat) : State := (s.freshBytes n).2.network d (s.freshBytes n).1

/-- Code of a lifecycle state, a field of the fuses (R413). -/
def Lifecycle.code : Lifecycle → Nat
  | .production => 0
  | .locked => 1
  | .test => 0

/-- LOCKED is entered by blowing the LOCK fuse, which PRODUCTION allows (R413, Tables 14.3 and 14.8). -/
def State.blowLock (s : State) : State :=
  if s.lifecycle = .production then { s with lifecycle := .locked }.logEvent { cls := 14, severity := 0, die := 0, event := 1 } else s

/-- What the debug port reads at a package address: a byte of LPDDR or on-chip memory as it is held, or of a register (R412). -/
def State.debugRead (s : State) (d a : Nat) : State :=
  if a < 0xf00000000000 then s.network d [s.mem.read ((s.dieLocal a).getD a)]
  else
    match s.readMmio ((a - 0xf00000000000) / 0x10000000) ((a - 0xf00000000000) % 0x10000000 / 8 * 8) with
    | some v => s.network d (slice (toBytes 8 v) (a % 8) 1)
    | none => s.measured d 1

/-- What the debug port writes: a byte of LPDDR or on-chip memory, or the doubleword of a register with that byte changed. -/
def State.debugWrite (s : State) (a : Nat) (b : Byte) : State :=
  if a < 0xf00000000000 then { s with mem := s.mem.write ((s.dieLocal a).getD a) b }
  else
    let e := (a - 0xf00000000000) / 0x10000000
    let x := (a - 0xf00000000000) % 0x10000000 / 8 * 8
    match s.readMmio e x with
    | some v => s.writeMmio e x (BitVec.ofNat 64 (ofBytes (spliceBytes (toBytes 8 v) (a % 8) [b])))
    | none => s

/-- Code of a weight as the debug port shows it (log entry 124). -/
def Trit.code : Trit → Byte
  | .neg => 0xff
  | .zero => 0
  | .pos => 1
def tritOf (b : Byte) : Trit := if b = 1 then .pos else if b = 0xff then .neg else .zero

/-- A weight of a set as a byte. -/
def Tile.peek (t : Tile) (col row : Nat) : Byte :=
  match t with
  | .none => 0
  | .trit cols _ => ((cols.getD col []).map Trit.code).getD row 0
  | .binary cols => ((cols.getD col []).map fun b => if b then 1 else 0).getD row 0
  | .lns cols _ => (cols.getD col []).getD row 0

/-- A weight of a set written. -/
def Tile.poke (t : Tile) (col row : Nat) (b : Byte) : Tile :=
  match t with
  | .none => .none
  | .trit cols k => .trit (cols.modify col fun c => c.set row (tritOf b)) k
  | .binary cols => .binary (cols.modify col fun c => c.set row (b.getLsbD 0))
  | .lns cols k => .lns (cols.modify col fun c => c.set row b) k

/-- The scale of a column of a ternary set, and the bias of a LOG set; 0 where there is none. -/
def Tile.scaleAt (t : Tile) (col : Nat) : BitVec 16 :=
  match t with
  | .trit _ k => k.getD col 0
  | _ => 0
def Tile.biasOf (t : Tile) : Byte :=
  match t with
  | .lns _ b => b
  | _ => 0
def Tile.setScale (t : Tile) (col : Nat) (v : BitVec 16) : Tile :=
  match t with
  | .trit cols k => .trit cols (k.set col v)
  | x => x
def Tile.setBias (t : Tile) (b : Byte) : Tile :=
  match t with
  | .lns cols _ => .lns cols b
  | x => x

/-- Code of the format tag of an accumulator line (log entry 124). -/
def AccTag.code : AccTag → Byte
  | .empty => 0
  | .int32 => 1
  | .bin => 2
  | .lns16 => 3
def accTagOf (b : Byte) : AccTag := if b = 1 then .int32 else if b = 2 then .bin else if b = 3 then .lns16 else .empty

/-- A byte of a block that an expander holds. -/
def ExpBlock.byteAt (x : ExpBlock) (i : Nat) : Byte :=
  match x with
  | .data l => l.getD i 0
  | _ => 0
def ExpBlock.setByte (x : ExpBlock) (i : Nat) (b : Byte) : ExpBlock :=
  match x with
  | .data l => .data (l.set i b)
  | y => y

/-- An accumulator element as bytes: value, residue, mark. -/
def AccElem.bytes (x : AccElem) : List Byte := toBytes 4 x.val.toNat ++ [x.res.setWidth 8, BitVec.ofNat 8 (flag x.mark)]
def accElemOf (d : List Byte) : AccElem := ⟨BitVec.ofNat 32 (recNat d 0 4), (d.getD 4 0).setWidth 3, (d.getD 5 0).getLsbD 0⟩

/-- What the debug port reads of a unit. -/
def State.unitPeek (s : State) (p : DebugPlace) : List Byte :=
  match p with
  | .weight u k c r => [((s.mill u).sets.get {} (k % 2)).tile.peek c r]
  | .scale u k c => toBytes 2 (((s.mill u).sets.get {} (k % 2)).tile.scaleAt c).toNat
  | .setBias u k => [((s.mill u).sets.get {} (k % 2)).tile.biasOf]
  | .staging u i => [(s.mill u).staging.getD i 0]
  | .acc u l i => (((s.mill u).acc.get {} l).elems.getD i {}).bytes
  | .accTag u l => [((s.mill u).acc.get {} l).tag.code]
  | .accBias u l => toBytes 4 ((s.mill u).acc.get {} l).bias.toNat
  | .scalar h i => toBytes 8 ((s.hand h).s i).toNat
  | .vector h i => vecBytes ((s.hand h).v i)
  | .predicate h i => toBytes 8 ((s.hand h).p i).toNat
  | .pc h => toBytes 8 (s.hand h).pc.toNat
  | .ibuf h i => toBytes 4 ((s.hand h).ibuf.get 0 i).toNat
  | .expander h k i => [(((s.hand h).exp.bind fun x => x.bufs[k]?).map fun y => y.byteAt i).getD 0]
  | .pressTable k i => [((s.pressImage k).bind fun l => l[i]?).getD 0]

/-- What the debug port writes to a unit. -/
def State.unitPoke (s : State) (p : DebugPlace) (d : List Byte) : State :=
  let n := recNat d 0 8
  match p with
  | .weight u k c r => s.modMill u fun x =>
      let w := x.sets.get {} (k % 2)
      { x with sets := x.sets.set (k % 2) { w with tile := w.tile.poke c r (d.getD 0 0) } }
  | .scale u k c => s.modMill u fun x =>
      let w := x.sets.get {} (k % 2)
      { x with sets := x.sets.set (k % 2) { w with tile := w.tile.setScale c (BitVec.ofNat 16 (recNat d 0 2)) } }
  | .setBias u k => s.modMill u fun x =>
      let w := x.sets.get {} (k % 2)
      { x with sets := x.sets.set (k % 2) { w with tile := w.tile.setBias (d.getD 0 0) } }
  | .staging u i => s.modMill u fun x => { x with staging := x.staging.set i (d.getD 0 0) }
  | .acc u l i => s.modMill u fun x =>
      let a := x.acc.get {} l
      { x with acc := x.acc.set l { a with elems := a.elems.set i (accElemOf d) } }
  | .accTag u l => s.modMill u fun x => { x with acc := x.acc.set l { x.acc.get {} l with tag := accTagOf (d.getD 0 0) } }
  | .accBias u l => s.modMill u fun x => { x with acc := x.acc.set l { x.acc.get {} l with bias := BitVec.ofNat 32 (recNat d 0 4) } }
  | .scalar h i => s.modHand h fun x => x.setS i (BitVec.ofNat 64 n)
  | .vector h i => s.modHand h fun x => x.setV i (vecOf d)
  | .predicate h i => s.modHand h fun x => x.setP i (BitVec.ofNat 64 n)
  | .pc h => s.modHand h fun x => { x with pc := BitVec.ofNat 64 n }
  | .ibuf h i => s.modHand h fun x => { x with ibuf := x.ibuf.set (i % 8192) (BitVec.ofNat 32 n) }
  | .expander h k i => s.modHand h fun x =>
      { x with exp := x.exp.map fun y => { y with bufs := y.bufs.modify k fun z => z.setByte i (d.getD 0 0) } }
  | .pressTable k i =>
    let x := s.pressSlots.get {} k
    { s with pressSlots := s.pressSlots.set k { x with image := x.image.map fun l => l.set i (d.getD 0 0) } }

/-- IJTAG: what the lifecycle state allows of Table 14.8 is done on a die. Memory self-test and scan runs leave the contents of what they
test open; the model keeps them (log entry 45). -/
def State.instrument (s : State) (d : Nat) (op : IjtagOp) : State :=
  let test := decide (s.lifecycle = .test)
  match op with
  | .read .monitors _ => s.measured d 8
  | .read .fuses _ => s.network d (openBytes 1 8 [s.lifecycle.code])
  | .read .logbook a => s.network d (toBytes 8 (s.logReg d (a / 8 * 8)))
  | .read .laneMargin _ => s.measured d 8
  | .read .debugPort a => if test then s.debugRead d a else s.network d []
  | .read .loopback _ => s.network d []
  | .read .memoryTest _ => s.network d []
  | .read .scan _ => s.network d []
  | .run .laneMargin => if test then s.measured d 8 else s.network d []
  | .run .loopback => if test then s.measured d 64 else s.network d []
  | .run .memoryTest => if test then s.measured d 8 else s.network d []
  | .run .scan => if test then s.measured d 8 else s.network d []
  | .run .monitors => s.network d []
  | .run .fuses => s.network d []
  | .run .logbook => s.network d []
  | .run .debugPort => s.network d []
  | .write a b => if test then (s.debugWrite a b).network d [] else s.network d []
  | .peek p => s.network d (if test then s.unitPeek p else [])
  | .poke p b => if test then (s.unitPoke p b).network d [] else s.network d []
  | .blowLock => s.blowLock.network d []

/-- IJTAG (R412). -/
def execIjtag (d : Nat) (op : IjtagOp) (s : State) : Res := if s.tapLive d then .next (s.instrument d op) else .next s

/-- LOCK_FUSE (R413). -/
def execLockFuse (d : Nat) (s : State) : Res := if s.tapLive d then .next s.blowLock else .next s

/-! ## UNLOCK (R413) -/

/-- The households that hold a key slot. -/
def State.keyHolders (s : State) : List Nat := (s.keySlots.cells.map fun k => k.2.owner).eraseDups

/-- Units that stop as they are: nothing runs or waits, and register contents stay (R413). -/
def Hamlet.frozen (m : Hamlet) : Hamlet :=
  { m with
    hands := m.hands.mapV fun _ h => { h with mode := if h.mode = .running then .stopped else h.mode, wait := .none }
    mills := m.mills.mapV fun _ x =>
      { x with queue := [], loadQ := [], compQ := [], finQ := [], loadRun := none, compRun := none, finRun := none, dslot := none, ringMode := false }
    porters := m.porters.mapV fun _ p => { p with queue := [], cur := none, run := none }
    rings := m.rings.mapV fun _ r => { r with waiters := [], grants := [] } }

/-- A job of a household without a key stops without a scrub. -/
def State.freezeJob (s : State) (n : Nat) (j : Job) : State :=
  let a := j.unitParishes.foldl (fun t p => t.stopParish n j p) (s.flushJob n j)
  let b := j.slots.foldl (fun t m => t.modHamlet m Hamlet.frozen) a
  (b.dropTraffic j.slots).modJob n fun x => { x with state := .killed, endedAt := s.clock }

/-- Steps 1 to 7 of the entry to TEST. -/
def State.enterTest (s : State) : State :=
  let keys := s.keyHolders
  let held := s.jobs.cells.filter fun c => c.2.live || c.2.isEnding
  let a := held.foldl (fun t c => if keys.contains c.2.household then t.killNow c.1 else t.freezeJob c.1 c.2) s
  let b := a.flushCaches
  let c := { b with
    parishes := b.parishes.mapV fun _ p => { p with press := { p.press with hist := {} } }
    keySlots := {}, households := {}, ledger := {}, sessions := {}, adapters := {}, grammars := {}, sieves := {}
    tensors := b.tensors.mapV fun _ t => { t with maps := [] }
    dies := b.dies.mapV fun _ x => { x with tcache := [] }
    deepSave := none, deepWake := false
    bar2Household := 0, ident := { b.ident with state := .undefined }, lifecycle := .test }
  c.settlePins.logEvent { cls := 14, severity := 0, die := 0, event := 1 }

/-- UNLOCK: issues a nonce, then judges the signature over it; one accepted on die 0 places the package in TEST. It acts in PRODUCTION only
and is refused in LOCKED (R413, Table 14.7). -/
def execUnlock (d : Nat) (op : UnlockOp) (s : State) : Res :=
  if s.tapLive d = false then .next s
  else if s.lifecycle ≠ .production then .next (s.tapLoad d 0x11 .bypass false)
  else
    match op with
    | .challenge v => .next ((s.modDie d fun x => { x with tap := { x.tap with nonce := some v } }).tapLoad d 0x11 (.nonce v) false)
    | .response ok =>
      let t := (s.modDie d fun x => { x with tap := { x.tap with nonce := none } }).tapLoad d 0x11 .bypass false
      if ok = true ∧ d = 0 ∧ (s.die d).tap.nonce.isSome = true ∧ s.clocked = true then .next t.enterTest else .next t

end Sys2Proof.Machine
end

