-- ==== Sys2Proof/Machine/MillFinish.lean ====
section
/-! DEFINITION. The Finish unit of a Mill (R87 to R96, R112 to R117): FINISH and RANGE, and the end of a unit's wait at a ring (R70). -/

namespace Sys2Proof.Machine

/-! ## Fields of a FINISH (Table 4.6) -/

/-- OUT_FMT. -/
def finFmt (d : Vec) : Nat := fieldOf d 13 3
/-- Whether SA_SRC and SR_SRC name the scale ring. -/
def saRing (d : Vec) : Bool := fieldOf d 24 2 == 1
def srRing (d : Vec) : Bool := fieldOf d 28 2 == 1
/-- THRESH. -/
def finThresh (d : Vec) : Nat := fieldOf d 208 17

/-- Whether the fields of a FINISH are valid (Table 4.6). -/
def finishValid (d : Vec) : Bool :=
  zeroFields d [(30, 2), (77, 3), (93, 3), (117, 11), (225, 31), (280, 232)] && decide (descRows d ≠ 0) && decide (finFmt d ≠ 7) &&
    decide (fieldOf d 24 2 ≤ 1) && decide (fieldOf d 26 2 ≤ 2) && decide (fieldOf d 28 2 ≤ 1) &&
    decide (finThresh d ≤ 65536) && (saRing d || srRing d || zeroFields d [(64, 16)])

/-- Whether a constant scale that a FINISH of a tile uses has a RSVD bit of its container set: [15:11] (Table 2.1). An LNS16 tile and INT32 output
use no scale, and a BIN tile no weight scale (R71, R87, R88). -/
def constRsvd (d : Vec) (tag : AccTag) : Bool :=
  decide (tag ≠ .lns16) && decide (finFmt d ≠ 4) &&
    ((!saRing d && fieldOf d 171 5 != 0) || (decide (tag ≠ .bin) && fieldOf d 26 2 == 0 && fieldOf d 187 5 != 0) ||
      (!srRing d && fieldOf d 203 5 != 0))

/-- Whether the fields of a RANGE are valid (Table 4.7). -/
def rangeValid (d : Vec) : Bool := zeroFields d [(9, 23), (64, 16), (93, 3), (117, 395)] && decide (descRows d ≠ 0)

/-! ## The tile as it is read (R116) -/

/-- One element as the Finish stage reads it: an integer or an LNS16 value, its residue and its mark. -/
structure FinElem where
  val : Int
  lns : Lns
  res : BitVec 3
  mark : Bool
deriving DecidableEq, Repr

/-- A tile as a FINISH or RANGE reads it. -/
structure FinTile where
  tag : AccTag
  wide : Bool
  rows : List (List FinElem)
  bacc : Int
  poison : Bool
  ok : Bool
  fits : Bool
deriving DecidableEq, Repr

/-- The lines that a descriptor reads. -/
def Mill.linesOf (x : Mill) (a n : Nat) : List AccLine := (List.range n).map fun i => x.line (a + i)

/-- The tag of a tile: that of its first line that is not EMPTY; EMPTY where every line is (R116). -/
def tagOf (ls : List AccLine) : AccTag := ((ls.find? fun l => decide (l.tag ≠ .empty)).map (·.tag)).getD .empty

/-- An element of a line as the Finish stage reads it. -/
def AccElem.fin (e : AccElem) : FinElem := { val := e.val.toInt, lns := e.lns, res := e.res, mark := e.mark }

/-- The elements of a line, with `n` zeros of matching residue for an EMPTY one (R116); in a BIN tile such a zero is a count P like the others,
to which 2P − K_TOTAL applies (log entry 105). -/
def lineElems (n : Nat) (l : AccLine) : List FinElem :=
  if l.tag = .empty then List.replicate n { val := 0, lns := ⟨false, 0, false⟩, res := 0, mark := false } else l.elems.map AccElem.fin

/-- The tile that a FINISH or RANGE names (R112, R116, R117). It does not fit where its lines run past line 1,023 or M is out of range, and is
not `ok` where its lines hold mixed tags or another shape besides (R128). -/
def Mill.readTile (x : Mill) (d : Vec) : FinTile :=
  let shape := d.getLsbD 8
  let span := lineSpan d
  let tag := tagOf (x.linesOf span.1 (span.2 - span.1))
  let n := if tag = .lns16 then 1 else if shape then 4 else 2
  let m := descRows d
  let ls := x.linesOf (descBase d) (n * m)
  let full := ls.filter fun l => decide (l.tag ≠ .empty)
  let fits := decide (m ≤ mostRows d tag) && decide (descBase d + n * m ≤ 1024)
  { tag := tag, wide := shape && decide (tag ≠ .lns16)
    rows := (chunks n ls).map fun r => r.flatMap (lineElems (if tag = .lns16 then 128 else 64))
    bacc := (full.head?.map fun l => l.bias.toInt).getD 0
    poison := full.any (·.poison)
    ok := full.all (fun l => decide (l.tag = tag) && (l.wide == shape)) && fits && !(shape && decide (tag = .lns16))
    fits := fits }

/-! ## Scales (R113, R114) -/

/-- The scales of a FINISH: one for each row, and one of weights and one factor for each column; whether the weight set is poisoned, whether
the slot breaks R113, and whether the slot's values are judged, which those of a poisoned slot are not (R82). -/
structure FinScales where
  sa : List (BitVec 16)
  sw : List (BitVec 16)
  sr : List (BitVec 16)
  poison : Bool
  badSlot : Bool
  judged : Bool
deriving DecidableEq, Repr

/-- Whether a scale has the reserved exponent 255. -/
def scaleReserved (w : BitVec 16) : Bool := (e8m3 w).1 == 255

/-- The scales that a scale slot and the constants give (R112, R113). The values of a poisoned slot are free and nothing but its length is
judged (R82). For an LNS16 tile the slot is taken too, and its poison and its form count (log entry 106). The scales of a weight set that holds
no ternary tile, and a value with a RSVD bit set, are not stated: free values from `c` on (log entry 7). -/
def finScales (x : Mill) (d : Vec) (tag : AccTag) (wide : Bool) (slot : Option SlotIn) (refused : Bool) (c : Nat) : FinScales :=
  let m := descRows d
  let w := if wide then 256 else 128
  let bytes := if refused then [] else (slot.map (·.bytes)).getD []
  let clean := !(slot.map (·.poison)).getD false
  let want := 2 * ((if saRing d then m else 0) + (if srRing d then w else 0))
  let at_ := fun o n => (List.range n).map fun i => cleanScale (c + 128 + o + i) (BitVec.ofNat 16 (recNat bytes (o + 2 * i) 2))
  let set := finishSet d
  let ws := set.map fun k => x.sets.get {} k
  { sa := if saRing d then at_ 0 m else List.replicate m (BitVec.ofNat 16 (fieldOf d 160 16))
    sw := if tag = .bin then List.replicate w e8m3One
      else match ws with
        | some k =>
          (match k.tile with
          | .trit _ sc => sc
          | _ => (List.range 128).map fun i => freeScale (c + i))
        | none => List.replicate w (BitVec.ofNat 16 (fieldOf d 176 16))
    sr := if srRing d then at_ (if saRing d then 2 * m else 0) w else List.replicate w (BitVec.ofNat 16 (fieldOf d 192 16))
    poison := decide (tag ≠ .bin) && decide (tag ≠ .lns16) && (ws.map (·.poisoned)).getD false
    badSlot := !refused && (saRing d || srRing d) && (decide (bytes.length ≠ 4 * ceilDiv want 4) || (clean && (slice bytes want (bytes.length - want)).any (· != 0)))
    judged := clean }

/-- Whether the constant weight scale of a FINISH is used and reserved. -/
def constReserved (d : Vec) (tag : AccTag) : Bool :=
  decide (tag ≠ .bin) && (finishSet d).isNone && scaleReserved (BitVec.ofNat 16 (fieldOf d 176 16))

/-- Whether a row scale or a column factor that is judged is reserved: a constant, or a value of an unpoisoned slot. -/
def listReserved (ring judged : Bool) (l : List (BitVec 16)) : Bool := (!ring || judged) && l.any scaleReserved

/-- Whether a scale that is used, other than those of a weight set, is reserved (R82, R124). Scales are not used for LNS16 tiles and
INT32 output. -/
def scalesReserved (d : Vec) (tag : AccTag) (k : FinScales) : Bool :=
  decide (tag ≠ .lns16) && decide (finFmt d ≠ 4) &&
    (listReserved (saRing d) k.judged k.sa || listReserved (srRing d) k.judged k.sr || constReserved d tag)

/-- Row *m* of the first element with a reserved scale: a reserved weight scale or column factor concerns row 0. -/
def reservedRow (d : Vec) (tag : AccTag) (k : FinScales) : Nat :=
  if constReserved d tag || listReserved (srRing d) k.judged k.sr then 0 else (k.sa.findIdx? scaleReserved).getD 0

/-! ## Elements (R87, R88, Table 3.4) -/

/-- What becomes of one element: the code for formats other than INT4 and INT8, the integer for those, and whether it is clipped. -/
structure FinOut where
  code : Nat
  int : Int
  clip : Bool
deriving DecidableEq, Repr

/-- A floating-point format of OUT_FMT 2 and 3. -/
def outFmt (fmt : Nat) : Fmt := if fmt = 2 then .bf16 else .fp32

/-- Whether a code is an infinity. -/
def isInf (f : Fmt) (w : Nat) : Bool := w == f.inf false || w == f.inf true

/-- The largest magnitude of a format with a sign: what a marked element gives (R87). INT4 and INT8 are saturated later. -/
def markedOut (fmt : Nat) (neg : Bool) : FinOut :=
  match fmt with
  | 0 => ⟨0, if neg then -1000 else 1000, true⟩
  | 1 => ⟨0, if neg then -1000 else 1000, true⟩
  | 5 => ⟨flag neg * 128 + 127, 0, true⟩
  | 6 => ⟨flag (!neg), 0, true⟩
  | _ => ⟨(outFmt fmt).inf neg, 0, true⟩

/-- An element of an INT32 or BIN tile: A is its value after step 2 of R87. INT32 output writes A modulo 2^32, that of a marked element too
(Table 3.4, log entry 107). An element of a reserved scale, whose value is free (R82), counts no clip for an output other than INT4 and INT8
(log entry 126). -/
def intOut (fmt : Nat) (a : Int) (mark : Bool) (sa sw sr : BitVec 16) (r : Rounding) (bo : Int) (free : Word64) : FinOut :=
  if fmt = 4 then ⟨unsigned 32 a, 0, mark⟩
  else if mark then markedOut fmt (decide (a < 0))
  else if scaleReserved sa || scaleReserved sw || scaleReserved sr then ⟨free.toNat, free.toInt % 255 - 127, false⟩
  else
    let p := scaleExact a sa sw sr
    match fmt with
    | 0 => ⟨0, roundInt r p.1 p.2, false⟩
    | 1 => ⟨0, roundInt r p.1 p.2, false⟩
    | 5 =>
      let x := valToLns8 (decodeFp .fp32 (roundDyadic .fp32 .nearest p.1 p.2 false).bits) bo
      ⟨x.1.toNat, 0, x.2.1⟩
    | 6 => ⟨flag (decide (0 < p.1)), 0, false⟩
    | _ =>
      let x := (roundDyadic (outFmt fmt) r p.1 p.2 false).bits
      ⟨x, 0, isInf (outFmt fmt) x⟩

/-- An element of an LNS16 tile (Table 3.4). -/
def lnsOut (fmt : Nat) (x : Lns) (mark : Bool) (bacc bo : Int) (r : Rounding) : FinOut :=
  if mark then markedOut fmt x.neg
  else if fmt = 5 then
    let y := lns16ToLns8 x bacc bo r
    ⟨y.1.toNat, 0, y.2⟩
  else
    let f := (lns16ToF32 x bacc).bits
    let y := if fmt = 2 then (f32ToBf16 r f).bits else f
    ⟨y, 0, isInf (outFmt fmt) y⟩

/-- A bias within the range of R94. -/
def clampBias (b : Int) : Int := max (-128) (min 127 b)

/-- floor(log2 |y|) of a dyadic value that is not zero. -/
def dyadicExp (p : Int × Int) : Int := (Nat.log2 p.1.natAbs : Int) + p.2

/-- The output bias that TRACK chooses (R94), from the exact scaled values (log entry 26). Where a scale is reserved, or the scales of a
poisoned slot are used, the value is unpredictable (R82). -/
def trackBias (t : FinTile) (k : FinScales) (aval : Int → Int) (free : Word64) : Int :=
  if t.tag = .lns16 then
    let ls := t.rows.flatMap fun r => (r.filter fun e => !e.mark && decide (e.lns.l ≠ 0)).map fun e => e.lns.l
    match ls.max? with
    | some l => clampBias (t.bacc + (2016 - ((l : Int) - 16384)) / 256)
    | none => clampBias t.bacc
  else if !k.judged || k.sa.any scaleReserved || k.sw.any scaleReserved || k.sr.any scaleReserved then (free.setWidth 8).toInt
  else
    let exps := t.rows.zipIdx.flatMap fun r => r.1.zipIdx.filterMap fun e =>
      let p := scaleExact (aval e.1.val) (k.sa.getD r.2 0) (k.sw.getD e.2 0) (k.sr.getD e.2 0)
      if e.1.mark || p.1 == 0 then none else some (dyadicExp p)
    match exps.max? with
    | some e => clampBias (6 - e)
    | none => 0

/-- Bytes of a row of results (Table 3.4). -/
def packRow (fmt : Nat) (row : List Nat) : List Byte :=
  match fmt with
  | 0 => (chunks 2 row).map fun p => BitVec.ofNat 8 (p.getD 0 0 % 16 + p.getD 1 0 % 16 * 16)
  | 1 => row.map (BitVec.ofNat 8)
  | 2 => row.flatMap (toBytes 2)
  | 3 => row.flatMap (toBytes 4)
  | 4 => row.flatMap (toBytes 4)
  | 5 => row.map (BitVec.ofNat 8)
  | _ => bytesOfBits (row.map fun b => b == 1)

/-- The slot format code of OUT_FMT (R170, Table 6.3). -/
def slotFmt (fmt : Nat) : BitVec 4 :=
  match fmt with
  | 0 => 1
  | 1 => 2
  | 2 => 3
  | 3 => 4
  | 4 => 5
  | 5 => 6
  | _ => 7

/-- Row bytes of a format in normal shape (Table 3.4). -/
def outBytes (fmt : Nat) : Nat :=
  match fmt with
  | 0 => 64
  | 1 => 128
  | 2 => 256
  | 3 => 512
  | 4 => 512
  | 5 => 128
  | _ => 16

/-- The result of the Finish stage. -/
structure FinResult where
  fmt : Nat
  payload : List Byte
  bias : Int
  marked : Bool
  widened : Bool
  clipSat : Bool
  refused : Bool
  staged : Option (List Byte)
deriving DecidableEq, Repr

/-- The rounding of element *e* of the tile (R89); a firmware stream gives free bits (R65). -/
def State.finRound (s : State) (seed : Word64) (d : Vec) (e : Nat) : Rounding :=
  if d.getLsbD 9 then
    .stochastic (if firmwareStream (descStream d) then (Config.freeWord (s.freeCtr + e)).toNat % 65536
      else lotLane (lotValue s.settings.lotSeed seed (e / 8) (descTile d).toNat (descStream d)) (e % 8))
  else .nearest

/-- Whether a FINISH gives a defined output slot: OUT_FMT is listed for the tag, its scales agree with its shape and slot (R128). -/
def finishDefined (d : Vec) (t : FinTile) (k : FinScales) : Bool :=
  t.ok && !k.badSlot && !(t.wide && (finishSet d).isSome) && (decide (t.tag ≠ .lns16) || finFmt d == 2 || finFmt d == 3 || finFmt d == 5)

/-- Scale, round, saturate, and decide on widening (R87 to R91). `room` is the payload capacity of the output ring. Clips are counted for every
output format (R87, R88). Where the output slot is unpredictable (R128), so are whether the clips exceed the threshold and what is staged; a
marked element counts as one (R87). -/
def State.finishTile (s : State) (seed : Word64) (d : Vec) (t : FinTile) (k : FinScales) (room : Nat) : FinResult :=
  let fmt := finFmt d
  let w := if t.wide then 256 else 128
  let aval := fun v : Int => if t.tag = .bin then 2 * v - (fieldOf d 256 24 : Int) else v
  let bo : Int := if d.getLsbD 12 then trackBias t k aval (Config.freeWord (s.freeCtr + 2 * 65536)) else biasOf (BitVec.ofNat 8 (fieldOf d 16 8))
  let outs := t.rows.zipIdx.map fun r => r.1.zipIdx.map fun e =>
    let rnd := s.finRound seed d (r.2 * w + e.2)
    if t.tag = .lns16 then lnsOut fmt e.1.lns e.1.mark t.bacc bo rnd
    else intOut fmt (aval e.1.val) e.1.mark (k.sa.getD r.2 0) (k.sw.getD e.2 0) (k.sr.getD e.2 0) rnd bo
      (Config.freeWord (s.freeCtr + 65536 + r.2 * w + e.2))
  let marked := t.rows.any fun r => r.any (·.mark)
  let count := fun lim : Nat => ((outs.flatMap fun r => r).filter fun o => o.clip || (decide (fmt ≤ 1) && (clampMag lim o.int).2)).length
  let ints := fun lim : Nat => outs.map fun r => r.map fun o => unsigned 8 (clampMag lim o.int).1
  let allow := d.getLsbD 10 && fmt == 0
  let fits := decide ((if t.wide then 256 else 128) * descRows d ≤ room)
  let sure := finishDefined d t k
  let beyond := if sure then decide (finThresh d < count (if fmt = 0 then 7 else 127)) else (Config.freeWord (s.freeCtr + 3 * 65536)).getLsbD 0
  let widen := allow && beyond && fits
  let f := if widen then 1 else fmt
  { fmt := f
    payload := if f ≤ 1 then (ints (if f = 1 then 127 else 7)).flatMap (packRow f) else outs.flatMap fun r => packRow f (r.map (·.code))
    bias := bo, marked := marked, widened := widen, clipSat := !widen && beyond, refused := allow && beyond && !fits
    staged := if allow then some (let b := (ints 127).flatMap (packRow 1); if sure then b else freeBytes (s.freeCtr + 3 * 65536) b.length) else none }

/-! ## Output (R115) -/

/-- The tile's lines set to EMPTY (R116). -/
def Mill.releaseTile (x : Mill) (a n : Nat) : Mill :=
  { x with acc := ⟨x.acc.cells.filter fun c => decide (c.1 < a) || decide (a + n ≤ c.1)⟩ }

/-- The tile's lines stay, and the tile is in progress no longer (R85). -/
def Mill.endTile (x : Mill) (a n : Nat) : Mill :=
  { x with acc := x.acc.mapV fun i l => if a ≤ i ∧ i < a + n then { l with span := none } else l }

/-- Write the payload and publish a slot of an output ring, with the digest tag (R115). -/
def State.sendSlot (s : State) (r : RingRef) (i : Nat) (payload : List Byte) (fmt : BitVec 4) (bias : Byte) (poison : Bool)
    (layer tile : Word32) : State :=
  let x := s.ring r
  (s.padWrite (ringSlot r) (x.payloadOff i) (payload.take x.capacity) false).publishSlot r i (hdrWord fmt bias poison payload.length)
    (some (BitVec.ofNat 64 (layer.toNat + tile.toNat * 2 ^ 32)))

/-- An output slot that is unpredictable takes a free payload and header (R128); with it, the payload that its LEN gives and its POISON bit. -/
def State.sendFree (s : State) (r : RingRef) (i : Nat) (layer tile : Word32) : State × List Byte × Bool :=
  let b := s.freshBytes (s.ring r).capacity
  let w := b.2.fresh
  ((w.2.padWrite (ringSlot r) ((s.ring r).payloadOff i) b.1 false).publishSlot r i w.1
    (some (BitVec.ofNat 64 (layer.toNat + tile.toNat * 2 ^ 32))), b.1.take (fieldOf w.1 32 21), w.1.getLsbD 16)

/-- Where a FINISH or RANGE writes: a slot, a wait, or a refused ring (R82). -/
inductive Output
  | slot (r : RingRef) (i : Nat)
  | waiting
  | refused
  | outside
deriving DecidableEq, Repr

/-- The output slot of a Mill's Finish unit. -/
def State.output (s : State) (u : MillRef) (ref : Nat) : Output × State :=
  match s.ringAt (millSlot u) ref with
  | .foreign => (.refused, s.foreignRing (millSlot u))
  | .outside => (.outside, s)
  | .job r =>
    match s.engineSlot r (.mill u 2) false with
    | (some i, t) => (.slot r i, t)
    | (none, t) => (.waiting, t)

/-- The residue check of the Finish stage: the first row with an unmarked element whose residue differs (R50, R87). -/
def residueRow (t : FinTile) : Option Nat :=
  if t.tag = .lns16 then none
  else t.rows.findIdx? fun r => r.any fun e => !e.mark && e.res != noResidue && BitVec.ofNat 3 (residue e.val) != e.res

/-- Upsets of stored elements (R96). -/
def FinTile.upset (t : FinTile) (ups : List Upset) : FinTile :=
  { t with rows := t.rows.zipIdx.map fun r => r.1.zipIdx.map fun e => { e.1 with val := e.1.val + upsetAt ups r.2 e.2 (·.first) } }

/-- A FINISH leaves the unit. -/
def State.finishLeaves (s : State) (u : MillRef) : State := s.modMill u fun x => { x with finRun := none }

/-- A Finish mismatch: the lines poisoned, retirement pending, a record and the event (R96). -/
def State.finishMismatch (s : State) (u : MillRef) (d : Vec) (n : Nat) (row : Nat) : State :=
  ((s.modMill u fun x => { x.poisonLines (descBase d) (min (descBase d + n) 1024) with retirePending := true }).millError u
    (fun k => { k with finishResidue := true }) causeFinish (descTile d) row).residueLog u 2 3

/-- ACC_SAT, CLIP_SAT, WIDEN_REFUSED and the counts of a FINISH (R87, R91, Table 3.11). One whose output ring is refused writes no tile, so it
sets ACC_SAT only (R82). -/
def Mill.finishCounts (x : Mill) (r : FinResult) (written : Bool) : Mill :=
  let clip := written && r.clipSat
  { x with
    sticky := { x.sticky with accSat := x.sticky.accSat || r.marked, clipSat := x.sticky.clipSat || clip
                              widenRefused := x.sticky.widenRefused || (written && r.refused) }
    widened := if written && r.widened then satAdd x.widened 1 else x.widened
    clipped := if clip then satAdd x.clipped 1 else x.clipped }

/-- The staging buffer once a tile has been staged (R90); the words written whole bear no mark (R387). -/
def Mill.stage (x : Mill) (l : Option (List Byte)) : Mill :=
  match l with
  | some b => { x with staging := b ++ x.staging.drop b.length, stagingBad := x.stagingBad.filter fun w => decide (b.length < 8 * (w + 1)) }
  | none => x

/-- The lines of the tile that a FINISH reads. -/
def FinTile.lines (t : FinTile) (d : Vec) : Nat := (if t.tag = .lns16 then 1 else if t.wide then 4 else 2) * descRows d

/-- The errors of a FINISH's scales (R82): a poisoned slot, a refused scale ring, a reserved scale; the first of them in this order is the first
in MILL_FIRST_ERR, and only the reserved scale has a row (log entry 103). -/
def State.scaleErrors (s : State) (u : MillRef) (d : Vec) (tag : AccTag) (k : FinScales) (slotPoison refused : Bool) : State :=
  let a := if slotPoison then s.millError u setPoisonIn causePoison (descTile d) 0 else s
  let b := if refused then a.millError u setExpErr causeOperand (descTile d) 0 else a
  if scalesReserved d tag k then b.millError u setExpErr causeScale (descTile d) (reservedRow d tag k) else b

/-- A tile that a FINISH or RANGE has read: where it does not fit, it and its neighbours are unpredictable (R128). -/
def State.unfit (s : State) (u : MillRef) (d : Vec) (t : FinTile) : State :=
  if t.fits then s else s.freeTiles u d (if t.tag = .empty then .int32 else t.tag)

/-- A FINISH with its scales and its output slot, if the ring is not refused. The slot header has a bias for LNS8 output only, and zero there
otherwise (R115, log entry 108). The tile is in progress no longer (R85, log entry 74), and RELEASE acts also where OUT_RING is refused (log
entry 127). -/
def State.finishWith (s : State) (u : MillRef) (ups : List Upset) (e : Dispatched) (slot : Option SlotIn) (refused : Bool)
    (out : Option (RingRef × Nat)) : State :=
  let d := e.desc
  let x := s.mill u
  let t := (x.readTile d).upset ups
  let k := finScales x d t.tag t.wide slot refused (s.freeCtr + 2 * 65536 + 1)
  let slotPoison := (slot.map (·.poison)).getD false
  let bad := residueRow t
  let poison := t.poison || k.poison || slotPoison || refused || scalesReserved d t.tag k || bad.isSome
  let s1 := s.scaleErrors u d t.tag k slotPoison refused
  let s2 := match bad with
    | some row => s1.finishMismatch u d (t.lines d) row
    | none => s1
  let seed := ((s.jobAt (millSlot u)).map fun j => j.2.seed).getD 0
  let room := (out.map fun o => (s.ring o.1).capacity).getD 0
  let r := s.finishTile seed d t k room
  let s3 := { s2 with freeCtr := s2.freeCtr + 5 * 65536 }
  let s4 := s3.modMill u fun m => (m.finishCounts r out.isSome).stage r.staged
  let s5 := (s4.unfit u d t).modMill u fun m =>
    if !t.fits then m else if d.getLsbD 11 then m.releaseTile (descBase d) (t.lines d) else m.endTile (descBase d) (t.lines d)
  let s6 := match out with
    | none => s5.millError u setExpErr causeOperand (descTile d) 0
    | some (ring, i) =>
      if finishDefined d t k && decide (r.payload.length ≤ room) then
        let bias : Byte := if finFmt d = 5 then BitVec.ofInt 8 r.bias else 0
        (s5.sendSlot ring i r.payload (slotFmt r.fmt) bias poison e.layer (descTile d)).offerHamlet u
          { bytes := r.payload, layer := e.layer, tile := descTile d, poison := poison, scrub := false }
      else
        let v := s5.sendFree ring i e.layer (descTile d)
        (if finishDefined d t k then v.1.freeRing ring else v.1).offerHamlet u
          { bytes := v.2.1, layer := e.layer, tile := descTile d, poison := poison || v.2.2, scrub := false }
  s6.finishLeaves u

/-- RANGE's record (R93). B_acc is written modulo 2^8 (log entry 109). -/
def rangeRecord (t : FinTile) : List Byte :=
  let es := t.rows.flatMap fun r => r
  let mag := fun e : FinElem => if t.tag = .lns16 then e.lns.l else if e.mark then 2 ^ 31 else e.val.natAbs
  let code := match t.tag with
    | .empty => 0
    | .int32 => 1
    | .bin => 2
    | .lns16 => 3
  toBytes 4 ((es.map mag).foldl max 0) ++ toBytes 4 (es.filter (·.mark)).length ++
    [if t.tag = .lns16 then BitVec.ofInt 8 t.bacc else 0, BitVec.ofNat 8 code] ++ List.replicate 22 0

/-- A RANGE with its output slot; a tile whose first line is EMPTY reports zeros (R117). Its slot is published without the POISON flag, also where
lines of the tile are poisoned (log entry 109). -/
def State.rangeWith (s : State) (u : MillRef) (e : Dispatched) (out : Option (RingRef × Nat)) : State :=
  let d := e.desc
  let x := s.mill u
  let t := x.readTile d
  let rec_ := if (x.line (descBase d)).tag = .empty then List.replicate 32 0 else rangeRecord t
  let v := match out with
    | none => s.millError u setExpErr causeOperand (descTile d) 0
    | some (ring, i) =>
      if t.ok && decide (32 ≤ (s.ring ring).capacity) then s.sendSlot ring i rec_ 0 0 false e.layer (descTile d)
      else
        let f := (s.sendFree ring i e.layer (descTile d)).1
        if 32 ≤ (s.ring ring).capacity then f else f.freeRing ring
  (v.unfit u d t).finishLeaves u

/-- A FINISH or RANGE that runs: its scale slot first, then its output slot (R70, R113, R115). -/
def State.finishGo (s : State) (u : MillRef) (ups : List Upset) (run : MillRun) : Res :=
  let d := run.d.desc
  let isRange := descType d == 0x09
  if !(if isRange then rangeValid d else finishValid d && !constRsvd d ((s.mill u).readTile d).tag) then s.hostError (millSlot u)
  else
    let needs := !isRange && (saRing d || srRing d)
    let i : Input × List SlotIn × State := if needs then s.input u 2 (fieldOf d 64 13) run.taken (fun l => !l.isEmpty) else (.ready [], [], s)
    let after : List SlotIn → Bool → State → Res := fun l refused t =>
      let o := t.output u (fieldOf d 80 13)
      let fin : Option (RingRef × Nat) → Res := fun out =>
        .next ((if isRange then o.2.rangeWith u run.d out else o.2.finishWith u ups run.d l.head? refused out).busy (millSlot u))
      match o.1 with
      | .outside => s.hostError (millSlot u)
      | .waiting => .next ((o.2.modMill u fun m => { m with finRun := some { run with taken := l } }).busy (millSlot u))
      | .refused => fin none
      | .slot r n => fin (some (r, n))
    match i.1 with
    | .outside => s.hostError (millSlot u)
    | .waiting => .next ((i.2.2.modMill u fun m => { m with finRun := some { run with taken := i.2.1 } }).busy (millSlot u))
    | .refused => after [] true i.2.2
    | .ready l =>
      let z := State.freePoison l i.2.2
      after z.1 false z.2

/-- The Finish unit starts its oldest descriptor, of a given TYPE, when the interlocks let it, or goes on with the one that runs. -/
def State.finishUnit (s : State) (u : MillRef) (ups : List Upset) (type : Nat) : Res :=
  let x := s.mill u
  if !s.millRuns u then .next s
  else
    match x.finRun, x.finQ with
    | some run, _ => if descType run.d.desc = type then s.finishGo u ups run else .next s
    | none, e :: rest =>
      if descType e.desc = type ∧ x.finishFree e = true then
        (s.setMill u { x with finQ := rest, finRun := some ⟨e, []⟩ }).finishGo u ups ⟨e, []⟩
      else .next s
    | none, [] => .next s

/-- FINISH (R87, R112). -/
def execFinish (u : MillRef) (ups : List Upset) (s : State) : Res := s.finishUnit u ups 0x08

/-- RANGE (R93, R117). -/
def execRange (u : MillRef) (s : State) : Res := s.finishUnit u [] 0x09

/-- MILL_RING_WAIT: units that wait at a slot boundary go on when their ring lets them (R70). -/
def execMillRingWait (u : MillRef) (s : State) : Res :=
  let l := if (s.mill u).loadRun.isSome then execLoadW u s else .next s
  let c := l.bind fun t =>
    match (t.mill u).compRun with
    | none => .next t
    | some run =>
      match descType run.d.desc with
      | 0x02 => execTritMm u [] t
      | 0x03 => execBinMm u [] t
      | _ => execLogMm u t
  c.bind fun t =>
    match (t.mill u).finRun with
    | none => .next t
    | some run => if descType run.d.desc = 0x09 then execRange u t else execFinish u [] t

end Sys2Proof.Machine
end

