-- ==== Sys2Proof/Machine/ServingRows.lean ====
section
/-! DEFINITION. The serving commands (Table 12.12): sessions, SUBMIT, CANCEL, PAUSE, RESUME, adapters, grammars and LEDGER_QUERY (R275 to R281,
R288, R290, R293, R298, R299, R357). -/

namespace Sys2Proof.Machine

/-! ## Sessions (R357) -/

/-- Whether a number of pages of a household from an address on are all mapped. -/
def State.mappedRun (s : State) (hh ha n : Nat) : Bool :=
  let lo := ha / pageBytes
  let hi := (ha + n - 1) / pageBytes
  ((s.ptesOf hh).filter fun c => decide (lo ≤ c.1) && decide (c.1 ≤ hi)).length == hi - lo + 1

/-- The session that a 64 B record asks for, none where the record breaks R357. -/
def State.sessionOf (s : State) (n : Nat) (j : Job) (b : List Byte) : Option Session :=
  let kv := recNat b 0 8
  let page := recNat b 8 4
  let pool := recNat b 12 4
  let cellar := recNat b 16 8
  if page = 0 ∨ page % 512 ≠ 0 ∨ pool = 0 ∨ 2 ^ 24 < pool ∨ cellar % 4096 ≠ 0 ∨ (b.drop 32).all (· == 0) = false ∨
      s.mappedRun j.household kv (pool * page) = false then none
  else
    some { job := n, household := j.household, kvBase := BitVec.ofNat 64 kv, pageBytes := page, pool := pool, cellarBase := BitVec.ofNat 64 cellar
           cellarBytes := recNat b 24 8, closing := false }

/-- A number that a table does not list, from `lo` on, looked for from the one that the firmware prefers (log entry 14). -/
def freeNumber {α : Type} (t : Tab α) (lo n hint : Nat) : Option Nat :=
  ((List.range (min n (t.cells.length + 1))).map fun i => lo + (hint + i) % n).find? fun k => (t.find k).isNone

/-- SESSION_OPEN: STATE for a job that is not loaded or whose image is not a serving image (R357). -/
def execSessionOpen (k hint : Nat) (s : State) : Res :=
  s.command k 0x0401 fun c => s.forJob k c fun n j =>
    if j.live = false ∨ j.image.serving = false then refuse s stState
    else
      match s.hostRead (c.arg 1) 64 with
      | none => refuse s stIo
      | some b =>
        match s.sessionOf n j b, freeNumber s.sessions 1 65535 hint with
        | none, _ => refuse s stArg
        | some _, none => refuse s stBusy
        | some q, some i => done { s with sessions := s.sessions.set i q } i

/-- A command on a session, NOT_FOUND for one that there is not or that the postbox does not reach. -/
def State.forSession (s : State) (k : Nat) (c : Command) (f : Nat → Session → Reply) : Reply :=
  match s.sessions.find (c.arg 0) with
  | some q => if s.boxReaches k q.household then f (c.arg 0) q else refuse s stNotFound
  | none => refuse s stNotFound

/-- SESSION_CLOSE: the session's entries end CANCELLED at the next boundary, at once where no step runs (R357). -/
def execSessionClose (k : Nat) (s : State) : Res :=
  s.command k 0x0402 fun c => s.forSession k c fun i q =>
    let t := { s with sessions := s.sessions.set i { q with closing := true } }
    done (if s.stepRuns q.job then t else t.closeSessions q.job) 0

/-! ## SUBMIT (R277, R288, R298, R299, R357) -/

/-- Whether an FP32 word is positive and finite, and whether it lies in (0, 1]. -/
def positiveFinite (w : Nat) : Bool := decide (0 < w) && decide (w < 0x7f800000)
def unitInterval (w : Nat) : Bool := decide (0 < w) && decide (w ≤ 0x3f800000)

/-- The entry that a request record asks for, without what the head Reeve fills in (R357). -/
def entryOf (b : List Byte) : Entry :=
  let d (i : Nat) : Nat := recNat b (8 * i) 8
  { state := .queued, priority := bitsOf (d 0) 10 4, deadline := BitVec.ofNat 64 (d 1), promptLen := bitsOf (d 2) 21 21, maxNew := bitsOf (d 2) 42 21
    pageList := BitVec.ofNat 64 (d 4), grammar := bitsOf (d 6) 0 16, seed := BitVec.ofNat 64 (d 7), sample := bitAt (d 8) 0, topK := bitsOf (d 8) 8 7
    rtemp := BitVec.ofNat 32 (bitsOf (d 8) 32 32), topP := BitVec.ofNat 32 (bitsOf (d 9) 0 32), eos := bitsOf (d 9) 32 18
    outBuf := BitVec.ofNat 64 (d 10), promptBuf := BitVec.ofNat 64 (d 11) }

/-- The adapter id of a request record. -/
def recordAdapter (b : List Byte) : Nat := recNat b 44 4

/-- Whether the fields that the host does not supply are zero (R357). -/
def recordZeros (b : List Byte) : Bool :=
  let d (i : Nat) : Nat := recNat b (8 * i) 8
  decide (bitsOf (d 0) 0 10 = 0) && decide (bitsOf (d 0) 14 50 = 0) && decide (bitsOf (d 2) 0 21 = 0) && !bitAt (d 2) 63 && decide (d 3 = 0) &&
    decide (bitsOf (d 5) 0 32 = 0) && decide (bitsOf (d 6) 16 48 = 0) && decide (bitsOf (d 8) 1 7 = 0) && decide (bitsOf (d 8) 15 17 = 0) &&
    decide (bitsOf (d 9) 50 14 = 0) && (b.drop 96).all (· == 0)

/-- Pages that a request reserves (R288). -/
def Entry.pagesNeeded (x : Entry) : Nat := ceilDiv (x.promptLen + x.maxNew) 128

/-- Whether `n` bytes from a household address can be reached. -/
def State.reachable (s : State) (hh : Nat) (write : Bool) (ha n : Nat) : Bool := (s.places { household := hh, job := none } write (s.ownEa ha) n).isSome

/-- Whether a request breaks Table 10.1 or R277. -/
def State.entryArgs (s : State) (hh : Nat) (b : List Byte) : Bool :=
  let x := entryOf b
  recordZeros b && within 1 1048576 x.promptLen && within 1 1048576 x.maxNew && decide (x.promptLen + x.maxNew ≤ 1048576) && within 1 64 x.topK &&
    positiveFinite x.rtemp.toNat && unitInterval x.topP.toNat && decide (x.grammar < 1024) && decide (x.pageList.toNat % 4 = 0) &&
    decide (x.outBuf.toNat % 8 = 0) && s.reachable hh true x.pageList.toNat (4 * x.pagesNeeded) && s.reachable hh true x.outBuf.toNat (8 * x.maxNew) &&
    s.reachable hh false x.promptBuf.toNat (4 * x.promptLen)

/-- The CURRENT slot of a household's adapter id (R299). -/
def State.currentAdapter (s : State) (hh id : Nat) : Option (Nat × Adapter) :=
  s.adapters.cells.find? fun c => c.2.household == hh && c.2.id.toNat == id && c.2.current

/-- Whether an entry counts against a quota (R298). -/
def Entry.charged (x : Entry) : Bool :=
  match x.state with
  | .queued => true
  | .active => true
  | .held => true
  | .pausing => true
  | .resuming => true
  | _ => false

/-- The two counts of a household (R298). -/
def State.charges (s : State) (hh : Nat) : Nat × Nat :=
  s.ledger.cells.foldl (fun a c => if c.2.household == hh && c.2.charged then (a.1 + 1, a.2 + (c.2.promptLen + c.2.maxNew - c.2.length)) else a) (0, 0)

/-- Whether a request would take its household above a quota. -/
def State.overQuota (s : State) (hh : Nat) (x : Entry) : Bool :=
  let c := s.charges hh
  decide ((s.household hh).entryQuota < c.1 + 1) || decide ((s.household hh).tokenQuota < c.2 + x.promptLen + x.maxNew)

/-- An entry that is free, looked for from the one that the firmware prefers (log entry 14). -/
def State.freeEntry (s : State) (hint : Nat) : Option Nat :=
  ((List.range (min 16384 (s.ledger.cells.length + 1))).map fun i => (hint + i) % 16384).find? fun e => (s.entry e).state == .free

/-- Pages of a session's pool that no entry holds; none where there are too few (R288). -/
def State.poolTake (s : State) (i : Nat) (q : Session) (n hint : Nat) : Option (List Nat) :=
  let used := s.ledger.cells.flatMap fun c => if c.2.session == i && c.2.state != .free then c.2.pages else []
  scanFree (fun p => !used.contains p) q.pool (min q.pool (n + used.length)) hint n

/-- The page list as bytes (R288). -/
def pageListBytes (l : List Nat) : List Byte := l.flatMap (toBytes 4)

/-- An adapter slot's count rises by one (R299). -/
def State.pin (s : State) (slot : Nat) : State :=
  match s.adapters.find slot with
  | some a => { s with adapters := s.adapters.set slot { a with count := a.count + 1, changed := a.changed && decide (a.count ≠ 0) } }
  | none => s

/-- A request is admitted (R277, R288, R293, R299). -/
def State.admitEntry (s : State) (i : Nat) (q : Session) (e : Nat) (x : Entry) (a : Option (Nat × Adapter)) (pages : List Nat) : Option State :=
  let y := { x with
    household := q.household, session := i, seq := s.nextSeq, pages := pages
    adapter := (a.map Prod.fst).getD 0, adapterVer := (a.map fun c => c.2.version).getD 0
    gstate := ((s.grammars.find x.grammar).map (·.start)).getD 0 }
  (s.writeMem { household := q.household, job := none } (s.ownEa x.pageList.toNat) (pageListBytes pages) false).map fun t =>
    ({ t with ledger := t.ledger.set e y, nextSeq := t.nextSeq + 1 }).pin y.adapter

/-- SUBMIT on a session. -/
def State.submitTo (s : State) (i : Nat) (q : Session) (j : Job) (b : List Byte) (hint : Nat) : Reply :=
  let x := entryOf b
  let id := recordAdapter b
  let g := s.grammars.find x.grammar
  let a := if id = 0 then none else s.currentAdapter q.household id
  if s.entryArgs q.household b = false then refuse s stArg
  else if (id ≠ 0 ∧ a.isNone = true) ∨ (x.grammar ≠ 0 ∧ (g.map fun y => y.household == q.household).getD false = false) then refuse s stNotFound
  else if x.grammar ≠ 0 ∧ (g.map (·.vocabM1)).getD 0 + 1 ≠ j.image.serv.vocab then refuse s stArg
  else if s.overQuota q.household x then refuse s stBusy
  else
    match s.freeEntry hint, s.poolTake i q x.pagesNeeded (hint / 16384) with
    | some e, some ps =>
      (match s.admitEntry i q e x a ps with
      | some t => done t e
      | none => refuse s stArg)
    | _, _ => refuse s stBusy

/-- SUBMIT (R277, R298, R357). -/
def execSubmit (k hint : Nat) (s : State) : Res :=
  s.command k 0x0403 fun c => s.forSession k c fun i q =>
    match s.hostRead (c.arg 1) 128, s.jobs.find q.job with
    | none, _ => refuse s stIo
    | some _, none => refuse s stNotFound
    | some b, some j => if q.closing = true ∨ j.live = false then refuse s stState else s.submitTo i q j b hint

/-! ## CANCEL, PAUSE and RESUME (R278, R290) -/

/-- A command on an entry in use, NOT_FOUND for a free one or one that the postbox does not reach. -/
def State.forEntry (s : State) (k : Nat) (c : Command) (f : Nat → Entry → Reply) : Reply :=
  let e := c.arg 0
  let x := s.entry e
  if 16384 ≤ e ∨ x.state = .free ∨ s.boxReaches k x.household = false then refuse s stNotFound else f e x

/-- CANCEL: a QUEUED, HELD or PAUSED request ends at once, an ACTIVE one at the boundary, one in a copy when the copy completes (R278). -/
def execCancel (k : Nat) (s : State) : Res :=
  s.command k 0x0404 fun c => s.forEntry k c fun e x =>
    match x.state with
    | .queued => done (s.endEntry e finCancelled false) 0
    | .held => done (s.endEntry e finCancelled false) 0
    | .paused => done (s.endEntry e finCancelled false) 0
    | _ => done (s.modEntry e fun y => { y with wish := .cancel }) 0

/-- Rows of an entry in the current step. -/
def State.rowsNow (s : State) (e : Nat) (x : Entry) : Nat :=
  ((s.entryJob x).map fun j => (j.2.serving.rows.filter fun r => r.entry == e).length).getD 0

/-- Bytes that an entry holds, or will hold, in its session's Cellar region: none where it has no place there. -/
def State.cellarHeld (s : State) (q : Session) (e : Nat) (x : Entry) : Option (Nat × Nat) :=
  let most := ceilDiv (x.length + s.rowsNow e x) 128 * q.pageBytes
  match x.state, x.wish with
  | .pausing, _ => some (x.cellarOff.toNat, x.usedPages * q.pageBytes)
  | .paused, _ => some (x.cellarOff.toNat, x.usedPages * q.pageBytes)
  | .resuming, _ => some (x.cellarOff.toNat, x.usedPages * q.pageBytes)
  | .active, .pause _ => some (x.cellarOff.toNat, most)
  | _, _ => none

/-- The first place in the Cellar region of a session that takes `n` bytes, beside what others hold there (log entry 14). -/
def State.cellarRoom (s : State) (i : Nat) (q : Session) (e n : Nat) : Option Nat :=
  let held := s.ledger.cells.filterMap fun c => if c.2.session == i && c.1 != e then s.cellarHeld q c.1 c.2 else none
  (0 :: held.map fun h => h.1 + h.2).find? fun o =>
    decide (o + n ≤ q.cellarBytes) && held.all fun h => decide (o + n ≤ h.1) || decide (h.1 + h.2 ≤ o)

/-- PAUSE: only an ACTIVE entry can be paused, at the boundary; CELLAR_FULL for want of room (R278, R290). -/
def execPause (k : Nat) (s : State) : Res :=
  s.command k 0x0405 fun c => s.forEntry k c fun e x =>
    match s.sessions.find x.session with
    | none => refuse s stState
    | some q =>
      if x.state ≠ .active ∨ x.wish = .cancel then refuse s stState
      else
        match s.cellarRoom x.session q e (ceilDiv (x.length + s.rowsNow e x) 128 * q.pageBytes) with
        | none => refuse s stCellarFull
        | some o => done (s.modEntry e fun y => { y with wish := .pause (c.arg 1), cellarOff := BitVec.ofNat 64 o }) 0

/-- RESUME: at or beyond EXPIRY the entry has ended EXPIRED; BUSY for want of pages, and the entry stays PAUSED (R290). -/
def execResume (k hint : Nat) (s : State) : Res :=
  s.command k 0x0406 fun c => s.forEntry k c fun e x =>
    match s.sessions.find x.session with
    | none => refuse s stState
    | some q =>
      if x.state ≠ .paused then refuse s stState
      else if x.expiry.toNat ≤ s.clock.toNat then refuse ((s.endEntry e finExpired false).copyEnded e) stNotFound
      else
        match s.poolTake x.session q x.pagesNeeded hint with
        | none => refuse s stBusy
        | some ps =>
          match s.writeMem { household := x.household, job := none } (s.ownEa x.pageList.toNat) (pageListBytes ps) false with
          | none => refuse s stArg
          | some t => done (t.modEntry e fun y => { y with state := .resuming, pages := ps, expiry := 0 }) 0

/-! ## Adapters (R299) -/

/-- A slot loses CURRENT; with a count of zero it is freed and reported (R299). -/
def State.dropCurrent (s : State) (slot : Nat) (a : Adapter) : State :=
  if a.count = 0 then { s with adapters := s.adapters.del slot }.notifyHousehold a.household 0xf003 (BitVec.ofNat 64 (slot + a.id.toNat * 2 ^ 32))
  else { s with adapters := s.adapters.set slot { a with current := false } }

/-- ADAPTER_LOAD (R299). -/
def execAdapterLoad (k hint : Nat) (s : State) : Res :=
  s.command k 0x0407 fun c => s.forHousehold k c fun hh =>
    let id := c.arg 1
    let ver := c.arg 2
    if id = 0 ∨ 2 ^ 32 ≤ id ∨ 2 ^ 32 ≤ ver then refuse s stArg
    else
      let cur := s.currentAdapter hh id
      if (cur.map fun a => decide (ver ≤ a.2.version.toNat)).getD false then refuse s stState
      else
        match pickFree (fun i => (s.adapters.find i).isNone) 1 255 hint with
        | none => refuse s stNoSlot
        | some i =>
          let a : Adapter := ⟨hh, BitVec.ofNat 32 id, BitVec.ofNat 32 ver, BitVec.ofNat 64 (c.arg 3), true, 0, false⟩
          let t := { s with adapters := s.adapters.set i a }
          done (match cur with
            | some o => t.dropCurrent o.1 o.2
            | none => t) i

/-- ADAPTER_RETIRE (R299). -/
def execAdapterRetire (k : Nat) (s : State) : Res :=
  s.command k 0x0408 fun c => s.forHousehold k c fun hh =>
    match s.currentAdapter hh (c.arg 1) with
    | none => refuse s stNotFound
    | some a => done (s.dropCurrent a.1 a.2) 0

/-! ## Grammars (R293) -/

/-- States and edges of an image. -/
def imageStates (b : List Byte) : Nat := bitsOf (recNat b 0 8) 0 17
def imageEdges (b : List Byte) : Nat := bitsOf (recNat b 0 8) 32 25

/-- What the header of an image says. -/
def grammarOf (hh : Nat) (ha : Word64) (b : List Byte) : Grammar :=
  { household := hh, ha := ha, vocabM1 := bitsOf (recNat b 8 8) 0 18, start := bitsOf (recNat b 8 8) 32 16
    states := imageStates b, edges := imageEdges b }

/-- Whether the edges of a state are ascending and disjoint. -/
def ascending : List GrammarEdge → Bool
  | [] => true
  | [_] => true
  | e :: f :: t => decide (e.hi < f.lo) && ascending (f :: t)

/-- Whether an image of `n` bytes keeps every rule of Table 10.6. -/
def grammarOk (b : List Byte) (n : Nat) (g : Grammar) : Bool :=
  let h := recNat b 0 8
  let k := recNat b 8 8
  let l := words 8 (b.drop 32)
  let states := (l.take (imageStates b)).map grammarState
  let edges := (l.drop (imageStates b)).map grammarEdge
  within 1 65536 (imageStates b) && within 1 (2 ^ 24) (imageEdges b) && decide (n = 32 + 8 * imageStates b + 8 * imageEdges b) &&
    decide (bitsOf h 17 15 = 0) && decide (bitsOf h 57 7 = 0) && decide (bitsOf k 18 14 = 0) && decide (bitsOf k 48 16 = 0) &&
    decide (recNat b 16 8 = 0) && decide (recNat b 24 4 = 0) && decide (recNat b 28 4 = crc32c (b.drop 32)) && decide (g.start < imageStates b) &&
    ((l.take (imageStates b)).all fun v => decide (bitsOf v 43 21 = 0)) && ((l.drop (imageStates b)).all fun v => decide (bitsOf v 52 12 = 0)) &&
    (states.all fun x => decide (x.count ≤ 131072) && decide (x.first + x.count ≤ imageEdges b) && ascending ((edges.drop x.first).take x.count)) &&
    edges.all fun e => decide (e.lo ≤ e.hi) && decide (e.hi ≤ g.vocabM1) && decide (e.next < imageStates b)

/-- GRAMMAR_LOAD: the image is checked and kept at a household address (R293); no Sieve holds words of the slot's image before. -/
def execGrammarLoad (k hint : Nat) (s : State) : Res :=
  s.command k 0x0409 fun c => s.forHousehold k c fun hh =>
    let n := c.arg 2
    if n < 48 ∨ 32 + 8 * 65536 + 8 * 2 ^ 24 < n then refuse s stArg
    else
      match s.hostRead (c.arg 1) n with
      | none => refuse s stIo
      | some b =>
        let g := grammarOf hh (BitVec.ofNat 64 (c.arg 3)) b
        if grammarOk b n g = false ∨ s.reachable hh true (c.arg 3) n = false then refuse s stArg
        else
          match pickFree (fun i => (s.grammars.find i).isNone) 1 1023 hint, s.writeMem { household := hh, job := none } (s.ownEa (c.arg 3)) b false with
          | none, _ => refuse s stNoSlot
          | some _, none => refuse s stArg
          | some i, some t => done (State.dropSieve { t with grammars := t.grammars.set i g } i) i

/-- GRAMMAR_FREE: STATE while an entry pins the slot (R357). -/
def execGrammarFree (k : Nat) (s : State) : Res :=
  s.command k 0x040a fun c => s.forHousehold k c fun hh =>
    let i := c.arg 1
    if ((s.grammars.find i).map fun g => g.household == hh).getD false = false then refuse s stNotFound
    else if (s.entriesWhere fun x => x.grammar == i) ≠ [] then refuse s stState
    else done { s with grammars := s.grammars.del i } 0

/-! ## LEDGER_QUERY (R275, R287) -/

/-- The 128 bytes of an entry (Table 10.1). -/
def Entry.bytes (x : Entry) : List Byte :=
  toBytes 8 (x.state.code + x.household * 2 ^ 4 + x.priority * 2 ^ 10 + x.session * 2 ^ 16 + x.seq.toNat * 2 ^ 32) ++ toBytes 8 x.deadline.toNat ++
    toBytes 8 (x.length + x.promptLen * 2 ^ 21 + x.maxNew * 2 ^ 42) ++ toBytes 8 (x.generated + x.final * 2 ^ 32) ++ toBytes 8 x.pageList.toNat ++
    toBytes 8 (x.pages.length + x.adapter * 2 ^ 16 + x.adapterVer.toNat * 2 ^ 32) ++ toBytes 8 (x.grammar + x.gstate * 2 ^ 16) ++
    toBytes 8 x.seed.toNat ++ toBytes 8 (flag x.sample + x.topK * 2 ^ 8 + x.rtemp.toNat * 2 ^ 32) ++ toBytes 8 (x.topP.toNat + x.eos * 2 ^ 32) ++
    toBytes 8 x.outBuf.toNat ++ toBytes 8 x.promptBuf.toNat ++ toBytes 8 x.expiry.toNat ++ toBytes 8 x.cellarOff.toNat ++ toBytes 8 x.lastStep.toNat ++
    toBytes 8 0

/-- The 32 bytes of a step record (Table 10.5). -/
def StepRecord.bytes (r : StepRecord) : List Byte :=
  toBytes 8 r.step ++
    toBytes 8 (r.rows % 2 ^ 16 + r.requests % 2 ^ 13 * 2 ^ 16 + flag r.replay * 2 ^ 29 + flag r.held * 2 ^ 30 + r.late % 2 ^ 32 * 2 ^ 32) ++
    toBytes 8 (r.widened % 2 ^ 32 + r.clipped % 2 ^ 32 * 2 ^ 32) ++ toBytes 8 r.duration.toNat

/-- The entries that a query of a postbox sees: those of other households read as zero at a VF (R334, log entry 41). -/
def State.queryEntries (s : State) (k first n : Nat) : List Byte :=
  (List.range (min n (16384 - first))).flatMap fun i =>
    let x := s.entry (first + i)
    if s.boxReaches k x.household then x.bytes else List.replicate 128 0

/-- The step records of a serving job from a step on: of the first job that the postbox reaches (log entry 41). -/
def State.queryRecords (s : State) (k first n : Nat) : List StepRecord :=
  match s.jobs.cells.find? fun c => c.2.image.serving && s.boxReaches k c.2.household with
  | some (_, j) => (j.serving.records.filter fun r => decide (first ≤ r.step)).take n
  | none => []

/-- Entries in a state, among those that the postbox reaches. -/
def State.stateCount (s : State) (k : Nat) (st : EntryState) : Nat :=
  match st with
  | .free => 16384 - (s.entriesWhere fun _ => true).length
  | _ => (s.entriesWhere fun x => x.state == st && s.boxReaches k x.household).length

/-- LEDGER_QUERY: kind 0 entries, 1 step records, 2 counts of the states (Table 12.12). -/
def execLedgerQuery (k : Nat) (s : State) : Res :=
  s.command k 0x040b fun c =>
    let first := c.arg 1
    let n := c.arg 2
    if 2 < c.arg 0 ∨ (c.arg 0 = 0 ∧ 16384 ≤ first) ∨ (c.arg 0 = 2 ∧ 7 ≤ first) then refuse s stArg
    else if c.arg 0 = 0 then answer s (c.arg 3) (s.queryEntries k first n) (min n (16384 - first))
    else if c.arg 0 = 1 then answer s (c.arg 3) ((s.queryRecords k first n).flatMap StepRecord.bytes) (s.queryRecords k first n).length
    else
      let l := ([EntryState.free, .queued, .active, .held, .pausing, .paused, .resuming].drop first).take n
      answer s (c.arg 3) (l.flatMap fun st => toBytes 8 (s.stateCount k st)) l.length

end Sys2Proof.Machine
end

