-- ==== Sys2Proof/Machine/Dispatch.lean ====
section
/-! DEFINITION. The dispatch of the commands: one arm per constructor of Instr. -/

namespace Sys2Proof.Machine

/-- The effect of a command on everything but the queue. -/
def exec (i : Instr) (s : State) : Host.Outcome State Fault Refusal :=
  match i with
  | .loadW u => Sys2Proof.Machine.execLoadW u s
  | .tritMm u ups => Sys2Proof.Machine.execTritMm u ups s
  | .binMm u ups => Sys2Proof.Machine.execBinMm u ups s
  | .logMm u => Sys2Proof.Machine.execLogMm u s
  | .finish u ups => Sys2Proof.Machine.execFinish u ups s
  | .range u => Sys2Proof.Machine.execRange u s
  | .fence u => Sys2Proof.Machine.execFence u s
  | .digestTag u => Sys2Proof.Machine.execDigestTag u s
  | .millDispatch u => Sys2Proof.Machine.execMillDispatch u s
  | .millDescWinPush u v => Sys2Proof.Machine.execMillDescWinPush u v s
  | .millRingFetch u => Sys2Proof.Machine.execMillRingFetch u s
  | .millQctrlWrite u v => Sys2Proof.Machine.execMillQctrlWrite u v s
  | .modeChangeApply u => Sys2Proof.Machine.execModeChangeApply u s
  | .haltedClear u v => Sys2Proof.Machine.execHaltedClear u v s
  | .classDrain u => Sys2Proof.Machine.execClassDrain u s
  | .millRingWait u => Sys2Proof.Machine.execMillRingWait u s
  | .int h => Sys2Proof.Machine.execInt h s
  | .div h => Sys2Proof.Machine.execDiv h s
  | .addi h => Sys2Proof.Machine.execAddi h s
  | .shi h => Sys2Proof.Machine.execShi h s
  | .lui h => Sys2Proof.Machine.execLui h s
  | .luih h => Sys2Proof.Machine.execLuih h s
  | .br h => Sys2Proof.Machine.execBr h s
  | .pbr h => Sys2Proof.Machine.execPbr h s
  | .jal h => Sys2Proof.Machine.execJal h s
  | .jalr h => Sys2Proof.Machine.execJalr h s
  | .localLoad h => Sys2Proof.Machine.execLocalLoad h s
  | .localStore h => Sys2Proof.Machine.execLocalStore h s
  | .vld h => Sys2Proof.Machine.execVld h s
  | .vst h => Sys2Proof.Machine.execVst h s
  | .vstn h => Sys2Proof.Machine.execVstn h s
  | .gld h => Sys2Proof.Machine.execGld h s
  | .gst h => Sys2Proof.Machine.execGst h s
  | .gvld h => Sys2Proof.Machine.execGvld h s
  | .gvst h => Sys2Proof.Machine.execGvst h s
  | .gvstn h => Sys2Proof.Machine.execGvstn h s
  | .hfence h => Sys2Proof.Machine.execHfence h s
  | .csr h => Sys2Proof.Machine.execCsr h s
  | .vi h => Sys2Proof.Machine.execVi h s
  | .vf h => Sys2Proof.Machine.execVf h s
  | .vx h => Sys2Proof.Machine.execVx h s
  | .vrsum h => Sys2Proof.Machine.execVrsum h s
  | .vc h => Sys2Proof.Machine.execVc h s
  | .tern h => Sys2Proof.Machine.execTern h s
  | .packt h => Sys2Proof.Machine.execPackt h s
  | .unpackt h => Sys2Proof.Machine.execUnpackt h s
  | .pr h => Sys2Proof.Machine.execPr h s
  | .wait h => Sys2Proof.Machine.execWait h s
  | .eret h => Sys2Proof.Machine.execEret h s
  | .halt h => Sys2Proof.Machine.execHalt h s
  | .trap h => Sys2Proof.Machine.execTrap h s
  | .ibld h => Sys2Proof.Machine.execIbld h s
  | .rget h => Sys2Proof.Machine.execRget h s
  | .rgetx h => Sys2Proof.Machine.execRgetx h s
  | .rrel h => Sys2Proof.Machine.execRrel h s
  | .rrsv h => Sys2Proof.Machine.execRrsv h s
  | .rpub h => Sys2Proof.Machine.execRpub h s
  | .vrx h => Sys2Proof.Machine.execVrx h s
  | .badd h => Sys2Proof.Machine.execBadd h s
  | .bwait h => Sys2Proof.Machine.execBwait h s
  | .bread h => Sys2Proof.Machine.execBread h s
  | .lot h => Sys2Proof.Machine.execLot h s
  | .pissue h => Sys2Proof.Machine.execPissue h s
  | .mpush h => Sys2Proof.Machine.execMpush h s
  | .tfeed h => Sys2Proof.Machine.execTfeed h s
  | .trd h => Sys2Proof.Machine.execTrd h s
  | .twr h => Sys2Proof.Machine.execTwr h s
  | .hwFault h w => Sys2Proof.Machine.execHwFault h w s
  | .eventTake h => Sys2Proof.Machine.execEventTake h s
  | .ringWaitEnd r => Sys2Proof.Machine.execRingWaitEnd r s
  | .ringStall r n => Sys2Proof.Machine.execRingStall r n s
  | .waitStall h => Sys2Proof.Machine.execWaitStall h s
  | .pushStall h => Sys2Proof.Machine.execPushStall h s
  | .bwaitSatisfied h => Sys2Proof.Machine.execBwaitSatisfied h s
  | .bellAddApply n => Sys2Proof.Machine.execBellAddApply n s
  | .ringCfgWrite r v => Sys2Proof.Machine.execRingCfgWrite r v s
  | .fenceAndScrub m => Sys2Proof.Machine.execFenceAndScrub m s
  | .scrubFill m stuck => Sys2Proof.Machine.execScrubFill m stuck s
  | .scrubCheck m => Sys2Proof.Machine.execScrubCheck m s
  | .granuleScrub p g stuck => Sys2Proof.Machine.execGranuleScrub p g stuck s
  | .hamletGate m => Sys2Proof.Machine.execHamletGate m s
  | .hamletRetain m => Sys2Proof.Machine.execHamletRetain m s
  | .hamletOff m => Sys2Proof.Machine.execHamletOff m s
  | .hamletWake m => Sys2Proof.Machine.execHamletWake m s
  | .copy p => Sys2Proof.Machine.execCopy p s
  | .gather p => Sys2Proof.Machine.execGather p s
  | .scatter p => Sys2Proof.Machine.execScatter p s
  | .reduce p => Sys2Proof.Machine.execReduce p s
  | .porterDescWinPush p v => Sys2Proof.Machine.execPorterDescWinPush p v s
  | .porterComplete p => Sys2Proof.Machine.execPorterComplete p s
  | .porterHaltedClear p v => Sys2Proof.Machine.execPorterHaltedClear p v s
  | .translationMiss d hh page bad => Sys2Proof.Machine.execTranslationMiss d hh page bad s
  | .granaryFill p line bad => Sys2Proof.Machine.execGranaryFill p line bad s
  | .lpddrRead c sector errs link job => Sys2Proof.Machine.execLpddrRead c sector errs link job s
  | .lpddrWrite c addr data => Sys2Proof.Machine.execLpddrWrite c addr data s
  | .correctionRewrite c => Sys2Proof.Machine.execCorrectionRewrite c s
  | .dailyReadThrough c found => Sys2Proof.Machine.execDailyReadThrough c found s
  | .refreshUpdate c temp => Sys2Proof.Machine.execRefreshUpdate c temp s
  | .scan p => Sys2Proof.Machine.execScan p s
  | .build p => Sys2Proof.Machine.execBuild p s
  | .encode p => Sys2Proof.Machine.execEncode p s
  | .decode p => Sys2Proof.Machine.execDecode p s
  | .loadt p => Sys2Proof.Machine.execLoadt p s
  | .maskidx p => Sys2Proof.Machine.execMaskidx p s
  | .merge p => Sys2Proof.Machine.execMerge p s
  | .pressComplete p e => Sys2Proof.Machine.execPressComplete p e s
  | .tableSlotVisible slot => Sys2Proof.Machine.execTableSlotVisible slot s
  | .tallySnoopUnit t => Sys2Proof.Machine.execTallySnoopUnit t s
  | .tallyFlush t v => Sys2Proof.Machine.execTallyFlush t v s
  | .tallyCtrlWrite t v => Sys2Proof.Machine.execTallyCtrlWrite t v s
  | .tallyValueWrite t v => Sys2Proof.Machine.execTallyValueWrite t v s
  | .stepBoundary j => Sys2Proof.Machine.execStepBoundary j s
  | .stepReplay j trace => Sys2Proof.Machine.execStepReplay j trace s
  | .mirrorRestore t b => Sys2Proof.Machine.execMirrorRestore t b s
  | .sieveRow d j => Sys2Proof.Machine.execSieveRow d j s
  | .sieveSample j => Sys2Proof.Machine.execSieveSample j s
  | .cellarCopyOut e ok => Sys2Proof.Machine.execCellarCopyOut e ok s
  | .cellarCopyIn e ok => Sys2Proof.Machine.execCellarCopyIn e ok s
  | .expiry e => Sys2Proof.Machine.execExpiry e s
  | .flitReceive l f => Sys2Proof.Machine.execFlitReceive l f s
  | .nakReplay l ack => Sys2Proof.Machine.execNakReplay l ack s
  | .ackTimeout l => Sys2Proof.Machine.execAckTimeout l s
  | .ackSend l => Sys2Proof.Machine.execAckSend l s
  | .write d => Sys2Proof.Machine.execWrite d s
  | .read d => Sys2Proof.Machine.execRead d s
  | .ferryReduce d => Sys2Proof.Machine.execFerryReduce d s
  | .msg d => Sys2Proof.Machine.execMsg d s
  | .wack d => Sys2Proof.Machine.execWack d s
  | .rdata d => Sys2Proof.Machine.execRdata d s
  | .bell d => Sys2Proof.Machine.execBell d s
  | .ctrl d reset => Sys2Proof.Machine.execCtrl d reset s
  | .mcred d => Sys2Proof.Machine.execMcred d s
  | .boundSlotSend r => Sys2Proof.Machine.execBoundSlotSend r s
  | .landingDetect l => Sys2Proof.Machine.execLandingDetect l s
  | .train l o => Sys2Proof.Machine.execTrain l o s
  | .retrain l t ok => Sys2Proof.Machine.execRetrain l t ok s
  | .edgeReplay e => Sys2Proof.Machine.execEdgeReplay e s
  | .edgeRetrain die dir ok => Sys2Proof.Machine.execEdgeRetrain die dir ok s
  | .pbCtrlWrite fn k v => Sys2Proof.Machine.execPbCtrlWrite fn k v s
  | .pbDoorbell fn k v hw => Sys2Proof.Machine.execPbDoorbell fn k v hw s
  | .pbCplHeadWrite fn k v => Sys2Proof.Machine.execPbCplHeadWrite fn k v s
  | .commandTake k => Sys2Proof.Machine.execCommandTake k s
  | .completionWrite k => Sys2Proof.Machine.execCompletionWrite k s
  | .notice k => Sys2Proof.Machine.execNotice k s
  | .msixHoldoff k => Sys2Proof.Machine.execMsixHoldoff k s
  | .identify k => Sys2Proof.Machine.execIdentify k s
  | .echo k => Sys2Proof.Machine.execEcho k s
  | .logbookRead k => Sys2Proof.Machine.execLogbookRead k s
  | .logbookClear k => Sys2Proof.Machine.execLogbookClear k s
  | .noticeRoute k => Sys2Proof.Machine.execNoticeRoute k s
  | .hhOpen k => Sys2Proof.Machine.execHhOpen k s
  | .hhClose k => Sys2Proof.Machine.execHhClose k s
  | .hhQuota k => Sys2Proof.Machine.execHhQuota k s
  | .keyLoad k => Sys2Proof.Machine.execKeyLoad k s
  | .keyErase k => Sys2Proof.Machine.execKeyErase k s
  | .memMap k hint => Sys2Proof.Machine.execMemMap k hint s
  | .memUnmap k => Sys2Proof.Machine.execMemUnmap k s
  | .bar2Set k => Sys2Proof.Machine.execBar2Set k s
  | .pressSlot k hint => Sys2Proof.Machine.execPressSlot k hint s
  | .admitBegin k hint => Sys2Proof.Machine.execAdmitBegin k hint s
  | .admitData k => Sys2Proof.Machine.execAdmitData k s
  | .admitEnd k => Sys2Proof.Machine.execAdmitEnd k s
  | .admitResume k => Sys2Proof.Machine.execAdmitResume k s
  | .admitAbort k => Sys2Proof.Machine.execAdmitAbort k s
  | .weightMap k => Sys2Proof.Machine.execWeightMap k s
  | .weightUnmap k => Sys2Proof.Machine.execWeightUnmap k s
  | .weightFree k => Sys2Proof.Machine.execWeightFree k s
  | .blockReload k => Sys2Proof.Machine.execBlockReload k s
  | .jobLoad k hint repair => Sys2Proof.Machine.execJobLoad k hint repair s
  | .jobStart k => Sys2Proof.Machine.execJobStart k s
  | .jobKill k => Sys2Proof.Machine.execJobKill k s
  | .jobStatus k => Sys2Proof.Machine.execJobStatus k s
  | .jobUnload k => Sys2Proof.Machine.execJobUnload k s
  | .jobEnd j => Sys2Proof.Machine.execJobEnd j s
  | .jobTimeLimit j => Sys2Proof.Machine.execJobTimeLimit j s
  | .jobFault j c => Sys2Proof.Machine.execJobFault j c s
  | .sessionOpen k hint => Sys2Proof.Machine.execSessionOpen k hint s
  | .sessionClose k => Sys2Proof.Machine.execSessionClose k s
  | .submit k hint => Sys2Proof.Machine.execSubmit k hint s
  | .cancel k => Sys2Proof.Machine.execCancel k s
  | .pause k => Sys2Proof.Machine.execPause k s
  | .resume k hint => Sys2Proof.Machine.execResume k hint s
  | .adapterLoad k hint => Sys2Proof.Machine.execAdapterLoad k hint s
  | .adapterRetire k => Sys2Proof.Machine.execAdapterRetire k s
  | .grammarLoad k hint => Sys2Proof.Machine.execGrammarLoad k hint s
  | .grammarFree k => Sys2Proof.Machine.execGrammarFree k s
  | .ledgerQuery k => Sys2Proof.Machine.execLedgerQuery k s
  | .topologySet k b => Sys2Proof.Machine.execTopologySet k b s
  | .linkAssign k => Sys2Proof.Machine.execLinkAssign k s
  | .linkStatus k => Sys2Proof.Machine.execLinkStatus k s
  | .powerCap k => Sys2Proof.Machine.execPowerCap k s
  | .powerState k => Sys2Proof.Machine.execPowerState k s
  | .determinism k => Sys2Proof.Machine.execDeterminism k s
  | .lpddrShares k => Sys2Proof.Machine.execLpddrShares k s
  | .lotSeed k => Sys2Proof.Machine.execLotSeed k s
  | .settingsRead k => Sys2Proof.Machine.execSettingsRead k s
  | .digestFlush k => Sys2Proof.Machine.execDigestFlush k s
  | .loopback k o => Sys2Proof.Machine.execLoopback k o s
  | .warmReset k => Sys2Proof.Machine.execWarmReset k s
  | .bar2Read fn off n => Sys2Proof.Machine.execBar2Read fn off n s
  | .bar2Write fn off data => Sys2Proof.Machine.execBar2Write fn off data s
  | .governorTick regs temps rails => Sys2Proof.Machine.execGovernorTick regs temps rails s
  | .levelChange => Sys2Proof.Machine.execLevelChange s
  | .governorLimit => Sys2Proof.Machine.execGovernorLimit s
  | .dozeEntry => Sys2Proof.Machine.execDozeEntry s
  | .dozeExit => Sys2Proof.Machine.execDozeExit s
  | .deepExit good => Sys2Proof.Machine.execDeepExit good s
  | .heartbeat => Sys2Proof.Machine.execHeartbeat s
  | .coldBoot o => Sys2Proof.Machine.execColdBoot o s
  | .powerLoss => Sys2Proof.Machine.execPowerLoss s
  | .wrstN ns => Sys2Proof.Machine.execWrstN ns s
  | .warmResetSequence o => Sys2Proof.Machine.execWarmResetSequence o s
  | .pcieHotReset why => Sys2Proof.Machine.execPcieHotReset why s
  | .pfFlr => Sys2Proof.Machine.execPfFlr s
  | .vfFlr n => Sys2Proof.Machine.execVfFlr n s
  | .thermtrip d => Sys2Proof.Machine.execThermtrip d s
  | .pmbAlert rail => Sys2Proof.Machine.execPmbAlert rail s
  | .uncorrectablePrivate x => Sys2Proof.Machine.execUncorrectablePrivate x s
  | .sramCorrect a => Sys2Proof.Machine.execSramCorrect a s
  | .registerWrite who addr v => Sys2Proof.Machine.execRegisterWrite who addr v s
  | .idcode d => Sys2Proof.Machine.execIdcode d s
  | .samplePreload d => Sys2Proof.Machine.execSamplePreload d s
  | .extest d => Sys2Proof.Machine.execExtest d s
  | .extestPulse d => Sys2Proof.Machine.execExtestPulse d s
  | .extestTrain d => Sys2Proof.Machine.execExtestTrain d s
  | .clamp d => Sys2Proof.Machine.execClamp d s
  | .highz d => Sys2Proof.Machine.execHighz d s
  | .ijtag d op => Sys2Proof.Machine.execIjtag d op s
  | .unlock d op => Sys2Proof.Machine.execUnlock d op s
  | .bypass d code => Sys2Proof.Machine.execBypass d code s
  | .lockFuse d => Sys2Proof.Machine.execLockFuse d s
  | .illegal h => Sys2Proof.Machine.execIllegal h s
  | .vfEnable n => Sys2Proof.Machine.execVfEnable n s
  | .wrstNDeassert o => Sys2Proof.Machine.execWrstNDeassert o s
  | .perstNDeassert => Sys2Proof.Machine.execPerstNDeassert s

end Sys2Proof.Machine
end

