-- ==== Sys2Proof/Safety.lean ====
section
/-! DEFINITION. The terms that statements use: the invariant of every state, what a command leaves unchanged, and what it means that a
unit's command completes. -/

namespace Sys2Proof.Machine

/-! ## The invariant -/

/-- Both memories are in canonical form: addresses strictly rising, no byte that an unlisted address reads as. -/
def State.canonical (s : State) : Prop := s.mem.wf = true ∧ s.hostMem.wf = true

/-! ## Frames

Each relation says what may differ between two states; everything that it does not name is equal. The counter of free values is the
model's own field (log entry 7) and may differ in each. -/

/-- Only hamlets differ. -/
def State.onlyHamlets (s t : State) : Prop := t = { s with hamlets := t.hamlets, freeCtr := t.freeCtr }

/-- Of the hamlets only the one in slot `m` differs. -/
def State.otherHamlets (s t : State) (m : HamletRef) : Prop :=
  ∀ k, k ≠ slotKey m.die m.slot → t.hamlets.find k = s.hamlets.find k

/-- Among the hamlets only Hand `h` differs, and the time since which its hamlet has been idle (R369). -/
def State.otherHands (s t : State) (h : HandRef) : Prop :=
  s.otherHamlets t (handSlot h) ∧
  t.hamlet (handSlot h) = { s.hamlet (handSlot h) with hands := (t.hamlet (handSlot h)).hands, idleSince := s.mclk } ∧
  ∀ i, i ≠ h.idx → (t.hamlet (handSlot h)).hands.find i = (s.hamlet (handSlot h)).hands.find i

/-- Only Hand `h` differs. -/
def State.onlyHand (s t : State) (h : HandRef) : Prop := s.onlyHamlets t ∧ s.otherHands t h

/-- Among the hamlets only Mill `u` differs, and the time since which its hamlet has been idle (R369). -/
def State.otherMills (s t : State) (u : MillRef) : Prop :=
  s.otherHamlets t (millSlot u) ∧
  t.hamlet (millSlot u) = { s.hamlet (millSlot u) with
    mills := (t.hamlet (millSlot u)).mills, idleSince := (t.hamlet (millSlot u)).idleSince } ∧
  ∀ i, i ≠ u.idx → (t.hamlet (millSlot u)).mills.find i = (s.hamlet (millSlot u)).mills.find i

/-- The bytes `d` stand at address `a` of memory and every other byte is as it was. -/
def State.memHas (s t : State) (a : Nat) (d : List Byte) : Prop :=
  (∀ i (hi : i < d.length), t.mem.read (a + i) = d[i]) ∧ ∀ k, (k < a ∨ a + d.length ≤ k) → t.mem.read k = s.mem.read k

/-! ## Completion -/

/-- The command runs, Hand `h` becomes what `f` makes of it, and nothing else changes. -/
def State.handDoes (s : State) (c : Instr) (h : HandRef) (f : Hand → Hand) : Prop :=
  ∃ t, exec c s = .next t ∧ t.hand h = f (s.hand h) ∧ s.onlyHand t h

/-- The command runs, Mill `u` becomes what `f` makes of it, and nothing else changes. -/
def State.millDoes (s : State) (c : Instr) (u : MillRef) (f : Mill → Mill) : Prop :=
  ∃ t, exec c s = .next t ∧ t.mill u = f (s.mill u) ∧ s.onlyHamlets t ∧ s.otherMills t u

/-- MILL_FIRST_ERR of tile `tile` after errors in their order, each with its cause and row: the first of all stays (R102). -/
def MillFirstErr.then_ (x : MillFirstErr) (tile : Word32) : List (BitVec 3 × Nat) → MillFirstErr
  | [] => x
  | e :: _ => if x.cause = 0 then { tile := tile, cause := e.1, row := BitVec.ofNat 10 e.2 } else x

/-- Mill `u` reports the errors of a descriptor of tile `tile`, each with its cause and row: the sticky bits are as `f` says, the first error is kept,
and its Hand gets a Mill event where there is one (R82, R96, R102, R103). -/
def State.millReports (s t : State) (u : MillRef) (tile : Word32) (f : MillSticky → MillSticky) (l : List (BitVec 3 × Nat)) : Prop :=
  (t.mill u).sticky = f (s.mill u).sticky ∧ (t.mill u).firstErr = (s.mill u).firstErr.then_ tile l ∧
    (t.hand ⟨u.die, u.slot, u.idx⟩).evPend =
      if l.isEmpty then (s.hand ⟨u.die, u.slot, u.idx⟩).evPend else (s.hand ⟨u.die, u.slot, u.idx⟩).evPend ||| 1

/-- A one-element list where a condition holds. -/
def oneIf (b : Bool) (x : BitVec 3 × Nat) : List (BitVec 3 × Nat) := if b then [x] else []

/-- Hand `h` issues `i`, a global load at `ea` of `n` bytes at an alignment, which `f` puts into its register (R139). -/
def State.globalLoads (s : State) (h : HandRef) (i : Instr) (ea : Word64) (n align : Nat) (f : List Byte → Hand → Hand) : Prop :=
  ∃ a d off, ea = (s.hand h).s a + off ∧
    ((s.handOp h = some (.gld a d off) ∧ i = .gld h ∧ n = 8 ∧ align = 8 ∧ f = putScalar d) ∨
      (s.handOp h = some (.gvld a d off) ∧ i = .gvld h ∧ n = 64 ∧ align = 4 ∧ f = putVector d))

/-- Hand `h` issues `i`, a global store of bytes `data` at `ea` at an alignment (R139). -/
def State.globalStores (s : State) (h : HandRef) (i : Instr) (ea : Word64) (data : List Byte) (align : Nat) : Prop :=
  (∃ a d off, s.handOp h = some (.gst a d off) ∧ i = .gst h ∧ ea = (s.hand h).s a + off ∧ data = toBytes 8 ((s.hand h).s d).toNat ∧ align = 8) ∨
    (∃ a d off, s.handOp h = some (.gvst a d off) ∧ i = .gvst h ∧ ea = (s.hand h).s a + off ∧ data = vecBytes ((s.hand h).v d) ∧ align = 4) ∨
    ∃ a b d, s.handOp h = some (.gvstn a b d) ∧ i = .gvstn h ∧ ea = (s.hand h).s a ∧ 1 ≤ ((s.hand h).s b).toNat ∧ ((s.hand h).s b).toNat ≤ 64 ∧
      data = (vecBytes ((s.hand h).v d)).take ((s.hand h).s b).toNat ∧ align = 4

/-- A place of LPDDR, or one of on-chip memory behind no fence, in a scratchpad only of an Active hamlet, and in no slot of an enabled ring that
Hand `h` does not hold (R177, R186, R189). -/
def State.openPlace (s : State) (h : HandRef) (write : Bool) (p n : Nat) : Prop :=
  p < sramBase ∨ (sramBase ≤ p ∧ s.fenced p = false ∧ (∀ m, slotOfAddr p = some m → (s.hamlet m).power = .active) ∧
    s.rawSlots (s.heldBy h) write p n = [])

/-- Ring `r`, enabled in a running hamlet with nobody waiting, no bound end and no ring over it, holds slot `i` for the next claim. -/
def State.offers (s : State) (r : RingRef) (i : Nat) : Prop :=
  (s.hamlet (ringSlot r)).power = .active ∧ (s.ring r).enable = true ∧ (s.ring r).bind = none ∧ (s.ring r).origins.cells = [] ∧
    (s.ring r).waiters = [] ∧ (s.ring r).grants = [] ∧ (s.hamlet (ringSlot r)).ringsOverlap r.idx = false ∧
    (s.ring r).claim = i ∧ (s.ring r).slot i = .published

/-- Ring `r`, enabled in a running hamlet with nobody waiting, no receiving end and no ring over it, has slot `i` free for the next reserve, and `i` is
the slot at PUB. -/
def State.accepts (s : State) (r : RingRef) (i : Nat) : Prop :=
  (s.hamlet (ringSlot r)).power = .active ∧ (s.ring r).enable = true ∧ s.receiving r = false ∧
    (s.ring r).waiters = [] ∧ (s.ring r).grants = [] ∧ (s.hamlet (ringSlot r)).ringsOverlap r.idx = false ∧
    (s.ring r).rsv = i ∧ (s.ring r).slot i = .free ∧ (s.ring r).pub = i ∧ i + 1 < (s.ring r).size ∧ (s.ring r).slot (i + 1) ≠ .ready

/-- The ring after an engine claimed slot `i` and released it. -/
def Ring.used (x : Ring) (m : HamletRef) (a : RingAgent) (i : Nat) : Ring :=
  { x.setSlot i .claimed with claim := x.after i, grant := portAfter (agentPort m a) }.release i

/-- The Porter command for a descriptor TYPE. -/
def porterCommand (p : PorterRef) (ty : Nat) : Instr :=
  match ty with
  | 1 => .copy p
  | 2 => .gather p
  | 3 => .scatter p
  | _ => .reduce p

/-- An engine of a parish holds descriptor `d`, checked and not begun, for job `n`. -/
def State.engineReady (s : State) (p : ParishRef) (e : ParishEngine) (n : Nat) (j : Job) (d : Vec) : Prop :=
  s.engineJob p e = some (n, j) ∧ (s.engine p e).enable = true ∧ (s.engine p e).run = none ∧ (s.engine p e).cur = some { desc := d } ∧
    s.engineCheck j e d = .ok ∧ srcRing d = false ∧ dstRing d = false

/-- The bytes that an actor moves at an effective address are no KV that no request of the step of its job may move, none that a misuse has
left open, and a write of them changes no adapter that a request pins (R404). -/
def State.kvRespected (s : State) (who : Actor) (write : Bool) (ea n : Nat) : Prop :=
  (∀ k j, who.job = some k → s.jobs.find k = some j → j.serving.active = true → ∀ x, ea ≤ x → x < ea + n →
    s.kvMisuse k j write (x % 2 ^ 48) = false) ∧
    (write = false → ∀ x, ea ≤ x → x < ea + n → s.kvOpenAt who (x % 2 ^ 48) = false) ∧
    (write = true → ∀ c ∈ s.adapters.cells, c.2.writtenAt who.household ea n = false)

/-- `n` bytes at an effective address lie in a clear LPDDR page of an actor at package address `a`, in one 2 KiB block without poison, and are
no misused KV. -/
def State.clearPage (s : State) (who : Actor) (write : Bool) (ea n a : Nat) : Prop :=
  s.resolve who write ea = some (.mem a .plain) ∧ a < sramBase ∧ 0 < n ∧ ea % 2048 + n ≤ 2048 ∧ (write = false → s.poisonedAt a n = false) ∧
    s.kvRespected who write ea n

/-- The poison list of the die of an LPDDR address has no poisoned copy, and the address is in neither copy (R193). -/
def State.listSound (s : State) (a : Nat) : Prop :=
  ∀ b ∈ s.firmCopies (a / 0xc000000000) .poisonList, b / 2048 ≠ a / 2048 ∧ s.blkPoison.contains (b / 2048) = false

/-- The oldest packet of a class that waits at a die is `p`, of the operation given, and a request has buffer space for its answer. -/
def State.packetWaits (s : State) (d : Nat) (cls : BitVec 2) (op : BitVec 4) (p : Packet) : Prop :=
  (s.die d).inbox.find? (fun q => q.cls == cls) = some p ∧ p.op = op ∧ (cls = clsReq → s.answerRoom d p = true)

/-- The state without a waiting packet, whose receive buffers are free. -/
def State.withoutPacket (s : State) (d : Nat) (p : Packet) : State :=
  (s.modDie d fun x => { x with inbox := x.inbox.erase p }).owe p.buf

/-- The page table of a household lies in the reserved region of its die (R193, R198). -/
def State.tableFits (s : State) (hh : Nat) : Prop := (s.household hh).ptBase + 8 * (s.household hh).ptLen ≤ reservedBytes

/-- An address is in no die's copy of `n` entries of a household from a page on. -/
def State.offTables (s : State) (hh first n a : Nat) : Prop :=
  ∀ d, d < s.dieCount → a < s.pteAddr d hh first ∨ s.pteAddr d hh first + 8 * n ≤ a

/-- No copy of the admission journal is poisoned (R193, R353). -/
def State.journalSound (s : State) : Prop := ∀ b ∈ s.firmCopies 0 .journal, s.blkPoison.contains (b / 2048) = false

/-- No flit waits for a link, on one, or in a receive buffer of one for a reorder store. -/
def State.linksEmpty (s : State) : Prop := s.stranded = [] ∧ ∀ k, (s.landing k).out = [] ∧ (s.landing k).parked = []

/-- Postbox `k` has a command waiting, whose 64 bytes are `b`, and the head Reeve may take it. -/
def State.commandWaits (s : State) (k : Nat) (b : List Byte) : Prop :=
  s.serves = true ∧ (s.postbox k).enable = true ∧ (s.postbox k).running = true ∧ (s.postbox k).cur = none ∧
    (s.postbox k).tail ≠ (s.postbox k).cmdHead ∧
    s.hostRead ((s.postbox k).cmdBase.toNat + 64 * ((s.postbox k).cmdHead.toNat % (s.postbox k).cmdSize)) 64 = some b

/-- The state in which postbox `k` has counted one more command as taken, which is activity of the Reeve (R371). -/
def State.consumed (s : State) (k : Nat) : State := { s.stir with fetchNext := s.fetchNext + 1 }.modPostbox k fun x => { x with cmdHead := x.cmdHead + 1 }

/-- Postbox `k` has taken command `c` of opcode `op`, and the head Reeve runs it. -/
def State.commandRuns (s : State) (k op : Nat) (c : Command) : Prop :=
  (s.postbox k).cur = some c ∧ s.serves = true ∧ c.opcode.toNat = op ∧ (s.ident.state ≠ .undefined ∨ runsUndefined op = true) ∧
    s.turn k c = true

/-- The row completes command `c` of postbox `k` with a status and RESULT, and its effect makes the state `t`. -/
def State.replies (s : State) (i : Instr) (k : Nat) (c : Command) (status : Nat) (result : Word64) (t : State) : Prop :=
  exec i s = .next (t.completeCmd k c status result)

/-- The command runs, Hand `h` becomes what `f` makes of it, the bytes `d` are written at address `a`, the poison of words of on-chip
memory may clear, and nothing else changes. -/
def State.handStores (s : State) (c : Instr) (h : HandRef) (f : Hand → Hand) (a : Nat) (d : List Byte) : Prop :=
  ∃ t, exec c s = .next t ∧ t.hand h = f (s.hand h) ∧ s.otherHands t h ∧ s.memHas t a d ∧
    t = { s with hamlets := t.hamlets, freeCtr := t.freeCtr, mem := t.mem, sramPoison := t.sramPoison }

end Sys2Proof.Machine
end

