-- ==== Sys2Proof/Certificates/Slice0/Obligations.lean ====
section
/-! DEFINITION. The statements about the Atoltu 88: one Prop per obligation of OBLIGATIONS.json. -/

open Sys2Proof Sys2Proof.Machine

/-- R134 to R136: each scalar instruction answers a next state with its result in s[D] and the PC advanced. The frame is `State.onlyHand`. -/
def Obligations.HandIntegerInstructions : Prop :=
  ∀ (s : State) (h : HandRef),
    (∀ fn a b d, s.handOp h = some (.int fn a b d) →
      s.handDoes (.int h) h fun x => (x.setS d (intResult fn (x.s a) (x.s b))).advance) ∧
    (∀ fn a b d, s.handOp h = some (.div fn a b d) →
      s.handDoes (.div h) h fun x => (x.setS d (divResult fn (x.s a) (x.s b))).advance) ∧
    (∀ op a d imm, s.handOp h = some (.addi op a d imm) →
      s.handDoes (.addi h) h fun x => (x.setS d (intResult (immFn op) (x.s a) imm)).advance) ∧
    (∀ kind amt a d, s.handOp h = some (.shi kind amt a d) →
      s.handDoes (.shi h) h fun x => (x.setS d (shiftResult kind amt (x.s a))).advance) ∧
    (∀ d imm, s.handOp h = some (.lui d imm) → s.handDoes (.lui h) h fun x => (x.setS d (imm <<< 12)).advance) ∧
    (∀ d imm, s.handOp h = some (.luih d imm) →
      s.handDoes (.luih h) h fun x => (x.setS d (((x.s d).setWidth 32).setWidth 64 + imm <<< 32)).advance)

/-- R136. FN 0x14 to 0x17 are DIV, DIVU, REM and REMU (Table 5.3). -/
def Obligations.DivisionNeverTraps : Prop :=
  ∀ (s : State) (h : HandRef) (fn a b d : Nat), s.handOp h = some (.div fn a b d) →
    ((s.hand h).s b = 0 → fn = 0x14 ∨ fn = 0x15 → s.handDoes (.div h) h fun x => (x.setS d (BitVec.allOnes 64)).advance) ∧
    ((s.hand h).s b = 0 → fn = 0x16 ∨ fn = 0x17 → s.handDoes (.div h) h fun x => (x.setS d (x.s a)).advance) ∧
    ((s.hand h).s a = BitVec.intMin 64 → (s.hand h).s b = BitVec.allOnes 64 → fn = 0x14 →
      s.handDoes (.div h) h fun x => (x.setS d (BitVec.intMin 64)).advance) ∧
    ((s.hand h).s a = BitVec.intMin 64 → (s.hand h).s b = BitVec.allOnes 64 → fn = 0x16 →
      s.handDoes (.div h) h fun x => (x.setS d 0).advance)

/-- R137, with the FETCH exception of a bad target in `Hand.goto` (R131). -/
def Obligations.HandControlFlow : Prop :=
  ∀ (s : State) (h : HandRef),
    (∀ cond a b off, s.handOp h = some (.br cond a b off) →
      (condHolds cond ((s.hand h).s a) ((s.hand h).s b) = true → s.handDoes (.br h) h fun x => x.goto (x.pc + 4 * off)) ∧
      (condHolds cond ((s.hand h).s a) ((s.hand h).s b) = false → s.handDoes (.br h) h Hand.advance)) ∧
    (∀ cond p off, s.handOp h = some (.pbr cond p off) →
      ((cond = 0 ↔ (s.hand h).p p ≠ 0) → s.handDoes (.pbr h) h fun x => x.goto (x.pc + 4 * off)) ∧
      (¬(cond = 0 ↔ (s.hand h).p p ≠ 0) → s.handDoes (.pbr h) h Hand.advance)) ∧
    (∀ d off, s.handOp h = some (.jal d off) →
      s.handDoes (.jal h) h fun x => (x.setS d (x.pc + 4)).goto (x.pc + 4 * off)) ∧
    (∀ d a imm, s.handOp h = some (.jalr d a imm) →
      s.handDoes (.jalr h) h fun x => (x.setS d (x.pc + 4)).goto ((x.s a + imm) &&& ~~~3#64))

/-- R134, R140, R149, R155, R268. TWR changes its Tally unit too, so its frame names the state it leaves. R155 on one RW and one W1C register: HSCRATCH (0x00D) and HEVPEND (0x007). -/
def Obligations.HandPredicateControlAndUnitRegisters : Prop :=
  (∀ (s : State) (h : HandRef),
    (∀ fn b a d, s.handOp h = some (.pr fn b a d) → s.handDoes (.pr h) h fun x => (prResult fn b a d x).advance) ∧
    (∀ num op a d, s.handOp h = some (.csr num op a d) → csrBreaks num op ((s.hand h).s a) = false →
      s.handDoes (.csr h) h fun x => ((x.csrWrite num op (csrRead s h num) (x.s a)).setS d (csrRead s h num)).advance) ∧
    (∀ a b d, s.handOp h = some (.lot a b d) → firmwareStream (fieldOf ((s.hand h).s b) 32 32) = false →
      s.handDoes (.lot h) h fun x => (lotResult s.settings.lotSeed a b d x).advance) ∧
    (∀ a d, s.handOp h = some (.trd a d) →
      s.handDoes (.trd h) h fun x => (x.setS d (s.tally (tallyFor h (x.s a))).value).advance) ∧
    (s.handOp h = some .hfence → s.handDoes (.hfence h) h Hand.advance) ∧
    (∀ a b, s.handOp h = some (.twr a b) →
      ∃ t, exec (.twr h) s = .next t ∧ t.hand h = (s.hand h).advance ∧
        t.tally (tallyFor h ((s.hand h).s a)) = { s.tally (tallyFor h ((s.hand h).s a)) with value := (s.hand h).s b } ∧
        s.onlyHamlets t)) ∧
  (∀ (s : State) (h : HandRef) (op a d : Nat), d ≠ 0 →
    (s.handOp h = some (.csr 0xd op a d) → ∃ t, exec (.csr h) s = .next t ∧
      ((s.hand h).setS d (s.hand h).scratch).pc = (s.hand h).pc ∧ (t.hand h).s d = (s.hand h).scratch ∧
      (op = 0 → (t.hand h).scratch = (s.hand h).scratch) ∧ (op = 1 → (t.hand h).scratch = (s.hand h).s a) ∧
      (op = 2 → (t.hand h).scratch = (s.hand h).scratch ||| (s.hand h).s a) ∧
      (op = 3 → (t.hand h).scratch = (s.hand h).scratch &&& ~~~(s.hand h).s a)) ∧
    (s.handOp h = some (.csr 0x7 op a d) → (s.hand h).s a &&& csrReserved 0x7 = 0 → ∃ t, exec (.csr h) s = .next t ∧
      (t.hand h).s d = (s.hand h).evPend.setWidth 64 ∧
      (op = 0 ∨ op = 2 → (t.hand h).evPend = (s.hand h).evPend) ∧
      (op = 1 ∨ op = 3 → (t.hand h).evPend = (s.hand h).evPend &&& ~~~((s.hand h).s a).setWidth 6)))

/-- R141 to R145: completion and frame; the operations are those of Machine/HandVec.lean. -/
def Obligations.HandVectorInstructions : Prop :=
  ∀ (s : State) (h : HandRef),
    (∀ op ty p b a d, s.handOp h = some (.vi op ty p b a d) → s.handDoes (.vi h) h fun x => (viResult op ty p b a d x).advance) ∧
    (∀ op ty p b a d, s.handOp h = some (.vf op ty p b a d) → s.handDoes (.vf h) h fun x => (vfResult op ty p b a d x).advance) ∧
    (∀ op ty b a d, s.handOp h = some (.vx op ty b a d) → s.handDoes (.vx h) h fun x => (vxResult op ty b a d x).advance) ∧
    (∀ op ty a d, s.handOp h = some (.vrsum op ty a d) → s.handDoes (.vrsum h) h fun x => (vrsumResult op ty a d x).advance) ∧
    (∀ fn b a d, s.handOp h = some (.vc fn b a d) → s.handDoes (.vc h) h fun x => (vcResult fn b a d x).advance) ∧
    (∀ b a d, s.handOp h = some (.tern b a d) → s.handDoes (.tern h) h fun x => (ternResult b a d x).advance) ∧
    (∀ a d, s.handOp h = some (.packt a d) → s.handDoes (.packt h) h fun x => (packtResult a d x).advance) ∧
    (∀ a d, s.handOp h = some (.unpackt a d) → s.handDoes (.unpackt h) h fun x => (unpacktResult a d x).advance)

/-- R130, over the merge that every predicated operation uses. -/
def Obligations.PredicatedLanesKeepTheirValue : Prop :=
  ∀ (s : State) (h : HandRef) (op ty p b a d i : Nat), i < laneCount ty → ((s.hand h).p p).getLsbD i = false →
    (s.handOp h = some (.vi op ty p b a d) → op ≤ 11 →
      ∃ t, exec (.vi h) s = .next t ∧ lane (laneWidth ty) ((t.hand h).v d) i = lane (laneWidth ty) ((s.hand h).v d) i) ∧
    (s.handOp h = some (.vf op ty p b a d) → op ≤ 12 →
      ∃ t, exec (.vf h) s = .next t ∧ lane (laneWidth ty) ((t.hand h).v d) i = lane (laneWidth ty) ((s.hand h).v d) i)

/-- R134, R146, R153 and R154. -/
def Obligations.HandSystemInstructions : Prop :=
  ∀ (s : State) (h : HandRef),
    (s.handOp h = some .wait →
      ((s.hand h).eventEnabled = true → s.handDoes (.wait h) h Hand.advance) ∧
      ((s.hand h).eventEnabled = false → s.handDoes (.wait h) h fun x => { x with wait := .sleep })) ∧
    (s.handOp h = some .eret → s.handDoes (.eret h) h Hand.eret) ∧
    (s.handOp h = some .halt → s.handDoes (.halt h) h fun x => { x with mode := .halted }) ∧
    (∀ code, s.handOp h = some (.trap code) → s.handDoes (.trap h) h fun x => x.exception .trap (BitVec.ofNat 64 code)) ∧
    (s.handOp h = some .illegal → s.handDoes (.illegal h) h fun x => x.exception .illegal (x.word.setWidth 64))

/-- R153 over `Hand.exception`; HXVEC holds 15 bits, so a handler address can be fetched from when it is a multiple of 4. -/
def Obligations.ExceptionEntersHandlerOrStops : Prop :=
  ∀ (x : Hand) (c : Cause) (v : Word64),
    (x.xvec ≠ 0 → x.inHandler = false → x.xvec.toNat % 4 = 0 →
      (x.exception c v).epc = epcOf x.pc ∧ (x.exception c v).causeCode = c.code ∧ (x.exception c v).causeEvent = false ∧
      (x.exception c v).tval = v ∧ (x.exception c v).inHandler = true ∧ (x.exception c v).pc = x.xvec.setWidth 64 ∧
      (x.exception c v).mode = x.mode) ∧
    (x.xvec = 0 ∨ x.inHandler = true →
      (x.exception c v).epc = epcOf x.pc ∧ (x.exception c v).causeCode = c.code ∧ (x.exception c v).causeEvent = false ∧
      (x.exception c v).tval = v ∧ (x.exception c v).inHandler = x.inHandler ∧ (x.exception c v).pc = x.pc ∧
      (x.exception c v).mode = .faulted ∧ (x.exception c v).fault = true)

/-- R138: loads from the Hand's own scratchpad. `localCause` is the exception of the access and `rawSlots` the ring slots that it touches raw (R177). -/
def Obligations.HandLocalLoads : Prop :=
  ∀ (s : State) (h : HandRef) (ea : Word64) (n align : Nat), localCause ea n align = none →
    s.fenced (sramAddr (handSlot h) (localOff ea)) = false → s.poisonedAt (sramAddr (handSlot h) (localOff ea)) n = false →
    s.rawSlots (s.heldBy h) false (sramAddr (handSlot h) (localOff ea)) n = [] →
    (∀ op a d imm, s.handOp h = some (.localLoad op a d imm) → ea = (s.hand h).s a + imm → n = loadSize op → align = loadSize op →
      s.handDoes (.localLoad h) h fun x =>
        (x.setS d (loadValue op (s.mem.readBytes (sramAddr (handSlot h) (localOff ea)) n))).advance) ∧
    (∀ a d off, s.handOp h = some (.vld a d off) → ea = (s.hand h).s a + off → n = 64 → align = 4 →
      s.handDoes (.vld h) h fun x => (x.setV d (vecOf (s.mem.readBytes (sramAddr (handSlot h) (localOff ea)) n))).advance)

/-- R138: stores to the Hand's own scratchpad. The memory is in canonical form, the invariant that CanonicalKept states. R138: any other value of s[B] raises ILLEGAL at execution. -/
def Obligations.HandLocalStores : Prop :=
  (∀ (s : State) (h : HandRef) (ea : Word64) (data : List Byte) (align : Nat), s.mem.wf = true →
    localCause ea data.length align = none → s.fenced (sramAddr (handSlot h) (localOff ea)) = false →
    s.rawSlots (s.heldBy h) true (sramAddr (handSlot h) (localOff ea)) data.length = [] →
    (∀ op a d imm, s.handOp h = some (.localStore op a d imm) → ea = (s.hand h).s a + imm →
      data = toBytes (2 ^ op) ((s.hand h).s d).toNat → align = 2 ^ op →
      s.handStores (.localStore h) h Hand.advance (sramAddr (handSlot h) (localOff ea)) data) ∧
    (∀ a d off, s.handOp h = some (.vst a d off) → ea = (s.hand h).s a + off → data = vecBytes ((s.hand h).v d) → align = 4 →
      s.handStores (.vst h) h Hand.advance (sramAddr (handSlot h) (localOff ea)) data) ∧
    (∀ a b d, s.handOp h = some (.vstn a b d) → ea = (s.hand h).s a → 1 ≤ ((s.hand h).s b).toNat → ((s.hand h).s b).toNat ≤ 64 →
      data = (vecBytes ((s.hand h).v d)).take ((s.hand h).s b).toNat → align = 4 →
      s.handStores (.vstn h) h Hand.advance (sramAddr (handSlot h) (localOff ea)) data)) ∧
  (∀ (s : State) (h : HandRef) (a b d : Nat), ((s.hand h).s b).toNat = 0 ∨ 64 < ((s.hand h).s b).toNat →
    (s.handOp h = some (.vstn a b d) → s.handDoes (.vstn h) h fun x => x.exception .illegal (x.word.setWidth 64)) ∧
    (s.handOp h = some (.gvstn a b d) → s.handDoes (.gvstn h) h fun x => x.exception .illegal (x.word.setWidth 64)))

/-- R138, R153 and R164 for each local access; the exception is taken as `Hand.exception` says. That an aligned access that starts below the limit and whose bytes run past it raises ACCESS is the choice of the model (log entry 10). -/
def Obligations.HandLocalExceptions : Prop :=
  ∀ (s : State) (h : HandRef) (ea : Word64) (n align : Nat) (i : Instr),
    ((∃ op a d imm, s.handOp h = some (.localLoad op a d imm) ∧ i = .localLoad h ∧ ea = (s.hand h).s a + imm ∧ n = loadSize op ∧ align = n) ∨
      (∃ op a d imm, s.handOp h = some (.localStore op a d imm) ∧ i = .localStore h ∧ ea = (s.hand h).s a + imm ∧ n = 2 ^ op ∧ align = n) ∨
      (∃ a d off, s.handOp h = some (.vld a d off) ∧ i = .vld h ∧ ea = (s.hand h).s a + off ∧ n = 64 ∧ align = 4) ∨
      (∃ a d off, s.handOp h = some (.vst a d off) ∧ i = .vst h ∧ ea = (s.hand h).s a + off ∧ n = 64 ∧ align = 4) ∨
      (∃ a b d, s.handOp h = some (.vstn a b d) ∧ i = .vstn h ∧ ea = (s.hand h).s a ∧ 1 ≤ ((s.hand h).s b).toNat ∧ ((s.hand h).s b).toNat ≤ 64 ∧
        n = ((s.hand h).s b).toNat ∧ align = 4)) →
    (padBytes ≤ ea.toNat % 2 ^ 23 → s.handDoes i h fun x => x.exception .access ea) ∧
    (ea.toNat % 2 ^ 23 < padBytes → ea.toNat % align ≠ 0 → s.handDoes i h fun x => x.exception .align ea) ∧
    (ea.toNat % 2 ^ 23 < padBytes → ea.toNat % align = 0 → padBytes < ea.toNat % 2 ^ 23 + n → s.handDoes i h fun x => x.exception .access ea) ∧
    (i = .localLoad h ∨ i = .vld h → localCause ea n align = none → s.fenced (sramAddr (handSlot h) (localOff ea)) = false →
      s.poisonedAt (sramAddr (handSlot h) (localOff ea)) n = true → s.handDoes i h fun x => x.exception .poison ea)

/-- R139 with R197 to R202, R209 and R210, for an access inside one aligned 2 KiB, which is the unit in which the map of Table 7.4 is judged, and that misuses no KV page (R404). A scratchpad is that of an Active hamlet behind no fence and the place touches no ring slot raw (`openPlace`, R177). The blocks of a poisoned read are kept with the step of a serving job (R300). -/
def Obligations.HandGlobalLoads : Prop :=
  ∀ (s : State) (h : HandRef) (i : Instr) (ea : Word64) (n align : Nat) (f : List Byte → Hand → Hand), s.globalLoads h i ea n align f →
    (s.handActor h = none → s.handDoes i h fun x => x.exception .access ea) ∧
    ∀ who, s.handActor h = some who →
      (s.reaches who false ea.toNat n = false → s.handDoes i h fun x => x.exception .access ea) ∧
      (s.reaches who false ea.toNat n = true → ea.toNat % align ≠ 0 → s.handDoes i h fun x => x.exception .align ea) ∧
      (ea.toNat % align = 0 → ea.toNat % 2048 + n ≤ 2048 →
        (∀ x, s.resolve who false ea.toNat = some (.remote x) → exec i s = .next
          (match s.request h.die 1 ea.toNat who.household n [] false (.handLoad h 0) with
          | some t => t.retire h fun x => { x with wait := .remote, waitFrom := s.mclk, stalled := false, rbuf := {} }
          | none => s.except h .access ea)) ∧
        (s.kvRespected who false ea.toNat n →
          (∀ p c, s.resolve who false ea.toNat = some (.mem p c) → s.openPlace h false p n →
            (s.poisonedAt p n = false → ∃ t, exec i s = .next t ∧ t.hand h = (f (s.bytesAt p n c) (s.hand h)).advance ∧ s.otherHands t h ∧
              t = { s with hamlets := t.hamlets, parishes := t.parishes }) ∧
            (s.poisonedAt p n = true → ∃ t, exec i s = .next t ∧ t.hand h = (s.hand h).exception .poison ea ∧ s.otherHands t h ∧
              t = { s with hamlets := t.hamlets, parishes := t.parishes, jobs := t.jobs })) ∧
          (∀ m off, s.resolve who false ea.toNat = some (.reg m off) → (s.hamlet m).power = .active → (s.hamlet m).fence = .lowered →
            s.handDoes i h fun x => (f (regBytes (s.hamletReg m) off n) x).advance) ∧
          (∀ p off, s.resolve who false ea.toNat = some (.granary p off) →
            s.handDoes i h fun x => (f (regBytes (s.parish p).granReg off n) x).advance) ∧
          (∀ c off, s.resolve who false ea.toNat = some (.controller c off) →
            s.handDoes i h fun x => (f (regBytes (s.ctlReg c) off n) x).advance)))

/-- R139 with R197 to R202, R209 and R210 for stores that misuse no KV page (R404); `State.putBytes` stores under a key (R210) and `openPlace` is as in HandGlobalLoads. -/
def Obligations.HandGlobalStores : Prop :=
  ∀ (s : State) (h : HandRef) (i : Instr) (ea : Word64) (data : List Byte) (align : Nat), s.globalStores h i ea data align →
    (s.handActor h = none → s.handDoes i h fun x => x.exception .access ea) ∧
    ∀ who, s.handActor h = some who →
      (s.reaches who true ea.toNat data.length = false → s.handDoes i h fun x => x.exception .access ea) ∧
      (s.reaches who true ea.toNat data.length = true → ea.toNat % align ≠ 0 → s.handDoes i h fun x => x.exception .align ea) ∧
      (ea.toNat % align = 0 → ea.toNat % 2048 + data.length ≤ 2048 →
        (∀ x, s.resolve who true ea.toNat = some (.remote x) → exec i s = .next
          (match s.request h.die 0 ea.toNat who.household data.length data false (.handStore h) with
          | some t => t.retire h fun x => { x with wait := .remote, waitFrom := s.mclk, stalled := false, rbuf := {} }
          | none => s.except h .access ea)) ∧
        (s.kvRespected who true ea.toNat data.length →
          (∀ p c, s.mem.wf = true → s.resolve who true ea.toNat = some (.mem p c) → s.openPlace h true p data.length →
            ∃ t, exec i s = .next t ∧ t.hand h = (s.hand h).advance ∧ s.otherHands t h ∧ t.mem = s.putBytes p data c ∧
              (c = .plain → s.memHas t p data) ∧
              t = { s with hamlets := t.hamlets, parishes := t.parishes, mem := t.mem, blkPoison := t.blkPoison, sramPoison := t.sramPoison }) ∧
          (∀ m off, s.resolve who true ea.toNat = some (.reg m off) → (s.hamlet m).power = .active → (s.hamlet m).fence = .lowered →
            exec i s = .next (((wholeWords off data).foldl (fun t w => t.writeHamletReg m (.hand h) w.1 w.2) s).retire h Hand.advance))))

/-- R146, R147, R171. The ring is one of its hamlet in state Active, bound at neither end (R326), that no other ring of the hamlet overlaps (R168). -/
def Obligations.HandTakesRingSlots : Prop :=
  ∀ (s : State) (h : HandRef) (r : RingRef) (k : Nat) (j : Job), s.jobAt (handSlot h) = some (k, j) →
    (s.hamlet (ringSlot r)).power = .active → (s.ring r).waiters = [] → (s.ring r).grants = [] → (s.ring r).enable = true →
    (s.hamlet (ringSlot r)).ringsOverlap r.idx = false →
    (∀ i a d, (i = .rget h ∧ s.handOp h = some (.rget a d)) ∨ (i = .rgetx h ∧ s.handOp h = some (.rgetx a d)) →
      s.refKind j (refOf ((s.hand h).s a)) = .job r → (s.hand h).claims.length < 4 → (s.ring r).bind = none →
      (s.ring r).slot (s.ring r).claim = .published →
      ∃ t, exec i s = .next t ∧ s.onlyHamlets t ∧
        t.hand h = (({ s.hand h with
          claims := (s.hand h).claims ++ [SlotRef.mk r (s.ring r).claim], wait := .none, stalled := false
          exp := if i = Instr.rgetx h then some (s.expander j.household r (s.ring r).claim) else (s.hand h).exp }).setS d
            (s.payloadEa j r (s.ring r).claim)).advance ∧
        t.ring r = { (s.ring r).setSlot (s.ring r).claim .claimed with
          claim := (s.ring r).after (s.ring r).claim, grant := portAfter (agentPort (ringSlot r) (.hand h)) }) ∧
    (∀ a d, s.handOp h = some (.rrsv a d) → s.refKind j (refOf ((s.hand h).s a)) = .job r → (s.hand h).resvs.length < 4 →
      s.receiving r = false → (s.ring r).slot (s.ring r).rsv = .free →
      ∃ t, exec (.rrsv h) s = .next t ∧ s.onlyHamlets t ∧
        t.hand h = (({ s.hand h with resvs := (s.hand h).resvs ++ [SlotRef.mk r (s.ring r).rsv], wait := .none, stalled := false }).setS d
            (s.payloadEa j r (s.ring r).rsv)).advance ∧
        t.ring r = { (s.ring r).setSlot (s.ring r).rsv .reserved with
          rsv := (s.ring r).after (s.ring r).rsv, grant := portAfter (agentPort (ringSlot r) (.hand h)) })

/-- R146, R169, R171, R172, R178. The hamlet of the ring is Active. The slot after the published one is not ready, so PUB moves by one. That HTVAL of RINGS is the instruction word is the model's choice (log entry 67). -/
def Obligations.HandReleasesAndPublishes : Prop :=
  ∀ (s : State) (h : HandRef) (k : Nat) (j : Job), s.jobAt (handSlot h) = some (k, j) →
    (∀ a, s.handOp h = some (.rrel a) →
      (heldOn (s.hand h).claims j (refOf ((s.hand h).s a)) = none → s.handDoes (.rrel h) h fun x => x.exception .rings (x.word.setWidth 64)) ∧
      (∀ c, heldOn (s.hand h).claims j (refOf ((s.hand h).s a)) = some c → (s.ring c.ring).enable = false →
        s.handDoes (.rrel h) h fun x => { x with wait := .disabled, waitFrom := s.mclk, stalled := false }) ∧
      (∀ c, heldOn (s.hand h).claims j (refOf ((s.hand h).s a)) = some c → (s.ring c.ring).enable = true →
        (s.hamlet (ringSlot c.ring)).power = .active → (s.ring c.ring).origins.find c.idx = none →
        ∃ t, exec (.rrel h) s = .next t ∧ s.onlyHamlets t ∧ t.ring c.ring = (s.ring c.ring).release c.idx ∧
          t.hand h = ({ s.hand h with claims := (s.hand h).claims.erase c }.detach c).advance)) ∧
    (∀ a b, s.handOp h = some (.rpub a b) →
      (heldOn (s.hand h).resvs j (refOf ((s.hand h).s a)) = none → s.handDoes (.rpub h) h fun x => x.exception .rings (x.word.setWidth 64)) ∧
      (∀ c, heldOn (s.hand h).resvs j (refOf ((s.hand h).s a)) = some c → (s.ring c.ring).enable = false →
        s.handDoes (.rpub h) h fun x => { x with wait := .disabled, waitFrom := s.mclk, stalled := false }) ∧
      (∀ c x off, heldOn (s.hand h).resvs j (refOf ((s.hand h).s a)) = some c → (s.ring c.ring).enable = true →
        (s.hamlet (ringSlot c.ring)).power = .active → x = s.ring c.ring → off = sramAddr (ringSlot c.ring) (x.slotOff c.idx) →
        s.mem.wf = true → s.fenced off = false → s.fenced (off + 16) = false → x.slotOff c.idx + 64 ≤ padBytes →
        (s.hand h).s b &&& hdrReserved = 0 → fieldOf ((s.hand h).s b) 0 4 < 14 → fieldOf ((s.hand h).s b) 32 21 ≤ x.capacity →
        x.pub = c.idx → c.idx + 1 < x.size → x.slot (c.idx + 1) ≠ .ready →
        ∃ t, exec (.rpub h) s = .next t ∧ t.hand h = { s.hand h with resvs := (s.hand h).resvs.erase c }.advance ∧
          t.mem.readBytes off 8 = toBytes 8 ((s.hand h).s b).toNat ∧
          t.mem.readBytes (off + 16) 48 = toBytes 8 x.seq.toNat ++ List.replicate 40 0 ∧
          (∀ q, (q < off ∨ off + 64 ≤ q ∨ (off + 8 ≤ q ∧ q < off + 16)) → t.mem.read q = s.mem.read q) ∧
          (t.ring c.ring).pub = c.idx + 1 ∧ (t.ring c.ring).slot c.idx = .published ∧ (t.ring c.ring).seq = x.seq + 1 ∧
          t = { s with hamlets := t.hamlets, mem := t.mem, sramPoison := t.sramPoison }))

/-- R146 to R148, R151, R180, R181, R241, R267. `Expander.take` takes decoded bytes from the two buffers of the expander. The model's choices: HTVAL of EXPAND is the instruction word (log entry 67), and the stream goes on after a damaged block (log entry 25). The Tally clause is for a unit that holds no value made unpredictable (log entry 7). -/
def Obligations.HandUsesExpanderBellsAndTally : Prop :=
  ∀ (s : State) (h : HandRef) (k : Nat) (j : Job), s.jobAt (handSlot h) = some (k, j) →
    (∀ d, s.handOp h = some (.vrx d) →
      ((s.hand h).exp = none → s.handDoes (.vrx h) h fun x => (x.setV d 0).advance) ∧
      (∀ e, (s.hand h).exp = some e → e.poisoned = true → s.handDoes (.vrx h) h fun x => x.exception .expand (x.word.setWidth 64)) ∧
      (∀ e b u, (s.hand h).exp = some e → e.poisoned = false → e.bufs = .data b :: u → 64 < b.length →
        s.handDoes (.vrx h) h fun x => ({ x with exp := some { e with bufs := .data (b.drop 64) :: u } }.setV d (vecOf (slice (b.take 64) 0 64))).advance) ∧
      (∀ e l e', (s.hand h).exp = some e → e.poisoned = false → Expander.take (s.imageFor j.household) 34 [] e = (some l, e') →
        s.handDoes (.vrx h) h fun x => ({ x with exp := some e' }.setV d (vecOf (slice l 0 64))).advance) ∧
      (∀ e e', (s.hand h).exp = some e → e.poisoned = false → Expander.take (s.imageFor j.household) 34 [] e = (none, e') →
        s.handDoes (.vrx h) h fun x => { x with exp := some e' }.exception .expand (x.word.setWidth 64))) ∧
    (∀ a b r, s.handOp h = some (.badd a b) → s.refKind j (refOf ((s.hand h).s a)) = .job r →
      ∃ t, exec (.badd h) s = .next t ∧ t.hand h = (s.hand h).advance ∧ s.otherHands t h ∧
        t = { s with
          hamlets := t.hamlets
          bellFlight := s.bellFlight ++ [⟨.hand h, (ringSlot r, r.idx % 64), BitVec.ofNat 32 (fieldOf ((s.hand h).s b) 0 16)⟩] }) ∧
    (∀ a d r, s.handOp h = some (.bread a d) → j.ringOf (refOf ((s.hand h).s a)) = some r → (s.hamlet (ringSlot r)).power = .active →
      s.handDoes (.bread h) h fun x => (x.setS d ((s.bell (ringSlot r) r.idx).setWidth 64)).advance) ∧
    (∀ a b r, s.handOp h = some (.bwait a b) → j.ringOf (refOf ((s.hand h).s a)) = some r → ringSlot r = handSlot h →
      ((s.bell (handSlot h) r.idx - ((s.hand h).s b).setWidth 32).toNat < 2 ^ 31 → s.handDoes (.bwait h) h Hand.advance) ∧
      (2 ^ 31 ≤ (s.bell (handSlot h) r.idx - ((s.hand h).s b).setWidth 32).toNat →
        s.handDoes (.bwait h) h fun x =>
          { x with wait := .bell r.idx (((s.hand h).s b).setWidth 32) false, waitFrom := s.mclk, stalled := false })) ∧
    (∀ a b, s.handOp h = some (.tfeed a b) → (s.tally (tallyFor h ((s.hand h).s b))).snoopQ = [] →
      (s.tally (tallyFor h ((s.hand h).s b))).wild = false →
      ∃ t, exec (.tfeed h) s = .next t ∧ t.hand h = (s.hand h).advance ∧ s.onlyHamlets t ∧
        t.tally (tallyFor h ((s.hand h).s b)) = (s.tally (tallyFor h ((s.hand h).s b))).feed (vecBytes ((s.hand h).v a)))

/-- R132. -/
def Obligations.InstructionBufferLoad : Prop :=
  ∀ (s : State) (h : HandRef) (a b d : Nat), s.handOp h = some (.ibld a b d) →
    (∀ v, ibldOdd ((s.hand h).s a) ((s.hand h).s b) ((s.hand h).s d) = some v → s.handDoes (.ibld h) h fun x => x.exception .align v) ∧
    (ibldOdd ((s.hand h).s a) ((s.hand h).s b) ((s.hand h).s d) = none →
      (padBytes < ((s.hand h).s a).toNat + ((s.hand h).s d).toNat → s.handDoes (.ibld h) h fun x => x.exception .access (x.s a)) ∧
      (((s.hand h).s a).toNat + ((s.hand h).s d).toNat ≤ padBytes → 0x8000 < ((s.hand h).s b).toNat + ((s.hand h).s d).toNat →
        s.handDoes (.ibld h) h fun x => x.exception .access (x.s b)) ∧
      (((s.hand h).s a).toNat + ((s.hand h).s d).toNat ≤ padBytes → ((s.hand h).s b).toNat + ((s.hand h).s d).toNat ≤ 0x8000 →
        s.firstPoison (sramAddr (handSlot h) 0 + ((s.hand h).s a).toNat) ((s.hand h).s d).toNat = none →
        s.fenced (sramAddr (handSlot h) ((s.hand h).s a).toNat) = false →
        s.rawSlots (s.heldBy h) false (sramAddr (handSlot h) ((s.hand h).s a).toNat) ((s.hand h).s d).toNat = [] →
        s.handDoes (.ibld h) h fun x => { x with
          ibuf := putWords x.ibuf ((x.s b).toNat / 4)
            (words 4 (s.mem.readBytes (sramAddr (handSlot h) (x.s a).toNat) (x.s d).toNat)) }.advance) ∧
      (∀ w n, ((s.hand h).s a).toNat + ((s.hand h).s d).toNat ≤ padBytes → ((s.hand h).s b).toNat + ((s.hand h).s d).toNat ≤ 0x8000 →
        s.firstPoison (sramAddr (handSlot h) 0 + ((s.hand h).s a).toNat) ((s.hand h).s d).toNat = some w →
        n = 8 * w - (sramAddr (handSlot h) 0 + ((s.hand h).s a).toNat) →
        s.fenced (sramAddr (handSlot h) ((s.hand h).s a).toNat) = false →
        s.rawSlots (s.heldBy h) false (sramAddr (handSlot h) ((s.hand h).s a).toNat) n = [] →
        s.handDoes (.ibld h) h fun x => { x with
          ibuf := putWords x.ibuf ((x.s b).toNat / 4) (words 4 (s.mem.readBytes (sramAddr (handSlot h) (x.s a).toNat) n)) }.exception
            .poison (BitVec.ofNat 64 (8 * w - sramAddr (handSlot h) 0))))

/-- R121, R150, R158 and R13. `State.pushReady` lets a Hand that waits in a push try again. That every push moves the pointer of R158 past its Hand, and that a Hand behind another waits, is the model's reading (log entry 92); that the free effect of Porter 2 or 3 is followed by the next instruction is log entry 7. -/
def Obligations.HandPushesDescriptors : Prop :=
  ∀ (s : State) (h : HandRef) (a b : Nat),
    ((s.pushReady h).handOp h = some (.pissue a b) → s.porterFor h (fieldOf ((s.hand h).s b) 0 3) = none →
      ∃ t, exec (.pissue h) s = .next t ∧ t = { s with hamlets := t.hamlets, parishes := t.parishes, mem := t.mem, freeCtr := t.freeCtr } ∧
        (pcValid ((s.hand h).pc + 4) = true → (t.hand h).pc = (s.hand h).pc + 4 ∧ (t.hand h).mode = .running ∧ (t.hand h).wait = .none) ∧
        ∀ n j, s.jobAt (handSlot h) = some (n, j) → ∀ k, (∀ m ∈ j.slots, slotKey m.die m.slot ≠ k) → t.hamlets.find k = s.hamlets.find k) ∧
    ((s.pushReady h).handOp h = some (.pissue a b) → ∀ p, s.porterFor h (fieldOf ((s.hand h).s b) 0 3) = some p →
      ((s.porter p).queue.length < 8 →
        ∃ t, exec (.pissue h) s = .next t ∧ t.hand h = { s.hand h with wait := .none, stalled := false }.advance ∧
          t.porter p = { s.porter p with queue := (s.porter p).queue ++ [⟨(s.hand h).v a, some h, false⟩] } ∧
          t = { s with hamlets := t.hamlets, parishes := t.parishes }) ∧
      (8 ≤ (s.porter p).queue.length → (s.hand h).pushing = false →
        s.handDoes (.pissue h) h fun x => { x with wait := .porter p, waitFrom := s.mclk, stalled := false }) ∧
      (8 ≤ (s.porter p).queue.length → (s.hand h).pushing = true → exec (.pissue h) s = .next s)) ∧
    ((s.pushReady h).handOp h = some (.mpush a b) → ∀ u, u = ⟨h.die, h.slot, fieldOf ((s.hand h).s b) 0 2⟩ → (s.mill u).pendMode = none →
      ((s.mill u).ringMode = false → (s.mill u).queue.length < 8 → s.pushBehind u h = false →
        ∃ t, exec (.mpush h) s = .next t ∧ s.onlyHamlets t ∧ t.hand h = { s.hand h with wait := .none, stalled := false }.advance ∧
          t.mill u = { s.mill u with queue := (s.mill u).queue ++ [(s.hand h).v a], accepted := (s.mill u).accepted + 1, pushPtr := (h.idx + 1) % 4 }) ∧
      ((s.mill u).ringMode = true →
        ∃ t, exec (.mpush h) s = .next t ∧ s.onlyHamlets t ∧ t.hand h = { s.hand h with wait := .none, stalled := false }.advance ∧
          t.mill u = { s.mill u with qstatus := { (s.mill u).qstatus with dropped := true } }) ∧
      ((s.mill u).ringMode = false → 8 ≤ (s.mill u).queue.length ∨ s.pushBehind u h = true → (s.hand h).pushing = false →
        s.handDoes (.mpush h) h fun x => { x with wait := .mill u, waitFrom := s.mclk, stalled := false }) ∧
      ((s.mill u).ringMode = false → 8 ≤ (s.mill u).queue.length ∨ s.pushBehind u h = true → (s.hand h).pushing = true →
        exec (.mpush h) s = .next s))

/-- R150, R153, R154, R176, R181, R182, R393. An event that is due raises no FETCH where HEVEC is a multiple of 4. -/
def Obligations.WaitsEndAndEventsAreTaken : Prop :=
  ∀ (s : State) (h : HandRef),
    ((s.hamlet (handSlot h)).power = .active → (s.hand h).mode = .running → (s.hand h).wait = .none → (s.hand h).eventDue = true →
      s.handDoes (.eventTake h) h fun x => x.takeEvent x.pc) ∧
    ((s.hamlet (handSlot h)).power = .active → (s.hand h).mode = .running → (s.hand h).wait = .sleep → (s.hand h).eventEnabled = true →
      ((s.hand h).eventDue = true → s.handDoes (.eventTake h) h fun x => x.takeEvent (x.pc + 4)) ∧
      ((s.hand h).eventDue = false → s.handDoes (.eventTake h) h fun x => { x with wait := .none }.advance)) ∧
    (∀ c t, (s.hand h).wait = .bell c t true →
      s.handDoes (.bwaitSatisfied h) h fun x => { x with wait := .none, stalled := false }.advance) ∧
    ((s.hand h).pushing = true → (s.hand h).stalled = false → (s.hamlet (handSlot h)).limit ≤ s.mclk - (s.hand h).waitFrom →
      ∃ t, exec (.pushStall h) s = .next t ∧ s.onlyHamlets t ∧
        t.hand h = { s.hand h with stalled := true, evPend := (s.hand h).evPend ||| 8 }) ∧
    (∀ c v, (s.hand h).wait = .bell c v false → (s.hand h).stalled = false → (s.hamlet (handSlot h)).limit ≤ s.mclk - (s.hand h).waitFrom →
      ∃ t, exec (.waitStall h) s = .next t ∧ t = { s with hamlets := t.hamlets, jobs := (s.countStall (handSlot h)).jobs } ∧ (t.hamlet (handSlot h)).err.waitStall = true ∧
        t.hand h = { s.hand h with stalled := true, evPend := (s.hand h).evPend ||| 4 }) ∧
    (∀ w, (s.hand h).mode = .running →
      ∃ t, exec (.hwFault h w) s = .next t ∧ s.onlyHamlets t ∧ (t.hamlet (handSlot h)).hwFault = true ∧
        (t.hand h).mode = .faulted ∧ (t.hand h).fault = true ∧ (t.hand h).causeCode = 9 ∧ (t.hand h).causeEvent = false ∧
        (t.hand h).epc = epcOf (s.hand h).pc ∧ (t.hand h).tval = hwTval w ∧ (t.hand h).pc = (s.hand h).pc ∧
        (t.hand h).inHandler = (s.hand h).inHandler)

/-- R171, R175 and R178. A Hand that waits completes as in HandTakesRingSlots. -/
def Obligations.RingsGrantStallAndConfigure : Prop :=
  ∀ (s : State) (r : RingRef),
    (∀ w i y, s.nextGrant r = some w → (∀ h, w.agent ≠ .hand h) → (if w.claim then (s.ring r).claimSlot else (s.ring r).reserve) = some (i, y) →
      ∃ t, exec (.ringWaitEnd r) s = .next t ∧ s.onlyHamlets t ∧ s.otherHamlets t (ringSlot r) ∧
        t.ring r = { y with
          waiters := y.waiters.erase w, grant := portAfter (agentPort (ringSlot r) w.agent), grants := y.grants ++ [⟨w.agent, w.claim, i⟩] }) ∧
    (∀ w i y h k j, s.nextGrant r = some w → w.agent = .hand h → s.jobAt (handSlot h) = some (k, j) →
      (if w.claim then (s.ring r).claimSlot else (s.ring r).reserve) = some (i, y) →
      ∃ t, exec (.ringWaitEnd r) s = .next t ∧ s.onlyHamlets t ∧ t.hand h = (({ s.hand h with
        claims := if w.claim then (s.hand h).claims ++ [SlotRef.mk r i] else (s.hand h).claims
        resvs := if w.claim then (s.hand h).resvs else (s.hand h).resvs ++ [SlotRef.mk r i]
        exp := if w.expand then some (s.expander j.household r i) else (s.hand h).exp
        wait := .none, stalled := false }).setS (s.hand h).ringDest (s.payloadEa j r i)).advance) ∧
    (∀ n w, (s.ring r).waiters[n]? = some w → w.stalled = false → s.countedWait w = true →
      (s.hamlet (ringSlot r)).limit ≤ s.mclk - w.since →
      ∃ t, exec (.ringStall r n) s = .next t ∧ t = { s with hamlets := t.hamlets, jobs := (s.countStall (ringSlot r)).jobs } ∧
        (∀ h, s.stallHand w = some h → (t.hand h).evPend = (s.hand h).evPend ||| 4) ∧
        (t.ring r).waiters = (s.ring r).waiters.set n { w with stalled := true } ∧
        (t.hamlet (ringSlot r)).ringStall = (s.hamlet (ringSlot r)).ringStall ||| BitVec.ofNat 64 (2 ^ r.idx)) ∧
    (∀ v : Word64, (s.ring r).enable = false → cfgValid v = true → v.getLsbD 0 = true →
      ∃ t, exec (.ringCfgWrite r v) s = .next t ∧ s.onlyHamlets t ∧ s.otherHamlets t (ringSlot r) ∧
        t.ring r = { s.ring r with
          enable := true, base := BitVec.ofNat 17 (fieldOf v 6 17), stride := BitVec.ofNat 15 (fieldOf v 24 15), count := BitVec.ofNat 11 (fieldOf v 40 11)
          head := 0, claim := 0, pub := 0, rsv := 0, seq := 0, slots := {}, grant := 0, grants := [], origins := {}, senders := {} }) ∧
    (∀ v : Word64, (s.ring r).enable = true → v &&& ~~~1#64 ≠ (s.ring r).cfgWord &&& ~~~1#64 →
      ∃ t, exec (.ringCfgWrite r v) s = .next t ∧ s.onlyHamlets t ∧ t.ring r = s.ring r ∧ (t.hamlet (ringSlot r)).err.cfgActive = true)

/-- R180 to R183 and R187. -/
def Obligations.BellAddsReachTheirCounter : Prop :=
  ∀ (s : State) (n : Nat) (x : BellAdd), s.bellFlight[n]? = some x →
    (s.bellBlocked n x = true → exec (.bellAddApply n) s = .next s) ∧
    (s.bellBlocked n x = false → (s.hamlet x.dst.1).fence ≠ .lowered →
      exec (.bellAddApply n) s = .next { s with bellFlight := s.bellFlight.eraseIdx n }) ∧
    (s.bellBlocked n x = false → (s.hamlet x.dst.1).fence = .lowered → (s.hamlet x.dst.1).power = .active →
      ∃ t, exec (.bellAddApply n) s = .next t ∧
        ((∀ k j, s.jobAt x.dst.1 = some (k, j) → j.bellBind x.dst.1 x.dst.2 = none) →
          t = { s with bellFlight := s.bellFlight.eraseIdx n, hamlets := t.hamlets }) ∧
        t = { s with bellFlight := s.bellFlight.eraseIdx n, hamlets := t.hamlets, dies := t.dies, landings := t.landings, stranded := t.stranded,
                     hostOut := t.hostOut } ∧
        s.otherHamlets t x.dst.1 ∧ t.bell x.dst.1 x.dst.2 = s.bell x.dst.1 x.dst.2 + x.amount ∧
        (∀ c, c ≠ x.dst.2 → t.bell x.dst.1 c = s.bell x.dst.1 c) ∧
        (t.hamlet x.dst.1).hands =
          (s.hamlet x.dst.1).hands.mapV fun _ y => y.judgeBell x.dst.2 (s.bell x.dst.1 x.dst.2 + x.amount))

/-- R119 to R124. A window that two agents wrote pushes a free descriptor (R128); a RSVD bit written 1 leaves the new value of QCTRL free (log entry 7). -/
def Obligations.MillDescriptorsEnterTheQueue : Prop :=
  ∀ (s : State) (u : MillRef),
    (∀ v : Word64, (s.mill u).pendMode = none →
      ((s.mill u).ringMode = false → (s.mill u).queue.length < 8 → (s.mill u).winBy.all (· == .reeve) = true →
        s.millDoes (.millDescWinPush u v) u fun x => { x with
          win := x.win.set 7 v, winBy := [], accepted := x.accepted + 1
          queue := x.queue ++ [ofLanes 64 ((List.range 8).map fun i => if i = 7 then v.toNat else (x.win.get 0 i).toNat)] }) ∧
      ((s.mill u).ringMode = true ∨ 8 ≤ (s.mill u).queue.length →
        s.millDoes (.millDescWinPush u v) u fun x => { x with win := x.win.set 7 v, winBy := [], qstatus := { x.qstatus with dropped := true } })) ∧
    (∀ v : Word64, v &&& qctrlReserved = 0 → s.millDoes (.millQctrlWrite u v) u fun x => { x with
      pendMode := if v.getLsbD 0 = x.ringMode ∧ BitVec.ofNat 16 (fieldOf v 8 16) = x.dring then none
        else some (v.getLsbD 0, BitVec.ofNat 16 (fieldOf v 8 16)) }) ∧
    (∀ v : Word64, ∃ w : Word64, s.millDoes (.millQctrlWrite u v) u fun x => x.writeQctrl w) ∧
    (∀ m d, (s.mill u).pendMode = some (m, d) →
      (s.queueEmpty u = true → s.descRing u = none →
        s.millDoes (.modeChangeApply u) u fun x => { x with ringMode := m, dring := d, pendMode := none }) ∧
      (∀ r, s.queueEmpty u = true → s.descRing u = some r →
        ∃ t, exec (.modeChangeApply u) s = .next t ∧ s.onlyHamlets t ∧
          t.mill u = { s.mill u with ringMode := m, dring := d, pendMode := none } ∧
          t.ring r = { s.ring r with waiters := (s.ring r).waiters.filter fun w => w.agent != .mill u 3 }) ∧
      (s.queueEmpty u = false → exec (.modeChangeApply u) s = .next s)) ∧
    (∀ r i, (s.hamlet (millSlot u)).power = .active → (s.mill u).pendMode = none → (s.mill u).ringMode = true → (s.mill u).dslot = none → (s.mill u).qstatus.foreign = false →
      s.ringAt (millSlot u) ((s.mill u).dring.toNat % 8192) = .job r → s.offers r i → (s.slotIn r i).poison = false →
      (s.slotIn r i).bytes.length ≠ 0 → (s.slotIn r i).bytes.length % 64 = 0 →
      (s.mill u).queue.length + (descsOf (s.slotIn r i).bytes).length ≤ 8 →
      ∃ t, exec (.millRingFetch u) s = .next t ∧ s.onlyHamlets t ∧ t.ring r = (s.ring r).used (ringSlot r) (.mill u 3) i ∧
        t.mill u = { s.mill u with
          queue := (s.mill u).queue ++ descsOf (s.slotIn r i).bytes
          accepted := (s.mill u).accepted + BitVec.ofNat 32 (descsOf (s.slotIn r i).bytes).length }) ∧
    (∀ d, s.nextDesc u = some d →
      (descType d = 0x01 → (s.mill u).loadQ.length < 4 → s.millDoes (.millDispatch u) u fun x => { x with
        queue := x.queue.drop 1, nextSeq := x.nextSeq + 1, loadQ := x.loadQ ++ [⟨x.nextSeq, d, x.layer⟩] }) ∧
      (descType d ∈ [0x02, 0x03, 0x04] → (s.mill u).compQ.length < 4 → s.millDoes (.millDispatch u) u fun x => { x with
        queue := x.queue.drop 1, nextSeq := x.nextSeq + 1, compQ := x.compQ ++ [⟨x.nextSeq, d, x.layer⟩] }) ∧
      (descType d ∈ [0x08, 0x09] → (s.mill u).finQ.length < 4 → s.millDoes (.millDispatch u) u fun x => { x with
        queue := x.queue.drop 1, nextSeq := x.nextSeq + 1, finQ := x.finQ ++ [⟨x.nextSeq, d, x.layer⟩] }) ∧
      (millTypeValid (descType d) = false →
        ∃ t, exec (.millDispatch u) s = .next t ∧ s.onlyHamlets t ∧ s.otherHamlets t (millSlot u) ∧
          t.mill u = { s.mill u with
            queue := (s.mill u).queue.drop 1, badDesc := descDw d 0
            qstatus := { (s.mill u).qstatus with badType := true, halted := true } } ∧
          (t.hand ⟨u.die, u.slot, u.idx⟩).evPend = (s.hand ⟨u.die, u.slot, u.idx⟩).evPend ||| 1))

/-- R86, R118, R119, R124. A RSVD bit written 1 to MILL_QSTATUS leaves the bits that the write clears free (log entry 7). -/
def Obligations.MillFencesTagsDrainsAndRecovers : Prop :=
  ∀ (s : State) (u : MillRef),
    (∀ d, s.nextDesc u = some d → descType d = 0x10 → fenceValid d = true →
      ((s.mill u).fenceMet d = false → exec (.fence u) s = .next s) ∧
      ((s.mill u).fenceMet d = true → ∀ k j r, s.jobAt (millSlot u) = some (k, j) → s.refKind j (fieldOf d 160 13) = .job r →
        ∃ t, exec (.fence u) s = .next t ∧ s.otherHamlets t (millSlot u) ∧
          t.mill u = { s.mill u with
            queue := (s.mill u).queue.drop 1, fenceToken := descTile d, fences := (s.mill u).fences + 1 } ∧
          (d.getLsbD 11 = true → (t.hand ⟨u.die, u.slot, u.idx⟩).evPend = (s.hand ⟨u.die, u.slot, u.idx⟩).evPend ||| 2) ∧
          (d.getLsbD 11 = false → s.otherMills t u) ∧
          t = { s with
            hamlets := t.hamlets
            bellFlight := if d.getLsbD 12 then
                s.bellFlight ++ [⟨.mill u, (ringSlot r, r.idx % 64), BitVec.ofNat 32 (fieldOf d 176 16)⟩] else s.bellFlight })) ∧
    (∀ d, s.nextDesc u = some d → descType d = 0x11 → zeroFields d [(8, 24), (64, 448)] = true →
      s.millDoes (.digestTag u) u fun x => { x with queue := x.queue.drop 1, layer := descTile d }) ∧
    (∀ e q, (s.hamlet (millSlot u)).power = .active → (s.mill u).compRun = none → (s.mill u).compQ = e :: q →
      ((s.mill u).cls ≠ .none → (s.mill u).cls ≠ classOf e.desc →
        s.millDoes (.classDrain u) u fun x => { x with draining := true }) ∧
      ((s.mill u).cls = .none ∨ (s.mill u).cls = classOf e.desc → exec (.classDrain u) s = .next s)) ∧
    (∀ v : Word64, v &&& qstatusReserved = 0 → s.millDoes (.haltedClear u v) u fun x => { x with
      qstatus :=
        { dropped := x.qstatus.dropped && !v.getLsbD 1, badType := x.qstatus.badType && !v.getLsbD 2
          poisonDesc := x.qstatus.poisonDesc && !v.getLsbD 3, shortSlot := x.qstatus.shortSlot && !v.getLsbD 4
          foreign := x.qstatus.foreign && !v.getLsbD 6
          halted := x.qstatus.halted && ((x.qstatus.badType && !v.getLsbD 2) || (x.qstatus.poisonDesc && !v.getLsbD 3) ||
            (x.qstatus.shortSlot && !v.getLsbD 4) || (x.qstatus.foreign && !v.getLsbD 6)) } }) ∧
    (∀ v : Word64, ∃ w : Word64, s.millDoes (.haltedClear u v) u fun x => x.writeQstatus w)

/-- R69 to R71, R81, R82 and R108. `loadEnd` is where the source ends, `State.expand` the tile that its bytes give. That of several errors the poison comes first, then the operand error, then the reserved scale, and that none has a row, is the choice of the model (log entry 103). -/
def Obligations.MillLoadsWeightSets : Prop :=
  (∀ (s : State) (u : MillRef) (c : Instr) (e : Dispatched) (q : List Dispatched) (l : List SlotIn) (r : RingRef) (i : Nat),
    (s.hamlet (millSlot u)).power = .active →
    ((c = .loadW u ∧ (s.mill u).loadRun = none ∧ (s.mill u).loadQ = e :: q ∧ (s.mill u).loadFree e = true ∧ l = []) ∨
      ((c = .loadW u ∨ (c = .millRingWait u ∧ (s.mill u).compRun = none ∧ (s.mill u).finRun = none)) ∧
        (s.mill u).loadRun = some ⟨e, l⟩ ∧ (s.mill u).loadQ = q)) →
    loadValid e.desc = true → s.ringAt (millSlot u) (fieldOf e.desc 64 13) = .job r → s.offers r i →
    (l = [] ∨ loadEnd (loadKind e.desc) (allBytes l) = none) →
    loadEnd (loadKind e.desc) (allBytes (l ++ [s.slotIn r i])) = some (allBytes (l ++ [s.slotIn r i])).length →
    ∃ t x p, exec c s = .next t ∧ s.onlyHamlets t ∧ x = s.expand u e.desc (l ++ [s.slotIn r i]) ∧ p = anyPoison (l ++ [s.slotIn r i]) ∧
      ((t.mill u).sets.get {} (fieldOf e.desc 8 1)).poisoned = (p || x.bad || x.badScale) ∧
      s.millReports t u (descTile e.desc) (fun k => { k with poisonIn := k.poisonIn || p, expErr := k.expErr || x.bad || x.badScale })
        (oneIf p (causePoison, 0) ++ oneIf x.bad (causeOperand, 0) ++ oneIf x.badScale (causeScale, 0)) ∧
      ((p || x.bad || x.badScale) = false → (t.mill u).sets.get {} (fieldOf e.desc 8 1) =
        { tile := x.tile, gmax := x.tile.density.1, gpmax := x.tile.density.2, poisoned := false }) ∧
      (∀ k, k ≠ fieldOf e.desc 8 1 → (t.mill u).sets.get {} k = (s.mill u).sets.get {} k) ∧ (t.mill u).acc = (s.mill u).acc ∧
      (t.mill u).loadRun = none ∧ (t.mill u).loadQ = q ∧ t.ring r = (s.ring r).used (ringSlot r) (.mill u 0) i) ∧
  (∀ (s : State) (u : MillRef) (e : Dispatched) (q : List Dispatched), (s.hamlet (millSlot u)).power = .active → (s.mill u).loadRun = none →
    (s.mill u).loadQ = e :: q → (s.mill u).loadFree e = true → loadValid e.desc = true → s.ringAt (millSlot u) (fieldOf e.desc 64 13) = .foreign →
    ∃ t, exec (.loadW u) s = .next t ∧ s.onlyHamlets t ∧ (t.hamlet (millSlot u)).err.foreign = true ∧
      ((t.mill u).sets.get {} (fieldOf e.desc 8 1)).tile = zeroTile e.desc ∧ ((t.mill u).sets.get {} (fieldOf e.desc 8 1)).poisoned = true ∧
      (∀ k, k ≠ fieldOf e.desc 8 1 → (t.mill u).sets.get {} k = (s.mill u).sets.get {} k) ∧ (t.mill u).acc = (s.mill u).acc ∧
      (t.mill u).loadRun = none ∧ (t.mill u).loadQ = q ∧
      s.millReports t u (descTile e.desc) (fun k => { k with expErr := true }) [(causeOperand, 0)])

/-- R72, R76, R77, R82 to R84, R95, R96. `residueLog` is the class 3 record of Table 14.3. That ROW is 0 for a refused ring, and that it is the first row that the poisoned slot supplies, is the choice of the model (log entry 103). `sumLine` is the write or the saturating addition; a tile that overwrites another in progress is not `tileOk` (R85, R128); `checkedRow` gives the sums after the check and recompute of R95. -/
def Obligations.MillIntegerSums : Prop :=
  (∀ (s : State) (u : MillRef) (ups : List Upset) (e : Dispatched) (q : List Dispatched) (r : RingRef) (i : Nat) (x : SlotIn),
    (s.hamlet (millSlot u)).power = .active → (s.mill u).compRun = none → (s.mill u).compQ = e :: q → (s.mill u).computeFree e = true →
    ((s.mill u).needsDrain e.desc = false ∨ (s.mill u).draining = true) → computeValid e.desc = true →
    s.ringAt (millSlot u) (fieldOf e.desc 64 13) = .job r → s.offers r i → x = s.slotIn r i → x.poison = false →
    ∀ (c : Instr) (tag : AccTag) (rows : List (List Int)) (b4 : List Bool),
    ((descType e.desc = 0x02 ∧ c = .tritMm u ups ∧ tag = .int32 ∧ b4 = (actRows e.desc [x]).map Prod.snd ∧
        ∃ cols sc, ((s.mill u).sets.get {} (fieldOf e.desc 8 1)).tile = .trit cols sc ∧
          rows = (actRows e.desc [x]).map fun a => tritSums cols (e.desc.getLsbD 9) a.1) ∨
      (descType e.desc = 0x03 ∧ c = .binMm u ups ∧ tag = .bin ∧ b4 = [] ∧
        ∃ cols, ((s.mill u).sets.get {} (fieldOf e.desc 8 1)).tile = .binary cols ∧
          rows = (chunks 256 x.bytes).map fun a => binSums cols (fieldOf e.desc 16 12) a)) →
    rows.length = descRows e.desc → (∀ a ∈ rows, a.length = 64 * linesPerRow e.desc) → (s.mill u).tileOk e.desc tag [x] = true →
    ∃ t, exec c s = .next t ∧ (ups = [] → s.onlyHamlets t) ∧ (t.mill u).compRun = none ∧ (t.mill u).compQ = q ∧
      (t.mill u).cls = .integer ∧ (t.mill u).sets = (s.mill u).sets ∧ t.ring r = (s.ring r).used (ringSlot r) (.mill u 1) i ∧
      (∀ o, o = recomputed ups b4 (descRows e.desc) (64 * linesPerRow e.desc) →
        s.millReports t u (descTile e.desc)
          (fun k => { k with residueCorr := k.residueCorr || !o.1.isEmpty, residueFail := k.residueFail || !o.2.isEmpty })
          (o.2.map fun row => (causeResidue, row)) ∧
        (t.mill u).retirePending = ((s.mill u).retirePending || !o.2.isEmpty) ∧
        (t.mill u).recomputes = o.1.foldl (fun n _ => satAdd n 1) (s.mill u).recomputes ∧
        t.logRing = (o.2.foldl (fun v _ => v.residueLog u 2 2) (o.1.foldl (fun v _ => v.residueLog u 1 1) s)).logRing) ∧
      (∀ k, (k < descBase e.desc ∨ descBase e.desc + linesPerRow e.desc * descRows e.desc ≤ k) → (t.mill u).line k = (s.mill u).line k) ∧
      (∀ m p a, rows[m]? = some a → p < linesPerRow e.desc →
        ∀ k y, k = descBase e.desc + (linesPerRow e.desc * m + p) →
          y = sumLine ((s.mill u).line k) tag (linesPerRow e.desc == 4) (e.desc.getLsbD 10) false (lineSpan e.desc)
            (((checkedRow ups b4 m a).drop (64 * p)).take 64) →
          (t.mill u).line k = { y with
            poison := y.poison || ((s.mill u).sets.get {} (fieldOf e.desc 8 1)).poisoned ||
              !(recomputed ups b4 (descRows e.desc) (64 * linesPerRow e.desc)).2.isEmpty })) ∧
  (∀ (s : State) (u : MillRef) (c : Instr) (e : Dispatched) (q : List Dispatched), (s.hamlet (millSlot u)).power = .active →
    (s.mill u).compRun = none → (s.mill u).compQ = e :: q → (s.mill u).computeFree e = true →
    ((s.mill u).needsDrain e.desc = false ∨ (s.mill u).draining = true) → computeValid e.desc = true →
    ((descType e.desc = 0x02 ∧ c = .tritMm u []) ∨ (descType e.desc = 0x03 ∧ c = .binMm u []) ∨ (descType e.desc = 0x04 ∧ c = .logMm u)) →
    ∀ f cause, ((f = setPoisonIn ∧ cause = causePoison ∧ ∃ r i, s.ringAt (millSlot u) (fieldOf e.desc 64 13) = .job r ∧ s.offers r i ∧
          (s.slotIn r i).poison = true ∧ rowsReady e.desc [s.slotIn r i] = true) ∨
        (f = setExpErr ∧ cause = causeOperand ∧ s.ringAt (millSlot u) (fieldOf e.desc 64 13) = .foreign)) →
    ∃ t, exec c s = .next t ∧ (t.mill u).compRun = none ∧ (t.mill u).compQ = q ∧ (t.mill u).sets = (s.mill u).sets ∧
      (∀ k, (lineSpan e.desc).1 ≤ k → k < (lineSpan e.desc).2 → ((t.mill u).line k).poison = true) ∧
      s.millReports t u (descTile e.desc) f [(cause, 0)] ∧ (f = setExpErr → (t.hamlet (millSlot u)).err.foreign = true))

/-- R63, R65, R78 to R80, R84. A firmware LOT_STREAM gives free dithers. -/
def Obligations.MillLogSums : Prop :=
  ∀ (s : State) (u : MillRef) (e : Dispatched) (q : List Dispatched) (r : RingRef) (i k : Nat) (j : Job) (x : SlotIn)
    (cols : List (List Byte)) (bias : Byte) (b : Int),
    (s.hamlet (millSlot u)).power = .active → (s.mill u).compRun = none → (s.mill u).compQ = e :: q → (s.mill u).computeFree e = true →
    ((s.mill u).needsDrain e.desc = false ∨ (s.mill u).draining = true) → computeValid e.desc = true → descType e.desc = 0x04 →
    s.jobAt (millSlot u) = some (k, j) → s.ringAt (millSlot u) (fieldOf e.desc 64 13) = .job r → s.offers r i → x = s.slotIn r i →
    x.poison = false → ((s.mill u).sets.get {} (fieldOf e.desc 8 1)).tile = .lns cols bias → (s.mill u).tileOk e.desc .lns16 [x] = true →
    rowsReady e.desc [x] = true → (logRows e.desc [x]).length = descRows e.desc →
    b = (if e.desc.getLsbD 10 = true ∧ ((s.mill u).line (descBase e.desc)).tag = .lns16 then ((s.mill u).line (descBase e.desc)).bias.toInt
      else (((logRows e.desc [x]).head?.map Prod.snd).getD 0) + biasOf bias) →
    ∃ t, exec (.logMm u) s = .next t ∧ s.onlyHamlets t ∧ (t.mill u).compRun = none ∧ (t.mill u).compQ = q ∧
      s.millReports t u (descTile e.desc) id [] ∧ (t.mill u).cls = .logarithmic ∧ (t.mill u).sets = (s.mill u).sets ∧ t.ring r = (s.ring r).used (ringSlot r) (.mill u 1) i ∧
      (∀ n, (n < descBase e.desc ∨ descBase e.desc + descRows e.desc ≤ n) → (t.mill u).line n = (s.mill u).line n) ∧
      (∀ m a, (logRows e.desc [x])[m]? = some a → ∀ y,
        y = logLine (fun n w => ditherOf s j.seed e.desc (m * 128 + n) w) cols a.1 (a.2 + biasOf bias) b (e.desc.getLsbD 10) (lineSpan e.desc)
          ((s.mill u).line (descBase e.desc + m)) →
        (t.mill u).line (descBase e.desc + m) =
          { y with poison := y.poison || ((s.mill u).sets.get {} (fieldOf e.desc 8 1)).poisoned })

/-- R82, R87 to R93, R96, R112 to R117. The choices of the model: BIAS is 0 in DW0 for output other than LNS8 (log entry 108); the header of a RANGE has FMT 0, BIAS 0 and no POISON (log entry 109); of several errors the poison comes first, then the reserved scale, then the residue (log entry 103); RELEASE acts also where OUT_RING is refused (log entry 127). `State.freePoison` gives the free values of a poisoned slot; `State.finishTile` is the arithmetic of the Finish stage on the tile, `rangeRecord` the record of R93. -/
def Obligations.MillFinishesAndRanges : Prop :=
  (∀ (s : State) (u : MillRef) (e : Dispatched) (q : List Dispatched) (r : RingRef) (i k off : Nat) (j : Job),
    (s.hamlet (millSlot u)).power = .active → s.mem.wf = true → (s.mill u).finRun = none → (s.mill u).finQ = e :: q →
    (s.mill u).finishFree e = true → s.jobAt (millSlot u) = some (k, j) → s.ringAt (millSlot u) (fieldOf e.desc 80 13) = .job r →
    s.accepts r i → off = sramAddr (ringSlot r) ((s.ring r).slotOff i) → (s.ring r).slotOff i + 64 + (s.ring r).capacity ≤ padBytes →
    (∀ o, o ≤ 64 → s.fenced (off + o) = false) →
    (descType e.desc = 0x08 → finishValid e.desc = true → ∀ (sc : Option (RingRef × Nat)) (z : List SlotIn × State) (sp : Bool) (tile : FinTile) (sl : FinScales) (res : FinResult),
      (match sc with
        | none => saRing e.desc = false ∧ srRing e.desc = false
        | some p => (saRing e.desc = true ∨ srRing e.desc = true) ∧ s.ringAt (millSlot u) (fieldOf e.desc 64 13) = .job p.1 ∧
            s.offers p.1 p.2 ∧
              (slotKey p.1.die p.1.slot ≠ slotKey r.die r.slot ∨ p.1.idx ≠ r.idx)) →
      z = State.freePoison (sc.toList.map fun p => s.slotIn p.1 p.2) s → sp = (sc.map fun p => (s.slotIn p.1 p.2).poison).getD false →
      tile = ((s.mill u).readTile e.desc) → constRsvd e.desc tile.tag = false →
      sl = finScales (s.mill u) e.desc tile.tag tile.wide z.1.head? false (z.2.freeCtr + 2 * 65536 + 1) → finishDefined e.desc tile sl = true →
      res = z.2.finishTile j.seed e.desc tile sl (s.ring r).capacity →
      res.payload.length ≤ (s.ring r).capacity →
      ∃ t, exec (.finish u []) s = .next t ∧
        (residueRow tile = none → t = { s with hamlets := t.hamlets, mem := t.mem, sramPoison := t.sramPoison, freeCtr := t.freeCtr }) ∧
        t.logRing = (if (residueRow tile).isSome then s.residueLog u 2 3 else s).logRing ∧
        (t.mill u).retirePending = ((s.mill u).retirePending || (residueRow tile).isSome) ∧
        s.millReports t u (descTile e.desc)
          (fun x => { x with
            poisonIn := x.poisonIn || sp, expErr := x.expErr || scalesReserved e.desc tile.tag sl
            finishResidue := x.finishResidue || (residueRow tile).isSome
            accSat := x.accSat || res.marked, clipSat := x.clipSat || res.clipSat, widenRefused := x.widenRefused || res.refused })
          (oneIf sp (causePoison, 0) ++ oneIf (scalesReserved e.desc tile.tag sl) (causeScale, reservedRow e.desc tile.tag sl) ++
            (residueRow tile).toList.map fun row => (causeFinish, row)) ∧
        (t.mill u).finRun = none ∧ (t.mill u).finQ = q ∧ (t.mill u).sets = (s.mill u).sets ∧
        t.mem.readBytes off 8 = toBytes 8 (hdrWord (slotFmt res.fmt) (if finFmt e.desc = 5 then BitVec.ofInt 8 res.bias else 0)
          (tile.poison || sl.poison || sp || scalesReserved e.desc tile.tag sl || (residueRow tile).isSome) res.payload.length).toNat ∧
        t.mem.readBytes (off + 8) 8 = toBytes 8 (e.layer.toNat + (descTile e.desc).toNat * 2 ^ 32) ∧
        t.mem.readBytes (off + 16) 48 = toBytes 8 (s.ring r).seq.toNat ++ List.replicate 40 0 ∧
        t.mem.readBytes (off + 64) res.payload.length = res.payload ∧
        (∀ a, (a < off ∨ off + 64 + res.payload.length ≤ a) → t.mem.read a = s.mem.read a) ∧
        (t.ring r).slot i = .published ∧ (t.ring r).pub = i + 1 ∧
        (t.mill u).widened = (if res.widened then satAdd (s.mill u).widened 1 else (s.mill u).widened) ∧
        (t.mill u).clipped = (if res.clipSat then satAdd (s.mill u).clipped 1 else (s.mill u).clipped) ∧
        (e.desc.getLsbD 11 = false → ∀ n, (t.mill u).line n =
          if descBase e.desc ≤ n ∧ n < descBase e.desc + tile.lines e.desc then
            { (s.mill u).line n with span := none, poison := ((s.mill u).line n).poison || (residueRow tile).isSome } else (s.mill u).line n) ∧
        (e.desc.getLsbD 11 = true → ∀ n, (t.mill u).line n =
          if descBase e.desc ≤ n ∧ n < descBase e.desc + tile.lines e.desc then {} else (s.mill u).line n)) ∧
    (descType e.desc = 0x09 → rangeValid e.desc = true → ((s.mill u).readTile e.desc).ok = true → 32 ≤ (s.ring r).capacity →
      ((s.mill u).line (descBase e.desc)).tag ≠ .empty →
      ∃ t, exec (.range u) s = .next t ∧ t = { s with hamlets := t.hamlets, mem := t.mem, sramPoison := t.sramPoison } ∧
        t.mill u = { s.mill u with finQ := q } ∧
        t.mem.readBytes (off + 64) 32 = rangeRecord ((s.mill u).readTile e.desc) ∧
        t.mem.readBytes off 8 = toBytes 8 (hdrWord 0 0 false 32).toNat ∧
        (∀ a, (a < off ∨ off + 96 ≤ a) → t.mem.read a = s.mem.read a) ∧ (t.ring r).slot i = .published)) ∧
  (∀ (s : State) (u : MillRef) (c : Instr) (e : Dispatched) (q : List Dispatched) (tile : FinTile) (rs : List (BitVec 3 × Nat)),
    (s.hamlet (millSlot u)).power = .active → (s.mill u).finRun = none → (s.mill u).finQ = e :: q → (s.mill u).finishFree e = true →
    s.ringAt (millSlot u) (fieldOf e.desc 80 13) = .foreign → tile = (s.mill u).readTile e.desc → tile.ok = true → residueRow tile = none →
    ((descType e.desc = 0x09 ∧ c = .range u ∧ rangeValid e.desc = true ∧ rs = []) ∨
      (descType e.desc = 0x08 ∧ c = .finish u [] ∧ finishValid e.desc = true ∧ constRsvd e.desc tile.tag = false ∧ saRing e.desc = false ∧
        srRing e.desc = false ∧ ∃ sl, sl = finScales (s.mill u) e.desc tile.tag tile.wide none false (s.freeCtr + 2 * 65536 + 1) ∧
          rs = oneIf (scalesReserved e.desc tile.tag sl) (causeScale, reservedRow e.desc tile.tag sl))) →
    ∃ t, exec c s = .next t ∧ s.onlyHamlets t ∧ (t.hamlet (millSlot u)).err.foreign = true ∧ (t.mill u).finRun = none ∧ (t.mill u).finQ = q ∧
      (t.mill u).sticky.expErr = true ∧ (t.mill u).firstErr = (s.mill u).firstErr.then_ (descTile e.desc) (rs ++ [(causeOperand, 0)]) ∧
      (t.hand ⟨u.die, u.slot, u.idx⟩).evPend = (s.hand ⟨u.die, u.slot, u.idx⟩).evPend ||| 1 ∧
      ∀ n, (t.mill u).line n =
        if c = .range u ∨ n < descBase e.desc ∨ descBase e.desc + tile.lines e.desc ≤ n then (s.mill u).line n
        else if e.desc.getLsbD 11 then {} else { (s.mill u).line n with span := none })

/-- R217, R219, and R371 in `State.stir`: a Porter at work keeps the package in Run. GATHER takes the source row and SCATTER the destination row from the index entry. Rows on other endpoints are in PorterRingsQueueAndErrors. -/
def Obligations.PorterMovesRowsOfMemory : Prop :=
  ∀ (s : State) (p : PorterRef) (e : PorterDesc) (rest : List PorterDesc) (who : Actor) (i src dst n : Nat),
    s.porterRuns p = true → s.mem.wf = true → (s.porter p).run = none → (s.porter p).cur = none → (s.porter p).halted = false →
    (s.porter p).queue = e :: rest → porterDescValid e.desc = true → rowLen e.desc = n → n ≠ 0 → rowCount e.desc = 1 →
    srcRing e.desc = false → dstRing e.desc = false → who = s.porterActor p e →
    (descType e.desc = 2 ∨ descType e.desc = 3 → ∃ a, s.resolve who false (fieldOf e.desc 384 64) = some (.mem a .plain) ∧ a < sramBase ∧
      fieldOf e.desc 384 64 % 2048 + 4 ≤ 2048 ∧ s.poisonedAt a 4 = false ∧ s.kvRespected who false (fieldOf e.desc 384 64) 4 ∧ ofBytes (s.mem.readBytes a 4) = i ∧ i ≠ 0xffffffff) →
    ∀ sea dea, sea = srcEa e.desc (if descType e.desc = 2 then i else 0) → dea = dstEa e.desc (if descType e.desc = 3 then i else 0) →
    s.resolve who false sea = some (.mem src .plain) → src < sramBase → sea % 2048 + n ≤ 2048 → s.poisonedAt src n = false →
    s.kvRespected who false sea n → s.kvRespected who true dea n → s.resolve who true dea = some (.mem dst .plain) → dst < sramBase → dea % 2048 + n ≤ 2048 → (src + n ≤ dst ∨ dst + n ≤ src) →
    (descType e.desc = 4 → s.poisonedAt dst n = false ∧ s.reduceDst dea n false = true ∧
      n % reduceSize (reduceOp e.desc) = 0 ∧ sea % reduceSize (reduceOp e.desc) = 0 ∧ dea % reduceSize (reduceOp e.desc) = 0) →
    ∃ t, exec (porterCommand p (descType e.desc)) s = .next t ∧
      s.memHas t dst (if descType e.desc = 4 then
          reduceBytes (reduceSpec e.desc e.byReeve 0) s.settings.lotSeed (((s.porterJob p e).map fun j => j.2.seed).getD 0) s.freeCtr
            (s.mem.readBytes dst n) (s.mem.readBytes src n)
        else s.mem.readBytes src n) ∧
      t.porter p = { s.porter p with queue := rest, run := some ⟨e, false⟩ } ∧
      t = { s.stir with hamlets := t.hamlets, parishes := t.parishes, mem := t.mem, blkPoison := t.blkPoison, freeCtr := t.freeCtr }

/-- R218, for a row that fits the slot. A firmware-independent header: DW0 has no RSVD bit set. R215, R219 to R221. A RSVD bit written 1 to PORTER_STICKY leaves the bits that the write clears free (log entry 7). -/
def Obligations.PorterRingsQueueAndErrors : Prop :=
  (∀ (s : State) (p : PorterRef) (e : PorterDesc) (rest : List PorterDesc) (who : Actor) (k i n a : Nat) (j : Job) (r : RingRef),
    s.porterRuns p = true → s.mem.wf = true → (s.porter p).run = none → (s.porter p).cur = none → (s.porter p).halted = false →
    (s.porter p).queue = e :: rest → porterDescValid e.desc = true → descType e.desc = 1 → rowLen e.desc = n → n ≠ 0 →
    rowCount e.desc = 1 → who = s.porterActor p e → s.porterJob p e = some (k, j) →
    (srcRing e.desc = true → dstRing e.desc = false → j.ringOf (fieldOf e.desc 64 13) = some r → s.offers r i →
      (s.slotIn r i).poison = false → (s.slotIn r i).bytes.length = n →
      s.resolve who true (dstEa e.desc 0) = some (.mem a .plain) → a < sramBase → dstEa e.desc 0 % 2048 + n ≤ 2048 →
      s.kvRespected who true (dstEa e.desc 0) n →
      ∃ t, exec (.copy p) s = .next t ∧ s.memHas t a (s.slotIn r i).bytes ∧ t.ring r = (s.ring r).used (ringSlot r) (.porter p) i ∧
        t.porter p = { s.porter p with queue := rest, run := some ⟨e, false⟩ } ∧
        t = { s.stir with
          hamlets := t.hamlets, parishes := t.parishes, mem := t.mem, blkPoison := t.blkPoison, freeCtr := t.freeCtr }) ∧
    (∀ off, srcRing e.desc = false → dstRing e.desc = true → j.ringOf (fieldOf e.desc 128 13) = some r → s.accepts r i →
      off = sramAddr (ringSlot r) ((s.ring r).slotOff i) → (s.ring r).slotOff i + 64 + (s.ring r).capacity ≤ padBytes →
      (∀ o, o ≤ 64 → s.fenced (off + o) = false) → n ≤ (s.ring r).capacity → fieldOf e.desc 16 4 < 14 →
      s.resolve who false (srcEa e.desc 0) = some (.mem a .plain) → a < sramBase → srcEa e.desc 0 % 2048 + n ≤ 2048 →
      s.poisonedAt a n = false → s.kvRespected who false (srcEa e.desc 0) n →
      ∃ t, exec (.copy p) s = .next t ∧ t.mem.readBytes (off + 64) n = s.mem.readBytes a n ∧
        t.mem.readBytes off 8 = toBytes 8 (hdrWord (BitVec.ofNat 4 (fieldOf e.desc 16 4)) (BitVec.ofNat 8 (fieldOf e.desc 20 8)) false n).toNat ∧
        (∀ q, (q < off ∨ off + 64 + n ≤ q) → t.mem.read q = s.mem.read q) ∧
        (t.ring r).slot i = .published ∧ (t.ring r).pub = i + 1 ∧
        t.porter p = { s.porter p with queue := rest, run := some ⟨e, false⟩ } ∧
        t = { s.stir with
          hamlets := t.hamlets, parishes := t.parishes, mem := t.mem, sramPoison := t.sramPoison, freeCtr := t.freeCtr })) ∧
  (∀ (s : State) (p : PorterRef),
    (∀ v : Word64,
      ((s.porter p).queue.length < 8 → (s.porter p).winBy.all (· == .reeve) = true → ∃ t, exec (.porterDescWinPush p v) s = .next t ∧
        t = { s with hamlets := t.hamlets, parishes := t.parishes } ∧
        t.porter p = { s.porter p with
          win := (s.porter p).win.set 7 v, winBy := []
          queue := (s.porter p).queue ++
            [⟨ofLanes 64 ((List.range 8).map fun i => if i = 7 then v.toNat else ((s.porter p).win.get 0 i).toNat), none, true⟩] }) ∧
      (8 ≤ (s.porter p).queue.length → ∃ t, exec (.porterDescWinPush p v) s = .next t ∧
        t = { s with hamlets := t.hamlets, parishes := t.parishes, freeCtr := t.freeCtr } ∧
        t.porter p = { s.porter p with win := (s.porter p).win.set 7 v, winBy := [] })) ∧
    (∀ y h k j r, (s.porter p).run = some y → s.openReqs (porterDie p) (writesFor p) = false → y.desc.issuer = some h →
      s.jobAt (handSlot h) = some (k, j) → s.refKind j (fieldOf y.desc.desc 448 13) = .job r →
      (y.desc.desc.getLsbD 14 = true → fieldOf y.desc.desc 464 16 ≠ 0) →
      ∃ t, exec (.porterComplete p) s = .next t ∧ t.porter p = { s.porter p with run := none, done := (s.porter p).done + 1 } ∧
        (t.hand h).evPend = (if y.desc.desc.getLsbD 15 || y.poisoned then (s.hand h).evPend ||| 16 else (s.hand h).evPend) ∧
        t = { s.stir with
          hamlets := t.hamlets, parishes := t.parishes
          bellFlight := if y.desc.desc.getLsbD 14 then
              s.bellFlight ++ [⟨.porter p, (ringSlot r, r.idx % 64), BitVec.ofNat 32 (fieldOf y.desc.desc 464 16)⟩] else s.bellFlight }) ∧
    (∀ v : Word64, v &&& porterReserved 0x088 = 0 → ∃ t k, exec (.porterHaltedClear p v) s = .next t ∧
      t = { s with hamlets := t.hamlets, parishes := t.parishes } ∧
      k = ({ badDesc := (s.porter p).sticky.badDesc && !v.getLsbD 0, xlate := (s.porter p).sticky.xlate && !v.getLsbD 1
             badDst := (s.porter p).sticky.badDst && !v.getLsbD 2, poison := (s.porter p).sticky.poison && !v.getLsbD 3
             foreign := (s.porter p).sticky.foreign && !v.getLsbD 4 } : PorterSticky) ∧
      t.porter p = { s.porter p with sticky := k, halted := (s.porter p).halted && (k.badDesc || k.xlate || k.badDst || k.foreign) }) ∧
    (∀ e rest c x, s.porterRuns p = true → (s.porter p).run = none → (s.porter p).cur = none → (s.porter p).halted = false →
      (s.porter p).queue = e :: rest → e.issuer = none → (s.porter p).errCause = 0 →
      ((porterDescValid e.desc = false ∧ c = porterCommand p (descType e.desc) ∧
          x = { (s.porter p).sticky with badDesc := true }) ∨
        (porterDescValid e.desc = true ∧ porterRowsValid e.desc = true ∧ descType e.desc = 4 ∧ dstRing e.desc = true ∧ c = .reduce p ∧
          x = { (s.porter p).sticky with badDst := true })) →
      ∃ t, exec c s = .next t ∧ t = { s.stir with hamlets := t.hamlets, parishes := t.parishes } ∧
        t.porter p = { s.porter p with
          queue := rest, sticky := x, halted := true, errTile := descTile e.desc, errRow := 0
          errCause := if porterDescValid e.desc then 3 else 1 }))

/-- R227, R229 to R231, R234, R235. A Press engine at work keeps the package in Run (`State.stir`, R371). R224, R226, R234 to R236, R238, R239, R241. -/
def Obligations.PressReadsCountsAndCodes : Prop :=
  (∀ (s : State) (p : ParishRef) (n : Nat) (j : Job) (d : Vec), s.engineReady p .press n j d →
    (∀ a, descType d = 1 → s.clearPage (actorOf n j) false (pressSrc d) (2 * pressCount d) a →
      ∃ t, exec (.scan p) s = .next t ∧ t = { s.stir with parishes := t.parishes } ∧
        (t.parish p).press = { (s.parish p).press with
          hist := countExps (if d.getLsbD 20 then {} else (s.parish p).press.hist) (words 2 (s.mem.readBytes a (2 * pressCount d)))
          cur := none, run := some ⟨d, 0, BitVec.ofNat 32 (pressCount d), 0, false⟩ }) ∧
    (∀ image, descType d = 2 → pressDst d = 0 →
      buildTable ((List.range 256).map fun e => ((s.parish p).press.hist.get 0 e).toNat) = some image →
      ∃ t, exec (.build p) s = .next t ∧
        t = { s.stir with parishes := t.parishes, pressPend := s.pressPend ++ [⟨pressTable d, j.household, image, some p⟩] } ∧
        (t.parish p).press = { (s.parish p).press with
          installing := true, cur := none, run := some ⟨d, 0, BitVec.ofNat 32 (tableTag image), 0, false⟩ }) ∧
    (∀ a, descType d = 5 → s.clearPage (actorOf n j) false (pressSrc d) 128 a → tableValid (s.mem.readBytes a 128) = true →
      ∃ t, exec (.loadt p) s = .next t ∧
        t = { s.stir with
          parishes := t.parishes, pressPend := s.pressPend ++ [⟨pressTable d, j.household, s.mem.readBytes a 128, some p⟩] } ∧
        (t.parish p).press = { (s.parish p).press with
          installing := true, cur := none, run := some ⟨d, 0, BitVec.ofNat 32 (tableTag (s.mem.readBytes a 128)), 0, false⟩ }) ∧
    (∀ slot w, s.pressPend.find? (fun w => w.slot == slot) = some w → w.by_ = some p →
      ∃ t, exec (.tableSlotVisible slot) s = .next t ∧
        t = { s with parishes := t.parishes, pressPend := s.pressPend.filter fun y => !(y == w), pressSlots := t.pressSlots } ∧
        ((s.pressSlots.get {} slot).owner = w.owner → (t.pressSlots.get {} slot).image = some w.image) ∧
        ((s.pressSlots.get {} slot).owner ≠ w.owner → t.pressSlots = s.pressSlots) ∧ (∀ k, k ≠ slot → t.pressSlots.find k = s.pressSlots.find k) ∧
        (t.parish p).press = { (s.parish p).press with installing := false })) ∧
  (∀ (s : State) (p : ParishRef) (n : Nat) (j : Job) (d : Vec) (src dst k result : Nat) (c : Instr) (out : List Byte),
    s.engineReady p .press n j d → s.mem.wf = true → s.clearPage (actorOf n j) false (pressSrc d) k src →
    s.clearPage (actorOf n j) true (pressDst d) out.length dst →
    ((c = .encode p ∧ descType d = 3 ∧ k = 2 * pressCount d ∧ pressIndex d = 0 ∧
        out = encodeBlock
          (if s.touchesProt j.household (pressDst d) (2 * pressCount d + 16 * ceilDiv (pressCount d) 2048) then none
            else (s.imageFor j.household (pressTable d)).map fun i => (pressTable d, i))
          (words 2 (s.mem.readBytes src k)) ∧ result = out.length) ∨
      (c = .decode p ∧ descType d = 4 ∧ pressCount d = 1 ∧ k = blockLen (s.mem.readBytes src 16) ∧ 16 ≤ k ∧ lenUsable k = true ∧
        ∃ v, decodeBlock (s.imageFor j.household) (s.mem.readBytes src k) = some v ∧ out = v.flatMap (toBytes 2) ∧ result = v.length) ∨
      (c = .maskidx p ∧ descType d = 6 ∧ k = maskTiles d * maskRows d * 16 ∧
        out = (padIndex ((activeNeurons (maskTiles d) (maskRows d) (s.mem.readBytes src k)).map fun i => (maskBase d + i) % 2 ^ 32)).flatMap
          (toBytes 4) ∧ result = (activeNeurons (maskTiles d) (maskRows d) (s.mem.readBytes src k)).length)) →
    ∃ t, exec c s = .next t ∧ s.memHas t dst out ∧
      t = { s.stir with parishes := t.parishes, mem := t.mem, blkPoison := t.blkPoison } ∧
      (t.parish p).press = { (s.parish p).press with cur := none, run := some ⟨d, 0, BitVec.ofNat 32 result, 0, false⟩ })

/-- R237, R244 to R248. The completion is stated for STATUS = 0, which writes no record, and a Bell add other than 0 (log entry 7); the answers waited for are log entry 99. -/
def Obligations.MergeTreeSumsRows : Prop :=
  ∀ (s : State) (p : ParishRef) (n : Nat) (j : Job),
    (∀ d src dst l out, s.engineReady p .merge n j d → s.mem.wf = true → mergeExpect d * mergeSize d ≤ 2 ^ 21 →
      s.clearPage (actorOf n j) false (pressSrc d) (mergeExpect d * mergeSize d) src →
      l = mergeRecs d (s.mem.readBytes src (mergeExpect d * mergeSize d)) false → (l.all fun r => !r.poison) = true →
      out = (mergeRows (mergeFmt d) (mergeSource d) (sortRecs (l.take (mergeExpect d)))).flatMap MergeRec.bytes →
      s.clearPage (actorOf n j) true (pressDst d) out.length dst →
      ∃ t, exec (.merge p) s = .next t ∧ s.memHas t dst out ∧
        t = { s.stir with parishes := t.parishes, mem := t.mem, blkPoison := t.blkPoison } ∧
        (t.parish p).merge = { (s.parish p).merge with
          buffer := l.take (mergeExpect d), cur := none
          run := some ⟨d, 0, BitVec.ofNat 32 (mergeRows (mergeFmt d) (mergeSource d) (sortRecs (l.take (mergeExpect d)))).length, 0, false⟩ }) ∧
    (∀ e r g b, (s.engine p e).run = some r → s.engineJob p e = some (n, j) → ¬(e = .press ∧ (s.parish p).press.installing = true) →
      pressStatus r.desc = 0 → s.openReqs p.die (engineWrites p e) = false →
      (r.desc.getLsbD 14 = true → fieldOf r.desc 464 16 ≠ 0) → j.ringOf ((s.engine p e).dring.toNat % 8192) = some g → s.refKind j (fieldOf r.desc 448 13) = .job b →
      ∃ t, exec (.pressComplete p e) s = .next t ∧ (t.engine p e).run = none ∧
        (e = .press → (t.parish p).press.done = (s.parish p).press.done + 1 ∧
          (t.parish p).press.errors = satAdd (s.parish p).press.errors (if r.code = 0 then 0 else 1) ∧ (t.parish p).merge = (s.parish p).merge) ∧
        (e = .merge → (t.parish p).merge.done = (s.parish p).merge.done + 1 ∧
          (t.parish p).merge.errors = satAdd (s.parish p).merge.errors (if r.code = 0 then 0 else 1) ∧ (t.parish p).merge.buffer = [] ∧
          (t.parish p).press = (s.parish p).press) ∧
        (t.hand ⟨g.die, g.slot, 0⟩).evPend =
          (if r.desc.getLsbD 15 || r.code != 0 then (s.hand ⟨g.die, g.slot, 0⟩).evPend ||| 16 else (s.hand ⟨g.die, g.slot, 0⟩).evPend) ∧
        t = { s.stir with
          hamlets := t.hamlets, parishes := t.parishes
          bellFlight := if r.desc.getLsbD 14 then
              s.bellFlight ++ [⟨.engine p e, (ringSlot b, b.idx % 64), BitVec.ofNat 32 (fieldOf r.desc 464 16)⟩] else s.bellFlight })

/-- R266 to R271, R273. That ENABLE set from 0 zeroes the layers is the choice of the model (log entry 23). A parish unit is the head Reeve's; a hamlet unit that took a value that compiled code must not write is `wild`, and its later values are free (log entry 7). -/
def Obligations.TallyUnitsAbsorbAndLog : Prop :=
  ∀ (s : State) (u : TallyRef),
    (∀ x q b, (s.tally u).snoopQ = x :: q → x.scrub = false → (s.tally u).wild = false → b = x.framed →
      ((s.tally u).mode = 0 → ∃ t, exec (.tallySnoopUnit u) s = .next t ∧ t = { s with hamlets := t.hamlets, parishes := t.parishes } ∧
        t.tally u = { s.tally u with
          snoopQ := q, poisonSeen := (s.tally u).poisonSeen || x.poison
          nonzero := (s.tally u).nonzero || ((s.tally u).source == 4 && (words 8 b).any fun w => w != 0)
          value := BitVec.ofNat 64 (tallyFrom (s.tally u).alg (s.tally u).value.toNat b)
          alive := (s.tally u).alive + BitVec.ofNat 64 (b.length / 8) }) ∧
      ((s.tally u).mode = 1 → fifthLayer (s.tally u).layers x.layer = false →
        ∃ t, exec (.tallySnoopUnit u) s = .next t ∧ t = { s with hamlets := t.hamlets, parishes := t.parishes } ∧
          t.tally u = { s.tally u with
            snoopQ := q, poisonSeen := (s.tally u).poisonSeen || x.poison
            layers := addLayer (s.tally u).layers x.layer (BitVec.ofNat 64 (tallyFrom (s.tally u).alg 0 b)) x.poison
            alive := (s.tally u).alive + BitVec.ofNat 64 (b.length / 8) }) ∧
      (∀ n j a, (s.tally u).mode = 2 → (s.tally u).logStopped = false → (s.tally u).logNext < (s.tally u).logSize → s.mem.wf = true →
        s.jobOfTally u = some (n, j) →
        s.clearPage (actorOf n j) true (s.ownEa (32 * (s.tally u).logBase.toNat + 32 * (s.tally u).logNext.toNat)) 32 a →
        ∃ t, exec (.tallySnoopUnit u) s = .next t ∧
          s.memHas t a (TallyEntry.bytes ⟨x.layer, x.tile, BitVec.ofNat 64 (tallyFrom (s.tally u).alg 0 b), 1, x.poison, false, false⟩
            (s.tallyPlace u) s.clock) ∧
          (t.tally u).logNext = (s.tally u).logNext + 1 ∧ (t.tally u).snoopQ = q ∧
          t = { s with hamlets := t.hamlets, parishes := t.parishes, mem := t.mem, blkPoison := t.blkPoison })) ∧
    (∀ v : Word64, (v.getLsbD 0 = false → exec (.tallyFlush u v) s = .next s) ∧
      (∀ l n j a, v.getLsbD 0 = true → (s.tally u).snoopQ = [] → (s.tally u).wild = false → (s.tally u).layers = [l] → (s.tally u).logStopped = false →
        (s.tally u).logNext < (s.tally u).logSize → s.mem.wf = true → s.jobOfTally u = some (n, j) →
        s.clearPage (actorOf n j) true (s.ownEa (32 * (s.tally u).logBase.toNat + 32 * (s.tally u).logNext.toNat)) 32 a →
        ∃ t, exec (.tallyFlush u v) s = .next t ∧ s.memHas t a ((l.entry false true).bytes (s.tallyPlace u) s.clock) ∧
          (t.tally u).layers = [] ∧ (t.tally u).logNext = (s.tally u).logNext + 1 ∧
          t = { s with hamlets := t.hamlets, parishes := t.parishes, mem := t.mem, blkPoison := t.blkPoison })) ∧
    (∀ v : Word64, tallyCtrlValid v = true ∨ tallyOfReeve u = true → (s.tally u).snoopQ = [] →
      ∃ t, exec (.tallyCtrlWrite u v) s = .next t ∧ t = { s with hamlets := t.hamlets, parishes := t.parishes } ∧
        t.tally u = { s.tally u with
          enable := v.getLsbD 0, mills := BitVec.ofNat 4 (fieldOf v 8 4)
          alg := if (s.tally u).enable then (s.tally u).alg else BitVec.ofNat 2 (fieldOf v 1 2)
          mode := if (s.tally u).enable then (s.tally u).mode else BitVec.ofNat 2 (fieldOf v 3 2)
          source := if (s.tally u).enable then (s.tally u).source else BitVec.ofNat 3 (fieldOf v 5 3)
          layers := if v.getLsbD 0 && !(s.tally u).enable then [] else (s.tally u).layers }) ∧
    (∀ v : Word64, ∃ t, exec (.tallyValueWrite u v) s = .next t ∧ t = { s with hamlets := t.hamlets, parishes := t.parishes } ∧
      t.tally u = { s.tally u with value := v })

/-- R187 to R189, R272, R355 and R369. A defective byte stays so (log entry 111), and the parish unit that reads a granule back is cold again where it serves no job (log entry 112). -/
def Obligations.FenceAndScrubClearsTheHamlet : Prop :=
  ∀ (s : State) (m : HamletRef) (n : Nat) (j : Job),
    (∀ p, s.scrubDue m = some (n, j, p) → (s.hamlet m).fence = .lowered → (s.hamlet m).power = .active →
      ∃ t, exec (.fenceAndScrub m) s = .next t ∧ t.hamlet m = { (s.hamlet m).stopUnits with fence := .raised } ∧ s.otherHamlets t m ∧
        t = { s with hamlets := t.hamlets, dies := t.dies, bellFlight := s.bellFlight.filter fun a => a.dst.1 != m }) ∧
    ((s.hamlet m).fence = .raised → s.mem.wf = true → (∀ c ∈ s.defects, c.1 < sramAddr m 0 ∨ sramAddr m 0 + padBytes ≤ c.1) →
      ∃ t, exec (.scrubFill m []) s = .next t ∧ s.otherHamlets t m ∧
        (∀ o, o < padBytes → t.mem.read (sramAddr m o) = 0) ∧
        (∀ a, (a < sramAddr m 0 ∨ sramAddr m 0 + padBytes ≤ a) → t.mem.read a = s.mem.read a) ∧
        t.hamlet m = { s.hamlet m with
          rings := {}, bells := {}, waitLimit := 0x00100000, ringStall := 0, err := {}, fence := .filled
          aliveBefore := ((s.hamlet m).tallies.get {} 0).alive
          tallies := (s.hamlet m).tallies.set 0 { (s.hamlet m).tallies.get {} 0 with
            source := 4, alg := 1, value := 0, nonzero := false, alive := ((s.hamlet m).tallies.get {} 0).alive + 786432 } } ∧
        t = { s with hamlets := t.hamlets, mem := t.mem, sramPoison := t.sramPoison }) ∧
    (∀ o v, (s.hamlet m).fence = .raised → s.mem.wf = true → o < padBytes → v ≠ 0 →
      ∃ t, exec (.scrubFill m [(o, v)]) s = .next t ∧ t.mem.read (sramAddr m o) = v ∧ ((t.hamlet m).tallies.get {} 0).nonzero = true ∧
        (t.hamlet m).scrubOk = false ∧ t.defects = s.defects ++ [(sramAddr m o, v)]) ∧
    (∀ p, s.scrubDue m = some (n, j, p) → (s.hamlet m).fence = .filled → (s.hamlet m).scrubOk = false →
      ∃ t, exec (.scrubCheck m) s = .next t ∧ t.hamlet m = { (s.hamlet m).vacated with retired := true, fence := .filled } ∧ (t.hamlet m).power = .off ∧
        s.otherHamlets t m ∧ t.mem = s.mem ∧ t.logNext = s.logNext + 1) ∧
    (∀ p why y, s.scrubDue m = some (n, j, p) → s.jobs.find n = some j → j.state = .ending why → (s.hamlet m).fence = .filled →
      (s.hamlet m).scrubOk = true →
      y = { j with scrubs := j.scrubs ++ [ScrubRec.mk p.die p.logical ((((s.hamlet m).tallies.get {} 0).value).setWidth 32) (s.clock.setWidth 32)] } →
      ∃ t, exec (.scrubCheck m) s = .next t ∧ t.hamlet m = (s.hamlet m).vacated ∧ s.otherHamlets t m ∧
        t.jobs.find n = some (if y.scrubbed then { y with state := why.final } else y) ∧
        t.noticeQ = (if y.scrubbed then
            s.noticeQ ++ [Notice.mk (s.noticeBox j.household) 0xf001 (BitVec.ofNat 64 (n + why.code * 2 ^ 16))] else s.noticeQ) ∧
        t = { s with hamlets := t.hamlets, jobs := t.jobs, noticeQ := t.noticeQ }) ∧
    (∀ q g, s.jobs.cells.find? (fun c => c.2.isEnding && c.2.granules.contains (q, g)) = some (n, j) → s.jobs.find n = some j →
      s.mem.wf = true →
      ((∀ c ∈ s.defects, c.1 < granuleAddr q.die (granuleNo q g) 0 ∨ granuleAddr q.die (granuleNo q g) 0 + granuleBytes ≤ c.1) →
      ∃ t, exec (.granuleScrub q g []) s = .next t ∧
        (∀ o, o < granuleBytes → t.mem.read (granuleAddr q.die (granuleNo q g) o) = 0) ∧
        (∀ a, (a < granuleAddr q.die (granuleNo q g) 0 ∨ granuleAddr q.die (granuleNo q g) 0 + granuleBytes ≤ a) →
          t.mem.read a = s.mem.read a) ∧
        (t.parish q).owner = (s.parish q).owner.del g ∧
        (t.parish q).scratch = (s.parish q).scratch &&& ~~~(BitVec.ofNat 40 (2 ^ g)) ∧
        (t.parish q).tallies = (if (s.jobOfParish q).isSome then (s.parish q).tallies else (s.parish q).tallies.del 0) ∧
        (t.jobs.find n).map (·.granules) = some (j.granules.filter fun c => c != (q, g)) ∧
        t = { s with parishes := t.parishes, mem := t.mem, sramPoison := t.sramPoison, jobs := t.jobs, noticeQ := t.noticeQ }) ∧
      (∀ o v, o < granuleBytes → v ≠ 0 →
        ∃ t, exec (.granuleScrub q g [(o, v)]) s = .next t ∧ t.mem.read (granuleAddr q.die (granuleNo q g) o) = v ∧
          (t.parish q).retired = (s.parish q).retired ||| BitVec.ofNat 40 (2 ^ g) ∧ t.logNext = s.logNext + 1))

/-- R101, R186, R367 to R371. That Tally units and Porters are cold on a wake from Retain is the model's reading (log entry 66), and that the push pointer of a Mill is kept is log entry 92. `Hamlet.idle` and `Hamlet.mayRetain` are the conditions of R369 and R101. -/
def Obligations.HamletsGateRetainSwitchOffAndWake : Prop :=
  ∀ (s : State) (m : HamletRef),
    ((s.hamlet m).idle = true → (s.hamlet m).fence = .lowered →
      ((s.hamlet m).power = .active →
        (64 ≤ s.idleFor m → exec (.hamletGate m) s = .next (s.setHamlet m { s.hamlet m with power := .gated })) ∧
        (s.idleFor m < 64 → exec (.hamletGate m) s = .next s)) ∧
      ((s.hamlet m).mayRetain = true →
        ((s.hamlet m).power = .active ∨ (s.hamlet m).power = .gated → (s.hamlet m).hint = 1 ∨ (s.hamlet m).hint = 2 →
          (s.retainIdle ≤ s.idleFor m → exec (.hamletRetain m) s = .next (s.setHamlet m { s.hamlet m with power := .retain })) ∧
          (s.idleFor m < s.retainIdle → exec (.hamletRetain m) s = .next s)) ∧
        ((s.hamlet m).power ≠ .off → (s.hamlet m).hint = 2 → s.heldSlot m = true →
          (s.offIdle ≤ s.idleFor m → exec (.hamletOff m) s = .next (s.setHamlet m { s.hamlet m with power := .off })) ∧
          (s.idleFor m < s.offIdle → exec (.hamletOff m) s = .next s)))) ∧
    ((s.hamlet m).power ≠ .off → (s.hamlet m).fence = .lowered ∨ (s.hamlet m).retired = true → s.heldSlot m = false →
      exec (.hamletOff m) s = .next (s.setHamlet m { (s.hamlet m).vacated with fence := (s.hamlet m).fence })) ∧
    (s.unused m = true → exec (.hamletWake m) s = .next s) ∧
    (∀ k j, s.jobAt m = some (k, j) →
      ((s.hamlet m).power = .gated →
        exec (.hamletWake m) s = .next (s.setHamlet m { s.hamlet m with power := .active, idleSince := s.mclk }).rouse) ∧
      ((s.hamlet m).power = .retain →
        exec (.hamletWake m) s = .next (s.setHamlet m { s.hamlet m with
          power := .active, wakes := (s.hamlet m).wakes + 1, idleSince := s.mclk, tallies := {}, porters := {}
          mills := (s.hamlet m).mills.mapV fun _ u => { retirePending := u.retirePending, pushPtr := u.pushPtr }
          hands := (s.hamlet m).hands.mapV fun _ x => { hamlet := x.hamlet } }).rouse) ∧
      ((s.hamlet m).power = .off → s.mem.wf = true →
        ∃ t, exec (.hamletWake m) s = .next t ∧ s.otherHamlets t m ∧ (∀ o, o < padBytes → t.mem.read (sramAddr m o) = 0) ∧
          (∀ a, (a < sramAddr m 0 ∨ sramAddr m 0 + padBytes ≤ a) → t.mem.read a = s.mem.read a) ∧
          t.hamlet m = { s.hamlet m with
            power := .active, wakes := (s.hamlet m).wakes + 1, idleSince := s.mclk, tallies := {}, porters := {}, rings := {}, bells := {}
            waitLimit := 0x00100000, ringStall := 0, err := {}
            mills := (s.hamlet m).mills.mapV fun _ u => { retirePending := u.retirePending, pushPtr := u.pushPtr }
            hands := (s.hamlet m).hands.mapV fun _ x => { hamlet := x.hamlet } } ∧
          t = { s.rouse with hamlets := t.hamlets, mem := t.mem, sramPoison := t.sramPoison }))

/-- R194, R200, R203, R205 to R212, R264, R300 and R392. What a full translation cache does is log entry 29. UNCORRECTABLE_PRIVATE and SRAM_CORRECT are the second part. R82, R387, R391, R392, R394, R397 to R401. A weight set and a staging buffer are recorded as log entry 117 says. -/
def Obligations.LpddrControllersReadWriteCorrectAndPoison : Prop :=
  (∀ (s : State) (c : CtlRef), (s.die c.die).noLpddr = false → c.die < s.dieCount →
    (∀ sector job link errs a, a = siteAddr c (512 * sector) → s.isData a = true → s.blkPoison.contains (a / 2048) = false →
      link.single = 0 → link.uncorrected = 0 →
      ((∀ e ∈ errs, e = 0) → exec (.lpddrRead c sector errs link job) s = .next s) ∧
      ((∃ e ∈ errs, e ≠ 0) → (∀ e ∈ errs, e ≤ 4) →
        ∃ t, exec (.lpddrRead c sector errs link job) s = .next t ∧ t.mem = s.mem ∧ t.blkPoison = s.blkPoison ∧
          t.ctl c = { s.ctl c with corrected := satAdd (s.ctl c).corrected 1, rewrites := (s.ctl c).rewrites ++ [sector] }) ∧
      ((∃ e ∈ errs, 4 < e) → s.listSound a →
        ∃ t, exec (.lpddrRead c sector errs link job) s = .next t ∧ t.mem = s.mem ∧ t.blkPoison = setInsert s.blkPoison (a / 2048) ∧
          t.ctl c = { s.ctl c with poisoned := satAdd (s.ctl c).poisoned 1 } ∧ t.logNext = s.logNext + 1 ∧
          ∀ j, s.jobs.find job = some j → j.serving.active = true →
            t.jobs.find job = some { j with serving := { j.serving with badBlocks := setInsert j.serving.badBlocks (a / 2048) } })) ∧
    (∀ addr data x, x = siteAddr c addr → s.isData x = true → 0 < data.length → addr % 2048 + data.length ≤ 2048 → s.mem.wf = true →
      ∃ t, exec (.lpddrWrite c addr data) s = .next t ∧ s.memHas t x data ∧
        (data.length < 2048 → t.blkPoison = s.blkPoison) ∧ (data.length = 2048 → t.blkPoison = s.blkPoison.erase (x / 2048)) ∧
        t = { s with mem := t.mem, blkPoison := t.blkPoison }) ∧
    (∀ errs, s.strictRuns = true ∨ (s.ctl c).rewrites = [] → exec (.correctionRewrite ⟨c, errs⟩) s = .next s) ∧
    (∀ errs sector rest, s.strictRuns = false → (s.ctl c).rewrites = sector :: rest →
      ((∀ e ∈ errs, e ≤ 4) → exec (.correctionRewrite ⟨c, errs⟩) s = .next (s.modCtl c fun x => { x with rewrites := rest })) ∧
      (∀ a, a = siteAddr c (512 * sector) → (∃ e ∈ errs, 4 < e) → s.isData a = true → s.blkPoison.contains (a / 2048) = false → s.listSound a →
        ∃ t, exec (.correctionRewrite ⟨c, errs⟩) s = .next t ∧ t.mem = s.mem ∧ t.blkPoison = setInsert s.blkPoison (a / 2048) ∧
          t.ctl c = { s.ctl c with rewrites := rest, poisoned := satAdd (s.ctl c).poisoned 1 } ∧ t.logNext = s.logNext + 1)) ∧
    (∀ found, (s.ctl c).lastReadThrough.toNat + ticksPerDay ≤ s.clock.toNat →
      (s.strictRuns = true → exec (.dailyReadThrough c found) s = .next s) ∧
      (s.strictRuns = false → ∃ t, exec (.dailyReadThrough c found) s = .next t ∧ (t.ctl c).lastReadThrough = s.clock ∧ t.hamlets = s.hamlets ∧
        ((∀ x ∈ found, ∀ e ∈ x.errs, e ≤ 4) → t.mem = s.mem ∧ t.blkPoison = s.blkPoison))) ∧
    (∀ temp, ∃ t, exec (.refreshUpdate c temp) s = .next t ∧ t.ctl c = { s.ctl c with refresh := refreshCode temp } ∧ t.mem = s.mem ∧
      (((s.ctl c).refresh = refreshCode temp ∨ temp ≤ 95) → t = { s with controllers := t.controllers })) ∧
    (∀ d hh page, page < (s.household hh).ptLen → d < s.dieCount → (s.die d).tcache.contains (hh, page) = false →
      (s.die d).tcache.length < 4096 →
      (s.blkPoison.contains (s.pteAddr d hh page / 2048) = false →
        exec (.translationMiss d hh page 0) s = .next (s.modDie d fun y => { y with tcache := y.tcache ++ [(hh, page)] })) ∧
      ((∀ i, i < s.dieCount → s.blkPoison.contains (s.pteAddr i hh page / 2048) = true) →
        ∃ t, exec (.translationMiss d hh page 0) s = .next t ∧ t.ident = { s.ident with state := .undefined } ∧ (t.die d).tcache = (s.die d).tcache)) ∧
    (∀ p line, s.homeLine p line = true → (s.parish p).cacheWays ≠ 0 → (s.parish p).wayOf line = none →
      ∃ t, exec (.granaryFill p line false) s = .next t ∧ t = { s with parishes := t.parishes } ∧
        (t.parish p).ways.find (wayKey (cacheSet (512 * line)) ((s.parish p).victim (cacheSet (512 * line))).1) = some ⟨line, false⟩)) ∧
  (∀ (s : State),
    (∀ a, s.isPad a = true →
      ∃ t, exec (.uncorrectablePrivate (.data a)) s = .next t ∧ t.sramPoison = setInsert s.sramPoison (a / 8) ∧ t.mem = s.mem ∧
        t.blkPoison = s.blkPoison ∧ t.hamlets = s.hamlets ∧ t.logNext = s.logNext + 1 ∧
        (∀ m n j, slotOfAddr a = some m → s.jobHolding m = some (n, j) → s.logRoom s.logNext = true →
          t.logRing.find (s.logNext.toNat % 1920) = some
            { index := s.logNext, cls := 1, severity := 2, die := BitVec.ofNat 3 ((a - sramBase) / 0x40000000), place := BitVec.ofNat 5 m.slot
              household := BitVec.ofNat 6 j.household, job := BitVec.ofNat 16 n, event := 2, addr := BitVec.ofNat 48 (8 * (a / 8)), detail := 0
              time := s.clock })) ∧
    (∀ u k, (s.hamlet (millSlot u)).power = .active →
      (∃ t, exec (.uncorrectablePrivate (.weights u k)) s = .next t ∧ t.mem = s.mem ∧ t.logNext = s.logNext + 1 ∧
        t.mill u = { s.mill u with sets := (s.mill u).sets.set (k % 2) { (s.mill u).sets.get {} (k % 2) with poisoned := true } }) ∧
      (∃ t, exec (.uncorrectablePrivate (.staging u k)) s = .next t ∧ t.mem = s.mem ∧ t.logNext = s.logNext + 1 ∧
        t.mill u = { s.mill u with stagingBad := setInsert (s.mill u).stagingBad (k % 8192) })) ∧
    (∀ d, ∃ t, exec (.uncorrectablePrivate (.firmware d)) s = .next t ∧ t.ident = { s.ident with state := .undefined } ∧ t.mem = s.mem ∧
      t.hamlets = s.hamlets ∧ t.logNext = s.logNext + 1) ∧
    (∀ a x, isSram a = false → (if s.isData a then some a else s.dieLocal a) = some x → s.blkPoison.contains (x / 2048) = false → s.listSound x →
      ∃ t, exec (.uncorrectablePrivate (.data a)) s = .next t ∧ t.blkPoison = setInsert s.blkPoison (x / 2048) ∧ t.mem = s.mem ∧
        t.sramPoison = s.sramPoison ∧ t.hamlets = s.hamlets ∧ t.logNext = s.logNext + 1 ∧
        t.ctl (lpddrCtl x) = { s.ctl (lpddrCtl x) with poisoned := satAdd (s.ctl (lpddrCtl x)).poisoned 1 }) ∧
    (∀ x, ∃ t, exec (.sramCorrect x) s = .next t ∧ t = { s with logNext := t.logNext, logRing := t.logRing, dies := t.dies }))

/-- R304, R308 to R311, R315. Stated where nothing waits to be sent on the link, and no packet of a reserved OP to be answered. That replayed flits count in the window of R310 is the model's reading (log entry 140). `Landing.decodeFlit` decodes the codewords that begin within a flit. -/
def Obligations.FerryLinksCheckAcknowledgeAndReplay : Prop :=
  ∀ (s : State) (l : Nat) (x : Landing), x = s.landing l → x.state = .active → x.out = [] →
    (∀ f : FlitIn,
      ((x.decodeFlit s.clock f.errs).1 = true ∨ ((x.decodeFlit s.clock f.errs).1 = false ∧ bitsOf (recNat f.raw 0 8) 0 4 = 1 ∧
        (recNat f.raw 28 4 ≠ crc32c (f.raw.take 28 ++ f.raw.drop 32) ∨ BitVec.ofNat 16 (bitsOf (recNat f.raw 0 8) 6 16) ≠ x.rxSeq + 1))) →
      ∃ t, exec (.flitReceive l f) s = .next t ∧ t.dies = s.dies ∧ (t.landing l).rxSeq = x.rxSeq ∧ (t.landing l).nakSent = true ∧
        (t.landing l).uncorr = (x.decodeFlit s.clock f.errs).2.uncorr ∧ t = { s with landings := t.landings, hostOut := t.hostOut }) ∧
    (∀ raw n, x.rxFlits = 0 → 15 < n →
      ∃ t, exec (.flitReceive l ⟨raw, [n]⟩) s = .next t ∧ t.dies = s.dies ∧ (t.landing l).nakSent = true ∧ (t.landing l).uncorr = satAdd x.uncorr 1) ∧
    (∀ (f : FlitIn) (p : Packet) (d : Nat), p = flitPacket f.raw → d = p.dstDie.toNat → x.replay = [] → s.parkedFor d = [] →
      (x.decodeFlit s.clock f.errs).1 = false →
      bitsOf (recNat f.raw 0 8) 0 4 = 1 → recNat f.raw 28 4 = crc32c (f.raw.take 28 ++ f.raw.drop 32) →
      BitVec.ofNat 16 (bitsOf (recNat f.raw 0 8) 6 16) = x.rxSeq + 1 → p.dst = s.torus.coord → p.flitsOf = 1 →
      bitsOf (recNat f.raw 24 4) 16 5 = 0 → (s.die d).flowsIn.get {} (flowKey p.src p.srcDie p.cls) = { expect := p.pseq, held := [] } →
      p.opValid = true → (∀ k q, q ∈ (s.die k).inbox → q.opValid = true) →
      ∃ t, exec (.flitReceive l f) s = .next t ∧ (t.landing l).rxSeq = x.rxSeq + 1 ∧
        (t.die d).inbox =
          (s.die d).inbox ++ [{ p with payload := (f.raw.drop 32).take (if p.carries then p.len.toNat + 1 else 0),
                                         buf := [(l, creditKey p.cls p.vl)] }] ∧
        (t.die d).flowsIn.get {} (flowKey p.src p.srcDie p.cls) = { expect := p.pseq + 1, held := [] } ∧
        t = { s with landings := t.landings, hostOut := t.hostOut, dies := t.dies }) ∧
    (∀ (c : Instr) (r again : List SentFlit),
      ((∃ ack : BitVec 16, c = .nakReplay l ack ∧ r = x.replay.filter fun f => decide (0x8000 ≤ (ack - f.lseq).toNat)) ∨
        (c = .ackTimeout l ∧ r = x.replay)) → r ≠ [] → again = r.map (fun f => { f with tries := f.tries + 1 }) →
      ∃ t, exec c s = .next t ∧ t = { s with landings := t.landings, hostOut := s.hostOut ++ again.map fun f => .flit l (f.bytes x.rxSeq) } ∧
        t.landing l = { x with
          replay := again, replays := satAdd x.replays 1
          recent := again.foldl (fun v f => (decide (f.packet.cls.toNat < 2) :: v).take 63) x.recent
          sticky := { x.sticky with replayLimit := x.sticky.replayLimit || again.any fun f => decide (8 < f.tries) } }) ∧
    (∀ cr, cr = x.nextCredit (s.heldBack l) → 0 < x.unacked ∨ 0 < cr.2 →
      exec (.ackSend l) s = .next ((s.setLanding l ((x.settled cr).sentOne false)).emit
        (.flit l (idleFlit (linkWord false false 0 x.rxSeq cr.1 cr.2)))))

/-- R219, R309, R310, R317, R318. `State.seedOf` is log entry 36. `State.answerPacket` sends the answer to the packet's source. -/
def Obligations.FerryRequestsReadWriteAndReduce : Prop :=
  ∀ (s : State) (d : Nat) (p : Packet) (a : Nat),
    (s.packetWaits d clsReq 0 p → s.hostsPacket p = true → s.mem.wf = true →
      s.clearPage p.actor true (s.ownEa p.addr.toNat) p.payload.length a →
      ∃ u : State, exec (.write d) s = .next (u.answerPacket d p 4 rspOk [] false) ∧ s.memHas u a p.payload ∧
        (u.die d).inbox = (s.die d).inbox.erase p ∧
        u = { s.withoutPacket d p with parishes := u.parishes, mem := u.mem, blkPoison := u.blkPoison }) ∧
    (s.packetWaits d clsReq 1 p → s.hostsPacket p = true → s.clearPage p.actor false (s.ownEa p.addr.toNat) (p.len.toNat + 1) a →
      ∃ u : State, exec (.read d) s = .next (u.answerPacket d p 5 rspOk (s.mem.readBytes a (p.len.toNat + 1)) false) ∧
        (u.die d).inbox = (s.die d).inbox.erase p ∧ u = { s.withoutPacket d p with parishes := u.parishes }) ∧
    (∀ q n, s.packetWaits d clsReq 2 p → reducePacket p.payload = some q → n = p.payload.length - 16 → s.hostsPacket p = true →
      s.mem.wf = true → p.addr.toNat % reduceSize q.op = 0 → s.reduceDst p.addr.toNat n false = true → s.poisonedAt a n = false →
      s.clearPage p.actor true (s.ownEa p.addr.toNat) n a →
      ∃ u : State, exec (.ferryReduce d) s = .next (u.answerPacket d p 4 rspOk [] false) ∧
        s.memHas u a (reduceBytes q s.settings.lotSeed (s.seedOf p) s.freeCtr (s.mem.readBytes a n) (p.payload.drop 16)) ∧
        (u.die d).inbox = (s.die d).inbox.erase p ∧
        u = { s.withoutPacket d p with parishes := u.parishes, mem := u.mem, blkPoison := u.blkPoison }) ∧
    (s.hostsPacket p = false →
      (s.packetWaits d clsReq 0 p → exec (.write d) s = .next ((s.withoutPacket d p).answerPacket d p 4 rspXlate [] false)) ∧
      (s.packetWaits d clsReq 1 p → exec (.read d) s = .next ((s.withoutPacket d p).answerPacket d p 5 rspXlate [] false)))

/-- R317, R318, R326, R327. The choices of the model: what the firmware reads in a CTRL packet is log entries 39 and 64, the binding of a target log entry 38, and that MCRED returns its credit to the ring that sent the tag is log entry 73. -/
def Obligations.FerryAnswersCloseRequests : Prop :=
  ∀ (s : State) (d : Nat) (p : Packet),
    (s.packetWaits d clsRsp 4 p → p.status = 0 → ∀ r, (s.die d).reqs.find? (fun r => r.tag == p.tag.toNat) = some r →
      (∀ q row, r.who = .porterWrite q row →
        exec (.wack d) s = .next ((s.withoutPacket d p).modDie d fun x => { x with reqs := x.reqs.erase r })) ∧
      (∀ q i, r.who = .slot q i true → (s.ring q).enable = true → (s.ring q).origins.cells = [] → (s.hamlet (ringSlot q)).power = .active →
        exec (.wack d) s = .next ((((s.withoutPacket d p).modDie d fun x => { x with reqs := x.reqs.erase r }).modRing q fun x =>
          { x with senders := x.senders.del i }).modRing q fun x => x.release i))) ∧
    (s.packetWaits d clsRsp 5 p → p.status = 0 → ∀ r q ea, (s.die d).reqs.find? (fun r => r.tag == p.tag.toNat) = some r →
      r.who = .porterRead q ea →
      exec (.rdata d) s = .next (((s.withoutPacket d p).modDie d fun x => { x with reqs := x.reqs.erase r }).modPorter q fun x =>
        { x with cur := x.cur.map fun c => c.take ea (p.payload.take r.bytes) p.poison })) ∧
    (s.packetWaits d clsRsp 8 p →
      ∃ t, exec (.mcred d) s = .next t ∧ t = { s.withoutPacket d p with hamlets := t.hamlets } ∧
        (∀ r : RingRef, r.die = d → r.slot < 18 → t.ring r = (s.ring r).creditBack p.tag.toNat)) ∧
    (∀ v, s.packetWaits d clsBell 6 p → p.payload.length = 16 → v = ofBytes p.payload →
      (∀ c r, (s.jobs.cells.filter fun c => c.2.live && c.2.household == p.household.toNat).find?
            (fun c => c.2.bindsCounter s.torus.coord (bitsOf v 0 16) && (c.2.ringOf (bitsOf v 0 16)).isSome) = some c →
          c.2.ringOf (bitsOf v 0 16) = some r →
          exec (.bell d) s = .next ((s.withoutPacket d p).castBell (.remote p.src p.srcDie) (ringSlot r) r.idx (BitVec.ofNat 32 (bitsOf v 32 16)))) ∧
      (∀ r, (s.jobs.cells.filter fun c => c.2.live && c.2.household == p.household.toNat).find?
            (fun c => c.2.bindsCounter s.torus.coord (bitsOf v 0 16) && (c.2.ringOf (bitsOf v 0 16)).isSome) = none →
          (s.jobs.cells.filter fun c => c.2.live && c.2.household == p.household.toNat).findSome? (fun c => c.2.ringOf (bitsOf v 0 16)) = some r →
          exec (.bell d) s = .next ((s.withoutPacket d p).foreignBell (ringSlot r)))) ∧
    (s.packetWaits d clsCtrl 7 p → exec (.ctrl d none) s = .next (s.withoutPacket d p) ∧
      ∀ c, exec (.ctrl d (some c)) s = .next ((s.withoutPacket d p).forgetPeer c))

/-- R171, R186, R309 and R326. The bytes of a slot in MSG packets are its header and LEN bytes of payload (log entry 37). -/
def Obligations.BoundRingsCarrySlots : Prop :=
  ∀ (s : State),
    (∀ w r b k j i tag, w = s.wake (ringSlot r) → (s.hamlet (ringSlot r)).power ≠ .off → (w.ring r).bind = some b → b.credits ≠ 0 →
      w.jobAt (ringSlot r) = some (k, j) → j.state = .running →
      (w.ring r).enable = true → (w.ring r).waiters = [] → (w.ring r).grants = [] → (w.ring r).claim = i → (w.ring r).slot i = .published →
      min (w.slotHdr r i).len (w.ring r).capacity ≤ 4032 → w.bundle b.coord (some j.image.span) ≠ [] → tag = (w.die r.die).nextTag % 16384 →
      ∃ t, exec (.boundSlotSend r) s = .next t ∧ t = { w with hamlets := t.hamlets, dies := t.dies, landings := t.landings, hostOut := t.hostOut } ∧
        t.ring r = { (w.ring r).setSlot i .claimed with
          claim := (w.ring r).after i, grant := 0, bind := some { b with credits := b.credits - 1, sent := b.sent ++ [(tag, i)] } } ∧
        (t.die r.die).reqs = (w.die r.die).reqs ++ [OpenRequest.mk tag (.slot r i true) (64 + min (w.slotHdr r i).len (w.ring r).capacity) b.coord]) ∧
    (∀ d p r i off len, s.packetWaits d clsReq 3 p → s.msgRing p.household.toNat p.addr.toNat = some r →
      (s.die d).msgs.find? (fun m => m.coord == p.src && m.die == p.srcDie && m.ring == BitVec.ofNat 16 p.addr.toNat) = none →
      (p.payload.length < 64 + bitsOf (recNat p.payload 0 8) 32 21 →
        ∃ u : State, exec (.msg d) s = .next (u.answerPacket d p 4 rspOk [] false) ∧ u = { s.withoutPacket d p with dies := u.dies } ∧
          ∃ m ∈ (u.die d).msgs, m = ⟨p.src, p.srcDie, BitVec.ofNat 16 p.addr.toNat, p.payload, p.poison⟩) ∧
      (64 + bitsOf (recNat p.payload 0 8) 32 21 ≤ p.payload.length → s.mem.wf = true → (s.hamlet (ringSlot r)).power = .active →
        (s.ring r).enable = true → (s.ring r).waiters = [] → (s.ring r).grants = [] → (s.ring r).rsv = i → (s.ring r).slot i = .free → (s.ring r).pub = i → i + 1 < (s.ring r).size →
        (s.ring r).slot (i + 1) ≠ .ready → off = sramAddr (ringSlot r) ((s.ring r).slotOff i) →
        (s.ring r).slotOff i + 64 + (s.ring r).capacity ≤ padBytes → (∀ o, o ≤ 64 → s.fenced (off + o) = false) →
        len = min (bitsOf (recNat p.payload 0 8) 32 21) (s.ring r).capacity →
        ∃ u : State, exec (.msg d) s = .next (u.answerPacket d p 4 rspOk [] false) ∧
          u = { s.withoutPacket d p with hamlets := u.hamlets, dies := u.dies, mem := u.mem, sramPoison := u.sramPoison } ∧
          u.mem.readBytes (off + 64) len = (p.payload.drop 64).take len ∧
          (∀ q, (q < off ∨ off + 64 + len ≤ q) → u.mem.read q = s.mem.read q) ∧
          (u.ring r).slot i = .published ∧ (u.ring r).pub = i + 1 ∧ (u.ring r).origins.find i = some ⟨p.src, p.srcDie, p.tag⟩))

/-- R22, R305 to R307, R323, R330, R389. The choices of the model: how a reset of the far end is known is log entry 64; that ACTIVE starts with the numbers, the codeword counts and the credits anew is log entry 40; that RATE stays in FAILED and what it is after a retrain is log entry 135; what an edge flit and its CRC cover and which reports change nothing is log entry 134. Stated for links with nothing to send or keep where the whole Landing is given. -/
def Obligations.LandingsTrainRetrainAndFail : Prop :=
  ∀ (s : State) (l : Nat) (x : Landing), x = s.landing l →
    (x.state = .detect → exec (.landingDetect l) s = .next (s.setLanding l { x with state := .train, fullRateFails := 0 })) ∧
    (∀ p : PeerId, x.state = .train →
      (s.linksEmpty → s.peerOk l p = true → ∃ t, exec (.train l (.locked x.halfRate p)) s = .next t ∧ t.landing l = { x with
          rate := if x.halfRate then 1 else 2, peer := p.coord, peerDie := p.die, peerPort := p.port, state := .active, txSeq := 0
          rxSeq := 0xffff, nakSent := false, unacked := 0, replay := [], credits := fullCredits, owed := {}, recent := []
          failures := 0, fullRateFails := 0, saved := true, rxFlits := 0, cwBad := false, uncorrAt := [] } ∧
        (∀ k, k ≠ l → t.landing k = s.landing k) ∧ t.hostOut = s.hostOut ++ [.identity l (s.identityOf l)] ∧
        t = { s with landings := t.landings, dies := t.dies, hostOut := t.hostOut }) ∧
      (s.peerOk l p = false → ∃ t, exec (.train l (.locked x.halfRate p)) s = .next t ∧ (t.landing l).state = .failed ∧
        (t.landing l).sticky.wiring = true ∧ Notice.mk 0 0xf004 (BitVec.ofNat 64 l) ∈ t.noticeQ) ∧
      (x.halfRate = false → exec (.train l .noLock) s = .next (s.setLanding l { x with fullRateFails := x.fullRateFails + 1 })) ∧
      (x.halfRate = true → ∃ t, exec (.train l .noLock) s = .next t ∧ (t.landing l).state = .failed ∧ (t.landing l).rate = x.rate ∧
        Notice.mk 0 0xf004 (BitVec.ofNat 64 l) ∈ t.noticeQ)) ∧
    (∀ g ok, x.state = .active → x.triggered s.clock g = false → exec (.retrain l g ok) s = .next s) ∧
    (∀ g, x.state = .active → x.triggered s.clock g = true →
      ∀ ok, ∃ t, exec (.retrain l g ok) s = .next t ∧ (t.landing l).state = .retrain ∧ (t.landing l).replay = [] ∧
        (t.landing l).retrains = satAdd x.retrains 1) ∧
    (∀ ok, x.state = .active → ∃ t, exec (.retrain l .farReset ok) s = .next t ∧
      ∀ d k, k / 32 = x.peer.toNat → (t.die d).flowsIn.find k = none ∧ (t.die d).flowsOut.find k = none) ∧
    (∀ g, x.state = .retrain → g ≠ .farReset →
      (∃ t, exec (.retrain l g true) s = .next t ∧ (t.landing l).state = .active ∧ (t.landing l).failures = 0 ∧ (t.landing l).rate = x.savedRate) ∧
      (x.failures < 2 → exec (.retrain l g false) s = .next (s.setLanding l { x with failures := x.failures + 1 })) ∧
      (2 ≤ x.failures → ∃ t, exec (.retrain l g false) s = .next t ∧ (t.landing l).state = .failed)) ∧
    (∀ (e : EdgeRef) (v : Edge), v = s.edge e → s.edgeLive e = true →
      (∀ (f : EdgeFlit) (y : Edge), f.edge = e → y = f.sent.foldl Edge.send v →
        ∃ t, exec (.edgeReplay f) s = .next t ∧ t = { s with dies := t.dies } ∧
          (t.edge e).txSeq = v.txSeq + BitVec.ofNat 12 f.sent.length ∧ (v.kept.length ≤ 64 → (t.edge e).kept.length ≤ 64) ∧
          ((y.kept.any fun k => k.seq == f.seq) = true → (f.seq - v.rxSeq).toNat < 64 →
            (crc32c f.got = f.crc.toNat → (t.edge e).rxSeq = f.seq + 1 ∧ (t.edge e).kept = y.kept) ∧
            (crc32c f.got ≠ f.crc.toNat → (t.edge e).rxSeq = f.seq ∧
              (t.edge e).kept = y.kept.map fun k => if (k.seq - f.seq).toNat < 64 then { k with tries := k.tries + 1 } else k)) ∧
          ((y.kept.any fun k => k.seq == f.seq) = false ∨ 64 ≤ (f.seq - v.rxSeq).toNat → (t.edge e).rxSeq = v.rxSeq ∧ (t.edge e).kept = y.kept) ∧
          (∀ k, f.lanes.contains k = false → (t.edge e).parity.get [] k = v.parity.get [] k ∧ (t.edge e).failing.contains k = v.failing.contains k) ∧
          (∀ k p, f.lanes = [k] → v.failed.contains k = false → p = (s.clock :: v.parity.get [] k).take 64 →
            (t.edge e).parity.get [] k = p ∧
            (t.edge e).failing.contains k =
              (v.failing.contains k || (decide (64 ≤ p.length) && decide ((s.clock - p.getD 63 0).toNat ≤ ticksPerMs))))) ∧
      (∀ ok, v.due = false → exec (.edgeRetrain e.die e.dir ok) s = .next s) ∧
      (v.due = true →
        (∃ t, exec (.edgeRetrain e.die e.dir true) s = .next t ∧ (t.edge e).retrainFails = 0 ∧ (t.edge e).failing = [] ∧
          (t.edge e).failed = v.failed ++ v.failing ∧ (t.edge e).kept = v.kept.map (fun k => { k with tries := 0 }) ∧
          (∀ k n, v.failing = [k] → n = (v.failed.filter fun i => i / 9 == k / 9).length → n ≤ 1 → s.logRoom s.logNext = true →
            s.suppressed { cls := 5, severity := 1, die := e.die, place := e.dir, event := 1 } = false →
            (t.logRing.find (s.logNext.toNat % 1920)).map (fun r => (r.event, r.detail)) = some (if n = 0 then 1 else 2, BitVec.ofNat 32 (k / 9)))) ∧
        (v.retrainFails < 2 →
          ∃ t, exec (.edgeRetrain e.die e.dir false) s = .next t ∧ t.edge e = { v with retrainFails := v.retrainFails + 1 }) ∧
        (2 ≤ v.retrainFails →
          ∃ t, exec (.edgeRetrain e.die e.dir false) s = .next t ∧ (t.edge e).lost = true ∧ (t.edge e).retrainFails = 3 ∧ t.ident.state = .undefined)))

/-- R334, R338, R339, R347, R374. `epoch` counts the times a postbox was enabled or disabled, so that completions of commands taken before are not written. R343, R344, R347, R349, R350: 3 UNKNOWN, 4 DENIED, 15 RESET_NEEDED. That the objects of a command are those its arguments name is the model's choice (log entry 136). -/
def Obligations.PostboxesTakeWritesAndRefuseCommands : Prop :=
  (∀ (s : State) (fn k : Nat) (v : Word64) (x : Postbox), x = s.postbox k → s.answers = true →
    (s.reachesBox fn k = true →
      (v.getLsbD 0 = true → s.ident.state ≠ .boot → x.enable = false → x.sizeValid = true →
        exec (.pbCtrlWrite fn k v) s = .next (s.setPostbox k { x with
          irqEn := v.getLsbD 1, holdoff := BitVec.ofNat 16 (fieldOf v 16 16), enable := true, running := true, cmdHead := 0, cplTail := 0
          tail := 0, cplHead := 0, epoch := x.epoch + 1 })) ∧
      (v.getLsbD 0 = true → s.ident.state ≠ .boot → x.enable = false → x.sizeValid = false →
        exec (.pbCtrlWrite fn k v) s = .next (s.setPostbox k { x with
          irqEn := v.getLsbD 1, holdoff := BitVec.ofNat 16 (fieldOf v 16 16), err := { x.err with config := true } })) ∧
      (v.getLsbD 0 = false → x.enable = true →
        exec (.pbCtrlWrite fn k v) s = .next (s.setPostbox k { x with
          irqEn := v.getLsbD 1, holdoff := BitVec.ofNat 16 (fieldOf v 16 16), enable := false, running := false, epoch := x.epoch + 1 })) ∧
      (v.getLsbD 0 = x.enable → s.ident.state ≠ .boot →
        exec (.pbCtrlWrite fn k v) s = .next (s.setPostbox k { x with
          irqEn := v.getLsbD 1, holdoff := BitVec.ofNat 16 (fieldOf v 16 16) })) ∧
      (∀ (hw : List HostWrite) (u : State), u = { s with hostMem := hw.foldl (fun m w => m.writeBytes w.addr w.data) s.hostMem } →
        x.running = true →
        (((v.setWidth 32 : Word32) - x.cmdHead).toNat ≤ x.cmdSize → s.ident.power ≠ .deep →
          exec (.pbDoorbell fn k v hw) s = .next (u.setPostbox k { x with tail := v.setWidth 32 })) ∧
        (((v.setWidth 32 : Word32) - x.cmdHead).toNat ≤ x.cmdSize → s.ident.power = .deep → x.enable = true →
          exec (.pbDoorbell fn k v hw) s = .next { u.setPostbox k { x with tail := v.setWidth 32 } with deepWake := true }) ∧
        (x.cmdSize < ((v.setWidth 32 : Word32) - x.cmdHead).toNat → s.ident.power ≠ .deep →
          exec (.pbDoorbell fn k v hw) s = .next (u.setPostbox k { x with
            tail := v.setWidth 32, running := false, err := { x.err with overrun := true } }))) ∧
      exec (.pbCplHeadWrite fn k v) s = .next (s.setPostbox k { x with cplHead := v.setWidth 32 })) ∧
    (s.reachesBox fn k = false →
      exec (.pbCtrlWrite fn k v) s = .next s ∧ exec (.pbCplHeadWrite fn k v) s = .next s ∧
      ∀ hw : List HostWrite, exec (.pbDoorbell fn k v hw) s =
        .next { s with hostMem := hw.foldl (fun m w => m.writeBytes w.addr w.data) s.hostMem })) ∧
  ((∀ (s : State) (k : Nat) (b : List Byte) (c : Command), s.commandWaits k b → c = commandOf b (s.postbox k).epoch s.fetchNext →
    crc32c (b.take 60) = recNat b 60 4 → BitVec.ofNat 32 (recNat b 4 4) = (s.postbox k).cmdHead + 1 →
    (s.ident.state = .undefined → ¬(c.opcode = 0x0703 ∨ c.opcode = 0x0001 ∨ c.opcode = 0x0003) →
      exec (.commandTake k) s = .next ((s.consumed k).completeCmd k c 15 0)) ∧
    (s.ident.state ≠ .undefined → knownOpcode c.opcode.toNat = false →
      exec (.commandTake k) s = .next ((s.consumed k).completeCmd k c 3 0)) ∧
    (s.ident.state ≠ .undefined → knownOpcode c.opcode.toNat = true → pfOnly c.opcode.toNat = true → s.vfBox k = true →
      exec (.commandTake k) s = .next ((s.consumed k).completeCmd k c 4 0))) ∧
  (∀ (s : State) (k : Nat) (x : Postbox), x = s.postbox k → s.serves = true → x.enable = true → x.running = true → x.cur = none →
    x.tail ≠ x.cmdHead → s.hostFaults (x.cmdBase.toNat + 64 * (x.cmdHead.toNat % x.cmdSize)) 64 = true →
    exec (.commandTake k) s = .next (s.setPostbox k { x with running := false, err := { x.err with ringFault := true } })) ∧
  (∀ (s : State) (k : Nat) (c : Command) (i : Instr), (s.postbox k).cur = some c → s.turn k c = false →
    i ∈ ([.noticeRoute k, .hhOpen k, .hhClose k, .hhQuota k, .keyLoad k, .keyErase k, .memUnmap k, .admitData k, .admitEnd k, .admitResume k,
      .admitAbort k, .weightMap k, .weightUnmap k, .weightFree k, .jobStart k, .jobKill k, .jobStatus k, .jobUnload k, .sessionClose k,
      .cancel k, .pause k, .adapterRetire k, .grammarFree k, .digestFlush k] : List Instr) →
    exec i s = .next s) ∧
  (∀ (s : State) (k j n : Nat) (c d : Command), (s.postbox j).cur = some d → j ≠ k → d.fetched < c.fetched → c.opcode = 0x0302 →
    d.opcode = 0x0303 → c.arg 0 = n → d.arg 0 = n → s.turn k c = false) ∧
  (∀ op : Nat, knownOpcode op = true →
    (pfOnly op = false ↔ op ∈ [0x0001, 0x0002, 0x0003, 0x0005, 0x0104, 0x0105, 0x0106, 0x0107, 0x0109, 0x0301, 0x0302, 0x0303, 0x0304,
      0x0305, 0x0401, 0x0402, 0x0403, 0x0404, 0x0405, 0x0406, 0x0407, 0x0408, 0x0409, 0x040a, 0x040b, 0x0503, 0x0606, 0x0701])))

/-- R340, Tables 12.6 and 12.7. Status CRC is 12 and status SEQ 13 (Table 12.8). -/
def Obligations.CommandsCarrySeqAndCrc : Prop :=
  (∀ (s : State) (k : Nat) (b : List Byte) (c : Command), s.commandWaits k b → c = commandOf b (s.postbox k).epoch s.fetchNext →
    (crc32c (b.take 60) ≠ recNat b 60 4 → exec (.commandTake k) s = .next ((s.consumed k).completeCmd k c 12 0)) ∧
    (crc32c (b.take 60) = recNat b 60 4 → BitVec.ofNat 32 (recNat b 4 4) ≠ (s.postbox k).cmdHead + 1 →
      exec (.commandTake k) s = .next ((s.consumed k).completeCmd k c 13 0)) ∧
    (crc32c (b.take 60) = recNat b 60 4 → BitVec.ofNat 32 (recNat b 4 4) = (s.postbox k).cmdHead + 1 → s.ident.state ≠ .undefined →
      knownOpcode c.opcode.toNat = true → (pfOnly c.opcode.toNat = true → s.vfBox k = false) →
      exec (.commandTake k) s = .next ({ s.stir with fetchNext := s.fetchNext + 1 }.setPostbox k
        { s.postbox k with cmdHead := (s.postbox k).cmdHead + 1, cur := some c }))) ∧
  (∀ (c : Completion) (n : Word32),
    (c.entry n).length = 32 ∧ recNat (c.entry n) 24 4 = (n + 1).toNat ∧ recNat (c.entry n) 28 4 = crc32c ((c.entry n).take 28))

/-- R338, R339, R345 to R347, Tables 12.7 and 12.9; mask and pending bit are log entry 119. -/
def Obligations.CompletionsNoticesAndInterrupts : Prop :=
  ∀ (s : State) (k a fn v : Nat) (x : Postbox), x = s.postbox k → (fn, v) = (if s.vfBox k then (k, 0) else (0, k)) → a = x.cplBase.toNat + 32 * (x.cplTail.toNat % x.cplSize) →
    (∀ c rest, x.cplQ = c :: rest →
      (c.epoch ≠ x.epoch → exec (.completionWrite k) s = .next (s.setPostbox k { x with cplQ := rest })) ∧
      (c.epoch = x.epoch → s.boxRoom k = false → exec (.completionWrite k) s = .next s) ∧
      (c.epoch = x.epoch → s.boxRoom k = true → s.hostFaults a 32 = true → exec (.completionWrite k) s =
        .next (s.setPostbox k { x with cplQ := rest, running := false, err := { x.err with ringFault := true } })) ∧
      (c.epoch = x.epoch → s.boxRoom k = true → s.hostFaults a 32 = false →
        (x.irqEn = false → exec (.completionWrite k) s = .next { s with
          hostMem := s.hostMem.writeBytes a (c.entry x.cplTail)
          postboxes := s.postboxes.set k { x with cplQ := rest, cplTail := x.cplTail + 1 } }) ∧
        (x.irqEn = true → x.irqUntil = none → exec (.completionWrite k) s = .next { s with
          hostMem := s.hostMem.writeBytes a (c.entry x.cplTail)
          postboxes := s.postboxes.set k { x with
            cplQ := rest, cplTail := x.cplTail + 1, irqDue := false, irqUntil := some (s.clock + BitVec.ofNat 64 (25 * x.holdoff.toNat)) }
          hostOut := if s.msixMasked fn v then s.hostOut else s.hostOut ++ [.msix fn v],
          msixPend := if s.msixMasked fn v then setInsert s.msixPend (fn * 32 + v) else s.msixPend }) ∧
        (∀ w, x.irqEn = true → x.irqUntil = some w → s.clock.toNat < w.toNat → exec (.completionWrite k) s = .next { s with
          hostMem := s.hostMem.writeBytes a (c.entry x.cplTail)
          postboxes := s.postboxes.set k { x with cplQ := rest, cplTail := x.cplTail + 1, irqDue := true } }))) ∧
    (s.boxRoom k = true → s.hostFaults a 32 = false → x.irqEn = false →
      (∀ c rest, x.held = c :: rest → exec (.notice k) s = .next { s with
        hostMem := s.hostMem.writeBytes a (c.entry x.cplTail)
        postboxes := s.postboxes.set k { x with held := rest, cplTail := x.cplTail + 1 } }) ∧
      (x.held = [] → x.lost ≠ 0 → exec (.notice k) s = .next { s with
        hostMem := s.hostMem.writeBytes a ((noticeEntry 0xf007 (BitVec.ofNat 64 x.lost)).entry x.cplTail)
        postboxes := s.postboxes.set k { x with lost := 0, cplTail := x.cplTail + 1 } }) ∧
      (∀ n rest, x.held = [] → x.lost = 0 → s.noticeQ = n :: rest → n.pb = k → exec (.notice k) s = .next { s with
        noticeQ := rest
        hostMem := s.hostMem.writeBytes a ((noticeEntry n.opcode n.result).entry x.cplTail)
        postboxes := s.postboxes.set k { x with cplTail := x.cplTail + 1 } })) ∧
    (∀ n rest, s.boxRoom k = false → s.noticeQ = n :: rest → n.pb = k →
      (x.held.length < 256 → exec (.notice k) s = .next { s with
        noticeQ := rest, postboxes := s.postboxes.set k { x with held := x.held ++ [noticeEntry n.opcode n.result] } }) ∧
      (256 ≤ x.held.length → exec (.notice k) s = .next { s with
        noticeQ := rest, postboxes := s.postboxes.set k { x with lost := x.lost + 1, err := { x.err with noticeLost := true } } })) ∧
    (x.irqDue = true → x.irqEn = true → ∀ w, x.irqUntil = some w → w.toNat ≤ s.clock.toNat →
      exec (.msixHoldoff k) s = .next { s with
        postboxes := s.postboxes.set k { x with
          irqDue := false, irqUntil := some (s.clock + BitVec.ofNat 64 (25 * x.holdoff.toNat)) }
        hostOut := if s.msixMasked fn v then s.hostOut else s.hostOut ++ [.msix fn v],
          msixPend := if s.msixMasked fn v then setInsert s.msixPend (fn * 32 + v) else s.msixPend })

/-- R345, R348 to R350, R401. The identity record's layout is open (log entry 12). The model's choices: ARG for a NOTICE_ROUTE postbox above 15 (log entry 30), and that the household of a VF may name any of the 16 postboxes (log entry 94). -/
def Obligations.IdentityLogbookAndNoticeCommands : Prop :=
  ∀ (s : State) (k : Nat) (c : Command),
    (s.commandRuns k 0x0001 c →
      (s.hostFaults (c.arg 0) 4096 = false → s.replies (.identify k) k c 0 4096
        { s with hostMem := s.hostMem.writeBytes (c.arg 0) ((List.range 4096).map (Config.openRecord 0 s.identityFields)) }) ∧
      (s.hostFaults (c.arg 0) 4096 = true → s.replies (.identify k) k c 11 0 s)) ∧
    (s.commandRuns k 0x0002 c → s.replies (.echo k) k c 0 (c.args.getD 0 0) s) ∧
    (s.commandRuns k 0x0003 c →
      ∀ l, l = (s.heldRecords.filter fun r => decide (c.arg 1 ≤ r.index.toNat)).take (c.arg 2) →
        (l ≠ [] → s.hostFaults (c.arg 0) (32 * l.length) = false → s.replies (.logbookRead k) k c 0 (BitVec.ofNat 64 l.length)
          { s with hostMem := s.hostMem.writeBytes (c.arg 0) (l.flatMap LogRecord.bytes) }) ∧
        (l = [] → s.replies (.logbookRead k) k c 0 0 s)) ∧
    (s.commandRuns k 0x0004 c →
      ∃ t : State, ∃ n : Nat, s.replies (.logbookClear k) k c 0 (BitVec.ofNat 64 n) t ∧ t = { s with logRing := t.logRing, dies := t.dies } ∧
        n + t.logRing.cells.length = s.logRing.cells.length ∧
        (∀ e, e ∈ t.logRing.cells ↔ e ∈ s.logRing.cells ∧ c.arg 0 < e.2.index.toNat) ∧
        ∀ d x, s.dies.find d = some x → t.dies.find d = some { x with
          log := (t.heldRecords.filter fun r => d == 0 || r.die.toNat == d).foldl LogBlock.note
            { x.log with any := 0, severe := 0, first := {} } }) ∧
    (s.commandRuns k 0x0005 c → ∀ h, h = s.cmdHousehold k c →
      (s.isOpen h = true → c.arg 1 < 16 →
        s.replies (.noticeRoute k) k c 0 0 (s.modHousehold h fun x => { x with noticePb := some (c.arg 1) })) ∧
      (s.isOpen h = true → 16 ≤ c.arg 1 → s.replies (.noticeRoute k) k c 2 0 s) ∧
      (s.isOpen h = false → s.replies (.noticeRoute k) k c 6 0 s))

/-- R198, R298, R335, R351. Where a table lies is log entry 102, a larger BASE log entry 98. The model's choices: that table writes of the household on their way end with HH_CLOSE (log entries 89 and 110), and that HH_OPEN takes a VF above NumVFs (log entry 94). That closing also ends entries and jobs is in the meaning of HH_CLOSE; here it is given whole where there are none. R227, R230, R231, R350, R352. Which free slot a claim takes is the choice of the firmware (log entry 14). The model's choices: release and load end the table writes on their way to the slot (log entries 89 and 110), and a claim of a slot that the household has claimed already is STATE (log entry 141). -/
def Obligations.HouseholdsHoldKeysAndPressSlots : Prop :=
  (∀ (s : State) (k h v : Nat) (c : Command),
    (s.commandRuns k 0x0101 c → c.arg 0 = h + 256 * v → 0 < h → h < 64 → v < 16 → s.mem.wf = true →
      (0 < c.arg 1 → c.arg 1 ≤ s.allPages → s.isOpen h = false → (v = 0 ∨ s.vfHousehold v = 0) →
        ∃ t, s.replies (.hhOpen k) k c 0 0 t ∧ t = { s with
            households := s.households.set h
              { isOpen := true, vf := v, ptBase := 0x2000000 * h, ptLen := c.arg 1, entryQuota := c.arg 2, tokenQuota := c.arg 3 },
            mem := t.mem, blkPoison := t.blkPoison } ∧
          (∀ i, i < c.arg 1 → t.pte h i = 0) ∧
          ∀ a, (∀ d, d < s.dieCount → a < t.pteAddr d h 0 ∨ t.pteAddr d h 0 + 0x2000000 ≤ a) → t.mem.read a = s.mem.read a) ∧
      ((c.arg 1 = 0 ∨ s.allPages < c.arg 1) → s.replies (.hhOpen k) k c 2 0 s) ∧
      (0 < c.arg 1 → c.arg 1 ≤ s.allPages → (s.isOpen h = true ∨ (v ≠ 0 ∧ s.vfHousehold v ≠ 0)) → s.replies (.hhOpen k) k c 5 0 s)) ∧
    (s.commandRuns k 0x0102 c → h = c.arg 0 % 64 →
      (s.isOpen h = false → s.replies (.hhClose k) k c 6 0 s) ∧
      (s.isOpen h = true → s.mem.wf = true → s.entriesWhere (fun x => x.household == h) = [] → s.jobsOfHousehold h = [] →
        ∃ t, s.replies (.hhClose k) k c 0 0 t ∧ t = { s with
          dies := t.dies, mem := t.mem, parishes := t.parishes, pressPend := s.pressPend.filter fun w => w.owner != h
          sessions := s.sessions.keep fun _ x => x.household != h
          adapters := s.adapters.keep fun _ x => x.household != h
          grammars := s.grammars.keep fun _ x => x.household != h
          households := s.households.del h
          tensors := s.tensors.mapV fun _ x => { x with maps := x.maps.filter fun m => m.1 != h }
          keySlots := s.keySlots.keep fun _ x => x.owner != h
          pressSlots := s.pressSlots.keep fun _ x => x.owner != h
          bar2Household := if s.bar2Household = h then 0 else s.bar2Household } ∧
        (∀ i, i < (s.household h).ptLen → pteValid (BitVec.ofNat 64 (ofBytes (t.mem.readBytes (s.pteAddr 0 h i) 8))) = false) ∧
        (∀ a, (∀ d, d < s.dieCount → a < s.pteAddr d h 0 ∨ s.pteAddr d h 0 + 8 * (s.household h).ptLen ≤ a) → t.mem.read a = s.mem.read a) ∧
        (∀ d e, e ∈ (t.die d).tcache ↔ e ∈ (s.die d).tcache ∧ ¬(e.1 = h ∧ e.2 < (s.household h).ptLen))) ∧
      (s.isOpen h = true → ∃ t, s.replies (.hhClose k) k c 0 0 t ∧
        (∀ e ∈ t.sessions.cells, e.2.household ≠ h) ∧ (∀ e ∈ t.adapters.cells, e.2.household ≠ h) ∧
        (∀ e ∈ t.grammars.cells, e.2.household ≠ h) ∧ (∀ e ∈ t.keySlots.cells, e.2.owner ≠ h) ∧
        (∀ e ∈ t.pressSlots.cells, e.2.owner ≠ h) ∧ ∀ e ∈ t.tensors.cells, ∀ m ∈ e.2.maps, m.1 ≠ h)) ∧
    (s.commandRuns k 0x0103 c → h = c.arg 0 % 64 →
      (s.isOpen h = true → s.replies (.hhQuota k) k c 0 0 (s.modHousehold h fun x => { x with entryQuota := c.arg 1, tokenQuota := c.arg 2 })) ∧
      (s.isOpen h = false → s.replies (.hhQuota k) k c 6 0 s)) ∧
    (s.commandRuns k 0x0108 c → h = c.arg 0 → h < 64 → c.arg 1 < 2 ^ 48 →
      (c.arg 1 % 0x200000 = 0 → (h = 0 ∨ s.isOpen h = true) →
        s.replies (.bar2Set k) k c 0 0 { s with bar2Household := h, bar2Base := c.arg 1 }) ∧
      (c.arg 1 % 0x200000 ≠ 0 → s.replies (.bar2Set k) k c 2 0 s) ∧
      (c.arg 1 % 0x200000 = 0 → h ≠ 0 → s.isOpen h = false → s.replies (.bar2Set k) k c 6 0 s))) ∧
  (∀ (s : State) (k hint h n : Nat) (c : Command), h = s.cmdHousehold k c → s.isOpen h = true →
    (s.commandRuns k 0x0104 c → n = c.arg 1 → n < 64 →
      (s.hostFaults (c.arg 2) 64 = false → (∀ x, s.keySlots.find n = some x → x.owner = h) →
        s.replies (.keyLoad k) k c 0 0 { s with keySlots := s.keySlots.set n ⟨h, s.hostMem.readBytes (c.arg 2) 64⟩ }) ∧
      (s.hostFaults (c.arg 2) 64 = false → (∃ x, s.keySlots.find n = some x ∧ x.owner ≠ h) → s.replies (.keyLoad k) k c 5 0 s) ∧
      (s.hostFaults (c.arg 2) 64 = true → s.replies (.keyLoad k) k c 11 0 s)) ∧
    (s.commandRuns k 0x0105 c → n = c.arg 1 → n < 64 →
      ((∃ x, s.keySlots.find n = some x ∧ x.owner = h) → s.replies (.keyErase k) k c 0 0 { s with keySlots := s.keySlots.del n }) ∧
      ((∀ x, s.keySlots.find n = some x → x.owner ≠ h) → s.replies (.keyErase k) k c 6 0 s)) ∧
    (s.commandRuns k 0x0109 c → n = c.arg 2 →
      (c.arg 1 = 0 → 0 < n → n < 16 →
        ((s.pressSlots.get {} n).owner = 0 →
          s.replies (.pressSlot k hint) k c 0 (BitVec.ofNat 64 n) { s with pressSlots := s.pressSlots.set n { owner := h } }) ∧
        ((s.pressSlots.get {} n).owner ≠ 0 → (s.pressSlots.get {} n).owner ≠ h → s.replies (.pressSlot k hint) k c 8 0 s) ∧
        ((s.pressSlots.get {} n).owner ≠ 0 → (s.pressSlots.get {} n).owner = h → s.replies (.pressSlot k hint) k c 5 0 s)) ∧
      (c.arg 1 = 0 → n = 0 →
        ((∃ i, 0 < i ∧ i < 16 ∧ (s.pressSlots.get {} i).owner = 0) → ∃ i, 0 < i ∧ i < 16 ∧ (s.pressSlots.get {} i).owner = 0 ∧
          s.replies (.pressSlot k hint) k c 0 (BitVec.ofNat 64 i) { s with pressSlots := s.pressSlots.set i { owner := h } }) ∧
        ((∀ i, 0 < i → i < 16 → (s.pressSlots.get {} i).owner ≠ 0) → s.replies (.pressSlot k hint) k c 8 0 s)) ∧
      (0 < n → n < 16 → (s.pressSlots.get {} n).owner = h →
        (c.arg 1 = 1 → ∃ t, s.replies (.pressSlot k hint) k c 0 (BitVec.ofNat 64 n) t ∧ t = { s with
          pressSlots := s.pressSlots.del n, pressPend := s.pressPend.filter fun w => w.slot != n, parishes := t.parishes }) ∧
        (c.arg 1 = 2 → s.hostFaults (c.arg 3) 128 = false → ∀ b, b = s.hostMem.readBytes (c.arg 3) 128 →
          (tableValid b = true →
            ∃ t, s.replies (.pressSlot k hint) k c 0 (BitVec.ofNat 64 (tableTag b)) t ∧ t = { s with
              pressSlots := s.pressSlots.set n ⟨h, some b⟩, pressPend := s.pressPend.filter fun w => w.slot != n, parishes := t.parishes }) ∧
          (tableValid b = false → s.replies (.pressSlot k hint) k c 2 0 s)))))

/-- R199, R200, R352. The zero-filling is stated for unprotected pages; a page under PROT holds the encryption of zeros. Which free pages are taken is the firmware's choice (log entry 14); where the tables lie log entry 102. The model's choices: ARG for a set bit of A3 that is not laid out, 2^12 or above, and OK for a count of 0 (log entry 30); that pages of tensors stay is DEDUCED from R353. -/
def Obligations.PagesAreZeroedMappedAndFreed : Prop :=
  ∀ (s : State) (k hint h first n f : Nat) (c : Command), h = s.cmdHousehold k c → s.isOpen h = true → first = c.arg 1 → n = c.arg 2 →
    s.tableFits h →
    (s.commandRuns k 0x0106 c → f = c.arg 3 →
      ((2 ^ 12 ≤ f ∨ s.unmapped h first n = false ∨ (bitAt f 8 = true ∧ s.dieCount ≤ bitsOf f 9 3) ∨
          (bitAt f 1 = true ∧ ∀ x, s.keySlots.find (bitsOf f 2 6) = some x → x.owner ≠ h)) →
        s.replies (.memMap k hint) k c 2 0 s) ∧
      (f < 2 ^ 12 → s.unmapped h first n = true → bitAt f 1 = false → s.mem.wf = true →
        (bitAt f 8 = false →
          (s.allocView s.pagesInUse n hint = none → s.replies (.memMap k hint) k c 7 0 s) ∧
          (∀ ps, s.allocView s.pagesInUse n hint = some ps →
            ps.length = n ∧ ps.Nodup ∧ (∀ p ∈ ps, s.viewFree s.pagesInUse p = true) ∧
            ∃ t, s.replies (.memMap k hint) k c 0 (BitVec.ofNat 64 n) t ∧
              t = { s with mem := t.mem, blkPoison := t.blkPoison, dies := t.dies } ∧
              (∀ d' e, e ∈ (t.die d').tcache ↔ e ∈ (s.die d').tcache ∧ ¬(e.1 = h ∧ first ≤ e.2 ∧ e.2 < first + n)) ∧
              (∀ i (hi : i < n), ∀ hl : i < ps.length,
                t.pte h (first + i) = BitVec.ofNat 64 (1 + flag (bitAt f 0) * 2 + viewPage ps[i] * 2 ^ 21)) ∧
              (∀ p ∈ ps, ∀ i < 32, ∀ o < 0x10000, t.mem.read (s.pageAddr p (0x10000 * i) + o) = 0) ∧
              (∀ a, (∀ p ∈ ps, ∀ i < 32, ∀ o < 0x10000, a ≠ s.pageAddr p (0x10000 * i) + o) → s.offTables h first n a → t.mem.read a = s.mem.read a))) ∧
        (∀ d, bitAt f 8 = true → d = bitsOf f 9 3 → d < s.dieCount →
          (s.allocDie s.pagesInUse d n hint = none → s.replies (.memMap k hint) k c 7 0 s) ∧
          (∀ ps, s.allocDie s.pagesInUse d n hint = some ps →
            ps.length = n ∧ ps.Nodup ∧ (∀ p ∈ ps, s.dieFree s.pagesInUse d p = true) ∧
            ∃ t, s.replies (.memMap k hint) k c 0 (BitVec.ofNat 64 n) t ∧
              t = { s with mem := t.mem, blkPoison := t.blkPoison, dies := t.dies } ∧
              (∀ d' e, e ∈ (t.die d').tcache ↔ e ∈ (s.die d').tcache ∧ ¬(e.1 = h ∧ first ≤ e.2 ∧ e.2 < first + n)) ∧
              (∀ i (hi : i < n), ∀ hl : i < ps.length,
                t.pte h (first + i) = BitVec.ofNat 64 (1 + flag (bitAt f 0) * 2 + diePage d ps[i] * 2 ^ 21)) ∧
              (∀ p ∈ ps, ∀ o < 0x200000, t.mem.read (lpddrBase d + p * 0x200000 + o) = 0) ∧
              (∀ a, (∀ p ∈ ps, ∀ o < 0x200000, a ≠ lpddrBase d + p * 0x200000 + o) → s.offTables h first n a → t.mem.read a = s.mem.read a))))) ∧
    (s.commandRuns k 0x0107 c →
      ((s.household h).ptLen < first + n → s.replies (.memUnmap k) k c 2 0 s) ∧
      (∀ gone : Nat → Bool, first + n ≤ (s.household h).ptLen → s.mem.wf = true →
        (∀ i, gone i = true ↔ first ≤ i ∧ i < first + n ∧ pteValid (s.pte h i) = true ∧
          ∀ x ∈ s.tensors.cells, ∀ q ∈ x.2.pages ++ x.2.mirrorPages, ptePage (s.pte h i) ≠ viewPage q) →
        ∃ t, s.replies (.memUnmap k) k c 0 (BitVec.ofNat 64 ((List.range (first + n)).filter gone).length) t ∧
          t = { s with mem := t.mem, dies := t.dies } ∧
          (∀ i, i < (s.household h).ptLen → t.pte h i = if gone i then 0 else s.pte h i) ∧
          (∀ a, s.offTables h first n a → t.mem.read a = s.mem.read a) ∧
          (∀ d e, e ∈ (t.die d).tcache ↔ e ∈ (s.die d).tcache ∧ ¬(e.1 = h ∧ gone e.2 = true))))

/-- R353, R354, R392 (log entry 118), R396. The bytes of a chunk are stated for a tensor of one block. Which free pages are taken is the firmware's choice (log entry 14). The model's choices: ARG for an A2 of 2 or above (log entry 30) and for a tensor id of 2^32 or above (log entry 90). -/
def Obligations.WeightsAreAdmittedMappedAndReloaded : Prop :=
  (∀ (s : State) (k hint id off : Nat) (c : Command), id = c.arg 0 → s.journalSound →
    (s.commandRuns k 0x0201 c → ∀ bytes, bytes = c.arg 1 →
      ((2 ≤ c.arg 2 ∨ id = 0 ∨ 2 ^ 32 ≤ id ∨ bytes = 0 ∨ bytes % 2048 ≠ 0) → s.replies (.admitBegin k hint) k c 2 0 s) ∧
      (c.arg 2 < 2 → 0 < id → id < 2 ^ 32 → 0 < bytes → bytes % 2048 = 0 →
        ((∃ x, s.tensors.find id = some x) → s.replies (.admitBegin k hint) k c 5 0 s) ∧
        (s.tensors.find id = none → 64 ≤ (s.tensors.cells.filter fun t => !t.2.admitted).length →
          s.replies (.admitBegin k hint) k c 1 0 s) ∧
        (s.tensors.find id = none → (s.tensors.cells.filter fun t => !t.2.admitted).length < 64 → ∀ n, n = ceilDiv bytes 0x200000 →
          (s.allocView s.pagesInUse n hint = none → s.replies (.admitBegin k hint) k c 7 0 s) ∧
          (∀ ps, s.allocView s.pagesInUse n hint = some ps →
            ps.length = n ∧ ps.Nodup ∧ (∀ p ∈ ps, s.viewFree s.pagesInUse p = true) ∧
            (c.arg 2 = 0 → s.replies (.admitBegin k hint) k c 0 (BitVec.ofNat 64 (ceilDiv bytes 0x4000000))
              { s with tensors := s.tensors.set id ⟨bytes, false, ps, [], [], false, []⟩ }) ∧
            (∀ ms, c.arg 2 = 1 → s.allocMirror hint (ps.map viewPage ++ s.pagesInUse) ps = some ms →
              ms.length = n ∧ ms.Nodup ∧ (∀ q ∈ ms, s.viewFree s.pagesInUse q = true ∧ q ∉ ps) ∧ (∀ e ∈ ps.zip ms, e.1 % 3 ≠ e.2 % 3) ∧
              s.replies (.admitBegin k hint) k c 0 (BitVec.ofNat 64 (ceilDiv bytes 0x4000000))
                { s with tensors := s.tensors.set id ⟨bytes, true, ps, ms, [], false, []⟩ }))))) ∧
    (∀ t a b d, s.tensors.find id = some t → t.admitted = false → a = s.tensorAddr t false 0 → b = s.tensorAddr t true 0 →
      (s.commandRuns k 0x0202 c → c.arg 1 < t.chunks → c.arg 3 < 2 ^ 32 → s.hostFaults (c.arg 2) (t.chunkLen (c.arg 1)) = false →
        d = s.hostMem.readBytes (c.arg 2) (t.chunkLen (c.arg 1)) →
        (crc32c d ≠ c.arg 3 → s.replies (.admitData k) k c 14 0 s) ∧
        (crc32c d = c.arg 3 → ∃ u, s.replies (.admitData k) k c 0 0 u ∧ u = { s with
          mem := u.mem, blkPoison := u.blkPoison, sramPoison := u.sramPoison
          tensors := s.tensors.set id { t with bits := setInsert t.bits (c.arg 1) } } ∧
          (s.mem.wf = true → t.bytes ≤ 2048 → t.mirror = false → s.memHas u a d) ∧
          (s.mem.wf = true → t.bytes ≤ 2048 → t.mirror = true → (a + 2048 ≤ b ∨ b + 2048 ≤ a) →
            u.mem.readBytes a d.length = d ∧ u.mem.readBytes b d.length = d))) ∧
      (s.commandRuns k 0x0203 c →
        (t.bits.length < t.chunks → s.replies (.admitEnd k) k c 5 0 s) ∧
        (t.chunks ≤ t.bits.length → s.replies (.admitEnd k) k c 0 0 { s with tensors := s.tensors.set id { t with admitted := true } })) ∧
      (s.commandRuns k 0x0204 c → t.bits.Nodup → (∀ i ∈ t.bits, i < t.chunks) → s.hostFaults (c.arg 1) (ceilDiv t.chunks 8) = false →
        ∃ m n, s.replies (.admitResume k) k c 0 (BitVec.ofNat 64 n) { s with hostMem := s.hostMem.writeBytes (c.arg 1) m } ∧
          m.length = ceilDiv t.chunks 8 ∧ (∀ i, i < t.chunks → ((ofBytes m).testBit i = true ↔ i ∈ t.bits)) ∧
          n ≤ t.chunks ∧ n ∉ t.bits ∧ ∀ i < n, i ∈ t.bits) ∧
      (s.commandRuns k 0x0205 c → s.replies (.admitAbort k) k c 0 0 { s with tensors := s.tensors.del id })) ∧
    (∀ t h n first, s.tensors.find id = some t → t.admitted = true → n = t.pages.length →
      (s.commandRuns k 0x0206 c → h = c.arg 1 → first = c.arg 2 → s.isOpen h = true →
        ((∃ m ∈ t.maps, m.1 = h) → s.replies (.weightMap k) k c 5 0 s) ∧
        ((∀ m ∈ t.maps, m.1 ≠ h) → s.unmapped h first n = false → s.replies (.weightMap k) k c 2 0 s) ∧
        ((∀ m ∈ t.maps, m.1 ≠ h) → s.unmapped h first n = true → s.mem.wf = true → s.tableFits h →
          ∃ u, s.replies (.weightMap k) k c 0 (BitVec.ofNat 64 n) u ∧ u = { s with
            mem := u.mem, dies := u.dies, tensors := s.tensors.set id { t with maps := t.maps ++ [(h, first)] } } ∧
            (∀ i, ∀ hi : i < t.pages.length, u.pte h (first + i) = BitVec.ofNat 64 (1 + viewPage t.pages[i] * 2 ^ 21)) ∧
            (∀ a, s.offTables h first n a → u.mem.read a = s.mem.read a) ∧
            ∀ d e, e ∈ (u.die d).tcache ↔ e ∈ (s.die d).tcache ∧ ¬(e.1 = h ∧ first ≤ e.2 ∧ e.2 < first + n))) ∧
      (s.commandRuns k 0x0207 c → t.maps.find? (fun m => m.1 == c.arg 1) = some (h, first) → s.mem.wf = true → s.tableFits h →
        first + n ≤ (s.household h).ptLen →
        ∃ u, s.replies (.weightUnmap k) k c 0 0 u ∧ u = { s with
            mem := u.mem, dies := u.dies, tensors := s.tensors.set id { t with maps := t.maps.erase (h, first) } } ∧
          (∀ i, i < (s.household h).ptLen → u.pte h i = if first ≤ i ∧ i < first + n then 0 else s.pte h i) ∧
          (∀ a, s.offTables h first n a → u.mem.read a = s.mem.read a) ∧
          ∀ d e, e ∈ (u.die d).tcache ↔ e ∈ (s.die d).tcache ∧ ¬(e.1 = h ∧ first ≤ e.2 ∧ e.2 < first + n)) ∧
      (s.commandRuns k 0x0208 c →
        (t.maps = [] → s.replies (.weightFree k) k c 0 0
          { s with tensors := s.tensors.del id, reload := s.reload.filter fun r => r.1 != id }) ∧
        (t.maps ≠ [] → s.replies (.weightFree k) k c 5 0 s)) ∧
      (s.commandRuns k 0x0209 c → s.replayRuns t = true → exec (.blockReload k) s = .next s) ∧
      (s.commandRuns k 0x0209 c → s.replayRuns t = false → off = c.arg 1 → off % 2048 = 0 → off < t.bytes →
        s.hostFaults (c.arg 2) 2048 = false → s.mem.wf = true → ∀ a b d, a = s.tensorAddr t false off → b = s.tensorAddr t true off →
          a < sramBase → b < sramBase → d = s.hostMem.readBytes (c.arg 2) 2048 →
        ∃ u, s.replies (.blockReload k) k c 0 0 u ∧
          (t.mirror = false → s.memHas u a d ∧ a / 2048 ∉ u.blkPoison) ∧
          (t.mirror = true → (a + 2048 ≤ b ∨ b + 2048 ≤ a) → u.mem.readBytes a 2048 = d ∧ u.mem.readBytes b 2048 = d ∧
            a / 2048 ∉ u.blkPoison ∧ b / 2048 ∉ u.blkPoison) ∧
          (s.blkPoison.contains (a / 2048) = false → t.mirror = false → u = { s with mem := u.mem, blkPoison := u.blkPoison }))) ∧
    (∀ i op adm, (i, op, adm) ∈ ([(.admitData k, 0x0202, false), (.admitEnd k, 0x0203, false), (.admitResume k, 0x0204, false),
        (.admitAbort k, 0x0205, false), (.weightFree k, 0x0208, true)] : List (Instr × Nat × Bool)) → s.commandRuns k op c →
      (s.tensors.find id = none → s.replies i k c 6 0 s) ∧
      (∀ t, s.tensors.find id = some t → t.admitted ≠ adm → s.replies i k c 5 0 s))) ∧
  (∀ (s : State) (k hint : Nat) (c : Command), (∀ b ∈ s.firmCopies 0 .journal, s.blkPoison.contains (b / 2048) = true) →
    ∀ i op, (i, op) ∈ ([(.admitBegin k hint, 0x0201), (.admitData k, 0x0202), (.admitEnd k, 0x0203), (.admitResume k, 0x0204),
        (.admitAbort k, 0x0205)] : List (Instr × Nat)) → s.commandRuns k op c →
      ∃ t, s.replies i k c 15 0 t ∧ t.ident = { s.ident with state := .undefined } ∧ t.mem = s.mem ∧ t.tensors = s.tensors)

/-- R31, R159, R188, R258, R260, R355, R360 to R362, R393. Job number and granules are the firmware's choice (log entry 14). -/
def Obligations.JobsLoadAndStart : Prop :=
  ∀ (s : State) (k hint : Nat) (repair : List MillRef) (c : Command),
    (s.commandRuns k 0x0301 c → ∀ h, h = s.cmdHousehold k c → s.isOpen h = true → 144 ≤ c.arg 2 → c.arg 2 < 2 ^ 32 →
      s.hostFaults (c.arg 1) (c.arg 2) = false → ∀ img, img = s.hostMem.readBytes (c.arg 1) (c.arg 2) →
      (parseImage img (c.arg 2) = none → s.replies (.jobLoad k hint repair) k c 2 0 s) ∧
      (∀ im, parseImage img (c.arg 2) = some im →
        (((im.dies ≠ 0 ∧ im.dies ≠ s.dieCount) ∨ im.engineWants.any s.heldEngine = true ∨ s.sliceOk im = false) →
          s.replies (.jobLoad k hint repair) k c 9 0 s) ∧
        ((∀ x ∈ s.hamlets.cells, x.2.hwFault = false ∧ ∀ u ∈ x.2.mills.cells, u.2.retirePending = false) → s.defects = [] →
          (∃ w ∈ im.wants, s.unavailable w.1 w.2 = true) → s.replies (.jobLoad k hint repair) k c 9 0 s) ∧
        (∀ gs n, (im.dies = 0 ∨ im.dies = s.dieCount) → (∀ p ∈ im.places, p.die < s.dieCount) → s.sliceOk im = true →
          s.peers (im :: s.heldImages) ≤ 8192 → im.engineWants.any s.heldEngine = false →
          (∀ x ∈ s.hamlets.cells, x.2.hwFault = false) → s.defects = [] →
          (∀ w ∈ im.wants, s.freeSlotAt ⟨w.1, w.2⟩ = true ∧
            ∀ u ∈ (s.hamlet ⟨w.1, w.2⟩).mills.cells, u.2.retirePending = false) →
          s.pickGranules (hint / 65536) im.places = some gs → s.freeJob hint = some n →
          1 ≤ n ∧ n ≤ 65535 ∧ s.jobs.find n = none ∧
          ∃ t, s.replies (.jobLoad k hint repair) k c 0 (BitVec.ofNat 64 n) t ∧ t.jobs = s.jobs.set n
              { state := .loaded, household := h, image := im, granules := gs, mode := maxMode s.settings.detMode im.reqMode
                places := im.wants.map fun w => ⟨w.1, w.2, w.2, false, im.hint w.1 w.2⟩ } ∧
            (∀ w ∈ im.wants, ∀ i < 4, t.hand ⟨w.1, w.2, i⟩ = { hamlet := BitVec.ofNat 4 w.2 }) ∧
            (∀ g ∈ gs, (s.parish g.1).scratch.getLsbD g.2 = false ∧ (t.parish g.1).scratch.getLsbD g.2 = true ∧
              (t.parish g.1).owner.find g.2 = some n ∧ ∀ o < 0x100000, t.mem.read (granuleAddr g.1.die (granuleNo g.1 g.2) o) = 0)))) ∧
    (s.commandRuns k 0x0302 c → ∀ n j, n = c.arg 0 → s.jobs.find n = some j → s.boxReaches k j.household = true →
      (j.state ≠ .loaded → s.replies (.jobStart k) k c 5 0 s) ∧
      (∀ a mode seed arg, j.state = .loaded → s.mem.wf = true → s.clearPage (actorOf n j) true (s.ownEa (c.arg 2)) 64 a →
        mode = maxMode s.settings.detMode j.image.reqMode → seed = c.args.getD 1 0 → arg = c.args.getD 2 0 →
        ∃ t, s.replies (.jobStart k) k c 0 0 t ∧ t.jobs = s.jobs.set n
            { j with state := .running, mode := mode, seed := seed, argBlock := arg, logKey := s.jobKey j.image, limitMs := c.arg 3
                     startedAt := s.clock } ∧
          t.mem.readBytes a 64 = s.argHeader n j mode seed ∧
          ∀ p ∈ j.places, (∀ q ∈ j.places, q.slot < 18 ∧ (q.die = p.die → q.slot = p.slot → q = p)) → ∀ i, i < 4 → ∀ y : Hand,
            y = Hand.setS { hamlet := (s.hand ⟨p.die, p.slot, i⟩).hamlet, seed := seed } 1 arg →
            (∀ x, j.image.codes.find? (fun x => x.die == p.die && x.hamlet == p.logical && x.unit == i) = some x →
              t.hand ⟨p.die, p.slot, i⟩ =
                Hand.goto { y with ibuf := putWords {} 0 (x.words.map BitVec.toNat), mode := .running } (BitVec.ofNat 64 x.entry)) ∧
            (j.image.codes.find? (fun x => x.die == p.die && x.hamlet == p.logical && x.unit == i) = none →
              t.hand ⟨p.die, p.slot, i⟩ = y))) ∧
    (∀ i op, (i, op) ∈ ([(.jobStart k, 0x0302), (.jobKill k, 0x0303), (.jobStatus k, 0x0304), (.jobUnload k, 0x0305),
        (.digestFlush k, 0x0701)] : List (Instr × Nat)) → s.commandRuns k op c →
      (s.jobs.find (c.arg 0) = none → s.replies i k c 6 0 s) ∧
      (∀ j, s.jobs.find (c.arg 0) = some j → s.boxReaches k j.household = false → s.replies i k c 6 0 s))

/-- R355, R356, R393. That the time of the end is the clock at the stop is the model's choice (log entry 91). Stated for jobs without Ledger entries, where what stops is stated. JOB_ENDED causes: 0 halted, 1 killed, 2 time limit, 3 fault. -/
def Obligations.JobsEndAndReport : Prop :=
  ∀ (s : State) (k n : Nat) (c : Command) (j : Job), s.jobs.find n = some j →
    (∀ why i, s.entriesOf n = [] →
      ((why = .halted ∧ i = .jobEnd n ∧ j.state = .running ∧ ∀ x ∈ j.image.codes, s.codeHalted j x = true) ∨
        (why = .limit ∧ i = .jobTimeLimit n ∧ j.state = .running ∧ j.limitMs ≠ 0 ∧ 25000 * j.limitMs ≤ (s.clock - j.startedAt).toNat)) →
      (j.scrubbed = false → ∃ t, exec i s = .next t ∧ t.jobs = s.jobs.set n
          { j with state := .ending why, endedAt := s.clock, timedOut := j.timedOut || decide (why = .limit) } ∧
        (∀ m ∈ j.slots, (t.hamlet m).hands = {} ∧ (t.hamlet m).porters = {} ∧ (t.hamlet m).tallies = {}) ∧
        ∀ q ∈ t.sessions.cells, q.2.job ≠ n) ∧
      (j.scrubbed = true → ∃ t, exec i s = .next t ∧
        (∃ f, t.jobs.find n = some { j with state := f, endedAt := s.clock, timedOut := j.timedOut || decide (why = .limit) } ∧
          f = (if why = .halted then .ended else .killed)) ∧
        ∃ q, Notice.mk q 0xf001 (BitVec.ofNat 64 (n + (if why = .halted then 0 else 2) * 2 ^ 16)) ∈ t.noticeQ)) ∧
    (s.commandRuns k 0x0303 c → n = c.arg 0 → s.boxReaches k j.household = true →
      (j.live = true → s.entriesOf n = [] → j.scrubbed = false →
        ∃ t, s.replies (.jobKill k) k c 0 0 t ∧ t.jobs = s.jobs.set n { j with state := .ending .killed, endedAt := s.clock } ∧
          (∀ m ∈ j.slots, (t.hamlet m).hands = {} ∧ (t.hamlet m).porters = {} ∧ (t.hamlet m).tallies = {}) ∧
          ∀ q ∈ t.sessions.cells, q.2.job ≠ n) ∧
      (j.live = false → s.replies (.jobKill k) k c 5 0 s)) ∧
    (∀ h, j.live = true → (s.jobAt (handSlot h)).map Prod.fst = some n → (s.hand h).mode = .faulted → s.entriesOf n = [] →
      j.scrubbed = false →
      ∃ t, exec (.jobFault n (.hand h)) s = .next t ∧ t.jobs = s.jobs.set n { j with state := .ending .fault, endedAt := s.clock } ∧
        (∀ m ∈ j.slots, (t.hamlet m).hands = {} ∧ (t.hamlet m).porters = {} ∧ (t.hamlet m).tallies = {}) ∧
        t.logNext = s.logNext + 1) ∧
    (s.commandRuns k 0x0304 c → n = c.arg 0 → s.boxReaches k j.household = true → s.hostFaults (c.arg 1) 4096 = false →
      ∃ b st, s.replies (.jobStatus k) k c 0 (BitVec.ofNat 64 st) { s with hostMem := s.hostMem.writeBytes (c.arg 1) b } ∧
        b.length = 4096 ∧ recNat b 0 1 = st ∧ (j.state = .loaded → st = 1) ∧ (j.state = .running → st = 2) ∧ (j.state = .ended → st = 3) ∧
        (j.state = .killed → st = 4) ∧ (j.state = .faulted → st = 5) ∧ recNat b 1 1 = j.mode.toNat ∧
        recNat b 2 1 = flag j.lapsed + 2 * flag j.raised + 4 * flag j.timedOut ∧ recNat b 8 8 = (s.jobKey j.image).toNat ∧
        recNat b 16 8 = j.stalls.toNat ∧ recNat b 24 8 = j.endedAt.toNat ∧
        (∀ i < 128, ∀ p, j.places.find? (fun p => p.die == i / 16 && p.logical == i % 16) = some p → p.slot < 32 →
          recNat b (32 + 8 * i) 8 = p.slot + flag p.far * 2 ^ 5 + 2 ^ 6) ∧
        (∀ i < 128, j.places.find? (fun p => p.die == i / 16 && p.logical == i % 16) = none → recNat b (32 + 8 * i) 8 = 0) ∧
        (∀ i < 128, ∀ r, j.scrubs.find? (fun p => p.die == i / 16 && p.logical == i % 16) = some r →
          recNat b (1056 + 8 * i) 8 = r.digest.toNat + r.time.toNat * 2 ^ 32)) ∧
    (s.commandRuns k 0x0305 c → n = c.arg 0 → s.boxReaches k j.household = true →
      ((j.state = .ended ∨ j.state = .killed ∨ j.state = .faulted) →
        s.replies (.jobUnload k) k c 0 0 { s with jobs := s.jobs.del n }) ∧
      ((j.state = .running ∨ j.isEnding = true) → s.replies (.jobUnload k) k c 5 0 s) ∧
      (j.state = .loaded → ∃ t, s.replies (.jobUnload k) k c 0 0 t ∧ t.jobs.find n = none ∧ ∀ m ∈ j.slots, (t.hamlet m).hands = {})) ∧
    (s.commandRuns k 0x0701 c → n = c.arg 0 → s.boxReaches k j.household = true →
      (j.state = .running → ∃ t, s.replies (.digestFlush k) k c 0 0 t ∧ t.jobs = s.jobs ∧
        t = (s.talliesOf n j).foldl (fun u x => u.writeTallyFlush x 1) s) ∧
      (j.state ≠ .running → s.replies (.digestFlush k) k c 5 0 s))

/-- R275 to R281, R288, R290, R293, R297 to R299, R357. Numbers, entries, pages and slots are the firmware's choice (log entry 14); 5 CANCELLED. Which records and entries LEDGER_QUERY shows is log entry 41, and that SESSION_CLOSE removes a session at once while no step of its job runs is the model's choice (log entry 91). -/
def Obligations.ServingCommandsAct : Prop :=
  ∀ (s : State) (k hint : Nat) (c : Command),
    (s.commandRuns k 0x0401 c → ∀ j b page pool, s.jobs.find (c.arg 0) = some j → s.boxReaches k j.household = true → j.live = true →
      j.image.serving = true → s.hostFaults (c.arg 1) 64 = false → b = s.hostMem.readBytes (c.arg 1) 64 → page = recNat b 8 4 →
      pool = recNat b 12 4 →
      ((page = 0 ∨ page % 512 ≠ 0 ∨ pool = 0 ∨ 2 ^ 24 < pool ∨ recNat b 16 8 % 4096 ≠ 0) → s.replies (.sessionOpen k hint) k c 2 0 s) ∧
      (page ≠ 0 → page % 512 = 0 → pool ≠ 0 → pool ≤ 2 ^ 24 → recNat b 16 8 % 4096 = 0 → (b.drop 32).all (· == 0) = true →
        s.mappedRun j.household (recNat b 0 8) (pool * page) = true → ∀ i, freeNumber s.sessions 1 65535 hint = some i →
        1 ≤ i ∧ i ≤ 65535 ∧ s.sessions.find i = none ∧ s.replies (.sessionOpen k hint) k c 0 (BitVec.ofNat 64 i) { s with
          sessions := s.sessions.set i ⟨c.arg 0, j.household, BitVec.ofNat 64 (recNat b 0 8), page, pool, BitVec.ofNat 64 (recNat b 16 8),
            recNat b 24 8, false⟩ })) ∧
    (s.commandRuns k 0x0402 c → ∀ q, s.sessions.find (c.arg 0) = some q → s.boxReaches k q.household = true →
      (s.stepRuns q.job = true → s.replies (.sessionClose k) k c 0 0
        { s with sessions := s.sessions.set (c.arg 0) { q with closing := true } }) ∧
      (s.stepRuns q.job = false → (∀ e ∈ s.sessions.cells, e.2.closing = false) → s.entriesWhere (fun x => x.session == c.arg 0) = [] →
        ∃ t, s.replies (.sessionClose k) k c 0 0 t ∧ t = { s with sessions := t.sessions } ∧
          (∀ e ∈ t.sessions.cells, e ∈ s.sessions.cells) ∧ t.sessions.cells.length + 1 = s.sessions.cells.length)) ∧
    (s.commandRuns k 0x0403 c → ∀ i q j b x id, i = c.arg 0 → s.sessions.find i = some q → s.boxReaches k q.household = true →
      s.jobs.find q.job = some j → j.live = true → q.closing = false → s.hostFaults (c.arg 1) 128 = false →
      b = s.hostMem.readBytes (c.arg 1) 128 → x = entryOf b → id = recordAdapter b →
      (s.entryArgs q.household b = false → s.replies (.submit k hint) k c 2 0 s) ∧
      (∀ a g, s.entryArgs q.household b = true → (id = 0 ∧ a = (0, 0) ∨ id ≠ 0 ∧
          ∃ y, s.currentAdapter q.household id = some y ∧ a = (y.1, y.2.version)) →
        (x.grammar = 0 ∧ g = ((s.grammars.find 0).map (·.start)).getD 0 ∨ ∃ y, x.grammar ≠ 0 ∧ s.grammars.find x.grammar = some y ∧
          y.household = q.household ∧ y.vocabM1 + 1 = j.image.serv.vocab ∧ g = y.start) →
        (s.overQuota q.household x = true → s.replies (.submit k hint) k c 1 0 s) ∧
        (∀ e ps, s.overQuota q.household x = false → s.freeEntry hint = some e → s.poolTake i q x.pagesNeeded (hint / 16384) = some ps →
          e < 16384 ∧ (s.entry e).state = .free ∧ ps.length = x.pagesNeeded ∧ ps.Nodup ∧
          (∀ p ∈ ps, ∀ y ∈ s.ledger.cells, y.2.session = i → y.2.state ≠ .free → p ∉ y.2.pages) ∧
          ∃ t, s.replies (.submit k hint) k c 0 (BitVec.ofNat 64 e) t ∧ t.entry e = { x with
              household := q.household, session := i, seq := s.nextSeq, pages := ps, adapter := a.1, adapterVer := a.2, gstate := g } ∧
            t.nextSeq = s.nextSeq + 1 ∧ ∀ f, f ≠ e → t.entry f = s.entry f))) ∧
    (∀ e x, e = c.arg 0 → e < 16384 → x = s.entry e → x.state ≠ .free → s.boxReaches k x.household = true →
      (s.commandRuns k 0x0404 c →
        ((x.state = .active ∨ x.state = .pausing ∨ x.state = .resuming) →
          s.replies (.cancel k) k c 0 0 (s.modEntry e fun y => { y with wish := .cancel })) ∧
        (∀ a, (x.state = .queued ∨ x.state = .held ∨ x.state = .paused) → s.mem.wf = true →
          s.clearPage { household := x.household, job := none } true (s.ownEa (x.outBuf.toNat + 8 * x.generated)) 8 a → s.poisonedAt a 8 = false →
          ∃ t, s.replies (.cancel k) k c 0 0 t ∧ t.entry e = { x with state := .free, final := 5, pages := [], wish := .none, crcs := [], expiry := 0 } ∧
            s.memHas t a (outRecord 0 false true 5 true (s.entryStep x)) ∧ ∀ f, f ≠ e → t.entry f = s.entry f)) ∧
      (s.commandRuns k 0x0405 c → ∀ q, s.sessions.find x.session = some q →
        (x.state ≠ .active → s.replies (.pause k) k c 5 0 s) ∧
        (x.state = .active → x.wish ≠ .cancel → ∀ n, n = ceilDiv (x.length + s.rowsNow e x) 128 * q.pageBytes →
          (s.cellarRoom x.session q e n = none → s.replies (.pause k) k c 10 0 s) ∧
          (∀ o, s.cellarRoom x.session q e n = some o → o + n ≤ q.cellarBytes ∧
            s.replies (.pause k) k c 0 0 (s.modEntry e fun y => { y with wish := .pause (c.arg 1), cellarOff := BitVec.ofNat 64 o })))) ∧
      (s.commandRuns k 0x0406 c → ∀ q, s.sessions.find x.session = some q →
        (x.state ≠ .paused → s.replies (.resume k hint) k c 5 0 s) ∧
        (x.state = .paused → s.clock.toNat < x.expiry.toNat →
          (s.poolTake x.session q x.pagesNeeded hint = none → s.replies (.resume k hint) k c 1 0 s) ∧
          (∀ ps, s.poolTake x.session q x.pagesNeeded hint = some ps →
            s.reachable x.household true x.pageList.toNat (4 * x.pagesNeeded) = true → ps.length = x.pagesNeeded ∧ ps.Nodup ∧
            ∃ t, s.replies (.resume k hint) k c 0 0 t ∧ t.entry e = { x with state := .resuming, pages := ps, expiry := 0 } ∧
              ∀ f, f ≠ e → t.entry f = s.entry f)))) ∧
    (∀ h id ver, h = s.cmdHousehold k c → s.isOpen h = true → id = c.arg 1 → ver = c.arg 2 →
      (s.commandRuns k 0x0407 c → 0 < id → id < 2 ^ 32 → ver < 2 ^ 32 →
        (∀ i o, s.currentAdapter h id = some (i, o) → ver ≤ o.version.toNat → s.replies (.adapterLoad k hint) k c 5 0 s) ∧
        ((∀ i, 1 ≤ i → i ≤ 255 → (s.adapters.find i).isSome) → s.currentAdapter h id = none → s.replies (.adapterLoad k hint) k c 8 0 s) ∧
        (∀ f, 1 ≤ f → f ≤ 255 → s.adapters.find f = none → ∃ i t, 1 ≤ i ∧ i ≤ 255 ∧ s.adapters.find i = none ∧
          t = { s with adapters := s.adapters.set i ⟨h, BitVec.ofNat 32 id, BitVec.ofNat 32 ver, BitVec.ofNat 64 (c.arg 3), true, 0, false⟩ } ∧
          (s.currentAdapter h id = none → s.replies (.adapterLoad k hint) k c 0 (BitVec.ofNat 64 i) t) ∧
          (∀ n o, s.currentAdapter h id = some (n, o) → o.version.toNat < ver →
            (o.count ≠ 0 → s.replies (.adapterLoad k hint) k c 0 (BitVec.ofNat 64 i)
              { t with adapters := t.adapters.set n { o with current := false } }) ∧
            (o.count = 0 → s.replies (.adapterLoad k hint) k c 0 (BitVec.ofNat 64 i)
              ({ t with adapters := t.adapters.del n }.notifyHousehold o.household 0xf003 (BitVec.ofNat 64 (n + o.id.toNat * 2 ^ 32))))))) ∧
      (s.commandRuns k 0x0408 c →
        (s.currentAdapter h id = none → s.replies (.adapterRetire k) k c 6 0 s) ∧
        (∀ n o, s.currentAdapter h id = some (n, o) →
          (o.count ≠ 0 → s.replies (.adapterRetire k) k c 0 0 { s with adapters := s.adapters.set n { o with current := false } }) ∧
          (o.count = 0 → s.replies (.adapterRetire k) k c 0 0
            ({ s with adapters := s.adapters.del n }.notifyHousehold o.household 0xf003 (BitVec.ofNat 64 (n + o.id.toNat * 2 ^ 32)))))) ∧
      (s.commandRuns k 0x0409 c → ∀ n b g, n = c.arg 2 → 48 ≤ n → n ≤ 134742048 → s.hostFaults (c.arg 1) n = false →
        b = s.hostMem.readBytes (c.arg 1) n → g = grammarOf h (BitVec.ofNat 64 (c.arg 3)) b →
        (grammarOk b n g = false → s.replies (.grammarLoad k hint) k c 2 0 s) ∧
        (grammarOk b n g = true → s.reachable h true (c.arg 3) n = true →
          (∀ f, 1 ≤ f → f ≤ 1023 → s.grammars.find f = none →
            ∃ i t, 1 ≤ i ∧ i ≤ 1023 ∧ s.grammars.find i = none ∧ s.replies (.grammarLoad k hint) k c 0 (BitVec.ofNat 64 i) t ∧
              t.grammars = s.grammars.set i g ∧ ∀ d w, w < 2 ^ 26 → (t.sieves.get {} d).find (sieveKey i w) = none) ∧
          ((∀ f, 1 ≤ f → f ≤ 1023 → (s.grammars.find f).isSome) → s.replies (.grammarLoad k hint) k c 8 0 s))) ∧
      (s.commandRuns k 0x040a c →
        (∀ g, s.grammars.find id = some g → g.household = h →
          (s.entriesWhere (fun x => x.grammar == id) = [] → s.replies (.grammarFree k) k c 0 0 { s with grammars := s.grammars.del id }) ∧
          (s.entriesWhere (fun x => x.grammar == id) ≠ [] → s.replies (.grammarFree k) k c 5 0 s)) ∧
        ((∀ g, s.grammars.find id = some g → g.household ≠ h) → s.replies (.grammarFree k) k c 6 0 s))) ∧
    (s.commandRuns k 0x040b c → ∀ first n m, first = c.arg 1 → n = c.arg 2 →
      (c.arg 0 = 0 → first < 16384 → m = min n (16384 - first) → s.hostFaults (c.arg 3) (128 * m) = false →
        ∃ b, s.replies (.ledgerQuery k) k c 0 (BitVec.ofNat 64 m) { s with hostMem := s.hostMem.writeBytes (c.arg 3) b } ∧
          b.length = 128 * m ∧ ∀ i < m, (b.drop (128 * i)).take 128 =
            if s.boxReaches k (s.entry (first + i)).household then (s.entry (first + i)).bytes else List.replicate 128 0) ∧
      (c.arg 0 = 1 → ∀ l, l = s.queryRecords k first n → s.hostFaults (c.arg 3) (32 * l.length) = false →
        s.replies (.ledgerQuery k) k c 0 (BitVec.ofNat 64 l.length)
          { s with hostMem := s.hostMem.writeBytes (c.arg 3) (l.flatMap StepRecord.bytes) }) ∧
      (c.arg 0 = 2 → first = 0 → 7 ≤ n → s.hostFaults (c.arg 3) 56 = false →
        ∃ b, s.replies (.ledgerQuery k) k c 0 7 { s with hostMem := s.hostMem.writeBytes (c.arg 3) b } ∧ b.length = 56 ∧
          ∀ st : EntryState, s.stateCount k st < 2 ^ 64 → recNat b (8 * st.code) 8 = s.stateCount k st) ∧
      (2 < c.arg 0 → s.replies (.ledgerQuery k) k c 2 0 s))

/-- R258, R259, R280, R282 to R287, R291 to R297, R300, R301, R395, R396; the event is log entry 125; that the grammar state advances at the boundary is the model's choice by log entry 85, and which blocks a poisoned step asks for its choice by log entry 86. A Sieve's claim goes by the NoC port (R171). `State.gramView` is what a Sieve finds in its cache or the image. Starts are stated for entries that generate, the boundary for a step of one request; final 8 is OK (EOS). -/
def Obligations.ServingStepsStartSampleAndEnd : Prop :=
  ∀ (s : State) (n : Nat) (j : Job), s.jobs.find n = some j → j.state = .running →
    (j.image.serving = true → j.serving.held = false → j.serving.blockLost = false → j.serving.active = false →
      (∀ e ∈ s.sessions.cells, e.2.closing = false) →
      (∀ e ∈ s.entriesOf n, s.pastDeadline (s.entry e) = false) →
      (s.ranked n = [] → exec (.stepBoundary n) s =
        .next { s with jobs := s.jobs.set n { j with serving := { j.serving with active := false, rows := [], batch := [] } } }) ∧
      (∀ order rows a, order = s.ranked n → order ≠ [] → order.length ≤ j.image.serv.rowsMax → order.length ≤ j.image.serv.reqMax →
        (∀ e ∈ order, (s.entry e).promptLen ≤ (s.entry e).length) →
        rows = order.map (fun e => (⟨e, true, (s.entry e).length, (s.entry e).lastToken⟩ : StepRow)) → s.mem.wf = true →
        s.clearPage { household := j.household, job := none } true (s.ownEa j.image.serv.stepBlock.toNat) (64 + 32 * order.length) a →
        s.poisonedAt a (64 + 32 * order.length) = false →
        ∃ t, exec (.stepBoundary n) s = .next t ∧
          (∀ e ∈ order, t.entry e = { s.entry e with state := .active, lastStep := BitVec.ofNat 32 j.serving.step }) ∧
          s.memHas t a (s.stepBlock j.serving.step rows order.length false) ∧
          (∃ x, t.jobs.find n = some { j with serving := x } ∧ x.step = j.serving.step ∧ x.active = true ∧ x.rows = rows ∧ x.batch = order ∧
            x.poisoned = false ∧ x.held = false ∧ x.taken = {} ∧ x.sent = [] ∧ x.verdicts = [] ∧ x.records = j.serving.records) ∧
          (∀ r, j.ringOf j.image.serv.stepBell.toNat = some r →
            t.bellFlight = s.bellFlight ++ [⟨.reeve, (ringSlot r, r.idx % 64), 1⟩]))) ∧
    (∀ d row r i x, j.serving.active = true → d < s.dieCount → (shardOf j.image.serv.vocab s.dieCount d).2 ≠ 0 →
      j.serving.sampled[j.serving.takenBy d]? = some row → j.sieveRing d = some r → s.offers r i → x = s.slotIn r i → x.poison = false →
      x.fmt = 4 → x.bytes.length = 4 * (shardOf j.image.serv.vocab s.dieCount d).2 →
      ∀ g, s.gramView d (s.entry row.entry) = .ok g →
      ∃ t, exec (.sieveRow d n) s = .next t ∧ t = { s.stir with jobs := t.jobs, hamlets := t.hamlets, sieves := t.sieves } ∧
        t.jobs = s.jobs.set n { j with serving := { j.serving with
          taken := j.serving.taken.set d (j.serving.takenBy d + 1)
          sent := j.serving.sent ++ [⟨d, j.serving.takenBy d,
            shardCandidates g (s.entry row.entry).eos (shardOf j.image.serv.vocab s.dieCount d).1 (words 4 x.bytes)⟩] } } ∧
        t.ring r = (s.ring r).used (ringSlot r) .landing i) ∧
    (∀ i row cs, i = j.serving.verdicts.length → j.serving.active = true → j.serving.poisoned = false → j.serving.sampled[i]? = some row →
      (∀ d ∈ s.sieveDies j, ∃ x ∈ j.serving.sent, x.row = i ∧ x.die = d) →
      cs = topRanked ((j.serving.sent.filter fun x => x.row == i).flatMap (·.cands)) →
      ∃ v, exec (.sieveSample n) s = .next { s.stir with
          jobs := s.jobs.set n { j with serving := { j.serving with verdicts := j.serving.verdicts ++ [⟨row.entry, v⟩] } } } ∧
        (cs = [] → v = none) ∧
        (∀ x rest, cs = x :: rest → (s.entry row.entry).sample = false → v = some (BitVec.ofNat 18 x.token))) ∧
    (∀ e x tok rows, j.image.serving = true → j.serving.held = false → j.serving.blockLost = false → j.serving.active = true →
      s.stepDone j = true → j.serving.batch = [e] → x = s.entry e → rows = (j.serving.rows.filter fun r => r.entry == e).length →
      (j.serving.poisoned = true → (∀ q, s.sessions.find x.session = some q → q.closing = true → q.job = n →
        ∃ t, exec (.stepBoundary n) s = .next t ∧ (t.entry e).state = .free ∧ (t.entry e).final = 5 ∧ (t.entry e).pages = [])) ∧
      (j.serving.poisoned = true → (∀ q ∈ s.sessions.cells, q.2.closing = false) →
        ∃ t, exec (.stepBoundary n) s = .next t ∧ t.entry e = { x with state := .held } ∧
        (∃ y, t.jobs.find n = some { j with serving := y } ∧ y.held = true ∧ y.active = false ∧ y.step = j.serving.step) ∧
        t.logNext = s.logNext + 1 ∧
        ∀ b id y off, j.serving.badBlocks = [b] → s.tensorAt (2048 * b) = some (id, y, off, false) → y.admitted = true → y.mirror = false →
          b ∈ s.blkPoison → (id, off / 2048) ∉ s.reload → t.reload = s.reload ++ [(id, off / 2048)]) ∧
      (∀ a g, (∀ u : State, u.grammars = s.grammars → u.sieves = s.sieves → u.gramView 0 x = .ok g) → j.serving.poisoned = false → j.serving.wild = false → j.serving.kvWild = false → s.adapterChanged x = false → j.serving.verdictOf e = some (some tok) → x.state = .active →
        x.wish = .none → s.pastDeadline x = false → (∀ q ∈ s.sessions.cells, q.2.closing = false) → (s.sessions.find x.session).isSome →
        s.entriesOf n = [e] → tok.toNat = x.eos → s.mem.wf = true →
        s.clearPage { household := x.household, job := none } true (s.ownEa (x.outBuf.toNat + 8 * x.generated)) 8 a → s.poisonedAt a 8 = false →
        ∃ t, exec (.stepBoundary n) s = .next t ∧ s.memHas t a (outRecord tok.toNat false true 8 false j.serving.step) ∧
          t.entry e = { x with
            state := .free, final := 8, pages := [], wish := .none, crcs := [], expiry := 0, length := x.length + rows, generated := x.generated + 1
            lastToken := tok, gstate := g.next x.gstate tok.toNat } ∧
          ∃ y, t.jobs.find n = some { j with serving := y } ∧ y.step = j.serving.step + 1 ∧ y.active = false)) ∧
    (∀ trace, j.serving.held = true → (∃ b ∈ s.badLeft j.serving, b.2 = true) → exec (.stepReplay n trace) s = .next s) ∧
    (∀ b, j.serving.held = true → s.badLeft j.serving = [(b, false)] → s.poolPages n j.household (2048 * b) = [] →
      ∃ t, exec (.stepReplay n none) s = .next t ∧ (t.jobs.find n).map (·.state) = some (.ending .fault)) ∧
    (∀ a reqs rows, j.serving.held = true → s.badLeft j.serving = [] →
      reqs = j.serving.batch.filter (fun e => (s.entry e).state == .held) →
      rows = j.serving.rows.filter (fun r => (s.entry r.entry).state == .held && j.serving.batch.contains r.entry) → s.mem.wf = true →
      (reqs = [] → 1 ≤ j.mode.toNat → ∃ t, exec (.stepReplay n none) s = .next t ∧ t = { s with jobs := t.jobs } ∧
        ∃ x, t.jobs.find n = some { j with serving := x } ∧ x.step = j.serving.step + 1 ∧ x.held = false ∧ x.batch = []) ∧
      (reqs ≠ [] →
      s.clearPage { household := j.household, job := none } true (s.ownEa j.image.serv.stepBlock.toNat) (64 + 32 * rows.length) a →
      s.poisonedAt a (64 + 32 * rows.length) = false →
      ∃ t x, exec (.stepReplay n none) s = .next t ∧ t.mem.readBytes a (64 + 32 * rows.length) = s.stepBlock j.serving.step rows reqs.length true ∧
        (∀ e ∈ reqs, (t.entry e).state = .active) ∧ x.step = j.serving.step ∧ x.active = true ∧ x.rows = rows ∧
        x.batch = reqs ∧ x.replay = true ∧ x.held = false ∧
        (1 ≤ j.mode.toNat → t.jobs.find n = some { j with serving := x } ∧ s.memHas t a (s.stepBlock j.serving.step rows reqs.length true)) ∧
        (∀ b, j.mode = 0 → s.clearPage { household := j.household, job := none } true (s.ownEa j.argBlock.toNat) 4 b → s.poisonedAt b 4 = false →
          (b + 4 ≤ a ∨ a + (64 + 32 * rows.length) ≤ b) →
          t.jobs.find n = some { j with mode := 1, raised := true, serving := x } ∧ t.mem.readBytes b 4 = toBytes 4 1 ∧
          ∀ m ∈ j.slots, ∀ i, i < 4 → (t.hand ⟨m.die, m.slot, i⟩).evPend.getLsbD 5 = true)))

/-- R278, R290, R301, R396: final 6 EXPIRED, 7 CELLAR_FAILED. Pages are stated unprotected and in one 2 KiB block. -/
def Obligations.CellarCopiesAndMirrorsRestore : Prop :=
  (∀ (s : State) (e : Nat) (x : Entry) (q : Session), x = s.entry e → s.sessions.find x.session = some q → x.wish ≠ .cancel →
    q.closing = false → s.mem.wf = true →
    (∀ (page : Nat → Nat) (ms : Nat), x.state = .pausing → x.wish = .pause ms → s.hostMem.wf = true → q.pageBytes % 512 = 0 →
      (∀ i < x.usedPages, s.clearPage { household := x.household, job := none } false (s.ownEa (q.kvBase.toNat + x.pages.getD i 0 * q.pageBytes)) q.pageBytes (page i) ∧
        s.hostFaults (q.cellarBase.toNat + (x.cellarOff.toNat + i * q.pageBytes)) q.pageBytes = false) →
      (∀ i < x.usedPages, s.cryptFor x.household
        (s.pte x.household ((q.kvBase.toNat + x.pages.getD i 0 * q.pageBytes) / pageBytes)) = .plain) →
      ∃ t, exec (.cellarCopyOut e true) s = .next t ∧ t.mem = s.mem ∧
        t.entry e = { x with
          state := .paused, pages := [], wish := .none, expiry := s.clock + BitVec.ofNat 64 (25000 * ms)
          crcs := (List.range x.usedPages).map fun i => BitVec.ofNat 32 (crc32c (s.mem.readBytes (page i) q.pageBytes)) } ∧
        ∀ i < x.usedPages, t.hostMem.readBytes (q.cellarBase.toNat + (x.cellarOff.toNat + i * q.pageBytes)) q.pageBytes =
          s.mem.readBytes (page i) q.pageBytes) ∧
    (∀ a o, x.state = .resuming → x.usedPages = 1 → o = q.cellarBase.toNat + x.cellarOff.toNat → s.pastDeadline x = false →
      s.hostFaults o q.pageBytes = false →
      BitVec.ofNat 32 (crc32c (s.hostMem.readBytes o q.pageBytes)) = x.crcs.getD 0 0 →
      s.clearPage { household := x.household, job := none } true (s.ownEa (q.kvBase.toNat + x.pages.getD 0 0 * q.pageBytes)) q.pageBytes a →
      s.cryptFor x.household (s.pte x.household ((q.kvBase.toNat + x.pages.getD 0 0 * q.pageBytes) / pageBytes)) = .plain →
      ∃ t, exec (.cellarCopyIn e true) s = .next t ∧ t.entry e = { x with state := .queued, crcs := [], cellarOff := 0 } ∧
        s.memHas t a (s.hostMem.readBytes o q.pageBytes)) ∧
    (∀ a i f, s.clearPage { household := x.household, job := none } true (s.ownEa (x.outBuf.toNat + 8 * x.generated)) 8 a → s.poisonedAt a 8 = false →
      ((i = .cellarCopyOut e false ∧ x.state = .pausing ∧ f = 7) ∨ (i = .cellarCopyIn e false ∧ x.state = .resuming ∧ f = 7) ∨
        (i = .expiry e ∧ x.state = .paused ∧ x.expiry.toNat ≤ s.clock.toNat ∧ f = 6)) →
      ∃ t, exec i s = .next t ∧ t.entry e = { x with state := .free, final := f, pages := [], wish := .none, crcs := [], expiry := 0 } ∧
        s.memHas t a (outRecord 0 false true f true (s.entryStep x)) ∧ (∀ g, g ≠ e → t.entry g = s.entry g)))    ∧
  (∀ (s : State) (id b : Nat) (y : Tensor) (a m : Nat), s.mem.wf = true → s.tensors.find id = some y → y.admitted = true →
    y.mirror = true → 2048 * b < y.bytes →
    ((a = s.tensorAddr y false (2048 * b) ∧ m = s.tensorAddr y true (2048 * b)) ∨
      (a = s.tensorAddr y true (2048 * b) ∧ m = s.tensorAddr y false (2048 * b))) →
    a / 2048 ∈ s.blkPoison → m / 2048 ∉ s.blkPoison → s.blkPoison.Nodup →
    ∃ t, exec (.mirrorRestore id b) s = .next t ∧ s.memHas t a (s.mem.readBytes m 2048) ∧ a / 2048 ∉ t.blkPoison ∧
      t.reload = s.reload.erase (id, b))

/-- R64, R213, R257, R312, R320 to R323, R358, R359, R375, R407 to R409. The layout of the LINK_STATUS buffer is log entry 42, that of SETTINGS_READ is open (log entry 12); what TOPOLOGY_SET's bytes say is its operand (log entry 13). That LOOPBACK with count 0 answers OK at once without a record is the model's choice (log entry 57). -/
def Obligations.TopologyLinksAndSettingsCommands : Prop :=
  ∀ (s : State) (k : Nat) (c : Command),
    (s.commandRuns k 0x0501 c → ∀ b : BoardDesc,
      (s.anyJob = true → s.replies (.topologySet k b) k c 5 0 s) ∧
      (s.anyJob = false → s.hostFaults (c.arg 0) (c.arg 1) = false → s.boardOk b = false → s.replies (.topologySet k b) k c 2 0 s) ∧
      (s.anyJob = false → s.hostFaults (c.arg 0) (c.arg 1) = false → s.boardOk b = true →
        ∃ t, s.replies (.topologySet k b) k c 0 0 t ∧ t.torus = ⟨b.coord, b.dims, b.board, b.message, true, b.uplinks, b.group⟩ ∧
          ∀ l < s.linkCount, ∀ d, d = s.linkDesc b l →
            (t.landing l).role = d.role ∧ (t.landing l).dir = d.dir ∧ (t.landing l).index = d.index ∧ (t.landing l).profile = d.profile ∧
            (t.landing l).rateCap = d.rateCap ∧ ((s.landing l).has d = false → (t.landing l).state = roleState d.role))) ∧
    (s.commandRuns k 0x0502 c → ∀ l a d, l = c.arg 0 → a = c.arg 1 → l < s.linkCount → a < 256 →
      d = ⟨BitVec.ofNat 3 (bitsOf a 0 3), BitVec.ofNat 3 (bitsOf a 3 3), BitVec.ofNat 2 (bitsOf a 6 2), (s.landing l).profile, (s.landing l).rateCap⟩ →
      (roleOk (bitsOf a 0 3) (bitsOf a 3 3) (bitsOf a 6 2) = false → s.replies (.linkAssign k) k c 2 0 s) ∧
      (roleOk (bitsOf a 0 3) (bitsOf a 3 3) (bitsOf a 6 2) = true → s.anyJob = true → s.assignable l d = false →
        s.replies (.linkAssign k) k c 5 0 s) ∧
      (roleOk (bitsOf a 0 3) (bitsOf a 3 3) (bitsOf a 6 2) = true → (s.anyJob = false ∨ s.assignable l d = true) →
        ∃ t, s.replies (.linkAssign k) k c 0 0 t ∧ (t.landing l).role = d.role ∧ (t.landing l).dir = d.dir ∧ (t.landing l).index = d.index ∧
          ((s.landing l).has d = false → (t.landing l).state = roleState d.role) ∧
          (s.standsIn l d = true → (t.landing l).sticky.failover = true ∧ t.logNext = s.logNext + 1))) ∧
    (s.commandRuns k 0x0503 c → s.hostFaults (c.arg 0) (32 * s.linkCount + 16) = false →
      ∃ b, s.replies (.linkStatus k) k c 0 (BitVec.ofNat 64 (32 * s.linkCount + 16)) { s with hostMem := s.hostMem.writeBytes (c.arg 0) b } ∧
        b.length = 32 * s.linkCount + 16 ∧
        (∀ l < s.linkCount, ∀ i < 4, (b.drop (32 * l + 8 * i)).take 8 = toBytes 8 ((s.landing l).reg (8 * i))) ∧
        b.drop (32 * s.linkCount) = toBytes 8 (s.ferryReg 0 0) ++ toBytes 8 (s.ferryReg 0 8)) ∧
    (s.commandRuns k 0x0601 c → ∀ w, w = c.arg 0 →
      (w = 0 → s.replies (.powerCap k) k c 0 0 { s with settings := { s.settings with powerCap := none } }) ∧
      (w ≠ 0 → 40 * s.part.rated ≤ 100 * w → w ≤ s.part.rated →
        s.replies (.powerCap k) k c 0 0 { s with settings := { s.settings with powerCap := some w } }) ∧
      (w ≠ 0 → (100 * w < 40 * s.part.rated ∨ s.part.rated < w) → s.replies (.powerCap k) k c 2 0 s)) ∧
    (s.commandRuns k 0x0603 c →
      (c.arg 0 ≤ 2 → s.replies (.determinism k) k c 0 0 { s with settings := { s.settings with detMode := BitVec.ofNat 2 (c.arg 0) } }) ∧
      (2 < c.arg 0 → s.replies (.determinism k) k c 2 0 s)) ∧
    (s.commandRuns k 0x0604 c →
      (4 ≤ c.arg 0 → c.arg 0 ≤ 16 → c.arg 1 ≤ 4 → s.replies (.lpddrShares k) k c 0 0
        { s with settings := { s.settings with lcCap := BitVec.ofNat 5 (c.arg 0), backFloor := BitVec.ofNat 4 (c.arg 1) } }) ∧
      ((c.arg 0 < 4 ∨ 16 < c.arg 0 ∨ 4 < c.arg 1) → s.replies (.lpddrShares k) k c 2 0 s)) ∧
    (s.commandRuns k 0x0605 c →
      s.replies (.lotSeed k) k c 0 0 { s with settings := { s.settings with lotSeed := c.args.getD 0 0 } }) ∧
    (s.commandRuns k 0x0606 c → s.hostFaults (c.arg 0) 64 = false →
      s.replies (.settingsRead k) k c 0 64 { s with hostMem := s.hostMem.writeBytes (c.arg 0) ((List.range 64).map (Config.openRecord 2
        [s.settings.powerCap.getD s.part.rated, s.settings.detMode.toNat, s.settings.lcCap.toNat, s.settings.backFloor.toNat,
          s.settings.lotSeed.toNat, s.slotsWord])) }) ∧
    (s.commandRuns k 0x0702 c → ∀ (o : LoopOutcome) kind index depth count, kind = bitsOf (c.arg 0) 0 8 → index = bitsOf (c.arg 0) 8 8 →
      depth = c.arg 1 → count = c.arg 2 →
      (s.loopArgs kind index depth count = false → s.replies (.loopback k o) k c 2 0 s) ∧
      (s.loopArgs kind index depth count = true → s.loopReady kind index depth count o.follower = false →
        s.replies (.loopback k o) k c 5 0 s) ∧
      (s.loopArgs kind index depth count = true → s.loopReady kind index depth count o.follower = true →
        (count = 0 → s.replies (.loopback k o) k c 0 0 (s.modLanding index fun x => { x with followerAt := some s.clock })) ∧
        (count ≠ 0 → s.hostFaults (c.arg 3) 64 = false →
          ∃ t r, s.replies (.loopback k o) k c 0 0 t ∧ t.hostMem = s.hostMem.writeBytes (c.arg 3) r ∧ (kind ≠ 3 → t.logNext = s.logNext + 1) ∧
            r.length = 64 ∧ recNat r 1 1 = depth ∧
            (kind = 3 → depth = 4 → o.follower = false → recNat r 0 1 = 2 ∧ recNat r 8 8 = 0 ∧ recNat r 32 2 = 0xffff) ∧
            (¬(kind = 3 ∧ depth = 4 ∧ o.follower = false) → ∀ w, w = loopWithin count o →
              1 ≤ recNat r 8 8 ∧ recNat r 8 8 ≤ count ∧ (recNat r 36 4 < 1000000 → recNat r 8 8 = count) ∧ recNat r 16 8 ≤ recNat r 8 8 ∧ recNat r 24 8 ≤ recNat r 16 8 ∧ recNat r 36 4 ≤ 1000000 ∧
              recNat r 8 8 = w.sent.toNat ∧ recNat r 16 8 = w.received.toNat ∧ recNat r 24 8 = w.errors.toNat ∧
              (w.errors = 0 → w.received = w.sent → recNat r 0 1 = 0 ∧ recNat r 32 2 = 0xffff) ∧
              ((w.errors ≠ 0 ∨ w.received ≠ w.sent) → recNat r 0 1 = 1 ∧ recNat r 32 2 = o.lane.toNat)))))

/-- R264, R337, R371 to R377, R392, R405, R418. The level rises and falls one reading at a time. The model's choices: when a forced Doze is entered (log entry 121), that DETAIL holds the level (log entry 120), where the copies lie (log entry 102), that the mean is over the readings there are (log entry 50), that settings and Press slots return also when the save area is lost (log entry 59), and the voltage of a level (log entry 142). -/
def Obligations.PowerStatesGovernorAndHeartbeat : Prop :=
  ∀ (s : State),
    (∀ k c, s.commandRuns k 0x0602 c →
      (c.arg 0 = 0 → s.replies (.powerState k) k c 0 0 { s with
        ident := { s.ident with power := .run }, settings := { s.settings with dozeBarred := true, dozeForced := false }, activity := s.mclk }) ∧
      (c.arg 0 = 1 → s.quiet = true → s.replies (.powerState k) k c 0 0 { s with
        ident := { s.ident with power := .doze }, settings := { s.settings with dozeBarred := false, dozeForced := true } }) ∧
      (c.arg 0 = 1 → s.quiet = false → s.replies (.powerState k) k c 0 0 { s with
        settings := { s.settings with dozeBarred := false, dozeForced := true } }) ∧
      (c.arg 0 = 2 → s.deepRefused k = true → s.replies (.powerState k) k c 5 0 s) ∧
      (2 < c.arg 0 → s.replies (.powerState k) k c 2 0 s) ∧
      (c.arg 0 = 2 → s.deepRefused k = false → c.epoch = (s.postbox k).epoch → (s.postbox k).running = true → (s.postbox k).cplQ = [] →
        s.boxRoom k = true → ∀ a, a = (s.postbox k).cplBase.toNat + 32 * ((s.postbox k).cplTail.toNat % (s.postbox k).cplSize) →
        s.hostFaults a 32 = false →
        ∃ t, exec (.powerState k) s = .next t ∧ t.ident.power = .deep ∧ t.hostMem = s.hostMem.writeBytes a
            (Completion.entry ⟨c.opcode, 0, c.seq, c.tag, 0, c.epoch⟩ (s.postbox k).cplTail) ∧
          (t.postbox k).cur = none ∧ (t.postbox k).cplTail = (s.postbox k).cplTail + 1 ∧ t.ledger = {} ∧ t.sessions = {} ∧
          t.deepSave = some ⟨s.ledger, s.nextSeq, s.sessions, s.adapters, s.grammars, s.sieves, s.pressSlots, s.settings⟩ ∧
          ∀ l < s.linkCount, (t.landing l).state = .disabled)) ∧
    (∀ (regs l : List RegRead) (temps hot : List Nat) (x : RailRead) w rs sum n, s.governed = true → l = s.regReads regs → inputPower l = some w →
      hot = (List.range s.dieCount).filter (fun d => decide (100 < temps.getD d 0)) →
      rs = (s.gov.readings ++ [w]).drop (s.gov.readings.length - 9) → sum = rs.foldl (· + ·) 0 → n = rs.length →
      ∃ t, exec (.governorTick regs temps x) s = .next t ∧ t.gov.readings = rs ∧ t.gov.level = s.gov.level ∧ t.gov.temps = temps ∧ t.gov.regs = l ∧
        t.pins = { s.pins with pmbAlert := s.pins.pmbAlert || x.alertHigh } ∧
        ((hot ≠ [] ∨ x.siteHot = true ∨ 100 * s.cap * n < 100 * sum) →
          t.gov.target = if s.gov.target = 7 then 7 else s.gov.target + 1) ∧
        (hot = [] → x.siteHot = false → 100 * sum ≤ 100 * s.cap * n → 90 * s.cap * n ≤ 100 * sum →
          t.gov.target = s.gov.target ∧ t.gov.lowTicks = 0) ∧
        (hot = [] → x.siteHot = false → 100 * sum < 90 * s.cap * n →
          (s.gov.lowTicks < 9 → t.gov.target = s.gov.target ∧ t.gov.lowTicks = s.gov.lowTicks + 1) ∧
          (9 ≤ s.gov.lowTicks → t.gov.lowTicks = 0 ∧ t.gov.target = if s.gov.target = 0 then 0 else s.gov.target - 1)) ∧
        (∀ d, hot = [d] → s.gov.temps.getD d 0 ≤ 100 → x.railOut = false → t.logNext = s.logNext + 1) ∧
        (hot = [] → x.railOut = false → t.logNext = s.logNext) ∧
        (x.railOut = true → t.ident.state = .undefined)) ∧
    (∀ (regs : List RegRead) (r : RegRead) (x : RailRead), s.governed = true → x.railOut = false → s.regReads regs = [r] → r.read = none →
      ∃ t, exec (.governorTick regs [] x) s = .next t ∧ t.gov.readings = s.gov.readings ∧ t.logNext = s.logNext + 1 ∧
        (s.logRoom s.logNext = true → ∃ q, t.logRing.find (s.logNext.toNat % 1920) = some q ∧ q.cls = 8 ∧ q.event = 2 ∧
          q.place = BitVec.ofNat 5 r.rail)) ∧
    (s.governed = true → s.gov.target ≠ s.gov.level → ∀ u : State, u = { s with
        gov := { s.gov with level := s.gov.target }
        jobs := s.jobs.mapV fun _ j => if j.state = .running ∧ j.mode = 2 then { j with lapsed := true } else j } →
      (s.rails.described = false → exec .levelChange s = .next u) ∧
      (s.rails.described = true → ∃ v, exec .levelChange s = .next { u with rails := { s.rails with coreMv := v } } ∧
        ∀ d < s.dieCount, v.find d = some (coreVolt d s.gov.target.toNat))) ∧
    (∀ d n, 650 ≤ coreVolt d n ∧ coreVolt d n ≤ 850) ∧
    (∀ w, s.gov.sevenSince = some w → s.governed = true → s.gov.reported = false → w.toNat + 2500000 ≤ s.clock.toNat →
      ∃ t, exec .governorLimit s = .next t ∧ t.gov = { s.gov with reported := true } ∧
        t.logNext = s.logNext + (if s.gov.above s.cap 100 then 2 else 1)) ∧
    (s.clocked = true → s.ident.power = .run → s.settings.dozeBarred = false → (∀ m ∈ s.hamlets.cells, m.2.power ≠ .active) →
      (∀ p ∈ s.parishes.cells, p.2.busy = false) → s.sieveBusy = false → (s.settings.dozeForced = true ∨ s.quietMs = true) →
      exec .dozeEntry s = .next { s with ident := { s.ident with power := .doze } }) ∧
    (s.ident.power = .doze → exec .dozeExit s = .next { s with
      ident := { s.ident with power := .run }, settings := { s.settings with dozeForced := false }, activity := s.mclk }) ∧
    (∀ x good, s.deepSave = some x → s.ident.power = .deep → s.deepWake = true → s.clocked = true →
      ((∀ a ∈ s.firmCopies 0 .deepSave, s.blkPoison.contains (a / 2048) = false) →
        (2 ≤ good → exec (.deepExit good) s = .next { s with
          settings := x.settings, pressSlots := x.pressSlots
          ledger := x.ledger, nextSeq := x.nextSeq, sessions := x.sessions, adapters := x.adapters, grammars := x.grammars, sieves := x.sieves
          deepSave := none, landings := s.landings.mapV fun _ y => y.rewake }) ∧
        (good = 0 → ∃ t, exec (.deepExit good) s = .next t ∧ t.ident.power = .deep ∧ t.deepSave = none ∧ t.pressSlots = x.pressSlots ∧
          t.settings = x.settings ∧ t.ledger = s.ledger ∧ t.sessions = s.sessions ∧ t.logNext = s.logNext + 1)) ∧
      ((∀ a ∈ s.firmCopies 0 .deepSave, s.blkPoison.contains (a / 2048) = true) →
        ∃ t, exec (.deepExit good) s = .next t ∧ t.ident.state = .undefined ∧ t.deepSave = none ∧ t.ledger = s.ledger)) ∧
    (∀ good, s.deepSave = none → s.ident.power = .deep → s.deepWake = true → s.clocked = true →
      ((∃ y ∈ s.landings.cells, y.2.state = .retrain) → exec (.deepExit good) s = .next s) ∧
      ((∀ y ∈ s.landings.cells, y.2.state ≠ .retrain) → (∀ e ∈ s.ledger.cells, e.2.state = .paused → s.clock.toNat < e.2.expiry.toNat) →
        exec (.deepExit good) s = .next { s with
          ident := { s.ident with power := .run }, settings := { s.settings with dozeForced := false }, activity := s.mclk, deepWake := false })) ∧
    (s.clocked = true → s.ident.state = .ready →
      exec .heartbeat s = .next { s with ident := { s.ident with heartbeat := s.ident.heartbeat + 1 } })

/-- R334, R359, R378 to R383, R392, R421. The first clause is stated where no job is live or ends and no byte is behind a fence, so that no digest is written on the way and no scrub fails; that the sequences take no time is log entry 51. The model's choices: FAILED is kept by every reset (log entry 52), NumVFs is cleared with the VFs (log entry 44), the severities of AER records (log entry 97), and Landings are DISABLED while they are in reset (log entry 135). The bank test is stated for one bank; a granule retired by its record is log entry 114. Where the page tables lie, which a VF FLR empties, is log entry 102. -/
def Obligations.ResetsLeaveWhatSurvives : Prop :=
  ∀ (s : State),
    (∀ i st, s.resettable = true → (∀ j ∈ s.jobs.cells, j.2.live = false ∧ j.2.isEnding = false) → s.mem.wf = true → (∀ a, s.fenced a = false) →
      s.ident.state ≠ .boot →
      (((i = .pcieHotReset ⟨.inBand, []⟩ ∨ i = .pfFlr) ∧
          st = (if s.ident.state = .undefined then .undefined else if s.ident.state = .failed then .failed else .ready)) ∨
        (∃ o : WarmOutcome, i = .warmResetSequence o ∧ s.resetStep = .commanded ∧ o.signatureOk = true ∧ s.ident.state ≠ .failed ∧
          s.lifecycle ≠ .test ∧ (∀ p : ParishRef, (s.parish p).retired = 0) ∧ o.banks = ⟨[], [], [], []⟩ ∧ st = .ready)) →
      ∃ t, exec i s = .next t ∧ t.ident.state = st ∧ t.households = {} ∧ t.jobs = {} ∧ t.sessions = {} ∧ t.ledger = {} ∧ t.keySlots = {} ∧
        t.pressSlots = {} ∧ t.postboxes = {} ∧ t.noticeQ = [] ∧ t.settings = {} ∧ t.numVFs = 0 ∧
        (∀ a, sramBase ≤ a → t.mem.read a = 0) ∧ (∀ a, a < sramBase → t.mem.read a = s.mem.read a) ∧ t.blkPoison = s.blkPoison ∧
        (∀ id x, s.tensors.find id = some x → t.tensors.find id = some { x with maps := [] }) ∧ t.logRing = s.logRing ∧
        t.logNext = s.logNext ∧ t.clock = s.clock ∧ t.torus = s.torus ∧ t.stranded = [] ∧ t.bellFlight = [] ∧
        ∀ l x, s.landings.find l = some x → ∃ y, t.landings.find l = some y ∧ y.role = x.role ∧
          y.state = (if x.role = 0 then .disabled else .retrain)) ∧
    (∀ aer : List Bool, ∀ u, u = s.logAer aer → s.resettable = true →
      (∃ t, exec (.pcieHotReset ⟨.inBand, []⟩) { u with pins := { u.pins with perst := false } } = .next t ∧ exec (.pcieHotReset ⟨.perst, aer⟩) s = .next t) ∧
      (∃ t, exec (.pcieHotReset ⟨.inBand, []⟩) u = .next t ∧ exec (.pcieHotReset ⟨.inBand, aer⟩) s = .next t ∧
        ∃ v, exec (.pcieHotReset ⟨.linkDown, aer⟩) s = .next v ∧ v.logNext = t.logNext + 1 ∧ v.ident = t.ident ∧ v.mem = t.mem ∧ v.jobs = t.jobs)) ∧
    (∀ bad : Bool, s.clocked = true → s.ident.state ≠ .boot → (bad = false → (s.die 0).log.lastCorrected.find 192 = none) →
      (s.logAer [bad]).logNext = s.logNext + 1 ∧
      (s.logRoom s.logNext = true → ∃ q, (s.logAer [bad]).logRing.find (s.logNext.toNat % 1920) = some q ∧ q.cls = 6 ∧
        q.event = if bad then 2 else 1)) ∧
    (∀ o : WarmOutcome, s.clocked = true → s.resetStep = .commanded → o.signatureOk = false → o.copyA = false → o.copyB = false →
      ∃ t, exec (.warmResetSequence o) s = .next t ∧ t.ident.state = .failed ∧ t.resetStep = .none ∧ t.households = {} ∧ t.jobs = {}) ∧
    (∀ k c, s.commandRuns k 0x0703 c → s.canAnswer k c = true →
      exec (.warmReset k) s = .next { s.answerNow k c 0 with resetStep := .commanded }) ∧
    (∀ ns, ns < 200 → exec (.wrstN ns) s = .next s) ∧
    (∀ ns, 200 ≤ ns → ns < 1000 → s.clocked = true → s.ident.state ≠ .boot → s.resetStep = .none →
      ∃ t, exec (.wrstN ns) s = .next t ∧ (t = { s with freeCtr := s.freeCtr + 1 } ∨
        t = { s with freeCtr := s.freeCtr + 1, resetStep := .commanded })) ∧
    (∀ ns, 1000 ≤ ns → s.clocked = true → s.ident.state ≠ .boot → s.resetStep ≠ .heldAtFive →
      ∃ t, exec (.wrstN ns) s = .next t ∧ t.pins = { s.pins with wrst := false } ∧ t.resetStep = .heldAtFive ∧ t.jobs = {} ∧ t.stranded = [] ∧
        (∀ l x, s.landings.find l = some x → ∃ y, t.landings.find l = some y ∧ y.state = .disabled) ∧
        (∀ k, (t.postbox k).running = false ∧ (t.postbox k).cur = none) ∧ (s.ident.state ≠ .failed → t.ident.state = .boot) ∧
        ((∀ j ∈ s.jobs.cells, j.2.live = false ∧ j.2.isEnding = false) → t.households = s.households ∧ t.settings = s.settings)) ∧
    (∀ o : WarmOutcome, s.resetStep = .heldAtFive → o.signatureOk = true → s.ident.state ≠ .failed →
      ∃ t, exec (.wrstNDeassert o) s = .next t ∧ t.pins = { s.pins with wrst := true } ∧ t.resetStep = .none ∧ t.households = {} ∧ t.settings = {} ∧
        t.ident.state = (if s.lifecycle = .test then .undefined else .ready)) ∧
    (∀ o : WarmOutcome, s.resetStep = .heldAtFive → o.signatureOk = true → (∀ p : ParishRef, (s.parish p).retired = 0) →
      (∀ m : HamletRef, m.die < s.dieCount → (s.hamlet m).retired = false →
        (o.banks = ⟨[m], [], [], []⟩ →
          ∃ t, exec (.wrstNDeassert o) s = .next t ∧ (t.hamlet m).retired = true ∧ t.logNext = s.logNext + 1) ∧
        (o.banks = ⟨[], [m], [], []⟩ →
          ∃ t, exec (.wrstNDeassert o) s = .next t ∧ (t.hamlet m).retired = false ∧ t.logNext = s.logNext + 1)) ∧
      (∀ (p : ParishRef) (g : Nat), p.die < s.dieCount → p.par < 4 → g < 40 →
        (o.banks = ⟨[], [], [(p, g)], []⟩ →
          ∃ t, exec (.wrstNDeassert o) s = .next t ∧ (t.parish p).retired = BitVec.ofNat 40 (2 ^ g) ∧ t.logNext = s.logNext + 1) ∧
        (o.banks = ⟨[], [], [], [(p, g)]⟩ →
          ∃ t, exec (.wrstNDeassert o) s = .next t ∧ (t.parish p).retired = 0 ∧ t.logNext = s.logNext + 1))) ∧
    (∃ t, exec .powerLoss s = .next t ∧ t.pins.porst = false ∧ t.mem = [] ∧ t.clock = 0 ∧ t.households = {} ∧ t.jobs = {} ∧ t.tensors = {} ∧
      t.logRing = {} ∧ t.lifecycle ≠ .test ∧ t.part = s.part ∧ t.hostMem = s.hostMem ∧ (∀ c, (t.ctl c).resetN = false) ∧ t.rails = {}) ∧
    (∀ d, s.clocked = true → d < s.dieCount → ∃ t, exec (.thermtrip d) s = .next t ∧ t.stopped = true ∧ t.pins.thermtrip = false ∧
      (t.die d).tripped = true ∧ t.mem = [] ∧ t.jobs = {} ∧ t.clocked = false) ∧
    (∀ rail, s.clocked = true →
      ∃ t, exec (.pmbAlert rail) s = .next t ∧ t.pins = { s.pins with pmbAlert := false } ∧ t.logNext = s.logNext + 1) ∧
    exec .perstNDeassert s = .next { s with pins := { s.pins with perst := true } } ∧
    (∀ o : BootOutcome, s.pins.porst = false → o.copyA = true →
      (∃ d < s.dieCount, ∀ c < 6, siteOutcome o (6 * d + c) = .rate9600 ∨ siteOutcome o (6 * d + c) = .rate8533) → o.board = none →
      ∃ t, exec (.coldBoot o) s = .next t ∧ t.ident = { state := .ready, fwVersion := o.version, fwBuild := o.build, math := o.math } ∧
        t.clock = 0 ∧ t.mem = [] ∧ t.pins.porst = true ∧ t.households = {} ∧ t.postboxes = {} ∧ t.pcieSris = s.part.strapPcieClk ∧
        ∀ d, d < s.dieCount → ∀ c, c < 6 → (t.ctl ⟨d, c⟩).resetN = true) ∧
    (∀ o : BootOutcome, s.pins.porst = false → o.copyA = false → o.copyB = false →
      ∃ t, exec (.coldBoot o) s = .next t ∧ t.ident.state = .failed ∧ t.pins.porst = true) ∧
    (∀ n h, s.answers = true → s.vfBox n = true → s.resetStep ≠ .heldAtFive →
      (s.vfHousehold n = 0 → exec (.vfFlr n) s = .next { s with
        postboxes := s.postboxes.del n, noticeQ := s.noticeQ.filter fun x => x.pb != n }) ∧
      (h = s.vfHousehold n → h ≠ 0 → s.jobsOfHousehold h = [] → ∃ t, exec (.vfFlr n) s = .next t ∧
        t.households = s.households.del h ∧ t.postboxes = s.postboxes.del n ∧ t.keySlots = (s.keySlots.keep fun _ x => x.owner != h) ∧
        (∀ e ∈ t.ledger.cells, e.2.household ≠ h) ∧ (∀ e ∈ t.jobs.cells, e.2.household ≠ h) ∧ t.pressSlots = s.pressSlots ∧
        (s.mem.wf = true → ∀ a, s.offTables h 0 (s.household h).ptLen a → t.mem.read a = s.mem.read a))) ∧
    (∀ n, s.answers = true → (s.numVFs ≤ n → exec (.vfEnable n) s = .next { s with numVFs := n }) ∧
      ∃ t, exec (.vfEnable n) s = .next t ∧ t.numVFs = n)

/-- R411, Table 14.7. Which data register an instruction of the standards selects is left to them; the IDCODE word is in HostWindowsAndInstruments (R410). -/
def Obligations.TapInstructionsKeepARunningPart : Prop :=
  ∀ (s : State) (d : Nat) (load : Byte → TapData → Bool → State), s.pins.porst = true → d < s.dieCount →
    (∀ ir data pins, load ir data pins = s.modDie d fun x => { x with tap := { x.tap with ir := ir, data := data, pins := pins } }) →
    (∃ data, exec (.idcode d) s = .next (load 0x01 data false)) ∧
    (∃ data, exec (.samplePreload d) s = .next (load 0x02 data false)) ∧
    (∀ i ir, (i, ir) ∈ ([(.extest d, 0x03), (.extestPulse d, 0x04), (.extestTrain d, 0x05), (.clamp d, 0x06), (.highz d, 0x07)] : List (Instr × Byte)) →
      ((s.pins.wrst = false ∨ s.lifecycle = .test) → ∃ data, exec i s = .next (load ir data true)) ∧
      (s.pins.wrst = true → s.lifecycle ≠ .test → exec i s = .next (load ir .bypass false))) ∧
    (∀ code : Byte, code ∉ ([0x01, 0x02, 0x03, 0x04, 0x05, 0x06, 0x07, 0x10, 0x11] : List Byte) →
      exec (.bypass d code) s = .next (load code .bypass false)) ∧
    (∀ op, ∃ t, exec (.ijtag d op) s = .next t ∧ (t.die d).tap.ir = 0x10 ∧ (t.die d).tap.pins = false) ∧
    (∀ op, s.lifecycle ≠ .production → exec (.unlock d op) s = .next (load 0x11 .bypass false)) ∧
    (∀ v, s.lifecycle = .production → ∃ t, exec (.unlock d (.challenge v)) s = .next t ∧ (t.die d).tap.ir = 0x11 ∧ t = { s with dies := t.dies }) ∧
    (∀ ok, s.lifecycle = .production → ∃ t, exec (.unlock d (.response ok)) s = .next t ∧ (t.die d).tap.ir = 0x11 ∧
      ((ok = false ∨ d ≠ 0 ∨ (s.die d).tap.nonce = none ∨ s.clocked = false) → t = { s with dies := t.dies })) ∧
    ((s.die d).tap.ir ∈ ([0x03, 0x04, 0x05, 0x06, 0x07] : List Byte) →
      (∀ ns, 1000 ≤ ns → ∃ t, exec (.wrstN ns) s = .next t ∧ (t.die d).tap.pins = true) ∧
      (∀ o, s.lifecycle ≠ .test → ∃ t, exec (.wrstNDeassert o) s = .next t ∧ (t.die d).tap.pins = false ∧ (t.die d).tap.data = .bypass))

/-- R330, R333 to R335, R338, R367, R370, R397, R403, R421. The layout of the MSI-X table, its mask bits and pending bits are PCIe's (log entry 119). That a write to an unused slot reaches nothing is the model's reading of R367 (log entry 66), and the SMBus block layout its choice (log entry 61). R410, R412, R413. Whether a signature holds is the operand (log entry 13); the bytes in which the debug port shows a unit are log entry 124. -/
def Obligations.HostWindowsAndInstruments : Prop :=
  (∀ (s : State),
    (∀ fn off n h a who, s.answers = true → s.fnLive fn = true → s.ident.power ≠ .deep → h = (s.bar2Of fn).1 → h ≠ 0 → s.isOpen h = true →
      who = { household := h, job := none, host := true } →
      (off + n ≤ s.bar2Size fn → s.clearPage who false (s.ownEa ((s.bar2Of fn).2 + off)) n a → ∃ t, exec (.bar2Read fn off n) s = .next t ∧
        t = { s with parishes := t.parishes, hostOut := s.hostOut ++ [.readData (s.mem.readBytes a n) false] }) ∧
      (∀ data, s.mem.wf = true → off + data.length ≤ s.bar2Size fn →
        s.clearPage who true (s.ownEa ((s.bar2Of fn).2 + off)) data.length a →
        ∃ t, exec (.bar2Write fn off data) s = .next t ∧ s.memHas t a data ∧
          t = { s with parishes := t.parishes, mem := t.mem, blkPoison := t.blkPoison })) ∧
    (∀ fn off n data, s.answers = true → s.fnLive fn = true → s.bar2Size fn < off + n → data.length = n →
      exec (.bar2Read fn off n) s = .next s ∧ exec (.bar2Write fn off data) s = .next s) ∧
    (∀ fn off n data, s.answers = true → s.fnLive fn = true → off + n ≤ s.bar2Size fn → data.length = n →
      ((s.bar2Of fn).1 = 0 ∨ s.isOpen (s.bar2Of fn).1 = false) →
      exec (.bar2Read fn off n) s = .next { s with
        ident := { s.ident with bar2Faults := satAdd s.ident.bar2Faults 1 }
        hostOut := s.hostOut ++ [.readData (List.replicate n 0xff) false] } ∧
      exec (.bar2Write fn off data) s = .next { s with ident := { s.ident with bar2Faults := satAdd s.ident.bar2Faults 1 } }) ∧
    (∀ fn k addr off x v, s.answers = true → s.fnLive fn = true → s.reachesBox fn k = true → off < 0x1000 → x = s.postbox k →
      (fn = 0 ∧ addr = 0x10000 + 0x1000 * k + off ∨ 0 < fn ∧ addr = 0x10000 + off) →
      (off = 0x008 → exec (.registerWrite (.host fn) addr v) s =
        .next (s.setPostbox k (if x.enable then x else { x with cmdBase := v &&& ~~~0x3f#64 }))) ∧
      (off = 0x010 → exec (.registerWrite (.host fn) addr v) s =
        .next (s.setPostbox k (if x.enable then x else { x with cplBase := v &&& ~~~0x1f#64 }))) ∧
      (off = 0x018 → exec (.registerWrite (.host fn) addr v) s = .next (s.setPostbox k (if x.enable then x else
        { x with cmdLog2 := BitVec.ofNat 4 (fieldOf v 0 4), cplLog2 := BitVec.ofNat 4 (fieldOf v 4 4) }))) ∧
      (off = 0x040 → exec (.registerWrite (.host fn) addr v) s = .next (s.setPostbox k { x with err := {
        ringFault := x.err.ringFault && !v.getLsbD 0, overrun := x.err.overrun && !v.getLsbD 1, config := x.err.config && !v.getLsbD 2
        noticeLost := x.err.noticeLost && !v.getLsbD 3 } })) ∧
      (off = 0x048 → exec (.registerWrite (.host fn) addr v) s = .next (s.setPostbox k { x with echo := v })) ∧
      ((off = 0x030 ∨ off = 0x038 ∨ off = 0x050) → exec (.registerWrite (.host fn) addr v) s = .next (s.setPostbox k x))) ∧
    (∀ fn addr v, s.answers = true → s.fnLive fn = true → addr % 8 = 0 →
      (0x30000 ≤ addr → addr < 0x30000 + 16 * (if fn = 0 then 17 else 2) →
        ∀ (i w : Nat) (t : State), i = (addr - 0x30000) / 8 → w = fn * 32 + i / 2 → t = { s with msix := s.msix.set (fn * 64 + i) v } →
          ((w ∉ s.msixPend ∨ t.msixMasked fn (i / 2) = true) → exec (.registerWrite (.host fn) addr v) s = .next t) ∧
          (w ∈ s.msixPend → t.msixMasked fn (i / 2) = false → exec (.registerWrite (.host fn) addr v) s = .next { t with
            msixPend := s.msixPend.erase w, hostOut := s.hostOut ++ [.msix fn (i / 2)] })) ∧
      (addr < 0x10000 ∨ 0x20000 ≤ addr ∧ addr < 0x30000 → exec (.registerWrite (.host fn) addr v) s = .next s)) ∧
    (∀ fn addr, s.answers = true → s.fnLive fn = true →
      (addr < 0x10000 → s.readBar0 fn addr = some (s.identReg addr)) ∧
      (∀ k off, off < 0x1000 → s.reachesBox fn k = true →
        (fn = 0 ∧ k < 16 ∧ addr = 0x10000 + 0x1000 * k + off ∨ 0 < fn ∧ k = fn ∧ addr = 0x10000 + off) → s.readBar0 fn addr = some (s.boxReg k off)) ∧
      (0 < fn → 0x11000 ≤ addr → addr < 0x30000 → s.readBar0 fn addr = some 0) ∧
      (fn = 0 → 0x20000 ≤ addr → addr < 0x30000 → s.readBar0 fn addr = some (s.logReg 0 (addr - 0x20000)))) ∧
    (∀ d addr off v, s.clocked = true → s.ident.power ≠ .deep → d < s.dieCount → off % 8 = 0 →
      (∀ i x, i < 3 → addr = 0x2000000 + 0x1000 * i + 0x18 → x = s.landing (3 * d + i) →
        exec (.registerWrite (.reeve d) addr v) s = .next (s.setLanding (3 * d + i) { x with sticky := {
          uncorr := x.sticky.uncorr && !v.getLsbD 0, crc := x.sticky.crc && !v.getLsbD 1
          replayLimit := x.sticky.replayLimit && !v.getLsbD 2, retrainFail := x.sticky.retrainFail && !v.getLsbD 3
          wiring := x.sticky.wiring && !v.getLsbD 4, failover := x.sticky.failover && !v.getLsbD 5 } })) ∧
      (∀ i, i < 18 → off < 0x10000 → addr = 0x100000 + 0x10000 * i + off →
        (s.unused ⟨d, i⟩ = false →
          exec (.registerWrite (.reeve d) addr v) s = .next ((s.wake ⟨d, i⟩).writeHamletReg ⟨d, i⟩ .reeve off v)) ∧
        (s.unused ⟨d, i⟩ = true → exec (.registerWrite (.reeve d) addr v) s = .next s)) ∧
      (∀ i, i < 4 → off < 0x40000 → addr = 0x800000 + 0x40000 * i + off →
        exec (.registerWrite (.reeve d) addr v) s = .next (s.writeParishReg ⟨d, i⟩ off v))) ∧
    (s.clocked = true → (∃ p, s.smbRead .level = some [1, s.gov.level.setWidth 8, p]) ∧
      (∃ p, s.smbRead .identState = some (8 :: toBytes 8 (s.identReg 0x18) ++ [p])) ∧
      (∃ p, s.smbRead .logSticky = some (8 :: toBytes 8 (s.logReg 0 0x008) ++ [p])) ∧
      ∃ p, s.smbRead .dieTemps =
        some (BitVec.ofNat 8 s.dieCount :: (List.range s.dieCount).map (fun d => BitVec.ofNat 8 (s.gov.temps.getD d 0)) ++ [p]))) ∧
  (∀ (s : State) (d : Nat), s.pins.porst = true → d < s.dieCount →
    (∀ a, ∃ t, exec (.ijtag d (.read .logbook a)) s = .next t ∧ t = { s with dies := t.dies } ∧
      (t.die d).tap.data = .network (toBytes 8 (s.logReg d (a / 8 * 8)))) ∧
    (∀ a, a < viewBase → a / 0xc000000000 < s.dieCount → a % 0xc000000000 < s.topPages (a / 0xc000000000) * 0x200000 →
      ∃ t, exec (.ijtag d (.read .debugPort a)) s = .next t ∧ t = { s with dies := t.dies } ∧
        (t.die d).tap.data = .network (if s.lifecycle = .test then [s.mem.read a] else [])) ∧
    (∀ p, ∃ t, exec (.ijtag d (.peek p)) s = .next t ∧ t = { s with dies := t.dies } ∧
      (t.die d).tap.data = .network (if s.lifecycle = .test then s.unitPeek p else [])) ∧
    (∀ p b, s.lifecycle ≠ .test → ∃ t, exec (.ijtag d (.poke p b)) s = .next t ∧ t = { s with dies := t.dies }) ∧
    (∀ h i b, s.lifecycle = .test → 0 < i → i < 32 → ∃ t, exec (.ijtag d (.poke (.scalar h i) b)) s = .next t ∧
      (t.hand h).s i = BitVec.ofNat 64 (recNat b 0 8)) ∧
    (∃ t, exec (.idcode d) s = .next t ∧ (t.die d).tap.data = .idcode (s.idcodeWord d) ∧ t = { s with dies := t.dies }) ∧
    (∀ v, s.lifecycle = .production → ∃ t, exec (.unlock d (.challenge v)) s = .next t ∧ (t.die d).tap.data = .nonce v ∧
      (t.die d).tap.nonce = some v ∧ t = { s with dies := t.dies }) ∧
    (∀ ok, s.lifecycle = .production → ∃ t, exec (.unlock d (.response ok)) s = .next t ∧ (t.die d).tap.nonce = none) ∧
    (s.lifecycle = .production → d = 0 → (s.die d).tap.nonce.isSome = true → s.clocked = true →
      (∀ j ∈ s.jobs.cells, j.2.live = false ∧ j.2.isEnding = false) →
      ∃ t, exec (.unlock d (.response true)) s = .next t ∧ t.lifecycle = .test ∧ t.ident.state = .undefined ∧ t.keySlots = {} ∧
        t.households = {} ∧ t.ledger = {} ∧ t.sessions = {} ∧ t.deepSave = none ∧ t.deepWake = false ∧ t.logNext = s.logNext + 1) ∧
    (s.lifecycle = .production → ∃ t, exec (.lockFuse d) s = .next t ∧ t.lifecycle = .locked ∧ t.logNext = s.logNext + 1) ∧
    (s.lifecycle ≠ .production → exec (.lockFuse d) s = .next s) ∧
    (d < 8 → bitsOf (s.idcodeWord d).toNat 0 1 = 1 ∧ bitsOf (s.idcodeWord d).toNat 1 11 = Config.jedecId.toNat ∧
      bitsOf (s.idcodeWord d).toNat 12 16 = 0x88d0 + d ∧
      bitsOf (s.idcodeWord d).toNat 28 4 = (match s.part.stepping with | .a0 => 0 | .b0 => 1)))

/-- The model's choice: one command is one step, and time passes on an empty queue (log entry 11). The clock is that of R365. -/
def Obligations.StepRunsTheFrontCommand : Prop :=
  (∀ (c : Instr) (rest : List Instr) (s : State), s.pending = c :: rest → step s = exec c { s with pending := rest }) ∧
  (∀ s : State, s.pending = [] → s.clocked = false → step s = .next s) ∧
  (∀ s : State, s.pending = [] → s.clocked = true →
    (s.ident.power = .deep → step s = .next { s with clock := s.clock + 1 }) ∧
    ∃ t, step s = .next t ∧ t.clock = s.clock + 1 ∧ t = { s with clock := t.clock, mclk := t.mclk, hamlets := t.hamlets })

/-- R4, R13: a host error never stops the part. The canonical form of memory is the model's (log entry 4); the part is chosen once (log entry 1). -/
def Obligations.CommandsKeepCanonicalMemory : Prop :=
  (∀ (c : Instr) (s : State), ∃ t, exec c s = .next t) ∧
  (∀ (c : Instr) (s t : State), exec c s = .next t → (s.canonical → t.canonical) ∧ t.pending = s.pending ∧ t.part = s.part) ∧
  (∀ s t : State, s.canonical → step s = .next t → t.canonical ∧ t.part = s.part)

/-- The values of R213, R257, R337 and R338. That memory is empty is the model's choice (log entries 4 and 5). -/
def Obligations.ResetStateIsColdAndCanonical : Prop :=
  State.reset.canonical ∧ State.reset.mem = [] ∧ State.reset.hostMem = [] ∧ State.reset.pending = [] ∧
    State.reset.ident.state = .boot ∧ State.reset.ident.power = .run ∧ State.reset.ident.heartbeat = 0 ∧ State.reset.ident.bar2Faults = 0 ∧
    State.reset.clock = 0 ∧ (∀ k, State.reset.postbox k = {} ∧ ∀ off, State.reset.boxReg k off = 0) ∧
    State.reset.settings.lcCap = 12 ∧ State.reset.settings.backFloor = 1 ∧ State.reset.settings.detMode = 1 ∧ State.reset.settings.lotSeed = 0 ∧
    State.reset.households = {} ∧ State.reset.jobs = {} ∧ State.reset.sessions = {} ∧ State.reset.tensors = {} ∧ State.reset.keySlots = {} ∧
    State.reset.pressSlots = {}
end

