-- ==== Sys2Proof/Laws/Memory.lean ====
section
/-! SUPPORT. Laws of the containers: tables read back what was set, byte memory reads back what was written, and every memory
operation keeps the canonical form. -/

namespace Sys2Proof.Machine

variable {α : Type}

/-! ## Tables -/

theorem lookupCell_insertCell_same (l : List (Nat × α)) (k : Nat) (v : α) : lookupCell (insertCell l k v) k = some v := by
  induction l with
  | nil => simp [insertCell, lookupCell]
  | cons c t ih =>
    obtain ⟨a, x⟩ := c
    simp only [insertCell]
    split
    · simp [lookupCell]
    · split
      · simp [lookupCell]
      · simp only [lookupCell]
        rw [if_neg (by omega), if_neg (by omega)]
        exact ih

theorem lookupCell_insertCell_ne (l : List (Nat × α)) {k k' : Nat} (v : α) (h : k' ≠ k) :
    lookupCell (insertCell l k v) k' = lookupCell l k' := by
  induction l with
  | nil =>
    simp [insertCell, lookupCell, h]
  | cons c t ih =>
    obtain ⟨a, x⟩ := c
    simp only [insertCell]
    split
    · simp only [lookupCell]
      by_cases h1 : k' < k
      · rw [if_pos h1, if_pos (by omega)]
      · rw [if_neg h1, if_neg h]
    · split
      · subst k
        simp only [lookupCell, if_neg h]
      · simp only [lookupCell, ih]

/-- What a table lists at a key is one of its cells. -/
theorem lookupCell_mem (l : List (Nat × α)) {k : Nat} {v : α} (h : lookupCell l k = some v) : (k, v) ∈ l := by
  induction l with
  | nil => simp [lookupCell] at h
  | cons c t ih =>
    obtain ⟨a, x⟩ := c
    simp only [lookupCell] at h
    split at h
    · cases h
    · split at h
      · rename_i hk
        simp_all
      · exact List.mem_cons_of_mem _ (ih h)

theorem Tab.find_mem (t : Tab α) {k : Nat} {v : α} (h : t.find k = some v) : (k, v) ∈ t.cells := lookupCell_mem _ h

@[simp] theorem Tab.find_set_same (t : Tab α) (k : Nat) (v : α) : (t.set k v).find k = some v := lookupCell_insertCell_same _ _ _

@[simp] theorem Tab.find_set_ne (t : Tab α) {k k' : Nat} (v : α) (h : k' ≠ k) : (t.set k v).find k' = t.find k' :=
  lookupCell_insertCell_ne _ _ h

@[simp] theorem Tab.get_set_same (t : Tab α) (d v : α) (k : Nat) : (t.set k v).get d k = v := by simp [Tab.get]

@[simp] theorem Tab.get_set_ne (t : Tab α) (d v : α) {k k' : Nat} (h : k' ≠ k) : (t.set k v).get d k' = t.get d k' := by
  simp [Tab.get, h]

theorem lookupCell_map (f : Nat → α → α) (l : List (Nat × α)) (k : Nat) :
    lookupCell (l.map fun c => (c.1, f c.1 c.2)) k = (lookupCell l k).map (f k) := by
  induction l with
  | nil => rfl
  | cons c t ih =>
    obtain ⟨a, x⟩ := c
    simp only [List.map_cons, lookupCell]
    split
    · rfl
    · split
      · subst k
        rfl
      · exact ih

@[simp] theorem Tab.find_mapV (f : Nat → α → α) (t : Tab α) (k : Nat) : (t.mapV f).find k = (t.find k).map (f k) := lookupCell_map _ _ _

/-! ## Canonical form -/

/-- Cells that all lie at `n` or above. -/
def Memory.above (n : Nat) (m : Memory) : Prop := ∀ c ∈ m, n ≤ c.1

theorem Memory.wf_cons {c : Host.Cell} {t : Memory} :
    Memory.wf (c :: t) = true ↔ c.2 ≠ Memory.unlisted ∧ Memory.above (c.1 + 1) t ∧ Memory.wf t = true := by
  induction t generalizing c with
  | nil => simp [Memory.wf, Memory.above]
  | cons d t ih =>
    have hd := @ih d
    simp only [Memory.wf, Bool.and_eq_true, bne_iff_ne, decide_eq_true_eq]
    constructor
    · rintro ⟨⟨h1, h2⟩, h3⟩
      refine ⟨h1, ?_, h3⟩
      have h4 := (hd.1 h3).2.1
      intro x hx
      rcases List.mem_cons.1 hx with rfl | hx
      · omega
      · have := h4 x hx
        omega
    · rintro ⟨h1, h2, h3⟩
      exact ⟨⟨h1, by have := h2 d (List.mem_cons_self ..); omega⟩, h3⟩

theorem Memory.wf_filter (p : Host.Cell → Bool) {m : Memory} (h : m.wf = true) : Memory.wf (m.filter p) = true := by
  induction m with
  | nil => rfl
  | cons c t ih =>
    obtain ⟨h1, h2, h3⟩ := Memory.wf_cons.1 h
    simp only [List.filter_cons]
    split
    · exact Memory.wf_cons.2 ⟨h1, fun x hx => h2 x (List.mem_filter.1 hx).1, ih h3⟩
    · exact ih h3

theorem Memory.wf_append {l r : Memory} {n : Nat} (hl : l.wf = true) (hr : r.wf = true) (hln : ∀ c ∈ l, c.1 < n) (hrn : Memory.above n r) :
    Memory.wf (l ++ r) = true := by
  induction l with
  | nil => exact hr
  | cons c t ih =>
    obtain ⟨h1, h2, h3⟩ := Memory.wf_cons.1 hl
    refine Memory.wf_cons.2 ⟨h1, ?_, ih h3 fun x hx => hln x (List.mem_cons_of_mem _ hx)⟩
    intro x hx
    rcases List.mem_append.1 hx with hx | hx
    · exact h2 x hx
    · have h4 := hrn x hx
      have h5 := hln c (List.mem_cons_self ..)
      omega

theorem cellsOf_range (l : List Byte) (a : Nat) : ∀ c ∈ cellsOf a l, a ≤ c.1 ∧ c.1 < a + l.length := by
  induction l generalizing a with
  | nil => simp [cellsOf]
  | cons b t ih =>
    intro c hc
    simp only [cellsOf] at hc
    split at hc
    · have := ih _ c hc
      simp only [List.length_cons]
      omega
    · rcases List.mem_cons.1 hc with rfl | hc
      · simp
      · have := ih _ c hc
        simp only [List.length_cons]
        omega

theorem cellsOf_wf (l : List Byte) (a : Nat) : (cellsOf a l).wf = true := by
  induction l generalizing a with
  | nil => rfl
  | cons b t ih =>
    simp only [cellsOf]
    split
    · exact ih _
    · exact Memory.wf_cons.2 ⟨‹_›, fun c hc => (cellsOf_range t _ c hc).1, ih _⟩

/-- Bytes written keep the canonical form. -/
theorem Memory.wf_writeBytes {m : Memory} (a : Nat) (l : List Byte) (h : m.wf = true) : (m.writeBytes a l).wf = true := by
  refine Memory.wf_append (n := a + l.length)
    (Memory.wf_append (n := a) (Memory.wf_filter _ h) (cellsOf_wf l a) ?_ fun c hc => (cellsOf_range l a c hc).1)
    (Memory.wf_filter _ h) ?_ ?_
  · intro c hc
    simpa using (List.mem_filter.1 hc).2
  · intro c hc
    rcases List.mem_append.1 hc with hc | hc
    · have : c.1 < a := by simpa using (List.mem_filter.1 hc).2
      omega
    · exact (cellsOf_range l a c hc).2
  · intro c hc
    simpa using (List.mem_filter.1 hc).2

theorem eraseCell_mem (l : List (Nat × α)) (k : Nat) : ∀ c ∈ eraseCell l k, c ∈ l := by
  induction l with
  | nil => simp [eraseCell]
  | cons c t ih =>
    intro d hd
    simp only [eraseCell] at hd
    split at hd
    · exact hd
    · split at hd
      · exact List.mem_cons_of_mem _ hd
      · rcases List.mem_cons.1 hd with rfl | hd
        · exact List.mem_cons_self ..
        · exact List.mem_cons_of_mem _ (ih d hd)

theorem insertCell_mem (l : List (Nat × α)) (k : Nat) (v : α) : ∀ c ∈ insertCell l k v, c = (k, v) ∨ c ∈ l := by
  induction l with
  | nil => simp [insertCell]
  | cons c t ih =>
    intro d hd
    simp only [insertCell] at hd
    split at hd
    · simpa using hd
    · split at hd
      · rcases List.mem_cons.1 hd with rfl | hd
        · exact .inl rfl
        · exact .inr (List.mem_cons_of_mem _ hd)
      · rcases List.mem_cons.1 hd with rfl | hd
        · exact .inr (List.mem_cons_self ..)
        · exact (ih d hd).imp id (List.mem_cons_of_mem _)

/-- One byte written keeps the canonical form. -/
theorem Memory.wf_write {m : Memory} (a : Nat) (b : Byte) (h : m.wf = true) : (m.write a b).wf = true := by
  unfold Memory.write
  split
  · induction m with
    | nil => rfl
    | cons c t ih =>
      obtain ⟨h1, h2, h3⟩ := Memory.wf_cons.1 h
      simp only [eraseCell]
      split
      · exact h
      · split
        · exact h3
        · exact Memory.wf_cons.2 ⟨h1, fun x hx => h2 x (eraseCell_mem t a x hx), ih h3⟩
  · induction m with
    | nil => simpa [insertCell, Memory.wf]
    | cons c t ih =>
      obtain ⟨h1, h2, h3⟩ := Memory.wf_cons.1 h
      simp only [insertCell]
      split
      · refine Memory.wf_cons.2 ⟨‹_›, ?_, h⟩
        intro x hx
        rcases List.mem_cons.1 hx with rfl | hx
        · simp only; omega
        · have := h2 x hx
          simp only; omega
      · split
        · subst a
          exact Memory.wf_cons.2 ⟨‹_›, h2, h3⟩
        · refine Memory.wf_cons.2 ⟨h1, ?_, ih h3⟩
          intro x hx
          rcases insertCell_mem t a b x hx with rfl | hx
          · simp only; omega
          · exact h2 x hx

/-- A zeroed range keeps the canonical form. -/
theorem Memory.wf_zero {m : Memory} (a n : Nat) (h : m.wf = true) : (m.zero a n).wf = true := Memory.wf_filter _ h

/-! ## Reads -/

theorem lookupCell_none_of_above {m : Memory} {k : Nat} (h : Memory.above (k + 1) m) : lookupCell m k = none := by
  cases m with
  | nil => rfl
  | cons c t =>
    have := h c (List.mem_cons_self ..)
    simp only [lookupCell]
    rw [if_pos (by omega)]

theorem lookupCell_filter (p : Host.Cell → Bool) {m : Memory} (h : m.wf = true) (k : Nat) (hp : ∀ b, p (k, b) = true) :
    lookupCell (m.filter p) k = lookupCell m k := by
  induction m with
  | nil => rfl
  | cons c t ih =>
    obtain ⟨-, h2, h3⟩ := Memory.wf_cons.1 h
    obtain ⟨a, x⟩ := c
    simp only [List.filter_cons]
    split
    · simp only [lookupCell, ih h3]
    · simp only [ih h3, lookupCell]
      split
      · exact lookupCell_none_of_above fun y hy => by have := h2 y hy; simp only at this; omega
      · split
        · subst k
          exact absurd (hp x) ‹_›
        · rfl

theorem lookupCell_append_left {l r : Memory} {k n : Nat} (hl : l.wf = true) (hk : k < n) (hr : Memory.above n r) :
    lookupCell (l ++ r) k = lookupCell l k := by
  induction l with
  | nil => exact lookupCell_none_of_above fun y hy => by have := hr y hy; omega
  | cons c t ih =>
    obtain ⟨a, x⟩ := c
    simp only [List.cons_append, lookupCell, ih (Memory.wf_cons.1 hl).2.2]

theorem lookupCell_append_right {l r : Memory} {k : Nat} (hl : ∀ c ∈ l, c.1 < k) : lookupCell (l ++ r) k = lookupCell r k := by
  induction l with
  | nil => rfl
  | cons c t ih =>
    obtain ⟨a, x⟩ := c
    have := hl _ (List.mem_cons_self ..)
    simp only at this
    simp only [List.cons_append, lookupCell]
    rw [if_neg (by omega), if_neg (by omega), ih fun y hy => hl y (List.mem_cons_of_mem _ hy)]

theorem read_cellsOf (l : List Byte) (a i : Nat) (h : i < l.length) : (cellsOf a l).read (a + i) = l[i] := by
  induction l generalizing a i with
  | nil => simp at h
  | cons b t ih =>
    simp only [cellsOf]
    cases i with
    | zero =>
      split
      · rename_i hb
        simp only [Memory.read, Nat.add_zero, List.getElem_cons_zero]
        rw [lookupCell_none_of_above fun y hy => (cellsOf_range t _ y hy).1]
        exact hb.symm
      · simp [Memory.read, lookupCell]
    | succ i =>
      have hi : i < t.length := by simpa using h
      have hs := ih (a + 1) i hi
      rw [show a + 1 + i = a + (i + 1) by omega] at hs
      split
      · simpa using hs
      · simp only [Memory.read, lookupCell] at hs ⊢
        rw [if_neg (by omega), if_neg (by omega)]
        simpa using hs

/-- A byte inside the written run reads as it was written. -/
theorem Memory.read_writeBytes_in (m : Memory) (a : Nat) (l : List Byte) (i : Nat) (hi : i < l.length) :
    (m.writeBytes a l).read (a + i) = l[i] := by
  rw [← read_cellsOf l a i hi]
  unfold Memory.read Memory.writeBytes
  rw [List.append_assoc, lookupCell_append_right, lookupCell_append_left (n := a + l.length) (cellsOf_wf l a) (by omega)]
  · intro c hc
    simpa using (List.mem_filter.1 hc).2
  · intro c hc
    have : c.1 < a := by simpa using (List.mem_filter.1 hc).2
    omega

/-- A byte outside the written run reads as before. -/
theorem Memory.read_writeBytes_out {m : Memory} (h : m.wf = true) (a : Nat) (l : List Byte) (k : Nat) (hk : k < a ∨ a + l.length ≤ k) :
    (m.writeBytes a l).read k = m.read k := by
  unfold Memory.read Memory.writeBytes
  congr 1
  rcases hk with hk | hk
  · rw [List.append_assoc, lookupCell_append_left (n := a) (Memory.wf_filter _ h) hk, lookupCell_filter _ h]
    · intro b
      simpa using hk
    · intro c hc
      rcases List.mem_append.1 hc with hc | hc
      · exact (cellsOf_range l a c hc).1
      · have : a + l.length ≤ c.1 := by simpa using (List.mem_filter.1 hc).2
        omega
  · rw [lookupCell_append_right, lookupCell_filter _ h]
    · intro b
      simpa using hk
    · intro c hc
      rcases List.mem_append.1 hc with hc | hc
      · have : c.1 < a := by simpa using (List.mem_filter.1 hc).2
        omega
      · have := cellsOf_range l a c hc
        omega

theorem bytesFrom_eq (n a : Nat) {m : Memory} (h : m.wf = true) (ha : Memory.above a m) :
    bytesFrom n a m = (List.range n).map fun i => m.read (a + i) := by
  induction n generalizing a m with
  | zero => rfl
  | succ n ih =>
    rw [List.range_succ_eq_map, List.map_cons, List.map_map]
    have shift : ∀ q : Memory, ((fun i => q.read (a + i)) ∘ Nat.succ) = fun i => q.read (a + 1 + i) := by
      intro q
      funext i
      simp only [Function.comp, Nat.succ_eq_add_one]
      congr 1
      omega
    cases m with
    | nil =>
      rw [shift]
      simp only [bytesFrom, ih (a + 1) (m := []) rfl (by intro c hc; simp at hc)]
      rfl
    | cons c t =>
      obtain ⟨k, b⟩ := c
      obtain ⟨-, h2, h3⟩ := Memory.wf_cons.1 h
      have hk : a ≤ k := ha _ (List.mem_cons_self ..)
      have h2' : Memory.above (k + 1) t := h2
      by_cases hka : k = a
      · subst k
        rw [shift]
        simp only [bytesFrom, if_true, ih (a + 1) h3 h2']
        refine congrArg₂ _ (by simp [Memory.read, lookupCell]) (List.map_congr_left fun i _ => ?_)
        simp only [Memory.read, lookupCell]
        rw [if_neg (by omega), if_neg (by omega)]
      · have hge : Memory.above (a + 1) ((k, b) :: t) := by
          intro x hx
          rcases List.mem_cons.1 hx with rfl | hx
          · simp only; omega
          · have := h2' x hx
            omega
        rw [shift]
        simp only [bytesFrom, if_neg hka, ih (a + 1) h hge]
        refine congrArg₂ _ ?_ rfl
        simp only [Memory.read, lookupCell]
        rw [if_pos (by omega)]
        rfl

/-- A run reads byte by byte. -/
theorem Memory.readBytes_eq {m : Memory} (h : m.wf = true) (a n : Nat) : m.readBytes a n = (List.range n).map fun i => m.read (a + i) := by
  unfold Memory.readBytes
  rw [bytesFrom_eq n a (Memory.wf_filter _ h) fun c hc => by simpa using (List.mem_filter.1 hc).2]
  refine List.map_congr_left fun i _ => ?_
  unfold Memory.read
  rw [lookupCell_filter _ h]
  intro b
  simp

@[simp] theorem bytesFrom_length (n a : Nat) (m : Memory) : (bytesFrom n a m).length = n := by
  induction n generalizing a m with
  | zero => rfl
  | succ n ih =>
    cases m with
    | nil => simp [bytesFrom, ih]
    | cons c t =>
      simp only [bytesFrom]
      split <;> simp [ih]

@[simp] theorem Memory.readBytes_length (m : Memory) (a n : Nat) : (m.readBytes a n).length = n := bytesFrom_length ..

/-- A run that was written reads back. -/
theorem Memory.readBytes_writeBytes {m : Memory} (h : m.wf = true) (a : Nat) (l : List Byte) :
    (m.writeBytes a l).readBytes a l.length = l := by
  rw [Memory.readBytes_eq (Memory.wf_writeBytes a l h)]
  refine List.ext_getElem (by simp) fun i h1 h2 => ?_
  simp [Memory.read_writeBytes_in m a l i h2]

/-- A run that a write does not touch reads as before. -/
theorem Memory.readBytes_writeBytes_ne {m : Memory} (h : m.wf = true) {a b n : Nat} {l : List Byte} (hd : b + n ≤ a ∨ a + l.length ≤ b) :
    (m.writeBytes a l).readBytes b n = m.readBytes b n := by
  rw [Memory.readBytes_eq (Memory.wf_writeBytes a l h), Memory.readBytes_eq h]
  refine List.map_congr_left fun i hi => ?_
  rw [List.mem_range] at hi
  exact Memory.read_writeBytes_out h _ _ _ (by omega)

/-- A run of known length that was written reads back. -/
theorem Memory.readBytes_written {m : Memory} (h : m.wf = true) (a : Nat) {l : List Byte} {n : Nat} (hn : l.length = n) :
    (m.writeBytes a l).readBytes a n = l := by
  subst hn
  exact Memory.readBytes_writeBytes h a l

end Sys2Proof.Machine
end

