-- ==== Sys2Proof/Laws/State.lean ====
section
/-! SUPPORT. Laws of State: what each basic update leaves unchanged, field by field, and what the accessors read after it. -/

namespace Sys2Proof.Machine

variable (s : State)

/-! setHamlet -/

@[simp] theorem State.setHamlet_part (m : HamletRef) (x : Hamlet) : (s.setHamlet m x).part = s.part := rfl
@[simp] theorem State.setHamlet_ident (m : HamletRef) (x : Hamlet) : (s.setHamlet m x).ident = s.ident := rfl
@[simp] theorem State.setHamlet_clock (m : HamletRef) (x : Hamlet) : (s.setHamlet m x).clock = s.clock := rfl
@[simp] theorem State.setHamlet_mclk (m : HamletRef) (x : Hamlet) : (s.setHamlet m x).mclk = s.mclk := rfl
@[simp] theorem State.setHamlet_mem (m : HamletRef) (x : Hamlet) : (s.setHamlet m x).mem = s.mem := rfl
@[simp] theorem State.setHamlet_sramPoison (m : HamletRef) (x : Hamlet) : (s.setHamlet m x).sramPoison = s.sramPoison := rfl
@[simp] theorem State.setHamlet_blkPoison (m : HamletRef) (x : Hamlet) : (s.setHamlet m x).blkPoison = s.blkPoison := rfl
@[simp] theorem State.setHamlet_hostMem (m : HamletRef) (x : Hamlet) : (s.setHamlet m x).hostMem = s.hostMem := rfl
@[simp] theorem State.setHamlet_hostDeny (m : HamletRef) (x : Hamlet) : (s.setHamlet m x).hostDeny = s.hostDeny := rfl
@[simp] theorem State.setHamlet_settings (m : HamletRef) (x : Hamlet) : (s.setHamlet m x).settings = s.settings := rfl
@[simp] theorem State.setHamlet_gov (m : HamletRef) (x : Hamlet) : (s.setHamlet m x).gov = s.gov := rfl
@[simp] theorem State.setHamlet_activity (m : HamletRef) (x : Hamlet) : (s.setHamlet m x).activity = s.activity := rfl
@[simp] theorem State.setHamlet_parishes (m : HamletRef) (x : Hamlet) : (s.setHamlet m x).parishes = s.parishes := rfl
@[simp] theorem State.setHamlet_controllers (m : HamletRef) (x : Hamlet) : (s.setHamlet m x).controllers = s.controllers := rfl
@[simp] theorem State.setHamlet_landings (m : HamletRef) (x : Hamlet) : (s.setHamlet m x).landings = s.landings := rfl
@[simp] theorem State.setHamlet_dies (m : HamletRef) (x : Hamlet) : (s.setHamlet m x).dies = s.dies := rfl
@[simp] theorem State.setHamlet_pressSlots (m : HamletRef) (x : Hamlet) : (s.setHamlet m x).pressSlots = s.pressSlots := rfl
@[simp] theorem State.setHamlet_pressPend (m : HamletRef) (x : Hamlet) : (s.setHamlet m x).pressPend = s.pressPend := rfl
@[simp] theorem State.setHamlet_keySlots (m : HamletRef) (x : Hamlet) : (s.setHamlet m x).keySlots = s.keySlots := rfl
@[simp] theorem State.setHamlet_households (m : HamletRef) (x : Hamlet) : (s.setHamlet m x).households = s.households := rfl
@[simp] theorem State.setHamlet_jobs (m : HamletRef) (x : Hamlet) : (s.setHamlet m x).jobs = s.jobs := rfl
@[simp] theorem State.setHamlet_sessions (m : HamletRef) (x : Hamlet) : (s.setHamlet m x).sessions = s.sessions := rfl
@[simp] theorem State.setHamlet_ledger (m : HamletRef) (x : Hamlet) : (s.setHamlet m x).ledger = s.ledger := rfl
@[simp] theorem State.setHamlet_nextSeq (m : HamletRef) (x : Hamlet) : (s.setHamlet m x).nextSeq = s.nextSeq := rfl
@[simp] theorem State.setHamlet_adapters (m : HamletRef) (x : Hamlet) : (s.setHamlet m x).adapters = s.adapters := rfl
@[simp] theorem State.setHamlet_grammars (m : HamletRef) (x : Hamlet) : (s.setHamlet m x).grammars = s.grammars := rfl
@[simp] theorem State.setHamlet_tensors (m : HamletRef) (x : Hamlet) : (s.setHamlet m x).tensors = s.tensors := rfl
@[simp] theorem State.setHamlet_postboxes (m : HamletRef) (x : Hamlet) : (s.setHamlet m x).postboxes = s.postboxes := rfl
@[simp] theorem State.setHamlet_noticeQ (m : HamletRef) (x : Hamlet) : (s.setHamlet m x).noticeQ = s.noticeQ := rfl
@[simp] theorem State.setHamlet_numVFs (m : HamletRef) (x : Hamlet) : (s.setHamlet m x).numVFs = s.numVFs := rfl
@[simp] theorem State.setHamlet_bar2Household (m : HamletRef) (x : Hamlet) : (s.setHamlet m x).bar2Household = s.bar2Household := rfl
@[simp] theorem State.setHamlet_bar2Base (m : HamletRef) (x : Hamlet) : (s.setHamlet m x).bar2Base = s.bar2Base := rfl
@[simp] theorem State.setHamlet_msix (m : HamletRef) (x : Hamlet) : (s.setHamlet m x).msix = s.msix := rfl
@[simp] theorem State.setHamlet_hostOut (m : HamletRef) (x : Hamlet) : (s.setHamlet m x).hostOut = s.hostOut := rfl
@[simp] theorem State.setHamlet_pins (m : HamletRef) (x : Hamlet) : (s.setHamlet m x).pins = s.pins := rfl
@[simp] theorem State.setHamlet_resetStep (m : HamletRef) (x : Hamlet) : (s.setHamlet m x).resetStep = s.resetStep := rfl
@[simp] theorem State.setHamlet_lifecycle (m : HamletRef) (x : Hamlet) : (s.setHamlet m x).lifecycle = s.lifecycle := rfl
@[simp] theorem State.setHamlet_torus (m : HamletRef) (x : Hamlet) : (s.setHamlet m x).torus = s.torus := rfl
@[simp] theorem State.setHamlet_logNext (m : HamletRef) (x : Hamlet) : (s.setHamlet m x).logNext = s.logNext := rfl
@[simp] theorem State.setHamlet_logRing (m : HamletRef) (x : Hamlet) : (s.setHamlet m x).logRing = s.logRing := rfl
@[simp] theorem State.setHamlet_bellFlight (m : HamletRef) (x : Hamlet) : (s.setHamlet m x).bellFlight = s.bellFlight := rfl
@[simp] theorem State.setHamlet_deepSave (m : HamletRef) (x : Hamlet) : (s.setHamlet m x).deepSave = s.deepSave := rfl
@[simp] theorem State.setHamlet_deepWake (m : HamletRef) (x : Hamlet) : (s.setHamlet m x).deepWake = s.deepWake := rfl
@[simp] theorem State.setHamlet_reload (m : HamletRef) (x : Hamlet) : (s.setHamlet m x).reload = s.reload := rfl
@[simp] theorem State.setHamlet_defects (m : HamletRef) (x : Hamlet) : (s.setHamlet m x).defects = s.defects := rfl
@[simp] theorem State.setHamlet_sieves (m : HamletRef) (x : Hamlet) : (s.setHamlet m x).sieves = s.sieves := rfl
@[simp] theorem State.setHamlet_msixPend (m : HamletRef) (x : Hamlet) : (s.setHamlet m x).msixPend = s.msixPend := rfl
@[simp] theorem State.setHamlet_bar2Log2 (m : HamletRef) (x : Hamlet) : (s.setHamlet m x).bar2Log2 = s.bar2Log2 := rfl
@[simp] theorem State.setHamlet_stranded (m : HamletRef) (x : Hamlet) : (s.setHamlet m x).stranded = s.stranded := rfl
@[simp] theorem State.setHamlet_cut (m : HamletRef) (x : Hamlet) : (s.setHamlet m x).cut = s.cut := rfl
@[simp] theorem State.setHamlet_rails (m : HamletRef) (x : Hamlet) : (s.setHamlet m x).rails = s.rails := rfl
@[simp] theorem State.setHamlet_pcieSris (m : HamletRef) (x : Hamlet) : (s.setHamlet m x).pcieSris = s.pcieSris := rfl
@[simp] theorem State.setHamlet_fetchNext (m : HamletRef) (x : Hamlet) : (s.setHamlet m x).fetchNext = s.fetchNext := rfl
@[simp] theorem State.setHamlet_stopped (m : HamletRef) (x : Hamlet) : (s.setHamlet m x).stopped = s.stopped := rfl
@[simp] theorem State.setHamlet_freeCtr (m : HamletRef) (x : Hamlet) : (s.setHamlet m x).freeCtr = s.freeCtr := rfl
@[simp] theorem State.setHamlet_pending (m : HamletRef) (x : Hamlet) : (s.setHamlet m x).pending = s.pending := rfl

/-! modHamlet -/

@[simp] theorem State.modHamlet_part (m : HamletRef) (f : Hamlet → Hamlet) : (s.modHamlet m f).part = s.part := rfl
@[simp] theorem State.modHamlet_ident (m : HamletRef) (f : Hamlet → Hamlet) : (s.modHamlet m f).ident = s.ident := rfl
@[simp] theorem State.modHamlet_clock (m : HamletRef) (f : Hamlet → Hamlet) : (s.modHamlet m f).clock = s.clock := rfl
@[simp] theorem State.modHamlet_mclk (m : HamletRef) (f : Hamlet → Hamlet) : (s.modHamlet m f).mclk = s.mclk := rfl
@[simp] theorem State.modHamlet_mem (m : HamletRef) (f : Hamlet → Hamlet) : (s.modHamlet m f).mem = s.mem := rfl
@[simp] theorem State.modHamlet_sramPoison (m : HamletRef) (f : Hamlet → Hamlet) : (s.modHamlet m f).sramPoison = s.sramPoison := rfl
@[simp] theorem State.modHamlet_blkPoison (m : HamletRef) (f : Hamlet → Hamlet) : (s.modHamlet m f).blkPoison = s.blkPoison := rfl
@[simp] theorem State.modHamlet_hostMem (m : HamletRef) (f : Hamlet → Hamlet) : (s.modHamlet m f).hostMem = s.hostMem := rfl
@[simp] theorem State.modHamlet_hostDeny (m : HamletRef) (f : Hamlet → Hamlet) : (s.modHamlet m f).hostDeny = s.hostDeny := rfl
@[simp] theorem State.modHamlet_settings (m : HamletRef) (f : Hamlet → Hamlet) : (s.modHamlet m f).settings = s.settings := rfl
@[simp] theorem State.modHamlet_gov (m : HamletRef) (f : Hamlet → Hamlet) : (s.modHamlet m f).gov = s.gov := rfl
@[simp] theorem State.modHamlet_activity (m : HamletRef) (f : Hamlet → Hamlet) : (s.modHamlet m f).activity = s.activity := rfl
@[simp] theorem State.modHamlet_parishes (m : HamletRef) (f : Hamlet → Hamlet) : (s.modHamlet m f).parishes = s.parishes := rfl
@[simp] theorem State.modHamlet_controllers (m : HamletRef) (f : Hamlet → Hamlet) : (s.modHamlet m f).controllers = s.controllers := rfl
@[simp] theorem State.modHamlet_landings (m : HamletRef) (f : Hamlet → Hamlet) : (s.modHamlet m f).landings = s.landings := rfl
@[simp] theorem State.modHamlet_dies (m : HamletRef) (f : Hamlet → Hamlet) : (s.modHamlet m f).dies = s.dies := rfl
@[simp] theorem State.modHamlet_pressSlots (m : HamletRef) (f : Hamlet → Hamlet) : (s.modHamlet m f).pressSlots = s.pressSlots := rfl
@[simp] theorem State.modHamlet_pressPend (m : HamletRef) (f : Hamlet → Hamlet) : (s.modHamlet m f).pressPend = s.pressPend := rfl
@[simp] theorem State.modHamlet_keySlots (m : HamletRef) (f : Hamlet → Hamlet) : (s.modHamlet m f).keySlots = s.keySlots := rfl
@[simp] theorem State.modHamlet_households (m : HamletRef) (f : Hamlet → Hamlet) : (s.modHamlet m f).households = s.households := rfl
@[simp] theorem State.modHamlet_jobs (m : HamletRef) (f : Hamlet → Hamlet) : (s.modHamlet m f).jobs = s.jobs := rfl
@[simp] theorem State.modHamlet_sessions (m : HamletRef) (f : Hamlet → Hamlet) : (s.modHamlet m f).sessions = s.sessions := rfl
@[simp] theorem State.modHamlet_ledger (m : HamletRef) (f : Hamlet → Hamlet) : (s.modHamlet m f).ledger = s.ledger := rfl
@[simp] theorem State.modHamlet_nextSeq (m : HamletRef) (f : Hamlet → Hamlet) : (s.modHamlet m f).nextSeq = s.nextSeq := rfl
@[simp] theorem State.modHamlet_adapters (m : HamletRef) (f : Hamlet → Hamlet) : (s.modHamlet m f).adapters = s.adapters := rfl
@[simp] theorem State.modHamlet_grammars (m : HamletRef) (f : Hamlet → Hamlet) : (s.modHamlet m f).grammars = s.grammars := rfl
@[simp] theorem State.modHamlet_tensors (m : HamletRef) (f : Hamlet → Hamlet) : (s.modHamlet m f).tensors = s.tensors := rfl
@[simp] theorem State.modHamlet_postboxes (m : HamletRef) (f : Hamlet → Hamlet) : (s.modHamlet m f).postboxes = s.postboxes := rfl
@[simp] theorem State.modHamlet_noticeQ (m : HamletRef) (f : Hamlet → Hamlet) : (s.modHamlet m f).noticeQ = s.noticeQ := rfl
@[simp] theorem State.modHamlet_numVFs (m : HamletRef) (f : Hamlet → Hamlet) : (s.modHamlet m f).numVFs = s.numVFs := rfl
@[simp] theorem State.modHamlet_bar2Household (m : HamletRef) (f : Hamlet → Hamlet) : (s.modHamlet m f).bar2Household = s.bar2Household := rfl
@[simp] theorem State.modHamlet_bar2Base (m : HamletRef) (f : Hamlet → Hamlet) : (s.modHamlet m f).bar2Base = s.bar2Base := rfl
@[simp] theorem State.modHamlet_msix (m : HamletRef) (f : Hamlet → Hamlet) : (s.modHamlet m f).msix = s.msix := rfl
@[simp] theorem State.modHamlet_hostOut (m : HamletRef) (f : Hamlet → Hamlet) : (s.modHamlet m f).hostOut = s.hostOut := rfl
@[simp] theorem State.modHamlet_pins (m : HamletRef) (f : Hamlet → Hamlet) : (s.modHamlet m f).pins = s.pins := rfl
@[simp] theorem State.modHamlet_resetStep (m : HamletRef) (f : Hamlet → Hamlet) : (s.modHamlet m f).resetStep = s.resetStep := rfl
@[simp] theorem State.modHamlet_lifecycle (m : HamletRef) (f : Hamlet → Hamlet) : (s.modHamlet m f).lifecycle = s.lifecycle := rfl
@[simp] theorem State.modHamlet_torus (m : HamletRef) (f : Hamlet → Hamlet) : (s.modHamlet m f).torus = s.torus := rfl
@[simp] theorem State.modHamlet_logNext (m : HamletRef) (f : Hamlet → Hamlet) : (s.modHamlet m f).logNext = s.logNext := rfl
@[simp] theorem State.modHamlet_logRing (m : HamletRef) (f : Hamlet → Hamlet) : (s.modHamlet m f).logRing = s.logRing := rfl
@[simp] theorem State.modHamlet_bellFlight (m : HamletRef) (f : Hamlet → Hamlet) : (s.modHamlet m f).bellFlight = s.bellFlight := rfl
@[simp] theorem State.modHamlet_deepSave (m : HamletRef) (f : Hamlet → Hamlet) : (s.modHamlet m f).deepSave = s.deepSave := rfl
@[simp] theorem State.modHamlet_deepWake (m : HamletRef) (f : Hamlet → Hamlet) : (s.modHamlet m f).deepWake = s.deepWake := rfl
@[simp] theorem State.modHamlet_reload (m : HamletRef) (f : Hamlet → Hamlet) : (s.modHamlet m f).reload = s.reload := rfl
@[simp] theorem State.modHamlet_defects (m : HamletRef) (f : Hamlet → Hamlet) : (s.modHamlet m f).defects = s.defects := rfl
@[simp] theorem State.modHamlet_sieves (m : HamletRef) (f : Hamlet → Hamlet) : (s.modHamlet m f).sieves = s.sieves := rfl
@[simp] theorem State.modHamlet_msixPend (m : HamletRef) (f : Hamlet → Hamlet) : (s.modHamlet m f).msixPend = s.msixPend := rfl
@[simp] theorem State.modHamlet_bar2Log2 (m : HamletRef) (f : Hamlet → Hamlet) : (s.modHamlet m f).bar2Log2 = s.bar2Log2 := rfl
@[simp] theorem State.modHamlet_stranded (m : HamletRef) (f : Hamlet → Hamlet) : (s.modHamlet m f).stranded = s.stranded := rfl
@[simp] theorem State.modHamlet_cut (m : HamletRef) (f : Hamlet → Hamlet) : (s.modHamlet m f).cut = s.cut := rfl
@[simp] theorem State.modHamlet_rails (m : HamletRef) (f : Hamlet → Hamlet) : (s.modHamlet m f).rails = s.rails := rfl
@[simp] theorem State.modHamlet_pcieSris (m : HamletRef) (f : Hamlet → Hamlet) : (s.modHamlet m f).pcieSris = s.pcieSris := rfl
@[simp] theorem State.modHamlet_fetchNext (m : HamletRef) (f : Hamlet → Hamlet) : (s.modHamlet m f).fetchNext = s.fetchNext := rfl
@[simp] theorem State.modHamlet_stopped (m : HamletRef) (f : Hamlet → Hamlet) : (s.modHamlet m f).stopped = s.stopped := rfl
@[simp] theorem State.modHamlet_freeCtr (m : HamletRef) (f : Hamlet → Hamlet) : (s.modHamlet m f).freeCtr = s.freeCtr := rfl
@[simp] theorem State.modHamlet_pending (m : HamletRef) (f : Hamlet → Hamlet) : (s.modHamlet m f).pending = s.pending := rfl

/-! setMill -/

@[simp] theorem State.setMill_part (u : MillRef) (x : Mill) : (s.setMill u x).part = s.part := rfl
@[simp] theorem State.setMill_ident (u : MillRef) (x : Mill) : (s.setMill u x).ident = s.ident := rfl
@[simp] theorem State.setMill_clock (u : MillRef) (x : Mill) : (s.setMill u x).clock = s.clock := rfl
@[simp] theorem State.setMill_mclk (u : MillRef) (x : Mill) : (s.setMill u x).mclk = s.mclk := rfl
@[simp] theorem State.setMill_mem (u : MillRef) (x : Mill) : (s.setMill u x).mem = s.mem := rfl
@[simp] theorem State.setMill_sramPoison (u : MillRef) (x : Mill) : (s.setMill u x).sramPoison = s.sramPoison := rfl
@[simp] theorem State.setMill_blkPoison (u : MillRef) (x : Mill) : (s.setMill u x).blkPoison = s.blkPoison := rfl
@[simp] theorem State.setMill_hostMem (u : MillRef) (x : Mill) : (s.setMill u x).hostMem = s.hostMem := rfl
@[simp] theorem State.setMill_hostDeny (u : MillRef) (x : Mill) : (s.setMill u x).hostDeny = s.hostDeny := rfl
@[simp] theorem State.setMill_settings (u : MillRef) (x : Mill) : (s.setMill u x).settings = s.settings := rfl
@[simp] theorem State.setMill_gov (u : MillRef) (x : Mill) : (s.setMill u x).gov = s.gov := rfl
@[simp] theorem State.setMill_activity (u : MillRef) (x : Mill) : (s.setMill u x).activity = s.activity := rfl
@[simp] theorem State.setMill_parishes (u : MillRef) (x : Mill) : (s.setMill u x).parishes = s.parishes := rfl
@[simp] theorem State.setMill_controllers (u : MillRef) (x : Mill) : (s.setMill u x).controllers = s.controllers := rfl
@[simp] theorem State.setMill_landings (u : MillRef) (x : Mill) : (s.setMill u x).landings = s.landings := rfl
@[simp] theorem State.setMill_dies (u : MillRef) (x : Mill) : (s.setMill u x).dies = s.dies := rfl
@[simp] theorem State.setMill_pressSlots (u : MillRef) (x : Mill) : (s.setMill u x).pressSlots = s.pressSlots := rfl
@[simp] theorem State.setMill_pressPend (u : MillRef) (x : Mill) : (s.setMill u x).pressPend = s.pressPend := rfl
@[simp] theorem State.setMill_keySlots (u : MillRef) (x : Mill) : (s.setMill u x).keySlots = s.keySlots := rfl
@[simp] theorem State.setMill_households (u : MillRef) (x : Mill) : (s.setMill u x).households = s.households := rfl
@[simp] theorem State.setMill_jobs (u : MillRef) (x : Mill) : (s.setMill u x).jobs = s.jobs := rfl
@[simp] theorem State.setMill_sessions (u : MillRef) (x : Mill) : (s.setMill u x).sessions = s.sessions := rfl
@[simp] theorem State.setMill_ledger (u : MillRef) (x : Mill) : (s.setMill u x).ledger = s.ledger := rfl
@[simp] theorem State.setMill_nextSeq (u : MillRef) (x : Mill) : (s.setMill u x).nextSeq = s.nextSeq := rfl
@[simp] theorem State.setMill_adapters (u : MillRef) (x : Mill) : (s.setMill u x).adapters = s.adapters := rfl
@[simp] theorem State.setMill_grammars (u : MillRef) (x : Mill) : (s.setMill u x).grammars = s.grammars := rfl
@[simp] theorem State.setMill_tensors (u : MillRef) (x : Mill) : (s.setMill u x).tensors = s.tensors := rfl
@[simp] theorem State.setMill_postboxes (u : MillRef) (x : Mill) : (s.setMill u x).postboxes = s.postboxes := rfl
@[simp] theorem State.setMill_noticeQ (u : MillRef) (x : Mill) : (s.setMill u x).noticeQ = s.noticeQ := rfl
@[simp] theorem State.setMill_numVFs (u : MillRef) (x : Mill) : (s.setMill u x).numVFs = s.numVFs := rfl
@[simp] theorem State.setMill_bar2Household (u : MillRef) (x : Mill) : (s.setMill u x).bar2Household = s.bar2Household := rfl
@[simp] theorem State.setMill_bar2Base (u : MillRef) (x : Mill) : (s.setMill u x).bar2Base = s.bar2Base := rfl
@[simp] theorem State.setMill_msix (u : MillRef) (x : Mill) : (s.setMill u x).msix = s.msix := rfl
@[simp] theorem State.setMill_hostOut (u : MillRef) (x : Mill) : (s.setMill u x).hostOut = s.hostOut := rfl
@[simp] theorem State.setMill_pins (u : MillRef) (x : Mill) : (s.setMill u x).pins = s.pins := rfl
@[simp] theorem State.setMill_resetStep (u : MillRef) (x : Mill) : (s.setMill u x).resetStep = s.resetStep := rfl
@[simp] theorem State.setMill_lifecycle (u : MillRef) (x : Mill) : (s.setMill u x).lifecycle = s.lifecycle := rfl
@[simp] theorem State.setMill_torus (u : MillRef) (x : Mill) : (s.setMill u x).torus = s.torus := rfl
@[simp] theorem State.setMill_logNext (u : MillRef) (x : Mill) : (s.setMill u x).logNext = s.logNext := rfl
@[simp] theorem State.setMill_logRing (u : MillRef) (x : Mill) : (s.setMill u x).logRing = s.logRing := rfl
@[simp] theorem State.setMill_bellFlight (u : MillRef) (x : Mill) : (s.setMill u x).bellFlight = s.bellFlight := rfl
@[simp] theorem State.setMill_deepSave (u : MillRef) (x : Mill) : (s.setMill u x).deepSave = s.deepSave := rfl
@[simp] theorem State.setMill_deepWake (u : MillRef) (x : Mill) : (s.setMill u x).deepWake = s.deepWake := rfl
@[simp] theorem State.setMill_reload (u : MillRef) (x : Mill) : (s.setMill u x).reload = s.reload := rfl
@[simp] theorem State.setMill_defects (u : MillRef) (x : Mill) : (s.setMill u x).defects = s.defects := rfl
@[simp] theorem State.setMill_sieves (u : MillRef) (x : Mill) : (s.setMill u x).sieves = s.sieves := rfl
@[simp] theorem State.setMill_msixPend (u : MillRef) (x : Mill) : (s.setMill u x).msixPend = s.msixPend := rfl
@[simp] theorem State.setMill_bar2Log2 (u : MillRef) (x : Mill) : (s.setMill u x).bar2Log2 = s.bar2Log2 := rfl
@[simp] theorem State.setMill_stranded (u : MillRef) (x : Mill) : (s.setMill u x).stranded = s.stranded := rfl
@[simp] theorem State.setMill_cut (u : MillRef) (x : Mill) : (s.setMill u x).cut = s.cut := rfl
@[simp] theorem State.setMill_rails (u : MillRef) (x : Mill) : (s.setMill u x).rails = s.rails := rfl
@[simp] theorem State.setMill_pcieSris (u : MillRef) (x : Mill) : (s.setMill u x).pcieSris = s.pcieSris := rfl
@[simp] theorem State.setMill_fetchNext (u : MillRef) (x : Mill) : (s.setMill u x).fetchNext = s.fetchNext := rfl
@[simp] theorem State.setMill_stopped (u : MillRef) (x : Mill) : (s.setMill u x).stopped = s.stopped := rfl
@[simp] theorem State.setMill_freeCtr (u : MillRef) (x : Mill) : (s.setMill u x).freeCtr = s.freeCtr := rfl
@[simp] theorem State.setMill_pending (u : MillRef) (x : Mill) : (s.setMill u x).pending = s.pending := rfl

/-! modMill -/

@[simp] theorem State.modMill_part (u : MillRef) (f : Mill → Mill) : (s.modMill u f).part = s.part := rfl
@[simp] theorem State.modMill_ident (u : MillRef) (f : Mill → Mill) : (s.modMill u f).ident = s.ident := rfl
@[simp] theorem State.modMill_clock (u : MillRef) (f : Mill → Mill) : (s.modMill u f).clock = s.clock := rfl
@[simp] theorem State.modMill_mclk (u : MillRef) (f : Mill → Mill) : (s.modMill u f).mclk = s.mclk := rfl
@[simp] theorem State.modMill_mem (u : MillRef) (f : Mill → Mill) : (s.modMill u f).mem = s.mem := rfl
@[simp] theorem State.modMill_sramPoison (u : MillRef) (f : Mill → Mill) : (s.modMill u f).sramPoison = s.sramPoison := rfl
@[simp] theorem State.modMill_blkPoison (u : MillRef) (f : Mill → Mill) : (s.modMill u f).blkPoison = s.blkPoison := rfl
@[simp] theorem State.modMill_hostMem (u : MillRef) (f : Mill → Mill) : (s.modMill u f).hostMem = s.hostMem := rfl
@[simp] theorem State.modMill_hostDeny (u : MillRef) (f : Mill → Mill) : (s.modMill u f).hostDeny = s.hostDeny := rfl
@[simp] theorem State.modMill_settings (u : MillRef) (f : Mill → Mill) : (s.modMill u f).settings = s.settings := rfl
@[simp] theorem State.modMill_gov (u : MillRef) (f : Mill → Mill) : (s.modMill u f).gov = s.gov := rfl
@[simp] theorem State.modMill_activity (u : MillRef) (f : Mill → Mill) : (s.modMill u f).activity = s.activity := rfl
@[simp] theorem State.modMill_parishes (u : MillRef) (f : Mill → Mill) : (s.modMill u f).parishes = s.parishes := rfl
@[simp] theorem State.modMill_controllers (u : MillRef) (f : Mill → Mill) : (s.modMill u f).controllers = s.controllers := rfl
@[simp] theorem State.modMill_landings (u : MillRef) (f : Mill → Mill) : (s.modMill u f).landings = s.landings := rfl
@[simp] theorem State.modMill_dies (u : MillRef) (f : Mill → Mill) : (s.modMill u f).dies = s.dies := rfl
@[simp] theorem State.modMill_pressSlots (u : MillRef) (f : Mill → Mill) : (s.modMill u f).pressSlots = s.pressSlots := rfl
@[simp] theorem State.modMill_pressPend (u : MillRef) (f : Mill → Mill) : (s.modMill u f).pressPend = s.pressPend := rfl
@[simp] theorem State.modMill_keySlots (u : MillRef) (f : Mill → Mill) : (s.modMill u f).keySlots = s.keySlots := rfl
@[simp] theorem State.modMill_households (u : MillRef) (f : Mill → Mill) : (s.modMill u f).households = s.households := rfl
@[simp] theorem State.modMill_jobs (u : MillRef) (f : Mill → Mill) : (s.modMill u f).jobs = s.jobs := rfl
@[simp] theorem State.modMill_sessions (u : MillRef) (f : Mill → Mill) : (s.modMill u f).sessions = s.sessions := rfl
@[simp] theorem State.modMill_ledger (u : MillRef) (f : Mill → Mill) : (s.modMill u f).ledger = s.ledger := rfl
@[simp] theorem State.modMill_nextSeq (u : MillRef) (f : Mill → Mill) : (s.modMill u f).nextSeq = s.nextSeq := rfl
@[simp] theorem State.modMill_adapters (u : MillRef) (f : Mill → Mill) : (s.modMill u f).adapters = s.adapters := rfl
@[simp] theorem State.modMill_grammars (u : MillRef) (f : Mill → Mill) : (s.modMill u f).grammars = s.grammars := rfl
@[simp] theorem State.modMill_tensors (u : MillRef) (f : Mill → Mill) : (s.modMill u f).tensors = s.tensors := rfl
@[simp] theorem State.modMill_postboxes (u : MillRef) (f : Mill → Mill) : (s.modMill u f).postboxes = s.postboxes := rfl
@[simp] theorem State.modMill_noticeQ (u : MillRef) (f : Mill → Mill) : (s.modMill u f).noticeQ = s.noticeQ := rfl
@[simp] theorem State.modMill_numVFs (u : MillRef) (f : Mill → Mill) : (s.modMill u f).numVFs = s.numVFs := rfl
@[simp] theorem State.modMill_bar2Household (u : MillRef) (f : Mill → Mill) : (s.modMill u f).bar2Household = s.bar2Household := rfl
@[simp] theorem State.modMill_bar2Base (u : MillRef) (f : Mill → Mill) : (s.modMill u f).bar2Base = s.bar2Base := rfl
@[simp] theorem State.modMill_msix (u : MillRef) (f : Mill → Mill) : (s.modMill u f).msix = s.msix := rfl
@[simp] theorem State.modMill_hostOut (u : MillRef) (f : Mill → Mill) : (s.modMill u f).hostOut = s.hostOut := rfl
@[simp] theorem State.modMill_pins (u : MillRef) (f : Mill → Mill) : (s.modMill u f).pins = s.pins := rfl
@[simp] theorem State.modMill_resetStep (u : MillRef) (f : Mill → Mill) : (s.modMill u f).resetStep = s.resetStep := rfl
@[simp] theorem State.modMill_lifecycle (u : MillRef) (f : Mill → Mill) : (s.modMill u f).lifecycle = s.lifecycle := rfl
@[simp] theorem State.modMill_torus (u : MillRef) (f : Mill → Mill) : (s.modMill u f).torus = s.torus := rfl
@[simp] theorem State.modMill_logNext (u : MillRef) (f : Mill → Mill) : (s.modMill u f).logNext = s.logNext := rfl
@[simp] theorem State.modMill_logRing (u : MillRef) (f : Mill → Mill) : (s.modMill u f).logRing = s.logRing := rfl
@[simp] theorem State.modMill_bellFlight (u : MillRef) (f : Mill → Mill) : (s.modMill u f).bellFlight = s.bellFlight := rfl
@[simp] theorem State.modMill_deepSave (u : MillRef) (f : Mill → Mill) : (s.modMill u f).deepSave = s.deepSave := rfl
@[simp] theorem State.modMill_deepWake (u : MillRef) (f : Mill → Mill) : (s.modMill u f).deepWake = s.deepWake := rfl
@[simp] theorem State.modMill_reload (u : MillRef) (f : Mill → Mill) : (s.modMill u f).reload = s.reload := rfl
@[simp] theorem State.modMill_defects (u : MillRef) (f : Mill → Mill) : (s.modMill u f).defects = s.defects := rfl
@[simp] theorem State.modMill_sieves (u : MillRef) (f : Mill → Mill) : (s.modMill u f).sieves = s.sieves := rfl
@[simp] theorem State.modMill_msixPend (u : MillRef) (f : Mill → Mill) : (s.modMill u f).msixPend = s.msixPend := rfl
@[simp] theorem State.modMill_bar2Log2 (u : MillRef) (f : Mill → Mill) : (s.modMill u f).bar2Log2 = s.bar2Log2 := rfl
@[simp] theorem State.modMill_stranded (u : MillRef) (f : Mill → Mill) : (s.modMill u f).stranded = s.stranded := rfl
@[simp] theorem State.modMill_cut (u : MillRef) (f : Mill → Mill) : (s.modMill u f).cut = s.cut := rfl
@[simp] theorem State.modMill_rails (u : MillRef) (f : Mill → Mill) : (s.modMill u f).rails = s.rails := rfl
@[simp] theorem State.modMill_pcieSris (u : MillRef) (f : Mill → Mill) : (s.modMill u f).pcieSris = s.pcieSris := rfl
@[simp] theorem State.modMill_fetchNext (u : MillRef) (f : Mill → Mill) : (s.modMill u f).fetchNext = s.fetchNext := rfl
@[simp] theorem State.modMill_stopped (u : MillRef) (f : Mill → Mill) : (s.modMill u f).stopped = s.stopped := rfl
@[simp] theorem State.modMill_freeCtr (u : MillRef) (f : Mill → Mill) : (s.modMill u f).freeCtr = s.freeCtr := rfl
@[simp] theorem State.modMill_pending (u : MillRef) (f : Mill → Mill) : (s.modMill u f).pending = s.pending := rfl

/-! setHand -/

@[simp] theorem State.setHand_part (h : HandRef) (x : Hand) : (s.setHand h x).part = s.part := rfl
@[simp] theorem State.setHand_ident (h : HandRef) (x : Hand) : (s.setHand h x).ident = s.ident := rfl
@[simp] theorem State.setHand_clock (h : HandRef) (x : Hand) : (s.setHand h x).clock = s.clock := rfl
@[simp] theorem State.setHand_mclk (h : HandRef) (x : Hand) : (s.setHand h x).mclk = s.mclk := rfl
@[simp] theorem State.setHand_mem (h : HandRef) (x : Hand) : (s.setHand h x).mem = s.mem := rfl
@[simp] theorem State.setHand_sramPoison (h : HandRef) (x : Hand) : (s.setHand h x).sramPoison = s.sramPoison := rfl
@[simp] theorem State.setHand_blkPoison (h : HandRef) (x : Hand) : (s.setHand h x).blkPoison = s.blkPoison := rfl
@[simp] theorem State.setHand_hostMem (h : HandRef) (x : Hand) : (s.setHand h x).hostMem = s.hostMem := rfl
@[simp] theorem State.setHand_hostDeny (h : HandRef) (x : Hand) : (s.setHand h x).hostDeny = s.hostDeny := rfl
@[simp] theorem State.setHand_settings (h : HandRef) (x : Hand) : (s.setHand h x).settings = s.settings := rfl
@[simp] theorem State.setHand_gov (h : HandRef) (x : Hand) : (s.setHand h x).gov = s.gov := rfl
@[simp] theorem State.setHand_activity (h : HandRef) (x : Hand) : (s.setHand h x).activity = s.activity := rfl
@[simp] theorem State.setHand_parishes (h : HandRef) (x : Hand) : (s.setHand h x).parishes = s.parishes := rfl
@[simp] theorem State.setHand_controllers (h : HandRef) (x : Hand) : (s.setHand h x).controllers = s.controllers := rfl
@[simp] theorem State.setHand_landings (h : HandRef) (x : Hand) : (s.setHand h x).landings = s.landings := rfl
@[simp] theorem State.setHand_dies (h : HandRef) (x : Hand) : (s.setHand h x).dies = s.dies := rfl
@[simp] theorem State.setHand_pressSlots (h : HandRef) (x : Hand) : (s.setHand h x).pressSlots = s.pressSlots := rfl
@[simp] theorem State.setHand_pressPend (h : HandRef) (x : Hand) : (s.setHand h x).pressPend = s.pressPend := rfl
@[simp] theorem State.setHand_keySlots (h : HandRef) (x : Hand) : (s.setHand h x).keySlots = s.keySlots := rfl
@[simp] theorem State.setHand_households (h : HandRef) (x : Hand) : (s.setHand h x).households = s.households := rfl
@[simp] theorem State.setHand_jobs (h : HandRef) (x : Hand) : (s.setHand h x).jobs = s.jobs := rfl
@[simp] theorem State.setHand_sessions (h : HandRef) (x : Hand) : (s.setHand h x).sessions = s.sessions := rfl
@[simp] theorem State.setHand_ledger (h : HandRef) (x : Hand) : (s.setHand h x).ledger = s.ledger := rfl
@[simp] theorem State.setHand_nextSeq (h : HandRef) (x : Hand) : (s.setHand h x).nextSeq = s.nextSeq := rfl
@[simp] theorem State.setHand_adapters (h : HandRef) (x : Hand) : (s.setHand h x).adapters = s.adapters := rfl
@[simp] theorem State.setHand_grammars (h : HandRef) (x : Hand) : (s.setHand h x).grammars = s.grammars := rfl
@[simp] theorem State.setHand_tensors (h : HandRef) (x : Hand) : (s.setHand h x).tensors = s.tensors := rfl
@[simp] theorem State.setHand_postboxes (h : HandRef) (x : Hand) : (s.setHand h x).postboxes = s.postboxes := rfl
@[simp] theorem State.setHand_noticeQ (h : HandRef) (x : Hand) : (s.setHand h x).noticeQ = s.noticeQ := rfl
@[simp] theorem State.setHand_numVFs (h : HandRef) (x : Hand) : (s.setHand h x).numVFs = s.numVFs := rfl
@[simp] theorem State.setHand_bar2Household (h : HandRef) (x : Hand) : (s.setHand h x).bar2Household = s.bar2Household := rfl
@[simp] theorem State.setHand_bar2Base (h : HandRef) (x : Hand) : (s.setHand h x).bar2Base = s.bar2Base := rfl
@[simp] theorem State.setHand_msix (h : HandRef) (x : Hand) : (s.setHand h x).msix = s.msix := rfl
@[simp] theorem State.setHand_hostOut (h : HandRef) (x : Hand) : (s.setHand h x).hostOut = s.hostOut := rfl
@[simp] theorem State.setHand_pins (h : HandRef) (x : Hand) : (s.setHand h x).pins = s.pins := rfl
@[simp] theorem State.setHand_resetStep (h : HandRef) (x : Hand) : (s.setHand h x).resetStep = s.resetStep := rfl
@[simp] theorem State.setHand_lifecycle (h : HandRef) (x : Hand) : (s.setHand h x).lifecycle = s.lifecycle := rfl
@[simp] theorem State.setHand_torus (h : HandRef) (x : Hand) : (s.setHand h x).torus = s.torus := rfl
@[simp] theorem State.setHand_logNext (h : HandRef) (x : Hand) : (s.setHand h x).logNext = s.logNext := rfl
@[simp] theorem State.setHand_logRing (h : HandRef) (x : Hand) : (s.setHand h x).logRing = s.logRing := rfl
@[simp] theorem State.setHand_bellFlight (h : HandRef) (x : Hand) : (s.setHand h x).bellFlight = s.bellFlight := rfl
@[simp] theorem State.setHand_deepSave (h : HandRef) (x : Hand) : (s.setHand h x).deepSave = s.deepSave := rfl
@[simp] theorem State.setHand_deepWake (h : HandRef) (x : Hand) : (s.setHand h x).deepWake = s.deepWake := rfl
@[simp] theorem State.setHand_reload (h : HandRef) (x : Hand) : (s.setHand h x).reload = s.reload := rfl
@[simp] theorem State.setHand_defects (h : HandRef) (x : Hand) : (s.setHand h x).defects = s.defects := rfl
@[simp] theorem State.setHand_sieves (h : HandRef) (x : Hand) : (s.setHand h x).sieves = s.sieves := rfl
@[simp] theorem State.setHand_msixPend (h : HandRef) (x : Hand) : (s.setHand h x).msixPend = s.msixPend := rfl
@[simp] theorem State.setHand_bar2Log2 (h : HandRef) (x : Hand) : (s.setHand h x).bar2Log2 = s.bar2Log2 := rfl
@[simp] theorem State.setHand_stranded (h : HandRef) (x : Hand) : (s.setHand h x).stranded = s.stranded := rfl
@[simp] theorem State.setHand_cut (h : HandRef) (x : Hand) : (s.setHand h x).cut = s.cut := rfl
@[simp] theorem State.setHand_rails (h : HandRef) (x : Hand) : (s.setHand h x).rails = s.rails := rfl
@[simp] theorem State.setHand_pcieSris (h : HandRef) (x : Hand) : (s.setHand h x).pcieSris = s.pcieSris := rfl
@[simp] theorem State.setHand_fetchNext (h : HandRef) (x : Hand) : (s.setHand h x).fetchNext = s.fetchNext := rfl
@[simp] theorem State.setHand_stopped (h : HandRef) (x : Hand) : (s.setHand h x).stopped = s.stopped := rfl
@[simp] theorem State.setHand_freeCtr (h : HandRef) (x : Hand) : (s.setHand h x).freeCtr = s.freeCtr := rfl
@[simp] theorem State.setHand_pending (h : HandRef) (x : Hand) : (s.setHand h x).pending = s.pending := rfl

/-! modHand -/

@[simp] theorem State.modHand_part (h : HandRef) (f : Hand → Hand) : (s.modHand h f).part = s.part := rfl
@[simp] theorem State.modHand_ident (h : HandRef) (f : Hand → Hand) : (s.modHand h f).ident = s.ident := rfl
@[simp] theorem State.modHand_clock (h : HandRef) (f : Hand → Hand) : (s.modHand h f).clock = s.clock := rfl
@[simp] theorem State.modHand_mclk (h : HandRef) (f : Hand → Hand) : (s.modHand h f).mclk = s.mclk := rfl
@[simp] theorem State.modHand_mem (h : HandRef) (f : Hand → Hand) : (s.modHand h f).mem = s.mem := rfl
@[simp] theorem State.modHand_sramPoison (h : HandRef) (f : Hand → Hand) : (s.modHand h f).sramPoison = s.sramPoison := rfl
@[simp] theorem State.modHand_blkPoison (h : HandRef) (f : Hand → Hand) : (s.modHand h f).blkPoison = s.blkPoison := rfl
@[simp] theorem State.modHand_hostMem (h : HandRef) (f : Hand → Hand) : (s.modHand h f).hostMem = s.hostMem := rfl
@[simp] theorem State.modHand_hostDeny (h : HandRef) (f : Hand → Hand) : (s.modHand h f).hostDeny = s.hostDeny := rfl
@[simp] theorem State.modHand_settings (h : HandRef) (f : Hand → Hand) : (s.modHand h f).settings = s.settings := rfl
@[simp] theorem State.modHand_gov (h : HandRef) (f : Hand → Hand) : (s.modHand h f).gov = s.gov := rfl
@[simp] theorem State.modHand_activity (h : HandRef) (f : Hand → Hand) : (s.modHand h f).activity = s.activity := rfl
@[simp] theorem State.modHand_parishes (h : HandRef) (f : Hand → Hand) : (s.modHand h f).parishes = s.parishes := rfl
@[simp] theorem State.modHand_controllers (h : HandRef) (f : Hand → Hand) : (s.modHand h f).controllers = s.controllers := rfl
@[simp] theorem State.modHand_landings (h : HandRef) (f : Hand → Hand) : (s.modHand h f).landings = s.landings := rfl
@[simp] theorem State.modHand_dies (h : HandRef) (f : Hand → Hand) : (s.modHand h f).dies = s.dies := rfl
@[simp] theorem State.modHand_pressSlots (h : HandRef) (f : Hand → Hand) : (s.modHand h f).pressSlots = s.pressSlots := rfl
@[simp] theorem State.modHand_pressPend (h : HandRef) (f : Hand → Hand) : (s.modHand h f).pressPend = s.pressPend := rfl
@[simp] theorem State.modHand_keySlots (h : HandRef) (f : Hand → Hand) : (s.modHand h f).keySlots = s.keySlots := rfl
@[simp] theorem State.modHand_households (h : HandRef) (f : Hand → Hand) : (s.modHand h f).households = s.households := rfl
@[simp] theorem State.modHand_jobs (h : HandRef) (f : Hand → Hand) : (s.modHand h f).jobs = s.jobs := rfl
@[simp] theorem State.modHand_sessions (h : HandRef) (f : Hand → Hand) : (s.modHand h f).sessions = s.sessions := rfl
@[simp] theorem State.modHand_ledger (h : HandRef) (f : Hand → Hand) : (s.modHand h f).ledger = s.ledger := rfl
@[simp] theorem State.modHand_nextSeq (h : HandRef) (f : Hand → Hand) : (s.modHand h f).nextSeq = s.nextSeq := rfl
@[simp] theorem State.modHand_adapters (h : HandRef) (f : Hand → Hand) : (s.modHand h f).adapters = s.adapters := rfl
@[simp] theorem State.modHand_grammars (h : HandRef) (f : Hand → Hand) : (s.modHand h f).grammars = s.grammars := rfl
@[simp] theorem State.modHand_tensors (h : HandRef) (f : Hand → Hand) : (s.modHand h f).tensors = s.tensors := rfl
@[simp] theorem State.modHand_postboxes (h : HandRef) (f : Hand → Hand) : (s.modHand h f).postboxes = s.postboxes := rfl
@[simp] theorem State.modHand_noticeQ (h : HandRef) (f : Hand → Hand) : (s.modHand h f).noticeQ = s.noticeQ := rfl
@[simp] theorem State.modHand_numVFs (h : HandRef) (f : Hand → Hand) : (s.modHand h f).numVFs = s.numVFs := rfl
@[simp] theorem State.modHand_bar2Household (h : HandRef) (f : Hand → Hand) : (s.modHand h f).bar2Household = s.bar2Household := rfl
@[simp] theorem State.modHand_bar2Base (h : HandRef) (f : Hand → Hand) : (s.modHand h f).bar2Base = s.bar2Base := rfl
@[simp] theorem State.modHand_msix (h : HandRef) (f : Hand → Hand) : (s.modHand h f).msix = s.msix := rfl
@[simp] theorem State.modHand_hostOut (h : HandRef) (f : Hand → Hand) : (s.modHand h f).hostOut = s.hostOut := rfl
@[simp] theorem State.modHand_pins (h : HandRef) (f : Hand → Hand) : (s.modHand h f).pins = s.pins := rfl
@[simp] theorem State.modHand_resetStep (h : HandRef) (f : Hand → Hand) : (s.modHand h f).resetStep = s.resetStep := rfl
@[simp] theorem State.modHand_lifecycle (h : HandRef) (f : Hand → Hand) : (s.modHand h f).lifecycle = s.lifecycle := rfl
@[simp] theorem State.modHand_torus (h : HandRef) (f : Hand → Hand) : (s.modHand h f).torus = s.torus := rfl
@[simp] theorem State.modHand_logNext (h : HandRef) (f : Hand → Hand) : (s.modHand h f).logNext = s.logNext := rfl
@[simp] theorem State.modHand_logRing (h : HandRef) (f : Hand → Hand) : (s.modHand h f).logRing = s.logRing := rfl
@[simp] theorem State.modHand_bellFlight (h : HandRef) (f : Hand → Hand) : (s.modHand h f).bellFlight = s.bellFlight := rfl
@[simp] theorem State.modHand_deepSave (h : HandRef) (f : Hand → Hand) : (s.modHand h f).deepSave = s.deepSave := rfl
@[simp] theorem State.modHand_deepWake (h : HandRef) (f : Hand → Hand) : (s.modHand h f).deepWake = s.deepWake := rfl
@[simp] theorem State.modHand_reload (h : HandRef) (f : Hand → Hand) : (s.modHand h f).reload = s.reload := rfl
@[simp] theorem State.modHand_defects (h : HandRef) (f : Hand → Hand) : (s.modHand h f).defects = s.defects := rfl
@[simp] theorem State.modHand_sieves (h : HandRef) (f : Hand → Hand) : (s.modHand h f).sieves = s.sieves := rfl
@[simp] theorem State.modHand_msixPend (h : HandRef) (f : Hand → Hand) : (s.modHand h f).msixPend = s.msixPend := rfl
@[simp] theorem State.modHand_bar2Log2 (h : HandRef) (f : Hand → Hand) : (s.modHand h f).bar2Log2 = s.bar2Log2 := rfl
@[simp] theorem State.modHand_stranded (h : HandRef) (f : Hand → Hand) : (s.modHand h f).stranded = s.stranded := rfl
@[simp] theorem State.modHand_cut (h : HandRef) (f : Hand → Hand) : (s.modHand h f).cut = s.cut := rfl
@[simp] theorem State.modHand_rails (h : HandRef) (f : Hand → Hand) : (s.modHand h f).rails = s.rails := rfl
@[simp] theorem State.modHand_pcieSris (h : HandRef) (f : Hand → Hand) : (s.modHand h f).pcieSris = s.pcieSris := rfl
@[simp] theorem State.modHand_fetchNext (h : HandRef) (f : Hand → Hand) : (s.modHand h f).fetchNext = s.fetchNext := rfl
@[simp] theorem State.modHand_stopped (h : HandRef) (f : Hand → Hand) : (s.modHand h f).stopped = s.stopped := rfl
@[simp] theorem State.modHand_freeCtr (h : HandRef) (f : Hand → Hand) : (s.modHand h f).freeCtr = s.freeCtr := rfl
@[simp] theorem State.modHand_pending (h : HandRef) (f : Hand → Hand) : (s.modHand h f).pending = s.pending := rfl

/-! setRing -/

@[simp] theorem State.setRing_part (r : RingRef) (x : Ring) : (s.setRing r x).part = s.part := rfl
@[simp] theorem State.setRing_ident (r : RingRef) (x : Ring) : (s.setRing r x).ident = s.ident := rfl
@[simp] theorem State.setRing_clock (r : RingRef) (x : Ring) : (s.setRing r x).clock = s.clock := rfl
@[simp] theorem State.setRing_mclk (r : RingRef) (x : Ring) : (s.setRing r x).mclk = s.mclk := rfl
@[simp] theorem State.setRing_mem (r : RingRef) (x : Ring) : (s.setRing r x).mem = s.mem := rfl
@[simp] theorem State.setRing_sramPoison (r : RingRef) (x : Ring) : (s.setRing r x).sramPoison = s.sramPoison := rfl
@[simp] theorem State.setRing_blkPoison (r : RingRef) (x : Ring) : (s.setRing r x).blkPoison = s.blkPoison := rfl
@[simp] theorem State.setRing_hostMem (r : RingRef) (x : Ring) : (s.setRing r x).hostMem = s.hostMem := rfl
@[simp] theorem State.setRing_hostDeny (r : RingRef) (x : Ring) : (s.setRing r x).hostDeny = s.hostDeny := rfl
@[simp] theorem State.setRing_settings (r : RingRef) (x : Ring) : (s.setRing r x).settings = s.settings := rfl
@[simp] theorem State.setRing_gov (r : RingRef) (x : Ring) : (s.setRing r x).gov = s.gov := rfl
@[simp] theorem State.setRing_activity (r : RingRef) (x : Ring) : (s.setRing r x).activity = s.activity := rfl
@[simp] theorem State.setRing_parishes (r : RingRef) (x : Ring) : (s.setRing r x).parishes = s.parishes := rfl
@[simp] theorem State.setRing_controllers (r : RingRef) (x : Ring) : (s.setRing r x).controllers = s.controllers := rfl
@[simp] theorem State.setRing_landings (r : RingRef) (x : Ring) : (s.setRing r x).landings = s.landings := rfl
@[simp] theorem State.setRing_dies (r : RingRef) (x : Ring) : (s.setRing r x).dies = s.dies := rfl
@[simp] theorem State.setRing_pressSlots (r : RingRef) (x : Ring) : (s.setRing r x).pressSlots = s.pressSlots := rfl
@[simp] theorem State.setRing_pressPend (r : RingRef) (x : Ring) : (s.setRing r x).pressPend = s.pressPend := rfl
@[simp] theorem State.setRing_keySlots (r : RingRef) (x : Ring) : (s.setRing r x).keySlots = s.keySlots := rfl
@[simp] theorem State.setRing_households (r : RingRef) (x : Ring) : (s.setRing r x).households = s.households := rfl
@[simp] theorem State.setRing_jobs (r : RingRef) (x : Ring) : (s.setRing r x).jobs = s.jobs := rfl
@[simp] theorem State.setRing_sessions (r : RingRef) (x : Ring) : (s.setRing r x).sessions = s.sessions := rfl
@[simp] theorem State.setRing_ledger (r : RingRef) (x : Ring) : (s.setRing r x).ledger = s.ledger := rfl
@[simp] theorem State.setRing_nextSeq (r : RingRef) (x : Ring) : (s.setRing r x).nextSeq = s.nextSeq := rfl
@[simp] theorem State.setRing_adapters (r : RingRef) (x : Ring) : (s.setRing r x).adapters = s.adapters := rfl
@[simp] theorem State.setRing_grammars (r : RingRef) (x : Ring) : (s.setRing r x).grammars = s.grammars := rfl
@[simp] theorem State.setRing_tensors (r : RingRef) (x : Ring) : (s.setRing r x).tensors = s.tensors := rfl
@[simp] theorem State.setRing_postboxes (r : RingRef) (x : Ring) : (s.setRing r x).postboxes = s.postboxes := rfl
@[simp] theorem State.setRing_noticeQ (r : RingRef) (x : Ring) : (s.setRing r x).noticeQ = s.noticeQ := rfl
@[simp] theorem State.setRing_numVFs (r : RingRef) (x : Ring) : (s.setRing r x).numVFs = s.numVFs := rfl
@[simp] theorem State.setRing_bar2Household (r : RingRef) (x : Ring) : (s.setRing r x).bar2Household = s.bar2Household := rfl
@[simp] theorem State.setRing_bar2Base (r : RingRef) (x : Ring) : (s.setRing r x).bar2Base = s.bar2Base := rfl
@[simp] theorem State.setRing_msix (r : RingRef) (x : Ring) : (s.setRing r x).msix = s.msix := rfl
@[simp] theorem State.setRing_hostOut (r : RingRef) (x : Ring) : (s.setRing r x).hostOut = s.hostOut := rfl
@[simp] theorem State.setRing_pins (r : RingRef) (x : Ring) : (s.setRing r x).pins = s.pins := rfl
@[simp] theorem State.setRing_resetStep (r : RingRef) (x : Ring) : (s.setRing r x).resetStep = s.resetStep := rfl
@[simp] theorem State.setRing_lifecycle (r : RingRef) (x : Ring) : (s.setRing r x).lifecycle = s.lifecycle := rfl
@[simp] theorem State.setRing_torus (r : RingRef) (x : Ring) : (s.setRing r x).torus = s.torus := rfl
@[simp] theorem State.setRing_logNext (r : RingRef) (x : Ring) : (s.setRing r x).logNext = s.logNext := rfl
@[simp] theorem State.setRing_logRing (r : RingRef) (x : Ring) : (s.setRing r x).logRing = s.logRing := rfl
@[simp] theorem State.setRing_bellFlight (r : RingRef) (x : Ring) : (s.setRing r x).bellFlight = s.bellFlight := rfl
@[simp] theorem State.setRing_deepSave (r : RingRef) (x : Ring) : (s.setRing r x).deepSave = s.deepSave := rfl
@[simp] theorem State.setRing_deepWake (r : RingRef) (x : Ring) : (s.setRing r x).deepWake = s.deepWake := rfl
@[simp] theorem State.setRing_reload (r : RingRef) (x : Ring) : (s.setRing r x).reload = s.reload := rfl
@[simp] theorem State.setRing_defects (r : RingRef) (x : Ring) : (s.setRing r x).defects = s.defects := rfl
@[simp] theorem State.setRing_sieves (r : RingRef) (x : Ring) : (s.setRing r x).sieves = s.sieves := rfl
@[simp] theorem State.setRing_msixPend (r : RingRef) (x : Ring) : (s.setRing r x).msixPend = s.msixPend := rfl
@[simp] theorem State.setRing_bar2Log2 (r : RingRef) (x : Ring) : (s.setRing r x).bar2Log2 = s.bar2Log2 := rfl
@[simp] theorem State.setRing_stranded (r : RingRef) (x : Ring) : (s.setRing r x).stranded = s.stranded := rfl
@[simp] theorem State.setRing_cut (r : RingRef) (x : Ring) : (s.setRing r x).cut = s.cut := rfl
@[simp] theorem State.setRing_rails (r : RingRef) (x : Ring) : (s.setRing r x).rails = s.rails := rfl
@[simp] theorem State.setRing_pcieSris (r : RingRef) (x : Ring) : (s.setRing r x).pcieSris = s.pcieSris := rfl
@[simp] theorem State.setRing_fetchNext (r : RingRef) (x : Ring) : (s.setRing r x).fetchNext = s.fetchNext := rfl
@[simp] theorem State.setRing_stopped (r : RingRef) (x : Ring) : (s.setRing r x).stopped = s.stopped := rfl
@[simp] theorem State.setRing_freeCtr (r : RingRef) (x : Ring) : (s.setRing r x).freeCtr = s.freeCtr := rfl
@[simp] theorem State.setRing_pending (r : RingRef) (x : Ring) : (s.setRing r x).pending = s.pending := rfl

/-! modRing -/

@[simp] theorem State.modRing_part (r : RingRef) (f : Ring → Ring) : (s.modRing r f).part = s.part := rfl
@[simp] theorem State.modRing_ident (r : RingRef) (f : Ring → Ring) : (s.modRing r f).ident = s.ident := rfl
@[simp] theorem State.modRing_clock (r : RingRef) (f : Ring → Ring) : (s.modRing r f).clock = s.clock := rfl
@[simp] theorem State.modRing_mclk (r : RingRef) (f : Ring → Ring) : (s.modRing r f).mclk = s.mclk := rfl
@[simp] theorem State.modRing_mem (r : RingRef) (f : Ring → Ring) : (s.modRing r f).mem = s.mem := rfl
@[simp] theorem State.modRing_sramPoison (r : RingRef) (f : Ring → Ring) : (s.modRing r f).sramPoison = s.sramPoison := rfl
@[simp] theorem State.modRing_blkPoison (r : RingRef) (f : Ring → Ring) : (s.modRing r f).blkPoison = s.blkPoison := rfl
@[simp] theorem State.modRing_hostMem (r : RingRef) (f : Ring → Ring) : (s.modRing r f).hostMem = s.hostMem := rfl
@[simp] theorem State.modRing_hostDeny (r : RingRef) (f : Ring → Ring) : (s.modRing r f).hostDeny = s.hostDeny := rfl
@[simp] theorem State.modRing_settings (r : RingRef) (f : Ring → Ring) : (s.modRing r f).settings = s.settings := rfl
@[simp] theorem State.modRing_gov (r : RingRef) (f : Ring → Ring) : (s.modRing r f).gov = s.gov := rfl
@[simp] theorem State.modRing_activity (r : RingRef) (f : Ring → Ring) : (s.modRing r f).activity = s.activity := rfl
@[simp] theorem State.modRing_parishes (r : RingRef) (f : Ring → Ring) : (s.modRing r f).parishes = s.parishes := rfl
@[simp] theorem State.modRing_controllers (r : RingRef) (f : Ring → Ring) : (s.modRing r f).controllers = s.controllers := rfl
@[simp] theorem State.modRing_landings (r : RingRef) (f : Ring → Ring) : (s.modRing r f).landings = s.landings := rfl
@[simp] theorem State.modRing_dies (r : RingRef) (f : Ring → Ring) : (s.modRing r f).dies = s.dies := rfl
@[simp] theorem State.modRing_pressSlots (r : RingRef) (f : Ring → Ring) : (s.modRing r f).pressSlots = s.pressSlots := rfl
@[simp] theorem State.modRing_pressPend (r : RingRef) (f : Ring → Ring) : (s.modRing r f).pressPend = s.pressPend := rfl
@[simp] theorem State.modRing_keySlots (r : RingRef) (f : Ring → Ring) : (s.modRing r f).keySlots = s.keySlots := rfl
@[simp] theorem State.modRing_households (r : RingRef) (f : Ring → Ring) : (s.modRing r f).households = s.households := rfl
@[simp] theorem State.modRing_jobs (r : RingRef) (f : Ring → Ring) : (s.modRing r f).jobs = s.jobs := rfl
@[simp] theorem State.modRing_sessions (r : RingRef) (f : Ring → Ring) : (s.modRing r f).sessions = s.sessions := rfl
@[simp] theorem State.modRing_ledger (r : RingRef) (f : Ring → Ring) : (s.modRing r f).ledger = s.ledger := rfl
@[simp] theorem State.modRing_nextSeq (r : RingRef) (f : Ring → Ring) : (s.modRing r f).nextSeq = s.nextSeq := rfl
@[simp] theorem State.modRing_adapters (r : RingRef) (f : Ring → Ring) : (s.modRing r f).adapters = s.adapters := rfl
@[simp] theorem State.modRing_grammars (r : RingRef) (f : Ring → Ring) : (s.modRing r f).grammars = s.grammars := rfl
@[simp] theorem State.modRing_tensors (r : RingRef) (f : Ring → Ring) : (s.modRing r f).tensors = s.tensors := rfl
@[simp] theorem State.modRing_postboxes (r : RingRef) (f : Ring → Ring) : (s.modRing r f).postboxes = s.postboxes := rfl
@[simp] theorem State.modRing_noticeQ (r : RingRef) (f : Ring → Ring) : (s.modRing r f).noticeQ = s.noticeQ := rfl
@[simp] theorem State.modRing_numVFs (r : RingRef) (f : Ring → Ring) : (s.modRing r f).numVFs = s.numVFs := rfl
@[simp] theorem State.modRing_bar2Household (r : RingRef) (f : Ring → Ring) : (s.modRing r f).bar2Household = s.bar2Household := rfl
@[simp] theorem State.modRing_bar2Base (r : RingRef) (f : Ring → Ring) : (s.modRing r f).bar2Base = s.bar2Base := rfl
@[simp] theorem State.modRing_msix (r : RingRef) (f : Ring → Ring) : (s.modRing r f).msix = s.msix := rfl
@[simp] theorem State.modRing_hostOut (r : RingRef) (f : Ring → Ring) : (s.modRing r f).hostOut = s.hostOut := rfl
@[simp] theorem State.modRing_pins (r : RingRef) (f : Ring → Ring) : (s.modRing r f).pins = s.pins := rfl
@[simp] theorem State.modRing_resetStep (r : RingRef) (f : Ring → Ring) : (s.modRing r f).resetStep = s.resetStep := rfl
@[simp] theorem State.modRing_lifecycle (r : RingRef) (f : Ring → Ring) : (s.modRing r f).lifecycle = s.lifecycle := rfl
@[simp] theorem State.modRing_torus (r : RingRef) (f : Ring → Ring) : (s.modRing r f).torus = s.torus := rfl
@[simp] theorem State.modRing_logNext (r : RingRef) (f : Ring → Ring) : (s.modRing r f).logNext = s.logNext := rfl
@[simp] theorem State.modRing_logRing (r : RingRef) (f : Ring → Ring) : (s.modRing r f).logRing = s.logRing := rfl
@[simp] theorem State.modRing_bellFlight (r : RingRef) (f : Ring → Ring) : (s.modRing r f).bellFlight = s.bellFlight := rfl
@[simp] theorem State.modRing_deepSave (r : RingRef) (f : Ring → Ring) : (s.modRing r f).deepSave = s.deepSave := rfl
@[simp] theorem State.modRing_deepWake (r : RingRef) (f : Ring → Ring) : (s.modRing r f).deepWake = s.deepWake := rfl
@[simp] theorem State.modRing_reload (r : RingRef) (f : Ring → Ring) : (s.modRing r f).reload = s.reload := rfl
@[simp] theorem State.modRing_defects (r : RingRef) (f : Ring → Ring) : (s.modRing r f).defects = s.defects := rfl
@[simp] theorem State.modRing_sieves (r : RingRef) (f : Ring → Ring) : (s.modRing r f).sieves = s.sieves := rfl
@[simp] theorem State.modRing_msixPend (r : RingRef) (f : Ring → Ring) : (s.modRing r f).msixPend = s.msixPend := rfl
@[simp] theorem State.modRing_bar2Log2 (r : RingRef) (f : Ring → Ring) : (s.modRing r f).bar2Log2 = s.bar2Log2 := rfl
@[simp] theorem State.modRing_stranded (r : RingRef) (f : Ring → Ring) : (s.modRing r f).stranded = s.stranded := rfl
@[simp] theorem State.modRing_cut (r : RingRef) (f : Ring → Ring) : (s.modRing r f).cut = s.cut := rfl
@[simp] theorem State.modRing_rails (r : RingRef) (f : Ring → Ring) : (s.modRing r f).rails = s.rails := rfl
@[simp] theorem State.modRing_pcieSris (r : RingRef) (f : Ring → Ring) : (s.modRing r f).pcieSris = s.pcieSris := rfl
@[simp] theorem State.modRing_fetchNext (r : RingRef) (f : Ring → Ring) : (s.modRing r f).fetchNext = s.fetchNext := rfl
@[simp] theorem State.modRing_stopped (r : RingRef) (f : Ring → Ring) : (s.modRing r f).stopped = s.stopped := rfl
@[simp] theorem State.modRing_freeCtr (r : RingRef) (f : Ring → Ring) : (s.modRing r f).freeCtr = s.freeCtr := rfl
@[simp] theorem State.modRing_pending (r : RingRef) (f : Ring → Ring) : (s.modRing r f).pending = s.pending := rfl

/-! setParish -/

@[simp] theorem State.setParish_part (p : ParishRef) (x : Parish) : (s.setParish p x).part = s.part := rfl
@[simp] theorem State.setParish_ident (p : ParishRef) (x : Parish) : (s.setParish p x).ident = s.ident := rfl
@[simp] theorem State.setParish_clock (p : ParishRef) (x : Parish) : (s.setParish p x).clock = s.clock := rfl
@[simp] theorem State.setParish_mclk (p : ParishRef) (x : Parish) : (s.setParish p x).mclk = s.mclk := rfl
@[simp] theorem State.setParish_mem (p : ParishRef) (x : Parish) : (s.setParish p x).mem = s.mem := rfl
@[simp] theorem State.setParish_sramPoison (p : ParishRef) (x : Parish) : (s.setParish p x).sramPoison = s.sramPoison := rfl
@[simp] theorem State.setParish_blkPoison (p : ParishRef) (x : Parish) : (s.setParish p x).blkPoison = s.blkPoison := rfl
@[simp] theorem State.setParish_hostMem (p : ParishRef) (x : Parish) : (s.setParish p x).hostMem = s.hostMem := rfl
@[simp] theorem State.setParish_hostDeny (p : ParishRef) (x : Parish) : (s.setParish p x).hostDeny = s.hostDeny := rfl
@[simp] theorem State.setParish_settings (p : ParishRef) (x : Parish) : (s.setParish p x).settings = s.settings := rfl
@[simp] theorem State.setParish_gov (p : ParishRef) (x : Parish) : (s.setParish p x).gov = s.gov := rfl
@[simp] theorem State.setParish_activity (p : ParishRef) (x : Parish) : (s.setParish p x).activity = s.activity := rfl
@[simp] theorem State.setParish_hamlets (p : ParishRef) (x : Parish) : (s.setParish p x).hamlets = s.hamlets := rfl
@[simp] theorem State.setParish_controllers (p : ParishRef) (x : Parish) : (s.setParish p x).controllers = s.controllers := rfl
@[simp] theorem State.setParish_landings (p : ParishRef) (x : Parish) : (s.setParish p x).landings = s.landings := rfl
@[simp] theorem State.setParish_dies (p : ParishRef) (x : Parish) : (s.setParish p x).dies = s.dies := rfl
@[simp] theorem State.setParish_pressSlots (p : ParishRef) (x : Parish) : (s.setParish p x).pressSlots = s.pressSlots := rfl
@[simp] theorem State.setParish_pressPend (p : ParishRef) (x : Parish) : (s.setParish p x).pressPend = s.pressPend := rfl
@[simp] theorem State.setParish_keySlots (p : ParishRef) (x : Parish) : (s.setParish p x).keySlots = s.keySlots := rfl
@[simp] theorem State.setParish_households (p : ParishRef) (x : Parish) : (s.setParish p x).households = s.households := rfl
@[simp] theorem State.setParish_jobs (p : ParishRef) (x : Parish) : (s.setParish p x).jobs = s.jobs := rfl
@[simp] theorem State.setParish_sessions (p : ParishRef) (x : Parish) : (s.setParish p x).sessions = s.sessions := rfl
@[simp] theorem State.setParish_ledger (p : ParishRef) (x : Parish) : (s.setParish p x).ledger = s.ledger := rfl
@[simp] theorem State.setParish_nextSeq (p : ParishRef) (x : Parish) : (s.setParish p x).nextSeq = s.nextSeq := rfl
@[simp] theorem State.setParish_adapters (p : ParishRef) (x : Parish) : (s.setParish p x).adapters = s.adapters := rfl
@[simp] theorem State.setParish_grammars (p : ParishRef) (x : Parish) : (s.setParish p x).grammars = s.grammars := rfl
@[simp] theorem State.setParish_tensors (p : ParishRef) (x : Parish) : (s.setParish p x).tensors = s.tensors := rfl
@[simp] theorem State.setParish_postboxes (p : ParishRef) (x : Parish) : (s.setParish p x).postboxes = s.postboxes := rfl
@[simp] theorem State.setParish_noticeQ (p : ParishRef) (x : Parish) : (s.setParish p x).noticeQ = s.noticeQ := rfl
@[simp] theorem State.setParish_numVFs (p : ParishRef) (x : Parish) : (s.setParish p x).numVFs = s.numVFs := rfl
@[simp] theorem State.setParish_bar2Household (p : ParishRef) (x : Parish) : (s.setParish p x).bar2Household = s.bar2Household := rfl
@[simp] theorem State.setParish_bar2Base (p : ParishRef) (x : Parish) : (s.setParish p x).bar2Base = s.bar2Base := rfl
@[simp] theorem State.setParish_msix (p : ParishRef) (x : Parish) : (s.setParish p x).msix = s.msix := rfl
@[simp] theorem State.setParish_hostOut (p : ParishRef) (x : Parish) : (s.setParish p x).hostOut = s.hostOut := rfl
@[simp] theorem State.setParish_pins (p : ParishRef) (x : Parish) : (s.setParish p x).pins = s.pins := rfl
@[simp] theorem State.setParish_resetStep (p : ParishRef) (x : Parish) : (s.setParish p x).resetStep = s.resetStep := rfl
@[simp] theorem State.setParish_lifecycle (p : ParishRef) (x : Parish) : (s.setParish p x).lifecycle = s.lifecycle := rfl
@[simp] theorem State.setParish_torus (p : ParishRef) (x : Parish) : (s.setParish p x).torus = s.torus := rfl
@[simp] theorem State.setParish_logNext (p : ParishRef) (x : Parish) : (s.setParish p x).logNext = s.logNext := rfl
@[simp] theorem State.setParish_logRing (p : ParishRef) (x : Parish) : (s.setParish p x).logRing = s.logRing := rfl
@[simp] theorem State.setParish_bellFlight (p : ParishRef) (x : Parish) : (s.setParish p x).bellFlight = s.bellFlight := rfl
@[simp] theorem State.setParish_deepSave (p : ParishRef) (x : Parish) : (s.setParish p x).deepSave = s.deepSave := rfl
@[simp] theorem State.setParish_deepWake (p : ParishRef) (x : Parish) : (s.setParish p x).deepWake = s.deepWake := rfl
@[simp] theorem State.setParish_reload (p : ParishRef) (x : Parish) : (s.setParish p x).reload = s.reload := rfl
@[simp] theorem State.setParish_defects (p : ParishRef) (x : Parish) : (s.setParish p x).defects = s.defects := rfl
@[simp] theorem State.setParish_sieves (p : ParishRef) (x : Parish) : (s.setParish p x).sieves = s.sieves := rfl
@[simp] theorem State.setParish_msixPend (p : ParishRef) (x : Parish) : (s.setParish p x).msixPend = s.msixPend := rfl
@[simp] theorem State.setParish_bar2Log2 (p : ParishRef) (x : Parish) : (s.setParish p x).bar2Log2 = s.bar2Log2 := rfl
@[simp] theorem State.setParish_stranded (p : ParishRef) (x : Parish) : (s.setParish p x).stranded = s.stranded := rfl
@[simp] theorem State.setParish_cut (p : ParishRef) (x : Parish) : (s.setParish p x).cut = s.cut := rfl
@[simp] theorem State.setParish_rails (p : ParishRef) (x : Parish) : (s.setParish p x).rails = s.rails := rfl
@[simp] theorem State.setParish_pcieSris (p : ParishRef) (x : Parish) : (s.setParish p x).pcieSris = s.pcieSris := rfl
@[simp] theorem State.setParish_fetchNext (p : ParishRef) (x : Parish) : (s.setParish p x).fetchNext = s.fetchNext := rfl
@[simp] theorem State.setParish_stopped (p : ParishRef) (x : Parish) : (s.setParish p x).stopped = s.stopped := rfl
@[simp] theorem State.setParish_freeCtr (p : ParishRef) (x : Parish) : (s.setParish p x).freeCtr = s.freeCtr := rfl
@[simp] theorem State.setParish_pending (p : ParishRef) (x : Parish) : (s.setParish p x).pending = s.pending := rfl

/-! modParish -/

@[simp] theorem State.modParish_part (p : ParishRef) (f : Parish → Parish) : (s.modParish p f).part = s.part := rfl
@[simp] theorem State.modParish_ident (p : ParishRef) (f : Parish → Parish) : (s.modParish p f).ident = s.ident := rfl
@[simp] theorem State.modParish_clock (p : ParishRef) (f : Parish → Parish) : (s.modParish p f).clock = s.clock := rfl
@[simp] theorem State.modParish_mclk (p : ParishRef) (f : Parish → Parish) : (s.modParish p f).mclk = s.mclk := rfl
@[simp] theorem State.modParish_mem (p : ParishRef) (f : Parish → Parish) : (s.modParish p f).mem = s.mem := rfl
@[simp] theorem State.modParish_sramPoison (p : ParishRef) (f : Parish → Parish) : (s.modParish p f).sramPoison = s.sramPoison := rfl
@[simp] theorem State.modParish_blkPoison (p : ParishRef) (f : Parish → Parish) : (s.modParish p f).blkPoison = s.blkPoison := rfl
@[simp] theorem State.modParish_hostMem (p : ParishRef) (f : Parish → Parish) : (s.modParish p f).hostMem = s.hostMem := rfl
@[simp] theorem State.modParish_hostDeny (p : ParishRef) (f : Parish → Parish) : (s.modParish p f).hostDeny = s.hostDeny := rfl
@[simp] theorem State.modParish_settings (p : ParishRef) (f : Parish → Parish) : (s.modParish p f).settings = s.settings := rfl
@[simp] theorem State.modParish_gov (p : ParishRef) (f : Parish → Parish) : (s.modParish p f).gov = s.gov := rfl
@[simp] theorem State.modParish_activity (p : ParishRef) (f : Parish → Parish) : (s.modParish p f).activity = s.activity := rfl
@[simp] theorem State.modParish_hamlets (p : ParishRef) (f : Parish → Parish) : (s.modParish p f).hamlets = s.hamlets := rfl
@[simp] theorem State.modParish_controllers (p : ParishRef) (f : Parish → Parish) : (s.modParish p f).controllers = s.controllers := rfl
@[simp] theorem State.modParish_landings (p : ParishRef) (f : Parish → Parish) : (s.modParish p f).landings = s.landings := rfl
@[simp] theorem State.modParish_dies (p : ParishRef) (f : Parish → Parish) : (s.modParish p f).dies = s.dies := rfl
@[simp] theorem State.modParish_pressSlots (p : ParishRef) (f : Parish → Parish) : (s.modParish p f).pressSlots = s.pressSlots := rfl
@[simp] theorem State.modParish_pressPend (p : ParishRef) (f : Parish → Parish) : (s.modParish p f).pressPend = s.pressPend := rfl
@[simp] theorem State.modParish_keySlots (p : ParishRef) (f : Parish → Parish) : (s.modParish p f).keySlots = s.keySlots := rfl
@[simp] theorem State.modParish_households (p : ParishRef) (f : Parish → Parish) : (s.modParish p f).households = s.households := rfl
@[simp] theorem State.modParish_jobs (p : ParishRef) (f : Parish → Parish) : (s.modParish p f).jobs = s.jobs := rfl
@[simp] theorem State.modParish_sessions (p : ParishRef) (f : Parish → Parish) : (s.modParish p f).sessions = s.sessions := rfl
@[simp] theorem State.modParish_ledger (p : ParishRef) (f : Parish → Parish) : (s.modParish p f).ledger = s.ledger := rfl
@[simp] theorem State.modParish_nextSeq (p : ParishRef) (f : Parish → Parish) : (s.modParish p f).nextSeq = s.nextSeq := rfl
@[simp] theorem State.modParish_adapters (p : ParishRef) (f : Parish → Parish) : (s.modParish p f).adapters = s.adapters := rfl
@[simp] theorem State.modParish_grammars (p : ParishRef) (f : Parish → Parish) : (s.modParish p f).grammars = s.grammars := rfl
@[simp] theorem State.modParish_tensors (p : ParishRef) (f : Parish → Parish) : (s.modParish p f).tensors = s.tensors := rfl
@[simp] theorem State.modParish_postboxes (p : ParishRef) (f : Parish → Parish) : (s.modParish p f).postboxes = s.postboxes := rfl
@[simp] theorem State.modParish_noticeQ (p : ParishRef) (f : Parish → Parish) : (s.modParish p f).noticeQ = s.noticeQ := rfl
@[simp] theorem State.modParish_numVFs (p : ParishRef) (f : Parish → Parish) : (s.modParish p f).numVFs = s.numVFs := rfl
@[simp] theorem State.modParish_bar2Household (p : ParishRef) (f : Parish → Parish) : (s.modParish p f).bar2Household = s.bar2Household := rfl
@[simp] theorem State.modParish_bar2Base (p : ParishRef) (f : Parish → Parish) : (s.modParish p f).bar2Base = s.bar2Base := rfl
@[simp] theorem State.modParish_msix (p : ParishRef) (f : Parish → Parish) : (s.modParish p f).msix = s.msix := rfl
@[simp] theorem State.modParish_hostOut (p : ParishRef) (f : Parish → Parish) : (s.modParish p f).hostOut = s.hostOut := rfl
@[simp] theorem State.modParish_pins (p : ParishRef) (f : Parish → Parish) : (s.modParish p f).pins = s.pins := rfl
@[simp] theorem State.modParish_resetStep (p : ParishRef) (f : Parish → Parish) : (s.modParish p f).resetStep = s.resetStep := rfl
@[simp] theorem State.modParish_lifecycle (p : ParishRef) (f : Parish → Parish) : (s.modParish p f).lifecycle = s.lifecycle := rfl
@[simp] theorem State.modParish_torus (p : ParishRef) (f : Parish → Parish) : (s.modParish p f).torus = s.torus := rfl
@[simp] theorem State.modParish_logNext (p : ParishRef) (f : Parish → Parish) : (s.modParish p f).logNext = s.logNext := rfl
@[simp] theorem State.modParish_logRing (p : ParishRef) (f : Parish → Parish) : (s.modParish p f).logRing = s.logRing := rfl
@[simp] theorem State.modParish_bellFlight (p : ParishRef) (f : Parish → Parish) : (s.modParish p f).bellFlight = s.bellFlight := rfl
@[simp] theorem State.modParish_deepSave (p : ParishRef) (f : Parish → Parish) : (s.modParish p f).deepSave = s.deepSave := rfl
@[simp] theorem State.modParish_deepWake (p : ParishRef) (f : Parish → Parish) : (s.modParish p f).deepWake = s.deepWake := rfl
@[simp] theorem State.modParish_reload (p : ParishRef) (f : Parish → Parish) : (s.modParish p f).reload = s.reload := rfl
@[simp] theorem State.modParish_defects (p : ParishRef) (f : Parish → Parish) : (s.modParish p f).defects = s.defects := rfl
@[simp] theorem State.modParish_sieves (p : ParishRef) (f : Parish → Parish) : (s.modParish p f).sieves = s.sieves := rfl
@[simp] theorem State.modParish_msixPend (p : ParishRef) (f : Parish → Parish) : (s.modParish p f).msixPend = s.msixPend := rfl
@[simp] theorem State.modParish_bar2Log2 (p : ParishRef) (f : Parish → Parish) : (s.modParish p f).bar2Log2 = s.bar2Log2 := rfl
@[simp] theorem State.modParish_stranded (p : ParishRef) (f : Parish → Parish) : (s.modParish p f).stranded = s.stranded := rfl
@[simp] theorem State.modParish_cut (p : ParishRef) (f : Parish → Parish) : (s.modParish p f).cut = s.cut := rfl
@[simp] theorem State.modParish_rails (p : ParishRef) (f : Parish → Parish) : (s.modParish p f).rails = s.rails := rfl
@[simp] theorem State.modParish_pcieSris (p : ParishRef) (f : Parish → Parish) : (s.modParish p f).pcieSris = s.pcieSris := rfl
@[simp] theorem State.modParish_fetchNext (p : ParishRef) (f : Parish → Parish) : (s.modParish p f).fetchNext = s.fetchNext := rfl
@[simp] theorem State.modParish_stopped (p : ParishRef) (f : Parish → Parish) : (s.modParish p f).stopped = s.stopped := rfl
@[simp] theorem State.modParish_freeCtr (p : ParishRef) (f : Parish → Parish) : (s.modParish p f).freeCtr = s.freeCtr := rfl
@[simp] theorem State.modParish_pending (p : ParishRef) (f : Parish → Parish) : (s.modParish p f).pending = s.pending := rfl

/-! setPorter -/

@[simp] theorem State.setPorter_part (p : PorterRef) (x : Porter) : (s.setPorter p x).part = s.part := by cases p <;> rfl
@[simp] theorem State.setPorter_ident (p : PorterRef) (x : Porter) : (s.setPorter p x).ident = s.ident := by cases p <;> rfl
@[simp] theorem State.setPorter_clock (p : PorterRef) (x : Porter) : (s.setPorter p x).clock = s.clock := by cases p <;> rfl
@[simp] theorem State.setPorter_mclk (p : PorterRef) (x : Porter) : (s.setPorter p x).mclk = s.mclk := by cases p <;> rfl
@[simp] theorem State.setPorter_mem (p : PorterRef) (x : Porter) : (s.setPorter p x).mem = s.mem := by cases p <;> rfl
@[simp] theorem State.setPorter_sramPoison (p : PorterRef) (x : Porter) : (s.setPorter p x).sramPoison = s.sramPoison := by cases p <;> rfl
@[simp] theorem State.setPorter_blkPoison (p : PorterRef) (x : Porter) : (s.setPorter p x).blkPoison = s.blkPoison := by cases p <;> rfl
@[simp] theorem State.setPorter_hostMem (p : PorterRef) (x : Porter) : (s.setPorter p x).hostMem = s.hostMem := by cases p <;> rfl
@[simp] theorem State.setPorter_hostDeny (p : PorterRef) (x : Porter) : (s.setPorter p x).hostDeny = s.hostDeny := by cases p <;> rfl
@[simp] theorem State.setPorter_settings (p : PorterRef) (x : Porter) : (s.setPorter p x).settings = s.settings := by cases p <;> rfl
@[simp] theorem State.setPorter_gov (p : PorterRef) (x : Porter) : (s.setPorter p x).gov = s.gov := by cases p <;> rfl
@[simp] theorem State.setPorter_activity (p : PorterRef) (x : Porter) : (s.setPorter p x).activity = s.activity := by cases p <;> rfl
@[simp] theorem State.setPorter_controllers (p : PorterRef) (x : Porter) : (s.setPorter p x).controllers = s.controllers := by cases p <;> rfl
@[simp] theorem State.setPorter_landings (p : PorterRef) (x : Porter) : (s.setPorter p x).landings = s.landings := by cases p <;> rfl
@[simp] theorem State.setPorter_dies (p : PorterRef) (x : Porter) : (s.setPorter p x).dies = s.dies := by cases p <;> rfl
@[simp] theorem State.setPorter_pressSlots (p : PorterRef) (x : Porter) : (s.setPorter p x).pressSlots = s.pressSlots := by cases p <;> rfl
@[simp] theorem State.setPorter_pressPend (p : PorterRef) (x : Porter) : (s.setPorter p x).pressPend = s.pressPend := by cases p <;> rfl
@[simp] theorem State.setPorter_keySlots (p : PorterRef) (x : Porter) : (s.setPorter p x).keySlots = s.keySlots := by cases p <;> rfl
@[simp] theorem State.setPorter_households (p : PorterRef) (x : Porter) : (s.setPorter p x).households = s.households := by cases p <;> rfl
@[simp] theorem State.setPorter_jobs (p : PorterRef) (x : Porter) : (s.setPorter p x).jobs = s.jobs := by cases p <;> rfl
@[simp] theorem State.setPorter_sessions (p : PorterRef) (x : Porter) : (s.setPorter p x).sessions = s.sessions := by cases p <;> rfl
@[simp] theorem State.setPorter_ledger (p : PorterRef) (x : Porter) : (s.setPorter p x).ledger = s.ledger := by cases p <;> rfl
@[simp] theorem State.setPorter_nextSeq (p : PorterRef) (x : Porter) : (s.setPorter p x).nextSeq = s.nextSeq := by cases p <;> rfl
@[simp] theorem State.setPorter_adapters (p : PorterRef) (x : Porter) : (s.setPorter p x).adapters = s.adapters := by cases p <;> rfl
@[simp] theorem State.setPorter_grammars (p : PorterRef) (x : Porter) : (s.setPorter p x).grammars = s.grammars := by cases p <;> rfl
@[simp] theorem State.setPorter_tensors (p : PorterRef) (x : Porter) : (s.setPorter p x).tensors = s.tensors := by cases p <;> rfl
@[simp] theorem State.setPorter_postboxes (p : PorterRef) (x : Porter) : (s.setPorter p x).postboxes = s.postboxes := by cases p <;> rfl
@[simp] theorem State.setPorter_noticeQ (p : PorterRef) (x : Porter) : (s.setPorter p x).noticeQ = s.noticeQ := by cases p <;> rfl
@[simp] theorem State.setPorter_numVFs (p : PorterRef) (x : Porter) : (s.setPorter p x).numVFs = s.numVFs := by cases p <;> rfl
@[simp] theorem State.setPorter_bar2Household (p : PorterRef) (x : Porter) : (s.setPorter p x).bar2Household = s.bar2Household := by cases p <;> rfl
@[simp] theorem State.setPorter_bar2Base (p : PorterRef) (x : Porter) : (s.setPorter p x).bar2Base = s.bar2Base := by cases p <;> rfl
@[simp] theorem State.setPorter_msix (p : PorterRef) (x : Porter) : (s.setPorter p x).msix = s.msix := by cases p <;> rfl
@[simp] theorem State.setPorter_hostOut (p : PorterRef) (x : Porter) : (s.setPorter p x).hostOut = s.hostOut := by cases p <;> rfl
@[simp] theorem State.setPorter_pins (p : PorterRef) (x : Porter) : (s.setPorter p x).pins = s.pins := by cases p <;> rfl
@[simp] theorem State.setPorter_resetStep (p : PorterRef) (x : Porter) : (s.setPorter p x).resetStep = s.resetStep := by cases p <;> rfl
@[simp] theorem State.setPorter_lifecycle (p : PorterRef) (x : Porter) : (s.setPorter p x).lifecycle = s.lifecycle := by cases p <;> rfl
@[simp] theorem State.setPorter_torus (p : PorterRef) (x : Porter) : (s.setPorter p x).torus = s.torus := by cases p <;> rfl
@[simp] theorem State.setPorter_logNext (p : PorterRef) (x : Porter) : (s.setPorter p x).logNext = s.logNext := by cases p <;> rfl
@[simp] theorem State.setPorter_logRing (p : PorterRef) (x : Porter) : (s.setPorter p x).logRing = s.logRing := by cases p <;> rfl
@[simp] theorem State.setPorter_bellFlight (p : PorterRef) (x : Porter) : (s.setPorter p x).bellFlight = s.bellFlight := by cases p <;> rfl
@[simp] theorem State.setPorter_deepSave (p : PorterRef) (x : Porter) : (s.setPorter p x).deepSave = s.deepSave := by cases p <;> rfl
@[simp] theorem State.setPorter_deepWake (p : PorterRef) (x : Porter) : (s.setPorter p x).deepWake = s.deepWake := by cases p <;> rfl
@[simp] theorem State.setPorter_reload (p : PorterRef) (x : Porter) : (s.setPorter p x).reload = s.reload := by cases p <;> rfl
@[simp] theorem State.setPorter_defects (p : PorterRef) (x : Porter) : (s.setPorter p x).defects = s.defects := by cases p <;> rfl
@[simp] theorem State.setPorter_sieves (p : PorterRef) (x : Porter) : (s.setPorter p x).sieves = s.sieves := by cases p <;> rfl
@[simp] theorem State.setPorter_msixPend (p : PorterRef) (x : Porter) : (s.setPorter p x).msixPend = s.msixPend := by cases p <;> rfl
@[simp] theorem State.setPorter_bar2Log2 (p : PorterRef) (x : Porter) : (s.setPorter p x).bar2Log2 = s.bar2Log2 := by cases p <;> rfl
@[simp] theorem State.setPorter_stranded (p : PorterRef) (x : Porter) : (s.setPorter p x).stranded = s.stranded := by cases p <;> rfl
@[simp] theorem State.setPorter_stopped (p : PorterRef) (x : Porter) : (s.setPorter p x).stopped = s.stopped := by cases p <;> rfl
@[simp] theorem State.setPorter_freeCtr (p : PorterRef) (x : Porter) : (s.setPorter p x).freeCtr = s.freeCtr := by cases p <;> rfl
@[simp] theorem State.setPorter_pending (p : PorterRef) (x : Porter) : (s.setPorter p x).pending = s.pending := by cases p <;> rfl

/-! modPorter -/

@[simp] theorem State.modPorter_part (p : PorterRef) (f : Porter → Porter) : (s.modPorter p f).part = s.part := by cases p <;> rfl
@[simp] theorem State.modPorter_ident (p : PorterRef) (f : Porter → Porter) : (s.modPorter p f).ident = s.ident := by cases p <;> rfl
@[simp] theorem State.modPorter_clock (p : PorterRef) (f : Porter → Porter) : (s.modPorter p f).clock = s.clock := by cases p <;> rfl
@[simp] theorem State.modPorter_mclk (p : PorterRef) (f : Porter → Porter) : (s.modPorter p f).mclk = s.mclk := by cases p <;> rfl
@[simp] theorem State.modPorter_mem (p : PorterRef) (f : Porter → Porter) : (s.modPorter p f).mem = s.mem := by cases p <;> rfl
@[simp] theorem State.modPorter_sramPoison (p : PorterRef) (f : Porter → Porter) : (s.modPorter p f).sramPoison = s.sramPoison := by cases p <;> rfl
@[simp] theorem State.modPorter_blkPoison (p : PorterRef) (f : Porter → Porter) : (s.modPorter p f).blkPoison = s.blkPoison := by cases p <;> rfl
@[simp] theorem State.modPorter_hostMem (p : PorterRef) (f : Porter → Porter) : (s.modPorter p f).hostMem = s.hostMem := by cases p <;> rfl
@[simp] theorem State.modPorter_hostDeny (p : PorterRef) (f : Porter → Porter) : (s.modPorter p f).hostDeny = s.hostDeny := by cases p <;> rfl
@[simp] theorem State.modPorter_settings (p : PorterRef) (f : Porter → Porter) : (s.modPorter p f).settings = s.settings := by cases p <;> rfl
@[simp] theorem State.modPorter_gov (p : PorterRef) (f : Porter → Porter) : (s.modPorter p f).gov = s.gov := by cases p <;> rfl
@[simp] theorem State.modPorter_activity (p : PorterRef) (f : Porter → Porter) : (s.modPorter p f).activity = s.activity := by cases p <;> rfl
@[simp] theorem State.modPorter_controllers (p : PorterRef) (f : Porter → Porter) : (s.modPorter p f).controllers = s.controllers := by cases p <;> rfl
@[simp] theorem State.modPorter_landings (p : PorterRef) (f : Porter → Porter) : (s.modPorter p f).landings = s.landings := by cases p <;> rfl
@[simp] theorem State.modPorter_dies (p : PorterRef) (f : Porter → Porter) : (s.modPorter p f).dies = s.dies := by cases p <;> rfl
@[simp] theorem State.modPorter_pressSlots (p : PorterRef) (f : Porter → Porter) : (s.modPorter p f).pressSlots = s.pressSlots := by cases p <;> rfl
@[simp] theorem State.modPorter_pressPend (p : PorterRef) (f : Porter → Porter) : (s.modPorter p f).pressPend = s.pressPend := by cases p <;> rfl
@[simp] theorem State.modPorter_keySlots (p : PorterRef) (f : Porter → Porter) : (s.modPorter p f).keySlots = s.keySlots := by cases p <;> rfl
@[simp] theorem State.modPorter_households (p : PorterRef) (f : Porter → Porter) : (s.modPorter p f).households = s.households := by cases p <;> rfl
@[simp] theorem State.modPorter_jobs (p : PorterRef) (f : Porter → Porter) : (s.modPorter p f).jobs = s.jobs := by cases p <;> rfl
@[simp] theorem State.modPorter_sessions (p : PorterRef) (f : Porter → Porter) : (s.modPorter p f).sessions = s.sessions := by cases p <;> rfl
@[simp] theorem State.modPorter_ledger (p : PorterRef) (f : Porter → Porter) : (s.modPorter p f).ledger = s.ledger := by cases p <;> rfl
@[simp] theorem State.modPorter_nextSeq (p : PorterRef) (f : Porter → Porter) : (s.modPorter p f).nextSeq = s.nextSeq := by cases p <;> rfl
@[simp] theorem State.modPorter_adapters (p : PorterRef) (f : Porter → Porter) : (s.modPorter p f).adapters = s.adapters := by cases p <;> rfl
@[simp] theorem State.modPorter_grammars (p : PorterRef) (f : Porter → Porter) : (s.modPorter p f).grammars = s.grammars := by cases p <;> rfl
@[simp] theorem State.modPorter_tensors (p : PorterRef) (f : Porter → Porter) : (s.modPorter p f).tensors = s.tensors := by cases p <;> rfl
@[simp] theorem State.modPorter_postboxes (p : PorterRef) (f : Porter → Porter) : (s.modPorter p f).postboxes = s.postboxes := by cases p <;> rfl
@[simp] theorem State.modPorter_noticeQ (p : PorterRef) (f : Porter → Porter) : (s.modPorter p f).noticeQ = s.noticeQ := by cases p <;> rfl
@[simp] theorem State.modPorter_numVFs (p : PorterRef) (f : Porter → Porter) : (s.modPorter p f).numVFs = s.numVFs := by cases p <;> rfl
@[simp] theorem State.modPorter_bar2Household (p : PorterRef) (f : Porter → Porter) : (s.modPorter p f).bar2Household = s.bar2Household := by cases p <;> rfl
@[simp] theorem State.modPorter_bar2Base (p : PorterRef) (f : Porter → Porter) : (s.modPorter p f).bar2Base = s.bar2Base := by cases p <;> rfl
@[simp] theorem State.modPorter_msix (p : PorterRef) (f : Porter → Porter) : (s.modPorter p f).msix = s.msix := by cases p <;> rfl
@[simp] theorem State.modPorter_hostOut (p : PorterRef) (f : Porter → Porter) : (s.modPorter p f).hostOut = s.hostOut := by cases p <;> rfl
@[simp] theorem State.modPorter_pins (p : PorterRef) (f : Porter → Porter) : (s.modPorter p f).pins = s.pins := by cases p <;> rfl
@[simp] theorem State.modPorter_resetStep (p : PorterRef) (f : Porter → Porter) : (s.modPorter p f).resetStep = s.resetStep := by cases p <;> rfl
@[simp] theorem State.modPorter_lifecycle (p : PorterRef) (f : Porter → Porter) : (s.modPorter p f).lifecycle = s.lifecycle := by cases p <;> rfl
@[simp] theorem State.modPorter_torus (p : PorterRef) (f : Porter → Porter) : (s.modPorter p f).torus = s.torus := by cases p <;> rfl
@[simp] theorem State.modPorter_logNext (p : PorterRef) (f : Porter → Porter) : (s.modPorter p f).logNext = s.logNext := by cases p <;> rfl
@[simp] theorem State.modPorter_logRing (p : PorterRef) (f : Porter → Porter) : (s.modPorter p f).logRing = s.logRing := by cases p <;> rfl
@[simp] theorem State.modPorter_bellFlight (p : PorterRef) (f : Porter → Porter) : (s.modPorter p f).bellFlight = s.bellFlight := by cases p <;> rfl
@[simp] theorem State.modPorter_deepSave (p : PorterRef) (f : Porter → Porter) : (s.modPorter p f).deepSave = s.deepSave := by cases p <;> rfl
@[simp] theorem State.modPorter_deepWake (p : PorterRef) (f : Porter → Porter) : (s.modPorter p f).deepWake = s.deepWake := by cases p <;> rfl
@[simp] theorem State.modPorter_reload (p : PorterRef) (f : Porter → Porter) : (s.modPorter p f).reload = s.reload := by cases p <;> rfl
@[simp] theorem State.modPorter_defects (p : PorterRef) (f : Porter → Porter) : (s.modPorter p f).defects = s.defects := by cases p <;> rfl
@[simp] theorem State.modPorter_sieves (p : PorterRef) (f : Porter → Porter) : (s.modPorter p f).sieves = s.sieves := by cases p <;> rfl
@[simp] theorem State.modPorter_msixPend (p : PorterRef) (f : Porter → Porter) : (s.modPorter p f).msixPend = s.msixPend := by cases p <;> rfl
@[simp] theorem State.modPorter_bar2Log2 (p : PorterRef) (f : Porter → Porter) : (s.modPorter p f).bar2Log2 = s.bar2Log2 := by cases p <;> rfl
@[simp] theorem State.modPorter_stranded (p : PorterRef) (f : Porter → Porter) : (s.modPorter p f).stranded = s.stranded := by cases p <;> rfl
@[simp] theorem State.modPorter_stopped (p : PorterRef) (f : Porter → Porter) : (s.modPorter p f).stopped = s.stopped := by cases p <;> rfl
@[simp] theorem State.modPorter_freeCtr (p : PorterRef) (f : Porter → Porter) : (s.modPorter p f).freeCtr = s.freeCtr := by cases p <;> rfl
@[simp] theorem State.modPorter_pending (p : PorterRef) (f : Porter → Porter) : (s.modPorter p f).pending = s.pending := by cases p <;> rfl

/-! setTally -/

@[simp] theorem State.setTally_part (t : TallyRef) (x : Tally) : (s.setTally t x).part = s.part := by cases t <;> rfl
@[simp] theorem State.setTally_ident (t : TallyRef) (x : Tally) : (s.setTally t x).ident = s.ident := by cases t <;> rfl
@[simp] theorem State.setTally_clock (t : TallyRef) (x : Tally) : (s.setTally t x).clock = s.clock := by cases t <;> rfl
@[simp] theorem State.setTally_mclk (t : TallyRef) (x : Tally) : (s.setTally t x).mclk = s.mclk := by cases t <;> rfl
@[simp] theorem State.setTally_mem (t : TallyRef) (x : Tally) : (s.setTally t x).mem = s.mem := by cases t <;> rfl
@[simp] theorem State.setTally_sramPoison (t : TallyRef) (x : Tally) : (s.setTally t x).sramPoison = s.sramPoison := by cases t <;> rfl
@[simp] theorem State.setTally_blkPoison (t : TallyRef) (x : Tally) : (s.setTally t x).blkPoison = s.blkPoison := by cases t <;> rfl
@[simp] theorem State.setTally_hostMem (t : TallyRef) (x : Tally) : (s.setTally t x).hostMem = s.hostMem := by cases t <;> rfl
@[simp] theorem State.setTally_hostDeny (t : TallyRef) (x : Tally) : (s.setTally t x).hostDeny = s.hostDeny := by cases t <;> rfl
@[simp] theorem State.setTally_settings (t : TallyRef) (x : Tally) : (s.setTally t x).settings = s.settings := by cases t <;> rfl
@[simp] theorem State.setTally_gov (t : TallyRef) (x : Tally) : (s.setTally t x).gov = s.gov := by cases t <;> rfl
@[simp] theorem State.setTally_activity (t : TallyRef) (x : Tally) : (s.setTally t x).activity = s.activity := by cases t <;> rfl
@[simp] theorem State.setTally_controllers (t : TallyRef) (x : Tally) : (s.setTally t x).controllers = s.controllers := by cases t <;> rfl
@[simp] theorem State.setTally_landings (t : TallyRef) (x : Tally) : (s.setTally t x).landings = s.landings := by cases t <;> rfl
@[simp] theorem State.setTally_dies (t : TallyRef) (x : Tally) : (s.setTally t x).dies = s.dies := by cases t <;> rfl
@[simp] theorem State.setTally_pressSlots (t : TallyRef) (x : Tally) : (s.setTally t x).pressSlots = s.pressSlots := by cases t <;> rfl
@[simp] theorem State.setTally_pressPend (t : TallyRef) (x : Tally) : (s.setTally t x).pressPend = s.pressPend := by cases t <;> rfl
@[simp] theorem State.setTally_keySlots (t : TallyRef) (x : Tally) : (s.setTally t x).keySlots = s.keySlots := by cases t <;> rfl
@[simp] theorem State.setTally_households (t : TallyRef) (x : Tally) : (s.setTally t x).households = s.households := by cases t <;> rfl
@[simp] theorem State.setTally_jobs (t : TallyRef) (x : Tally) : (s.setTally t x).jobs = s.jobs := by cases t <;> rfl
@[simp] theorem State.setTally_sessions (t : TallyRef) (x : Tally) : (s.setTally t x).sessions = s.sessions := by cases t <;> rfl
@[simp] theorem State.setTally_ledger (t : TallyRef) (x : Tally) : (s.setTally t x).ledger = s.ledger := by cases t <;> rfl
@[simp] theorem State.setTally_nextSeq (t : TallyRef) (x : Tally) : (s.setTally t x).nextSeq = s.nextSeq := by cases t <;> rfl
@[simp] theorem State.setTally_adapters (t : TallyRef) (x : Tally) : (s.setTally t x).adapters = s.adapters := by cases t <;> rfl
@[simp] theorem State.setTally_grammars (t : TallyRef) (x : Tally) : (s.setTally t x).grammars = s.grammars := by cases t <;> rfl
@[simp] theorem State.setTally_tensors (t : TallyRef) (x : Tally) : (s.setTally t x).tensors = s.tensors := by cases t <;> rfl
@[simp] theorem State.setTally_postboxes (t : TallyRef) (x : Tally) : (s.setTally t x).postboxes = s.postboxes := by cases t <;> rfl
@[simp] theorem State.setTally_noticeQ (t : TallyRef) (x : Tally) : (s.setTally t x).noticeQ = s.noticeQ := by cases t <;> rfl
@[simp] theorem State.setTally_numVFs (t : TallyRef) (x : Tally) : (s.setTally t x).numVFs = s.numVFs := by cases t <;> rfl
@[simp] theorem State.setTally_bar2Household (t : TallyRef) (x : Tally) : (s.setTally t x).bar2Household = s.bar2Household := by cases t <;> rfl
@[simp] theorem State.setTally_bar2Base (t : TallyRef) (x : Tally) : (s.setTally t x).bar2Base = s.bar2Base := by cases t <;> rfl
@[simp] theorem State.setTally_msix (t : TallyRef) (x : Tally) : (s.setTally t x).msix = s.msix := by cases t <;> rfl
@[simp] theorem State.setTally_hostOut (t : TallyRef) (x : Tally) : (s.setTally t x).hostOut = s.hostOut := by cases t <;> rfl
@[simp] theorem State.setTally_pins (t : TallyRef) (x : Tally) : (s.setTally t x).pins = s.pins := by cases t <;> rfl
@[simp] theorem State.setTally_resetStep (t : TallyRef) (x : Tally) : (s.setTally t x).resetStep = s.resetStep := by cases t <;> rfl
@[simp] theorem State.setTally_lifecycle (t : TallyRef) (x : Tally) : (s.setTally t x).lifecycle = s.lifecycle := by cases t <;> rfl
@[simp] theorem State.setTally_torus (t : TallyRef) (x : Tally) : (s.setTally t x).torus = s.torus := by cases t <;> rfl
@[simp] theorem State.setTally_logNext (t : TallyRef) (x : Tally) : (s.setTally t x).logNext = s.logNext := by cases t <;> rfl
@[simp] theorem State.setTally_logRing (t : TallyRef) (x : Tally) : (s.setTally t x).logRing = s.logRing := by cases t <;> rfl
@[simp] theorem State.setTally_bellFlight (t : TallyRef) (x : Tally) : (s.setTally t x).bellFlight = s.bellFlight := by cases t <;> rfl
@[simp] theorem State.setTally_deepSave (t : TallyRef) (x : Tally) : (s.setTally t x).deepSave = s.deepSave := by cases t <;> rfl
@[simp] theorem State.setTally_deepWake (t : TallyRef) (x : Tally) : (s.setTally t x).deepWake = s.deepWake := by cases t <;> rfl
@[simp] theorem State.setTally_reload (t : TallyRef) (x : Tally) : (s.setTally t x).reload = s.reload := by cases t <;> rfl
@[simp] theorem State.setTally_defects (t : TallyRef) (x : Tally) : (s.setTally t x).defects = s.defects := by cases t <;> rfl
@[simp] theorem State.setTally_sieves (t : TallyRef) (x : Tally) : (s.setTally t x).sieves = s.sieves := by cases t <;> rfl
@[simp] theorem State.setTally_msixPend (t : TallyRef) (x : Tally) : (s.setTally t x).msixPend = s.msixPend := by cases t <;> rfl
@[simp] theorem State.setTally_bar2Log2 (t : TallyRef) (x : Tally) : (s.setTally t x).bar2Log2 = s.bar2Log2 := by cases t <;> rfl
@[simp] theorem State.setTally_stranded (t : TallyRef) (x : Tally) : (s.setTally t x).stranded = s.stranded := by cases t <;> rfl
@[simp] theorem State.setTally_stopped (t : TallyRef) (x : Tally) : (s.setTally t x).stopped = s.stopped := by cases t <;> rfl
@[simp] theorem State.setTally_freeCtr (t : TallyRef) (x : Tally) : (s.setTally t x).freeCtr = s.freeCtr := by cases t <;> rfl
@[simp] theorem State.setTally_pending (t : TallyRef) (x : Tally) : (s.setTally t x).pending = s.pending := by cases t <;> rfl

/-! modTally -/

@[simp] theorem State.modTally_part (t : TallyRef) (f : Tally → Tally) : (s.modTally t f).part = s.part := by cases t <;> rfl
@[simp] theorem State.modTally_ident (t : TallyRef) (f : Tally → Tally) : (s.modTally t f).ident = s.ident := by cases t <;> rfl
@[simp] theorem State.modTally_clock (t : TallyRef) (f : Tally → Tally) : (s.modTally t f).clock = s.clock := by cases t <;> rfl
@[simp] theorem State.modTally_mclk (t : TallyRef) (f : Tally → Tally) : (s.modTally t f).mclk = s.mclk := by cases t <;> rfl
@[simp] theorem State.modTally_mem (t : TallyRef) (f : Tally → Tally) : (s.modTally t f).mem = s.mem := by cases t <;> rfl
@[simp] theorem State.modTally_sramPoison (t : TallyRef) (f : Tally → Tally) : (s.modTally t f).sramPoison = s.sramPoison := by cases t <;> rfl
@[simp] theorem State.modTally_blkPoison (t : TallyRef) (f : Tally → Tally) : (s.modTally t f).blkPoison = s.blkPoison := by cases t <;> rfl
@[simp] theorem State.modTally_hostMem (t : TallyRef) (f : Tally → Tally) : (s.modTally t f).hostMem = s.hostMem := by cases t <;> rfl
@[simp] theorem State.modTally_hostDeny (t : TallyRef) (f : Tally → Tally) : (s.modTally t f).hostDeny = s.hostDeny := by cases t <;> rfl
@[simp] theorem State.modTally_settings (t : TallyRef) (f : Tally → Tally) : (s.modTally t f).settings = s.settings := by cases t <;> rfl
@[simp] theorem State.modTally_gov (t : TallyRef) (f : Tally → Tally) : (s.modTally t f).gov = s.gov := by cases t <;> rfl
@[simp] theorem State.modTally_activity (t : TallyRef) (f : Tally → Tally) : (s.modTally t f).activity = s.activity := by cases t <;> rfl
@[simp] theorem State.modTally_controllers (t : TallyRef) (f : Tally → Tally) : (s.modTally t f).controllers = s.controllers := by cases t <;> rfl
@[simp] theorem State.modTally_landings (t : TallyRef) (f : Tally → Tally) : (s.modTally t f).landings = s.landings := by cases t <;> rfl
@[simp] theorem State.modTally_dies (t : TallyRef) (f : Tally → Tally) : (s.modTally t f).dies = s.dies := by cases t <;> rfl
@[simp] theorem State.modTally_pressSlots (t : TallyRef) (f : Tally → Tally) : (s.modTally t f).pressSlots = s.pressSlots := by cases t <;> rfl
@[simp] theorem State.modTally_pressPend (t : TallyRef) (f : Tally → Tally) : (s.modTally t f).pressPend = s.pressPend := by cases t <;> rfl
@[simp] theorem State.modTally_keySlots (t : TallyRef) (f : Tally → Tally) : (s.modTally t f).keySlots = s.keySlots := by cases t <;> rfl
@[simp] theorem State.modTally_households (t : TallyRef) (f : Tally → Tally) : (s.modTally t f).households = s.households := by cases t <;> rfl
@[simp] theorem State.modTally_jobs (t : TallyRef) (f : Tally → Tally) : (s.modTally t f).jobs = s.jobs := by cases t <;> rfl
@[simp] theorem State.modTally_sessions (t : TallyRef) (f : Tally → Tally) : (s.modTally t f).sessions = s.sessions := by cases t <;> rfl
@[simp] theorem State.modTally_ledger (t : TallyRef) (f : Tally → Tally) : (s.modTally t f).ledger = s.ledger := by cases t <;> rfl
@[simp] theorem State.modTally_nextSeq (t : TallyRef) (f : Tally → Tally) : (s.modTally t f).nextSeq = s.nextSeq := by cases t <;> rfl
@[simp] theorem State.modTally_adapters (t : TallyRef) (f : Tally → Tally) : (s.modTally t f).adapters = s.adapters := by cases t <;> rfl
@[simp] theorem State.modTally_grammars (t : TallyRef) (f : Tally → Tally) : (s.modTally t f).grammars = s.grammars := by cases t <;> rfl
@[simp] theorem State.modTally_tensors (t : TallyRef) (f : Tally → Tally) : (s.modTally t f).tensors = s.tensors := by cases t <;> rfl
@[simp] theorem State.modTally_postboxes (t : TallyRef) (f : Tally → Tally) : (s.modTally t f).postboxes = s.postboxes := by cases t <;> rfl
@[simp] theorem State.modTally_noticeQ (t : TallyRef) (f : Tally → Tally) : (s.modTally t f).noticeQ = s.noticeQ := by cases t <;> rfl
@[simp] theorem State.modTally_numVFs (t : TallyRef) (f : Tally → Tally) : (s.modTally t f).numVFs = s.numVFs := by cases t <;> rfl
@[simp] theorem State.modTally_bar2Household (t : TallyRef) (f : Tally → Tally) : (s.modTally t f).bar2Household = s.bar2Household := by cases t <;> rfl
@[simp] theorem State.modTally_bar2Base (t : TallyRef) (f : Tally → Tally) : (s.modTally t f).bar2Base = s.bar2Base := by cases t <;> rfl
@[simp] theorem State.modTally_msix (t : TallyRef) (f : Tally → Tally) : (s.modTally t f).msix = s.msix := by cases t <;> rfl
@[simp] theorem State.modTally_hostOut (t : TallyRef) (f : Tally → Tally) : (s.modTally t f).hostOut = s.hostOut := by cases t <;> rfl
@[simp] theorem State.modTally_pins (t : TallyRef) (f : Tally → Tally) : (s.modTally t f).pins = s.pins := by cases t <;> rfl
@[simp] theorem State.modTally_resetStep (t : TallyRef) (f : Tally → Tally) : (s.modTally t f).resetStep = s.resetStep := by cases t <;> rfl
@[simp] theorem State.modTally_lifecycle (t : TallyRef) (f : Tally → Tally) : (s.modTally t f).lifecycle = s.lifecycle := by cases t <;> rfl
@[simp] theorem State.modTally_torus (t : TallyRef) (f : Tally → Tally) : (s.modTally t f).torus = s.torus := by cases t <;> rfl
@[simp] theorem State.modTally_logNext (t : TallyRef) (f : Tally → Tally) : (s.modTally t f).logNext = s.logNext := by cases t <;> rfl
@[simp] theorem State.modTally_logRing (t : TallyRef) (f : Tally → Tally) : (s.modTally t f).logRing = s.logRing := by cases t <;> rfl
@[simp] theorem State.modTally_bellFlight (t : TallyRef) (f : Tally → Tally) : (s.modTally t f).bellFlight = s.bellFlight := by cases t <;> rfl
@[simp] theorem State.modTally_deepSave (t : TallyRef) (f : Tally → Tally) : (s.modTally t f).deepSave = s.deepSave := by cases t <;> rfl
@[simp] theorem State.modTally_deepWake (t : TallyRef) (f : Tally → Tally) : (s.modTally t f).deepWake = s.deepWake := by cases t <;> rfl
@[simp] theorem State.modTally_reload (t : TallyRef) (f : Tally → Tally) : (s.modTally t f).reload = s.reload := by cases t <;> rfl
@[simp] theorem State.modTally_defects (t : TallyRef) (f : Tally → Tally) : (s.modTally t f).defects = s.defects := by cases t <;> rfl
@[simp] theorem State.modTally_sieves (t : TallyRef) (f : Tally → Tally) : (s.modTally t f).sieves = s.sieves := by cases t <;> rfl
@[simp] theorem State.modTally_msixPend (t : TallyRef) (f : Tally → Tally) : (s.modTally t f).msixPend = s.msixPend := by cases t <;> rfl
@[simp] theorem State.modTally_bar2Log2 (t : TallyRef) (f : Tally → Tally) : (s.modTally t f).bar2Log2 = s.bar2Log2 := by cases t <;> rfl
@[simp] theorem State.modTally_stranded (t : TallyRef) (f : Tally → Tally) : (s.modTally t f).stranded = s.stranded := by cases t <;> rfl
@[simp] theorem State.modTally_stopped (t : TallyRef) (f : Tally → Tally) : (s.modTally t f).stopped = s.stopped := by cases t <;> rfl
@[simp] theorem State.modTally_freeCtr (t : TallyRef) (f : Tally → Tally) : (s.modTally t f).freeCtr = s.freeCtr := by cases t <;> rfl
@[simp] theorem State.modTally_pending (t : TallyRef) (f : Tally → Tally) : (s.modTally t f).pending = s.pending := by cases t <;> rfl

/-! setDie -/

@[simp] theorem State.setDie_part (d : Nat) (x : Die) : (s.setDie d x).part = s.part := rfl
@[simp] theorem State.setDie_ident (d : Nat) (x : Die) : (s.setDie d x).ident = s.ident := rfl
@[simp] theorem State.setDie_clock (d : Nat) (x : Die) : (s.setDie d x).clock = s.clock := rfl
@[simp] theorem State.setDie_mclk (d : Nat) (x : Die) : (s.setDie d x).mclk = s.mclk := rfl
@[simp] theorem State.setDie_mem (d : Nat) (x : Die) : (s.setDie d x).mem = s.mem := rfl
@[simp] theorem State.setDie_sramPoison (d : Nat) (x : Die) : (s.setDie d x).sramPoison = s.sramPoison := rfl
@[simp] theorem State.setDie_blkPoison (d : Nat) (x : Die) : (s.setDie d x).blkPoison = s.blkPoison := rfl
@[simp] theorem State.setDie_hostMem (d : Nat) (x : Die) : (s.setDie d x).hostMem = s.hostMem := rfl
@[simp] theorem State.setDie_hostDeny (d : Nat) (x : Die) : (s.setDie d x).hostDeny = s.hostDeny := rfl
@[simp] theorem State.setDie_settings (d : Nat) (x : Die) : (s.setDie d x).settings = s.settings := rfl
@[simp] theorem State.setDie_gov (d : Nat) (x : Die) : (s.setDie d x).gov = s.gov := rfl
@[simp] theorem State.setDie_activity (d : Nat) (x : Die) : (s.setDie d x).activity = s.activity := rfl
@[simp] theorem State.setDie_hamlets (d : Nat) (x : Die) : (s.setDie d x).hamlets = s.hamlets := rfl
@[simp] theorem State.setDie_parishes (d : Nat) (x : Die) : (s.setDie d x).parishes = s.parishes := rfl
@[simp] theorem State.setDie_controllers (d : Nat) (x : Die) : (s.setDie d x).controllers = s.controllers := rfl
@[simp] theorem State.setDie_landings (d : Nat) (x : Die) : (s.setDie d x).landings = s.landings := rfl
@[simp] theorem State.setDie_pressSlots (d : Nat) (x : Die) : (s.setDie d x).pressSlots = s.pressSlots := rfl
@[simp] theorem State.setDie_pressPend (d : Nat) (x : Die) : (s.setDie d x).pressPend = s.pressPend := rfl
@[simp] theorem State.setDie_keySlots (d : Nat) (x : Die) : (s.setDie d x).keySlots = s.keySlots := rfl
@[simp] theorem State.setDie_households (d : Nat) (x : Die) : (s.setDie d x).households = s.households := rfl
@[simp] theorem State.setDie_jobs (d : Nat) (x : Die) : (s.setDie d x).jobs = s.jobs := rfl
@[simp] theorem State.setDie_sessions (d : Nat) (x : Die) : (s.setDie d x).sessions = s.sessions := rfl
@[simp] theorem State.setDie_ledger (d : Nat) (x : Die) : (s.setDie d x).ledger = s.ledger := rfl
@[simp] theorem State.setDie_nextSeq (d : Nat) (x : Die) : (s.setDie d x).nextSeq = s.nextSeq := rfl
@[simp] theorem State.setDie_adapters (d : Nat) (x : Die) : (s.setDie d x).adapters = s.adapters := rfl
@[simp] theorem State.setDie_grammars (d : Nat) (x : Die) : (s.setDie d x).grammars = s.grammars := rfl
@[simp] theorem State.setDie_tensors (d : Nat) (x : Die) : (s.setDie d x).tensors = s.tensors := rfl
@[simp] theorem State.setDie_postboxes (d : Nat) (x : Die) : (s.setDie d x).postboxes = s.postboxes := rfl
@[simp] theorem State.setDie_noticeQ (d : Nat) (x : Die) : (s.setDie d x).noticeQ = s.noticeQ := rfl
@[simp] theorem State.setDie_numVFs (d : Nat) (x : Die) : (s.setDie d x).numVFs = s.numVFs := rfl
@[simp] theorem State.setDie_bar2Household (d : Nat) (x : Die) : (s.setDie d x).bar2Household = s.bar2Household := rfl
@[simp] theorem State.setDie_bar2Base (d : Nat) (x : Die) : (s.setDie d x).bar2Base = s.bar2Base := rfl
@[simp] theorem State.setDie_msix (d : Nat) (x : Die) : (s.setDie d x).msix = s.msix := rfl
@[simp] theorem State.setDie_hostOut (d : Nat) (x : Die) : (s.setDie d x).hostOut = s.hostOut := rfl
@[simp] theorem State.setDie_pins (d : Nat) (x : Die) : (s.setDie d x).pins = s.pins := rfl
@[simp] theorem State.setDie_resetStep (d : Nat) (x : Die) : (s.setDie d x).resetStep = s.resetStep := rfl
@[simp] theorem State.setDie_lifecycle (d : Nat) (x : Die) : (s.setDie d x).lifecycle = s.lifecycle := rfl
@[simp] theorem State.setDie_torus (d : Nat) (x : Die) : (s.setDie d x).torus = s.torus := rfl
@[simp] theorem State.setDie_logNext (d : Nat) (x : Die) : (s.setDie d x).logNext = s.logNext := rfl
@[simp] theorem State.setDie_logRing (d : Nat) (x : Die) : (s.setDie d x).logRing = s.logRing := rfl
@[simp] theorem State.setDie_bellFlight (d : Nat) (x : Die) : (s.setDie d x).bellFlight = s.bellFlight := rfl
@[simp] theorem State.setDie_deepSave (d : Nat) (x : Die) : (s.setDie d x).deepSave = s.deepSave := rfl
@[simp] theorem State.setDie_deepWake (d : Nat) (x : Die) : (s.setDie d x).deepWake = s.deepWake := rfl
@[simp] theorem State.setDie_reload (d : Nat) (x : Die) : (s.setDie d x).reload = s.reload := rfl
@[simp] theorem State.setDie_defects (d : Nat) (x : Die) : (s.setDie d x).defects = s.defects := rfl
@[simp] theorem State.setDie_sieves (d : Nat) (x : Die) : (s.setDie d x).sieves = s.sieves := rfl
@[simp] theorem State.setDie_msixPend (d : Nat) (x : Die) : (s.setDie d x).msixPend = s.msixPend := rfl
@[simp] theorem State.setDie_bar2Log2 (d : Nat) (x : Die) : (s.setDie d x).bar2Log2 = s.bar2Log2 := rfl
@[simp] theorem State.setDie_stranded (d : Nat) (x : Die) : (s.setDie d x).stranded = s.stranded := rfl
@[simp] theorem State.setDie_cut (d : Nat) (x : Die) : (s.setDie d x).cut = s.cut := rfl
@[simp] theorem State.setDie_rails (d : Nat) (x : Die) : (s.setDie d x).rails = s.rails := rfl
@[simp] theorem State.setDie_pcieSris (d : Nat) (x : Die) : (s.setDie d x).pcieSris = s.pcieSris := rfl
@[simp] theorem State.setDie_fetchNext (d : Nat) (x : Die) : (s.setDie d x).fetchNext = s.fetchNext := rfl
@[simp] theorem State.setDie_stopped (d : Nat) (x : Die) : (s.setDie d x).stopped = s.stopped := rfl
@[simp] theorem State.setDie_freeCtr (d : Nat) (x : Die) : (s.setDie d x).freeCtr = s.freeCtr := rfl
@[simp] theorem State.setDie_pending (d : Nat) (x : Die) : (s.setDie d x).pending = s.pending := rfl

/-! modDie -/

@[simp] theorem State.modDie_part (d : Nat) (f : Die → Die) : (s.modDie d f).part = s.part := rfl
@[simp] theorem State.modDie_ident (d : Nat) (f : Die → Die) : (s.modDie d f).ident = s.ident := rfl
@[simp] theorem State.modDie_clock (d : Nat) (f : Die → Die) : (s.modDie d f).clock = s.clock := rfl
@[simp] theorem State.modDie_mclk (d : Nat) (f : Die → Die) : (s.modDie d f).mclk = s.mclk := rfl
@[simp] theorem State.modDie_mem (d : Nat) (f : Die → Die) : (s.modDie d f).mem = s.mem := rfl
@[simp] theorem State.modDie_sramPoison (d : Nat) (f : Die → Die) : (s.modDie d f).sramPoison = s.sramPoison := rfl
@[simp] theorem State.modDie_blkPoison (d : Nat) (f : Die → Die) : (s.modDie d f).blkPoison = s.blkPoison := rfl
@[simp] theorem State.modDie_hostMem (d : Nat) (f : Die → Die) : (s.modDie d f).hostMem = s.hostMem := rfl
@[simp] theorem State.modDie_hostDeny (d : Nat) (f : Die → Die) : (s.modDie d f).hostDeny = s.hostDeny := rfl
@[simp] theorem State.modDie_settings (d : Nat) (f : Die → Die) : (s.modDie d f).settings = s.settings := rfl
@[simp] theorem State.modDie_gov (d : Nat) (f : Die → Die) : (s.modDie d f).gov = s.gov := rfl
@[simp] theorem State.modDie_activity (d : Nat) (f : Die → Die) : (s.modDie d f).activity = s.activity := rfl
@[simp] theorem State.modDie_hamlets (d : Nat) (f : Die → Die) : (s.modDie d f).hamlets = s.hamlets := rfl
@[simp] theorem State.modDie_parishes (d : Nat) (f : Die → Die) : (s.modDie d f).parishes = s.parishes := rfl
@[simp] theorem State.modDie_controllers (d : Nat) (f : Die → Die) : (s.modDie d f).controllers = s.controllers := rfl
@[simp] theorem State.modDie_landings (d : Nat) (f : Die → Die) : (s.modDie d f).landings = s.landings := rfl
@[simp] theorem State.modDie_pressSlots (d : Nat) (f : Die → Die) : (s.modDie d f).pressSlots = s.pressSlots := rfl
@[simp] theorem State.modDie_pressPend (d : Nat) (f : Die → Die) : (s.modDie d f).pressPend = s.pressPend := rfl
@[simp] theorem State.modDie_keySlots (d : Nat) (f : Die → Die) : (s.modDie d f).keySlots = s.keySlots := rfl
@[simp] theorem State.modDie_households (d : Nat) (f : Die → Die) : (s.modDie d f).households = s.households := rfl
@[simp] theorem State.modDie_jobs (d : Nat) (f : Die → Die) : (s.modDie d f).jobs = s.jobs := rfl
@[simp] theorem State.modDie_sessions (d : Nat) (f : Die → Die) : (s.modDie d f).sessions = s.sessions := rfl
@[simp] theorem State.modDie_ledger (d : Nat) (f : Die → Die) : (s.modDie d f).ledger = s.ledger := rfl
@[simp] theorem State.modDie_nextSeq (d : Nat) (f : Die → Die) : (s.modDie d f).nextSeq = s.nextSeq := rfl
@[simp] theorem State.modDie_adapters (d : Nat) (f : Die → Die) : (s.modDie d f).adapters = s.adapters := rfl
@[simp] theorem State.modDie_grammars (d : Nat) (f : Die → Die) : (s.modDie d f).grammars = s.grammars := rfl
@[simp] theorem State.modDie_tensors (d : Nat) (f : Die → Die) : (s.modDie d f).tensors = s.tensors := rfl
@[simp] theorem State.modDie_postboxes (d : Nat) (f : Die → Die) : (s.modDie d f).postboxes = s.postboxes := rfl
@[simp] theorem State.modDie_noticeQ (d : Nat) (f : Die → Die) : (s.modDie d f).noticeQ = s.noticeQ := rfl
@[simp] theorem State.modDie_numVFs (d : Nat) (f : Die → Die) : (s.modDie d f).numVFs = s.numVFs := rfl
@[simp] theorem State.modDie_bar2Household (d : Nat) (f : Die → Die) : (s.modDie d f).bar2Household = s.bar2Household := rfl
@[simp] theorem State.modDie_bar2Base (d : Nat) (f : Die → Die) : (s.modDie d f).bar2Base = s.bar2Base := rfl
@[simp] theorem State.modDie_msix (d : Nat) (f : Die → Die) : (s.modDie d f).msix = s.msix := rfl
@[simp] theorem State.modDie_hostOut (d : Nat) (f : Die → Die) : (s.modDie d f).hostOut = s.hostOut := rfl
@[simp] theorem State.modDie_pins (d : Nat) (f : Die → Die) : (s.modDie d f).pins = s.pins := rfl
@[simp] theorem State.modDie_resetStep (d : Nat) (f : Die → Die) : (s.modDie d f).resetStep = s.resetStep := rfl
@[simp] theorem State.modDie_lifecycle (d : Nat) (f : Die → Die) : (s.modDie d f).lifecycle = s.lifecycle := rfl
@[simp] theorem State.modDie_torus (d : Nat) (f : Die → Die) : (s.modDie d f).torus = s.torus := rfl
@[simp] theorem State.modDie_logNext (d : Nat) (f : Die → Die) : (s.modDie d f).logNext = s.logNext := rfl
@[simp] theorem State.modDie_logRing (d : Nat) (f : Die → Die) : (s.modDie d f).logRing = s.logRing := rfl
@[simp] theorem State.modDie_bellFlight (d : Nat) (f : Die → Die) : (s.modDie d f).bellFlight = s.bellFlight := rfl
@[simp] theorem State.modDie_deepSave (d : Nat) (f : Die → Die) : (s.modDie d f).deepSave = s.deepSave := rfl
@[simp] theorem State.modDie_deepWake (d : Nat) (f : Die → Die) : (s.modDie d f).deepWake = s.deepWake := rfl
@[simp] theorem State.modDie_reload (d : Nat) (f : Die → Die) : (s.modDie d f).reload = s.reload := rfl
@[simp] theorem State.modDie_defects (d : Nat) (f : Die → Die) : (s.modDie d f).defects = s.defects := rfl
@[simp] theorem State.modDie_sieves (d : Nat) (f : Die → Die) : (s.modDie d f).sieves = s.sieves := rfl
@[simp] theorem State.modDie_msixPend (d : Nat) (f : Die → Die) : (s.modDie d f).msixPend = s.msixPend := rfl
@[simp] theorem State.modDie_bar2Log2 (d : Nat) (f : Die → Die) : (s.modDie d f).bar2Log2 = s.bar2Log2 := rfl
@[simp] theorem State.modDie_stranded (d : Nat) (f : Die → Die) : (s.modDie d f).stranded = s.stranded := rfl
@[simp] theorem State.modDie_cut (d : Nat) (f : Die → Die) : (s.modDie d f).cut = s.cut := rfl
@[simp] theorem State.modDie_rails (d : Nat) (f : Die → Die) : (s.modDie d f).rails = s.rails := rfl
@[simp] theorem State.modDie_pcieSris (d : Nat) (f : Die → Die) : (s.modDie d f).pcieSris = s.pcieSris := rfl
@[simp] theorem State.modDie_fetchNext (d : Nat) (f : Die → Die) : (s.modDie d f).fetchNext = s.fetchNext := rfl
@[simp] theorem State.modDie_stopped (d : Nat) (f : Die → Die) : (s.modDie d f).stopped = s.stopped := rfl
@[simp] theorem State.modDie_freeCtr (d : Nat) (f : Die → Die) : (s.modDie d f).freeCtr = s.freeCtr := rfl
@[simp] theorem State.modDie_pending (d : Nat) (f : Die → Die) : (s.modDie d f).pending = s.pending := rfl

/-! modCtl -/

@[simp] theorem State.modCtl_part (c : CtlRef) (f : Controller → Controller) : (s.modCtl c f).part = s.part := rfl
@[simp] theorem State.modCtl_ident (c : CtlRef) (f : Controller → Controller) : (s.modCtl c f).ident = s.ident := rfl
@[simp] theorem State.modCtl_clock (c : CtlRef) (f : Controller → Controller) : (s.modCtl c f).clock = s.clock := rfl
@[simp] theorem State.modCtl_mclk (c : CtlRef) (f : Controller → Controller) : (s.modCtl c f).mclk = s.mclk := rfl
@[simp] theorem State.modCtl_mem (c : CtlRef) (f : Controller → Controller) : (s.modCtl c f).mem = s.mem := rfl
@[simp] theorem State.modCtl_sramPoison (c : CtlRef) (f : Controller → Controller) : (s.modCtl c f).sramPoison = s.sramPoison := rfl
@[simp] theorem State.modCtl_blkPoison (c : CtlRef) (f : Controller → Controller) : (s.modCtl c f).blkPoison = s.blkPoison := rfl
@[simp] theorem State.modCtl_hostMem (c : CtlRef) (f : Controller → Controller) : (s.modCtl c f).hostMem = s.hostMem := rfl
@[simp] theorem State.modCtl_hostDeny (c : CtlRef) (f : Controller → Controller) : (s.modCtl c f).hostDeny = s.hostDeny := rfl
@[simp] theorem State.modCtl_settings (c : CtlRef) (f : Controller → Controller) : (s.modCtl c f).settings = s.settings := rfl
@[simp] theorem State.modCtl_gov (c : CtlRef) (f : Controller → Controller) : (s.modCtl c f).gov = s.gov := rfl
@[simp] theorem State.modCtl_activity (c : CtlRef) (f : Controller → Controller) : (s.modCtl c f).activity = s.activity := rfl
@[simp] theorem State.modCtl_hamlets (c : CtlRef) (f : Controller → Controller) : (s.modCtl c f).hamlets = s.hamlets := rfl
@[simp] theorem State.modCtl_parishes (c : CtlRef) (f : Controller → Controller) : (s.modCtl c f).parishes = s.parishes := rfl
@[simp] theorem State.modCtl_landings (c : CtlRef) (f : Controller → Controller) : (s.modCtl c f).landings = s.landings := rfl
@[simp] theorem State.modCtl_dies (c : CtlRef) (f : Controller → Controller) : (s.modCtl c f).dies = s.dies := rfl
@[simp] theorem State.modCtl_pressSlots (c : CtlRef) (f : Controller → Controller) : (s.modCtl c f).pressSlots = s.pressSlots := rfl
@[simp] theorem State.modCtl_pressPend (c : CtlRef) (f : Controller → Controller) : (s.modCtl c f).pressPend = s.pressPend := rfl
@[simp] theorem State.modCtl_keySlots (c : CtlRef) (f : Controller → Controller) : (s.modCtl c f).keySlots = s.keySlots := rfl
@[simp] theorem State.modCtl_households (c : CtlRef) (f : Controller → Controller) : (s.modCtl c f).households = s.households := rfl
@[simp] theorem State.modCtl_jobs (c : CtlRef) (f : Controller → Controller) : (s.modCtl c f).jobs = s.jobs := rfl
@[simp] theorem State.modCtl_sessions (c : CtlRef) (f : Controller → Controller) : (s.modCtl c f).sessions = s.sessions := rfl
@[simp] theorem State.modCtl_ledger (c : CtlRef) (f : Controller → Controller) : (s.modCtl c f).ledger = s.ledger := rfl
@[simp] theorem State.modCtl_nextSeq (c : CtlRef) (f : Controller → Controller) : (s.modCtl c f).nextSeq = s.nextSeq := rfl
@[simp] theorem State.modCtl_adapters (c : CtlRef) (f : Controller → Controller) : (s.modCtl c f).adapters = s.adapters := rfl
@[simp] theorem State.modCtl_grammars (c : CtlRef) (f : Controller → Controller) : (s.modCtl c f).grammars = s.grammars := rfl
@[simp] theorem State.modCtl_tensors (c : CtlRef) (f : Controller → Controller) : (s.modCtl c f).tensors = s.tensors := rfl
@[simp] theorem State.modCtl_postboxes (c : CtlRef) (f : Controller → Controller) : (s.modCtl c f).postboxes = s.postboxes := rfl
@[simp] theorem State.modCtl_noticeQ (c : CtlRef) (f : Controller → Controller) : (s.modCtl c f).noticeQ = s.noticeQ := rfl
@[simp] theorem State.modCtl_numVFs (c : CtlRef) (f : Controller → Controller) : (s.modCtl c f).numVFs = s.numVFs := rfl
@[simp] theorem State.modCtl_bar2Household (c : CtlRef) (f : Controller → Controller) : (s.modCtl c f).bar2Household = s.bar2Household := rfl
@[simp] theorem State.modCtl_bar2Base (c : CtlRef) (f : Controller → Controller) : (s.modCtl c f).bar2Base = s.bar2Base := rfl
@[simp] theorem State.modCtl_msix (c : CtlRef) (f : Controller → Controller) : (s.modCtl c f).msix = s.msix := rfl
@[simp] theorem State.modCtl_hostOut (c : CtlRef) (f : Controller → Controller) : (s.modCtl c f).hostOut = s.hostOut := rfl
@[simp] theorem State.modCtl_pins (c : CtlRef) (f : Controller → Controller) : (s.modCtl c f).pins = s.pins := rfl
@[simp] theorem State.modCtl_resetStep (c : CtlRef) (f : Controller → Controller) : (s.modCtl c f).resetStep = s.resetStep := rfl
@[simp] theorem State.modCtl_lifecycle (c : CtlRef) (f : Controller → Controller) : (s.modCtl c f).lifecycle = s.lifecycle := rfl
@[simp] theorem State.modCtl_torus (c : CtlRef) (f : Controller → Controller) : (s.modCtl c f).torus = s.torus := rfl
@[simp] theorem State.modCtl_logNext (c : CtlRef) (f : Controller → Controller) : (s.modCtl c f).logNext = s.logNext := rfl
@[simp] theorem State.modCtl_logRing (c : CtlRef) (f : Controller → Controller) : (s.modCtl c f).logRing = s.logRing := rfl
@[simp] theorem State.modCtl_bellFlight (c : CtlRef) (f : Controller → Controller) : (s.modCtl c f).bellFlight = s.bellFlight := rfl
@[simp] theorem State.modCtl_deepSave (c : CtlRef) (f : Controller → Controller) : (s.modCtl c f).deepSave = s.deepSave := rfl
@[simp] theorem State.modCtl_deepWake (c : CtlRef) (f : Controller → Controller) : (s.modCtl c f).deepWake = s.deepWake := rfl
@[simp] theorem State.modCtl_reload (c : CtlRef) (f : Controller → Controller) : (s.modCtl c f).reload = s.reload := rfl
@[simp] theorem State.modCtl_defects (c : CtlRef) (f : Controller → Controller) : (s.modCtl c f).defects = s.defects := rfl
@[simp] theorem State.modCtl_sieves (c : CtlRef) (f : Controller → Controller) : (s.modCtl c f).sieves = s.sieves := rfl
@[simp] theorem State.modCtl_msixPend (c : CtlRef) (f : Controller → Controller) : (s.modCtl c f).msixPend = s.msixPend := rfl
@[simp] theorem State.modCtl_bar2Log2 (c : CtlRef) (f : Controller → Controller) : (s.modCtl c f).bar2Log2 = s.bar2Log2 := rfl
@[simp] theorem State.modCtl_stranded (c : CtlRef) (f : Controller → Controller) : (s.modCtl c f).stranded = s.stranded := rfl
@[simp] theorem State.modCtl_cut (c : CtlRef) (f : Controller → Controller) : (s.modCtl c f).cut = s.cut := rfl
@[simp] theorem State.modCtl_rails (c : CtlRef) (f : Controller → Controller) : (s.modCtl c f).rails = s.rails := rfl
@[simp] theorem State.modCtl_pcieSris (c : CtlRef) (f : Controller → Controller) : (s.modCtl c f).pcieSris = s.pcieSris := rfl
@[simp] theorem State.modCtl_fetchNext (c : CtlRef) (f : Controller → Controller) : (s.modCtl c f).fetchNext = s.fetchNext := rfl
@[simp] theorem State.modCtl_stopped (c : CtlRef) (f : Controller → Controller) : (s.modCtl c f).stopped = s.stopped := rfl
@[simp] theorem State.modCtl_freeCtr (c : CtlRef) (f : Controller → Controller) : (s.modCtl c f).freeCtr = s.freeCtr := rfl
@[simp] theorem State.modCtl_pending (c : CtlRef) (f : Controller → Controller) : (s.modCtl c f).pending = s.pending := rfl

/-! setLanding -/

@[simp] theorem State.setLanding_part (l : Nat) (x : Landing) : (s.setLanding l x).part = s.part := rfl
@[simp] theorem State.setLanding_ident (l : Nat) (x : Landing) : (s.setLanding l x).ident = s.ident := rfl
@[simp] theorem State.setLanding_clock (l : Nat) (x : Landing) : (s.setLanding l x).clock = s.clock := rfl
@[simp] theorem State.setLanding_mclk (l : Nat) (x : Landing) : (s.setLanding l x).mclk = s.mclk := rfl
@[simp] theorem State.setLanding_mem (l : Nat) (x : Landing) : (s.setLanding l x).mem = s.mem := rfl
@[simp] theorem State.setLanding_sramPoison (l : Nat) (x : Landing) : (s.setLanding l x).sramPoison = s.sramPoison := rfl
@[simp] theorem State.setLanding_blkPoison (l : Nat) (x : Landing) : (s.setLanding l x).blkPoison = s.blkPoison := rfl
@[simp] theorem State.setLanding_hostMem (l : Nat) (x : Landing) : (s.setLanding l x).hostMem = s.hostMem := rfl
@[simp] theorem State.setLanding_hostDeny (l : Nat) (x : Landing) : (s.setLanding l x).hostDeny = s.hostDeny := rfl
@[simp] theorem State.setLanding_settings (l : Nat) (x : Landing) : (s.setLanding l x).settings = s.settings := rfl
@[simp] theorem State.setLanding_gov (l : Nat) (x : Landing) : (s.setLanding l x).gov = s.gov := rfl
@[simp] theorem State.setLanding_activity (l : Nat) (x : Landing) : (s.setLanding l x).activity = s.activity := rfl
@[simp] theorem State.setLanding_hamlets (l : Nat) (x : Landing) : (s.setLanding l x).hamlets = s.hamlets := rfl
@[simp] theorem State.setLanding_parishes (l : Nat) (x : Landing) : (s.setLanding l x).parishes = s.parishes := rfl
@[simp] theorem State.setLanding_controllers (l : Nat) (x : Landing) : (s.setLanding l x).controllers = s.controllers := rfl
@[simp] theorem State.setLanding_dies (l : Nat) (x : Landing) : (s.setLanding l x).dies = s.dies := rfl
@[simp] theorem State.setLanding_pressSlots (l : Nat) (x : Landing) : (s.setLanding l x).pressSlots = s.pressSlots := rfl
@[simp] theorem State.setLanding_pressPend (l : Nat) (x : Landing) : (s.setLanding l x).pressPend = s.pressPend := rfl
@[simp] theorem State.setLanding_keySlots (l : Nat) (x : Landing) : (s.setLanding l x).keySlots = s.keySlots := rfl
@[simp] theorem State.setLanding_households (l : Nat) (x : Landing) : (s.setLanding l x).households = s.households := rfl
@[simp] theorem State.setLanding_jobs (l : Nat) (x : Landing) : (s.setLanding l x).jobs = s.jobs := rfl
@[simp] theorem State.setLanding_sessions (l : Nat) (x : Landing) : (s.setLanding l x).sessions = s.sessions := rfl
@[simp] theorem State.setLanding_ledger (l : Nat) (x : Landing) : (s.setLanding l x).ledger = s.ledger := rfl
@[simp] theorem State.setLanding_nextSeq (l : Nat) (x : Landing) : (s.setLanding l x).nextSeq = s.nextSeq := rfl
@[simp] theorem State.setLanding_adapters (l : Nat) (x : Landing) : (s.setLanding l x).adapters = s.adapters := rfl
@[simp] theorem State.setLanding_grammars (l : Nat) (x : Landing) : (s.setLanding l x).grammars = s.grammars := rfl
@[simp] theorem State.setLanding_tensors (l : Nat) (x : Landing) : (s.setLanding l x).tensors = s.tensors := rfl
@[simp] theorem State.setLanding_postboxes (l : Nat) (x : Landing) : (s.setLanding l x).postboxes = s.postboxes := rfl
@[simp] theorem State.setLanding_noticeQ (l : Nat) (x : Landing) : (s.setLanding l x).noticeQ = s.noticeQ := rfl
@[simp] theorem State.setLanding_numVFs (l : Nat) (x : Landing) : (s.setLanding l x).numVFs = s.numVFs := rfl
@[simp] theorem State.setLanding_bar2Household (l : Nat) (x : Landing) : (s.setLanding l x).bar2Household = s.bar2Household := rfl
@[simp] theorem State.setLanding_bar2Base (l : Nat) (x : Landing) : (s.setLanding l x).bar2Base = s.bar2Base := rfl
@[simp] theorem State.setLanding_msix (l : Nat) (x : Landing) : (s.setLanding l x).msix = s.msix := rfl
@[simp] theorem State.setLanding_hostOut (l : Nat) (x : Landing) : (s.setLanding l x).hostOut = s.hostOut := rfl
@[simp] theorem State.setLanding_pins (l : Nat) (x : Landing) : (s.setLanding l x).pins = s.pins := rfl
@[simp] theorem State.setLanding_resetStep (l : Nat) (x : Landing) : (s.setLanding l x).resetStep = s.resetStep := rfl
@[simp] theorem State.setLanding_lifecycle (l : Nat) (x : Landing) : (s.setLanding l x).lifecycle = s.lifecycle := rfl
@[simp] theorem State.setLanding_torus (l : Nat) (x : Landing) : (s.setLanding l x).torus = s.torus := rfl
@[simp] theorem State.setLanding_logNext (l : Nat) (x : Landing) : (s.setLanding l x).logNext = s.logNext := rfl
@[simp] theorem State.setLanding_logRing (l : Nat) (x : Landing) : (s.setLanding l x).logRing = s.logRing := rfl
@[simp] theorem State.setLanding_bellFlight (l : Nat) (x : Landing) : (s.setLanding l x).bellFlight = s.bellFlight := rfl
@[simp] theorem State.setLanding_deepSave (l : Nat) (x : Landing) : (s.setLanding l x).deepSave = s.deepSave := rfl
@[simp] theorem State.setLanding_deepWake (l : Nat) (x : Landing) : (s.setLanding l x).deepWake = s.deepWake := rfl
@[simp] theorem State.setLanding_reload (l : Nat) (x : Landing) : (s.setLanding l x).reload = s.reload := rfl
@[simp] theorem State.setLanding_defects (l : Nat) (x : Landing) : (s.setLanding l x).defects = s.defects := rfl
@[simp] theorem State.setLanding_sieves (l : Nat) (x : Landing) : (s.setLanding l x).sieves = s.sieves := rfl
@[simp] theorem State.setLanding_msixPend (l : Nat) (x : Landing) : (s.setLanding l x).msixPend = s.msixPend := rfl
@[simp] theorem State.setLanding_bar2Log2 (l : Nat) (x : Landing) : (s.setLanding l x).bar2Log2 = s.bar2Log2 := rfl
@[simp] theorem State.setLanding_stranded (l : Nat) (x : Landing) : (s.setLanding l x).stranded = s.stranded := rfl
@[simp] theorem State.setLanding_cut (l : Nat) (x : Landing) : (s.setLanding l x).cut = s.cut := rfl
@[simp] theorem State.setLanding_rails (l : Nat) (x : Landing) : (s.setLanding l x).rails = s.rails := rfl
@[simp] theorem State.setLanding_pcieSris (l : Nat) (x : Landing) : (s.setLanding l x).pcieSris = s.pcieSris := rfl
@[simp] theorem State.setLanding_fetchNext (l : Nat) (x : Landing) : (s.setLanding l x).fetchNext = s.fetchNext := rfl
@[simp] theorem State.setLanding_stopped (l : Nat) (x : Landing) : (s.setLanding l x).stopped = s.stopped := rfl
@[simp] theorem State.setLanding_freeCtr (l : Nat) (x : Landing) : (s.setLanding l x).freeCtr = s.freeCtr := rfl
@[simp] theorem State.setLanding_pending (l : Nat) (x : Landing) : (s.setLanding l x).pending = s.pending := rfl

/-! modLanding -/

@[simp] theorem State.modLanding_part (l : Nat) (f : Landing → Landing) : (s.modLanding l f).part = s.part := rfl
@[simp] theorem State.modLanding_ident (l : Nat) (f : Landing → Landing) : (s.modLanding l f).ident = s.ident := rfl
@[simp] theorem State.modLanding_clock (l : Nat) (f : Landing → Landing) : (s.modLanding l f).clock = s.clock := rfl
@[simp] theorem State.modLanding_mclk (l : Nat) (f : Landing → Landing) : (s.modLanding l f).mclk = s.mclk := rfl
@[simp] theorem State.modLanding_mem (l : Nat) (f : Landing → Landing) : (s.modLanding l f).mem = s.mem := rfl
@[simp] theorem State.modLanding_sramPoison (l : Nat) (f : Landing → Landing) : (s.modLanding l f).sramPoison = s.sramPoison := rfl
@[simp] theorem State.modLanding_blkPoison (l : Nat) (f : Landing → Landing) : (s.modLanding l f).blkPoison = s.blkPoison := rfl
@[simp] theorem State.modLanding_hostMem (l : Nat) (f : Landing → Landing) : (s.modLanding l f).hostMem = s.hostMem := rfl
@[simp] theorem State.modLanding_hostDeny (l : Nat) (f : Landing → Landing) : (s.modLanding l f).hostDeny = s.hostDeny := rfl
@[simp] theorem State.modLanding_settings (l : Nat) (f : Landing → Landing) : (s.modLanding l f).settings = s.settings := rfl
@[simp] theorem State.modLanding_gov (l : Nat) (f : Landing → Landing) : (s.modLanding l f).gov = s.gov := rfl
@[simp] theorem State.modLanding_activity (l : Nat) (f : Landing → Landing) : (s.modLanding l f).activity = s.activity := rfl
@[simp] theorem State.modLanding_hamlets (l : Nat) (f : Landing → Landing) : (s.modLanding l f).hamlets = s.hamlets := rfl
@[simp] theorem State.modLanding_parishes (l : Nat) (f : Landing → Landing) : (s.modLanding l f).parishes = s.parishes := rfl
@[simp] theorem State.modLanding_controllers (l : Nat) (f : Landing → Landing) : (s.modLanding l f).controllers = s.controllers := rfl
@[simp] theorem State.modLanding_dies (l : Nat) (f : Landing → Landing) : (s.modLanding l f).dies = s.dies := rfl
@[simp] theorem State.modLanding_pressSlots (l : Nat) (f : Landing → Landing) : (s.modLanding l f).pressSlots = s.pressSlots := rfl
@[simp] theorem State.modLanding_pressPend (l : Nat) (f : Landing → Landing) : (s.modLanding l f).pressPend = s.pressPend := rfl
@[simp] theorem State.modLanding_keySlots (l : Nat) (f : Landing → Landing) : (s.modLanding l f).keySlots = s.keySlots := rfl
@[simp] theorem State.modLanding_households (l : Nat) (f : Landing → Landing) : (s.modLanding l f).households = s.households := rfl
@[simp] theorem State.modLanding_jobs (l : Nat) (f : Landing → Landing) : (s.modLanding l f).jobs = s.jobs := rfl
@[simp] theorem State.modLanding_sessions (l : Nat) (f : Landing → Landing) : (s.modLanding l f).sessions = s.sessions := rfl
@[simp] theorem State.modLanding_ledger (l : Nat) (f : Landing → Landing) : (s.modLanding l f).ledger = s.ledger := rfl
@[simp] theorem State.modLanding_nextSeq (l : Nat) (f : Landing → Landing) : (s.modLanding l f).nextSeq = s.nextSeq := rfl
@[simp] theorem State.modLanding_adapters (l : Nat) (f : Landing → Landing) : (s.modLanding l f).adapters = s.adapters := rfl
@[simp] theorem State.modLanding_grammars (l : Nat) (f : Landing → Landing) : (s.modLanding l f).grammars = s.grammars := rfl
@[simp] theorem State.modLanding_tensors (l : Nat) (f : Landing → Landing) : (s.modLanding l f).tensors = s.tensors := rfl
@[simp] theorem State.modLanding_postboxes (l : Nat) (f : Landing → Landing) : (s.modLanding l f).postboxes = s.postboxes := rfl
@[simp] theorem State.modLanding_noticeQ (l : Nat) (f : Landing → Landing) : (s.modLanding l f).noticeQ = s.noticeQ := rfl
@[simp] theorem State.modLanding_numVFs (l : Nat) (f : Landing → Landing) : (s.modLanding l f).numVFs = s.numVFs := rfl
@[simp] theorem State.modLanding_bar2Household (l : Nat) (f : Landing → Landing) : (s.modLanding l f).bar2Household = s.bar2Household := rfl
@[simp] theorem State.modLanding_bar2Base (l : Nat) (f : Landing → Landing) : (s.modLanding l f).bar2Base = s.bar2Base := rfl
@[simp] theorem State.modLanding_msix (l : Nat) (f : Landing → Landing) : (s.modLanding l f).msix = s.msix := rfl
@[simp] theorem State.modLanding_hostOut (l : Nat) (f : Landing → Landing) : (s.modLanding l f).hostOut = s.hostOut := rfl
@[simp] theorem State.modLanding_pins (l : Nat) (f : Landing → Landing) : (s.modLanding l f).pins = s.pins := rfl
@[simp] theorem State.modLanding_resetStep (l : Nat) (f : Landing → Landing) : (s.modLanding l f).resetStep = s.resetStep := rfl
@[simp] theorem State.modLanding_lifecycle (l : Nat) (f : Landing → Landing) : (s.modLanding l f).lifecycle = s.lifecycle := rfl
@[simp] theorem State.modLanding_torus (l : Nat) (f : Landing → Landing) : (s.modLanding l f).torus = s.torus := rfl
@[simp] theorem State.modLanding_logNext (l : Nat) (f : Landing → Landing) : (s.modLanding l f).logNext = s.logNext := rfl
@[simp] theorem State.modLanding_logRing (l : Nat) (f : Landing → Landing) : (s.modLanding l f).logRing = s.logRing := rfl
@[simp] theorem State.modLanding_bellFlight (l : Nat) (f : Landing → Landing) : (s.modLanding l f).bellFlight = s.bellFlight := rfl
@[simp] theorem State.modLanding_deepSave (l : Nat) (f : Landing → Landing) : (s.modLanding l f).deepSave = s.deepSave := rfl
@[simp] theorem State.modLanding_deepWake (l : Nat) (f : Landing → Landing) : (s.modLanding l f).deepWake = s.deepWake := rfl
@[simp] theorem State.modLanding_reload (l : Nat) (f : Landing → Landing) : (s.modLanding l f).reload = s.reload := rfl
@[simp] theorem State.modLanding_defects (l : Nat) (f : Landing → Landing) : (s.modLanding l f).defects = s.defects := rfl
@[simp] theorem State.modLanding_sieves (l : Nat) (f : Landing → Landing) : (s.modLanding l f).sieves = s.sieves := rfl
@[simp] theorem State.modLanding_msixPend (l : Nat) (f : Landing → Landing) : (s.modLanding l f).msixPend = s.msixPend := rfl
@[simp] theorem State.modLanding_bar2Log2 (l : Nat) (f : Landing → Landing) : (s.modLanding l f).bar2Log2 = s.bar2Log2 := rfl
@[simp] theorem State.modLanding_stranded (l : Nat) (f : Landing → Landing) : (s.modLanding l f).stranded = s.stranded := rfl
@[simp] theorem State.modLanding_cut (l : Nat) (f : Landing → Landing) : (s.modLanding l f).cut = s.cut := rfl
@[simp] theorem State.modLanding_rails (l : Nat) (f : Landing → Landing) : (s.modLanding l f).rails = s.rails := rfl
@[simp] theorem State.modLanding_pcieSris (l : Nat) (f : Landing → Landing) : (s.modLanding l f).pcieSris = s.pcieSris := rfl
@[simp] theorem State.modLanding_fetchNext (l : Nat) (f : Landing → Landing) : (s.modLanding l f).fetchNext = s.fetchNext := rfl
@[simp] theorem State.modLanding_stopped (l : Nat) (f : Landing → Landing) : (s.modLanding l f).stopped = s.stopped := rfl
@[simp] theorem State.modLanding_freeCtr (l : Nat) (f : Landing → Landing) : (s.modLanding l f).freeCtr = s.freeCtr := rfl
@[simp] theorem State.modLanding_pending (l : Nat) (f : Landing → Landing) : (s.modLanding l f).pending = s.pending := rfl

/-! setPostbox -/

@[simp] theorem State.setPostbox_part (k : Nat) (x : Postbox) : (s.setPostbox k x).part = s.part := rfl
@[simp] theorem State.setPostbox_ident (k : Nat) (x : Postbox) : (s.setPostbox k x).ident = s.ident := rfl
@[simp] theorem State.setPostbox_clock (k : Nat) (x : Postbox) : (s.setPostbox k x).clock = s.clock := rfl
@[simp] theorem State.setPostbox_mclk (k : Nat) (x : Postbox) : (s.setPostbox k x).mclk = s.mclk := rfl
@[simp] theorem State.setPostbox_mem (k : Nat) (x : Postbox) : (s.setPostbox k x).mem = s.mem := rfl
@[simp] theorem State.setPostbox_sramPoison (k : Nat) (x : Postbox) : (s.setPostbox k x).sramPoison = s.sramPoison := rfl
@[simp] theorem State.setPostbox_blkPoison (k : Nat) (x : Postbox) : (s.setPostbox k x).blkPoison = s.blkPoison := rfl
@[simp] theorem State.setPostbox_hostMem (k : Nat) (x : Postbox) : (s.setPostbox k x).hostMem = s.hostMem := rfl
@[simp] theorem State.setPostbox_hostDeny (k : Nat) (x : Postbox) : (s.setPostbox k x).hostDeny = s.hostDeny := rfl
@[simp] theorem State.setPostbox_settings (k : Nat) (x : Postbox) : (s.setPostbox k x).settings = s.settings := rfl
@[simp] theorem State.setPostbox_gov (k : Nat) (x : Postbox) : (s.setPostbox k x).gov = s.gov := rfl
@[simp] theorem State.setPostbox_activity (k : Nat) (x : Postbox) : (s.setPostbox k x).activity = s.activity := rfl
@[simp] theorem State.setPostbox_hamlets (k : Nat) (x : Postbox) : (s.setPostbox k x).hamlets = s.hamlets := rfl
@[simp] theorem State.setPostbox_parishes (k : Nat) (x : Postbox) : (s.setPostbox k x).parishes = s.parishes := rfl
@[simp] theorem State.setPostbox_controllers (k : Nat) (x : Postbox) : (s.setPostbox k x).controllers = s.controllers := rfl
@[simp] theorem State.setPostbox_landings (k : Nat) (x : Postbox) : (s.setPostbox k x).landings = s.landings := rfl
@[simp] theorem State.setPostbox_dies (k : Nat) (x : Postbox) : (s.setPostbox k x).dies = s.dies := rfl
@[simp] theorem State.setPostbox_pressSlots (k : Nat) (x : Postbox) : (s.setPostbox k x).pressSlots = s.pressSlots := rfl
@[simp] theorem State.setPostbox_pressPend (k : Nat) (x : Postbox) : (s.setPostbox k x).pressPend = s.pressPend := rfl
@[simp] theorem State.setPostbox_keySlots (k : Nat) (x : Postbox) : (s.setPostbox k x).keySlots = s.keySlots := rfl
@[simp] theorem State.setPostbox_households (k : Nat) (x : Postbox) : (s.setPostbox k x).households = s.households := rfl
@[simp] theorem State.setPostbox_jobs (k : Nat) (x : Postbox) : (s.setPostbox k x).jobs = s.jobs := rfl
@[simp] theorem State.setPostbox_sessions (k : Nat) (x : Postbox) : (s.setPostbox k x).sessions = s.sessions := rfl
@[simp] theorem State.setPostbox_ledger (k : Nat) (x : Postbox) : (s.setPostbox k x).ledger = s.ledger := rfl
@[simp] theorem State.setPostbox_nextSeq (k : Nat) (x : Postbox) : (s.setPostbox k x).nextSeq = s.nextSeq := rfl
@[simp] theorem State.setPostbox_adapters (k : Nat) (x : Postbox) : (s.setPostbox k x).adapters = s.adapters := rfl
@[simp] theorem State.setPostbox_grammars (k : Nat) (x : Postbox) : (s.setPostbox k x).grammars = s.grammars := rfl
@[simp] theorem State.setPostbox_tensors (k : Nat) (x : Postbox) : (s.setPostbox k x).tensors = s.tensors := rfl
@[simp] theorem State.setPostbox_noticeQ (k : Nat) (x : Postbox) : (s.setPostbox k x).noticeQ = s.noticeQ := rfl
@[simp] theorem State.setPostbox_numVFs (k : Nat) (x : Postbox) : (s.setPostbox k x).numVFs = s.numVFs := rfl
@[simp] theorem State.setPostbox_bar2Household (k : Nat) (x : Postbox) : (s.setPostbox k x).bar2Household = s.bar2Household := rfl
@[simp] theorem State.setPostbox_bar2Base (k : Nat) (x : Postbox) : (s.setPostbox k x).bar2Base = s.bar2Base := rfl
@[simp] theorem State.setPostbox_msix (k : Nat) (x : Postbox) : (s.setPostbox k x).msix = s.msix := rfl
@[simp] theorem State.setPostbox_hostOut (k : Nat) (x : Postbox) : (s.setPostbox k x).hostOut = s.hostOut := rfl
@[simp] theorem State.setPostbox_pins (k : Nat) (x : Postbox) : (s.setPostbox k x).pins = s.pins := rfl
@[simp] theorem State.setPostbox_resetStep (k : Nat) (x : Postbox) : (s.setPostbox k x).resetStep = s.resetStep := rfl
@[simp] theorem State.setPostbox_lifecycle (k : Nat) (x : Postbox) : (s.setPostbox k x).lifecycle = s.lifecycle := rfl
@[simp] theorem State.setPostbox_torus (k : Nat) (x : Postbox) : (s.setPostbox k x).torus = s.torus := rfl
@[simp] theorem State.setPostbox_logNext (k : Nat) (x : Postbox) : (s.setPostbox k x).logNext = s.logNext := rfl
@[simp] theorem State.setPostbox_logRing (k : Nat) (x : Postbox) : (s.setPostbox k x).logRing = s.logRing := rfl
@[simp] theorem State.setPostbox_bellFlight (k : Nat) (x : Postbox) : (s.setPostbox k x).bellFlight = s.bellFlight := rfl
@[simp] theorem State.setPostbox_deepSave (k : Nat) (x : Postbox) : (s.setPostbox k x).deepSave = s.deepSave := rfl
@[simp] theorem State.setPostbox_deepWake (k : Nat) (x : Postbox) : (s.setPostbox k x).deepWake = s.deepWake := rfl
@[simp] theorem State.setPostbox_reload (k : Nat) (x : Postbox) : (s.setPostbox k x).reload = s.reload := rfl
@[simp] theorem State.setPostbox_defects (k : Nat) (x : Postbox) : (s.setPostbox k x).defects = s.defects := rfl
@[simp] theorem State.setPostbox_sieves (k : Nat) (x : Postbox) : (s.setPostbox k x).sieves = s.sieves := rfl
@[simp] theorem State.setPostbox_msixPend (k : Nat) (x : Postbox) : (s.setPostbox k x).msixPend = s.msixPend := rfl
@[simp] theorem State.setPostbox_bar2Log2 (k : Nat) (x : Postbox) : (s.setPostbox k x).bar2Log2 = s.bar2Log2 := rfl
@[simp] theorem State.setPostbox_stranded (k : Nat) (x : Postbox) : (s.setPostbox k x).stranded = s.stranded := rfl
@[simp] theorem State.setPostbox_cut (k : Nat) (x : Postbox) : (s.setPostbox k x).cut = s.cut := rfl
@[simp] theorem State.setPostbox_rails (k : Nat) (x : Postbox) : (s.setPostbox k x).rails = s.rails := rfl
@[simp] theorem State.setPostbox_pcieSris (k : Nat) (x : Postbox) : (s.setPostbox k x).pcieSris = s.pcieSris := rfl
@[simp] theorem State.setPostbox_fetchNext (k : Nat) (x : Postbox) : (s.setPostbox k x).fetchNext = s.fetchNext := rfl
@[simp] theorem State.setPostbox_stopped (k : Nat) (x : Postbox) : (s.setPostbox k x).stopped = s.stopped := rfl
@[simp] theorem State.setPostbox_freeCtr (k : Nat) (x : Postbox) : (s.setPostbox k x).freeCtr = s.freeCtr := rfl
@[simp] theorem State.setPostbox_pending (k : Nat) (x : Postbox) : (s.setPostbox k x).pending = s.pending := rfl

/-! modPostbox -/

@[simp] theorem State.modPostbox_part (k : Nat) (f : Postbox → Postbox) : (s.modPostbox k f).part = s.part := rfl
@[simp] theorem State.modPostbox_ident (k : Nat) (f : Postbox → Postbox) : (s.modPostbox k f).ident = s.ident := rfl
@[simp] theorem State.modPostbox_clock (k : Nat) (f : Postbox → Postbox) : (s.modPostbox k f).clock = s.clock := rfl
@[simp] theorem State.modPostbox_mclk (k : Nat) (f : Postbox → Postbox) : (s.modPostbox k f).mclk = s.mclk := rfl
@[simp] theorem State.modPostbox_mem (k : Nat) (f : Postbox → Postbox) : (s.modPostbox k f).mem = s.mem := rfl
@[simp] theorem State.modPostbox_sramPoison (k : Nat) (f : Postbox → Postbox) : (s.modPostbox k f).sramPoison = s.sramPoison := rfl
@[simp] theorem State.modPostbox_blkPoison (k : Nat) (f : Postbox → Postbox) : (s.modPostbox k f).blkPoison = s.blkPoison := rfl
@[simp] theorem State.modPostbox_hostMem (k : Nat) (f : Postbox → Postbox) : (s.modPostbox k f).hostMem = s.hostMem := rfl
@[simp] theorem State.modPostbox_hostDeny (k : Nat) (f : Postbox → Postbox) : (s.modPostbox k f).hostDeny = s.hostDeny := rfl
@[simp] theorem State.modPostbox_settings (k : Nat) (f : Postbox → Postbox) : (s.modPostbox k f).settings = s.settings := rfl
@[simp] theorem State.modPostbox_gov (k : Nat) (f : Postbox → Postbox) : (s.modPostbox k f).gov = s.gov := rfl
@[simp] theorem State.modPostbox_activity (k : Nat) (f : Postbox → Postbox) : (s.modPostbox k f).activity = s.activity := rfl
@[simp] theorem State.modPostbox_hamlets (k : Nat) (f : Postbox → Postbox) : (s.modPostbox k f).hamlets = s.hamlets := rfl
@[simp] theorem State.modPostbox_parishes (k : Nat) (f : Postbox → Postbox) : (s.modPostbox k f).parishes = s.parishes := rfl
@[simp] theorem State.modPostbox_controllers (k : Nat) (f : Postbox → Postbox) : (s.modPostbox k f).controllers = s.controllers := rfl
@[simp] theorem State.modPostbox_landings (k : Nat) (f : Postbox → Postbox) : (s.modPostbox k f).landings = s.landings := rfl
@[simp] theorem State.modPostbox_dies (k : Nat) (f : Postbox → Postbox) : (s.modPostbox k f).dies = s.dies := rfl
@[simp] theorem State.modPostbox_pressSlots (k : Nat) (f : Postbox → Postbox) : (s.modPostbox k f).pressSlots = s.pressSlots := rfl
@[simp] theorem State.modPostbox_pressPend (k : Nat) (f : Postbox → Postbox) : (s.modPostbox k f).pressPend = s.pressPend := rfl
@[simp] theorem State.modPostbox_keySlots (k : Nat) (f : Postbox → Postbox) : (s.modPostbox k f).keySlots = s.keySlots := rfl
@[simp] theorem State.modPostbox_households (k : Nat) (f : Postbox → Postbox) : (s.modPostbox k f).households = s.households := rfl
@[simp] theorem State.modPostbox_jobs (k : Nat) (f : Postbox → Postbox) : (s.modPostbox k f).jobs = s.jobs := rfl
@[simp] theorem State.modPostbox_sessions (k : Nat) (f : Postbox → Postbox) : (s.modPostbox k f).sessions = s.sessions := rfl
@[simp] theorem State.modPostbox_ledger (k : Nat) (f : Postbox → Postbox) : (s.modPostbox k f).ledger = s.ledger := rfl
@[simp] theorem State.modPostbox_nextSeq (k : Nat) (f : Postbox → Postbox) : (s.modPostbox k f).nextSeq = s.nextSeq := rfl
@[simp] theorem State.modPostbox_adapters (k : Nat) (f : Postbox → Postbox) : (s.modPostbox k f).adapters = s.adapters := rfl
@[simp] theorem State.modPostbox_grammars (k : Nat) (f : Postbox → Postbox) : (s.modPostbox k f).grammars = s.grammars := rfl
@[simp] theorem State.modPostbox_tensors (k : Nat) (f : Postbox → Postbox) : (s.modPostbox k f).tensors = s.tensors := rfl
@[simp] theorem State.modPostbox_noticeQ (k : Nat) (f : Postbox → Postbox) : (s.modPostbox k f).noticeQ = s.noticeQ := rfl
@[simp] theorem State.modPostbox_numVFs (k : Nat) (f : Postbox → Postbox) : (s.modPostbox k f).numVFs = s.numVFs := rfl
@[simp] theorem State.modPostbox_bar2Household (k : Nat) (f : Postbox → Postbox) : (s.modPostbox k f).bar2Household = s.bar2Household := rfl
@[simp] theorem State.modPostbox_bar2Base (k : Nat) (f : Postbox → Postbox) : (s.modPostbox k f).bar2Base = s.bar2Base := rfl
@[simp] theorem State.modPostbox_msix (k : Nat) (f : Postbox → Postbox) : (s.modPostbox k f).msix = s.msix := rfl
@[simp] theorem State.modPostbox_hostOut (k : Nat) (f : Postbox → Postbox) : (s.modPostbox k f).hostOut = s.hostOut := rfl
@[simp] theorem State.modPostbox_pins (k : Nat) (f : Postbox → Postbox) : (s.modPostbox k f).pins = s.pins := rfl
@[simp] theorem State.modPostbox_resetStep (k : Nat) (f : Postbox → Postbox) : (s.modPostbox k f).resetStep = s.resetStep := rfl
@[simp] theorem State.modPostbox_lifecycle (k : Nat) (f : Postbox → Postbox) : (s.modPostbox k f).lifecycle = s.lifecycle := rfl
@[simp] theorem State.modPostbox_torus (k : Nat) (f : Postbox → Postbox) : (s.modPostbox k f).torus = s.torus := rfl
@[simp] theorem State.modPostbox_logNext (k : Nat) (f : Postbox → Postbox) : (s.modPostbox k f).logNext = s.logNext := rfl
@[simp] theorem State.modPostbox_logRing (k : Nat) (f : Postbox → Postbox) : (s.modPostbox k f).logRing = s.logRing := rfl
@[simp] theorem State.modPostbox_bellFlight (k : Nat) (f : Postbox → Postbox) : (s.modPostbox k f).bellFlight = s.bellFlight := rfl
@[simp] theorem State.modPostbox_deepSave (k : Nat) (f : Postbox → Postbox) : (s.modPostbox k f).deepSave = s.deepSave := rfl
@[simp] theorem State.modPostbox_deepWake (k : Nat) (f : Postbox → Postbox) : (s.modPostbox k f).deepWake = s.deepWake := rfl
@[simp] theorem State.modPostbox_reload (k : Nat) (f : Postbox → Postbox) : (s.modPostbox k f).reload = s.reload := rfl
@[simp] theorem State.modPostbox_defects (k : Nat) (f : Postbox → Postbox) : (s.modPostbox k f).defects = s.defects := rfl
@[simp] theorem State.modPostbox_sieves (k : Nat) (f : Postbox → Postbox) : (s.modPostbox k f).sieves = s.sieves := rfl
@[simp] theorem State.modPostbox_msixPend (k : Nat) (f : Postbox → Postbox) : (s.modPostbox k f).msixPend = s.msixPend := rfl
@[simp] theorem State.modPostbox_bar2Log2 (k : Nat) (f : Postbox → Postbox) : (s.modPostbox k f).bar2Log2 = s.bar2Log2 := rfl
@[simp] theorem State.modPostbox_stranded (k : Nat) (f : Postbox → Postbox) : (s.modPostbox k f).stranded = s.stranded := rfl
@[simp] theorem State.modPostbox_cut (k : Nat) (f : Postbox → Postbox) : (s.modPostbox k f).cut = s.cut := rfl
@[simp] theorem State.modPostbox_rails (k : Nat) (f : Postbox → Postbox) : (s.modPostbox k f).rails = s.rails := rfl
@[simp] theorem State.modPostbox_pcieSris (k : Nat) (f : Postbox → Postbox) : (s.modPostbox k f).pcieSris = s.pcieSris := rfl
@[simp] theorem State.modPostbox_fetchNext (k : Nat) (f : Postbox → Postbox) : (s.modPostbox k f).fetchNext = s.fetchNext := rfl
@[simp] theorem State.modPostbox_stopped (k : Nat) (f : Postbox → Postbox) : (s.modPostbox k f).stopped = s.stopped := rfl
@[simp] theorem State.modPostbox_freeCtr (k : Nat) (f : Postbox → Postbox) : (s.modPostbox k f).freeCtr = s.freeCtr := rfl
@[simp] theorem State.modPostbox_pending (k : Nat) (f : Postbox → Postbox) : (s.modPostbox k f).pending = s.pending := rfl

/-! modHousehold -/

@[simp] theorem State.modHousehold_part (n : Nat) (f : Household → Household) : (s.modHousehold n f).part = s.part := rfl
@[simp] theorem State.modHousehold_ident (n : Nat) (f : Household → Household) : (s.modHousehold n f).ident = s.ident := rfl
@[simp] theorem State.modHousehold_clock (n : Nat) (f : Household → Household) : (s.modHousehold n f).clock = s.clock := rfl
@[simp] theorem State.modHousehold_mclk (n : Nat) (f : Household → Household) : (s.modHousehold n f).mclk = s.mclk := rfl
@[simp] theorem State.modHousehold_mem (n : Nat) (f : Household → Household) : (s.modHousehold n f).mem = s.mem := rfl
@[simp] theorem State.modHousehold_sramPoison (n : Nat) (f : Household → Household) : (s.modHousehold n f).sramPoison = s.sramPoison := rfl
@[simp] theorem State.modHousehold_blkPoison (n : Nat) (f : Household → Household) : (s.modHousehold n f).blkPoison = s.blkPoison := rfl
@[simp] theorem State.modHousehold_hostMem (n : Nat) (f : Household → Household) : (s.modHousehold n f).hostMem = s.hostMem := rfl
@[simp] theorem State.modHousehold_hostDeny (n : Nat) (f : Household → Household) : (s.modHousehold n f).hostDeny = s.hostDeny := rfl
@[simp] theorem State.modHousehold_settings (n : Nat) (f : Household → Household) : (s.modHousehold n f).settings = s.settings := rfl
@[simp] theorem State.modHousehold_gov (n : Nat) (f : Household → Household) : (s.modHousehold n f).gov = s.gov := rfl
@[simp] theorem State.modHousehold_activity (n : Nat) (f : Household → Household) : (s.modHousehold n f).activity = s.activity := rfl
@[simp] theorem State.modHousehold_hamlets (n : Nat) (f : Household → Household) : (s.modHousehold n f).hamlets = s.hamlets := rfl
@[simp] theorem State.modHousehold_parishes (n : Nat) (f : Household → Household) : (s.modHousehold n f).parishes = s.parishes := rfl
@[simp] theorem State.modHousehold_controllers (n : Nat) (f : Household → Household) : (s.modHousehold n f).controllers = s.controllers := rfl
@[simp] theorem State.modHousehold_landings (n : Nat) (f : Household → Household) : (s.modHousehold n f).landings = s.landings := rfl
@[simp] theorem State.modHousehold_dies (n : Nat) (f : Household → Household) : (s.modHousehold n f).dies = s.dies := rfl
@[simp] theorem State.modHousehold_pressSlots (n : Nat) (f : Household → Household) : (s.modHousehold n f).pressSlots = s.pressSlots := rfl
@[simp] theorem State.modHousehold_pressPend (n : Nat) (f : Household → Household) : (s.modHousehold n f).pressPend = s.pressPend := rfl
@[simp] theorem State.modHousehold_keySlots (n : Nat) (f : Household → Household) : (s.modHousehold n f).keySlots = s.keySlots := rfl
@[simp] theorem State.modHousehold_jobs (n : Nat) (f : Household → Household) : (s.modHousehold n f).jobs = s.jobs := rfl
@[simp] theorem State.modHousehold_sessions (n : Nat) (f : Household → Household) : (s.modHousehold n f).sessions = s.sessions := rfl
@[simp] theorem State.modHousehold_ledger (n : Nat) (f : Household → Household) : (s.modHousehold n f).ledger = s.ledger := rfl
@[simp] theorem State.modHousehold_nextSeq (n : Nat) (f : Household → Household) : (s.modHousehold n f).nextSeq = s.nextSeq := rfl
@[simp] theorem State.modHousehold_adapters (n : Nat) (f : Household → Household) : (s.modHousehold n f).adapters = s.adapters := rfl
@[simp] theorem State.modHousehold_grammars (n : Nat) (f : Household → Household) : (s.modHousehold n f).grammars = s.grammars := rfl
@[simp] theorem State.modHousehold_tensors (n : Nat) (f : Household → Household) : (s.modHousehold n f).tensors = s.tensors := rfl
@[simp] theorem State.modHousehold_postboxes (n : Nat) (f : Household → Household) : (s.modHousehold n f).postboxes = s.postboxes := rfl
@[simp] theorem State.modHousehold_noticeQ (n : Nat) (f : Household → Household) : (s.modHousehold n f).noticeQ = s.noticeQ := rfl
@[simp] theorem State.modHousehold_numVFs (n : Nat) (f : Household → Household) : (s.modHousehold n f).numVFs = s.numVFs := rfl
@[simp] theorem State.modHousehold_bar2Household (n : Nat) (f : Household → Household) : (s.modHousehold n f).bar2Household = s.bar2Household := rfl
@[simp] theorem State.modHousehold_bar2Base (n : Nat) (f : Household → Household) : (s.modHousehold n f).bar2Base = s.bar2Base := rfl
@[simp] theorem State.modHousehold_msix (n : Nat) (f : Household → Household) : (s.modHousehold n f).msix = s.msix := rfl
@[simp] theorem State.modHousehold_hostOut (n : Nat) (f : Household → Household) : (s.modHousehold n f).hostOut = s.hostOut := rfl
@[simp] theorem State.modHousehold_pins (n : Nat) (f : Household → Household) : (s.modHousehold n f).pins = s.pins := rfl
@[simp] theorem State.modHousehold_resetStep (n : Nat) (f : Household → Household) : (s.modHousehold n f).resetStep = s.resetStep := rfl
@[simp] theorem State.modHousehold_lifecycle (n : Nat) (f : Household → Household) : (s.modHousehold n f).lifecycle = s.lifecycle := rfl
@[simp] theorem State.modHousehold_torus (n : Nat) (f : Household → Household) : (s.modHousehold n f).torus = s.torus := rfl
@[simp] theorem State.modHousehold_logNext (n : Nat) (f : Household → Household) : (s.modHousehold n f).logNext = s.logNext := rfl
@[simp] theorem State.modHousehold_logRing (n : Nat) (f : Household → Household) : (s.modHousehold n f).logRing = s.logRing := rfl
@[simp] theorem State.modHousehold_bellFlight (n : Nat) (f : Household → Household) : (s.modHousehold n f).bellFlight = s.bellFlight := rfl
@[simp] theorem State.modHousehold_deepSave (n : Nat) (f : Household → Household) : (s.modHousehold n f).deepSave = s.deepSave := rfl
@[simp] theorem State.modHousehold_deepWake (n : Nat) (f : Household → Household) : (s.modHousehold n f).deepWake = s.deepWake := rfl
@[simp] theorem State.modHousehold_reload (n : Nat) (f : Household → Household) : (s.modHousehold n f).reload = s.reload := rfl
@[simp] theorem State.modHousehold_defects (n : Nat) (f : Household → Household) : (s.modHousehold n f).defects = s.defects := rfl
@[simp] theorem State.modHousehold_sieves (n : Nat) (f : Household → Household) : (s.modHousehold n f).sieves = s.sieves := rfl
@[simp] theorem State.modHousehold_msixPend (n : Nat) (f : Household → Household) : (s.modHousehold n f).msixPend = s.msixPend := rfl
@[simp] theorem State.modHousehold_bar2Log2 (n : Nat) (f : Household → Household) : (s.modHousehold n f).bar2Log2 = s.bar2Log2 := rfl
@[simp] theorem State.modHousehold_stranded (n : Nat) (f : Household → Household) : (s.modHousehold n f).stranded = s.stranded := rfl
@[simp] theorem State.modHousehold_cut (n : Nat) (f : Household → Household) : (s.modHousehold n f).cut = s.cut := rfl
@[simp] theorem State.modHousehold_rails (n : Nat) (f : Household → Household) : (s.modHousehold n f).rails = s.rails := rfl
@[simp] theorem State.modHousehold_pcieSris (n : Nat) (f : Household → Household) : (s.modHousehold n f).pcieSris = s.pcieSris := rfl
@[simp] theorem State.modHousehold_fetchNext (n : Nat) (f : Household → Household) : (s.modHousehold n f).fetchNext = s.fetchNext := rfl
@[simp] theorem State.modHousehold_stopped (n : Nat) (f : Household → Household) : (s.modHousehold n f).stopped = s.stopped := rfl
@[simp] theorem State.modHousehold_freeCtr (n : Nat) (f : Household → Household) : (s.modHousehold n f).freeCtr = s.freeCtr := rfl
@[simp] theorem State.modHousehold_pending (n : Nat) (f : Household → Household) : (s.modHousehold n f).pending = s.pending := rfl

/-! modJob -/

@[simp] theorem State.modJob_part (j : Nat) (f : Job → Job) : (s.modJob j f).part = s.part := by unfold State.modJob; split <;> rfl
@[simp] theorem State.modJob_ident (j : Nat) (f : Job → Job) : (s.modJob j f).ident = s.ident := by unfold State.modJob; split <;> rfl
@[simp] theorem State.modJob_clock (j : Nat) (f : Job → Job) : (s.modJob j f).clock = s.clock := by unfold State.modJob; split <;> rfl
@[simp] theorem State.modJob_mclk (j : Nat) (f : Job → Job) : (s.modJob j f).mclk = s.mclk := by unfold State.modJob; split <;> rfl
@[simp] theorem State.modJob_mem (j : Nat) (f : Job → Job) : (s.modJob j f).mem = s.mem := by unfold State.modJob; split <;> rfl
@[simp] theorem State.modJob_sramPoison (j : Nat) (f : Job → Job) : (s.modJob j f).sramPoison = s.sramPoison := by unfold State.modJob; split <;> rfl
@[simp] theorem State.modJob_blkPoison (j : Nat) (f : Job → Job) : (s.modJob j f).blkPoison = s.blkPoison := by unfold State.modJob; split <;> rfl
@[simp] theorem State.modJob_hostMem (j : Nat) (f : Job → Job) : (s.modJob j f).hostMem = s.hostMem := by unfold State.modJob; split <;> rfl
@[simp] theorem State.modJob_hostDeny (j : Nat) (f : Job → Job) : (s.modJob j f).hostDeny = s.hostDeny := by unfold State.modJob; split <;> rfl
@[simp] theorem State.modJob_settings (j : Nat) (f : Job → Job) : (s.modJob j f).settings = s.settings := by unfold State.modJob; split <;> rfl
@[simp] theorem State.modJob_gov (j : Nat) (f : Job → Job) : (s.modJob j f).gov = s.gov := by unfold State.modJob; split <;> rfl
@[simp] theorem State.modJob_activity (j : Nat) (f : Job → Job) : (s.modJob j f).activity = s.activity := by unfold State.modJob; split <;> rfl
@[simp] theorem State.modJob_hamlets (j : Nat) (f : Job → Job) : (s.modJob j f).hamlets = s.hamlets := by unfold State.modJob; split <;> rfl
@[simp] theorem State.modJob_parishes (j : Nat) (f : Job → Job) : (s.modJob j f).parishes = s.parishes := by unfold State.modJob; split <;> rfl
@[simp] theorem State.modJob_controllers (j : Nat) (f : Job → Job) : (s.modJob j f).controllers = s.controllers := by unfold State.modJob; split <;> rfl
@[simp] theorem State.modJob_landings (j : Nat) (f : Job → Job) : (s.modJob j f).landings = s.landings := by unfold State.modJob; split <;> rfl
@[simp] theorem State.modJob_dies (j : Nat) (f : Job → Job) : (s.modJob j f).dies = s.dies := by unfold State.modJob; split <;> rfl
@[simp] theorem State.modJob_pressSlots (j : Nat) (f : Job → Job) : (s.modJob j f).pressSlots = s.pressSlots := by unfold State.modJob; split <;> rfl
@[simp] theorem State.modJob_pressPend (j : Nat) (f : Job → Job) : (s.modJob j f).pressPend = s.pressPend := by unfold State.modJob; split <;> rfl
@[simp] theorem State.modJob_keySlots (j : Nat) (f : Job → Job) : (s.modJob j f).keySlots = s.keySlots := by unfold State.modJob; split <;> rfl
@[simp] theorem State.modJob_households (j : Nat) (f : Job → Job) : (s.modJob j f).households = s.households := by unfold State.modJob; split <;> rfl
@[simp] theorem State.modJob_sessions (j : Nat) (f : Job → Job) : (s.modJob j f).sessions = s.sessions := by unfold State.modJob; split <;> rfl
@[simp] theorem State.modJob_ledger (j : Nat) (f : Job → Job) : (s.modJob j f).ledger = s.ledger := by unfold State.modJob; split <;> rfl
@[simp] theorem State.modJob_nextSeq (j : Nat) (f : Job → Job) : (s.modJob j f).nextSeq = s.nextSeq := by unfold State.modJob; split <;> rfl
@[simp] theorem State.modJob_adapters (j : Nat) (f : Job → Job) : (s.modJob j f).adapters = s.adapters := by unfold State.modJob; split <;> rfl
@[simp] theorem State.modJob_grammars (j : Nat) (f : Job → Job) : (s.modJob j f).grammars = s.grammars := by unfold State.modJob; split <;> rfl
@[simp] theorem State.modJob_tensors (j : Nat) (f : Job → Job) : (s.modJob j f).tensors = s.tensors := by unfold State.modJob; split <;> rfl
@[simp] theorem State.modJob_postboxes (j : Nat) (f : Job → Job) : (s.modJob j f).postboxes = s.postboxes := by unfold State.modJob; split <;> rfl
@[simp] theorem State.modJob_noticeQ (j : Nat) (f : Job → Job) : (s.modJob j f).noticeQ = s.noticeQ := by unfold State.modJob; split <;> rfl
@[simp] theorem State.modJob_numVFs (j : Nat) (f : Job → Job) : (s.modJob j f).numVFs = s.numVFs := by unfold State.modJob; split <;> rfl
@[simp] theorem State.modJob_bar2Household (j : Nat) (f : Job → Job) : (s.modJob j f).bar2Household = s.bar2Household := by unfold State.modJob; split <;> rfl
@[simp] theorem State.modJob_bar2Base (j : Nat) (f : Job → Job) : (s.modJob j f).bar2Base = s.bar2Base := by unfold State.modJob; split <;> rfl
@[simp] theorem State.modJob_msix (j : Nat) (f : Job → Job) : (s.modJob j f).msix = s.msix := by unfold State.modJob; split <;> rfl
@[simp] theorem State.modJob_hostOut (j : Nat) (f : Job → Job) : (s.modJob j f).hostOut = s.hostOut := by unfold State.modJob; split <;> rfl
@[simp] theorem State.modJob_pins (j : Nat) (f : Job → Job) : (s.modJob j f).pins = s.pins := by unfold State.modJob; split <;> rfl
@[simp] theorem State.modJob_resetStep (j : Nat) (f : Job → Job) : (s.modJob j f).resetStep = s.resetStep := by unfold State.modJob; split <;> rfl
@[simp] theorem State.modJob_lifecycle (j : Nat) (f : Job → Job) : (s.modJob j f).lifecycle = s.lifecycle := by unfold State.modJob; split <;> rfl
@[simp] theorem State.modJob_torus (j : Nat) (f : Job → Job) : (s.modJob j f).torus = s.torus := by unfold State.modJob; split <;> rfl
@[simp] theorem State.modJob_logNext (j : Nat) (f : Job → Job) : (s.modJob j f).logNext = s.logNext := by unfold State.modJob; split <;> rfl
@[simp] theorem State.modJob_logRing (j : Nat) (f : Job → Job) : (s.modJob j f).logRing = s.logRing := by unfold State.modJob; split <;> rfl
@[simp] theorem State.modJob_bellFlight (j : Nat) (f : Job → Job) : (s.modJob j f).bellFlight = s.bellFlight := by unfold State.modJob; split <;> rfl
@[simp] theorem State.modJob_deepSave (j : Nat) (f : Job → Job) : (s.modJob j f).deepSave = s.deepSave := by unfold State.modJob; split <;> rfl
@[simp] theorem State.modJob_deepWake (j : Nat) (f : Job → Job) : (s.modJob j f).deepWake = s.deepWake := by unfold State.modJob; split <;> rfl
@[simp] theorem State.modJob_reload (j : Nat) (f : Job → Job) : (s.modJob j f).reload = s.reload := by unfold State.modJob; split <;> rfl
@[simp] theorem State.modJob_defects (j : Nat) (f : Job → Job) : (s.modJob j f).defects = s.defects := by unfold State.modJob; split <;> rfl
@[simp] theorem State.modJob_sieves (j : Nat) (f : Job → Job) : (s.modJob j f).sieves = s.sieves := by unfold State.modJob; split <;> rfl
@[simp] theorem State.modJob_msixPend (j : Nat) (f : Job → Job) : (s.modJob j f).msixPend = s.msixPend := by unfold State.modJob; split <;> rfl
@[simp] theorem State.modJob_bar2Log2 (j : Nat) (f : Job → Job) : (s.modJob j f).bar2Log2 = s.bar2Log2 := by unfold State.modJob; split <;> rfl
@[simp] theorem State.modJob_stranded (j : Nat) (f : Job → Job) : (s.modJob j f).stranded = s.stranded := by unfold State.modJob; split <;> rfl
@[simp] theorem State.modJob_stopped (j : Nat) (f : Job → Job) : (s.modJob j f).stopped = s.stopped := by unfold State.modJob; split <;> rfl
@[simp] theorem State.modJob_freeCtr (j : Nat) (f : Job → Job) : (s.modJob j f).freeCtr = s.freeCtr := by unfold State.modJob; split <;> rfl
@[simp] theorem State.modJob_pending (j : Nat) (f : Job → Job) : (s.modJob j f).pending = s.pending := by unfold State.modJob; split <;> rfl

/-! modEntry -/

@[simp] theorem State.modEntry_part (e : Nat) (f : Entry → Entry) : (s.modEntry e f).part = s.part := rfl
@[simp] theorem State.modEntry_ident (e : Nat) (f : Entry → Entry) : (s.modEntry e f).ident = s.ident := rfl
@[simp] theorem State.modEntry_clock (e : Nat) (f : Entry → Entry) : (s.modEntry e f).clock = s.clock := rfl
@[simp] theorem State.modEntry_mclk (e : Nat) (f : Entry → Entry) : (s.modEntry e f).mclk = s.mclk := rfl
@[simp] theorem State.modEntry_mem (e : Nat) (f : Entry → Entry) : (s.modEntry e f).mem = s.mem := rfl
@[simp] theorem State.modEntry_sramPoison (e : Nat) (f : Entry → Entry) : (s.modEntry e f).sramPoison = s.sramPoison := rfl
@[simp] theorem State.modEntry_blkPoison (e : Nat) (f : Entry → Entry) : (s.modEntry e f).blkPoison = s.blkPoison := rfl
@[simp] theorem State.modEntry_hostMem (e : Nat) (f : Entry → Entry) : (s.modEntry e f).hostMem = s.hostMem := rfl
@[simp] theorem State.modEntry_hostDeny (e : Nat) (f : Entry → Entry) : (s.modEntry e f).hostDeny = s.hostDeny := rfl
@[simp] theorem State.modEntry_settings (e : Nat) (f : Entry → Entry) : (s.modEntry e f).settings = s.settings := rfl
@[simp] theorem State.modEntry_gov (e : Nat) (f : Entry → Entry) : (s.modEntry e f).gov = s.gov := rfl
@[simp] theorem State.modEntry_activity (e : Nat) (f : Entry → Entry) : (s.modEntry e f).activity = s.activity := rfl
@[simp] theorem State.modEntry_hamlets (e : Nat) (f : Entry → Entry) : (s.modEntry e f).hamlets = s.hamlets := rfl
@[simp] theorem State.modEntry_parishes (e : Nat) (f : Entry → Entry) : (s.modEntry e f).parishes = s.parishes := rfl
@[simp] theorem State.modEntry_controllers (e : Nat) (f : Entry → Entry) : (s.modEntry e f).controllers = s.controllers := rfl
@[simp] theorem State.modEntry_landings (e : Nat) (f : Entry → Entry) : (s.modEntry e f).landings = s.landings := rfl
@[simp] theorem State.modEntry_dies (e : Nat) (f : Entry → Entry) : (s.modEntry e f).dies = s.dies := rfl
@[simp] theorem State.modEntry_pressSlots (e : Nat) (f : Entry → Entry) : (s.modEntry e f).pressSlots = s.pressSlots := rfl
@[simp] theorem State.modEntry_pressPend (e : Nat) (f : Entry → Entry) : (s.modEntry e f).pressPend = s.pressPend := rfl
@[simp] theorem State.modEntry_keySlots (e : Nat) (f : Entry → Entry) : (s.modEntry e f).keySlots = s.keySlots := rfl
@[simp] theorem State.modEntry_households (e : Nat) (f : Entry → Entry) : (s.modEntry e f).households = s.households := rfl
@[simp] theorem State.modEntry_jobs (e : Nat) (f : Entry → Entry) : (s.modEntry e f).jobs = s.jobs := rfl
@[simp] theorem State.modEntry_sessions (e : Nat) (f : Entry → Entry) : (s.modEntry e f).sessions = s.sessions := rfl
@[simp] theorem State.modEntry_nextSeq (e : Nat) (f : Entry → Entry) : (s.modEntry e f).nextSeq = s.nextSeq := rfl
@[simp] theorem State.modEntry_adapters (e : Nat) (f : Entry → Entry) : (s.modEntry e f).adapters = s.adapters := rfl
@[simp] theorem State.modEntry_grammars (e : Nat) (f : Entry → Entry) : (s.modEntry e f).grammars = s.grammars := rfl
@[simp] theorem State.modEntry_tensors (e : Nat) (f : Entry → Entry) : (s.modEntry e f).tensors = s.tensors := rfl
@[simp] theorem State.modEntry_postboxes (e : Nat) (f : Entry → Entry) : (s.modEntry e f).postboxes = s.postboxes := rfl
@[simp] theorem State.modEntry_noticeQ (e : Nat) (f : Entry → Entry) : (s.modEntry e f).noticeQ = s.noticeQ := rfl
@[simp] theorem State.modEntry_numVFs (e : Nat) (f : Entry → Entry) : (s.modEntry e f).numVFs = s.numVFs := rfl
@[simp] theorem State.modEntry_bar2Household (e : Nat) (f : Entry → Entry) : (s.modEntry e f).bar2Household = s.bar2Household := rfl
@[simp] theorem State.modEntry_bar2Base (e : Nat) (f : Entry → Entry) : (s.modEntry e f).bar2Base = s.bar2Base := rfl
@[simp] theorem State.modEntry_msix (e : Nat) (f : Entry → Entry) : (s.modEntry e f).msix = s.msix := rfl
@[simp] theorem State.modEntry_hostOut (e : Nat) (f : Entry → Entry) : (s.modEntry e f).hostOut = s.hostOut := rfl
@[simp] theorem State.modEntry_pins (e : Nat) (f : Entry → Entry) : (s.modEntry e f).pins = s.pins := rfl
@[simp] theorem State.modEntry_resetStep (e : Nat) (f : Entry → Entry) : (s.modEntry e f).resetStep = s.resetStep := rfl
@[simp] theorem State.modEntry_lifecycle (e : Nat) (f : Entry → Entry) : (s.modEntry e f).lifecycle = s.lifecycle := rfl
@[simp] theorem State.modEntry_torus (e : Nat) (f : Entry → Entry) : (s.modEntry e f).torus = s.torus := rfl
@[simp] theorem State.modEntry_logNext (e : Nat) (f : Entry → Entry) : (s.modEntry e f).logNext = s.logNext := rfl
@[simp] theorem State.modEntry_logRing (e : Nat) (f : Entry → Entry) : (s.modEntry e f).logRing = s.logRing := rfl
@[simp] theorem State.modEntry_bellFlight (e : Nat) (f : Entry → Entry) : (s.modEntry e f).bellFlight = s.bellFlight := rfl
@[simp] theorem State.modEntry_deepSave (e : Nat) (f : Entry → Entry) : (s.modEntry e f).deepSave = s.deepSave := rfl
@[simp] theorem State.modEntry_deepWake (e : Nat) (f : Entry → Entry) : (s.modEntry e f).deepWake = s.deepWake := rfl
@[simp] theorem State.modEntry_reload (e : Nat) (f : Entry → Entry) : (s.modEntry e f).reload = s.reload := rfl
@[simp] theorem State.modEntry_defects (e : Nat) (f : Entry → Entry) : (s.modEntry e f).defects = s.defects := rfl
@[simp] theorem State.modEntry_sieves (e : Nat) (f : Entry → Entry) : (s.modEntry e f).sieves = s.sieves := rfl
@[simp] theorem State.modEntry_msixPend (e : Nat) (f : Entry → Entry) : (s.modEntry e f).msixPend = s.msixPend := rfl
@[simp] theorem State.modEntry_bar2Log2 (e : Nat) (f : Entry → Entry) : (s.modEntry e f).bar2Log2 = s.bar2Log2 := rfl
@[simp] theorem State.modEntry_stranded (e : Nat) (f : Entry → Entry) : (s.modEntry e f).stranded = s.stranded := rfl
@[simp] theorem State.modEntry_cut (e : Nat) (f : Entry → Entry) : (s.modEntry e f).cut = s.cut := rfl
@[simp] theorem State.modEntry_rails (e : Nat) (f : Entry → Entry) : (s.modEntry e f).rails = s.rails := rfl
@[simp] theorem State.modEntry_pcieSris (e : Nat) (f : Entry → Entry) : (s.modEntry e f).pcieSris = s.pcieSris := rfl
@[simp] theorem State.modEntry_fetchNext (e : Nat) (f : Entry → Entry) : (s.modEntry e f).fetchNext = s.fetchNext := rfl
@[simp] theorem State.modEntry_stopped (e : Nat) (f : Entry → Entry) : (s.modEntry e f).stopped = s.stopped := rfl
@[simp] theorem State.modEntry_freeCtr (e : Nat) (f : Entry → Entry) : (s.modEntry e f).freeCtr = s.freeCtr := rfl
@[simp] theorem State.modEntry_pending (e : Nat) (f : Entry → Entry) : (s.modEntry e f).pending = s.pending := rfl

/-! notify -/

@[simp] theorem State.notify_part (k : Nat) (op : BitVec 16) (v : Word64) : (s.notify k op v).part = s.part := rfl
@[simp] theorem State.notify_ident (k : Nat) (op : BitVec 16) (v : Word64) : (s.notify k op v).ident = s.ident := rfl
@[simp] theorem State.notify_clock (k : Nat) (op : BitVec 16) (v : Word64) : (s.notify k op v).clock = s.clock := rfl
@[simp] theorem State.notify_mclk (k : Nat) (op : BitVec 16) (v : Word64) : (s.notify k op v).mclk = s.mclk := rfl
@[simp] theorem State.notify_mem (k : Nat) (op : BitVec 16) (v : Word64) : (s.notify k op v).mem = s.mem := rfl
@[simp] theorem State.notify_sramPoison (k : Nat) (op : BitVec 16) (v : Word64) : (s.notify k op v).sramPoison = s.sramPoison := rfl
@[simp] theorem State.notify_blkPoison (k : Nat) (op : BitVec 16) (v : Word64) : (s.notify k op v).blkPoison = s.blkPoison := rfl
@[simp] theorem State.notify_hostMem (k : Nat) (op : BitVec 16) (v : Word64) : (s.notify k op v).hostMem = s.hostMem := rfl
@[simp] theorem State.notify_hostDeny (k : Nat) (op : BitVec 16) (v : Word64) : (s.notify k op v).hostDeny = s.hostDeny := rfl
@[simp] theorem State.notify_settings (k : Nat) (op : BitVec 16) (v : Word64) : (s.notify k op v).settings = s.settings := rfl
@[simp] theorem State.notify_gov (k : Nat) (op : BitVec 16) (v : Word64) : (s.notify k op v).gov = s.gov := rfl
@[simp] theorem State.notify_activity (k : Nat) (op : BitVec 16) (v : Word64) : (s.notify k op v).activity = s.activity := rfl
@[simp] theorem State.notify_hamlets (k : Nat) (op : BitVec 16) (v : Word64) : (s.notify k op v).hamlets = s.hamlets := rfl
@[simp] theorem State.notify_parishes (k : Nat) (op : BitVec 16) (v : Word64) : (s.notify k op v).parishes = s.parishes := rfl
@[simp] theorem State.notify_controllers (k : Nat) (op : BitVec 16) (v : Word64) : (s.notify k op v).controllers = s.controllers := rfl
@[simp] theorem State.notify_landings (k : Nat) (op : BitVec 16) (v : Word64) : (s.notify k op v).landings = s.landings := rfl
@[simp] theorem State.notify_dies (k : Nat) (op : BitVec 16) (v : Word64) : (s.notify k op v).dies = s.dies := rfl
@[simp] theorem State.notify_pressSlots (k : Nat) (op : BitVec 16) (v : Word64) : (s.notify k op v).pressSlots = s.pressSlots := rfl
@[simp] theorem State.notify_pressPend (k : Nat) (op : BitVec 16) (v : Word64) : (s.notify k op v).pressPend = s.pressPend := rfl
@[simp] theorem State.notify_keySlots (k : Nat) (op : BitVec 16) (v : Word64) : (s.notify k op v).keySlots = s.keySlots := rfl
@[simp] theorem State.notify_households (k : Nat) (op : BitVec 16) (v : Word64) : (s.notify k op v).households = s.households := rfl
@[simp] theorem State.notify_jobs (k : Nat) (op : BitVec 16) (v : Word64) : (s.notify k op v).jobs = s.jobs := rfl
@[simp] theorem State.notify_sessions (k : Nat) (op : BitVec 16) (v : Word64) : (s.notify k op v).sessions = s.sessions := rfl
@[simp] theorem State.notify_ledger (k : Nat) (op : BitVec 16) (v : Word64) : (s.notify k op v).ledger = s.ledger := rfl
@[simp] theorem State.notify_nextSeq (k : Nat) (op : BitVec 16) (v : Word64) : (s.notify k op v).nextSeq = s.nextSeq := rfl
@[simp] theorem State.notify_adapters (k : Nat) (op : BitVec 16) (v : Word64) : (s.notify k op v).adapters = s.adapters := rfl
@[simp] theorem State.notify_grammars (k : Nat) (op : BitVec 16) (v : Word64) : (s.notify k op v).grammars = s.grammars := rfl
@[simp] theorem State.notify_tensors (k : Nat) (op : BitVec 16) (v : Word64) : (s.notify k op v).tensors = s.tensors := rfl
@[simp] theorem State.notify_postboxes (k : Nat) (op : BitVec 16) (v : Word64) : (s.notify k op v).postboxes = s.postboxes := rfl
@[simp] theorem State.notify_numVFs (k : Nat) (op : BitVec 16) (v : Word64) : (s.notify k op v).numVFs = s.numVFs := rfl
@[simp] theorem State.notify_bar2Household (k : Nat) (op : BitVec 16) (v : Word64) : (s.notify k op v).bar2Household = s.bar2Household := rfl
@[simp] theorem State.notify_bar2Base (k : Nat) (op : BitVec 16) (v : Word64) : (s.notify k op v).bar2Base = s.bar2Base := rfl
@[simp] theorem State.notify_msix (k : Nat) (op : BitVec 16) (v : Word64) : (s.notify k op v).msix = s.msix := rfl
@[simp] theorem State.notify_hostOut (k : Nat) (op : BitVec 16) (v : Word64) : (s.notify k op v).hostOut = s.hostOut := rfl
@[simp] theorem State.notify_pins (k : Nat) (op : BitVec 16) (v : Word64) : (s.notify k op v).pins = s.pins := rfl
@[simp] theorem State.notify_resetStep (k : Nat) (op : BitVec 16) (v : Word64) : (s.notify k op v).resetStep = s.resetStep := rfl
@[simp] theorem State.notify_lifecycle (k : Nat) (op : BitVec 16) (v : Word64) : (s.notify k op v).lifecycle = s.lifecycle := rfl
@[simp] theorem State.notify_torus (k : Nat) (op : BitVec 16) (v : Word64) : (s.notify k op v).torus = s.torus := rfl
@[simp] theorem State.notify_logNext (k : Nat) (op : BitVec 16) (v : Word64) : (s.notify k op v).logNext = s.logNext := rfl
@[simp] theorem State.notify_logRing (k : Nat) (op : BitVec 16) (v : Word64) : (s.notify k op v).logRing = s.logRing := rfl
@[simp] theorem State.notify_bellFlight (k : Nat) (op : BitVec 16) (v : Word64) : (s.notify k op v).bellFlight = s.bellFlight := rfl
@[simp] theorem State.notify_deepSave (k : Nat) (op : BitVec 16) (v : Word64) : (s.notify k op v).deepSave = s.deepSave := rfl
@[simp] theorem State.notify_deepWake (k : Nat) (op : BitVec 16) (v : Word64) : (s.notify k op v).deepWake = s.deepWake := rfl
@[simp] theorem State.notify_reload (k : Nat) (op : BitVec 16) (v : Word64) : (s.notify k op v).reload = s.reload := rfl
@[simp] theorem State.notify_defects (k : Nat) (op : BitVec 16) (v : Word64) : (s.notify k op v).defects = s.defects := rfl
@[simp] theorem State.notify_sieves (k : Nat) (op : BitVec 16) (v : Word64) : (s.notify k op v).sieves = s.sieves := rfl
@[simp] theorem State.notify_msixPend (k : Nat) (op : BitVec 16) (v : Word64) : (s.notify k op v).msixPend = s.msixPend := rfl
@[simp] theorem State.notify_bar2Log2 (k : Nat) (op : BitVec 16) (v : Word64) : (s.notify k op v).bar2Log2 = s.bar2Log2 := rfl
@[simp] theorem State.notify_stranded (k : Nat) (op : BitVec 16) (v : Word64) : (s.notify k op v).stranded = s.stranded := rfl
@[simp] theorem State.notify_cut (k : Nat) (op : BitVec 16) (v : Word64) : (s.notify k op v).cut = s.cut := rfl
@[simp] theorem State.notify_rails (k : Nat) (op : BitVec 16) (v : Word64) : (s.notify k op v).rails = s.rails := rfl
@[simp] theorem State.notify_pcieSris (k : Nat) (op : BitVec 16) (v : Word64) : (s.notify k op v).pcieSris = s.pcieSris := rfl
@[simp] theorem State.notify_fetchNext (k : Nat) (op : BitVec 16) (v : Word64) : (s.notify k op v).fetchNext = s.fetchNext := rfl
@[simp] theorem State.notify_stopped (k : Nat) (op : BitVec 16) (v : Word64) : (s.notify k op v).stopped = s.stopped := rfl
@[simp] theorem State.notify_freeCtr (k : Nat) (op : BitVec 16) (v : Word64) : (s.notify k op v).freeCtr = s.freeCtr := rfl
@[simp] theorem State.notify_pending (k : Nat) (op : BitVec 16) (v : Word64) : (s.notify k op v).pending = s.pending := rfl

/-! emit -/

@[simp] theorem State.emit_part (o : HostOut) : (s.emit o).part = s.part := rfl
@[simp] theorem State.emit_ident (o : HostOut) : (s.emit o).ident = s.ident := rfl
@[simp] theorem State.emit_clock (o : HostOut) : (s.emit o).clock = s.clock := rfl
@[simp] theorem State.emit_mclk (o : HostOut) : (s.emit o).mclk = s.mclk := rfl
@[simp] theorem State.emit_mem (o : HostOut) : (s.emit o).mem = s.mem := rfl
@[simp] theorem State.emit_sramPoison (o : HostOut) : (s.emit o).sramPoison = s.sramPoison := rfl
@[simp] theorem State.emit_blkPoison (o : HostOut) : (s.emit o).blkPoison = s.blkPoison := rfl
@[simp] theorem State.emit_hostMem (o : HostOut) : (s.emit o).hostMem = s.hostMem := rfl
@[simp] theorem State.emit_hostDeny (o : HostOut) : (s.emit o).hostDeny = s.hostDeny := rfl
@[simp] theorem State.emit_settings (o : HostOut) : (s.emit o).settings = s.settings := rfl
@[simp] theorem State.emit_gov (o : HostOut) : (s.emit o).gov = s.gov := rfl
@[simp] theorem State.emit_activity (o : HostOut) : (s.emit o).activity = s.activity := rfl
@[simp] theorem State.emit_hamlets (o : HostOut) : (s.emit o).hamlets = s.hamlets := rfl
@[simp] theorem State.emit_parishes (o : HostOut) : (s.emit o).parishes = s.parishes := rfl
@[simp] theorem State.emit_controllers (o : HostOut) : (s.emit o).controllers = s.controllers := rfl
@[simp] theorem State.emit_landings (o : HostOut) : (s.emit o).landings = s.landings := rfl
@[simp] theorem State.emit_dies (o : HostOut) : (s.emit o).dies = s.dies := rfl
@[simp] theorem State.emit_pressSlots (o : HostOut) : (s.emit o).pressSlots = s.pressSlots := rfl
@[simp] theorem State.emit_pressPend (o : HostOut) : (s.emit o).pressPend = s.pressPend := rfl
@[simp] theorem State.emit_keySlots (o : HostOut) : (s.emit o).keySlots = s.keySlots := rfl
@[simp] theorem State.emit_households (o : HostOut) : (s.emit o).households = s.households := rfl
@[simp] theorem State.emit_jobs (o : HostOut) : (s.emit o).jobs = s.jobs := rfl
@[simp] theorem State.emit_sessions (o : HostOut) : (s.emit o).sessions = s.sessions := rfl
@[simp] theorem State.emit_ledger (o : HostOut) : (s.emit o).ledger = s.ledger := rfl
@[simp] theorem State.emit_nextSeq (o : HostOut) : (s.emit o).nextSeq = s.nextSeq := rfl
@[simp] theorem State.emit_adapters (o : HostOut) : (s.emit o).adapters = s.adapters := rfl
@[simp] theorem State.emit_grammars (o : HostOut) : (s.emit o).grammars = s.grammars := rfl
@[simp] theorem State.emit_tensors (o : HostOut) : (s.emit o).tensors = s.tensors := rfl
@[simp] theorem State.emit_postboxes (o : HostOut) : (s.emit o).postboxes = s.postboxes := rfl
@[simp] theorem State.emit_noticeQ (o : HostOut) : (s.emit o).noticeQ = s.noticeQ := rfl
@[simp] theorem State.emit_numVFs (o : HostOut) : (s.emit o).numVFs = s.numVFs := rfl
@[simp] theorem State.emit_bar2Household (o : HostOut) : (s.emit o).bar2Household = s.bar2Household := rfl
@[simp] theorem State.emit_bar2Base (o : HostOut) : (s.emit o).bar2Base = s.bar2Base := rfl
@[simp] theorem State.emit_msix (o : HostOut) : (s.emit o).msix = s.msix := rfl
@[simp] theorem State.emit_pins (o : HostOut) : (s.emit o).pins = s.pins := rfl
@[simp] theorem State.emit_resetStep (o : HostOut) : (s.emit o).resetStep = s.resetStep := rfl
@[simp] theorem State.emit_lifecycle (o : HostOut) : (s.emit o).lifecycle = s.lifecycle := rfl
@[simp] theorem State.emit_torus (o : HostOut) : (s.emit o).torus = s.torus := rfl
@[simp] theorem State.emit_logNext (o : HostOut) : (s.emit o).logNext = s.logNext := rfl
@[simp] theorem State.emit_logRing (o : HostOut) : (s.emit o).logRing = s.logRing := rfl
@[simp] theorem State.emit_bellFlight (o : HostOut) : (s.emit o).bellFlight = s.bellFlight := rfl
@[simp] theorem State.emit_deepSave (o : HostOut) : (s.emit o).deepSave = s.deepSave := rfl
@[simp] theorem State.emit_deepWake (o : HostOut) : (s.emit o).deepWake = s.deepWake := rfl
@[simp] theorem State.emit_reload (o : HostOut) : (s.emit o).reload = s.reload := rfl
@[simp] theorem State.emit_defects (o : HostOut) : (s.emit o).defects = s.defects := rfl
@[simp] theorem State.emit_sieves (o : HostOut) : (s.emit o).sieves = s.sieves := rfl
@[simp] theorem State.emit_msixPend (o : HostOut) : (s.emit o).msixPend = s.msixPend := rfl
@[simp] theorem State.emit_bar2Log2 (o : HostOut) : (s.emit o).bar2Log2 = s.bar2Log2 := rfl
@[simp] theorem State.emit_stranded (o : HostOut) : (s.emit o).stranded = s.stranded := rfl
@[simp] theorem State.emit_cut (o : HostOut) : (s.emit o).cut = s.cut := rfl
@[simp] theorem State.emit_rails (o : HostOut) : (s.emit o).rails = s.rails := rfl
@[simp] theorem State.emit_pcieSris (o : HostOut) : (s.emit o).pcieSris = s.pcieSris := rfl
@[simp] theorem State.emit_fetchNext (o : HostOut) : (s.emit o).fetchNext = s.fetchNext := rfl
@[simp] theorem State.emit_stopped (o : HostOut) : (s.emit o).stopped = s.stopped := rfl
@[simp] theorem State.emit_freeCtr (o : HostOut) : (s.emit o).freeCtr = s.freeCtr := rfl
@[simp] theorem State.emit_pending (o : HostOut) : (s.emit o).pending = s.pending := rfl

/-! busy -/

@[simp] theorem State.busy_part (m : HamletRef) : (s.busy m).part = s.part := rfl
@[simp] theorem State.busy_ident (m : HamletRef) : (s.busy m).ident = s.ident := rfl
@[simp] theorem State.busy_clock (m : HamletRef) : (s.busy m).clock = s.clock := rfl
@[simp] theorem State.busy_mclk (m : HamletRef) : (s.busy m).mclk = s.mclk := rfl
@[simp] theorem State.busy_mem (m : HamletRef) : (s.busy m).mem = s.mem := rfl
@[simp] theorem State.busy_sramPoison (m : HamletRef) : (s.busy m).sramPoison = s.sramPoison := rfl
@[simp] theorem State.busy_blkPoison (m : HamletRef) : (s.busy m).blkPoison = s.blkPoison := rfl
@[simp] theorem State.busy_hostMem (m : HamletRef) : (s.busy m).hostMem = s.hostMem := rfl
@[simp] theorem State.busy_hostDeny (m : HamletRef) : (s.busy m).hostDeny = s.hostDeny := rfl
@[simp] theorem State.busy_settings (m : HamletRef) : (s.busy m).settings = s.settings := rfl
@[simp] theorem State.busy_gov (m : HamletRef) : (s.busy m).gov = s.gov := rfl
@[simp] theorem State.busy_activity (m : HamletRef) : (s.busy m).activity = s.activity := rfl
@[simp] theorem State.busy_parishes (m : HamletRef) : (s.busy m).parishes = s.parishes := rfl
@[simp] theorem State.busy_controllers (m : HamletRef) : (s.busy m).controllers = s.controllers := rfl
@[simp] theorem State.busy_landings (m : HamletRef) : (s.busy m).landings = s.landings := rfl
@[simp] theorem State.busy_dies (m : HamletRef) : (s.busy m).dies = s.dies := rfl
@[simp] theorem State.busy_pressSlots (m : HamletRef) : (s.busy m).pressSlots = s.pressSlots := rfl
@[simp] theorem State.busy_pressPend (m : HamletRef) : (s.busy m).pressPend = s.pressPend := rfl
@[simp] theorem State.busy_keySlots (m : HamletRef) : (s.busy m).keySlots = s.keySlots := rfl
@[simp] theorem State.busy_households (m : HamletRef) : (s.busy m).households = s.households := rfl
@[simp] theorem State.busy_jobs (m : HamletRef) : (s.busy m).jobs = s.jobs := rfl
@[simp] theorem State.busy_sessions (m : HamletRef) : (s.busy m).sessions = s.sessions := rfl
@[simp] theorem State.busy_ledger (m : HamletRef) : (s.busy m).ledger = s.ledger := rfl
@[simp] theorem State.busy_nextSeq (m : HamletRef) : (s.busy m).nextSeq = s.nextSeq := rfl
@[simp] theorem State.busy_adapters (m : HamletRef) : (s.busy m).adapters = s.adapters := rfl
@[simp] theorem State.busy_grammars (m : HamletRef) : (s.busy m).grammars = s.grammars := rfl
@[simp] theorem State.busy_tensors (m : HamletRef) : (s.busy m).tensors = s.tensors := rfl
@[simp] theorem State.busy_postboxes (m : HamletRef) : (s.busy m).postboxes = s.postboxes := rfl
@[simp] theorem State.busy_noticeQ (m : HamletRef) : (s.busy m).noticeQ = s.noticeQ := rfl
@[simp] theorem State.busy_numVFs (m : HamletRef) : (s.busy m).numVFs = s.numVFs := rfl
@[simp] theorem State.busy_bar2Household (m : HamletRef) : (s.busy m).bar2Household = s.bar2Household := rfl
@[simp] theorem State.busy_bar2Base (m : HamletRef) : (s.busy m).bar2Base = s.bar2Base := rfl
@[simp] theorem State.busy_msix (m : HamletRef) : (s.busy m).msix = s.msix := rfl
@[simp] theorem State.busy_hostOut (m : HamletRef) : (s.busy m).hostOut = s.hostOut := rfl
@[simp] theorem State.busy_pins (m : HamletRef) : (s.busy m).pins = s.pins := rfl
@[simp] theorem State.busy_resetStep (m : HamletRef) : (s.busy m).resetStep = s.resetStep := rfl
@[simp] theorem State.busy_lifecycle (m : HamletRef) : (s.busy m).lifecycle = s.lifecycle := rfl
@[simp] theorem State.busy_torus (m : HamletRef) : (s.busy m).torus = s.torus := rfl
@[simp] theorem State.busy_logNext (m : HamletRef) : (s.busy m).logNext = s.logNext := rfl
@[simp] theorem State.busy_logRing (m : HamletRef) : (s.busy m).logRing = s.logRing := rfl
@[simp] theorem State.busy_bellFlight (m : HamletRef) : (s.busy m).bellFlight = s.bellFlight := rfl
@[simp] theorem State.busy_deepSave (m : HamletRef) : (s.busy m).deepSave = s.deepSave := rfl
@[simp] theorem State.busy_deepWake (m : HamletRef) : (s.busy m).deepWake = s.deepWake := rfl
@[simp] theorem State.busy_reload (m : HamletRef) : (s.busy m).reload = s.reload := rfl
@[simp] theorem State.busy_defects (m : HamletRef) : (s.busy m).defects = s.defects := rfl
@[simp] theorem State.busy_sieves (m : HamletRef) : (s.busy m).sieves = s.sieves := rfl
@[simp] theorem State.busy_msixPend (m : HamletRef) : (s.busy m).msixPend = s.msixPend := rfl
@[simp] theorem State.busy_bar2Log2 (m : HamletRef) : (s.busy m).bar2Log2 = s.bar2Log2 := rfl
@[simp] theorem State.busy_stranded (m : HamletRef) : (s.busy m).stranded = s.stranded := rfl
@[simp] theorem State.busy_cut (m : HamletRef) : (s.busy m).cut = s.cut := rfl
@[simp] theorem State.busy_rails (m : HamletRef) : (s.busy m).rails = s.rails := rfl
@[simp] theorem State.busy_pcieSris (m : HamletRef) : (s.busy m).pcieSris = s.pcieSris := rfl
@[simp] theorem State.busy_fetchNext (m : HamletRef) : (s.busy m).fetchNext = s.fetchNext := rfl
@[simp] theorem State.busy_stopped (m : HamletRef) : (s.busy m).stopped = s.stopped := rfl
@[simp] theorem State.busy_freeCtr (m : HamletRef) : (s.busy m).freeCtr = s.freeCtr := rfl
@[simp] theorem State.busy_pending (m : HamletRef) : (s.busy m).pending = s.pending := rfl

/-! retire -/

@[simp] theorem State.retire_part (h : HandRef) (f : Hand → Hand) : (s.retire h f).part = s.part := rfl
@[simp] theorem State.retire_ident (h : HandRef) (f : Hand → Hand) : (s.retire h f).ident = s.ident := rfl
@[simp] theorem State.retire_clock (h : HandRef) (f : Hand → Hand) : (s.retire h f).clock = s.clock := rfl
@[simp] theorem State.retire_mclk (h : HandRef) (f : Hand → Hand) : (s.retire h f).mclk = s.mclk := rfl
@[simp] theorem State.retire_mem (h : HandRef) (f : Hand → Hand) : (s.retire h f).mem = s.mem := rfl
@[simp] theorem State.retire_sramPoison (h : HandRef) (f : Hand → Hand) : (s.retire h f).sramPoison = s.sramPoison := rfl
@[simp] theorem State.retire_blkPoison (h : HandRef) (f : Hand → Hand) : (s.retire h f).blkPoison = s.blkPoison := rfl
@[simp] theorem State.retire_hostMem (h : HandRef) (f : Hand → Hand) : (s.retire h f).hostMem = s.hostMem := rfl
@[simp] theorem State.retire_hostDeny (h : HandRef) (f : Hand → Hand) : (s.retire h f).hostDeny = s.hostDeny := rfl
@[simp] theorem State.retire_settings (h : HandRef) (f : Hand → Hand) : (s.retire h f).settings = s.settings := rfl
@[simp] theorem State.retire_gov (h : HandRef) (f : Hand → Hand) : (s.retire h f).gov = s.gov := rfl
@[simp] theorem State.retire_activity (h : HandRef) (f : Hand → Hand) : (s.retire h f).activity = s.activity := rfl
@[simp] theorem State.retire_parishes (h : HandRef) (f : Hand → Hand) : (s.retire h f).parishes = s.parishes := rfl
@[simp] theorem State.retire_controllers (h : HandRef) (f : Hand → Hand) : (s.retire h f).controllers = s.controllers := rfl
@[simp] theorem State.retire_landings (h : HandRef) (f : Hand → Hand) : (s.retire h f).landings = s.landings := rfl
@[simp] theorem State.retire_dies (h : HandRef) (f : Hand → Hand) : (s.retire h f).dies = s.dies := rfl
@[simp] theorem State.retire_pressSlots (h : HandRef) (f : Hand → Hand) : (s.retire h f).pressSlots = s.pressSlots := rfl
@[simp] theorem State.retire_pressPend (h : HandRef) (f : Hand → Hand) : (s.retire h f).pressPend = s.pressPend := rfl
@[simp] theorem State.retire_keySlots (h : HandRef) (f : Hand → Hand) : (s.retire h f).keySlots = s.keySlots := rfl
@[simp] theorem State.retire_households (h : HandRef) (f : Hand → Hand) : (s.retire h f).households = s.households := rfl
@[simp] theorem State.retire_jobs (h : HandRef) (f : Hand → Hand) : (s.retire h f).jobs = s.jobs := rfl
@[simp] theorem State.retire_sessions (h : HandRef) (f : Hand → Hand) : (s.retire h f).sessions = s.sessions := rfl
@[simp] theorem State.retire_ledger (h : HandRef) (f : Hand → Hand) : (s.retire h f).ledger = s.ledger := rfl
@[simp] theorem State.retire_nextSeq (h : HandRef) (f : Hand → Hand) : (s.retire h f).nextSeq = s.nextSeq := rfl
@[simp] theorem State.retire_adapters (h : HandRef) (f : Hand → Hand) : (s.retire h f).adapters = s.adapters := rfl
@[simp] theorem State.retire_grammars (h : HandRef) (f : Hand → Hand) : (s.retire h f).grammars = s.grammars := rfl
@[simp] theorem State.retire_tensors (h : HandRef) (f : Hand → Hand) : (s.retire h f).tensors = s.tensors := rfl
@[simp] theorem State.retire_postboxes (h : HandRef) (f : Hand → Hand) : (s.retire h f).postboxes = s.postboxes := rfl
@[simp] theorem State.retire_noticeQ (h : HandRef) (f : Hand → Hand) : (s.retire h f).noticeQ = s.noticeQ := rfl
@[simp] theorem State.retire_numVFs (h : HandRef) (f : Hand → Hand) : (s.retire h f).numVFs = s.numVFs := rfl
@[simp] theorem State.retire_bar2Household (h : HandRef) (f : Hand → Hand) : (s.retire h f).bar2Household = s.bar2Household := rfl
@[simp] theorem State.retire_bar2Base (h : HandRef) (f : Hand → Hand) : (s.retire h f).bar2Base = s.bar2Base := rfl
@[simp] theorem State.retire_msix (h : HandRef) (f : Hand → Hand) : (s.retire h f).msix = s.msix := rfl
@[simp] theorem State.retire_hostOut (h : HandRef) (f : Hand → Hand) : (s.retire h f).hostOut = s.hostOut := rfl
@[simp] theorem State.retire_pins (h : HandRef) (f : Hand → Hand) : (s.retire h f).pins = s.pins := rfl
@[simp] theorem State.retire_resetStep (h : HandRef) (f : Hand → Hand) : (s.retire h f).resetStep = s.resetStep := rfl
@[simp] theorem State.retire_lifecycle (h : HandRef) (f : Hand → Hand) : (s.retire h f).lifecycle = s.lifecycle := rfl
@[simp] theorem State.retire_torus (h : HandRef) (f : Hand → Hand) : (s.retire h f).torus = s.torus := rfl
@[simp] theorem State.retire_logNext (h : HandRef) (f : Hand → Hand) : (s.retire h f).logNext = s.logNext := rfl
@[simp] theorem State.retire_logRing (h : HandRef) (f : Hand → Hand) : (s.retire h f).logRing = s.logRing := rfl
@[simp] theorem State.retire_bellFlight (h : HandRef) (f : Hand → Hand) : (s.retire h f).bellFlight = s.bellFlight := rfl
@[simp] theorem State.retire_deepSave (h : HandRef) (f : Hand → Hand) : (s.retire h f).deepSave = s.deepSave := rfl
@[simp] theorem State.retire_deepWake (h : HandRef) (f : Hand → Hand) : (s.retire h f).deepWake = s.deepWake := rfl
@[simp] theorem State.retire_reload (h : HandRef) (f : Hand → Hand) : (s.retire h f).reload = s.reload := rfl
@[simp] theorem State.retire_defects (h : HandRef) (f : Hand → Hand) : (s.retire h f).defects = s.defects := rfl
@[simp] theorem State.retire_sieves (h : HandRef) (f : Hand → Hand) : (s.retire h f).sieves = s.sieves := rfl
@[simp] theorem State.retire_msixPend (h : HandRef) (f : Hand → Hand) : (s.retire h f).msixPend = s.msixPend := rfl
@[simp] theorem State.retire_bar2Log2 (h : HandRef) (f : Hand → Hand) : (s.retire h f).bar2Log2 = s.bar2Log2 := rfl
@[simp] theorem State.retire_stranded (h : HandRef) (f : Hand → Hand) : (s.retire h f).stranded = s.stranded := rfl
@[simp] theorem State.retire_cut (h : HandRef) (f : Hand → Hand) : (s.retire h f).cut = s.cut := rfl
@[simp] theorem State.retire_rails (h : HandRef) (f : Hand → Hand) : (s.retire h f).rails = s.rails := rfl
@[simp] theorem State.retire_pcieSris (h : HandRef) (f : Hand → Hand) : (s.retire h f).pcieSris = s.pcieSris := rfl
@[simp] theorem State.retire_fetchNext (h : HandRef) (f : Hand → Hand) : (s.retire h f).fetchNext = s.fetchNext := rfl
@[simp] theorem State.retire_stopped (h : HandRef) (f : Hand → Hand) : (s.retire h f).stopped = s.stopped := rfl
@[simp] theorem State.retire_freeCtr (h : HandRef) (f : Hand → Hand) : (s.retire h f).freeCtr = s.freeCtr := rfl
@[simp] theorem State.retire_pending (h : HandRef) (f : Hand → Hand) : (s.retire h f).pending = s.pending := rfl

/-! ## Reads after updates -/

@[simp] theorem State.setHamlet_hamlets (m : HamletRef) (x : Hamlet) :
    (s.setHamlet m x).hamlets = s.hamlets.set (slotKey m.die m.slot) x := rfl

@[simp] theorem State.setParish_parishes (p : ParishRef) (x : Parish) : (s.setParish p x).parishes = s.parishes.set (parKey p) x := rfl

@[simp] theorem State.hamlet_setHamlet (m : HamletRef) (x : Hamlet) : (s.setHamlet m x).hamlet m = x := Tab.get_set_same ..

@[simp] theorem State.hamlet_modHamlet (m : HamletRef) (f : Hamlet → Hamlet) : (s.modHamlet m f).hamlet m = f (s.hamlet m) :=
  State.hamlet_setHamlet ..

/-- Another hamlet keeps what it held. -/
theorem State.hamlet_modHamlet_ne {m m' : HamletRef} (f : Hamlet → Hamlet) (h : slotKey m'.die m'.slot ≠ slotKey m.die m.slot) :
    (s.modHamlet m f).hamlet m' = s.hamlet m' := Tab.get_set_ne _ _ _ h

@[simp] theorem State.hamlet_setHand (h : HandRef) (x : Hand) :
    (s.setHand h x).hamlet (handSlot h) = { s.hamlet (handSlot h) with hands := (s.hamlet (handSlot h)).hands.set h.idx x } :=
  State.hamlet_modHamlet ..

@[simp] theorem State.hand_setHand (h : HandRef) (x : Hand) : (s.setHand h x).hand h = x := by
  simp [State.hand]

@[simp] theorem State.hand_modHand (h : HandRef) (f : Hand → Hand) : (s.modHand h f).hand h = f (s.hand h) := State.hand_setHand ..

@[simp] theorem State.hamlet_modHand (h : HandRef) (f : Hand → Hand) :
    (s.modHand h f).hamlet (handSlot h) =
      { s.hamlet (handSlot h) with hands := (s.hamlet (handSlot h)).hands.set h.idx (f (s.hand h)) } := State.hamlet_setHand ..

@[simp] theorem State.hamlet_busy (m : HamletRef) : (s.busy m).hamlet m = { s.hamlet m with idleSince := s.mclk } :=
  State.hamlet_modHamlet ..

@[simp] theorem State.hand_retire (h : HandRef) (f : Hand → Hand) : (s.retire h f).hand h = f (s.hand h) := by
  show ((s.modHand h f).busy (handSlot h)).hand h = _
  unfold State.hand
  rw [State.hamlet_busy, State.hamlet_modHand]
  exact Tab.get_set_same ..

@[simp] theorem State.hamlet_retire (h : HandRef) (f : Hand → Hand) :
    (s.retire h f).hamlet (handSlot h) =
      { s.hamlet (handSlot h) with hands := (s.hamlet (handSlot h)).hands.set h.idx (f (s.hand h)), idleSince := s.mclk } := by
  show ((s.modHand h f).busy (handSlot h)).hamlet (handSlot h) = _
  rw [State.hamlet_busy, State.hamlet_modHand]
  rfl

@[simp] theorem State.mill_setMill (u : MillRef) (x : Mill) : (s.setMill u x).mill u = x := by
  simp [State.mill, State.setMill]

@[simp] theorem State.mill_modMill (u : MillRef) (f : Mill → Mill) : (s.modMill u f).mill u = f (s.mill u) := State.mill_setMill ..

@[simp] theorem State.ring_setRing (r : RingRef) (x : Ring) : (s.setRing r x).ring r = x := by
  simp [State.ring, State.setRing]

@[simp] theorem State.ring_modRing (r : RingRef) (f : Ring → Ring) : (s.modRing r f).ring r = f (s.ring r) := State.ring_setRing ..

@[simp] theorem State.parish_setParish (p : ParishRef) (x : Parish) : (s.setParish p x).parish p = x := Tab.get_set_same ..

@[simp] theorem State.parish_modParish (p : ParishRef) (f : Parish → Parish) : (s.modParish p f).parish p = f (s.parish p) :=
  State.parish_setParish ..

@[simp] theorem State.porter_setPorter (p : PorterRef) (x : Porter) : (s.setPorter p x).porter p = x := by
  cases p <;> simp [State.porter, State.setPorter]

@[simp] theorem State.porter_modPorter (p : PorterRef) (f : Porter → Porter) : (s.modPorter p f).porter p = f (s.porter p) :=
  State.porter_setPorter ..

@[simp] theorem State.tally_setTally (t : TallyRef) (x : Tally) : (s.setTally t x).tally t = x := by
  cases t <;> simp [State.tally, State.setTally]

@[simp] theorem State.tally_modTally (t : TallyRef) (f : Tally → Tally) : (s.modTally t f).tally t = f (s.tally t) :=
  State.tally_setTally ..

@[simp] theorem State.die_setDie (d : Nat) (x : Die) : (s.setDie d x).die d = x := Tab.get_set_same ..

@[simp] theorem State.die_modDie (d : Nat) (f : Die → Die) : (s.modDie d f).die d = f (s.die d) := Tab.get_set_same ..

@[simp] theorem State.ctl_modCtl (c : CtlRef) (f : Controller → Controller) : (s.modCtl c f).ctl c = f (s.ctl c) := Tab.get_set_same ..

@[simp] theorem State.landing_setLanding (l : Nat) (x : Landing) : (s.setLanding l x).landing l = x := Tab.get_set_same ..

@[simp] theorem State.landing_modLanding (l : Nat) (f : Landing → Landing) : (s.modLanding l f).landing l = f (s.landing l) :=
  Tab.get_set_same ..

@[simp] theorem State.postbox_setPostbox (k : Nat) (x : Postbox) : (s.setPostbox k x).postbox k = x := Tab.get_set_same ..

@[simp] theorem State.postbox_modPostbox (k : Nat) (f : Postbox → Postbox) : (s.modPostbox k f).postbox k = f (s.postbox k) :=
  Tab.get_set_same ..

/-- Another postbox keeps what it held. -/
theorem State.postbox_modPostbox_ne {k k' : Nat} (f : Postbox → Postbox) (h : k' ≠ k) : (s.modPostbox k f).postbox k' = s.postbox k' :=
  Tab.get_set_ne _ _ _ h

@[simp] theorem State.household_modHousehold (n : Nat) (f : Household → Household) :
    (s.modHousehold n f).household n = f (s.household n) := Tab.get_set_same ..

@[simp] theorem State.entry_modEntry (e : Nat) (f : Entry → Entry) : (s.modEntry e f).entry e = f (s.entry e) := Tab.get_set_same ..

/-- A job that there is becomes what the update makes of it. -/
theorem State.find_modJob {j : Nat} {x : Job} (f : Job → Job) (h : s.jobs.find j = some x) : (s.modJob j f).jobs.find j = some (f x) := by
  simp [State.modJob, h]

/-! ## Registers of a Hand (R129) -/

@[simp] theorem Hand.s_zero (x : Hand) : x.s 0 = 0 := rfl

@[simp] theorem Hand.p_zero (x : Hand) : x.p 0 = BitVec.allOnes 64 := rfl

@[simp] theorem Hand.setS_zero (x : Hand) (v : Word64) : x.setS 0 v = x := rfl

@[simp] theorem Hand.setP_zero (x : Hand) (v : Word64) : x.setP 0 v = x := rfl

theorem Hand.s_setS {x : Hand} {n : Nat} (v : Word64) (h : n ≠ 0) : (x.setS n v).s n = v := by
  simp [Hand.s, Hand.setS, h]

theorem Hand.s_setS_ne (x : Hand) {n k : Nat} (v : Word64) (h : k ≠ n) : (x.setS n v).s k = x.s k := by
  by_cases hk : k = 0 <;> by_cases hn : n = 0 <;> simp [Hand.s, Hand.setS, hk, hn, h]

@[simp] theorem Hand.v_setV (x : Hand) (n : Nat) (w : Vec) : (x.setV n w).v n = w := by simp [Hand.v, Hand.setV]

theorem Hand.v_setV_ne (x : Hand) {n k : Nat} (w : Vec) (h : k ≠ n) : (x.setV n w).v k = x.v k := by simp [Hand.v, Hand.setV, h]

theorem Hand.p_setP {x : Hand} {n : Nat} (v : Word64) (h : n ≠ 0) : (x.setP n v).p n = v := by
  simp [Hand.p, Hand.setP, h]

@[simp] theorem Hand.setS_pc (x : Hand) (n : Nat) (v : Word64) : (x.setS n v).pc = x.pc := by
  unfold Hand.setS
  split <;> rfl

@[simp] theorem Hand.setV_pc (x : Hand) (n : Nat) (w : Vec) : (x.setV n w).pc = x.pc := rfl

@[simp] theorem Hand.setP_pc (x : Hand) (n : Nat) (v : Word64) : (x.setP n v).pc = x.pc := by
  unfold Hand.setP
  split <;> rfl

end Sys2Proof.Machine
end

