-- ==== Sys2Proof/Laws/Hand.lean ====
section
/-! SUPPORT. Laws of the shared operations of a Hand: a retired instruction changes that Hand only. -/

namespace Sys2Proof.Machine

theorem Tab.find_set {α : Type} (t : Tab α) (k k' : Nat) (v : α) : (t.set k v).find k' = if k' = k then some v else t.find k' := by
  split
  · subst k'
    simp
  · simp [*]

/-- A retired instruction changes its Hand only. -/
theorem State.retire_onlyHand (s : State) (h : HandRef) (f : Hand → Hand) : s.onlyHand (s.retire h f) h := by
  refine ⟨rfl, fun k hk => ?_, ?_, fun i hi => ?_⟩
  · show (((s.hamlets.set _ _).set _ _).find k) = _
    rw [Tab.find_set_ne _ _ hk, Tab.find_set_ne _ _ hk]
  · rw [State.hamlet_retire]
  · rw [State.hamlet_retire]
    simp [hi]

/-- So does one that changes it in two steps. -/
theorem State.modHand_retire_onlyHand (s : State) (h : HandRef) (f g : Hand → Hand) : s.onlyHand ((s.modHand h f).retire h g) h := by
  have a := State.retire_onlyHand (s.modHand h f) h g
  have b : (s.modHand h f).hamlet (handSlot h) =
      { s.hamlet (handSlot h) with hands := (s.hamlet (handSlot h)).hands.set h.idx (f (s.hand h)) } := by
    unfold State.modHand State.setHand State.modHamlet State.setHamlet State.hamlet Tab.get
    rw [Tab.find_set, if_pos rfl]
    rfl
  refine ⟨rfl, fun k hk => ?_, ?_, fun i hi => ?_⟩
  · rw [a.2.1 k hk]
    show ((s.hamlets.set _ _).find k) = _
    rw [Tab.find_set_ne _ _ hk]
  · have := a.2.2.1
    rw [b] at this
    exact this
  · rw [a.2.2.2 i hi, b]
    exact Tab.find_set_ne _ _ hi

/-- So does one that also draws free values. -/
theorem State.fresh_retire_onlyHand (s : State) (n : Nat) (h : HandRef) (f : Hand → Hand) :
    s.onlyHand ({ s with freeCtr := n }.retire h f) h := by
  have := State.retire_onlyHand s h f
  exact ⟨rfl, this.2.1, this.2.2.1, this.2.2.2⟩

/-! ## An exception and a jump change the PC and what records an exception, and nothing else of the Hand -/

@[simp] theorem Hand.exception_sregs (x : Hand) (c : Cause) (v : Word64) : (x.exception c v).sregs = x.sregs := by
  unfold Hand.exception
  dsimp only
  split <;> (try split) <;> rfl
@[simp] theorem Hand.goto_sregs (x : Hand) (pc : Word64) : (x.goto pc).sregs = x.sregs := by
  unfold Hand.goto
  split
  · rfl
  · rw [Hand.exception_sregs]
@[simp] theorem Hand.advance_sregs (x : Hand) : x.advance.sregs = x.sregs := Hand.goto_sregs ..
@[simp] theorem Hand.exception_vregs (x : Hand) (c : Cause) (v : Word64) : (x.exception c v).vregs = x.vregs := by
  unfold Hand.exception
  dsimp only
  split <;> (try split) <;> rfl
@[simp] theorem Hand.goto_vregs (x : Hand) (pc : Word64) : (x.goto pc).vregs = x.vregs := by
  unfold Hand.goto
  split
  · rfl
  · rw [Hand.exception_vregs]
@[simp] theorem Hand.advance_vregs (x : Hand) : x.advance.vregs = x.vregs := Hand.goto_vregs ..
@[simp] theorem Hand.exception_pregs (x : Hand) (c : Cause) (v : Word64) : (x.exception c v).pregs = x.pregs := by
  unfold Hand.exception
  dsimp only
  split <;> (try split) <;> rfl
@[simp] theorem Hand.goto_pregs (x : Hand) (pc : Word64) : (x.goto pc).pregs = x.pregs := by
  unfold Hand.goto
  split
  · rfl
  · rw [Hand.exception_pregs]
@[simp] theorem Hand.advance_pregs (x : Hand) : x.advance.pregs = x.pregs := Hand.goto_pregs ..
@[simp] theorem Hand.exception_ibuf (x : Hand) (c : Cause) (v : Word64) : (x.exception c v).ibuf = x.ibuf := by
  unfold Hand.exception
  dsimp only
  split <;> (try split) <;> rfl
@[simp] theorem Hand.goto_ibuf (x : Hand) (pc : Word64) : (x.goto pc).ibuf = x.ibuf := by
  unfold Hand.goto
  split
  · rfl
  · rw [Hand.exception_ibuf]
@[simp] theorem Hand.advance_ibuf (x : Hand) : x.advance.ibuf = x.ibuf := Hand.goto_ibuf ..
@[simp] theorem Hand.exception_waitFrom (x : Hand) (c : Cause) (v : Word64) : (x.exception c v).waitFrom = x.waitFrom := by
  unfold Hand.exception
  dsimp only
  split <;> (try split) <;> rfl
@[simp] theorem Hand.goto_waitFrom (x : Hand) (pc : Word64) : (x.goto pc).waitFrom = x.waitFrom := by
  unfold Hand.goto
  split
  · rfl
  · rw [Hand.exception_waitFrom]
@[simp] theorem Hand.advance_waitFrom (x : Hand) : x.advance.waitFrom = x.waitFrom := Hand.goto_waitFrom ..
@[simp] theorem Hand.exception_hamlet (x : Hand) (c : Cause) (v : Word64) : (x.exception c v).hamlet = x.hamlet := by
  unfold Hand.exception
  dsimp only
  split <;> (try split) <;> rfl
@[simp] theorem Hand.goto_hamlet (x : Hand) (pc : Word64) : (x.goto pc).hamlet = x.hamlet := by
  unfold Hand.goto
  split
  · rfl
  · rw [Hand.exception_hamlet]
@[simp] theorem Hand.advance_hamlet (x : Hand) : x.advance.hamlet = x.hamlet := Hand.goto_hamlet ..
@[simp] theorem Hand.exception_evEn (x : Hand) (c : Cause) (v : Word64) : (x.exception c v).evEn = x.evEn := by
  unfold Hand.exception
  dsimp only
  split <;> (try split) <;> rfl
@[simp] theorem Hand.goto_evEn (x : Hand) (pc : Word64) : (x.goto pc).evEn = x.evEn := by
  unfold Hand.goto
  split
  · rfl
  · rw [Hand.exception_evEn]
@[simp] theorem Hand.advance_evEn (x : Hand) : x.advance.evEn = x.evEn := Hand.goto_evEn ..
@[simp] theorem Hand.exception_xvec (x : Hand) (c : Cause) (v : Word64) : (x.exception c v).xvec = x.xvec := by
  unfold Hand.exception
  dsimp only
  split <;> (try split) <;> rfl
@[simp] theorem Hand.goto_xvec (x : Hand) (pc : Word64) : (x.goto pc).xvec = x.xvec := by
  unfold Hand.goto
  split
  · rfl
  · rw [Hand.exception_xvec]
@[simp] theorem Hand.advance_xvec (x : Hand) : x.advance.xvec = x.xvec := Hand.goto_xvec ..
@[simp] theorem Hand.exception_evec (x : Hand) (c : Cause) (v : Word64) : (x.exception c v).evec = x.evec := by
  unfold Hand.exception
  dsimp only
  split <;> (try split) <;> rfl
@[simp] theorem Hand.goto_evec (x : Hand) (pc : Word64) : (x.goto pc).evec = x.evec := by
  unfold Hand.goto
  split
  · rfl
  · rw [Hand.exception_evec]
@[simp] theorem Hand.advance_evec (x : Hand) : x.advance.evec = x.evec := Hand.goto_evec ..
@[simp] theorem Hand.exception_evPend (x : Hand) (c : Cause) (v : Word64) : (x.exception c v).evPend = x.evPend := by
  unfold Hand.exception
  dsimp only
  split <;> (try split) <;> rfl
@[simp] theorem Hand.goto_evPend (x : Hand) (pc : Word64) : (x.goto pc).evPend = x.evPend := by
  unfold Hand.goto
  split
  · rfl
  · rw [Hand.exception_evPend]
@[simp] theorem Hand.advance_evPend (x : Hand) : x.advance.evPend = x.evPend := Hand.goto_evPend ..
@[simp] theorem Hand.exception_evMask (x : Hand) (c : Cause) (v : Word64) : (x.exception c v).evMask = x.evMask := by
  unfold Hand.exception
  dsimp only
  split <;> (try split) <;> rfl
@[simp] theorem Hand.goto_evMask (x : Hand) (pc : Word64) : (x.goto pc).evMask = x.evMask := by
  unfold Hand.goto
  split
  · rfl
  · rw [Hand.exception_evMask]
@[simp] theorem Hand.advance_evMask (x : Hand) : x.advance.evMask = x.evMask := Hand.goto_evMask ..
@[simp] theorem Hand.exception_flags (x : Hand) (c : Cause) (v : Word64) : (x.exception c v).flags = x.flags := by
  unfold Hand.exception
  dsimp only
  split <;> (try split) <;> rfl
@[simp] theorem Hand.goto_flags (x : Hand) (pc : Word64) : (x.goto pc).flags = x.flags := by
  unfold Hand.goto
  split
  · rfl
  · rw [Hand.exception_flags]
@[simp] theorem Hand.advance_flags (x : Hand) : x.advance.flags = x.flags := Hand.goto_flags ..
@[simp] theorem Hand.exception_seed (x : Hand) (c : Cause) (v : Word64) : (x.exception c v).seed = x.seed := by
  unfold Hand.exception
  dsimp only
  split <;> (try split) <;> rfl
@[simp] theorem Hand.goto_seed (x : Hand) (pc : Word64) : (x.goto pc).seed = x.seed := by
  unfold Hand.goto
  split
  · rfl
  · rw [Hand.exception_seed]
@[simp] theorem Hand.advance_seed (x : Hand) : x.advance.seed = x.seed := Hand.goto_seed ..
@[simp] theorem Hand.exception_cycles (x : Hand) (c : Cause) (v : Word64) : (x.exception c v).cycles = x.cycles := by
  unfold Hand.exception
  dsimp only
  split <;> (try split) <;> rfl
@[simp] theorem Hand.goto_cycles (x : Hand) (pc : Word64) : (x.goto pc).cycles = x.cycles := by
  unfold Hand.goto
  split
  · rfl
  · rw [Hand.exception_cycles]
@[simp] theorem Hand.advance_cycles (x : Hand) : x.advance.cycles = x.cycles := Hand.goto_cycles ..
@[simp] theorem Hand.exception_scratch (x : Hand) (c : Cause) (v : Word64) : (x.exception c v).scratch = x.scratch := by
  unfold Hand.exception
  dsimp only
  split <;> (try split) <;> rfl
@[simp] theorem Hand.goto_scratch (x : Hand) (pc : Word64) : (x.goto pc).scratch = x.scratch := by
  unfold Hand.goto
  split
  · rfl
  · rw [Hand.exception_scratch]
@[simp] theorem Hand.advance_scratch (x : Hand) : x.advance.scratch = x.scratch := Hand.goto_scratch ..
@[simp] theorem Hand.exception_claims (x : Hand) (c : Cause) (v : Word64) : (x.exception c v).claims = x.claims := by
  unfold Hand.exception
  dsimp only
  split <;> (try split) <;> rfl
@[simp] theorem Hand.goto_claims (x : Hand) (pc : Word64) : (x.goto pc).claims = x.claims := by
  unfold Hand.goto
  split
  · rfl
  · rw [Hand.exception_claims]
@[simp] theorem Hand.advance_claims (x : Hand) : x.advance.claims = x.claims := Hand.goto_claims ..
@[simp] theorem Hand.exception_resvs (x : Hand) (c : Cause) (v : Word64) : (x.exception c v).resvs = x.resvs := by
  unfold Hand.exception
  dsimp only
  split <;> (try split) <;> rfl
@[simp] theorem Hand.goto_resvs (x : Hand) (pc : Word64) : (x.goto pc).resvs = x.resvs := by
  unfold Hand.goto
  split
  · rfl
  · rw [Hand.exception_resvs]
@[simp] theorem Hand.advance_resvs (x : Hand) : x.advance.resvs = x.resvs := Hand.goto_resvs ..
@[simp] theorem Hand.exception_exp (x : Hand) (c : Cause) (v : Word64) : (x.exception c v).exp = x.exp := by
  unfold Hand.exception
  dsimp only
  split <;> (try split) <;> rfl
@[simp] theorem Hand.goto_exp (x : Hand) (pc : Word64) : (x.goto pc).exp = x.exp := by
  unfold Hand.goto
  split
  · rfl
  · rw [Hand.exception_exp]
@[simp] theorem Hand.advance_exp (x : Hand) : x.advance.exp = x.exp := Hand.goto_exp ..
@[simp] theorem Hand.exception_rbuf (x : Hand) (c : Cause) (v : Word64) : (x.exception c v).rbuf = x.rbuf := by
  unfold Hand.exception
  dsimp only
  split <;> (try split) <;> rfl
@[simp] theorem Hand.goto_rbuf (x : Hand) (pc : Word64) : (x.goto pc).rbuf = x.rbuf := by
  unfold Hand.goto
  split
  · rfl
  · rw [Hand.exception_rbuf]
@[simp] theorem Hand.advance_rbuf (x : Hand) : x.advance.rbuf = x.rbuf := Hand.goto_rbuf ..

@[simp] theorem Hand.advance_s (x : Hand) (n : Nat) : x.advance.s n = x.s n := by simp [Hand.s]
@[simp] theorem Hand.advance_v (x : Hand) (n : Nat) : x.advance.v n = x.v n := by simp [Hand.v]
@[simp] theorem Hand.advance_p (x : Hand) (n : Nat) : x.advance.p n = x.p n := by simp [Hand.p]

/-- What a retired instruction does. -/
theorem State.handDoes_retire {s : State} {c : Instr} {h : HandRef} {f : Hand → Hand} (e : exec c s = .next (s.retire h f)) :
    s.handDoes c h f :=
  ⟨_, e, State.hand_retire .., State.retire_onlyHand ..⟩

end Sys2Proof.Machine
end

