-- ==== Sys2Proof/Laws/Access.lean ====
section
/-! SUPPORT. Laws of accesses to memory: what a place inside one 2 KiB block, a local access and a plain store can do. -/

namespace Sys2Proof.Machine

/-- The addresses of scratchpads lie in on-chip memory. -/
theorem isSram_sramAddr (m : HamletRef) (off : Nat) : isSram (sramAddr m off) = true := by
  apply decide_eq_true
  unfold sramBase sramAddr
  omega

theorem isSram_lpddr {a : Nat} (h : a < sramBase) : isSram a = false := by
  simp [isSram]
  omega

theorem slotOfAddr_lpddr {a : Nat} (h : a < sramBase) : slotOfAddr a = none := by
  simp [slotOfAddr, isSram_lpddr h]

theorem State.fenced_lpddr (s : State) {a : Nat} (h : a < sramBase) : s.fenced a = false := by
  simp [State.fenced, slotOfAddr_lpddr h, isSram_lpddr h]

/-- An access that stays in one block of 2 KiB is one run. -/
theorem runsOf_one {ea n : Nat} (h0 : 0 < n) (h : ea % 2048 + n ≤ 2048) : runsOf ea n = [(ea, n)] := by
  have e : (ea + n + 2047) / 2048 - ea / 2048 = 1 := by omega
  have e1 : max ea (2048 * (ea / 2048)) = ea := by omega
  have e2 : min (ea + n) (2048 * (ea / 2048 + 1)) = ea + n := by omega
  simp [runsOf, blocksOf, e, e1, e2]

/-- Cache marks are kept in the parishes. -/
theorem State.touch_eq (s : State) (a n : Nat) (write alloc : Bool) :
    s.touch a n write alloc = { s with parishes := (s.touch a n write alloc).parishes } := by
  unfold State.touch
  split
  · rfl
  · generalize sectorsOf a n = l
    induction l generalizing s with
    | nil => rfl
    | cons x l ih => rw [List.foldl_cons, ih]; rfl

/-- An access to LPDDR without poison leaves no block to reload. -/
theorem State.noteBad_clean {s : State} {p n : Nat} (c : Crypt) (who : Actor) (hs : isSram p = false) (h : s.poisonedAt p n = false) :
    s.noteBad who [.mem ⟨p, n, c⟩] = s := by
  have e : ((blocksOf p n).filter fun b => s.blkPoison.contains b) = [] := by
    have h' : (blocksOf p n).any (fun b => s.blkPoison.contains b) = false := by rw [← h]; simp [State.poisonedAt, hs]
    rw [List.filter_eq_nil_iff]
    intro b hb hc
    rw [List.any_eq_false] at h'
    exact h' b hb hc
  unfold State.noteBad
  simp only [List.flatMap_cons, List.flatMap_nil, List.append_nil, hs, Bool.false_eq_true, if_false, e]

/-- An access that moves no misused KV leaves the tokens of the job as they are. -/
theorem State.noteKv_respected {s : State} {who : Actor} {write : Bool} {ea n : Nat} (h0 : 0 < n)
    (h : s.kvRespected who write ea n) :
    s.noteKv who write ea n = s := by
  unfold State.noteKv
  split
  · rfl
  · rename_i k hk
    split
    · rfl
    · rename_i j hj
      split
      · rename_i hc
        rw [Bool.and_eq_true, List.any_eq_true] at hc
        obtain ⟨ha, r, hr, hm⟩ := hc
        obtain ⟨b, hb, rfl⟩ := List.mem_map.1 hr
        obtain ⟨i, hi, rfl⟩ := List.mem_map.1 hb
        have hi := List.mem_range.1 hi
        rw [h.1 k j hk hj ha _ (Nat.le_max_left ..) (by omega)] at hm
        cases hm
      · rfl

/-- A write that changes no pinned adapter leaves the adapters as they are. -/
theorem State.noteAdapters_respected {s : State} {who : Actor} {ea n : Nat} (h : s.kvRespected who true ea n) :
    s.noteAdapters who ea n = s := by
  unfold State.noteAdapters
  rw [if_neg]
  rw [List.any_eq_true]
  rintro ⟨c, hc, hw⟩
  rw [h.2.2 rfl c hc] at hw
  cases hw

/-- A read that respects the KV of a household's jobs finds none that a misuse has left open. -/
theorem State.kvOpen_respected {s : State} {who : Actor} {ea n : Nat} (h0 : 0 < n) (h : s.kvRespected who false ea n) :
    s.kvOpen who ea n = false := by
  unfold State.kvOpen
  rw [List.any_eq_false]
  intro x hx
  obtain ⟨b, hb, rfl⟩ := List.mem_map.1 hx
  obtain ⟨i, hi, rfl⟩ := List.mem_map.1 hb
  have hi := List.mem_range.1 hi
  rw [h.2.1 rfl _ (Nat.le_max_left ..) (by omega)]
  exact Bool.false_ne_true

/-- A place outside ring memory and behind no fence reads as the memory holds it. -/
theorem State.localRead_plain {s : State} {h : HandRef} {off n : Nat} (hf : s.fenced (sramAddr (handSlot h) off) = false)
    (hr : s.rawSlots (s.heldBy h) false (sramAddr (handSlot h) off) n = []) :
    s.localRead h off n = ((s.mem.readBytes (sramAddr (handSlot h) off) n, s.poisonedAt (sramAddr (handSlot h) off) n), s) := by
  simp [State.localRead, hr, State.padRead, State.loadMem, hf, State.bytesAt]

/-- What a plain store does. -/
theorem State.store_sram (s : State) {a : Nat} (h : isSram a = true) (d : List Byte) :
    ∃ q, s.store a d .plain false = { s with mem := s.mem.writeBytes a d, sramPoison := q } := by
  unfold State.store State.putBytes State.poisonAfter
  rw [if_pos h]
  exact ⟨_, rfl⟩

theorem State.poisonAfter_lpddr (s : State) (a n : Nat) (h : isSram a = false) :
    ∃ q, s.poisonAfter a n false = { s with blkPoison := q } := by
  unfold State.poisonAfter
  generalize setErase s.blkPoison _ _ = z
  rw [h]
  exact ⟨z, rfl⟩

theorem State.store_eq (s : State) (a : Nat) (d : List Byte) :
    s.store a d .plain false = { s with mem := s.mem.writeBytes a d }.poisonAfter a d.length false := rfl

theorem State.store_lpddr (s : State) {a : Nat} (d : List Byte) (h : isSram a = false) :
    ∃ q, s.store a d .plain false = { s with mem := s.mem.writeBytes a d, blkPoison := q } := by
  rw [State.store_eq]
  generalize s.mem.writeBytes a d = m
  exact State.poisonAfter_lpddr { s with mem := m } a _ h

theorem State.padRead_open (s : State) (m : HamletRef) {off : Nat} (hf : s.fenced (sramAddr m off) = false) (n : Nat) :
    s.padRead m off n = (s.mem.readBytes (sramAddr m off) n, s.poisonedAt (sramAddr m off) n) := by
  unfold State.padRead State.loadMem
  rw [hf]
  simp only [Bool.false_eq_true, if_false, State.bytesAt]

theorem State.localRead_eq (s : State) (h : HandRef) (off n : Nat) :
    s.localRead h off n =
      if (s.rawSlots (s.heldBy h) false (sramAddr (handSlot h) off) n).isEmpty then (s.padRead (handSlot h) off n, s)
      else (((s.freshBytes n).1, (s.padRead (handSlot h) off n).2), (s.freshBytes n).2) := rfl

/-- A local read of poisoned memory is poisoned. -/
theorem State.localRead_poison {s : State} {h : HandRef} {off n : Nat} (hf : s.fenced (sramAddr (handSlot h) off) = false)
    (hp : s.poisonedAt (sramAddr (handSlot h) off) n = true) : ∃ b t, s.localRead h off n = ((b, true), t) := by
  rw [State.localRead_eq, State.padRead_open _ _ hf, hp]
  split
  · exact ⟨_, _, rfl⟩
  · exact ⟨_, _, rfl⟩

theorem State.localWrite_eq (s : State) (h : HandRef) (off : Nat) (d : List Byte) :
    s.localWrite h off d =
      (s.rawSlots (s.heldBy h) true (sramAddr (handSlot h) off) d.length).foldl State.freeSlot (s.padWrite (handSlot h) off d false) := rfl

/-- Bytes that fit are written to a scratchpad whole. -/
theorem State.padWrite_fit (s : State) (m : HamletRef) {off : Nat} {d : List Byte} (poisoned : Bool) (hn : off + d.length ≤ padBytes) :
    s.padWrite m off d poisoned = s.storeMem (sramAddr m off) d .plain poisoned := by
  have e : d.take (padBytes - off) = d := List.take_of_length_le (Nat.le_sub_of_add_le (by rw [Nat.add_comm]; exact hn))
  unfold State.padWrite
  rw [e]

theorem State.storeMem_open (s : State) {a : Nat} (d : List Byte) (c : Crypt) (poisoned : Bool) (hf : s.fenced a = false) :
    s.storeMem a d c poisoned = s.store a d c poisoned := by
  unfold State.storeMem
  simp only [hf, Bool.false_eq_true, if_false]

/-- A local write to a place outside ring memory and behind no fence. -/
theorem State.localWrite_plain {s : State} {h : HandRef} {off : Nat} {d : List Byte} (hn : off + d.length ≤ padBytes)
    (hf : s.fenced (sramAddr (handSlot h) off) = false)
    (hr : s.rawSlots (s.heldBy h) true (sramAddr (handSlot h) off) d.length = []) :
    s.localWrite h off d = s.store (sramAddr (handSlot h) off) d .plain false := by
  rw [State.localWrite_eq, hr, List.foldl_nil, State.padWrite_fit _ _ _ hn, State.storeMem_open _ _ _ _ hf]

/-- What bytes written to a canonical memory do to it. -/
theorem State.memHas_write {s t : State} (w : s.mem.wf = true) {a : Nat} {d : List Byte} (e : t.mem = s.mem.writeBytes a d) :
    s.memHas t a d := by
  refine ⟨fun i hi => ?_, fun k hk => ?_⟩
  · rw [e]
    exact Memory.read_writeBytes_in ..
  · rw [e]
    exact Memory.read_writeBytes_out w _ _ _ hk

/-- A retired instruction after changes of memory and parishes: what becomes of the Hands. -/
theorem State.retire_otherHands {s u : State} (h : HandRef) (f : Hand → Hand) (e : u.hamlets = s.hamlets) (m : u.mclk = s.mclk) :
    s.otherHands (u.retire h f) h ∧ (u.retire h f).hand h = f (s.hand h) := by
  have a := (State.retire_onlyHand u h f).2
  have b : u.hamlet (handSlot h) = s.hamlet (handSlot h) := by simp [State.hamlet, e]
  have c : u.hand h = s.hand h := by simp [State.hand, b]
  refine ⟨⟨fun k hk => by rw [a.1 k hk, e], ?_, fun i hi => by rw [a.2.2 i hi, b]⟩, by rw [State.hand_retire, c]⟩
  have := a.2.1
  rw [b, m] at this
  exact this

end Sys2Proof.Machine
end

