-- ==== Sys2Proof/Laws/Lanes.lean ====
section
/-! SUPPORT. Laws of vector lanes (R130): what a lane of a register built from lanes is. -/

namespace Sys2Proof.Machine

/-- The number that lanes of width `w` spell. -/
def laneSum (w : Nat) : List Nat → Nat
  | [] => 0
  | x :: t => x % 2 ^ w + 2 ^ w * laneSum w t

theorem foldl_lanes (w : Nat) (l : List Nat) (k a : Nat) :
    ((l.zipIdx k).map fun (x, i) => (x % 2 ^ w) <<< (w * i)).foldl (· + ·) a = a + 2 ^ (w * k) * laneSum w l := by
  induction l generalizing k a with
  | nil => simp [laneSum]
  | cons x t ih =>
    rw [List.zipIdx_cons, List.map_cons, List.foldl_cons, ih, laneSum]
    simp only [Nat.shiftLeft_eq]
    rw [show w * (k + 1) = w * k + w by ring, pow_add]
    ring

theorem laneSum_lt (w : Nat) (l : List Nat) : laneSum w l < 2 ^ (w * l.length) := by
  induction l with
  | nil => simp [laneSum]
  | cons x t ih =>
    have h1 : x % 2 ^ w < 2 ^ w := Nat.mod_lt _ (Nat.two_pow_pos w)
    rw [laneSum, List.length_cons, show w * (t.length + 1) = w + w * t.length by ring, pow_add]
    calc x % 2 ^ w + 2 ^ w * laneSum w t < 2 ^ w + 2 ^ w * laneSum w t := by omega
      _ = 2 ^ w * (laneSum w t + 1) := by ring
      _ ≤ 2 ^ w * 2 ^ (w * t.length) := Nat.mul_le_mul_left _ ih

theorem laneSum_lane (w : Nat) (l : List Nat) (i : Nat) (hi : i < l.length) : laneSum w l / 2 ^ (w * i) % 2 ^ w = l[i] % 2 ^ w := by
  induction l generalizing i with
  | nil => simp at hi
  | cons x t ih =>
    have h1 : x % 2 ^ w < 2 ^ w := Nat.mod_lt _ (Nat.two_pow_pos w)
    cases i with
    | zero => simp [laneSum]
    | succ i =>
      rw [laneSum, show w * (i + 1) = w + w * i by ring, pow_add, ← Nat.div_div_eq_div_mul,
        Nat.add_mul_div_left _ _ (Nat.two_pow_pos w), Nat.div_eq_of_lt h1, Nat.zero_add, ih i (by simpa using hi)]
      simp

/-- A lane of a register whose lanes are given. -/
theorem lane_ofLanes {w : Nat} {l : List Nat} (h : w * l.length ≤ 512) (i : Nat) (hi : i < l.length) :
    lane w (ofLanes w l) i = l[i] % 2 ^ w := by
  have e := foldl_lanes w l 0 0
  simp only [Nat.mul_zero, pow_zero, Nat.one_mul, Nat.zero_add] at e
  unfold lane ofLanes bitsOf
  rw [e, BitVec.toNat_ofNat, Nat.mod_eq_of_lt (lt_of_lt_of_le (laneSum_lt w l) (Nat.pow_le_pow_right (by decide) h)),
    Nat.shiftRight_eq_div_pow, laneSum_lane w l i hi]

theorem lane_lt (w : Nat) (v : Vec) (i : Nat) : lane w v i < 2 ^ w := Nat.mod_lt _ (Nat.two_pow_pos w)

/-- A lane whose predicate bit is 0 keeps its value, and one whose bit is 1 takes the new one (R130). -/
theorem lane_mergeLanes (w : Nat) (p : Word64) (old : Vec) (new : List Nat) (i : Nat) (hi : i < 512 / w) :
    lane w (mergeLanes w p old new) i = if p.getLsbD i then new.getD i 0 % 2 ^ w else lane w old i := by
  have h : w * (512 / w) ≤ 512 := Nat.mul_div_le 512 w
  unfold mergeLanes
  rw [lane_ofLanes (by simpa using h) i (by simpa using hi)]
  simp only [List.getElem_map, List.getElem_range]
  split
  · rfl
  · exact Nat.mod_eq_of_lt (lane_lt w old i)

end Sys2Proof.Machine
end

