-- ==== Sys2Proof/Laws/Units.lean ====
section
/-! SUPPORT. What a read of one unit sees of an update of another unit: nothing. -/

namespace Sys2Proof.Machine

/-- A part of a hamlet that an update keeps reads as before in every hamlet. -/
theorem State.hamlet_modHamlet_keeps {α : Type} (g : Hamlet → α) {f : Hamlet → Hamlet} (hg : ∀ x, g (f x) = g x) (s : State)
    (m k : HamletRef) : g ((s.modHamlet m f).hamlet k) = g (s.hamlet k) := by
  by_cases e : slotKey k.die k.slot = slotKey m.die m.slot
  · unfold State.modHamlet State.setHamlet State.hamlet Tab.get
    simp only [Tab.find_set, e, if_true, Option.getD_some, hg]
  · unfold State.modHamlet State.setHamlet State.hamlet Tab.get
    simp only [Tab.find_set, e, if_false]

variable (s : State)

@[simp] theorem State.setMill_hamlet_power (u : MillRef) (x : Mill) (k : HamletRef) : ((s.setMill u x).hamlet k).power = (s.hamlet k).power := by
  unfold State.setMill
  exact State.hamlet_modHamlet_keeps (·.power) (fun _ => by rfl) ..
@[simp] theorem State.setMill_hamlet_fence (u : MillRef) (x : Mill) (k : HamletRef) : ((s.setMill u x).hamlet k).fence = (s.hamlet k).fence := by
  unfold State.setMill
  exact State.hamlet_modHamlet_keeps (·.fence) (fun _ => by rfl) ..
@[simp] theorem State.setMill_hamlet_idleSince (u : MillRef) (x : Mill) (k : HamletRef) : ((s.setMill u x).hamlet k).idleSince = (s.hamlet k).idleSince := by
  unfold State.setMill
  exact State.hamlet_modHamlet_keeps (·.idleSince) (fun _ => by rfl) ..
@[simp] theorem State.setMill_hamlet_waitLimit (u : MillRef) (x : Mill) (k : HamletRef) : ((s.setMill u x).hamlet k).waitLimit = (s.hamlet k).waitLimit := by
  unfold State.setMill
  exact State.hamlet_modHamlet_keeps (·.waitLimit) (fun _ => by rfl) ..
@[simp] theorem State.setMill_hamlet_err (u : MillRef) (x : Mill) (k : HamletRef) : ((s.setMill u x).hamlet k).err = (s.hamlet k).err := by
  unfold State.setMill
  exact State.hamlet_modHamlet_keeps (·.err) (fun _ => by rfl) ..
@[simp] theorem State.setMill_hamlet_ringStall (u : MillRef) (x : Mill) (k : HamletRef) : ((s.setMill u x).hamlet k).ringStall = (s.hamlet k).ringStall := by
  unfold State.setMill
  exact State.hamlet_modHamlet_keeps (·.ringStall) (fun _ => by rfl) ..
@[simp] theorem State.setMill_hamlet_bells (u : MillRef) (x : Mill) (k : HamletRef) : ((s.setMill u x).hamlet k).bells = (s.hamlet k).bells := by
  unfold State.setMill
  exact State.hamlet_modHamlet_keeps (·.bells) (fun _ => by rfl) ..
@[simp] theorem State.setMill_hamlet_hwFault (u : MillRef) (x : Mill) (k : HamletRef) : ((s.setMill u x).hamlet k).hwFault = (s.hamlet k).hwFault := by
  unfold State.setMill
  exact State.hamlet_modHamlet_keeps (·.hwFault) (fun _ => by rfl) ..
@[simp] theorem State.setMill_hamlet_retired (u : MillRef) (x : Mill) (k : HamletRef) : ((s.setMill u x).hamlet k).retired = (s.hamlet k).retired := by
  unfold State.setMill
  exact State.hamlet_modHamlet_keeps (·.retired) (fun _ => by rfl) ..
@[simp] theorem State.setMill_hamlet_hands (u : MillRef) (x : Mill) (k : HamletRef) : ((s.setMill u x).hamlet k).hands = (s.hamlet k).hands := by
  unfold State.setMill
  exact State.hamlet_modHamlet_keeps (·.hands) (fun _ => by rfl) ..
@[simp] theorem State.setMill_hamlet_rings (u : MillRef) (x : Mill) (k : HamletRef) : ((s.setMill u x).hamlet k).rings = (s.hamlet k).rings := by
  unfold State.setMill
  exact State.hamlet_modHamlet_keeps (·.rings) (fun _ => by rfl) ..
@[simp] theorem State.setMill_hamlet_tallies (u : MillRef) (x : Mill) (k : HamletRef) : ((s.setMill u x).hamlet k).tallies = (s.hamlet k).tallies := by
  unfold State.setMill
  exact State.hamlet_modHamlet_keeps (·.tallies) (fun _ => by rfl) ..
@[simp] theorem State.setMill_hamlet_porters (u : MillRef) (x : Mill) (k : HamletRef) : ((s.setMill u x).hamlet k).porters = (s.hamlet k).porters := by
  unfold State.setMill
  exact State.hamlet_modHamlet_keeps (·.porters) (fun _ => by rfl) ..
@[simp] theorem State.setMill_hamlet_hint (u : MillRef) (x : Mill) (k : HamletRef) : ((s.setMill u x).hamlet k).hint = (s.hamlet k).hint := by
  unfold State.setMill
  exact State.hamlet_modHamlet_keeps (·.hint) (fun _ => by rfl) ..
@[simp] theorem State.setMill_hamlet_wakes (u : MillRef) (x : Mill) (k : HamletRef) : ((s.setMill u x).hamlet k).wakes = (s.hamlet k).wakes := by
  unfold State.setMill
  exact State.hamlet_modHamlet_keeps (·.wakes) (fun _ => by rfl) ..
@[simp] theorem State.setMill_hamlet_aliveBefore (u : MillRef) (x : Mill) (k : HamletRef) : ((s.setMill u x).hamlet k).aliveBefore = (s.hamlet k).aliveBefore := by
  unfold State.setMill
  exact State.hamlet_modHamlet_keeps (·.aliveBefore) (fun _ => by rfl) ..
@[simp] theorem State.hand_setMill (u : MillRef) (x : Mill) (g : HandRef) : (s.setMill u x).hand g = s.hand g := by
  unfold State.hand
  rw [State.setMill_hamlet_hands]
@[simp] theorem State.ring_setMill (u : MillRef) (x : Mill) (q : RingRef) : (s.setMill u x).ring q = s.ring q := by
  unfold State.ring
  rw [State.setMill_hamlet_rings]
@[simp] theorem State.fenced_setMill (u : MillRef) (x : Mill) (a : Nat) : (s.setMill u x).fenced a = s.fenced a := by
  unfold State.fenced
  split
  · rw [State.setMill_hamlet_fence]
  · rfl
@[simp] theorem State.bell_setMill (u : MillRef) (x : Mill) (k : HamletRef) (c : Nat) : (s.setMill u x).bell k c = s.bell k c := by
  unfold State.bell
  rw [State.setMill_hamlet_bells]
@[simp] theorem State.jobAt_setMill (u : MillRef) (x : Mill) (k : HamletRef) : (s.setMill u x).jobAt k = s.jobAt k := rfl
@[simp] theorem State.modMill_hamlet_power (u : MillRef) (f : Mill → Mill) (k : HamletRef) : ((s.modMill u f).hamlet k).power = (s.hamlet k).power := by
  unfold State.modMill State.setMill
  exact State.hamlet_modHamlet_keeps (·.power) (fun _ => by rfl) ..
@[simp] theorem State.modMill_hamlet_fence (u : MillRef) (f : Mill → Mill) (k : HamletRef) : ((s.modMill u f).hamlet k).fence = (s.hamlet k).fence := by
  unfold State.modMill State.setMill
  exact State.hamlet_modHamlet_keeps (·.fence) (fun _ => by rfl) ..
@[simp] theorem State.modMill_hamlet_idleSince (u : MillRef) (f : Mill → Mill) (k : HamletRef) : ((s.modMill u f).hamlet k).idleSince = (s.hamlet k).idleSince := by
  unfold State.modMill State.setMill
  exact State.hamlet_modHamlet_keeps (·.idleSince) (fun _ => by rfl) ..
@[simp] theorem State.modMill_hamlet_waitLimit (u : MillRef) (f : Mill → Mill) (k : HamletRef) : ((s.modMill u f).hamlet k).waitLimit = (s.hamlet k).waitLimit := by
  unfold State.modMill State.setMill
  exact State.hamlet_modHamlet_keeps (·.waitLimit) (fun _ => by rfl) ..
@[simp] theorem State.modMill_hamlet_err (u : MillRef) (f : Mill → Mill) (k : HamletRef) : ((s.modMill u f).hamlet k).err = (s.hamlet k).err := by
  unfold State.modMill State.setMill
  exact State.hamlet_modHamlet_keeps (·.err) (fun _ => by rfl) ..
@[simp] theorem State.modMill_hamlet_ringStall (u : MillRef) (f : Mill → Mill) (k : HamletRef) : ((s.modMill u f).hamlet k).ringStall = (s.hamlet k).ringStall := by
  unfold State.modMill State.setMill
  exact State.hamlet_modHamlet_keeps (·.ringStall) (fun _ => by rfl) ..
@[simp] theorem State.modMill_hamlet_bells (u : MillRef) (f : Mill → Mill) (k : HamletRef) : ((s.modMill u f).hamlet k).bells = (s.hamlet k).bells := by
  unfold State.modMill State.setMill
  exact State.hamlet_modHamlet_keeps (·.bells) (fun _ => by rfl) ..
@[simp] theorem State.modMill_hamlet_hwFault (u : MillRef) (f : Mill → Mill) (k : HamletRef) : ((s.modMill u f).hamlet k).hwFault = (s.hamlet k).hwFault := by
  unfold State.modMill State.setMill
  exact State.hamlet_modHamlet_keeps (·.hwFault) (fun _ => by rfl) ..
@[simp] theorem State.modMill_hamlet_retired (u : MillRef) (f : Mill → Mill) (k : HamletRef) : ((s.modMill u f).hamlet k).retired = (s.hamlet k).retired := by
  unfold State.modMill State.setMill
  exact State.hamlet_modHamlet_keeps (·.retired) (fun _ => by rfl) ..
@[simp] theorem State.modMill_hamlet_hands (u : MillRef) (f : Mill → Mill) (k : HamletRef) : ((s.modMill u f).hamlet k).hands = (s.hamlet k).hands := by
  unfold State.modMill State.setMill
  exact State.hamlet_modHamlet_keeps (·.hands) (fun _ => by rfl) ..
@[simp] theorem State.modMill_hamlet_rings (u : MillRef) (f : Mill → Mill) (k : HamletRef) : ((s.modMill u f).hamlet k).rings = (s.hamlet k).rings := by
  unfold State.modMill State.setMill
  exact State.hamlet_modHamlet_keeps (·.rings) (fun _ => by rfl) ..
@[simp] theorem State.modMill_hamlet_tallies (u : MillRef) (f : Mill → Mill) (k : HamletRef) : ((s.modMill u f).hamlet k).tallies = (s.hamlet k).tallies := by
  unfold State.modMill State.setMill
  exact State.hamlet_modHamlet_keeps (·.tallies) (fun _ => by rfl) ..
@[simp] theorem State.modMill_hamlet_porters (u : MillRef) (f : Mill → Mill) (k : HamletRef) : ((s.modMill u f).hamlet k).porters = (s.hamlet k).porters := by
  unfold State.modMill State.setMill
  exact State.hamlet_modHamlet_keeps (·.porters) (fun _ => by rfl) ..
@[simp] theorem State.modMill_hamlet_hint (u : MillRef) (f : Mill → Mill) (k : HamletRef) : ((s.modMill u f).hamlet k).hint = (s.hamlet k).hint := by
  unfold State.modMill State.setMill
  exact State.hamlet_modHamlet_keeps (·.hint) (fun _ => by rfl) ..
@[simp] theorem State.modMill_hamlet_wakes (u : MillRef) (f : Mill → Mill) (k : HamletRef) : ((s.modMill u f).hamlet k).wakes = (s.hamlet k).wakes := by
  unfold State.modMill State.setMill
  exact State.hamlet_modHamlet_keeps (·.wakes) (fun _ => by rfl) ..
@[simp] theorem State.modMill_hamlet_aliveBefore (u : MillRef) (f : Mill → Mill) (k : HamletRef) : ((s.modMill u f).hamlet k).aliveBefore = (s.hamlet k).aliveBefore := by
  unfold State.modMill State.setMill
  exact State.hamlet_modHamlet_keeps (·.aliveBefore) (fun _ => by rfl) ..
@[simp] theorem State.hand_modMill (u : MillRef) (f : Mill → Mill) (g : HandRef) : (s.modMill u f).hand g = s.hand g := by
  unfold State.hand
  rw [State.modMill_hamlet_hands]
@[simp] theorem State.ring_modMill (u : MillRef) (f : Mill → Mill) (q : RingRef) : (s.modMill u f).ring q = s.ring q := by
  unfold State.ring
  rw [State.modMill_hamlet_rings]
@[simp] theorem State.fenced_modMill (u : MillRef) (f : Mill → Mill) (a : Nat) : (s.modMill u f).fenced a = s.fenced a := by
  unfold State.fenced
  split
  · rw [State.modMill_hamlet_fence]
  · rfl
@[simp] theorem State.bell_modMill (u : MillRef) (f : Mill → Mill) (k : HamletRef) (c : Nat) : (s.modMill u f).bell k c = s.bell k c := by
  unfold State.bell
  rw [State.modMill_hamlet_bells]
@[simp] theorem State.jobAt_modMill (u : MillRef) (f : Mill → Mill) (k : HamletRef) : (s.modMill u f).jobAt k = s.jobAt k := rfl
@[simp] theorem State.setHand_hamlet_power (h : HandRef) (x : Hand) (k : HamletRef) : ((s.setHand h x).hamlet k).power = (s.hamlet k).power := by
  unfold State.setHand
  exact State.hamlet_modHamlet_keeps (·.power) (fun _ => by rfl) ..
@[simp] theorem State.setHand_hamlet_fence (h : HandRef) (x : Hand) (k : HamletRef) : ((s.setHand h x).hamlet k).fence = (s.hamlet k).fence := by
  unfold State.setHand
  exact State.hamlet_modHamlet_keeps (·.fence) (fun _ => by rfl) ..
@[simp] theorem State.setHand_hamlet_idleSince (h : HandRef) (x : Hand) (k : HamletRef) : ((s.setHand h x).hamlet k).idleSince = (s.hamlet k).idleSince := by
  unfold State.setHand
  exact State.hamlet_modHamlet_keeps (·.idleSince) (fun _ => by rfl) ..
@[simp] theorem State.setHand_hamlet_waitLimit (h : HandRef) (x : Hand) (k : HamletRef) : ((s.setHand h x).hamlet k).waitLimit = (s.hamlet k).waitLimit := by
  unfold State.setHand
  exact State.hamlet_modHamlet_keeps (·.waitLimit) (fun _ => by rfl) ..
@[simp] theorem State.setHand_hamlet_err (h : HandRef) (x : Hand) (k : HamletRef) : ((s.setHand h x).hamlet k).err = (s.hamlet k).err := by
  unfold State.setHand
  exact State.hamlet_modHamlet_keeps (·.err) (fun _ => by rfl) ..
@[simp] theorem State.setHand_hamlet_ringStall (h : HandRef) (x : Hand) (k : HamletRef) : ((s.setHand h x).hamlet k).ringStall = (s.hamlet k).ringStall := by
  unfold State.setHand
  exact State.hamlet_modHamlet_keeps (·.ringStall) (fun _ => by rfl) ..
@[simp] theorem State.setHand_hamlet_bells (h : HandRef) (x : Hand) (k : HamletRef) : ((s.setHand h x).hamlet k).bells = (s.hamlet k).bells := by
  unfold State.setHand
  exact State.hamlet_modHamlet_keeps (·.bells) (fun _ => by rfl) ..
@[simp] theorem State.setHand_hamlet_hwFault (h : HandRef) (x : Hand) (k : HamletRef) : ((s.setHand h x).hamlet k).hwFault = (s.hamlet k).hwFault := by
  unfold State.setHand
  exact State.hamlet_modHamlet_keeps (·.hwFault) (fun _ => by rfl) ..
@[simp] theorem State.setHand_hamlet_retired (h : HandRef) (x : Hand) (k : HamletRef) : ((s.setHand h x).hamlet k).retired = (s.hamlet k).retired := by
  unfold State.setHand
  exact State.hamlet_modHamlet_keeps (·.retired) (fun _ => by rfl) ..
@[simp] theorem State.setHand_hamlet_mills (h : HandRef) (x : Hand) (k : HamletRef) : ((s.setHand h x).hamlet k).mills = (s.hamlet k).mills := by
  unfold State.setHand
  exact State.hamlet_modHamlet_keeps (·.mills) (fun _ => by rfl) ..
@[simp] theorem State.setHand_hamlet_rings (h : HandRef) (x : Hand) (k : HamletRef) : ((s.setHand h x).hamlet k).rings = (s.hamlet k).rings := by
  unfold State.setHand
  exact State.hamlet_modHamlet_keeps (·.rings) (fun _ => by rfl) ..
@[simp] theorem State.setHand_hamlet_tallies (h : HandRef) (x : Hand) (k : HamletRef) : ((s.setHand h x).hamlet k).tallies = (s.hamlet k).tallies := by
  unfold State.setHand
  exact State.hamlet_modHamlet_keeps (·.tallies) (fun _ => by rfl) ..
@[simp] theorem State.setHand_hamlet_porters (h : HandRef) (x : Hand) (k : HamletRef) : ((s.setHand h x).hamlet k).porters = (s.hamlet k).porters := by
  unfold State.setHand
  exact State.hamlet_modHamlet_keeps (·.porters) (fun _ => by rfl) ..
@[simp] theorem State.setHand_hamlet_hint (h : HandRef) (x : Hand) (k : HamletRef) : ((s.setHand h x).hamlet k).hint = (s.hamlet k).hint := by
  unfold State.setHand
  exact State.hamlet_modHamlet_keeps (·.hint) (fun _ => by rfl) ..
@[simp] theorem State.setHand_hamlet_wakes (h : HandRef) (x : Hand) (k : HamletRef) : ((s.setHand h x).hamlet k).wakes = (s.hamlet k).wakes := by
  unfold State.setHand
  exact State.hamlet_modHamlet_keeps (·.wakes) (fun _ => by rfl) ..
@[simp] theorem State.setHand_hamlet_aliveBefore (h : HandRef) (x : Hand) (k : HamletRef) : ((s.setHand h x).hamlet k).aliveBefore = (s.hamlet k).aliveBefore := by
  unfold State.setHand
  exact State.hamlet_modHamlet_keeps (·.aliveBefore) (fun _ => by rfl) ..
@[simp] theorem State.mill_setHand (h : HandRef) (x : Hand) (v : MillRef) : (s.setHand h x).mill v = s.mill v := by
  unfold State.mill
  rw [State.setHand_hamlet_mills]
@[simp] theorem State.ring_setHand (h : HandRef) (x : Hand) (q : RingRef) : (s.setHand h x).ring q = s.ring q := by
  unfold State.ring
  rw [State.setHand_hamlet_rings]
@[simp] theorem State.fenced_setHand (h : HandRef) (x : Hand) (a : Nat) : (s.setHand h x).fenced a = s.fenced a := by
  unfold State.fenced
  split
  · rw [State.setHand_hamlet_fence]
  · rfl
@[simp] theorem State.bell_setHand (h : HandRef) (x : Hand) (k : HamletRef) (c : Nat) : (s.setHand h x).bell k c = s.bell k c := by
  unfold State.bell
  rw [State.setHand_hamlet_bells]
@[simp] theorem State.jobAt_setHand (h : HandRef) (x : Hand) (k : HamletRef) : (s.setHand h x).jobAt k = s.jobAt k := rfl
@[simp] theorem State.modHand_hamlet_power (h : HandRef) (f : Hand → Hand) (k : HamletRef) : ((s.modHand h f).hamlet k).power = (s.hamlet k).power := by
  unfold State.modHand State.setHand
  exact State.hamlet_modHamlet_keeps (·.power) (fun _ => by rfl) ..
@[simp] theorem State.modHand_hamlet_fence (h : HandRef) (f : Hand → Hand) (k : HamletRef) : ((s.modHand h f).hamlet k).fence = (s.hamlet k).fence := by
  unfold State.modHand State.setHand
  exact State.hamlet_modHamlet_keeps (·.fence) (fun _ => by rfl) ..
@[simp] theorem State.modHand_hamlet_idleSince (h : HandRef) (f : Hand → Hand) (k : HamletRef) : ((s.modHand h f).hamlet k).idleSince = (s.hamlet k).idleSince := by
  unfold State.modHand State.setHand
  exact State.hamlet_modHamlet_keeps (·.idleSince) (fun _ => by rfl) ..
@[simp] theorem State.modHand_hamlet_waitLimit (h : HandRef) (f : Hand → Hand) (k : HamletRef) : ((s.modHand h f).hamlet k).waitLimit = (s.hamlet k).waitLimit := by
  unfold State.modHand State.setHand
  exact State.hamlet_modHamlet_keeps (·.waitLimit) (fun _ => by rfl) ..
@[simp] theorem State.modHand_hamlet_err (h : HandRef) (f : Hand → Hand) (k : HamletRef) : ((s.modHand h f).hamlet k).err = (s.hamlet k).err := by
  unfold State.modHand State.setHand
  exact State.hamlet_modHamlet_keeps (·.err) (fun _ => by rfl) ..
@[simp] theorem State.modHand_hamlet_ringStall (h : HandRef) (f : Hand → Hand) (k : HamletRef) : ((s.modHand h f).hamlet k).ringStall = (s.hamlet k).ringStall := by
  unfold State.modHand State.setHand
  exact State.hamlet_modHamlet_keeps (·.ringStall) (fun _ => by rfl) ..
@[simp] theorem State.modHand_hamlet_bells (h : HandRef) (f : Hand → Hand) (k : HamletRef) : ((s.modHand h f).hamlet k).bells = (s.hamlet k).bells := by
  unfold State.modHand State.setHand
  exact State.hamlet_modHamlet_keeps (·.bells) (fun _ => by rfl) ..
@[simp] theorem State.modHand_hamlet_hwFault (h : HandRef) (f : Hand → Hand) (k : HamletRef) : ((s.modHand h f).hamlet k).hwFault = (s.hamlet k).hwFault := by
  unfold State.modHand State.setHand
  exact State.hamlet_modHamlet_keeps (·.hwFault) (fun _ => by rfl) ..
@[simp] theorem State.modHand_hamlet_retired (h : HandRef) (f : Hand → Hand) (k : HamletRef) : ((s.modHand h f).hamlet k).retired = (s.hamlet k).retired := by
  unfold State.modHand State.setHand
  exact State.hamlet_modHamlet_keeps (·.retired) (fun _ => by rfl) ..
@[simp] theorem State.modHand_hamlet_mills (h : HandRef) (f : Hand → Hand) (k : HamletRef) : ((s.modHand h f).hamlet k).mills = (s.hamlet k).mills := by
  unfold State.modHand State.setHand
  exact State.hamlet_modHamlet_keeps (·.mills) (fun _ => by rfl) ..
@[simp] theorem State.modHand_hamlet_rings (h : HandRef) (f : Hand → Hand) (k : HamletRef) : ((s.modHand h f).hamlet k).rings = (s.hamlet k).rings := by
  unfold State.modHand State.setHand
  exact State.hamlet_modHamlet_keeps (·.rings) (fun _ => by rfl) ..
@[simp] theorem State.modHand_hamlet_tallies (h : HandRef) (f : Hand → Hand) (k : HamletRef) : ((s.modHand h f).hamlet k).tallies = (s.hamlet k).tallies := by
  unfold State.modHand State.setHand
  exact State.hamlet_modHamlet_keeps (·.tallies) (fun _ => by rfl) ..
@[simp] theorem State.modHand_hamlet_porters (h : HandRef) (f : Hand → Hand) (k : HamletRef) : ((s.modHand h f).hamlet k).porters = (s.hamlet k).porters := by
  unfold State.modHand State.setHand
  exact State.hamlet_modHamlet_keeps (·.porters) (fun _ => by rfl) ..
@[simp] theorem State.modHand_hamlet_hint (h : HandRef) (f : Hand → Hand) (k : HamletRef) : ((s.modHand h f).hamlet k).hint = (s.hamlet k).hint := by
  unfold State.modHand State.setHand
  exact State.hamlet_modHamlet_keeps (·.hint) (fun _ => by rfl) ..
@[simp] theorem State.modHand_hamlet_wakes (h : HandRef) (f : Hand → Hand) (k : HamletRef) : ((s.modHand h f).hamlet k).wakes = (s.hamlet k).wakes := by
  unfold State.modHand State.setHand
  exact State.hamlet_modHamlet_keeps (·.wakes) (fun _ => by rfl) ..
@[simp] theorem State.modHand_hamlet_aliveBefore (h : HandRef) (f : Hand → Hand) (k : HamletRef) : ((s.modHand h f).hamlet k).aliveBefore = (s.hamlet k).aliveBefore := by
  unfold State.modHand State.setHand
  exact State.hamlet_modHamlet_keeps (·.aliveBefore) (fun _ => by rfl) ..
@[simp] theorem State.mill_modHand (h : HandRef) (f : Hand → Hand) (v : MillRef) : (s.modHand h f).mill v = s.mill v := by
  unfold State.mill
  rw [State.modHand_hamlet_mills]
@[simp] theorem State.ring_modHand (h : HandRef) (f : Hand → Hand) (q : RingRef) : (s.modHand h f).ring q = s.ring q := by
  unfold State.ring
  rw [State.modHand_hamlet_rings]
@[simp] theorem State.fenced_modHand (h : HandRef) (f : Hand → Hand) (a : Nat) : (s.modHand h f).fenced a = s.fenced a := by
  unfold State.fenced
  split
  · rw [State.modHand_hamlet_fence]
  · rfl
@[simp] theorem State.bell_modHand (h : HandRef) (f : Hand → Hand) (k : HamletRef) (c : Nat) : (s.modHand h f).bell k c = s.bell k c := by
  unfold State.bell
  rw [State.modHand_hamlet_bells]
@[simp] theorem State.jobAt_modHand (h : HandRef) (f : Hand → Hand) (k : HamletRef) : (s.modHand h f).jobAt k = s.jobAt k := rfl
@[simp] theorem State.setRing_hamlet_power (r : RingRef) (x : Ring) (k : HamletRef) : ((s.setRing r x).hamlet k).power = (s.hamlet k).power := by
  unfold State.setRing
  exact State.hamlet_modHamlet_keeps (·.power) (fun _ => by rfl) ..
@[simp] theorem State.setRing_hamlet_fence (r : RingRef) (x : Ring) (k : HamletRef) : ((s.setRing r x).hamlet k).fence = (s.hamlet k).fence := by
  unfold State.setRing
  exact State.hamlet_modHamlet_keeps (·.fence) (fun _ => by rfl) ..
@[simp] theorem State.setRing_hamlet_idleSince (r : RingRef) (x : Ring) (k : HamletRef) : ((s.setRing r x).hamlet k).idleSince = (s.hamlet k).idleSince := by
  unfold State.setRing
  exact State.hamlet_modHamlet_keeps (·.idleSince) (fun _ => by rfl) ..
@[simp] theorem State.setRing_hamlet_waitLimit (r : RingRef) (x : Ring) (k : HamletRef) : ((s.setRing r x).hamlet k).waitLimit = (s.hamlet k).waitLimit := by
  unfold State.setRing
  exact State.hamlet_modHamlet_keeps (·.waitLimit) (fun _ => by rfl) ..
@[simp] theorem State.setRing_hamlet_err (r : RingRef) (x : Ring) (k : HamletRef) : ((s.setRing r x).hamlet k).err = (s.hamlet k).err := by
  unfold State.setRing
  exact State.hamlet_modHamlet_keeps (·.err) (fun _ => by rfl) ..
@[simp] theorem State.setRing_hamlet_ringStall (r : RingRef) (x : Ring) (k : HamletRef) : ((s.setRing r x).hamlet k).ringStall = (s.hamlet k).ringStall := by
  unfold State.setRing
  exact State.hamlet_modHamlet_keeps (·.ringStall) (fun _ => by rfl) ..
@[simp] theorem State.setRing_hamlet_bells (r : RingRef) (x : Ring) (k : HamletRef) : ((s.setRing r x).hamlet k).bells = (s.hamlet k).bells := by
  unfold State.setRing
  exact State.hamlet_modHamlet_keeps (·.bells) (fun _ => by rfl) ..
@[simp] theorem State.setRing_hamlet_hwFault (r : RingRef) (x : Ring) (k : HamletRef) : ((s.setRing r x).hamlet k).hwFault = (s.hamlet k).hwFault := by
  unfold State.setRing
  exact State.hamlet_modHamlet_keeps (·.hwFault) (fun _ => by rfl) ..
@[simp] theorem State.setRing_hamlet_retired (r : RingRef) (x : Ring) (k : HamletRef) : ((s.setRing r x).hamlet k).retired = (s.hamlet k).retired := by
  unfold State.setRing
  exact State.hamlet_modHamlet_keeps (·.retired) (fun _ => by rfl) ..
@[simp] theorem State.setRing_hamlet_mills (r : RingRef) (x : Ring) (k : HamletRef) : ((s.setRing r x).hamlet k).mills = (s.hamlet k).mills := by
  unfold State.setRing
  exact State.hamlet_modHamlet_keeps (·.mills) (fun _ => by rfl) ..
@[simp] theorem State.setRing_hamlet_hands (r : RingRef) (x : Ring) (k : HamletRef) : ((s.setRing r x).hamlet k).hands = (s.hamlet k).hands := by
  unfold State.setRing
  exact State.hamlet_modHamlet_keeps (·.hands) (fun _ => by rfl) ..
@[simp] theorem State.setRing_hamlet_tallies (r : RingRef) (x : Ring) (k : HamletRef) : ((s.setRing r x).hamlet k).tallies = (s.hamlet k).tallies := by
  unfold State.setRing
  exact State.hamlet_modHamlet_keeps (·.tallies) (fun _ => by rfl) ..
@[simp] theorem State.setRing_hamlet_porters (r : RingRef) (x : Ring) (k : HamletRef) : ((s.setRing r x).hamlet k).porters = (s.hamlet k).porters := by
  unfold State.setRing
  exact State.hamlet_modHamlet_keeps (·.porters) (fun _ => by rfl) ..
@[simp] theorem State.setRing_hamlet_hint (r : RingRef) (x : Ring) (k : HamletRef) : ((s.setRing r x).hamlet k).hint = (s.hamlet k).hint := by
  unfold State.setRing
  exact State.hamlet_modHamlet_keeps (·.hint) (fun _ => by rfl) ..
@[simp] theorem State.setRing_hamlet_wakes (r : RingRef) (x : Ring) (k : HamletRef) : ((s.setRing r x).hamlet k).wakes = (s.hamlet k).wakes := by
  unfold State.setRing
  exact State.hamlet_modHamlet_keeps (·.wakes) (fun _ => by rfl) ..
@[simp] theorem State.setRing_hamlet_aliveBefore (r : RingRef) (x : Ring) (k : HamletRef) : ((s.setRing r x).hamlet k).aliveBefore = (s.hamlet k).aliveBefore := by
  unfold State.setRing
  exact State.hamlet_modHamlet_keeps (·.aliveBefore) (fun _ => by rfl) ..
@[simp] theorem State.mill_setRing (r : RingRef) (x : Ring) (v : MillRef) : (s.setRing r x).mill v = s.mill v := by
  unfold State.mill
  rw [State.setRing_hamlet_mills]
@[simp] theorem State.hand_setRing (r : RingRef) (x : Ring) (g : HandRef) : (s.setRing r x).hand g = s.hand g := by
  unfold State.hand
  rw [State.setRing_hamlet_hands]
@[simp] theorem State.fenced_setRing (r : RingRef) (x : Ring) (a : Nat) : (s.setRing r x).fenced a = s.fenced a := by
  unfold State.fenced
  split
  · rw [State.setRing_hamlet_fence]
  · rfl
@[simp] theorem State.bell_setRing (r : RingRef) (x : Ring) (k : HamletRef) (c : Nat) : (s.setRing r x).bell k c = s.bell k c := by
  unfold State.bell
  rw [State.setRing_hamlet_bells]
@[simp] theorem State.jobAt_setRing (r : RingRef) (x : Ring) (k : HamletRef) : (s.setRing r x).jobAt k = s.jobAt k := rfl
@[simp] theorem State.modRing_hamlet_power (r : RingRef) (f : Ring → Ring) (k : HamletRef) : ((s.modRing r f).hamlet k).power = (s.hamlet k).power := by
  unfold State.modRing State.setRing
  exact State.hamlet_modHamlet_keeps (·.power) (fun _ => by rfl) ..
@[simp] theorem State.modRing_hamlet_fence (r : RingRef) (f : Ring → Ring) (k : HamletRef) : ((s.modRing r f).hamlet k).fence = (s.hamlet k).fence := by
  unfold State.modRing State.setRing
  exact State.hamlet_modHamlet_keeps (·.fence) (fun _ => by rfl) ..
@[simp] theorem State.modRing_hamlet_idleSince (r : RingRef) (f : Ring → Ring) (k : HamletRef) : ((s.modRing r f).hamlet k).idleSince = (s.hamlet k).idleSince := by
  unfold State.modRing State.setRing
  exact State.hamlet_modHamlet_keeps (·.idleSince) (fun _ => by rfl) ..
@[simp] theorem State.modRing_hamlet_waitLimit (r : RingRef) (f : Ring → Ring) (k : HamletRef) : ((s.modRing r f).hamlet k).waitLimit = (s.hamlet k).waitLimit := by
  unfold State.modRing State.setRing
  exact State.hamlet_modHamlet_keeps (·.waitLimit) (fun _ => by rfl) ..
@[simp] theorem State.modRing_hamlet_err (r : RingRef) (f : Ring → Ring) (k : HamletRef) : ((s.modRing r f).hamlet k).err = (s.hamlet k).err := by
  unfold State.modRing State.setRing
  exact State.hamlet_modHamlet_keeps (·.err) (fun _ => by rfl) ..
@[simp] theorem State.modRing_hamlet_ringStall (r : RingRef) (f : Ring → Ring) (k : HamletRef) : ((s.modRing r f).hamlet k).ringStall = (s.hamlet k).ringStall := by
  unfold State.modRing State.setRing
  exact State.hamlet_modHamlet_keeps (·.ringStall) (fun _ => by rfl) ..
@[simp] theorem State.modRing_hamlet_bells (r : RingRef) (f : Ring → Ring) (k : HamletRef) : ((s.modRing r f).hamlet k).bells = (s.hamlet k).bells := by
  unfold State.modRing State.setRing
  exact State.hamlet_modHamlet_keeps (·.bells) (fun _ => by rfl) ..
@[simp] theorem State.modRing_hamlet_hwFault (r : RingRef) (f : Ring → Ring) (k : HamletRef) : ((s.modRing r f).hamlet k).hwFault = (s.hamlet k).hwFault := by
  unfold State.modRing State.setRing
  exact State.hamlet_modHamlet_keeps (·.hwFault) (fun _ => by rfl) ..
@[simp] theorem State.modRing_hamlet_retired (r : RingRef) (f : Ring → Ring) (k : HamletRef) : ((s.modRing r f).hamlet k).retired = (s.hamlet k).retired := by
  unfold State.modRing State.setRing
  exact State.hamlet_modHamlet_keeps (·.retired) (fun _ => by rfl) ..
@[simp] theorem State.modRing_hamlet_mills (r : RingRef) (f : Ring → Ring) (k : HamletRef) : ((s.modRing r f).hamlet k).mills = (s.hamlet k).mills := by
  unfold State.modRing State.setRing
  exact State.hamlet_modHamlet_keeps (·.mills) (fun _ => by rfl) ..
@[simp] theorem State.modRing_hamlet_hands (r : RingRef) (f : Ring → Ring) (k : HamletRef) : ((s.modRing r f).hamlet k).hands = (s.hamlet k).hands := by
  unfold State.modRing State.setRing
  exact State.hamlet_modHamlet_keeps (·.hands) (fun _ => by rfl) ..
@[simp] theorem State.modRing_hamlet_tallies (r : RingRef) (f : Ring → Ring) (k : HamletRef) : ((s.modRing r f).hamlet k).tallies = (s.hamlet k).tallies := by
  unfold State.modRing State.setRing
  exact State.hamlet_modHamlet_keeps (·.tallies) (fun _ => by rfl) ..
@[simp] theorem State.modRing_hamlet_porters (r : RingRef) (f : Ring → Ring) (k : HamletRef) : ((s.modRing r f).hamlet k).porters = (s.hamlet k).porters := by
  unfold State.modRing State.setRing
  exact State.hamlet_modHamlet_keeps (·.porters) (fun _ => by rfl) ..
@[simp] theorem State.modRing_hamlet_hint (r : RingRef) (f : Ring → Ring) (k : HamletRef) : ((s.modRing r f).hamlet k).hint = (s.hamlet k).hint := by
  unfold State.modRing State.setRing
  exact State.hamlet_modHamlet_keeps (·.hint) (fun _ => by rfl) ..
@[simp] theorem State.modRing_hamlet_wakes (r : RingRef) (f : Ring → Ring) (k : HamletRef) : ((s.modRing r f).hamlet k).wakes = (s.hamlet k).wakes := by
  unfold State.modRing State.setRing
  exact State.hamlet_modHamlet_keeps (·.wakes) (fun _ => by rfl) ..
@[simp] theorem State.modRing_hamlet_aliveBefore (r : RingRef) (f : Ring → Ring) (k : HamletRef) : ((s.modRing r f).hamlet k).aliveBefore = (s.hamlet k).aliveBefore := by
  unfold State.modRing State.setRing
  exact State.hamlet_modHamlet_keeps (·.aliveBefore) (fun _ => by rfl) ..
@[simp] theorem State.mill_modRing (r : RingRef) (f : Ring → Ring) (v : MillRef) : (s.modRing r f).mill v = s.mill v := by
  unfold State.mill
  rw [State.modRing_hamlet_mills]
@[simp] theorem State.hand_modRing (r : RingRef) (f : Ring → Ring) (g : HandRef) : (s.modRing r f).hand g = s.hand g := by
  unfold State.hand
  rw [State.modRing_hamlet_hands]
@[simp] theorem State.fenced_modRing (r : RingRef) (f : Ring → Ring) (a : Nat) : (s.modRing r f).fenced a = s.fenced a := by
  unfold State.fenced
  split
  · rw [State.modRing_hamlet_fence]
  · rfl
@[simp] theorem State.bell_modRing (r : RingRef) (f : Ring → Ring) (k : HamletRef) (c : Nat) : (s.modRing r f).bell k c = s.bell k c := by
  unfold State.bell
  rw [State.modRing_hamlet_bells]
@[simp] theorem State.jobAt_modRing (r : RingRef) (f : Ring → Ring) (k : HamletRef) : (s.modRing r f).jobAt k = s.jobAt k := rfl
@[simp] theorem State.busy_hamlet_power (m : HamletRef) (k : HamletRef) : ((s.busy m).hamlet k).power = (s.hamlet k).power := by
  unfold State.busy
  exact State.hamlet_modHamlet_keeps (·.power) (fun _ => by rfl) ..
@[simp] theorem State.busy_hamlet_fence (m : HamletRef) (k : HamletRef) : ((s.busy m).hamlet k).fence = (s.hamlet k).fence := by
  unfold State.busy
  exact State.hamlet_modHamlet_keeps (·.fence) (fun _ => by rfl) ..
@[simp] theorem State.busy_hamlet_waitLimit (m : HamletRef) (k : HamletRef) : ((s.busy m).hamlet k).waitLimit = (s.hamlet k).waitLimit := by
  unfold State.busy
  exact State.hamlet_modHamlet_keeps (·.waitLimit) (fun _ => by rfl) ..
@[simp] theorem State.busy_hamlet_err (m : HamletRef) (k : HamletRef) : ((s.busy m).hamlet k).err = (s.hamlet k).err := by
  unfold State.busy
  exact State.hamlet_modHamlet_keeps (·.err) (fun _ => by rfl) ..
@[simp] theorem State.busy_hamlet_ringStall (m : HamletRef) (k : HamletRef) : ((s.busy m).hamlet k).ringStall = (s.hamlet k).ringStall := by
  unfold State.busy
  exact State.hamlet_modHamlet_keeps (·.ringStall) (fun _ => by rfl) ..
@[simp] theorem State.busy_hamlet_bells (m : HamletRef) (k : HamletRef) : ((s.busy m).hamlet k).bells = (s.hamlet k).bells := by
  unfold State.busy
  exact State.hamlet_modHamlet_keeps (·.bells) (fun _ => by rfl) ..
@[simp] theorem State.busy_hamlet_hwFault (m : HamletRef) (k : HamletRef) : ((s.busy m).hamlet k).hwFault = (s.hamlet k).hwFault := by
  unfold State.busy
  exact State.hamlet_modHamlet_keeps (·.hwFault) (fun _ => by rfl) ..
@[simp] theorem State.busy_hamlet_retired (m : HamletRef) (k : HamletRef) : ((s.busy m).hamlet k).retired = (s.hamlet k).retired := by
  unfold State.busy
  exact State.hamlet_modHamlet_keeps (·.retired) (fun _ => by rfl) ..
@[simp] theorem State.busy_hamlet_mills (m : HamletRef) (k : HamletRef) : ((s.busy m).hamlet k).mills = (s.hamlet k).mills := by
  unfold State.busy
  exact State.hamlet_modHamlet_keeps (·.mills) (fun _ => by rfl) ..
@[simp] theorem State.busy_hamlet_hands (m : HamletRef) (k : HamletRef) : ((s.busy m).hamlet k).hands = (s.hamlet k).hands := by
  unfold State.busy
  exact State.hamlet_modHamlet_keeps (·.hands) (fun _ => by rfl) ..
@[simp] theorem State.busy_hamlet_rings (m : HamletRef) (k : HamletRef) : ((s.busy m).hamlet k).rings = (s.hamlet k).rings := by
  unfold State.busy
  exact State.hamlet_modHamlet_keeps (·.rings) (fun _ => by rfl) ..
@[simp] theorem State.busy_hamlet_tallies (m : HamletRef) (k : HamletRef) : ((s.busy m).hamlet k).tallies = (s.hamlet k).tallies := by
  unfold State.busy
  exact State.hamlet_modHamlet_keeps (·.tallies) (fun _ => by rfl) ..
@[simp] theorem State.busy_hamlet_porters (m : HamletRef) (k : HamletRef) : ((s.busy m).hamlet k).porters = (s.hamlet k).porters := by
  unfold State.busy
  exact State.hamlet_modHamlet_keeps (·.porters) (fun _ => by rfl) ..
@[simp] theorem State.busy_hamlet_hint (m : HamletRef) (k : HamletRef) : ((s.busy m).hamlet k).hint = (s.hamlet k).hint := by
  unfold State.busy
  exact State.hamlet_modHamlet_keeps (·.hint) (fun _ => by rfl) ..
@[simp] theorem State.busy_hamlet_wakes (m : HamletRef) (k : HamletRef) : ((s.busy m).hamlet k).wakes = (s.hamlet k).wakes := by
  unfold State.busy
  exact State.hamlet_modHamlet_keeps (·.wakes) (fun _ => by rfl) ..
@[simp] theorem State.busy_hamlet_aliveBefore (m : HamletRef) (k : HamletRef) : ((s.busy m).hamlet k).aliveBefore = (s.hamlet k).aliveBefore := by
  unfold State.busy
  exact State.hamlet_modHamlet_keeps (·.aliveBefore) (fun _ => by rfl) ..
@[simp] theorem State.mill_busy (m : HamletRef) (v : MillRef) : (s.busy m).mill v = s.mill v := by
  unfold State.mill
  rw [State.busy_hamlet_mills]
@[simp] theorem State.hand_busy (m : HamletRef) (g : HandRef) : (s.busy m).hand g = s.hand g := by
  unfold State.hand
  rw [State.busy_hamlet_hands]
@[simp] theorem State.ring_busy (m : HamletRef) (q : RingRef) : (s.busy m).ring q = s.ring q := by
  unfold State.ring
  rw [State.busy_hamlet_rings]
@[simp] theorem State.fenced_busy (m : HamletRef) (a : Nat) : (s.busy m).fenced a = s.fenced a := by
  unfold State.fenced
  split
  · rw [State.busy_hamlet_fence]
  · rfl
@[simp] theorem State.bell_busy (m : HamletRef) (k : HamletRef) (c : Nat) : (s.busy m).bell k c = s.bell k c := by
  unfold State.bell
  rw [State.busy_hamlet_bells]
@[simp] theorem State.jobAt_busy (m : HamletRef) (k : HamletRef) : (s.busy m).jobAt k = s.jobAt k := rfl
@[simp] theorem State.retire_hamlet_power (h : HandRef) (f : Hand → Hand) (k : HamletRef) : ((s.retire h f).hamlet k).power = (s.hamlet k).power := by
  unfold State.retire
  rw [State.busy_hamlet_power, State.modHand_hamlet_power]
@[simp] theorem State.retire_hamlet_fence (h : HandRef) (f : Hand → Hand) (k : HamletRef) : ((s.retire h f).hamlet k).fence = (s.hamlet k).fence := by
  unfold State.retire
  rw [State.busy_hamlet_fence, State.modHand_hamlet_fence]
@[simp] theorem State.retire_hamlet_waitLimit (h : HandRef) (f : Hand → Hand) (k : HamletRef) : ((s.retire h f).hamlet k).waitLimit = (s.hamlet k).waitLimit := by
  unfold State.retire
  rw [State.busy_hamlet_waitLimit, State.modHand_hamlet_waitLimit]
@[simp] theorem State.retire_hamlet_err (h : HandRef) (f : Hand → Hand) (k : HamletRef) : ((s.retire h f).hamlet k).err = (s.hamlet k).err := by
  unfold State.retire
  rw [State.busy_hamlet_err, State.modHand_hamlet_err]
@[simp] theorem State.retire_hamlet_ringStall (h : HandRef) (f : Hand → Hand) (k : HamletRef) : ((s.retire h f).hamlet k).ringStall = (s.hamlet k).ringStall := by
  unfold State.retire
  rw [State.busy_hamlet_ringStall, State.modHand_hamlet_ringStall]
@[simp] theorem State.retire_hamlet_bells (h : HandRef) (f : Hand → Hand) (k : HamletRef) : ((s.retire h f).hamlet k).bells = (s.hamlet k).bells := by
  unfold State.retire
  rw [State.busy_hamlet_bells, State.modHand_hamlet_bells]
@[simp] theorem State.retire_hamlet_hwFault (h : HandRef) (f : Hand → Hand) (k : HamletRef) : ((s.retire h f).hamlet k).hwFault = (s.hamlet k).hwFault := by
  unfold State.retire
  rw [State.busy_hamlet_hwFault, State.modHand_hamlet_hwFault]
@[simp] theorem State.retire_hamlet_retired (h : HandRef) (f : Hand → Hand) (k : HamletRef) : ((s.retire h f).hamlet k).retired = (s.hamlet k).retired := by
  unfold State.retire
  rw [State.busy_hamlet_retired, State.modHand_hamlet_retired]
@[simp] theorem State.retire_hamlet_mills (h : HandRef) (f : Hand → Hand) (k : HamletRef) : ((s.retire h f).hamlet k).mills = (s.hamlet k).mills := by
  unfold State.retire
  rw [State.busy_hamlet_mills, State.modHand_hamlet_mills]
@[simp] theorem State.retire_hamlet_rings (h : HandRef) (f : Hand → Hand) (k : HamletRef) : ((s.retire h f).hamlet k).rings = (s.hamlet k).rings := by
  unfold State.retire
  rw [State.busy_hamlet_rings, State.modHand_hamlet_rings]
@[simp] theorem State.retire_hamlet_tallies (h : HandRef) (f : Hand → Hand) (k : HamletRef) : ((s.retire h f).hamlet k).tallies = (s.hamlet k).tallies := by
  unfold State.retire
  rw [State.busy_hamlet_tallies, State.modHand_hamlet_tallies]
@[simp] theorem State.retire_hamlet_porters (h : HandRef) (f : Hand → Hand) (k : HamletRef) : ((s.retire h f).hamlet k).porters = (s.hamlet k).porters := by
  unfold State.retire
  rw [State.busy_hamlet_porters, State.modHand_hamlet_porters]
@[simp] theorem State.retire_hamlet_hint (h : HandRef) (f : Hand → Hand) (k : HamletRef) : ((s.retire h f).hamlet k).hint = (s.hamlet k).hint := by
  unfold State.retire
  rw [State.busy_hamlet_hint, State.modHand_hamlet_hint]
@[simp] theorem State.retire_hamlet_wakes (h : HandRef) (f : Hand → Hand) (k : HamletRef) : ((s.retire h f).hamlet k).wakes = (s.hamlet k).wakes := by
  unfold State.retire
  rw [State.busy_hamlet_wakes, State.modHand_hamlet_wakes]
@[simp] theorem State.retire_hamlet_aliveBefore (h : HandRef) (f : Hand → Hand) (k : HamletRef) : ((s.retire h f).hamlet k).aliveBefore = (s.hamlet k).aliveBefore := by
  unfold State.retire
  rw [State.busy_hamlet_aliveBefore, State.modHand_hamlet_aliveBefore]
@[simp] theorem State.mill_retire (h : HandRef) (f : Hand → Hand) (v : MillRef) : (s.retire h f).mill v = s.mill v := by
  unfold State.mill
  rw [State.retire_hamlet_mills]
@[simp] theorem State.ring_retire (h : HandRef) (f : Hand → Hand) (q : RingRef) : (s.retire h f).ring q = s.ring q := by
  unfold State.ring
  rw [State.retire_hamlet_rings]
@[simp] theorem State.fenced_retire (h : HandRef) (f : Hand → Hand) (a : Nat) : (s.retire h f).fenced a = s.fenced a := by
  unfold State.fenced
  split
  · rw [State.retire_hamlet_fence]
  · rfl
@[simp] theorem State.bell_retire (h : HandRef) (f : Hand → Hand) (k : HamletRef) (c : Nat) : (s.retire h f).bell k c = s.bell k c := by
  unfold State.bell
  rw [State.retire_hamlet_bells]
@[simp] theorem State.jobAt_retire (h : HandRef) (f : Hand → Hand) (k : HamletRef) : (s.retire h f).jobAt k = s.jobAt k := rfl
@[simp] theorem State.setPorter_hamlet_power (p : PorterRef) (x : Porter) (k : HamletRef) : ((s.setPorter p x).hamlet k).power = (s.hamlet k).power := by
  unfold State.setPorter
  cases p
  · exact State.hamlet_modHamlet_keeps (·.power) (fun _ => by rfl) ..
  · rfl
@[simp] theorem State.setPorter_hamlet_fence (p : PorterRef) (x : Porter) (k : HamletRef) : ((s.setPorter p x).hamlet k).fence = (s.hamlet k).fence := by
  unfold State.setPorter
  cases p
  · exact State.hamlet_modHamlet_keeps (·.fence) (fun _ => by rfl) ..
  · rfl
@[simp] theorem State.setPorter_hamlet_idleSince (p : PorterRef) (x : Porter) (k : HamletRef) : ((s.setPorter p x).hamlet k).idleSince = (s.hamlet k).idleSince := by
  unfold State.setPorter
  cases p
  · exact State.hamlet_modHamlet_keeps (·.idleSince) (fun _ => by rfl) ..
  · rfl
@[simp] theorem State.setPorter_hamlet_waitLimit (p : PorterRef) (x : Porter) (k : HamletRef) : ((s.setPorter p x).hamlet k).waitLimit = (s.hamlet k).waitLimit := by
  unfold State.setPorter
  cases p
  · exact State.hamlet_modHamlet_keeps (·.waitLimit) (fun _ => by rfl) ..
  · rfl
@[simp] theorem State.setPorter_hamlet_err (p : PorterRef) (x : Porter) (k : HamletRef) : ((s.setPorter p x).hamlet k).err = (s.hamlet k).err := by
  unfold State.setPorter
  cases p
  · exact State.hamlet_modHamlet_keeps (·.err) (fun _ => by rfl) ..
  · rfl
@[simp] theorem State.setPorter_hamlet_ringStall (p : PorterRef) (x : Porter) (k : HamletRef) : ((s.setPorter p x).hamlet k).ringStall = (s.hamlet k).ringStall := by
  unfold State.setPorter
  cases p
  · exact State.hamlet_modHamlet_keeps (·.ringStall) (fun _ => by rfl) ..
  · rfl
@[simp] theorem State.setPorter_hamlet_bells (p : PorterRef) (x : Porter) (k : HamletRef) : ((s.setPorter p x).hamlet k).bells = (s.hamlet k).bells := by
  unfold State.setPorter
  cases p
  · exact State.hamlet_modHamlet_keeps (·.bells) (fun _ => by rfl) ..
  · rfl
@[simp] theorem State.setPorter_hamlet_hwFault (p : PorterRef) (x : Porter) (k : HamletRef) : ((s.setPorter p x).hamlet k).hwFault = (s.hamlet k).hwFault := by
  unfold State.setPorter
  cases p
  · exact State.hamlet_modHamlet_keeps (·.hwFault) (fun _ => by rfl) ..
  · rfl
@[simp] theorem State.setPorter_hamlet_retired (p : PorterRef) (x : Porter) (k : HamletRef) : ((s.setPorter p x).hamlet k).retired = (s.hamlet k).retired := by
  unfold State.setPorter
  cases p
  · exact State.hamlet_modHamlet_keeps (·.retired) (fun _ => by rfl) ..
  · rfl
@[simp] theorem State.setPorter_hamlet_mills (p : PorterRef) (x : Porter) (k : HamletRef) : ((s.setPorter p x).hamlet k).mills = (s.hamlet k).mills := by
  unfold State.setPorter
  cases p
  · exact State.hamlet_modHamlet_keeps (·.mills) (fun _ => by rfl) ..
  · rfl
@[simp] theorem State.setPorter_hamlet_hands (p : PorterRef) (x : Porter) (k : HamletRef) : ((s.setPorter p x).hamlet k).hands = (s.hamlet k).hands := by
  unfold State.setPorter
  cases p
  · exact State.hamlet_modHamlet_keeps (·.hands) (fun _ => by rfl) ..
  · rfl
@[simp] theorem State.setPorter_hamlet_rings (p : PorterRef) (x : Porter) (k : HamletRef) : ((s.setPorter p x).hamlet k).rings = (s.hamlet k).rings := by
  unfold State.setPorter
  cases p
  · exact State.hamlet_modHamlet_keeps (·.rings) (fun _ => by rfl) ..
  · rfl
@[simp] theorem State.setPorter_hamlet_tallies (p : PorterRef) (x : Porter) (k : HamletRef) : ((s.setPorter p x).hamlet k).tallies = (s.hamlet k).tallies := by
  unfold State.setPorter
  cases p
  · exact State.hamlet_modHamlet_keeps (·.tallies) (fun _ => by rfl) ..
  · rfl
@[simp] theorem State.setPorter_hamlet_hint (p : PorterRef) (x : Porter) (k : HamletRef) : ((s.setPorter p x).hamlet k).hint = (s.hamlet k).hint := by
  unfold State.setPorter
  cases p
  · exact State.hamlet_modHamlet_keeps (·.hint) (fun _ => by rfl) ..
  · rfl
@[simp] theorem State.setPorter_hamlet_wakes (p : PorterRef) (x : Porter) (k : HamletRef) : ((s.setPorter p x).hamlet k).wakes = (s.hamlet k).wakes := by
  unfold State.setPorter
  cases p
  · exact State.hamlet_modHamlet_keeps (·.wakes) (fun _ => by rfl) ..
  · rfl
@[simp] theorem State.setPorter_hamlet_aliveBefore (p : PorterRef) (x : Porter) (k : HamletRef) : ((s.setPorter p x).hamlet k).aliveBefore = (s.hamlet k).aliveBefore := by
  unfold State.setPorter
  cases p
  · exact State.hamlet_modHamlet_keeps (·.aliveBefore) (fun _ => by rfl) ..
  · rfl
@[simp] theorem State.mill_setPorter (p : PorterRef) (x : Porter) (v : MillRef) : (s.setPorter p x).mill v = s.mill v := by
  unfold State.mill
  rw [State.setPorter_hamlet_mills]
@[simp] theorem State.hand_setPorter (p : PorterRef) (x : Porter) (g : HandRef) : (s.setPorter p x).hand g = s.hand g := by
  unfold State.hand
  rw [State.setPorter_hamlet_hands]
@[simp] theorem State.ring_setPorter (p : PorterRef) (x : Porter) (q : RingRef) : (s.setPorter p x).ring q = s.ring q := by
  unfold State.ring
  rw [State.setPorter_hamlet_rings]
@[simp] theorem State.modPorter_hamlet_power (p : PorterRef) (f : Porter → Porter) (k : HamletRef) : ((s.modPorter p f).hamlet k).power = (s.hamlet k).power := by
  unfold State.modPorter State.setPorter
  cases p
  · exact State.hamlet_modHamlet_keeps (·.power) (fun _ => by rfl) ..
  · rfl
@[simp] theorem State.modPorter_hamlet_fence (p : PorterRef) (f : Porter → Porter) (k : HamletRef) : ((s.modPorter p f).hamlet k).fence = (s.hamlet k).fence := by
  unfold State.modPorter State.setPorter
  cases p
  · exact State.hamlet_modHamlet_keeps (·.fence) (fun _ => by rfl) ..
  · rfl
@[simp] theorem State.modPorter_hamlet_idleSince (p : PorterRef) (f : Porter → Porter) (k : HamletRef) : ((s.modPorter p f).hamlet k).idleSince = (s.hamlet k).idleSince := by
  unfold State.modPorter State.setPorter
  cases p
  · exact State.hamlet_modHamlet_keeps (·.idleSince) (fun _ => by rfl) ..
  · rfl
@[simp] theorem State.modPorter_hamlet_waitLimit (p : PorterRef) (f : Porter → Porter) (k : HamletRef) : ((s.modPorter p f).hamlet k).waitLimit = (s.hamlet k).waitLimit := by
  unfold State.modPorter State.setPorter
  cases p
  · exact State.hamlet_modHamlet_keeps (·.waitLimit) (fun _ => by rfl) ..
  · rfl
@[simp] theorem State.modPorter_hamlet_err (p : PorterRef) (f : Porter → Porter) (k : HamletRef) : ((s.modPorter p f).hamlet k).err = (s.hamlet k).err := by
  unfold State.modPorter State.setPorter
  cases p
  · exact State.hamlet_modHamlet_keeps (·.err) (fun _ => by rfl) ..
  · rfl
@[simp] theorem State.modPorter_hamlet_ringStall (p : PorterRef) (f : Porter → Porter) (k : HamletRef) : ((s.modPorter p f).hamlet k).ringStall = (s.hamlet k).ringStall := by
  unfold State.modPorter State.setPorter
  cases p
  · exact State.hamlet_modHamlet_keeps (·.ringStall) (fun _ => by rfl) ..
  · rfl
@[simp] theorem State.modPorter_hamlet_bells (p : PorterRef) (f : Porter → Porter) (k : HamletRef) : ((s.modPorter p f).hamlet k).bells = (s.hamlet k).bells := by
  unfold State.modPorter State.setPorter
  cases p
  · exact State.hamlet_modHamlet_keeps (·.bells) (fun _ => by rfl) ..
  · rfl
@[simp] theorem State.modPorter_hamlet_hwFault (p : PorterRef) (f : Porter → Porter) (k : HamletRef) : ((s.modPorter p f).hamlet k).hwFault = (s.hamlet k).hwFault := by
  unfold State.modPorter State.setPorter
  cases p
  · exact State.hamlet_modHamlet_keeps (·.hwFault) (fun _ => by rfl) ..
  · rfl
@[simp] theorem State.modPorter_hamlet_retired (p : PorterRef) (f : Porter → Porter) (k : HamletRef) : ((s.modPorter p f).hamlet k).retired = (s.hamlet k).retired := by
  unfold State.modPorter State.setPorter
  cases p
  · exact State.hamlet_modHamlet_keeps (·.retired) (fun _ => by rfl) ..
  · rfl
@[simp] theorem State.modPorter_hamlet_mills (p : PorterRef) (f : Porter → Porter) (k : HamletRef) : ((s.modPorter p f).hamlet k).mills = (s.hamlet k).mills := by
  unfold State.modPorter State.setPorter
  cases p
  · exact State.hamlet_modHamlet_keeps (·.mills) (fun _ => by rfl) ..
  · rfl
@[simp] theorem State.modPorter_hamlet_hands (p : PorterRef) (f : Porter → Porter) (k : HamletRef) : ((s.modPorter p f).hamlet k).hands = (s.hamlet k).hands := by
  unfold State.modPorter State.setPorter
  cases p
  · exact State.hamlet_modHamlet_keeps (·.hands) (fun _ => by rfl) ..
  · rfl
@[simp] theorem State.modPorter_hamlet_rings (p : PorterRef) (f : Porter → Porter) (k : HamletRef) : ((s.modPorter p f).hamlet k).rings = (s.hamlet k).rings := by
  unfold State.modPorter State.setPorter
  cases p
  · exact State.hamlet_modHamlet_keeps (·.rings) (fun _ => by rfl) ..
  · rfl
@[simp] theorem State.modPorter_hamlet_tallies (p : PorterRef) (f : Porter → Porter) (k : HamletRef) : ((s.modPorter p f).hamlet k).tallies = (s.hamlet k).tallies := by
  unfold State.modPorter State.setPorter
  cases p
  · exact State.hamlet_modHamlet_keeps (·.tallies) (fun _ => by rfl) ..
  · rfl
@[simp] theorem State.modPorter_hamlet_hint (p : PorterRef) (f : Porter → Porter) (k : HamletRef) : ((s.modPorter p f).hamlet k).hint = (s.hamlet k).hint := by
  unfold State.modPorter State.setPorter
  cases p
  · exact State.hamlet_modHamlet_keeps (·.hint) (fun _ => by rfl) ..
  · rfl
@[simp] theorem State.modPorter_hamlet_wakes (p : PorterRef) (f : Porter → Porter) (k : HamletRef) : ((s.modPorter p f).hamlet k).wakes = (s.hamlet k).wakes := by
  unfold State.modPorter State.setPorter
  cases p
  · exact State.hamlet_modHamlet_keeps (·.wakes) (fun _ => by rfl) ..
  · rfl
@[simp] theorem State.modPorter_hamlet_aliveBefore (p : PorterRef) (f : Porter → Porter) (k : HamletRef) : ((s.modPorter p f).hamlet k).aliveBefore = (s.hamlet k).aliveBefore := by
  unfold State.modPorter State.setPorter
  cases p
  · exact State.hamlet_modHamlet_keeps (·.aliveBefore) (fun _ => by rfl) ..
  · rfl
@[simp] theorem State.mill_modPorter (p : PorterRef) (f : Porter → Porter) (v : MillRef) : (s.modPorter p f).mill v = s.mill v := by
  unfold State.mill
  rw [State.modPorter_hamlet_mills]
@[simp] theorem State.hand_modPorter (p : PorterRef) (f : Porter → Porter) (g : HandRef) : (s.modPorter p f).hand g = s.hand g := by
  unfold State.hand
  rw [State.modPorter_hamlet_hands]
@[simp] theorem State.ring_modPorter (p : PorterRef) (f : Porter → Porter) (q : RingRef) : (s.modPorter p f).ring q = s.ring q := by
  unfold State.ring
  rw [State.modPorter_hamlet_rings]
@[simp] theorem State.setTally_hamlet_power (t : TallyRef) (x : Tally) (k : HamletRef) : ((s.setTally t x).hamlet k).power = (s.hamlet k).power := by
  unfold State.setTally
  cases t
  · exact State.hamlet_modHamlet_keeps (·.power) (fun _ => by rfl) ..
  · rfl
@[simp] theorem State.setTally_hamlet_fence (t : TallyRef) (x : Tally) (k : HamletRef) : ((s.setTally t x).hamlet k).fence = (s.hamlet k).fence := by
  unfold State.setTally
  cases t
  · exact State.hamlet_modHamlet_keeps (·.fence) (fun _ => by rfl) ..
  · rfl
@[simp] theorem State.setTally_hamlet_idleSince (t : TallyRef) (x : Tally) (k : HamletRef) : ((s.setTally t x).hamlet k).idleSince = (s.hamlet k).idleSince := by
  unfold State.setTally
  cases t
  · exact State.hamlet_modHamlet_keeps (·.idleSince) (fun _ => by rfl) ..
  · rfl
@[simp] theorem State.setTally_hamlet_waitLimit (t : TallyRef) (x : Tally) (k : HamletRef) : ((s.setTally t x).hamlet k).waitLimit = (s.hamlet k).waitLimit := by
  unfold State.setTally
  cases t
  · exact State.hamlet_modHamlet_keeps (·.waitLimit) (fun _ => by rfl) ..
  · rfl
@[simp] theorem State.setTally_hamlet_err (t : TallyRef) (x : Tally) (k : HamletRef) : ((s.setTally t x).hamlet k).err = (s.hamlet k).err := by
  unfold State.setTally
  cases t
  · exact State.hamlet_modHamlet_keeps (·.err) (fun _ => by rfl) ..
  · rfl
@[simp] theorem State.setTally_hamlet_ringStall (t : TallyRef) (x : Tally) (k : HamletRef) : ((s.setTally t x).hamlet k).ringStall = (s.hamlet k).ringStall := by
  unfold State.setTally
  cases t
  · exact State.hamlet_modHamlet_keeps (·.ringStall) (fun _ => by rfl) ..
  · rfl
@[simp] theorem State.setTally_hamlet_bells (t : TallyRef) (x : Tally) (k : HamletRef) : ((s.setTally t x).hamlet k).bells = (s.hamlet k).bells := by
  unfold State.setTally
  cases t
  · exact State.hamlet_modHamlet_keeps (·.bells) (fun _ => by rfl) ..
  · rfl
@[simp] theorem State.setTally_hamlet_hwFault (t : TallyRef) (x : Tally) (k : HamletRef) : ((s.setTally t x).hamlet k).hwFault = (s.hamlet k).hwFault := by
  unfold State.setTally
  cases t
  · exact State.hamlet_modHamlet_keeps (·.hwFault) (fun _ => by rfl) ..
  · rfl
@[simp] theorem State.setTally_hamlet_retired (t : TallyRef) (x : Tally) (k : HamletRef) : ((s.setTally t x).hamlet k).retired = (s.hamlet k).retired := by
  unfold State.setTally
  cases t
  · exact State.hamlet_modHamlet_keeps (·.retired) (fun _ => by rfl) ..
  · rfl
@[simp] theorem State.setTally_hamlet_mills (t : TallyRef) (x : Tally) (k : HamletRef) : ((s.setTally t x).hamlet k).mills = (s.hamlet k).mills := by
  unfold State.setTally
  cases t
  · exact State.hamlet_modHamlet_keeps (·.mills) (fun _ => by rfl) ..
  · rfl
@[simp] theorem State.setTally_hamlet_hands (t : TallyRef) (x : Tally) (k : HamletRef) : ((s.setTally t x).hamlet k).hands = (s.hamlet k).hands := by
  unfold State.setTally
  cases t
  · exact State.hamlet_modHamlet_keeps (·.hands) (fun _ => by rfl) ..
  · rfl
@[simp] theorem State.setTally_hamlet_rings (t : TallyRef) (x : Tally) (k : HamletRef) : ((s.setTally t x).hamlet k).rings = (s.hamlet k).rings := by
  unfold State.setTally
  cases t
  · exact State.hamlet_modHamlet_keeps (·.rings) (fun _ => by rfl) ..
  · rfl
@[simp] theorem State.setTally_hamlet_porters (t : TallyRef) (x : Tally) (k : HamletRef) : ((s.setTally t x).hamlet k).porters = (s.hamlet k).porters := by
  unfold State.setTally
  cases t
  · exact State.hamlet_modHamlet_keeps (·.porters) (fun _ => by rfl) ..
  · rfl
@[simp] theorem State.setTally_hamlet_hint (t : TallyRef) (x : Tally) (k : HamletRef) : ((s.setTally t x).hamlet k).hint = (s.hamlet k).hint := by
  unfold State.setTally
  cases t
  · exact State.hamlet_modHamlet_keeps (·.hint) (fun _ => by rfl) ..
  · rfl
@[simp] theorem State.setTally_hamlet_wakes (t : TallyRef) (x : Tally) (k : HamletRef) : ((s.setTally t x).hamlet k).wakes = (s.hamlet k).wakes := by
  unfold State.setTally
  cases t
  · exact State.hamlet_modHamlet_keeps (·.wakes) (fun _ => by rfl) ..
  · rfl
@[simp] theorem State.setTally_hamlet_aliveBefore (t : TallyRef) (x : Tally) (k : HamletRef) : ((s.setTally t x).hamlet k).aliveBefore = (s.hamlet k).aliveBefore := by
  unfold State.setTally
  cases t
  · exact State.hamlet_modHamlet_keeps (·.aliveBefore) (fun _ => by rfl) ..
  · rfl
@[simp] theorem State.mill_setTally (t : TallyRef) (x : Tally) (v : MillRef) : (s.setTally t x).mill v = s.mill v := by
  unfold State.mill
  rw [State.setTally_hamlet_mills]
@[simp] theorem State.hand_setTally (t : TallyRef) (x : Tally) (g : HandRef) : (s.setTally t x).hand g = s.hand g := by
  unfold State.hand
  rw [State.setTally_hamlet_hands]
@[simp] theorem State.ring_setTally (t : TallyRef) (x : Tally) (q : RingRef) : (s.setTally t x).ring q = s.ring q := by
  unfold State.ring
  rw [State.setTally_hamlet_rings]
@[simp] theorem State.modTally_hamlet_power (t : TallyRef) (f : Tally → Tally) (k : HamletRef) : ((s.modTally t f).hamlet k).power = (s.hamlet k).power := by
  unfold State.modTally State.setTally
  cases t
  · exact State.hamlet_modHamlet_keeps (·.power) (fun _ => by rfl) ..
  · rfl
@[simp] theorem State.modTally_hamlet_fence (t : TallyRef) (f : Tally → Tally) (k : HamletRef) : ((s.modTally t f).hamlet k).fence = (s.hamlet k).fence := by
  unfold State.modTally State.setTally
  cases t
  · exact State.hamlet_modHamlet_keeps (·.fence) (fun _ => by rfl) ..
  · rfl
@[simp] theorem State.modTally_hamlet_idleSince (t : TallyRef) (f : Tally → Tally) (k : HamletRef) : ((s.modTally t f).hamlet k).idleSince = (s.hamlet k).idleSince := by
  unfold State.modTally State.setTally
  cases t
  · exact State.hamlet_modHamlet_keeps (·.idleSince) (fun _ => by rfl) ..
  · rfl
@[simp] theorem State.modTally_hamlet_waitLimit (t : TallyRef) (f : Tally → Tally) (k : HamletRef) : ((s.modTally t f).hamlet k).waitLimit = (s.hamlet k).waitLimit := by
  unfold State.modTally State.setTally
  cases t
  · exact State.hamlet_modHamlet_keeps (·.waitLimit) (fun _ => by rfl) ..
  · rfl
@[simp] theorem State.modTally_hamlet_err (t : TallyRef) (f : Tally → Tally) (k : HamletRef) : ((s.modTally t f).hamlet k).err = (s.hamlet k).err := by
  unfold State.modTally State.setTally
  cases t
  · exact State.hamlet_modHamlet_keeps (·.err) (fun _ => by rfl) ..
  · rfl
@[simp] theorem State.modTally_hamlet_ringStall (t : TallyRef) (f : Tally → Tally) (k : HamletRef) : ((s.modTally t f).hamlet k).ringStall = (s.hamlet k).ringStall := by
  unfold State.modTally State.setTally
  cases t
  · exact State.hamlet_modHamlet_keeps (·.ringStall) (fun _ => by rfl) ..
  · rfl
@[simp] theorem State.modTally_hamlet_bells (t : TallyRef) (f : Tally → Tally) (k : HamletRef) : ((s.modTally t f).hamlet k).bells = (s.hamlet k).bells := by
  unfold State.modTally State.setTally
  cases t
  · exact State.hamlet_modHamlet_keeps (·.bells) (fun _ => by rfl) ..
  · rfl
@[simp] theorem State.modTally_hamlet_hwFault (t : TallyRef) (f : Tally → Tally) (k : HamletRef) : ((s.modTally t f).hamlet k).hwFault = (s.hamlet k).hwFault := by
  unfold State.modTally State.setTally
  cases t
  · exact State.hamlet_modHamlet_keeps (·.hwFault) (fun _ => by rfl) ..
  · rfl
@[simp] theorem State.modTally_hamlet_retired (t : TallyRef) (f : Tally → Tally) (k : HamletRef) : ((s.modTally t f).hamlet k).retired = (s.hamlet k).retired := by
  unfold State.modTally State.setTally
  cases t
  · exact State.hamlet_modHamlet_keeps (·.retired) (fun _ => by rfl) ..
  · rfl
@[simp] theorem State.modTally_hamlet_mills (t : TallyRef) (f : Tally → Tally) (k : HamletRef) : ((s.modTally t f).hamlet k).mills = (s.hamlet k).mills := by
  unfold State.modTally State.setTally
  cases t
  · exact State.hamlet_modHamlet_keeps (·.mills) (fun _ => by rfl) ..
  · rfl
@[simp] theorem State.modTally_hamlet_hands (t : TallyRef) (f : Tally → Tally) (k : HamletRef) : ((s.modTally t f).hamlet k).hands = (s.hamlet k).hands := by
  unfold State.modTally State.setTally
  cases t
  · exact State.hamlet_modHamlet_keeps (·.hands) (fun _ => by rfl) ..
  · rfl
@[simp] theorem State.modTally_hamlet_rings (t : TallyRef) (f : Tally → Tally) (k : HamletRef) : ((s.modTally t f).hamlet k).rings = (s.hamlet k).rings := by
  unfold State.modTally State.setTally
  cases t
  · exact State.hamlet_modHamlet_keeps (·.rings) (fun _ => by rfl) ..
  · rfl
@[simp] theorem State.modTally_hamlet_porters (t : TallyRef) (f : Tally → Tally) (k : HamletRef) : ((s.modTally t f).hamlet k).porters = (s.hamlet k).porters := by
  unfold State.modTally State.setTally
  cases t
  · exact State.hamlet_modHamlet_keeps (·.porters) (fun _ => by rfl) ..
  · rfl
@[simp] theorem State.modTally_hamlet_hint (t : TallyRef) (f : Tally → Tally) (k : HamletRef) : ((s.modTally t f).hamlet k).hint = (s.hamlet k).hint := by
  unfold State.modTally State.setTally
  cases t
  · exact State.hamlet_modHamlet_keeps (·.hint) (fun _ => by rfl) ..
  · rfl
@[simp] theorem State.modTally_hamlet_wakes (t : TallyRef) (f : Tally → Tally) (k : HamletRef) : ((s.modTally t f).hamlet k).wakes = (s.hamlet k).wakes := by
  unfold State.modTally State.setTally
  cases t
  · exact State.hamlet_modHamlet_keeps (·.wakes) (fun _ => by rfl) ..
  · rfl
@[simp] theorem State.modTally_hamlet_aliveBefore (t : TallyRef) (f : Tally → Tally) (k : HamletRef) : ((s.modTally t f).hamlet k).aliveBefore = (s.hamlet k).aliveBefore := by
  unfold State.modTally State.setTally
  cases t
  · exact State.hamlet_modHamlet_keeps (·.aliveBefore) (fun _ => by rfl) ..
  · rfl
@[simp] theorem State.mill_modTally (t : TallyRef) (f : Tally → Tally) (v : MillRef) : (s.modTally t f).mill v = s.mill v := by
  unfold State.mill
  rw [State.modTally_hamlet_mills]
@[simp] theorem State.hand_modTally (t : TallyRef) (f : Tally → Tally) (g : HandRef) : (s.modTally t f).hand g = s.hand g := by
  unfold State.hand
  rw [State.modTally_hamlet_hands]
@[simp] theorem State.ring_modTally (t : TallyRef) (f : Tally → Tally) (q : RingRef) : (s.modTally t f).ring q = s.ring q := by
  unfold State.ring
  rw [State.modTally_hamlet_rings]

/-! A Hand that retires leaves the Porters and Tally units alone. -/

@[simp] theorem State.porter_retire (h : HandRef) (f : Hand → Hand) (p : PorterRef) : (s.retire h f).porter p = s.porter p := by
  cases p
  · simp only [State.porter]
    rw [State.retire_hamlet_porters]
  · rfl
@[simp] theorem State.tally_retire (h : HandRef) (f : Hand → Hand) (t : TallyRef) : (s.retire h f).tally t = s.tally t := by
  cases t
  · simp only [State.tally]
    rw [State.retire_hamlet_tallies]
  · rfl

/-- Fences do not depend on what memory holds. -/
theorem State.fenced_withMem (m : Memory) (p q : List Nat) (a : Nat) :
    State.fenced { s with mem := m, sramPoison := p, blkPoison := q } a = s.fenced a := rfl

/-! Nor do the units. -/

theorem State.hamlet_withMem (m : Memory) (p q : List Nat) (k : HamletRef) :
    State.hamlet { s with mem := m, sramPoison := p, blkPoison := q } k = s.hamlet k := rfl
theorem State.mill_withMem (m : Memory) (p q : List Nat) (k : MillRef) :
    State.mill { s with mem := m, sramPoison := p, blkPoison := q } k = s.mill k := rfl
theorem State.hand_withMem (m : Memory) (p q : List Nat) (k : HandRef) :
    State.hand { s with mem := m, sramPoison := p, blkPoison := q } k = s.hand k := rfl
theorem State.ring_withMem (m : Memory) (p q : List Nat) (k : RingRef) :
    State.ring { s with mem := m, sramPoison := p, blkPoison := q } k = s.ring k := rfl
theorem State.jobAt_withMem (m : Memory) (p q : List Nat) (k : HamletRef) :
    State.jobAt { s with mem := m, sramPoison := p, blkPoison := q } k = s.jobAt k := rfl
theorem State.porter_withMem (m : Memory) (p q : List Nat) (k : PorterRef) :
    State.porter { s with mem := m, sramPoison := p, blkPoison := q } k = s.porter k := rfl
theorem State.tally_withMem (m : Memory) (p q : List Nat) (k : TallyRef) :
    State.tally { s with mem := m, sramPoison := p, blkPoison := q } k = s.tally k := rfl

/-- A hamlet that is Active stays as it is on a wake trigger. -/
theorem State.wake_active {s : State} {m : HamletRef} (h : (s.hamlet m).power = .active) : s.wake m = s := by
  unfold State.wake
  simp only [h, ite_self]

/-- A ring that is not bound at the end used, and that overlaps no other, is used without more. -/
theorem State.boundUse_claim {s : State} {r : RingRef} (h : (s.ring r).bind = none)
    (ho : (s.hamlet (ringSlot r)).ringsOverlap r.idx = false) : s.boundUse r true = s := by
  unfold State.boundUse
  simp [h, ho]
theorem State.boundUse_reserve {s : State} {r : RingRef} (h : s.receiving r = false)
    (ho : (s.hamlet (ringSlot r)).ringsOverlap r.idx = false) : s.boundUse r false = s := by
  unfold State.boundUse
  simp [h, ho]

/-- Slots are read through base, stride and memory alone. -/
theorem State.padRead_congr {s u : State} (hm : u.mem = s.mem) (hp : u.sramPoison = s.sramPoison) (hb : u.blkPoison = s.blkPoison)
    (hf : ∀ a, u.fenced a = s.fenced a) (m : HamletRef) (o n : Nat) : u.padRead m o n = s.padRead m o n := by
  unfold State.padRead State.loadMem
  rw [hf]
  simp only [State.bytesAt, State.poisonedAt, hm, hp, hb]

theorem State.slotHdr_congr {s u : State} {r : RingRef} (hp : ∀ m o n, u.padRead m o n = s.padRead m o n)
    (ho : (u.ring r).base = (s.ring r).base) (hs : (u.ring r).stride = (s.ring r).stride) (i : Nat) : u.slotHdr r i = s.slotHdr r i := by
  unfold State.slotHdr Ring.slotOff
  simp only [hp, ho, hs]

theorem State.slotIn_congr {s u : State} {r : RingRef} (hp : ∀ m o n, u.padRead m o n = s.padRead m o n)
    (ho : (u.ring r).base = (s.ring r).base) (hs : (u.ring r).stride = (s.ring r).stride) (i : Nat) : u.slotIn r i = s.slotIn r i := by
  unfold State.slotIn Ring.payloadOff Ring.slotOff Ring.capacity
  simp only [hp, ho, hs, State.slotHdr_congr hp ho hs]

/-- A slot keeps its payload when its ring's indices and states change. -/
theorem State.slotIn_setRing {s : State} {r : RingRef} {y : Ring} (ho : y.base = (s.ring r).base) (hs : y.stride = (s.ring r).stride) (i : Nat) :
    (s.setRing r y).slotIn r i = s.slotIn r i :=
  State.slotIn_congr (s := s) (u := s.setRing r y) (State.padRead_congr rfl rfl rfl fun a => State.fenced_setRing s r y a)
    (by rw [State.ring_setRing, ho]) (by rw [State.ring_setRing, hs]) i

theorem State.payloadEa_setRing {s : State} {r : RingRef} {y : Ring} (ho : y.base = (s.ring r).base) (hs : y.stride = (s.ring r).stride)
    (j : Job) (i : Nat) : (s.setRing r y).payloadEa j r i = s.payloadEa j r i := by
  unfold State.payloadEa Ring.payloadOff Ring.slotOff
  simp only [State.ring_setRing, ho, hs, State.setRing_torus]

theorem Ring.setSlot_base (r : Ring) (i : Nat) (x : SlotState) : (r.setSlot i x).base = r.base := by
  unfold Ring.setSlot
  split <;> rfl
theorem Ring.setSlot_stride (r : Ring) (i : Nat) (x : SlotState) : (r.setSlot i x).stride = r.stride := by
  unfold Ring.setSlot
  split <;> rfl

end Sys2Proof.Machine
end

