-- ==== Sys2Proof/Laws/Mills.lean ====
section
/-! SUPPORT. What an update of one Mill leaves of the others, and what taking and releasing a slot that is offered or accepted answers. -/

namespace Sys2Proof.Machine

/-- What leaves the other Mills alone does so with its hamlet marked busy. -/
theorem otherMills_busy {s t : State} {u : MillRef} (h : s.otherMills t u) : s.otherMills (t.busy (millSlot u)) u := by
  obtain ⟨a, b, c⟩ := h
  refine ⟨?_, ?_, ?_⟩
  · intro k hk
    rw [← a k hk]
    simp [State.busy, State.modHamlet, State.setHamlet, hk]
  · rw [State.busy, State.hamlet_modHamlet]; rw [b]
  · rw [State.busy, State.hamlet_modHamlet]; exact c

/-- Storing one Mill leaves the others alone. -/
theorem otherMills_setMill (s : State) (u : MillRef) (x : Mill) : s.otherMills (s.setMill u x) u := by
  refine ⟨?_, ?_, ?_⟩
  · intro k hk
    simp [State.setMill, State.modHamlet, State.setHamlet, hk]
  · rw [State.setMill, State.hamlet_modHamlet]
  · intro i hi
    rw [State.setMill, State.hamlet_modHamlet]
    simp [hi]

/-- Marking a hamlet busy changes hamlets only. -/
theorem onlyHamlets_busy {s t : State} (m) (h : s.onlyHamlets t) : s.onlyHamlets (t.busy m) := by
  unfold State.onlyHamlets at *
  rw [h]; rfl

/-- A command that answers one update of a Mill does it. -/
theorem millDoes_mod {s : State} {c u f} (h : exec c s = .next (s.modMill u f)) : s.millDoes c u f :=
  ⟨_, h, State.mill_modMill .., rfl, otherMills_setMill ..⟩

/-- A command that answers one update of a Mill and marks its hamlet busy does it. -/
theorem millDoes_busy {s : State} {c u f} (h : exec c s = .next ((s.modMill u f).busy (millSlot u))) : s.millDoes c u f :=
  ⟨_, h, by rw [State.mill_busy, State.mill_modMill], onlyHamlets_busy _ rfl, otherMills_busy (otherMills_setMill ..)⟩

/-- A ring that offers a slot gives it to the unit that claims one. -/
theorem engineSlot_offers {s : State} {r : RingRef} {i : Nat} (h : s.offers r i) (a : RingAgent) :
    s.engineSlot r a true = (some i, s.setRing r { (s.ring r).setSlot i .claimed with
      claim := (s.ring r).after i, grant := portAfter (agentPort (ringSlot r) a) }) := by
  obtain ⟨hp, he, hb, ho, hw, hg, hl, hc, hs⟩ := h
  subst hc
  have hk : (s.ring r).claimSlot = some ((s.ring r).claim, { (s.ring r).setSlot (s.ring r).claim .claimed with claim := (s.ring r).after (s.ring r).claim }) := by
    simp [Ring.claimSlot, he, hs]
  simp [State.engineSlot, State.wake_active hp, State.boundUse_claim hb hl, State.takeSlot, hg, hw, hk]

/-- A ring that accepts a slot gives it to the unit that reserves one. -/
theorem engineSlot_accepts {s : State} {r : RingRef} {i : Nat} (h : s.accepts r i) (a : RingAgent) :
    s.engineSlot r a false = (some i, s.setRing r { (s.ring r).setSlot i .reserved with
      rsv := (s.ring r).after i, grant := portAfter (agentPort (ringSlot r) a) }) := by
  obtain ⟨hp, he, ho, hw, hg, hl, hc, hs, hq⟩ := h
  subst hc
  have hk : (s.ring r).reserve = some ((s.ring r).rsv, { (s.ring r).setSlot (s.ring r).rsv .reserved with rsv := (s.ring r).after (s.ring r).rsv }) := by
    simp [Ring.reserve, he, hs]
  simp [State.engineSlot, State.wake_active hp, State.boundUse_reserve ho hl, State.takeSlot, hg, hw, hk]

/-- Moving the head keeps where the slots came from. -/
theorem advanceHead_origins (n : Nat) (x : Ring) : (Ring.advanceHead n x).origins = x.origins := by
  induction n generalizing x with
  | zero => rfl
  | succ n ih => unfold Ring.advanceHead; split
                 · rw [ih]; rfl
                 · rfl

/-- A release keeps where the slots came from. -/
theorem release_origins (x : Ring) (i : Nat) : (x.release i).origins = x.origins := by
  unfold Ring.release; rw [advanceHead_origins]; rfl

/-- A change of a slot's state keeps where the slots came from. -/
theorem setSlot_origins (x : Ring) (i v) : (x.setSlot i v).origins = x.origins := by
  cases v <;> rfl

/-- In an enabled ring of a running hamlet none of whose slots came over a link a release returns no credit. -/
theorem releaseSlot_plain (s : State) (r : RingRef) (i : Nat) (hp : (s.hamlet (ringSlot r)).power = .active)
    (he : (s.ring r).enable = true) (h : (s.ring r).origins.cells = []) :
    s.releaseSlot r i = s.modRing r fun x => x.release i := by
  have : ((s.modRing r fun x => x.release i).ring r).origins.find i = none := by
    rw [State.ring_modRing, release_origins]; unfold Tab.find; rw [h]; rfl
  unfold State.releaseSlot State.returnCredit
  rw [if_pos he, State.wake_active hp, this]

/-- The release of the slot that a ring offered leaves the ring used. -/
theorem release_used (s : State) (r : RingRef) (i : Nat) (h : s.offers r i) (a : RingAgent) (x : Ring)
    (hx : x = { (s.ring r).setSlot i .claimed with claim := (s.ring r).after i, grant := portAfter (agentPort (ringSlot r) a) }) (t : State)
    (ht : t.ring r = x) (hp : (t.hamlet (ringSlot r)).power = .active) :
    t.releaseSlot r i = t.setRing r ((s.ring r).used (ringSlot r) a i) := by
  rw [releaseSlot_plain, State.modRing, ht, hx]; rfl
  exact hp
  · rw [ht, hx]; exact h.2.1
  · rw [ht, hx]; exact h.2.2.2.1

/-- Descriptors enter a Mill's queue in their order. -/
theorem descs_foldl (l : List Vec) (x : Mill) : l.foldl Mill.accept x = { x with queue := x.queue ++ l, accepted := x.accepted + BitVec.ofNat 32 l.length } := by
  induction l generalizing x with
  | nil => simp
  | cons d l ih => rw [List.foldl_cons, ih]; simp [Mill.accept, BitVec.ofNat_add, BitVec.add_assoc, BitVec.add_comm 1#32]

end Sys2Proof.Machine
end

