-- ==== Sys2Proof/Tests/Slice0.lean ====
section
/-! SUPPORT. Tests of the model: an ill-formed term for each check of WellFormed, and for each statement a concrete state and operands
that meet its hypotheses, with the effect of a command where the manual fixes it. -/

namespace Sys2Proof.Tests

open Sys2Proof Sys2Proof.Machine

set_option Elab.async false

/-! ## Ill-formed terms (Table 0.3, Table 1.1) -/

theorem test_wf_hamlet : (HamletRef.mk 8 0).wf = false ∧ (HamletRef.mk 0 18).wf = false ∧ (HamletRef.mk 7 17).wf = true := by decide
theorem test_wf_mill : (MillRef.mk 0 0 4).wf = false ∧ (MillRef.mk 7 17 3).wf = true := by decide
theorem test_wf_hand : (HandRef.mk 0 0 4).wf = false ∧ (HandRef.mk 7 17 3).wf = true := by decide
theorem test_wf_ring : (RingRef.mk 0 0 64).wf = false ∧ (RingRef.mk 7 17 63).wf = true := by decide
theorem test_wf_parish : (ParishRef.mk 0 4).wf = false ∧ (ParishRef.mk 7 3).wf = true := by decide
theorem test_wf_controller : (CtlRef.mk 0 6).wf = false ∧ (CtlRef.mk 7 5).wf = true := by decide
theorem test_wf_edge : (EdgeRef.mk 8 0).wf = false ∧ (EdgeRef.mk 0 4).wf = false := by decide
theorem test_wf_porter : (PorterRef.hamlet 0 0 2).wf = false ∧ (PorterRef.parish 0 0 4).wf = false := by decide
theorem test_wf_tally : (TallyRef.hamlet 0 0 2).wf = false ∧ (TallyRef.parish 0 4 0).wf = false := by decide
theorem test_wf_place : (HwPlace.scalar 32).wf = false ∧ (HwPlace.predicate 8).wf = false ∧ (HwPlace.control 14).wf = false ∧
    (HwPlace.buffer 0x8000).wf = false ∧ (HwPlace.vector 32).wf = false := by decide
theorem test_wf_sram : (SramPlace.granary ⟨0, 4⟩ 0).wf = false ∧ (SramPlace.reeve 8).wf = false := by decide
theorem test_wf_agent : (RegAgent.host 16).wf = false ∧ (RegAgent.reeve 8).wf = false := by decide
theorem test_wf_host_write : (HostWrite.mk (2 ^ 64) [0]).wf = false := by decide
theorem test_wf_sector : (SectorErr.mk 0 [0, 0, 0]).wf = false ∧ (SectorErr.mk 0 [0, 0, 0, 137]).wf = false := by decide
theorem test_wf_granule : (Instr.granuleScrub ⟨0, 0⟩ 40 []).wf = false ∧ (Instr.granuleScrub ⟨0, 0⟩ 0 [(0x100000, 1)]).wf = false := by decide
theorem test_wf_scrub : (Instr.scrubFill ⟨0, 0⟩ [(0x600000, 1)]).wf = false := by decide
theorem test_wf_household : (Instr.translationMiss 0 64 0 0).wf = false := by decide
theorem test_wf_read : (Instr.lpddrRead ⟨0, 0⟩ 0 [0, 0, 0] ⟨0, 0⟩ 0).wf = false := by decide
theorem test_wf_write : (Instr.lpddrWrite ⟨0, 0⟩ 0 []).wf = false := by decide
theorem test_wf_slot : (Instr.tableSlotVisible 0).wf = false ∧ (Instr.tableSlotVisible 16).wf = false := by decide
theorem test_wf_job : (Instr.jobEnd 0).wf = false ∧ (Instr.jobEnd 65536).wf = false := by decide
theorem test_wf_entry : (Instr.expiry 16384).wf = false := by decide
theorem test_wf_link : (Instr.ackSend 24).wf = false := by decide
theorem test_wf_postbox : (Instr.identify 16).wf = false ∧ (Instr.pbCtrlWrite 16 0 0).wf = false := by decide
theorem test_wf_bar2 : (Instr.bar2Read 0 0 0).wf = false ∧ (Instr.bar2Write 0 0 []).wf = false := by decide
theorem test_wf_copies : (Instr.deepExit 3).wf = false := by decide
theorem test_wf_vf : (Instr.vfFlr 0).wf = false ∧ (Instr.vfEnable 16).wf = false := by decide
theorem test_wf_die : (Instr.idcode 8).wf = false := by decide

/-! ## A small package in which job 1 of household 1 runs on two hamlets -/

/-- Hand 0 of slot 0 of die 0, and the slot. -/
def h0 : HandRef := ⟨0, 0, 0⟩
def m0 : HamletRef := ⟨0, 0⟩
def m1 : HamletRef := ⟨0, 1⟩
def u0 : MillRef := ⟨0, 0, 0⟩
/-- Rings 0 and 1 of the slot. -/
def r0 : RingRef := ⟨0, 0, 0⟩
def r1 : RingRef := ⟨0, 0, 1⟩

/-- A ring of 4 slots of 512 bytes, the first published, at offset 0x1000. -/
def full : Ring := { enable := true, base := 0x40, stride := 8, count := 4, pub := 1, rsv := 1, seq := 1, slots := ⟨[(0, .published)]⟩ }
/-- The same with every slot free, at offset 0x2000. -/
def free : Ring := { enable := true, base := 0x80, stride := 8, count := 4 }

def job : Job :=
  { state := .running, household := 1, image := { dies := 1 }, seed := 5, granules := []
    places := [⟨0, 0, 0, false, 2⟩, ⟨0, 1, 1, false, 0⟩] }
/-- Page 0 maps die 0's LPDDR page 4, readable and writable; page 1 page 5, readable only. -/
def house : Household := { isOpen := true, ptLen := 2, ptBase := 0x2000000 }
/-- Die 0's copy of its table (R193, R198). -/
def tableBytes : Memory := [(774010568704, 3), (774010568706, 0x80), (774010568712, 1), (774010568714, 0xa0)]
def ham : Hamlet := { power := .active, rings := ⟨[(0, full), (1, free)]⟩ }
def base : State :=
  { State.reset with
    ident := { state := .ready }, pins := { porst := true }, mem := tableBytes
    hamlets := ⟨[(0, ham), (1, ham)]⟩, jobs := ⟨[(1, job)]⟩, households := ⟨[(1, house)]⟩ }

/-- Where no job has misused its KV and the actor's job runs no serving step no KV is misused, and without adapters no adapter's data is written. -/
theorem kv_idle (s : State) (who : Actor) (write : Bool) (ea n : Nat)
    (h : (who.job.bind s.jobs.find).map (fun j => j.serving.active) ≠ some true) (hn : s.adapters.cells = [])
    (hs : (s.jobs.cells.all fun c => !c.2.serving.kvWild) = true) :
    s.kvRespected who write ea n := by
  refine ⟨fun k j hk hj ha => ?_, fun _ x _ _ => ?_, fun _ c hc => ?_⟩
  · simp [hk, hj, ha] at h
  · have hw : ∀ k, ((s.jobs.find k).map fun j => j.serving.kvWild).getD false = false := by
      intro k
      cases hf : s.jobs.find k with
      | none => rfl
      | some j =>
        simpa using List.all_eq_true.1 hs (k, j) (Tab.find_mem _ hf)
    simp [State.kvOpenAt, hw]
  · simp [hn] at hc

/-- The word of an instruction with fields opcode, D, A, B and FN. -/
def word (op d a b fn : Nat) : Word32 := BitVec.ofNat 32 (op + d * 2 ^ 7 + a * 2 ^ 12 + b * 2 ^ 17 + fn * 2 ^ 25)
/-- A Hand that runs a word at PC 0. -/
def runner (w : Word32) : Hand := { mode := .running, ibuf := ⟨[(0, w)]⟩ }
/-- Hand 0 of slot 0 is `x`. -/
def withHand (x : Hand) : State := base.setHand h0 x
/-- Hand 0 is about to run a word. -/
def at_ (w : Word32) (f : Hand → Hand) : State := withHand (f (runner w))
/-- The next state, or the state itself where there is none. -/
def after (i : Instr) (s : State) : State :=
  match exec i s with
  | .next t => t
  | _ => s

/-! ## Hands -/

/-- HandIntegerInstructions. -/
theorem test_HandIntegerInstructions :
    (at_ (word 1 3 1 2 0) id).handOp h0 = some (.int 0 1 2 3) ∧ (at_ (word 1 3 1 2 0x14) id).handOp h0 = some (.div 0x14 1 2 3) ∧
    (at_ (word 2 3 1 5 0) id).handOp h0 = some (.addi 2 1 3 5) ∧ (at_ (word 8 3 1 5 0) id).handOp h0 = some (.shi 0 5 1 3) ∧
    (at_ (word 9 3 1 0 0) id).handOp h0 = some (.lui 3 1) ∧ (at_ (word 10 3 1 0 0) id).handOp h0 = some (.luih 3 1) := by decide +kernel

/-- ADD of 5 and 7. -/
theorem test_add : ((after (.int h0) (at_ (word 1 3 1 2 0) fun x => (x.setS 1 5).setS 2 7)).hand h0).s 3 = 12 := by decide +kernel
/-- LUI puts IMM20 at bit 12 (R134). -/
theorem test_lui : ((after (.lui h0) (at_ (word 9 3 1 0 0) id)).hand h0).s 3 = 0x1000 := by decide +kernel

/-- DivisionNeverTraps: a divisor of 0 and the most negative dividend over minus one. -/
theorem test_DivisionNeverTraps :
    (at_ (word 1 3 1 2 0x14) id).handOp h0 = some (.div 0x14 1 2 3) ∧ ((at_ (word 1 3 1 2 0x14) id).hand h0).s 2 = 0 ∧
    (at_ (word 1 3 1 2 0x17) id).handOp h0 = some (.div 0x17 1 2 3) ∧
    (let s := at_ (word 1 3 1 2 0x16) fun x => (x.setS 1 (BitVec.intMin 64)).setS 2 (BitVec.allOnes 64)
     s.handOp h0 = some (.div 0x16 1 2 3) ∧ (s.hand h0).s 1 = BitVec.intMin 64 ∧ (s.hand h0).s 2 = BitVec.allOnes 64) := by decide +kernel

/-- HandControlFlow: both ways of each branch. -/
theorem test_HandControlFlow :
    (let s := at_ (word 0xe 1 2 0 0 + 0x200000) id
     s.handOp h0 = some (.br 0 1 2 2) ∧ condHolds 0 ((s.hand h0).s 1) ((s.hand h0).s 2) = true) ∧
    (let s := at_ (word 0xe 1 2 1 0) id
     s.handOp h0 = some (.br 1 1 2 0) ∧ condHolds 1 ((s.hand h0).s 1) ((s.hand h0).s 2) = false) ∧
    (let s := at_ (word 0xf 0 0 0 0) id
     s.handOp h0 = some (.pbr 0 0 0) ∧ (s.hand h0).p 0 ≠ 0) ∧
    (let s := at_ (word 0xf 1 0 0 0) id
     s.handOp h0 = some (.pbr 0 1 0) ∧ (s.hand h0).p 1 = 0) ∧
    (at_ (word 0xc 3 2 0 0) id).handOp h0 = some (.jal 3 2) ∧ (at_ (word 0xd 3 1 4 0) id).handOp h0 = some (.jalr 3 1 4) := by
  decide +kernel

/-- A taken branch of 2 words goes to 8; JAL writes the address after it (R137). -/
theorem test_branch : ((after (.br h0) (at_ (word 0xe 1 2 0 0 + 0x200000) id)).hand h0).pc = 8 ∧
    ((after (.jal h0) (at_ (word 0xc 3 2 0 0) id)).hand h0).s 3 = 4 := by decide +kernel

/-- HandPredicateControlAndUnitRegisters. -/
theorem test_HandPredicateControlAndUnitRegisters :
    (at_ (word 0x44 1 2 3 0) id).handOp h0 = some (.pr 0 3 2 1) ∧
    (let s := at_ (word 0x28 3 1 1 0 + 0xd00000) id
     s.handOp h0 = some (.csr 0xd 1 1 3) ∧ csrBreaks 0xd 1 ((s.hand h0).s 1) = false) ∧
    (let s := at_ (word 0x28 3 1 3 0 + 0x700000) fun x => { x with evPend := 0x21 }.setS 1 0x21
     s.handOp h0 = some (.csr 7 3 1 3) ∧ csrBreaks 7 3 ((s.hand h0).s 1) = false ∧ (s.hand h0).s 1 &&& csrReserved 7 = 0 ∧
       ((after (.csr h0) s).hand h0).evPend = 0) ∧
    (let s := at_ (word 0x52 3 1 2 0) id
     s.handOp h0 = some (.lot 1 2 3) ∧ firmwareStream (fieldOf ((s.hand h0).s 2) 32 32) = false) ∧
    (at_ (word 0x55 3 1 0 1) id).handOp h0 = some (.trd 1 3) ∧ (at_ 0x24 id).handOp h0 = some .hfence ∧
    (at_ (word 0x55 0 1 2 2) id).handOp h0 = some (.twr 1 2) := by decide +kernel

/-- HandVectorInstructions. -/
theorem test_HandVectorInstructions :
    (at_ (word 0x40 3 1 2 1) id).handOp h0 = some (.vi 0 1 0 2 1 3) ∧ (at_ (word 0x41 3 1 2 3) id).handOp h0 = some (.vf 0 3 0 2 1 3) ∧
    (at_ (word 0x42 3 1 2 2) id).handOp h0 = some (.vx 0 2 2 1 3) ∧ (at_ (word 0x42 3 1 0 0x1a) id).handOp h0 = some (.vrsum 3 2 1 3) ∧
    (at_ (word 0x43 3 1 2 0) id).handOp h0 = some (.vc 0 2 1 3) ∧ (at_ (word 0x43 3 2 1 0x18) id).handOp h0 = some (.tern 1 2 3) ∧
    (at_ (word 0x43 3 4 0 0x19) id).handOp h0 = some (.packt 4 3) ∧ (at_ (word 0x43 4 1 0 0x1a) id).handOp h0 = some (.unpackt 1 4) := by
  decide +kernel

/-- A lane-wise sum of 32-bit lanes keeps a lane whose predicate bit is 0 (R130). -/
theorem test_PredicatedLanesKeepTheirValue :
    (let s := at_ (word 0x40 3 1 2 2 + 0x400000) fun x => (((x.setV 1 0x500000007#512).setV 2 0x100000001#512).setV 3 0x900000009#512).setP 1 1
     s.handOp h0 = some (.vi 0 2 1 2 1 3) ∧ 1 < laneCount 2 ∧ ((s.hand h0).p 1).getLsbD 1 = false ∧
       ((after (.vi h0) s).hand h0).v 3 = 0x900000008#512) ∧
    (let s := at_ (word 0x41 3 1 2 3 + 0x400000) id
     s.handOp h0 = some (.vf 0 3 1 2 1 3) ∧ 1 < laneCount 3 ∧ ((s.hand h0).p 1).getLsbD 1 = false) := by decide +kernel

/-- HandSystemInstructions. -/
theorem test_HandSystemInstructions :
    (let s := at_ (word 0x29 0 0 0 0) fun x => { x with evPend := 1, evMask := 1 }
     s.handOp h0 = some .wait ∧ (s.hand h0).eventEnabled = true) ∧
    (let s := at_ (word 0x29 0 0 0 0) id
     s.handOp h0 = some .wait ∧ (s.hand h0).eventEnabled = false) ∧
    (at_ (word 0x29 0 0 0 1) id).handOp h0 = some .eret ∧ (at_ (word 0x29 0 0 0 2) id).handOp h0 = some .halt ∧
    (at_ (word 0x29 0 0 9 3) id).handOp h0 = some (.trap 9) ∧ (at_ 0 id).handOp h0 = some .illegal := by decide +kernel

/-- TRAP with no handler stops the Hand with code 5 and the TRAP code in HTVAL (R153). -/
theorem test_trap : let x := (after (.trap h0) (at_ (word 0x29 0 0 9 3) id)).hand h0
    x.mode = .faulted ∧ x.fault = true ∧ x.causeCode = 5 ∧ x.tval = 9 := by decide +kernel

/-- ExceptionEntersHandlerOrStops: a handler at 0x100, none, and a second exception in a handler. -/
theorem test_ExceptionEntersHandlerOrStops :
    (let x : Hand := { xvec := 0x100 }
     x.xvec ≠ 0 ∧ x.inHandler = false ∧ x.xvec.toNat % 4 = 0 ∧ (x.exception .trap 1).pc = 0x100) ∧
    ({} : Hand).xvec = 0 ∧ (let x : Hand := { xvec := 0x100, inHandler := true }
     x.inHandler = true ∧ (x.exception .trap 1).mode = .faulted) := by decide +kernel

/-- A base register that holds the offset of the last whole word of the scratchpad. -/
def last8 : Hand → Hand := fun x => x.setS 1 0x5ffff8
/-- The same for a vector. -/
def last64 : Hand → Hand := fun x => (x.setS 1 0x5fffc0).setS 2 64

/-- HandLocalLoads, at the end of the scratchpad. -/
theorem test_HandLocalLoads :
    (let s := at_ (word 0x16 3 1 0 0) last8
     s.handOp h0 = some (.localLoad 6 1 3 0) ∧ loadSize 6 = 8 ∧ localCause 0x5ffff8 8 8 = none ∧
       s.fenced (sramAddr m0 (localOff 0x5ffff8)) = false ∧ s.poisonedAt (sramAddr m0 (localOff 0x5ffff8)) 8 = false ∧
       s.rawSlots (s.heldBy h0) false (sramAddr m0 (localOff 0x5ffff8)) 8 = []) ∧
    (let s := at_ (word 0x1c 3 1 0 0) last64
     s.handOp h0 = some (.vld 1 3 0) ∧ localCause 0x5fffc0 64 4 = none ∧ s.fenced (sramAddr m0 (localOff 0x5fffc0)) = false ∧
       s.poisonedAt (sramAddr m0 (localOff 0x5fffc0)) 64 = false ∧
       s.rawSlots (s.heldBy h0) false (sramAddr m0 (localOff 0x5fffc0)) 64 = []) := by decide +kernel

/-- HandLocalStores: the same places, and VSTN with 1, 64, 0 and 65 bytes. -/
theorem test_HandLocalStores :
    (let s := at_ (word 0x1b 3 1 0 0) last8
     s.handOp h0 = some (.localStore 3 1 3 0) ∧ s.mem.wf = true ∧ localCause 0x5ffff8 8 8 = none ∧
       s.fenced (sramAddr m0 (localOff 0x5ffff8)) = false ∧ s.rawSlots (s.heldBy h0) true (sramAddr m0 (localOff 0x5ffff8)) 8 = []) ∧
    (let s := at_ (word 0x1d 3 1 0 0) last64
     s.handOp h0 = some (.vst 1 3 0) ∧ localCause 0x5fffc0 64 4 = none ∧ s.fenced (sramAddr m0 (localOff 0x5fffc0)) = false ∧
       s.rawSlots (s.heldBy h0) true (sramAddr m0 (localOff 0x5fffc0)) 64 = []) ∧
    (let s := at_ (word 0x1e 3 1 2 0) last64
     s.handOp h0 = some (.vstn 1 2 3) ∧ 1 ≤ ((s.hand h0).s 2).toNat ∧ ((s.hand h0).s 2).toNat ≤ 64) ∧
    (let s := at_ (word 0x1e 3 1 4 0) last64
     s.handOp h0 = some (.vstn 1 4 3) ∧ ((s.hand h0).s 4).toNat = 0) ∧
    (let s := at_ (word 0x25 3 1 2 0) fun x => x.setS 2 65
     s.handOp h0 = some (.gvstn 1 2 3) ∧ 64 < ((s.hand h0).s 2).toNat) := by decide +kernel

/-- A store of 0x1122334455667788 puts its low byte lowest (R39). -/
theorem test_store : let t := after (.localStore h0) (at_ (word 0x1b 3 1 0 0) fun x => (last8 x).setS 3 0x1122334455667788)
    t.mem.readBytes (sramAddr m0 0x5ffff8) 8 = [0x88, 0x77, 0x66, 0x55, 0x44, 0x33, 0x22, 0x11] := by decide +kernel

/-- HandLocalExceptions: one byte off at the end, one byte off, past the end, over the end, and a poisoned word. -/
theorem test_HandLocalExceptions :
    (let s := at_ (word 0x16 3 1 0 0) fun x => x.setS 1 0x5ffff9
     s.handOp h0 = some (.localLoad 6 1 3 0) ∧ (0x5ffff9#64).toNat % 2 ^ 23 < padBytes ∧ (0x5ffff9#64).toNat % 8 ≠ 0 ∧
       ((after (.localLoad h0) s).hand h0).causeCode = 3) ∧
    (let s := at_ (word 0x16 3 1 0 0) fun x => x.setS 1 0x600000
     s.handOp h0 = some (.localLoad 6 1 3 0) ∧ padBytes ≤ (0x600000#64).toNat % 2 ^ 23) ∧
    (let s := at_ (word 0x1b 3 1 0 0) fun x => x.setS 1 0x5ffff7
     s.handOp h0 = some (.localStore 3 1 3 0) ∧ (0x5ffff7#64).toNat % 2 ^ 23 < padBytes ∧ (0x5ffff7#64).toNat % 8 ≠ 0) ∧
    (let s := at_ (word 0x1c 3 1 0 0) fun x => x.setS 1 0x5fffc2
     s.handOp h0 = some (.vld 1 3 0) ∧ (0x5fffc2#64).toNat % 4 ≠ 0) ∧
    (let s := at_ (word 0x1c 3 1 0 0) fun x => x.setS 1 0x5ffffc
     s.handOp h0 = some (.vld 1 3 0) ∧ (0x5ffffc#64).toNat % 2 ^ 23 < padBytes ∧ (0x5ffffc#64).toNat % 4 = 0 ∧
       padBytes < (0x5ffffc#64).toNat % 2 ^ 23 + 64 ∧ ((after (.vld h0) s).hand h0).causeCode = 4) ∧ (at_ (word 0x1d 3 1 0 0) id).handOp h0 = some (.vst 1 3 0) ∧
    (let s := at_ (word 0x1e 3 1 2 0) fun x => (x.setS 1 0x5ffffc).setS 2 8
     s.handOp h0 = some (.vstn 1 2 3) ∧ (0x5ffffc#64).toNat % 2 ^ 23 < padBytes ∧ padBytes < (0x5ffffc#64).toNat % 2 ^ 23 + 8 ∧
       ((after (.vstn h0) s).hand h0).causeCode = 4) ∧
    (let s := { at_ (word 0x16 3 1 0 0) last8 with sramPoison := [sramAddr m0 0x5ffff8 / 8] }
     s.handOp h0 = some (.localLoad 6 1 3 0) ∧ localCause 0x5ffff8 8 8 = none ∧ s.fenced (sramAddr m0 (localOff 0x5ffff8)) = false ∧
       s.poisonedAt (sramAddr m0 (localOff 0x5ffff8)) 8 = true ∧ ((after (.localLoad h0) s).hand h0).causeCode = 6) := by decide +kernel

/-- Page 0 of household 1 in LPDDR. -/
def page0 : Nat := 0x800000

/-- HandGlobalLoads: a load at the end of a 2 KiB block. -/
theorem test_HandGlobalLoads :
    (let s := at_ (word 0x20 3 1 0 0) fun x => x.setS 1 0x7f8
     s.handActor h0 = some (actorOf 1 job) ∧ s.resolve (actorOf 1 job) false 0x7f8 = some (.mem (page0 + 0x7f8) .plain) ∧
       page0 + 0x7f8 < sramBase ∧ s.poisonedAt (page0 + 0x7f8) 8 = false ∧ s.handOp h0 = some (.gld 1 3 0)) ∧
    (let s := at_ (word 0x22 3 1 0 0) fun x => x.setS 1 0x7c0
     s.resolve (actorOf 1 job) false 0x7c0 = some (.mem (page0 + 0x7c0) .plain) ∧ s.poisonedAt (page0 + 0x7c0) 64 = false ∧
       s.handOp h0 = some (.gvld 1 3 0)) := by decide +kernel

/-- The job of these tests runs no serving step (R404). -/
theorem test_HandGlobal_kv (w : Word32) (f : Hand → Hand) (write : Bool) (ea n : Nat) : (at_ w f).kvRespected (actorOf 1 job) write ea n :=
  kv_idle _ _ _ _ _ (by show ((base.jobs.find 1).map fun j => j.serving.active) ≠ some true; decide) rfl rfl

/-- Hand 0 is about to load 8 bytes at an address, or 64. -/
def glob (op : Nat) (ea : Word64) : State := at_ (word op 3 1 0 0) fun x => x.setS 1 ea
/-- Another package of the board group stands at coordinate 1. -/
def pair (s : State) : State := { s with torus := { dims := 1, group := [{ board := 1, coord := 1 }] } }
/-- Scratchpad of the hamlet, its registers, those of its parish and of a controller, and page 0 of the other package. -/
def padEa : Nat := 0xe00010000000
def hamletEa : Nat := 0xf00000100000
def parishEa : Nat := 0xf00000808000
def ctlEa : Nat := 0xf00003000000

/-- HandGlobalLoads: no job, past the page table, one byte off, poison, a scratchpad, the register blocks and another package. -/
theorem test_HandGlobalLoads_faults :
    (glob 0x20 0x7f8).globalLoads h0 (.gld h0) 0x7f8 8 8 (putScalar 3) ∧ (glob 0x22 0x7c0).globalLoads h0 (.gvld h0) 0x7c0 64 4 (putVector 3) ∧
    ({ glob 0x20 0x7f8 with jobs := {} } : State).handActor h0 = none ∧
    ((glob 0x20 0x400000).reaches (actorOf 1 job) false 0x400000 8 = false ∧ ((after (.gld h0) (glob 0x20 0x400001)).hand h0).causeCode = 4) ∧
    ((glob 0x20 0x7f9).reaches (actorOf 1 job) false 0x7f9 8 = true ∧ ((after (.gld h0) (glob 0x20 0x7f9)).hand h0).causeCode = 3) ∧
    ((glob 0x22 0x7c2).reaches (actorOf 1 job) false 0x7c2 64 = true ∧ (0x7c2 : Nat) % 4 ≠ 0) := by
  refine ⟨⟨1, 3, 0, by decide +kernel, .inl ⟨by decide +kernel, rfl, rfl, rfl, rfl⟩⟩,
    ⟨1, 3, 0, by decide +kernel, .inr ⟨by decide +kernel, rfl, rfl, rfl, rfl⟩⟩, ?_⟩
  decide +kernel

theorem test_HandGlobalLoads_places :
    (let s := { glob 0x20 0x7f8 with blkPoison := [page0 / 2048] }
     s.handActor h0 = some (actorOf 1 job) ∧ s.resolve (actorOf 1 job) false 0x7f8 = some (.mem (page0 + 0x7f8) .plain) ∧
       s.poisonedAt (page0 + 0x7f8) 8 = true ∧ ((after (.gld h0) s).hand h0).causeCode = 6) ∧
    (let s := glob 0x20 (BitVec.ofNat 64 padEa)
     s.resolve (actorOf 1 job) false padEa = some (.mem (sramAddr m0 0) .plain) ∧ sramBase ≤ sramAddr m0 0 ∧ s.fenced (sramAddr m0 0) = false ∧
       slotOfAddr (sramAddr m0 0) = some m0 ∧ (s.hamlet m0).power = .active ∧ s.rawSlots (s.heldBy h0) false (sramAddr m0 0) 8 = [] ∧
       s.poisonedAt (sramAddr m0 0) 8 = false) ∧
    (glob 0x20 (BitVec.ofNat 64 hamletEa)).resolve (actorOf 1 job) false hamletEa = some (.reg m0 0) ∧ ham.power = .active ∧ ham.fence = .lowered ∧
    (glob 0x20 (BitVec.ofNat 64 parishEa)).resolve (actorOf 1 job) false parishEa = some (.granary ⟨0, 0⟩ 0) ∧
    (glob 0x20 (BitVec.ofNat 64 ctlEa)).resolve (actorOf 1 job) false ctlEa = some (.controller ⟨0, 0⟩ 0) ∧
    (let s := pair (glob 0x20 (2 ^ 48))
     s.handActor h0 = some (actorOf 1 job) ∧ s.resolve (actorOf 1 job) false (2 ^ 48) = some (.remote (2 ^ 48)) ∧
       s.request 0 1 (2 ^ 48) 1 8 [] false (.handLoad h0 0) = none) := by decide +kernel

/-- A page under PROT with the household's key slot 2, and one whose key is gone (R210). -/
def keyed : State := { glob 0x20 0x7f8 with
  mem := tableBytes.writeBytes 774010568704 [0x17], keySlots := ⟨[(2, ⟨1, List.replicate 64 0⟩)]⟩ }
theorem test_HandGlobal_keys :
    keyed.resolve (actorOf 1 job) false 0x7f8 = some (.mem (page0 + 0x7f8) (.key (List.replicate 64 0))) ∧
    ({ keyed with keySlots := {} } : State).resolve (actorOf 1 job) true 0x7f8 = some (.mem (page0 + 0x7f8) .noKey) := by decide +kernel

/-- HandGlobalStores. -/
theorem test_HandGlobalStores :
    (let s := at_ (word 0x21 3 1 0 0) fun x => x.setS 1 0x7f8
     s.mem.wf = true ∧ s.handActor h0 = some (actorOf 1 job) ∧ s.resolve (actorOf 1 job) true 0x7f8 = some (.mem (page0 + 0x7f8) .plain) ∧
       s.handOp h0 = some (.gst 1 3 0)) ∧
    (let s := at_ (word 0x23 3 1 0 0) fun x => x.setS 1 0x7c0
     s.resolve (actorOf 1 job) true 0x7c0 = some (.mem (page0 + 0x7c0) .plain) ∧ s.handOp h0 = some (.gvst 1 3 0)) ∧
    (let s := at_ (word 0x25 3 1 2 0) fun x => (x.setS 1 0x7c4).setS 2 60
     s.resolve (actorOf 1 job) true 0x7c4 = some (.mem (page0 + 0x7c4) .plain) ∧ s.handOp h0 = some (.gvstn 1 2 3) ∧
       (0x7c4 + 60 : Nat) ≤ 2048) := by decide +kernel

/-- HandGlobalStores: no job, a page without W, one byte off, a scratchpad, a hamlet register and another package. -/
theorem test_HandGlobalStores_places :
    (glob 0x21 0x7f8).globalStores h0 (.gst h0) 0x7f8 (List.replicate 8 0) 8 ∧
    (at_ (word 0x25 3 1 2 0) fun x => (x.setS 1 0x7c4).setS 2 2).globalStores h0 (.gvstn h0) 0x7c4 [0, 0] 4 ∧
    ({ glob 0x21 0x7f8 with jobs := {} } : State).handActor h0 = none ∧
    (glob 0x21 0x200004).reaches (actorOf 1 job) true 0x200004 8 = false ∧ (glob 0x21 0x7fc).reaches (actorOf 1 job) true 0x7fc 8 = true ∧
    (let s := glob 0x21 (BitVec.ofNat 64 padEa)
     s.resolve (actorOf 1 job) true padEa = some (.mem (sramAddr m0 0) .plain) ∧ s.fenced (sramAddr m0 0) = false ∧
       slotOfAddr (sramAddr m0 0) = some m0 ∧ s.rawSlots (s.heldBy h0) true (sramAddr m0 0) 8 = []) ∧
    (glob 0x21 (BitVec.ofNat 64 hamletEa)).resolve (actorOf 1 job) true hamletEa = some (.reg m0 0) ∧
    (let s := pair (glob 0x21 (2 ^ 48))
     s.resolve (actorOf 1 job) true (2 ^ 48) = some (.remote (2 ^ 48)) ∧
       s.request 0 0 (2 ^ 48) 1 8 (List.replicate 8 0) false (.handStore h0) = none) := by
  refine ⟨.inl ⟨1, 3, 0, by decide +kernel⟩, .inr (.inr ⟨1, 2, 3, by decide +kernel⟩), ?_⟩
  decide +kernel

/-- A store to a page without W raises ACCESS (R199). -/
theorem test_read_only : ((after (.gst h0) (at_ (word 0x21 3 1 0 0) fun x => x.setS 1 0x200000)).hand h0).causeCode = 4 := by decide +kernel

/-! ## Rings, Bells and the queues of a Hand -/

/-- HandTakesRingSlots: ring 0 offers slot 0 and ring 1 has slot 0 free. -/
theorem test_HandTakesRingSlots :
    (let s := at_ (word 0x50 3 1 0 0) id
     s.jobAt (handSlot h0) = some (1, job) ∧ (s.hamlet m0).power = .active ∧ (s.ring r0).waiters = [] ∧ (s.ring r0).grants = [] ∧
       (s.ring r0).enable = true ∧ (s.hamlet m0).ringsOverlap 0 = false ∧ s.handOp h0 = some (.rget 1 3) ∧ s.refKind job (refOf ((s.hand h0).s 1)) = .job r0 ∧
       (s.hand h0).claims.length < 4 ∧ (s.ring r0).bind = none ∧ (s.ring r0).slot (s.ring r0).claim = .published) ∧
    (at_ (word 0x50 3 1 0 1) id).handOp h0 = some (.rgetx 1 3) ∧
    (let s := at_ (word 0x50 3 1 0 3) fun x => x.setS 1 1
     s.handOp h0 = some (.rrsv 1 3) ∧ s.refKind job (refOf ((s.hand h0).s 1)) = .job r1 ∧ (s.ring r1).enable = true ∧ (s.hamlet m0).ringsOverlap 1 = false ∧
       (s.ring r1).waiters = [] ∧ (s.ring r1).grants = [] ∧ s.receiving r1 = false ∧ (s.ring r1).slot (s.ring r1).rsv = .free) := by
  decide +kernel

/-- RGET answers the household address of the payload of slot 0 (R146). -/
theorem test_rget : ((after (.rget h0) (at_ (word 0x50 3 1 0 0) id)).hand h0).s 3 = 0xe00010001040 := by decide +kernel

/-- Hand 0 holds slot 0 of both rings. -/
def holds (w : Word32) (f : Hand → Hand) : State :=
  at_ w fun x => f ({ x with claims := [⟨r0, 0⟩], resvs := [⟨r1, 0⟩] }.setS 1 1)

/-- HandReleasesAndPublishes: a slot held and none held; a header of FMT 13 with LEN at the capacity of 448 bytes. -/
theorem test_HandReleasesAndPublishes :
    (let s := holds (word 0x50 0 0 0 2) id
     s.jobAt (handSlot h0) = some (1, job) ∧ s.handOp h0 = some (.rrel 0) ∧
       heldOn (s.hand h0).claims job (refOf ((s.hand h0).s 0)) = some ⟨r0, 0⟩ ∧ (s.ring r0).enable = true ∧
       (s.hamlet m0).power = .active ∧ (s.ring r0).origins.find 0 = none ∧
       heldOn (s.hand h0).claims job (refOf ((s.hand h0).s 1)) = none) ∧
    (let s := holds (word 0x50 0 1 2 4) fun x => x.setS 2 0x1c00000ff0d
     s.handOp h0 = some (.rpub 1 2) ∧ heldOn (s.hand h0).resvs job (refOf ((s.hand h0).s 0)) = none ∧
       heldOn (s.hand h0).resvs job (refOf ((s.hand h0).s 1)) = some ⟨r1, 0⟩ ∧ (s.ring r1).enable = true ∧ s.mem.wf = true ∧
       s.fenced (sramAddr m0 ((s.ring r1).slotOff 0)) = false ∧ s.fenced (sramAddr m0 ((s.ring r1).slotOff 0) + 16) = false ∧
       (s.ring r1).slotOff 0 + 64 ≤ padBytes) := by decide +kernel

theorem test_HandReleasesAndPublishes_header :
    let s := holds (word 0x50 0 1 2 4) fun x => x.setS 2 0x1c00000ff0d
    (s.hand h0).s 2 &&& hdrReserved = 0 ∧ fieldOf ((s.hand h0).s 2) 0 4 < 14 ∧ fieldOf ((s.hand h0).s 2) 32 21 ≤ (s.ring r1).capacity ∧
      (s.ring r1).pub = 0 ∧ 0 + 1 < (s.ring r1).size ∧ (s.ring r1).slot 1 ≠ .ready ∧ ((after (.rpub h0) s).ring r1).pub = 1 := by decide +kernel

/-- HandReleasesAndPublishes: both rings disabled; RREL waits (R178). -/
theorem test_HandReleasesAndPublishes_disabled :
    (let s := (holds (word 0x50 0 0 0 2) id).modRing r0 fun x => { x with enable := false }
     s.jobAt (handSlot h0) = some (1, job) ∧ s.handOp h0 = some (.rrel 0) ∧ heldOn (s.hand h0).claims job (refOf ((s.hand h0).s 0)) = some ⟨r0, 0⟩ ∧
       (s.ring r0).enable = false ∧ ((after (.rrel h0) s).hand h0).wait = .disabled) ∧
    (let s := (holds (word 0x50 0 1 2 4) id).modRing r1 fun x => { x with enable := false }
     s.handOp h0 = some (.rpub 1 2) ∧ heldOn (s.hand h0).resvs job (refOf ((s.hand h0).s 1)) = some ⟨r1, 0⟩ ∧ (s.ring r1).enable = false) := by
  decide +kernel

/-- HandUsesExpanderBellsAndTally. -/
theorem test_HandUsesExpanderBellsAndTally :
    (let s := at_ (word 0x50 3 0 0 5) id
     s.jobAt (handSlot h0) = some (1, job) ∧ s.handOp h0 = some (.vrx 3) ∧ (s.hand h0).exp = none) ∧
    (let s := at_ (word 0x50 3 0 0 5) fun x => { x with exp := some ⟨⟨r0, 0⟩, [], [.data (List.replicate 65 1)], false⟩ }
     s.handOp h0 = some (.vrx 3) ∧ (s.hand h0).exp = some ⟨⟨r0, 0⟩, [], [.data (List.replicate 65 1)], false⟩) ∧
    (let s := at_ (word 0x50 3 0 0 5) fun x => { x with exp := some ⟨⟨r0, 0⟩, [], [.lost], true⟩ }
     s.handOp h0 = some (.vrx 3) ∧ (s.hand h0).exp = some ⟨⟨r0, 0⟩, [], [.lost], true⟩) ∧
    (let e : Expander := ⟨⟨r0, 0⟩, [], [.data [7]], false⟩
     let s := at_ (word 0x50 3 0 0 5) fun x => { x with exp := some e }
     s.handOp h0 = some (.vrx 3) ∧ (s.hand h0).exp = some e ∧ (Expander.take (s.imageFor 1) 34 [] e).1 = some [7] ∧
       ((after (.vrx h0) s).hand h0).v 3 = 7) ∧
    (let e : Expander := ⟨⟨r0, 0⟩, [], [.lost], false⟩
     let s := at_ (word 0x50 3 0 0 5) fun x => { x with exp := some e }
     s.handOp h0 = some (.vrx 3) ∧ (s.hand h0).exp = some e ∧ (Expander.take (s.imageFor 1) 34 [] e).1 = none ∧
       ((after (.vrx h0) s).hand h0).causeCode = 7) ∧
    (let s := at_ (word 0x51 0 1 2 0) fun x => x.setS 1 0x40
     s.handOp h0 = some (.badd 1 2) ∧ s.refKind job (refOf ((s.hand h0).s 1)) = .job ⟨0, 1, 0⟩) ∧
    (let s := at_ (word 0x51 3 1 0 2) id
     s.handOp h0 = some (.bread 1 3) ∧ job.ringOf (refOf ((s.hand h0).s 1)) = some r0 ∧ (s.hamlet m0).power = .active) ∧
    (let s := at_ (word 0x51 0 1 2 1) id
     s.handOp h0 = some (.bwait 1 2) ∧ job.ringOf (refOf ((s.hand h0).s 1)) = some r0 ∧ ringSlot r0 = handSlot h0 ∧
       (s.bell m0 0 - ((s.hand h0).s 2).setWidth 32).toNat < 2 ^ 31) ∧
    (let s := at_ (word 0x51 0 1 2 1) fun x => x.setS 2 0x80000000
     2 ^ 31 ≤ (s.bell m0 0 - ((s.hand h0).s 2).setWidth 32).toNat ∧ s.handOp h0 = some (.bwait 1 2)) ∧
    (let s := at_ (word 0x55 0 1 2 0) id
     s.handOp h0 = some (.tfeed 1 2) ∧ (s.tally (tallyFor h0 ((s.hand h0).s 2))).snoopQ = [] ∧
       (s.tally (tallyFor h0 ((s.hand h0).s 2))).wild = false) := by decide +kernel

/-- InstructionBufferLoad: a count that is no multiple of 64, a copy past either end, and one that fills the buffer. -/
theorem test_InstructionBufferLoad :
    (let s := at_ (word 0x29 3 1 2 4) fun x => x.setS 3 0x20
     s.handOp h0 = some (.ibld 1 2 3) ∧ ibldOdd ((s.hand h0).s 1) ((s.hand h0).s 2) ((s.hand h0).s 3) = some 0x20) ∧
    (let s := at_ (word 0x29 3 1 2 4) fun x => (x.setS 1 0x600000).setS 3 0x40
     ibldOdd ((s.hand h0).s 1) ((s.hand h0).s 2) ((s.hand h0).s 3) = none ∧ padBytes < ((s.hand h0).s 1).toNat + ((s.hand h0).s 3).toNat) ∧
    (let s := at_ (word 0x29 3 1 2 4) fun x => (x.setS 2 0x8000).setS 3 0x40
     ((s.hand h0).s 1).toNat + ((s.hand h0).s 3).toNat ≤ padBytes ∧ 0x8000 < ((s.hand h0).s 2).toNat + ((s.hand h0).s 3).toNat ∧
       ibldOdd ((s.hand h0).s 1) ((s.hand h0).s 2) ((s.hand h0).s 3) = none) ∧
    (let s := at_ (word 0x29 3 1 2 4) fun x => (x.setS 2 0x7fc0).setS 3 0x40
     ibldOdd ((s.hand h0).s 1) ((s.hand h0).s 2) ((s.hand h0).s 3) = none ∧ ((s.hand h0).s 2).toNat + ((s.hand h0).s 3).toNat ≤ 0x8000 ∧
       s.firstPoison (sramAddr m0 0 + ((s.hand h0).s 1).toNat) ((s.hand h0).s 3).toNat = none ∧
       s.fenced (sramAddr m0 ((s.hand h0).s 1).toNat) = false ∧
       s.rawSlots (s.heldBy h0) false (sramAddr m0 ((s.hand h0).s 1).toNat) ((s.hand h0).s 3).toNat = []) ∧
    (let s := { at_ (word 0x29 3 1 2 4) fun x => (x.setS 2 0x7fc0).setS 3 0x40 with sramPoison := [(sramAddr m0 0 + 8) / 8] }
     ibldOdd ((s.hand h0).s 1) ((s.hand h0).s 2) ((s.hand h0).s 3) = none ∧ ((s.hand h0).s 2).toNat + ((s.hand h0).s 3).toNat ≤ 0x8000 ∧
       s.firstPoison (sramAddr m0 0 + ((s.hand h0).s 1).toNat) ((s.hand h0).s 3).toNat = some ((sramAddr m0 0 + 8) / 8) ∧
       s.fenced (sramAddr m0 ((s.hand h0).s 1).toNat) = false ∧
       s.rawSlots (s.heldBy h0) false (sramAddr m0 ((s.hand h0).s 1).toNat) 8 = []) := by decide +kernel

/-- A Porter queue of 8 descriptors. -/
def eight : List PorterDesc := List.replicate 8 ⟨0, none, false⟩

/-- HandPushesDescriptors. -/
theorem test_HandPushesDescriptors :
    (let s := at_ (word 0x53 0 1 2 0) id
     (s.pushReady h0).handOp h0 = some (.pissue 1 2) ∧ s.porterFor h0 (fieldOf ((s.hand h0).s 2) 0 3) = some (.hamlet 0 0 0) ∧
       (s.porter (.hamlet 0 0 0)).queue.length < 8) ∧
    (let s := (at_ (word 0x53 0 1 2 0) id).modPorter (.hamlet 0 0 0) fun x => { x with queue := eight }
     (s.pushReady h0).handOp h0 = some (.pissue 1 2) ∧ 8 ≤ (s.porter (.hamlet 0 0 0)).queue.length ∧ (s.hand h0).pushing = false) ∧
    (let s := (at_ (word 0x53 0 1 2 0) fun x => { x with wait := .porter (.hamlet 0 0 0) }).modPorter (.hamlet 0 0 0) fun x => { x with queue := eight }
     (s.pushReady h0).handOp h0 = some (.pissue 1 2) ∧ (s.hand h0).pushing = true) ∧
    (let s := at_ (word 0x53 0 1 2 0) fun x => x.setS 2 3
     (s.pushReady h0).handOp h0 = some (.pissue 1 2) ∧ s.porterFor h0 (fieldOf ((s.hand h0).s 2) 0 3) = none ∧
       pcValid ((s.hand h0).pc + 4) = true ∧ s.jobAt (handSlot h0) = some (1, job) ∧ ∀ m ∈ job.slots, slotKey m.die m.slot ≠ 2) ∧
    (let s := at_ (word 0x54 0 1 2 0) id
     (s.pushReady h0).handOp h0 = some (.mpush 1 2) ∧ (s.mill u0).pendMode = none ∧ (s.mill u0).ringMode = false ∧
       (s.mill u0).queue.length < 8 ∧ s.pushBehind u0 h0 = false ∧ u0 = ⟨h0.die, h0.slot, fieldOf ((s.hand h0).s 2) 0 2⟩) ∧
    (let s := (at_ (word 0x54 0 1 2 0) id).modMill u0 fun x => { x with ringMode := true }
     (s.pushReady h0).handOp h0 = some (.mpush 1 2) ∧ (s.mill u0).ringMode = true ∧ (s.mill u0).pendMode = none) ∧
    (let s := (at_ (word 0x54 0 1 2 0) id).modMill u0 fun x => { x with queue := List.replicate 8 0 }
     (s.pushReady h0).handOp h0 = some (.mpush 1 2) ∧ 8 ≤ (s.mill u0).queue.length ∧ (s.hand h0).pushing = false) ∧
    (let s := (at_ (word 0x54 0 1 2 0) fun x => { x with wait := .mill u0 }).modMill u0 fun x => { x with queue := List.replicate 8 0 }
     (s.pushReady h0).handOp h0 = some (.mpush 1 2) ∧ 8 ≤ (s.mill u0).queue.length ∧ (s.hand h0).pushing = true) := by decide +kernel

/-- PISSUE appends to the queue of Porter 0. -/
theorem test_pissue : ((after (.pissue h0) (at_ (word 0x53 0 1 2 0) id)).porter (.hamlet 0 0 0)).queue = [⟨0, some h0, false⟩] := by decide +kernel

/-- A slot without a job, in which Hand 0 waits. -/
def waiting (f : Hand → Hand) : State := { withHand (f (runner 0)) with jobs := {}, mclk := 0x100000 }

/-- WaitsEndAndEventsAreTaken: each wait, at the limit of 2^20 cycles. -/
theorem test_WaitsEndAndEventsAreTaken :
    (let s := waiting fun x => { x with evEn := true, evPend := 1, evMask := 1, evec := 0x200 }
     (s.hamlet m0).power = .active ∧ (s.hand h0).mode = .running ∧ (s.hand h0).wait = .none ∧ (s.hand h0).eventDue = true ∧
       ((after (.eventTake h0) s).hand h0).pc = 0x200) ∧
    (let s := waiting fun x => { x with wait := .sleep, evEn := true, evPend := 1, evMask := 1 }
     (s.hand h0).wait = .sleep ∧ (s.hand h0).eventEnabled = true ∧ (s.hand h0).eventDue = true) ∧
    (let s := waiting fun x => { x with wait := .sleep, evPend := 1, evMask := 1 }
     (s.hand h0).eventEnabled = true ∧ (s.hand h0).eventDue = false) ∧
    ((waiting fun x => { x with wait := .bell 0 0 true }).hand h0).wait = .bell 0 0 true ∧
    (let s := waiting fun x => { x with wait := .mill u0 }
     (s.hand h0).pushing = true ∧ (s.hand h0).stalled = false ∧ (s.hamlet m0).limit ≤ s.mclk - (s.hand h0).waitFrom) ∧
    (let s := waiting fun x => { x with wait := .bell 0 0 false }
     (s.hand h0).wait = .bell 0 0 false ∧ (s.hand h0).stalled = false ∧ (s.hamlet m0).limit ≤ s.mclk - (s.hand h0).waitFrom) ∧
    ((waiting id).hand h0).mode = .running := by decide +kernel

/-- Porter 0 waits at ring 0 to claim and at ring 1 to reserve; a parish engine waits at ring 1 too. -/
def queued : State :=
  (base.modRing r0 fun x => { x with waiters := [⟨.porter (.hamlet 0 0 0), true, false, 0, false, false⟩] }).modRing r1 fun x =>
    { x with waiters := [⟨.porter (.hamlet 0 0 0), false, false, 0, false, false⟩] }

/-- RingsGrantStallAndConfigure. -/
theorem test_RingsGrantStallAndConfigure :
    queued.nextGrant r0 = some ⟨.porter (.hamlet 0 0 0), true, false, 0, false, false⟩ ∧
    ((queued.ring r0).claimSlot).isSome = true ∧ queued.nextGrant r1 = some ⟨.porter (.hamlet 0 0 0), false, false, 0, false, false⟩ ∧
    ((queued.ring r1).reserve).isSome = true ∧
    (let s := { queued with jobs := {}, mclk := 0x100000 }
     (s.ring r0).waiters[0]? = some ⟨.porter (.hamlet 0 0 0), true, false, 0, false, false⟩ ∧
       s.countedWait ⟨.porter (.hamlet 0 0 0), true, false, 0, false, false⟩ = true ∧ (s.hamlet m0).limit ≤ s.mclk - 0) ∧
    (base.ring ⟨0, 0, 2⟩).enable = false ∧ cfgValid 0x40002000001 = true ∧ (0x40002000001#64).getLsbD 0 = true ∧
    (base.ring r0).enable = true ∧ (0x40002000001#64) &&& ~~~1#64 ≠ (base.ring r0).cfgWord &&& ~~~1#64 := by decide +kernel

/-- RingsGrantStallAndConfigure: Hand 0 waits at ring 0 in RGET; the grant claims slot 0 for it, and its stall sets its RING_STALL bit. -/
theorem test_RingsGrantStallAndConfigure_hand :
    (let w : Waiter := ⟨.hand h0, true, false, 0, false, false⟩
     let s := (at_ (word 0x50 3 1 0 0) fun x => { x with wait := .claim r0 false }).modRing r0 fun x => { x with waiters := [w] }
     s.nextGrant r0 = some w ∧ s.jobAt m0 = some (1, job) ∧ (s.ring r0).waiters[0]? = some w ∧ w.stalled = false ∧ s.countedWait w = true ∧ ((s.ring r0).claimSlot).isSome = true ∧ s.stallHand w = some h0 ∧
       ((after (.ringWaitEnd r0) s).hand h0).s 3 = 0xe00010001040 ∧ ((after (.ringWaitEnd r0) s).hand h0).claims = [⟨r0, 0⟩]) := by
  decide +kernel

/-- Two adds of Hand 0 to counter 5 of slot 1 are on their way. -/
def ringing : State := { base with jobs := {}, bellFlight := [⟨.hand h0, (m1, 5), 3⟩, ⟨.hand h0, (m1, 5), 4⟩] }

/-- BellAddsReachTheirCounter: the second add waits for the first; behind a fence an add is dropped. -/
theorem test_BellAddsReachTheirCounter :
    ringing.bellFlight[1]? = some ⟨.hand h0, (m1, 5), 4⟩ ∧ ringing.bellBlocked 1 ⟨.hand h0, (m1, 5), 4⟩ = true ∧
    ringing.bellFlight[0]? = some ⟨.hand h0, (m1, 5), 3⟩ ∧ ringing.bellBlocked 0 ⟨.hand h0, (m1, 5), 3⟩ = false ∧
    (ringing.hamlet m1).fence = .lowered ∧ (ringing.hamlet m1).power = .active ∧
    (base.jobAt m1).map (fun j => j.2.bellBind m1 5) = some none ∧
    ((ringing.modHamlet m1 fun x => { x with fence := .raised }).hamlet m1).fence ≠ .lowered ∧
    (after (.bellAddApply 0) ringing).bell m1 5 = 3 := by decide +kernel

/-! ## Mills -/

/-- A descriptor from the low bit and value of its fields. -/
def desc (l : List (Nat × Nat)) : Vec := BitVec.ofNat 512 (l.foldl (fun a f => a + f.2 * 2 ^ f.1) 0)
/-- Header DW0 of a slot with FMT, BIAS and LEN. -/
def head (fmt bias len : Nat) : List Byte := toBytes 8 (fmt + bias * 2 ^ 8 + len * 2 ^ 32)
/-- Mill 0 of slot 0 is `x`, and the slot at offset 0x1000 of ring 0 has a header. -/
def millAt (x : Mill) (h : List Byte) : State := { base.setMill u0 x with mem := Memory.writeBytes tableBytes (sramAddr m0 0x1000) h }

/-- MillDescriptorsEnterTheQueue: the eighth place of the queue and a full queue, each mode, each TYPE. -/
theorem test_MillDescriptorsEnterTheQueue :
    (let s := millAt { queue := List.replicate 7 0 } []
     (s.mill u0).pendMode = none ∧ (s.mill u0).ringMode = false ∧ (s.mill u0).queue.length < 8 ∧ (s.mill u0).winBy = [] ∧
       ((after (.millDescWinPush u0 0) s).mill u0).queue.length = 8) ∧
    (let s := millAt { queue := List.replicate 8 0 } []
     8 ≤ (s.mill u0).queue.length ∧ ((after (.millDescWinPush u0 0) s).mill u0).qstatus.dropped = true) ∧
    (0x101#64) &&& qctrlReserved = 0 ∧
    (let s := millAt { pendMode := some (true, 1) } []
     (s.mill u0).pendMode = some (true, 1) ∧ s.queueEmpty u0 = true ∧ s.descRing u0 = none) ∧
    (let s := (millAt { ringMode := true, pendMode := some (false, 1) } []).modRing r0 fun x => { x with waiters := [⟨.mill u0 3, true, false, 0, false, false⟩] }
     (s.mill u0).pendMode = some (false, 1) ∧ s.queueEmpty u0 = true ∧ s.descRing u0 = some r0 ∧
       ((after (.modeChangeApply u0) s).ring r0).waiters = []) ∧
    (let s := millAt { pendMode := some (true, 1), queue := [0] } []
     (s.mill u0).pendMode = some (true, 1) ∧ s.queueEmpty u0 = false) ∧
    (let s := millAt { ringMode := true } (head 0 0 448)
     (s.mill u0).pendMode = none ∧ (s.mill u0).ringMode = true ∧ (s.mill u0).dslot = none ∧ (s.mill u0).qstatus.foreign = false ∧
       s.ringAt (millSlot u0) ((s.mill u0).dring.toNat % 8192) = .job r0 ∧ (s.slotIn r0 0).poison = false ∧
       (s.slotIn r0 0).bytes.length = 448 ∧ (s.mill u0).queue.length + (descsOf (s.slotIn r0 0).bytes).length ≤ 8) ∧
    (millAt { queue := [desc [(0, 1)]] } []).nextDesc u0 = some (desc [(0, 1)]) ∧ descType (desc [(0, 1)]) = 0x01 ∧
    (millAt { queue := [desc [(0, 4)]] } []).nextDesc u0 = some (desc [(0, 4)]) ∧ descType (desc [(0, 4)]) = 0x04 ∧
    (millAt { queue := [desc [(0, 9)]] } []).nextDesc u0 = some (desc [(0, 9)]) ∧ descType (desc [(0, 9)]) = 0x09 ∧
    (millAt { queue := [desc [(0, 5)]] } []).nextDesc u0 = some (desc [(0, 5)]) ∧ millTypeValid (descType (desc [(0, 5)])) = false := by
  decide +kernel

/-- Whether rings overlap is a matter of the rings alone (R168). -/
theorem overlap_rings (a b : Hamlet) (k : Nat) (h : a.rings = b.rings) : a.ringsOverlap k = b.ringsOverlap k := by
  simp only [Hamlet.ringsOverlap, h]
theorem ham_rings : ham.ringsOverlap 0 = false ∧ ham.ringsOverlap 1 = false := by decide +kernel

/-- Ring 0 of the small package offers its slot 0, and ring 1 accepts its slot 0. -/
theorem offers_base (x : Mill) (h : List Byte) : (millAt x h).offers r0 0 ∧ (millAt x h).accepts r1 0 := by
  unfold State.offers State.accepts
  simp only [millAt]
  exact ⟨⟨rfl, rfl, rfl, rfl, rfl, rfl, (overlap_rings _ ham 0 rfl).trans ham_rings.1, rfl, rfl⟩, rfl, rfl, rfl, rfl, rfl,
    (overlap_rings _ ham 1 rfl).trans ham_rings.2, rfl, rfl, rfl, (by decide : 0 + 1 < 4), (by decide : SlotState.free ≠ .ready)⟩

/-- A FENCE that waits for the load unit and adds 1 to counter 0. -/
def fence0 : Vec := desc [(0, 0x10), (8, 1), (12, 1), (32, 9), (176, 1)]

/-- MillFencesTagsDrainsAndRecovers. -/
theorem test_MillFencesTagsDrainsAndRecovers :
    (let s := millAt { queue := [fence0], loadQ := [⟨0, 0, 0⟩] } []
     s.nextDesc u0 = some fence0 ∧ descType fence0 = 0x10 ∧ fenceValid fence0 = true ∧ (s.mill u0).fenceMet fence0 = false) ∧
    (let s := millAt { queue := [fence0] } []
     (s.mill u0).fenceMet fence0 = true ∧ s.jobAt (millSlot u0) = some (1, job) ∧ s.refKind job (fieldOf fence0 160 13) = .job r0 ∧
       ((after (.fence u0) s).mill u0).fenceToken = 9) ∧
    (let d := desc [(0, 0x11), (32, 7)]
     (millAt { queue := [d] } []).nextDesc u0 = some d ∧ descType d = 0x11 ∧ zeroFields d [(8, 24), (64, 448)] = true) ∧
    (let s := millAt { compQ := [⟨0, desc [(0, 4)], 0⟩], cls := .integer } []
     (s.mill u0).compRun = none ∧ (s.mill u0).compQ = [⟨0, desc [(0, 4)], 0⟩] ∧ (s.mill u0).cls ≠ .none ∧ (s.mill u0).cls ≠ classOf (desc [(0, 4)])) ∧
    ((millAt { compQ := [⟨0, desc [(0, 4)], 0⟩] } []).mill u0).cls = .none ∧ (0x4#64) &&& qstatusReserved = 0 := by decide +kernel

/-- A LOAD_W of an LNS8 tile with BIAS 3 into set 1. -/
def loadDesc : Vec := desc [(0, 1), (8, 1), (9, 3), (16, 3)]
/-- Ring 0 with one slot of 8,192 payload bytes. -/
def loads (x : Mill) : State :=
  ((millAt x (head 2 0 8192)).modRing r1 fun y => { y with base := 0x100 }).modRing r0 fun y => { y with stride := 129, count := 1, pub := 0, rsv := 0 }

/-- MillLoadsWeightSets: a load that begins and one that goes on. -/
theorem test_MillLoadsWeightSets :
    (let s := loads { loadQ := [⟨0, loadDesc, 0⟩] }
     (s.hamlet (millSlot u0)).power = .active ∧ (s.mill u0).loadRun = none ∧ (s.mill u0).loadQ = [⟨0, loadDesc, 0⟩] ∧
       (s.mill u0).loadFree ⟨0, loadDesc, 0⟩ = true ∧ loadValid loadDesc = true ∧ s.ringAt (millSlot u0) (fieldOf loadDesc 64 13) = .job r0 ∧
       anyPoison [s.slotIn r0 0] = false ∧ (s.slotIn r0 0).bytes.length = 8192) ∧
    loadKind loadDesc = 3 ∧ loadEnd 3 (List.replicate 8192 0) = some 8192 ∧ loadEnd 3 [] = none ∧
    ((loads { loadRun := some ⟨⟨0, loadDesc, 0⟩, []⟩ }).mill u0).loadRun = some ⟨⟨0, loadDesc, 0⟩, []⟩ := by decide +kernel

/-- MillLoadsWeightSets: a poisoned slot, and a ring of a hamlet that the job has not (R82, R174). -/
def loadAway : Vec := desc [(0, 1), (8, 1), (9, 3), (16, 3), (64, 320)]
theorem test_MillLoadsWeightSets_reports :
    (let s := { loads { loadQ := [⟨0, loadDesc, 0⟩] } with sramPoison := [(sramAddr m0 0x1040) / 8] }
     anyPoison [s.slotIn r0 0] = true ∧ (s.slotIn r0 0).bytes.length = 8192) ∧
    (let s := loads { loadQ := [⟨0, loadAway, 0⟩] }
     (s.mill u0).loadRun = none ∧ (s.mill u0).loadFree ⟨0, loadAway, 0⟩ = true ∧ loadValid loadAway = true ∧
       s.ringAt (millSlot u0) (fieldOf loadAway 64 13) = .foreign ∧
       (let t := after (.loadW u0) s
        (t.mill u0).firstErr.cause = causeOperand ∧ (t.mill u0).sticky.expErr = true ∧ (t.hand h0).evPend = 1 ∧ (t.hamlet m0).err.foreign = true)) := by
  decide +kernel

/-- One TRIT_MM row and one BIN_MM row over set 0. -/
def tritDesc : Vec := desc [(0, 2), (106, 1)]
def binDesc : Vec := desc [(0, 3), (16, 2048), (96, 1022), (106, 1)]
def zeroCols : List (List Trit) := List.replicate 128 (List.replicate 256 .zero)
def setOf (t : Tile) : Tab WeightSet := ⟨[(0, { tile := t })]⟩

/-- MillIntegerSums: INT8 activations from one slot of 256 bytes, and a binary row whose lines are the last. -/
theorem test_MillIntegerSums :
    (let s := millAt { sets := setOf (.trit zeroCols []), compQ := [⟨0, tritDesc, 0⟩] } (head 2 0 256)
     let x := s.slotIn r0 0
     (s.mill u0).compRun = none ∧ (s.mill u0).computeFree ⟨0, tritDesc, 0⟩ = true ∧ (s.mill u0).needsDrain tritDesc = false ∧
       computeValid tritDesc = true ∧ s.ringAt (millSlot u0) (fieldOf tritDesc 64 13) = .job r0 ∧ x.poison = false ∧
       ((actRows tritDesc [x]).map fun a => tritSums zeroCols (tritDesc.getLsbD 9) a.1) = [List.replicate 128 0] ∧
       descRows tritDesc = 1 ∧ 64 * linesPerRow tritDesc = 128 ∧ (s.mill u0).tileOk tritDesc .int32 [x] = true) ∧
    (let s := millAt { compQ := [⟨0, binDesc, 0⟩] } (head 0 0 256)
     let x := s.slotIn r0 0
     (s.mill u0).computeFree ⟨0, binDesc, 0⟩ = true ∧ computeValid binDesc = true ∧ x.poison = false ∧
       ((chunks 256 x.bytes).map fun a => (binSums (List.replicate 128 []) (fieldOf binDesc 16 12) a).length) = [128] ∧
       (s.mill u0).tileOk binDesc .bin [x] = true) := by decide +kernel

/-- A TRIT_MM row from a ring that the job has not. -/
def tritAway : Vec := desc [(0, 2), (64, 320), (106, 1)]

/-- MillIntegerSums: one sum that the second run mends and one that it does not, a poisoned slot and a refused ring (R82, R96). -/
theorem test_MillIntegerSums_reports :
    recomputed [⟨0, 5, 1, 0⟩] [false] 1 128 = ([0], []) ∧ recomputed [⟨0, 5, 1, 1⟩] [false] 1 128 = ([], [0]) ∧
    (let s := millAt { sets := setOf (.trit zeroCols []), compQ := [⟨0, tritDesc, 0⟩] } (toBytes 8 (2 + 2 ^ 16 + 256 * 2 ^ 32))
     (s.slotIn r0 0).poison = true ∧ rowsReady tritDesc [s.slotIn r0 0] = true) ∧
    (let s := millAt { sets := setOf (.trit zeroCols []), compQ := [⟨0, tritAway, 0⟩] } []
     (s.mill u0).computeFree ⟨0, tritAway, 0⟩ = true ∧ computeValid tritAway = true ∧ (s.mill u0).needsDrain tritAway = false ∧
       s.ringAt (millSlot u0) (fieldOf tritAway 64 13) = .foreign) := by decide +kernel

theorem test_residue_fail :
    let t := after (.tritMm u0 [⟨0, 5, 1, 1⟩]) (millAt { sets := setOf (.trit zeroCols []), compQ := [⟨0, tritDesc, 0⟩] } (head 2 0 256))
    (t.mill u0).retirePending = true ∧ (t.mill u0).firstErr.cause = causeResidue ∧ ((t.mill u0).line 0).poison = true ∧ t.logNext = 2 := by
  decide +kernel

/-- One LOG_MM row. -/
def logDesc : Vec := desc [(0, 4), (96, 1023), (106, 1)]

/-- MillLogSums: the last line. -/
theorem test_MillLogSums :
    let s := millAt { sets := setOf (.lns [] 2), compQ := [⟨0, logDesc, 0⟩] } (head 2 0 64)
    let x := s.slotIn r0 0
    (s.hamlet (millSlot u0)).power = .active ∧ (s.mill u0).compRun = none ∧ (s.mill u0).compQ = [⟨0, logDesc, 0⟩] ∧
      (s.mill u0).computeFree ⟨0, logDesc, 0⟩ = true ∧ (s.mill u0).needsDrain logDesc = false ∧ computeValid logDesc = true ∧
      descType logDesc = 0x04 ∧ s.jobAt (millSlot u0) = some (1, job) ∧ s.ringAt (millSlot u0) (fieldOf logDesc 64 13) = .job r0 ∧
      x.poison = false ∧ ((s.mill u0).sets.get {} (fieldOf logDesc 8 1)).tile = .lns [] 2 ∧ (s.mill u0).tileOk logDesc .lns16 [x] = true ∧
      rowsReady logDesc [x] = true ∧ (logRows logDesc [x]).length = descRows logDesc := by decide +kernel

/-- A FINISH to INT32 of one row into ring 1 without scale rings, and a RANGE. -/
def finDesc : Vec := desc [(0, 8), (11, 1), (13, 4), (32, 5), (80, 1), (106, 1)]
def rangeDesc : Vec := desc [(0, 9), (80, 1), (96, 1022), (106, 1)]
/-- Two lines of 64 zeros with matching residues. -/
def line0 : AccLine := { tag := .int32, elems := List.replicate 64 {} }
def finMill (d : Vec) : Mill := { acc := ⟨[(0, line0), (1, line0), (1022, line0), (1023, line0)]⟩, finQ := [⟨0, d, 3⟩] }

/-- MillFinishesAndRanges. -/
theorem test_MillFinishesAndRanges :
    (let s := (millAt (finMill finDesc) []).modRing r1 fun y => { y with stride := 9 }
     (s.hamlet (millSlot u0)).power = .active ∧ s.mem.wf = true ∧ (s.mill u0).finRun = none ∧ (s.mill u0).finQ = [⟨0, finDesc, 3⟩] ∧
       (s.mill u0).finishFree ⟨0, finDesc, 3⟩ = true ∧ s.jobAt (millSlot u0) = some (1, job) ∧
       s.ringAt (millSlot u0) (fieldOf finDesc 80 13) = .job r1 ∧ (s.ring r1).slotOff 0 + 64 + (s.ring r1).capacity ≤ padBytes ∧
       descType finDesc = 0x08 ∧ finishValid finDesc = true ∧ saRing finDesc = false ∧ srRing finDesc = false ∧
       residueRow ((s.mill u0).readTile finDesc) = none) ∧
    (let s := (millAt (finMill finDesc) []).modRing r1 fun y => { y with stride := 9 }
     let tile := (s.mill u0).readTile finDesc
     let sl := finScales (s.mill u0) finDesc tile.tag tile.wide none false (s.freeCtr + 2 * 65536 + 1)
     constRsvd finDesc tile.tag = false ∧ finishDefined finDesc tile sl = true ∧ scalesReserved finDesc tile.tag sl = false ∧
       (s.finishTile job.seed finDesc tile sl (s.ring r1).capacity).payload.length ≤ (s.ring r1).capacity) ∧
    (let s := millAt (finMill rangeDesc) []
     descType rangeDesc = 0x09 ∧ rangeValid rangeDesc = true ∧ ((s.mill u0).readTile rangeDesc).ok = true ∧ 32 ≤ (s.ring r1).capacity ∧
       ((s.mill u0).line (descBase rangeDesc)).tag ≠ .empty ∧ s.ringAt (millSlot u0) (fieldOf rangeDesc 80 13) = .job r1) := by decide +kernel

/-- A FINISH to BF16 with SA from ring 0, one whose constant SA is reserved, and a FINISH and a RANGE to a ring that the job has not. -/
def scaleDesc : Vec := desc [(0, 8), (11, 1), (13, 2), (24, 1), (80, 1), (106, 1), (176, 0x3f8), (192, 0x3f8)]
def rsvdDesc : Vec := desc [(0, 8), (11, 1), (13, 2), (80, 1), (106, 1), (160, 0x7ff), (176, 0x3f8), (192, 0x3f8)]
def finAway : Vec := desc [(0, 8), (11, 1), (13, 4), (80, 321), (106, 1)]
def rangeAway : Vec := desc [(0, 9), (80, 321), (96, 1022), (106, 1)]

/-- MillFinishesAndRanges: a scale slot, sound and poisoned; a reserved scale; a stored element of another residue; a refused ring (R82, R96). -/
theorem test_MillFinishesAndRanges_reports :
    (let s := millAt (finMill scaleDesc) (head 7 0 4 ++ List.replicate 56 0 ++ [0xf8, 3])
     let tile := (s.mill u0).readTile scaleDesc
     (saRing scaleDesc = true ∨ srRing scaleDesc = true) ∧ finishValid scaleDesc = true ∧ constRsvd scaleDesc tile.tag = false ∧
       s.ringAt (millSlot u0) (fieldOf scaleDesc 64 13) = .job r0 ∧ s.ringAt (millSlot u0) (fieldOf scaleDesc 80 13) = .job r1 ∧ r0.idx ≠ r1.idx ∧
       (s.slotIn r0 0).poison = false ∧ (State.freePoison [s.slotIn r0 0] s).1.head?.isSome = true ∧
       finishDefined scaleDesc tile
         (finScales (s.mill u0) scaleDesc tile.tag tile.wide (State.freePoison [s.slotIn r0 0] s).1.head? false (s.freeCtr + 2 * 65536 + 1)) = true) ∧
    (let s := millAt (finMill scaleDesc) (toBytes 8 (7 + 2 ^ 16 + 4 * 2 ^ 32))
     (s.slotIn r0 0).poison = true) ∧
    (let s := millAt (finMill rsvdDesc) []
     let tile := (s.mill u0).readTile rsvdDesc
     finishValid rsvdDesc = true ∧ constRsvd rsvdDesc tile.tag = false ∧
       scalesReserved rsvdDesc tile.tag (finScales (s.mill u0) rsvdDesc tile.tag tile.wide none false (s.freeCtr + 2 * 65536 + 1)) = true ∧
       reservedRow rsvdDesc tile.tag (finScales (s.mill u0) rsvdDesc tile.tag tile.wide none false (s.freeCtr + 2 * 65536 + 1)) = 0) ∧
    (let x : Mill := { finMill finDesc with acc := ⟨[(0, { line0 with elems := List.replicate 64 { res := 1 } }), (1, line0)]⟩ }
     residueRow ((millAt x []).mill u0 |>.readTile finDesc) = some 0) ∧
    (let s := millAt (finMill finAway) []
     let tile := (s.mill u0).readTile finAway
     finishValid finAway = true ∧ tile.ok = true ∧ residueRow tile = none ∧ constRsvd finAway tile.tag = false ∧
       s.ringAt (millSlot u0) (fieldOf finAway 80 13) = .foreign ∧ (s.mill u0).finishFree ⟨0, finAway, 3⟩ = true ∧
       ((after (.finish u0 []) s).mill u0).firstErr.cause = causeOperand) ∧
    (let s := millAt (finMill rangeAway) []
     let tile := (s.mill u0).readTile rangeAway
     rangeValid rangeAway = true ∧ tile.ok = true ∧ residueRow tile = none ∧ s.ringAt (millSlot u0) (fieldOf rangeAway 80 13) = .foreign ∧
       ((after (.range u0) s).mill u0).sticky.expErr = true) := by decide +kernel

/-! ## Porters -/

def p0 : PorterRef := .hamlet 0 0 0
/-- Porter 0 of slot 0 has a descriptor from Hand 0 as its only one; the word at 0x40 of page 0 is 1. -/
def porterAt (d : Vec) : State :=
  { base.setPorter p0 { queue := [⟨d, some h0, false⟩] } with mem := Memory.writeBytes tableBytes (page0 + 0x40) [1, 0, 0, 0] }
/-- One row of 2,048 bytes from 0x800 to 0x1000. -/
def copyDesc : Vec := desc [(0, 1), (64, 0x800), (128, 0x1000), (192, 2048), (216, 1)]
/-- Rows of 64 bytes through the index entry at 0x40. -/
def gatherDesc : Vec := desc [(0, 2), (64, 0x800), (128, 0x1000), (192, 64), (216, 1), (256, 0x40), (384, 0x40)]
def scatterDesc : Vec := desc [(0, 3), (64, 0x800), (128, 0x1000), (192, 64), (216, 1), (320, 0x40), (384, 0x40)]
def reduceDesc : Vec := desc [(0, 4), (64, 0x800), (128, 0x1000), (192, 64), (216, 1), (384, 3)]

/-- What the hypotheses of PorterMovesRowsOfMemory ask of a descriptor and its two rows. -/
def moves (d : Vec) (sea dea n : Nat) : Bool :=
  let s := porterAt d
  let a := s.porterActor p0 ⟨d, some h0, false⟩
  s.porterRuns p0 && s.mem.wf && decide (s.porter p0 = { queue := [⟨d, some h0, false⟩] }) && porterDescValid d && decide (rowLen d = n) && decide (n ≠ 0) &&
    decide (rowCount d = 1) && !srcRing d && !dstRing d && decide (s.resolve a false sea = some (.mem (page0 + sea) .plain)) &&
    decide (s.resolve a true dea = some (.mem (page0 + dea) .plain)) && decide (page0 + dea < sramBase) && decide (sea % 2048 + n ≤ 2048) &&
    decide (dea % 2048 + n ≤ 2048) && !s.poisonedAt (page0 + sea) n && decide (page0 + sea + n ≤ page0 + dea)

/-- PorterMovesRowsOfMemory. -/
theorem test_PorterMovesRowsOfMemory :
    moves copyDesc 0x800 0x1000 2048 = true ∧ srcEa copyDesc 0 = 0x800 ∧ dstEa copyDesc 0 = 0x1000 ∧
    moves gatherDesc 0x840 0x1000 64 = true ∧ srcEa gatherDesc 1 = 0x840 ∧
    moves scatterDesc 0x800 0x1040 64 = true ∧ dstEa scatterDesc 1 = 0x1040 ∧
    (let s := porterAt gatherDesc
     s.resolve (s.porterActor p0 ⟨gatherDesc, some h0, false⟩) false 0x40 = some (.mem (page0 + 0x40) .plain) ∧ s.poisonedAt (page0 + 0x40) 4 = false ∧
       ofBytes (s.mem.readBytes (page0 + 0x40) 4) = 1) ∧
    moves reduceDesc 0x800 0x1000 64 = true ∧ (porterAt reduceDesc).reduceDst 0x1000 64 false = true ∧ 64 % reduceSize (reduceOp reduceDesc) = 0 ∧
    (porterAt reduceDesc).poisonedAt (page0 + 0x1000) 64 = false := by decide +kernel

/-- The job of these tests runs no serving step (R404). -/
theorem test_Porter_kv (d : Vec) (write : Bool) (ea n : Nat) :
    (porterAt d).kvRespected ((porterAt d).porterActor p0 ⟨d, some h0, false⟩) write ea n :=
  kv_idle _ _ _ _ _ (by show ((base.jobs.find 1).map fun j => j.serving.active) ≠ some true; decide) rfl rfl

/-- COPY moves the word at 0x40 to 0x100. -/
theorem test_copy : ((after (.copy p0) (porterAt (desc [(0, 1), (64, 0x40), (128, 0x100), (192, 4), (216, 1)]))).mem.read (page0 + 0x100)) = 1 := by
  decide +kernel

/-- A COPY from ring 0 to memory and one from memory to ring 1, of 64 bytes. -/
def fromRing : Vec := desc [(0, 1), (12, 1), (128, 0x1000), (192, 64), (216, 1)]
def toRing : Vec := desc [(0, 1), (13, 1), (64, 0x800), (128, 1), (192, 64), (216, 1)]
def ringCopy (d : Vec) : State := { porterAt d with mem := Memory.writeBytes tableBytes (sramAddr m0 0x1000) (head 2 0 64) }

/-- PorterUsesRings. -/
theorem test_PorterUsesRings :
    (let s := ringCopy fromRing
     s.porterRuns p0 = true ∧ s.mem.wf = true ∧ porterDescValid fromRing = true ∧ rowLen fromRing = 64 ∧ rowCount fromRing = 1 ∧
       s.porterJob p0 ⟨fromRing, some h0, false⟩ = some (1, job) ∧ srcRing fromRing = true ∧ dstRing fromRing = false ∧
       job.ringOf (fieldOf fromRing 64 13) = some r0 ∧ (s.slotIn r0 0).poison = false ∧ (s.slotIn r0 0).bytes.length = 64 ∧
       s.resolve (s.porterActor p0 ⟨fromRing, some h0, false⟩) true (dstEa fromRing 0) = some (.mem (page0 + 0x1000) .plain)) ∧
    (let s := ringCopy toRing
     porterDescValid toRing = true ∧ srcRing toRing = false ∧ dstRing toRing = true ∧ job.ringOf (fieldOf toRing 128 13) = some r1 ∧
       (s.ring r1).slotOff 0 + 64 + (s.ring r1).capacity ≤ padBytes ∧ s.fenced (sramAddr m0 ((s.ring r1).slotOff 0) + 64) = false ∧
       64 ≤ (s.ring r1).capacity ∧ fieldOf toRing 16 4 < 14 ∧
       s.resolve (s.porterActor p0 ⟨toRing, some h0, false⟩) false (srcEa toRing 0) = some (.mem (page0 + 0x800) .plain) ∧
       s.poisonedAt (page0 + 0x800) 64 = false) := by decide +kernel

theorem offers_ringCopy (d : Vec) : (ringCopy d).offers r0 0 ∧ (ringCopy d).accepts r1 0 := by
  unfold State.offers State.accepts
  simp only [ringCopy, porterAt]
  exact ⟨⟨rfl, rfl, rfl, rfl, rfl, rfl, (overlap_rings _ ham 0 rfl).trans ham_rings.1, rfl, rfl⟩, rfl, rfl, rfl, rfl, rfl,
    (overlap_rings _ ham 1 rfl).trans ham_rings.2, rfl, rfl, rfl, (by decide : 0 + 1 < 4), (by decide : SlotState.free ≠ .ready)⟩

/-- PorterQueueCompletionAndErrors. -/
theorem test_PorterQueueCompletionAndErrors :
    (base.porter p0).queue.length < 8 ∧ (base.porter p0).winBy = [] ∧ 8 ≤ ((base.setPorter p0 { queue := eight }).porter p0).queue.length ∧
    (let s := base.setPorter p0 { run := some ⟨⟨desc [(14, 1), (464, 1)], some h0, false⟩, true⟩ }
     (s.porter p0).run = some ⟨⟨desc [(14, 1), (464, 1)], some h0, false⟩, true⟩ ∧ s.openReqs (porterDie p0) (writesFor p0) = false ∧
       s.jobAt (handSlot h0) = some (1, job) ∧ s.refKind job (fieldOf (desc [(14, 1), (464, 1)]) 448 13) = .job r0 ∧
       ((after (.porterComplete p0) s).porter p0).done = 1) ∧
    (0x1f#64) &&& porterReserved 0x088 = 0 ∧
    (let s := base.setPorter p0 { queue := [⟨desc [(0, 5)], none, false⟩] }
     s.porterRuns p0 = true ∧ (s.porter p0).queue = [⟨desc [(0, 5)], none, false⟩] ∧ (s.porter p0).errCause = 0 ∧ porterDescValid (desc [(0, 5)]) = false ∧
       ((after (.reduce p0) s).porter p0).halted = true) ∧
    (let d := desc [(0, 4), (13, 1), (192, 4), (216, 1)]
     porterDescValid d = true ∧ porterRowsValid d = true ∧ descType d = 4 ∧ dstRing d = true) := by decide +kernel

/-! ## Press engine and merge tree -/

def q0 : ParishRef := ⟨0, 0⟩
/-- Job 1 with both engines of parish 0; household 1 owns slot 3. -/
def pressJob : Job := { job with image := { dies := 1, places := [{ die := 0, hamlets := 3, hints := 0, granules := [], press := 1, merge := 1 }] } }
def pressAt (d : Vec) (f : Press → Press) (m : List Byte) : State :=
  { base with
    jobs := ⟨[(1, pressJob)]⟩, pressSlots := ⟨[(3, { owner := 1 })]⟩, mem := Memory.writeBytes tableBytes (page0 + 0x800) m
    parishes := ⟨[(0, { press := f { enable := true, cur := some { desc := d } }, merge := { enable := true, cur := some { desc := d } } })]⟩ }

/-- What `State.engineReady` and two clear pages ask, as a test. -/
def engineTest (e : ParishEngine) (d : Vec) (m : List Byte) (n k : Nat) : Bool :=
  let s := pressAt d id m
  decide (s.engineJob q0 e = some (1, pressJob)) && (s.engine q0 e).enable && decide ((s.engine q0 e).run = none) &&
    decide ((s.engine q0 e).cur = some { desc := d }) && decide (s.engineCheck pressJob e d = .ok) && !srcRing d && !dstRing d &&
    decide (s.resolve (actorOf 1 pressJob) false 0x800 = some (.mem (page0 + 0x800) .plain)) && decide (0x800 % 2048 + n ≤ 2048) && decide (0 < n) &&
    decide (s.resolve (actorOf 1 pressJob) true 0x1000 = some (.mem (page0 + 0x1000) .plain)) && decide (k ≤ 2048) && decide (0 < k) &&
    !s.poisonedAt (page0 + 0x800) n && s.mem.wf

def scanDesc : Vec := desc [(0, 1), (64, 0x800), (192, 1024)]
def buildDesc : Vec := desc [(0, 2), (16, 3)]
def loadtDesc : Vec := desc [(0, 5), (16, 3), (64, 0x800)]

/-- PressReadsTablesAndHistograms: a SCAN of a whole block, a histogram of one exponent, the default image into slot 3. -/
theorem test_PressReadsTablesAndHistograms :
    engineTest .press scanDesc [] 2048 1 = true ∧ descType scanDesc = 1 ∧ pressSrc scanDesc = 0x800 ∧ pressCount scanDesc = 1024 ∧
    (let s := pressAt buildDesc (fun x => { x with hist := ⟨[(127, 5)]⟩ }) []
     s.engineCheck pressJob .press buildDesc = .ok ∧ descType buildDesc = 2 ∧ pressDst buildDesc = 0 ∧
       (buildTable ((List.range 256).map fun e => ((s.parish q0).press.hist.get 0 e).toNat)).isSome = true) ∧
    engineTest .press loadtDesc defaultImage 128 1 = true ∧ descType loadtDesc = 5 ∧ pressSrc loadtDesc = 0x800 ∧
    tableValid ((pressAt loadtDesc id defaultImage).mem.readBytes (page0 + 0x800) 128) = true ∧
    (let s := { base with pressPend := [⟨3, 1, defaultImage, some q0⟩], pressSlots := ⟨[(3, { owner := 1 })]⟩ }
     s.pressPend.find? (fun w => w.slot == 3) = some ⟨3, 1, defaultImage, some q0⟩ ∧ (s.pressSlots.get {} 3).owner = 1 ∧
       ((after (.tableSlotVisible 3) s).pressSlots.get {} 3).image = some defaultImage) ∧
    (let s := { base with pressPend := [⟨3, 1, defaultImage, some q0⟩], pressSlots := ⟨[(3, { owner := 2 })]⟩ }
     (s.pressSlots.get {} 3).owner ≠ 1 ∧ ((after (.tableSlotVisible 3) s).pressSlots.get {} 3).image = none) := by decide +kernel

/-- The job of these tests runs no serving step (R404). -/
theorem test_Press_kv (d : Vec) (f : Press → Press) (m : List Byte) (write : Bool) (ea n : Nat) :
    (pressAt d f m).kvRespected (actorOf 1 pressJob) write ea n :=
  kv_idle _ _ _ _ _ (by show (((⟨[(1, pressJob)]⟩ : Tab Job).find 1).map fun j => j.serving.active) ≠ some true; decide) rfl rfl

def encodeDesc : Vec := desc [(0, 3), (64, 0x800), (128, 0x1000), (192, 8)]
def decodeDesc : Vec := desc [(0, 4), (64, 0x800), (128, 0x1000), (192, 1)]
def maskDesc : Vec := desc [(0, 6), (64, 0x800), (128, 0x1000), (192, 1), (202, 1), (320, 7)]
/-- A stored block of four values. -/
def block4 : List Byte := encodeBlock none [0x3f80, 0, 0xbf80, 1]

/-- PressCodesBlocks. -/
theorem test_PressCodesBlocks :
    engineTest .press encodeDesc [] 16 32 = true ∧ descType encodeDesc = 3 ∧ pressCount encodeDesc = 8 ∧ pressIndex encodeDesc = 0 ∧
    (encodeBlock (((pressAt encodeDesc id []).imageFor 1 (pressTable encodeDesc)).map fun i => (pressTable encodeDesc, i))
      (words 2 ((pressAt encodeDesc id []).mem.readBytes (page0 + 0x800) 16))).length ≤ 32 ∧
    engineTest .press decodeDesc block4 24 8 = true ∧ descType decodeDesc = 4 ∧ pressCount decodeDesc = 1 ∧ blockLen block4 = 24 ∧ lenUsable 24 = true ∧
    decodeBlock ((pressAt decodeDesc id block4).imageFor 1) block4 = some [0x3f80, 0, 0xbf80, 1] ∧
    engineTest .press maskDesc [0x80] 16 512 = true ∧ descType maskDesc = 6 ∧ maskTiles maskDesc * maskRows maskDesc * 16 = 16 ∧
    activeNeurons 1 1 ([0x80] ++ List.replicate 15 0) = [7] := by decide +kernel

/-- A MERGE of two records of one element, of rows 1 and 0. -/
def mergeDesc : Vec := desc [(0, 1), (64, 0x800), (128, 0x1000), (192, 2), (208, 1)]
def records : List Byte := toBytes 16 1 ++ toBytes 4 5 ++ toBytes 16 0 ++ toBytes 4 6

/-- MergeTreeSumsRows; and a descriptor that has run. -/
theorem test_MergeTreeSumsRows :
    engineTest .merge mergeDesc records 40 40 = true ∧ mergeExpect mergeDesc * mergeSize mergeDesc = 40 ∧
    ((mergeRecs mergeDesc records false).all fun r => !r.poison) = true ∧
    ((mergeRows (mergeFmt mergeDesc) (mergeSource mergeDesc) (sortRecs (mergeRecs mergeDesc records false))).flatMap MergeRec.bytes).length = 40 ∧
    (let s := pressAt 0 (fun x => { x with cur := none, run := some ⟨desc [(14, 1), (464, 1)], 0, 0, 0, false⟩ }) []
     (s.engine q0 .press).run = some ⟨desc [(14, 1), (464, 1)], 0, 0, 0, false⟩ ∧ s.engineJob q0 .press = some (1, pressJob) ∧
       (s.parish q0).press.installing = false ∧ pressStatus (desc [(14, 1), (464, 1)]) = 0 ∧ s.openReqs q0.die (engineWrites q0 .press) = false ∧
       fieldOf (desc [(14, 1), (464, 1)]) 464 16 = 1 ∧
       pressJob.ringOf ((s.engine q0 .press).dring.toNat % 8192) = some r0 ∧ s.refKind pressJob (fieldOf (desc [(14, 1), (464, 1)]) 448 13) = .job r0 ∧
       ((after (.pressComplete q0 .press) s).parish q0).press.done = 1) := by decide +kernel

/-- The merge tree sorts rows: the record of row 0 comes first (R247). -/
theorem test_merge : ((after (.merge q0) (pressAt mergeDesc id records)).mem.readBytes (page0 + 0x1010) 4) = [6, 0, 0, 0] := by decide +kernel

/-! ## Tally units, scrub, hamlet states and LPDDR -/

def t0 : TallyRef := .hamlet 0 0 0
def unit0 : Snooped := ⟨List.replicate 64 1, 4, 2, false, false⟩
/-- Tally unit 0 of slot 0; its log lies in page 0 from 0x20 on. -/
def tallyAt (x : Tally) : State := base.setTally t0 { x with logBase := 1, logSize := 2, logNext := 1 }

/-- The place of the next log entry is clear (0x40 of page 0). -/
def logClear (s : State) : Bool :=
  decide (s.jobOfTally t0 = some (1, job)) &&
    decide (s.ownEa (32 * (s.tally t0).logBase.toNat + 32 * (s.tally t0).logNext.toNat) = 0x40) &&
    decide (s.resolve (actorOf 1 job) true 0x40 = some (.mem (page0 + 0x40) .plain)) && s.mem.wf && decide ((s.tally t0).logNext < (s.tally t0).logSize)

/-- TallyUnitsAbsorbAndLog: each mode, four open layers of which one takes the unit, the last place of the log. -/
theorem test_TallyUnitsAbsorbAndLog :
    (let s := tallyAt { mode := 0, snoopQ := [unit0] }
     (s.tally t0).snoopQ = [unit0] ∧ unit0.scrub = false ∧ (s.tally t0).mode = 0) ∧
    (let s := tallyAt { mode := 1, snoopQ := [unit0], layers := [⟨1, 0, 1, false⟩, ⟨2, 0, 1, false⟩, ⟨3, 0, 1, false⟩, ⟨4, 0, 1, false⟩] }
     (s.tally t0).mode = 1 ∧ fifthLayer (s.tally t0).layers 4 = false ∧ fifthLayer (s.tally t0).layers 5 = true) ∧
    (let s := tallyAt { mode := 2, snoopQ := [unit0] }
     (s.tally t0).mode = 2 ∧ (s.tally t0).logStopped = false ∧ logClear s = true ∧ ((after (.tallySnoopUnit t0) s).tally t0).logNext = 2) ∧
    (0#64).getLsbD 0 = false ∧
    (let s := tallyAt { layers := [⟨4, 9, 1, false⟩] }
     (1#64).getLsbD 0 = true ∧ (s.tally t0).snoopQ = [] ∧ (s.tally t0).layers = [⟨4, 9, 1, false⟩] ∧ logClear s = true ∧
       ((after (.tallyFlush t0 1) s).tally t0).layers = []) ∧
    tallyCtrlValid 0xf29 = true ∧ ((tallyAt {}).tally t0).wild = false ∧ tallyOfReeve (.parish 0 0 0) = true ∧ tallyCtrlValid 0x81 = false := by decide +kernel

/-- Job 1 has stopped; slot 0 is behind no fence, behind its fence, or filled with Tally unit 0 having read zeros. -/
def scrubbing (f : FencePhase) (t : Tally) : State :=
  { base with
    jobs := ⟨[(1, { job with state := .ending .killed, granules := [(q0, 3)] })]⟩
    hamlets := ⟨[(0, { ham with fence := f, tallies := ⟨[(0, t)]⟩ })]⟩ }

/-- FenceAndScrubClearsTheHamlet. -/
theorem test_FenceAndScrubClearsTheHamlet :
    ((scrubbing .lowered {}).scrubDue m0).map (fun x => (x.1, x.2.2)) = some (1, ⟨0, 0, 0, false, 2⟩) ∧ ((scrubbing .lowered {}).hamlet m0).fence = .lowered ∧
    ((scrubbing .lowered {}).hamlet m0).power = .active ∧ ((scrubbing .raised {}).hamlet m0).fence = .raised ∧ (scrubbing .raised {}).mem.wf = true ∧
    padBytes - 1 < padBytes ∧ (1#8) ≠ 0 ∧ ((scrubbing .filled {}).hamlet m0).fence = .filled ∧ ((scrubbing .filled {}).hamlet m0).scrubOk = false ∧
    ((scrubbing .filled { alive := 786432 }).hamlet m0).scrubOk = true ∧ ((scrubbing .filled { alive := 786432 }).scrubDue m0).isSome = true ∧
    base.defects = [] ∧ (scrubbing .raised {}).defects = [] ∧ (0 : Nat) < granuleBytes ∧
    (((scrubbing .filled {}).jobs.cells.find? fun c => c.2.isEnding && c.2.granules.contains (q0, 3)).map Prod.fst) = some 1 := by decide +kernel

/-- A byte that a bank does not let go retires the slot (R187). -/
theorem test_scrub : let s := scrubbing .raised {}
    ((after (.scrubCheck m0) (after (.scrubFill m0 [(0x5fffff, 1)]) s)).hamlet m0).retired = true ∧
    ((after (.scrubCheck m0) (after (.scrubFill m0 []) s)).hamlet m0).retired = false := by decide +kernel

/-- The same of a granule: what its bank does not let go stays, and the granule is retired (R188). -/
theorem test_granule : let s := scrubbing .raised {}
    ((after (.granuleScrub q0 3 [(0, 1)]) s).parish q0).retired = 8 ∧ ((after (.granuleScrub q0 3 []) s).parish q0).retired = 0 := by decide +kernel

/-- Slot 0 in a state with a hint, idle for `n` cycles of MCLK. -/
def idleAt (p : HamletState) (hint : BitVec 2) (n : Nat) : State := { base.setHamlet m0 { ham with power := p, hint := hint } with mclk := n }

/-- HamletsGateRetainSwitchOffAndWake: each limit and the cycle before it. -/
theorem test_HamletsGateRetainSwitchOffAndWake :
    (let s := idleAt .active 0 64
     (s.hamlet m0).idle = true ∧ (s.hamlet m0).fence = .lowered ∧ (s.hamlet m0).power = .active ∧ 64 ≤ s.idleFor m0) ∧
    (idleAt .active 0 63).idleFor m0 < 64 ∧
    (let s := idleAt .gated 1 150000
     (s.hamlet m0).mayRetain = true ∧ (s.hamlet m0).power = .gated ∧ (s.hamlet m0).hint = 1 ∧ s.retainIdle ≤ s.idleFor m0) ∧
    (let s := idleAt .active 1 150000
     (s.hamlet m0).mayRetain = true ∧ (s.hamlet m0).power = .active ∧ s.retainIdle ≤ s.idleFor m0) ∧
    (let s := { idleAt .active 2 0 with jobs := {} }
     (s.hamlet m0).power ≠ .off ∧ (s.hamlet m0).fence = .lowered ∧ s.heldSlot m0 = false ∧ ((after (.hamletOff m0) s).hamlet m0).power = .off) ∧
    (let s := { base.setHamlet m0 { ham with retired := true, fence := .raised } with jobs := {} }
     (s.hamlet m0).retired = true ∧ s.heldSlot m0 = false ∧ s.unused m0 = true ∧ ((after (.hamletOff m0) s).hamlet m0).power = .off) ∧
    base.unused ⟨0, 16⟩ = true ∧
    ((idleAt .retain 2 0).hamlet m0).power = .retain ∧
    (idleAt .gated 1 149999).idleFor m0 < (idleAt .gated 1 149999).retainIdle ∧
    (let s := idleAt .retain 2 15000000
     (s.hamlet m0).power ≠ .off ∧ (s.hamlet m0).hint = 2 ∧ s.heldSlot m0 = true ∧ s.offIdle ≤ s.idleFor m0) ∧
    (idleAt .retain 2 14999999).idleFor m0 < (idleAt .retain 2 14999999).offIdle ∧ base.jobAt m0 = some (1, job) ∧
    ((idleAt .off 2 0).hamlet m0).power = .off ∧ (idleAt .off 2 0).mem.wf = true ∧ ((after (.hamletWake m0) (idleAt .off 2 0)).hamlet m0).wakes = 1 := by
  decide +kernel

def c0 : CtlRef := ⟨0, 0⟩
/-- The first sector of die 0's LPDDR. -/
theorem test_LpddrControllersReadWriteCorrectAndPoison :
    (base.die 0).noLpddr = false ∧ 0 < base.dieCount ∧ base.isData (siteAddr c0 (512 * 0)) = true ∧
    base.blkPoison.contains (siteAddr c0 (512 * 0) / 2048) = false ∧ (∀ e ∈ [0, 0, 0, 0], e = 0) ∧ (∃ e ∈ [0, 4, 0, 0], e ≠ 0) ∧
    (∀ e ∈ [0, 4, 0, 0], e ≤ 4) ∧ (∃ e ∈ [0, 5, 0, 0], 4 < e) ∧
    ((after (.lpddrRead c0 0 [0, 4, 0, 0] ⟨0, 0⟩ 0) base).ctl c0).corrected = 1 ∧ ((after (.lpddrRead c0 0 [0, 5, 0, 0] ⟨0, 0⟩ 0) base).ctl c0).poisoned = 1 ∧
    base.isData (siteAddr c0 2047) = true ∧ 2047 % 2048 + 1 ≤ 2048 ∧ base.mem.wf = true ∧
    (({ base with clock := BitVec.ofNat 64 ticksPerDay } : State).ctl c0).lastReadThrough.toNat + ticksPerDay ≤ (BitVec.ofNat 64 ticksPerDay).toNat ∧
    1 < (base.household 1).ptLen ∧ (base.die 7).tcache.contains (1, 1) = false ∧ (base.die 7).tcache.length < 4096 := by decide +kernel

/-- The poison list of die 0 is sound beside page 0 and the first sector of its controller 0. -/
theorem test_list_sound : base.listSound (siteAddr c0 (512 * 0)) ∧ base.listSound page0 := by
  unfold State.listSound
  decide +kernel

/-- A corrected sector waits for its rewrite, with and without a job in STRICT (R264). -/
def rewriting (mode : BitVec 2) : State :=
  { base.modCtl c0 (fun x => { x with rewrites := [0] }) with
    jobs := ⟨[(1, { job with mode := mode })]⟩, clock := BitVec.ofNat 64 ticksPerDay }

/-- LpddrControllersReadWriteCorrectAndPoison: a rewrite that meets an uncorrectable sector, STRICT, and page tables that are poisoned. -/
theorem test_LpddrControllersReadWriteCorrectAndPoison_rewrite :
    (rewriting 1).strictRuns = false ∧ ((rewriting 1).ctl c0).rewrites = [0] ∧ (rewriting 2).strictRuns = true ∧ (base.ctl c0).rewrites = [] ∧
    ((after (.correctionRewrite ⟨c0, [0, 5, 0, 0]⟩) (rewriting 1)).ctl c0).poisoned = 1 ∧
    ((after (.correctionRewrite ⟨c0, [0, 5, 0, 0]⟩) (rewriting 2)).ctl c0).rewrites = [0] ∧
    base.blkPoison.contains (base.pteAddr 7 1 1 / 2048) = false ∧
    (let s := { base with blkPoison := (List.range 8).map fun i => base.pteAddr i 1 1 / 2048 }
     (∀ i, i < s.dieCount → s.blkPoison.contains (s.pteAddr i 1 1 / 2048) = true) ∧
       (after (.translationMiss 7 1 1 0) s).ident.state = .undefined) := by decide +kernel

/-- LpddrControllersReadWriteCorrectAndPoison: a step of job 1 whose read is uncorrectable. -/
theorem test_LpddrControllersReadWriteCorrectAndPoison_step :
    let s := { base with jobs := ⟨[(1, { job with serving := { active := true } })]⟩ }
    (s.jobs.find 1).isSome = true ∧ ((s.jobs.find 1).map fun j => j.serving.active) = some true ∧
      (((after (.lpddrRead c0 0 [0, 5, 0, 0] ⟨0, 0⟩ 1) s).jobs.find 1).map fun j => j.serving.badBlocks) = some [siteAddr c0 (512 * 0) / 2048] := by
  decide +kernel

/-- A line of parish 0, which has cache granules, is homed there and absent. -/
theorem test_LpddrControllersReadWriteCorrectAndPoison_cache :
    base.homeLine q0 0 = true ∧ (base.parish q0).cacheWays ≠ 0 ∧ (base.parish q0).wayOf 0 = none := by decide +kernel

/-- MemoryErrorsArePoisonedAndRecorded: the last word of a scratchpad, and page 0. -/
theorem test_MemoryErrorsArePoisonedAndRecorded :
    base.isPad (sramAddr m0 0x5ffff8) = true ∧ slotOfAddr (sramAddr m0 0x5ffff8) = some m0 ∧ base.jobHolding m0 = some (1, job) ∧
    base.logRoom base.logNext = true ∧ (base.hamlet (millSlot u0)).power = .active ∧
    ((after (.uncorrectablePrivate (.weights u0 1)) base).mill u0).sets.find 1 = some { poisoned := true } ∧
    (after (.uncorrectablePrivate (.firmware 0)) base).ident.state = .undefined ∧
    isSram page0 = false ∧ (if base.isData page0 then some page0 else base.dieLocal page0) = some page0 ∧
    base.blkPoison.contains (page0 / 2048) = false := by decide +kernel

/-! ## Ferry -/

/-- A packet from die 0 of coordinate 5 to die 0 of this package, for household 1. -/
def pkt (cls : BitVec 2) (op : BitVec 4) (addr : BitVec 48) (len : BitVec 12) (payload : List Byte) : Packet :=
  ⟨cls, op, 0, 0, 5, 0, 1, 9, addr, len, 0, false, 0, false, payload, none, [], []⟩
/-- The flit with LSEQ 0 that carries a packet of at most 224 bytes. -/
def flitOf (p : Packet) : List Byte := SentFlit.bytes { lseq := 0, packet := p, fidx := 0, part := p.part 0, cr := (0, 0), tries := 0 } 0
/-- Link 0 is ACTIVE and leads along +x of a ring of 16 packages. -/
def linked (x : Landing) : State :=
  { base with torus := { dims := 15 }, landings := ⟨[(0, { x with state := .active, role := 1 })]⟩ }
/-- Four bytes for address 0 of household 1. -/
def wr : Packet := pkt clsReq 0 0 3 [1, 2, 3, 4]
def sent0 : SentFlit := { lseq := 0, packet := wr, fidx := 0, part := [], cr := (0, 0), tries := 8 }

/-- FerryLinksCheckAcknowledgeAndReplay: an uncorrectable flit, a wrong CRC, a gap in LSEQ, a sound one-flit WRITE, a NAK, a time-out and owed
acknowledgement. -/
theorem test_FerryLinksCheckAcknowledgeAndReplay :
    let s := linked {}
    let b := flitOf wr
    let f : FlitIn := ⟨b, [15]⟩
    let gap : FlitIn := ⟨SentFlit.bytes { sent0 with lseq := 1 } 0, []⟩
    ((s.landing 0).decodeFlit s.clock [15]).1 = false ∧ ((s.landing 0).decodeFlit s.clock [16]).1 = true ∧ ((s.landing 0).decodeFlit s.clock []).1 = false ∧
    (s.landing 0).rxFlits = 0 ∧ s.parkedFor 0 = [] ∧
    (s.landing 0).state = .active ∧ (s.landing 0).out = [] ∧ (s.landing 0).replay = [] ∧
    bitsOf (recNat f.raw 0 8) 0 4 = 1 ∧ recNat f.raw 28 4 = crc32c (f.raw.take 28 ++ f.raw.drop 32) ∧
    BitVec.ofNat 16 (bitsOf (recNat f.raw 0 8) 6 16) = (s.landing 0).rxSeq + 1 ∧ (flitPacket f.raw).dst = s.torus.coord ∧
    (flitPacket f.raw).flitsOf = 1 ∧ bitsOf (recNat f.raw 24 4) 16 5 = 0 ∧ (flitPacket f.raw).opValid = true ∧
    (s.die 0).flowsIn.get {} (flowKey 5 0 clsReq) = { expect := (flitPacket f.raw).pseq, held := [] } ∧
    ((after (.flitReceive 0 f) s).die 0).inbox = [{ wr with buf := [(0, 6)] }] ∧
    ((after (.flitReceive 0 ⟨b, [16]⟩) s).landing 0).nakSent = true ∧ ((after (.flitReceive 0 ⟨b, [16]⟩) s).landing 0).uncorr = 1 ∧
    recNat (b.set 40 1) 28 4 ≠ crc32c ((b.set 40 1).take 28 ++ (b.set 40 1).drop 32) ∧
    BitVec.ofNat 16 (bitsOf (recNat gap.raw 0 8) 6 16) ≠ (s.landing 0).rxSeq + 1 ∧
    ([sent0].filter fun f => decide (0x8000 ≤ ((0xffff : BitVec 16) - f.lseq).toNat)) ≠ [] ∧
    ((after (.ackTimeout 0) (linked { replay := [sent0] })).landing 0).sticky.replayLimit = true ∧
    0 < ((linked { unacked := 1 }).landing 0).unacked := by decide +kernel

/-- A state in which a packet waits at die 0. -/
def waits (p : Packet) : State := base.modDie 0 fun x => { x with inbox := [p] }
/-- The open request that tag 9 names. -/
def asked (w : Requester) (n : Nat) (p : Packet) : State := base.modDie 0 fun x => { x with inbox := [p], reqs := [⟨9, w, n, 0⟩] }
def red : Packet := pkt clsReq 2 0 19 ([1, 0, 0, 0, 0, 0, 0, 0, 0, 0, 0, 0, 0, 0, 0, 0] ++ [1, 0, 0, 0])

/-- FerryRequestsReadWriteAndReduce, and a household that is not open. -/
theorem test_FerryRequestsReadWriteAndReduce :
    (waits wr).packetWaits 0 clsReq 0 wr ∧ (waits wr).hostsPacket wr = true ∧ (waits wr).mem.wf = true ∧
    (waits wr).resolve wr.actor true ((waits wr).ownEa 0) = some (.mem page0 .plain) ∧ page0 < sramBase ∧
    (waits (pkt clsReq 1 0 3 [])).packetWaits 0 clsReq 1 (pkt clsReq 1 0 3 []) ∧ (waits wr).poisonedAt page0 4 = false ∧
    (waits red).packetWaits 0 clsReq 2 red ∧ (reducePacket red.payload).isSome = true ∧ (waits red).reduceDst 0 4 false = true ∧
    (waits { wr with household := 2 }).hostsPacket { wr with household := 2 } = false ∧
    (after (.write 0) (waits wr)).mem.readBytes page0 4 = [1, 2, 3, 4] := by
  unfold State.packetWaits; decide +kernel

def wack : Packet := pkt clsRsp 4 0 0 []
def rdata : Packet := pkt clsRsp 5 0 3 [1, 2, 3, 4]
def mcred : Packet := pkt clsRsp 8 1 0 []
def belled : Packet := pkt clsBell 6 0 15 ([0, 0, 0, 0, 1, 0, 0, 0, 0, 0, 0, 0, 0, 0, 0, 0])
def ctrlled : Packet := pkt clsCtrl 7 0 15 (List.replicate 16 0)
def q1 : PorterRef := .hamlet 0 0 0
/-- Job 1 binds counter 0 of its hamlet 0. -/
def bindsBell (p : Packet) : State :=
  { waits p with jobs := ⟨[(1, { job with image := { dies := 1, bellBinds := [⟨0, 0, 0, 0, 0, 0, 0⟩] } })]⟩ }

/-- FerryAnswersCloseRequests. -/
theorem test_FerryAnswersCloseRequests :
    (asked (.porterWrite q1 2) 4 wack).packetWaits 0 clsRsp 4 wack ∧
    (((asked (.porterWrite q1 2) 4 wack).die 0).reqs.find? fun r => r.tag == wack.tag.toNat) = some ⟨9, .porterWrite q1 2, 4, 0⟩ ∧
    ((asked (.slot r0 0 true) 4 wack).ring r0).enable = true ∧ ((asked (.slot r0 0 true) 4 wack).ring r0).origins.cells = [] ∧ ((asked (.slot r0 0 true) 4 wack).hamlet (ringSlot r0)).power = .active ∧
    (asked (.porterRead q1 0) 4 rdata).packetWaits 0 clsRsp 5 rdata ∧
    (((asked (.porterRead q1 0) 4 rdata).die 0).reqs.find? fun r => r.tag == rdata.tag.toNat) = some ⟨9, .porterRead q1 0, 4, 0⟩ ∧
    (waits mcred).packetWaits 0 clsRsp 8 mcred ∧ (waits belled).packetWaits 0 clsBell 6 belled ∧ belled.payload.length = 16 ∧
    (((waits belled).jobs.cells.filter fun c => c.2.live && c.2.household == 1).find?
      fun c => c.2.bindsCounter (waits belled).torus.coord 0 && (c.2.ringOf 0).isSome) = none ∧
    ((waits belled).jobs.cells.filter fun c => c.2.live && c.2.household == 1).findSome? (fun c => c.2.ringOf 0) = some r0 ∧
    ((bindsBell belled).jobs.cells.find? fun c => c.2.bindsCounter 0 0 && (c.2.ringOf 0).isSome).isSome = true ∧
    (waits ctrlled).packetWaits 0 clsCtrl 7 ctrlled := by
  unfold State.packetWaits; decide +kernel

/-- Ring 0 is bound to coordinate 1 with one credit. -/
def bound : State := (linked { credits := fullCredits }).setRing r0 { full with bind := some ⟨1, 0, 0, 0, 1, []⟩ }
/-- A MSG packet for ring 1 of hamlet 0: a header whose LEN is 4, and the bytes given. -/
def msgPkt (d : List Byte) : Packet := pkt clsReq 3 1 71 ([0, 0, 0, 0, 4] ++ List.replicate 59 0 ++ d)

/-- BoundRingsCarrySlots: a sending ring, part of a slot, and a whole one. -/
theorem test_BoundRingsCarrySlots :
    bound.wake m0 = { bound with hamlets := (bound.wake m0).hamlets } ∧ (bound.hamlet m0).power ≠ .off ∧ (bound.wake m0).ring r0 = bound.ring r0 ∧
    ((bound.ring r0).bind.map fun b => b.credits) = some 1 ∧ bound.jobAt (ringSlot r0) = some (1, job) ∧ (bound.ring r0).claim = 0 ∧
    (bound.ring r0).slot 0 = .published ∧ min (bound.slotHdr r0 0).len (bound.ring r0).capacity ≤ 4032 ∧
    (bound.ring r0).waiters = [] ∧ (bound.ring r0).grants = [] ∧ bound.bundle 1 (some job.image.span) ≠ [] ∧
    (after (.boundSlotSend r0) bound).hostOut ≠ [] ∧
    (let s := waits (msgPkt [1, 2, 3, 4])
     s.packetWaits 0 clsReq 3 (msgPkt [1, 2, 3, 4]) ∧ s.msgRing 1 1 = some r1 ∧ (s.die 0).msgs = [] ∧
     64 + bitsOf (recNat (msgPkt [1, 2, 3, 4]).payload 0 8) 32 21 = 68 ∧ (s.ring r1).rsv = 0 ∧ (s.ring r1).slot 0 = .free ∧ (s.ring r1).pub = 0 ∧
     1 < (s.ring r1).size ∧ (s.ring r1).slot 1 ≠ .ready ∧ (s.ring r1).slotOff 0 + 64 + (s.ring r1).capacity ≤ padBytes ∧
     ((List.range 65).all fun o => !s.fenced (sramAddr m0 ((s.ring r1).slotOff 0) + o)) = true ∧
     ((after (.msg 0) s).ring r1).pub = 1) ∧
    (msgPkt [1, 2, 3]).payload.length < 68 ∧ ((after (.msg 0) (waits (msgPkt [1, 2, 3]))).die 0).msgs.length = 1 := by
  unfold State.packetWaits; decide +kernel

/-- Link 0 in a state, in a package of `n` dies. -/
def linkAt (x : Landing) : State := { base with torus := { dims := 15 }, landings := ⟨[(0, { x with role := 1 })]⟩ }
/-- The far end of link 0, its coordinate read wrongly or rightly. -/
def farEnd (c : BitVec 15) : PeerId := ⟨c, 0, 1, 1, 1, 0, 0, 15⟩

/-- LandingsTrainRetrainAndFail: every state, and each count of failures. -/
theorem test_LandingsTrainRetrainAndFail :
    ((linkAt { state := .detect }).landing 0).state = .detect ∧ ((linkAt { state := .train }).landing 0).state = .train ∧
    ((linkAt { state := .train }).landing 0).out = [] ∧ (linkAt { state := .train }).peerOk 0 (farEnd 2) = false ∧ (linkAt { state := .train }).peerOk 0 (farEnd 1) = true ∧
    ((linkAt { state := .train, rateCap := true }).landing 0).halfRate = true ∧ ((linkAt { state := .train }).landing 0).halfRate = false ∧
    ((linkAt { state := .active }).landing 0).triggered 0 .request = true ∧ ((linkAt { state := .active }).landing 0).triggered 0 .uncorrectable = false ∧
    ((linkAt { state := .active, uncorrAt := List.replicate 17 0 }).landing 0).triggered 25000 .uncorrectable = true ∧
    ((linkAt { state := .active, uncorrAt := List.replicate 17 0 }).landing 0).triggered 25001 .uncorrectable = false ∧
    ((linkAt { state := .retrain, failures := 1 }).landing 0).failures < 2 ∧ 2 ≤ ((linkAt { state := .retrain, failures := 2 }).landing 0).failures ∧
    base.edgeLive ⟨0, 1⟩ = true ∧ ((base.modEdge ⟨0, 1⟩ fun y => { y with retrainFails := 1 }).edge ⟨0, 1⟩).retrainFails = 1 ∧
    2 ≤ ((base.modEdge ⟨0, 1⟩ fun y => { y with retrainFails := 2 }).edge ⟨0, 1⟩).retrainFails ∧
    (base.edge ⟨0, 1⟩).due = false := by decide +kernel

/-- The first bytes of a flit sent over the edge, and one bit of it that comes wrong. -/
def edgeBytes : List Byte := List.replicate 16 7
def edgeFlit (got : List Byte) (lanes : List Nat) : EdgeFlit := ⟨⟨0, 1⟩, [edgeBytes], 0, got, BitVec.ofNat 32 (crc32c edgeBytes), lanes⟩

/-- LandingsTrainRetrainAndFail: an edge flit that is accepted and one that is replayed, eight replays, a failing lane and two of one group. -/
theorem test_edges :
    (let s := base
     let y := (edgeFlit edgeBytes []).sent.foldl Edge.send (s.edge ⟨0, 1⟩)
     (y.kept.any fun k => k.seq == 0) = true ∧ ((0 : BitVec 12) - (s.edge ⟨0, 1⟩).rxSeq).toNat < 64 ∧
       ((after (.edgeReplay (edgeFlit edgeBytes [])) s).edge ⟨0, 1⟩).rxSeq = 1 ∧
       ((after (.edgeReplay (edgeFlit (edgeBytes.set 9 6) [3])) s).edge ⟨0, 1⟩).rxSeq = 0 ∧
       (((after (.edgeReplay (edgeFlit (edgeBytes.set 9 6) [3])) s).edge ⟨0, 1⟩).kept.map (·.tries)) = [1] ∧
       (y.kept.any fun k => k.seq == 5) = false) ∧
    (let s := base.modEdge ⟨0, 1⟩ fun y => { y with kept := [⟨5, [], 8⟩] }
     (s.edge ⟨0, 1⟩).due = true ∧ ((after (.edgeRetrain 0 1 true) s).edge ⟨0, 1⟩).kept = [⟨5, [], 0⟩]) ∧
    (let s := base.modEdge ⟨0, 1⟩ fun y => { y with failing := [12] }
     (s.edge ⟨0, 1⟩).due = true ∧ (s.edge ⟨0, 1⟩).failing = [12] ∧ s.logRoom s.logNext = true ∧
       s.suppressed { cls := 5, severity := 1, die := 0, place := 1, event := 1 } = false ∧
       (((after (.edgeRetrain 0 1 true) s).logRing.find (s.logNext.toNat % 1920)).map fun r => (r.event, r.detail)) = some (1, 1)) ∧
    (let s := base.modEdge ⟨0, 1⟩ fun y => { y with parity := ⟨[(12, List.replicate 63 0)]⟩ }
     ((after (.edgeReplay (edgeFlit edgeBytes [12])) s).edge ⟨0, 1⟩).failing = [12] ∧
       ((after (.edgeReplay (edgeFlit edgeBytes [12])) { s with clock := 25001 }).edge ⟨0, 1⟩).failing = []) ∧
    (let s := base.modEdge ⟨0, 1⟩ fun y => { y with failing := [12, 13] }
     ((after (.edgeRetrain 0 1 true) s).edge ⟨0, 1⟩).failed = [12, 13]) := by decide +kernel

/-- No flit waits anywhere in these states. -/
theorem test_links_empty (x : Landing) (ho : x.out = []) (hp : x.parked = []) : (linkAt x).linksEmpty := by
  refine ⟨rfl, fun k => ?_⟩
  rcases k with _ | k
  · exact ⟨ho, hp⟩
  · exact ⟨rfl, rfl⟩

/-! ## Postboxes -/

/-- Postbox 0 of `base`, and the state with it, its host memory at 0x1000 holding the bytes given. -/
def box0 : Postbox := { enable := true, running := true, cmdBase := 0x1000, cplBase := 0x8000, cmdLog2 := 4, cplLog2 := 4 }
def boxed (x : Postbox) : State := base.setPostbox 0 x
/-- The 64 bytes of a command of opcode `op` with SEQ `q` and ARG0 (Table 12.6). -/
def cmdBytes (op q arg : Nat) : List Byte :=
  let h := toBytes 2 op ++ toBytes 2 0 ++ toBytes 4 q ++ toBytes 8 7 ++ toBytes 8 arg ++ List.replicate 36 0
  h ++ toBytes 4 (crc32c h)
/-- They stand at count 0 of the ring. -/
def posted (b : List Byte) : State := { boxed { box0 with tail := 1 } with hostMem := base.hostMem.writeBytes 0x1000 b }

/-- PostboxesTakeWritesAndRefuseCommands: ENABLE, reserved sizes at both ends, doorbells at and beyond the ring size. -/
theorem test_PostboxesTakeWritesAndRefuseCommands :
    base.answers = true ∧ base.ident.state ≠ .boot ∧ base.reachesBox 0 0 = true ∧ base.reachesBox 0 15 = true ∧ base.reachesBox 1 1 = false ∧
    (1 : Word64).getLsbD 0 = true ∧ ({ box0 with enable := false }).sizeValid = true ∧ ({ box0 with cmdLog2 := 3 }).sizeValid = false ∧
    ({ box0 with cplLog2 := 14 }).sizeValid = false ∧ ({ box0 with cmdLog2 := 12, cplLog2 := 13 }).sizeValid = true ∧
    ((after (.pbCtrlWrite 0 0 1) (boxed { box0 with enable := false, running := false, tail := 5 })).postbox 0).tail = 0 ∧
    (16 : Nat) ≤ box0.cmdSize ∧ box0.cmdSize < 17 ∧
    ((after (.pbDoorbell 0 0 16 []) (boxed box0)).postbox 0).running = true ∧
    ((after (.pbDoorbell 0 0 17 []) (boxed box0)).postbox 0).err.overrun = true ∧
    ({ boxed box0 with ident := { state := .ready, power := .deep } } : State).ident.power = .deep := by decide +kernel

/-- CommandsCarrySeqAndCrc: a right command, a wrong CRC, a wrong SEQ. -/
theorem test_CommandsCarrySeqAndCrc :
    (posted (cmdBytes 2 1 0)).commandWaits 0 (cmdBytes 2 1 0) ∧ crc32c ((cmdBytes 2 1 0).take 60) = recNat (cmdBytes 2 1 0) 60 4 ∧
    BitVec.ofNat 32 (recNat (cmdBytes 2 1 0) 4 4) = ((posted (cmdBytes 2 1 0)).postbox 0).cmdHead + 1 ∧
    (posted (cmdBytes 2 2 0)).commandWaits 0 (cmdBytes 2 2 0) ∧
    BitVec.ofNat 32 (recNat (cmdBytes 2 2 0) 4 4) ≠ ((posted (cmdBytes 2 2 0)).postbox 0).cmdHead + 1 ∧
    crc32c (((cmdBytes 2 1 0).set 16 1).take 60) ≠ recNat ((cmdBytes 2 1 0).set 16 1) 60 4 ∧
    ((after (.commandTake 0) (posted (cmdBytes 2 1 0))).postbox 0).cur.isSome = true := by
  unfold State.commandWaits; decide +kernel

/-- PostboxesTakeWritesAndRefuseCommands: RESET_NEEDED, UNKNOWN, DENIED and a fetch that the host refuses. -/
theorem test_PostboxesTakeWritesAndRefuseCommands_refusals :
    ¬((commandOf (cmdBytes 2 1 0) 0 0).opcode = 0x0703 ∨ (commandOf (cmdBytes 2 1 0) 0 0).opcode = 0x0001 ∨ (commandOf (cmdBytes 2 1 0) 0 0).opcode = 0x0003) ∧
    ({ posted (cmdBytes 2 1 0) with ident := { state := .undefined } } : State).serves = true ∧
    (posted (cmdBytes 0x999 1 0)).commandWaits 0 (cmdBytes 0x999 1 0) ∧ knownOpcode 0x999 = false ∧ knownOpcode 0x0703 = true ∧
    pfOnly 0x0703 = true ∧ ({ base with numVFs := 1 } : State).vfBox 1 = true ∧
    ({ posted [] with hostDeny := [(0x1000, 1)] } : State).hostFaults 0x1000 64 = true ∧ (posted []).serves = true := by
  unfold State.commandWaits; decide +kernel

def cpl0 : Completion := ⟨2, 0, 1, 7, 0, 0⟩
def note0 : Notice := ⟨0, 0xf004, 3⟩

/-- CompletionsNoticesAndInterrupts: each case, with the queue of held notices at and below 256. -/
theorem test_CompletionsNoticesAndInterrupts :
    ((boxed { box0 with cplQ := [cpl0], epoch := 1 }).postbox 0).epoch ≠ cpl0.epoch ∧ (boxed box0).boxRoom 0 = true ∧
    (boxed { box0 with cplTail := 15 }).boxRoom 0 = true ∧ (boxed { box0 with cplTail := 16 }).boxRoom 0 = false ∧
    (boxed box0).hostFaults 0x8000 32 = false ∧ ({ boxed box0 with hostDeny := [(0x801f, 1)] } : State).hostFaults 0x8000 32 = true ∧
    (after (.completionWrite 0) { boxed { box0 with cplQ := [cpl0], irqEn := true } with msix := ⟨[(1, 0)]⟩ }).hostOut = [.msix 0 0] ∧
    (after (.completionWrite 0) (boxed { box0 with cplQ := [cpl0], irqEn := true })).hostOut = [] ∧
    (after (.completionWrite 0) (boxed { box0 with cplQ := [cpl0], irqEn := true })).msixPend = [0] ∧
    (boxed box0).msixMasked 0 0 = true ∧ ({ boxed box0 with msix := ⟨[(1, 0)]⟩ } : State).msixMasked 0 0 = false ∧
    (boxed { box0 with irqEn := true, irqUntil := some 1 }).clock.toNat < (1 : Word64).toNat ∧
    ((boxed { box0 with held := [cpl0] }).postbox 0).held = [cpl0] ∧ ((boxed { box0 with lost := 1 }).postbox 0).lost ≠ 0 ∧
    ({ boxed box0 with noticeQ := [note0] } : State).noticeQ = [note0] ∧ note0.pb = 0 ∧
    ((boxed { box0 with cplTail := 16, held := List.replicate 255 cpl0 }).postbox 0).held.length < 256 ∧
    256 ≤ ((boxed { box0 with cplTail := 16, held := List.replicate 256 cpl0 }).postbox 0).held.length ∧
    (let s := boxed { box0 with irqDue := true, irqEn := true, irqUntil := some 0 }
     (s.postbox 0).irqUntil = some 0 ∧ (0 : Word64).toNat ≤ s.clock.toNat ∧ (after (.msixHoldoff 0) s).msixPend = [0]) := by decide +kernel

/-! ## Commands of households -/

/-- The head Reeve runs a command of opcode `op` that postbox 0 has taken, in the state given. -/
def cmd (op : Nat) (args : List Word64) : Command := ⟨BitVec.ofNat 16 op, 1, 7, args, 0, 0⟩
def running (op : Nat) (args : List Word64) (s : State) : State := s.setPostbox 0 { box0 with cur := some (cmd op args) }
/-- Whether the premise of a command's row holds. -/
def runsIt (op : Nat) (args : List Word64) (s : State) : Bool :=
  let t := running op args s
  decide ((t.postbox 0).cur = some (cmd op args)) && t.serves && decide ((cmd op args).opcode.toNat = op) &&
    (decide (t.ident.state ≠ .undefined) || runsUndefined op) && t.turn 0 (cmd op args)
/-- The status of the completion that a row leaves. -/
def status (i : Instr) (op : Nat) (args : List Word64) (s : State) : Nat :=
  match ((after i (running op args s)).postbox 0).cplQ with
  | [c] => c.status.toNat
  | _ => 99

/-- PostboxesTakeWritesAndRefuseCommands: JOB_START of job 1 at postbox 0 waits for JOB_KILL of job 1, which was fetched first at postbox 1 (R344). -/
theorem test_turn :
    let s := (running 0x302 [1] base).setPostbox 1 { box0 with cur := some (cmd 0x303 [1]) }
    let t := s.setPostbox 0 { box0 with cur := some { cmd 0x302 [1] with fetched := 1 } }
    (t.postbox 1).cur = some (cmd 0x303 [1]) ∧ t.turn 0 { cmd 0x302 [1] with fetched := 1 } = false ∧ t.turn 1 (cmd 0x303 [1]) = true ∧
      after (.jobStart 0) t = t := by decide +kernel

/-- IdentityLogbookAndNoticeCommands. -/
theorem test_IdentityLogbookAndNoticeCommands :
    runsIt 1 [0x8000] base = true ∧ base.hostFaults 0x8000 4096 = false ∧ ({ base with hostDeny := [(0x8fff, 1)] } : State).hostFaults 0x8000 4096 = true ∧
    runsIt 2 [5] base = true ∧ runsIt 3 [0x8000, 0, 2] base = true ∧ runsIt 4 [3] base = true ∧ runsIt 5 [1, 15] base = true ∧
    ((base.logEvent { cls := 1, severity := 1, die := 0, place := 0, event := 1 }).heldRecords.filter fun r => decide (0 ≤ r.index.toNat)).length = 1 ∧
    (running 5 [1, 15] base).isOpen ((running 5 [1, 15] base).cmdHousehold 0 (cmd 5 [1, 15])) = true ∧
    (running 5 [2, 15] base).isOpen ((running 5 [2, 15] base).cmdHousehold 0 (cmd 5 [2, 15])) = false ∧
    status (.noticeRoute 0) 5 [1, 15] base = 0 ∧ status (.noticeRoute 0) 5 [1, 16] base = 2 ∧ status (.noticeRoute 0) 5 [2, 15] base = 6 ∧
    status (.echo 0) 2 [5] base = 0 := by decide +kernel

/-- A package in which household 1 has neither entries nor jobs. -/
def calm : State := { base with jobs := {} }

/-- HouseholdsHoldKeysAndPressSlots: opening at both ends of the range, closing, quotas and the BAR2 window. -/
theorem test_HouseholdsHoldKeysAndPressSlots :
    runsIt 0x101 [63, 1, 2, 3] base = true ∧ base.isOpen 63 = false ∧ 1 ≤ base.allPages ∧ base.allPages < base.allPages + 1 ∧
    status (.hhOpen 0) 0x101 [63, 1, 2, 3] base = 0 ∧ status (.hhOpen 0) 0x101 [63, 0, 2, 3] base = 2 ∧ status (.hhOpen 0) 0x101 [1, 1, 2, 3] base = 5 ∧
    status (.hhOpen 0) 0x101 [0xf3f, 1, 2, 3] base = 0 ∧ (base.vfHousehold 15 = 0) ∧ base.mem.wf = true ∧ calm.mem.wf = true ∧
    ((after (.hhClose 0) (running 0x102 [1] calm)).pte 1 0, calm.pte 1 0) = (0, 0x800003) ∧
    runsIt 0x102 [1] calm = true ∧ calm.isOpen 1 = true ∧ calm.entriesWhere (fun x => x.household == 1) = [] ∧ calm.jobsOfHousehold 1 = [] ∧
    status (.hhClose 0) 0x102 [2] calm = 6 ∧ status (.hhQuota 0) 0x103 [1, 4, 5] base = 0 ∧ status (.hhQuota 0) 0x103 [2, 4, 5] base = 6 ∧
    status (.bar2Set 0) 0x108 [0, 0x200000] base = 0 ∧ status (.bar2Set 0) 0x108 [1, 0x100000] base = 2 ∧ status (.bar2Set 0) 0x108 [2, 0] base = 6 := by
  decide +kernel

/-- The same: key slots and Press slots, of another owner and of none. -/
theorem test_HouseholdsHoldKeysAndPressSlots_slots :
    let mine : State := { base with keySlots := ⟨[(63, ⟨1, []⟩)]⟩, pressSlots := ⟨[(15, { owner := 1 })]⟩ }
    let theirs : State := { base with keySlots := ⟨[(63, ⟨2, []⟩)]⟩, pressSlots := ⟨[(15, { owner := 2 })]⟩ }
    let none1 : State := { base with pressSlots := ⟨(List.range 15).map fun i => (i + 1, { owner := 2 })⟩ }
    runsIt 0x104 [1, 63, 0] base = true ∧ status (.keyLoad 0) 0x104 [1, 63, 0] base = 0 ∧ status (.keyLoad 0) 0x104 [1, 63, 0] theirs = 5 ∧
    status (.keyLoad 0) 0x104 [1, 63, 0] { base with hostDeny := [(63, 1)] } = 11 ∧
    status (.keyErase 0) 0x105 [1, 63] mine = 0 ∧ status (.keyErase 0) 0x105 [1, 63] theirs = 6 ∧ status (.keyErase 0) 0x105 [1, 63] base = 6 ∧
    status (.pressSlot 0 0) 0x109 [1, 0, 15] base = 0 ∧ status (.pressSlot 0 0) 0x109 [1, 0, 15] theirs = 8 ∧
    status (.pressSlot 0 0) 0x109 [1, 0, 15] mine = 5 ∧ status (.pressSlot 0 0) 0x109 [1, 0, 0] base = 0 ∧
    status (.pressSlot 0 0) 0x109 [1, 0, 0] none1 = 8 ∧ status (.pressSlot 0 0) 0x109 [1, 1, 15] mine = 0 ∧
    status (.pressSlot 0 0) 0x109 [1, 2, 15, 0] mine = 2 ∧ tableValid (List.replicate 128 0) = false := by decide +kernel

/-- PagesAreZeroedMappedAndFreed: pages 2 to 3 of 4, one page of die 0, none, and the ends of the ranges. -/
theorem test_PagesAreZeroedMappedAndFreed :
    let s : State := { base with households := ⟨[(1, { house with ptLen := 4 })]⟩ }
    runsIt 0x106 [1, 2, 2, 1] s = true ∧ s.unmapped 1 2 2 = true ∧ s.unmapped 1 2 3 = false ∧ s.unmapped 1 1 1 = false ∧ s.mem.wf = true ∧
    (s.allocView s.pagesInUse 2 0).isSome = true ∧ (s.allocDie s.pagesInUse 0 1 0).isSome = true ∧
    status (.memMap 0 0) 0x106 [1, 2, 3, 1] s = 2 ∧ status (.memMap 0 0) 0x106 [1, 2, 1, 0x1000] s = 2 ∧
    status (.memMap 0 0) 0x106 [1, 2, 0, 1] s = 0 ∧
    (s.household 1).ptBase + 8 * (s.household 1).ptLen ≤ reservedBytes ∧
    (List.range 4).map (fun i => ((after (.memUnmap 0) (running 0x107 [1, 0, 4] s)).pte 1 i).toNat) = [0, 0, 0, 0] ∧
    runsIt 0x107 [1, 0, 4] s = true ∧ (s.household 1).ptLen < 1 + 4 ∧ 0 + 4 ≤ (s.household 1).ptLen ∧
    status (.memUnmap 0) 0x107 [1, 0, 4] s = 0 ∧ status (.memUnmap 0) 0x107 [1, 1, 4] s = 2 := by decide +kernel

/-! ## Weights and jobs -/

/-- A tensor of one block in page 0 of the interleaved view, mirrored or not; with what was received and whether it is admitted. -/
def tensor (mirror adm : Bool) (bits : List Nat) (maps : List (Nat × Nat)) : Tensor :=
  ⟨2048, mirror, [0], if mirror then [1] else [], bits, adm, maps⟩
def tensorIn (t : Tensor) : State := { base with tensors := ⟨[(1, t)]⟩ }
/-- The largest tensor id. -/
def topId : Word64 := 0xffffffff
def zeroCrc : Nat := crc32c (List.replicate 64 0)

/-- WeightsAreAdmittedMappedAndReloaded: every row, with the ends of the ranges of ids, bytes and offsets. -/
theorem test_WeightsAreAdmittedMappedAndReloaded :
    runsIt 0x201 [topId, 2048, 0] base = true ∧ (base.allocView base.pagesInUse 1 0).isSome = true ∧
    (base.allocView base.pagesInUse 1 0).bind (fun ps => base.allocMirror 0 (ps.map viewPage ++ base.pagesInUse) ps) ≠ none ∧
    status (.admitBegin 0 0) 0x201 [topId, 2048, 0] base = 0 ∧ status (.admitBegin 0 0) 0x201 [topId, 2048, 1] base = 0 ∧
    status (.admitBegin 0 0) 0x201 [topId + 1, 2048, 0] base = 2 ∧ status (.admitBegin 0 0) 0x201 [topId, 2047, 0] base = 2 ∧
    status (.admitBegin 0 0) 0x201 [topId, 0, 0] base = 2 ∧ status (.admitBegin 0 0) 0x201 [topId, 2048, 2] base = 2 ∧
    status (.admitBegin 0 0) 0x201 [1, 2048, 0] (tensorIn (tensor false true [] [])) = 5 ∧
    status (.admitBegin 0 0) 0x201 [topId, 2048, 0] { base with tensors := ⟨(List.range 64).map fun i => (i + 1, tensor false false [] [])⟩ } = 1 := by decide +kernel

/-- The same: a chunk with a right and a wrong CRC, its bitmap, and the end; the chunk is 64 bytes long, so that the kernel's CRC is short. -/
theorem test_WeightsAreAdmittedMappedAndReloaded_data :
    let t : Tensor := { tensor true false [] [] with bytes := 64 }
    let s := tensorIn t
    runsIt 0x202 [1, 0, 0x10000, BitVec.ofNat 64 zeroCrc] s = true ∧ 0 < t.chunks ∧ zeroCrc < 2 ^ 32 ∧ s.hostFaults 0x10000 (t.chunkLen 0) = false ∧
    status (.admitData 0) 0x202 [1, 0, 0x10000, BitVec.ofNat 64 zeroCrc] s = 0 ∧ status (.admitData 0) 0x202 [1, 0, 0x10000, 0] s = 14 ∧
    (s.tensorAddr t false 0 + 2048 ≤ s.tensorAddr t true 0 ∨ s.tensorAddr t true 0 + 2048 ≤ s.tensorAddr t false 0) ∧
    t.bits.length < t.chunks ∧ (tensor true false [0] []).chunks ≤ (tensor true false [0] []).bits.length ∧
    status (.admitEnd 0) 0x203 [1] s = 5 ∧ status (.admitEnd 0) 0x203 [1] (tensorIn (tensor true false [0] [])) = 0 ∧
    status (.admitResume 0) 0x204 [1, 0x8000] s = 0 ∧ status (.admitAbort 0) 0x205 [1] s = 0 ∧ status (.admitAbort 0) 0x205 [2] s = 6 ∧
    status (.admitAbort 0) 0x205 [1] (tensorIn (tensor true true [] [])) = 5 := by decide +kernel

/-- The same: mapping an admitted tensor, and its reload. -/
theorem test_WeightsAreAdmittedMappedAndReloaded_maps :
    let s : State := { tensorIn (tensor false true [] []) with households := ⟨[(1, { house with ptLen := 3 })]⟩ }
    let u := tensorIn (tensor false true [] [(1, 0)])
    runsIt 0x206 [1, 1, 2] s = true ∧ s.unmapped 1 2 1 = true ∧ s.unmapped 1 1 1 = false ∧ status (.weightMap 0) 0x206 [1, 1, 2] s = 0 ∧
    status (.weightMap 0) 0x206 [1, 1, 1] s = 2 ∧ status (.weightMap 0) 0x206 [1, 1, 0] u = 5 ∧ status (.weightUnmap 0) 0x207 [1, 1] u = 0 ∧
    status (.weightFree 0) 0x208 [1] u = 5 ∧ status (.weightFree 0) 0x208 [1] s = 0 ∧ u.replayRuns (tensor false true [] [(1, 0)]) = false ∧
    ({ u with jobs := ⟨[(1, { job with serving := { active := true, replay := true } })]⟩ } : State).replayRuns (tensor false true [] [(1, 0)]) = true ∧
    u.tensorAddr (tensor false true [] []) false 0 < sramBase ∧ u.tensorAddr (tensor true true [] []) true 0 < sramBase ∧
    u.blkPoison.contains (u.tensorAddr (tensor false true [] []) false 0 / 2048) = false ∧ u.hostFaults 0x10000 2048 = false ∧
    ((after (.blockReload 0) (running 0x209 [1, 0, 0x10000] u)).postbox 0).cplQ.length = 1 := by decide +kernel

/-- The journal of these tests is sound; with both copies poisoned the row gives JOURNAL status 15 (R392). -/
theorem test_journal : base.journalSound ∧
    (let s : State := { base with blkPoison := (base.firmCopies 0 .journal).map fun a => a / 2048 }
     (∀ b ∈ s.firmCopies 0 .journal, s.blkPoison.contains (b / 2048) = true) ∧ runsIt 0x205 [1] s = true ∧ status (.admitAbort 0) 0x205 [1] s = 15) ∧
    (base.household 1).ptBase + 8 * (base.household 1).ptLen ≤ reservedBytes := by
  unfold State.journalSound
  decide +kernel

/-- An image of one placed hamlet on die 0 whose Hand 0 halts: a header, a PLACEMENT and a HAND_CODE of one word. -/
def image : List Byte :=
  let b := toBytes 4 0x38385441 ++ toBytes 2 3 ++ toBytes 2 2 ++ toBytes 4 180 ++ toBytes 4 0 ++ [1, 0, 0, 0] ++ toBytes 4 64 ++ List.replicate 104 0 ++
    (toBytes 4 1 ++ toBytes 4 160 ++ toBytes 4 16 ++ toBytes 4 0) ++ (toBytes 4 2 ++ toBytes 4 176 ++ toBytes 4 4 ++ toBytes 4 0) ++
    (toBytes 8 1 ++ toBytes 8 1) ++ toBytes 4 0x5b
  b.take 12 ++ toBytes 4 (imageCrc b) ++ b.drop 16
/-- What it says, and the job that it becomes. -/
def image1 : JobImage := (parseImage image 180).getD {}
/-- No job, and the image at 0x20000 of host memory. -/
def empty : State := { calm with hamlets := {}, hostMem := base.hostMem.writeBytes 0x20000 image }
def loaded : Job := { state := .loaded, household := 1, image := image1, granules := [], places := [⟨0, 0, 0, false, 0⟩], mode := 1 }

/-- JobsLoadAndStart: a valid image, one that is not, one for another die count, and starting. -/
theorem test_JobsLoadAndStart :
    (parseImage image 180).isSome = true ∧ parseImage (image.set 150 1) 180 = none ∧ runsIt 0x301 [1, 0x20000, 180] empty = true ∧
    empty.hostMem.readBytes 0x20000 180 = image ∧ empty.hostFaults 0x20000 180 = false ∧ image1.dies = 0 ∧ empty.sliceOk image1 = true ∧
    image1.places.all (fun p => p.die < empty.dieCount) = true ∧ empty.peers (image1 :: empty.heldImages) ≤ 8192 ∧ image1.wants = [(0, 0)] ∧
    empty.freeSlotAt m0 = true ∧ (empty.hamlet m0).mills.cells = [] ∧ (empty.pickGranules 0 image1.places).map List.length = some 1 ∧
    empty.freeJob 0 = some 1 ∧ image1.engineWants.any empty.heldEngine = false ∧
    ({ image1 with dies := 2 } : JobImage).dies ≠ empty.dieCount ∧
    (let s : State := { base with jobs := ⟨[(1, loaded)]⟩ }
     runsIt 0x302 [1, 5, 0] s = true ∧ s.boxReaches 0 1 = true ∧ loaded.state = .loaded ∧ loaded.slotOf 0 0 = some 0 ∧
       s.resolve (actorOf 1 loaded) true (s.ownEa 0) = some (.mem page0 .plain) ∧ status (.jobStart 0) 0x302 [1, 5, 0] s = 0 ∧
       ((after (.jobStart 0) (running 0x302 [1, 5, 0] s)).hand h0).mode = .running) ∧
    (let s : State := { base with jobs := ⟨[(1, loaded)]⟩ }
     (∀ q ∈ loaded.places, q.slot < 18 ∧ (q.die = 0 → q.slot = 0 → q = ⟨0, 0, 0, false, 0⟩)) ∧
       (loaded.image.codes.find? fun x => x.die == 0 && x.hamlet == 0 && x.unit == 0).isSome = true ∧
       loaded.image.codes.find? (fun x => x.die == 0 && x.hamlet == 0 && x.unit == 1) = none ∧
       ((after (.jobStart 0) (running 0x302 [1, 5, 0] s)).hand ⟨0, 0, 1⟩).s 1 = 0) ∧
    (let s : State := { empty with hamlets := ⟨[(0, { retired := true }), (16, { retired := true })]⟩ }
     s.defects = [] ∧ (∃ w ∈ image1.wants, s.unavailable w.1 w.2 = true) ∧ (∀ x ∈ s.hamlets.cells, x.2.hwFault = false) ∧
       status (.jobLoad 0 0 []) 0x301 [1, 0x20000, 180] s = 9) ∧
    status (.jobStart 0) 0x302 [1, 5, 0] base = 5 ∧ status (.jobStart 0) 0x302 [2, 5, 0] base = 6 := by decide +kernel

/-- JobsEndAndReport: one halted job with its scrub to come and one without, a limit that has and has not passed, and each job state. -/
theorem test_JobsEndAndReport :
    base.entriesOf 1 = [] ∧ (∀ x ∈ job.image.codes, base.codeHalted job x = true) ∧ job.scrubbed = false ∧
    ({ job with places := [] } : Job).scrubbed = true ∧
    (let s : State := { base with clock := 25000, jobs := ⟨[(1, { job with limitMs := 1 })]⟩ }
     25000 * 1 ≤ (s.clock - job.startedAt).toNat) ∧
    runsIt 0x303 [1] base = true ∧ base.boxReaches 0 1 = true ∧ job.live = true ∧ ({ job with state := .ended } : Job).live = false ∧
    (let s := withHand { mode := .faulted }
     (s.jobAt (handSlot h0)).map Prod.fst = some 1 ∧ (s.hand h0).mode = .faulted) ∧
    runsIt 0x304 [1, 0x8000] base = true ∧ base.hostFaults 0x8000 4096 = false ∧
    (job.places.find? fun p => p.die == 1 / 16 && p.logical == 1 % 16) = some ⟨0, 1, 1, false, 0⟩ ∧
    (job.places.find? fun p => p.die == 127 / 16 && p.logical == 127 % 16) = none ∧
    ({ job with scrubs := [⟨0, 1, 5, 6⟩] } : Job).scrubs.find? (fun p => p.die == 1 / 16 && p.logical == 1 % 16) = some ⟨0, 1, 5, 6⟩ ∧
    status (.jobUnload 0) 0x305 [1] { base with jobs := ⟨[(1, { job with state := .ended })]⟩ } = 0 ∧ status (.jobUnload 0) 0x305 [1] base = 5 ∧
    status (.jobUnload 0) 0x305 [1] { base with jobs := ⟨[(1, loaded)]⟩ } = 0 ∧ status (.digestFlush 0) 0x701 [1] base = 0 ∧
    status (.digestFlush 0) 0x701 [1] { base with jobs := ⟨[(1, loaded)]⟩ } = 5 := by decide +kernel

/-! ## Serving -/

/-- A serving job of 64 tokens, its step block at address 0x100 and its Sieve on ring 0 of hamlet 0. -/
def sjob (v : Serving) : Job :=
  { job with
    image := { dies := 0, serving := true, serv := ⟨0x100, 64, 4, 4, 8, 0⟩, sieves := [(0, 0)] }
    serving := v, mode := 1 }
def sess : Session := ⟨1, 1, 0x1000, 512, 4, 0x40000, 4096, false⟩
/-- An entry that has its prompt and generates; its records go to 0x400. -/
def gen (st : EntryState) : Entry :=
  { state := st, household := 1, session := 1, length := 4, promptLen := 4, maxNew := 4, pages := [0], pageList := 0x200, outBuf := 0x400, eos := 7, topK := 1
    rtemp := 0x3f800000, topP := 0x3f800000 }
/-- Job 1 serves with one session and entry 5. -/
def serve (v : Serving) (x : Entry) : State :=
  { base with
    jobs := ⟨[(1, sjob v)]⟩, sessions := ⟨[(1, sess)]⟩, ledger := ⟨[(5, x)]⟩
    households := ⟨[(1, { house with entryQuota := 4, tokenQuota := 100 })]⟩ }
/-- The head Reeve for household 1. -/
def own : Actor := { household := 1, job := none }
/-- Records of a session and of a request, and the image of a grammar with one state and one edge. -/
def sessRec : List Byte := toBytes 8 0x1000 ++ toBytes 4 512 ++ toBytes 4 4 ++ toBytes 8 0x40000 ++ toBytes 8 4096 ++ List.replicate 32 0
def reqRec : List Byte :=
  toBytes 8 0 ++ toBytes 8 0 ++ toBytes 8 (4 * 2 ^ 21 + 4 * 2 ^ 42) ++ toBytes 8 0 ++ toBytes 8 0x200 ++ toBytes 8 0 ++ toBytes 8 0 ++ toBytes 8 9 ++
    toBytes 8 (2 ^ 8 + 0x3f800000 * 2 ^ 32) ++ toBytes 8 (0x3f800000 + 7 * 2 ^ 32) ++ toBytes 8 0x400 ++ toBytes 8 0x500 ++ List.replicate 32 0
def gramRec : List Byte :=
  let l := toBytes 8 (2 ^ 24 + 2 ^ 42) ++ toBytes 8 (63 * 2 ^ 18)
  toBytes 8 (1 + 2 ^ 32) ++ toBytes 8 63 ++ List.replicate 12 0 ++ toBytes 4 (crc32c l) ++ l
/-- With a record at 0x20000 of host memory. -/
def reading (b : List Byte) (s : State) : State := { s with hostMem := s.hostMem.writeBytes 0x20000 b }

/-- ServingCommandsAct: sessions and requests. -/
theorem test_ServingCommandsAct :
    let s := serve {} (gen .active)
    runsIt 0x401 [1, 0x20000] s = true ∧ (sjob {}).live = true ∧ s.boxReaches 0 1 = true ∧
    (reading sessRec s).hostMem.readBytes 0x20000 64 = sessRec ∧ s.mappedRun 1 0x1000 (4 * 512) = true ∧ freeNumber s.sessions 1 65535 0 = some 2 ∧
    status (.sessionOpen 0 0) 0x401 [1, 0x20000] (reading sessRec s) = 0 ∧
    status (.sessionOpen 0 0) 0x401 [1, 0x20000] (reading (sessRec.set 8 1) s) = 2 ∧
    s.stepRuns 1 = false ∧ (serve { active := true } (gen .active)).stepRuns 1 = true ∧ status (.sessionClose 0) 0x402 [1] s = 0 ∧
    s.entryArgs 1 reqRec = true ∧ s.entryArgs 1 (reqRec.set 65 0) = false ∧ s.overQuota 1 (entryOf reqRec) = false ∧
    (serve {} { gen .active with maxNew := 93 }).overQuota 1 (entryOf reqRec) = true ∧ s.freeEntry 5 = some 6 ∧
    (s.poolTake 1 sess (entryOf reqRec).pagesNeeded 0).isSome = true ∧ status (.submit 0 6) 0x403 [1, 0x20000] (reading reqRec s) = 0 ∧
    status (.submit 0 6) 0x403 [1, 0x20000] (reading reqRec (serve {} { gen .active with maxNew := 93 })) = 1 := by decide +kernel

/-- The same: CANCEL, PAUSE and RESUME in the states that they take and refuse. -/
theorem test_ServingCommandsAct_entries :
    let s (st : EntryState) := serve {} (gen st)
    (s .queued).resolve own true ((s .queued).ownEa 0x400) = some (.mem (page0 + 0x400) .plain) ∧
    (s .queued).poisonedAt (page0 + 0x400) 8 = false ∧ status (.cancel 0) 0x404 [5] (s .active) = 0 ∧ status (.cancel 0) 0x404 [5] (s .paused) = 0 ∧
    ((s .active).cellarRoom 1 sess 5 512).isSome = true ∧ (s .active).cellarRoom 1 { sess with cellarBytes := 511 } 5 512 = none ∧
    status (.pause 0) 0x405 [5, 1] (s .active) = 0 ∧ status (.pause 0) 0x405 [5, 1] (s .queued) = 5 ∧
    (let p := serve {} { gen .paused with pages := [], expiry := 1 }
     p.clock.toNat < (1 : Word64).toNat ∧ (p.poolTake 1 sess 1 0).isSome = true ∧ p.reachable 1 true 0x200 4 = true ∧
       p.poolTake 1 { sess with pool := 0 } 1 0 = none ∧ status (.resume 0 0) 0x406 [5] p = 0) ∧
    status (.resume 0 0) 0x406 [5] (s .active) = 5 := by decide +kernel

/-- The same: adapters, grammars and queries. -/
theorem test_ServingCommandsAct_slots :
    let s := serve {} (gen .active)
    let a (n : Nat) : State := { s with adapters := ⟨[(255, ⟨1, 9, 3, 0, true, n, false⟩)]⟩ }
    let full : State := { s with
      adapters := ⟨(List.range 255).map fun i => (i + 1, ⟨2, 9, 3, 0, true, 1, false⟩)⟩ }
    runsIt 0x407 [1, 9, 4, 0] s = true ∧ s.currentAdapter 1 9 = none ∧ (a 1).currentAdapter 1 9 = some (255, ⟨1, 9, 3, 0, true, 1, false⟩) ∧
    status (.adapterLoad 0 0) 0x407 [1, 9, 4, 0] s = 0 ∧ status (.adapterLoad 0 0) 0x407 [1, 9, 3, 0] (a 1) = 5 ∧
    status (.adapterLoad 0 0) 0x407 [1, 9, 4, 0] (a 1) = 0 ∧ ((after (.adapterLoad 0 0) (running 0x407 [1, 9, 4, 0] (a 0))).adapters.find 255) = none ∧
    status (.adapterLoad 0 0) 0x407 [1, 9, 4, 0] full = 8 ∧ status (.adapterRetire 0) 0x408 [1, 9] s = 6 ∧
    status (.adapterRetire 0) 0x408 [1, 9] (a 1) = 0 ∧ gramRec.length = 48 ∧ grammarOk gramRec 48 (grammarOf 1 0x200 gramRec) = true ∧
    grammarOk (gramRec.set 12 1) 48 (grammarOf 1 0x200 (gramRec.set 12 1)) = false ∧
    status (.grammarLoad 0 0) 0x409 [1, 0x20000, 48, 0x200] (reading gramRec s) = 0 ∧
    (let g : State := { s with grammars := ⟨[(1023, grammarOf 1 0x200 gramRec)]⟩ }
     g.entriesWhere (fun x => x.grammar == 1023) = [] ∧ status (.grammarFree 0) 0x40a [1, 1023] g = 0 ∧ status (.grammarFree 0) 0x40a [1, 1022] g = 6) ∧
    status (.ledgerQuery 0) 0x40b [0, 5, 1, 0x8000] s = 0 ∧ status (.ledgerQuery 0) 0x40b [0, 16383, 2, 0x8000] s = 0 ∧
    status (.ledgerQuery 0) 0x40b [1, 0, 4, 0x8000] s = 0 ∧ status (.ledgerQuery 0) 0x40b [2, 0, 7, 0x8000] s = 0 ∧
    status (.ledgerQuery 0) 0x40b [3, 0, 7, 0x8000] s = 2 ∧ s.stateCount 0 .active < 2 ^ 64 := by decide +kernel

/-- The single row of a step, and a step that runs with it. -/
def row0 : StepRow := ⟨5, true, 4, 0⟩
def stepping : Serving := { active := true, rows := [row0], batch := [5] }
/-- Slot 0 of ring 0 carries 64 FP32 logits. -/
def logits (s : State) : State := { s with mem := s.mem.writeBytes (sramAddr m0 0x1000) (toBytes 8 (hdrWord 4 0 false 256).toNat) }

/-- ServingStepsStartSampleAndEnd: a step that starts, one without entries, a row that a Sieve takes, a sample with and without candidates, a boundary
with and without poison, and a replay. -/
theorem test_ServingStepsStartSampleAndEnd :
    let s := serve {} (gen .queued)
    (s.pastDeadline (gen .queued) = false ∧ s.entriesOf 1 = [5] ∧ s.ranked 1 = [5] ∧
      s.resolve own true (s.ownEa 0x100) = some (.mem (page0 + 0x100) .plain) ∧ s.poisonedAt (page0 + 0x100) 96 = false ∧
      (sjob {}).ringOf 0 = some r0) ∧
    (serve {} (gen .paused)).ranked 1 = [] ∧
    (let t := logits (serve stepping (gen .active))
     shardOf 64 t.dieCount 0 = (0, 64) ∧ (sjob stepping).sieveRing 0 = some r0 ∧ stepping.sampled[stepping.takenBy 0]? = some row0 ∧
       (t.ring r0).claim = 0 ∧ (t.slotIn r0 0).fmt = 4 ∧ (t.slotIn r0 0).bytes.length = 256 ∧ (t.slotIn r0 0).poison = false ∧
       t.sieveDies (sjob stepping) = [0]) ∧
    topRanked [] = [] ∧ topRanked [⟨3, 0⟩] = [⟨3, 0⟩] ∧ (gen .active).sample = false := by decide +kernel

theorem test_ServingStepsStartSampleAndEnd_boundary :
    let v : Serving := { stepping with taken := ⟨[(0, 1)]⟩, sent := [⟨0, 0, [⟨7, 0⟩]⟩], verdicts := [⟨5, some 7⟩] }
    let s := serve v (gen .active)
    s.stepDone (sjob v) = true ∧ v.verdictOf 5 = some (some 7) ∧ v.wild = false ∧ v.kvWild = false ∧ (s.jobs.cells.all fun c => !c.2.serving.kvWild) = true ∧ s.adapterChanged (gen .active) = false ∧ ((after (.stepBoundary 1) s).entry 5).final = 8 ∧
    (serve { v with poisoned := true } (gen .active)).stepDone (sjob { v with poisoned := true }) = true ∧
    (let h := serve { v with held := true, active := false } (gen .held)
     h.badLeft (sjob { v with held := true, active := false }).serving = [] ∧ ([5].filter fun e => (h.entry e).state == .held) = [5] ∧
       ([row0].filter fun r => (h.entry r.entry).state == .held && [5].contains r.entry) = [row0] ∧ 1 ≤ (sjob v).mode.toNat ∧
       ((after (.stepReplay 1 none) h).entry 5).state = .active) := by decide +kernel

/-- The same: a poisoned step whose block is of an admitted tensor asks for its data, and waits for it; a block of no pool ends the job; a replay of
no request; and a replay that raises a NORMAL job. -/
theorem test_ServingStepsStartSampleAndEnd_poison :
    let y := tensor false true [] []
    let b := base.tensorAddr y false 0 / 2048
    let v : Serving := { stepping with verdicts := [⟨5, some 7⟩], taken := ⟨[(0, 1)]⟩, sent := [⟨0, 0, []⟩], poisoned := true, badBlocks := [b] }
    let h : Serving := { v with held := true, active := false }
    (let s := { serve v (gen .active) with tensors := ⟨[(1, y)]⟩, blkPoison := [b] }
     s.stepDone (sjob v) = true ∧ s.tensorAt (2048 * b) = some (1, y, 0, false) ∧ s.reload = [] ∧ (s.sessions.cells.all fun q => !q.2.closing) = true ∧ ((after (.stepBoundary 1) s).entry 5).state = .held ∧
       (after (.stepBoundary 1) s).reload = [(1, 0)]) ∧
    (let s := { serve v (gen .active) with sessions := (serve v (gen .active)).sessions.mapV fun _ q => { q with closing := true } }
     ((s.sessions.find (gen .active).session).map fun q => (q.closing, q.job)) = some (true, 1) ∧ ((after (.stepBoundary 1) s).entry 5).final = 5) ∧
    (let s := { serve h (gen .held) with tensors := ⟨[(1, y)]⟩, blkPoison := [b] }
     s.badLeft h = [(b, true)] ∧ after (.stepReplay 1 none) s = s) ∧
    (let s := { serve h (gen .held) with blkPoison := [b] }
     s.badLeft h = [(b, false)] ∧ s.poolPages 1 1 (2048 * b) = [] ∧ ((after (.stepReplay 1 none) s).jobs.find 1).map (·.state) = some (.ending .fault)) ∧
    (let s := serve h (gen .free)
     s.badLeft h = [] ∧ ([5].filter fun e => (s.entry e).state == .held) = [] ∧ ((after (.stepReplay 1 none) s).jobs.find 1).map (·.serving.step) = some 1) ∧
    (let j := { sjob h with mode := 0, argBlock := 0x600 }
     let s := { serve h (gen .held) with jobs := ⟨[(1, j)]⟩ }
     s.resolve own true (s.ownEa 0x600) = some (.mem (page0 + 0x600) .plain) ∧ s.poisonedAt (page0 + 0x600) 4 = false ∧
       s.resolve own true (s.ownEa 0x100) = some (.mem (page0 + 0x100) .plain) ∧ s.poisonedAt (page0 + 0x100) 96 = false ∧
       (page0 + 0x100) + (64 + 32 * 1) ≤ page0 + 0x600 ∧ ((after (.stepReplay 1 none) s).jobs.find 1).map (·.mode) = some 1 ∧
       ((after (.stepReplay 1 none) s).hand h0).evPend.getLsbD 5 = true) := by decide +kernel

/-- An entry without a grammar allows every token and keeps its state; and the head Reeve, which runs no step, moves no misused KV. -/
theorem test_Serving_views (s : State) (st : EntryState) (hg : s.grammars.find 0 = none) (hn : s.adapters.cells = [])
    (hs : (s.jobs.cells.all fun c => !c.2.serving.kvWild) = true) (write : Bool) (ea n : Nat) :
    (∀ u : State, u.grammars = s.grammars → u.sieves = s.sieves → u.gramView 0 (gen st) = .ok ⟨[⟨0, 2 ^ 18, 0⟩], true⟩) ∧
    s.kvRespected own write ea n := by
  refine ⟨fun u h _ => ?_, kv_idle _ _ _ _ _ (by simp [own]) hn hs⟩
  have h0 : u.grammars.find (gen st).grammar = none := by rw [h]; exact hg
  unfold State.gramView
  rw [h0]
  rfl

/-- An entry whose one page in the Cellar was 512 zeros. -/
def backEntry : Entry := { gen .resuming with crcs := [BitVec.ofNat 32 (crc32c (List.replicate 512 0))] }
theorem test_backEntry : backEntry.crcs.getD 0 0 = BitVec.ofNat 32 (crc32c (List.replicate 512 0)) := rfl

/-- CellarCopiesAndMirrorsRestore: one page of 512 zeros out and in, a request that expires, and a poisoned block of a mirrored tensor. -/
theorem test_CellarCopiesAndMirrorsRestore :
    let s (x : Entry) := serve {} x
    let out : Entry := { gen .pausing with wish := .pause 1 }
    let back : Entry := backEntry
    out.usedPages = 1 ∧ (s out).resolve own false ((s out).ownEa 0x1000) = some (.mem (page0 + 0x1000) .plain) ∧
    (s out).cryptFor 1 ((s out).pte 1 (0x1000 / pageBytes)) = .plain ∧ (s out).hostFaults 0x40000 512 = false ∧
    (s out).poisonedAt (page0 + 0x1000) 512 = false ∧ ((after (.cellarCopyOut 5 true) (s out)).entry 5).state = .paused ∧
    (s back).pastDeadline back = false ∧ (s back).hostMem.readBytes 0x40000 512 = List.replicate 512 0 ∧
    (s back).hostFaults 0x40000 512 = false ∧ back.usedPages = 1 ∧
    ((after (.cellarCopyIn 5 false) (s back)).entry 5).final = 7 ∧ ((after (.expiry 5) (s (gen .paused))).entry 5).final = 6 := by decide +kernel

theorem test_CellarCopiesAndMirrorsRestore_mirror :
    let y := tensor true true [] []
    let s := tensorIn y
    let u : State := { s with blkPoison := [s.tensorAddr y false 0 / 2048] }
    2048 * 0 < y.bytes ∧ u.mem.wf = true ∧ s.tensorAddr y true 0 / 2048 ∉ u.blkPoison ∧ s.tensorAddr y false 0 / 2048 ∈ u.blkPoison ∧
    (after (.mirrorRestore 1 0) u).blkPoison = [] := by decide +kernel

/-! ## Settings, power and resets -/

/-- A torus of 4 packages along x with one link in each direction of it. -/
def board0 : BoardDesc := ⟨1, 3, 2, false, [⟨1, 0, 0, false, false⟩, ⟨1, 1, 0, false, false⟩], [], [], [⟨2, 0x40⟩]⟩
/-- A package on which no job is. -/
def link0 (x : Landing) : State := { calm with landings := ⟨[(0, x)]⟩ }
def loop0 : LoopOutcome := ⟨false, 8, 8, 0, 0, 1⟩

/-- TopologyLinksAndSettingsCommands: each command on both sides of its limits. -/
theorem test_TopologyLinksAndSettingsCommands :
    let rated := calm.part.rated
    calm.boardOk board0 = true ∧ calm.boardOk { board0 with coord := 4 } = false ∧ calm.anyJob = false ∧ base.anyJob = true ∧
    status (.topologySet 0 board0) 0x501 [0, 0] calm = 0 ∧ status (.topologySet 0 { board0 with coord := 4 }) 0x501 [0, 0] calm = 2 ∧
    status (.topologySet 0 board0) 0x501 [0, 0] base = 5 ∧
    roleOk 3 5 2 = true ∧ roleOk 4 0 0 = false ∧ 23 < base.linkCount ∧
    status (.linkAssign 0) 0x502 [23, 1] calm = 0 ∧ status (.linkAssign 0) 0x502 [23, 4] calm = 2 ∧ status (.linkAssign 0) 0x502 [23, 1] base = 5 ∧
    base.assignable 0 ⟨1, 0, 0, false, false⟩ = false ∧
    ({ base with landings := ⟨[(0, { state := .standby, role := 3 }), (1, { state := .failed, role := 1 })]⟩ } : State).standsIn 0 ⟨1, 0, 0, false, false⟩ = true ∧
    status (.linkStatus 0) 0x503 [0x8000] calm = 0 ∧
    40 * rated ≤ 100 * rated ∧ 100 * 0 < 40 * rated ∧ status (.powerCap 0) 0x601 [BitVec.ofNat 64 rated] calm = 0 ∧
    status (.powerCap 0) 0x601 [BitVec.ofNat 64 (rated + 1)] calm = 2 ∧ status (.powerCap 0) 0x601 [1] calm = 2 ∧ status (.powerCap 0) 0x601 [0] calm = 0 ∧
    status (.determinism 0) 0x603 [2] calm = 0 ∧ status (.determinism 0) 0x603 [3] calm = 2 ∧ status (.lpddrShares 0) 0x604 [16, 4] calm = 0 ∧
    status (.lpddrShares 0) 0x604 [4, 0] calm = 0 ∧ status (.lpddrShares 0) 0x604 [3, 0] calm = 2 ∧ status (.lpddrShares 0) 0x604 [17, 0] calm = 2 ∧
    status (.lpddrShares 0) 0x604 [4, 5] calm = 2 ∧ status (.lotSeed 0) 0x605 [9] calm = 0 ∧ status (.settingsRead 0) 0x606 [0x8000] calm = 0 := by
  decide +kernel

/-- The same: LOOPBACK. -/
theorem test_TopologyLinksAndSettingsCommands_loop :
    calm.loopArgs 2 0 4 0 = true ∧ calm.loopArgs 2 0 5 1 = false ∧ calm.loopArgs 1 0 3 1 = false ∧ (link0 { state := .failed }).loopReady 2 0 4 1 true = true ∧
    (link0 { state := .failed }).loopReady 2 0 4 1 false = false ∧ (link0 { state := .active }).loopReady 2 0 4 1 true = false ∧
    status (.loopback 0 loop0) 0x702 [2, 4, 0, 0x8000] (link0 { state := .failed }) = 0 ∧
    status (.loopback 0 loop0) 0x702 [2, 1, 8, 0x8000] (link0 { state := .failed }) = 0 ∧
    status (.loopback 0 loop0) 0x702 [2, 1, 8, 0x8000] (link0 { state := .active }) = 5 ∧
    status (.loopback 0 loop0) 0x702 [0x103, 4, 8, 0x8000] calm = 0 ∧ calm.loopArgs 3 1 4 8 = true ∧ calm.loopReady 3 1 4 8 false = true ∧
    calm.loopArgs 1 0 1 8 = true ∧ calm.loopReady 1 0 1 8 false = true ∧ calm.hostFaults 0x8000 64 = false ∧
    (let w := loopWithin 4 loop0; w.sent = 4 ∧ w.received = 4 ∧ w.errors = 0) ∧ (loopWithin 8 { loop0 with received := 7 }).received = 7 ∧
    (loopWithin 8 { loop0 with sent := 0, errors := 9, micros := 1000001 }).micros = 1000000 ∧
    recNat ((after (.loopback 0 { loop0 with received := 7, lane := 3 }) (running 0x702 [1, 1, 8, 0x8000] calm)).hostMem.readBytes 0x8000 34) 32 2 = 3 ∧
    recNat ((after (.loopback 0 { loop0 with lane := 3 }) (running 0x702 [1, 1, 8, 0x8000] calm)).hostMem.readBytes 0x8000 34) 32 2 = 0xffff := by
  decide +kernel

/-- Depth 4 of an LPDDR site writes patterns over its test area, which lies above DIE_TOP (R193, R407). -/
theorem test_loop_site : (calm.testSectors c0).length = 4096 ∧ (calm.testSectors c0).all (fun a => (calm.dieLocal a).isNone && calm.isData a) = true ∧
    (loopWithin 5000 loop0).sent = 5000 ∧ (loopWithin 5000 { loop0 with micros := 1000000 }).sent = 8 := by decide +kernel

/-- The regulator of rail 2 is known. A tick that reads `w` watts from it, and the temperatures given. -/
def known : Rails := { described := true, regs := [⟨2, 0x40⟩] }
def tick (w : Nat) (temps : List Nat) : Instr := .governorTick [⟨2, some (12000, 1, w)⟩] temps ⟨false, false, false⟩
/-- A state whose governor is the one given. -/
def governing (g : Governor) : State := { base with gov := g, rails := known }
/-- Die 3 reads 101 °C. -/
def hot3 : List Nat := [20, 20, 20, 101]

/-- PowerStatesGovernorAndHeartbeat: each clause, and the readings at the cap, at 90 % of it and below. -/
theorem test_PowerStatesGovernorAndHeartbeat :
    runsIt 0x602 [2] calm = true ∧ calm.deepRefused 0 = false ∧ base.deepRefused 0 = true ∧ status (.powerState 0) 0x602 [2] base = 5 ∧
    status (.powerState 0) 0x602 [3] calm = 2 ∧ status (.powerState 0) 0x602 [1] calm = 0 ∧ (running 0x602 [2] calm).boxRoom 0 = true ∧
    (after (.powerState 0) (running 0x602 [2] calm)).ident.power = .deep ∧ base.governed = true ∧
    (let w := base.cap
     (governing {}).regReads [⟨2, some (12000, 1, w)⟩, ⟨3, none⟩] = [⟨2, some (12000, 1, w)⟩] ∧ inputPower [⟨2, some (12000, 1, w)⟩] = some w ∧
     ((after (tick (w + 1) []) (governing {})).gov.target = 1) ∧ ((after (tick w []) (governing {})).gov.target = 0) ∧
     ((after (tick 0 []) (governing { target := 3, lowTicks := 9 })).gov.target = 2) ∧
     ((after (tick 0 hot3) (governing { target := 7, level := 7 })).gov.target = 7)) ∧
    (let t := after (tick 0 hot3) (governing {})
     ((List.range base.dieCount).filter fun d => decide (100 < hot3.getD d 0)) = [3] ∧
       t.logNext = base.logNext + 1 ∧ t.gov.temps = hot3 ∧ (after (tick 0 hot3) t).logNext = t.logNext) ∧
    (after (.governorTick [] [] ⟨false, true, false⟩) base).ident.state = .undefined ∧
    (after (.governorTick [] [] ⟨false, false, true⟩) { base with pins := { base.pins with pmbAlert := false } }).pins.pmbAlert = true ∧
    (let t := after (.governorTick [⟨2, none⟩] [] ⟨false, false, false⟩) (governing {})
     (governing {}).regReads [⟨2, none⟩] = [⟨2, none⟩] ∧ (governing {}).logRoom base.logNext = true ∧
       ((t.logRing.find base.logNext.toNat).map fun q => (q.cls, q.event, q.place)) = some (8, 2, 2)) ∧
    ((governing { target := 1 }).rails.described = true ∧ base.rails.described = false) ∧
    (base.quiet = false ∧ ({ base with hamlets := {} } : State).quiet = true ∧ status (.powerState 0) 0x602 [1] { base with hamlets := {} } = 0) ∧
    (governing { target := 1 }).gov.target ≠ (governing { target := 1 }).gov.level ∧
    (let s : State := { governing { sevenSince := some 0 } with clock := 2500000 }
     s.governed = true ∧ s.gov.reported = false ∧ s.gov.above s.cap 100 = false ∧ (0 : Word64).toNat + 2500000 ≤ s.clock.toNat) ∧
    (let s : State := { base with hamlets := {}, mclk := 2 ^ 40 }
     s.clocked = true ∧ s.settings.dozeBarred = false ∧ s.quietMs = true ∧ s.sieveBusy = false ∧ (after .dozeEntry s).ident.power = .doze ∧
       (after .dozeExit (after .dozeEntry s)).ident.power = .run) ∧
    (let s : State := { calm with ident := { state := .ready, power := .deep }, deepWake := true, deepSave := some ⟨{}, 0, {}, {}, {}, {}, {}, {}⟩ }
     let t := { s with landings := ⟨[(0, { role := 1, state := .disabled })]⟩ }
     s.clocked = true ∧ (∀ a ∈ s.firmCopies 0 .deepSave, s.blkPoison.contains (a / 2048) = false) ∧
       (after (.deepExit 2) s).ident.power = .deep ∧ (after (.deepExit 2) (after (.deepExit 2) s)).ident.power = .run ∧
       (after (.deepExit 0) s).logNext = s.logNext + 1 ∧
       ((after (.deepExit 2) t).landing 0).state = .retrain ∧ (after (.deepExit 2) (after (.deepExit 2) t)).ident.power = .deep ∧
       (let u := { s with blkPoison := (s.firmCopies 0 .deepSave).map fun a => a / 2048 }
        (∀ a ∈ u.firmCopies 0 .deepSave, u.blkPoison.contains (a / 2048) = true) ∧ (after (.deepExit 2) u).ident.state = .undefined)) ∧
    (after .heartbeat base).ident.heartbeat = 1 := by decide +kernel

def boot0 : BootOutcome := ⟨true, true, 3, 4, 5, List.replicate 48 .rate9600, [], [], {}, none⟩
def warm0 : WarmOutcome := ⟨true, true, true, {}⟩
/-- A part without power. -/
def dark : State := State.reset

/-- ResetsLeaveWhatSurvives: each reset where it applies, pulses of WRST_N at both limits, and a boot that fails. -/
theorem test_ResetsLeaveWhatSurvives :
    calm.resettable = true ∧ calm.jobs.cells = [] ∧ calm.defects = [] ∧ calm.parishes = {} ∧ calm.mem.wf = true ∧ calm.ident.state ≠ .boot ∧ calm.lifecycle ≠ .test ∧
    (let s : State := { calm with resetStep := .commanded }
     s.resettable = true ∧ warm0.signatureOk = true ∧ (after (.warmResetSequence warm0) s).ident.state = .ready ∧
       (after (.warmResetSequence ⟨false, false, false, {}⟩) s).ident.state = .failed) ∧
    (after (.pcieHotReset ⟨.inBand, []⟩) calm).households = {} ∧ (after (.pcieHotReset ⟨.perst, []⟩) calm).pins.perst = false ∧
    ((after (.pcieHotReset ⟨.linkDown, [true]⟩) calm).logRing.cells.map fun q => (q.2.cls, q.2.event)) = [(6, 2), (6, 3)] ∧
    (calm.die 0).log.lastCorrected.find 192 = none ∧ (after .pfFlr calm).households = {} ∧
    (running 0x703 [] calm).canAnswer 0 (cmd 0x703 []) = true ∧ (after (.warmReset 0) (running 0x703 [] calm)).resetStep = .commanded ∧
    calm.resetStep = .none ∧ (after (.wrstN 199) calm).pins.wrst = true ∧ (after (.wrstN 1000) calm).resetStep = .heldAtFive ∧
    (after (.wrstNDeassert warm0) (after (.wrstN 1000) calm)).ident.state = .ready ∧
    (after .powerLoss base).pins.porst = false ∧ (after (.thermtrip 0) base).stopped = true ∧ (after (.pmbAlert 0) base).pins.pmbAlert = false ∧
    (after .perstNDeassert { base with pins := { base.pins with perst := false } }).pins.perst = true := by decide +kernel

theorem test_ResetsLeaveWhatSurvives_boot :
    dark.pins.porst = false ∧ siteOutcome boot0 0 = .rate9600 ∧ (after (.coldBoot boot0) dark).ident.state = .ready ∧
    ((after (.coldBoot boot0) dark).ctl ⟨7, 5⟩).resetN = true ∧
    (after (.coldBoot { boot0 with board := some board0 }) dark).rails.regs = [⟨2, 0x40⟩] ∧
    (after (.coldBoot { boot0 with copyA := false, copyB := false }) dark).ident.state = .failed ∧
    (let s : State := { calm with numVFs := 1 }
     s.answers = true ∧ s.vfBox 1 = true ∧ s.vfHousehold 1 = 0 ∧
       ({ s with households := ⟨[(1, { house with vf := 1 })]⟩ } : State).vfHousehold 1 = 1 ∧ s.jobsOfHousehold 1 = [] ∧
       (after (.vfFlr 1) { s with households := ⟨[(1, { house with vf := 1 })]⟩ }).households = {} ∧ (after (.vfEnable 15) s).numVFs = 15 ∧
       (after (.vfEnable 0) s).numVFs = 0) := by decide +kernel

/-- ResetsLeaveWhatSurvives: the bank self-test of a warm reset, for a slot and a granule, defective and mended (R26, R27). -/
theorem test_ResetsLeaveWhatSurvives_banks :
    let s := after (.wrstN 1000) calm
    s.resetStep = .heldAtFive ∧ (s.hamlet m0).retired = false ∧
    ((after (.wrstNDeassert { warm0 with banks := ⟨[m0], [], [], []⟩ }) s).hamlet m0).retired = true ∧
    (after (.wrstNDeassert { warm0 with banks := ⟨[], [m0], [], []⟩ }) s).logNext = s.logNext + 1 ∧
    ((after (.wrstNDeassert { warm0 with banks := ⟨[], [], [(q0, 39)], []⟩ }) s).parish q0).retired = BitVec.ofNat 40 (2 ^ 39) ∧
    (after (.wrstNDeassert { warm0 with banks := ⟨[], [], [], [(q0, 39)]⟩ }) s).logNext = s.logNext + 1 := by decide +kernel

/-- No byte of on-chip memory is behind a fence while none is raised and no granule is retired. -/
theorem test_fenced (a : Nat) : ({ calm with hamlets := {} } : State).fenced a = false := by
  unfold State.fenced
  split
  · rfl
  · refine (Bool.and_eq_false_iff).mpr (Or.inr ?_)
    show ((0 : BitVec 40).getLsbD _ || false) = false
    simp

/-- R366, R367: a slot that is Off, a Landing in DISABLED, the edge of die 0 to the east, the PCIe controllers of dies 0 and 1, and Deep. -/
theorem test_domains :
    calm.domainOn 0 0 = true ∧ calm.domainOn 0 17 = false ∧ calm.domainOn 0 40 = false ∧ calm.domainOn 0 44 = true ∧ calm.domainOn 0 43 = false ∧
    calm.domainOn 0 47 = true ∧ calm.domainOn 1 47 = false ∧ calm.domainOn 7 49 = true ∧ calm.domainOn 0 50 = false ∧
    (let s : State := { calm with ident := { state := .ready, power := .deep } }
     s.domainOn 0 47 = true ∧ s.domainOn 0 48 = true ∧
       ({ s with deepSave := some ⟨{}, 0, {}, {}, {}, {}, {}, {}⟩ } : State).domainOn 0 47 = true ∧
       ({ s with deepSave := some ⟨{}, 0, {}, {}, {}, {}, {}, {}⟩ } : State).domainOn 0 48 = false) := by decide +kernel

/-! ## Test access and host windows -/

/-- The package in a lifecycle state, with WRST_N high. -/
def lived (l : Lifecycle) : State := { calm with lifecycle := l }

/-- TapInstructionsKeepARunningPart: a running part, WRST_N low, TEST, the codes on both sides of the table, and UNLOCK. -/
theorem test_TapInstructionsKeepARunningPart :
    calm.pins.porst = true ∧ 0 < calm.dieCount ∧ calm.pins.wrst = true ∧ calm.lifecycle = .production ∧ (lived .test).lifecycle = .test ∧
    ((after (.extest 0) calm).die 0).tap.data = .bypass ∧ ((after (.extest 0) { calm with pins := { calm.pins with wrst := false } }).die 0).tap.pins = true ∧
    ((after (.clamp 0) (lived .test)).die 0).tap.pins = true ∧ (0x00 : Byte) ∉ ([0x01, 0x02, 0x03, 0x04, 0x05, 0x06, 0x07, 0x10, 0x11] : List Byte) ∧
    (0x08 : Byte) ∉ ([0x01, 0x02, 0x03, 0x04, 0x05, 0x06, 0x07, 0x10, 0x11] : List Byte) ∧
    (lived .locked).lifecycle ≠ .production ∧ ((after (.unlock 0 (.challenge 5)) calm).die 0).tap.nonce = some 5 ∧
    ((after (.unlock 0 (.response false)) (after (.unlock 0 (.challenge 5)) calm)).die 0).tap.nonce = none ∧
    (let s := after (.extest 0) calm
     (s.die 0).tap.ir = 0x03 ∧ ((after (.wrstN 1000) s).die 0).tap.pins = true ∧ ((after (.wrstNDeassert warm0) (after (.wrstN 1000) s)).die 0).tap.pins = false) := by decide +kernel

/-- HostWindowsAndInstruments: reads of instruments, the entry to TEST and LOCK_FUSE. -/
theorem test_HostWindowsAndInstruments :
    page0 < viewBase ∧ page0 / 0xc000000000 < calm.dieCount ∧ page0 % 0xc000000000 < calm.topPages (page0 / 0xc000000000) * 0x200000 ∧
    ((after (.unlock 0 (.challenge 5)) calm).die 0).tap.nonce.isSome = true ∧
    (after (.unlock 0 (.response true)) (after (.unlock 0 (.challenge 5)) calm)).lifecycle = .test ∧
    (after (.unlock 0 (.response true)) (after (.unlock 0 (.challenge 5)) { calm with deepSave := some ⟨{}, 0, {}, {}, {}, {}, {}, {}⟩ })).deepSave = none ∧
    ((after (.ijtag 0 (.peek (.scalar h0 3))) (withHand { sregs := ⟨[(3, 7)]⟩ })).die 0).tap.data = .network [] ∧
    ((after (.ijtag 0 (.peek (.scalar h0 3))) { withHand { sregs := ⟨[(3, 7)]⟩ } with lifecycle := .test }).die 0).tap.data = .network [7, 0, 0, 0, 0, 0, 0, 0] ∧
    ((after (.ijtag 0 (.poke (.scalar h0 31) [9])) (lived .test)).hand h0).s 31 = 9 ∧
    (after (.lockFuse 0) calm).lifecycle = .locked ∧ (lived .locked).lifecycle ≠ .production := by decide +kernel

/-- The same: BAR2 and BAR0, at the ends of each register block. -/
theorem test_HostWindowsAndInstruments_windows :
    let s : State := { base with bar2Household := 1 }
    s.answers = true ∧ s.fnLive 0 = true ∧ s.ident.power ≠ .deep ∧ (s.bar2Of 0).1 = 1 ∧ s.isOpen 1 = true ∧ s.mem.wf = true ∧
    s.resolve { household := 1, job := none, host := true } true (s.ownEa ((s.bar2Of 0).2 + 0x7f8)) = some (.mem (page0 + 0x7f8) .plain) ∧ (base.bar2Of 0).1 = 0 ∧
    s.isOpen 2 = false ∧ s.reachesBox 0 15 = true ∧ ({ s with numVFs := 1 } : State).reachesBox 1 1 = true ∧ ({ s with numVFs := 1 } : State).fnLive 1 = true ∧
    ((after (.registerWrite (.host 0) (0x10000 + 0x1000 * 15 + 0x008) 0x7f) s).postbox 15).cmdBase = 0x40 ∧
    ((after (.registerWrite (.host 0) 0x10008 0x7f) (boxed box0)).postbox 0).cmdBase = 0x1000 ∧
    (after (.registerWrite (.host 0) 0x30108 5) s).msix.get 0 33 = 5 ∧ s.msixPend = [] ∧
    (let t := { s with msixPend := [16] }
     ({ t with msix := ⟨[(33, 0)]⟩ } : State).msixMasked 0 16 = false ∧ ({ t with msix := ⟨[(33, 2 ^ 32)]⟩ } : State).msixMasked 0 16 = true ∧
       (after (.registerWrite (.host 0) 0x30108 0) t).hostOut = [.msix 0 16] ∧ (after (.registerWrite (.host 0) 0x30108 0) t).msixPend = []) ∧
    0x7f8 + 8 ≤ s.bar2Size 0 ∧ s.bar2Size 0 < s.bar2Size 0 + 1 ∧ s.readBar0 0 0x20008 = some (s.logReg 0 8) ∧
    ({ s with numVFs := 1 } : State).readBar0 1 0x20008 = some 0 ∧ ({ s with numVFs := 1 } : State).readBar0 1 0x12000 = some 0 ∧ (after (.registerWrite (.host 0) 0xfff8 5) s) = s ∧
    ((after (.registerWrite (.reeve 0) 0x2002018 0xff) ({ s with landings := ⟨[(2, { sticky := { crc := true } })]⟩ })).landing 2).sticky.crc = false ∧
    s.unused m0 = false ∧ s.unused ⟨0, 17⟩ = true ∧ after (.registerWrite (.reeve 0) 0x210000 1) s = s ∧
    s.clocked = true := by decide +kernel

/-- An SMBus block read of the Logbook's severities: count, data and PEC (R421). The CRC-8 of the bytes 1 to 9 as ASCII digits is 0xf4. -/
theorem test_smbus : (base.smbRead .logSticky).map List.length = some 10 ∧ pec [0x31, 0x32, 0x33, 0x34, 0x35, 0x36, 0x37, 0x38, 0x39] = 0xf4 := by
  decide +kernel

/-! ## The machine -/

/-- CommandsKeepCanonicalMemory: a state that meets the premise and a command that answers a next state. -/
theorem test_CommandsKeepCanonicalMemory :
    base.mem.wf = true ∧ base.hostMem.wf = true ∧ (match exec (.powerLoss) base with | .next _ => true | _ => false) = true := by decide +kernel

/-- StepRunsTheFrontCommand: a queue of one, and an empty one with and without a clock. -/
theorem test_StepRunsTheFrontCommand :
    (match step { base with pending := [.heartbeat] } with | .next t => t.ident.heartbeat == 1 && t.pending.isEmpty | _ => false) = true ∧
    (match step base with | .next t => decide (t.clock = 1) | _ => false) = true ∧ base.clocked = true ∧ State.reset.clocked = false ∧
    (match step State.reset with | .next t => decide (t = State.reset) | _ => false) = true := by decide +kernel

/-- No word of the table's bits spells a command: the table gives its rows no bits. -/
theorem test_decode : decodeTableWord 32 0 = none ∧ (State.reset.withFetchWord 32 0 = State.reset) := by decide +kernel
/-- Values that come from another package for a SCAN of 8 of them there. -/
def farScan : Vec := desc [(0, 1), (64, 2 ^ 48 + sramBase), (192, 8)]
def farAsked : State :=
  after (.scan q0) { pressAt farScan id [] with
    torus := { dims := 15, group := [⟨0, 0⟩, ⟨1, 1⟩] }, landings := ⟨[(0, { state := .active, role := 1 })]⟩ }
def farAnswer (st : BitVec 4) : Packet := { pkt clsRsp 5 0 15 (List.replicate 8 [0x80#8, 0x3f#8]).flatten with tag := 0, status := st }
def farCame (st : BitVec 4) : State := after (.rdata 0) (farAsked.modDie 0 fun x => { x with inbox := [farAnswer st] })

/-- A SCAN of values in another package asks for them, counts them when they came, and ends with XLATE where the answer is an error (R197,
R318, log entry 99). -/
theorem test_far_scan :
    (farAsked.die 0).reqs = [⟨0, .engineRead q0 .press (2 ^ 48 + sramBase), 16, 1⟩] ∧ (farAsked.parish q0).press.run = none ∧
    ((after (.scan q0) (farCame 0)).parish q0).press.hist.get 0 127 = 8 ∧
    ((after (.scan q0) (farCame 0)).parish q0).press.run = some ⟨farScan, 0, 8, 0, false⟩ ∧
    ((farCame 1).parish q0).press.run = some ⟨farScan, 2, 0, 0, false⟩ := by decide +kernel

/-- A retrain of a link whose far end was reset clears what is known of its package's flows (R330). -/
theorem test_far_reset :
    let s := (linked { replay := [{ sent0 with packet := { wr with dst := 1 } }] }).modLanding 0 fun x => { x with peer := 1 }
    ((s.farReset 0).landing 0).replay = [] := by decide +kernel
end Sys2Proof.Tests
end

