-- ==== Sys2Proof/Proofs/CanonicalMemory.lean ====
section
/-! The proof that every command completes and keeps the canonical form of both memories, the queue and the part.

`State.Keeps s t` says what is kept. The predicates beside it say that of the state inside a result of another type (an `Option`, a
`Reply`, the work of an engine), and the first part gives one rule per way in which the model builds a state or a result: a record
update, an `if`, a fold, a bind. Then each function of the model that hands a state on has one lemma, in the order of the model, so that
a lemma only cites rules and the lemmas of the functions that its own calls. -/

namespace Sys2Proof.Machine

/-! ## Memory -/

/-- A memory in canonical form where another is. -/
def Memory.Keeps (m m' : Memory) : Prop := m.wf = true → m'.wf = true

section
variable {m₀ m : Memory}

theorem Memory.Keeps.refl : m.Keeps m := id

theorem Memory.Keeps.nil : m.Keeps [] := fun _ => rfl

theorem Memory.Keeps.write {a : Nat} {b : Byte} (hm : m₀.Keeps m) : m₀.Keeps (m.write a b) := fun h => wf_write a b (hm h)

theorem Memory.Keeps.writeBytes {a : Nat} {l : List Byte} (hm : m₀.Keeps m) : m₀.Keeps (m.writeBytes a l) :=
  fun h => wf_writeBytes a l (hm h)

theorem Memory.Keeps.zero {a n : Nat} (hm : m₀.Keeps m) : m₀.Keeps (m.zero a n) := fun h => wf_zero a n (hm h)

theorem Memory.Keeps.filter {p : Host.Cell → Bool} (hm : m₀.Keeps m) : m₀.Keeps (m.filter p) := fun h => wf_filter p (hm h)

theorem Memory.Keeps.foldl {α : Type} {f : Memory → α → Memory} {l : List α} (hm : m₀.Keeps m)
    (hf : ∀ m x, m₀.Keeps m → m₀.Keeps (f m x)) : m₀.Keeps (l.foldl f m) :=
  List.foldlRecOn l f hm fun m hm x _ => hf m x hm
end

/-! ## The relation -/

/-- What no command may do to a state: the canonical form of both memories is kept, and the queue and the part are the same. -/
structure State.Keeps (s t : State) : Prop where
  mem : s.mem.Keeps t.mem
  hostMem : s.hostMem.Keeps t.hostMem
  pending : t.pending = s.pending
  part : t.part = s.part

/-- Where the result `o` holds a value, the state that `f` finds in it keeps what `s` has. -/
def State.KeepsIn {α : Type} (s : State) (f : α → State) (o : Option α) : Prop := ∀ x, o = some x → s.Keeps (f x)

/-- Where there is a state, it keeps what `s` has. -/
abbrev State.KeepsSome (s : State) (o : Option State) : Prop := s.KeepsIn (fun t => t) o

/-- Where there is a value with a state, the state keeps what `s` has. -/
abbrev State.KeepsSnd {α : Type} (s : State) (o : Option (α × State)) : Prop := s.KeepsIn Prod.snd o

/-- The meaning answers a next state, which keeps what `s` has. -/
def State.Completes (s : State) (r : Res) : Prop := ∃ t, r = .next t ∧ s.Keeps t

/-- The state of a reply keeps what `s` has. -/
def State.KeepsReply (s : State) (r : Reply) : Prop := s.Keeps r.state

/-- The state that an engine's work leaves. -/
def Work.state : Work → State
  | .ended s _ _ => s
  | .waits _ s => s

/-- The state that an engine's work leaves keeps what `s` has. -/
def State.KeepsWork (s : State) (w : Work) : Prop := s.Keeps w.state

/-- The state that a Porter's row leaves. -/
def RowOut.state : RowOut → State
  | .next _ s => s
  | .hold _ s => s
  | .stop _ s => s

/-- The state that a Porter's row leaves keeps what `s` has. -/
def State.KeepsRow (s : State) (r : RowOut) : Prop := s.Keeps r.state

/-- The state that a Porter's fetch leaves, none after a fault. -/
def Fetch.state? : Fetch → Option State
  | .bytes _ _ s => some s
  | .waiting s => some s
  | .fault => none

/-- The state that a Porter's fetch leaves keeps what `s` has. -/
def State.KeepsFetch (s : State) (f : Fetch) : Prop := s.KeepsSome f.state?

/-- The state that an engine's input leaves, none after a fault. -/
def SrcIn.state? : SrcIn → Option State
  | .bytes _ _ _ s => some s
  | .waits _ s => some s
  | .fault => none

/-- The state that an engine's input leaves keeps what `s` has. -/
def State.KeepsSrcIn (s : State) (i : SrcIn) : Prop := s.KeepsSome i.state?

section
variable {s₀ s t : State}

theorem State.Keeps.canonical (hs : s.Keeps t) (hc : s.canonical) : t.canonical := ⟨hs.mem hc.1, hs.hostMem hc.2⟩

theorem State.Keeps.refl : s.Keeps s := ⟨id, id, rfl, rfl⟩

/-- Any state that has the queue and the part of `s`, and memories in canonical form where those of `s` are. -/
theorem State.Keeps.congr (hs : s₀.Keeps s) (hm : s.mem.Keeps t.mem) (hh : s.hostMem.Keeps t.hostMem) (hq : t.pending = s.pending)
    (hp : t.part = s.part) : s₀.Keeps t :=
  ⟨fun h => hm (hs.mem h), fun h => hh (hs.hostMem h), hq.trans hs.pending, hp.trans hs.part⟩

section
variable {mem hostMem : Memory} {ident : Ident} {clock : Word64} {mclk : Nat} {sramPoison blkPoison : List Nat}
  {defects : List (Nat × Byte)}
  {hostDeny : List (Nat × Nat)} {settings : Settings} {gov : Governor} {rails : Rails} {pcieSris : Bool} {activity : Nat}
  {hamlets : Tab Hamlet} {parishes : Tab Parish} {controllers : Tab Controller} {landings : Tab Landing} {dies : Tab Die}
  {pressSlots : Tab PressSlot} {pressPend : List SlotWrite} {keySlots : Tab KeySlot} {households : Tab Household} {jobs : Tab Job}
  {sessions : Tab Session} {ledger : Tab Entry} {nextSeq : Word32} {adapters : Tab Adapter} {grammars : Tab Grammar}
  {sieves : Tab (Tab Word64)} {tensors : Tab Tensor} {postboxes : Tab Postbox} {fetchNext : Nat} {noticeQ : List Notice}
  {numVFs bar2Household bar2Base : Nat} {msix : Tab Word64} {msixPend : List Nat} {bar2Log2 : Nat × Nat} {hostOut : List HostOut}
  {pins : Pins} {resetStep : ResetStep} {lifecycle : Lifecycle} {torus : Torus} {logNext : Word32} {logRing : Tab LogRecord}
  {bellFlight : List BellAdd} {stranded : List SentFlit} {cut : List PacketId} {deepSave : Option DeepSave} {deepWake : Bool}
  {reload : List (Nat × Nat)} {stopped : Bool} {freeCtr : Nat}

/-- The state `s` with other memories, in canonical form where those of `s` are, and with any other fields but the queue and the part. -/
theorem State.Keeps.setMems (hs : s₀.Keeps s) (hm : s.mem.Keeps mem) (hh : s.hostMem.Keeps hostMem) :
    s₀.Keeps ⟨s.part, ident, clock, mclk, mem, sramPoison, defects, blkPoison, hostMem, hostDeny, settings, gov, rails, pcieSris,
      activity, hamlets, parishes, controllers, landings, dies, pressSlots, pressPend, keySlots, households, jobs, sessions, ledger,
      nextSeq, adapters, grammars, sieves, tensors, postboxes, fetchNext, noticeQ, numVFs, bar2Household, bar2Base, msix, msixPend,
      bar2Log2, hostOut, pins, resetStep, lifecycle, torus, logNext, logRing, bellFlight, stranded, cut, deepSave, deepWake, reload,
      stopped, freeCtr, s.pending⟩ :=
  hs.congr hm hh rfl rfl

/-- The state `s` with another memory. -/
theorem State.Keeps.setMem (hs : s₀.Keeps s) (hm : s.mem.Keeps mem) :
    s₀.Keeps ⟨s.part, ident, clock, mclk, mem, sramPoison, defects, blkPoison, s.hostMem, hostDeny, settings, gov, rails, pcieSris,
      activity, hamlets, parishes, controllers, landings, dies, pressSlots, pressPend, keySlots, households, jobs, sessions, ledger,
      nextSeq, adapters, grammars, sieves, tensors, postboxes, fetchNext, noticeQ, numVFs, bar2Household, bar2Base, msix, msixPend,
      bar2Log2, hostOut, pins, resetStep, lifecycle, torus, logNext, logRing, bellFlight, stranded, cut, deepSave, deepWake, reload,
      stopped, freeCtr, s.pending⟩ :=
  hs.setMems hm .refl

/-- The state `s` with any fields but the memories, the queue and the part. -/
theorem State.Keeps.update (hs : s₀.Keeps s) :
    s₀.Keeps ⟨s.part, ident, clock, mclk, s.mem, sramPoison, defects, blkPoison, s.hostMem, hostDeny, settings, gov, rails, pcieSris,
      activity, hamlets, parishes, controllers, landings, dies, pressSlots, pressPend, keySlots, households, jobs, sessions, ledger,
      nextSeq, adapters, grammars, sieves, tensors, postboxes, fetchNext, noticeQ, numVFs, bar2Household, bar2Base, msix, msixPend,
      bar2Log2, hostOut, pins, resetStep, lifecycle, torus, logNext, logRing, bellFlight, stranded, cut, deepSave, deepWake, reload,
      stopped, freeCtr, s.pending⟩ :=
  hs.setMem .refl
end

theorem State.Keeps.ite {c : Prop} {_ : Decidable c} (hs : s₀.Keeps s) (ht : s₀.Keeps t) : s₀.Keeps (if c then s else t) := by
  split <;> assumption

/-- A fold of an operation that keeps what `s₀` has. -/
theorem State.Keeps.foldl {α : Type} {f : State → α → State} {l : List α} (hs : s₀.Keeps s)
    (hf : ∀ t x, s₀.Keeps t → s₀.Keeps (f t x)) : s₀.Keeps (l.foldl f s) :=
  List.foldlRecOn l f hs fun t ht x _ => hf t x ht

theorem State.Keeps.next (hs : s₀.Keeps s) : s₀.Completes (.next s) := ⟨s, rfl, hs⟩

theorem State.Keeps.reply {status : Nat} {result : Word64} (hs : s₀.Keeps s) : s₀.KeepsReply ⟨status, result, s⟩ := hs

theorem State.KeepsReply.state {r : Reply} (hr : s₀.KeepsReply r) : s₀.Keeps r.state := hr

theorem State.KeepsReply.ite {c : Prop} {_ : Decidable c} {q r : Reply} (hq : s.KeepsReply q) (hr : s.KeepsReply r) :
    s.KeepsReply (if c then q else r) := by
  split <;> assumption

theorem State.Completes.bind {r : Res} {f : State → Res} (hr : s₀.Completes r) (hf : ∀ t, s₀.Keeps t → s₀.Completes (f t)) :
    s₀.Completes (r.bind f) := by
  obtain ⟨t, rfl, ht⟩ := hr
  exact hf t ht

theorem State.Completes.ite {c : Prop} {_ : Decidable c} {q r : Res} (hq : s.Completes q) (hr : s.Completes r) :
    s.Completes (if c then q else r) := by
  split <;> assumption

section
variable {α β : Type} {f : α → State} {g : β → State}

theorem State.KeepsIn.none : s.KeepsIn f none := by simp [KeepsIn]

theorem State.Keeps.some (hs : s.Keeps t) : s.KeepsSome (Option.some t) := by simpa [KeepsIn]

theorem State.Keeps.someWith {x : α} (hs : s.Keeps t) : s.KeepsSnd (Option.some (x, t)) := by simpa [KeepsIn]

theorem State.KeepsIn.getD {o : Option α} {x : α} (ho : s.KeepsIn f o) (hx : s.Keeps (f x)) : s.Keeps (f (o.getD x)) := by
  cases o with
  | none => exact hx
  | some y => exact ho y rfl

theorem State.KeepsIn.ite {c : Prop} {_ : Decidable c} {o p : Option α} (ho : s.KeepsIn f o) (hp : s.KeepsIn f p) :
    s.KeepsIn f (if c then o else p) := by
  split <;> assumption

theorem State.KeepsIn.mapIn {o : Option β} {h : β → α} (ho : s.KeepsIn g o) (hf : ∀ y, s.Keeps (g y) → s.Keeps (f (h y))) :
    s.KeepsIn f (o.map h) := by
  intro x hx
  obtain ⟨y, hy, rfl⟩ := Option.map_eq_some_iff.1 hx
  exact hf y (ho y hy)

theorem State.KeepsIn.map {o : Option β} {h : β → α} (hf : ∀ y, s.Keeps (f (h y))) : s.KeepsIn f (o.map h) := by
  intro x hx
  obtain ⟨y, -, rfl⟩ := Option.map_eq_some_iff.1 hx
  exact hf y

theorem State.KeepsIn.bind {o : Option β} {h : β → Option α} (ho : s.KeepsIn g o) (hf : ∀ y, s.Keeps (g y) → s.KeepsIn f (h y)) :
    s.KeepsIn f (o.bind h) := by
  intro x hx
  obtain ⟨y, hy, hx⟩ := Option.bind_eq_some_iff.1 hx
  exact hf y (ho y hy) x hx

theorem State.KeepsIn.ofBind {o : Option β} {h : β → Option α} (hf : ∀ y, s.KeepsIn f (h y)) : s.KeepsIn f (o.bind h) := by
  intro x hx
  obtain ⟨y, -, hx⟩ := Option.bind_eq_some_iff.1 hx
  exact hf y x hx

theorem State.KeepsIn.foldl {h : Option α → β → Option α} {l : List β} {o : Option α} (ho : s.KeepsIn f o)
    (hf : ∀ o y, s.KeepsIn f o → s.KeepsIn f (h o y)) : s.KeepsIn f (l.foldl h o) :=
  List.foldlRecOn l h ho fun o ho y _ => hf o y ho
end

section
variable {e : PressErr} {result : Nat} {c : EngineCur} {y : PorterCur} {pe : PorterErr} {b : List Byte}
  {poison : Bool} {poisons : List Bool}

theorem State.Keeps.workEnded (hs : s₀.Keeps s) : s₀.KeepsWork (.ended s e result) := hs
theorem State.Keeps.workWaits (hs : s₀.Keeps s) : s₀.KeepsWork (.waits c s) := hs
theorem State.Keeps.rowNext (hs : s₀.Keeps s) : s₀.KeepsRow (.next y s) := hs
theorem State.Keeps.rowHold (hs : s₀.Keeps s) : s₀.KeepsRow (.hold y s) := hs
theorem State.Keeps.rowStop (hs : s₀.Keeps s) : s₀.KeepsRow (.stop pe s) := hs
theorem State.Keeps.fetchBytes (hs : s₀.Keeps s) : s₀.KeepsFetch (.bytes b poison s) := hs.some
theorem State.Keeps.fetchWaiting (hs : s₀.Keeps s) : s₀.KeepsFetch (.waiting s) := hs.some
theorem State.KeepsFetch.fault : s₀.KeepsFetch .fault := .none
theorem State.Keeps.srcBytes (hs : s₀.Keeps s) : s₀.KeepsSrcIn (.bytes b poisons c s) := hs.some
theorem State.Keeps.srcWaits (hs : s₀.Keeps s) : s₀.KeepsSrcIn (.waits c s) := hs.some
theorem State.KeepsSrcIn.fault : s₀.KeepsSrcIn .fault := .none

theorem State.KeepsFetch.ofBytes {i : Fetch} (hi : s₀.KeepsFetch i) (h : i = .bytes b poison s) : s₀.Keeps s := hi s (h ▸ rfl)
theorem State.KeepsFetch.ofWaiting {i : Fetch} (hi : s₀.KeepsFetch i) (h : i = .waiting s) : s₀.Keeps s := hi s (h ▸ rfl)
theorem State.KeepsSrcIn.ofBytes {i : SrcIn} (hi : s₀.KeepsSrcIn i) (h : i = .bytes b poisons c s) : s₀.Keeps s := hi s (h ▸ rfl)
theorem State.KeepsSrcIn.ofWaits {i : SrcIn} (hi : s₀.KeepsSrcIn i) (h : i = .waits c s) : s₀.Keeps s := hi s (h ▸ rfl)
end
end

section
variable {s₀ s : State}

/-! ## Machine/Access.lean -/

theorem State.Keeps.setHamlet {m : HamletRef} {h : Hamlet} (hs : s₀.Keeps s) : s₀.Keeps (s.setHamlet m h) := hs.update

theorem State.Keeps.modHamlet {m : HamletRef} {f : Hamlet → Hamlet} (hs : s₀.Keeps s) : s₀.Keeps (s.modHamlet m f) := hs.setHamlet

theorem State.Keeps.setMill {u : MillRef} {x : Mill} (hs : s₀.Keeps s) : s₀.Keeps (s.setMill u x) := hs.modHamlet

theorem State.Keeps.modMill {u : MillRef} {f : Mill → Mill} (hs : s₀.Keeps s) : s₀.Keeps (s.modMill u f) := hs.setMill

theorem State.Keeps.setHand {h : HandRef} {x : Hand} (hs : s₀.Keeps s) : s₀.Keeps (s.setHand h x) := hs.modHamlet

theorem State.Keeps.modHand {h : HandRef} {f : Hand → Hand} (hs : s₀.Keeps s) : s₀.Keeps (s.modHand h f) := hs.setHand

theorem State.Keeps.setRing {r : RingRef} {x : Ring} (hs : s₀.Keeps s) : s₀.Keeps (s.setRing r x) := hs.modHamlet

theorem State.Keeps.modRing {r : RingRef} {f : Ring → Ring} (hs : s₀.Keeps s) : s₀.Keeps (s.modRing r f) := hs.setRing

theorem State.Keeps.setParish {p : ParishRef} {x : Parish} (hs : s₀.Keeps s) : s₀.Keeps (s.setParish p x) := hs.update

theorem State.Keeps.modParish {p : ParishRef} {f : Parish → Parish} (hs : s₀.Keeps s) : s₀.Keeps (s.modParish p f) := hs.setParish

theorem State.Keeps.setPorter {p : PorterRef} {x : Porter} (hs : s₀.Keeps s) : s₀.Keeps (s.setPorter p x) := by
  unfold State.setPorter
  split
  exacts [hs.modHamlet, hs.modParish]

theorem State.Keeps.modPorter {p : PorterRef} {f : Porter → Porter} (hs : s₀.Keeps s) : s₀.Keeps (s.modPorter p f) := hs.setPorter

theorem State.Keeps.setTally {t : TallyRef} {x : Tally} (hs : s₀.Keeps s) : s₀.Keeps (s.setTally t x) := by
  unfold State.setTally
  split
  exacts [hs.modHamlet, hs.modParish]

theorem State.Keeps.modTally {t : TallyRef} {f : Tally → Tally} (hs : s₀.Keeps s) : s₀.Keeps (s.modTally t f) := hs.setTally

theorem State.Keeps.setDie {d : Nat} {x : Die} (hs : s₀.Keeps s) : s₀.Keeps (s.setDie d x) := hs.update

theorem State.Keeps.modDie {d : Nat} {f : Die → Die} (hs : s₀.Keeps s) : s₀.Keeps (s.modDie d f) := hs.setDie

theorem State.Keeps.modCtl {c : CtlRef} {f : Controller → Controller} (hs : s₀.Keeps s) : s₀.Keeps (s.modCtl c f) := hs.update

theorem State.Keeps.setLanding {l : Nat} {x : Landing} (hs : s₀.Keeps s) : s₀.Keeps (s.setLanding l x) := hs.update

theorem State.Keeps.modLanding {l : Nat} {f : Landing → Landing} (hs : s₀.Keeps s) : s₀.Keeps (s.modLanding l f) := hs.setLanding

theorem State.Keeps.setPostbox {k : Nat} {x : Postbox} (hs : s₀.Keeps s) : s₀.Keeps (s.setPostbox k x) := hs.update

theorem State.Keeps.modPostbox {k : Nat} {f : Postbox → Postbox} (hs : s₀.Keeps s) : s₀.Keeps (s.modPostbox k f) := hs.setPostbox

theorem State.Keeps.modHousehold {h : Nat} {f : Household → Household} (hs : s₀.Keeps s) : s₀.Keeps (s.modHousehold h f) := hs.update

theorem State.Keeps.modJob {j : Nat} {f : Job → Job} (hs : s₀.Keeps s) : s₀.Keeps (s.modJob j f) := by
  unfold State.modJob
  split
  exacts [hs.update, hs]

theorem State.Keeps.modEntry {e : Nat} {f : Entry → Entry} (hs : s₀.Keeps s) : s₀.Keeps (s.modEntry e f) := hs.update

theorem State.Keeps.fresh (hs : s₀.Keeps s) : s₀.Keeps s.fresh.2 := by
  unfold State.fresh
  exact hs.update

theorem State.Keeps.freshBytes {n : Nat} (hs : s₀.Keeps s) : s₀.Keeps (s.freshBytes n).2 := by
  unfold State.freshBytes
  exact hs.update

/-! ## Machine/Ops.lean -/

theorem State.Keeps.notify {pb : Nat} {op : BitVec 16} {result : Word64} (hs : s₀.Keeps s) : s₀.Keeps (s.notify pb op result) := hs.update

theorem State.Keeps.notifyHousehold {hh : Nat} {op : BitVec 16} {result : Word64} (hs : s₀.Keeps s) :
    s₀.Keeps (s.notifyHousehold hh op result) :=
  hs.notify

theorem State.Keeps.emit {o : HostOut} (hs : s₀.Keeps s) : s₀.Keeps (s.emit o) := hs.update

theorem State.Keeps.raiseMsix {fn vector : Nat} (hs : s₀.Keeps s) : s₀.Keeps (s.raiseMsix fn vector) := by
  unfold State.raiseMsix
  split
  exacts [hs.update, hs.emit]

theorem State.Keeps.raiseEvent {h : HandRef} {e : EventBit} (hs : s₀.Keeps s) : s₀.Keeps (s.raiseEvent h e) := hs.modHand

theorem State.Keeps.millEvent {u : MillRef} {e : EventBit} (hs : s₀.Keeps s) : s₀.Keeps (s.millEvent u e) := hs.raiseEvent

theorem State.Keeps.logWrite {rec : LogRecord} (hs : s₀.Keeps s) : s₀.Keeps (s.logWrite rec) := by
  dsimp only [State.logWrite]
  split
  · split
    exacts [hs.update.modDie, hs.update.modDie.modDie]
  · exact hs.modDie

theorem State.Keeps.alertHousehold {hh : Nat} {index : Word32} (hs : s₀.Keeps s) : s₀.Keeps (s.alertHousehold hh index) := by
  unfold State.alertHousehold
  split
  · exact hs
  · extract_lets t
    have ht : s₀.Keeps t := hs.ite hs.notifyHousehold
    split
    exacts [ht, ht.raiseMsix]

theorem State.Keeps.logAlert {rec : LogRecord} (hs : s₀.Keeps s) : s₀.Keeps (s.logAlert rec) := by
  unfold State.logAlert
  split
  exacts [hs.notify.raiseMsix.alertHousehold, hs]

theorem State.Keeps.logFatal {rec : LogRecord} (hs : s₀.Keeps s) : s₀.Keeps (s.logFatal rec) := by
  dsimp only [State.logFatal]
  split
  exacts [hs.update, hs]

theorem State.Keeps.hostNotify {t : State} (ht : s₀.Keeps t) : s₀.Keeps (s.hostNotify t) := by
  unfold State.hostNotify
  split
  exacts [ht.emit, ht]

theorem State.Keeps.logEvent {r : LogReq} (hs : s₀.Keeps s) : s₀.Keeps (s.logEvent r) := by
  unfold State.logEvent
  split
  · exact hs.modDie
  · extract_lets _ s1 s2
    have hs1 : s₀.Keeps s1 := hs.update
    have hs2 : s₀.Keeps s2 := hs1.modDie.ite hs1
    exact hs2.logWrite.logAlert.logFatal.hostNotify

theorem State.Keeps.zeroSram {a n : Nat} (hs : s₀.Keeps s) : s₀.Keeps (s.zeroSram a n) := hs.setMem Memory.Keeps.refl.zero

theorem State.Keeps.toRun (hs : s₀.Keeps s) : s₀.Keeps s.toRun := hs.update

theorem State.Keeps.rouse (hs : s₀.Keeps s) : s₀.Keeps s.rouse := by
  unfold State.rouse
  split
  exacts [hs.toRun, hs]

theorem State.Keeps.stir (hs : s₀.Keeps s) : s₀.Keeps s.stir := hs.rouse.update

theorem State.Keeps.wake {m : HamletRef} (hs : s₀.Keeps s) : s₀.Keeps (s.wake m) := by
  dsimp only [State.wake]
  split
  · exact hs
  · split
    exacts [hs, hs.zeroSram.setHamlet.rouse, hs.setHamlet.rouse]

theorem State.Keeps.putPtes {hh page : Nat} {l : List Word64} (hs : s₀.Keeps s) : s₀.Keeps (s.putPtes hh page l) :=
  hs.setMem (Memory.Keeps.refl.foldl fun _ _ hm => hm.writeBytes)

theorem State.Keeps.readFirm {d hh : Nat} {copies : List Nat} (hs : s₀.Keeps s) : s₀.Keeps (s.readFirm d hh copies) := by
  dsimp only [State.readFirm]
  split
  · exact hs
  · split
    · exact hs
    · split
      exacts [(hs.setMem Memory.Keeps.refl.writeBytes).logEvent, hs.logEvent]

theorem State.Keeps.readArea {d : Nat} {f : FirmArea} (hs : s₀.Keeps s) : s₀.Keeps (s.readArea d f) := hs.readFirm

theorem State.Keeps.markBlock {b : Nat} (hs : s₀.Keeps s) : s₀.Keeps (s.markBlock b) := by
  dsimp only [State.markBlock]
  split
  exacts [hs, hs.modCtl.update]

theorem State.Keeps.poisonAfter {a n : Nat} {poisoned : Bool} (hs : s₀.Keeps s) : s₀.Keeps (s.poisonAfter a n poisoned) := by
  unfold State.poisonAfter
  split
  · split <;> exact hs.update
  · split
    exacts [hs.foldl fun _ _ hs' => hs'.markBlock, hs.update]

/-- Bytes written under any key keep the canonical form. -/
theorem State.putBytes_keeps {a : Nat} {d : List Byte} {c : Crypt} : s.mem.Keeps (s.putBytes a d c) := by
  unfold State.putBytes
  split
  · exact Memory.Keeps.refl.writeBytes
  · exact .refl
  · exact Memory.Keeps.refl.foldl fun _ _ hm => hm.writeBytes

theorem State.Keeps.store {a : Nat} {d : List Byte} {c : Crypt} {poisoned : Bool} (hs : s₀.Keeps s) :
    s₀.Keeps (s.store a d c poisoned) := by
  unfold State.store
  split
  exacts [hs, (hs.setMem State.putBytes_keeps).poisonAfter]

theorem State.Keeps.wakeFor {a : Nat} (hs : s₀.Keeps s) : s₀.Keeps (s.wakeFor a) := by
  unfold State.wakeFor
  split
  exacts [hs.wake, hs]

theorem State.Keeps.storeMem {a : Nat} {d : List Byte} {c : Crypt} {poisoned : Bool} (hs : s₀.Keeps s) :
    s₀.Keeps (s.storeMem a d c poisoned) := by
  unfold State.storeMem
  split
  exacts [hs, hs.store]

theorem State.Keeps.touch {a n : Nat} {write alloc : Bool} (hs : s₀.Keeps s) : s₀.Keeps (s.touch a n write alloc) := by
  unfold State.touch
  split
  exacts [hs, hs.foldl fun _ _ ht => ht.modParish]

theorem State.Keeps.flushCaches (hs : s₀.Keeps s) : s₀.Keeps s.flushCaches := hs.update

theorem State.Keeps.hostWrite {a : Nat} {d : List Byte} (hs : s₀.Keeps s) : s₀.KeepsSome (s.hostWrite a d) := by
  unfold State.hostWrite
  split
  exacts [.none, (hs.setMems .refl Memory.Keeps.refl.writeBytes).some]

/-! ## Machine/Clock.lean -/

theorem State.Keeps.tick (hs : s₀.Keeps s) : s₀.Keeps s.tick := by
  unfold State.tick
  split
  · split <;> exact hs.update
  · exact hs

/-! ## Machine/Operands.lean -/

theorem State.Keeps.busy {m : HamletRef} (hs : s₀.Keeps s) : s₀.Keeps (s.busy m) := hs.modHamlet



theorem State.Keeps.retire {h : HandRef} {f : Hand → Hand} (hs : s₀.Keeps s) : s₀.Keeps (s.retire h f) := hs.modHand.busy

theorem State.Keeps.except {h : HandRef} {c : Cause} {tval : Word64} (hs : s₀.Keeps s) : s₀.Keeps (s.except h c tval) := hs.retire

/-! ## Machine/Postbox.lean -/

theorem State.Keeps.writeBox {fn k off : Nat} {v : Word64} (hs : s₀.Keeps s) : s₀.Keeps (s.writeBox fn k off v) := by
  dsimp only [State.writeBox]
  split
  · exact hs
  · split
    · exact hs
    · split
      exacts [hs.modPostbox.update, hs.modPostbox]

theorem execPbCtrlWrite_completes {fn k : Nat} {v : Word64} (hs : s₀.Keeps s) : s₀.Completes (execPbCtrlWrite fn k v s) := hs.writeBox.next

theorem State.Keeps.hostWrites {l : List HostWrite} (hs : s₀.Keeps s) : s₀.Keeps (s.hostWrites l) :=
  hs.setMems .refl (Memory.Keeps.refl.foldl fun _ _ hm => hm.writeBytes)

theorem execPbDoorbell_completes {fn k : Nat} {v : Word64} {hw : List HostWrite} (hs : s₀.Keeps s) :
    s₀.Completes (execPbDoorbell fn k v hw s) :=
  hs.hostWrites.writeBox.next

theorem execPbCplHeadWrite_completes {fn k : Nat} {v : Word64} (hs : s₀.Keeps s) : s₀.Completes (execPbCplHeadWrite fn k v s) :=
  hs.writeBox.next

theorem State.Keeps.interrupt {k : Nat} (hs : s₀.Keeps s) : s₀.Keeps (s.interrupt k) := by
  dsimp only [State.interrupt]
  split
  · exact hs
  · refine .ite ?_ ?_
    exacts [hs.modPostbox, hs.modPostbox.raiseMsix]

theorem execMsixHoldoff_completes {k : Nat} (hs : s₀.Keeps s) : s₀.Completes (execMsixHoldoff k s) := by
  unfold execMsixHoldoff
  split
  exacts [hs.interrupt.next, hs.next]

theorem State.Keeps.writeEntry {k : Nat} {c : Completion} (hs : s₀.Keeps s) : s₀.Keeps (s.writeEntry k c) := by
  dsimp only [State.writeEntry]
  split
  · next e => exact (hs.hostWrite _ e).modPostbox.interrupt
  · exact hs.modPostbox

theorem execCompletionWrite_completes {k : Nat} (hs : s₀.Keeps s) : s₀.Completes (execCompletionWrite k s) := by
  dsimp only [execCompletionWrite]
  split
  · exact hs.next
  · split
    · exact hs.modPostbox.next
    · split
      exacts [hs.modPostbox.writeEntry.next, hs.next]

theorem execNotice_completes {k : Nat} (hs : s₀.Keeps s) : s₀.Completes (execNotice k s) := by
  dsimp only [execNotice]
  split
  · split
    · exact hs.modPostbox.writeEntry.next
    · split
      · exact hs.modPostbox.writeEntry.next
      · split
        exacts [hs.update.writeEntry.next, hs.next]
  · split
    · exact hs.next
    · split <;> exact hs.update.modPostbox.next

theorem State.Keeps.completeCmd {k : Nat} {c : Command} {status : Nat} {result : Word64} (hs : s₀.Keeps s) :
    s₀.Keeps (s.completeCmd k c status result) :=
  hs.modPostbox

theorem execCommandTake_completes {k : Nat} (hs : s₀.Keeps s) : s₀.Completes (execCommandTake k s) := by
  dsimp only [execCommandTake]
  split
  · exact hs.next
  · split
    · exact hs.modPostbox.next
    · split
      · exact hs.stir.update.modPostbox.completeCmd.next
      · split
        · exact hs.stir.update.modPostbox.completeCmd.next
        · split
          · exact hs.stir.update.modPostbox.completeCmd.next
          · split
            · exact hs.stir.update.modPostbox.completeCmd.next
            · split
              exacts [hs.stir.update.modPostbox.completeCmd.next, hs.stir.update.modPostbox.modPostbox.next]

theorem State.Keeps.refuse {status : Nat} (hs : s₀.Keeps s) : s₀.KeepsReply (refuse s status) := by
  unfold Machine.refuse
  exact hs.reply

theorem State.Keeps.done {result : Nat} (hs : s₀.Keeps s) : s₀.KeepsReply (done s result) := by
  unfold Machine.done
  exact hs.reply

theorem State.Keeps.answer {addr : Nat} {data : List Byte} {result : Nat} (hs : s₀.Keeps s) :
    s₀.KeepsReply (answer s addr data result) := by
  unfold Machine.answer
  split
  · next e => exact (hs.hostWrite _ e).done
  · exact hs.reply

theorem State.Keeps.command {k op : Nat} {body : Command → Reply} (hs : s₀.Keeps s) (hbody : ∀ a, s₀.KeepsReply (body a)) :
    s₀.Completes (s.command k op body) := by
  unfold State.command
  split
  · exact hs.next
  · split
    · exact hs.next
    · split
      exacts [hs.completeCmd.next, (hbody _).state.completeCmd.next]

theorem State.Keeps.forHousehold {k : Nat} {c : Command} {f : Nat → Reply} (hs : s₀.Keeps s) (hf : ∀ a, s₀.KeepsReply (f a)) :
    s₀.KeepsReply (s.forHousehold k c f) := by
  unfold State.forHousehold
  split
  exacts [hf _, hs.refuse]

theorem State.Keeps.forJob {k : Nat} {c : Command} {f : Nat → Job → Reply} (hs : s₀.Keeps s) (hf : ∀ a b, s₀.KeepsReply (f a b)) :
    s₀.KeepsReply (s.forJob k c f) := by
  unfold State.forJob
  split
  · split
    exacts [hf _ _, hs.refuse]
  · exact hs.refuse

/-! ## Machine/Mem.lean -/

theorem State.Keeps.arrive {write alloc : Bool} {ps : List Place} (hs : s₀.Keeps s) : s₀.Keeps (s.arrive write alloc ps) :=
  hs.foldl fun _ _ ht => ht.wakeFor.touch

theorem State.Keeps.storePlaces {ps : List Place} {d : List Byte} {poisoned : Bool} (hs : s₀.Keeps s) :
    s₀.Keeps (s.storePlaces ps d poisoned) := by
  induction ps generalizing s d with
  | nil => exact hs
  | cons p ps ih => exact ih hs.storeMem

theorem State.Keeps.readEa {a : Actor} {alloc : Bool} {ea n : Nat} (hs : s₀.Keeps s) : s₀.KeepsSnd (s.readEa a alloc ea n) :=
  .map fun _ => hs.arrive

theorem State.Keeps.writeEa {a : Actor} {alloc : Bool} {ea : Nat} {d : List Byte} {poisoned : Bool} (hs : s₀.Keeps s) :
    s₀.KeepsSome (s.writeEa a alloc ea d poisoned) :=
  .map fun _ => hs.arrive.storePlaces

/-! ## Machine/FerryOps.lean -/

theorem State.Keeps.owe {l : List (Nat × Nat)} (hs : s₀.Keeps s) : s₀.Keeps (s.owe l) := hs.foldl fun _ _ ht => ht.modLanding

theorem State.Keeps.pumpLink {n l : Nat} (hs : s₀.Keeps s) : s₀.Keeps (State.pumpLink n s l) := by
  induction n generalizing s with
  | zero => exact hs
  | succ n ih =>
    dsimp only [State.pumpLink]
    split
    · exact hs
    · split
      exacts [hs, ih hs.setLanding.owe.emit]

theorem State.Keeps.pump {l : Nat} (hs : s₀.Keeps s) : s₀.Keeps (s.pump l) := hs.pumpLink

theorem State.Keeps.route {p : Packet} (hs : s₀.Keeps s) : s₀.KeepsSome (s.route p) := .map fun _ => hs.modLanding.pump

theorem State.Keeps.numbered {p : Packet} (hs : s₀.Keeps s) : s₀.Keeps (s.numbered p).2 := by
  dsimp only [State.numbered]
  exact hs.modDie

theorem State.Keeps.sendPacket {p : Packet} (hs : s₀.Keeps s) : s₀.KeepsSome (s.sendPacket p) := hs.numbered.route

theorem State.Keeps.postPacket {p : Packet} (hs : s₀.Keeps s) : s₀.Keeps (s.postPacket p) := by
  dsimp only [State.postPacket]
  split
  · next e => exact hs.numbered.route _ e
  · exact hs.numbered.update

theorem State.Keeps.request {die op ea hh n : Nat} {payload : List Byte} {poison : Bool} {who : Requester} (hs : s₀.Keeps s) :
    s₀.KeepsSome (s.request die op ea hh n payload poison who) :=
  hs.modDie.sendPacket

theorem State.Keeps.ask {die hh ea n : Nat} {who : Nat → Requester} (hs : s₀.Keeps s) : s₀.KeepsSome (s.ask die hh ea n who) :=
  hs.some.foldl fun _ _ ht => ht.bind fun _ hu => hu.request

theorem State.Keeps.tell {die hh ea : Nat} {d : List Byte} {poisoned : Bool} {who : Requester} (hs : s₀.Keeps s) :
    s₀.KeepsSome (s.tell die hh ea d poisoned who) :=
  hs.some.foldl fun _ _ ht => ht.bind fun _ hu => hu.request

/-! ## Machine/Rings.lean -/

theorem State.Keeps.padWrite {m : HamletRef} {off : Nat} {d : List Byte} {poisoned : Bool} (hs : s₀.Keeps s) :
    s₀.Keeps (s.padWrite m off d poisoned) :=
  hs.storeMem

theorem State.Keeps.returnCredit {r : RingRef} {i : Nat} (hs : s₀.Keeps s) : s₀.Keeps (s.returnCredit r i) := by
  dsimp only [State.returnCredit]
  split
  exacts [hs, hs.modRing.postPacket]

theorem State.Keeps.releaseSlot {r : RingRef} {i : Nat} (hs : s₀.Keeps s) : s₀.Keeps (s.releaseSlot r i) := by
  unfold State.releaseSlot
  split
  exacts [hs.wake.modRing.returnCredit, hs]

theorem State.Keeps.freeRing {r : RingRef} (hs : s₀.Keeps s) : s₀.Keeps (s.freeRing r) := hs.freshBytes.padWrite

theorem State.Keeps.stampSlots {r : RingRef} {l : List Nat} {q : Word64} (hs : s₀.Keeps s) : s₀.Keeps (s.stampSlots r l q) := by
  induction l generalizing s q with
  | nil => exact hs
  | cons i l ih => exact ih hs.padWrite

theorem State.Keeps.publishOpen {r : RingRef} {i : Nat} {dw0 : Word64} {dw1 : Option Word64} (hs : s₀.Keeps s) :
    s₀.Keeps (s.publishOpen r i dw0 dw1) := by
  unfold State.publishOpen
  extract_lets s _ _ _ _ s1 s2 s3
  have hs' : s₀.Keeps s := hs.wake
  have hs1 : s₀.Keeps s1 := hs'.modHamlet.ite hs'
  have hs2 : s₀.Keeps s2 := hs1.padWrite
  have hs3 : s₀.Keeps s3 := by
    dsimp only [s3]
    split
    exacts [hs2.padWrite, hs2]
  exact hs3.setRing.stampSlots

theorem State.Keeps.publishSlot {r : RingRef} {i : Nat} {dw0 : Word64} {dw1 : Option Word64} (hs : s₀.Keeps s) :
    s₀.Keeps (s.publishSlot r i dw0 dw1) := by
  unfold State.publishSlot
  split
  exacts [hs.publishOpen, hs]

theorem State.Keeps.takeSlot {r : RingRef} {a : RingAgent} {claim : Bool} (hs : s₀.Keeps s) : s₀.KeepsSnd (s.takeSlot r a claim) := by
  dsimp only [State.takeSlot]
  split
  · split
    exacts [hs.setRing.someWith, .none]
  · split
    · exact .none
    · split
      exacts [hs.setRing.someWith, .none]

theorem State.Keeps.joinRing {r : RingRef} {a : RingAgent} {claim expand : Bool} (hs : s₀.Keeps s) :
    s₀.Keeps (s.joinRing r a claim expand) := by
  dsimp only [State.joinRing]
  split
  exacts [hs, hs.setRing]

theorem State.Keeps.leaveRing {r : RingRef} {a : RingAgent} (hs : s₀.Keeps s) : s₀.Keeps (s.leaveRing r a) := hs.modRing

theorem State.Keeps.quitWait {h : HandRef} (hs : s₀.Keeps s) : s₀.Keeps (s.quitWait h) := by
  unfold State.quitWait
  split
  exacts [hs.leaveRing, hs.leaveRing, hs]

theorem State.Keeps.foreignRing {m : HamletRef} (hs : s₀.Keeps s) : s₀.Keeps (s.foreignRing m) := hs.modHamlet

theorem State.Keeps.boundUse {r : RingRef} {claim : Bool} (hs : s₀.Keeps s) : s₀.Keeps (s.boundUse r claim) := by
  unfold State.boundUse
  refine .ite ?_ ?_
  exacts [hs.freeRing, hs]

theorem State.Keeps.freeSlot {x : SlotRef} (hs : s₀.Keeps s) : s₀.Keeps (s.freeSlot x) := hs.freshBytes.padWrite

theorem State.Keeps.readMem {a : Actor} {ea n : Nat} (hs : s₀.Keeps s) : s₀.KeepsSnd (s.readMem a ea n) :=
  hs.readEa.mapIn fun _ hr => by
    split
    exacts [hr, hr.freshBytes]

theorem State.Keeps.writeMem {a : Actor} {ea : Nat} {d : List Byte} {poisoned : Bool} (hs : s₀.Keeps s) :
    s₀.KeepsSome (s.writeMem a ea d poisoned) :=
  hs.writeEa.mapIn fun _ ht => ht.foldl fun _ _ hs' => hs'.freeSlot

theorem State.Keeps.engineSlot {r : RingRef} {a : RingAgent} {claim : Bool} (hs : s₀.Keeps s) : s₀.Keeps (s.engineSlot r a claim).2 := by
  dsimp only [State.engineSlot]
  split
  · next e => exact hs.wake.boundUse.takeSlot _ e
  · exact hs.wake.boundUse.joinRing

theorem State.Keeps.gatherSlots {r : RingRef} {a : RingAgent} {enough : List SlotIn → Bool} {n : Nat} {l : List SlotIn}
    (hs : s₀.Keeps s) : s₀.Keeps (State.gatherSlots r a enough n l s).2.2 := by
  induction n generalizing s l with
  | zero => exact hs
  | succ n ih =>
    dsimp only [State.gatherSlots]
    split
    · exact hs
    · split
      · next e =>
          have ht := e ▸ hs.engineSlot
          exact ht
      · next e =>
          have ht := e ▸ hs.engineSlot
          exact ih ht.releaseSlot

theorem State.Keeps.freePoison {l : List SlotIn} (hs : s₀.Keeps s) : s₀.Keeps (State.freePoison l s).2 := by
  induction l generalizing s with
  | nil => exact hs
  | cons x l ih =>
    unfold State.freePoison
    extract_lets b y z
    have hy : s₀.Keeps y.2 := by
      dsimp only [y]
      split
      exacts [hs.freshBytes, hs]
    exact ih hy

/-! ## Machine/HostError.lean -/

theorem State.anyMemory_keeps {j : Job} {c : Nat} : s.mem.Keeps (s.anyMemory j c) :=
  Memory.Keeps.refl.foldl fun _ _ hm => by
    split
    exacts [hm.write, hm]

theorem State.Keeps.unpredictable {n : Nat} {j : Job} (hs : s₀.Keeps s) : s₀.Keeps (s.unpredictable n j) :=
  (((hs.setMem State.anyMemory_keeps).foldl fun _ _ ht => ht.modHamlet).foldl fun _ _ ht => ht.modParish).update

theorem State.Keeps.jobError {x : Option (Nat × Job)} (hs : s₀.Keeps s) : s₀.Keeps (s.jobError x) := by
  unfold State.jobError
  split
  exacts [hs.unpredictable, hs]

theorem State.Keeps.hostError {m : HamletRef} (hs : s₀.Keeps s) : s₀.Completes (s.hostError m) := hs.jobError.busy.next

/-! ## Machine/Bells.lean -/

theorem State.Keeps.freeBells {j : Job} (hs : s₀.Keeps s) : s₀.Keeps (s.freeBells j) := hs.foldl fun _ _ ht => ht.modHamlet.update

theorem State.Keeps.castBell {src : BellSource} {dst : HamletRef} {ctr : Nat} {amount : Word32} (hs : s₀.Keeps s) :
    s₀.Keeps (s.castBell src dst ctr amount) :=
  hs.update

theorem State.Keeps.foreignBell {m : HamletRef} (hs : s₀.Keeps s) : s₀.Keeps (s.foreignBell m) := hs.modHamlet

theorem State.Keeps.sendBell {j : Job} {m : HamletRef} {src : BellSource} {ref : Nat} {amount : Word32} (hs : s₀.Keeps s) :
    s₀.Keeps (s.sendBell j m src ref amount) := by
  unfold State.sendBell
  split
  exacts [hs.castBell, hs.foreignBell, hs.freeBells]

theorem State.Keeps.postBell {p : Packet} (hs : s₀.Keeps s) : s₀.Keeps (s.postBell p) := by
  dsimp only [State.postBell]
  split
  · split
    exacts [hs.modLanding, hs.postPacket]
  · split
    exacts [hs.update, hs.postPacket]

theorem State.Keeps.forwardBell {m : HamletRef} {ctr : Nat} {amount : Word32} (hs : s₀.Keeps s) :
    s₀.Keeps (s.forwardBell m ctr amount) := by
  dsimp only [State.forwardBell]
  split
  · exact hs
  · split
    exacts [hs, hs.postBell]

theorem State.Keeps.applyBell {a : BellAdd} (hs : s₀.Keeps s) : s₀.Keeps (s.applyBell a) := by
  dsimp only [State.applyBell]
  split
  exacts [hs, hs.wake.modHamlet.forwardBell]

theorem execBellAddApply_completes {n : Nat} (hs : s₀.Keeps s) : s₀.Completes (execBellAddApply n s) := by
  unfold execBellAddApply
  split
  · exact hs.next
  · split
    exacts [hs.next, hs.update.applyBell.next]

theorem execBwaitSatisfied_completes {h : HandRef} (hs : s₀.Keeps s) : s₀.Completes (execBwaitSatisfied h s) := by
  unfold execBwaitSatisfied
  split
  exacts [hs.retire.next, hs.next]

theorem State.Keeps.countStall {m : HamletRef} (hs : s₀.Keeps s) : s₀.Keeps (s.countStall m) := by
  unfold State.countStall
  split
  exacts [hs.modJob, hs]

theorem execWaitStall_completes {h : HandRef} (hs : s₀.Keeps s) : s₀.Completes (execWaitStall h s) := by
  dsimp only [execWaitStall]
  split
  · split
    exacts [hs.modHamlet.modHand.raiseEvent.countStall.next, hs.next]
  · exact hs.next

/-! ## Machine/MillQueue.lean -/

theorem State.Keeps.applyMode {u : MillRef} (hs : s₀.Keeps s) : s₀.Keeps (s.applyMode u) := by
  unfold State.applyMode
  split
  · split
    · split
      exacts [hs.leaveRing.modMill, hs.modMill]
    · exact hs
  · exact hs

theorem State.Keeps.winDesc {win : Tab Word64} {by_ : List Writer} {w : Writer} (hs : s₀.Keeps s) : s₀.Keeps (s.winDesc win by_ w).2 := by
  unfold State.winDesc
  split
  exacts [hs, hs.freshBytes]

theorem State.Keeps.pushMillWin {u : MillRef} {w : Writer} {v : Word64} (hs : s₀.Keeps s) : s₀.Keeps (s.pushMillWin u w v) :=
  hs.applyMode.winDesc.setMill

theorem execMillDescWinPush_completes {u : MillRef} {v : Word64} (hs : s₀.Keeps s) : s₀.Completes (execMillDescWinPush u v s) :=
  hs.pushMillWin.next

theorem State.Keeps.regValue {reserved v : Word64} (hs : s₀.Keeps s) : s₀.Keeps (s.regValue reserved v).2 := by
  unfold State.regValue
  split
  exacts [hs, hs.fresh]

theorem execMillQctrlWrite_completes {u : MillRef} {v : Word64} (hs : s₀.Keeps s) : s₀.Completes (execMillQctrlWrite u v s) :=
  hs.regValue.modMill.next

theorem execModeChangeApply_completes {u : MillRef} (hs : s₀.Keeps s) : s₀.Completes (execModeChangeApply u s) := hs.applyMode.next

theorem execHaltedClear_completes {u : MillRef} {v : Word64} (hs : s₀.Keeps s) : s₀.Completes (execHaltedClear u v s) :=
  hs.regValue.modMill.next

theorem State.Keeps.rejectMill {u : MillRef} {dw0 : Word64} {f : MillQStatus → MillQStatus} (hs : s₀.Keeps s) :
    s₀.Keeps (s.rejectMill u dw0 f) :=
  hs.modMill.millEvent

theorem State.Keeps.unpackSlot {u : MillRef} (hs : s₀.Keeps s) : s₀.Keeps (s.unpackSlot u) := by
  dsimp only [State.unpackSlot]
  split
  · exact hs
  · split
    · split
      exacts [hs.setMill.releaseSlot, hs.setMill]
    · exact hs.setMill

theorem State.Keeps.takeDescSlot {u : MillRef} {r : RingRef} {i : Nat} (hs : s₀.Keeps s) : s₀.Keeps (s.takeDescSlot u r i) := by
  dsimp only [State.takeDescSlot]
  split
  exacts [hs.rejectMill.releaseSlot, hs.modMill.unpackSlot]

theorem execMillRingFetch_completes {u : MillRef} (hs : s₀.Keeps s) : s₀.Completes (execMillRingFetch u s) := by
  dsimp only [execMillRingFetch]
  split
  · exact hs.next
  · split
    · exact hs.applyMode.unpackSlot.next
    · split
      · exact hs.applyMode.next
      · split
        · exact hs.applyMode.hostError
        · exact hs.applyMode.foreignRing.rejectMill.next
        · split
          · next e => exact (e ▸ hs.applyMode.engineSlot).next
          · next e => exact (e ▸ hs.applyMode.engineSlot).takeDescSlot.busy.next

theorem execMillDispatch_completes {u : MillRef} (hs : s₀.Keeps s) : s₀.Completes (execMillDispatch u s) := by
  unfold execMillDispatch
  split
  · exact hs.next
  · split
    · exact hs.modMill.rejectMill.busy.next
    · split
      exacts [hs.next, hs.modMill.busy.next]

theorem execFence_completes {u : MillRef} (hs : s₀.Keeps s) : s₀.Completes (execFence u s) := by
  unfold execFence
  split
  · exact hs.next
  · split
    · exact hs.next
    · split
      · exact hs.hostError
      · split
        · exact hs.next
        · extract_lets t v
          have ht : s₀.Keeps t := hs.modMill
          have hv : s₀.Keeps v := by
            dsimp only [v]
            split
            · split
              exacts [ht.sendBell, ht.foreignBell]
            · exact ht
          exact (hv.millEvent.ite hv).busy.next

theorem execDigestTag_completes {u : MillRef} (hs : s₀.Keeps s) : s₀.Completes (execDigestTag u s) := by
  dsimp only [execDigestTag]
  split
  · exact hs.next
  · split
    · exact hs.next
    · split
      exacts [hs.hostError, hs.modMill.busy.next]

theorem execClassDrain_completes {u : MillRef} (hs : s₀.Keeps s) : s₀.Completes (execClassDrain u s) := by
  dsimp only [execClassDrain]
  split
  · split
    exacts [hs.setMill.busy.next, hs.next]
  · exact hs.next

/-! ## Machine/PressCode.lean -/

theorem State.Keeps.dropWrites {p : SlotWrite → Bool} (hs : s₀.Keeps s) : s₀.Keeps (s.dropWrites p) := hs.update

/-! ## Machine/MillData.lean -/

theorem State.Keeps.millError {u : MillRef} {f : MillSticky → MillSticky} {cause : BitVec 3} {tile : Word32} {row : Nat} (hs : s₀.Keeps s) :
    s₀.Keeps (s.millError u f cause tile row) :=
  hs.modMill.millEvent

theorem State.Keeps.residueLog {u : MillRef} {severity event : Nat} (hs : s₀.Keeps s) : s₀.Keeps (s.residueLog u severity event) :=
  hs.logEvent

theorem State.Keeps.input {u : MillRef} {unit ref : Nat} {taken : List SlotIn} {enough : List SlotIn → Bool} (hs : s₀.Keeps s) :
    s₀.Keeps (s.input u unit ref taken enough).2.2 := by
  dsimp only [State.input]
  split
  · exact hs.foreignRing
  · exact hs
  · split <;> exact hs.gatherSlots

theorem State.Keeps.loadDone {u : MillRef} {d : Vec} {x : Loaded} {poisoned refused : Bool} (hs : s₀.Keeps s) :
    s₀.Keeps (s.loadDone u d x poisoned refused) := by
  unfold State.loadDone
  extract_lets _ _ t a b
  have ht : s₀.Keeps t := hs.modMill
  have ha : s₀.Keeps a := ht.millError.ite ht
  have hb : s₀.Keeps b := ha.millError.ite ha
  split
  exacts [hb.millError, hb]

theorem State.Keeps.loadFinish {u : MillRef} {d : Vec} {l : List SlotIn} (hs : s₀.Keeps s) : s₀.Keeps (s.loadFinish u d l) := by
  unfold State.loadFinish
  extract_lets _ _ t _ v
  have ht : s₀.Keeps t := hs.update
  have hv : s₀.Keeps v := by
    dsimp only [v]
    split
    exacts [ht.freeRing, ht]
  split
  exacts [ht.loadDone, hv.loadDone]

theorem State.Keeps.loadGo {u : MillRef} {run : MillRun} (hs : s₀.Keeps s) : s₀.Completes (s.loadGo u run) := by
  dsimp only [State.loadGo]
  split
  · exact hs.hostError
  · split
    exacts [hs.hostError, hs.input.loadDone.busy.next, hs.input.modMill.busy.next, hs.input.loadFinish.busy.next]

theorem execLoadW_completes {u : MillRef} (hs : s₀.Keeps s) : s₀.Completes (execLoadW u s) := by
  dsimp only [execLoadW]
  split
  · exact hs.next
  · split
    · exact hs.loadGo
    · split
      exacts [hs.setMill.loadGo, hs.next]
    · exact hs.next

theorem State.Keeps.freeLines {u : MillRef} {d : Vec} {tag : AccTag} {ps : List (Nat × Nat)} (hs : s₀.Keeps s) :
    s₀.Keeps (s.freeLines u d tag ps) :=
  hs.modMill.update

theorem State.Keeps.recomputeOk {u : MillRef} (hs : s₀.Keeps s) : s₀.Keeps (State.recomputeOk u s) := hs.modMill.residueLog

theorem State.Keeps.recomputeBad {u : MillRef} {tile : Word32} {row : Nat} (hs : s₀.Keeps s) : s₀.Keeps (State.recomputeBad u tile s row) :=
  hs.modMill.millError.residueLog

theorem State.Keeps.computeDone {u : MillRef} {d : Vec} {poisoned refused dirty : Bool} (hs : s₀.Keeps s) :
    s₀.Keeps (s.computeDone u d poisoned refused dirty) := by
  unfold State.computeDone
  extract_lets _ t a
  have ht : s₀.Keeps t := hs.modMill
  have ha : s₀.Keeps a := ht.millError.ite ht
  split
  exacts [ha.millError, ha]

theorem State.Keeps.integerRun {u : MillRef} {ups : List Upset} {d : Vec} {tag : AccTag} {l : List SlotIn} {refused : Bool}
    {rows : List (List Int)} {q : List Bool} (hs : s₀.Keeps s) : s₀.Keeps (s.integerRun u ups d tag l refused rows q) := by
  dsimp only [State.integerRun]
  split
  · exact ((hs.setMill.foldl fun _ _ hv => hv.recomputeOk).foldl fun _ _ hv => hv.recomputeBad).computeDone.millError
  · exact ((hs.setMill.foldl fun _ _ hv => hv.recomputeOk).foldl fun _ _ hv => hv.recomputeBad).computeDone

theorem State.Keeps.freeTiles {u : MillRef} {d : Vec} {tag : AccTag} (hs : s₀.Keeps s) : s₀.Keeps (s.freeTiles u d tag) := hs.freeLines

theorem State.Keeps.tileFree {u : MillRef} {d : Vec} {tag : AccTag} {l : List SlotIn} {refused : Bool} (hs : s₀.Keeps s) :
    s₀.Keeps (s.tileFree u d tag l refused) := by
  unfold State.tileFree
  extract_lets t
  have ht : s₀.Keeps t := by
    dsimp only [t]
    split
    · exact hs
    · split
      exacts [hs.freeRing, hs]
  exact ht.freeTiles.computeDone

theorem State.Keeps.tritRun {u : MillRef} {ups : List Upset} {d : Vec} {l : List SlotIn} {refused : Bool} (hs : s₀.Keeps s) :
    s₀.Keeps (s.tritRun u ups d l refused) := by
  dsimp only [State.tritRun]
  split
  · split
    exacts [hs.integerRun, hs.tileFree]
  · exact hs.tileFree

theorem State.Keeps.binRun {u : MillRef} {ups : List Upset} {d : Vec} {l : List SlotIn} {refused : Bool} (hs : s₀.Keeps s) :
    s₀.Keeps (s.binRun u ups d l refused) := by
  dsimp only [State.binRun]
  split
  · split
    exacts [hs.integerRun, hs.tileFree]
  · exact hs.tileFree

theorem State.Keeps.logRun {u : MillRef} {d : Vec} {l : List SlotIn} {refused : Bool} (hs : s₀.Keeps s) :
    s₀.Keeps (s.logRun u d l refused) := by
  unfold State.logRun
  extract_lets
  split
  · split
    · extract_lets _ _ t v c
      have ht : s₀.Keeps t := hs.setMill
      have hv : s₀.Keeps v := ht.update.ite ht
      have hc : s₀.Keeps c := hv.computeDone
      split
      exacts [hc.millError, hc]
    · exact hs.tileFree
  · exact hs.tileFree

theorem State.Keeps.computeGo {u : MillRef} {run : MillRun} {f : State → List SlotIn → Bool → State} (hs : s₀.Keeps s)
    (hf : ∀ t a b, s₀.Keeps t → s₀.Keeps (f t a b)) : s₀.Completes (s.computeGo u run f) := by
  dsimp only [State.computeGo]
  split
  · exact hs.hostError
  · split
    · exact hs.hostError
    · exact (hf _ _ _ hs.input).busy.next
    · exact hs.input.modMill.busy.next
    · exact (hf _ _ _ hs.input.freePoison).busy.next

theorem State.Keeps.computeUnit {u : MillRef} {type : Nat} {f : Vec → State → List SlotIn → Bool → State} (hs : s₀.Keeps s)
    (hf : ∀ a t b c, s₀.Keeps t → s₀.Keeps (f a t b c)) : s₀.Completes (s.computeUnit u type f) := by
  dsimp only [State.computeUnit]
  split
  · exact hs.next
  · split
    · split
      exacts [hs.computeGo fun _ _ _ ha => hf _ _ _ _ ha, hs.next]
    · split
      exacts [hs.setMill.computeGo fun _ _ _ ha => hf _ _ _ _ ha, hs.next]
    · exact hs.next

theorem execTritMm_completes {u : MillRef} {ups : List Upset} (hs : s₀.Keeps s) : s₀.Completes (execTritMm u ups s) :=
  hs.computeUnit fun _ _ _ _ ht => ht.tritRun

theorem execBinMm_completes {u : MillRef} {ups : List Upset} (hs : s₀.Keeps s) : s₀.Completes (execBinMm u ups s) :=
  hs.computeUnit fun _ _ _ _ ht => ht.binRun

theorem execLogMm_completes {u : MillRef} (hs : s₀.Keeps s) : s₀.Completes (execLogMm u s) := hs.computeUnit fun _ _ _ _ ht => ht.logRun

/-! ## Machine/HandInt.lean -/

theorem execInt_completes {h : HandRef} (hs : s₀.Keeps s) : s₀.Completes (execInt h s) := by
  unfold execInt
  split
  exacts [hs.retire.next, hs.next]

theorem execDiv_completes {h : HandRef} (hs : s₀.Keeps s) : s₀.Completes (execDiv h s) := by
  unfold execDiv
  split
  exacts [hs.retire.next, hs.next]

theorem execAddi_completes {h : HandRef} (hs : s₀.Keeps s) : s₀.Completes (execAddi h s) := by
  unfold execAddi
  split
  exacts [hs.retire.next, hs.next]

theorem execShi_completes {h : HandRef} (hs : s₀.Keeps s) : s₀.Completes (execShi h s) := by
  unfold execShi
  split
  exacts [hs.retire.next, hs.next]

theorem execLui_completes {h : HandRef} (hs : s₀.Keeps s) : s₀.Completes (execLui h s) := by
  unfold execLui
  split
  exacts [hs.retire.next, hs.next]

theorem execLuih_completes {h : HandRef} (hs : s₀.Keeps s) : s₀.Completes (execLuih h s) := by
  unfold execLuih
  split
  exacts [hs.retire.next, hs.next]

theorem execBr_completes {h : HandRef} (hs : s₀.Keeps s) : s₀.Completes (execBr h s) := by
  unfold execBr
  split
  exacts [hs.retire.next, hs.next]

theorem execPbr_completes {h : HandRef} (hs : s₀.Keeps s) : s₀.Completes (execPbr h s) := by
  unfold execPbr
  split
  exacts [hs.retire.next, hs.next]

theorem execJal_completes {h : HandRef} (hs : s₀.Keeps s) : s₀.Completes (execJal h s) := by
  unfold execJal
  split
  exacts [hs.retire.next, hs.next]

theorem execJalr_completes {h : HandRef} (hs : s₀.Keeps s) : s₀.Completes (execJalr h s) := by
  unfold execJalr
  split
  exacts [hs.retire.next, hs.next]

theorem execPr_completes {h : HandRef} (hs : s₀.Keeps s) : s₀.Completes (execPr h s) := by
  unfold execPr
  split
  exacts [hs.retire.next, hs.next]

theorem execCsr_completes {h : HandRef} (hs : s₀.Keeps s) : s₀.Completes (execCsr h s) := by
  dsimp only [execCsr]
  split
  · split
    exacts [hs.fresh.retire.next, hs.retire.next]
  · exact hs.next

theorem execWait_completes {h : HandRef} (hs : s₀.Keeps s) : s₀.Completes (execWait h s) := by
  unfold execWait
  split
  exacts [hs.retire.next, hs.next]

theorem execEret_completes {h : HandRef} (hs : s₀.Keeps s) : s₀.Completes (execEret h s) := by
  unfold execEret
  split
  exacts [hs.retire.next, hs.next]

theorem execHalt_completes {h : HandRef} (hs : s₀.Keeps s) : s₀.Completes (execHalt h s) := by
  unfold execHalt
  split
  exacts [hs.retire.next, hs.next]

theorem execTrap_completes {h : HandRef} (hs : s₀.Keeps s) : s₀.Completes (execTrap h s) := by
  unfold execTrap
  split
  exacts [hs.except.next, hs.next]

theorem execIllegal_completes {h : HandRef} (hs : s₀.Keeps s) : s₀.Completes (execIllegal h s) := by
  unfold execIllegal
  split
  exacts [hs.except.next, hs.next]

theorem execHwFault_completes {h : HandRef} {w : HwPlace} (hs : s₀.Keeps s) : s₀.Completes (execHwFault h w s) := by
  unfold execHwFault
  split
  exacts [hs.quitWait.modHand.modHamlet.busy.next, hs.next]

/-! ## Machine/TallyOps.lean -/

theorem State.Keeps.entryBytes {t : TallyRef} {e : TallyEntry} (hs : s₀.Keeps s) : s₀.Keeps (s.entryBytes t e).2 := by
  unfold State.entryBytes
  split
  exacts [hs.freshBytes, hs]

theorem State.Keeps.tallyLog {t : TallyRef} {e : TallyEntry} (hs : s₀.Keeps s) : s₀.Keeps (s.tallyLog t e) := by
  dsimp only [State.tallyLog]
  split
  · exact hs
  · split
    · exact hs.modTally
    · split
      · exact hs.modTally
      · split
        · next e =>
            have hs' := hs.entryBytes.writeMem _ e
            exact hs'.modTally
        · exact hs.modTally

theorem State.Keeps.feedTally {t : TallyRef} {b : List Byte} (hs : s₀.Keeps s) : s₀.Keeps (s.feedTally t b) := by
  dsimp only [State.feedTally]
  split
  exacts [hs.fresh.modTally, hs.modTally]

theorem State.Keeps.tallySplit {t : TallyRef} {layer : Word32} (hs : s₀.Keeps s) : s₀.Keeps (s.tallySplit t layer) := by
  unfold State.tallySplit
  split
  · split
    exacts [hs.modTally.tallyLog, hs]
  · exact hs

theorem State.Keeps.absorb {t : TallyRef} {u : Snooped} (hs : s₀.Keeps s) : s₀.Keeps (s.absorb t u) := by
  dsimp only [State.absorb]
  split
  · exact hs.modTally.feedTally
  · split
    exacts [hs.modTally.modTally.tallySplit.modTally, hs.modTally.modTally.tallyLog]

theorem State.Keeps.absorbAll {t : TallyRef} (hs : s₀.Keeps s) : s₀.Keeps (s.absorbAll t) := hs.modTally.foldl fun _ _ hs' => hs'.absorb

theorem State.Keeps.offer {t : TallyRef} {source : Nat} {mill : Option Nat} {u : Snooped} (hs : s₀.Keeps s) :
    s₀.Keeps (s.offer t source mill u) := by
  dsimp only [State.offer]
  refine .ite ?_ ?_
  exacts [hs.modTally, hs]

theorem State.Keeps.offerHamlet {u : MillRef} {x : Snooped} (hs : s₀.Keeps s) : s₀.Keeps (s.offerHamlet u x) := hs.offer.offer

theorem State.Keeps.offerParish {p : ParishRef} {source : Nat} {x : Snooped} (hs : s₀.Keeps s) : s₀.Keeps (s.offerParish p source x) :=
  hs.offer.offer

theorem State.Keeps.tallyFlushAll {t : TallyRef} (hs : s₀.Keeps s) : s₀.Keeps (s.tallyFlushAll t) :=
  hs.modTally.foldl fun _ _ hs' => hs'.tallyLog

theorem State.Keeps.writeTallyCtrl {t : TallyRef} {v : Word64} {trusted : Bool} (hs : s₀.Keeps s) :
    s₀.Keeps (s.writeTallyCtrl t v trusted) := by
  dsimp only [State.writeTallyCtrl]
  split
  exacts [hs.absorbAll.modTally, hs.absorbAll.update.modTally]

theorem State.Keeps.writeTallyFlush {t : TallyRef} {v : Word64} (hs : s₀.Keeps s) : s₀.Keeps (s.writeTallyFlush t v) := by
  unfold State.writeTallyFlush
  split
  exacts [hs.absorbAll.tallyFlushAll, hs]

theorem execTallyCtrlWrite_completes {t : TallyRef} {v : Word64} (hs : s₀.Keeps s) : s₀.Completes (execTallyCtrlWrite t v s) :=
  hs.writeTallyCtrl.next

theorem execTallyValueWrite_completes {t : TallyRef} {v : Word64} (hs : s₀.Keeps s) : s₀.Completes (execTallyValueWrite t v s) :=
  hs.modTally.next

theorem execTallyFlush_completes {t : TallyRef} {v : Word64} (hs : s₀.Keeps s) : s₀.Completes (execTallyFlush t v s) :=
  hs.writeTallyFlush.next

theorem execTallySnoopUnit_completes {t : TallyRef} (hs : s₀.Keeps s) : s₀.Completes (execTallySnoopUnit t s) := by
  unfold execTallySnoopUnit
  split
  exacts [hs.next, hs.modTally.absorb.next]

/-! ## Machine/HandUnit.lean -/

theorem State.Keeps.giveSlot {h : HandRef} {j : Job} {r : RingRef} {i d : Nat} {claim expand : Bool} (hs : s₀.Keeps s) :
    s₀.Keeps (s.giveSlot h j r i d claim expand) :=
  hs.retire

theorem State.Keeps.handWaits {h : HandRef} {w : HandWait} (hs : s₀.Keeps s) : s₀.Keeps (s.handWaits h w) := hs.modHand

theorem State.Keeps.holdSlot {h : HandRef} {a d : Nat} {claim expand : Bool} (hs : s₀.Keeps s) :
    s₀.Completes (s.holdSlot h a d claim expand) := by
  dsimp only [State.holdSlot]
  refine .ite ?_ ?_
  · exact hs.except.next
  · split
    · exact hs.foreignRing.retire.next
    · split
      · exact hs.foreignRing.retire.next
      · exact hs.hostError
      · split
        · next e => exact (hs.wake.boundUse.takeSlot _ e).giveSlot.next
        · exact hs.wake.boundUse.joinRing.handWaits.busy.next

theorem execRget_completes {h : HandRef} (hs : s₀.Keeps s) : s₀.Completes (execRget h s) := by
  unfold execRget
  split
  exacts [hs.holdSlot, hs.next]

theorem execRgetx_completes {h : HandRef} (hs : s₀.Keeps s) : s₀.Completes (execRgetx h s) := by
  unfold execRgetx
  split
  exacts [hs.holdSlot, hs.next]

theorem execRrsv_completes {h : HandRef} (hs : s₀.Keeps s) : s₀.Completes (execRrsv h s) := by
  unfold execRrsv
  split
  exacts [hs.holdSlot, hs.next]

theorem execRrel_completes {h : HandRef} (hs : s₀.Keeps s) : s₀.Completes (execRrel h s) := by
  dsimp only [execRrel]
  split
  · split
    · exact hs.except.next
    · split
      exacts [hs.releaseSlot.retire.next, hs.handWaits.busy.next]
  · exact hs.next

theorem State.Keeps.hdrFor {w : Word64} (hs : s₀.Keeps s) : s₀.Keeps (s.hdrFor w).2 := by
  unfold State.hdrFor
  split
  exacts [hs.fresh, hs]

theorem State.Keeps.noteSender {h : HandRef} {c : SlotRef} (hs : s₀.Keeps s) : s₀.Keeps (s.noteSender h c) := by
  unfold State.noteSender
  split
  exacts [hs.modRing, hs]

theorem execRpub_completes {h : HandRef} (hs : s₀.Keeps s) : s₀.Completes (execRpub h s) := by
  dsimp only [execRpub]
  split
  · split
    · exact hs.except.next
    · split
      exacts [hs.hdrFor.publishSlot.noteSender.retire.next, hs.handWaits.busy.next]
  · exact hs.next

theorem execVrx_completes {h : HandRef} (hs : s₀.Keeps s) : s₀.Completes (execVrx h s) := by
  dsimp only [execVrx]
  split
  · split
    · exact hs.retire.next
    · split
      · exact hs.except.next
      · split
        exacts [hs.retire.next, hs.modHand.except.next]
  · exact hs.next

theorem execBadd_completes {h : HandRef} (hs : s₀.Keeps s) : s₀.Completes (execBadd h s) := by
  dsimp only [execBadd]
  split
  · split
    exacts [hs.foreignBell.retire.next, hs.sendBell.retire.next]
  · exact hs.next

theorem State.Keeps.waitBell {h : HandRef} {c : Nat} {target : Word32} (hs : s₀.Keeps s) : s₀.Keeps (s.waitBell h c target) := by
  unfold State.waitBell
  split
  exacts [hs.retire, hs.handWaits.busy]

theorem execBwait_completes {h : HandRef} (hs : s₀.Keeps s) : s₀.Completes (execBwait h s) := by
  dsimp only [execBwait]
  split
  · split
    · split
      · exact hs.waitBell.next
      · split
        exacts [hs.fresh.retire.next, hs.fresh.waitBell.next]
    · split
      exacts [hs.fresh.retire.next, hs.fresh.waitBell.next]
  · exact hs.next

theorem execBread_completes {h : HandRef} (hs : s₀.Keeps s) : s₀.Completes (execBread h s) := by
  dsimp only [execBread]
  split
  · split
    exacts [hs.wake.retire.next, hs.fresh.retire.next]
  · exact hs.next

theorem State.Keeps.pushReady {h : HandRef} (hs : s₀.Keeps s) : s₀.Keeps (s.pushReady h) := by
  unfold State.pushReady
  split
  exacts [hs.modHand, hs.modHand, hs]

theorem State.Keeps.pushWaits {h : HandRef} {w : HandWait} (hs : s₀.Keeps s) : s₀.Keeps (s.pushWaits h w) := by
  unfold State.pushWaits
  split
  exacts [hs, hs.handWaits.busy]

theorem execPissue_completes {h : HandRef} (hs : s₀.Keeps s) : s₀.Completes (execPissue h s) := by
  dsimp only [execPissue]
  split
  · split
    · exact hs.hostError.bind fun _ ht => ht.retire.next
    · split
      exacts [hs.modPorter.retire.next, hs.pushWaits.next]
  · exact hs.next

theorem execMpush_completes {h : HandRef} (hs : s₀.Keeps s) : s₀.Completes (execMpush h s) := by
  dsimp only [execMpush]
  split
  · split
    · exact hs.applyMode.setMill.retire.next
    · split
      exacts [hs.applyMode.setMill.retire.next, hs.applyMode.pushWaits.next]
  · exact hs.next

theorem execPushStall_completes {h : HandRef} (hs : s₀.Keeps s) : s₀.Completes (execPushStall h s) := by
  dsimp only [execPushStall]
  split
  exacts [hs.modHand.raiseEvent.next, hs.next]

theorem execTfeed_completes {h : HandRef} (hs : s₀.Keeps s) : s₀.Completes (execTfeed h s) := by
  dsimp only [execTfeed]
  split
  exacts [hs.absorbAll.feedTally.retire.next, hs.next]

theorem execTrd_completes {h : HandRef} (hs : s₀.Keeps s) : s₀.Completes (execTrd h s) := by
  unfold execTrd
  split
  exacts [hs.retire.next, hs.next]

theorem execTwr_completes {h : HandRef} (hs : s₀.Keeps s) : s₀.Completes (execTwr h s) := by
  dsimp only [execTwr]
  split
  exacts [hs.modTally.retire.next, hs.next]

theorem execEventTake_completes {h : HandRef} (hs : s₀.Keeps s) : s₀.Completes (execEventTake h s) := by
  dsimp only [execEventTake]
  split
  · split
    · exact hs.retire.next
    · exact hs.next
    · exact hs.next
    · split
      exacts [hs.quitWait.retire.next, hs.next]
  · exact hs.next

theorem State.Keeps.grantSlot {r : RingRef} {w : Waiter} {i : Nat} (hs : s₀.Keeps s) : s₀.Keeps (s.grantSlot r w i) := by
  unfold State.grantSlot
  split
  · split
    exacts [hs.giveSlot, hs]
  · exact hs.modRing

theorem execRingWaitEnd_completes {r : RingRef} (hs : s₀.Keeps s) : s₀.Completes (execRingWaitEnd r s) := by
  dsimp only [execRingWaitEnd]
  split
  · exact hs.next
  · split
    exacts [hs.next, hs.setRing.grantSlot.next]

theorem execRingStall_completes {r : RingRef} {n : Nat} (hs : s₀.Keeps s) : s₀.Completes (execRingStall r n s) := by
  unfold execRingStall
  extract_lets
  split
  · exact hs.next
  · split
    · extract_lets t u v
      have ht : s₀.Keeps t := hs.modRing
      have hu : s₀.Keeps u := ht.modHamlet
      have hv : s₀.Keeps v := by
        dsimp only [v]
        split
        exacts [hu.raiseEvent, hu]
      exact hv.countStall.next
    · exact hs.next

theorem State.Keeps.disableRing {r : RingRef} (hs : s₀.Keeps s) : s₀.Keeps (s.disableRing r) := by
  dsimp only [State.disableRing]
  split
  exacts [hs.setRing.freeRing, hs.setRing]

theorem State.Keeps.writeRingCfg {r : RingRef} {v : Word64} (hs : s₀.Keeps s) : s₀.Keeps (s.writeRingCfg r v) := by
  unfold State.writeRingCfg
  extract_lets _ w
  have hw : s₀.Keeps w.2 := by
    dsimp only [w]
    split
    exacts [hs, hs.fresh]
  split
  · split
    · split
      exacts [hs, hs.disableRing]
    · exact hs.modHamlet
  · exact hw.setRing

theorem execRingCfgWrite_completes {r : RingRef} {v : Word64} (hs : s₀.Keeps s) : s₀.Completes (execRingCfgWrite r v s) :=
  hs.writeRingCfg.next

/-! ## Machine/Regs.lean -/

theorem State.Keeps.writeMillReg {u : MillRef} {w : Writer} {off : Nat} {v : Word64} (hs : s₀.Keeps s) :
    s₀.Keeps (s.writeMillReg u w off v) := by
  unfold State.writeMillReg
  split
  · split
    exacts [hs.modMill, hs]
  · split
    · exact hs.modMill
    · split
      · exact hs.pushMillWin
      · split
        · exact hs.modMill
        · split
          exacts [hs.modMill, hs]

theorem State.Keeps.pushPorterWin {p : PorterRef} {w : Writer} {v : Word64} (hs : s₀.Keeps s) : s₀.Keeps (s.pushPorterWin p w v) :=
  hs.winDesc.setPorter

theorem State.Keeps.writePorterReg {p : PorterRef} {w : Writer} {off : Nat} {v : Word64} (hs : s₀.Keeps s) :
    s₀.Keeps (s.writePorterReg p w off v) := by
  unfold State.writePorterReg
  split
  · exact hs.modPorter
  · split
    · exact hs.pushPorterWin
    · split
      exacts [hs.modPorter, hs]

theorem State.Keeps.writeRingReg {m : HamletRef} {off : Nat} {v : Word64} (hs : s₀.Keeps s) : s₀.Keeps (s.writeRingReg m off v) := by
  dsimp only [State.writeRingReg]
  split
  · split
    exacts [hs.writeRingCfg, hs]
  · split
    · exact hs.modHamlet
    · split
      · exact hs.modHamlet
      · split
        exacts [hs.modHamlet, hs]

theorem State.Keeps.writeBellReg {m : HamletRef} {w : Writer} {off : Nat} {v : Word64} (hs : s₀.Keeps s) :
    s₀.Keeps (s.writeBellReg m w off v) := by
  dsimp only [State.writeBellReg]
  split
  · split
    exacts [hs.modHamlet, hs]
  · split
    exacts [hs.modHamlet, hs]

theorem State.Keeps.writeTallyReg {t : TallyRef} {trusted : Bool} {off : Nat} {v : Word64} (hs : s₀.Keeps s) :
    s₀.Keeps (s.writeTallyReg t trusted off v) := by
  unfold State.writeTallyReg
  split
  exacts [hs.writeTallyCtrl, hs.modTally, hs.modTally, hs.modTally, hs.modTally, hs.writeTallyFlush, hs]

theorem State.Keeps.guarded {w : Writer} {reserved v : Word64} (hs : s₀.Keeps s) : s₀.Keeps (s.guarded w reserved v).2 := by
  unfold State.guarded
  split
  exacts [hs, hs.regValue]

theorem State.Keeps.writeHamletReg {m : HamletRef} {by_ : Writer} {off : Nat} {v : Word64} (hs : s₀.Keeps s) :
    s₀.Keeps (s.writeHamletReg m by_ off v) := by
  dsimp only [State.writeHamletReg]
  split
  · exact hs.guarded.writeMillReg
  · split
    · split
      · exact hs
      · split
        exacts [hs.fresh.modHand, hs.modHand]
    · split
      · exact hs.guarded.writeRingReg
      · split
        · exact hs.guarded.writeBellReg
        · split
          · exact hs.guarded.writeTallyReg
          · split
            · exact hs
            · split
              exacts [hs.guarded.writePorterReg, hs]

theorem State.Keeps.writeEngineCtrl {p : ParishRef} {e : ParishEngine} {v : Word64} (hs : s₀.Keeps s) :
    s₀.Keeps (s.writeEngineCtrl p e v) := by
  dsimp only [State.writeEngineCtrl]
  exact hs.modParish

theorem State.Keeps.writeParishReg {p : ParishRef} {off : Nat} {v : Word64} (hs : s₀.Keeps s) : s₀.Keeps (s.writeParishReg p off v) := by
  unfold State.writeParishReg
  split
  · exact hs.writePorterReg
  · split
    · exact hs.writeEngineCtrl
    · split
      · exact hs.writeEngineCtrl
      · split
        exacts [hs.writeTallyReg, hs]

theorem State.Keeps.wakeBlock {m : HamletRef} {write : Bool} {off n : Nat} (hs : s₀.Keeps s) : s₀.Keeps (s.wakeBlock m write off n) := by
  unfold State.wakeBlock
  split
  exacts [hs, hs.wake]

theorem State.Keeps.runArrive {write alloc : Bool} {r : Run} (hs : s₀.Keeps s) : s₀.Keeps (Run.arrive write alloc s r) := by
  unfold Run.arrive
  split
  exacts [hs.wakeFor.touch, hs.wakeBlock, hs]

theorem State.Keeps.runStore {by_ : Writer} {d : List Byte} {poisoned : Bool} {r : Run} (hs : s₀.Keeps s) :
    s₀.Keeps (Run.store s by_ d poisoned r) := by
  unfold Run.store
  split
  · exact hs.storeMem
  · split
    exacts [hs, hs.foldl fun _ _ ht => ht.writeHamletReg]
  · exact hs

theorem State.Keeps.storeRuns {w : Writer} {rs : List Run} {d : List Byte} {poisoned : Bool} (hs : s₀.Keeps s) :
    s₀.Keeps (s.storeRuns w rs d poisoned) := by
  induction rs generalizing s d with
  | nil => exact hs
  | cons r rs ih => exact ih hs.runStore

theorem State.Keeps.noteBad {a : Actor} {rs : List Run} (hs : s₀.Keeps s) : s₀.Keeps (s.noteBad a rs) := by
  dsimp only [State.noteBad]
  split
  exacts [hs, hs, hs.modJob]

theorem State.Keeps.noteKv {a : Actor} {write : Bool} {ea n : Nat} {poisoned : Bool} (hs : s₀.Keeps s) :
    s₀.Keeps (s.noteKv a write ea n poisoned) := by
  dsimp only [State.noteKv]
  split
  · exact hs
  · split
    · exact hs
    · split
      exacts [hs.modJob, hs]

theorem State.Keeps.noteAdapters {a : Actor} {ea n : Nat} (hs : s₀.Keeps s) : s₀.Keeps (s.noteAdapters a ea n) := by
  unfold State.noteAdapters
  split
  exacts [hs.update, hs]

theorem State.Keeps.readAt {a : Actor} {holds : List SlotRef} {alloc : Bool} {ea n : Nat} (hs : s₀.Keeps s) :
    s₀.KeepsSnd (s.readAt a holds alloc ea n) :=
  .map fun _ => by
    dsimp only
    split
    · exact (hs.foldl fun _ _ hs' => hs'.runArrive).noteBad.noteKv
    · exact (hs.foldl fun _ _ hs' => hs'.runArrive).noteBad.noteKv.freshBytes

theorem State.Keeps.writeAt {a : Actor} {by_ : Writer} {holds : List SlotRef} {alloc : Bool} {ea : Nat} {d : List Byte} {poisoned : Bool}
    (hs : s₀.Keeps s) : s₀.KeepsSome (s.writeAt a by_ holds alloc ea d poisoned) :=
  .map fun _ => (hs.foldl fun _ _ hs' => hs'.runArrive).noteKv.noteAdapters.storeRuns.foldl fun _ _ hs' => hs'.freeSlot

/-! ## Machine/Porters.lean -/

theorem State.Keeps.porterBusy {p : PorterRef} (hs : s₀.Keeps s) : s₀.Keeps (s.porterBusy p) := by
  unfold State.porterBusy
  split
  exacts [hs.stir.busy, hs.stir]

theorem State.Keeps.porterEvent {e : PorterDesc} (hs : s₀.Keeps s) : s₀.Keeps (s.porterEvent e) := by
  unfold State.porterEvent
  split
  exacts [hs.raiseEvent, hs]

theorem State.Keeps.porterStop {p : PorterRef} {e : PorterDesc} {k : PorterErr} {row : Nat} (hs : s₀.Keeps s) :
    s₀.Keeps (s.porterStop p e k row) :=
  hs.modPorter.porterEvent

theorem State.Keeps.spendLots {q : ReduceSpec} {n : Nat} (hs : s₀.Keeps s) : s₀.Keeps (s.spendLots q n) := by
  unfold State.spendLots
  split
  exacts [hs.update, hs]

theorem State.Keeps.reduceAt {a : Actor} {seed : Word64} {q : ReduceSpec} {ea : Nat} {d : List Byte} {poisoned alloc : Bool}
    (hs : s₀.Keeps s) : s₀.KeepsSome (s.reduceAt a seed q ea d poisoned alloc) := by
  dsimp only [State.reduceAt]
  split
  exacts [.none, (hs.arrive.noteKv.noteAdapters.storePlaces.spendLots.foldl fun _ _ hs' => hs'.freeSlot).some]

theorem State.Keeps.askRemote {p : PorterRef} {hh ea n : Nat} (hs : s₀.Keeps s) : s₀.KeepsSome (s.askRemote p hh ea n) := hs.ask

theorem State.Keeps.porterFetch {p : PorterRef} {c : PorterCur} {a : Actor} {ea n : Nat} (hs : s₀.Keeps s) :
    s₀.KeepsFetch (s.porterFetch p c a ea n) := by
  dsimp only [State.porterFetch]
  split
  · split
    · exact hs.fetchBytes
    · split
      · exact hs.fetchWaiting
      · split
        · next e => exact (hs.askRemote _ e).fetchWaiting
        · exact .fault
  · split
    · next e => exact (hs.readAt _ e).fetchBytes
    · exact .fault

theorem State.Keeps.tellRemote {p : PorterRef} {row hh ea : Nat} {d : List Byte} {poisoned : Bool} (hs : s₀.Keeps s) :
    s₀.KeepsSome (s.tellRemote p row hh ea d poisoned) :=
  hs.tell

theorem State.Keeps.sentSpec {q : ReduceSpec} (hs : s₀.Keeps s) : s₀.Keeps (s.sentSpec q).2 := by
  unfold State.sentSpec
  split
  exacts [hs.fresh, hs]

theorem State.Keeps.reduceRemote {p : PorterRef} {row hh : Nat} {q : ReduceSpec} {ea : Nat} {d : List Byte} {poisoned : Bool}
    (hs : s₀.Keeps s) : s₀.KeepsSome (s.reduceRemote p row hh q ea d poisoned) :=
  hs.sentSpec.some.foldl fun _ _ ht => ht.bind fun _ hu => hu.request

theorem State.Keeps.deliverMem {p : PorterRef} {e : PorterDesc} {r ea : Nat} {b : List Byte} {poisoned : Bool} (hs : s₀.Keeps s) :
    s₀.KeepsSome (s.deliverMem p e r ea b poisoned).toOption := by
  unfold State.deliverMem
  extract_lets _ _ _ _ _ out
  have ho : s₀.KeepsSome out := (hs.reduceRemote.ite hs.reduceAt).ite (hs.tellRemote.ite hs.writeAt)
  clear_value out
  split
  · exact .none
  · split
    · next t => exact (ho t rfl).some
    · exact .none

theorem State.Keeps.publishFill {r : RingRef} {c : PorterCur} (hs : s₀.Keeps s) : s₀.Keeps (s.publishFill r c) := by
  dsimp only [State.publishFill]
  split
  exacts [hs, hs.padWrite.hdrFor.publishSlot]

theorem State.Keeps.pack {r : RingRef} {c : PorterCur} {b : List Byte} {poisoned : Bool} (hs : s₀.Keeps s) :
    s₀.Keeps (s.pack r c b poisoned).2 := by
  dsimp only [State.pack]
  split
  · split
    exacts [hs.publishFill, hs]
  · exact hs

theorem State.Keeps.putRow {s0 : State} {p : PorterRef} {c0 c : PorterCur} {ring : Option RingRef} {ea : Nat} {b : List Byte}
    {poisoned skip : Bool} (hs : s₀.Keeps s) (hs0 : s₀.Keeps s0) :
    s₀.KeepsRow (s.putRow s0 p c0 c ring ea b poisoned skip) := by
  unfold State.putRow
  extract_lets rowDone
  have hdone : ∀ y t, s₀.Keeps t → s₀.KeepsRow (rowDone y t) := by
    intro y t ht
    dsimp only [rowDone]
    split
    exacts [ht.rowHold, ht.rowNext]
  split
  · extract_lets _
    split
    · exact hdone _ _ hs.pack
    · split
      · next e =>
          have ht := e ▸ hs.engineSlot
          exact hdone _ _ ht.pack
      · exact hs0.engineSlot.rowHold
  · split
    · exact hdone _ _ hs
    · split
      · next e => exact hdone _ _ ((e ▸ hs.deliverMem) _ rfl)
      · exact hs.rowStop

theorem State.Keeps.notePoison {p : PorterRef} {c : PorterCur} {poisoned : Bool} (hs : s₀.Keeps s) :
    s₀.Keeps (s.notePoison p c poisoned) := by
  unfold State.notePoison
  split
  exacts [hs.modPorter, hs]

theorem State.Keeps.rowWith {s0 : State} {p : PorterRef} {c : PorterCur} {q : PorterRings} {e : RowEntry} (hs : s₀.Keeps s)
    (hs0 : s₀.Keeps s0) : s₀.KeepsRow (s.rowWith s0 p c q e) := by
  unfold State.rowWith
  extract_lets
  split
  · exact hs.notePoison.putRow hs0
  · split
    · extract_lets g
      have hg : s₀.Keeps g.2.2 := hs.gatherSlots
      split
      exacts [hg.notePoison.putRow hg, hg.rowHold]
    · split
      · exact hs.notePoison.putRow hs0
      · split
        · next e => exact (hs.porterFetch.ofBytes e).notePoison.putRow hs0
        · next e => exact (hs.porterFetch.ofWaiting e).rowHold
        · exact hs.rowStop

theorem State.Keeps.porterRow {p : PorterRef} {c : PorterCur} {q : PorterRings} (hs : s₀.Keeps s) : s₀.KeepsRow (s.porterRow p c q) := by
  dsimp only [State.porterRow]
  split
  · split
    · next e => exact (hs.porterFetch.ofBytes e).rowWith hs
    · next e => exact (hs.porterFetch.ofWaiting e).rowHold
    · exact hs.rowStop
  · exact hs.rowWith hs

theorem State.Keeps.freeDst {p : PorterRef} {e : PorterDesc} {ring : Option RingRef} (hs : s₀.Keeps s) : s₀.Keeps (s.freeDst p e ring) := by
  dsimp only [State.freeDst]
  split
  exacts [hs.freeRing, hs.foldl fun _ _ ht => (ht.freshBytes.tellRemote.ite ht.freshBytes.writeAt).getD ht]

theorem State.Keeps.porterFinish {p : PorterRef} {c : PorterCur} {q : PorterRings} (hs : s₀.Keeps s) : s₀.Keeps (s.porterFinish p c q) := by
  unfold State.porterFinish
  extract_lets _ t u
  have ht : s₀.Keeps t := by
    dsimp only [t]
    split
    · split
      exacts [hs.freeRing, hs]
    · exact hs
  have hu : s₀.Keeps u := ht.freeDst.ite ht
  exact hu.modPorter

theorem State.Keeps.stopFilled {p : PorterRef} {c : PorterCur} {e : PorterErr} {dst : Option RingRef} (hs : s₀.Keeps s) :
    s₀.Keeps (s.stopFilled p c e dst) := by
  unfold State.stopFilled
  split
  · split
    exacts [hs.publishFill.porterStop, hs.modPorter]
  · exact hs.porterStop

theorem State.Keeps.porterRows {p : PorterRef} {q : PorterRings} {n : Nat} {c : PorterCur} (hs : s₀.Keeps s) :
    s₀.Keeps (State.porterRows p q n s c) := by
  induction n generalizing s c with
  | zero => exact hs.porterFinish
  | succ n ih =>
    unfold State.porterRows
    split
    · exact hs.modPorter
    · split
      · next e =>
          have ht := e ▸ hs.porterRow
          exact ih ht
      · next e => exact (e ▸ hs.porterRow).modPorter
      · next e => exact (e ▸ hs.porterRow).stopFilled

theorem State.Keeps.porterGo {p : PorterRef} {c : PorterCur} (hs : s₀.Keeps s) : s₀.Keeps (s.porterGo p c) := by
  unfold State.porterGo
  split
  exacts [hs.foreignRing.porterStop, hs.freeDst.modPorter, hs.porterRows]

theorem State.Keeps.porterStart {p : PorterRef} {e : PorterDesc} {rest : List PorterDesc} (hs : s₀.Keeps s) :
    s₀.Completes (s.porterStart p e rest) := by
  dsimp only [State.porterStart]
  split
  · exact hs.modPorter.porterStop.next
  · split
    · exact hs.modPorter.jobError.next
    · split
      exacts [hs.modPorter.porterStop.next, hs.modPorter.porterGo.next]

theorem State.Keeps.runPorter {p : PorterRef} {ty : Nat} (hs : s₀.Keeps s) : s₀.Completes (s.runPorter p ty) := by
  dsimp only [State.runPorter]
  split
  · exact hs.next
  · split
    · split
      exacts [hs.porterGo.porterBusy.next, hs.next]
    · split
      exacts [hs.porterBusy.porterStart, hs.next]
    · exact hs.next

theorem execCopy_completes {p : PorterRef} (hs : s₀.Keeps s) : s₀.Completes (execCopy p s) := hs.runPorter

theorem execGather_completes {p : PorterRef} (hs : s₀.Keeps s) : s₀.Completes (execGather p s) := hs.runPorter

theorem execScatter_completes {p : PorterRef} (hs : s₀.Keeps s) : s₀.Completes (execScatter p s) := hs.runPorter

theorem execReduce_completes {p : PorterRef} (hs : s₀.Keeps s) : s₀.Completes (execReduce p s) := hs.runPorter

theorem execPorterDescWinPush_completes {p : PorterRef} {v : Word64} (hs : s₀.Keeps s) : s₀.Completes (execPorterDescWinPush p v s) :=
  hs.pushPorterWin.next

theorem execPorterHaltedClear_completes {p : PorterRef} {v : Word64} (hs : s₀.Keeps s) : s₀.Completes (execPorterHaltedClear p v s) :=
  hs.regValue.modPorter.next

theorem State.Keeps.bellAmount {d : Vec} (hs : s₀.Keeps s) : s₀.Keeps (s.bellAmount d).2 := by
  dsimp only [State.bellAmount]
  split
  exacts [hs.fresh, hs]

theorem State.Keeps.porterBell {p : PorterRef} {e : PorterDesc} (hs : s₀.Keeps s) : s₀.Keeps (s.porterBell p e) := by
  dsimp only [State.porterBell]
  split
  · split
    exacts [hs.bellAmount.sendBell, hs.bellAmount.foreignBell]
  · exact hs

theorem execPorterComplete_completes {p : PorterRef} (hs : s₀.Keeps s) : s₀.Completes (execPorterComplete p s) := by
  dsimp only [execPorterComplete]
  split
  · exact hs.next
  · split
    exacts [hs.next, (hs.porterBell.modPorter.porterEvent.ite hs.porterBell.modPorter).porterBusy.next]

/-! ## Machine/Press.lean -/

theorem State.Keeps.setEngine {p : ParishRef} {e : ParishEngine} {x : Engine} (hs : s₀.Keeps s) : s₀.Keeps (s.setEngine p e x) :=
  hs.modParish

theorem State.Keeps.engineLoad {x : EngineCtx} {c : EngineCur} {ea n : Nat} (hs : s₀.Keeps s) : s₀.KeepsSnd (s.engineLoad x c ea n) := by
  unfold State.engineLoad
  split
  exacts [.map fun _ => hs, hs.readAt]

theorem State.Keeps.engineStore {p : ParishRef} {e : ParishEngine} {a : Actor} {alloc : Bool} {ea : Nat} {d : List Byte} {poisoned : Bool}
    (hs : s₀.Keeps s) : s₀.KeepsSome (s.engineStore p e a alloc ea d poisoned) := by
  unfold State.engineStore
  split
  exacts [hs.tell, hs.writeAt]

theorem State.Keeps.writePart {x : EngineCtx} {alloc : Bool} {ea : Nat} {p : OutPart} {rs : List (Nat × Nat)} (hs : s₀.Keeps s) :
    s₀.Keeps (s.writePart x alloc ea p rs).1 := by
  induction rs generalizing s with
  | nil => exact hs
  | cons r rs ih =>
    unfold State.writePart
    split
    · next e => exact ih (hs.engineStore _ e)
    · exact hs

theorem State.Keeps.writeParts {x : EngineCtx} {alloc : Bool} {ea : Nat} {ps : List OutPart} (hs : s₀.Keeps s) :
    s₀.Keeps (s.writeParts x alloc ea ps).1 := by
  induction ps generalizing s ea with
  | nil => exact hs
  | cons p ps ih =>
    dsimp only [State.writeParts]
    split
    exacts [ih hs.writePart, hs.writePart]

theorem State.Keeps.sendOutSlot {r : RingRef} {i fmt : Nat} {l : List OutPart} (hs : s₀.Keeps s) : s₀.Keeps (s.sendOutSlot r i fmt l) :=
  hs.padWrite.fresh.fresh.publishSlot

theorem State.Keeps.outParts {c : EngineCur} {ps : List OutPart} (hs : s₀.Keeps s) : s₀.Keeps (s.outParts c ps).2 := by
  induction ps generalizing s with
  | nil => exact hs
  | cons p ps ih =>
    unfold State.outParts
    extract_lets y z
    have hy : s₀.Keeps y.2 := by
      dsimp only [y]
      split
      exacts [hs.freshBytes, hs]
    exact ih hy

theorem State.Keeps.putOut {s0 : State} {x : EngineCtx} {c : EngineCur} {fmt : Nat} {l : List OutPart} {e : PressErr}
    {result : List OutPart → Nat} (hs : s₀.Keeps s) (hs0 : s₀.Keeps s0) : s₀.KeepsWork (s.putOut s0 x c fmt l e result) := by
  dsimp only [State.putOut]
  split
  · split
    · next e => exact (e ▸ hs.engineSlot).sendOutSlot.workEnded
    · exact hs0.engineSlot.workWaits
  · exact hs.writeParts.workEnded

theorem State.Keeps.pressGather {x : EngineCtx} {c : EngineCur} {r : RingRef} {enough : List SlotIn → Bool} (hs : s₀.Keeps s) :
    s₀.Keeps (s.pressGather x c r enough).2.2 := by
  unfold State.pressGather
  exact hs.gatherSlots

theorem State.Keeps.pressInput {x : EngineCtx} {c : EngineCur} {n : Nat} (hs : s₀.Keeps s) : s₀.KeepsSrcIn (s.pressInput x c n) := by
  unfold State.pressInput
  split
  · extract_lets g _ t
    have hg : s₀.Keeps g.2.2 := hs.pressGather
    have ht : s₀.Keeps t := hg.freeRing.ite hg
    split
    exacts [ht.srcBytes, hg.srcWaits]
  · split
    · next e => exact (hs.engineLoad _ e).srcBytes
    · exact .fault

theorem State.Keeps.countScan {p : ParishRef} {d : Vec} {b : List Byte} (hs : s₀.Keeps s) : s₀.Keeps (s.countScan p d b) := hs.modParish

theorem State.Keeps.readUntil {x : EngineCtx} {c : EngineCur} {rs : List (Nat × Nat)} (hs : s₀.Keeps s) :
    s₀.Keeps (s.readUntil x c rs).2 := by
  induction rs generalizing s with
  | nil => exact hs
  | cons r rs ih =>
    unfold State.readUntil
    split
    · next e => exact ih (hs.engineLoad _ e)
    · exact hs

theorem State.Keeps.scanStopped {x : EngineCtx} {c : EngineCur} (hs : s₀.Keeps s) : s₀.KeepsWork (s.scanStopped x c) := by
  unfold State.scanStopped
  exact hs.readUntil.countScan.workEnded

theorem State.Keeps.scanCame {p : ParishRef} {c : EngineCur} (hs : s₀.Keeps s) : s₀.Keeps (s.scanCame p c).1 := by
  unfold State.scanCame
  exact hs.countScan

theorem State.Keeps.pressScan {x : EngineCtx} {c : EngineCur} (hs : s₀.Keeps s) : s₀.KeepsWork (s.pressScan x c) := by
  dsimp only [State.pressScan]
  split
  · next e => exact (hs.pressInput.ofWaits e).workWaits
  · exact hs.scanStopped
  · next e => exact (hs.pressInput.ofBytes e).countScan.workEnded

theorem State.Keeps.install {x : EngineCtx} {slot : Nat} {image : List Byte} (hs : s₀.Keeps s) : s₀.Keeps (s.install x slot image) :=
  hs.update.modParish

theorem State.Keeps.pressBuild {x : EngineCtx} {c : EngineCur} (hs : s₀.Keeps s) : s₀.KeepsWork (s.pressBuild x c) := by
  dsimp only [State.pressBuild]
  split
  · exact hs.workEnded
  · split
    exacts [hs.install.workEnded, hs.install.putOut hs]

theorem State.Keeps.pressLoadt {x : EngineCtx} {c : EngineCur} (hs : s₀.Keeps s) : s₀.KeepsWork (s.pressLoadt x c) := by
  unfold State.pressLoadt
  split
  · next e => exact (hs.pressInput.ofWaits e).workWaits
  · exact hs.workEnded
  · next e =>
      have ht := hs.pressInput.ofBytes e
      split
      · exact ht.workEnded
      · split
        · exact ht.freshBytes.install.workEnded
        · split
          exacts [ht.install.workEnded, ht.workEnded]

theorem State.Keeps.pressMaskidx {x : EngineCtx} {c : EngineCur} (hs : s₀.Keeps s) : s₀.KeepsWork (s.pressMaskidx x c) := by
  dsimp only [State.pressMaskidx]
  split
  · next e => exact (hs.pressInput.ofWaits e).workWaits
  · exact hs.workEnded
  · next e =>
      have ht := hs.pressInput.ofBytes e
      exact ht.outParts.putOut (ht.ite hs)

theorem State.Keeps.encodeRead {x : EngineCtx} {c : EngineCur} {k ea n : Nat} (hs : s₀.Keeps s) :
    s₀.Keeps (State.encodeRead x c k ea n s).2.2.2 := by
  induction k generalizing s ea n with
  | zero => exact hs
  | succ k ih =>
    unfold State.encodeRead
    split
    · exact hs
    · next e => exact ih (hs.engineLoad _ e)

theorem State.Keeps.encodeOut {s0 : State} {x : EngineCtx} {c : EngineCur} {b : List Byte} {pz : List Bool} {whole : Bool} (hs : s₀.Keeps s)
    (hs0 : s₀.Keeps s0) : s₀.KeepsWork (s.encodeOut s0 x c b pz whole) := by
  unfold State.encodeOut
  extract_lets _ _ _ _ _ o _ _ u
  have ho : s₀.Keeps o.2 := (hs.fresh.ite hs).outParts
  have hu : s₀.Keeps u := ho.offerParish
  split
  · next e => exact (e ▸ hu.putOut hs0).workWaits
  · next e =>
      have ht := e ▸ hu.putOut hs0
      split
      · exact ht.workEnded
      · split
        · next e => exact (ht.engineStore _ e).workEnded
        · exact ht.workEnded

theorem State.Keeps.pressEncode {x : EngineCtx} {c : EngineCur} (hs : s₀.Keeps s) : s₀.KeepsWork (s.pressEncode x c) := by
  dsimp only [State.pressEncode]
  split
  · split
    · next e => exact (hs.pressInput.ofWaits e).workWaits
    · exact hs.workEnded
    · next e =>
        have ht := hs.pressInput.ofBytes e
        exact ht.encodeOut ht
  · exact hs.encodeRead.encodeOut hs

theorem State.Keeps.streamGet {q : Stream} {off n : Nat} (hs : s₀.Keeps s) : s₀.KeepsSnd (Stream.get q s off n) := by
  unfold Stream.get
  split
  exacts [hs.someWith, hs.engineLoad]

theorem State.Keeps.decodeBlocks {image : Nat → Option (List Byte)} {q : Stream} {n k : Nat} {r : Decoded} (hs : s₀.Keeps s) :
    s₀.Keeps (decodeBlocks image q n k r s).2 := by
  induction n generalizing s k r with
  | zero => exact hs
  | succ n ih =>
    dsimp only [Machine.decodeBlocks]
    split
    · exact hs
    · next e =>
        have ht := hs.streamGet _ e
        split
        · exact ht
        · split
          · exact ht
          · next e' => exact ih (ht.streamGet _ e')

theorem State.Keeps.decodeOut {s0 : State} {x : EngineCtx} {c : EngineCur} {q : Stream} {have_ : Nat} (hs : s₀.Keeps s)
    (hs0 : s₀.Keeps s0) : s₀.KeepsWork (s.decodeOut s0 x c q have_) := by
  unfold State.decodeOut
  extract_lets _ r _ _ t o u
  have hr : s₀.Keeps r.2 := hs.decodeBlocks
  have ht : s₀.Keeps t := by
    dsimp only [t]
    split
    · split
      exacts [hr.freeRing, hr]
    · exact hr
  have ho : s₀.Keeps o.2 := ht.outParts
  have hu : s₀.Keeps u := ho.offerParish
  exact hu.putOut hs0

theorem State.Keeps.pressDecode {x : EngineCtx} {c : EngineCur} (hs : s₀.Keeps s) : s₀.KeepsWork (s.pressDecode x c) := by
  dsimp only [State.pressDecode]
  split
  · split
    exacts [hs.pressGather.decodeOut hs.pressGather, hs.pressGather.workWaits]
  · exact hs.decodeOut hs

theorem State.Keeps.setBuffer {p : ParishRef} {l : List MergeRec} (hs : s₀.Keeps s) : s₀.Keeps (s.setBuffer p l) := hs.modParish

theorem State.Keeps.mergeOut {s0 : State} {x : EngineCtx} {c : EngineCur} {l : List MergeRec} (hs : s₀.Keeps s) (hs0 : s₀.Keeps s0) :
    s₀.KeepsWork (s.mergeOut s0 x c l) := by
  unfold State.mergeOut
  exact hs.outParts.setBuffer.offerParish.putOut hs0

theorem State.Keeps.mergeTake {x : EngineCtx} {r : RingRef} {n : Nat} {c : EngineCur} (hs : s₀.Keeps s) :
    s₀.Keeps (State.mergeTake x r n c s).2.2 := by
  induction n generalizing s c with
  | zero => exact hs
  | succ n ih =>
    dsimp only [State.mergeTake]
    split
    · exact hs
    · split
      · next e =>
          have ht := e ▸ hs.engineSlot
          exact ht
      · next e =>
          have ht := e ▸ hs.engineSlot
          exact ih (ht.setBuffer.releaseSlot.freeRing.ite ht.setBuffer.releaseSlot)

theorem State.Keeps.mergeRun {x : EngineCtx} {c : EngineCur} (hs : s₀.Keeps s) : s₀.KeepsWork (s.mergeRun x c) := by
  dsimp only [State.mergeRun]
  split
  · exact hs.workEnded
  · split
    · split
      exacts [hs.mergeTake.mergeOut hs.mergeTake, hs.mergeTake.workWaits]
    · split
      · exact hs.workEnded
      · next e => exact (hs.engineLoad _ e).mergeOut hs

theorem State.Keeps.engineEnd {p : ParishRef} {e : ParishEngine} {d : Vec} {err : PressErr} {result : Nat} (hs : s₀.Keeps s) :
    s₀.Keeps (s.engineEnd p e d err result) :=
  hs.setEngine

theorem State.Keeps.engineWork {x : EngineCtx} {c : EngineCur} (hs : s₀.Keeps s) : s₀.KeepsWork (s.engineWork x c) := by
  unfold State.engineWork
  split
  · exact hs.mergeRun
  · split
    exacts [hs.pressScan, hs.pressBuild, hs.pressEncode, hs.pressDecode, hs.pressLoadt, hs.pressMaskidx]

theorem State.Keeps.engineFetchWork {x : EngineCtx} {c : EngineCur} (hs : s₀.Keeps s) : s₀.KeepsWork (s.engineFetchWork x c) := by
  unfold State.engineFetchWork
  split
  · split
    · exact hs.engineWork
    · split
      · exact hs.workWaits
      · split
        · next e => exact (hs.ask _ e).workWaits
        · split
          exacts [hs.scanCame.workEnded, hs.workEnded]
  · exact hs.engineWork

theorem State.Keeps.engineGo {p : ParishRef} {e : ParishEngine} {n : Nat} {j : Job} {c : EngineCur} (hs : s₀.Keeps s) :
    s₀.Completes (s.engineGo p e n j c) := by
  dsimp only [State.engineGo]
  split
  · exact hs.engineEnd.next
  · split
    · exact hs.jobError.setEngine.next
    · split
      · next e => exact (e ▸ hs.engineFetchWork).engineEnd.next
      · next e => exact (e ▸ hs.engineFetchWork).setEngine.next

theorem State.Keeps.slotLost {p : ParishRef} {e : ParishEngine} {m : HamletRef} (hs : s₀.Keeps s) : s₀.Keeps (s.slotLost p e m) :=
  hs.modParish.raiseEvent

theorem State.Keeps.engineFetch {p : ParishRef} {e : ParishEngine} {j : Job} (hs : s₀.Keeps s) : s₀.Keeps (s.engineFetch p e j) := by
  dsimp only [State.engineFetch]
  split
  · exact hs
  · split
    · exact hs
    · split
      · next e =>
          have ht := e ▸ hs.engineSlot
          exact ht
      · next e =>
          have ht := e ▸ hs.engineSlot
          split
          exacts [ht.slotLost.releaseSlot, ht.setEngine]

theorem State.Keeps.engineTake {p : ParishRef} {e : ParishEngine} {ds : DescSlot} {d : Vec} {rest : List Vec} (hs : s₀.Keeps s) :
    s₀.Keeps (s.engineTake p e ds d rest) := by
  dsimp only [State.engineTake]
  split
  · split
    exacts [hs.setEngine.releaseSlot, hs.setEngine]
  · exact hs.setEngine

theorem State.Keeps.runEngine {p : ParishRef} {e : ParishEngine} {ty : Nat} (hs : s₀.Keeps s) : s₀.Completes (s.runEngine p e ty) := by
  dsimp only [State.runEngine]
  split
  · exact hs.next
  · split
    · exact hs.next
    · split
      · split
        exacts [hs.stir.engineGo, hs.next]
      · split
        · exact hs.engineFetch.next
        · split
          · exact hs.engineFetch.next
          · split
            exacts [hs.engineFetch.stir.engineTake.engineGo, hs.engineFetch.next]

theorem execScan_completes {p : ParishRef} (hs : s₀.Keeps s) : s₀.Completes (execScan p s) := hs.runEngine

theorem execBuild_completes {p : ParishRef} (hs : s₀.Keeps s) : s₀.Completes (execBuild p s) := hs.runEngine

theorem execEncode_completes {p : ParishRef} (hs : s₀.Keeps s) : s₀.Completes (execEncode p s) := hs.runEngine

theorem execDecode_completes {p : ParishRef} (hs : s₀.Keeps s) : s₀.Completes (execDecode p s) := hs.runEngine

theorem execLoadt_completes {p : ParishRef} (hs : s₀.Keeps s) : s₀.Completes (execLoadt p s) := hs.runEngine

theorem execMaskidx_completes {p : ParishRef} (hs : s₀.Keeps s) : s₀.Completes (execMaskidx p s) := hs.runEngine

theorem execMerge_completes {p : ParishRef} (hs : s₀.Keeps s) : s₀.Completes (execMerge p s) := hs.runEngine

theorem State.Keeps.countEngine {p : ParishRef} {e : ParishEngine} {code : Byte} (hs : s₀.Keeps s) : s₀.Keeps (s.countEngine p e code) := by
  dsimp only [State.countEngine]
  exact hs.modParish

theorem execPressComplete_completes {p : ParishRef} {e : ParishEngine} (hs : s₀.Keeps s) : s₀.Completes (execPressComplete p e s) := by
  unfold execPressComplete
  split
  · split
    · exact hs.next
    · split
      · exact (hs.engineStore.getD hs).setEngine.next
      · extract_lets _ t u v
        have ht : s₀.Keeps t := hs.ite (hs.engineStore.getD hs)
        have hu : s₀.Keeps u := ht.bellAmount.sendBell.ite ht
        have hv : s₀.Keeps v := hu.countEngine
        exact (hv.raiseEvent.stir.ite hv.stir).next
  · exact hs.next

theorem execTableSlotVisible_completes {slot : Nat} (hs : s₀.Keeps s) : s₀.Completes (execTableSlotVisible slot s) := by
  dsimp only [execTableSlotVisible]
  split
  exacts [hs.next, (hs.dropWrites.update.ite hs.dropWrites).next]

/-! ## Machine/Jobs.lean -/

theorem State.Keeps.flushJob {n : Nat} {j : Job} (hs : s₀.Keeps s) : s₀.Keeps (s.flushJob n j) := hs.foldl fun _ _ ht => ht.writeTallyFlush

theorem State.Keeps.stopPorter {n : Nat} {p : PorterRef} (hs : s₀.Keeps s) : s₀.Keeps (s.stopPorter n p) := by
  unfold State.stopPorter
  extract_lets _ _ _ t
  have ht : s₀.Keeps t := hs.modDie.ite hs
  exact ht.modPorter

theorem State.Keeps.stopParish {n : Nat} {j : Job} {p : ParishRef} (hs : s₀.Keeps s) : s₀.Keeps (s.stopParish n j p) := by
  unfold State.stopParish
  extract_lets t w v
  have ht : s₀.Keeps t := hs.foldl fun _ _ hu => hu.stopPorter
  have hw : s₀.Keeps w := ht.modDie
  have hv : s₀.Keeps v := hw.dropWrites.ite hw
  exact hv.modParish

theorem State.Keeps.dropTraffic {slots : List HamletRef} (hs : s₀.Keeps s) : s₀.Keeps (s.dropTraffic slots) := hs.update

theorem State.Keeps.stopJob {n : Nat} {why : JobEnd} (hs : s₀.Keeps s) : s₀.Keeps (s.stopJob n why) := by
  dsimp only [State.stopJob]
  split
  exacts [hs, ((hs.flushJob.foldl fun _ _ ht => ht.stopParish).foldl fun _ _ ht => ht.modHamlet).dropTraffic.modJob]

theorem State.Keeps.settleJob {n : Nat} (hs : s₀.Keeps s) : s₀.Keeps (s.settleJob n) := by
  unfold State.settleJob
  split
  · exact hs
  · split
    · split
      exacts [hs.modJob.notifyHousehold, hs]
    · exact hs

theorem State.Keeps.raiseFence {m : HamletRef} (hs : s₀.Keeps s) : s₀.Keeps (s.raiseFence m) := hs.wake.dropTraffic.modHamlet

theorem State.Keeps.fillRegion {a n : Nat} (hs : s₀.Keeps s) : s₀.Keeps (s.fillRegion a n) :=
  hs.zeroSram.setMem (Memory.Keeps.refl.foldl fun _ _ hm => hm.write)

theorem State.Keeps.addDefects {a n : Nat} {stuck : List (Nat × Byte)} (hs : s₀.Keeps s) : s₀.Keeps (s.addDefects a n stuck) := hs.update

theorem State.Keeps.fillHamlet {m : HamletRef} (hs : s₀.Keeps s) : s₀.Keeps (s.fillHamlet m) := by
  dsimp only [State.fillHamlet]
  exact hs.fillRegion.modHamlet

theorem State.Keeps.checkHamlet {m : HamletRef} {n : Nat} {j : Job} {p : Placed} (hs : s₀.Keeps s) : s₀.Keeps (s.checkHamlet m n j p) := by
  dsimp only [State.checkHamlet]
  split
  exacts [hs.modJob.setHamlet, hs.modJob.setHamlet.logEvent]

theorem State.Keeps.retireGranule {p : ParishRef} {g hh n : Nat} (hs : s₀.Keeps s) : s₀.Keeps (s.retireGranule p g hh n) :=
  hs.modParish.logEvent

theorem State.Keeps.scrubGranule {p : ParishRef} {g n hh : Nat} (hs : s₀.Keeps s) : s₀.Keeps (s.scrubGranule p g n hh) := by
  dsimp only [State.scrubGranule]
  split
  exacts [hs.fillRegion.modParish.modJob, hs.fillRegion.modParish.modJob.retireGranule]

theorem State.Keeps.scrubJob {n : Nat} (hs : s₀.Keeps s) : s₀.Keeps (s.scrubJob n) := by
  dsimp only [State.scrubJob]
  split
  exacts [hs, (hs.foldl fun _ _ ht => ht.raiseFence.fillHamlet.checkHamlet).foldl fun _ _ ht => ht.scrubGranule]

theorem execFenceAndScrub_completes {m : HamletRef} (hs : s₀.Keeps s) : s₀.Completes (execFenceAndScrub m s) := by
  unfold execFenceAndScrub
  split
  exacts [hs.raiseFence.next, hs.next]

theorem execScrubFill_completes {m : HamletRef} {stuck : List (Nat × Byte)} (hs : s₀.Keeps s) : s₀.Completes (execScrubFill m stuck s) := by
  dsimp only [execScrubFill]
  split
  exacts [hs.addDefects.fillHamlet.next, hs.addDefects.next]

theorem execScrubCheck_completes {m : HamletRef} (hs : s₀.Keeps s) : s₀.Completes (execScrubCheck m s) := by
  unfold execScrubCheck
  split
  · split
    exacts [hs.checkHamlet.settleJob.next, hs.next]
  · exact hs.next

theorem execGranuleScrub_completes {p : ParishRef} {g : Nat} {stuck : List (Nat × Byte)} (hs : s₀.Keeps s) :
    s₀.Completes (execGranuleScrub p g stuck s) := by
  dsimp only [execGranuleScrub]
  split
  exacts [hs.addDefects.scrubGranule.settleJob.next, hs.addDefects.next]

theorem execHamletGate_completes {m : HamletRef} (hs : s₀.Keeps s) : s₀.Completes (execHamletGate m s) := by
  dsimp only [execHamletGate]
  split
  exacts [hs.setHamlet.next, hs.next]

theorem execHamletRetain_completes {m : HamletRef} (hs : s₀.Keeps s) : s₀.Completes (execHamletRetain m s) := by
  dsimp only [execHamletRetain]
  split
  exacts [hs.setHamlet.next, hs.next]

theorem execHamletOff_completes {m : HamletRef} (hs : s₀.Keeps s) : s₀.Completes (execHamletOff m s) := by
  dsimp only [execHamletOff]
  split
  · exact hs.setHamlet.next
  · split
    exacts [hs.setHamlet.next, hs.next]

theorem execHamletWake_completes {m : HamletRef} (hs : s₀.Keeps s) : s₀.Completes (execHamletWake m s) := by
  unfold execHamletWake
  split
  exacts [hs.wake.next, hs.next]

/-! ## Machine/Lpddr.lean -/

theorem State.Keeps.askReload {a : Nat} (hs : s₀.Keeps s) : s₀.Keeps (s.askReload a) := by
  dsimp only [State.askReload]
  split
  · split
    exacts [hs, hs.update.notify]
  · exact hs

theorem State.Keeps.poisonBlock {a cls place job : Nat} (hs : s₀.Keeps s) : s₀.Keeps (s.poisonBlock a cls place job) := by
  dsimp only [State.poisonBlock]
  split
  exacts [hs, hs.markBlock.logEvent.readArea.askReload]

theorem execTranslationMiss_completes {d hh page bad : Nat} (hs : s₀.Keeps s) : s₀.Completes (execTranslationMiss d hh page bad s) := by
  dsimp only [execTranslationMiss]
  split
  · exact hs.next
  · split
    · exact (hs.foldl fun _ _ hu => hu.markBlock).readFirm.next
    · exact (hs.foldl fun _ _ hu => hu.markBlock).readFirm.modDie.next

theorem State.Keeps.badLine {p : ParishRef} {line : Nat} {dirty : Bool} (hs : s₀.Keeps s) : s₀.Keeps (s.badLine p line dirty) := by
  unfold State.badLine
  split
  exacts [hs.poisonBlock, hs.logEvent]

theorem execGranaryFill_completes {p : ParishRef} {line : Nat} {bad : Bool} (hs : s₀.Keeps s) :
    s₀.Completes (execGranaryFill p line bad s) := by
  dsimp only [execGranaryFill]
  split
  · exact hs.next
  · split
    · split
      exacts [hs.modParish.badLine.next, hs.next]
    · split
      · split
        exacts [hs.modParish.badLine.next, hs.modParish.next]
      · exact hs.modParish.next

theorem State.Keeps.linkRead {c : CtlRef} {l : LinkEcc} (hs : s₀.Keeps s) : s₀.Keeps (s.linkRead c l) := by
  dsimp only [State.linkRead]
  split
  · exact hs
  · split
    exacts [hs.modCtl, hs.modCtl.logEvent]

theorem State.Keeps.decodeSector {c : CtlRef} {sector job : Nat} {errs : List Nat} (hs : s₀.Keeps s) :
    s₀.Keeps (s.decodeSector c sector job errs) := by
  dsimp only [State.decodeSector]
  split
  · exact hs
  · split
    · exact hs.askReload
    · split
      · exact hs
      · split
        exacts [hs.poisonBlock, hs.modCtl.logEvent]

theorem execLpddrRead_completes {c : CtlRef} {sector : Nat} {errs : List Nat} {link : LinkEcc} {job : Nat} (hs : s₀.Keeps s) :
    s₀.Completes (execLpddrRead c sector errs link job s) := by
  unfold execLpddrRead
  split
  exacts [hs.next, hs.linkRead.decodeSector.noteBad.next]

theorem State.Keeps.siteWrite {c : CtlRef} {a : Nat} {ds : List (List Byte)} (hs : s₀.Keeps s) : s₀.Keeps (s.siteWrite c a ds) := by
  induction ds generalizing s a with
  | nil => exact hs
  | cons d ds ih => exact ih ((hs.setMem Memory.Keeps.refl.writeBytes).ite hs)

theorem execLpddrWrite_completes {c : CtlRef} {addr : Nat} {data : List Byte} (hs : s₀.Keeps s) :
    s₀.Completes (execLpddrWrite c addr data s) := by
  dsimp only [execLpddrWrite]
  split
  exacts [hs.next, hs.siteWrite.update.next]

theorem execCorrectionRewrite_completes {w : Rewrite} (hs : s₀.Keeps s) : s₀.Completes (execCorrectionRewrite w s) := by
  dsimp only [execCorrectionRewrite]
  split
  · exact hs.next
  · split
    exacts [hs.next, (hs.modCtl.decodeSector.ite hs.modCtl).next]

theorem execDailyReadThrough_completes {c : CtlRef} {found : List SectorErr} (hs : s₀.Keeps s) :
    s₀.Completes (execDailyReadThrough c found s) := by
  unfold execDailyReadThrough
  split
  exacts [hs.next, (hs.foldl fun _ _ ht => ht.decodeSector).modCtl.next]

theorem execRefreshUpdate_completes {c : CtlRef} {temp : Nat} (hs : s₀.Keeps s) : s₀.Completes (execRefreshUpdate c temp s) := by
  dsimp only [execRefreshUpdate]
  split
  · exact hs.next
  · split
    exacts [hs.modCtl.next, hs.modCtl.logEvent.next]

theorem State.Keeps.notePoisoned {die place addr : Nat} {j : Option (Nat × Job)} (hs : s₀.Keeps s) :
    s₀.Keeps (s.notePoisoned die place addr j) :=
  hs.logEvent

theorem execUncorrectablePrivate_completes {x : BadWord} (hs : s₀.Keeps s) : s₀.Completes (execUncorrectablePrivate x s) := by
  dsimp only [execUncorrectablePrivate]
  split
  · split
    · split
      exacts [hs.update.notePoisoned.next, hs.next]
    · split
      · split
        exacts [hs.next, hs.poisonBlock.next]
      · exact hs.next
  · split
    exacts [hs.next, hs.modMill.notePoisoned.next]
  · split
    exacts [hs.next, hs.modMill.notePoisoned.next]
  · exact hs.logEvent.next

theorem execSramCorrect_completes {x : SramPlace} (hs : s₀.Keeps s) : s₀.Completes (execSramCorrect x s) := by
  dsimp only [execSramCorrect]
  split <;> exact hs.logEvent.next

/-! ## Machine/Serving.lean -/

theorem State.Keeps.writeFor {hh ha : Nat} {d : List Byte} (hs : s₀.Keeps s) : s₀.KeepsSome (s.writeFor hh ha d) := by
  unfold State.writeFor
  split
  · exact .none
  · split
    exacts [.none, hs.writeMem]

theorem State.Keeps.writeOut {x : Entry} {d : List Byte} (hs : s₀.Keeps s) : s₀.KeepsSome (s.writeOut x d) := hs.writeFor

theorem State.Keeps.unpin {slot : Nat} (hs : s₀.Keeps s) : s₀.Keeps (s.unpin slot) := by
  unfold State.unpin
  split
  · exact hs
  · split
    exacts [hs.update.notifyHousehold, hs.update]

theorem State.Keeps.closeEntry {e final : Nat} (hs : s₀.Keeps s) : s₀.Keeps (s.closeEntry e final) := hs.modEntry.unpin

theorem State.Keeps.outputFault {x : Entry} (hs : s₀.Keeps s) : s₀.Keeps (s.outputFault x) := hs.logEvent

theorem State.Keeps.endEntry {e final : Nat} {late : Bool} (hs : s₀.Keeps s) : s₀.Keeps (s.endEntry e final late) := by
  dsimp only [State.endEntry]
  split
  · next e => exact (hs.writeOut _ e).closeEntry
  · exact hs.outputFault.closeEntry

theorem State.Keeps.killEntries {n : Nat} (hs : s₀.Keeps s) : s₀.Keeps (s.killEntries n) := (hs.foldl fun _ _ hu => hu.endEntry).update

theorem State.Keeps.cacheGrammar {d : Nat} {x : Entry} (hs : s₀.Keeps s) : s₀.Keeps (s.cacheGrammar d x) := by
  dsimp only [State.cacheGrammar]
  split
  · exact hs
  · split
    exacts [hs.update, hs]

theorem State.Keeps.dropSieve {i : Nat} (hs : s₀.Keeps s) : s₀.Keeps (s.dropSieve i) := hs.update

theorem State.Keeps.grammarNext {x : Entry} {t : Nat} (hs : s₀.Keeps s) : s₀.Keeps (s.grammarNext x t).2 := by
  unfold State.grammarNext
  split
  exacts [hs, hs.fresh]

theorem State.Keeps.sieveTake {n d : Nat} {row : Nat × StepRow} {shard : Nat × Nat} {x : SlotIn} (hs : s₀.Keeps s) :
    s₀.Keeps (s.sieveTake n d row shard x) :=
  hs.cacheGrammar.modJob

theorem execSieveRow_completes {d n : Nat} (hs : s₀.Keeps s) : s₀.Completes (execSieveRow d n s) := by
  dsimp only [execSieveRow]
  split
  · exact hs.next
  · split
    · split
      · exact hs.next
      · split
        · exact hs.next
        · next e => exact (hs.wake.boundUse.takeSlot _ e).sieveTake.releaseSlot.stir.next
    · exact hs.next

theorem execSieveSample_completes {n : Nat} (hs : s₀.Keeps s) : s₀.Completes (execSieveSample n s) := by
  dsimp only [execSieveSample]
  split
  · exact hs.next
  · split
    · exact hs.next
    · split
      exacts [hs.next, hs.modJob.stir.next]

theorem State.Keeps.promptTokens {x : Entry} {k : Nat} (hs : s₀.Keeps s) : s₀.Keeps (s.promptTokens x k).2.2 := by
  dsimp only [State.promptTokens]
  split
  · next e => exact hs.readMem _ e
  · exact hs.update

theorem State.Keeps.offerRows {j : Job} {b : Batch} {e : Nat} (hb : s₀.Keeps b.st) : s₀.Keeps (offerRows j b e).st := by
  dsimp only [Machine.offerRows]
  split
  · exact hb
  · split
    exacts [hb.promptTokens, hb]

theorem State.Keeps.startStep {n : Nat} {j : Job} {rows : List StepRow} {reqs : List Nat} {replay : Bool} (hs : s₀.Keeps s) :
    s₀.Keeps (s.startStep n j rows reqs replay) := by
  dsimp only [State.startStep]
  split
  · exact hs.modJob
  · next e =>
      have ht := hs.writeFor _ e
      split
      exacts [(ht.foldl fun _ _ hv => hv.modEntry).modJob.castBell, (ht.foldl fun _ _ hv => hv.modEntry).modJob]

theorem State.Keeps.selectBatch {n : Nat} (hs : s₀.Keeps s) : s₀.Keeps (s.selectBatch n).1 := by
  unfold State.selectBatch
  extract_lets gone a told order
  have ha : s₀.Keeps a := hs.foldl fun _ _ ht => ht.endEntry
  split
  · exact ha
  · extract_lets b c t
    have hb : s₀.Keeps b.st := List.foldlRecOn (motive := fun b : Batch => s₀.Keeps b.st) order _ ha fun _ hb _ _ => hb.offerRows
    have hc : s₀.Keeps c := hb.foldl fun _ _ ht => ht.modEntry
    have ht : s₀.Keeps t := hc.startStep
    split
    · exact hc.modJob
    · dsimp only
      split
      exacts [ht.modJob, ht]

theorem State.Keeps.wildToken {vocab : Nat} (hs : s₀.Keeps s) : s₀.Keeps (s.wildToken vocab).2 := by
  unfold State.wildToken
  exact hs.fresh

theorem State.Keeps.resultOf {j : Job} {x : Entry} {token : Option (BitVec 18)} (hs : s₀.Keeps s) : s₀.Keeps (s.resultOf j x token).2 := by
  unfold State.resultOf
  split
  exacts [hs.wildToken, hs]

theorem State.Keeps.entryBoundary {j : Job} {e : Nat} (hs : s₀.Keeps s) : s₀.Keeps (s.entryBoundary j e).1 := by
  unfold State.entryBoundary
  extract_lets v rows t x late closing
  have ht : s₀.Keeps t := hs.modEntry
  split
  · split
    · exact ht.endEntry
    · split
      exacts [ht.endEntry, ht]
  · extract_lets w
    have hw : s₀.Keeps w.2 := ht.resultOf
    split
    · exact hw.endEntry
    · extract_lets tok final
      split
      · exact hw.outputFault.closeEntry
      · next e' =>
          have hu := hw.writeOut _ e'
          exact hu.grammarNext.modEntry.ite hu.grammarNext.modEntry.closeEntry

theorem State.Keeps.closeSessions {n : Nat} (hs : s₀.Keeps s) : s₀.Keeps (s.closeSessions n) :=
  ((hs.foldl fun _ _ hu => hu.endEntry).foldl fun _ _ hw => hw.modEntry).update

theorem State.Keeps.appendNotices {hh step : Nat} {sessions : List Nat} (hs : s₀.Keeps s) : s₀.Keeps (s.appendNotices hh step sessions) :=
  hs.foldl fun _ _ ht => ht.notifyHousehold

theorem State.Keeps.addRecord {n : Nat} {j : Job} {held : Bool} {late : Nat} (hs : s₀.Keeps s) : s₀.Keeps (s.addRecord n j held late) :=
  hs.modJob

theorem State.Keeps.goodBoundary {n : Nat} {j : Job} (hs : s₀.Keeps s) : s₀.Keeps (s.goodBoundary n j) := by
  unfold State.goodBoundary
  extract_lets one a b c d
  have ha : s₀.Keeps a.1 := List.foldlRecOn (motive := fun a => s₀.Keeps a.1) _ one hs fun _ ht _ _ => ht.entryBoundary.modEntry
  have hb : s₀.Keeps b := ha.addRecord.closeSessions
  exact hb.modJob.selectBatch.appendNotices

theorem State.Keeps.poisonedBoundary {n : Nat} {j : Job} (hs : s₀.Keeps s) : s₀.Keeps (s.poisonedBoundary n j) :=
  ((hs.foldl fun _ _ hu => hu.askReload).foldl fun _ _ hu => hu.modEntry).addRecord.modJob.logEvent.closeSessions

theorem execStepBoundary_completes {n : Nat} (hs : s₀.Keeps s) : s₀.Completes (execStepBoundary n s) := by
  dsimp only [execStepBoundary]
  split
  · exact hs.next
  · split
    · exact hs.next
    · split
      · split
        exacts [(hs.poisonedBoundary.ite hs.goodBoundary).next, hs.next]
      · exact hs.closeSessions.selectBatch.appendNotices.next

theorem State.Keeps.faultJob {n die place detail : Nat} (hs : s₀.Keeps s) : s₀.Keeps (s.faultJob n die place detail) := by
  unfold State.faultJob
  split
  exacts [hs, hs.killEntries.stopJob.logEvent]

theorem State.Keeps.raiseMode {n : Nat} (hs : s₀.Keeps s) : s₀.Keeps (s.raiseMode n) := by
  unfold State.raiseMode
  split
  · exact hs
  · split
    · exact hs
    · split
      · next e => exact (hs.writeFor _ e).modJob.foldl fun _ _ hu => hu.foldl fun _ _ hv => hv.raiseEvent
      · exact hs

theorem State.Keeps.replayStep {n : Nat} {j : Job} (hs : s₀.Keeps s) : s₀.Keeps (s.replayStep n j) := by
  dsimp only [State.replayStep]
  split
  exacts [hs.modJob.raiseMode.modJob, hs.modJob.raiseMode.startStep]

theorem State.Keeps.recoverBlock {n : Nat} {j : Job} {b : Nat} (hs : s₀.Keeps s) : s₀.KeepsSome (s.recoverBlock n j b) := by
  dsimp only [State.recoverBlock]
  split
  exacts [.none, ((hs.foldl fun _ _ hu => hu.endEntry).setMem Memory.Keeps.refl.zero).some]

theorem execStepReplay_completes {n : Nat} {trace : Option Nat} (hs : s₀.Keeps s) : s₀.Completes (execStepReplay n trace s) := by
  dsimp only [execStepReplay]
  split
  · exact hs.next
  · split
    · exact hs.next
    · split
      exacts [hs.faultJob.next, (hs.foldl fun _ _ ht => ht.recoverBlock.getD ht).replayStep.next]

theorem State.Keeps.blockRestored {t off a : Nat} (hs : s₀.Keeps s) : s₀.Keeps (s.blockRestored t off a) := hs.update.logEvent

theorem State.Keeps.putBlock {a : Nat} {d : List Byte} (hs : s₀.Keeps s) : s₀.Keeps (s.putBlock a d) :=
  hs.setMem Memory.Keeps.refl.writeBytes

theorem execMirrorRestore_completes {t b : Nat} (hs : s₀.Keeps s) : s₀.Completes (execMirrorRestore t b s) := by
  dsimp only [execMirrorRestore]
  split
  · exact hs.next
  · split
    · exact hs.next
    · split
      · exact hs.putBlock.blockRestored.next
      · split
        exacts [hs.putBlock.blockRestored.next, hs.next]

theorem State.Keeps.pageOut {x : Entry} {q : Session} {i : Nat} (hs : s₀.Keeps s) : s₀.KeepsSnd (s.pageOut x q i) := by
  dsimp only [State.pageOut]
  split
  · next e => exact (hs.readMem _ e).hostWrite.mapIn fun _ hu => hu
  · exact .none

theorem State.Keeps.pageIn {x : Entry} {q : Session} {i : Nat} (hs : s₀.Keeps s) : s₀.KeepsSome (s.pageIn x q i) := by
  dsimp only [State.pageIn]
  split
  · split
    exacts [hs.writeMem, .none]
  · exact .none

theorem State.Keeps.cellarFails {e : Nat} (hs : s₀.Keeps s) : s₀.Keeps (s.cellarFails e) := hs.endEntry.logEvent

theorem State.Keeps.copyEnded {e : Nat} (hs : s₀.Keeps s) : s₀.Keeps (s.copyEnded e) := by
  unfold State.copyEnded
  extract_lets _ t
  have ht : s₀.Keeps t := hs.endEntry.ite hs
  split
  · split
    exacts [ht.closeSessions, ht]
  · exact ht

theorem execCellarCopyOut_completes {e : Nat} {ok : Bool} (hs : s₀.Keeps s) : s₀.Completes (execCellarCopyOut e ok s) := by
  unfold execCellarCopyOut
  extract_lets x
  split
  · exact hs.next
  · split
    · exact hs.next
    · extract_lets one
      have hone : ∀ a i, s₀.KeepsSnd a → s₀.KeepsSnd (one a i) := fun a i ha =>
        ha.bind fun p hp => hp.pageOut.mapIn fun r hr => hr
      split
      · exact hs.cellarFails.copyEnded.next
      · next e' => exact (State.KeepsIn.foldl (.ite hs.someWith .none) hone _ e').modEntry.copyEnded.next

theorem execCellarCopyIn_completes {e : Nat} {ok : Bool} (hs : s₀.Keeps s) : s₀.Completes (execCellarCopyIn e ok s) := by
  dsimp only [execCellarCopyIn]
  split
  · exact hs.next
  · split
    · exact hs.next
    · split
      · exact hs.cellarFails.copyEnded.next
      · next e =>
          have ht := ((hs.some.ite .none).foldl fun _ _ ha => ha.bind fun _ ht => ht.pageIn) _ e
          split
          exacts [ht.modEntry.endEntry.copyEnded.next, ht.modEntry.copyEnded.next]

theorem execExpiry_completes {e : Nat} (hs : s₀.Keeps s) : s₀.Completes (execExpiry e s) := by
  dsimp only [execExpiry]
  split
  exacts [hs.endEntry.copyEnded.next, hs.next]

/-! ## Machine/Commands.lean -/

theorem execIdentify_completes {k : Nat} (hs : s₀.Keeps s) : s₀.Completes (execIdentify k s) := hs.command fun _ => hs.answer

theorem execEcho_completes {k : Nat} (hs : s₀.Keeps s) : s₀.Completes (execEcho k s) := hs.command fun _ => hs.done

theorem execLogbookRead_completes {k : Nat} (hs : s₀.Keeps s) : s₀.Completes (execLogbookRead k s) :=
  hs.command fun _ => hs.done.ite hs.answer

theorem execLogbookClear_completes {k : Nat} (hs : s₀.Keeps s) : s₀.Completes (execLogbookClear k s) :=
  hs.command fun _ => hs.update.update.done

theorem execNoticeRoute_completes {k : Nat} (hs : s₀.Keeps s) : s₀.Completes (execNoticeRoute k s) :=
  hs.command fun _ => hs.forHousehold fun _ => hs.refuse.ite hs.modHousehold.done

theorem State.Keeps.emptyTable {hh : Nat} (hs : s₀.Keeps s) : s₀.Keeps (s.emptyTable hh) :=
  hs.foldl fun _ _ ht => ht.setMem Memory.Keeps.refl.zero

theorem execHhOpen_completes {k : Nat} (hs : s₀.Keeps s) : s₀.Completes (execHhOpen k s) :=
  hs.command fun _ => hs.refuse.ite (hs.refuse.ite hs.update.emptyTable.done)

theorem State.Keeps.forget {hh lo n : Nat} (hs : s₀.Keeps s) : s₀.Keeps (s.forget hh lo n) := hs.update

theorem State.Keeps.mapPages {hh first : Nat} {l : List Word64} (hs : s₀.Keeps s) : s₀.Keeps (s.mapPages hh first l) := hs.putPtes.forget

theorem State.Keeps.unmapPages {hh : Nat} {l : List Nat} (hs : s₀.Keeps s) : s₀.Keeps (s.unmapPages hh l) :=
  hs.foldl fun _ _ ht => ht.mapPages

theorem State.Keeps.forgetHousehold {hh : Nat} (hs : s₀.Keeps s) : s₀.Keeps (s.forgetHousehold hh) := hs.forget.unmapPages.update

theorem State.Keeps.freePressSlots {hh : Nat} (hs : s₀.Keeps s) : s₀.Keeps (s.freePressSlots hh) := hs.dropWrites.update

theorem State.Keeps.dropHousehold {hh : Nat} (hs : s₀.Keeps s) : s₀.Keeps (s.dropHousehold hh) := hs.forgetHousehold.freePressSlots

theorem State.Keeps.killNow {n : Nat} (hs : s₀.Keeps s) : s₀.Keeps (s.killNow n) := by
  unfold State.killNow
  extract_lets t
  have ht : s₀.Keeps t := hs.stopJob.ite hs
  exact ht.scrubJob.settleJob

theorem State.Keeps.closeHousehold {hh : Nat} (hs : s₀.Keeps s) : s₀.Keeps (s.closeHousehold hh) :=
  ((hs.foldl fun _ _ ht => ht.endEntry).foldl fun _ _ hs' => hs'.killNow).update.dropHousehold

theorem execHhClose_completes {k : Nat} (hs : s₀.Keeps s) : s₀.Completes (execHhClose k s) :=
  hs.command fun _ => hs.closeHousehold.done.ite hs.refuse

theorem execHhQuota_completes {k : Nat} (hs : s₀.Keeps s) : s₀.Completes (execHhQuota k s) :=
  hs.command fun _ => hs.modHousehold.done.ite hs.refuse

theorem execKeyLoad_completes {k : Nat} (hs : s₀.Keeps s) : s₀.Completes (execKeyLoad k s) :=
  hs.command fun _ => hs.forHousehold fun _ => by
    dsimp only
    split
    · exact hs.refuse
    · split
      · exact hs.refuse
      · split
        exacts [hs.refuse, hs.update.done]

theorem execKeyErase_completes {k : Nat} (hs : s₀.Keeps s) : s₀.Completes (execKeyErase k s) :=
  hs.command fun _ => hs.forHousehold fun _ => hs.refuse.ite (hs.update.done.ite hs.refuse)

theorem State.Keeps.zeroRun {c : Crypt} {a : Nat} (hs : s₀.Keeps s) : s₀.Keeps (State.zeroRun c s a) := by
  unfold State.zeroRun
  split
  exacts [hs.setMem Memory.Keeps.refl.zero, hs.store]

theorem execMemMap_completes {k hint : Nat} (hs : s₀.Keeps s) : s₀.Completes (execMemMap k hint s) :=
  hs.command fun _ => hs.forHousehold fun _ => by
    dsimp only
    split
    · exact hs.refuse
    · split
      exacts [hs.refuse, (hs.foldl fun _ _ hs' => hs'.zeroRun).mapPages.done]

theorem execMemUnmap_completes {k : Nat} (hs : s₀.Keeps s) : s₀.Completes (execMemUnmap k s) :=
  hs.command fun _ => hs.forHousehold fun _ => hs.refuse.ite hs.unmapPages.done

theorem execBar2Set_completes {k : Nat} (hs : s₀.Keeps s) : s₀.Completes (execBar2Set k s) :=
  hs.command fun _ => hs.refuse.ite (hs.refuse.ite hs.update.done)

theorem State.Keeps.claimSlot {hh slot hint : Nat} (hs : s₀.Keeps s) : s₀.KeepsReply (s.claimSlot hh slot hint) := by
  dsimp only [State.claimSlot]
  split
  · exact hs.refuse
  · split
    exacts [hs.update.done, hs.refuse]

theorem execPressSlot_completes {k hint : Nat} (hs : s₀.Keeps s) : s₀.Completes (execPressSlot k hint s) :=
  hs.command fun _ => hs.forHousehold fun _ => by
    dsimp only
    split
    · exact hs.refuse
    · split
      · exact hs.claimSlot
      · split
        · exact hs.refuse
        · split
          · exact hs.update.dropWrites.done
          · split
            · exact hs.refuse
            · split
              exacts [hs.update.dropWrites.done, hs.refuse]

theorem State.Keeps.withJournal {f : State → Reply} (hs : s₀.Keeps s) (hf : ∀ t, s₀.Keeps t → s₀.KeepsReply (f t)) :
    s₀.KeepsReply (s.withJournal f) := by
  dsimp only [State.withJournal]
  split
  exacts [hs.readArea.refuse, hf _ hs.readArea]

theorem execAdmitBegin_completes {k hint : Nat} (hs : s₀.Keeps s) : s₀.Completes (execAdmitBegin k hint s) :=
  hs.command fun _ => hs.withJournal fun _ hs' => by
    dsimp only
    split
    · exact hs'.refuse
    · split
      · exact hs'.refuse
      · split
        · exact hs'.refuse
        · split
          · exact hs'.refuse
          · split
            exacts [hs'.refuse, hs'.update.done]

theorem State.Keeps.forTensor {id : Nat} {admitted : Bool} {f : Tensor → Reply} (hs : s₀.Keeps s) (hf : ∀ a, s₀.KeepsReply (f a)) :
    s₀.KeepsReply (s.forTensor id admitted f) := by
  unfold State.forTensor
  split
  · exact hs.refuse
  · split
    exacts [hf _, hs.refuse]

theorem State.Keeps.tensorWrite {t : Tensor} {mirror : Bool} {off : Nat} {d : List Byte} (hs : s₀.Keeps s) :
    s₀.Keeps (s.tensorWrite t mirror off d) :=
  hs.foldl fun _ _ hu => hu.store

theorem State.Keeps.tensorPut {t : Tensor} {off : Nat} {d : List Byte} (hs : s₀.Keeps s) : s₀.Keeps (s.tensorPut t off d) := by
  dsimp only [State.tensorPut]
  split
  exacts [hs.tensorWrite.tensorWrite, hs.tensorWrite]

theorem execAdmitData_completes {k : Nat} (hs : s₀.Keeps s) : s₀.Completes (execAdmitData k s) := by
  refine hs.command fun c => hs.withJournal fun s hs => hs.forTensor fun t => ?_
  extract_lets i
  split
  · exact hs.refuse
  · split
    · exact hs.refuse
    · split
      · exact hs.refuse
      · extract_lets u
        have hu : s₀.Keeps u := hs.tensorPut
        exact hu.update.done

theorem execAdmitEnd_completes {k : Nat} (hs : s₀.Keeps s) : s₀.Completes (execAdmitEnd k s) :=
  hs.command fun _ => hs.withJournal fun _ hs' => hs'.forTensor fun _ => hs'.refuse.ite hs'.update.done

theorem execAdmitResume_completes {k : Nat} (hs : s₀.Keeps s) : s₀.Completes (execAdmitResume k s) :=
  hs.command fun _ => hs.withJournal fun _ hs' => hs'.forTensor fun _ => hs'.answer

theorem execAdmitAbort_completes {k : Nat} (hs : s₀.Keeps s) : s₀.Completes (execAdmitAbort k s) :=
  hs.command fun _ => hs.withJournal fun _ hs' => hs'.forTensor fun _ => hs'.update.done

theorem execWeightMap_completes {k : Nat} (hs : s₀.Keeps s) : s₀.Completes (execWeightMap k s) :=
  hs.command fun _ => hs.refuse.ite (hs.forTensor fun _ => hs.refuse.ite (hs.refuse.ite hs.mapPages.update.done))

theorem execWeightUnmap_completes {k : Nat} (hs : s₀.Keeps s) : s₀.Completes (execWeightUnmap k s) :=
  hs.command fun _ => by
    dsimp only
    split
    · exact hs.refuse
    · split
      exacts [hs.refuse, hs.mapPages.update.done]

theorem execWeightFree_completes {k : Nat} (hs : s₀.Keeps s) : s₀.Completes (execWeightFree k s) :=
  hs.command fun _ => hs.forTensor fun _ => hs.update.done.ite hs.refuse

theorem State.Keeps.blockReload {c : Command} (hs : s₀.Keeps s) : s₀.KeepsReply (s.blockReload c) := by
  unfold State.blockReload
  exact hs.forTensor fun _ => by
    dsimp only
    split
    · exact hs.refuse
    · split
      exacts [hs.refuse, (hs.tensorPut.blockRestored.ite hs.tensorPut).done]

theorem execBlockReload_completes {k : Nat} (hs : s₀.Keeps s) : s₀.Completes (execBlockReload k s) := by
  unfold execBlockReload
  split
  · exact hs.next
  · split
    exacts [hs.next, hs.command fun _ => hs.blockReload]

/-! ## Machine/HandMem.lean -/

theorem State.Keeps.localRead {h : HandRef} {off n : Nat} (hs : s₀.Keeps s) : s₀.Keeps (s.localRead h off n).2 := by
  dsimp only [State.localRead]
  split
  exacts [hs, hs.freshBytes]

theorem State.Keeps.localWrite {h : HandRef} {off : Nat} {d : List Byte} (hs : s₀.Keeps s) : s₀.Keeps (s.localWrite h off d) :=
  hs.padWrite.foldl fun _ _ hs' => hs'.freeSlot

theorem State.Keeps.localLoad {h : HandRef} {ea : Word64} {n align : Nat} {f : List Byte → Hand → Hand} (hs : s₀.Keeps s) :
    s₀.Completes (s.localLoad h ea n align f) := by
  dsimp only [State.localLoad]
  split
  · exact hs.except.next
  · split
    exacts [hs.except.next, hs.localRead.retire.next]

theorem State.Keeps.localStore {h : HandRef} {ea : Word64} {d : List Byte} {align : Nat} (hs : s₀.Keeps s) :
    s₀.Completes (s.localStore h ea d align) := by
  unfold State.localStore
  split
  exacts [hs.except.next, hs.localWrite.retire.next]

theorem execLocalLoad_completes {h : HandRef} (hs : s₀.Keeps s) : s₀.Completes (execLocalLoad h s) := by
  unfold execLocalLoad
  split
  exacts [hs.localLoad, hs.next]

theorem execLocalStore_completes {h : HandRef} (hs : s₀.Keeps s) : s₀.Completes (execLocalStore h s) := by
  unfold execLocalStore
  split
  exacts [hs.localStore, hs.next]

theorem execVld_completes {h : HandRef} (hs : s₀.Keeps s) : s₀.Completes (execVld h s) := by
  unfold execVld
  split
  exacts [hs.localLoad, hs.next]

theorem execVst_completes {h : HandRef} (hs : s₀.Keeps s) : s₀.Completes (execVst h s) := by
  unfold execVst
  split
  exacts [hs.localStore, hs.next]

theorem execVstn_completes {h : HandRef} (hs : s₀.Keeps s) : s₀.Completes (execVstn h s) := by
  dsimp only [execVstn]
  split
  · split
    exacts [hs.localStore, hs.except.next]
  · exact hs.next

theorem execIbld_completes {h : HandRef} (hs : s₀.Keeps s) : s₀.Completes (execIbld h s) := by
  dsimp only [execIbld]
  split
  · split
    · exact hs.except.next
    · split
      · exact hs.except.next
      · split
        · exact hs.except.next
        · split
          exacts [hs.localRead.modHand.except.next, hs.localRead.modHand.retire.next]
  · exact hs.next

theorem State.Keeps.remoteAccess {h : HandRef} {hh : Nat} {ea : Word64} {n : Nat} {data : Option (List Byte)} (hs : s₀.Keeps s) :
    s₀.Keeps (s.remoteAccess h hh ea n data) := by
  unfold State.remoteAccess
  extract_lets _ send
  have hsend : ∀ o x, s₀.KeepsSome o → s₀.KeepsSome (send o x) := fun _ _ ho => ho.bind fun _ hu => by
    split
    exacts [hu.request, hu.request]
  split
  · next t e => exact (hs.some.foldl hsend t e).retire
  · exact hs.except

theorem State.Keeps.globalLoad {h : HandRef} {ea : Word64} {n align : Nat} {f : List Byte → Hand → Hand} (hs : s₀.Keeps s) :
    s₀.Completes (s.globalLoad h ea n align f) := by
  unfold State.globalLoad
  split
  · exact hs.except.next
  · split
    · exact hs.except.next
    · split
      · exact hs.remoteAccess.next
      · split
        · exact hs.except.next
        · next e =>
            have ht := hs.readAt _ e
            split
            exacts [ht.except.next, ht.retire.next]

theorem State.Keeps.globalStore {h : HandRef} {ea : Word64} {d : List Byte} {align : Nat} (hs : s₀.Keeps s) :
    s₀.Completes (s.globalStore h ea d align) := by
  unfold State.globalStore
  split
  · exact hs.except.next
  · split
    · exact hs.except.next
    · split
      · exact hs.remoteAccess.next
      · split
        · exact hs.except.next
        · next e => exact (hs.writeAt _ e).retire.next

theorem execGld_completes {h : HandRef} (hs : s₀.Keeps s) : s₀.Completes (execGld h s) := by
  unfold execGld
  split
  exacts [hs.globalLoad, hs.next]

theorem execGst_completes {h : HandRef} (hs : s₀.Keeps s) : s₀.Completes (execGst h s) := by
  unfold execGst
  split
  exacts [hs.globalStore, hs.next]

theorem execGvld_completes {h : HandRef} (hs : s₀.Keeps s) : s₀.Completes (execGvld h s) := by
  unfold execGvld
  split
  exacts [hs.globalLoad, hs.next]

theorem execGvst_completes {h : HandRef} (hs : s₀.Keeps s) : s₀.Completes (execGvst h s) := by
  unfold execGvst
  split
  exacts [hs.globalStore, hs.next]

theorem execGvstn_completes {h : HandRef} (hs : s₀.Keeps s) : s₀.Completes (execGvstn h s) := by
  dsimp only [execGvstn]
  split
  · split
    exacts [hs.globalStore, hs.except.next]
  · exact hs.next

theorem execHfence_completes {h : HandRef} (hs : s₀.Keeps s) : s₀.Completes (execHfence h s) := by
  unfold execHfence
  split
  exacts [hs.retire.next, hs.next]

theorem State.Keeps.closeHand {h : HandRef} (hs : s₀.Keeps s) : s₀.Keeps (s.closeHand h) := hs.modDie

theorem State.Keeps.remoteFails {h : HandRef} {c : Cause} (hs : s₀.Keeps s) : s₀.Keeps (s.remoteFails h c) := by
  unfold State.remoteFails
  split
  exacts [hs.closeHand.modHand.except, hs]

theorem State.Keeps.remoteDone {h : HandRef} (hs : s₀.Keeps s) : s₀.Keeps (s.remoteDone h) := by
  dsimp only [State.remoteDone]
  split
  exacts [hs.retire, hs]

/-! ## Machine/Ferry.lean -/

theorem State.Keeps.sendIdle {l : Nat} {nak : Bool} (hs : s₀.Keeps s) : s₀.Keeps (s.sendIdle l nak) := hs.setLanding.emit

theorem State.Keeps.sendNak {l : Nat} (hs : s₀.Keeps s) : s₀.Keeps (s.sendNak l) := by
  unfold State.sendNak
  split
  exacts [hs, hs.modLanding.sendIdle]

theorem State.Keeps.replayLink {l : Nat} (hs : s₀.Keeps s) : s₀.Keeps (s.replayLink l) := by
  dsimp only [State.replayLink]
  split
  exacts [hs, hs.setLanding.foldl fun _ _ hu => hu.emit]

theorem State.Keeps.answerPacket {d : Nat} {q : Packet} {op status : Nat} {payload : List Byte} {poison : Bool} (hs : s₀.Keeps s) :
    s₀.Keeps (s.answerPacket d q op status payload poison) :=
  hs.postPacket

theorem State.Keeps.answerBad {n d : Nat} (hs : s₀.Keeps s) : s₀.Keeps (State.answerBad n s d) := by
  induction n generalizing s with
  | zero => exact hs
  | succ n ih =>
    unfold State.answerBad
    split
    · split
      exacts [ih hs.modDie.owe.answerPacket, hs]
    · exact hs

theorem State.Keeps.answerBads (hs : s₀.Keeps s) : s₀.Keeps s.answerBads := hs.foldl fun _ _ ht => ht.answerBad

theorem State.Keeps.linkControl {l w : Nat} (hs : s₀.Keeps s) : s₀.Keeps (s.linkControl l w) :=
  (hs.modLanding.replayLink.ite hs.modLanding).pump.answerBads

theorem execNakReplay_completes {l : Nat} {ack : BitVec 16} (hs : s₀.Keeps s) : s₀.Completes (execNakReplay l ack s) := by
  unfold execNakReplay
  split
  exacts [hs.modLanding.replayLink.pump.next, hs.next]

theorem execAckTimeout_completes {l : Nat} (hs : s₀.Keeps s) : s₀.Completes (execAckTimeout l s) := hs.replayLink.next

theorem execAckSend_completes {l : Nat} (hs : s₀.Keeps s) : s₀.Completes (execAckSend l s) := by
  dsimp only [execAckSend]
  split
  exacts [hs.sendIdle.next, hs.next]

theorem State.Keeps.deliver {d : Nat} {p : Packet} (hs : s₀.Keeps s) : s₀.Keeps (s.deliver d p) := by
  dsimp only [State.deliver]
  split
  exacts [hs.modDie.answerBad, hs.owe]

theorem State.Keeps.acceptPacket {d : Nat} {p : Packet} (hs : s₀.Keeps s) : s₀.Keeps (s.acceptPacket d p) :=
  hs.modDie.foldl fun _ _ ht => ht.deliver

theorem State.Keeps.keepFlit {l d : Nat} {p : Packet} {fidx : Nat} {part : List Byte} {held due : Bool} (hs : s₀.Keeps s) :
    s₀.Keeps (s.keepFlit l d p fidx part held due) := by
  dsimp only [State.keepFlit]
  refine .ite ?_ ?_
  exacts [hs.owe.modDie.acceptPacket, hs.owe.modDie]

theorem State.Keeps.arriveFlit {l d : Nat} {p : Packet} {fidx : Nat} {part : List Byte} {held : Bool} (hs : s₀.Keeps s) :
    s₀.Keeps (s.arriveFlit l d p fidx part held) := by
  dsimp only [State.arriveFlit]
  split
  · exact hs.owe
  · split
    exacts [hs.keepFlit, hs.modLanding]

theorem State.Keeps.unpark {n d : Nat} (hs : s₀.Keeps s) : s₀.Keeps (State.unpark n s d) := by
  induction n generalizing s with
  | zero => exact hs
  | succ n ih =>
    unfold State.unpark
    extract_lets l t u
    have hu : s₀.Keeps u := hs.update.foldl fun _ _ hv => hv.arriveFlit
    exact (ih hu).ite hu

theorem State.Keeps.cutRequest {l : Nat} {p : Packet} (hs : s₀.Keeps s) : s₀.Keeps (s.cutRequest l p) := hs.update.answerPacket

theorem State.Keeps.forwardFlit {l : Nat} {p : Packet} {fidx : Nat} {part : List Byte} (hs : s₀.Keeps s) :
    s₀.Keeps (s.forwardFlit l p fidx part) := by
  dsimp only [State.forwardFlit]
  split
  · exact hs.owe.update
  · split
    · exact hs.modLanding.pump
    · split
      exacts [hs.owe.cutRequest, hs.update]

theorem State.Keeps.acceptFlit {l : Nat} {b : List Byte} (hs : s₀.Keeps s) : s₀.Keeps (s.acceptFlit l b) := by
  unfold State.acceptFlit
  extract_lets _ _ _ _ _ t u v
  have ht : s₀.Keeps t := hs.modLanding.linkControl
  have hu : s₀.Keeps u := ht.arriveFlit
  have hv : s₀.Keeps v := hu.unpark.ite ht.forwardFlit
  split
  exacts [hv.sendIdle, hv]

theorem execFlitReceive_completes {l : Nat} {f : FlitIn} (hs : s₀.Keeps s) : s₀.Completes (execFlitReceive l f s) := by
  dsimp only [execFlitReceive]
  split
  · exact hs.next
  · split
    · exact hs.setLanding.sendNak.next
    · split
      · exact hs.setLanding.linkControl.next
      · split
        · exact hs.setLanding.next
        · split
          · exact hs.setLanding.modLanding.sendNak.next
          · split
            exacts [hs.setLanding.sendNak.next, hs.setLanding.acceptFlit.next]

theorem State.Keeps.takePacket {d : Nat} {cls : BitVec 2} {op : BitVec 4} (hs : s₀.Keeps s) : s₀.KeepsSnd (s.takePacket d cls op) := by
  unfold State.takePacket
  split
  · split
    exacts [hs.modDie.owe.someWith, .none]
  · exact .none

theorem execWrite_completes {d : Nat} (hs : s₀.Keeps s) : s₀.Completes (execWrite d s) := by
  unfold execWrite
  split
  · exact hs.next
  · next e =>
      have ht := hs.takePacket _ e
      split
      · next e => exact ((ht.writeAt.ite .none) _ e).answerPacket.next
      · exact ht.answerPacket.next

theorem execRead_completes {d : Nat} (hs : s₀.Keeps s) : s₀.Completes (execRead d s) := by
  unfold execRead
  split
  · exact hs.next
  · next e =>
      have ht := hs.takePacket _ e
      split
      · next e => exact ((ht.readAt.ite .none) _ e).answerPacket.next
      · exact ht.answerPacket.next

theorem execFerryReduce_completes {d : Nat} (hs : s₀.Keeps s) : s₀.Completes (execFerryReduce d s) := by
  unfold execFerryReduce
  split
  · exact hs.next
  · next e =>
      have ht := hs.takePacket _ e
      split
      · exact ht.answerPacket.next
      · split
        · exact ht.answerPacket.next
        · split
          · next e => exact ((ht.reduceAt.ite .none) _ e).answerPacket.next
          · exact ht.answerPacket.next

theorem State.Keeps.publishMsg {r : RingRef} {m : MsgPart} {tag : BitVec 14} (hs : s₀.Keeps s) : s₀.KeepsSome (s.publishMsg r m tag) := by
  dsimp only [State.publishMsg]
  split
  · exact .none
  · next e => exact (hs.wake.takeSlot _ e).setRing.padWrite.publishSlot.some

theorem execMsg_completes {d : Nat} (hs : s₀.Keeps s) : s₀.Completes (execMsg d s) := by
  dsimp only [execMsg]
  split
  · exact hs.next
  · next e =>
      have ht := hs.takePacket _ e
      split
      · exact ht.answerPacket.next
      · split
        · exact ht.modDie.modDie.answerPacket.next
        · split
          · next e => exact (ht.modDie.publishMsg _ e).answerPacket.next
          · exact ht.modDie.answerPacket.next

theorem State.Keeps.sendMsgs {r : RingRef} {b : RingBinding} {j : Job} {idx : Nat} {l : List (List Byte × Bool)} (hs : s₀.Keeps s) :
    s₀.KeepsSome (s.sendMsgs r b j idx l) := by
  induction l generalizing s with
  | nil => exact hs.some
  | cons d l ih => exact hs.modDie.sendPacket.bind fun v hv => ih (hv.modRing.ite hv)

theorem execBoundSlotSend_completes {r : RingRef} (hs : s₀.Keeps s) : s₀.Completes (execBoundSlotSend r s) := by
  dsimp only [execBoundSlotSend]
  split
  · split
    · exact hs.next
    · split
      · exact hs.next
      · next e =>
          have hu := hs.wake.takeSlot _ e
          exact (hu.modRing.sendMsgs.getD hs).next
  · exact hs.next

theorem State.Keeps.markUnreached {at_ dst : BitVec 15} {way : Option (BitVec 15 × BitVec 15)} (hs : s₀.Keeps s) :
    s₀.Keeps (s.markUnreached at_ dst way) :=
  hs.update

theorem State.Keeps.porterFails {p : PorterRef} {row : Option Nat} (hs : s₀.Keeps s) : s₀.Keeps (s.porterFails p row) := by
  dsimp only [State.porterFails]
  split
  exacts [hs.modDie.porterStop, hs.modDie.porterStop, hs.modDie]

theorem State.Keeps.engineFails {p : ParishRef} {e : ParishEngine} (hs : s₀.Keeps s) : s₀.Keeps (s.engineFails p e) := by
  dsimp only [State.engineFails]
  split
  · split
    exacts [hs.modDie.scanCame.engineEnd, hs.modDie.engineEnd]
  · split
    exacts [hs.modDie.setEngine, hs.modDie]
  · exact hs.modDie

theorem State.Keeps.requestFails {w : Requester} (hs : s₀.Keeps s) : s₀.Keeps (s.requestFails w) := by
  unfold State.requestFails
  split
  exacts [hs.remoteFails, hs.remoteFails, hs.porterFails, hs.porterFails, hs.engineFails, hs.engineFails, hs.modRing]

theorem State.Keeps.closeRequest {d : Nat} {p : Packet} (hs : s₀.Keeps s) : s₀.KeepsSnd (s.closeRequest d p) :=
  .map fun r => hs.modDie (f := fun x => { x with reqs := x.reqs.erase r })

theorem State.Keeps.errorAnswer {p : Packet} {r : OpenRequest} (hs : s₀.Keeps s) : s₀.Keeps (s.errorAnswer p r) := by
  dsimp only [State.errorAnswer]
  split
  exacts [hs.requestFails.markUnreached, hs.requestFails]

theorem execWack_completes {d : Nat} (hs : s₀.Keeps s) : s₀.Completes (execWack d s) := by
  unfold execWack
  split
  · exact hs.next
  · next e =>
      have ht := hs.takePacket _ e
      split
      · exact ht.next
      · next e =>
          have hu := ht.closeRequest _ e
          split
          · exact hu.errorAnswer.next
          · split
            exacts [hu.remoteDone.next, hu.modRing.releaseSlot.next, hu.next]

theorem execRdata_completes {d : Nat} (hs : s₀.Keeps s) : s₀.Completes (execRdata d s) := by
  dsimp only [execRdata]
  split
  · exact hs.next
  · next e =>
      have ht := hs.takePacket _ e
      split
      · exact ht.next
      · next e =>
          have hu := ht.closeRequest _ e
          split
          · exact hu.errorAnswer.next
          · split
            · split
              exacts [hu.remoteFails.next, hu.modHand.remoteDone.next]
            · exact hu.modPorter.next
            · exact hu.setEngine.next
            · exact hu.next

theorem State.Keeps.bellArrives {p : Packet} {v : Nat} (hs : s₀.Keeps s) : s₀.Keeps (State.bellArrives p s v) := by
  dsimp only [State.bellArrives]
  split
  · split
    exacts [hs.castBell, hs]
  · split
    exacts [hs.foreignBell, hs]

theorem execBell_completes {d : Nat} (hs : s₀.Keeps s) : s₀.Completes (execBell d s) := by
  unfold execBell
  split
  · exact hs.next
  · next e =>
      have ht := hs.takePacket _ e
      exact (ht.foldl fun _ _ hu => hu.bellArrives).next

theorem State.Keeps.forgetPeer {c : BitVec 15} (hs : s₀.Keeps s) : s₀.Keeps (s.forgetPeer c) := hs.update.owe

theorem execCtrl_completes {d : Nat} {reset : Option (BitVec 15)} (hs : s₀.Keeps s) : s₀.Completes (execCtrl d reset s) := by
  unfold execCtrl
  split
  · exact hs.next
  · next e =>
      have ht := hs.takePacket _ e
      split
      exacts [ht.next, ht.forgetPeer.next]

theorem execMcred_completes {d : Nat} (hs : s₀.Keeps s) : s₀.Completes (execMcred d s) := by
  unfold execMcred
  split
  · exact hs.next
  · next e =>
      have ht := hs.takePacket _ e
      exact (ht.foldl fun _ _ hu => hu.modHamlet).next

theorem State.Keeps.repin {f : SentFlit} (hs : s₀.Keeps s) : s₀.Keeps (s.repin f) := by
  dsimp only [State.repin]
  split
  exacts [hs.modLanding.pump, hs.update]

theorem State.Keeps.repinAll (hs : s₀.Keeps s) : s₀.Keeps s.repinAll :=
  (hs.update.foldl fun _ _ hs' => hs'.repin).foldl fun _ _ hu => hu.modLanding.foldl fun _ _ hs' => hs'.repin

theorem State.Keeps.linkUp {l : Nat} (hs : s₀.Keeps s) : s₀.Keeps (s.linkUp l) := hs.modLanding.update.pump.repinAll

theorem State.Keeps.linkDown {l : Nat} {st : LandingState} (hs : s₀.Keeps s) : s₀.Keeps (s.linkDown l st) :=
  (hs.setLanding.foldl fun _ _ hs' => hs'.repin).repinAll

theorem State.Keeps.linkFailed {l : Nat} (hs : s₀.Keeps s) : s₀.Keeps (s.linkFailed l) := hs.linkDown.modLanding.logEvent.notify

theorem execLandingDetect_completes {l : Nat} (hs : s₀.Keeps s) : s₀.Completes (execLandingDetect l s) := by
  unfold execLandingDetect
  split
  exacts [hs.modLanding.next, hs.next]

theorem execTrain_completes {l : Nat} {o : TrainOutcome} (hs : s₀.Keeps s) : s₀.Completes (execTrain l o s) := by
  dsimp only [execTrain]
  split
  · exact hs.next
  · split
    · split
      exacts [hs.linkFailed.next, hs.setLanding.next]
    · split
      · exact hs.next
      · split
        exacts [hs.emit.setLanding.linkUp.next, hs.emit.setLanding.logEvent.linkFailed.next]

theorem State.Keeps.farReset {l : Nat} (hs : s₀.Keeps s) : s₀.Keeps (s.farReset l) := hs.modLanding.forgetPeer

theorem State.Keeps.retrainFrom {l : Nat} {why : RetrainTrigger} (hs : s₀.Keeps s) : s₀.Keeps (s.retrainFrom l why) := by
  unfold State.retrainFrom
  split
  exacts [hs.farReset, hs]

theorem execRetrain_completes {l : Nat} {t : RetrainTrigger} {ok : Bool} (hs : s₀.Keeps s) : s₀.Completes (execRetrain l t ok s) := by
  dsimp only [execRetrain]
  split
  · split
    exacts [hs.retrainFrom.setLanding.linkDown.logEvent.next, hs.next]
  · split
    · exact hs.retrainFrom.setLanding.linkUp.next
    · split
      exacts [hs.retrainFrom.linkFailed.next, hs.retrainFrom.setLanding.next]
  · exact hs.next

theorem State.Keeps.modEdge {e : EdgeRef} {f : Edge → Edge} (hs : s₀.Keeps s) : s₀.Keeps (s.modEdge e f) := hs.modDie

theorem execEdgeReplay_completes {f : EdgeFlit} (hs : s₀.Keeps s) : s₀.Completes (execEdgeReplay f s) := by
  unfold execEdgeReplay
  split
  exacts [hs.modEdge.next, hs.next]

theorem State.Keeps.spareLane {e : EdgeRef} {l : Nat} (hs : s₀.Keeps s) : s₀.Keeps (State.spareLane e s l) := by
  dsimp only [State.spareLane]
  split
  · exact hs.modEdge.logEvent
  · split
    exacts [hs.modEdge.logEvent, hs.modEdge]

theorem State.Keeps.edgeTrained {e : EdgeRef} (hs : s₀.Keeps s) : s₀.Keeps (s.edgeTrained e) :=
  (hs.foldl fun _ _ hs' => hs'.spareLane).modEdge.logEvent

theorem execEdgeRetrain_completes {die dir : Nat} {ok : Bool} (hs : s₀.Keeps s) : s₀.Completes (execEdgeRetrain die dir ok s) := by
  dsimp only [execEdgeRetrain]
  split
  · exact hs.next
  · split
    · exact hs.edgeTrained.next
    · split
      exacts [hs.logEvent.modEdge.logEvent.next, hs.logEvent.modEdge.next]

/-! ## Machine/JobRows.lean -/

theorem State.Keeps.retireSlot {m : HamletRef} (hs : s₀.Keeps s) : s₀.Keeps (s.retireSlot m) := hs.modHamlet.logEvent

theorem State.Keeps.testSlot {repair : List MillRef} {m : HamletRef} (hs : s₀.Keeps s) : s₀.Keeps (s.testSlot repair m) := by
  dsimp only [State.testSlot]
  split
  · exact hs
  · split
    · exact hs
    · split
      exacts [hs.modHamlet.logEvent, hs.retireSlot]

theorem State.Keeps.testFor {repair : List MillRef} {c : Nat × Nat} (hs : s₀.Keeps s) : s₀.Keeps (State.testFor repair s c) := by
  dsimp only [State.testFor]
  split
  exacts [hs.testSlot.testSlot, hs.testSlot]

theorem State.Keeps.retireFaulty (hs : s₀.Keeps s) : s₀.Keeps s.retireFaulty := hs.foldl fun _ _ ht => ht.retireSlot.ite ht

theorem State.Keeps.retireBad {hh hint : Nat} {l : List PlaceSpec} (hs : s₀.Keeps s) : s₀.Keeps (s.retireBad hh hint l) :=
  hs.foldl fun _ _ ht => ht.foldl fun _ _ hu => hu.retireGranule

theorem State.Keeps.assignEngine {hh : Nat} {im : JobImage} {c : ParishRef × ParishEngine} (hs : s₀.Keeps s) :
    s₀.Keeps (State.assignEngine hh im s c) :=
  hs.writeParishReg

theorem State.Keeps.takeGranule {n : Nat} {c : ParishRef × Nat} (hs : s₀.Keeps s) : s₀.Keeps (State.takeGranule n s c) :=
  hs.fillRegion.modParish

theorem State.Keeps.takeSlotFor {p : Placed} (hs : s₀.Keeps s) : s₀.Keeps (s.takeSlotFor p) := hs.modHamlet

theorem State.Keeps.takeJob {n hh : Nat} {im : JobImage} {ps : List Placed} {gs : List (ParishRef × Nat)} (hs : s₀.Keeps s) :
    s₀.Keeps (s.takeJob n hh im ps gs) :=
  ((hs.update.foldl fun _ _ hs' => hs'.takeSlotFor).foldl fun _ _ hs' => hs'.takeGranule).foldl fun _ _ hs' => hs'.assignEngine

theorem State.Keeps.placeJob {hh : Nat} {im : JobImage} {hint : Nat} {repair : List MillRef} (hs : s₀.Keeps s) :
    s₀.KeepsReply (s.placeJob hh im hint repair) := by
  dsimp only [State.placeJob]
  split
  · exact hs.refuse
  · split
    · exact hs.retireFaulty.retireBad.refuse
    · split
      · exact (hs.retireFaulty.retireBad.foldl fun _ _ hs' => hs'.testFor).refuse
      · exact (hs.retireFaulty.retireBad.foldl fun _ _ hs' => hs'.testFor).refuse
      · exact (hs.retireFaulty.retireBad.foldl fun _ _ hs' => hs'.testFor).takeJob.done

theorem execJobLoad_completes {k hint : Nat} {repair : List MillRef} (hs : s₀.Keeps s) : s₀.Completes (execJobLoad k hint repair s) :=
  hs.command fun _ => hs.forHousehold fun _ => by
    split
    · exact hs.refuse
    · split
      · exact hs.refuse
      · split
        exacts [hs.refuse, hs.placeJob]

theorem State.Keeps.startHamlet {j : Job} {p : Placed} (hs : s₀.Keeps s) : s₀.Keeps (s.startHamlet j p) := by
  unfold State.startHamlet
  extract_lets m im t u
  have ht : s₀.Keeps t := hs.wake.modHamlet
  have hu : s₀.Keeps u := by
    dsimp only [u]
    split
    exacts [ht.foldl fun _ _ hv => hv.writeRingCfg, ht]
  exact hu.foldl fun _ _ hv => hv.padWrite

theorem State.Keeps.bindRings {j : Job} (hs : s₀.Keeps s) : s₀.Keeps (s.bindRings j) :=
  hs.foldl fun _ _ ht => by
    split
    exacts [ht.modRing, ht]

theorem State.Keeps.startParish {n : Nat} {j : Job} {p : ParishRef} (hs : s₀.Keeps s) : s₀.Keeps (s.startParish n j p) := by
  dsimp only [State.startParish]
  split
  exacts [hs.modParish.modParish, hs.modParish]

theorem State.Keeps.startHands {j : Job} {seed arg : Word64} {p : Placed} (hs : s₀.Keeps s) : s₀.Keeps (s.startHands j seed arg p) :=
  hs.foldl fun _ _ ht => ht.modHand

theorem State.Keeps.startStrict {j : Job} (hs : s₀.Keeps s) : s₀.Keeps (s.startStrict j) :=
  (hs.foldl fun _ _ ht => ht.modParish).update.foldl fun _ _ ht => ht.modHamlet

theorem State.Keeps.startJob {n : Nat} {j : Job} {mode : BitVec 2} {seed arg : Word64} {limit : Nat} (hs : s₀.Keeps s) :
    s₀.Keeps (s.startJob n j mode seed arg limit) := by
  unfold State.startJob
  extract_lets a b c d e
  have ha : s₀.Keeps a := hs.foldl fun _ _ ht => ht.startHamlet
  have hb : s₀.Keeps b := ha.bindRings
  have hc : s₀.Keeps c := hb.foldl fun _ _ ht => ht.startParish
  have hd : s₀.Keeps d := hc.startStrict.ite hc
  have he : s₀.Keeps e := hd.foldl fun _ _ ht => ht.startHands
  exact he.modJob.stir

theorem execJobStart_completes {k : Nat} (hs : s₀.Keeps s) : s₀.Completes (execJobStart k s) :=
  hs.command fun _ => hs.forJob fun _ _ => by
    dsimp only
    split
    · exact hs.refuse
    · split
      · exact hs.refuse
      · next e => exact (hs.writeMem _ e).startJob.done

theorem State.Keeps.endJob {n : Nat} {why : JobEnd} (hs : s₀.Keeps s) : s₀.Keeps (s.endJob n why) := hs.killEntries.stopJob.settleJob

theorem execJobKill_completes {k : Nat} (hs : s₀.Keeps s) : s₀.Completes (execJobKill k s) :=
  hs.command fun _ => hs.forJob fun _ _ => hs.endJob.done.ite hs.refuse

theorem execJobStatus_completes {k : Nat} (hs : s₀.Keeps s) : s₀.Completes (execJobStatus k s) :=
  hs.command fun _ => hs.forJob fun _ _ => hs.answer

theorem execJobUnload_completes {k : Nat} (hs : s₀.Keeps s) : s₀.Completes (execJobUnload k s) :=
  hs.command fun _ => hs.forJob fun _ _ => hs.refuse.ite (hs.killEntries.stopJob.scrubJob.ite hs).update.done

theorem execJobEnd_completes {n : Nat} (hs : s₀.Keeps s) : s₀.Completes (execJobEnd n s) := by
  unfold execJobEnd
  split
  · split
    exacts [hs.endJob.next, hs.next]
  · exact hs.next

theorem execJobTimeLimit_completes {n : Nat} (hs : s₀.Keeps s) : s₀.Completes (execJobTimeLimit n s) := by
  unfold execJobTimeLimit
  split
  · split
    exacts [hs.endJob.next, hs.next]
  · exact hs.next

theorem execJobFault_completes {n : Nat} {c : JobFaultCause} (hs : s₀.Keeps s) : s₀.Completes (execJobFault n c s) := by
  unfold execJobFault
  split
  · exact hs.next
  · split
    · exact hs.next
    · extract_lets t
      have ht : s₀.Keeps t := by
        dsimp only [t]
        split
        · split
          exacts [hs.modHamlet, hs]
        · exact hs.modHamlet
        · exact hs
      exact ht.faultJob.settleJob.next

theorem execDigestFlush_completes {k : Nat} (hs : s₀.Keeps s) : s₀.Completes (execDigestFlush k s) :=
  hs.command fun _ => hs.forJob fun _ _ => hs.flushJob.done.ite hs.refuse

/-! ## Machine/Settings.lean -/

theorem State.Keeps.answerNow {k : Nat} {c : Command} {status : Nat} (hs : s₀.Keeps s) : s₀.Keeps (s.answerNow k c status) := by
  dsimp only [State.answerNow]
  split
  exacts [hs.modPostbox, hs.modPostbox.writeEntry]

theorem State.Keeps.assignLink {l : Nat} {d : LinkDesc} (hs : s₀.Keeps s) : s₀.Keeps (s.assignLink l d) := by
  dsimp only [State.assignLink]
  split
  exacts [hs, (hs.linkDown.ite hs).modLanding]

theorem State.Keeps.installBoard {b : BoardDesc} (hs : s₀.Keeps s) : s₀.Keeps (s.installBoard b) :=
  hs.update.foldl fun _ _ hu => hu.assignLink

theorem execTopologySet_completes {k : Nat} {b : BoardDesc} (hs : s₀.Keeps s) : s₀.Completes (execTopologySet k b s) :=
  hs.command fun _ => by
    split
    · exact hs.refuse
    · split
      · exact hs.refuse
      · split
        exacts [hs.installBoard.done, hs.refuse]

theorem execLinkAssign_completes {k : Nat} (hs : s₀.Keeps s) : s₀.Completes (execLinkAssign k s) :=
  hs.command fun _ => hs.refuse.ite (hs.refuse.ite (hs.assignLink.modLanding.logEvent.done.ite hs.assignLink.done))

theorem execLinkStatus_completes {k : Nat} (hs : s₀.Keeps s) : s₀.Completes (execLinkStatus k s) := hs.command fun _ => hs.answer

theorem execPowerCap_completes {k : Nat} (hs : s₀.Keeps s) : s₀.Completes (execPowerCap k s) :=
  hs.command fun _ => hs.update.done.ite (hs.update.done.ite hs.refuse)

theorem execDeterminism_completes {k : Nat} (hs : s₀.Keeps s) : s₀.Completes (execDeterminism k s) :=
  hs.command fun _ => hs.update.done.ite hs.refuse

theorem execLpddrShares_completes {k : Nat} (hs : s₀.Keeps s) : s₀.Completes (execLpddrShares k s) :=
  hs.command fun _ => hs.update.done.ite hs.refuse

theorem execLotSeed_completes {k : Nat} (hs : s₀.Keeps s) : s₀.Completes (execLotSeed k s) := hs.command fun _ => hs.update.done

theorem execSettingsRead_completes {k : Nat} (hs : s₀.Keeps s) : s₀.Completes (execSettingsRead k s) := hs.command fun _ => hs.answer

theorem State.Keeps.linksOff (hs : s₀.Keeps s) : s₀.Keeps s.linksOff := hs.foldl fun _ _ ht => ht.linkDown.ite ht.modLanding

theorem State.Keeps.enterDeep (hs : s₀.Keeps s) : s₀.Keeps s.enterDeep := hs.flushCaches.linksOff.update.update

theorem execPowerState_completes {k : Nat} (hs : s₀.Keeps s) : s₀.Completes (execPowerState k s) := by
  dsimp only [execPowerState]
  split
  · split
    · split
      exacts [hs.answerNow.enterDeep.next, hs.next]
    · exact hs.command fun _ => hs.update.toRun.done.ite ((hs.update.update.ite hs.update).done.ite hs.refuse)
  · exact hs.next

theorem State.Keeps.testMemory {c : CtlRef} {n : Nat} (hs : s₀.Keeps s) : s₀.Keeps (s.testMemory c n) :=
  (hs.setMem (Memory.Keeps.refl.foldl fun _ _ hm => hm.writeBytes)).update

theorem execLoopback_completes {k : Nat} {o : LoopOutcome} (hs : s₀.Keeps s) : s₀.Completes (execLoopback k o s) :=
  hs.command fun _ => hs.refuse.ite (hs.refuse.ite (hs.modLanding.done.ite (hs.edgeTrained.ite (hs.testMemory.ite hs)).logEvent.answer))

theorem execWarmReset_completes {k : Nat} (hs : s₀.Keeps s) : s₀.Completes (execWarmReset k s) := by
  dsimp only [execWarmReset]
  split
  · split
    exacts [hs.answerNow.update.next, hs.next]
  · exact hs.next

/-! ## Machine/Bar.lean -/

theorem State.Keeps.bar2Fault (hs : s₀.Keeps s) : s₀.Keeps s.bar2Fault := hs.update

theorem execBar2Read_completes {fn off n : Nat} (hs : s₀.Keeps s) : s₀.Completes (execBar2Read fn off n s) := by
  unfold execBar2Read
  split
  · exact hs.next
  · split
    · next t e =>
        have ht : s₀.Keeps t := State.KeepsIn.ofBind (fun a => hs.readAt) _ e
        exact ht.emit.next
    · exact hs.bar2Fault.emit.next

theorem execBar2Write_completes {fn off : Nat} {data : List Byte} (hs : s₀.Keeps s) : s₀.Completes (execBar2Write fn off data s) := by
  unfold execBar2Write
  split
  · exact hs.next
  · split
    · next t e =>
        have ht : s₀.Keeps t := State.KeepsIn.ofBind (fun a => hs.writeAt) _ e
        exact ht.next
    · exact hs.bar2Fault.next

theorem State.Keeps.writeMsix {fn i : Nat} {v : Word64} (hs : s₀.Keeps s) : s₀.Keeps (s.writeMsix fn i v) := by
  dsimp only [State.writeMsix]
  split
  exacts [hs.update.update.emit, hs.update]

theorem State.Keeps.writeBar0 {fn addr : Nat} {v : Word64} (hs : s₀.Keeps s) : s₀.Keeps (s.writeBar0 fn addr v) := by
  unfold State.writeBar0
  split
  · exact hs
  · split
    · split
      · exact hs.writeBox
      · split
        exacts [hs.writeBox, hs]
    · split
      exacts [hs.writeMsix, hs]

theorem State.Keeps.writeMmio {d x : Nat} {v : Word64} (hs : s₀.Keeps s) : s₀.Keeps (s.writeMmio d x v) := by
  dsimp only [State.writeMmio]
  split
  · exact hs
  · split
    · split
      exacts [hs, hs.wake.writeHamletReg]
    · split
      · exact hs.writeParishReg
      · split
        exacts [hs.modLanding, hs]

theorem execRegisterWrite_completes {who : RegAgent} {addr : Nat} {v : Word64} (hs : s₀.Keeps s) :
    s₀.Completes (execRegisterWrite who addr v s) := by
  unfold execRegisterWrite
  split
  · exact hs.next
  · split
    · exact hs.writeBar0.next
    · split
      exacts [hs.writeMmio.next, hs.next]

theorem State.Keeps.loseServing {hh : Nat} (hs : s₀.Keeps s) : s₀.Keeps (s.loseServing hh) := hs.update

theorem State.Keeps.loseHousehold {hh : Nat} (hs : s₀.Keeps s) : s₀.Keeps (s.loseHousehold hh) :=
  (hs.loseServing.foldl fun _ _ hs' => hs'.killNow).forgetHousehold.update

theorem State.Keeps.coldBox {k : Nat} (hs : s₀.Keeps s) : s₀.Keeps (s.coldBox k) := hs.update

theorem State.Keeps.loseVf {n : Nat} (hs : s₀.Keeps s) : s₀.Keeps (s.loseVf n) := (hs.ite hs.loseHousehold).coldBox

theorem execVfFlr_completes {n : Nat} (hs : s₀.Keeps s) : s₀.Completes (execVfFlr n s) := by
  unfold execVfFlr
  split
  exacts [hs.loseVf.next, hs.next]

theorem execVfEnable_completes {n : Nat} (hs : s₀.Keeps s) : s₀.Completes (execVfEnable n s) := by
  dsimp only [execVfEnable]
  split
  exacts [(hs.foldl fun _ _ ht => ht.loseVf).update.next, hs.next]

theorem execPerstNDeassert_completes (hs : s₀.Keeps s) : s₀.Completes (execPerstNDeassert s) := hs.update.next

/-! ## Machine/HandVec.lean -/

theorem execVi_completes {h : HandRef} (hs : s₀.Keeps s) : s₀.Completes (execVi h s) := by
  unfold execVi
  split
  exacts [hs.retire.next, hs.next]

theorem execVf_completes {h : HandRef} (hs : s₀.Keeps s) : s₀.Completes (execVf h s) := by
  unfold execVf
  split
  exacts [hs.retire.next, hs.next]

theorem execVx_completes {h : HandRef} (hs : s₀.Keeps s) : s₀.Completes (execVx h s) := by
  unfold execVx
  split
  exacts [hs.retire.next, hs.next]

theorem execVrsum_completes {h : HandRef} (hs : s₀.Keeps s) : s₀.Completes (execVrsum h s) := by
  unfold execVrsum
  split
  exacts [hs.retire.next, hs.next]

theorem execVc_completes {h : HandRef} (hs : s₀.Keeps s) : s₀.Completes (execVc h s) := by
  unfold execVc
  split
  exacts [hs.retire.next, hs.next]

theorem execTern_completes {h : HandRef} (hs : s₀.Keeps s) : s₀.Completes (execTern h s) := by
  unfold execTern
  split
  exacts [hs.retire.next, hs.next]

theorem execPackt_completes {h : HandRef} (hs : s₀.Keeps s) : s₀.Completes (execPackt h s) := by
  unfold execPackt
  split
  exacts [hs.retire.next, hs.next]

theorem execUnpackt_completes {h : HandRef} (hs : s₀.Keeps s) : s₀.Completes (execUnpackt h s) := by
  unfold execUnpackt
  split
  exacts [hs.retire.next, hs.next]

theorem State.Keeps.freshVec (hs : s₀.Keeps s) : s₀.Keeps s.freshVec.2 := by
  unfold State.freshVec
  exact hs.update

theorem execLot_completes {h : HandRef} (hs : s₀.Keeps s) : s₀.Completes (execLot h s) := by
  unfold execLot
  split
  · split
    exacts [hs.freshVec.retire.next, hs.retire.next]
  · exact hs.next

/-! ## Machine/Power.lean -/

theorem State.Keeps.govEvent {cls severity die event place : Nat} (hs : s₀.Keeps s) : s₀.Keeps (s.govEvent cls severity die event place) :=
  hs.logEvent

theorem execGovernorTick_completes {regs : List RegRead} {temps : List Nat} {x : RailRead} (hs : s₀.Keeps s) :
    s₀.Completes (execGovernorTick regs temps x s) := by
  unfold execGovernorTick
  extract_lets _ s _ _ _ _ _ t u v
  have hs' : s₀.Keeps s := hs.update.ite hs
  have ht : s₀.Keeps t := hs'.update
  have hu : s₀.Keeps u := ht.foldl fun _ _ hv => hv.govEvent
  have hv : s₀.Keeps v := hu.foldl fun _ _ hw => hw.govEvent
  split
  exacts [hs'.next, (hv.govEvent.ite hv).next]

theorem State.Keeps.setVolts (hs : s₀.Keeps s) : s₀.Keeps s.setVolts := by
  dsimp only [State.setVolts]
  split
  exacts [hs, hs.update]

theorem execLevelChange_completes (hs : s₀.Keeps s) : s₀.Completes (execLevelChange s) := by
  dsimp only [execLevelChange]
  split
  exacts [hs.next, hs.update.setVolts.next]

theorem execGovernorLimit_completes (hs : s₀.Keeps s) : s₀.Completes (execGovernorLimit s) := by
  dsimp only [execGovernorLimit]
  split
  · split
    exacts [(hs.update.govEvent.govEvent.ite hs.update.govEvent).next, hs.next]
  · exact hs.next

theorem execDozeEntry_completes (hs : s₀.Keeps s) : s₀.Completes (execDozeEntry s) := by
  dsimp only [execDozeEntry]
  split
  exacts [hs.update.next, hs.next]

theorem execDozeExit_completes (hs : s₀.Keeps s) : s₀.Completes (execDozeExit s) := by
  unfold execDozeExit
  split
  exacts [hs.toRun.next, hs.next]

theorem State.Keeps.restore {x : DeepSave} {good : Nat} (hs : s₀.Keeps s) : s₀.Keeps (s.restore x good) := by
  dsimp only [State.restore]
  split
  · exact hs.update.logEvent
  · split
    exacts [hs.update.update.logEvent, hs.update.update]

theorem State.Keeps.expireAll (hs : s₀.Keeps s) : s₀.Keeps s.expireAll := hs.foldl fun _ _ ht => ht.endEntry.copyEnded

theorem execDeepExit_completes {good : Nat} (hs : s₀.Keeps s) : s₀.Completes (execDeepExit good s) := by
  dsimp only [execDeepExit]
  split
  · exact hs.next
  · split
    · exact hs.readArea.update.restore.next
    · split
      exacts [hs.next, hs.update.toRun.expireAll.next]

theorem execHeartbeat_completes (hs : s₀.Keeps s) : s₀.Completes (execHeartbeat s) := by
  dsimp only [execHeartbeat]
  split
  exacts [hs.update.next, hs.next]

/-! ## Machine/Reset.lean -/

theorem State.Keeps.scrubJobs (hs : s₀.Keeps s) : s₀.Keeps s.scrubJobs :=
  (hs.foldl fun _ _ ht => ht.stopJob).foldl fun _ _ ht => ht.scrubJob

theorem State.Keeps.resetDomains (hs : s₀.Keeps s) : s₀.Keeps s.resetDomains := (hs.scrubJobs.setMem Memory.Keeps.refl.filter).setVolts

theorem State.Keeps.resetItems {st : IdentState} (hs : s₀.Keeps s) : s₀.Keeps (s.resetItems st) := hs.update

theorem State.Keeps.clearFor {st : IdentState} (hs : s₀.Keeps s) : s₀.Keeps (s.clearFor st) := hs.resetDomains.resetItems

theorem State.Keeps.logAer {aer : List Bool} (hs : s₀.Keeps s) : s₀.Keeps (s.logAer aer) := by
  unfold State.logAer
  split
  exacts [hs, hs.foldl fun _ _ ht => ht.logEvent]

theorem execPcieHotReset_completes {x : HotReset} (hs : s₀.Keeps s) : s₀.Completes (execPcieHotReset x s) := by
  unfold execPcieHotReset
  extract_lets s _ t u
  have hs' : s₀.Keeps s := hs.logAer
  have ht : s₀.Keeps t := hs'.update.ite hs'
  have hu : s₀.Keeps u := ht.clearFor
  split
  exacts [ht.next, (hu.logEvent.ite hu).next]

theorem execPfFlr_completes (hs : s₀.Keeps s) : s₀.Completes (execPfFlr s) := by
  unfold execPfFlr
  split
  exacts [hs.clearFor.next, hs.next]

theorem State.Keeps.warmFirst (hs : s₀.Keeps s) : s₀.Keeps s.warmFirst := hs.resetDomains.update

theorem State.Keeps.logRepair {die : Nat} (hs : s₀.Keeps s) : s₀.Keeps (s.logRepair die) := hs.logEvent

theorem State.Keeps.mended {a n : Nat} (hs : s₀.Keeps s) : s₀.Keeps (s.mended a n) := hs.zeroSram.update

theorem State.Keeps.testGranule {o : BankTest} {c : ParishRef × Nat} (hs : s₀.Keeps s) : s₀.Keeps (State.testGranule o s c) := by
  dsimp only [State.testGranule]
  split
  · split
    exacts [hs, hs.retireGranule]
  · split
    exacts [hs.mended.modParish.logRepair, hs]

theorem State.Keeps.bootSlot {m : HamletRef} (hs : s₀.Keeps s) : s₀.Keeps (s.bootSlot m) := hs.modHamlet.logEvent

theorem State.Keeps.testPad {o : BankTest} {m : HamletRef} (hs : s₀.Keeps s) : s₀.Keeps (State.testPad o s m) := by
  unfold State.testPad
  split
  · exact hs
  · split
    · exact hs.bootSlot
    · split
      exacts [hs.mended.logRepair, hs]

theorem State.Keeps.testBanks {o : BankTest} (hs : s₀.Keeps s) : s₀.Keeps (s.testBanks o) :=
  (hs.foldl fun _ _ hs' => hs'.testGranule).foldl fun _ _ hs' => hs'.testPad

theorem State.Keeps.loadCopies {a b : Bool} (hs : s₀.Keeps s) : s₀.Keeps (s.loadCopies a b) := by
  dsimp only [State.loadCopies]
  split
  · exact hs
  · split
    exacts [hs.logEvent, hs.logEvent.logEvent]

theorem State.Keeps.warmRest {o : WarmOutcome} (hs : s₀.Keeps s) : s₀.Keeps (s.warmRest o) := by
  unfold State.warmRest
  extract_lets t u
  have ht : s₀.Keeps t := hs.testBanks.resetItems
  have hu : s₀.Keeps u := ht.ite ht.loadCopies
  exact hu.update

theorem execWarmResetSequence_completes {o : WarmOutcome} (hs : s₀.Keeps s) : s₀.Completes (execWarmResetSequence o s) := by
  unfold execWarmResetSequence
  split
  exacts [hs.warmFirst.warmRest.next, hs.next]

theorem State.Keeps.settlePins (hs : s₀.Keeps s) : s₀.Keeps s.settlePins := hs.update

theorem execWrstN_completes {ns : Nat} (hs : s₀.Keeps s) : s₀.Completes (execWrstN ns s) := by
  dsimp only [execWrstN]
  split
  · exact hs.next
  · split
    · split
      exacts [hs.next, (hs.fresh.update.ite hs.fresh).next]
    · split
      exacts [hs.update.settlePins.next, hs.update.settlePins.warmFirst.update.next]

theorem execWrstNDeassert_completes {o : WarmOutcome} (hs : s₀.Keeps s) : s₀.Completes (execWrstNDeassert o s) := by
  dsimp only [execWrstNDeassert]
  split
  exacts [hs.update.settlePins.warmRest.next, hs.update.settlePins.next]

theorem State.Keeps.lost (hs : s₀.Keeps s) : s₀.Keeps s.lost := hs.congr .nil .refl rfl rfl

theorem execPowerLoss_completes (hs : s₀.Keeps s) : s₀.Completes (execPowerLoss s) := hs.lost.update.next

theorem execThermtrip_completes {d : Nat} (hs : s₀.Keeps s) : s₀.Completes (execThermtrip d s) := by
  dsimp only [execThermtrip]
  split
  exacts [hs.lost.update.modDie.next, hs.next]

theorem execPmbAlert_completes {rail : Nat} (hs : s₀.Keeps s) : s₀.Completes (execPmbAlert rail s) := by
  dsimp only [execPmbAlert]
  split
  exacts [hs.update.logEvent.next, hs.next]

theorem State.Keeps.trainSite {o : BootOutcome} {i : Nat} (hs : s₀.Keeps s) : s₀.Keeps (State.trainSite o s i) := by
  dsimp only [State.trainSite]
  split
  exacts [hs.modCtl.modDie.logEvent, hs.modCtl]

theorem State.Keeps.boot {o : BootOutcome} (hs : s₀.Keeps s) : s₀.Keeps (s.boot o) := by
  unfold State.boot
  extract_lets a b c ok _ e
  have ha : s₀.Keeps a := hs.foldl fun _ _ ht => ht.trainSite
  have hb : s₀.Keeps b := ha.foldl fun _ _ ht => ht.bootSlot
  have hc : s₀.Keeps c := (hb.foldl fun _ _ ht => ht.logRepair).testBanks
  have he : s₀.Keeps e := hc.update
  split
  exacts [he.installBoard.update.setVolts.ite he, he]

theorem execColdBoot_completes {o : BootOutcome} (hs : s₀.Keeps s) : s₀.Completes (execColdBoot o s) := by
  dsimp only [execColdBoot]
  split
  · exact hs.next
  · split
    exacts [hs.lost.update.loadCopies.boot.next, hs.lost.update.loadCopies.update.next]

/-! ## Machine/Jtag.lean -/

theorem State.Keeps.tapLoad {d : Nat} {ir : Byte} {data : TapData} {pins : Bool} (hs : s₀.Keeps s) :
    s₀.Keeps (s.tapLoad d ir data pins) := by
  dsimp only [State.tapLoad]
  split
  exacts [hs.modDie, hs]

theorem State.Keeps.tapPins {d : Nat} {ir : Byte} {data : TapData} (hs : s₀.Keeps s) : s₀.Keeps (s.tapPins d ir data) := by
  unfold State.tapPins
  split <;> exact hs.tapLoad

theorem execIdcode_completes {d : Nat} (hs : s₀.Keeps s) : s₀.Completes (execIdcode d s) := hs.tapLoad.next

theorem execSamplePreload_completes {d : Nat} (hs : s₀.Keeps s) : s₀.Completes (execSamplePreload d s) := hs.tapLoad.next

theorem execExtest_completes {d : Nat} (hs : s₀.Keeps s) : s₀.Completes (execExtest d s) := hs.tapPins.next

theorem execExtestPulse_completes {d : Nat} (hs : s₀.Keeps s) : s₀.Completes (execExtestPulse d s) := hs.tapPins.next

theorem execExtestTrain_completes {d : Nat} (hs : s₀.Keeps s) : s₀.Completes (execExtestTrain d s) := hs.tapPins.next

theorem execClamp_completes {d : Nat} (hs : s₀.Keeps s) : s₀.Completes (execClamp d s) := hs.tapPins.next

theorem execHighz_completes {d : Nat} (hs : s₀.Keeps s) : s₀.Completes (execHighz d s) := hs.tapPins.next

theorem execBypass_completes {d : Nat} {code : Byte} (hs : s₀.Keeps s) : s₀.Completes (execBypass d code s) := by
  unfold execBypass
  split
  exacts [hs.next, hs.tapLoad.next]

theorem State.Keeps.network {d : Nat} {out : List Byte} (hs : s₀.Keeps s) : s₀.Keeps (s.network d out) := hs.tapLoad

theorem State.Keeps.measured {d n : Nat} (hs : s₀.Keeps s) : s₀.Keeps (s.measured d n) := hs.freshBytes.network

theorem State.Keeps.blowLock (hs : s₀.Keeps s) : s₀.Keeps s.blowLock := by
  unfold State.blowLock
  split
  exacts [hs.update.logEvent, hs]

theorem State.Keeps.debugRead {d a : Nat} (hs : s₀.Keeps s) : s₀.Keeps (s.debugRead d a) := by
  unfold State.debugRead
  split
  · exact hs.network
  · split
    exacts [hs.network, hs.measured]

theorem State.Keeps.debugWrite {a : Nat} {b : Byte} (hs : s₀.Keeps s) : s₀.Keeps (s.debugWrite a b) := by
  dsimp only [State.debugWrite]
  split
  · exact hs.setMem Memory.Keeps.refl.write
  · split
    exacts [hs.writeMmio, hs]

theorem State.Keeps.unitPoke {p : DebugPlace} {d : List Byte} (hs : s₀.Keeps s) : s₀.Keeps (s.unitPoke p d) := by
  dsimp only [State.unitPoke]
  split
  exacts [hs.modMill, hs.modMill, hs.modMill, hs.modMill, hs.modMill, hs.modMill, hs.modMill, hs.modHand, hs.modHand, hs.modHand,
    hs.modHand, hs.modHand, hs.modHand, hs.update]

theorem State.Keeps.instrument {d : Nat} {op : IjtagOp} (hs : s₀.Keeps s) : s₀.Keeps (s.instrument d op) := by
  dsimp only [State.instrument]
  split
  · exact hs.measured
  · exact hs.network
  · exact hs.network
  · exact hs.measured
  · split
    exacts [hs.debugRead, hs.network]
  · exact hs.network
  · exact hs.network
  · exact hs.network
  · split
    exacts [hs.measured, hs.network]
  · split
    exacts [hs.measured, hs.network]
  · split
    exacts [hs.measured, hs.network]
  · split
    exacts [hs.measured, hs.network]
  · exact hs.network
  · exact hs.network
  · exact hs.network
  · exact hs.network
  · split
    exacts [hs.debugWrite.network, hs.network]
  · exact hs.network
  · split
    exacts [hs.unitPoke.network, hs.network]
  · exact hs.blowLock.network

theorem execIjtag_completes {d : Nat} {op : IjtagOp} (hs : s₀.Keeps s) : s₀.Completes (execIjtag d op s) := by
  unfold execIjtag
  split
  exacts [hs.instrument.next, hs.next]

theorem execLockFuse_completes {d : Nat} (hs : s₀.Keeps s) : s₀.Completes (execLockFuse d s) := by
  unfold execLockFuse
  split
  exacts [hs.blowLock.next, hs.next]

theorem State.Keeps.freezeJob {n : Nat} {j : Job} (hs : s₀.Keeps s) : s₀.Keeps (s.freezeJob n j) :=
  ((hs.flushJob.foldl fun _ _ ht => ht.stopParish).foldl fun _ _ ht => ht.modHamlet).dropTraffic.modJob

theorem State.Keeps.enterTest (hs : s₀.Keeps s) : s₀.Keeps s.enterTest := by
  unfold State.enterTest
  extract_lets _ _ a b _ c
  have ha : s₀.Keeps a := hs.foldl fun _ _ ht => ht.killNow.ite ht.freezeJob
  have hb : s₀.Keeps b := ha.flushCaches
  have hc : s₀.Keeps c := hb.update
  exact hc.settlePins.logEvent

theorem execUnlock_completes {d : Nat} {op : UnlockOp} (hs : s₀.Keeps s) : s₀.Completes (execUnlock d op s) := by
  dsimp only [execUnlock]
  split
  · exact hs.next
  · split
    · exact hs.tapLoad.next
    · split
      · exact hs.modDie.tapLoad.next
      · split
        exacts [hs.modDie.tapLoad.enterTest.next, hs.modDie.tapLoad.next]

/-! ## Machine/MillFinish.lean -/

theorem State.Keeps.sendSlot {r : RingRef} {i : Nat} {payload : List Byte} {fmt : BitVec 4} {bias : Byte} {poison : Bool}
    {layer tile : Word32} (hs : s₀.Keeps s) : s₀.Keeps (s.sendSlot r i payload fmt bias poison layer tile) :=
  hs.padWrite.publishSlot

theorem State.Keeps.sendFree {r : RingRef} {i : Nat} {layer tile : Word32} (hs : s₀.Keeps s) : s₀.Keeps (s.sendFree r i layer tile).1 := by
  unfold State.sendFree
  exact hs.freshBytes.fresh.padWrite.publishSlot

theorem State.Keeps.output {u : MillRef} {ref : Nat} (hs : s₀.Keeps s) : s₀.Keeps (s.output u ref).2 := by
  unfold State.output
  split
  · exact hs.foreignRing
  · exact hs
  · split
    · next e =>
        have ht := e ▸ hs.engineSlot
        exact ht
    · next e =>
        have ht := e ▸ hs.engineSlot
        exact ht

theorem State.Keeps.finishLeaves {u : MillRef} (hs : s₀.Keeps s) : s₀.Keeps (s.finishLeaves u) := hs.modMill

theorem State.Keeps.finishMismatch {u : MillRef} {d : Vec} {n row : Nat} (hs : s₀.Keeps s) : s₀.Keeps (s.finishMismatch u d n row) :=
  hs.modMill.millError.residueLog

theorem State.Keeps.scaleErrors {u : MillRef} {d : Vec} {tag : AccTag} {k : FinScales} {slotPoison refused : Bool} (hs : s₀.Keeps s) :
    s₀.Keeps (s.scaleErrors u d tag k slotPoison refused) := by
  unfold State.scaleErrors
  extract_lets a b
  have ha : s₀.Keeps a := hs.millError.ite hs
  have hb : s₀.Keeps b := ha.millError.ite ha
  split
  exacts [hb.millError, hb]

theorem State.Keeps.unfit {u : MillRef} {d : Vec} {t : FinTile} (hs : s₀.Keeps s) : s₀.Keeps (s.unfit u d t) := by
  unfold State.unfit
  split
  exacts [hs, hs.freeTiles]

theorem State.Keeps.finishWith {u : MillRef} {ups : List Upset} {e : Dispatched} {slot : Option SlotIn} {refused : Bool}
    {out : Option (RingRef × Nat)} (hs : s₀.Keeps s) : s₀.Keeps (s.finishWith u ups e slot refused out) := by
  unfold State.finishWith
  extract_lets d x t k slotPoison bad poison s1 s2 seed room r s3 s4 s5 bias s6
  have hs1 : s₀.Keeps s1 := hs.scaleErrors
  have hs2 : s₀.Keeps s2 := by
    dsimp only [s2]
    clear_value bad
    split
    exacts [hs1.finishMismatch, hs1]
  have hs5 : s₀.Keeps s5 := hs2.update.modMill.unfit.modMill
  have hs6 : s₀.Keeps s6 := by
    rcases out with _ | ⟨ring, i⟩
    · exact hs5.millError
    · dsimp only [s6]
      split
      exacts [hs5.sendSlot.offerHamlet, (hs5.sendFree.freeRing.ite hs5.sendFree).offerHamlet]
  exact hs6.finishLeaves

theorem State.Keeps.rangeWith {u : MillRef} {e : Dispatched} {out : Option (RingRef × Nat)} (hs : s₀.Keeps s) :
    s₀.Keeps (s.rangeWith u e out) := by
  unfold State.rangeWith
  extract_lets _ _ _ _ v
  have hv : s₀.Keeps v := by
    dsimp only [v]
    split
    · exact hs.millError
    · split
      · exact hs.sendSlot
      · split
        exacts [hs.sendFree, hs.sendFree.freeRing]
  exact hv.unfit.finishLeaves

theorem State.Keeps.finishGo {u : MillRef} {ups : List Upset} {run : MillRun} (hs : s₀.Keeps s) :
    s₀.Completes (s.finishGo u ups run) := by
  unfold State.finishGo
  extract_lets d isRange needs i after
  have hi : s₀.Keeps i.2.2 := by
    dsimp only [i]
    split
    exacts [hs.input, hs]
  have hafter : ∀ l refused t, s₀.Keeps t → s₀.Completes (after l refused t) := by
    intro l refused t ht
    dsimp only [after]
    split
    · exact hs.hostError
    · exact ht.output.modMill.busy.next
    · exact (ht.output.rangeWith.ite ht.output.finishWith).busy.next
    · exact (ht.output.rangeWith.ite ht.output.finishWith).busy.next
  refine .ite hs.hostError ?_
  split
  · exact hs.hostError
  · exact hi.modMill.busy.next
  · exact hafter _ _ _ hi
  · exact hafter _ _ _ hi.freePoison

theorem State.Keeps.finishUnit {u : MillRef} {ups : List Upset} {type : Nat} (hs : s₀.Keeps s) :
    s₀.Completes (s.finishUnit u ups type) := by
  dsimp only [State.finishUnit]
  split
  · exact hs.next
  · split
    · split
      exacts [hs.finishGo, hs.next]
    · split
      exacts [hs.setMill.finishGo, hs.next]
    · exact hs.next

theorem execFinish_completes {u : MillRef} {ups : List Upset} (hs : s₀.Keeps s) : s₀.Completes (execFinish u ups s) := hs.finishUnit

theorem execRange_completes {u : MillRef} (hs : s₀.Keeps s) : s₀.Completes (execRange u s) := hs.finishUnit

theorem execMillRingWait_completes {u : MillRef} (hs : s₀.Keeps s) : s₀.Completes (execMillRingWait u s) := by
  unfold execMillRingWait
  extract_lets l c
  have hl : s₀.Completes l := (execLoadW_completes hs).ite hs.next
  have hc : s₀.Completes c := hl.bind fun t ht => by
    split
    · exact ht.next
    · split
      exacts [execTritMm_completes ht, execBinMm_completes ht, execLogMm_completes ht]
  exact hc.bind fun t ht => by
    split
    · exact ht.next
    · exact (execRange_completes ht).ite (execFinish_completes ht)

/-! ## Machine/ServingRows.lean -/

theorem execSessionOpen_completes {k hint : Nat} (hs : s₀.Keeps s) : s₀.Completes (execSessionOpen k hint s) :=
  hs.command fun _ => hs.forJob fun _ _ => by
    split
    · exact hs.refuse
    · split
      · exact hs.refuse
      · split
        exacts [hs.refuse, hs.refuse, hs.update.done]

theorem State.Keeps.forSession {k : Nat} {c : Command} {f : Nat → Session → Reply} (hs : s₀.Keeps s) (hf : ∀ a b, s₀.KeepsReply (f a b)) :
    s₀.KeepsReply (s.forSession k c f) := by
  unfold State.forSession
  split
  · split
    exacts [hf _ _, hs.refuse]
  · exact hs.refuse

theorem execSessionClose_completes {k : Nat} (hs : s₀.Keeps s) : s₀.Completes (execSessionClose k s) :=
  hs.command fun _ => hs.forSession fun _ _ => (hs.update.ite hs.update.closeSessions).done

theorem State.Keeps.pin {slot : Nat} (hs : s₀.Keeps s) : s₀.Keeps (s.pin slot) := by
  unfold State.pin
  split
  exacts [hs.update, hs]

theorem State.Keeps.admitEntry {i : Nat} {q : Session} {e : Nat} {x : Entry} {a : Option (Nat × Adapter)} {pages : List Nat}
    (hs : s₀.Keeps s) : s₀.KeepsSome (s.admitEntry i q e x a pages) :=
  hs.writeMem.mapIn fun _ ht => ht.update.pin

theorem State.Keeps.submitTo {i : Nat} {q : Session} {j : Job} {b : List Byte} {hint : Nat} (hs : s₀.Keeps s) :
    s₀.KeepsReply (s.submitTo i q j b hint) := by
  dsimp only [State.submitTo]
  split
  · exact hs.refuse
  · refine .ite ?_ ?_
    · exact hs.refuse
    · split
      · exact hs.refuse
      · split
        · exact hs.refuse
        · split
          · split
            · next e => exact (hs.admitEntry _ e).done
            · exact hs.refuse
          · exact hs.refuse

theorem execSubmit_completes {k hint : Nat} (hs : s₀.Keeps s) : s₀.Completes (execSubmit k hint s) :=
  hs.command fun _ => hs.forSession fun _ _ => by
    split
    · exact hs.refuse
    · exact hs.refuse
    · split
      exacts [hs.refuse, hs.submitTo]

theorem State.Keeps.forEntry {k : Nat} {c : Command} {f : Nat → Entry → Reply} (hs : s₀.Keeps s) (hf : ∀ a b, s₀.KeepsReply (f a b)) :
    s₀.KeepsReply (s.forEntry k c f) := by
  dsimp only [State.forEntry]
  split
  exacts [hs.refuse, hf _ _]

theorem execCancel_completes {k : Nat} (hs : s₀.Keeps s) : s₀.Completes (execCancel k s) :=
  hs.command fun _ => hs.forEntry fun _ _ => by
    split
    exacts [hs.endEntry.done, hs.endEntry.done, hs.endEntry.done, hs.modEntry.done]

theorem execPause_completes {k : Nat} (hs : s₀.Keeps s) : s₀.Completes (execPause k s) :=
  hs.command fun _ => hs.forEntry fun _ _ => by
    split
    · exact hs.refuse
    · split
      · exact hs.refuse
      · split
        exacts [hs.refuse, hs.modEntry.done]

theorem execResume_completes {k hint : Nat} (hs : s₀.Keeps s) : s₀.Completes (execResume k hint s) :=
  hs.command fun _ => hs.forEntry fun _ _ => by
    split
    · exact hs.refuse
    · split
      · exact hs.refuse
      · split
        · exact hs.endEntry.copyEnded.refuse
        · split
          · exact hs.refuse
          · split
            · exact hs.refuse
            · next e => exact (hs.writeMem _ e).modEntry.done

theorem State.Keeps.dropCurrent {slot : Nat} {a : Adapter} (hs : s₀.Keeps s) : s₀.Keeps (s.dropCurrent slot a) := by
  unfold State.dropCurrent
  split
  exacts [hs.update.notifyHousehold, hs.update]

theorem execAdapterLoad_completes {k hint : Nat} (hs : s₀.Keeps s) : s₀.Completes (execAdapterLoad k hint s) :=
  hs.command fun _ => hs.forHousehold fun _ => by
    dsimp only
    split
    · exact hs.refuse
    · split
      · exact hs.refuse
      · split
        · exact hs.refuse
        · split
          exacts [hs.update.dropCurrent.done, hs.update.done]

theorem execAdapterRetire_completes {k : Nat} (hs : s₀.Keeps s) : s₀.Completes (execAdapterRetire k s) :=
  hs.command fun _ => hs.forHousehold fun _ => by
    split
    exacts [hs.refuse, hs.dropCurrent.done]

theorem execGrammarLoad_completes {k hint : Nat} (hs : s₀.Keeps s) : s₀.Completes (execGrammarLoad k hint s) :=
  hs.command fun c => hs.forHousehold fun hh => by
    dsimp only
    split
    · exact hs.refuse
    · split
      · exact hs.refuse
      · split
        · exact hs.refuse
        · split
          · exact hs.refuse
          · exact hs.refuse
          · next t _ e => exact (hs.writeMem t e).update.dropSieve.done

theorem execGrammarFree_completes {k : Nat} (hs : s₀.Keeps s) : s₀.Completes (execGrammarFree k s) :=
  hs.command fun _ => hs.forHousehold fun _ => hs.refuse.ite (hs.refuse.ite hs.update.done)

theorem execLedgerQuery_completes {k : Nat} (hs : s₀.Keeps s) : s₀.Completes (execLedgerQuery k s) :=
  hs.command fun _ => hs.refuse.ite (hs.answer.ite (hs.answer.ite hs.answer))
end

/-! ## The dispatch and the step -/

/-- Every command answers a next state, which keeps what the state before it has. -/
theorem exec_completes (c : Instr) (s : State) : s.Completes (exec c s) := by
  cases c with
  | loadW _ => exact execLoadW_completes .refl
  | tritMm _ _ => exact execTritMm_completes .refl
  | binMm _ _ => exact execBinMm_completes .refl
  | logMm _ => exact execLogMm_completes .refl
  | finish _ _ => exact execFinish_completes .refl
  | range _ => exact execRange_completes .refl
  | fence _ => exact execFence_completes .refl
  | digestTag _ => exact execDigestTag_completes .refl
  | millDispatch _ => exact execMillDispatch_completes .refl
  | millDescWinPush _ _ => exact execMillDescWinPush_completes .refl
  | millRingFetch _ => exact execMillRingFetch_completes .refl
  | millQctrlWrite _ _ => exact execMillQctrlWrite_completes .refl
  | modeChangeApply _ => exact execModeChangeApply_completes .refl
  | haltedClear _ _ => exact execHaltedClear_completes .refl
  | classDrain _ => exact execClassDrain_completes .refl
  | millRingWait _ => exact execMillRingWait_completes .refl
  | int _ => exact execInt_completes .refl
  | div _ => exact execDiv_completes .refl
  | addi _ => exact execAddi_completes .refl
  | shi _ => exact execShi_completes .refl
  | lui _ => exact execLui_completes .refl
  | luih _ => exact execLuih_completes .refl
  | br _ => exact execBr_completes .refl
  | pbr _ => exact execPbr_completes .refl
  | jal _ => exact execJal_completes .refl
  | jalr _ => exact execJalr_completes .refl
  | localLoad _ => exact execLocalLoad_completes .refl
  | localStore _ => exact execLocalStore_completes .refl
  | vld _ => exact execVld_completes .refl
  | vst _ => exact execVst_completes .refl
  | vstn _ => exact execVstn_completes .refl
  | gld _ => exact execGld_completes .refl
  | gst _ => exact execGst_completes .refl
  | gvld _ => exact execGvld_completes .refl
  | gvst _ => exact execGvst_completes .refl
  | gvstn _ => exact execGvstn_completes .refl
  | hfence _ => exact execHfence_completes .refl
  | csr _ => exact execCsr_completes .refl
  | vi _ => exact execVi_completes .refl
  | vf _ => exact execVf_completes .refl
  | vx _ => exact execVx_completes .refl
  | vrsum _ => exact execVrsum_completes .refl
  | vc _ => exact execVc_completes .refl
  | tern _ => exact execTern_completes .refl
  | packt _ => exact execPackt_completes .refl
  | unpackt _ => exact execUnpackt_completes .refl
  | pr _ => exact execPr_completes .refl
  | wait _ => exact execWait_completes .refl
  | eret _ => exact execEret_completes .refl
  | halt _ => exact execHalt_completes .refl
  | trap _ => exact execTrap_completes .refl
  | ibld _ => exact execIbld_completes .refl
  | rget _ => exact execRget_completes .refl
  | rgetx _ => exact execRgetx_completes .refl
  | rrel _ => exact execRrel_completes .refl
  | rrsv _ => exact execRrsv_completes .refl
  | rpub _ => exact execRpub_completes .refl
  | vrx _ => exact execVrx_completes .refl
  | badd _ => exact execBadd_completes .refl
  | bwait _ => exact execBwait_completes .refl
  | bread _ => exact execBread_completes .refl
  | lot _ => exact execLot_completes .refl
  | pissue _ => exact execPissue_completes .refl
  | mpush _ => exact execMpush_completes .refl
  | tfeed _ => exact execTfeed_completes .refl
  | trd _ => exact execTrd_completes .refl
  | twr _ => exact execTwr_completes .refl
  | hwFault _ _ => exact execHwFault_completes .refl
  | eventTake _ => exact execEventTake_completes .refl
  | ringWaitEnd _ => exact execRingWaitEnd_completes .refl
  | ringStall _ _ => exact execRingStall_completes .refl
  | waitStall _ => exact execWaitStall_completes .refl
  | pushStall _ => exact execPushStall_completes .refl
  | bwaitSatisfied _ => exact execBwaitSatisfied_completes .refl
  | bellAddApply _ => exact execBellAddApply_completes .refl
  | ringCfgWrite _ _ => exact execRingCfgWrite_completes .refl
  | fenceAndScrub _ => exact execFenceAndScrub_completes .refl
  | scrubFill _ _ => exact execScrubFill_completes .refl
  | scrubCheck _ => exact execScrubCheck_completes .refl
  | granuleScrub _ _ _ => exact execGranuleScrub_completes .refl
  | hamletGate _ => exact execHamletGate_completes .refl
  | hamletRetain _ => exact execHamletRetain_completes .refl
  | hamletOff _ => exact execHamletOff_completes .refl
  | hamletWake _ => exact execHamletWake_completes .refl
  | copy _ => exact execCopy_completes .refl
  | gather _ => exact execGather_completes .refl
  | scatter _ => exact execScatter_completes .refl
  | reduce _ => exact execReduce_completes .refl
  | porterDescWinPush _ _ => exact execPorterDescWinPush_completes .refl
  | porterComplete _ => exact execPorterComplete_completes .refl
  | porterHaltedClear _ _ => exact execPorterHaltedClear_completes .refl
  | translationMiss _ _ _ _ => exact execTranslationMiss_completes .refl
  | granaryFill _ _ _ => exact execGranaryFill_completes .refl
  | lpddrRead _ _ _ _ _ => exact execLpddrRead_completes .refl
  | lpddrWrite _ _ _ => exact execLpddrWrite_completes .refl
  | correctionRewrite _ => exact execCorrectionRewrite_completes .refl
  | dailyReadThrough _ _ => exact execDailyReadThrough_completes .refl
  | refreshUpdate _ _ => exact execRefreshUpdate_completes .refl
  | scan _ => exact execScan_completes .refl
  | build _ => exact execBuild_completes .refl
  | encode _ => exact execEncode_completes .refl
  | decode _ => exact execDecode_completes .refl
  | loadt _ => exact execLoadt_completes .refl
  | maskidx _ => exact execMaskidx_completes .refl
  | merge _ => exact execMerge_completes .refl
  | pressComplete _ _ => exact execPressComplete_completes .refl
  | tableSlotVisible _ => exact execTableSlotVisible_completes .refl
  | tallySnoopUnit _ => exact execTallySnoopUnit_completes .refl
  | tallyFlush _ _ => exact execTallyFlush_completes .refl
  | tallyCtrlWrite _ _ => exact execTallyCtrlWrite_completes .refl
  | tallyValueWrite _ _ => exact execTallyValueWrite_completes .refl
  | stepBoundary _ => exact execStepBoundary_completes .refl
  | stepReplay _ _ => exact execStepReplay_completes .refl
  | mirrorRestore _ _ => exact execMirrorRestore_completes .refl
  | sieveRow _ _ => exact execSieveRow_completes .refl
  | sieveSample _ => exact execSieveSample_completes .refl
  | cellarCopyOut _ _ => exact execCellarCopyOut_completes .refl
  | cellarCopyIn _ _ => exact execCellarCopyIn_completes .refl
  | expiry _ => exact execExpiry_completes .refl
  | flitReceive _ _ => exact execFlitReceive_completes .refl
  | nakReplay _ _ => exact execNakReplay_completes .refl
  | ackTimeout _ => exact execAckTimeout_completes .refl
  | ackSend _ => exact execAckSend_completes .refl
  | write _ => exact execWrite_completes .refl
  | read _ => exact execRead_completes .refl
  | ferryReduce _ => exact execFerryReduce_completes .refl
  | msg _ => exact execMsg_completes .refl
  | wack _ => exact execWack_completes .refl
  | rdata _ => exact execRdata_completes .refl
  | bell _ => exact execBell_completes .refl
  | ctrl _ _ => exact execCtrl_completes .refl
  | mcred _ => exact execMcred_completes .refl
  | boundSlotSend _ => exact execBoundSlotSend_completes .refl
  | landingDetect _ => exact execLandingDetect_completes .refl
  | train _ _ => exact execTrain_completes .refl
  | retrain _ _ _ => exact execRetrain_completes .refl
  | edgeReplay _ => exact execEdgeReplay_completes .refl
  | edgeRetrain _ _ _ => exact execEdgeRetrain_completes .refl
  | pbCtrlWrite _ _ _ => exact execPbCtrlWrite_completes .refl
  | pbDoorbell _ _ _ _ => exact execPbDoorbell_completes .refl
  | pbCplHeadWrite _ _ _ => exact execPbCplHeadWrite_completes .refl
  | commandTake _ => exact execCommandTake_completes .refl
  | completionWrite _ => exact execCompletionWrite_completes .refl
  | notice _ => exact execNotice_completes .refl
  | msixHoldoff _ => exact execMsixHoldoff_completes .refl
  | identify _ => exact execIdentify_completes .refl
  | echo _ => exact execEcho_completes .refl
  | logbookRead _ => exact execLogbookRead_completes .refl
  | logbookClear _ => exact execLogbookClear_completes .refl
  | noticeRoute _ => exact execNoticeRoute_completes .refl
  | hhOpen _ => exact execHhOpen_completes .refl
  | hhClose _ => exact execHhClose_completes .refl
  | hhQuota _ => exact execHhQuota_completes .refl
  | keyLoad _ => exact execKeyLoad_completes .refl
  | keyErase _ => exact execKeyErase_completes .refl
  | memMap _ _ => exact execMemMap_completes .refl
  | memUnmap _ => exact execMemUnmap_completes .refl
  | bar2Set _ => exact execBar2Set_completes .refl
  | pressSlot _ _ => exact execPressSlot_completes .refl
  | admitBegin _ _ => exact execAdmitBegin_completes .refl
  | admitData _ => exact execAdmitData_completes .refl
  | admitEnd _ => exact execAdmitEnd_completes .refl
  | admitResume _ => exact execAdmitResume_completes .refl
  | admitAbort _ => exact execAdmitAbort_completes .refl
  | weightMap _ => exact execWeightMap_completes .refl
  | weightUnmap _ => exact execWeightUnmap_completes .refl
  | weightFree _ => exact execWeightFree_completes .refl
  | blockReload _ => exact execBlockReload_completes .refl
  | jobLoad _ _ _ => exact execJobLoad_completes .refl
  | jobStart _ => exact execJobStart_completes .refl
  | jobKill _ => exact execJobKill_completes .refl
  | jobStatus _ => exact execJobStatus_completes .refl
  | jobUnload _ => exact execJobUnload_completes .refl
  | jobEnd _ => exact execJobEnd_completes .refl
  | jobTimeLimit _ => exact execJobTimeLimit_completes .refl
  | jobFault _ _ => exact execJobFault_completes .refl
  | sessionOpen _ _ => exact execSessionOpen_completes .refl
  | sessionClose _ => exact execSessionClose_completes .refl
  | submit _ _ => exact execSubmit_completes .refl
  | cancel _ => exact execCancel_completes .refl
  | pause _ => exact execPause_completes .refl
  | resume _ _ => exact execResume_completes .refl
  | adapterLoad _ _ => exact execAdapterLoad_completes .refl
  | adapterRetire _ => exact execAdapterRetire_completes .refl
  | grammarLoad k hint => exact (execGrammarLoad_completes .refl : s.Completes (execGrammarLoad k hint s))
  | grammarFree _ => exact execGrammarFree_completes .refl
  | ledgerQuery _ => exact execLedgerQuery_completes .refl
  | topologySet _ _ => exact execTopologySet_completes .refl
  | linkAssign _ => exact execLinkAssign_completes .refl
  | linkStatus _ => exact execLinkStatus_completes .refl
  | powerCap _ => exact execPowerCap_completes .refl
  | powerState _ => exact execPowerState_completes .refl
  | determinism _ => exact execDeterminism_completes .refl
  | lpddrShares _ => exact execLpddrShares_completes .refl
  | lotSeed _ => exact execLotSeed_completes .refl
  | settingsRead _ => exact execSettingsRead_completes .refl
  | digestFlush _ => exact execDigestFlush_completes .refl
  | loopback _ _ => exact execLoopback_completes .refl
  | warmReset _ => exact execWarmReset_completes .refl
  | bar2Read _ _ _ => exact execBar2Read_completes .refl
  | bar2Write _ _ _ => exact execBar2Write_completes .refl
  | governorTick _ _ _ => exact execGovernorTick_completes .refl
  | levelChange => exact execLevelChange_completes .refl
  | governorLimit => exact execGovernorLimit_completes .refl
  | dozeEntry => exact execDozeEntry_completes .refl
  | dozeExit => exact execDozeExit_completes .refl
  | deepExit _ => exact execDeepExit_completes .refl
  | heartbeat => exact execHeartbeat_completes .refl
  | coldBoot _ => exact execColdBoot_completes .refl
  | powerLoss => exact execPowerLoss_completes .refl
  | wrstN _ => exact execWrstN_completes .refl
  | warmResetSequence _ => exact execWarmResetSequence_completes .refl
  | pcieHotReset _ => exact execPcieHotReset_completes .refl
  | pfFlr => exact execPfFlr_completes .refl
  | vfFlr _ => exact execVfFlr_completes .refl
  | thermtrip _ => exact execThermtrip_completes .refl
  | pmbAlert _ => exact execPmbAlert_completes .refl
  | uncorrectablePrivate _ => exact execUncorrectablePrivate_completes .refl
  | sramCorrect _ => exact execSramCorrect_completes .refl
  | registerWrite _ _ _ => exact execRegisterWrite_completes .refl
  | idcode _ => exact execIdcode_completes .refl
  | samplePreload _ => exact execSamplePreload_completes .refl
  | extest _ => exact execExtest_completes .refl
  | extestPulse _ => exact execExtestPulse_completes .refl
  | extestTrain _ => exact execExtestTrain_completes .refl
  | clamp _ => exact execClamp_completes .refl
  | highz _ => exact execHighz_completes .refl
  | ijtag _ _ => exact execIjtag_completes .refl
  | unlock _ _ => exact execUnlock_completes .refl
  | bypass _ _ => exact execBypass_completes .refl
  | lockFuse _ => exact execLockFuse_completes .refl
  | illegal _ => exact execIllegal_completes .refl
  | vfEnable _ => exact execVfEnable_completes .refl
  | wrstNDeassert _ => exact execWrstNDeassert_completes .refl
  | perstNDeassert => exact execPerstNDeassert_completes .refl

/-- The next state of a command keeps what the state before it has. -/
theorem State.Keeps.of_exec {c : Instr} {s t : State} (h : exec c s = .next t) : s.Keeps t := by
  obtain ⟨u, hu, hk⟩ := exec_completes c s
  obtain rfl : u = t := Host.Outcome.next.inj (hu.symm.trans h)
  exact hk

theorem canonical_pending {s : State} {q : List Instr} (hs : s.canonical) : ({ s with pending := q } : State).canonical := hs

/-- A step keeps the canonical form and the part; it takes one command from the queue, or ticks. -/
theorem step_keeps {s t : State} (hc : s.canonical) (h : step s = .next t) : t.canonical ∧ t.part = s.part := by
  unfold step at h
  split at h
  · have ht : s.Keeps s.tick := State.Keeps.refl.tick
    obtain rfl : s.tick = t := Host.Outcome.next.inj h
    exact ⟨ht.canonical hc, ht.part⟩
  · have ht := State.Keeps.of_exec h
    exact ⟨ht.canonical (canonical_pending hc), ht.part⟩

/-- Settles O59: every meaning completes (`exec_completes`), and its next state keeps both canonical forms, the queue and the part. -/
theorem commandsKeepCanonicalMemory : Obligations.CommandsKeepCanonicalMemory := by
  refine ⟨fun c s => ?_, fun c s t h => ?_, fun s t => step_keeps⟩
  · obtain ⟨t, ht, -⟩ := exec_completes c s
    exact ⟨t, ht⟩
  · have ht := State.Keeps.of_exec h
    exact ⟨ht.canonical, ht.pending, ht.part⟩

end Sys2Proof.Machine
end

