-- ==== Sys2Proof/Proofs/Steps.lean ====
section
/-! A step takes the front command of the queue or lets time pass (log entry 11); what passes in Deep. -/

namespace Sys2Proof.Machine

/-- A package on its way out of Deep, as the first step of DEEP_EXIT leaves it: a doorbell has come and the saved state has returned, so that
the PLLs run again, while POWER reads Deep until the Landings have retrained (R374). -/
def leavingDeep : State :=
  { State.reset with
    pins := { State.reset.pins with porst := true }
    ident := { State.reset.ident with state := .ready, power := .deep }
    landings := State.reset.landings.set 0 { role := 1, state := .retrain }
    deepWake := true }

/-- The fast clocks run in a package that leaves Deep: MCLK counts 60 cycles in one tick of AOCLK. -/
theorem step_leavingDeep : step leavingDeep = .next { leavingDeep with clock := 1, mclk := 60 } := rfl

/-- Refutes O58: POWER reads Deep also while the package leaves Deep, when its saved state has returned and its fast clocks run, so that a tick
on an empty queue changes MCLK besides the village clock. -/
theorem not_stepRunsTheFrontCommand : ¬ Obligations.StepRunsTheFrontCommand := by
  unfold Obligations.StepRunsTheFrontCommand
  rintro ⟨-, -, hempty⟩
  have hdeep : step leavingDeep = .next { leavingDeep with clock := leavingDeep.clock + 1 } := (hempty leavingDeep rfl rfl).1 rfl
  have hmclk : (60 : Nat) = 0 := congrArg State.mclk (Host.Outcome.next.inj (step_leavingDeep.symm.trans hdeep))
  exact absurd hmclk (by decide)

end Sys2Proof.Machine
end

