-- ==== Sys2Proof/Proofs/Logbook.lean ====
section
/-! What a Logbook record changes (R397 to R402), said once: `State.recorded` is the state with the record in it, and `State.Notes` covers what
goes with a record besides: the Logbook blocks of the dies, notices, interrupts and Host Notify. -/

namespace Sys2Proof.Machine

/-- Of two states only notices, what leaves for the host, and the Logbook blocks of the dies differ; the times of CORRECTED records are the
same. -/
structure State.Notes (s t : State) : Prop where
  frame : t = { s with dies := t.dies, noticeQ := t.noticeQ, msixPend := t.msixPend, hostOut := t.hostOut }
  die : ∀ d, ∃ b : LogBlock, t.die d = { s.die d with log := b } ∧ b.lastCorrected = (s.die d).log.lastCorrected

/-- The state with the time of a CORRECTED record noted at its die (R400). -/
def State.corrected (s : State) (r : LogReq) : State :=
  if r.severity = 1 then
    s.modDie r.die fun x => { x with log := { x.log with lastCorrected := x.log.lastCorrected.set (r.cls * 32 + r.place) s.clock } }
  else s

/-- The state with the record that a request asks for, where R400 does not hold it back: in the ring where there is room, and UNDEFINED after a
FATAL one. -/
def State.recorded (s : State) (r : LogReq) : State :=
  if s.suppressed r then s
  else
    { s.corrected r with
      logNext := s.logNext + 1
      logRing := if s.logRoom s.logNext then s.logRing.set (s.logNext.toNat % 1920) (r.record s.logNext s.clock) else s.logRing
      ident := if BitVec.ofNat 2 r.severity = 3 then { s.ident with state := .undefined } else s.ident }

section
variable {s t u : State}

theorem State.Notes.refl : s.Notes s := ⟨rfl, fun d => ⟨(s.die d).log, rfl, rfl⟩⟩

theorem State.Notes.of_eq (h : s = t) : s.Notes t := h ▸ .refl

theorem State.Notes.trans (hst : s.Notes t) (htu : t.Notes u) : s.Notes u := by
  refine ⟨?_, fun d => ?_⟩
  · rw [htu.frame, hst.frame]
  · obtain ⟨b, hb, hc⟩ := hst.die d
    obtain ⟨c, hd, he⟩ := htu.die d
    exact ⟨c, by rw [hd, hb], by rw [he, hb, hc]⟩

/-- A state with the dies of another one. -/
theorem State.Notes.of_dies (hf : t = { s with dies := s.dies, noticeQ := t.noticeQ, msixPend := t.msixPend, hostOut := t.hostOut }) : s.Notes t := by
  have hd : t.dies = s.dies := (congrArg State.dies hf :)
  refine ⟨by rw [hd]; exact hf, fun d => ⟨(s.die d).log, ?_, rfl⟩⟩
  unfold State.die
  rw [hd]

theorem State.notes_modDie {d : Nat} {f : LogBlock → LogBlock} (hf : ∀ b, (f b).lastCorrected = b.lastCorrected) :
    s.Notes (s.modDie d fun x => { x with log := f x.log }) := by
  refine ⟨rfl, fun k => ?_⟩
  by_cases hk : k = d
  · subst hk
    exact ⟨f (s.die k).log, State.die_modDie .., hf _⟩
  · exact ⟨(s.die k).log, Tab.get_set_ne _ _ _ hk, rfl⟩

theorem State.notes_raiseMsix (fn vector : Nat) : s.Notes (s.raiseMsix fn vector) := by
  unfold State.raiseMsix
  split <;> exact .of_dies rfl

theorem State.notes_alertHousehold (hh : Nat) (index : Word32) : s.Notes (s.alertHousehold hh index) := by
  dsimp only [State.alertHousehold]
  split
  · exact .refl
  · have ht : s.Notes (if s.noticeBox hh = 0 then s else s.notifyHousehold hh 0xf006 (index.setWidth 64)) := by
      split
      exacts [.refl, .of_dies rfl]
    split
    exacts [ht, ht.trans (State.notes_raiseMsix ..)]

theorem State.notes_logAlert (rec : LogRecord) : s.Notes (s.logAlert rec) := by
  unfold State.logAlert
  split
  · exact (State.Notes.of_dies rfl).trans ((State.notes_raiseMsix ..).trans (State.notes_alertHousehold ..))
  · exact .refl

theorem State.notes_hostNotify : t.Notes (s.hostNotify t) := by
  unfold State.hostNotify
  split
  exacts [.of_dies rfl, .refl]

/-- The ring holds a record after it is written where there is room; the rest of the state only notes it. -/
theorem State.notes_logWrite (rec : LogRecord) :
    ({ s with logRing := if s.logRoom rec.index then s.logRing.set (rec.index.toNat % 1920) rec else s.logRing } : State).Notes (s.logWrite rec) := by
  dsimp only [State.logWrite]
  split
  · split
    · exact State.notes_modDie (f := fun b => b.note rec) fun _ => rfl
    · exact (State.notes_modDie (f := fun b => b.note rec) fun _ => rfl).trans (State.notes_modDie (f := fun b => b.note rec) fun _ => rfl)
  · exact State.notes_modDie (f := fun b => { b with lost := satAdd b.lost 1 }) fun _ => rfl

/-- Only the identity of the second state matters to a FATAL record. -/
theorem State.Notes.logFatal (h : s.Notes t) (rec : LogRecord) : (s.logFatal rec).Notes (t.logFatal rec) := by
  have hi : t.ident = s.ident := (congrArg State.ident h.frame :)
  unfold State.logFatal
  split
  · refine ⟨?_, h.die⟩
    rw [hi]
    conv_lhs => rw [h.frame]
  · exact h

/-- What a Logbook record changes, all of it. -/
theorem State.logEvent_notes (s : State) (r : LogReq) : (s.recorded r).Notes (s.logEvent r) := by
  unfold State.recorded State.logEvent
  split
  · exact State.notes_modDie (f := fun b => { b with suppressed := satAdd b.suppressed 1 }) fun _ => rfl
  · refine .trans ?_ (((State.notes_logWrite _).trans (State.notes_logAlert _)).logFatal _ |>.trans State.notes_hostNotify)
    refine .of_eq ?_
    unfold State.corrected State.logFatal
    by_cases h1 : r.severity = 1
    · have h3 : BitVec.ofNat 2 r.severity ≠ 3 := by rw [h1]; decide
      simp only [if_pos h1, if_neg h3]
      exact (if_neg h3).symm
    · by_cases h3 : BitVec.ofNat 2 r.severity = 3
      · simp only [if_neg h1, if_pos h3]
        exact (if_pos h3).symm
      · simp only [if_neg h1, if_neg h3]
        exact (if_neg h3).symm

/-- What a record leaves unchanged. -/
theorem State.recorded_frame (s : State) (r : LogReq) :
    s.recorded r = { s with
      ident := (s.recorded r).ident, dies := (s.recorded r).dies, logNext := (s.recorded r).logNext, logRing := (s.recorded r).logRing } := by
  unfold State.recorded State.corrected
  split
  · rfl
  · split <;> rfl

theorem State.logEvent_frame (s : State) (r : LogReq) :
    s.logEvent r = { s with
      ident := (s.logEvent r).ident, dies := (s.logEvent r).dies, noticeQ := (s.logEvent r).noticeQ, msixPend := (s.logEvent r).msixPend
      hostOut := (s.logEvent r).hostOut, logNext := (s.logEvent r).logNext, logRing := (s.logEvent r).logRing } := by
  rw [(s.logEvent_notes r).frame]
  conv_lhs => rw [s.recorded_frame r]

variable (s)

@[simp] theorem State.logEvent_part (r : LogReq) : (s.logEvent r).part = s.part := (congrArg State.part (s.logEvent_frame r) :)
@[simp] theorem State.logEvent_clock (r : LogReq) : (s.logEvent r).clock = s.clock := (congrArg State.clock (s.logEvent_frame r) :)
@[simp] theorem State.logEvent_mclk (r : LogReq) : (s.logEvent r).mclk = s.mclk := (congrArg State.mclk (s.logEvent_frame r) :)
@[simp] theorem State.logEvent_mem (r : LogReq) : (s.logEvent r).mem = s.mem := (congrArg State.mem (s.logEvent_frame r) :)
@[simp] theorem State.logEvent_sramPoison (r : LogReq) : (s.logEvent r).sramPoison = s.sramPoison := (congrArg State.sramPoison (s.logEvent_frame r) :)
@[simp] theorem State.logEvent_defects (r : LogReq) : (s.logEvent r).defects = s.defects := (congrArg State.defects (s.logEvent_frame r) :)
@[simp] theorem State.logEvent_blkPoison (r : LogReq) : (s.logEvent r).blkPoison = s.blkPoison := (congrArg State.blkPoison (s.logEvent_frame r) :)
@[simp] theorem State.logEvent_hostMem (r : LogReq) : (s.logEvent r).hostMem = s.hostMem := (congrArg State.hostMem (s.logEvent_frame r) :)
@[simp] theorem State.logEvent_hostDeny (r : LogReq) : (s.logEvent r).hostDeny = s.hostDeny := (congrArg State.hostDeny (s.logEvent_frame r) :)
@[simp] theorem State.logEvent_settings (r : LogReq) : (s.logEvent r).settings = s.settings := (congrArg State.settings (s.logEvent_frame r) :)
@[simp] theorem State.logEvent_gov (r : LogReq) : (s.logEvent r).gov = s.gov := (congrArg State.gov (s.logEvent_frame r) :)
@[simp] theorem State.logEvent_rails (r : LogReq) : (s.logEvent r).rails = s.rails := (congrArg State.rails (s.logEvent_frame r) :)
@[simp] theorem State.logEvent_pcieSris (r : LogReq) : (s.logEvent r).pcieSris = s.pcieSris := (congrArg State.pcieSris (s.logEvent_frame r) :)
@[simp] theorem State.logEvent_activity (r : LogReq) : (s.logEvent r).activity = s.activity := (congrArg State.activity (s.logEvent_frame r) :)
@[simp] theorem State.logEvent_hamlets (r : LogReq) : (s.logEvent r).hamlets = s.hamlets := (congrArg State.hamlets (s.logEvent_frame r) :)
@[simp] theorem State.logEvent_parishes (r : LogReq) : (s.logEvent r).parishes = s.parishes := (congrArg State.parishes (s.logEvent_frame r) :)
@[simp] theorem State.logEvent_controllers (r : LogReq) : (s.logEvent r).controllers = s.controllers := (congrArg State.controllers (s.logEvent_frame r) :)
@[simp] theorem State.logEvent_landings (r : LogReq) : (s.logEvent r).landings = s.landings := (congrArg State.landings (s.logEvent_frame r) :)
@[simp] theorem State.logEvent_pressSlots (r : LogReq) : (s.logEvent r).pressSlots = s.pressSlots := (congrArg State.pressSlots (s.logEvent_frame r) :)
@[simp] theorem State.logEvent_pressPend (r : LogReq) : (s.logEvent r).pressPend = s.pressPend := (congrArg State.pressPend (s.logEvent_frame r) :)
@[simp] theorem State.logEvent_keySlots (r : LogReq) : (s.logEvent r).keySlots = s.keySlots := (congrArg State.keySlots (s.logEvent_frame r) :)
@[simp] theorem State.logEvent_households (r : LogReq) : (s.logEvent r).households = s.households := (congrArg State.households (s.logEvent_frame r) :)
@[simp] theorem State.logEvent_jobs (r : LogReq) : (s.logEvent r).jobs = s.jobs := (congrArg State.jobs (s.logEvent_frame r) :)
@[simp] theorem State.logEvent_sessions (r : LogReq) : (s.logEvent r).sessions = s.sessions := (congrArg State.sessions (s.logEvent_frame r) :)
@[simp] theorem State.logEvent_ledger (r : LogReq) : (s.logEvent r).ledger = s.ledger := (congrArg State.ledger (s.logEvent_frame r) :)
@[simp] theorem State.logEvent_tensors (r : LogReq) : (s.logEvent r).tensors = s.tensors := (congrArg State.tensors (s.logEvent_frame r) :)
@[simp] theorem State.logEvent_postboxes (r : LogReq) : (s.logEvent r).postboxes = s.postboxes := (congrArg State.postboxes (s.logEvent_frame r) :)
@[simp] theorem State.logEvent_numVFs (r : LogReq) : (s.logEvent r).numVFs = s.numVFs := (congrArg State.numVFs (s.logEvent_frame r) :)
@[simp] theorem State.logEvent_pins (r : LogReq) : (s.logEvent r).pins = s.pins := (congrArg State.pins (s.logEvent_frame r) :)
@[simp] theorem State.logEvent_resetStep (r : LogReq) : (s.logEvent r).resetStep = s.resetStep := (congrArg State.resetStep (s.logEvent_frame r) :)
@[simp] theorem State.logEvent_lifecycle (r : LogReq) : (s.logEvent r).lifecycle = s.lifecycle := (congrArg State.lifecycle (s.logEvent_frame r) :)
@[simp] theorem State.logEvent_torus (r : LogReq) : (s.logEvent r).torus = s.torus := (congrArg State.torus (s.logEvent_frame r) :)
@[simp] theorem State.logEvent_bellFlight (r : LogReq) : (s.logEvent r).bellFlight = s.bellFlight := (congrArg State.bellFlight (s.logEvent_frame r) :)
@[simp] theorem State.logEvent_stranded (r : LogReq) : (s.logEvent r).stranded = s.stranded := (congrArg State.stranded (s.logEvent_frame r) :)
@[simp] theorem State.logEvent_stopped (r : LogReq) : (s.logEvent r).stopped = s.stopped := (congrArg State.stopped (s.logEvent_frame r) :)
@[simp] theorem State.logEvent_freeCtr (r : LogReq) : (s.logEvent r).freeCtr = s.freeCtr := (congrArg State.freeCtr (s.logEvent_frame r) :)
@[simp] theorem State.logEvent_pending (r : LogReq) : (s.logEvent r).pending = s.pending := (congrArg State.pending (s.logEvent_frame r) :)

theorem State.recorded_die (r : LogReq) (d : Nat) : (s.recorded r).die d = if s.suppressed r then s.die d else (s.corrected r).die d := by
  unfold State.recorded
  split <;> rfl

theorem State.corrected_die {r : LogReq} (hr : r.severity = 1) :
    (s.corrected r).die r.die = { s.die r.die with log := { (s.die r.die).log with
      lastCorrected := (s.die r.die).log.lastCorrected.set (r.cls * 32 + r.place) s.clock } } := by
  unfold State.corrected
  rw [if_pos hr]
  exact State.die_modDie ..

/-- Of a die only its Logbook block changes. -/
theorem State.logEvent_die (r : LogReq) (d : Nat) : ∃ b : LogBlock, (s.logEvent r).die d = { s.die d with log := b } := by
  obtain ⟨b, hb, -⟩ := (s.logEvent_notes r).die d
  refine ⟨b, hb.trans ?_⟩
  rw [s.recorded_die r d]
  split
  · rfl
  · by_cases hr : r.severity = 1
    · by_cases hd : d = r.die
      · rw [hd, s.corrected_die hr]
      · have hc : (s.corrected r).die d = s.die d := by
          unfold State.corrected
          rw [if_pos hr]
          exact Tab.get_set_ne _ _ _ hd
        rw [hc]
    · rw [State.corrected, if_neg hr]

/-- Only a CORRECTED record is held back (R400). -/
theorem State.suppressed_of_ne {r : LogReq} (h : r.severity ≠ 1) : s.suppressed r = false := by simp [State.suppressed, h]

theorem State.logEvent_ident {r : LogReq} (h : BitVec.ofNat 2 r.severity ≠ 3) : (s.logEvent r).ident = s.ident := by
  have hn : (s.logEvent r).ident = (s.recorded r).ident := (congrArg State.ident (s.logEvent_notes r).frame :)
  rw [hn]
  by_cases hs : s.suppressed r = true
  · rw [State.recorded, if_pos hs]
  · simp only [State.recorded, if_neg hs, if_neg h]

/-- A FATAL record leaves the part UNDEFINED (R389, R392). -/
theorem State.logEvent_fatal {r : LogReq} (h : r.severity = 3) : (s.logEvent r).ident.state = .undefined := by
  have hn : (s.logEvent r).ident = (s.recorded r).ident := (congrArg State.ident (s.logEvent_notes r).frame :)
  rw [hn]
  unfold State.recorded
  rw [s.suppressed_of_ne (by omega), if_neg (by simp)]
  exact congrArg Ident.state (if_pos (by rw [h]; rfl))

theorem State.logEvent_logNext {r : LogReq} (h : s.suppressed r = false) : (s.logEvent r).logNext = s.logNext + 1 := by
  have hn : (s.logEvent r).logNext = (s.recorded r).logNext := (congrArg State.logNext (s.logEvent_notes r).frame :)
  rw [hn]
  simp [State.recorded, h]

/-- A record that is held back leaves the ring as it is. -/
theorem State.logEvent_logRing_of_suppressed {r : LogReq} (h : s.suppressed r = true) : (s.logEvent r).logRing = s.logRing := by
  have hn : (s.logEvent r).logRing = (s.recorded r).logRing := (congrArg State.logRing (s.logEvent_notes r).frame :)
  rw [hn]
  simp [State.recorded, h]

/-- A record that is not held back stands in the ring where there is room. -/
theorem State.logEvent_find {r : LogReq} (h : s.suppressed r = false) (hr : s.logRoom s.logNext = true) :
    (s.logEvent r).logRing.find (s.logNext.toNat % 1920) = some (r.record s.logNext s.clock) := by
  have hn : (s.logEvent r).logRing = (s.recorded r).logRing := (congrArg State.logRing (s.logEvent_notes r).frame :)
  rw [hn]
  simp [State.recorded, h, hr]

/-- A record is held back where it is CORRECTED and its class and place had one in the last second (R400). -/
theorem State.suppressed_iff {r : LogReq} : s.suppressed r = true ↔ r.severity = 1 ∧
    ∃ t, (s.die r.die).log.lastCorrected.find (r.cls * 32 + r.place) = some t ∧ s.clock.toNat < t.toNat + ticksPerSecond := by
  unfold State.suppressed
  rw [Bool.and_eq_true, decide_eq_true_iff]
  refine and_congr_right fun _ => ?_
  split <;> simp_all

/-- After a CORRECTED record one of the same class, die and place is held back (R400). -/
theorem State.suppressed_logEvent {r q : LogReq} (hr : r.severity = 1) (hq : q.severity = 1) (hd : q.die = r.die)
    (hk : q.cls * 32 + q.place = r.cls * 32 + r.place) : (s.logEvent r).suppressed q = true := by
  obtain ⟨b, hb, hc⟩ := (s.logEvent_notes r).die r.die
  have hl : ((s.logEvent r).die r.die).log.lastCorrected = ((s.recorded r).die r.die).log.lastCorrected := by rw [hb, hc]
  rw [State.suppressed_iff, hd, hk, hl, State.logEvent_clock, s.recorded_die r r.die]
  refine ⟨hq, ?_⟩
  by_cases h : s.suppressed r = true
  · rw [if_pos h]
    exact ((State.suppressed_iff s).1 h).2
  · rw [if_neg h, s.corrected_die hr]
    exact ⟨s.clock, Tab.find_set_same .., by unfold ticksPerSecond; omega⟩

end

end Sys2Proof.Machine
end

