-- ==== Sys2Proof/Proofs/Landings.lean ====
section
/-! Landing states and training (R305 to R307, R316, R323). What pinning the flows anew does to links is said once, as `State.Repins`: it moves
flits and leaves the state, the rate and the counts of every Landing, and the replay buffer of one that is not ACTIVE. -/

namespace Sys2Proof.Machine

/-- A table read after a change of its values that keeps the value of an unlisted key. -/
theorem Tab.get_mapV {α : Type} (t : Tab α) (f : Nat → α → α) {d : α} {k : Nat} (h : f k d = d) : (t.mapV f).get d k = f k (t.get d k) := by
  unfold Tab.get
  rw [Tab.find_mapV]
  cases t.find k with
  | none => exact h.symm
  | some x => rfl

/-- A Landing that has sent and taken up flits: nothing but its flits, numbers and credits differs, and where it is not ACTIVE its replay buffer
is the same. -/
structure Landing.Carries (x y : Landing) : Prop where
  state : y.state = x.state
  rate : y.rate = x.rate
  sticky : y.sticky = x.sticky
  retrains : y.retrains = x.retrains
  failures : y.failures = x.failures
  replay : x.state ≠ .active → y.replay = x.replay

/-- Flows have been pinned anew: only Landings, the flits that wait for a link, and what has left differ. -/
structure State.Repins (s t : State) : Prop where
  frame : t = { s with landings := t.landings, stranded := t.stranded, hostOut := t.hostOut }
  landing : ∀ l, (s.landing l).Carries (t.landing l)

theorem Landing.Carries.refl {x : Landing} : x.Carries x := ⟨rfl, rfl, rfl, rfl, rfl, fun _ => rfl⟩

theorem Landing.Carries.trans {x y z : Landing} (h : x.Carries y) (k : y.Carries z) : x.Carries z where
  state := k.state.trans h.state
  rate := k.rate.trans h.rate
  sticky := k.sticky.trans h.sticky
  retrains := k.retrains.trans h.retrains
  failures := k.failures.trans h.failures
  replay := fun hx => (k.replay (h.state ▸ hx)).trans (h.replay hx)

section
variable {s₀ s t : State}

theorem State.Repins.refl : s.Repins s := ⟨rfl, fun _ => .refl⟩

theorem State.Repins.trans {u : State} (hst : s.Repins t) (htu : t.Repins u) : s.Repins u := by
  refine ⟨?_, fun l => (hst.landing l).trans (htu.landing l)⟩
  rw [htu.frame, hst.frame]

theorem State.Repins.foldl {α : Type} {f : State → α → State} {l : List α} (hs : s₀.Repins s) (hf : ∀ (t : State) x, t.Repins (f t x)) :
    s₀.Repins (l.foldl f s) :=
  List.foldlRecOn l f hs fun t ht x _ => ht.trans (hf t x)

/-- A Landing of the state becomes one that has only carried flits. -/
theorem State.repins_setLanding {l : Nat} {y : Landing} (h : (s.landing l).Carries y) : s.Repins (s.setLanding l y) := by
  refine ⟨rfl, fun k => ?_⟩
  by_cases hk : k = l
  · rw [hk, State.landing_setLanding]
    exact h
  · rw [show (s.setLanding l y).landing k = s.landing k from Tab.get_set_ne _ _ _ hk]
    exact .refl

theorem State.repins_modLanding {l : Nat} {f : Landing → Landing} (h : (s.landing l).Carries (f (s.landing l))) : s.Repins (s.modLanding l f) :=
  State.repins_setLanding h

theorem State.repins_emit (o : HostOut) : s.Repins (s.emit o) := ⟨rfl, fun _ => .refl⟩

theorem State.repins_stranded (l : List SentFlit) : s.Repins { s with stranded := l } := ⟨rfl, fun _ => .refl⟩

theorem State.repins_owe (l : List (Nat × Nat)) : s.Repins (s.owe l) :=
  State.Repins.refl.foldl fun _ b =>
    State.repins_modLanding (f := fun y => { y with owed := y.owed.set b.2 (y.owed.get 0 b.2 + 1) }) ⟨rfl, rfl, rfl, rfl, rfl, fun _ => rfl⟩

theorem Landing.paced_carries (x : Landing) (f : SentFlit) : x.Carries (x.paced f) := by
  unfold Landing.paced
  split
  exacts [⟨rfl, rfl, rfl, rfl, rfl, fun _ => rfl⟩, .refl]

theorem State.repins_pumpLink (n l : Nat) : s.Repins (State.pumpLink n s l) := by
  induction n generalizing s with
  | zero => exact .refl
  | succ n ih =>
    dsimp only [State.pumpLink]
    split
    · exact .refl
    · rename_i f _
      split
      · exact .refl
      · rename_i hsend
        have hactive : (s.landing l).state = .active := by simp at hsend; exact hsend.1
        refine .trans (.trans (.trans (State.repins_setLanding ?_) (State.repins_owe _)) (State.repins_emit _)) ih
        have hp := Landing.paced_carries ((s.landing l).settled ((s.landing l).nextCredit (s.heldBack l))) f
        exact ⟨hp.state, hp.rate, hp.sticky, hp.retrains, hp.failures, fun h => absurd hactive h⟩

theorem State.repins_pump (l : Nat) : s.Repins (s.pump l) := State.repins_pumpLink _ _

theorem State.repins_repin (f : SentFlit) : s.Repins (s.repin f) := by
  dsimp only [State.repin]
  split
  · exact (State.repins_modLanding ⟨rfl, rfl, rfl, rfl, rfl, fun _ => rfl⟩).trans (State.repins_pump _)
  · exact State.repins_stranded _

theorem State.repins_repinAll : s.Repins s.repinAll := by
  refine ((State.repins_stranded []).foldl fun _ => State.repins_repin).foldl fun t l => ?_
  exact (State.repins_modLanding (f := fun x => { x with out := x.out.filter fun f => !(t.moving l).contains f })
    ⟨rfl, rfl, rfl, rfl, rfl, fun _ => rfl⟩).foldl fun _ => State.repins_repin

/-- A link that leaves ACTIVE is in its new state with an empty replay buffer before its flows are pinned anew (R316). -/
theorem State.repins_linkDown (l : Nat) (st : LandingState) :
    (s.setLanding l { s.landing l with state := st, replay := [], out := [] }).Repins (s.linkDown l st) :=
  (State.Repins.refl.foldl fun _ => State.repins_repin).trans State.repins_repinAll

theorem State.landing_linkDown (l : Nat) (st : LandingState) :
    ({ s.landing l with state := st, replay := [], out := [] } : Landing).Carries ((s.linkDown l st).landing l) := by
  have h := (State.repins_linkDown (s := s) l st).landing l
  rwa [State.landing_setLanding] at h

/-- A record leaves the Landings. -/
@[simp] theorem State.landing_logEvent (r : LogReq) (l : Nat) : (s.logEvent r).landing l = s.landing l := by
  unfold State.landing
  rw [State.logEvent_landings]

/-- A link that has failed, the rate of its saved results and its sticky bits but RETRAIN_FAIL kept; LINK_DOWN is the last notice (R307, R323). -/
theorem State.linkFailed_spec (s : State) (l : Nat) :
    ((s.linkFailed l).landing l).state = .failed ∧ ((s.linkFailed l).landing l).rate = (s.landing l).rate ∧
      ((s.linkFailed l).landing l).sticky = { (s.landing l).sticky with retrainFail := true } ∧
      Notice.mk 0 0xf004 (BitVec.ofNat 64 l) ∈ (s.linkFailed l).noticeQ := by
  have h := State.landing_linkDown (s := s) l .failed
  unfold State.linkFailed
  generalize s.linkDown l .failed = d at h
  generalize hq : (d.modLanding l fun x => { x with sticky := { x.sticky with retrainFail := true } }) = t
  have hl : t.landing l = { d.landing l with sticky := { (d.landing l).sticky with retrainFail := true } } := by
    rw [← hq, State.landing_modLanding]
  have hn (r : LogReq) (v : Word64) : ((t.logEvent r).notify 0 0xf004 v).landing l = t.landing l := State.landing_logEvent r l
  rw [hn, hl]
  exact ⟨h.state, h.rate, congrArg (fun k : LandingSticky => { k with retrainFail := true }) h.sticky,
    List.mem_append_right _ (List.mem_singleton_self _)⟩

/-! ## A link that enters ACTIVE -/

/-- What R306 and log entry 40 begin anew on a link that enters ACTIVE. -/
def Landing.up (x : Landing) : Landing :=
  { x with state := .active, txSeq := 0, rxSeq := 0xffff, nakSent := false, unacked := 0, replay := [], credits := fullCredits, owed := {}
           recent := [], failures := 0, fullRateFails := 0, saved := true, rxFlits := 0, cwBad := false, uncorrAt := [] }

/-- The flits of a Landing hold no buffer of a link. -/
def Landing.offLink (l : Nat) (x : Landing) : Landing :=
  { x with out := x.out.map (SentFlit.offLink l), parked := x.parked.map (SentFlit.offLink l) }

/-- The state in which a link has entered ACTIVE and nothing has been sent. -/
def State.upState (s : State) (l : Nat) : State :=
  let t := s.modLanding l Landing.up
  { t with
    dies := t.dies.mapV fun _ x => x.offLink l, stranded := t.stranded.map (SentFlit.offLink l)
    landings := t.landings.mapV fun _ x => x.offLink l }

theorem State.linkUp_eq (s : State) (l : Nat) : s.linkUp l = ((s.upState l).pump l).repinAll := rfl

theorem State.landing_upState (s : State) (l k : Nat) : (s.upState l).landing k = ((s.modLanding l Landing.up).landing k).offLink l :=
  Tab.get_mapV _ _ rfl

/-- A link that has entered ACTIVE is so, at its rate and without failures. -/
theorem State.linkUp_spec (s : State) (l : Nat) :
    ((s.linkUp l).landing l).state = .active ∧ ((s.linkUp l).landing l).failures = 0 ∧
      ((s.linkUp l).landing l).rate = (s.landing l).rate := by
  have h := ((State.repins_pump (s := s.upState l) l).trans State.repins_repinAll).landing l
  rw [State.landing_upState, State.landing_modLanding] at h
  exact ⟨h.state, h.failures, h.rate⟩

/-- Where no flit waits, pinning anew leaves every Landing. -/
theorem State.repinAll_of_empty (h : s.linksEmpty) :
    s.repinAll = { s with landings := s.repinAll.landings } ∧ ∀ k, s.repinAll.landing k = s.landing k := by
  have hs : s.repinAll = (List.range (3 * s.dieCount)).foldl (fun u l =>
      let m := u.moving l
      m.foldl State.repin (u.modLanding l fun x => { x with out := x.out.filter fun f => !m.contains f })) s := by
    have he : ({ s with stranded := [] } : State) = s := by rw [← h.1]
    unfold State.repinAll
    rw [h.1, he]
    rfl
  rw [hs]
  refine List.foldlRecOn (motive := fun t : State => t = { s with landings := t.landings } ∧ ∀ k, t.landing k = s.landing k) _ _ ⟨rfl, fun _ => rfl⟩ ?_
  rintro t ⟨hf, hl⟩ l -
  have hout : (t.landing l).out = [] := by rw [hl]; exact (h.2 l).1
  have hm : t.moving l = [] := by simp [State.moving, hout]
  simp only [hm, List.foldl_nil]
  refine ⟨?_, fun k => ?_⟩
  · conv_lhs => rw [hf]
    rfl
  · by_cases hk : k = l
    · subst hk
      rw [State.landing_modLanding, ← hl]
      have he : ({ t.landing k with out := [] } : Landing) = t.landing k := by rw [← hout]
      simpa [hout] using he
    · exact (Tab.get_set_ne _ _ _ hk).trans (hl k)

theorem Landing.offLink_of_empty {x : Landing} (l : Nat) (ho : x.out = []) (hp : x.parked = []) : x.offLink l = x := by
  cases x
  subst ho hp
  rfl

/-- Where no flit waits, a link enters ACTIVE and nothing else happens. -/
theorem State.linkUp_of_empty (h : s.linksEmpty) (l : Nat) :
    (s.linkUp l).landing l = (s.landing l).up ∧ (∀ k, k ≠ l → (s.linkUp l).landing k = s.landing k) ∧
      s.linkUp l = { s with landings := (s.linkUp l).landings, dies := (s.linkUp l).dies } := by
  have hsame : (s.upState l).landing l = (s.landing l).up := by
    rw [State.landing_upState, State.landing_modLanding]
    exact Landing.offLink_of_empty l (h.2 l).1 (h.2 l).2
  have hother : ∀ k, k ≠ l → (s.upState l).landing k = s.landing k := fun k hk => by
    rw [State.landing_upState, show (s.modLanding l Landing.up).landing k = s.landing k from Tab.get_set_ne _ _ _ hk]
    exact Landing.offLink_of_empty l (h.2 k).1 (h.2 k).2
  have hstr : (s.upState l).stranded = s.stranded := by
    show s.stranded.map (SentFlit.offLink l) = s.stranded
    rw [h.1, List.map_nil]
  have hempty : (s.upState l).linksEmpty := by
    refine ⟨hstr.trans h.1, fun k => ?_⟩
    by_cases hk : k = l
    · rw [hk, hsame]
      exact h.2 l
    · rw [hother k hk]
      exact h.2 k
  have hpump : (s.upState l).pump l = s.upState l := by
    unfold State.pump
    rw [(hempty.2 l).1]
    rfl
  obtain ⟨hf, hl⟩ := State.repinAll_of_empty hempty
  rw [State.linkUp_eq, hpump]
  refine ⟨(hl l).trans hsame, fun k hk => (hl k).trans (hother k hk), ?_⟩
  have hup : s.upState l = { s with landings := (s.upState l).landings, dies := (s.upState l).dies } := by
    rw [show s.upState l = { s with
      landings := (s.upState l).landings, dies := (s.upState l).dies, stranded := (s.upState l).stranded } from rfl, hstr]
  have hd : (s.upState l).repinAll.dies = (s.upState l).dies := (congrArg State.dies hf :)
  rw [hd]
  exact hf.trans (congrArg (fun t : State => { t with landings := (s.upState l).repinAll.landings }) hup)

/-! ## A far end that was reset (R330) -/

/-- Keys that a filter leaves out are not listed. -/
theorem Tab.find_keep_none {α : Type} (t : Tab α) {p : Nat → α → Bool} {k : Nat} (h : ∀ v, p k v = false) : (t.keep p).find k = none := by
  cases hf : (t.keep p).find k with
  | none => rfl
  | some v =>
    have hm : (k, v) ∈ t.cells.filter fun c => p c.1 c.2 := Tab.find_mem _ hf
    have hp := (List.mem_filter.1 hm).2
    rw [h v] at hp
    exact absurd hp (by decide)

/-- The state without the flows of a package, before its receive buffers are given back. -/
def State.withoutFlows (s : State) (c : BitVec 15) : State :=
  { s with
    dies := s.dies.mapV fun _ x => x.forgetPeer c
    landings := s.landings.mapV fun _ x =>
      { x with out := x.out.filter fun f => f.packet.dst != c, parked := x.parked.filter fun f => f.packet.src != c }
    cut := s.cut.filter fun p => p.src != c && p.dst != c
    stranded := s.stranded.filter fun f => f.packet.dst != c }

theorem State.repins_forgetPeer (c : BitVec 15) : (s.withoutFlows c).Repins (s.forgetPeer c) := State.repins_owe _

theorem State.landing_forgetPeer (c : BitVec 15) (k : Nat) : (s.landing k).Carries ((s.forgetPeer c).landing k) := by
  refine .trans ?_ ((State.repins_forgetPeer c).landing k)
  rw [show (s.withoutFlows c).landing k = _ from Tab.get_mapV _ _ rfl]
  exact ⟨rfl, rfl, rfl, rfl, rfl, fun _ => rfl⟩

theorem State.Repins.die {t : State} (h : s.Repins t) (d : Nat) : t.die d = s.die d := by
  have hd : t.dies = s.dies := (congrArg State.dies h.frame :)
  unfold State.die
  rw [hd]

theorem State.die_forgetPeer (c : BitVec 15) (d : Nat) : (s.forgetPeer c).die d = (s.die d).forgetPeer c := by
  rw [(State.repins_forgetPeer c).die]
  exact Tab.get_mapV _ _ rfl

/-- An ACTIVE link stays as it is, but for its flits, when its far end is found to have been reset. -/
theorem State.landing_retrainFrom {l : Nat} (h : (s.landing l).state = .active) (g : RetrainTrigger) :
    (s.landing l).Carries ((s.retrainFrom l g).landing l) := by
  unfold State.retrainFrom
  split
  · refine .trans ?_ (State.landing_forgetPeer ..)
    rw [State.landing_modLanding]
    exact ⟨rfl, rfl, rfl, rfl, rfl, fun hn => absurd h hn⟩
  · exact .refl

theorem State.die_linkDown (l : Nat) (st : LandingState) (d : Nat) : (s.linkDown l st).die d = s.die d := (State.repins_linkDown l st).die d

/-- A link that a trigger takes out of ACTIVE (R307). -/
def State.retrainState (s : State) (l : Nat) : State :=
  ((s.setLanding l { s.landing l with retrains := satAdd (s.landing l).retrains 1, failures := 0 }).linkDown l .retrain).logEvent
    { cls := 4, severity := 1, die := linkDie l, place := linkPort l, event := 1 }

theorem execRetrain_of_triggered {l : Nat} {g : RetrainTrigger} (ok : Bool) (h : (s.landing l).state = .active)
    (ht : (s.landing l).triggered s.clock g = true) : execRetrain l g ok s = .next ((s.retrainFrom l g).retrainState l) := by
  have hs : ((s.retrainFrom l g).landing l).state = .active := (State.landing_retrainFrom h g).state.trans h
  have hg : ((s.retrainFrom l g).landing l).triggered (s.retrainFrom l g).clock g = true := by
    cases g with
    | farReset => rfl
    | uncorrectable | alignment | replayLimit | request => exact ht
  unfold execRetrain State.retrainState
  generalize s.retrainFrom l g = u at hs hg
  simp only [hs, hg, if_true]

theorem State.landing_retrainState (s : State) (l : Nat) :
    ((s.retrainState l).landing l).state = .retrain ∧ ((s.retrainState l).landing l).replay = [] ∧
      ((s.retrainState l).landing l).retrains = satAdd (s.landing l).retrains 1 := by
  unfold State.retrainState
  rw [State.landing_logEvent]
  have h := State.landing_linkDown (s := s.setLanding l { s.landing l with retrains := satAdd (s.landing l).retrains 1, failures := 0 }) l .retrain
  rw [State.landing_setLanding] at h
  exact ⟨h.state, h.replay (fun e => LandingState.noConfusion e), h.retrains⟩

theorem State.die_retrainState (s : State) (l d : Nat) : ∃ b : LogBlock, (s.retrainState l).die d = { s.die d with log := b } := by
  unfold State.retrainState
  generalize hu : s.setLanding l _ = u
  have hd : u.die d = s.die d := by
    subst hu
    rfl
  obtain ⟨b, hb⟩ := State.logEvent_die (u.linkDown l .retrain) { cls := 4, severity := 1, die := linkDie l, place := linkPort l, event := 1 } d
  rw [State.die_linkDown, hd] at hb
  exact ⟨b, hb⟩

/-- The flows with the package at the far end are gone from every die (R330). -/
theorem State.flows_farReset_retrainState (s : State) (l d k : Nat) (hk : k / 32 = (s.landing l).peer.toNat) :
    (((s.farReset l).retrainState l).die d).flowsIn.find k = none ∧ (((s.farReset l).retrainState l).die d).flowsOut.find k = none := by
  obtain ⟨b, hb⟩ := State.die_retrainState (s.farReset l) l d
  have hf : (s.farReset l).die d = (s.die d).forgetPeer (s.landing l).peer := State.die_forgetPeer ..
  rw [hb, hf]
  exact ⟨Tab.find_keep_none _ fun _ => by simp [hk], Tab.find_keep_none _ fun _ => by simp [hk]⟩

/-! ## What TRAIN and RETRAIN do -/

theorem exec_landingDetect (l : Nat) (s : State) : exec (.landingDetect l) s = execLandingDetect l s := rfl
theorem exec_train (l : Nat) (o : TrainOutcome) (s : State) : exec (.train l o) s = execTrain l o s := rfl
theorem exec_retrain (l : Nat) (g : RetrainTrigger) (ok : Bool) (s : State) : exec (.retrain l g ok) s = execRetrain l g ok s := rfl

theorem execLandingDetect_of_detect {l : Nat} (h : (s.landing l).state = .detect) :
    execLandingDetect l s = .next (s.setLanding l { s.landing l with state := .train, fullRateFails := 0 }) := if_pos h

/-- The state of a link that has locked and sent its identity, with the far end that answered (R306). -/
def State.lockedTo (s : State) (l : Nat) (p : PeerId) : State :=
  (s.emit (.identity l (s.identityOf l))).setLanding l { s.landing l with
    rate := if (s.landing l).halfRate then 1 else 2, peer := p.coord, peerDie := p.die, peerPort := p.port }

/-- The state of a link whose far end is not the one that R306 asks for, before the link fails. -/
def State.miswired (s : State) (l : Nat) : State :=
  ((s.emit (.identity l (s.identityOf l))).setLanding l { s.landing l with sticky := { (s.landing l).sticky with wiring := true } }).logEvent
    { cls := 4, severity := 2, die := linkDie l, place := linkPort l, event := 3 }

section
variable {l : Nat} (h : (s.landing l).state = .train)
include h

theorem execTrain_of_peerOk {p : PeerId} (hp : s.peerOk l p = true) :
    execTrain l (.locked (s.landing l).halfRate p) s = .next ((s.lockedTo l p).linkUp l) := by
  simp [execTrain, h, hp, State.lockedTo]

theorem execTrain_of_wrong_peer {p : PeerId} (hp : s.peerOk l p = false) :
    execTrain l (.locked (s.landing l).halfRate p) s = .next ((s.miswired l).linkFailed l) := by
  simp [execTrain, h, hp, State.miswired]

theorem execTrain_noLock_full (hr : (s.landing l).halfRate = false) :
    execTrain l .noLock s = .next (s.setLanding l { s.landing l with fullRateFails := (s.landing l).fullRateFails + 1 }) := by
  simp [execTrain, h, hr]

theorem execTrain_noLock_half (hr : (s.landing l).halfRate = true) : execTrain l .noLock s = .next (s.linkFailed l) := by
  simp [execTrain, h, hr]
end

/-- A trigger that does not hold leaves an ACTIVE link. -/
theorem execRetrain_of_not_triggered {l : Nat} {g : RetrainTrigger} (ok : Bool) (h : (s.landing l).state = .active)
    (ht : (s.landing l).triggered s.clock g = false) : execRetrain l g ok s = .next s := by
  cases g with
  | farReset => exact absurd ht (by simp [Landing.triggered])
  | uncorrectable | alignment | replayLimit | request => simp [execRetrain, State.retrainFrom, h, ht]

/-- In RETRAIN the attempt decides, whatever made the link retrain (R307). -/
theorem execRetrain_of_retrain {l : Nat} {g : RetrainTrigger} (ok : Bool) (h : (s.landing l).state = .retrain) (hg : g ≠ .farReset) :
    execRetrain l g ok s =
      if ok then .next ((s.setLanding l { s.landing l with rate := (s.landing l).savedRate }).linkUp l)
      else if 3 ≤ (s.landing l).failures + 1 then .next (s.linkFailed l)
      else .next (s.setLanding l { s.landing l with failures := (s.landing l).failures + 1 }) := by
  have hs : s.retrainFrom l g = s := by
    unfold State.retrainFrom
    split
    exacts [absurd rfl hg, rfl]
  unfold execRetrain
  simp only [hs, h]

section
variable {l : Nat} {g : RetrainTrigger} (h : (s.landing l).state = .retrain) (hg : g ≠ .farReset)
include h hg

theorem execRetrain_success :
    execRetrain l g true s = .next ((s.setLanding l { s.landing l with rate := (s.landing l).savedRate }).linkUp l) := by
  rw [execRetrain_of_retrain true h hg, if_pos rfl]

theorem execRetrain_failure (hf : (s.landing l).failures < 2) :
    execRetrain l g false s = .next (s.setLanding l { s.landing l with failures := (s.landing l).failures + 1 }) := by
  rw [execRetrain_of_retrain false h hg, if_neg Bool.false_ne_true, if_neg (by omega)]

theorem execRetrain_third_failure (hf : 2 ≤ (s.landing l).failures) : execRetrain l g false s = .next (s.linkFailed l) := by
  rw [execRetrain_of_retrain false h hg, if_neg Bool.false_ne_true, if_pos (by omega)]
end

/-- A link that trains to the right far end is ACTIVE, begun anew, and nothing else changes but what holds its buffers and its identity, which has
left (R306, log entry 40). -/
theorem State.linkUp_lockedTo (h : s.linksEmpty) (l : Nat) (p : PeerId) :
    ((s.lockedTo l p).linkUp l).landing l = { s.landing l with
        rate := if (s.landing l).halfRate then 1 else 2, peer := p.coord, peerDie := p.die, peerPort := p.port, state := .active, txSeq := 0
        rxSeq := 0xffff, nakSent := false, unacked := 0, replay := [], credits := fullCredits, owed := {}, recent := []
        failures := 0, fullRateFails := 0, saved := true, rxFlits := 0, cwBad := false, uncorrAt := [] } ∧
      (∀ k, k ≠ l → ((s.lockedTo l p).linkUp l).landing k = s.landing k) ∧
      ((s.lockedTo l p).linkUp l).hostOut = s.hostOut ++ [.identity l (s.identityOf l)] ∧
      (s.lockedTo l p).linkUp l = { s with
        landings := ((s.lockedTo l p).linkUp l).landings, dies := ((s.lockedTo l p).linkUp l).dies, hostOut := ((s.lockedTo l p).linkUp l).hostOut } := by
  have hl : (s.lockedTo l p).landing l = { s.landing l with
      rate := if (s.landing l).halfRate then 1 else 2, peer := p.coord, peerDie := p.die, peerPort := p.port } := State.landing_setLanding ..
  have hk : ∀ k, k ≠ l → (s.lockedTo l p).landing k = s.landing k := fun k hk => Tab.get_set_ne _ _ _ hk
  have he : (s.lockedTo l p).linksEmpty := by
    refine ⟨h.1, fun k => ?_⟩
    by_cases hkl : k = l
    · rw [hkl, hl]
      exact h.2 l
    · rw [hk k hkl]
      exact h.2 k
  obtain ⟨hself, hother, hframe⟩ := State.linkUp_of_empty he l
  refine ⟨by rw [hself, hl]; rfl, fun k hne => (hother k hne).trans (hk k hne), (congrArg State.hostOut hframe :), ?_⟩
  have ho : ((s.lockedTo l p).linkUp l).hostOut = (s.lockedTo l p).hostOut := (congrArg State.hostOut hframe :)
  rw [ho]
  exact hframe

/-- A failed identity check leaves WIRING set on a FAILED link. -/
theorem State.linkFailed_miswired (s : State) (l : Nat) :
    (((s.miswired l).linkFailed l).landing l).state = .failed ∧ (((s.miswired l).linkFailed l).landing l).sticky.wiring = true ∧
      Notice.mk 0 0xf004 (BitVec.ofNat 64 l) ∈ ((s.miswired l).linkFailed l).noticeQ := by
  obtain ⟨hstate, -, hsticky, hnotice⟩ := State.linkFailed_spec (s.miswired l) l
  refine ⟨hstate, ?_, hnotice⟩
  rw [hsticky]
  unfold State.miswired
  rw [State.landing_logEvent, State.landing_setLanding]
end

end Sys2Proof.Machine
end

