-- ==== Sys2Proof/Proofs/Edges.lean ====
section
/-! Die-to-die edges (R22, R389), and the statement about links and edges. -/

namespace Sys2Proof.Machine

/-! ## What an edge flit does to an edge -/

/-- Flits that are sent move the sender's number and the replay buffer. -/
theorem Edge.foldl_send (l : List (List Byte)) (x : Edge) :
    l.foldl Edge.send x = { x with txSeq := x.txSeq + BitVec.ofNat 12 l.length, kept := (l.foldl Edge.send x).kept } := by
  induction l generalizing x with
  | nil => simp
  | cons b l ih =>
    have hn : x.txSeq + 1 + BitVec.ofNat 12 l.length = x.txSeq + BitVec.ofNat 12 (l.length + 1) := by
      rw [BitVec.add_assoc, show (1 : BitVec 12) = BitVec.ofNat 12 1 from rfl, ← BitVec.ofNat_add, Nat.add_comm]
    rw [List.foldl_cons, ih (x.send b), List.length_cons, ← hn]
    rfl

/-- The replay buffer holds at most 64 flits (R389). -/
theorem Edge.kept_foldl_send (l : List (List Byte)) {x : Edge} (h : x.kept.length ≤ 64) : (l.foldl Edge.send x).kept.length ≤ 64 := by
  induction l generalizing x with
  | nil => exact h
  | cons b l ih => exact ih (by simp only [Edge.send, List.length_drop, List.length_append, List.length_singleton]; omega)

/-- Parity mismatches change the times of mismatches and the failing lanes. -/
theorem Edge.foldl_mismatch (now : Word64) (l : List Nat) (x : Edge) :
    l.foldl (Edge.mismatch now) x = { x with
      parity := (l.foldl (Edge.mismatch now) x).parity, failing := (l.foldl (Edge.mismatch now) x).failing } := by
  refine List.foldlRecOn (motive := fun y : Edge => y = { x with parity := y.parity, failing := y.failing }) l _ rfl fun y hy k _ => ?_
  unfold Edge.mismatch
  split
  · exact hy
  · conv_lhs => rw [hy]

/-- A mismatch of another lane leaves a lane. -/
theorem Edge.mismatch_ne (now : Word64) (x : Edge) {k n : Nat} (h : k ≠ n) :
    (x.mismatch now n).parity.get [] k = x.parity.get [] k ∧ (x.mismatch now n).failing.contains k = x.failing.contains k := by
  unfold Edge.mismatch
  split
  · exact ⟨rfl, rfl⟩
  · refine ⟨Tab.get_set_ne _ _ _ h, ?_⟩
    dsimp only
    split
    · simp [h]
    · rfl

theorem Edge.foldl_mismatch_of_not_mem (now : Word64) {l : List Nat} (x : Edge) {k : Nat} (h : l.contains k = false) :
    (l.foldl (Edge.mismatch now) x).parity.get [] k = x.parity.get [] k ∧
      (l.foldl (Edge.mismatch now) x).failing.contains k = x.failing.contains k := by
  refine List.foldlRecOn (motive := fun y : Edge => y.parity.get [] k = x.parity.get [] k ∧ y.failing.contains k = x.failing.contains k)
    l _ ⟨rfl, rfl⟩ fun y hy n hn => ?_
  have hne : k ≠ n := by
    rintro rfl
    simp [hn] at h
  obtain ⟨hp, hf⟩ := Edge.mismatch_ne now y hne
  exact ⟨hp.trans hy.1, hf.trans hy.2⟩

/-- A mismatch of a lane in service: the 64th in 1 ms marks it failing (R389). -/
theorem Edge.mismatch_same (now : Word64) (x : Edge) {k : Nat} (h : x.failed.contains k = false) {p : List Word64}
    (hp : p = (now :: x.parity.get [] k).take 64) :
    (x.mismatch now k).parity.get [] k = p ∧ (x.mismatch now k).failing.contains k =
      (x.failing.contains k || (decide (64 ≤ p.length) && decide ((now - p.getD 63 0).toNat ≤ ticksPerMs))) := by
  unfold Edge.mismatch
  simp only [h, ← hp]
  refine ⟨Tab.get_set_same .., ?_⟩
  generalize (decide (64 ≤ p.length) && decide ((now - p.getD 63 0).toNat ≤ ticksPerMs)) = bad
  cases bad <;> cases hc : x.failing.contains k <;> simp_all

/-- What comes moves the receiver's number and marks flits as replayed. -/
theorem Edge.receive_frame (x : Edge) (f : EdgeFlit) : x.receive f = { x with rxSeq := (x.receive f).rxSeq, kept := (x.receive f).kept } := by
  unfold Edge.receive
  split
  · rfl
  · split <;> rfl

theorem Edge.length_kept_receive (x : Edge) (f : EdgeFlit) : (x.receive f).kept.length = x.kept.length := by
  unfold Edge.receive
  split
  · rfl
  · split
    · rfl
    · exact List.length_map ..

/-- A flit that is not kept, or was accepted before, changes nothing. -/
theorem Edge.receive_of_old {x : Edge} {f : EdgeFlit}
    (h : (x.kept.any fun k => k.seq == f.seq) = false ∨ 64 ≤ (f.seq - x.rxSeq).toNat) : x.receive f = x := if_pos h

theorem Edge.receive_of_new {x : Edge} {f : EdgeFlit} (hk : (x.kept.any fun k => k.seq == f.seq) = true)
    (hn : (f.seq - x.rxSeq).toNat < 64) :
    x.receive f = if crc32c f.got = f.crc.toNat then { x with rxSeq := f.seq + 1 } else
      { x with rxSeq := f.seq, kept := x.kept.map fun k => if (k.seq - f.seq).toNat < 64 then { k with tries := k.tries + 1 } else k } := by
  unfold Edge.receive
  rw [if_neg (not_or.2 ⟨by simp [hk], Nat.not_le.2 hn⟩)]

/-! ## Reading an edge of the state -/

section
variable {s : State}

@[simp] theorem State.edge_modEdge (e : EdgeRef) (f : Edge → Edge) : (s.modEdge e f).edge e = f (s.edge e) := by
  unfold State.edge State.modEdge
  rw [State.die_modDie]
  exact Tab.get_set_same ..

/-- A record leaves the edges. -/
@[simp] theorem State.edge_logEvent (r : LogReq) (e : EdgeRef) : (s.logEvent r).edge e = s.edge e := by
  obtain ⟨b, hb⟩ := s.logEvent_die r e.die
  unfold State.edge
  rw [hb]

theorem exec_edgeReplay (f : EdgeFlit) (s : State) : exec (.edgeReplay f) s = execEdgeReplay f s := rfl
theorem exec_edgeRetrain (e : EdgeRef) (ok : Bool) (s : State) : exec (.edgeRetrain e.die e.dir ok) s = execEdgeRetrain e.die e.dir ok s := rfl

/-- The edge after an edge flit. -/
def Edge.afterFlit (x : Edge) (now : Word64) (f : EdgeFlit) : Edge := (f.lanes.foldl (Edge.mismatch now) (f.sent.foldl Edge.send x)).receive f

theorem execEdgeReplay_of_live {f : EdgeFlit} (h : s.edgeLive f.edge = true) :
    execEdgeReplay f s = .next (s.modEdge f.edge fun x => x.afterFlit s.clock f) := if_pos h

/-! ## Retrains of an edge -/

/-- A lane is taken out. -/
theorem State.edge_spareLane (e : EdgeRef) (n : Nat) :
    (s.spareLane e n).edge e = { s.edge e with failed := (s.edge e).failed ++ [n] } := by
  unfold State.spareLane
  dsimp only
  split
  · simp
  · split <;> simp

theorem State.edge_foldl_spareLane (e : EdgeRef) (l : List Nat) :
    (l.foldl (State.spareLane e) s).edge e = { s.edge e with failed := (s.edge e).failed ++ l } := by
  induction l generalizing s with
  | nil => simp
  | cons n l ih => rw [List.foldl_cons, ih, State.edge_spareLane, List.append_assoc, List.singleton_append]

theorem State.edge_edgeTrained (s : State) (e : EdgeRef) :
    (s.edgeTrained e).edge e = { s.edge e with
      failed := (s.edge e).failed ++ (s.edge e).failing, failing := []
      parity := (s.edge e).parity.keep fun l _ => !(s.edge e).failing.contains l, retrainFails := 0
      kept := (s.edge e).kept.map fun k => { k with tries := 0 } } := by
  unfold State.edgeTrained
  rw [State.edge_logEvent, State.edge_modEdge, State.edge_foldl_spareLane]

theorem State.log_modEdge (e : EdgeRef) (f : Edge → Edge) : ((s.modEdge e f).die e.die).log = (s.die e.die).log := by
  unfold State.modEdge
  rw [State.die_modDie]

/-- A change of an edge holds no record of its die back. -/
theorem State.suppressed_modEdge (e : EdgeRef) (f : Edge → Edge) {q : LogReq} (hq : q.die = e.die) :
    (s.modEdge e f).suppressed q = s.suppressed q := by
  rw [Bool.eq_iff_iff, State.suppressed_iff, State.suppressed_iff, hq, State.log_modEdge]
  rfl

/-- The first two lanes of a group to be taken out are recorded (R22). -/
theorem State.spareLane_eq {e : EdgeRef} {k n : Nat} (hn : n = ((s.edge e).failed.filter fun i => i / 9 == k / 9).length) (h1 : n ≤ 1) :
    s.spareLane e k =
      (s.modEdge e fun x => { x with failed := x.failed ++ [k] }).logEvent (edgeRecord e 1 (if n = 0 then 1 else 2) (k / 9)) := by
  unfold State.spareLane
  rw [← hn]
  obtain rfl | rfl : n = 0 ∨ n = 1 := by omega
  · rfl
  · rfl

/-- The record of a lane that is taken out stands in the Logbook, and holds back that of the retrain (R22, R400). -/
theorem State.logRing_edgeTrained {e : EdgeRef} {k n : Nat} (hk : (s.edge e).failing = [k])
    (hn : n = ((s.edge e).failed.filter fun i => i / 9 == k / 9).length) (h1 : n ≤ 1) (hroom : s.logRoom s.logNext = true)
    (hsup : s.suppressed { cls := 5, severity := 1, die := e.die, place := e.dir, event := 1 } = false) :
    ((s.edgeTrained e).logRing.find (s.logNext.toNat % 1920)).map (fun r => (r.event, r.detail)) =
      some (if n = 0 then 1 else 2, BitVec.ofNat 32 (k / 9)) := by
  unfold State.edgeTrained
  rw [hk, List.foldl_cons, List.foldl_nil, State.spareLane_eq hn h1]
  generalize ht : (s.modEdge e fun x => { x with failed := x.failed ++ [k] }) = t
  have hfirst : t.suppressed (edgeRecord e 1 (if n = 0 then 1 else 2) (k / 9)) = false :=
    ht ▸ (State.suppressed_modEdge e _ rfl).trans hsup
  have hnext : t.logNext = s.logNext := ht ▸ rfl
  have hfind := State.logEvent_find t hfirst (ht ▸ hroom)
  have hsecond : (t.logEvent (edgeRecord e 1 (if n = 0 then 1 else 2) (k / 9))).suppressed (edgeRecord e 1 3 0) = true :=
    State.suppressed_logEvent t rfl rfl rfl rfl
  generalize t.logEvent (edgeRecord e 1 (if n = 0 then 1 else 2) (k / 9)) = u at hfind hsecond
  rw [State.logEvent_logRing_of_suppressed _ ((State.suppressed_modEdge e _ rfl).trans hsecond)]
  rw [← hnext, show (u.modEdge e _).logRing = u.logRing from rfl, hfind]
  simp only [Option.map_some, LogReq.record, edgeRecord]
  split <;> rfl

section
variable {e : EdgeRef} (hl : s.edgeLive e = true) (hd : (s.edge e).due = true)
include hl hd

theorem execEdgeRetrain_success : execEdgeRetrain e.die e.dir true s = .next (s.edgeTrained e) := by
  simp [execEdgeRetrain, hl, hd]

theorem execEdgeRetrain_failure (hf : (s.edge e).retrainFails < 2) :
    execEdgeRetrain e.die e.dir false s =
      .next ((s.logEvent (edgeRecord e 1 3 0)).modEdge e fun y => { y with retrainFails := y.retrainFails + 1 }) := by
  have h3 : ¬3 ≤ (s.edge e).retrainFails + 1 := by omega
  simp only [execEdgeRetrain, hl, hd, if_neg h3]
  rfl

/-- The third failure in succession loses the edge. -/
theorem execEdgeRetrain_third_failure (hf : 2 ≤ (s.edge e).retrainFails) :
    execEdgeRetrain e.die e.dir false s =
      .next (((s.logEvent (edgeRecord e 1 3 0)).modEdge e fun y => { y with retrainFails := 3, lost := true }).logEvent (edgeRecord e 3 4 0)) := by
  have h3 : 3 ≤ (s.edge e).retrainFails + 1 := by omega
  simp only [execEdgeRetrain, hl, hd, if_pos h3]
  rfl
end

theorem execEdgeRetrain_of_not_due {e : EdgeRef} (hd : (s.edge e).due = false) (ok : Bool) : execEdgeRetrain e.die e.dir ok s = .next s :=
  if_pos (.inr hd)

/-! ## The statement -/

/-- A flit that comes over a live edge (R389). -/
theorem edgeReplay_clause {e : EdgeRef} {f : EdgeFlit} {y : Edge} (h : s.edgeLive e = true) (hf : f.edge = e)
    (hy : y = f.sent.foldl Edge.send (s.edge e)) :
    ∃ t, exec (.edgeReplay f) s = .next t ∧ t = { s with dies := t.dies } ∧
      (t.edge e).txSeq = (s.edge e).txSeq + BitVec.ofNat 12 f.sent.length ∧ ((s.edge e).kept.length ≤ 64 → (t.edge e).kept.length ≤ 64) ∧
      ((y.kept.any fun k => k.seq == f.seq) = true → (f.seq - (s.edge e).rxSeq).toNat < 64 →
        (crc32c f.got = f.crc.toNat → (t.edge e).rxSeq = f.seq + 1 ∧ (t.edge e).kept = y.kept) ∧
        (crc32c f.got ≠ f.crc.toNat → (t.edge e).rxSeq = f.seq ∧
          (t.edge e).kept = y.kept.map fun k => if (k.seq - f.seq).toNat < 64 then { k with tries := k.tries + 1 } else k)) ∧
      ((y.kept.any fun k => k.seq == f.seq) = false ∨ 64 ≤ (f.seq - (s.edge e).rxSeq).toNat →
        (t.edge e).rxSeq = (s.edge e).rxSeq ∧ (t.edge e).kept = y.kept) ∧
      (∀ k, f.lanes.contains k = false → (t.edge e).parity.get [] k = (s.edge e).parity.get [] k ∧
        (t.edge e).failing.contains k = (s.edge e).failing.contains k) ∧
      (∀ k p, f.lanes = [k] → (s.edge e).failed.contains k = false → p = (s.clock :: (s.edge e).parity.get [] k).take 64 →
        (t.edge e).parity.get [] k = p ∧
        (t.edge e).failing.contains k =
          ((s.edge e).failing.contains k || (decide (64 ≤ p.length) && decide ((s.clock - p.getD 63 0).toNat ≤ ticksPerMs)))) := by
  subst hf
  refine ⟨_, execEdgeReplay_of_live h, rfl, ?_⟩
  rw [State.edge_modEdge]
  generalize s.edge f.edge = v at hy
  have hsent : y = { v with txSeq := v.txSeq + BitVec.ofNat 12 f.sent.length, kept := y.kept } := by
    rw [hy]
    exact Edge.foldl_send ..
  obtain ⟨z, hz⟩ : ∃ z, z = f.lanes.foldl (Edge.mismatch s.clock) y := ⟨_, rfl⟩
  have hflit : v.afterFlit s.clock f = z.receive f := by rw [hz, hy]; rfl
  have hmarks : z = { y with parity := z.parity, failing := z.failing } := by
    rw [hz]
    exact Edge.foldl_mismatch ..
  have hseq : z.rxSeq = v.rxSeq := by rw [hmarks, hsent]
  have hkept : z.kept = y.kept := by rw [hmarks]
  have hparity : (z.receive f).parity = z.parity := by rw [Edge.receive_frame]
  have hfailing : (z.receive f).failing = z.failing := by rw [Edge.receive_frame]
  have hvp : v.parity = y.parity := by rw [hsent]
  have hvf : v.failing = y.failing := by rw [hsent]
  rw [hflit, hparity, hfailing, hvp, hvf, hz]
  refine ⟨?_, fun hl => ?_, fun hk hn => ?_, fun ho => ?_, fun k hk => Edge.foldl_mismatch_of_not_mem _ _ hk, fun k p hlanes hfd hp => ?_⟩
  · rw [← hz, Edge.receive_frame, hmarks, hsent]
  · rw [← hz, Edge.length_kept_receive, hkept, hy]
    exact Edge.kept_foldl_send _ hl
  · rw [← hz, Edge.receive_of_new (by rwa [hkept]) (by rwa [hseq]), hkept]
    exact ⟨fun hc => by rw [if_pos hc]; exact ⟨rfl, rfl⟩, fun hc => by rw [if_neg hc]; exact ⟨rfl, rfl⟩⟩
  · rw [← hz, Edge.receive_of_old (by rwa [hkept, hseq])]
    exact ⟨hseq, hkept⟩
  · rw [hlanes]
    exact Edge.mismatch_same _ _ (by rw [hsent]; exact hfd) hp

/-- A retrain of a live edge that is due (R22, R389). -/
theorem edgeRetrain_clause {e : EdgeRef} (hl : s.edgeLive e = true) (hd : (s.edge e).due = true) :
    (∃ t, exec (.edgeRetrain e.die e.dir true) s = .next t ∧ (t.edge e).retrainFails = 0 ∧ (t.edge e).failing = [] ∧
      (t.edge e).failed = (s.edge e).failed ++ (s.edge e).failing ∧ (t.edge e).kept = (s.edge e).kept.map (fun k => { k with tries := 0 }) ∧
      (∀ k n, (s.edge e).failing = [k] → n = ((s.edge e).failed.filter fun i => i / 9 == k / 9).length → n ≤ 1 → s.logRoom s.logNext = true →
        s.suppressed { cls := 5, severity := 1, die := e.die, place := e.dir, event := 1 } = false →
        (t.logRing.find (s.logNext.toNat % 1920)).map (fun r => (r.event, r.detail)) = some (if n = 0 then 1 else 2, BitVec.ofNat 32 (k / 9)))) ∧
    ((s.edge e).retrainFails < 2 →
      ∃ t, exec (.edgeRetrain e.die e.dir false) s = .next t ∧ t.edge e = { s.edge e with retrainFails := (s.edge e).retrainFails + 1 }) ∧
    (2 ≤ (s.edge e).retrainFails →
      ∃ t, exec (.edgeRetrain e.die e.dir false) s = .next t ∧ (t.edge e).lost = true ∧ (t.edge e).retrainFails = 3 ∧ t.ident.state = .undefined) := by
  refine ⟨⟨s.edgeTrained e, execEdgeRetrain_success hl hd, ?_⟩, fun hf => ?_, fun hf => ?_⟩
  · rw [State.edge_edgeTrained]
    exact ⟨rfl, rfl, rfl, rfl, fun k n hk hn h1 => State.logRing_edgeTrained hk hn h1⟩
  · refine ⟨_, execEdgeRetrain_failure hl hd hf, ?_⟩
    rw [State.edge_modEdge, State.edge_logEvent]
  · refine ⟨_, execEdgeRetrain_third_failure hl hd hf, ?_⟩
    rw [State.edge_logEvent, State.edge_modEdge]
    exact ⟨rfl, rfl, State.logEvent_fatal _ rfl⟩

/-- Settles O40: each meaning is one of the equations above, and what it leaves of a link or an edge is read off `State.Repins` and the laws of
`Edge`. -/
theorem landingsTrainRetrainAndFail : Obligations.LandingsTrainRetrainAndFail := by
  unfold Obligations.LandingsTrainRetrainAndFail
  rintro s l x rfl
  refine ⟨execLandingDetect_of_detect, fun p h => ⟨fun he hp => ?_, fun hp => ?_, execTrain_noLock_full h, fun hr => ?_⟩,
    fun g ok h ht => execRetrain_of_not_triggered ok h ht, fun g h ht ok => ?_, fun ok h => ?_, fun g h hg => ⟨?_, execRetrain_failure h hg, fun hf => ?_⟩, ?_⟩
  · exact ⟨_, execTrain_of_peerOk h hp, State.linkUp_lockedTo he l p⟩
  · exact ⟨_, execTrain_of_wrong_peer h hp, State.linkFailed_miswired s l⟩
  · obtain ⟨hstate, hrate, -, hnotice⟩ := State.linkFailed_spec s l
    exact ⟨_, execTrain_noLock_half h hr, hstate, hrate, hnotice⟩
  · obtain ⟨hstate, hreplay, hcount⟩ := State.landing_retrainState (s.retrainFrom l g) l
    exact ⟨_, execRetrain_of_triggered ok h ht, hstate, hreplay, by rw [hcount, (State.landing_retrainFrom h g).retrains]⟩
  · exact ⟨_, execRetrain_of_triggered ok h rfl, fun d k hk => State.flows_farReset_retrainState s l d k hk⟩
  · obtain ⟨hstate, hfails, hrate⟩ := State.linkUp_spec (s.setLanding l { s.landing l with rate := (s.landing l).savedRate }) l
    exact ⟨_, execRetrain_success h hg, hstate, hfails, by rw [hrate, State.landing_setLanding]⟩
  · exact ⟨_, execRetrain_third_failure h hg hf, (State.linkFailed_spec s l).1⟩
  · rintro e v rfl hlive
    exact ⟨fun f y hf hy => edgeReplay_clause hlive hf hy, fun ok hd => execEdgeRetrain_of_not_due hd ok, edgeRetrain_clause hlive⟩
end

end Sys2Proof.Machine
end

