-- ==== Sys2Proof/Proofs/Scrubs.lean ====
section
/-! Stopping and scrubbing jobs (R187, R270, R355) touches neither the pins nor the Landings. `State.SamePorts` says that; the lemmas follow the
operations in the order of the model. -/

namespace Sys2Proof.Machine

/-- The pins and the Landings are as they were. -/
structure State.SamePorts (s t : State) : Prop where
  pins : t.pins = s.pins
  landings : t.landings = s.landings

section
variable {s₀ s t : State}

theorem State.SamePorts.refl : s.SamePorts s := ⟨rfl, rfl⟩

/-- A change of other fields. -/
theorem State.SamePorts.set (hs : s₀.SamePorts s) (hp : t.pins = s.pins) (hl : t.landings = s.landings) : s₀.SamePorts t :=
  ⟨hp.trans hs.pins, hl.trans hs.landings⟩

theorem State.SamePorts.ite {c : Prop} {_ : Decidable c} (hs : s₀.SamePorts s) (ht : s₀.SamePorts t) : s₀.SamePorts (if c then s else t) := by
  split <;> assumption

theorem State.SamePorts.foldl {α : Type} {f : State → α → State} {l : List α} (hs : s₀.SamePorts s)
    (hf : ∀ t x, s₀.SamePorts t → s₀.SamePorts (f t x)) : s₀.SamePorts (l.foldl f s) :=
  List.foldlRecOn l f hs fun t ht x _ => hf t x ht

theorem State.SamePorts.modHamlet {m : HamletRef} {f : Hamlet → Hamlet} (hs : s₀.SamePorts s) : s₀.SamePorts (s.modHamlet m f) := hs.set rfl rfl

theorem State.SamePorts.modParish {p : ParishRef} {f : Parish → Parish} (hs : s₀.SamePorts s) : s₀.SamePorts (s.modParish p f) := hs.set rfl rfl

theorem State.SamePorts.modPorter {p : PorterRef} {f : Porter → Porter} (hs : s₀.SamePorts s) : s₀.SamePorts (s.modPorter p f) :=
  hs.set (State.modPorter_pins ..) (State.modPorter_landings ..)

theorem State.SamePorts.modTally {u : TallyRef} {f : Tally → Tally} (hs : s₀.SamePorts s) : s₀.SamePorts (s.modTally u f) :=
  hs.set (State.modTally_pins ..) (State.modTally_landings ..)

theorem State.SamePorts.modDie {d : Nat} {f : Die → Die} (hs : s₀.SamePorts s) : s₀.SamePorts (s.modDie d f) := hs.set rfl rfl

theorem State.SamePorts.modJob {n : Nat} {f : Job → Job} (hs : s₀.SamePorts s) : s₀.SamePorts (s.modJob n f) :=
  hs.set (State.modJob_pins ..) (State.modJob_landings ..)

theorem State.SamePorts.fresh (hs : s₀.SamePorts s) : s₀.SamePorts s.fresh.2 := hs.set rfl rfl

theorem State.SamePorts.freshBytes {n : Nat} (hs : s₀.SamePorts s) : s₀.SamePorts (s.freshBytes n).2 := hs.set rfl rfl

theorem State.SamePorts.logEvent {r : LogReq} (hs : s₀.SamePorts s) : s₀.SamePorts (s.logEvent r) :=
  hs.set (State.logEvent_pins ..) (State.logEvent_landings ..)

/-! ## Memory -/

theorem State.SamePorts.rouse (hs : s₀.SamePorts s) : s₀.SamePorts s.rouse := by
  unfold State.rouse
  split
  exacts [hs.set rfl rfl, hs]

theorem State.SamePorts.wake {m : HamletRef} (hs : s₀.SamePorts s) : s₀.SamePorts (s.wake m) := by
  dsimp only [State.wake]
  split
  · exact hs
  · split
    · exact hs
    · exact (hs.set rfl rfl : s₀.SamePorts ((s.zeroSram _ _).setHamlet m _)).rouse
    · exact (hs.set rfl rfl : s₀.SamePorts (s.setHamlet m _)).rouse

theorem State.SamePorts.wakeFor {a : Nat} (hs : s₀.SamePorts s) : s₀.SamePorts (s.wakeFor a) := by
  unfold State.wakeFor
  split
  exacts [hs.wake, hs]

theorem State.SamePorts.touch {a n : Nat} {write alloc : Bool} (hs : s₀.SamePorts s) : s₀.SamePorts (s.touch a n write alloc) := by
  unfold State.touch
  split
  exacts [hs, hs.foldl fun _ _ ht => ht.modParish]

theorem State.SamePorts.markBlock {b : Nat} (hs : s₀.SamePorts s) : s₀.SamePorts (s.markBlock b) := by
  unfold State.markBlock
  split
  exacts [hs, hs.set rfl rfl]

theorem State.SamePorts.poisonAfter {a n : Nat} {poisoned : Bool} (hs : s₀.SamePorts s) : s₀.SamePorts (s.poisonAfter a n poisoned) := by
  unfold State.poisonAfter
  refine .ite (.ite (hs.set rfl rfl) (hs.set rfl rfl)) (.ite (hs.foldl fun _ _ ht => ht.markBlock) (hs.set rfl rfl))

theorem State.SamePorts.storeMem {a : Nat} {d : List Byte} {c : Crypt} {poisoned : Bool} (hs : s₀.SamePorts s) :
    s₀.SamePorts (s.storeMem a d c poisoned) := by
  have hset : s₀.SamePorts { s with mem := s.putBytes a d c } := hs.set rfl rfl
  unfold State.storeMem State.store
  refine .ite hs ?_
  split
  exacts [hs, hset.poisonAfter]

theorem State.SamePorts.storePlaces {ps : List Place} {d : List Byte} {poisoned : Bool} (hs : s₀.SamePorts s) :
    s₀.SamePorts (s.storePlaces ps d poisoned) := by
  induction ps generalizing s d with
  | nil => exact hs
  | cons p ps ih => exact ih hs.storeMem

theorem State.SamePorts.writeMem {a : Actor} {ea : Nat} {d : List Byte} {poisoned : Bool} (hs : s₀.SamePorts s)
    (h : s.writeMem a ea d poisoned = some t) : s₀.SamePorts t := by
  obtain ⟨u, hu, rfl⟩ := Option.map_eq_some_iff.1 h
  obtain ⟨ps, -, rfl⟩ := Option.map_eq_some_iff.1 hu
  have harrive : s₀.SamePorts (s.arrive true false ps) := hs.foldl fun _ _ ht => ht.wakeFor.touch
  exact harrive.storePlaces.foldl fun _ _ ht => ht.freshBytes.storeMem

/-! ## Tally units -/

theorem State.SamePorts.entryBytes {u : TallyRef} {e : TallyEntry} (hs : s₀.SamePorts s) : s₀.SamePorts (s.entryBytes u e).2 := by
  unfold State.entryBytes
  split
  exacts [hs.freshBytes, hs]

theorem State.SamePorts.tallyLog {u : TallyRef} {e : TallyEntry} (hs : s₀.SamePorts s) : s₀.SamePorts (s.tallyLog u e) := by
  dsimp only [State.tallyLog]
  refine .ite hs (.ite hs.modTally ?_)
  split
  · exact hs.modTally
  · split
    · rename_i h
      exact (hs.entryBytes.writeMem h).modTally
    · exact hs.modTally

theorem State.SamePorts.absorb {u : TallyRef} {x : Snooped} (hs : s₀.SamePorts s) : s₀.SamePorts (s.absorb u x) := by
  dsimp only [State.absorb]
  split
  · unfold State.feedTally
    exact .ite hs.modTally.fresh.modTally hs.modTally.modTally
  · split
    · unfold State.tallySplit
      split
      · exact (SamePorts.ite hs.modTally.modTally.modTally.tallyLog hs.modTally.modTally).modTally
      · exact hs.modTally.modTally.modTally
    · exact hs.modTally.modTally.tallyLog

theorem State.SamePorts.writeTallyFlush {u : TallyRef} {v : Word64} (hs : s₀.SamePorts s) : s₀.SamePorts (s.writeTallyFlush u v) := by
  have habsorb : s₀.SamePorts (s.absorbAll u) := hs.modTally.foldl fun _ _ ht => ht.absorb
  exact .ite (habsorb.modTally.foldl fun _ _ ht => ht.tallyLog) hs

/-! ## Jobs -/

theorem State.SamePorts.flushJob {n : Nat} {j : Job} (hs : s₀.SamePorts s) : s₀.SamePorts (s.flushJob n j) :=
  hs.foldl fun _ _ ht => ht.writeTallyFlush

theorem State.SamePorts.stopPorter {n : Nat} {p : PorterRef} (hs : s₀.SamePorts s) : s₀.SamePorts (s.stopPorter n p) := by
  unfold State.stopPorter
  extract_lets _ _ _ t
  have ht : s₀.SamePorts t := .ite hs.modDie hs
  exact ht.modPorter

theorem State.SamePorts.dropWrites {f : SlotWrite → Bool} (hs : s₀.SamePorts s) : s₀.SamePorts (s.dropWrites f) := hs.set rfl rfl

theorem State.SamePorts.stopParish {n : Nat} {j : Job} {p : ParishRef} (hs : s₀.SamePorts s) : s₀.SamePorts (s.stopParish n j p) := by
  unfold State.stopParish
  extract_lets t w v
  have ht : s₀.SamePorts t := hs.foldl fun _ _ hu => hu.stopPorter
  have hw : s₀.SamePorts w := ht.modDie
  have hv : s₀.SamePorts v := .ite hw.dropWrites hw
  exact hv.modParish

theorem State.SamePorts.dropTraffic {slots : List HamletRef} (hs : s₀.SamePorts s) : s₀.SamePorts (s.dropTraffic slots) := hs.set rfl rfl

theorem State.SamePorts.stopJob {n : Nat} {why : JobEnd} (hs : s₀.SamePorts s) : s₀.SamePorts (s.stopJob n why) := by
  dsimp only [State.stopJob]
  split
  exacts [hs, ((hs.flushJob.foldl fun _ _ ht => ht.stopParish).foldl fun _ _ ht => ht.modHamlet).dropTraffic.modJob]

theorem State.SamePorts.raiseFence {m : HamletRef} (hs : s₀.SamePorts s) : s₀.SamePorts (s.raiseFence m) := hs.wake.set rfl rfl

theorem State.SamePorts.fillHamlet {m : HamletRef} (hs : s₀.SamePorts s) : s₀.SamePorts (s.fillHamlet m) := hs.set rfl rfl

theorem State.SamePorts.checkHamlet {m : HamletRef} {n : Nat} {j : Job} {p : Placed} (hs : s₀.SamePorts s) :
    s₀.SamePorts (s.checkHamlet m n j p) := by
  dsimp only [State.checkHamlet]
  exact .ite (hs.modJob.set rfl rfl) (hs.modJob.set rfl rfl : s₀.SamePorts (State.setHamlet _ _ _)).logEvent

theorem State.SamePorts.scrubGranule {p : ParishRef} {g n hh : Nat} (hs : s₀.SamePorts s) : s₀.SamePorts (s.scrubGranule p g n hh) := by
  have hfill : s₀.SamePorts (s.fillRegion (granuleAddr p.die (granuleNo p g) 0) granuleBytes) := hs.set rfl rfl
  dsimp only [State.scrubGranule]
  exact .ite hfill.modParish.modJob hfill.modParish.modJob.modParish.logEvent

theorem State.SamePorts.scrubJob {n : Nat} (hs : s₀.SamePorts s) : s₀.SamePorts (s.scrubJob n) := by
  unfold State.scrubJob
  split
  · exact hs
  · exact (hs.foldl fun _ _ ht => ht.raiseFence.fillHamlet.checkHamlet).foldl fun _ _ ht => ht.scrubGranule

theorem State.samePorts_scrubJobs (s : State) : s.SamePorts s.scrubJobs :=
  (State.SamePorts.refl.foldl fun _ _ ht => ht.stopJob).foldl fun _ _ ht => ht.scrubJob

/-- Where no job is live or ends, there is nothing to stop or scrub. -/
theorem State.scrubJobs_of_idle (h : ∀ j ∈ s.jobs.cells, j.2.live = false ∧ j.2.isEnding = false) : s.scrubJobs = s := by
  have hlive : s.jobs.cells.filter (fun c => c.2.live) = [] := List.filter_eq_nil_iff.2 fun c hc => by simp [(h c hc).1]
  have hending : s.jobs.cells.filter (fun c => c.2.isEnding) = [] := List.filter_eq_nil_iff.2 fun c hc => by simp [(h c hc).2]
  simp [State.scrubJobs, hlive, hending]

end

end Sys2Proof.Machine
end

