-- ==== Sys2Proof/Proofs/Resets.lean ====
section
/-! What a reset leaves (R380, R381, Table 13.8): the reset of the fast domains, what follows it, and the errors that are recorded before. -/

namespace Sys2Proof.Machine

/-! ## The reset of the fast domains -/

section
variable (s : State)

theorem State.setVolts_frame : s.setVolts = { s with rails := s.setVolts.rails } := by
  unfold State.setVolts
  split <;> rfl

@[simp] theorem State.setVolts_clock : s.setVolts.clock = s.clock := (congrArg State.clock s.setVolts_frame :)
@[simp] theorem State.setVolts_mem : s.setVolts.mem = s.mem := (congrArg State.mem s.setVolts_frame :)
@[simp] theorem State.setVolts_blkPoison : s.setVolts.blkPoison = s.blkPoison := (congrArg State.blkPoison s.setVolts_frame :)
@[simp] theorem State.setVolts_settings : s.setVolts.settings = s.settings := (congrArg State.settings s.setVolts_frame :)
@[simp] theorem State.setVolts_parishes : s.setVolts.parishes = s.parishes := (congrArg State.parishes s.setVolts_frame :)
@[simp] theorem State.setVolts_landings : s.setVolts.landings = s.landings := (congrArg State.landings s.setVolts_frame :)
@[simp] theorem State.setVolts_households : s.setVolts.households = s.households := (congrArg State.households s.setVolts_frame :)
@[simp] theorem State.setVolts_jobs : s.setVolts.jobs = s.jobs := (congrArg State.jobs s.setVolts_frame :)
@[simp] theorem State.setVolts_tensors : s.setVolts.tensors = s.tensors := (congrArg State.tensors s.setVolts_frame :)
@[simp] theorem State.setVolts_postboxes : s.setVolts.postboxes = s.postboxes := (congrArg State.postboxes s.setVolts_frame :)
@[simp] theorem State.setVolts_noticeQ : s.setVolts.noticeQ = s.noticeQ := (congrArg State.noticeQ s.setVolts_frame :)
@[simp] theorem State.setVolts_pins : s.setVolts.pins = s.pins := (congrArg State.pins s.setVolts_frame :)
@[simp] theorem State.setVolts_lifecycle : s.setVolts.lifecycle = s.lifecycle := (congrArg State.lifecycle s.setVolts_frame :)
@[simp] theorem State.setVolts_torus : s.setVolts.torus = s.torus := (congrArg State.torus s.setVolts_frame :)
@[simp] theorem State.setVolts_logNext : s.setVolts.logNext = s.logNext := (congrArg State.logNext s.setVolts_frame :)
@[simp] theorem State.setVolts_logRing : s.setVolts.logRing = s.logRing := (congrArg State.logRing s.setVolts_frame :)
@[simp] theorem State.setVolts_bellFlight : s.setVolts.bellFlight = s.bellFlight := (congrArg State.bellFlight s.setVolts_frame :)
@[simp] theorem State.setVolts_stranded : s.setVolts.stranded = s.stranded := (congrArg State.stranded s.setVolts_frame :)

end

/-- What the reset of the fast domains leaves of a package in which no job is live or ends. -/
structure State.DomainsReset (s a : State) : Prop where
  mem : a.mem = s.mem.filter fun c => decide (c.1 < sramBase) || s.fenced c.1
  blkPoison : a.blkPoison = s.blkPoison
  tensors : a.tensors = s.tensors
  logRing : a.logRing = s.logRing
  logNext : a.logNext = s.logNext
  clock : a.clock = s.clock
  torus : a.torus = s.torus
  landings : a.landings = s.landings.mapV fun _ x => x.afterReset
  jobs : a.jobs = {}
  noticeQ : a.noticeQ = []
  stranded : a.stranded = []
  bellFlight : a.bellFlight = []

section
variable {s a : State}

theorem State.domainsReset_resetDomains (h : ∀ j ∈ s.jobs.cells, j.2.live = false ∧ j.2.isEnding = false) : s.DomainsReset s.resetDomains := by
  unfold State.resetDomains
  rw [State.scrubJobs_of_idle h]
  constructor <;> simp

theorem State.domainsReset_warmFirst (h : ∀ j ∈ s.jobs.cells, j.2.live = false ∧ j.2.isEnding = false) : s.DomainsReset s.warmFirst := by
  obtain ⟨hmem, hblk, hten, hring, hnext, hclk, htorus, hland, hjobs, hnotice, hstr, hbell⟩ := State.domainsReset_resetDomains h
  exact ⟨hmem, hblk, hten, hring, hnext, hclk, htorus, hland, hjobs, hnotice, hstr, hbell⟩

/-- On-chip memory reads 0 where nothing is behind a fence. -/
theorem State.DomainsReset.read_sram (h : s.DomainsReset a) (hf : ∀ x, s.fenced x = false) {x : Nat} (hx : sramBase ≤ x) : a.mem.read x = 0 := by
  have hnone : lookupCell a.mem x = none := by
    rw [Option.eq_none_iff_forall_ne_some]
    intro b hb
    rw [h.mem] at hb
    have hkept := (List.mem_filter.1 (lookupCell_mem _ hb)).2
    simp [hf, show ¬ x < sramBase by omega] at hkept
  unfold Memory.read
  rw [hnone]
  rfl

/-- LPDDR keeps its bytes. -/
theorem State.DomainsReset.read_lpddr (h : s.DomainsReset a) (hw : s.mem.wf = true) {x : Nat} (hx : x < sramBase) :
    a.mem.read x = s.mem.read x := by
  unfold Memory.read
  rw [h.mem, lookupCell_filter _ hw _ fun _ => by simp [hx]]

end

/-! ## What the resets leave -/

/-- No serving state is left and on-chip memory is scrubbed; LPDDR, the admission journal, the Logbook, the torus and the village clock are kept,
and links with a role retrain (Table 13.8). -/
def State.ClearedTo (s : State) (st : IdentState) (t : State) : Prop :=
  t.ident.state = st ∧ t.households = {} ∧ t.jobs = {} ∧ t.sessions = {} ∧ t.ledger = {} ∧ t.keySlots = {} ∧
    t.pressSlots = {} ∧ t.postboxes = {} ∧ t.noticeQ = [] ∧ t.settings = {} ∧ t.numVFs = 0 ∧
    (∀ a, sramBase ≤ a → t.mem.read a = 0) ∧ (∀ a, a < sramBase → t.mem.read a = s.mem.read a) ∧ t.blkPoison = s.blkPoison ∧
    (∀ id x, s.tensors.find id = some x → t.tensors.find id = some { x with maps := [] }) ∧ t.logRing = s.logRing ∧
    t.logNext = s.logNext ∧ t.clock = s.clock ∧ t.torus = s.torus ∧ t.stranded = [] ∧ t.bellFlight = [] ∧
    ∀ l x, s.landings.find l = some x → ∃ y, t.landings.find l = some y ∧ y.role = x.role ∧
      y.state = (if x.role = 0 then .disabled else .retrain)

section
variable {s a : State}

theorem State.DomainsReset.clearedTo (h : s.DomainsReset a) (hw : s.mem.wf = true) (hf : ∀ x, s.fenced x = false) (st : IdentState) (i : Ident)
    (r : ResetStep) : s.ClearedTo i.state { a.resetItems st with ident := i, resetStep := r } := by
  refine ⟨rfl, rfl, h.jobs, rfl, rfl, rfl, rfl, rfl, h.noticeQ, rfl, rfl, fun _ => h.read_sram hf, fun _ => h.read_lpddr hw, h.blkPoison, ?_,
    h.logRing, h.logNext, h.clock, h.torus, h.stranded, h.bellFlight, ?_⟩
  · intro id x hx
    show (a.tensors.mapV _).find id = _
    rw [Tab.find_mapV, h.tensors, hx]
    rfl
  · intro l x hx
    refine ⟨x.afterReset.rewake, ?_, rfl, rfl⟩
    show (a.landings.mapV _).find l = _
    rw [Tab.find_mapV, h.landings, Tab.find_mapV, hx]
    rfl

theorem State.logAer_nil : s.logAer [] = s := ite_self ..

theorem execPcieHotReset_inBand (aer : List Bool) (h : (s.logAer aer).resettable = true) :
    exec (.pcieHotReset ⟨.inBand, aer⟩) s = .next ((s.logAer aer).clearFor (s.logAer aer).stateAfter) := by
  show execPcieHotReset ⟨.inBand, aer⟩ s = _
  dsimp only [execPcieHotReset]
  rw [if_neg (by rw [h]; decide)]
  rfl

theorem execPcieHotReset_perst (aer : List Bool) (h : (s.logAer aer).resettable = true) :
    exec (.pcieHotReset ⟨.perst, aer⟩) s =
      .next (State.clearFor { s.logAer aer with pins := { (s.logAer aer).pins with perst := false } } (s.logAer aer).stateAfter) := by
  show execPcieHotReset ⟨.perst, aer⟩ s = _
  dsimp only [execPcieHotReset]
  rw [if_neg (by rw [h]; decide)]
  rfl

theorem execPcieHotReset_linkDown (aer : List Bool) (h : (s.logAer aer).resettable = true) :
    exec (.pcieHotReset ⟨.linkDown, aer⟩) s =
      .next (((s.logAer aer).clearFor (s.logAer aer).stateAfter).logEvent { cls := 6, severity := 0, die := 0, event := 3 }) := by
  show execPcieHotReset ⟨.linkDown, aer⟩ s = _
  dsimp only [execPcieHotReset]
  rw [if_neg (by rw [h]; decide)]
  rfl

theorem execPfFlr_of_resettable (h : s.resettable = true) : exec .pfFlr s = .next (s.clearFor s.stateAfter) := if_pos h

/-- A self-test that finds every bank sound changes nothing where no granule is retired. -/
theorem State.testBanks_of_sound (h : ∀ p : ParishRef, (s.parish p).retired = 0) : s.testBanks ⟨[], [], [], []⟩ = s := by
  have hgranules : ∀ i ∈ List.range (4 * s.dieCount), ((List.range 40).filterMap fun g =>
      let c : ParishRef × Nat := (⟨i / 4, i % 4⟩, g)
      if (s.parish c.1).retired.getLsbD g || (⟨[], [], [], []⟩ : BankTest).badGranules.contains c ||
        (⟨[], [], [], []⟩ : BankTest).mendedGranules.contains c then some c else none) = [] := by
    intro i _
    simp [h]
  unfold State.testBanks
  rw [List.flatMap_eq_nil_iff.2 hgranules]
  rfl

/-- Retired granules stay retired up to the self-test (R188). -/
theorem State.retired_warmFirst (p : ParishRef) : (s.warmFirst.parish p).retired = (s.scrubJobs.parish p).retired := by
  have hp : s.warmFirst.parishes = s.scrubJobs.parishes.mapV fun _ x => { retired := x.retired } := State.setVolts_parishes _
  unfold State.parish
  rw [hp, Tab.get_mapV _ _ rfl]

theorem State.lifecycle_warmFirst : s.warmFirst.lifecycle = s.scrubJobs.lifecycle := State.setVolts_lifecycle _

theorem execWarmResetSequence_of_commanded (o : WarmOutcome) (hc : s.clocked = true) (hr : s.resetStep = .commanded) :
    exec (.warmResetSequence o) s = .next (s.warmFirst.warmRest o) := if_pos ⟨hc, hr⟩

/-- The end of a warm reset whose image is signed. -/
theorem State.warmRest_of_signed (o : WarmOutcome) (hs : o.signatureOk = true) :
    ∃ i : Ident, a.warmRest o = { (a.testBanks o.banks).resetItems a.ident.state with ident := i, resetStep := .none } ∧
      i.state = if a.ident.state = .failed then .failed else if a.lifecycle = .test then .undefined else .ready := by
  dsimp only [State.warmRest]
  rw [if_pos hs]
  exact ⟨_, rfl, by simp [hs]⟩

theorem State.ident_warmFirst : s.warmFirst.ident.state = if s.ident.state = .failed then .failed else .boot := rfl

/-- Clause of O55: what a PCIe hot reset, a PF FLR and a warm reset leave. -/
theorem resets_leave (hr : s.resettable = true) (hj : ∀ j ∈ s.jobs.cells, j.2.live = false ∧ j.2.isEnding = false) (hw : s.mem.wf = true)
    (hf : ∀ a, s.fenced a = false) :
    (∃ t, exec (.pcieHotReset ⟨.inBand, []⟩) s = .next t ∧ s.ClearedTo s.stateAfter t) ∧
      (∃ t, exec .pfFlr s = .next t ∧ s.ClearedTo s.stateAfter t) ∧
      ∀ o : WarmOutcome, s.resetStep = .commanded → o.signatureOk = true → s.ident.state ≠ .failed → s.lifecycle ≠ .test →
        (∀ p : ParishRef, (s.parish p).retired = 0) → o.banks = ⟨[], [], [], []⟩ →
        ∃ t, exec (.warmResetSequence o) s = .next t ∧ s.ClearedTo .ready t := by
  have hclear : s.ClearedTo s.stateAfter (s.clearFor s.stateAfter) :=
    (State.domainsReset_resetDomains hj).clearedTo hw hf s.stateAfter (s.clearFor s.stateAfter).ident (s.clearFor s.stateAfter).resetStep
  refine ⟨⟨_, ?_, hclear⟩, ⟨_, execPfFlr_of_resettable hr, hclear⟩, fun o hstep hsig hstate hlife hret hbanks => ?_⟩
  · have h := execPcieHotReset_inBand (s := s) []
    rw [State.logAer_nil] at h
    exact h hr
  · have hclocked : s.clocked = true := by simp [State.resettable] at hr; exact hr.1.1
    have hret' : ∀ p : ParishRef, (s.warmFirst.parish p).retired = 0 := fun p => by
      rw [State.retired_warmFirst, State.scrubJobs_of_idle hj, hret]
    have hlife' : s.warmFirst.lifecycle = s.lifecycle := by rw [State.lifecycle_warmFirst, State.scrubJobs_of_idle hj]
    obtain ⟨i, hi, hst⟩ := State.warmRest_of_signed (a := s.warmFirst) o hsig
    refine ⟨_, execWarmResetSequence_of_commanded o hclocked hstep, ?_⟩
    rw [State.ident_warmFirst, if_neg hstate, hlife', if_neg (by decide), if_neg hlife] at hst
    rw [hi, ← hst, hbanks, State.testBanks_of_sound hret']
    exact (State.domainsReset_warmFirst hj).clearedTo hw hf s.warmFirst.ident.state i .none

/-! ## Errors that the PCIe link has reported (R386) -/

/-- The record of one error that AER reports (Table 14.3). -/
def aerRecord (bad : Bool) : LogReq := { cls := 6, severity := if bad then 2 else 1, die := 0, event := if bad then 2 else 1 }

theorem aerRecord_not_fatal (bad : Bool) : BitVec.ofNat 2 (aerRecord bad).severity ≠ 3 := by cases bad <;> decide

theorem State.logAer_of_running (aer : List Bool) (hc : s.clocked = true) (hb : s.ident.state ≠ .boot) :
    s.logAer aer = aer.foldl (fun t bad => t.logEvent (aerRecord bad)) s := if_neg (by simp [hc, hb])

/-- The records change nothing that decides whether a reset acts. -/
theorem State.resettable_logAer (aer : List Bool) (h : s.resettable = true) : (s.logAer aer).resettable = true := by
  have hrun : (s.clocked = true ∧ s.ident.state ≠ .boot) ∧ s.resetStep ≠ .heldAtFive := by simpa [State.resettable] using h
  rw [State.logAer_of_running aer hrun.1.1 hrun.1.2]
  refine List.foldlRecOn (motive := fun t : State => t.resettable = true) aer _ h fun t ht bad _ => ?_
  simpa [State.resettable, State.clocked, t.logEvent_ident (aerRecord_not_fatal bad)] using ht

/-- Clause of O55: a hot reset by PERST_N and by a fallen link does as one in band, after the records of what AER reported. -/
theorem hotResets_agree (aer : List Bool) (h : s.resettable = true) :
    (∃ t, exec (.pcieHotReset ⟨.inBand, []⟩) { s.logAer aer with pins := { (s.logAer aer).pins with perst := false } } = .next t ∧
        exec (.pcieHotReset ⟨.perst, aer⟩) s = .next t) ∧
      ∃ t, exec (.pcieHotReset ⟨.inBand, []⟩) (s.logAer aer) = .next t ∧ exec (.pcieHotReset ⟨.inBand, aer⟩) s = .next t ∧
        ∃ v, exec (.pcieHotReset ⟨.linkDown, aer⟩) s = .next v ∧ v.logNext = t.logNext + 1 ∧ v.ident = t.ident ∧ v.mem = t.mem ∧
          v.jobs = t.jobs := by
  have hu := State.resettable_logAer aer h
  have hinBand (u : State) (hr : u.resettable = true) : exec (.pcieHotReset ⟨.inBand, []⟩) u = .next (u.clearFor u.stateAfter) := by
    have he := execPcieHotReset_inBand (s := u) []
    rw [State.logAer_nil] at he
    exact he hr
  refine ⟨⟨_, hinBand _ hu, execPcieHotReset_perst aer hu⟩, _, hinBand _ hu, execPcieHotReset_inBand aer hu, _,
    execPcieHotReset_linkDown aer hu, State.logEvent_logNext _ (State.suppressed_of_ne _ (by decide)), State.logEvent_ident _ (by decide),
    State.logEvent_mem .., State.logEvent_jobs ..⟩

/-- Clause of O55: what AER reports is recorded, a correctable error where none was in the last second. -/
theorem logAer_records (bad : Bool) (hc : s.clocked = true) (hb : s.ident.state ≠ .boot)
    (hnone : bad = false → (s.die 0).log.lastCorrected.find 192 = none) :
    (s.logAer [bad]).logNext = s.logNext + 1 ∧
      (s.logRoom s.logNext = true → ∃ q, (s.logAer [bad]).logRing.find (s.logNext.toNat % 1920) = some q ∧ q.cls = 6 ∧
        q.event = if bad then 2 else 1) := by
  have hfree : s.suppressed (aerRecord bad) = false := by
    cases bad with
    | true => exact State.suppressed_of_ne _ (by decide)
    | false =>
      rw [Bool.eq_false_iff, ne_eq, State.suppressed_iff]
      rintro ⟨-, t, ht, -⟩
      have hsome : (s.die 0).log.lastCorrected.find 192 = some t := ht
      rw [hnone rfl] at hsome
      cases hsome
  rw [State.logAer_of_running [bad] hc hb]
  refine ⟨State.logEvent_logNext _ hfree, fun hroom => ⟨_, State.logEvent_find _ hfree hroom, rfl, ?_⟩⟩
  cases bad <;> rfl

end

end Sys2Proof.Machine
end

