-- ==== Sys2Proof/Proofs/SelfTests.lean ====
section
/-! The self-tests of a boot and of a warm reset (R26 to R28, R188, R381 step 6): what they leave unchanged, said once as `State.Tests`, and what
they find and record. -/

namespace Sys2Proof.Machine

/-- Of two states only banks, slots, granules and the Logbook differ; a die has LPDDR in both or in neither, and an empty memory stays so. -/
structure State.Tests (s t : State) : Prop where
  frame : t = { s with
    mem := t.mem, sramPoison := t.sramPoison, defects := t.defects, hamlets := t.hamlets, parishes := t.parishes, dies := t.dies
    noticeQ := t.noticeQ, msixPend := t.msixPend, hostOut := t.hostOut, logNext := t.logNext, logRing := t.logRing }
  noLpddr : ∀ d, (t.die d).noLpddr = (s.die d).noLpddr
  mem : s.mem = [] → t.mem = []

section
variable {s₀ s t u : State}

theorem State.Tests.refl : s.Tests s := ⟨rfl, fun _ => rfl, id⟩

theorem State.Tests.trans (h : s.Tests t) (k : t.Tests u) : s.Tests u := by
  refine ⟨?_, fun d => (k.noLpddr d).trans (h.noLpddr d), fun hs => k.mem (h.mem hs)⟩
  rw [k.frame, h.frame]

theorem State.Tests.foldl {α : Type} {f : State → α → State} {l : List α} (hs : s₀.Tests s) (hf : ∀ t x, s₀.Tests t → s₀.Tests (f t x)) :
    s₀.Tests (l.foldl f s) :=
  List.foldlRecOn l f hs fun t ht x _ => hf t x ht

theorem State.Tests.logEvent {r : LogReq} (hs : s₀.Tests s) (hr : BitVec.ofNat 2 r.severity ≠ 3) : s₀.Tests (s.logEvent r) := by
  refine hs.trans ⟨?_, fun d => ?_, fun h => (State.logEvent_mem s r).trans h⟩
  · have hf := s.logEvent_frame r
    have hi := s.logEvent_ident hr
    rw [hi] at hf
    simpa only [State.logEvent_mem, State.logEvent_sramPoison, State.logEvent_defects, State.logEvent_hamlets, State.logEvent_parishes] using hf
  · obtain ⟨b, hb⟩ := s.logEvent_die r d
    rw [hb]

theorem State.Tests.modHamlet {m : HamletRef} {f : Hamlet → Hamlet} (hs : s₀.Tests s) : s₀.Tests (s.modHamlet m f) :=
  hs.trans ⟨rfl, fun _ => rfl, id⟩

theorem State.Tests.modParish {p : ParishRef} {f : Parish → Parish} (hs : s₀.Tests s) : s₀.Tests (s.modParish p f) :=
  hs.trans ⟨rfl, fun _ => rfl, id⟩

theorem State.Tests.mended {a n : Nat} (hs : s₀.Tests s) : s₀.Tests (s.mended a n) := by
  refine hs.trans ⟨rfl, fun _ => rfl, fun h => ?_⟩
  show s.mem.zero a n = []
  rw [h]
  rfl

theorem State.Tests.logRepair {d : Nat} (hs : s₀.Tests s) : s₀.Tests (s.logRepair d) := hs.logEvent (by decide : BitVec.ofNat 2 0 ≠ 3)

theorem State.Tests.bootSlot {m : HamletRef} (hs : s₀.Tests s) : s₀.Tests (s.bootSlot m) := hs.modHamlet.logEvent (by decide : BitVec.ofNat 2 2 ≠ 3)

theorem State.Tests.retireGranule {p : ParishRef} {g hh n : Nat} (hs : s₀.Tests s) : s₀.Tests (s.retireGranule p g hh n) :=
  hs.modParish.logEvent (by decide : BitVec.ofNat 2 2 ≠ 3)

theorem State.Tests.testGranule {o : BankTest} {c : ParishRef × Nat} (hs : s₀.Tests s) : s₀.Tests (s.testGranule o c) := by
  dsimp only [State.testGranule]
  split
  · split
    exacts [hs, hs.retireGranule]
  · split
    exacts [hs.mended.modParish.logRepair, hs]

theorem State.Tests.testPad {o : BankTest} {m : HamletRef} (hs : s₀.Tests s) : s₀.Tests (s.testPad o m) := by
  unfold State.testPad
  split
  · exact hs
  · split
    · exact hs.bootSlot
    · split
      exacts [hs.mended.logRepair, hs]

theorem State.tests_testBanks (s : State) (o : BankTest) : s.Tests (s.testBanks o) :=
  (State.Tests.refl.foldl fun _ _ ht => ht.testGranule).foldl fun _ _ ht => ht.testPad

theorem State.tests_loadCopies (s : State) (a b : Bool) : s.Tests (s.loadCopies a b) := by
  dsimp only [State.loadCopies]
  have hone : s.Tests (s.logEvent { cls := 9, severity := 0, die := 0, event := 1 }) := State.Tests.refl.logEvent (by decide)
  split
  · exact .refl
  · split
    exacts [hone, hone.logEvent (by decide)]

/-! ## The granules that the self-test looks at -/

variable (s) in
/-- Every granule of the package. -/
def State.allGranules : List (ParishRef × Nat) :=
  (List.product (List.range (4 * s.dieCount)) (List.range 40)).map fun x => (⟨x.1 / 4, x.1 % 4⟩, x.2)

variable (s) in
/-- Whether the self-test looks at a granule: it is retired, or a bank of it has a defect that the spare mends or does not. -/
def State.granuleTested (o : BankTest) (c : ParishRef × Nat) : Bool :=
  (s.parish c.1).retired.getLsbD c.2 || o.badGranules.contains c || o.mendedGranules.contains c

theorem State.nodup_allGranules : s.allGranules.Nodup := by
  refine List.Nodup.map ?_ (List.nodup_range.product List.nodup_range)
  rintro ⟨i, g⟩ ⟨j, k⟩ h
  simp only [Prod.mk.injEq, ParishRef.mk.injEq] at h
  have hij : i = j := by omega
  rw [hij, h.2]

theorem State.mem_allGranules {p : ParishRef} {g : Nat} (hd : p.die < s.dieCount) (hp : p.par < 4) (hg : g < 40) : (p, g) ∈ s.allGranules := by
  refine List.mem_map.2 ⟨(4 * p.die + p.par, g), List.mem_product.2 ⟨List.mem_range.2 (by omega), List.mem_range.2 hg⟩, ?_⟩
  have hdiv : (4 * p.die + p.par) / 4 = p.die := by omega
  have hmod : (4 * p.die + p.par) % 4 = p.par := by omega
  simp only [hdiv, hmod]

theorem State.testBanks_eq (s : State) (o : BankTest) :
    s.testBanks o = ((o.badSlots ++ o.mendedSlots).filter fun m => decide (m.die < s.dieCount)).foldl (State.testPad o)
      ((s.allGranules.filter (s.granuleTested o)).foldl (State.testGranule o) s) := by
  have hlist : s.allGranules.filter (s.granuleTested o) = (List.range (4 * s.dieCount)).flatMap fun i => (List.range 40).filterMap fun g =>
      if s.granuleTested o (⟨i / 4, i % 4⟩, g) then some (⟨i / 4, i % 4⟩, g) else none := by
    unfold State.allGranules List.product
    rw [List.map_flatMap, List.filter_flatMap]
    refine List.flatMap_congr fun i _ => ?_
    rw [List.map_map, ← List.filterMap_eq_filter, List.filterMap_map]
    rfl
  rw [hlist]
  rfl

/-- Where no granule is retired and one has a defect, the self-test looks at that one. -/
theorem State.testedGranules_of_one {o : BankTest} {p : ParishRef} {g : Nat} (h : ∀ p : ParishRef, (s.parish p).retired = 0)
    (ho : o.badGranules ++ o.mendedGranules = [(p, g)]) (hd : p.die < s.dieCount) (hp : p.par < 4) (hg : g < 40) :
    s.allGranules.filter (s.granuleTested o) = [(p, g)] := by
  have htested : s.granuleTested o = fun c => c == (p, g) := by
    funext c
    have hc : c ∈ o.badGranules ∨ c ∈ o.mendedGranules ↔ c = (p, g) := by rw [← List.mem_append, ho, List.mem_singleton]
    rw [Bool.eq_iff_iff]
    simp [State.granuleTested, h, hc]
  rw [htested, List.filter_beq, List.count_eq_one_of_mem State.nodup_allGranules (State.mem_allGranules hd hp hg)]
  rfl

theorem State.testedGranules_of_none {o : BankTest} (h : ∀ p : ParishRef, (s.parish p).retired = 0)
    (hb : o.badGranules = []) (hm : o.mendedGranules = []) : s.allGranules.filter (s.granuleTested o) = [] := by
  refine List.filter_eq_nil_iff.2 fun c _ => ?_
  simp [State.granuleTested, h, hb, hm]

/-! ## What the self-test finds -/

theorem State.logRepair_logNext (s : State) (d : Nat) : (s.logRepair d).logNext = s.logNext + 1 :=
  s.logEvent_logNext (s.suppressed_of_ne (by decide : 0 ≠ 1))

theorem State.bootSlot_spec (s : State) (m : HamletRef) : ((s.bootSlot m).hamlet m).retired = true ∧ (s.bootSlot m).logNext = s.logNext + 1 := by
  refine ⟨?_, State.logEvent_logNext _ (State.suppressed_of_ne _ (by decide : 2 ≠ 1))⟩
  have hh : (s.bootSlot m).hamlet m = (s.modHamlet m fun x => { x with retired := true }).hamlet m := by
    unfold State.bootSlot State.hamlet
    rw [State.logEvent_hamlets]
  rw [hh, State.hamlet_modHamlet]

/-- A slot whose bank the spare does not mend is retired and recorded. -/
theorem State.testBanks_badSlot {m : HamletRef} (h : ∀ p : ParishRef, (s.parish p).retired = 0) (hm : m.die < s.dieCount)
    (hr : (s.hamlet m).retired = false) : ((s.testBanks ⟨[m], [], [], []⟩).hamlet m).retired = true ∧
      (s.testBanks ⟨[m], [], [], []⟩).logNext = s.logNext + 1 := by
  have htest : s.testBanks ⟨[m], [], [], []⟩ = s.bootSlot m := by
    rw [State.testBanks_eq, State.testedGranules_of_none h rfl rfl]
    simp [hm, State.testPad, hr]
  rw [htest]
  exact s.bootSlot_spec m

/-- A slot whose bank the spare mends is recorded. -/
theorem State.testBanks_mendedSlot {m : HamletRef} (h : ∀ p : ParishRef, (s.parish p).retired = 0) (hm : m.die < s.dieCount)
    (hr : (s.hamlet m).retired = false) : ((s.testBanks ⟨[], [m], [], []⟩).hamlet m).retired = false ∧
      (s.testBanks ⟨[], [m], [], []⟩).logNext = s.logNext + 1 := by
  have htest : s.testBanks ⟨[], [m], [], []⟩ = (s.mended (sramAddr m 0) padBytes).logRepair m.die := by
    rw [State.testBanks_eq, State.testedGranules_of_none h rfl rfl]
    simp [hm, State.testPad, hr]
  rw [htest]
  refine ⟨?_, State.logRepair_logNext _ _⟩
  unfold State.logRepair State.hamlet
  rw [State.logEvent_hamlets]
  exact hr

theorem State.parish_logEvent (r : LogReq) (p : ParishRef) : (s.logEvent r).parish p = s.parish p := by
  unfold State.parish
  rw [State.logEvent_parishes]

/-- A granule whose bank the spare does not mend is retired and recorded. -/
theorem State.testBanks_badGranule {p : ParishRef} {g : Nat} (h : ∀ p : ParishRef, (s.parish p).retired = 0) (hd : p.die < s.dieCount)
    (hp : p.par < 4) (hg : g < 40) : ((s.testBanks ⟨[], [], [(p, g)], []⟩).parish p).retired = BitVec.ofNat 40 (2 ^ g) ∧
      (s.testBanks ⟨[], [], [(p, g)], []⟩).logNext = s.logNext + 1 := by
  have htest : s.testBanks ⟨[], [], [(p, g)], []⟩ = s.retireGranule p g 0 0 := by
    rw [State.testBanks_eq, State.testedGranules_of_one (o := ⟨[], [], [(p, g)], []⟩) h rfl hd hp hg]
    simp [State.testGranule, h]
  rw [htest]
  refine ⟨?_, State.logEvent_logNext _ (State.suppressed_of_ne _ (by decide : 2 ≠ 1))⟩
  unfold State.retireGranule
  rw [State.parish_logEvent, State.parish_modParish, h]
  exact BitVec.zero_or

/-- A granule whose bank the spare mends is recorded. -/
theorem State.testBanks_mendedGranule {p : ParishRef} {g : Nat} (h : ∀ p : ParishRef, (s.parish p).retired = 0) (hd : p.die < s.dieCount)
    (hp : p.par < 4) (hg : g < 40) : ((s.testBanks ⟨[], [], [], [(p, g)]⟩).parish p).retired = 0 ∧
      (s.testBanks ⟨[], [], [], [(p, g)]⟩).logNext = s.logNext + 1 := by
  have htest : s.testBanks ⟨[], [], [], [(p, g)]⟩ = ((s.mended (granuleAddr p.die (granuleNo p g) 0) granuleBytes).modParish p fun x =>
      { x with retired := x.retired &&& ~~~(BitVec.ofNat 40 (2 ^ g)) }).logRepair p.die := by
    rw [State.testBanks_eq, State.testedGranules_of_one (o := ⟨[], [], [], [(p, g)]⟩) h rfl hd hp hg]
    simp [State.testGranule]
  rw [htest]
  refine ⟨?_, State.logRepair_logNext _ _⟩
  have hmended : ((s.mended (granuleAddr p.die (granuleNo p g) 0) granuleBytes).parish p).retired = 0 := h p
  unfold State.logRepair
  rw [State.parish_logEvent, State.parish_modParish, hmended]
  exact BitVec.zero_and

end

end Sys2Proof.Machine
end

