-- ==== Sys2Proof/Proofs/WarmResets.lean ====
section
/-! The warm reset by command and by its pin (R350, R381, R383, R421). -/

namespace Sys2Proof.Machine

section
variable {s : State}

/-! ## A warm reset whose firmware copies fail -/

/-- The end of a warm reset whose firmware copies all fail (R378). -/
theorem State.warmRest_of_noCopy (a : State) (o : WarmOutcome) (hs : o.signatureOk = false) (ha : o.copyA = false) (hb : o.copyB = false) :
    (a.warmRest o).ident.state = .failed ∧ (a.warmRest o).resetStep = .none ∧ (a.warmRest o).households = {} ∧ (a.warmRest o).jobs = a.jobs := by
  have hlog := State.tests_loadCopies ((a.testBanks o.banks).resetItems a.ident.state) o.copyA o.copyB
  have hhouse : (((a.testBanks o.banks).resetItems a.ident.state).loadCopies o.copyA o.copyB).households = {} :=
    (congrArg State.households hlog.frame :)
  have hjobs : (((a.testBanks o.banks).resetItems a.ident.state).loadCopies o.copyA o.copyB).jobs = (a.testBanks o.banks).jobs :=
    (congrArg State.jobs hlog.frame :)
  have htest : (a.testBanks o.banks).jobs = a.jobs := (congrArg State.jobs (State.tests_testBanks a o.banks).frame :)
  dsimp only [State.warmRest]
  rw [if_pos (Or.inr ⟨hs, ha, hb⟩), if_neg (by rw [hs]; decide)]
  exact ⟨rfl, rfl, hhouse, hjobs.trans htest⟩

/-- Clause of O55: a warm reset whose firmware copies all fail ends FAILED. -/
theorem warmReset_failsWithoutCopy (o : WarmOutcome) (hc : s.clocked = true) (hr : s.resetStep = .commanded) (hs : o.signatureOk = false)
    (ha : o.copyA = false) (hb : o.copyB = false) :
    ∃ t, exec (.warmResetSequence o) s = .next t ∧ t.ident.state = .failed ∧ t.resetStep = .none ∧ t.households = {} ∧ t.jobs = {} := by
  obtain ⟨hst, hstep, hhouse, hjobs⟩ := State.warmRest_of_noCopy s.warmFirst o hs ha hb
  exact ⟨_, execWarmResetSequence_of_commanded o hc hr, hst, hstep, hhouse, hjobs.trans (State.setVolts_jobs _)⟩

/-! ## The command -/

/-- Clause of O55: WARM_RESET writes its completion and asks for the sequence. -/
theorem warmReset_answersFirst {k : Nat} {c : Command} (hc : s.commandRuns k 0x0703 c) (ha : s.canAnswer k c = true) :
    exec (.warmReset k) s = .next { s.answerNow k c 0 with resetStep := .commanded } := by
  obtain ⟨hcur, hserves, hop, -, -⟩ := hc
  have hopcode : c.opcode = 0x0703 := BitVec.eq_of_toNat_eq hop
  show execWarmReset k s = _
  unfold execWarmReset
  rw [hcur]
  exact if_pos ⟨hopcode, hserves, ha⟩

/-! ## The pin WRST_N -/

theorem execWrstN_short {ns : Nat} (h : ns < 200) : exec (.wrstN ns) s = .next s := if_pos h

/-- Clause of O55: between 200 ns and 1 µs a free value says whether a warm reset starts. -/
theorem execWrstN_between {ns : Nat} (h : 200 ≤ ns) (h' : ns < 1000) (hc : s.clocked = true) (hb : s.ident.state ≠ .boot)
    (hr : s.resetStep = .none) :
    ∃ t, exec (.wrstN ns) s = .next t ∧ (t = { s with freeCtr := s.freeCtr + 1 } ∨
      t = { s with freeCtr := s.freeCtr + 1, resetStep := .commanded }) := by
  have hexec : exec (.wrstN ns) s = .next (if s.fresh.1.getLsbD 0 then { s.fresh.2 with resetStep := .commanded } else s.fresh.2) := by
    show execWrstN ns s = _
    unfold execWrstN
    rw [if_neg (by omega), if_pos h', if_neg (by simp [hc, hb, hr])]
  refine ⟨_, hexec, ?_⟩
  by_cases hfree : s.fresh.1.getLsbD 0 = true
  · exact .inr (if_pos hfree)
  · exact .inl (if_neg hfree)

/-- The package with its pin WRST_N at a level, and every TAP as that level says. -/
def State.withWrst (s : State) (high : Bool) : State := State.settlePins { s with pins := { s.pins with wrst := high } }

/-- Clause of O55: from 1 µs on the reset runs to step 5 and is held there. -/
theorem wrstN_holdsAtFive {ns : Nat} (h : 1000 ≤ ns) (hc : s.clocked = true) (hb : s.ident.state ≠ .boot) (hr : s.resetStep ≠ .heldAtFive) :
    ∃ t, exec (.wrstN ns) s = .next t ∧ t.pins = { s.pins with wrst := false } ∧ t.resetStep = .heldAtFive ∧ t.jobs = {} ∧ t.stranded = [] ∧
      (∀ l x, s.landings.find l = some x → ∃ y, t.landings.find l = some y ∧ y.state = .disabled) ∧
      (∀ k, (t.postbox k).running = false ∧ (t.postbox k).cur = none) ∧ (s.ident.state ≠ .failed → t.ident.state = .boot) ∧
      ((∀ j ∈ s.jobs.cells, j.2.live = false ∧ j.2.isEnding = false) → t.households = s.households ∧ t.settings = s.settings) := by
  have hexec : exec (.wrstN ns) s = .next { (s.withWrst false).warmFirst with resetStep := .heldAtFive } := by
    show execWrstN ns s = _
    unfold execWrstN
    rw [if_neg (by omega), if_neg (by omega)]
    exact if_neg (by simp [hb, hr]; exact hc)
  have hports := State.samePorts_scrubJobs (s.withWrst false)
  refine ⟨_, hexec, (State.setVolts_pins _).trans hports.pins, rfl, State.setVolts_jobs _, State.setVolts_stranded _, fun l x hx => ?_,
    fun k => ?_, fun hf => ?_, fun hj => ?_⟩
  · refine ⟨x.afterReset, ?_, rfl⟩
    have hland : (s.withWrst false).warmFirst.landings = (s.withWrst false).scrubJobs.landings.mapV fun _ x => x.afterReset :=
      State.setVolts_landings _
    show (s.withWrst false).warmFirst.landings.find l = _
    rw [hland, hports.landings, Tab.find_mapV, show (s.withWrst false).landings.find l = some x from hx]
    rfl
  · have hbox : (s.withWrst false).warmFirst.postboxes =
        (s.withWrst false).scrubJobs.postboxes.mapV fun _ x => { x with running := false, cur := none, cplQ := [], held := [] } :=
      State.setVolts_postboxes _
    show ((s.withWrst false).warmFirst.postboxes.get {} k).running = false ∧ ((s.withWrst false).warmFirst.postboxes.get {} k).cur = none
    rw [hbox, Tab.get_mapV _ _ rfl]
    exact ⟨rfl, rfl⟩
  · exact if_neg hf
  · have hidle : (s.withWrst false).scrubJobs = s.withWrst false := State.scrubJobs_of_idle hj
    have hhouse : (s.withWrst false).warmFirst.households = (s.withWrst false).scrubJobs.households := State.setVolts_households _
    have hset : (s.withWrst false).warmFirst.settings = (s.withWrst false).scrubJobs.settings := State.setVolts_settings _
    rw [hidle] at hhouse hset
    exact ⟨hhouse, hset⟩

theorem execWrstNDeassert_of_held (o : WarmOutcome) (h : s.resetStep = .heldAtFive) :
    exec (.wrstNDeassert o) s = .next ((s.withWrst true).warmRest o) := if_pos h

/-- Clause of O55: the pin rises and the reset ends. -/
theorem wrstNDeassert_ends (o : WarmOutcome) (h : s.resetStep = .heldAtFive) (hs : o.signatureOk = true) (hf : s.ident.state ≠ .failed) :
    ∃ t, exec (.wrstNDeassert o) s = .next t ∧ t.pins = { s.pins with wrst := true } ∧ t.resetStep = .none ∧ t.households = {} ∧
      t.settings = {} ∧ t.ident.state = (if s.lifecycle = .test then .undefined else .ready) := by
  obtain ⟨i, hi, hst⟩ := State.warmRest_of_signed (a := s.withWrst true) o hs
  have hpins : ((s.withWrst true).testBanks o.banks).pins = (s.withWrst true).pins :=
    (congrArg State.pins (State.tests_testBanks (s.withWrst true) o.banks).frame :)
  refine ⟨_, execWrstNDeassert_of_held o h, ?_⟩
  rw [hi]
  exact ⟨hpins, rfl, rfl, rfl, hst.trans (if_neg hf)⟩

/-- Clause of O55: the bank self-test of a warm reset. -/
theorem wrstNDeassert_testsBanks (o : WarmOutcome) (h : s.resetStep = .heldAtFive) (hs : o.signatureOk = true)
    (hret : ∀ p : ParishRef, (s.parish p).retired = 0) :
    (∀ m : HamletRef, m.die < s.dieCount → (s.hamlet m).retired = false →
        (o.banks = ⟨[m], [], [], []⟩ →
          ∃ t, exec (.wrstNDeassert o) s = .next t ∧ (t.hamlet m).retired = true ∧ t.logNext = s.logNext + 1) ∧
        (o.banks = ⟨[], [m], [], []⟩ →
          ∃ t, exec (.wrstNDeassert o) s = .next t ∧ (t.hamlet m).retired = false ∧ t.logNext = s.logNext + 1)) ∧
      (∀ (p : ParishRef) (g : Nat), p.die < s.dieCount → p.par < 4 → g < 40 →
        (o.banks = ⟨[], [], [(p, g)], []⟩ →
          ∃ t, exec (.wrstNDeassert o) s = .next t ∧ (t.parish p).retired = BitVec.ofNat 40 (2 ^ g) ∧ t.logNext = s.logNext + 1) ∧
        (o.banks = ⟨[], [], [], [(p, g)]⟩ →
          ∃ t, exec (.wrstNDeassert o) s = .next t ∧ (t.parish p).retired = 0 ∧ t.logNext = s.logNext + 1)) := by
  obtain ⟨i, hi, -⟩ := State.warmRest_of_signed (a := s.withWrst true) o hs
  have hexec := execWrstNDeassert_of_held o h
  rw [hi] at hexec
  refine ⟨fun m hm hr => ⟨fun hb => ⟨_, hexec, ?_⟩, fun hb => ⟨_, hexec, ?_⟩⟩,
    fun p g hd hp hg => ⟨fun hb => ⟨_, hexec, ?_⟩, fun hb => ⟨_, hexec, ?_⟩⟩⟩
  · rw [hb]
    exact State.testBanks_badSlot (s := s.withWrst true) hret hm hr
  · rw [hb]
    exact State.testBanks_mendedSlot (s := s.withWrst true) hret hm hr
  · rw [hb]
    exact State.testBanks_badGranule (s := s.withWrst true) hret hd hp hg
  · rw [hb]
    exact State.testBanks_mendedGranule (s := s.withWrst true) hret hd hp hg

end

end Sys2Proof.Machine
end

