-- ==== Sys2Proof/Proofs/Boots.lean ====
section
/-! Loss of power, the sideband pins and the cold boot (R205, R378 to R380, R421). -/

namespace Sys2Proof.Machine

section
variable {s : State}

/-! ## Power and pins -/

/-- Clause of O55: a power loss loses all but the fuses and leaves every LP_Sn_RESET_N low. -/
theorem powerLoss_loses :
    ∃ t, exec .powerLoss s = .next t ∧ t.pins.porst = false ∧ t.mem = [] ∧ t.clock = 0 ∧ t.households = {} ∧ t.jobs = {} ∧ t.tensors = {} ∧
      t.logRing = {} ∧ t.lifecycle ≠ .test ∧ t.part = s.part ∧ t.hostMem = s.hostMem ∧ (∀ c, (t.ctl c).resetN = false) ∧ t.rails = {} := by
  refine ⟨_, rfl, rfl, rfl, rfl, rfl, rfl, rfl, rfl, ?_, rfl, rfl, fun _ => rfl, rfl⟩
  cases h : s.lifecycle <;> simp [State.lost, h]

/-- Clause of O55: at 120 °C every clock stops. -/
theorem thermtrip_stops {d : Nat} (hc : s.clocked = true) (hd : d < s.dieCount) :
    ∃ t, exec (.thermtrip d) s = .next t ∧ t.stopped = true ∧ t.pins.thermtrip = false ∧ (t.die d).tripped = true ∧ t.mem = [] ∧ t.jobs = {} ∧
      t.clocked = false := by
  refine ⟨_, if_pos ⟨hc, hd⟩, rfl, rfl, ?_, rfl, rfl, ?_⟩
  · rw [State.die_modDie]
  · exact Bool.and_false _

/-- Clause of O55: a regulator fault is recorded. -/
theorem pmbAlert_recorded {rail : Nat} (hc : s.clocked = true) :
    ∃ t, exec (.pmbAlert rail) s = .next t ∧ t.pins = { s.pins with pmbAlert := false } ∧ t.logNext = s.logNext + 1 :=
  ⟨_, if_pos hc, State.logEvent_pins .., State.logEvent_logNext _ (State.suppressed_of_ne _ (by decide : 2 ≠ 1))⟩

/-! ## The sites of a boot -/

/-- Of two states only controllers, the LPDDR of the dies and the Logbook differ. -/
def State.Trains (s t : State) : Prop :=
  t = { s with
    controllers := t.controllers, dies := t.dies, noticeQ := t.noticeQ, msixPend := t.msixPend, hostOut := t.hostOut, logNext := t.logNext
    logRing := t.logRing }

theorem State.Trains.trans {t u : State} (h : s.Trains t) (k : t.Trains u) : s.Trains u := by
  unfold State.Trains at h k ⊢
  rw [k, h]

theorem ctlKey_site (i : Nat) : ctlKey ⟨i / 6, i % 6⟩ = i := by
  show i / 6 * 6 + i % 6 = i
  omega

/-- The controller of a site that has trained. -/
def State.siteCtl (s : State) (o : BootOutcome) (i : Nat) (c : Controller) : Controller :=
  { c with
    resetN := true, rate := if siteOutcome o i = .failed then 3 else if slowSites o s.dieCount then 1 else 2
    density := if siteOutcome o i = .otherDensity then !decide (s.part.density = .gib128) else decide (s.part.density = .gib128) }

theorem State.trainSite_eq (o : BootOutcome) (s : State) (i : Nat) : s.trainSite o i =
    if siteBad (siteOutcome o i) then
      ((s.modCtl ⟨i / 6, i % 6⟩ (s.siteCtl o i)).modDie (i / 6) fun y => { y with noLpddr := true }).logEvent
        { cls := 2, severity := 0, die := i / 6, place := i % 6, event := 4 }
    else s.modCtl ⟨i / 6, i % 6⟩ (s.siteCtl o i) := rfl

theorem State.trains_trainSite (o : BootOutcome) (s : State) (i : Nat) : s.Trains (s.trainSite o i) := by
  rw [State.trainSite_eq]
  split
  · generalize hu : State.modDie _ _ _ = u
    have hsu : s.Trains u := by
      rw [← hu]
      rfl
    refine hsu.trans ?_
    have hf := u.logEvent_frame { cls := 2, severity := 0, die := i / 6, place := i % 6, event := 4 }
    rw [u.logEvent_ident (by decide : BitVec.ofNat 2 0 ≠ 3)] at hf
    unfold State.Trains
    rwa [State.logEvent_controllers]
  · rfl

theorem State.resetN_trainSite (o : BootOutcome) (s : State) (i : Nat) (c : CtlRef) :
    ((s.trainSite o i).ctl c).resetN = true ↔ ctlKey c = i ∨ (s.ctl c).resetN = true := by
  have hctl : (s.trainSite o i).controllers = s.controllers.set i (s.siteCtl o i (s.ctl ⟨i / 6, i % 6⟩)) := by
    rw [State.trainSite_eq]
    split
    · rw [State.logEvent_controllers]
      exact congrArg (fun k => s.controllers.set k _) (ctlKey_site i)
    · exact congrArg (fun k => s.controllers.set k _) (ctlKey_site i)
  unfold State.ctl
  rw [hctl]
  by_cases hc : ctlKey c = i
  · rw [hc, Tab.get_set_same]
    simp [State.siteCtl]
  · rw [Tab.get_set_ne _ _ _ hc]
    simp [hc]

theorem State.noLpddr_trainSite (o : BootOutcome) (s : State) (i d : Nat) :
    ((s.trainSite o i).die d).noLpddr = true ↔ (d = i / 6 ∧ siteBad (siteOutcome o i) = true) ∨ (s.die d).noLpddr = true := by
  rw [State.trainSite_eq]
  by_cases hbad : siteBad (siteOutcome o i) = true
  · rw [if_pos hbad]
    obtain ⟨b, hb⟩ := State.logEvent_die ((s.modCtl ⟨i / 6, i % 6⟩ (s.siteCtl o i)).modDie (i / 6) fun y => { y with noLpddr := true })
      { cls := 2, severity := 0, die := i / 6, place := i % 6, event := 4 } d
    rw [hb]
    by_cases hd : d = i / 6
    · subst hd
      rw [State.die_modDie]
      simp [hbad]
    · have hother : ((s.modCtl ⟨i / 6, i % 6⟩ (s.siteCtl o i)).modDie (i / 6) fun y => { y with noLpddr := true }).die d = s.die d :=
        Tab.get_set_ne _ _ _ hd
      rw [hother]
      simp [hd]
  · rw [if_neg hbad]
    simp [hbad]
    rfl

/-- What the training of sites does, together. -/
theorem State.trainSites_spec (o : BootOutcome) (l : List Nat) (s : State) :
    s.Trains (l.foldl (State.trainSite o) s) ∧
      (∀ c, ((l.foldl (State.trainSite o) s).ctl c).resetN = true ↔ ctlKey c ∈ l ∨ (s.ctl c).resetN = true) ∧
      ∀ d, ((l.foldl (State.trainSite o) s).die d).noLpddr = true ↔
        (∃ i ∈ l, d = i / 6 ∧ siteBad (siteOutcome o i) = true) ∨ (s.die d).noLpddr = true := by
  induction l generalizing s with
  | nil => exact ⟨rfl, fun c => by simp, fun d => by simp⟩
  | cons i l ih =>
    obtain ⟨hframe, hreset, hlpddr⟩ := ih (s.trainSite o i)
    refine ⟨(s.trains_trainSite o i).trans hframe, fun c => ?_, fun d => ?_⟩
    · rw [List.foldl_cons, hreset, State.resetN_trainSite, List.mem_cons, or_assoc, or_left_comm]
    · rw [List.foldl_cons, hlpddr, State.noLpddr_trainSite, List.exists_mem_cons_iff, or_assoc, or_left_comm]

/-! ## Cold boot -/

variable (s) in
/-- The package as PORST_N rises (R378, R420). -/
def State.risen : State := { s.lost with pins := { s.lost.pins with porst := true }, pcieSris := s.part.strapPcieClk }

theorem execColdBoot_of_low (o : BootOutcome) (hp : s.pins.porst = false) : exec (.coldBoot o) s =
    if o.copyA || o.copyB then .next ((s.risen.loadCopies o.copyA o.copyB).boot o)
    else .next { s.risen.loadCopies o.copyA o.copyB with ident := { (s.risen.loadCopies o.copyA o.copyB).ident with state := .failed } } :=
  if_neg (by rw [hp]; decide)

/-- Clause of O55: a boot without a good copy is FAILED. -/
theorem coldBoot_failsWithoutCopy (o : BootOutcome) (hp : s.pins.porst = false) (ha : o.copyA = false) (hb : o.copyB = false) :
    ∃ t, exec (.coldBoot o) s = .next t ∧ t.ident.state = .failed ∧ t.pins.porst = true := by
  have hpins : (s.risen.loadCopies o.copyA o.copyB).pins = s.risen.pins :=
    (congrArg State.pins (State.tests_loadCopies s.risen o.copyA o.copyB).frame :)
  refine ⟨_, (execColdBoot_of_low o hp).trans (if_neg (by simp [ha, hb])), rfl, ?_⟩
  exact congrArg Pins.porst hpins

/-- The state after the sites and the self-tests of a boot. -/
def State.selfTested (s : State) (o : BootOutcome) : State :=
  (o.repaired.foldl (fun t m => t.logRepair m.die)
    (o.badSlots.foldl State.bootSlot ((List.range (6 * s.dieCount)).foldl (State.trainSite o) s))).testBanks o.banks

theorem State.tests_selfTested (s : State) (o : BootOutcome) :
    ((List.range (6 * s.dieCount)).foldl (State.trainSite o) s).Tests (s.selfTested o) :=
  .trans ((State.Tests.refl.foldl fun _ _ ht => ht.bootSlot).foldl fun _ _ ht => ht.logRepair) (State.tests_testBanks _ _)

/-- Every controller of the package has left its reset. -/
theorem State.resetN_selfTested (s : State) (o : BootOutcome) {d c : Nat} (hd : d < s.dieCount) (hc : c < 6) :
    ((s.selfTested o).ctl ⟨d, c⟩).resetN = true := by
  have hctl : (s.selfTested o).controllers = ((List.range (6 * s.dieCount)).foldl (State.trainSite o) s).controllers :=
    (congrArg State.controllers (s.tests_selfTested o).frame :)
  have hmem : ctlKey ⟨d, c⟩ ∈ List.range (6 * s.dieCount) := List.mem_range.2 (by show d * 6 + c < _; omega)
  unfold State.ctl
  rw [hctl]
  exact ((State.trainSites_spec o _ s).2.1 ⟨d, c⟩).2 (.inl hmem)

/-- A die all of whose sites train keeps its LPDDR. -/
theorem State.noLpddr_selfTested (s : State) (o : BootOutcome) {d : Nat} (h : (s.die d).noLpddr = false)
    (hgood : ∀ c < 6, siteOutcome o (6 * d + c) = .rate9600 ∨ siteOutcome o (6 * d + c) = .rate8533) :
    ((s.selfTested o).die d).noLpddr = false := by
  rw [(s.tests_selfTested o).noLpddr, Bool.eq_false_iff, ne_eq, (State.trainSites_spec o _ s).2.2 d]
  rintro (⟨i, -, hi, hbad⟩ | hn)
  · have hsite : 6 * d + i % 6 = i := by omega
    have hi' := hgood (i % 6) (Nat.mod_lt _ (by decide))
    rw [hsite] at hi'
    rcases hi' with h | h <;> rw [h] at hbad <;> cases hbad
  · rw [h] at hn
    cases hn

/-- A boot without a board description, with LPDDR at some die. -/
theorem State.boot_of_noBoard (s : State) (o : BootOutcome) (hb : o.board = none)
    (hd : ∃ d < s.dieCount, ((s.selfTested o).die d).noLpddr = false) : s.boot o = { s.selfTested o with
      ident := { (s.selfTested o).ident with state := .ready, fwVersion := o.version, fwBuild := o.build, math := o.math } } := by
  obtain ⟨d, hlt, hfree⟩ := hd
  have hany : ((List.range s.dieCount).any fun d => !((s.selfTested o).die d).noLpddr) = true :=
    List.any_eq_true.2 ⟨d, List.mem_range.2 hlt, by rw [hfree]; rfl⟩
  have hok : (if ((List.range s.dieCount).any fun d => !((s.selfTested o).die d).noLpddr) = true then IdentState.ready else .failed) = .ready :=
    if_pos hany
  have hboot : s.boot o = { s.selfTested o with
      ident := { (s.selfTested o).ident with
        fwVersion := o.version, fwBuild := o.build, math := o.math
        state := if ((List.range s.dieCount).any fun d => !((s.selfTested o).die d).noLpddr) = true then .ready else .failed } } := by
    unfold State.boot
    rw [hb]
    rfl
  rw [hboot, hok]

/-- Clause of O55: a boot with a good copy and LPDDR is READY. -/
theorem coldBoot_ready (o : BootOutcome) (hp : s.pins.porst = false) (ha : o.copyA = true)
    (hgood : ∃ d < s.dieCount, ∀ c < 6, siteOutcome o (6 * d + c) = .rate9600 ∨ siteOutcome o (6 * d + c) = .rate8533) (hb : o.board = none) :
    ∃ t, exec (.coldBoot o) s = .next t ∧ t.ident = { state := .ready, fwVersion := o.version, fwBuild := o.build, math := o.math } ∧
      t.clock = 0 ∧ t.mem = [] ∧ t.pins.porst = true ∧ t.households = {} ∧ t.postboxes = {} ∧ t.pcieSris = s.part.strapPcieClk ∧
      ∀ d, d < s.dieCount → ∀ c, c < 6 → (t.ctl ⟨d, c⟩).resetN = true := by
  obtain ⟨d, hd, hsites⟩ := hgood
  have hcopy : s.risen.loadCopies o.copyA o.copyB = s.risen := if_pos ha
  have hlpddr : ∃ d < s.risen.dieCount, ((s.risen.selfTested o).die d).noLpddr = false :=
    ⟨d, hd, s.risen.noLpddr_selfTested o rfl hsites⟩
  have hexec : exec (.coldBoot o) s = .next (s.risen.boot o) := by
    rw [execColdBoot_of_low o hp, if_pos (by rw [ha]; rfl), hcopy]
  have htrain := (State.trainSites_spec o (List.range (6 * s.risen.dieCount)) s.risen).1
  have htest := s.risen.tests_selfTested o
  generalize (List.range (6 * s.risen.dieCount)).foldl (State.trainSite o) s.risen = a at htrain htest
  have hident : (s.risen.selfTested o).ident = {} := (congrArg State.ident htest.frame :).trans (congrArg State.ident htrain :)
  have hclock : (s.risen.selfTested o).clock = 0 := (congrArg State.clock htest.frame :).trans (congrArg State.clock htrain :)
  have hpins : (s.risen.selfTested o).pins = s.risen.pins := (congrArg State.pins htest.frame :).trans (congrArg State.pins htrain :)
  have hhouse : (s.risen.selfTested o).households = {} := (congrArg State.households htest.frame :).trans (congrArg State.households htrain :)
  have hbox : (s.risen.selfTested o).postboxes = {} := (congrArg State.postboxes htest.frame :).trans (congrArg State.postboxes htrain :)
  have hsris : (s.risen.selfTested o).pcieSris = s.part.strapPcieClk :=
    (congrArg State.pcieSris htest.frame :).trans (congrArg State.pcieSris htrain :)
  have hmem : (s.risen.selfTested o).mem = [] := htest.mem (congrArg State.mem htrain :)
  refine ⟨_, hexec, ?_⟩
  rw [s.risen.boot_of_noBoard o hb hlpddr]
  refine ⟨?_, hclock, hmem, congrArg Pins.porst hpins, hhouse, hbox, hsris, fun e he c hc => s.risen.resetN_selfTested o he hc⟩
  show ({ (s.risen.selfTested o).ident with state := .ready, fwVersion := o.version, fwBuild := o.build, math := o.math } : Ident) = _
  rw [hident]

end

end Sys2Proof.Machine
end

