-- ==== Sys2Proof/Proofs/FunctionResets.lean ====
section
/-! What the loss of a VF takes from a package (R334, R351, R382): `State.Unmaps` says what the clearing of page table entries leaves. -/

namespace Sys2Proof.Machine

section
variable {s t u : State}

/-! ## Where page tables lie -/

theorem State.dieCount_congr (hp : t.part = s.part) : t.dieCount = s.dieCount := by
  unfold State.dieCount
  rw [hp]

/-- Which dies have LPDDR decides where the reserved regions lie. -/
theorem State.reservedAddr_congr (hp : t.part = s.part) (hd : ∀ d, (t.die d).noLpddr = (s.die d).noLpddr) (d off : Nat) :
    t.reservedAddr d off = s.reservedAddr d off := by
  have hhost : t.hostDie = s.hostDie := by
    funext e
    simp only [State.hostDie, hd, State.dieCount_congr hp]
  simp only [State.reservedAddr, State.topPages, State.hosted, hp, hd, hhost, State.dieCount_congr hp]

theorem State.reservedAddr_add (s : State) (d off : Nat) : s.reservedAddr d off = s.reservedAddr d 0 + off := by
  unfold State.reservedAddr
  split <;> rw [Nat.add_zero]

theorem State.pteAddr_eq (s : State) (d hh page : Nat) : s.pteAddr d hh page = s.pteAddr d hh 0 + 8 * page := by
  unfold State.pteAddr
  rw [s.reservedAddr_add d ((s.household hh).ptBase + 8 * page), s.reservedAddr_add d ((s.household hh).ptBase + 8 * 0)]
  omega

/-! ## Entries cleared -/

/-- Of two states only memory in the copies of a household's page table and the translation caches differ. -/
structure State.Unmaps (hh : Nat) (s t : State) : Prop where
  frame : t = { s with mem := t.mem, dies := t.dies }
  noLpddr : ∀ d, (t.die d).noLpddr = (s.die d).noLpddr
  wf : s.mem.wf = true → t.mem.wf = true
  read : s.mem.wf = true → ∀ a, s.offTables hh 0 (s.household hh).ptLen a → t.mem.read a = s.mem.read a

theorem State.Unmaps.refl {hh : Nat} : s.Unmaps hh s := ⟨rfl, fun _ => rfl, id, fun _ _ _ => rfl⟩

theorem State.Unmaps.part {hh : Nat} (h : s.Unmaps hh t) : t.part = s.part := (congrArg State.part h.frame :)

theorem State.Unmaps.household {hh : Nat} (h : s.Unmaps hh t) : t.household hh = s.household hh := by
  have hhouse : t.households = s.households := (congrArg State.households h.frame :)
  unfold State.household
  rw [hhouse]

/-- The page tables lie where they lay. -/
theorem State.Unmaps.pteAddr {hh : Nat} (h : s.Unmaps hh t) (d page : Nat) : t.pteAddr d hh page = s.pteAddr d hh page := by
  unfold State.pteAddr
  rw [h.household]
  exact State.reservedAddr_congr h.part h.noLpddr d _

theorem State.Unmaps.offTables {hh n a : Nat} (h : s.Unmaps hh t) : t.offTables hh 0 n a ↔ s.offTables hh 0 n a := by
  unfold State.offTables
  simp only [h.pteAddr, State.dieCount_congr h.part]

theorem State.Unmaps.trans {hh : Nat} (h : s.Unmaps hh t) (k : t.Unmaps hh u) : s.Unmaps hh u := by
  refine ⟨?_, fun d => (k.noLpddr d).trans (h.noLpddr d), fun hw => k.wf (h.wf hw), fun hw a ha => ?_⟩
  · rw [k.frame, h.frame]
  · rw [k.read (h.wf hw) a (by rwa [h.offTables, h.household]), h.read hw a ha]

theorem State.unmaps_forget (hh lo n : Nat) : s.Unmaps hh (s.forget hh lo n) := by
  refine ⟨rfl, fun d => ?_, id, fun _ _ _ => rfl⟩
  unfold State.die State.forget
  rw [Tab.get_mapV _ _ rfl]

/-- Entries written in the copy of every die. -/
theorem Memory.wf_writeCopies {m : Memory} (addr : Nat → Nat) (b : List Byte) (l : List Nat) (h : m.wf = true) :
    (l.foldl (fun m d => m.writeBytes (addr d) b) m).wf = true :=
  List.foldlRecOn (motive := fun m : Memory => m.wf = true) l _ h fun _ hm _ _ => Memory.wf_writeBytes _ _ hm

theorem Memory.read_writeCopies {m : Memory} {addr : Nat → Nat} {b : List Byte} {l : List Nat} {a : Nat} (h : m.wf = true)
    (ha : ∀ d ∈ l, a < addr d ∨ addr d + b.length ≤ a) : (l.foldl (fun m d => m.writeBytes (addr d) b) m).read a = m.read a := by
  have hboth := List.foldlRecOn (motive := fun n : Memory => n.wf = true ∧ n.read a = m.read a) l (fun m d => m.writeBytes (addr d) b) ⟨h, rfl⟩
    fun n hn d hd => ⟨Memory.wf_writeBytes _ _ hn.1, (Memory.read_writeBytes_out hn.1 _ _ _ (ha d hd)).trans hn.2⟩
  exact hboth.2

theorem State.unmaps_mapPages {hh page : Nat} (h : page < (s.household hh).ptLen) : s.Unmaps hh (s.mapPages hh page [0]) := by
  have hput : s.Unmaps hh (s.putPtes hh page [0]) := by
    refine ⟨rfl, fun _ => rfl, Memory.wf_writeCopies _ _ _, fun hw a ha => ?_⟩
    refine Memory.read_writeCopies hw fun d hd => ?_
    have hoff := ha d (List.mem_range.1 hd)
    have hlen : (List.flatMap (fun e : Word64 => toBytes 8 e.toNat) [0]).length = 8 := by decide
    rw [hlen, s.pteAddr_eq d hh page]
    omega
  exact hput.trans (State.unmaps_forget hh page 1)

theorem State.unmaps_unmapPages {hh : Nat} {l : List Nat} (h : ∀ i ∈ l, i < (s.household hh).ptLen) : s.Unmaps hh (s.unmapPages hh l) := by
  refine List.foldlRecOn l _ State.Unmaps.refl fun t ht i hi => ht.trans (State.unmaps_mapPages ?_)
  rw [ht.household]
  exact h i hi

/-- The pages that have entries lie in the page table. -/
theorem State.lt_of_mem_ptesOf {hh : Nat} {e : Nat × Word64} (h : e ∈ s.ptesOf hh) : e.1 < (s.household hh).ptLen := by
  unfold State.ptesOf at h
  obtain ⟨i, hi, rfl⟩ := List.mem_map.1 (List.mem_filter.1 h).1
  obtain ⟨c, hc, rfl⟩ := List.mem_map.1 (List.mem_dedup.1 hi)
  have hrange := (List.mem_filter.1 hc).2
  rw [Bool.and_eq_true, decide_eq_true_iff, decide_eq_true_iff] at hrange
  show (c.1 - s.pteAddr 0 hh 0) / 8 < _
  omega

/-- The pages of a household cleared, as its loss clears them. -/
def State.cleared (s : State) (hh : Nat) : State := (s.forget hh 0 (s.household hh).ptLen).unmapPages hh ((s.ptesOf hh).map Prod.fst)

theorem State.unmaps_cleared (s : State) (hh : Nat) : s.Unmaps hh (s.cleared hh) := by
  have hforget : s.Unmaps hh (s.forget hh 0 (s.household hh).ptLen) := State.unmaps_forget hh 0 _
  refine hforget.trans (State.unmaps_unmapPages fun i hi => ?_)
  obtain ⟨e, he, rfl⟩ := List.mem_map.1 hi
  rw [hforget.household]
  exact State.lt_of_mem_ptesOf he

/-! ## A VF FLR -/

theorem execVfFlr_of_answers {n : Nat} (ha : s.answers = true) (hb : s.vfBox n = true) (hr : s.resetStep ≠ .heldAtFive) :
    exec (.vfFlr n) s = .next (s.loseVf n) := if_pos ⟨ha, hb, hr⟩

/-- A VF without a household loses its postbox. -/
theorem State.loseVf_of_unbound {n : Nat} (h : s.vfHousehold n = 0) : s.loseVf n = s.coldBox n := by
  unfold State.loseVf
  rw [if_pos h]

theorem State.forgetHousehold_eq (s : State) (hh : Nat) : s.forgetHousehold hh =
    { s.cleared hh with
      households := (s.cleared hh).households.del hh
      tensors := (s.cleared hh).tensors.mapV fun _ x => { x with maps := x.maps.filter fun m => m.1 != hh }
      keySlots := (s.cleared hh).keySlots.keep fun _ x => x.owner != hh
      bar2Household := if (s.cleared hh).bar2Household = hh then 0 else (s.cleared hh).bar2Household } := rfl

/-- A household without jobs that hold resources. -/
theorem State.loseHousehold_of_idle {h : Nat} (hj : s.jobsOfHousehold h = []) : s.loseHousehold h =
    { (s.loseServing h).forgetHousehold h with
      jobs := ((s.loseServing h).forgetHousehold h).jobs.keep fun _ j => j.household != h
      deepSave := ((s.loseServing h).forgetHousehold h).deepSave.map fun x => x.without h } := by
  unfold State.loseHousehold
  rw [hj]
  rfl

/-- What a table keeps satisfies the filter. -/
theorem Tab.mem_keep {α : Type} {t : Tab α} {p : Nat → α → Bool} {e : Nat × α} (h : e ∈ (t.keep p).cells) : p e.1 e.2 = true :=
  (List.mem_filter.1 h).2

/-- Clause of O55: what a VF FLR takes. -/
theorem vfFlr_loses {n h : Nat} (ha : s.answers = true) (hb : s.vfBox n = true) (hr : s.resetStep ≠ .heldAtFive) :
    (s.vfHousehold n = 0 → exec (.vfFlr n) s = .next { s with
        postboxes := s.postboxes.del n, noticeQ := s.noticeQ.filter fun x => x.pb != n }) ∧
      (h = s.vfHousehold n → h ≠ 0 → s.jobsOfHousehold h = [] → ∃ t, exec (.vfFlr n) s = .next t ∧
        t.households = s.households.del h ∧ t.postboxes = s.postboxes.del n ∧ t.keySlots = (s.keySlots.keep fun _ x => x.owner != h) ∧
        (∀ e ∈ t.ledger.cells, e.2.household ≠ h) ∧ (∀ e ∈ t.jobs.cells, e.2.household ≠ h) ∧ t.pressSlots = s.pressSlots ∧
        (s.mem.wf = true → ∀ a, s.offTables h 0 (s.household h).ptLen a → t.mem.read a = s.mem.read a)) := by
  have hexec := execVfFlr_of_answers ha hb hr
  refine ⟨fun hz => hexec.trans (congrArg _ (State.loseVf_of_unbound hz)), fun hh hne hj => ?_⟩
  have hlose : s.loseVf n = (s.loseHousehold h).coldBox n := by
    unfold State.loseVf
    rw [← hh, if_neg hne]
  rw [hlose, State.loseHousehold_of_idle hj, State.forgetHousehold_eq] at hexec
  have hclear := (s.loseServing h).unmaps_cleared h
  generalize (s.loseServing h).cleared h = c at hexec hclear
  have hhouse : c.households = s.households := (congrArg State.households hclear.frame :)
  have hbox : c.postboxes = s.postboxes := (congrArg State.postboxes hclear.frame :)
  have hkey : c.keySlots = s.keySlots := (congrArg State.keySlots hclear.frame :)
  have hledger : c.ledger = s.ledger.keep fun _ x => x.household != h := (congrArg State.ledger hclear.frame :)
  have hpress : c.pressSlots = s.pressSlots := (congrArg State.pressSlots hclear.frame :)
  refine ⟨_, hexec, congrArg (fun t => Tab.del t h) hhouse, congrArg (fun t => Tab.del t n) hbox,
    congrArg (Tab.keep fun _ (x : KeySlot) => x.owner != h) hkey, fun e he => ?_, fun e he => bne_iff_ne.1 (Tab.mem_keep he), hpress, hclear.read⟩
  have hkept : e ∈ c.ledger.cells := he
  rw [hledger] at hkept
  exact bne_iff_ne.1 (Tab.mem_keep hkept)

/-- Clause of O55: VF_ENABLE sets the number of VFs, and one that only raises it does nothing else. -/
theorem vfEnable_sets {n : Nat} (ha : s.answers = true) :
    (s.numVFs ≤ n → exec (.vfEnable n) s = .next { s with numVFs := n }) ∧ ∃ t, exec (.vfEnable n) s = .next t ∧ t.numVFs = n := by
  have hexec : exec (.vfEnable n) s =
      .next { (List.range (s.numVFs - n)).foldl (fun t i => t.loseVf (n + 1 + i)) s with numVFs := n } := if_pos ha
  refine ⟨fun hle => ?_, _, hexec, rfl⟩
  rw [hexec, Nat.sub_eq_zero_of_le hle]
  rfl

end

end Sys2Proof.Machine
end

