-- ==== Sys2Proof/Proofs/ResetClasses.lean ====
section
/-! The statement about the reset classes, put together. -/

namespace Sys2Proof.Machine

theorem State.stateAfter_eq (s : State) :
    s.stateAfter = if s.ident.state = .undefined then .undefined else if s.ident.state = .failed then .failed else .ready := by
  unfold State.stateAfter
  cases s.ident.state <;> rfl

/-- Settles O55, clause by clause: the reset of the fast domains and what follows it (`resets_leave`), the hot resets and the records before them,
the warm reset with its pin and its self-test, power and boot, and the resets of functions. -/
theorem resetsLeaveWhatSurvives : Obligations.ResetsLeaveWhatSurvives := by
  unfold Obligations.ResetsLeaveWhatSurvives
  intro s
  refine ⟨fun i st hr hj hw hf _ hcase => ?_, fun aer u hu hr => ?_, fun bad hc hb => logAer_records bad hc hb,
    fun o hc hr hs ha hb => warmReset_failsWithoutCopy o hc hr hs ha hb, fun k c => warmReset_answersFirst, fun ns => execWrstN_short,
    fun ns => execWrstN_between, fun ns => wrstN_holdsAtFive, fun o => wrstNDeassert_ends o, fun o => wrstNDeassert_testsBanks o, powerLoss_loses,
    fun d => thermtrip_stops, fun rail => pmbAlert_recorded, rfl, fun o => coldBoot_ready o, fun o => coldBoot_failsWithoutCopy o,
    fun n h => vfFlr_loses, fun n => vfEnable_sets⟩
  · obtain ⟨hhot, hflr, hwarm⟩ := resets_leave hr hj hw hf
    rw [State.stateAfter_eq] at hhot hflr
    rcases hcase with ⟨rfl | rfl, rfl⟩ | ⟨o, rfl, hstep, hsig, hstate, hlife, hret, hbanks, rfl⟩
    · exact hhot
    · exact hflr
    · exact hwarm o hstep hsig hstate hlife hret hbanks
  · subst hu
    exact hotResets_agree aer hr

end Sys2Proof.Machine
end

