-- ==== Sys2Proof/Proofs/MillInputs.lean ====
section
/-! A compute descriptor that starts on one slot of its ring (R69, R70, R86, R107), and what its lines are at its end (R82 to R84): the facts that
the three compute instructions of a Mill have in common. -/

namespace Sys2Proof.Machine

/-! ## Replacing a unit twice -/

theorem insertCell_insertCell {α : Type} (l : List (Nat × α)) (k : Nat) (v w : α) : insertCell (insertCell l k v) k w = insertCell l k w := by
  induction l with
  | nil => simp [insertCell]
  | cons c t ih =>
    obtain ⟨a, x⟩ := c
    rcases Nat.lt_trichotomy k a with hlt | rfl | hgt
    · simp [insertCell, hlt]
    · simp [insertCell]
    · simp [insertCell, ih, Nat.lt_asymm hgt, Nat.ne_of_gt hgt]

@[simp] theorem Tab.set_set {α : Type} (t : Tab α) (k : Nat) (v w : α) : (t.set k v).set k w = t.set k w :=
  congrArg Tab.mk (insertCell_insertCell ..)

@[simp] theorem State.setRing_setRing (s : State) (r : RingRef) (x y : Ring) : (s.setRing r x).setRing r y = s.setRing r y := by
  simp [State.setRing, State.modHamlet, State.setHamlet, State.hamlet]

@[simp] theorem State.setMill_setMill (s : State) (u : MillRef) (x y : Mill) : (s.setMill u x).setMill u y = s.setMill u y := by
  simp [State.setMill, State.modHamlet, State.setHamlet, State.hamlet]

/-! ## The slot that a ring offers, as the input of a unit -/

variable {s : State} {u : MillRef} {r : RingRef} {i : Nat}

/-- A ring offers its slot whatever the Mills hold. -/
theorem State.offers.setMill (h : s.offers r i) (x : Mill) : (s.setMill u x).offers r i := by
  have hover : ((s.setMill u x).hamlet (ringSlot r)).ringsOverlap r.idx = (s.hamlet (ringSlot r)).ringsOverlap r.idx := by
    unfold Hamlet.ringsOverlap
    rw [State.setMill_hamlet_rings]
  unfold State.offers
  rw [State.setMill_hamlet_power, State.ring_setMill, hover]
  exact h

/-- The payload of a slot is read past the Mills. -/
@[simp] theorem State.slotIn_setMill (s : State) (u : MillRef) (x : Mill) (r : RingRef) (i : Nat) : (s.setMill u x).slotIn r i = s.slotIn r i :=
  State.slotIn_congr (s := s) (u := s.setMill u x) (State.padRead_congr rfl rfl rfl (State.fenced_setMill s u x))
    (congrArg Ring.base (State.ring_setMill s u x r)) (congrArg Ring.stride (State.ring_setMill s u x r)) i

/-- The ring after a unit claimed slot `i`, which `Ring.used` then releases. -/
def Ring.claimed (x : Ring) (m : HamletRef) (a : RingAgent) (i : Nat) : Ring :=
  { x.setSlot i .claimed with claim := x.after i, grant := portAfter (agentPort m a) }

theorem Ring.claimed_base (x : Ring) (m : HamletRef) (a : RingAgent) (i : Nat) : (x.claimed m a i).base = x.base := x.setSlot_base i .claimed

theorem Ring.claimed_stride (x : Ring) (m : HamletRef) (a : RingAgent) (i : Nat) : (x.claimed m a i).stride = x.stride :=
  x.setSlot_stride i .claimed

/-- Where the slot that a ring offers is input enough, and nothing is not, a unit takes that slot, releases it and has its input. -/
theorem State.input_offers (h : s.offers r i) {unit ref : Nat} {enough : List SlotIn → Bool} (href : s.ringAt (millSlot u) ref = .job r)
    (hnil : enough [] = false) (hone : enough [s.slotIn r i] = true) :
    s.input u unit ref [] enough =
      (.ready [s.slotIn r i], [s.slotIn r i], s.setRing r ((s.ring r).used (ringSlot r) (.mill u unit) i)) := by
  have hclaim : s.engineSlot r (.mill u unit) true = (some i, s.setRing r ((s.ring r).claimed (ringSlot r) (.mill u unit) i)) :=
    engineSlot_offers h _
  have hslot : (s.setRing r ((s.ring r).claimed (ringSlot r) (.mill u unit) i)).slotIn r i = s.slotIn r i :=
    State.slotIn_setRing (Ring.claimed_base ..) (Ring.claimed_stride ..) i
  have hrel : (s.setRing r ((s.ring r).claimed (ringSlot r) (.mill u unit) i)).releaseSlot r i =
      s.setRing r ((s.ring r).used (ringSlot r) (.mill u unit) i) := by
    have hpower : ((s.setRing r ((s.ring r).claimed (ringSlot r) (.mill u unit) i)).hamlet (ringSlot r)).power = .active :=
      (State.setRing_hamlet_power ..).trans h.1
    exact (release_used s r i h (.mill u unit) _ rfl _ (State.ring_setRing ..) hpower).trans (State.setRing_setRing ..)
  have henough (n : Nat) (t : State) : State.gatherSlots r (.mill u unit) enough n [s.slotIn r i] t = ([s.slotIn r i], true, t) := by
    cases n <;> simp [State.gatherSlots, hone]
  have hgather (n : Nat) : State.gatherSlots r (.mill u unit) enough (n + 1) [] s =
      ([s.slotIn r i], true, s.setRing r ((s.ring r).used (ringSlot r) (.mill u unit) i)) := by
    simp only [State.gatherSlots, hnil, Bool.false_eq_true, if_false, hclaim, List.nil_append, hslot, hrel, henough]
  simp [State.input, href, hgather]

/-- A slot without poison is used as it came. -/
theorem State.freePoison_clean {x : SlotIn} (h : x.poison = false) (s : State) : State.freePoison [x] s = ([x], s) := by
  simp [State.freePoison, h]

/-! ## The start of a compute descriptor -/

/-- A Mill whose compute unit has started its oldest descriptor `e`, with `q` waiting behind it. -/
def Mill.started (x : Mill) (e : Dispatched) (q : List Dispatched) : Mill :=
  { x with compQ := q, compRun := some ⟨e, []⟩, cls := classOf e.desc, draining := false }

/-- Mill `u` has started its oldest descriptor `e` and taken slot `i` of ring `r` for it. -/
def State.computeStarts (s : State) (u : MillRef) (e : Dispatched) (q : List Dispatched) (r : RingRef) (i : Nat) : State :=
  (s.setMill u ((s.mill u).started e q)).setRing r ((s.ring r).used (ringSlot r) (.mill u 1) i)

@[simp] theorem State.mill_computeStarts (s : State) (u : MillRef) (e : Dispatched) (q : List Dispatched) (r : RingRef) (i : Nat) :
    (s.computeStarts u e q r i).mill u = (s.mill u).started e q := (State.mill_setRing ..).trans (State.mill_setMill ..)

/-- A valid compute descriptor, free of interlocks and class change, whose rows the offered slot holds, runs on that slot (R69, R70, R86). -/
theorem State.computeUnit_offers {e : Dispatched} {q : List Dispatched} (f : Vec → State → List SlotIn → Bool → State)
    (hactive : (s.hamlet (millSlot u)).power = .active) (hrun : (s.mill u).compRun = none) (hq : (s.mill u).compQ = e :: q)
    (hfree : (s.mill u).computeFree e = true) (hclass : (s.mill u).needsDrain e.desc = false ∨ (s.mill u).draining = true)
    (hvalid : computeValid e.desc = true) (href : s.ringAt (millSlot u) (fieldOf e.desc 64 13) = .job r) (hoff : s.offers r i)
    (hrows : rowsReady e.desc [s.slotIn r i] = true) :
    s.computeUnit u (descType e.desc) f =
      let z := State.freePoison [s.slotIn r i] (s.computeStarts u e q r i)
      .next ((f e.desc z.2 z.1 false).busy (millSlot u)) := by
  have hinput : (s.setMill u ((s.mill u).started e q)).input u 1 (fieldOf e.desc 64 13) [] (rowsReady e.desc) =
      (.ready [s.slotIn r i], [s.slotIn r i], s.computeStarts u e q r i) := by
    have h := State.input_offers (s := s.setMill u ((s.mill u).started e q)) (u := u) (hoff.setMill _) (unit := 1)
      (enough := rowsReady e.desc) href rfl (by rw [State.slotIn_setMill]; exact hrows)
    rwa [State.slotIn_setMill, State.ring_setMill] at h
  have hruns : s.millRuns u = true := decide_eq_true hactive
  unfold State.computeUnit
  simp only [hruns, hrun, hq, hfree, hclass, Bool.not_true, Bool.false_eq_true, if_false, and_self, if_true]
  show (s.setMill u ((s.mill u).started e q)).computeGo u ⟨e, []⟩ (f e.desc) = _
  unfold State.computeGo
  simp only [hvalid, hinput, Bool.not_true, Bool.false_eq_true, if_false]

/-- Mill `u` has run descriptor `e` on slot `i` of ring `r`, and has become `y`; free values up to `c` are drawn. -/
def State.computeEnds (s : State) (u : MillRef) (e : Dispatched) (q : List Dispatched) (r : RingRef) (i : Nat) (y : Mill) (c : Nat) : State :=
  State.busy { (s.computeStarts u e q r i).setMill u y with freeCtr := c } (millSlot u)

section
variable (s : State) (u : MillRef) (e : Dispatched) (q : List Dispatched) (r : RingRef) (i : Nat) (y : Mill) (c : Nat)

theorem State.computeEnds_onlyHamlets : s.onlyHamlets (s.computeEnds u e q r i y c) := onlyHamlets_busy _ rfl

@[simp] theorem State.mill_computeEnds : (s.computeEnds u e q r i y c).mill u = y :=
  (State.mill_busy ..).trans (State.mill_setMill (s.computeStarts u e q r i) u y)

@[simp] theorem State.hand_computeEnds (h : HandRef) : (s.computeEnds u e q r i y c).hand h = s.hand h :=
  calc (s.computeEnds u e q r i y c).hand h
    _ = ((s.computeStarts u e q r i).setMill u y).hand h := State.hand_busy ..
    _ = (s.computeStarts u e q r i).hand h := State.hand_setMill ..
    _ = (s.setMill u ((s.mill u).started e q)).hand h := State.hand_setRing ..
    _ = s.hand h := State.hand_setMill ..

@[simp] theorem State.ring_computeEnds : (s.computeEnds u e q r i y c).ring r = (s.ring r).used (ringSlot r) (.mill u 1) i :=
  calc (s.computeEnds u e q r i y c).ring r
    _ = ((s.computeStarts u e q r i).setMill u y).ring r := State.ring_busy ..
    _ = (s.computeStarts u e q r i).ring r := State.ring_setMill ..
    _ = (s.ring r).used (ringSlot r) (.mill u 1) i := State.ring_setRing ..

end

/-! ## Lines of the accumulator -/

/-- Lines put into the accumulator leave the lines before and after them. -/
theorem putLines_outside (ls : List AccLine) (t : Tab AccLine) {a n : Nat} (h : n < a ∨ a + ls.length ≤ n) :
    (putLines t a ls).get {} n = t.get {} n := by
  induction ls generalizing t a with
  | nil => rfl
  | cons l ls ih =>
    rw [List.length_cons] at h
    rw [putLines, ih _ (by omega)]
    split
    · exact Tab.get_set_ne _ _ _ (by omega)
    · rfl

/-- A line put into the accumulator stands there. -/
theorem putLines_at {ls : List AccLine} (t : Tab AccLine) {a m : Nat} {l : AccLine} (h : ls[m]? = some l) (hin : a + m < 1024) :
    (putLines t a ls).get {} (a + m) = l := by
  induction ls generalizing t a m with
  | nil => simp at h
  | cons l' ls ih =>
    rw [putLines]
    cases m with
    | zero =>
      obtain rfl : l' = l := by simpa using h
      show (putLines (if a < 1024 then t.set a l' else t) (a + 1) ls).get {} a = l'
      rw [putLines_outside ls _ (Or.inl (Nat.lt_add_one a)), if_pos (c := a < 1024) hin]
      exact Tab.get_set_same ..
    | succ m =>
      have := ih (if a < 1024 then t.set a l' else t) (a := a + 1) (by simpa using h) (by omega)
      rwa [Nat.add_right_comm] at this

/-- A Mill whose tile is marked poisoned keeps what other lines hold. -/
theorem Mill.poisonLines_outside (x : Mill) {a b n : Nat} (h : n < a ∨ b ≤ n) : (x.poisonLines a b).line n = x.line n :=
  putLines_outside _ _ (by rw [List.length_map, List.length_range]; omega)

/-- A line of a tile marked poisoned is as it was, and poisoned. -/
theorem Mill.poisonLines_at (x : Mill) {a b n : Nat} (ha : a ≤ n) (hb : n < b) (hin : n < 1024) :
    (x.poisonLines a b).line n = { x.line n with poison := true } := by
  obtain ⟨m, rfl⟩ := Nat.exists_eq_add_of_le ha
  exact putLines_at x.acc (by rw [List.getElem?_map, List.getElem?_range (by omega)]; rfl) hin

/-! ## The end of a compute descriptor -/

/-- The Mill after a compute descriptor: its lines are poisoned where it was, and its unit is idle (R82). -/
def Mill.computed (x : Mill) (d : Vec) (poisoned : Bool) : Mill :=
  { (if poisoned then x.poisonLines (lineSpan d).1 (lineSpan d).2 else x) with compRun := none }

/-- A compute descriptor whose input was sound reports nothing at its end. -/
theorem State.computeDone_sound (s : State) (u : MillRef) (d : Vec) (poisoned : Bool) :
    s.computeDone u d false false poisoned = s.modMill u fun x => x.computed d poisoned := by
  simp only [State.computeDone, Mill.computed, Bool.false_or, Bool.false_eq_true, if_false]

/-- Beside the lines and the run, the end of a compute descriptor changes nothing of the Mill. -/
theorem Mill.computed_eq (x : Mill) (d : Vec) (poisoned : Bool) :
    x.computed d poisoned = { x with acc := (x.computed d poisoned).acc, compRun := none } := by
  cases poisoned <;> rfl

theorem Mill.computed_outside (x : Mill) (d : Vec) (poisoned : Bool) {n : Nat} (h : n < (lineSpan d).1 ∨ (lineSpan d).2 ≤ n) :
    (x.computed d poisoned).line n = x.line n := by
  cases poisoned with
  | false => rfl
  | true => exact x.poisonLines_outside h

theorem Mill.computed_at (x : Mill) {d : Vec} (poisoned : Bool) {n : Nat} (ha : (lineSpan d).1 ≤ n) (hb : n < (lineSpan d).2) :
    (x.computed d poisoned).line n = { x.line n with poison := (x.line n).poison || poisoned } := by
  have hin : n < 1024 := Nat.lt_of_lt_of_le hb (Nat.min_le_right ..)
  cases poisoned with
  | false => rw [Bool.or_false]; rfl
  | true => rw [Bool.or_true]; exact x.poisonLines_at ha hb hin

/-- The lines of a tile that the accumulator has room for are those from ACC_BASE on. -/
theorem Mill.tileOk_fits {x : Mill} {d : Vec} {tag : AccTag} {l : List SlotIn} (h : x.tileOk d tag l = true) :
    descBase d + linesPerRow d * descRows d ≤ 1024 := by
  simp only [Mill.tileOk, Bool.and_eq_true, decide_eq_true_eq] at h
  exact h.1.2

end Sys2Proof.Machine
end

