-- ==== Sys2Proof/Proofs/MillLog.lean ====
section
/-! LOG_MM (R78 to R80): the lines that its rows give, and the statement about it. -/

namespace Sys2Proof.Machine

theorem linesPerRow_log {d : Vec} (htype : descType d = 0x04) : linesPerRow d = 1 := by simp [linesPerRow, htype]

/-- A row of a LOG_MM takes one line. -/
theorem lineSpan_log {d : Vec} (htype : descType d = 0x04) (hfits : descBase d + descRows d ≤ 1024) :
    lineSpan d = (descBase d, descBase d + descRows d) := by
  simp [lineSpan, linesPerRow_log htype, htype, hfits]

/-- The bias that a LOG_MM gives to a line that it does not add to: under ADD that of the first line where it is LNS16, else the sum of the biases of
the first row and the set. That it is so where the tags of the lines disagree is the choice of the model (R80, log entry 104). -/
def Mill.tileBias (x : Mill) (d : Vec) (bias : Byte) (l : List SlotIn) : Int :=
  if d.getLsbD 10 = true ∧ (x.line (descBase d)).tag = .lns16 then (x.line (descBase d)).bias.toInt
  else ((logRows d l).head?.map Prod.snd).getD 0 + biasOf bias

/-- The line that row `m` of a LOG_MM gives, with the dithers given for each element and addition, on a weight set of columns `cols` and bias `bias`
(R78, R80, R84). -/
def Mill.logLineAt (x : Mill) (d : Vec) (dither : Nat → Nat → Nat) (cols : List (List Byte)) (bias : Byte) (l : List SlotIn)
    (m : Nat) (a : List Byte × Int) : AccLine :=
  logLine (fun n w => dither (m * 128 + n) w) cols a.1 (a.2 + biasOf bias) (x.tileBias d bias l) (d.getLsbD 10) (lineSpan d)
    (x.line (descBase d + m))

/-- The lines that the rows of a LOG_MM give. -/
def Mill.logLines (x : Mill) (d : Vec) (dither : Nat → Nat → Nat) (cols : List (List Byte)) (bias : Byte) (l : List SlotIn) : List AccLine :=
  (logRows d l).zipIdx.map fun a => x.logLineAt d dither cols bias l a.2 a.1

/-- The Mill after a LOG_MM on input `l`: its lines stand in the accumulator, poisoned where the set was. -/
def Mill.logged (x : Mill) (d : Vec) (dither : Nat → Nat → Nat) (cols : List (List Byte)) (bias : Byte) (l : List SlotIn) : Mill :=
  Mill.computed { x with acc := putLines x.acc (descBase d) (x.logLines d dither cols bias l) } d (x.sets.get {} (fieldOf d 8 1)).poisoned

/-- A LOG_MM with a sound slot on an LNS8 set, whose tile is in order, makes its Mill `Mill.logged` and changes nothing else; a firmware stream also
draws free values (R65, R78, R82). -/
theorem State.logRun_sound {s : State} {u : MillRef} {d : Vec} {z : SlotIn} {k : Nat} {j : Job} {cols : List (List Byte)} {bias : Byte}
    (hset : ((s.mill u).sets.get {} (fieldOf d 8 1)).tile = .lns cols bias) (htile : (s.mill u).tileOk d .lns16 [z] = true)
    (hjob : s.jobAt (millSlot u) = some (k, j)) (hsound : z.poison = false) :
    ∃ c, s.logRun u d [z] false = { s.setMill u ((s.mill u).logged d (ditherOf s j.seed d) cols bias [z]) with freeCtr := c } := by
  have hclean : anyPoison [z] = false := by simp [anyPoison, hsound]
  have hset2 (x y : Mill) (c : Nat) : State.setMill { s.setMill u x with freeCtr := c } u y = { s.setMill u y with freeCtr := c } :=
    congrArg (fun t : State => { t with freeCtr := c }) (State.setMill_setMill s u x y)
  have hmill (x : Mill) (c : Nat) : State.mill { s.setMill u x with freeCtr := c } u = x := State.mill_setMill s u x
  unfold State.logRun
  simp only [hset, htile, hjob, hclean, Bool.or_false, Bool.false_eq_true, if_false, if_true, State.computeDone_sound, State.modMill,
    Option.map_some, Option.getD_some]
  split
  · exact ⟨_, by rw [hmill, hset2]; rfl⟩
  · exact ⟨s.freeCtr, by rw [State.mill_setMill, State.setMill_setMill]; rfl⟩

section
variable {x : Mill} {d : Vec} {dither : Nat → Nat → Nat} {cols : List (List Byte)} {bias : Byte} {l : List SlotIn}

/-- A LOG_MM leaves everything of its Mill but the accumulator and the run. -/
theorem Mill.logged_eq : x.logged d dither cols bias l = { x with acc := (x.logged d dither cols bias l).acc, compRun := none } :=
  Mill.computed_eq ..

/-- The lines before and after those of a LOG_MM stay. -/
theorem Mill.logged_outside (hspan : lineSpan d = (descBase d, descBase d + descRows d)) (hlen : (logRows d l).length = descRows d) {n : Nat}
    (h : n < descBase d ∨ descBase d + descRows d ≤ n) : (x.logged d dither cols bias l).line n = x.line n := by
  have hlines : (x.logLines d dither cols bias l).length = descRows d := by simp [Mill.logLines, hlen]
  unfold Mill.logged
  rw [Mill.computed_outside _ _ _ (by rw [hspan]; exact h)]
  exact putLines_outside _ _ (by rw [hlines]; exact h)

/-- Line `m` after ACC_BASE is what row `m` gives, poisoned where the set is. -/
theorem Mill.logged_at (hspan : lineSpan d = (descBase d, descBase d + descRows d)) (hlen : (logRows d l).length = descRows d)
    (hfits : descBase d + descRows d ≤ 1024) {m : Nat} {a : List Byte × Int} (h : (logRows d l)[m]? = some a) :
    (x.logged d dither cols bias l).line (descBase d + m) =
      { x.logLineAt d dither cols bias l m a with
        poison := (x.logLineAt d dither cols bias l m a).poison || (x.sets.get {} (fieldOf d 8 1)).poisoned } := by
  have hm : m < descRows d := hlen ▸ (List.getElem?_eq_some_iff.1 h).1
  have hrow : (x.logLines d dither cols bias l)[m]? = some (x.logLineAt d dither cols bias l m a) := by
    simp [Mill.logLines, List.getElem?_zipIdx, h]
  have hline := putLines_at x.acc hrow (a := descBase d) (by omega)
  rw [← hline]
  exact Mill.computed_at _ _ (by rw [hspan]; exact Nat.le_add_right ..) (by rw [hspan]; exact Nat.add_lt_add_left hm _)

end

/-- Settles O26: the descriptor starts on the offered slot (`State.computeUnit_offers`), its lines go into the accumulator (`State.logRun_sound`), and
each is read back where its row puts it (`Mill.logged_at`). -/
theorem millLogSums : Obligations.MillLogSums := by
  unfold Obligations.MillLogSums
  intro s u e q r i k j x cols bias b hactive hrun hq hfree hclass hvalid htype hjob href hoff hx hsound hset htile hrows hlen hb
  subst hx hb
  have hfits : descBase e.desc + descRows e.desc ≤ 1024 := by
    have h := Mill.tileOk_fits htile
    rwa [linesPerRow_log htype, Nat.one_mul] at h
  have hspan := lineSpan_log htype hfits
  have hmill : (s.computeStarts u e q r i).mill u = (s.mill u).started e q := State.mill_computeStarts ..
  obtain ⟨c, hc⟩ := State.logRun_sound (s := s.computeStarts u e q r i) (u := u) (d := e.desc) (cols := cols) (bias := bias)
    (by rw [hmill]; exact hset) (by rw [hmill]; exact htile) hjob hsound
  rw [hmill] at hc
  have hexec : exec (.logMm u) s = .next
      (s.computeEnds u e q r i (((s.mill u).started e q).logged e.desc (ditherOf s j.seed e.desc) cols bias [s.slotIn r i]) c) := by
    show s.computeUnit u 0x04 (fun d t l b => t.logRun u d l b) = _
    rw [← htype, State.computeUnit_offers _ hactive hrun hq hfree hclass hvalid href hoff hrows, State.freePoison_clean hsound]
    exact congrArg (fun t : State => Host.Outcome.next (t.busy (millSlot u))) hc
  have hkeeps {α : Type} (g : Mill → α) := congrArg g
    (Mill.logged_eq (x := (s.mill u).started e q) (d := e.desc) (dither := ditherOf s j.seed e.desc) (cols := cols) (bias := bias)
      (l := [s.slotIn r i]))
  have hlog : classOf e.desc = .logarithmic := by simp [classOf, htype]
  refine ⟨_, hexec, State.computeEnds_onlyHamlets .., ?_⟩
  unfold State.millReports
  rw [State.mill_computeEnds, State.hand_computeEnds, State.ring_computeEnds]
  refine ⟨hkeeps Mill.compRun, hkeeps Mill.compQ, ⟨hkeeps Mill.sticky, hkeeps Mill.firstErr, rfl⟩, (hkeeps Mill.cls).trans hlog,
    hkeeps Mill.sets, rfl, fun n hn => Mill.logged_outside hspan hlen hn, fun m a hm y hy => ?_⟩
  rw [hy]
  exact Mill.logged_at hspan hlen hfits hm

end Sys2Proof.Machine
end

