-- ==== Sys2Proof/Proofs/HamletStates.lean ====
section
/-! The power states of a hamlet (R101, R186, R367 to R371): when its commands move it from one to another, and what a wake restores. -/

namespace Sys2Proof.Machine

/-! ## Zero-filled memory -/

/-- A zeroed byte reads as one that nothing has written. -/
theorem Memory.read_zero_in (m : Memory) {a n k : Nat} (h : a ≤ k ∧ k < a + n) : (m.zero a n).read k = 0 := by
  suffices hnone : lookupCell (m.zero a n) k = none by rw [Memory.read, hnone]; rfl
  cases hfound : lookupCell (m.zero a n) k with
  | none => rfl
  | some v =>
    have hkept := (List.mem_filter.1 (lookupCell_mem _ hfound)).2
    simp only [Bool.or_eq_true, decide_eq_true_eq] at hkept
    omega

/-- Zeroing leaves the bytes before and after. -/
theorem Memory.read_zero_out {m : Memory} (w : m.wf = true) {a n k : Nat} (h : k < a ∨ a + n ≤ k) : (m.zero a n).read k = m.read k := by
  unfold Memory.read Memory.zero
  rw [lookupCell_filter _ w k fun b => by simpa using h]

/-! ## Wakes -/

section
variable {s : State} {m : HamletRef}

/-- What a package does to leave Doze does not rest on its hamlets or on its memory. -/
theorem State.rouse_with (s : State) (hs : Tab Hamlet) (mem : Memory) (poison : List Nat) :
    State.rouse { s with hamlets := hs, mem := mem, sramPoison := poison } =
      { s.rouse with hamlets := hs, mem := mem, sramPoison := poison } := by
  unfold State.rouse State.toRun
  by_cases hdoze : s.ident.power = .doze
  · rw [if_pos hdoze, if_pos hdoze]
  · rw [if_neg hdoze, if_neg hdoze]

/-- A slot of a live job is held. -/
theorem State.heldSlot_of_jobAt {c : Nat × Job} (h : s.jobAt m = some c) : s.heldSlot m = true := by
  have hlive := List.find?_some h
  rw [Bool.and_eq_true] at hlive
  exact List.any_eq_true.2 ⟨c, List.mem_of_find?_eq_some h, by rw [hlive.1, hlive.2]; rfl⟩

theorem State.used_of_jobAt {c : Nat × Job} (h : s.jobAt m = some c) : s.unused m = false := by
  rw [State.unused, State.heldSlot_of_jobAt h]
  rfl

/-- A slot without use is not woken (R367). -/
theorem State.wake_unused (h : s.unused m = true) : s.wake m = s := by
  unfold State.wake
  exact if_pos h

/-- From Gated and from Retain a wake changes nothing outside the hamlet but the package's Doze (R370, R371). -/
theorem State.wake_kept (hused : s.unused m = false) (hpower : (s.hamlet m).power = .gated ∨ (s.hamlet m).power = .retain) :
    s.wake m = (s.setHamlet m { (s.hamlet m).woken with idleSince := s.mclk }).rouse := by
  unfold State.wake
  rcases hpower with hgated | hretain
  · simp [hused, hgated]
  · simp [hused, hretain]

/-- From Off a wake zeroes the scratchpad too (R186). -/
theorem State.wake_off (hused : s.unused m = false) (hpower : (s.hamlet m).power = .off) :
    s.wake m = ((s.zeroSram (sramAddr m 0) padBytes).setHamlet m { (s.hamlet m).woken with idleSince := s.mclk }).rouse := by
  unfold State.wake
  simp [hused, hpower]

/-- HAMLET_WAKE wakes a hamlet that holds a job. -/
theorem exec_hamletWake_held {c : Nat × Job} (h : s.jobAt m = some c) : exec (.hamletWake m) s = .next (s.wake m) :=
  if_pos (by rw [h]; rfl)

/-- HAMLET_WAKE changes nothing where a wake does not. -/
theorem exec_hamletWake_unused (h : s.unused m = true) : exec (.hamletWake m) s = .next s := by
  show (if (s.jobAt m).isSome then Host.Outcome.next (s.wake m) else .next s) = _
  rw [State.wake_unused h, ite_self]

end

/-! ## The commands that put a hamlet to sleep -/

section
variable {s : State} {m : HamletRef} (hidle : (s.hamlet m).idle = true) (hfence : (s.hamlet m).fence = .lowered)
include hidle hfence

/-- HAMLET_GATE of an idle Active hamlet behind no fence waits for 64 MCLK only (R369). -/
theorem exec_hamletGate_idle (hpower : (s.hamlet m).power = .active) :
    exec (.hamletGate m) s = if 64 ≤ s.idleFor m then .next (s.setHamlet m { s.hamlet m with power := .gated }) else .next s := by
  show execHamletGate m s = _
  unfold execHamletGate
  simp [hidle, hfence, hpower]

variable (hquiet : (s.hamlet m).mayRetain = true)
include hquiet

/-- HAMLET_RETAIN of an idle hamlet that R101 lets sleep waits for RETAIN_IDLE only (R369). -/
theorem exec_hamletRetain_idle (hpower : (s.hamlet m).power = .active ∨ (s.hamlet m).power = .gated)
    (hhint : (s.hamlet m).hint = 1 ∨ (s.hamlet m).hint = 2) :
    exec (.hamletRetain m) s =
      if s.retainIdle ≤ s.idleFor m then .next (s.setHamlet m { s.hamlet m with power := .retain }) else .next s := by
  show execHamletRetain m s = _
  unfold execHamletRetain
  simp only [hidle, hfence, hquiet, hpower, hhint, true_and, and_true]

/-- HAMLET_OFF of an idle hamlet that holds a job waits for OFF_IDLE only (R369). -/
theorem exec_hamletOff_idle (hpower : (s.hamlet m).power ≠ .off) (hhint : (s.hamlet m).hint = 2) (hheld : s.heldSlot m = true) :
    exec (.hamletOff m) s = if s.offIdle ≤ s.idleFor m then .next (s.setHamlet m { s.hamlet m with power := .off }) else .next s := by
  show execHamletOff m s = _
  unfold execHamletOff
  simp only [hidle, hfence, hquiet, hpower, hhint, hheld, ne_eq, not_false_eq_true, Bool.true_eq_false, and_false, and_true, true_and,
    if_false]

end

/-- A slot that holds no job is switched off at once, and what outlasts the job stays (R369). -/
theorem exec_hamletOff_vacant {s : State} {m : HamletRef} (hpower : (s.hamlet m).power ≠ .off)
    (hfence : (s.hamlet m).fence = .lowered ∨ (s.hamlet m).retired = true) (hfree : s.heldSlot m = false) :
    exec (.hamletOff m) s = .next (s.setHamlet m { (s.hamlet m).vacated with fence := (s.hamlet m).fence }) :=
  if_pos ⟨hpower, hfence, hfree⟩

/-- What a wake from Off makes of the package: its hamlet is cold and its scratchpad zero, and nothing else changes but the package's Doze (R186). -/
theorem exec_hamletWake_off {s : State} {m : HamletRef} {c : Nat × Job} (hjob : s.jobAt m = some c) (hpower : (s.hamlet m).power = .off) :
    exec (.hamletWake m) s = .next { s.rouse with
      hamlets := s.hamlets.set (slotKey m.die m.slot) { (s.hamlet m).woken with idleSince := s.mclk }
      mem := s.mem.zero (sramAddr m 0) padBytes, sramPoison := setErase s.sramPoison (sramAddr m 0 / 8) (padBytes / 8) } := by
  rw [exec_hamletWake_held hjob, State.wake_off (State.used_of_jobAt hjob) hpower]
  exact congrArg Host.Outcome.next (State.rouse_with s _ _ _)

/-- Settles O34: each command that puts a hamlet to sleep waits for its limit only (`exec_hamletGate_idle`, `exec_hamletRetain_idle`,
`exec_hamletOff_idle`), and a wake is `Hamlet.woken`, with the scratchpad zeroed from Off. -/
theorem hamletsGateRetainSwitchOffAndWake : Obligations.HamletsGateRetainSwitchOffAndWake := by
  unfold Obligations.HamletsGateRetainSwitchOffAndWake
  intro s m
  refine ⟨fun hidle hfence => ⟨fun hpower => ?gate, fun hquiet => ⟨fun hpower hhint => ?retain, fun hpower hhint hheld => ?off⟩⟩,
    exec_hamletOff_vacant, exec_hamletWake_unused, fun k j hjob => ⟨fun hpower => ?fromGated, fun hpower => ?fromRetain, fun hpower hwf => ?fromOff⟩⟩
  case gate =>
    rw [exec_hamletGate_idle hidle hfence hpower]
    exact ⟨fun h => if_pos h, fun h => if_neg (Nat.not_le.2 h)⟩
  case retain =>
    rw [exec_hamletRetain_idle hidle hfence hquiet hpower hhint]
    exact ⟨fun h => if_pos h, fun h => if_neg (Nat.not_le.2 h)⟩
  case off =>
    rw [exec_hamletOff_idle hidle hfence hquiet hpower hhint hheld]
    exact ⟨fun h => if_pos h, fun h => if_neg (Nat.not_le.2 h)⟩
  case fromGated =>
    rw [exec_hamletWake_held hjob, State.wake_kept (State.used_of_jobAt hjob) (Or.inl hpower), Hamlet.woken, hpower]
  case fromRetain =>
    rw [exec_hamletWake_held hjob, State.wake_kept (State.used_of_jobAt hjob) (Or.inr hpower), Hamlet.woken, hpower]
    rfl
  case fromOff =>
    refine ⟨_, exec_hamletWake_off hjob hpower, fun n hn => Tab.find_set_ne _ _ hn, fun o ho => Memory.read_zero_in _ ?_,
      fun a ha => Memory.read_zero_out hwf ha, ?_, rfl⟩
    · unfold sramAddr
      omega
    · refine (Tab.get_set_same ..).trans ?_
      rw [Hamlet.woken, hpower]
      rfl

end Sys2Proof.Machine
end

