-- ==== Sys2Proof/Proofs/MillDispatch.lean ====
section
/-! What acts when a Mill dispatches (R86, R118, R119) and the register that ends a halt (R124). -/

namespace Sys2Proof.Machine

/-! ## Frames of a Mill's commands -/

section
variable {s t v : State} {u : MillRef} {m : HamletRef}

/-- Where one command touches hamlet `m` only and the next does too, both do. -/
theorem State.otherHamlets.trans (h : s.otherHamlets t m) (h' : t.otherHamlets v m) : s.otherHamlets v m :=
  fun k hk => (h' k hk).trans (h k hk)

theorem State.otherHamlets_modHamlet (s : State) (m : HamletRef) (f : Hamlet → Hamlet) : s.otherHamlets (s.modHamlet m f) m :=
  fun _ hk => Tab.find_set_ne _ _ hk

/-- The event of a Mill changes the hamlet of the Mill only. -/
theorem State.otherHamlets_millEvent (s : State) (u : MillRef) (e : EventBit) : s.otherHamlets (s.millEvent u e) (millSlot u) :=
  State.otherHamlets_modHamlet _ _ _

/-- The event of a Mill is pending at its Hand (R103). -/
@[simp] theorem State.hand_millEvent (s : State) (u : MillRef) (e : EventBit) :
    (s.millEvent u e).hand ⟨u.die, u.slot, u.idx⟩ =
      { s.hand ⟨u.die, u.slot, u.idx⟩ with evPend := (s.hand ⟨u.die, u.slot, u.idx⟩).evPend ||| BitVec.ofNat 6 (2 ^ e.index) } :=
  State.hand_modHand ..

@[simp] theorem State.mill_millEvent (s : State) (u : MillRef) (e : EventBit) (v : MillRef) : (s.millEvent u e).mill v = s.mill v :=
  State.mill_modHand ..

@[simp] theorem State.ring_millEvent (s : State) (u : MillRef) (e : EventBit) (r : RingRef) : (s.millEvent u e).ring r = s.ring r :=
  State.ring_modHand ..

/-- What has the hamlets of another state has its other Mills. -/
theorem State.otherMills.of_hamlets (h : s.otherMills t u) (hv : v.hamlets = t.hamlets) : s.otherMills v u := by
  have hhamlet : v.hamlet (millSlot u) = t.hamlet (millSlot u) := congrArg (fun l : Tab Hamlet => l.get {} _) hv
  unfold State.otherMills State.otherHamlets at *
  rw [hhamlet, hv]
  exact h

/-- What leaves the other hamlets alone does so where it also marks its own busy. -/
theorem State.otherHamlets.busy (h : s.otherHamlets t m) : s.otherHamlets (t.busy m) m := h.trans (State.otherHamlets_modHamlet _ _ _)

end

/-- A command that answers one update of a Mill and draws free values does it. -/
theorem millDoes_free {s : State} {c : Instr} {u : MillRef} {f : Mill → Mill} {n : Nat}
    (h : exec c s = .next { s.modMill u f with freeCtr := n }) : s.millDoes c u f := by
  have hmill : State.mill { s.modMill u f with freeCtr := n } u = f (s.mill u) := State.mill_modMill s u f
  exact ⟨_, h, hmill, rfl, (otherMills_setMill s u (f (s.mill u))).of_hamlets rfl⟩

/-! ## Dispatch of a FENCE and a DIGEST_TAG -/

/-- The Mill after a FENCE (R118). -/
def Mill.fenced (x : Mill) (d : Vec) : Mill := { x.pop with fenceToken := descTile d, fences := x.fences + 1 }

/-- The state after the token of a FENCE and its Bell add to counter `r`, before its event (R118). -/
def State.fenceCast (s : State) (u : MillRef) (d : Vec) (r : RingRef) : State :=
  { s.modMill u fun x => x.fenced d with
    bellFlight := if d.getLsbD 12 then s.bellFlight ++ [⟨.mill u, (ringSlot r, r.idx % 64), BitVec.ofNat 32 (fieldOf d 176 16)⟩]
      else s.bellFlight }

section
variable {s : State} {u : MillRef} {d : Vec} (hnext : s.nextDesc u = some d)
include hnext

/-- A valid FENCE waits while a unit that it names is busy (R118). -/
theorem exec_fence_waits (htype : descType d = 0x10) (hvalid : fenceValid d = true) (hbusy : (s.mill u).fenceMet d = false) :
    exec (.fence u) s = .next s := by
  show execFence u s = _
  simp [execFence, hnext, htype, hvalid, hbusy]

/-- A FENCE whose units are done, and whose counter is one of the job (R118). -/
theorem exec_fence_met (htype : descType d = 0x10) (hvalid : fenceValid d = true) (hmet : (s.mill u).fenceMet d = true)
    {k : Nat} {j : Job} {r : RingRef} (hjob : s.jobAt (millSlot u) = some (k, j)) (href : s.refKind j (fieldOf d 160 13) = .job r) :
    exec (.fence u) s = .next ((if d.getLsbD 11 then (s.fenceCast u d r).millEvent u .fence else s.fenceCast u d r).busy (millSlot u)) := by
  have hbell : (s.modMill u fun x => x.fenced d).sendBell j (millSlot u) (.mill u) (fieldOf d 160 13) (BitVec.ofNat 32 (fieldOf d 176 16)) =
      (s.modMill u fun x => x.fenced d).castBell (.mill u) (ringSlot r) r.idx (BitVec.ofNat 32 (fieldOf d 176 16)) := by
    have hkind : (s.modMill u fun x => x.fenced d).refKind j (fieldOf d 160 13) = .job r := href
    rw [State.sendBell, hkind]
  have hcast : (if d.getLsbD 12 then
        (match (s.modMill u fun x => x.fenced d).jobAt (millSlot u) with
        | some (_, j) =>
          (s.modMill u fun x => x.fenced d).sendBell j (millSlot u) (.mill u) (fieldOf d 160 13) (BitVec.ofNat 32 (fieldOf d 176 16))
        | none => (s.modMill u fun x => x.fenced d).foreignBell (millSlot u))
      else s.modMill u fun x => x.fenced d) = s.fenceCast u d r := by
    rw [State.jobAt_modMill, hjob]
    dsimp only
    rw [hbell, State.fenceCast]
    cases d.getLsbD 12 <;> rfl
  show execFence u s = _
  unfold execFence
  simp only [hnext, htype, hvalid, hmet, ne_eq, not_true, Bool.not_true, Bool.false_eq_true, if_false]
  rw [← hcast]
  rfl

/-- A valid DIGEST_TAG leaves the queue and sets MILL_LAYER (R119). -/
theorem digestTag_sets_layer (htype : descType d = 0x11) (hvalid : zeroFields d [(8, 24), (64, 448)] = true) :
    s.millDoes (.digestTag u) u fun x => { x with queue := x.queue.drop 1, layer := descTile d } := by
  refine millDoes_busy ?_
  show execDigestTag u s = _
  simp only [execDigestTag, hnext, htype, hvalid, ne_eq, not_true, Bool.not_true, Bool.false_eq_true, if_false]
  rfl

end

/-- A FENCE changes only hamlets and the Bell adds on their way, of the hamlets only its own, and without an event only its Mill. -/
theorem fence_effect {s : State} {u : MillRef} {d : Vec} (r : RingRef) (t : State)
    (ht : t = (if d.getLsbD 11 then (s.fenceCast u d r).millEvent u .fence else s.fenceCast u d r).busy (millSlot u)) :
    s.otherHamlets t (millSlot u) ∧ t.mill u = (s.mill u).fenced d ∧
      (d.getLsbD 11 = true → (t.hand ⟨u.die, u.slot, u.idx⟩).evPend = (s.hand ⟨u.die, u.slot, u.idx⟩).evPend ||| 2) ∧
      (d.getLsbD 11 = false → s.otherMills t u) ∧ t = { s with hamlets := t.hamlets, bellFlight := (s.fenceCast u d r).bellFlight } := by
  have hmill : (s.fenceCast u d r).mill u = (s.mill u).fenced d := State.mill_modMill s u fun x => x.fenced d
  have hhand (h : HandRef) : (s.fenceCast u d r).hand h = s.hand h := State.hand_modMill s u (fun x => x.fenced d) h
  have hother : s.otherHamlets (s.fenceCast u d r) (millSlot u) := (otherMills_setMill s u ((s.mill u).fenced d)).1
  rw [ht]
  cases d.getLsbD 11 with
  | true =>
    refine ⟨(hother.trans (State.otherHamlets_millEvent _ _ _)).busy, by simp [hmill], fun _ => ?_, nofun, rfl⟩
    rw [if_pos rfl, State.hand_busy, State.hand_millEvent, hhand]
    rfl
  | false =>
    refine ⟨hother.busy, by simp [hmill], nofun, fun _ => otherMills_busy ?_, rfl⟩
    exact (otherMills_setMill s u ((s.mill u).fenced d)).of_hamlets rfl

/-! ## The class drain -/

/-- CLASS_DRAIN of a running hamlet whose compute unit is idle looks at the class of the next compute descriptor only (R86). -/
theorem exec_classDrain {s : State} {u : MillRef} {e : Dispatched} {q : List Dispatched} (hactive : (s.hamlet (millSlot u)).power = .active)
    (hrun : (s.mill u).compRun = none) (hq : (s.mill u).compQ = e :: q) :
    exec (.classDrain u) s =
      if (s.mill u).needsDrain e.desc then .next ((s.setMill u { s.mill u with draining := true }).busy (millSlot u)) else .next s := by
  show execClassDrain u s = _
  simp [execClassDrain, hactive, hrun, hq]

/-- A drain is needed where the Mill has a class, and it is the other one (R86). -/
theorem Mill.needsDrain_iff (x : Mill) (d : Vec) : x.needsDrain d = true ↔ x.cls ≠ .none ∧ x.cls ≠ classOf d := by
  simp [Mill.needsDrain]

/-! ## MILL_QSTATUS -/

/-- A write to MILL_QSTATUS clears the error bits that it names, and HALTED where none of the four is left (R124). -/
theorem Mill.writeQstatus_eq (x : Mill) (v : Word64) :
    x.writeQstatus v = { x with
      qstatus :=
        { dropped := x.qstatus.dropped && !v.getLsbD 1, badType := x.qstatus.badType && !v.getLsbD 2
          poisonDesc := x.qstatus.poisonDesc && !v.getLsbD 3, shortSlot := x.qstatus.shortSlot && !v.getLsbD 4
          foreign := x.qstatus.foreign && !v.getLsbD 6
          halted := x.qstatus.halted && ((x.qstatus.badType && !v.getLsbD 2) || (x.qstatus.poisonDesc && !v.getLsbD 3) ||
            (x.qstatus.shortSlot && !v.getLsbD 4) || (x.qstatus.foreign && !v.getLsbD 6)) } } := by
  unfold Mill.writeQstatus MillQStatus.settle
  dsimp only
  split
  next hleft => rw [hleft, Bool.and_true]
  next hnone => rw [Bool.eq_false_iff.2 hnone, Bool.and_false]

/-- HALTED_CLEAR without a RSVD bit writes the value as it is. -/
theorem haltedClear_does {s : State} (u : MillRef) {v : Word64} (hv : v &&& qstatusReserved = 0) :
    s.millDoes (.haltedClear u v) u fun x => x.writeQstatus v := by
  refine millDoes_mod ?_
  show execHaltedClear u v s = _
  simp [execHaltedClear, State.regValue, hv]

/-- HALTED_CLEAR with a RSVD bit writes a free value (log entry 7). -/
theorem haltedClear_free (s : State) (u : MillRef) {v : Word64} (hv : v &&& qstatusReserved ≠ 0) :
    s.millDoes (.haltedClear u v) u fun x => x.writeQstatus (s.fresh.1 &&& ~~~qstatusReserved) := by
  refine millDoes_free (n := s.freeCtr + 1) ?_
  show execHaltedClear u v s = _
  rw [execHaltedClear, State.regValue, if_neg hv]
  rfl

/-- Settles O23: the effect of a FENCE is `fence_effect`, of a DIGEST_TAG `digestTag_sets_layer`, CLASS_DRAIN turns on the class of the next
descriptor (`exec_classDrain`), and a write to MILL_QSTATUS is `Mill.writeQstatus_eq`. -/
theorem millFencesTagsDrainsAndRecovers : Obligations.MillFencesTagsDrainsAndRecovers := by
  unfold Obligations.MillFencesTagsDrainsAndRecovers
  intro s u
  refine ⟨fun d hnext htype hvalid => ⟨exec_fence_waits hnext htype hvalid, fun hmet k j r hjob href => ?fence⟩,
    fun d hnext htype hvalid => digestTag_sets_layer hnext htype hvalid, fun e q hactive hrun hq => ?drain, fun v hv => ?status, fun v => ?anyStatus⟩
  case fence =>
    obtain ⟨hother, hmill, hevent, hquiet, hframe⟩ := fence_effect (s := s) (u := u) (d := d) r _ rfl
    exact ⟨_, exec_fence_met hnext htype hvalid hmet hjob href, hother, hmill, hevent, hquiet, hframe⟩
  case drain =>
    have hexec := exec_classDrain hactive hrun hq
    refine ⟨fun hset hother => millDoes_busy ?_, fun hsame => ?_⟩
    · rw [hexec, if_pos ((Mill.needsDrain_iff ..).2 ⟨hset, hother⟩)]
      rfl
    · rw [hexec, if_neg fun h => ?_]
      obtain ⟨hset, hother⟩ := (Mill.needsDrain_iff ..).1 h
      exact hsame.elim hset hother
  case status =>
    simp only [← Mill.writeQstatus_eq]
    exact haltedClear_does u hv
  case anyStatus =>
    by_cases hv : v &&& qstatusReserved = 0
    · exact ⟨v, haltedClear_does u hv⟩
    · exact ⟨_, haltedClear_free s u hv⟩

end Sys2Proof.Machine
end

