-- ==== Sys2Proof/Proofs/MillReports.lean ====
section
/-! How a Mill reports errors (R82, R96, R102, R103): what one report leaves, and several in a row. -/

namespace Sys2Proof.Machine

/-! ## The first error of several -/

/-- The first error of two lists of errors is that of both in a row; a cause is a code that is not 0. -/
theorem MillFirstErr.then_append (x : MillFirstErr) (tile : Word32) {l : List (BitVec 3 × Nat)} (l' : List (BitVec 3 × Nat))
    (h : ∀ e ∈ l, e.1 ≠ 0) : (x.then_ tile l).then_ tile l' = x.then_ tile (l ++ l') := by
  cases l with
  | nil => rfl
  | cons e l =>
    have hkeeps (y : MillFirstErr) (hy : y.cause ≠ 0) : y.then_ tile l' = y := by
      cases l' with
      | nil => rfl
      | cons => exact if_neg hy
    by_cases hx : x.cause = 0
    · have hfirst : x.then_ tile (e :: l) = ⟨tile, e.1, BitVec.ofNat 10 e.2⟩ := if_pos hx
      rw [hfirst, hkeeps _ (h e List.mem_cons_self)]
      exact hfirst.symm
    · have hfirst : x.then_ tile (e :: l) = x := if_neg hx
      rw [hfirst, hkeeps x hx]
      exact hfirst.symm

theorem causes_oneIf {b : Bool} {c : BitVec 3} {row : Nat} (h : c ≠ 0) : ∀ e ∈ oneIf b (c, row), e.1 ≠ 0 := by
  cases b
  · exact nofun
  · simpa [oneIf] using h

/-! ## Reports in a row -/

section
variable {s t v : State} {u : MillRef} {tile : Word32} {f g : MillSticky → MillSticky} {l l' : List (BitVec 3 × Nat)}

/-- The errors of one step and those of the next are those of both. -/
theorem State.millReports.trans (h : s.millReports t u tile f l) (h' : t.millReports v u tile g l') (hl : ∀ e ∈ l, e.1 ≠ 0) :
    s.millReports v u tile (fun k => g (f k)) (l ++ l') := by
  obtain ⟨hsticky, hfirst, hevent⟩ := h
  obtain ⟨hsticky', hfirst', hevent'⟩ := h'
  refine ⟨by rw [hsticky', hsticky], by rw [hfirst', hfirst, MillFirstErr.then_append _ _ _ hl], ?_⟩
  rw [hevent', hevent]
  cases l <;> cases l' <;> simp [BitVec.or_assoc]

/-- A step that leaves the error registers and the Hand's events reports nothing. -/
theorem State.millReports_nothing (hsticky : (t.mill u).sticky = (s.mill u).sticky) (hfirst : (t.mill u).firstErr = (s.mill u).firstErr)
    (hhand : t.hand ⟨u.die, u.slot, u.idx⟩ = s.hand ⟨u.die, u.slot, u.idx⟩) : s.millReports t u tile id [] :=
  ⟨hsticky, hfirst, by rw [hhand]; rfl⟩

/-- A report before which nothing was reported, and after which nothing is. -/
theorem State.millReports.after (h : t.millReports v u tile f l) (h' : s.millReports t u tile id []) : s.millReports v u tile f l :=
  h'.trans h nofun

theorem State.millReports.before (h : s.millReports t u tile f l) (h' : t.millReports v u tile id []) : s.millReports v u tile f l := by
  obtain ⟨hsticky, hfirst, hevent⟩ := h
  obtain ⟨hsticky', hfirst', hevent'⟩ := h'
  exact ⟨hsticky'.trans hsticky, hfirst'.trans hfirst, hevent'.trans hevent⟩

/-- Sticky bits that come to the same. -/
theorem State.millReports.congr (h : s.millReports t u tile f l) (hfg : ∀ k, f k = g k) : s.millReports t u tile g l :=
  (funext hfg : f = g) ▸ h

/-- What changes hamlets only, twice. -/
theorem State.onlyHamlets.trans (h : s.onlyHamlets t) (h' : t.onlyHamlets v) : s.onlyHamlets v := by
  unfold State.onlyHamlets at *
  rw [h', h]

theorem State.setMill_onlyHamlets (s : State) (u : MillRef) (x : Mill) : s.onlyHamlets (s.setMill u x) := rfl

theorem State.setRing_onlyHamlets (s : State) (r : RingRef) (x : Ring) : s.onlyHamlets (s.setRing r x) := rfl

theorem State.foreignRing_onlyHamlets (s : State) (m : HamletRef) : s.onlyHamlets (s.foreignRing m) := rfl

end

/-! Free values are drawn beside the units. -/

theorem State.mill_withFree (s : State) (n : Nat) (u : MillRef) : State.mill { s with freeCtr := n } u = s.mill u := rfl

theorem State.hand_withFree (s : State) (n : Nat) (h : HandRef) : State.hand { s with freeCtr := n } h = s.hand h := rfl

/-! ## One report -/

/-- A Mill whose error registers have taken errors. -/
def Mill.noted (x : Mill) (tile : Word32) (f : MillSticky → MillSticky) (l : List (BitVec 3 × Nat)) : Mill :=
  { x with sticky := f x.sticky, firstErr := x.firstErr.then_ tile l }

theorem Mill.noted_noted (x : Mill) {tile : Word32} {f g : MillSticky → MillSticky} {l l' : List (BitVec 3 × Nat)} (h : ∀ e ∈ l, e.1 ≠ 0) :
    (x.noted tile f l).noted tile g l' = x.noted tile (fun k => g (f k)) (l ++ l') := by
  simp only [Mill.noted, MillFirstErr.then_append _ _ _ h]

section
variable (s : State) (u : MillRef) (f : MillSticky → MillSticky) (cause : BitVec 3) (tile : Word32) (row : Nat)

@[simp] theorem State.mill_millError : (s.millError u f cause tile row).mill u = (s.mill u).noted tile f [(cause, row)] := by
  rw [State.millError, State.mill_millEvent, State.mill_modMill, Mill.firstError, Mill.noted, MillFirstErr.then_]
  split <;> rfl

@[simp] theorem State.ring_millError (r : RingRef) : (s.millError u f cause tile row).ring r = s.ring r := by
  rw [State.millError, State.ring_millEvent, State.ring_modMill]

/-- An error that raises a Mill event is reported (R82, R103). -/
theorem State.millError_reports : s.millReports (s.millError u f cause tile row) u tile f [(cause, row)] := by
  refine ⟨by rw [State.mill_millError]; rfl, by rw [State.mill_millError]; rfl, ?_⟩
  rw [State.millError, State.hand_millEvent, State.hand_modMill]
  rfl

theorem State.millError_onlyHamlets : s.onlyHamlets (s.millError u f cause tile row) := rfl

/-- An error that is reported where a condition holds. -/
def State.reportIf (b : Bool) : State := if b then s.millError u f cause tile row else s

variable (b : Bool)

theorem State.reportIf_onlyHamlets : s.onlyHamlets (s.reportIf u f cause tile row b) := by
  cases b <;> rfl

@[simp] theorem State.ring_reportIf (r : RingRef) : (s.reportIf u f cause tile row b).ring r = s.ring r := by
  cases b
  · rfl
  · exact State.ring_millError ..

/-- The sticky bits after an error that is reported where a condition holds. -/
def stickyIf (b : Bool) (f : MillSticky → MillSticky) : MillSticky → MillSticky := if b then f else id

@[simp] theorem State.mill_reportIf :
    (s.reportIf u f cause tile row b).mill u = (s.mill u).noted tile (stickyIf b f) (oneIf b (cause, row)) := by
  cases b
  · rfl
  · exact State.mill_millError ..

theorem State.reportIf_reports : s.millReports (s.reportIf u f cause tile row b) u tile (stickyIf b f) (oneIf b (cause, row)) := by
  cases b
  · exact State.millReports_nothing rfl rfl rfl
  · exact State.millError_reports ..

end

theorem stickyIf_setPoisonIn (b : Bool) (k : MillSticky) : stickyIf b setPoisonIn k = { k with poisonIn := k.poisonIn || b } := by
  cases b
  · simp [stickyIf]
  · simp [stickyIf, setPoisonIn]

theorem stickyIf_setExpErr (b : Bool) (k : MillSticky) : stickyIf b setExpErr k = { k with expErr := k.expErr || b } := by
  cases b
  · simp [stickyIf]
  · simp [stickyIf, setExpErr]

/-! ## A refused ring -/

section
variable (s : State) (m : HamletRef)

/-- A refused ring sets FOREIGN of RING_ERR (R174). -/
theorem State.foreignRing_foreign : ((s.foreignRing m).hamlet m).err.foreign = true := by
  rw [State.foreignRing, State.hamlet_modHamlet]

@[simp] theorem State.mill_foreignRing (u : MillRef) : (s.foreignRing m).mill u = s.mill u := by
  unfold State.mill State.foreignRing
  rw [State.hamlet_modHamlet_keeps (·.mills) (fun _ => by rfl)]

@[simp] theorem State.hand_foreignRing (h : HandRef) : (s.foreignRing m).hand h = s.hand h := by
  unfold State.hand State.foreignRing
  rw [State.hamlet_modHamlet_keeps (·.hands) (fun _ => by rfl)]

theorem State.foreignRing_reports {u : MillRef} {tile : Word32} : s.millReports (s.foreignRing m) u tile id [] :=
  State.millReports_nothing (by rw [State.mill_foreignRing]) (by rw [State.mill_foreignRing]) (State.hand_foreignRing ..)

/-- RING_ERR is not of a Mill. -/
@[simp] theorem State.millError_hamlet_err (u : MillRef) (f : MillSticky → MillSticky) (cause : BitVec 3) (tile : Word32) (row : Nat)
    (k : HamletRef) : ((s.millError u f cause tile row).hamlet k).err = (s.hamlet k).err := by
  rw [State.millError, State.millEvent, State.raiseEvent, State.modHand_hamlet_err, State.modMill_hamlet_err]

@[simp] theorem State.reportIf_hamlet_err (u : MillRef) (f : MillSticky → MillSticky) (cause : BitVec 3) (tile : Word32) (row : Nat)
    (b : Bool) (k : HamletRef) : ((s.reportIf u f cause tile row b).hamlet k).err = (s.hamlet k).err := by
  cases b
  · rfl
  · exact State.millError_hamlet_err ..

end

end Sys2Proof.Machine
end

