-- ==== Sys2Proof/Proofs/MillLoads.lean ====
section
/-! LOAD_W (R69 to R71, R81, R82, R108): its start, the slot that ends its source, and the weight set that it leaves. -/

namespace Sys2Proof.Machine

/-! ## Input that goes on -/

section
variable {s : State} {u : MillRef} {r : RingRef} {i : Nat}

/-- Where what a unit has taken is not enough and the slot that its ring offers completes it, the unit takes that slot and releases it. -/
theorem State.input_offers_more (h : s.offers r i) {unit ref : Nat} {enough : List SlotIn → Bool} {l : List SlotIn}
    (href : s.ringAt (millSlot u) ref = .job r) (hless : enough l = false) (hall : enough (l ++ [s.slotIn r i]) = true) :
    s.input u unit ref l enough =
      (.ready (l ++ [s.slotIn r i]), l ++ [s.slotIn r i], s.setRing r ((s.ring r).used (ringSlot r) (.mill u unit) i)) := by
  have hclaim : s.engineSlot r (.mill u unit) true = (some i, s.setRing r ((s.ring r).claimed (ringSlot r) (.mill u unit) i)) :=
    engineSlot_offers h _
  have hslot : (s.setRing r ((s.ring r).claimed (ringSlot r) (.mill u unit) i)).slotIn r i = s.slotIn r i :=
    State.slotIn_setRing (Ring.claimed_base ..) (Ring.claimed_stride ..) i
  have hrel : (s.setRing r ((s.ring r).claimed (ringSlot r) (.mill u unit) i)).releaseSlot r i =
      s.setRing r ((s.ring r).used (ringSlot r) (.mill u unit) i) := by
    have hpower : ((s.setRing r ((s.ring r).claimed (ringSlot r) (.mill u unit) i)).hamlet (ringSlot r)).power = .active :=
      (State.setRing_hamlet_power ..).trans h.1
    exact (release_used s r i h (.mill u unit) _ rfl _ (State.ring_setRing ..) hpower).trans (State.setRing_setRing ..)
  have henough (n : Nat) (t : State) :
      State.gatherSlots r (.mill u unit) enough n (l ++ [s.slotIn r i]) t = (l ++ [s.slotIn r i], true, t) := by
    cases n <;> simp [State.gatherSlots, hall]
  have hgather (n : Nat) : State.gatherSlots r (.mill u unit) enough (n + 1) l s =
      (l ++ [s.slotIn r i], true, s.setRing r ((s.ring r).used (ringSlot r) (.mill u unit) i)) := by
    simp only [State.gatherSlots, hless, Bool.false_eq_true, if_false, hclaim, hslot, hrel, henough]
  simp [State.input, href, hgather]

/-- A refused ring gives no input (R174). -/
theorem State.input_refused {unit ref : Nat} {enough : List SlotIn → Bool} {l : List SlotIn} (href : s.ringAt (millSlot u) ref = .foreign) :
    s.input u unit ref l enough = (.refused, l, s.foreignRing (millSlot u)) := by
  rw [State.input, href]

end

/-! ## The end of a LOAD_W -/

/-- The weight set of a tile with its densities (R73, R76). -/
def Loaded.weightSet (y : Loaded) (poisoned : Bool) : WeightSet :=
  { tile := y.tile, gmax := y.tile.density.1, gpmax := y.tile.density.2, poisoned := poisoned }

/-- The Mill whose load unit has filled the set that a descriptor names. -/
def Mill.filled (x : Mill) (d : Vec) (w : WeightSet) : Mill := { x with sets := x.sets.set (fieldOf d 8 1) w, loadRun := none }

theorem Mill.filled_same (x : Mill) (d : Vec) (w : WeightSet) : (x.filled d w).sets.get {} (fieldOf d 8 1) = w := Tab.get_set_same ..

theorem Mill.filled_other (x : Mill) (d : Vec) (w : WeightSet) {k : Nat} (h : k ≠ fieldOf d 8 1) :
    (x.filled d w).sets.get {} k = x.sets.get {} k := Tab.get_set_ne _ _ _ h

/-- What the end of a LOAD_W adds to the sticky bits: POISON_IN for a poisoned slot and EXP_ERR for an operand error or a reserved scale (R82). -/
def loadSticky (p bad : Bool) (k : MillSticky) : MillSticky := { k with poisonIn := k.poisonIn || p, expErr := k.expErr || bad }

/-- The errors of a LOAD_W in the order in which MILL_FIRST_ERR takes them (log entry 103). -/
def loadErrors (p bad badScale : Bool) : List (BitVec 3 × Nat) :=
  oneIf p (causePoison, 0) ++ oneIf bad (causeOperand, 0) ++ oneIf badScale (causeScale, 0)

section
variable (s : State) (u : MillRef) (d : Vec) (y : Loaded) (p r : Bool)

/-- The set is filled, and then the three errors are reported where they occurred. -/
theorem State.loadDone_eq : s.loadDone u d y p r =
    (((s.modMill u fun m => m.filled d (y.weightSet (p || y.bad || y.badScale || r))).reportIf u setPoisonIn causePoison (descTile d) 0 p).reportIf
      u setExpErr causeOperand (descTile d) 0 (y.bad || r)).reportIf u setExpErr causeScale (descTile d) 0 y.badScale := rfl

theorem loadSticky_eq (k : MillSticky) : stickyIf y.badScale setExpErr (stickyIf (y.bad || r) setExpErr (stickyIf p setPoisonIn k)) =
    loadSticky p ((y.bad || r) || y.badScale) k := by
  simp only [stickyIf_setExpErr, stickyIf_setPoisonIn, loadSticky, Bool.or_assoc]

theorem State.loadDone_reports : s.millReports (s.loadDone u d y p r) u (descTile d) (loadSticky p ((y.bad || r) || y.badScale))
    (loadErrors p (y.bad || r) y.badScale) := by
  rw [State.loadDone_eq]
  have hfilled : s.millReports (s.modMill u fun m => m.filled d (y.weightSet (p || y.bad || y.badScale || r))) u (descTile d) id [] :=
    State.millReports_nothing (by rw [State.mill_modMill]; rfl) (by rw [State.mill_modMill]; rfl) (State.hand_modMill ..)
  have hpoison := (State.reportIf_reports _ u setPoisonIn causePoison (descTile d) 0 p).after hfilled
  have hoperand := hpoison.trans (State.reportIf_reports _ u setExpErr causeOperand (descTile d) 0 (y.bad || r)) (causes_oneIf (by decide))
  have hscale := hoperand.trans (State.reportIf_reports _ u setExpErr causeScale (descTile d) 0 y.badScale)
    (List.forall_mem_append.2 ⟨causes_oneIf (by decide), causes_oneIf (by decide)⟩)
  exact hscale.congr (loadSticky_eq y p r)

theorem State.mill_loadDone : (s.loadDone u d y p r).mill u =
    ((s.mill u).filled d (y.weightSet (p || y.bad || y.badScale || r))).noted (descTile d) (loadSticky p ((y.bad || r) || y.badScale))
      (loadErrors p (y.bad || r) y.badScale) := by
  rw [State.loadDone_eq, State.mill_reportIf, State.mill_reportIf, State.mill_reportIf, State.mill_modMill,
    Mill.noted_noted _ (causes_oneIf (by decide)), Mill.noted_noted _ (causes_oneIf (by decide))]
  simp only [loadSticky_eq, loadErrors, List.append_assoc]

@[simp] theorem State.ring_loadDone (q : RingRef) : (s.loadDone u d y p r).ring q = s.ring q := by
  rw [State.loadDone_eq, State.ring_reportIf, State.ring_reportIf, State.ring_reportIf, State.ring_modMill]

@[simp] theorem State.loadDone_hamlet_err (k : HamletRef) : ((s.loadDone u d y p r).hamlet k).err = (s.hamlet k).err := by
  rw [State.loadDone_eq, State.reportIf_hamlet_err, State.reportIf_hamlet_err, State.reportIf_hamlet_err, State.modMill_hamlet_err]

theorem State.loadDone_onlyHamlets : s.onlyHamlets (s.loadDone u d y p r) := by
  rw [State.loadDone_eq]
  exact (((s.setMill_onlyHamlets u _).trans (State.reportIf_onlyHamlets ..)).trans (State.reportIf_onlyHamlets ..)).trans
    (State.reportIf_onlyHamlets ..)

end

/-- What a LOAD_W leaves of a source that has come whole: its tile is free where a slot was poisoned or an element or scale in error (R82). -/
def State.loadResult (s : State) (u : MillRef) (d : Vec) (l : List SlotIn) : Loaded :=
  let x := s.expand u d l
  if anyPoison l || x.bad || x.badScale then { x with tile := freeTile s.freeCtr (loadKind d) } else x

section
variable {s : State} {u : MillRef} {d : Vec} {l : List SlotIn}

theorem State.loadResult_bad : (s.loadResult u d l).bad = (s.expand u d l).bad := by
  unfold State.loadResult
  dsimp only
  split <;> rfl

theorem State.loadResult_badScale : (s.loadResult u d l).badScale = (s.expand u d l).badScale := by
  unfold State.loadResult
  dsimp only
  split <;> rfl

theorem State.loadResult_sound (h : (anyPoison l || (s.expand u d l).bad || (s.expand u d l).badScale) = false) :
    s.loadResult u d l = s.expand u d l := if_neg (by rw [h]; exact Bool.false_ne_true)

/-- The expander looks at no hamlet. -/
theorem State.expand_congr {t : State} (h : s.onlyHamlets t) (hctr : t.freeCtr = s.freeCtr) (u : MillRef) (d : Vec) (l : List SlotIn) :
    t.expand u d l = s.expand u d l := by
  rw [h, hctr]
  rfl

/-- A source that ends with its last slot fills the set with what it gives. -/
theorem State.loadFinish_whole (hend : loadEnd (loadKind d) (allBytes l) = some (allBytes l).length) :
    s.loadFinish u d l = State.loadDone { s with freeCtr := s.freeCtr + 33408 } u d (s.loadResult u d l) (anyPoison l) false := by
  have hwhole : (allBytes l).length = (loadEnd (loadKind d) (allBytes l)).getD 0 := by rw [hend, Option.getD_some]
  exact if_pos hwhole

end

/-! ## The run of a LOAD_W -/

/-- In state `t` Mill `u` runs LOAD_W `e`, of which it has taken `l`, with `q` waiting behind it; beside the load unit `t` is `s`. -/
structure State.LoadRuns (s t : State) (u : MillRef) (e : Dispatched) (q : List Dispatched) (l : List SlotIn) : Prop where
  only : s.onlyHamlets t
  free : t.freeCtr = s.freeCtr
  mill : t.mill u = { s.mill u with loadQ := q, loadRun := some ⟨e, l⟩ }
  hand : ∀ h, t.hand h = s.hand h
  ring : ∀ r, t.ring r = s.ring r
  slot : ∀ r i, t.slotIn r i = s.slotIn r i
  offers : ∀ r i, s.offers r i → t.offers r i

section
variable {s t : State} {u : MillRef} {e : Dispatched} {q : List Dispatched} {l : List SlotIn}

/-- A LOAD_W whose interlocks are free starts (R69). -/
theorem exec_loadW_starts (hactive : (s.hamlet (millSlot u)).power = .active) (hrun : (s.mill u).loadRun = none)
    (hq : (s.mill u).loadQ = e :: q) (hfree : (s.mill u).loadFree e = true) :
    ∃ t, exec (.loadW u) s = t.loadGo u ⟨e, []⟩ ∧ s.LoadRuns t u e q [] := by
  have hruns : s.millRuns u = true := decide_eq_true hactive
  refine ⟨s.setMill u { s.mill u with loadQ := q, loadRun := some ⟨e, []⟩ }, ?_,
    ⟨rfl, rfl, State.mill_setMill .., State.hand_setMill _ _ _, State.ring_setMill _ _ _, State.slotIn_setMill _ _ _, fun r i h => h.setMill _⟩⟩
  show execLoadW u s = _
  simp [execLoadW, hruns, hrun, hq, hfree]

/-- A LOAD_W that waits at its ring goes on (R70). -/
theorem exec_loadW_goesOn (hactive : (s.hamlet (millSlot u)).power = .active) (hrun : (s.mill u).loadRun = some ⟨e, l⟩) :
    exec (.loadW u) s = s.loadGo u ⟨e, l⟩ := by
  have hruns : s.millRuns u = true := decide_eq_true hactive
  show execLoadW u s = _
  simp [execLoadW, hruns, hrun]

theorem State.LoadRuns.waiting (hrun : (s.mill u).loadRun = some ⟨e, l⟩) (hq : (s.mill u).loadQ = q) : s.LoadRuns s u e q l := by
  refine ⟨rfl, rfl, ?_, fun _ => rfl, fun _ => rfl, fun _ _ => rfl, fun _ _ h => h⟩
  rw [← hq, ← hrun]

/-- MILL_RING_WAIT lets a waiting LOAD_W go on; the units that are idle do nothing (R70). -/
theorem exec_millRingWait_load (hrun : (s.mill u).loadRun = some ⟨e, l⟩) (hload : exec (.loadW u) s = .next t)
    (hcomp : (t.mill u).compRun = none) (hfin : (t.mill u).finRun = none) : exec (.millRingWait u) s = .next t := by
  have hfirst : (if (s.mill u).loadRun.isSome then execLoadW u s else .next s) = .next t := by
    rw [hrun]
    exact hload
  show execMillRingWait u s = _
  unfold execMillRingWait
  simp only [hfirst, Res.bind, hcomp, hfin]

variable {r : RingRef} {i : Nat}

/-- The state in which ring `r` has become `x` for a LOAD_W and the free values of its tile are drawn. -/
def State.loadTakes (s : State) (r : RingRef) (x : Ring) : State := { s.setRing r x with freeCtr := s.freeCtr + 33408 }

theorem State.loadTakes_onlyHamlets (s : State) (r : RingRef) (x : Ring) : s.onlyHamlets (s.loadTakes r x) := rfl

theorem State.mill_loadTakes (s : State) (r : RingRef) (x : Ring) (u : MillRef) : (s.loadTakes r x).mill u = s.mill u :=
  State.mill_setRing s r x u

theorem State.hand_loadTakes (s : State) (r : RingRef) (x : Ring) (h : HandRef) : (s.loadTakes r x).hand h = s.hand h :=
  State.hand_setRing s r x h

theorem State.ring_loadTakes (s : State) (r : RingRef) (x : Ring) : (s.loadTakes r x).ring r = x := State.ring_setRing s r x

/-- The end of a run on the slot that its ring offers: the slot is used, and the set is filled. -/
theorem State.LoadRuns.ends (h : s.LoadRuns t u e q l) (hvalid : loadValid e.desc = true)
    (href : s.ringAt (millSlot u) (fieldOf e.desc 64 13) = .job r) (hoffers : s.offers r i)
    (hless : l = [] ∨ loadEnd (loadKind e.desc) (allBytes l) = none)
    (hend : loadEnd (loadKind e.desc) (allBytes (l ++ [s.slotIn r i])) = some (allBytes (l ++ [s.slotIn r i])).length) :
    ∃ v, t.loadGo u ⟨e, l⟩ = .next v ∧ s.onlyHamlets v ∧ v.ring r = (s.ring r).used (ringSlot r) (.mill u 0) i ∧
      let y := s.loadResult u e.desc (l ++ [s.slotIn r i])
      let p := anyPoison (l ++ [s.slotIn r i])
      s.millReports v u (descTile e.desc) (loadSticky p (y.bad || y.badScale)) (loadErrors p y.bad y.badScale) ∧
      v.mill u = (({ s.mill u with loadQ := q, loadRun := some ⟨e, l⟩ } : Mill).filled e.desc (y.weightSet (p || y.bad || y.badScale))).noted
        (descTile e.desc) (loadSticky p (y.bad || y.badScale)) (loadErrors p y.bad y.badScale) := by
  have hnot : (!l.isEmpty && (loadEnd (loadKind e.desc) (allBytes l)).isSome) = false := by
    rcases hless with rfl | hnone
    · rfl
    · rw [hnone, Option.isSome_none, Bool.and_false]
  have henough : (!(l ++ [s.slotIn r i]).isEmpty && (loadEnd (loadKind e.desc) (allBytes (l ++ [s.slotIn r i]))).isSome) = true := by
    rw [hend]
    simp
  have href' : t.ringAt (millSlot u) (fieldOf e.desc 64 13) = .job r := by
    rw [h.only]
    exact href
  have hinput := State.input_offers_more (h.offers r i hoffers) (unit := 0)
    (enough := fun l => !l.isEmpty && (loadEnd (loadKind e.desc) (allBytes l)).isSome) href' hnot (by rw [h.slot]; exact henough)
  rw [h.slot, h.ring] at hinput
  have hgo : t.loadGo u ⟨e, l⟩ =
      .next (((t.setRing r ((s.ring r).used (ringSlot r) (.mill u 0) i)).loadFinish u e.desc (l ++ [s.slotIn r i])).busy (millSlot u)) := by
    unfold State.loadGo
    simp only [hvalid, hinput, Bool.not_true, Bool.false_eq_true, if_false]
  have hresult : (t.setRing r ((s.ring r).used (ringSlot r) (.mill u 0) i)).loadResult u e.desc (l ++ [s.slotIn r i]) =
      s.loadResult u e.desc (l ++ [s.slotIn r i]) := by
    unfold State.loadResult
    rw [State.expand_congr (h.only.trans (t.setRing_onlyHamlets r _)) h.free, State.setRing_freeCtr, h.free]
  rw [State.loadFinish_whole hend, hresult] at hgo
  have hmill : (t.loadTakes r ((s.ring r).used (ringSlot r) (.mill u 0) i)).mill u = { s.mill u with loadQ := q, loadRun := some ⟨e, l⟩ } :=
    (State.mill_loadTakes ..).trans h.mill
  have htaken : s.millReports (t.loadTakes r ((s.ring r).used (ringSlot r) (.mill u 0) i)) u (descTile e.desc) id [] :=
    State.millReports_nothing (by rw [hmill]) (by rw [hmill]) ((State.hand_loadTakes ..).trans (h.hand _))
  have hdone := State.loadDone_reports (t.loadTakes r ((s.ring r).used (ringSlot r) (.mill u 0) i)) u e.desc
    (s.loadResult u e.desc (l ++ [s.slotIn r i])) (anyPoison (l ++ [s.slotIn r i])) false
  refine ⟨_, hgo, onlyHamlets_busy _ ((h.only.trans (t.loadTakes_onlyHamlets r _)).trans (State.loadDone_onlyHamlets ..)), ?_, ?_, ?_⟩
  · rw [State.ring_busy, State.ring_loadDone]
    exact State.ring_loadTakes ..
  · rw [Bool.or_false] at hdone
    exact (hdone.after htaken).before
      (State.millReports_nothing (by rw [State.mill_busy]; rfl) (by rw [State.mill_busy]; rfl) (State.hand_busy ..))
  · rw [State.mill_busy]
    refine (State.mill_loadDone (t.loadTakes r _) ..).trans ?_
    rw [hmill, Bool.or_false, Bool.or_false]

/-- A refused ring ends a LOAD_W with a poisoned set of zeros (R82, R174). -/
theorem State.LoadRuns.refused (h : s.LoadRuns t u e q l) (hvalid : loadValid e.desc = true)
    (href : s.ringAt (millSlot u) (fieldOf e.desc 64 13) = .foreign) :
    ∃ v, t.loadGo u ⟨e, l⟩ = .next v ∧ s.onlyHamlets v ∧ (v.hamlet (millSlot u)).err.foreign = true ∧
      s.millReports v u (descTile e.desc) (loadSticky false true) [(causeOperand, 0)] ∧
      v.mill u = (({ s.mill u with loadQ := q, loadRun := some ⟨e, l⟩ } : Mill).filled e.desc
        (Loaded.weightSet { tile := zeroTile e.desc, bad := false, badScale := false } true)).noted
          (descTile e.desc) (loadSticky false true) [(causeOperand, 0)] := by
  have href' : t.ringAt (millSlot u) (fieldOf e.desc 64 13) = .foreign := by
    rw [h.only]
    exact href
  have hgo : t.loadGo u ⟨e, l⟩ = .next (((t.foreignRing (millSlot u)).loadDone u e.desc { tile := zeroTile e.desc, bad := false, badScale := false }
      false true).busy (millSlot u)) := by
    unfold State.loadGo
    simp only [hvalid, State.input_refused href', Bool.not_true, Bool.false_eq_true, if_false]
  refine ⟨_, hgo, onlyHamlets_busy _ ((h.only.trans (t.foreignRing_onlyHamlets _)).trans (State.loadDone_onlyHamlets ..)), ?_, ?_, ?_⟩
  · rw [State.busy_hamlet_err, State.loadDone_hamlet_err]
    exact State.foreignRing_foreign ..
  · have hbefore : s.millReports t u (descTile e.desc) id [] :=
      State.millReports_nothing (by rw [h.mill]) (by rw [h.mill]) (h.hand _)
    exact ((State.loadDone_reports ..).after ((State.foreignRing_reports ..).after hbefore)).before
      (State.millReports_nothing (by rw [State.mill_busy]) (by rw [State.mill_busy]) (State.hand_busy ..))
  · rw [State.mill_busy, State.mill_loadDone, State.mill_foreignRing, h.mill]
    rfl

end

/-- Settles O24: a LOAD_W that starts or goes on is `State.LoadRuns`, the slot that ends its source ends it as `State.LoadRuns.ends` says, and a
refused ring as `State.LoadRuns.refused` says. -/
theorem millLoadsWeightSets : Obligations.MillLoadsWeightSets := by
  unfold Obligations.MillLoadsWeightSets
  refine ⟨fun s u c e q l r i hactive hcase hvalid href hoffers hless hend => ?ends, fun s u e q hactive hrun hq hfree hvalid href => ?refused⟩
  case ends =>
    have hstarts : ∃ t, exec (.loadW u) s = t.loadGo u ⟨e, l⟩ ∧ s.LoadRuns t u e q l := by
      rcases hcase with ⟨-, hrun, hq, hfree, rfl⟩ | ⟨-, hrun, hq⟩
      · exact exec_loadW_starts hactive hrun hq hfree
      · exact ⟨s, exec_loadW_goesOn hactive hrun, .waiting hrun hq⟩
    obtain ⟨t, hload, hruns⟩ := hstarts
    obtain ⟨v, hgo, honly, hring, hreports, hmill⟩ := hruns.ends hvalid href hoffers hless hend
    rw [hgo] at hload
    rw [State.loadResult_bad, State.loadResult_badScale] at hreports hmill
    have hexec : exec c s = .next v := by
      rcases hcase with ⟨rfl, -⟩ | ⟨rfl | ⟨rfl, hcomp, hfin⟩, hrun, -⟩
      · exact hload
      · exact hload
      · exact exec_millRingWait_load hrun hload (by rw [hmill]; exact hcomp) (by rw [hmill]; exact hfin)
    refine ⟨v, _, _, hexec, honly, rfl, rfl, ?_, hreports.congr fun k => ?_, fun hsound => ?_, fun k hk => ?_, ?_, ?_, ?_, hring⟩
    · rw [hmill]
      exact congrArg WeightSet.poisoned (Mill.filled_same ..)
    · rw [loadSticky, Bool.or_assoc]
    · rw [hmill]
      refine (Mill.filled_same ..).trans ?_
      rw [State.loadResult_sound hsound, hsound]
      rfl
    · rw [hmill]
      exact Mill.filled_other _ _ _ hk
    all_goals rw [hmill]; rfl
  case refused =>
    obtain ⟨t, hload, hruns⟩ := exec_loadW_starts hactive hrun hq hfree
    obtain ⟨v, hgo, honly, hforeign, hreports, hmill⟩ := hruns.refused hvalid href
    rw [hgo] at hload
    refine ⟨v, hload, honly, hforeign, ?_, ?_, fun k hk => ?_, ?_, ?_, ?_, hreports.congr fun k => ?_⟩
    · rw [hmill]
      exact congrArg WeightSet.tile (Mill.filled_same ..)
    · rw [hmill]
      exact congrArg WeightSet.poisoned (Mill.filled_same ..)
    · rw [hmill]
      exact Mill.filled_other _ _ _ hk
    · rw [hmill]; rfl
    · rw [hmill]; rfl
    · rw [hmill]; rfl
    · rw [loadSticky, Bool.or_false, Bool.or_true]

end Sys2Proof.Machine
end

