-- ==== Sys2Proof/Proofs/MillComputes.lean ====
section
/-! How a compute descriptor ends (R82, R85, R95, R96), whatever its type: the errors of its input, its poisoned lines, and the Logbook beside it. -/

namespace Sys2Proof.Machine

/-! ## The Logbook beside the hamlets -/

section
variable (s : State) (hs : Tab Hamlet) (n : Nat)

theorem State.logWrite_withHamlets (r : LogRecord) :
    State.logWrite { s with hamlets := hs, freeCtr := n } r = { s.logWrite r with hamlets := hs, freeCtr := n } := by
  show (if s.logRoom r.index then _ else _) = _
  unfold State.logWrite
  split
  · dsimp only
    split <;> rfl
  · rfl

theorem State.raiseMsix_withHamlets (fn vector : Nat) :
    State.raiseMsix { s with hamlets := hs, freeCtr := n } fn vector = { s.raiseMsix fn vector with hamlets := hs, freeCtr := n } := by
  show (if s.msixMasked fn vector then _ else _) = _
  unfold State.raiseMsix
  split <;> rfl

theorem State.alertHousehold_withHamlets (hh : Nat) (index : Word32) :
    State.alertHousehold { s with hamlets := hs, freeCtr := n } hh index = { s.alertHousehold hh index with hamlets := hs, freeCtr := n } := by
  have hnotice : (if s.noticeBox hh = 0 then ({ s with hamlets := hs, freeCtr := n } : State)
      else State.notifyHousehold { s with hamlets := hs, freeCtr := n } hh 0xf006 (index.setWidth 64)) =
      { (if s.noticeBox hh = 0 then s else s.notifyHousehold hh 0xf006 (index.setWidth 64)) with hamlets := hs, freeCtr := n } := by
    split <;> rfl
  show (if hh = 0 then _ else if (s.household hh).vf = 0 then _ else _) = _
  unfold State.alertHousehold
  split
  · rfl
  · dsimp only
    split
    · exact hnotice
    · exact (congrArg (fun t : State => t.raiseMsix (s.household hh).vf 1) hnotice).trans (State.raiseMsix_withHamlets ..)

theorem State.logAlert_withHamlets (r : LogRecord) :
    State.logAlert { s with hamlets := hs, freeCtr := n } r = { s.logAlert r with hamlets := hs, freeCtr := n } := by
  unfold State.logAlert
  split
  · refine (congrArg (fun t : State => t.alertHousehold _ _)
      (State.raiseMsix_withHamlets (s.notify 0 0xf006 (r.index.setWidth 64)) hs n 0 16)).trans ?_
    exact State.alertHousehold_withHamlets ..
  · rfl

theorem State.logFatal_withHamlets (r : LogRecord) :
    State.logFatal { s with hamlets := hs, freeCtr := n } r = { s.logFatal r with hamlets := hs, freeCtr := n } := by
  unfold State.logFatal
  split <;> rfl

theorem State.hostNotify_withHamlets (t : State) :
    State.hostNotify { s with hamlets := hs, freeCtr := n } { t with hamlets := hs, freeCtr := n } =
      { s.hostNotify t with hamlets := hs, freeCtr := n } := by
  show (if !s.alertN && t.alertN then _ else _) = _
  unfold State.hostNotify
  split <;> rfl

/-- A record does not rest on the hamlets (R397 to R402). -/
theorem State.logEvent_withHamlets (r : LogReq) :
    State.logEvent { s with hamlets := hs, freeCtr := n } r = { s.logEvent r with hamlets := hs, freeCtr := n } := by
  show (if s.suppressed r then _ else _) = _
  unfold State.logEvent
  split
  · rfl
  · dsimp only
    by_cases hsev : r.severity = 1
    · simp only [if_pos hsev]
      rw [← State.hostNotify_withHamlets, ← State.logFatal_withHamlets, ← State.logAlert_withHamlets, ← State.logWrite_withHamlets]
      rfl
    · simp only [if_neg hsev]
      rw [← State.hostNotify_withHamlets, ← State.logFatal_withHamlets, ← State.logAlert_withHamlets, ← State.logWrite_withHamlets]

end

section
variable {s t : State} (u : MillRef)

/-- Two states that differ in hamlets only differ in hamlets only after the same residue record. -/
theorem State.onlyHamlets.residueLog (h : s.onlyHamlets t) (severity event : Nat) :
    (s.residueLog u severity event).onlyHamlets (t.residueLog u severity event) := by
  have hlog : State.residueLog { s with hamlets := t.hamlets, freeCtr := t.freeCtr } u severity event =
      { s.residueLog u severity event with hamlets := t.hamlets, freeCtr := t.freeCtr } := State.logEvent_withHamlets ..
  rw [h, hlog]
  rfl

theorem State.residueLog_hamlets (s : State) (severity event : Nat) : (s.residueLog u severity event).hamlets = s.hamlets :=
  State.logEvent_hamlets ..

/-- A residue record leaves the units. -/
@[simp] theorem State.mill_residueLog (s : State) (severity event : Nat) (v : MillRef) : (s.residueLog u severity event).mill v = s.mill v := by
  unfold State.mill State.hamlet
  rw [State.residueLog_hamlets]

@[simp] theorem State.hand_residueLog (s : State) (severity event : Nat) (h : HandRef) : (s.residueLog u severity event).hand h = s.hand h := by
  unfold State.hand State.hamlet
  rw [State.residueLog_hamlets]

@[simp] theorem State.ring_residueLog (s : State) (severity event : Nat) (r : RingRef) : (s.residueLog u severity event).ring r = s.ring r := by
  unfold State.ring State.hamlet
  rw [State.residueLog_hamlets]

end

/-! ## The end of a compute descriptor -/

/-- The end of a compute descriptor on lines that stand in the accumulator: the errors of its input, of a poisoned slot at a row (R82). -/
def State.endCompute (s : State) (u : MillRef) (d : Vec) (poisoned refused dirty late : Bool) (row : Nat) : State :=
  (s.computeDone u d poisoned refused dirty).reportIf u setPoisonIn causePoison (descTile d) row late

section
variable (s : State) (u : MillRef) (d : Vec) (poisoned refused dirty late : Bool) (row : Nat)

/-- What the end of a compute descriptor adds to the sticky bits. -/
def computeSticky (poisoned refused late : Bool) (k : MillSticky) : MillSticky :=
  stickyIf late setPoisonIn (stickyIf refused setExpErr (stickyIf poisoned setPoisonIn k))

/-- The errors of the input of a compute descriptor in their order (log entry 103). -/
def computeErrors (poisoned refused late : Bool) (row : Nat) : List (BitVec 3 × Nat) :=
  oneIf poisoned (causePoison, 0) ++ oneIf refused (causeOperand, 0) ++ oneIf late (causePoison, row)

theorem State.endCompute_eq : s.endCompute u d poisoned refused dirty late row =
    (((s.modMill u fun x => x.computed d (poisoned || refused || dirty)).reportIf u setPoisonIn causePoison (descTile d) 0 poisoned).reportIf
      u setExpErr causeOperand (descTile d) 0 refused).reportIf u setPoisonIn causePoison (descTile d) row late := rfl

theorem State.mill_endCompute : (s.endCompute u d poisoned refused dirty late row).mill u =
    ((s.mill u).computed d (poisoned || refused || dirty)).noted (descTile d) (computeSticky poisoned refused late)
      (computeErrors poisoned refused late row) := by
  rw [State.endCompute_eq, State.mill_reportIf, State.mill_reportIf, State.mill_reportIf, State.mill_modMill,
    Mill.noted_noted _ (causes_oneIf (by decide)), Mill.noted_noted _ (causes_oneIf (by decide))]
  simp only [computeErrors, List.append_assoc]
  rfl

theorem State.computed_reports (b : Bool) (tile : Word32) : s.millReports (s.modMill u fun x => x.computed d b) u tile id [] :=
  State.millReports_nothing (by rw [State.mill_modMill, Mill.computed_eq]) (by rw [State.mill_modMill, Mill.computed_eq]) (State.hand_modMill ..)

theorem State.endCompute_reports : s.millReports (s.endCompute u d poisoned refused dirty late row) u (descTile d)
    (computeSticky poisoned refused late) (computeErrors poisoned refused late row) := by
  rw [State.endCompute_eq]
  have hpoison := (State.reportIf_reports _ u setPoisonIn causePoison (descTile d) 0 poisoned).after
    (s.computed_reports u d (poisoned || refused || dirty) (descTile d))
  have hrefused := hpoison.trans (State.reportIf_reports _ u setExpErr causeOperand (descTile d) 0 refused) (causes_oneIf (by decide))
  exact hrefused.trans (State.reportIf_reports _ u setPoisonIn causePoison (descTile d) row late)
    (List.forall_mem_append.2 ⟨causes_oneIf (by decide), causes_oneIf (by decide)⟩)

@[simp] theorem State.ring_endCompute (r : RingRef) : (s.endCompute u d poisoned refused dirty late row).ring r = s.ring r := by
  rw [State.endCompute_eq, State.ring_reportIf, State.ring_reportIf, State.ring_reportIf, State.ring_modMill]

@[simp] theorem State.endCompute_hamlet_err (k : HamletRef) :
    ((s.endCompute u d poisoned refused dirty late row).hamlet k).err = (s.hamlet k).err := by
  rw [State.endCompute_eq, State.reportIf_hamlet_err, State.reportIf_hamlet_err, State.reportIf_hamlet_err, State.modMill_hamlet_err]

theorem State.endCompute_onlyHamlets : s.onlyHamlets (s.endCompute u d poisoned refused dirty late row) := by
  rw [State.endCompute_eq]
  exact (((s.setMill_onlyHamlets u _).trans (State.reportIf_onlyHamlets ..)).trans (State.reportIf_onlyHamlets ..)).trans
    (State.reportIf_onlyHamlets ..)

end

end Sys2Proof.Machine
end

