-- ==== Sys2Proof/Proofs/MillIntegers.lean ====
section
/-! TRIT_MM and BIN_MM (R72, R75 to R77, R83, R84, R95, R96): their sums in the lines of the accumulator, and their recomputes. -/

namespace Sys2Proof.Machine

/-! ## Recomputes that mend -/

/-- A Mill after recomputes that were used, one for each number of a list (R95). -/
def Mill.mended (x : Mill) (l : List Nat) : Mill :=
  { x with recomputes := l.foldl (fun n _ => satAdd n 1) x.recomputes
           sticky := { x.sticky with residueCorr := x.sticky.residueCorr || !l.isEmpty } }

section
variable (s : State) (u : MillRef)

theorem State.mill_recomputeOk (n : Nat) : (s.recomputeOk u).mill u = (s.mill u).mended [n] := by
  rw [State.recomputeOk, State.mill_residueLog, State.mill_modMill, Mill.mended]
  simp

theorem State.recomputeOk_hand (h : HandRef) : (s.recomputeOk u).hand h = s.hand h := by
  rw [State.recomputeOk, State.hand_residueLog, State.hand_modMill]

theorem State.recomputeOk_ring (r : RingRef) : (s.recomputeOk u).ring r = s.ring r := by
  rw [State.recomputeOk, State.ring_residueLog, State.ring_modMill]

/-- The state after recomputes that were used, one for each number of a list. -/
def State.mends (l : List Nat) : State := l.foldl (fun v _ => v.recomputeOk u) s

theorem Mill.mended_cons (x : Mill) (n : Nat) (l : List Nat) : (x.mended [n]).mended l = x.mended (n :: l) := by
  simp [Mill.mended]

theorem State.mill_mends (l : List Nat) : (s.mends u l).mill u = (s.mill u).mended l := by
  induction l generalizing s with
  | nil => simp [State.mends, Mill.mended]
  | cons n l ih => exact (ih _).trans (by rw [State.mill_recomputeOk s u n, Mill.mended_cons])

theorem State.hand_mends (l : List Nat) (h : HandRef) : (s.mends u l).hand h = s.hand h := by
  induction l generalizing s with
  | nil => rfl
  | cons n l ih => exact (ih _).trans (State.recomputeOk_hand ..)

theorem State.ring_mends (l : List Nat) (r : RingRef) : (s.mends u l).ring r = s.ring r := by
  induction l generalizing s with
  | nil => rfl
  | cons n l ih => exact (ih _).trans (State.recomputeOk_ring ..)

/-- Recomputes that were used set RESIDUE_CORR and are no errors of MILL_FIRST_ERR. -/
theorem State.mends_reports (tile : Word32) (l : List Nat) :
    s.millReports (s.mends u l) u tile (fun k => { k with residueCorr := k.residueCorr || !l.isEmpty }) [] := by
  refine ⟨?_, ?_, ?_⟩
  · rw [State.mill_mends]
    rfl
  · rw [State.mill_mends]
    rfl
  · rw [State.hand_mends]
    rfl

/-- Each recompute that was used is a record of event 1, whatever the hamlets hold (R95). -/
theorem State.onlyHamlets.mends {s t : State} (h : s.onlyHamlets t) (l : List Nat) :
    State.onlyHamlets (l.foldl (fun v _ => v.residueLog u 1 1) s) (t.mends u l) :=
  List.foldl_rel h fun _ _ _ v hv => (hv.trans (v.setMill_onlyHamlets u _)).residueLog u 1 1

end

/-! ## Recomputes that fail -/

/-- A Mill after recomputes that failed, each named by a row (R96). -/
def Mill.failing (x : Mill) (tile : Word32) (l : List Nat) : Mill :=
  Mill.noted { x with retirePending := x.retirePending || !l.isEmpty } tile (fun k => { k with residueFail := k.residueFail || !l.isEmpty })
    (l.map fun row => (causeResidue, row))

theorem causes_failing (l : List Nat) : ∀ e ∈ l.map fun row => (causeResidue, row), e.1 ≠ 0 := by
  intro e he
  obtain ⟨row, -, rfl⟩ := List.mem_map.1 he
  exact (by decide : causeResidue ≠ 0)

theorem Mill.failing_cons (x : Mill) (tile : Word32) (row : Nat) (l : List Nat) :
    (x.failing tile [row]).failing tile l = x.failing tile (row :: l) := by
  have hfirst := MillFirstErr.then_append x.firstErr tile (l.map fun row => (causeResidue, row)) (causes_failing [row])
  simp only [Mill.failing, Mill.noted, hfirst]
  simp

section
variable (s : State) (u : MillRef) (tile : Word32)

theorem State.mill_recomputeBad (row : Nat) : (s.recomputeBad u tile row).mill u = (s.mill u).failing tile [row] := by
  rw [State.recomputeBad, State.mill_residueLog, State.mill_millError, State.mill_modMill]
  simp [Mill.failing, Mill.noted]

theorem State.recomputeBad_reports (row : Nat) :
    s.millReports (s.recomputeBad u tile row) u tile (fun k => { k with residueFail := true }) [(causeResidue, row)] := by
  have hpending : s.millReports (s.modMill u fun x => { x with retirePending := true }) u tile id [] :=
    State.millReports_nothing (by rw [State.mill_modMill]) (by rw [State.mill_modMill]) (State.hand_modMill ..)
  rw [State.recomputeBad]
  exact ((State.millError_reports ..).after hpending).before
    (State.millReports_nothing (by rw [State.mill_residueLog]) (by rw [State.mill_residueLog]) (State.hand_residueLog ..))

theorem State.recomputeBad_ring (row : Nat) (r : RingRef) : (s.recomputeBad u tile row).ring r = s.ring r := by
  rw [State.recomputeBad, State.ring_residueLog, State.ring_millError, State.ring_modMill]

/-- The state after recomputes that failed, each named by a row. -/
def State.fails (l : List Nat) : State := l.foldl (fun v row => v.recomputeBad u tile row) s

theorem State.mill_fails (l : List Nat) : (s.fails u tile l).mill u = (s.mill u).failing tile l := by
  induction l generalizing s with
  | nil => simp [State.fails, Mill.failing, Mill.noted, MillFirstErr.then_]
  | cons row l ih => exact (ih _).trans (by rw [State.mill_recomputeBad, Mill.failing_cons])

theorem State.ring_fails (l : List Nat) (r : RingRef) : (s.fails u tile l).ring r = s.ring r := by
  induction l generalizing s with
  | nil => rfl
  | cons row l ih => exact (ih _).trans (State.recomputeBad_ring ..)

/-- Each recompute that failed sets RESIDUE_FAIL and is an error of MILL_FIRST_ERR with its row. -/
theorem State.fails_reports (l : List Nat) : s.millReports (s.fails u tile l) u tile
    (fun k => { k with residueFail := k.residueFail || !l.isEmpty }) (l.map fun row => (causeResidue, row)) := by
  induction l generalizing s with
  | nil => exact (State.millReports_nothing rfl rfl rfl).congr fun k => by simp
  | cons row l ih =>
    exact ((State.recomputeBad_reports s u tile row).trans (ih _) (causes_failing [row])).congr fun k => by simp

/-- Each recompute that failed is a record of event 2, whatever the hamlets hold (R96). -/
theorem State.onlyHamlets.fails {s t : State} (h : s.onlyHamlets t) (l : List Nat) :
    State.onlyHamlets (l.foldl (fun v _ => v.residueLog u 2 2) s) (t.fails u tile l) :=
  List.foldl_rel h fun _ _ _ v hv =>
    ((hv.trans (v.setMill_onlyHamlets u _)).trans (State.millError_onlyHamlets ..)).residueLog u 2 2

end

/-! ## Sums in lines -/

/-- In lists of one length put behind each other, entry `p` of list `m`. -/
theorem getElem?_flatMap_uniform {α β : Type} {f : α → List β} {n : Nat} {l : List α} (h : ∀ a ∈ l, (f a).length = n) {m p : Nat} {a : α}
    (hm : l[m]? = some a) (hp : p < n) : (l.flatMap f)[n * m + p]? = (f a)[p]? := by
  induction l generalizing m with
  | nil => simp at hm
  | cons b l ih =>
    have hb : (f b).length = n := h b List.mem_cons_self
    rw [List.flatMap_cons]
    cases m with
    | zero =>
      obtain rfl : b = a := by simpa using hm
      rw [Nat.mul_zero, Nat.zero_add, List.getElem?_append_left (by omega)]
    | succ m =>
      rw [Nat.mul_succ, List.getElem?_append_right (by omega), hb, show n * m + n + p - n = n * m + p by omega]
      exact ih (fun c hc => h c (List.mem_cons_of_mem _ hc)) (by simpa using hm)

/-- The sums of a row in parts of 64, one for each of its `n` lines. -/
def rowParts (n : Nat) (r : List (Int × BitVec 3)) : List (List (Int × BitVec 3)) := (List.range n).map fun i => (r.drop (64 * i)).take 64

/-- The line that part `k` of the sums of a tile gives (R83, R84). -/
def Mill.sumLineAt (x : Mill) (d : Vec) (tag : AccTag) (vs : List (Int × BitVec 3)) (k : Nat) : AccLine :=
  sumLine (x.line (descBase d + k)) tag (linesPerRow d == 4) (d.getLsbD 10) false (lineSpan d) vs

/-- The lines that the rows of sums of an integer tile give. -/
def Mill.sumLines (x : Mill) (d : Vec) (tag : AccTag) (rows : List (List (Int × BitVec 3))) : List AccLine :=
  (rows.flatMap (rowParts (linesPerRow d))).zipIdx.map fun p => x.sumLineAt d tag p.1 p.2

section
variable {x : Mill} {d : Vec} {tag : AccTag} {rows : List (List (Int × BitVec 3))}

theorem Mill.writeSums_eq : x.writeSums d tag false rows = { x with acc := putLines x.acc (descBase d) (x.sumLines d tag rows) } := rfl

theorem Mill.sumLines_length : (x.sumLines d tag rows).length = linesPerRow d * rows.length := by
  simp [Mill.sumLines, rowParts, List.length_flatMap, Nat.mul_comm]

theorem Mill.sumLines_at {m p : Nat} {a : List (Int × BitVec 3)} (hm : rows[m]? = some a) (hp : p < linesPerRow d) :
    (x.sumLines d tag rows)[linesPerRow d * m + p]? =
      some (x.sumLineAt d tag ((a.drop (64 * p)).take 64) (linesPerRow d * m + p)) := by
  have hpart : (rows.flatMap (rowParts (linesPerRow d)))[linesPerRow d * m + p]? = some ((a.drop (64 * p)).take 64) := by
    rw [getElem?_flatMap_uniform (fun b _ => by simp [rowParts]) hm hp]
    simp [rowParts, hp]
  simp [Mill.sumLines, List.getElem?_zipIdx, hpart]

end

/-- Lines after the last of a row lie before the end of the tile. -/
theorem lineIndex_lt {n m p rows : Nat} (hm : m < rows) (hp : p < n) : n * m + p < n * rows := by
  have := Nat.mul_le_mul_left n (Nat.succ_le_of_lt hm)
  rw [Nat.mul_succ] at this
  omega

/-- The lines of an integer descriptor that the accumulator has room for (R69). -/
theorem lineSpan_compute {d : Vec} (htype : descType d < 0x08) (hfits : descBase d + linesPerRow d * descRows d ≤ 1024) :
    lineSpan d = (descBase d, descBase d + linesPerRow d * descRows d) := by
  simp [lineSpan, Nat.not_le.2 htype, hfits]

/-! ## An integer descriptor on its rows -/

/-- The state in which the checked sums of rows stand in their lines and the recomputes are reported (R83, R95, R96). -/
def State.sumsChecked (s : State) (u : MillRef) (ups : List Upset) (d : Vec) (tag : AccTag) (rows : List (List Int)) (b4 : List Bool) : State :=
  let o := recomputed ups b4 (descRows d) (64 * linesPerRow d)
  ((s.setMill u ((s.mill u).writeSums d tag false (rows.zipIdx.map fun y => checkedRow ups b4 y.2 y.1))).mends u o.1).fails u (descTile d) o.2

theorem State.integerRun_eq (s : State) (u : MillRef) (ups : List Upset) (d : Vec) (tag : AccTag) (l : List SlotIn) (refused : Bool)
    (rows : List (List Int)) (b4 : List Bool) :
    s.integerRun u ups d tag l refused rows b4 = (s.sumsChecked u ups d tag rows b4).endCompute u d false refused
      (((s.mill u).sets.get {} (fieldOf d 8 1)).poisoned || !(recomputed ups b4 (descRows d) (64 * linesPerRow d)).2.isEmpty || anyPoison l)
      (anyPoison l) (poisonRow d 0 l) := rfl

/-- The Mill with checked sums in its lines and its recomputes in its registers. -/
def Mill.summed (x : Mill) (ups : List Upset) (d : Vec) (tag : AccTag) (rows : List (List Int)) (b4 : List Bool) : Mill :=
  let o := recomputed ups b4 (descRows d) (64 * linesPerRow d)
  ((x.writeSums d tag false (rows.zipIdx.map fun y => checkedRow ups b4 y.2 y.1)).mended o.1).failing (descTile d) o.2

section
variable (s : State) (u : MillRef) (ups : List Upset) (d : Vec) (tag : AccTag) (rows : List (List Int)) (b4 : List Bool)

theorem State.mill_sumsChecked : (s.sumsChecked u ups d tag rows b4).mill u = (s.mill u).summed ups d tag rows b4 := by
  rw [State.sumsChecked, State.mill_fails, State.mill_mends, State.mill_setMill]
  rfl

theorem State.ring_sumsChecked (r : RingRef) : (s.sumsChecked u ups d tag rows b4).ring r = s.ring r := by
  rw [State.sumsChecked, State.ring_fails, State.ring_mends, State.ring_setMill]

/-- The recomputes set their sticky bits, and those that failed are errors with their rows (R95, R96). -/
theorem State.sumsChecked_reports : s.millReports (s.sumsChecked u ups d tag rows b4) u (descTile d)
    (fun k => { k with
      residueCorr := k.residueCorr || !(recomputed ups b4 (descRows d) (64 * linesPerRow d)).1.isEmpty
      residueFail := k.residueFail || !(recomputed ups b4 (descRows d) (64 * linesPerRow d)).2.isEmpty })
    ((recomputed ups b4 (descRows d) (64 * linesPerRow d)).2.map fun row => (causeResidue, row)) := by
  have hwritten : s.millReports (s.setMill u ((s.mill u).writeSums d tag false (rows.zipIdx.map fun y => checkedRow ups b4 y.2 y.1))) u (descTile d)
      id [] := State.millReports_nothing (by rw [State.mill_setMill]; rfl) (by rw [State.mill_setMill]; rfl) (State.hand_setMill ..)
  exact ((State.mends_reports ..).after hwritten).trans (State.fails_reports ..) nofun

/-- The Logbook takes a record of each recompute, those that mend first. -/
theorem State.sumsChecked_logs {v : State} (h : v.onlyHamlets s) : State.onlyHamlets
    ((recomputed ups b4 (descRows d) (64 * linesPerRow d)).2.foldl (fun v _ => v.residueLog u 2 2)
      ((recomputed ups b4 (descRows d) (64 * linesPerRow d)).1.foldl (fun v _ => v.residueLog u 1 1) v))
    (s.sumsChecked u ups d tag rows b4) :=
  ((h.trans (s.setMill_onlyHamlets u _)).mends u _).fails u _ _

/-- Without upsets nothing is computed again. -/
theorem recomputed_nil (m w : Nat) : recomputed [] b4 m w = ([], []) := by
  simp [recomputed, mismatch]

theorem State.sumsChecked_sound : s.sumsChecked u [] d tag rows b4 =
    s.setMill u ((s.mill u).writeSums d tag false (rows.zipIdx.map fun y => checkedRow [] b4 y.2 y.1)) := by
  rw [State.sumsChecked, recomputed_nil]
  rfl

end

section
variable {x : Mill} {ups : List Upset} {d : Vec} {tag : AccTag} {rows : List (List Int)} {b4 : List Bool} {poisoned : Bool}

/-- The lines before and after those of an integer descriptor stay. -/
theorem Mill.summed_outside (hspan : lineSpan d = (descBase d, descBase d + linesPerRow d * descRows d)) (hlen : rows.length = descRows d)
    {n : Nat} (h : n < descBase d ∨ descBase d + linesPerRow d * descRows d ≤ n) :
    ((x.summed ups d tag rows b4).computed d poisoned).line n = x.line n := by
  rw [Mill.computed_outside _ _ _ (by rw [hspan]; exact h)]
  refine putLines_outside (x.sumLines d tag _) _ ?_
  rw [Mill.sumLines_length, List.length_map, List.length_zipIdx, hlen]
  exact h

/-- Line `n m + p` after ACC_BASE, with `n` the lines of a row, takes sums 64 p to 64 p + 63 of row `m`, poisoned where the tile is. -/
theorem Mill.summed_at (hspan : lineSpan d = (descBase d, descBase d + linesPerRow d * descRows d)) (hlen : rows.length = descRows d)
    (hfits : descBase d + linesPerRow d * descRows d ≤ 1024) {m p : Nat} {a : List Int} (hm : rows[m]? = some a) (hp : p < linesPerRow d) :
    ((x.summed ups d tag rows b4).computed d poisoned).line (descBase d + (linesPerRow d * m + p)) =
      { x.sumLineAt d tag (((checkedRow ups b4 m a).drop (64 * p)).take 64) (linesPerRow d * m + p) with
        poison := (x.sumLineAt d tag (((checkedRow ups b4 m a).drop (64 * p)).take 64) (linesPerRow d * m + p)).poison || poisoned } := by
  have hrow : m < descRows d := hlen ▸ (List.getElem?_eq_some_iff.1 hm).1
  have hin := lineIndex_lt hrow hp
  have hchecked : (rows.zipIdx.map fun y => checkedRow ups b4 y.2 y.1)[m]? = some (checkedRow ups b4 m a) := by
    simp [List.getElem?_zipIdx, hm]
  have hline : (x.summed ups d tag rows b4).line (descBase d + (linesPerRow d * m + p)) =
      x.sumLineAt d tag (((checkedRow ups b4 m a).drop (64 * p)).take 64) (linesPerRow d * m + p) :=
    putLines_at x.acc (Mill.sumLines_at hchecked hp) (by omega)
  rw [← hline]
  exact Mill.computed_at _ _ (by rw [hspan]; exact Nat.le_add_right ..) (by rw [hspan]; exact Nat.add_lt_add_left hin _)

end

/-! ## Trit and binary operands -/

section
variable {s : State} {u : MillRef} {ups : List Upset} {d : Vec} {l : List SlotIn} {refused : Bool}

theorem State.tritRun_ok {cols : List (List Trit)} {sc : List (BitVec 16)} (hset : ((s.mill u).sets.get {} (fieldOf d 8 1)).tile = .trit cols sc)
    (htile : (s.mill u).tileOk d .int32 l = true) : s.tritRun u ups d l refused =
      s.integerRun u ups d .int32 l refused ((actRows d l).map fun a => tritSums cols (d.getLsbD 9) a.1) ((actRows d l).map Prod.snd) := by
  simp only [State.tritRun, hset, htile, if_true]

theorem State.binRun_ok {cols : List (List Bool)} (hset : ((s.mill u).sets.get {} (fieldOf d 8 1)).tile = .binary cols)
    (htile : (s.mill u).tileOk d .bin l = true) : s.binRun u ups d l refused =
      s.integerRun u ups d .bin l refused ((chunks 256 (allBytes l)).map fun a => binSums cols (fieldOf d 16 12) a) [] := by
  simp only [State.binRun, hset, htile, if_true]

end

/-- Slots that end with the last row hold the rows. -/
theorem rowsReady_of_tileOk {x : Mill} {d : Vec} {tag : AccTag} {z : SlotIn} (h : x.tileOk d tag [z] = true) : rowsReady d [z] = true := by
  simp only [Mill.tileOk, Bool.and_eq_true] at h
  obtain ⟨⟨⟨⟨⟨hend, -⟩, -⟩, -⟩, -⟩, -⟩ := h
  simp only [rowsEnd, Bool.and_eq_true, decide_eq_true_eq] at hend
  simp [rowsReady, ← hend.1]

end Sys2Proof.Machine
end

