-- ==== Sys2Proof/Proofs/MillSums.lean ====
section
/-! Compute descriptors whose input is poisoned or refused (R82), and the statement about integer sums. -/

namespace Sys2Proof.Machine

/-! ## What a compute descriptor changes before its end -/

/-- Between two states only the accumulator of Mill `u` differs of what a compute descriptor reports on. -/
structure State.LinesOnly (s t : State) (u : MillRef) : Prop where
  mill : ∃ acc, t.mill u = { s.mill u with acc := acc }
  hand : t.hand ⟨u.die, u.slot, u.idx⟩ = s.hand ⟨u.die, u.slot, u.idx⟩
  err : (t.hamlet (millSlot u)).err = (s.hamlet (millSlot u)).err

section
variable {s t : State} {u : MillRef}

theorem State.LinesOnly.of_hamlets (h : t.hamlets = s.hamlets) : s.LinesOnly t u := by
  have hhamlet (m : HamletRef) : t.hamlet m = s.hamlet m := congrArg (fun l : Tab Hamlet => l.get {} _) h
  refine ⟨⟨(s.mill u).acc, ?_⟩, ?_, ?_⟩
  · unfold State.mill
    rw [hhamlet]
  · unfold State.hand
    rw [hhamlet]
  · rw [hhamlet]

theorem State.LinesOnly.setLines (h : s.LinesOnly t u) (acc : Tab AccLine) (n : Nat) :
    s.LinesOnly { t.setMill u { t.mill u with acc := acc } with freeCtr := n } u := by
  obtain ⟨a, ha⟩ := h.mill
  refine ⟨⟨acc, (State.mill_setMill t u _).trans (by rw [ha])⟩, (State.hand_setMill t u _ _).trans h.hand, ?_⟩
  exact (State.setMill_hamlet_err t u _ _).trans h.err

theorem State.LinesOnly.nothing {tile : Word32} (h : s.LinesOnly t u) : s.millReports t u tile id [] := by
  obtain ⟨a, ha⟩ := h.mill
  exact State.millReports_nothing (by rw [ha]) (by rw [ha]) h.hand

end

/-! ## Free lines -/

section
variable (s : State) (u : MillRef) (d : Vec) (tag : AccTag) (l : List SlotIn) (refused : Bool)

/-- A ring whose contents are free keeps its place in its hamlet. -/
theorem State.padWrite_hamlets (m : HamletRef) (off : Nat) (b : List Byte) : (s.padWrite m off b false).hamlets = s.hamlets := by
  unfold State.padWrite State.storeMem
  split
  · rfl
  · obtain ⟨q, hq⟩ := s.store_sram (isSram_sramAddr m off) (b.take (padBytes - off))
    rw [hq]

theorem State.freeRing_hamlets (r : RingRef) : (s.freeRing r).hamlets = s.hamlets := State.padWrite_hamlets ..

/-- The state in which input that ends inside a slot has left its ring free (R107, R128). -/
def State.inputFreed : State :=
  if rowsEnd d l || refused then s else
    (match s.ringAt (millSlot u) (fieldOf d 64 13) with
    | .job r => s.freeRing r
    | _ => s)

theorem State.inputFreed_hamlets : (s.inputFreed u d l refused).hamlets = s.hamlets := by
  unfold State.inputFreed
  split
  · rfl
  · split
    · exact State.freeRing_hamlets ..
    · rfl

theorem State.tileFree_eq (row : Nat) : s.tileFree u d tag l refused =
    ((s.inputFreed u d l refused).freeTiles u d tag).endCompute u d (anyPoison l) refused ((s.mill u).sets.get {} (fieldOf d 8 1)).poisoned false row := rfl

theorem State.tileFree_lines : s.LinesOnly ((s.inputFreed u d l refused).freeTiles u d tag) u :=
  (State.LinesOnly.of_hamlets (State.inputFreed_hamlets ..)).setLines _ _

end

/-! ## The end of any compute descriptor -/

/-- State `t` is `s` after a compute descriptor on input `l`: lines of the accumulator are written, and the poison of its input is reported either
before that of a refused ring or after. -/
def State.ComputeEnds (s t : State) (u : MillRef) (d : Vec) (l : List SlotIn) (refused : Bool) : Prop :=
  ∃ v early dirty late, t = v.endCompute u d early refused dirty late (poisonRow d 0 l) ∧ s.LinesOnly v u ∧
    (early = anyPoison l ∧ late = false ∨ early = false ∧ late = anyPoison l ∧ (late = true → dirty = true))

section
variable (s : State) (u : MillRef) (d : Vec) (l : List SlotIn) (refused : Bool)

theorem State.tileFree_ends (tag : AccTag) : s.ComputeEnds (s.tileFree u d tag l refused) u d l refused :=
  ⟨_, _, _, _, s.tileFree_eq u d tag l refused _, s.tileFree_lines u d tag l refused, Or.inl ⟨rfl, rfl⟩⟩

theorem State.integerRun_ends (tag : AccTag) (rows : List (List Int)) (b4 : List Bool) :
    s.ComputeEnds (s.integerRun u [] d tag l refused rows b4) u d l refused := by
  refine ⟨_, _, _, _, State.integerRun_eq .., ?_, Or.inr ⟨rfl, rfl, fun h => by rw [h, Bool.or_true]⟩⟩
  rw [State.sumsChecked_sound, Mill.writeSums_eq]
  exact (State.LinesOnly.of_hamlets rfl).setLines _ s.freeCtr

theorem State.tritRun_ends : s.ComputeEnds (s.tritRun u [] d l refused) u d l refused := by
  unfold State.tritRun
  dsimp only
  split
  · split
    · exact State.integerRun_ends ..
    · exact State.tileFree_ends ..
  · exact State.tileFree_ends ..

theorem State.binRun_ends : s.ComputeEnds (s.binRun u [] d l refused) u d l refused := by
  unfold State.binRun
  dsimp only
  split
  · split
    · exact State.integerRun_ends ..
    · exact State.tileFree_ends ..
  · exact State.tileFree_ends ..

theorem State.logRun_ends : s.ComputeEnds (s.logRun u d l refused) u d l refused := by
  unfold State.logRun
  dsimp only
  split
  · split
    · refine ⟨_, false, _, anyPoison l, rfl, ?_, Or.inr ⟨rfl, rfl, fun h => by rw [h, Bool.or_true]⟩⟩
      split
      · exact (State.LinesOnly.of_hamlets rfl).setLines _ _
      · exact (State.LinesOnly.of_hamlets rfl).setLines _ s.freeCtr
    · exact State.tileFree_ends ..
  · exact State.tileFree_ends ..

end

section
variable {s t : State} {u : MillRef} {d : Vec} {l : List SlotIn} {refused : Bool}

/-- A compute descriptor leaves its Mill but for the lines, the run and the error registers. -/
theorem State.ComputeEnds.keeps (h : s.ComputeEnds t u d l refused) :
    ∃ acc sticky first, t.mill u = { s.mill u with acc := acc, compRun := none, sticky := sticky, firstErr := first } := by
  obtain ⟨v, early, dirty, late, rfl, hlines, -⟩ := h
  obtain ⟨acc, hmill⟩ := hlines.mill
  rw [State.mill_endCompute, Mill.computed_eq, hmill]
  exact ⟨_, _, _, rfl⟩

theorem State.ComputeEnds.err (h : s.ComputeEnds t u d l refused) : (t.hamlet (millSlot u)).err = (s.hamlet (millSlot u)).err := by
  obtain ⟨v, early, dirty, late, rfl, hlines, -⟩ := h
  rw [State.endCompute_hamlet_err, hlines.err]

/-- Poisoned or refused input poisons every line of the tile (R82). -/
theorem State.ComputeEnds.poisons (h : s.ComputeEnds t u d l refused) (hbad : anyPoison l = true ∨ refused = true) {n : Nat}
    (ha : (lineSpan d).1 ≤ n) (hb : n < (lineSpan d).2) : ((t.mill u).line n).poison = true := by
  obtain ⟨v, early, dirty, late, rfl, -, hwhen⟩ := h
  have hpoisoned : (early || refused || dirty) = true := by
    rcases hbad with hpoison | rfl
    · rcases hwhen with ⟨rfl, -⟩ | ⟨-, rfl, hdirty⟩
      · rw [hpoison]
        rfl
      · rw [hdirty hpoison, Bool.or_true]
    · rw [Bool.or_true, Bool.true_or]
  rw [State.mill_endCompute, hpoisoned]
  refine (congrArg AccLine.poison (Mill.computed_at (v.mill u) (d := d) true ha hb)).trans ?_
  rw [Bool.or_true]

/-- A poisoned slot sets POISON_IN (R82). -/
theorem State.ComputeEnds.reports_poison (h : s.ComputeEnds t u d l false) (hpoison : anyPoison l = true) (hrow : poisonRow d 0 l = 0) :
    s.millReports t u (descTile d) setPoisonIn [(causePoison, 0)] := by
  obtain ⟨v, early, dirty, late, rfl, hlines, hwhen⟩ := h
  have hends := (State.endCompute_reports v u d early false dirty late (poisonRow d 0 l)).after hlines.nothing
  rw [hrow] at hends ⊢
  rcases hwhen with ⟨rfl, rfl⟩ | ⟨rfl, rfl, -⟩
  · rw [hpoison] at hends ⊢
    exact hends
  · rw [hpoison] at hends ⊢
    exact hends

/-- A refused ring counts as an operand error (R82, R174). -/
theorem State.ComputeEnds.reports_refused (h : s.ComputeEnds t u d l true) (hsound : anyPoison l = false) :
    s.millReports t u (descTile d) setExpErr [(causeOperand, 0)] := by
  obtain ⟨v, early, dirty, late, rfl, hlines, hwhen⟩ := h
  have hends := (State.endCompute_reports v u d early true dirty late (poisonRow d 0 l)).after hlines.nothing
  rcases hwhen with ⟨rfl, rfl⟩ | ⟨rfl, rfl, -⟩
  · rw [hsound] at hends ⊢
    exact hends
  · rw [hsound] at hends ⊢
    exact hends

end

/-! ## Poisoned slots -/

/-- A poisoned slot as a unit uses it in a state: its bytes and its bias are free (R82). -/
def SlotIn.freed (x : SlotIn) (s : State) : SlotIn :=
  { x with bytes := (s.freshBytes (x.bytes.length + 1)).1.drop 1, bias := (s.freshBytes (x.bytes.length + 1)).1.headD 0 }

theorem State.freePoison_poisoned {x : SlotIn} (h : x.poison = true) (s : State) :
    State.freePoison [x] s = ([x.freed s], { s with freeCtr := s.freeCtr + (x.bytes.length + 1) }) := by
  simp only [State.freePoison, SlotIn.freed, h, if_true]
  rfl

/-! ## The run of any compute descriptor -/

/-- A function that runs compute descriptors of a type ends each as `State.ComputeEnds` says. -/
def ComputesBy (f : Vec → State → List SlotIn → Bool → State) (u : MillRef) : Prop :=
  ∀ (d : Vec) (t : State) (l : List SlotIn) (refused : Bool), t.ComputeEnds (f d t l refused) u d l refused

/-- The command of each type of compute descriptor, without upsets. -/
theorem exec_compute_ends {c : Instr} {u : MillRef} {d : Vec}
    (hc : (descType d = 0x02 ∧ c = .tritMm u []) ∨ (descType d = 0x03 ∧ c = .binMm u []) ∨ (descType d = 0x04 ∧ c = .logMm u)) :
    ∃ f, ComputesBy f u ∧ ∀ s, exec c s = s.computeUnit u (descType d) f := by
  rcases hc with ⟨htype, rfl⟩ | ⟨htype, rfl⟩ | ⟨htype, rfl⟩
  · exact ⟨fun d t l r => t.tritRun u [] d l r, fun d t l r => State.tritRun_ends t u d l r, fun s => by rw [htype]; rfl⟩
  · exact ⟨fun d t l r => t.binRun u [] d l r, fun d t l r => State.binRun_ends t u d l r, fun s => by rw [htype]; rfl⟩
  · exact ⟨fun d t l r => t.logRun u d l r, fun d t l r => State.logRun_ends t u d l r, fun s => by rw [htype]; rfl⟩

section
variable {s : State} {u : MillRef} {e : Dispatched} {q : List Dispatched}

/-- A valid compute descriptor, free of interlocks and class change, whose ring is refused runs on rows of zeros (R82). -/
theorem State.computeUnit_refused (f : Vec → State → List SlotIn → Bool → State)
    (hactive : (s.hamlet (millSlot u)).power = .active) (hrun : (s.mill u).compRun = none) (hq : (s.mill u).compQ = e :: q)
    (hfree : (s.mill u).computeFree e = true) (hclass : (s.mill u).needsDrain e.desc = false ∨ (s.mill u).draining = true)
    (hvalid : computeValid e.desc = true) (href : s.ringAt (millSlot u) (fieldOf e.desc 64 13) = .foreign) :
    s.computeUnit u (descType e.desc) f =
      .next ((f e.desc ((s.setMill u ((s.mill u).started e q)).foreignRing (millSlot u)) (zeroRows e.desc) true).busy (millSlot u)) := by
  have hruns : s.millRuns u = true := decide_eq_true hactive
  have hinput : (s.setMill u ((s.mill u).started e q)).input u 1 (fieldOf e.desc 64 13) [] (rowsReady e.desc) =
      (.refused, [], (s.setMill u ((s.mill u).started e q)).foreignRing (millSlot u)) := State.input_refused href
  unfold State.computeUnit
  simp only [hruns, hrun, hq, hfree, hclass, Bool.not_true, Bool.false_eq_true, if_false, and_self, if_true]
  show (s.setMill u ((s.mill u).started e q)).computeGo u ⟨e, []⟩ (f e.desc) = _
  unfold State.computeGo
  simp only [hvalid, hinput, Bool.not_true, Bool.false_eq_true, if_false]

/-- What follows for the Mill and the Hand of a descriptor that has started in state `v` and ended in `t`. -/
theorem State.ComputeEnds.from_start {v t : State} {l : List SlotIn} {refused : Bool} (h : v.ComputeEnds t u e.desc l refused)
    (hmill : v.mill u = (s.mill u).started e q) (hhand : v.hand ⟨u.die, u.slot, u.idx⟩ = s.hand ⟨u.die, u.slot, u.idx⟩)
    (hbad : anyPoison l = true ∨ refused = true) :
    ((t.busy (millSlot u)).mill u).compRun = none ∧ ((t.busy (millSlot u)).mill u).compQ = q ∧
      ((t.busy (millSlot u)).mill u).sets = (s.mill u).sets ∧
      (∀ n, (lineSpan e.desc).1 ≤ n → n < (lineSpan e.desc).2 → (((t.busy (millSlot u)).mill u).line n).poison = true) ∧
      (∀ f errors, v.millReports t u (descTile e.desc) f errors → s.millReports (t.busy (millSlot u)) u (descTile e.desc) f errors) := by
  obtain ⟨acc, sticky, first, hends⟩ := h.keeps
  rw [State.mill_busy]
  refine ⟨by rw [hends], by rw [hends, hmill]; rfl, by rw [hends, hmill]; rfl, fun n ha hb => h.poisons hbad ha hb, fun f errors hreports => ?_⟩
  have hstart : s.millReports v u (descTile e.desc) id [] := State.millReports_nothing (by rw [hmill]; rfl) (by rw [hmill]; rfl) hhand
  exact (hreports.after hstart).before
    (State.millReports_nothing (by rw [State.mill_busy]) (by rw [State.mill_busy]) (State.hand_busy ..))

end

/-! ## The statement -/

section
variable {s : State} {u : MillRef} {e : Dispatched} {q : List Dispatched} {r : RingRef} {i : Nat}

@[simp] theorem State.hand_computeStarts (h : HandRef) : (s.computeStarts u e q r i).hand h = s.hand h :=
  (State.hand_setRing ..).trans (State.hand_setMill ..)

@[simp] theorem State.ring_computeStarts : (s.computeStarts u e q r i).ring r = (s.ring r).used (ringSlot r) (.mill u 1) i :=
  State.ring_setRing ..

theorem State.computeStarts_onlyHamlets : s.onlyHamlets (s.computeStarts u e q r i) := rfl

/-- TRIT_MM and BIN_MM on a sound slot of whole rows and a set of their kind run as `State.integerRun` on the sums of the rows (R72, R77). -/
theorem exec_integer_sound {c : Instr} {ups : List Upset} {tag : AccTag} {rows : List (List Int)} {b4 : List Bool}
    (hactive : (s.hamlet (millSlot u)).power = .active) (hrun : (s.mill u).compRun = none) (hq : (s.mill u).compQ = e :: q)
    (hfree : (s.mill u).computeFree e = true) (hclass : (s.mill u).needsDrain e.desc = false ∨ (s.mill u).draining = true)
    (hvalid : computeValid e.desc = true) (href : s.ringAt (millSlot u) (fieldOf e.desc 64 13) = .job r) (hoff : s.offers r i)
    (hsound : (s.slotIn r i).poison = false)
    (hc : (descType e.desc = 0x02 ∧ c = .tritMm u ups ∧ tag = .int32 ∧ b4 = (actRows e.desc [s.slotIn r i]).map Prod.snd ∧
        ∃ cols sc, ((s.mill u).sets.get {} (fieldOf e.desc 8 1)).tile = .trit cols sc ∧
          rows = (actRows e.desc [s.slotIn r i]).map fun a => tritSums cols (e.desc.getLsbD 9) a.1) ∨
      (descType e.desc = 0x03 ∧ c = .binMm u ups ∧ tag = .bin ∧ b4 = [] ∧
        ∃ cols, ((s.mill u).sets.get {} (fieldOf e.desc 8 1)).tile = .binary cols ∧
          rows = (chunks 256 (s.slotIn r i).bytes).map fun a => binSums cols (fieldOf e.desc 16 12) a))
    (htile : (s.mill u).tileOk e.desc tag [s.slotIn r i] = true) :
    descType e.desc < 0x04 ∧ exec c s =
      .next (((s.computeStarts u e q r i).integerRun u ups e.desc tag [s.slotIn r i] false rows b4).busy (millSlot u)) := by
  have hunit (f : Vec → State → List SlotIn → Bool → State) : s.computeUnit u (descType e.desc) f =
      .next ((f e.desc (s.computeStarts u e q r i) [s.slotIn r i] false).busy (millSlot u)) := by
    rw [State.computeUnit_offers f hactive hrun hq hfree hclass hvalid href hoff (rowsReady_of_tileOk htile), State.freePoison_clean hsound]
  have hmill : (s.computeStarts u e q r i).mill u = (s.mill u).started e q := State.mill_computeStarts ..
  rcases hc with ⟨htype, rfl, rfl, rfl, cols, sc, hset, rfl⟩ | ⟨htype, rfl, rfl, rfl, cols, hset, rfl⟩
  · have hexec : exec (.tritMm u ups) s = s.computeUnit u (descType e.desc) fun d t l r => t.tritRun u ups d l r := by
      rw [htype]
      rfl
    rw [hexec, hunit, State.tritRun_ok (by rw [hmill]; exact hset) (by rw [hmill]; exact htile)]
    exact ⟨by omega, rfl⟩
  · have hexec : exec (.binMm u ups) s = s.computeUnit u (descType e.desc) fun d t l r => t.binRun u ups d l r := by
      rw [htype]
      rfl
    have hbytes : allBytes [s.slotIn r i] = (s.slotIn r i).bytes := by simp [allBytes]
    rw [hexec, hunit, State.binRun_ok (by rw [hmill]; exact hset) (by rw [hmill]; exact htile), hbytes]
    exact ⟨by omega, rfl⟩

end

/-- Settles O25: a descriptor in order is `State.integerRun` on its sums (`exec_integer_sound`), whose lines are `Mill.summed_at`; one whose input is
poisoned or refused ends as `State.ComputeEnds` says. -/
theorem millIntegerSums : Obligations.MillIntegerSums := by
  unfold Obligations.MillIntegerSums
  refine ⟨fun s u ups e q r i x hactive hrun hq hfree hclass hvalid href hoff hx hsound c tag rows b4 hc hlen _ htile => ?sums,
    fun s u c e q hactive hrun hq hfree hclass hvalid hc f cause hbad => ?bad⟩
  case sums =>
    subst hx
    obtain ⟨htype, hexec⟩ := exec_integer_sound hactive hrun hq hfree hclass hvalid href hoff hsound hc htile
    have hclean : anyPoison [s.slotIn r i] = false := by simp [anyPoison, hsound]
    have hfits := Mill.tileOk_fits htile
    have hspan := lineSpan_compute (Nat.lt_of_lt_of_le htype (by decide)) hfits
    have hcls : classOf e.desc = .integer := if_neg (Nat.ne_of_lt htype)
    have hstart : (s.computeStarts u e q r i).mill u = (s.mill u).started e q := State.mill_computeStarts ..
    have hset : ((s.computeStarts u e q r i).mill u).sets = (s.mill u).sets := (congrArg Mill.sets hstart :)
    rw [State.integerRun_eq, hclean, Bool.or_false, hset] at hexec
    have hmill := State.mill_endCompute ((s.computeStarts u e q r i).sumsChecked u ups e.desc tag rows b4) u e.desc false false
      (((s.mill u).sets.get {} (fieldOf e.desc 8 1)).poisoned ||
        !(recomputed ups b4 (descRows e.desc) (64 * linesPerRow e.desc)).2.isEmpty) false (poisonRow e.desc 0 [s.slotIn r i])
    rw [State.mill_sumsChecked, hstart, Bool.or_false, Bool.false_or] at hmill
    have hkeeps {α : Type} (g : Mill → α) := congrArg g (hmill.trans (by rw [Mill.computed_eq]))
    refine ⟨_, hexec, fun hups => ?only, (congrArg _ (State.mill_busy ..)).trans (hkeeps Mill.compRun),
      (congrArg _ (State.mill_busy ..)).trans (hkeeps Mill.compQ), (congrArg _ (State.mill_busy ..)).trans ((hkeeps Mill.cls).trans hcls),
      (congrArg _ (State.mill_busy ..)).trans (hkeeps Mill.sets), ?ring, ?recomputes, fun k hk => ?outside, fun m p a hm hp k y hk hy => ?inside⟩
    case only =>
      subst hups
      rw [State.sumsChecked_sound]
      exact onlyHamlets_busy _ ((State.computeStarts_onlyHamlets.trans (State.setMill_onlyHamlets ..)).trans (State.endCompute_onlyHamlets ..))
    case ring => rw [State.ring_busy, State.ring_endCompute, State.ring_sumsChecked, State.ring_computeStarts]
    case recomputes =>
      rintro o rfl
      refine ⟨?_, (congrArg _ (State.mill_busy ..)).trans (hkeeps Mill.retirePending),
        (congrArg _ (State.mill_busy ..)).trans (hkeeps Mill.recomputes), ?_⟩
      · have hbegun : s.millReports (s.computeStarts u e q r i) u (descTile e.desc) id [] :=
          State.millReports_nothing (by rw [hstart]; rfl) (by rw [hstart]; rfl) (State.hand_computeStarts _)
        exact (((State.sumsChecked_reports ..).after hbegun).before (State.endCompute_reports ..)).before
          (State.millReports_nothing (by rw [State.mill_busy]) (by rw [State.mill_busy]) (State.hand_busy ..))
      · have hlogs := (State.sumsChecked_logs (s.computeStarts u e q r i) u ups e.desc tag rows b4 State.computeStarts_onlyHamlets).trans
          (State.endCompute_onlyHamlets _ u e.desc false false (((s.mill u).sets.get {} (fieldOf e.desc 8 1)).poisoned ||
            !(recomputed ups b4 (descRows e.desc) (64 * linesPerRow e.desc)).2.isEmpty) false (poisonRow e.desc 0 [s.slotIn r i]))
        exact (congrArg State.logRing (onlyHamlets_busy (millSlot u) hlogs) :)
    case outside =>
      rw [State.mill_busy, hmill]
      exact Mill.summed_outside hspan hlen hk
    case inside =>
      subst hk hy
      rw [State.mill_busy, hmill, Bool.or_assoc]
      exact Mill.summed_at hspan hlen hfits hm hp
  case bad =>
    obtain ⟨run, hends, hexec⟩ := exec_compute_ends hc
    rcases hbad with ⟨rfl, rfl, r, i, href, hoff, hpoison, hrows⟩ | ⟨rfl, rfl, href⟩
    · have hunit := State.computeUnit_offers run hactive hrun hq hfree hclass hvalid href hoff hrows
      have hinput := State.freePoison_poisoned hpoison (s.computeStarts u e q r i)
      rw [hinput] at hunit
      have hrun := hends e.desc { s.computeStarts u e q r i with freeCtr := (s.computeStarts u e q r i).freeCtr + ((s.slotIn r i).bytes.length + 1) }
        [(s.slotIn r i).freed (s.computeStarts u e q r i)] false
      have hfound : anyPoison [(s.slotIn r i).freed (s.computeStarts u e q r i)] = true := by simp [anyPoison, SlotIn.freed, hpoison]
      obtain ⟨hidle, hqueue, hsets, hlines, hreports⟩ := hrun.from_start (s := s) (q := q)
        ((State.mill_withFree ..).trans (State.mill_computeStarts s u e q r i))
        ((State.hand_withFree ..).trans (State.hand_computeStarts _)) (Or.inl hfound)
      refine ⟨_, (hexec s).trans hunit, hidle, hqueue, hsets, hlines, hreports _ _ (hrun.reports_poison hfound ?_), fun h => ?_⟩
      · simp [poisonRow, SlotIn.freed, hpoison]
      · exact absurd (congrArg MillSticky.expErr (congrFun h {})) (by decide)
    · have hunit := State.computeUnit_refused run hactive hrun hq hfree hclass hvalid href
      have hrun := hends e.desc ((s.setMill u ((s.mill u).started e q)).foreignRing (millSlot u)) (zeroRows e.desc) true
      obtain ⟨hidle, hqueue, hsets, hlines, hreports⟩ := hrun.from_start (s := s) (q := q)
        (by rw [State.mill_foreignRing, State.mill_setMill]) (by rw [State.hand_foreignRing, State.hand_setMill]) (Or.inr rfl)
      refine ⟨_, (hexec s).trans hunit, hidle, hqueue, hsets, hlines, hreports _ _ (hrun.reports_refused rfl), fun _ => ?_⟩
      rw [State.busy_hamlet_err, hrun.err]
      exact State.foreignRing_foreign ..

end Sys2Proof.Machine
end

