-- ==== Sys2Proof/Proofs/MillReleases.lean ====
section
/-! RELEASE of a FINISH (R116) on an accumulator whose table is not in rising order. -/

namespace Sys2Proof.Machine

/-- A FINISH to INT32 of one row in lines 4 and 5, with RELEASE and constant scales, in the bits of Table 4.6. -/
def releasingFinish : Vec := BitVec.ofNat 512 (8 + 2 ^ 11 + 4 * 2 ^ 13 + 4 * 2 ^ 96 + 2 ^ 106)

/-- A running hamlet without a job, so that every ring is refused, whose Mill 0 has that FINISH next. The table of its accumulator lists line 5 before
line 3, and a table is read in rising order: while line 5 is listed, line 3 reads as EMPTY. -/
def hiddenLine : State :=
  { State.reset with
    hamlets := ⟨[(0, { power := .active
                       mills := ⟨[(0, { acc := ⟨[(5, {}), (3, { poison := true })]⟩, finQ := [⟨0, releasingFinish, 0⟩] })]⟩ })]⟩ }

/-- What line `n` of a Mill is after a command. -/
def lineAfter (c : Instr) (s : State) (u : MillRef) (n : Nat) : Option AccLine :=
  match exec c s with
  | .next t => some ((t.mill u).line n)
  | _ => none

theorem lineAfter_next {c : Instr} {s t : State} (h : exec c s = .next t) (u : MillRef) (n : Nat) : lineAfter c s u n = some ((t.mill u).line n) := by
  rw [lineAfter, h]

/-- The tile of that FINISH is in order: its lines are EMPTY, without a residue that differs. -/
theorem hiddenLine_tile : ((hiddenLine.mill ⟨0, 0, 0⟩).readTile releasingFinish).ok = true ∧
    residueRow ((hiddenLine.mill ⟨0, 0, 0⟩).readTile releasingFinish) = none := by decide +kernel

/-- The descriptor is valid, and takes no scale of a ring and no reserved one. -/
theorem releasingFinish_valid : finishValid releasingFinish = true ∧
    constRsvd releasingFinish ((hiddenLine.mill ⟨0, 0, 0⟩).readTile releasingFinish).tag = false ∧
    saRing releasingFinish = false ∧ srRing releasingFinish = false := by decide +kernel

/-- RELEASE takes line 5 out of the table, and line 3, which is not of the tile, is no longer EMPTY. -/
theorem hiddenLine_shown : (hiddenLine.mill ⟨0, 0, 0⟩).line 3 = {} ∧
    lineAfter (.finish ⟨0, 0, 0⟩ []) hiddenLine ⟨0, 0, 0⟩ 3 = some { poison := true } := by decide +kernel

/-- Refutes O27: that a FINISH with RELEASE leaves the lines outside its tile asks for an accumulator table in rising order, which no hypothesis of the
statement does. Where line 5 of the tile is listed before line 3, its release shows what the table holds for line 3 (`hiddenLine_shown`). -/
theorem not_millFinishesAndRanges : ¬ Obligations.MillFinishesAndRanges := by
  unfold Obligations.MillFinishesAndRanges
  rintro ⟨-, hrefused⟩
  obtain ⟨hok, hresidue⟩ := hiddenLine_tile
  obtain ⟨hvalid, hconst, hsa, hsr⟩ := releasingFinish_valid
  obtain ⟨hempty, hshown⟩ := hiddenLine_shown
  obtain ⟨t, hexec, -, -, -, -, -, -, -, hlines⟩ :=
    hrefused hiddenLine ⟨0, 0, 0⟩ (.finish ⟨0, 0, 0⟩ []) ⟨0, releasingFinish, 0⟩ [] _ _ rfl rfl rfl (by decide +kernel) (by decide +kernel)
      rfl hok hresidue (Or.inr ⟨by decide +kernel, rfl, hvalid, hconst, hsa, hsr, _, rfl, rfl⟩)
  have hstays : (t.mill ⟨0, 0, 0⟩).line 3 = {} := (hlines 3).trans ((if_pos (Or.inr (Or.inl (by decide +kernel)))).trans hempty)
  rw [lineAfter_next hexec, hstays] at hshown
  exact Bool.false_ne_true (congrArg AccLine.poison (Option.some.inj hshown))

end Sys2Proof.Machine
end

