-- ==== Sys2Proof/Proofs/HandLoads.lean ====
section
/-! LDB to LDD and VLD (R138): a local load that meets no exception. -/

namespace Sys2Proof.Machine

/-! ## The local load -/

section
variable {s : State} {h : HandRef} {ea : Word64} {n align : Nat}

/-- A local load that meets no exception retires with the bytes that the scratchpad holds at its offset (R138, R164). -/
theorem State.localLoad_plain (f : List Byte → Hand → Hand) (hcause : localCause ea n align = none)
    (hfence : s.fenced (sramAddr (handSlot h) (localOff ea)) = false)
    (hpoison : s.poisonedAt (sramAddr (handSlot h) (localOff ea)) n = false)
    (hraw : s.rawSlots (s.heldBy h) false (sramAddr (handSlot h) (localOff ea)) n = []) :
    s.localLoad h ea n align f =
      .next (s.retire h fun x => (f (s.mem.readBytes (sramAddr (handSlot h) (localOff ea)) n) x).advance) := by
  simp only [State.localLoad, hcause, State.localRead_plain hfence hraw, hpoison, Bool.false_eq_true, if_false]

end

theorem exec_localLoad {s : State} {h : HandRef} {op a d : Nat} {imm : Word64} (hop : s.handOp h = some (.localLoad op a d imm)) :
    exec (.localLoad h) s =
      s.localLoad h ((s.hand h).s a + imm) (loadSize op) (loadSize op) fun b x => x.setS d (loadValue op b) := by
  show execLocalLoad h s = _
  simp only [execLocalLoad, hop]

theorem exec_vld {s : State} {h : HandRef} {a d : Nat} {off : Word64} (hop : s.handOp h = some (.vld a d off)) :
    exec (.vld h) s = s.localLoad h ((s.hand h).s a + off) 64 4 fun b x => x.setV d (vecOf b) := by
  show execVld h s = _
  simp only [execVld, hop]

/-- Settles O9: each load is `State.localLoad`, which meets no exception here and retires (`State.localLoad_plain`). -/
theorem handLocalLoads : Obligations.HandLocalLoads := by
  unfold Obligations.HandLocalLoads
  intro s h ea n align hcause hfence hpoison hraw
  refine ⟨fun op a d imm hop hea hn halign => ?scalar, fun a d off hop hea hn halign => ?vector⟩
  case scalar =>
    subst hea hn halign
    exact State.handDoes_retire ((exec_localLoad hop).trans (State.localLoad_plain _ hcause hfence hpoison hraw))
  case vector =>
    subst hea hn halign
    exact State.handDoes_retire ((exec_vld hop).trans (State.localLoad_plain _ hcause hfence hpoison hraw))

end Sys2Proof.Machine
end

