-- ==== Sys2Proof/Proofs/HandPushes.lean ====
section
/-! PISSUE and MPUSH (R121, R150, R158): a push that finds room, one that waits, and a Porter that a Hand may not name. -/

namespace Sys2Proof.Machine

/-! ## What a host error of a job leaves (R13) -/

/-- Hamlets changed one after another: of the hamlets only those named differ. -/
theorem State.foldl_modHamlet (f : HamletRef → Hamlet → Hamlet) (l : List HamletRef) (s : State) :
    ∃ hs, l.foldl (fun t m => t.modHamlet m (f m)) s = { s with hamlets := hs } ∧
      ∀ k, (∀ m ∈ l, slotKey m.die m.slot ≠ k) → hs.find k = s.hamlets.find k := by
  induction l generalizing s with
  | nil => exact ⟨_, rfl, fun _ _ => rfl⟩
  | cons m l ih =>
    obtain ⟨hs, heq, hfind⟩ := ih (s.modHamlet m (f m))
    refine ⟨hs, heq, fun k hk => ?_⟩
    rw [hfind k fun q hq => hk q (List.mem_cons_of_mem _ hq)]
    exact State.otherHamlets_modHamlet s m (f m) k (hk m List.mem_cons_self).symm

/-- Parishes changed one after another: only parishes differ. -/
theorem State.foldl_modParish (f : ParishRef → Parish → Parish) (l : List ParishRef) (s : State) :
    ∃ ps, l.foldl (fun t p => t.modParish p (f p)) s = { s with parishes := ps } := by
  induction l generalizing s with
  | nil => exact ⟨_, rfl⟩
  | cons p l ih => exact ih (s.modParish p (f p))

/-- The slot that a job is found at is one of its slots. -/
theorem State.jobAt_mem_slots {s : State} {m : HamletRef} {n : Nat} {j : Job} (h : s.jobAt m = some (n, j)) : m ∈ j.slots := by
  have hfound := List.find?_some h
  obtain ⟨q, hplace⟩ := Option.isSome_iff_exists.1 (Bool.and_eq_true_iff.1 hfound).2
  have hslot := List.find?_some hplace
  simp only [Bool.and_eq_true, beq_iff_eq] at hslot
  exact List.mem_map.2 ⟨q, List.mem_of_find?_eq_some hplace, by rw [hslot.1, hslot.2]⟩

/-- An unpredictable effect on a job stays within its hamlets, the parishes and the memory. -/
theorem State.unpredictable_frame (s : State) (n : Nat) (j : Job) :
    ∃ hs ps mem c, s.unpredictable n j = { s with hamlets := hs, parishes := ps, mem := mem, freeCtr := c } ∧
      ∀ k, (∀ m ∈ j.slots, slotKey m.die m.slot ≠ k) → hs.find k = s.hamlets.find k := by
  obtain ⟨hs, hhamlets, hfind⟩ := State.foldl_modHamlet
    (fun m x => x.any j (s.freeCtr + hostErrorValues * slotKey m.die m.slot)) j.slots { s with mem := s.anyMemory j s.freeCtr }
  obtain ⟨ps, hparishes⟩ := State.foldl_modParish
    (fun p x => s.anyParish n j (s.freeCtr + hostErrorValues * (256 + parKey p)) p x) j.unitParishes
    { s with mem := s.anyMemory j s.freeCtr, hamlets := hs }
  refine ⟨hs, ps, s.anyMemory j s.freeCtr, s.freeCtr + hostErrorValues * 512, ?_, hfind⟩
  unfold State.unpredictable
  dsimp only
  rw [hhamlets, hparishes]

/-- A host error at a hamlet completes, and stays within the hamlets of the job there, the parishes and the memory (R13). -/
theorem State.hostError_next (s : State) (m : HamletRef) :
    ∃ t, s.hostError m = .next t ∧ t = { s with hamlets := t.hamlets, parishes := t.parishes, mem := t.mem, freeCtr := t.freeCtr } ∧
      ∀ n j, s.jobAt m = some (n, j) → ∀ k, (∀ q ∈ j.slots, slotKey q.die q.slot ≠ k) → t.hamlets.find k = s.hamlets.find k := by
  unfold State.hostError State.jobError
  split
  next n j hjob =>
    obtain ⟨hs, ps, mem, c, hframe, hfind⟩ := s.unpredictable_frame n j
    rw [hframe]
    refine ⟨_, rfl, rfl, fun n' j' hjob' k hk => ?_⟩
    obtain ⟨rfl, rfl⟩ := Prod.mk.inj (Option.some.inj (hjob.symm.trans hjob'))
    refine (State.otherHamlets_modHamlet _ m _ k (hk m (State.jobAt_mem_slots hjob)).symm).trans ?_
    exact hfind k hk
  next hnone => exact ⟨_, rfl, rfl, fun n j hjob => by simp [hnone] at hjob⟩

/-! ## PISSUE (R150, R215) -/

section
variable {s : State} {h : HandRef} {a b : Nat}

/-- A Hand whose push has gone into a queue goes on at the next instruction. -/
def Hand.pushed (x : Hand) : Hand := { x with wait := .none, stalled := false }.advance

/-- A Hand that goes on behind the instruction at `pc`, whatever became of it there. -/
def Hand.resumed (x : Hand) (pc : Word64) : Hand := { x with pc := pc, mode := .running, wait := .none, stalled := false }.advance

theorem Hand.resumed_eq (x : Hand) {pc : Word64} (hpc : pcValid (pc + 4) = true) :
    x.resumed pc = { x with pc := pc + 4, mode := .running, wait := .none, stalled := false } := if_pos hpc

/-- A Hand that names Porter 2 or 3: the job there takes any state, and the Hand goes on (R150). -/
theorem exec_pissue_unnamed (hop : (s.pushReady h).handOp h = some (.pissue a b))
    (hporter : s.porterFor h (fieldOf ((s.hand h).s b) 0 3) = none) :
    exec (.pissue h) s = (s.hostError (handSlot h)).bind fun t => .next (t.retire h fun y => y.resumed (s.hand h).pc) := by
  show execPissue h s = _
  simp only [execPissue, hop, hporter]
  rfl

/-- A Hand whose descriptor its Porter has room for (R215). -/
theorem exec_pissue_room {p : PorterRef} (hop : (s.pushReady h).handOp h = some (.pissue a b))
    (hporter : s.porterFor h (fieldOf ((s.hand h).s b) 0 3) = some p) (hroom : (s.porter p).queue.length < 8) :
    exec (.pissue h) s =
      .next ((s.modPorter p fun y => { y with queue := y.queue ++ [⟨(s.hand h).v a, some h, false⟩] }).retire h Hand.pushed) := by
  show execPissue h s = _
  simp only [execPissue, hop, hporter, hroom, if_true]
  rfl

/-- A Hand whose Porter has no room. -/
theorem exec_pissue_full {p : PorterRef} (hop : (s.pushReady h).handOp h = some (.pissue a b))
    (hporter : s.porterFor h (fieldOf ((s.hand h).s b) 0 3) = some p) (hfull : 8 ≤ (s.porter p).queue.length) :
    exec (.pissue h) s = .next (s.pushWaits h (.porter p)) := by
  show execPissue h s = _
  simp only [execPissue, hop, hporter, Nat.not_lt.2 hfull, if_false]

/-- A push that has to wait begins to wait now (R150, R154). -/
theorem handDoes_pushWaits {c : Instr} {w : HandWait} (hexec : exec c s = .next (s.pushWaits h w)) (hnew : (s.hand h).pushing = false) :
    s.handDoes c h fun x => { x with wait := w, waitFrom := s.mclk, stalled := false } := by
  refine State.handDoes_retire (hexec.trans ?_)
  simp only [State.pushWaits, hnew, Bool.false_eq_true, if_false]
  rfl

/-- A push that waits already goes on waiting. -/
theorem State.pushWaits_again (w : HandWait) (hwaits : (s.hand h).pushing = true) : s.pushWaits h w = s := by
  simp only [State.pushWaits, hwaits, if_true]

/-! ## MPUSH (R121, R158) -/

/-- A Mill without a pending change of its mode is pushed to as it is. -/
theorem State.applyMode_none {u : MillRef} (hmode : (s.mill u).pendMode = none) : s.applyMode u = s := by
  simp only [State.applyMode, hmode]

/-- MPUSH to a Mill without a pending change of its mode. -/
theorem exec_mpush {u : MillRef} (hop : (s.pushReady h).handOp h = some (.mpush a b))
    (hu : u = ⟨h.die, h.slot, fieldOf ((s.hand h).s b) 0 2⟩) (hmode : (s.mill u).pendMode = none) :
    exec (.mpush h) s =
      if (s.mill u).ringMode then
        .next ((s.setMill u { s.mill u with qstatus := { (s.mill u).qstatus with dropped := true } }).retire h Hand.pushed)
      else if (s.mill u).queue.length < 8 ∧ s.pushBehind u h = false then
        .next ((s.setMill u { (s.mill u).accept ((s.hand h).v a) with pushPtr := (h.idx + 1) % 4 }).retire h Hand.pushed)
      else .next (s.pushWaits h (.mill u)) := by
  show execMpush h s = _
  simp only [execMpush, hop, ← hu, State.applyMode_none hmode]
  rfl

/-- A push that a Mill takes or drops leaves the Mill so, and the Hand goes on. -/
theorem setMill_retire_effect (u : MillRef) (x : Mill) (f : Hand → Hand) :
    s.onlyHamlets ((s.setMill u x).retire h f) ∧ ((s.setMill u x).retire h f).hand h = f (s.hand h) ∧
      ((s.setMill u x).retire h f).mill u = x :=
  ⟨rfl, by simp, by simp⟩

end

/-- Settles O18: a push that has room is `exec_pissue_room` or the second case of `exec_mpush`, one that waits is `State.pushWaits`, and the effect
of a Porter that a Hand may not name stays within the job by `State.hostError_next`. -/
theorem handPushesDescriptors : Obligations.HandPushesDescriptors := by
  unfold Obligations.HandPushesDescriptors
  intro s h a b
  refine ⟨fun hop hporter => ?unnamed, fun hop p hporter => ⟨fun hroom => ?room, fun hfull hnew => ?waits, fun hfull hold => ?stays⟩,
    fun hop u hu hmode => ?mill⟩
  case unnamed =>
    obtain ⟨t, hnext, hframe, hslots⟩ := s.hostError_next (handSlot h)
    have hexec := exec_pissue_unnamed hop hporter
    rw [hnext] at hexec
    refine ⟨_, hexec, ?_, fun hpc => ?_, fun n j hjob k hk => ?_⟩
    · rw [hframe]
      rfl
    · rw [State.hand_retire, Hand.resumed_eq _ hpc]
      exact ⟨rfl, rfl, rfl⟩
    · have hown : k ≠ slotKey h.die h.slot := (hk _ (State.jobAt_mem_slots hjob)).symm
      exact ((State.retire_onlyHand t h _).2.1 k hown).trans (hslots n j hjob k hk)
  case room =>
    refine ⟨_, exec_pissue_room hop hporter hroom, by rw [State.hand_retire, State.hand_modPorter]; rfl, by simp, ?_⟩
    cases p <;> rfl
  case waits => exact handDoes_pushWaits (exec_pissue_full hop hporter hfull) hnew
  case stays => rw [exec_pissue_full hop hporter hfull, State.pushWaits_again _ hold]
  case mill =>
    have hexec := exec_mpush hop hu hmode
    have hlate (hring : (s.mill u).ringMode = false) (hwait : 8 ≤ (s.mill u).queue.length ∨ s.pushBehind u h = true) :
        exec (.mpush h) s = .next (s.pushWaits h (.mill u)) := by
      rw [hexec, if_neg (by simp [hring]), if_neg]
      rintro ⟨hroom, hfirst⟩
      exact hwait.elim (Nat.not_le.2 hroom) (by simp [hfirst])
    refine ⟨fun hring hroom hfirst => ?taken, fun hring => ?dropped, fun hring hwait hnew => ?waits, fun hring hwait hold => ?stays⟩
    case taken =>
      rw [if_neg (by simp [hring]), if_pos ⟨hroom, hfirst⟩] at hexec
      exact ⟨_, hexec, setMill_retire_effect ..⟩
    case dropped =>
      rw [if_pos hring] at hexec
      exact ⟨_, hexec, setMill_retire_effect ..⟩
    case waits => exact handDoes_pushWaits (hlate hring hwait) hnew
    case stays => rw [hlate hring hwait, State.pushWaits_again _ hold]

end Sys2Proof.Machine
end

