-- ==== Sys2Proof/Proofs/MillQueues.lean ====
section
/-! What fills and empties the queue of a Mill (R119 to R124): the push window, MODE and DRING, the descriptor ring and dispatch. -/

namespace Sys2Proof.Machine

/-! ## Registers and push windows -/

section
variable (s : State)

/-- A register value without a RSVD bit is written as it is. -/
theorem State.regValue_clean {reserved v : Word64} (h : v &&& reserved = 0) : s.regValue reserved v = (v, s) := if_pos h

/-- The eight words of a window that one agent assembled are pushed as they stand, the last as it is stored (R121). -/
theorem State.winDesc_sole {by_ : List Writer} {w : Writer} (hsole : by_.all (· == w) = true) (win : Tab Word64) (v : Word64) :
    s.winDesc (win.set 7 v) by_ w = (ofLanes 64 ((List.range 8).map fun i => if i = 7 then v.toNat else (win.get 0 i).toNat), s) := by
  have hwords (i : Nat) : ((win.set 7 v).get 0 i).toNat = if i = 7 then v.toNat else (win.get 0 i).toNat := by
    split
    next h => rw [h, Tab.get_set_same]
    next h => rw [Tab.get_set_ne _ _ _ h]
  simp only [State.winDesc, hsole, if_true, hwords]

/-- What a window pushes takes free values at most. -/
theorem State.winDesc_free (win : Tab Word64) (by_ : List Writer) (w : Writer) : ∃ n, (s.winDesc win by_ w).2 = { s with freeCtr := n } := by
  unfold State.winDesc
  split <;> exact ⟨_, rfl⟩

end

section
variable {s : State} {u : MillRef}

/-- A command that makes of a Mill what `f` makes of it does whatever comes to the same on that Mill. -/
theorem State.millDoes.congr {c : Instr} {f g : Mill → Mill} (h : s.millDoes c u f) (hfg : f (s.mill u) = g (s.mill u)) : s.millDoes c u g := by
  unfold State.millDoes at *
  rwa [← hfg]

/-! ## MILL_DESC_WIN_PUSH (R121) -/

/-- A store to DESC_WIN7 of a Mill without a pending change of its mode. -/
theorem exec_millDescWinPush (v : Word64) (hmode : (s.mill u).pendMode = none) :
    exec (.millDescWinPush u v) s =
      .next ((s.winDesc ((s.mill u).win.set 7 v) (s.mill u).winBy .reeve).2.setMill u
        ({ s.mill u with win := (s.mill u).win.set 7 v, winBy := [] }.push
          (s.winDesc ((s.mill u).win.set 7 v) (s.mill u).winBy .reeve).1)) := by
  show Host.Outcome.next (s.pushMillWin u .reeve v) = _
  simp only [State.pushMillWin, State.applyMode_none hmode]

/-- A push to a Mill in its push mode with room. -/
theorem Mill.push_room {x : Mill} (d : Vec) (hmode : x.ringMode = false) (hroom : x.queue.length < 8) : x.push d = x.accept d :=
  if_neg (by simp [hmode, hroom])

/-- A push to a Mill in RING mode or without room. -/
theorem Mill.push_dropped {x : Mill} (d : Vec) (h : x.ringMode = true ∨ 8 ≤ x.queue.length) :
    x.push d = { x with qstatus := { x.qstatus with dropped := true } } := if_pos h

/-- A store to DESC_WIN7 pushes the window (R121). -/
theorem millDescWinPush_accepts (v : Word64) (hmode : (s.mill u).pendMode = none) (hpush : (s.mill u).ringMode = false)
    (hroom : (s.mill u).queue.length < 8) (hsole : (s.mill u).winBy.all (· == .reeve) = true) :
    s.millDoes (.millDescWinPush u v) u fun x => { x with
      win := x.win.set 7 v, winBy := [], accepted := x.accepted + 1
      queue := x.queue ++ [ofLanes 64 ((List.range 8).map fun i => if i = 7 then v.toNat else (x.win.get 0 i).toNat)] } := by
  refine millDoes_mod ((exec_millDescWinPush v hmode).trans ?_)
  rw [State.winDesc_sole s hsole]
  exact congrArg (fun y => Host.Outcome.next (s.setMill u y)) (Mill.push_room _ hpush hroom)

/-- A store to DESC_WIN7 in RING mode, or of a Mill without room, is discarded (R121). -/
theorem millDescWinPush_drops (v : Word64) (hmode : (s.mill u).pendMode = none)
    (hfull : (s.mill u).ringMode = true ∨ 8 ≤ (s.mill u).queue.length) :
    s.millDoes (.millDescWinPush u v) u fun x =>
      { x with win := x.win.set 7 v, winBy := [], qstatus := { x.qstatus with dropped := true } } := by
  obtain ⟨n, hfree⟩ := s.winDesc_free ((s.mill u).win.set 7 v) (s.mill u).winBy .reeve
  refine millDoes_free (n := n) ((exec_millDescWinPush v hmode).trans ?_)
  rw [hfree]
  exact congrArg (fun y => Host.Outcome.next (State.setMill { s with freeCtr := n } u y)) (Mill.push_dropped _ hfull)

/-! ## MILL_QCTRL (R123) -/

/-- A write of MILL_QCTRL is held, unless it asks for what there is. -/
theorem Mill.writeQctrl_eq (x : Mill) (v : Word64) :
    x.writeQctrl v = { x with
      pendMode := if v.getLsbD 0 = x.ringMode ∧ BitVec.ofNat 16 (fieldOf v 8 16) = x.dring then none
        else some (v.getLsbD 0, BitVec.ofNat 16 (fieldOf v 8 16)) } := by
  unfold Mill.writeQctrl
  dsimp only
  split <;> rfl

/-- A value without a RSVD bit is written as it is. -/
theorem millQctrlWrite_does {v : Word64} (hv : v &&& qctrlReserved = 0) : s.millDoes (.millQctrlWrite u v) u fun x => x.writeQctrl v := by
  refine millDoes_mod ?_
  show execMillQctrlWrite u v s = _
  rw [execMillQctrlWrite, State.regValue_clean s hv]

/-- In place of a value with a RSVD bit a free one is written (log entry 7). -/
theorem millQctrlWrite_free {v : Word64} (hv : v &&& qctrlReserved ≠ 0) :
    s.millDoes (.millQctrlWrite u v) u fun x => x.writeQctrl (s.fresh.1 &&& ~~~qctrlReserved) := by
  refine millDoes_free (n := s.freeCtr + 1) ?_
  show execMillQctrlWrite u v s = _
  rw [execMillQctrlWrite, State.regValue, if_neg hv]
  rfl

/-- A Mill waits no longer at its descriptor ring. -/
def State.leaveDescRing (s : State) (u : MillRef) : State :=
  match s.descRing u with
  | some q => s.leaveRing q (.mill u 3)
  | none => s

section
variable {m : Bool} {d : BitVec 16} (hpend : (s.mill u).pendMode = some (m, d))
include hpend

/-- A change that waits for an empty queue waits while it is not. -/
theorem State.applyMode_waits (hqueue : s.queueEmpty u = false) : s.applyMode u = s := by
  simp only [State.applyMode, hpend, hqueue, Bool.false_eq_true, if_false]

/-- At an empty queue the change takes effect, and the Mill leaves the descriptor ring at which it waited. -/
theorem State.applyMode_empty (hqueue : s.queueEmpty u = true) :
    s.applyMode u = (s.leaveDescRing u).modMill u fun x => { x with ringMode := m, dring := d, pendMode := none } := by
  simp only [State.applyMode, hpend, hqueue, if_true]
  rfl

/-- The change of a Mill that fetches from no ring. -/
theorem modeChangeApply_does (hqueue : s.queueEmpty u = true) (hring : s.descRing u = none) :
    s.millDoes (.modeChangeApply u) u fun x => { x with ringMode := m, dring := d, pendMode := none } := by
  refine millDoes_mod ?_
  show Host.Outcome.next (s.applyMode u) = _
  rw [State.applyMode_empty hpend hqueue, State.leaveDescRing, hring]

/-- The change of a Mill that fetches from ring `r` ends its wait there. -/
theorem modeChangeApply_leaves {r : RingRef} (hqueue : s.queueEmpty u = true) (hring : s.descRing u = some r) :
    ∃ t, exec (.modeChangeApply u) s = .next t ∧ s.onlyHamlets t ∧
      t.mill u = { s.mill u with ringMode := m, dring := d, pendMode := none } ∧
      t.ring r = { s.ring r with waiters := (s.ring r).waiters.filter fun w => w.agent != .mill u 3 } := by
  refine ⟨_, congrArg Host.Outcome.next (State.applyMode_empty hpend hqueue), ?_⟩
  rw [State.leaveDescRing, hring]
  have hmill : (s.leaveRing r (.mill u 3)).mill u = s.mill u := State.mill_modRing ..
  have hleft : (s.leaveRing r (.mill u 3)).ring r = { s.ring r with waiters := (s.ring r).waiters.filter fun w => w.agent != .mill u 3 } :=
    State.ring_modRing ..
  refine ⟨rfl, ?_, ?_⟩
  · rw [State.mill_modMill, hmill]
  · rw [State.ring_modMill, hleft]

end

/-! ## MILL_RING_FETCH (R122) -/

/-- A Mill whose queue the descriptors of a whole slot have entered. -/
def Mill.acceptAll (x : Mill) (l : List Vec) : Mill :=
  { x with queue := x.queue ++ l, accepted := x.accepted + BitVec.ofNat 32 l.length }

/-- A Mill that held no slot holds none afterwards. -/
theorem Mill.acceptAll_idle {x : Mill} (l : List Vec) (hslot : x.dslot = none) : { x.acceptAll l with dslot := none } = x.acceptAll l := by
  cases x
  cases hslot
  rfl

/-- The descriptors of a claimed slot for which there is room enter the queue together, and the slot is released (R122). -/
theorem State.unpackSlot_whole {r : RingRef} {i : Nat} {l : List Vec} (hroom : (s.mill u).queue.length + l.length ≤ 8)
    (henable : (s.ring r).enable = true) :
    (s.modMill u fun m => { m with dslot := some { slot := ⟨r, i⟩, rest := l } }).unpackSlot u =
      (s.setMill u { (s.mill u).acceptAll l with dslot := none }).releaseSlot r i := by
  have hfits : l.length ≤ 8 - (s.mill u).queue.length := by omega
  simp only [State.unpackSlot, State.mill_modMill, State.ring_modMill, List.take_of_length_le hfits, descs_foldl, hfits, henable,
    Bool.not_false, Bool.and_self, if_true]
  rw [State.modMill, State.setMill_setMill]
  rfl

/-- A slot of whole descriptors is not short (R122, R124). -/
theorem shortPayload_whole {l : List Byte} (hsome : l.length ≠ 0) (hwhole : l.length % 64 = 0) : shortPayload l = false := by
  simp [shortPayload, hwhole, List.length_eq_zero_iff.not.1 hsome]

/-- The Mill after its queue has taken the descriptors of slot `i` of ring `r`, which is released (R122). -/
def State.fetched (s : State) (u : MillRef) (r : RingRef) (i : Nat) : State :=
  ((s.setRing r ((s.ring r).claimed (ringSlot r) (.mill u 3) i)).setMill u
    ((s.mill u).acceptAll (descsOf (s.slotIn r i).bytes))).setRing r ((s.ring r).used (ringSlot r) (.mill u 3) i)

/-- A slot of whole descriptors that fit is taken up and released at once (R122). -/
theorem State.takeDescSlot_offers {r : RingRef} {i : Nat} (hoff : s.offers r i) (hslot : (s.mill u).dslot = none)
    (hpoison : (s.slotIn r i).poison = false) (hshort : shortPayload (s.slotIn r i).bytes = false)
    (hroom : (s.mill u).queue.length + (descsOf (s.slotIn r i).bytes).length ≤ 8) :
    (s.setRing r ((s.ring r).claimed (ringSlot r) (.mill u 3) i)).takeDescSlot u r i = s.fetched u r i := by
  have hread : (s.setRing r ((s.ring r).claimed (ringSlot r) (.mill u 3) i)).slotIn r i = s.slotIn r i :=
    State.slotIn_setRing (Ring.claimed_base ..) (Ring.claimed_stride ..) i
  have henable : ((s.setRing r ((s.ring r).claimed (ringSlot r) (.mill u 3) i)).ring r).enable = true := by
    rw [State.ring_setRing]
    exact hoff.2.1
  simp only [State.takeDescSlot, hread, hpoison, hshort, Bool.or_self, Bool.false_eq_true, if_false]
  rw [State.unpackSlot_whole (by rwa [State.mill_setRing]) henable, State.mill_setRing, Mill.acceptAll_idle _ hslot]
  refine release_used s r i hoff (.mill u 3) _ rfl _ (by rw [State.ring_setMill, State.ring_setRing]; rfl) ?_
  rw [State.setMill_hamlet_power, State.setRing_hamlet_power]
  exact hoff.1

/-- A Mill in RING mode takes the slot that its ring offers (R122). -/
theorem exec_millRingFetch_offers {r : RingRef} {i : Nat} (hactive : (s.hamlet (millSlot u)).power = .active)
    (hmode : (s.mill u).pendMode = none) (hring : (s.mill u).ringMode = true) (hslot : (s.mill u).dslot = none)
    (hforeign : (s.mill u).qstatus.foreign = false) (href : s.ringAt (millSlot u) ((s.mill u).dring.toNat % 8192) = .job r)
    (hoff : s.offers r i) :
    exec (.millRingFetch u) s =
      .next (((s.setRing r ((s.ring r).claimed (ringSlot r) (.mill u 3) i)).takeDescSlot u r i).busy (millSlot u)) := by
  have hclaim : s.engineSlot r (.mill u 3) true = (some i, s.setRing r ((s.ring r).claimed (ringSlot r) (.mill u 3) i)) :=
    engineSlot_offers hoff _
  show execMillRingFetch u s = _
  simp [execMillRingFetch, State.applyMode_none hmode, hactive, hring, hslot, hforeign, href, hclaim]

/-! ## MILL_DISPATCH (R68, R119, R120, R124) -/

/-- Dispatch takes the oldest descriptor of a Mill that is not halted, in a running hamlet. -/
theorem State.nextDesc_running {d : Vec} (hnext : s.nextDesc u = some d) :
    (s.hamlet (millSlot u)).power = .active ∧ (s.mill u).qstatus.halted = false := by
  unfold State.nextDesc at hnext
  dsimp only at hnext
  split at hnext
  next h => exact h
  next => cases hnext

/-- A descriptor of a unit goes into the queue of its unit, where that has room. -/
theorem exec_millDispatch {d : Vec} (hnext : s.nextDesc u = some d) (hvalid : millTypeValid (descType d) = true) (hunit : descType d < 0x10) :
    exec (.millDispatch u) s = .next ((s.modMill u fun x => x.dispatch d).busy (millSlot u)) := by
  show execMillDispatch u s = _
  simp only [execMillDispatch, hnext, hvalid, Bool.not_true, Bool.false_eq_true, if_false, if_neg (Nat.not_le.2 hunit)]

/-- The TYPEs of the compute unit and of the Finish unit (Table 4.1). -/
theorem computeTypes_valid : ∀ t ∈ [0x02, 0x03, 0x04], millTypeValid t = true ∧ t < 0x10 := by decide
theorem finishTypes_valid : ∀ t ∈ [0x08, 0x09], millTypeValid t = true ∧ t < 0x10 := by decide

theorem Mill.dispatch_load {x : Mill} {d : Vec} (htype : descType d = 0x01) (hroom : x.loadQ.length < 4) :
    x.dispatch d = { x with queue := x.queue.drop 1, nextSeq := x.nextSeq + 1, loadQ := x.loadQ ++ [⟨x.nextSeq, d, x.layer⟩] } := by
  simp only [Mill.dispatch, htype, hroom, if_true]
  rfl

theorem Mill.dispatch_compute {x : Mill} {d : Vec} (htype : descType d ∈ [0x02, 0x03, 0x04]) (hroom : x.compQ.length < 4) :
    x.dispatch d = { x with queue := x.queue.drop 1, nextSeq := x.nextSeq + 1, compQ := x.compQ ++ [⟨x.nextSeq, d, x.layer⟩] } := by
  have hrange : descType d ≠ 0x01 ∧ descType d ≤ 0x04 := by
    simp only [List.mem_cons, List.not_mem_nil, or_false] at htype
    omega
  simp only [Mill.dispatch, hrange, hroom, if_false, if_true]
  rfl

theorem Mill.dispatch_finish {x : Mill} {d : Vec} (htype : descType d ∈ [0x08, 0x09]) (hroom : x.finQ.length < 4) :
    x.dispatch d = { x with queue := x.queue.drop 1, nextSeq := x.nextSeq + 1, finQ := x.finQ ++ [⟨x.nextSeq, d, x.layer⟩] } := by
  have hrange : descType d ≠ 0x01 ∧ ¬ descType d ≤ 0x04 := by
    simp only [List.mem_cons, List.not_mem_nil, or_false] at htype
    omega
  simp only [Mill.dispatch, hrange, hroom, if_false, if_true]
  rfl

/-- A reserved TYPE is rejected: it leaves the queue, the Mill halts and raises its event (R120, R124). -/
theorem millDispatch_rejects {d : Vec} (hnext : s.nextDesc u = some d) (hreserved : millTypeValid (descType d) = false) :
    ∃ t, exec (.millDispatch u) s = .next t ∧ s.onlyHamlets t ∧ s.otherHamlets t (millSlot u) ∧
      t.mill u = { s.mill u with
        queue := (s.mill u).queue.drop 1, badDesc := descDw d 0
        qstatus := { (s.mill u).qstatus with badType := true, halted := true } } ∧
      (t.hand ⟨u.die, u.slot, u.idx⟩).evPend = (s.hand ⟨u.die, u.slot, u.idx⟩).evPend ||| 1 := by
  obtain ⟨-, hrunning⟩ := State.nextDesc_running hnext
  have hexec : exec (.millDispatch u) s =
      .next (((s.modMill u Mill.pop).rejectMill u (descDw d 0) fun q => { q with badType := true }).busy (millSlot u)) := by
    show execMillDispatch u s = _
    simp only [execMillDispatch, hnext, hreserved, Bool.not_false, if_true]
  refine ⟨_, hexec, rfl, ?_, ?_, ?_⟩
  · exact (((otherMills_setMill s u _).1.trans (otherMills_setMill _ u _).1).trans (State.otherHamlets_millEvent _ u _)).busy
  · rw [State.mill_busy, State.rejectMill, State.mill_millEvent, State.mill_modMill, State.mill_modMill]
    simp [Mill.pop, hrunning]
  · rw [State.hand_busy, State.rejectMill, State.hand_millEvent, State.hand_modMill, State.hand_modMill]
    rfl

end

/-- Settles O22, command by command: a store to DESC_WIN7 is `Mill.push`, a write of QCTRL `Mill.writeQctrl_eq`, its effect `State.applyMode_empty`, a
slot of the descriptor ring goes in by `State.takeDescSlot_offers`, and dispatch is `Mill.dispatch` or `millDispatch_rejects`. -/
theorem millDescriptorsEnterTheQueue : Obligations.MillDescriptorsEnterTheQueue := by
  unfold Obligations.MillDescriptorsEnterTheQueue
  intro s u
  refine ⟨fun v hmode => ⟨millDescWinPush_accepts v hmode, millDescWinPush_drops v hmode⟩, fun v hv => ?qctrl, fun v => ?anyQctrl,
    fun m d hpend => ⟨modeChangeApply_does hpend, fun r => modeChangeApply_leaves hpend, fun hqueue => ?waits⟩,
    fun r i hactive hmode hring hslot hforeign href hoff hpoison hsome hwhole hroom => ?fetch, fun d hnext => ?dispatch⟩
  case qctrl =>
    simp only [← Mill.writeQctrl_eq]
    exact millQctrlWrite_does hv
  case anyQctrl =>
    by_cases hv : v &&& qctrlReserved = 0
    · exact ⟨v, millQctrlWrite_does hv⟩
    · exact ⟨_, millQctrlWrite_free hv⟩
  case waits => exact congrArg Host.Outcome.next (State.applyMode_waits hpend hqueue)
  case fetch =>
    have hexec := exec_millRingFetch_offers hactive hmode hring hslot hforeign href hoff
    rw [State.takeDescSlot_offers hoff hslot hpoison (shortPayload_whole hsome hwhole) hroom, State.fetched] at hexec
    refine ⟨_, hexec, rfl, ?_, ?_⟩
    · rw [State.ring_busy, State.ring_setRing]
    · rw [State.mill_busy, State.mill_setRing, State.mill_setMill]
      rfl
  case dispatch =>
    refine ⟨fun htype hroom => ?load, fun htype hroom => ?compute, fun htype hroom => ?finish, millDispatch_rejects hnext⟩
    case load =>
      exact (millDoes_busy (exec_millDispatch hnext (by rw [htype]; rfl) (by omega))).congr (Mill.dispatch_load htype hroom)
    case compute =>
      obtain ⟨hvalid, hunit⟩ := computeTypes_valid _ htype
      exact (millDoes_busy (exec_millDispatch hnext hvalid hunit)).congr (Mill.dispatch_compute htype hroom)
    case finish =>
      obtain ⟨hvalid, hunit⟩ := finishTypes_valid _ htype
      exact (millDoes_busy (exec_millDispatch hnext hvalid hunit)).congr (Mill.dispatch_finish htype hroom)

end Sys2Proof.Machine
end

