-- ==== Sys2Proof/Proofs/PorterAccess.lean ====
section
/-! What an access by address turns on (R191 to R199, R404), and accesses to a page of LPDDR that is clear: what a Porter's work changes besides,
and the cache marks that an access leaves, are no part of it. -/

namespace Sys2Proof.Machine

/-! ## Changes that no access sees -/

/-- A part of a parish that an update keeps reads as before in every parish. -/
theorem State.parish_modParish_keeps {α : Type} (g : Parish → α) {f : Parish → Parish} (hg : ∀ x, g (f x) = g x) (s : State)
    (p k : ParishRef) : g ((s.modParish p f).parish k) = g (s.parish k) := by
  unfold State.modParish State.setParish State.parish Tab.get
  simp only [Tab.find_set]
  split
  next hkey => rw [hkey, Option.getD_some, hg]
  next => rfl

/-- What of a parish says which granules are memory of whom (R188, R196). -/
def Parish.granules (x : Parish) : BitVec 40 × BitVec 40 × Tab Nat := (x.scratch, x.retired, x.owner)

/-- Of two states only units, the power state of the package and what counts as activity differ, and no access by address sees that: the fences
and the power of the hamlets are the same, and the granules of the parishes. -/
structure State.AccessAlike (s t : State) : Prop where
  frame : t = { s with
    ident := t.ident, settings := t.settings, activity := t.activity, hamlets := t.hamlets, parishes := t.parishes }
  power : ∀ m, (t.hamlet m).power = (s.hamlet m).power
  fence : ∀ m, (t.hamlet m).fence = (s.hamlet m).fence
  granules : ∀ p, (t.parish p).granules = (s.parish p).granules

section
variable {s t : State}

theorem State.AccessAlike.refl : s.AccessAlike s := ⟨rfl, fun _ => rfl, fun _ => rfl, fun _ => rfl⟩

theorem State.AccessAlike.modHamlet (h : s.AccessAlike t) (m : HamletRef) {f : Hamlet → Hamlet} (hpower : ∀ x, (f x).power = x.power)
    (hfence : ∀ x, (f x).fence = x.fence) : s.AccessAlike (t.modHamlet m f) where
  frame := by
    rw [h.frame]
    rfl
  power k := (State.hamlet_modHamlet_keeps (·.power) hpower t m k).trans (h.power k)
  fence k := (State.hamlet_modHamlet_keeps (·.fence) hfence t m k).trans (h.fence k)
  granules := h.granules

theorem State.AccessAlike.modParish (h : s.AccessAlike t) (p : ParishRef) {f : Parish → Parish} (hgranules : ∀ x, (f x).granules = x.granules) :
    s.AccessAlike (t.modParish p f) where
  frame := by
    rw [h.frame]
    rfl
  power := h.power
  fence := h.fence
  granules k := (State.parish_modParish_keeps (·.granules) hgranules t p k).trans (h.granules k)

theorem State.AccessAlike.setRing (h : s.AccessAlike t) (r : RingRef) (x : Ring) : s.AccessAlike (t.setRing r x) :=
  h.modHamlet _ (fun _ => rfl) (fun _ => rfl)

theorem State.AccessAlike.busy (h : s.AccessAlike t) (m : HamletRef) : s.AccessAlike (t.busy m) := h.modHamlet _ (fun _ => rfl) (fun _ => rfl)

theorem State.AccessAlike.setPorter (h : s.AccessAlike t) (p : PorterRef) (x : Porter) : s.AccessAlike (t.setPorter p x) := by
  cases p with
  | hamlet d k n => exact h.modHamlet ⟨d, k⟩ (f := fun m => { m with porters := m.porters.set n x }) (fun _ => rfl) (fun _ => rfl)
  | parish d q n => exact h.modParish ⟨d, q⟩ (f := fun m => { m with porters := m.porters.set n x }) (fun _ => rfl)

/-- Activity concerns the power state of the package alone (R371). -/
theorem State.stir_frame (s : State) : s.stir = { s with ident := s.stir.ident, settings := s.stir.settings, activity := s.stir.activity } := by
  unfold State.stir State.rouse
  split <;> rfl

/-- Activity and the units are apart. -/
theorem State.stir_with (s : State) (hs : Tab Hamlet) (ps : Tab Parish) (b : List BellAdd) :
    State.stir { s with hamlets := hs, parishes := ps, bellFlight := b } = { s.stir with hamlets := hs, parishes := ps, bellFlight := b } := by
  unfold State.stir State.rouse
  dsimp only
  split <;> rfl

theorem State.AccessAlike.stir : s.AccessAlike s.stir := by
  rw [State.stir_frame]
  exact ⟨rfl, fun _ => rfl, fun _ => rfl, fun _ => rfl⟩

section
variable (h : s.AccessAlike t)
include h

/-- An effective address reaches the same. -/
theorem State.AccessAlike.resolve (who : Actor) (write : Bool) (ea : Nat) : t.resolve who write ea = s.resolve who write ea := by
  have htable : t.translate = s.translate := by
    rw [h.frame]
    rfl
  have hregs : t.resolveRegs = s.resolveRegs := by
    rw [h.frame]
    rfl
  have hsram : t.resolveSram = s.resolveSram := by
    funext a o
    have hgranules := h.granules ⟨o / 0x40000000, o % 0x40000000 / 0x100000 / 40⟩
    simp only [Parish.granules, Prod.mk.injEq] at hgranules
    obtain ⟨hscratch, -, howner⟩ := hgranules
    have hdies : t.dieCount = s.dieCount := by
      rw [h.frame]
      rfl
    have hplaced : t.placedFor = s.placedFor := by
      rw [h.frame]
      rfl
    have hjobs : t.jobs = s.jobs := (congrArg State.jobs h.frame :)
    simp only [State.resolveSram, hscratch, howner, hdies, hplaced, hjobs]
  have htorus : t.torus = s.torus := (congrArg State.torus h.frame :)
  unfold State.resolve
  rw [htable, hregs, hsram, htorus]

/-- What lies behind a fence is the same. -/
theorem State.AccessAlike.fenced (a : Nat) : t.fenced a = s.fenced a := by
  have hjobs : t.jobs = s.jobs := (congrArg State.jobs h.frame :)
  have hgranule (p : ParishRef) (g : Nat) : t.granuleFenced p g = s.granuleFenced p g := by
    have hgranules := h.granules p
    simp only [Parish.granules, Prod.mk.injEq] at hgranules
    obtain ⟨-, hretired, howner⟩ := hgranules
    unfold State.granuleFenced
    rw [hretired, howner, hjobs]
  unfold State.fenced
  split
  next => rw [h.fence]
  next => simp only [hgranule]

theorem State.AccessAlike.mem : t.mem = s.mem := (congrArg State.mem h.frame :)

theorem State.AccessAlike.poisonedAt (a n : Nat) : t.poisonedAt a n = s.poisonedAt a n := by
  rw [h.frame]
  rfl

theorem State.AccessAlike.kvRespected {who : Actor} {write : Bool} {ea n : Nat} (hkv : s.kvRespected who write ea n) :
    t.kvRespected who write ea n := by
  rw [h.frame]
  exact hkv

/-- A clear page stays one. -/
theorem State.AccessAlike.clearPage {who : Actor} {write : Bool} {ea n a : Nat} (hclear : s.clearPage who write ea n a) :
    t.clearPage who write ea n a := by
  obtain ⟨hres, hlpddr, hsome, hblock, hpoison, hkv⟩ := hclear
  exact ⟨(h.resolve ..).trans hres, hlpddr, hsome, hblock, fun hread => (h.poisonedAt ..).trans (hpoison hread), h.kvRespected hkv⟩

/-- The payload of a slot reads the same, where its ring lies where it did. -/
theorem State.AccessAlike.slotIn {r : RingRef} (hbase : (t.ring r).base = (s.ring r).base) (hstride : (t.ring r).stride = (s.ring r).stride)
    (i : Nat) : t.slotIn r i = s.slotIn r i :=
  State.slotIn_congr (State.padRead_congr h.mem (congrArg State.sramPoison h.frame :) (congrArg State.blkPoison h.frame :) h.fenced)
    hbase hstride i

end

/-! ## The rings of a hamlet -/

/-- A ring offers its slot while its hamlet has the power and the rings that it had. -/
theorem State.offers.congr {r : RingRef} {i : Nat} (h : s.offers r i) (hpower : (t.hamlet (ringSlot r)).power = (s.hamlet (ringSlot r)).power)
    (hrings : (t.hamlet (ringSlot r)).rings = (s.hamlet (ringSlot r)).rings) : t.offers r i := by
  have hring : t.ring r = s.ring r := by
    unfold State.ring
    rw [hrings]
  have hover : (t.hamlet (ringSlot r)).ringsOverlap r.idx = (s.hamlet (ringSlot r)).ringsOverlap r.idx := by
    unfold Hamlet.ringsOverlap
    rw [hrings]
  unfold State.offers
  rw [hpower, hring, hover]
  exact h

/-- A ring accepts a slot likewise, for the same jobs. -/
theorem State.accepts.congr {r : RingRef} {i : Nat} (h : s.accepts r i) (hpower : (t.hamlet (ringSlot r)).power = (s.hamlet (ringSlot r)).power)
    (hrings : (t.hamlet (ringSlot r)).rings = (s.hamlet (ringSlot r)).rings) (hjobs : t.jobs = s.jobs) (htorus : t.torus = s.torus) :
    t.accepts r i := by
  have hring : t.ring r = s.ring r := by
    unfold State.ring
    rw [hrings]
  have hover : (t.hamlet (ringSlot r)).ringsOverlap r.idx = (s.hamlet (ringSlot r)).ringsOverlap r.idx := by
    unfold Hamlet.ringsOverlap
    rw [hrings]
  have hreceiving : t.receiving r = s.receiving r := by
    unfold State.receiving State.jobAt
    rw [hring, hjobs, htorus]
  unfold State.accepts
  rw [hpower, hring, hover, hreceiving]
  exact h

/-! ## Accesses to a clear page -/

/-- The parts of a parish that a cache mark leaves. -/
theorem Parish.access_keeps {α : Type} (g : Parish → α)
    (hg : ∀ (x : Parish) h m w r, g { x with hits := h, misses := m, ways := w, rr := r } = g x) (x : Parish) (line : Nat) (write alloc : Bool) : g (x.access line write alloc) = g x := by
  unfold Parish.access Parish.fill
  split
  · exact hg x _ _ _ _
  · dsimp only
    split
    · split
      · exact hg x _ _ _ _
      · exact hg x _ _ _ _
    · exact hg x _ _ _ _

/-- A part of the parishes that no cache mark touches is as it was after an access. -/
theorem State.parish_touch_keeps {α : Type} (g : Parish → α)
    (hg : ∀ (x : Parish) h m w r, g { x with hits := h, misses := m, ways := w, rr := r } = g x)
    (s : State) (a n : Nat) (write alloc : Bool) (k : ParishRef) : g ((s.touch a n write alloc).parish k) = g (s.parish k) := by
  unfold State.touch
  split
  · rfl
  · generalize sectorsOf a n = l
    induction l generalizing s with
    | nil => rfl
    | cons x l ih =>
      rw [List.foldl_cons, ih]
      exact State.parish_modParish_keeps g (fun y => Parish.access_keeps g hg y ..) s _ k

theorem State.AccessAlike.touch (h : s.AccessAlike t) (a n : Nat) (write alloc : Bool) : s.AccessAlike (t.touch a n write alloc) where
  frame := by
    rw [State.touch_eq, h.frame]
  power k := by
    rw [State.touch_eq]
    exact h.power k
  fence k := by
    rw [State.touch_eq]
    exact h.fence k
  granules k := (State.parish_touch_keeps (·.granules) (fun _ _ _ _ _ => rfl) t a n write alloc k).trans (h.granules k)

section
variable {who : Actor} {write : Bool} {ea n a : Nat}

/-- An access to a clear page is one run of plain memory. -/
theorem State.runs_clear (h : s.clearPage who write ea n a) : s.runs who write ea n = some [.mem ⟨a, n, .plain⟩] := by
  obtain ⟨hres, -, hsome, hblock, -, -⟩ := h
  simp [State.runs, runsOf_one hsome hblock, hres]

/-- A clear page is in this package. -/
theorem State.isRemote_clear (h : s.clearPage who write ea n a) : s.isRemote who write ea = false := by
  simp only [State.isRemote, h.1]

/-- What an access to LPDDR does besides moving data. -/
theorem Run.arrive_lpddr (s : State) (hlpddr : a < sramBase) (write alloc : Bool) :
    Run.arrive write alloc s (.mem ⟨a, n, .plain⟩) = s.touch a n write alloc := by
  simp only [Run.arrive, State.wakeFor, slotOfAddr_lpddr hlpddr]

/-- LPDDR is no memory of a ring. -/
theorem State.rawRuns_lpddr (s : State) (hlpddr : a < sramBase) (holds : List SlotRef) (write : Bool) :
    s.rawRuns holds write [.mem ⟨a, n, .plain⟩] = [] := by
  simp [State.rawRuns, State.rawSlots, slotOfAddr_lpddr hlpddr]

/-- A read of a clear page gives the bytes there, without poison. -/
theorem State.readAt_clear (h : s.clearPage who false ea n a) (holds : List SlotRef) (alloc : Bool) :
    s.readAt who holds alloc ea n = some ((s.mem.readBytes a n, false), s.touch a n false alloc) := by
  have halike := (State.AccessAlike.refl (s := s)).touch a n false alloc
  obtain ⟨-, hlpddr, hsome, -, hpoison, hkv⟩ := halike.clearPage h
  have hbad := State.noteBad_clean (s := s.touch a n false alloc) .plain who (isSram_lpddr hlpddr) (hpoison rfl)
  have hload : (s.touch a n false alloc).loadMem a n .plain = (s.mem.readBytes a n, false) := by
    simp [State.loadMem, State.fenced_lpddr _ hlpddr, State.bytesAt, halike.mem, hpoison rfl]
  simp [State.readAt, State.runs_clear h, Run.arrive_lpddr s hlpddr, hbad, State.noteKv_respected hsome hkv, State.rawRuns_lpddr _ hlpddr,
    State.kvOpen_respected hsome hkv, Run.load, hload]

/-- A write to a clear page puts the bytes there. -/
theorem State.writeAt_clear {d : List Byte} (h : s.clearPage who true ea d.length a) (by_ : Writer) (holds : List SlotRef) (alloc : Bool) :
    s.writeAt who by_ holds alloc ea d false = some ((s.touch a d.length true alloc).store a d .plain false) := by
  have halike := (State.AccessAlike.refl (s := s)).touch a d.length true alloc
  obtain ⟨-, hlpddr, hsome, -, -, hkv⟩ := halike.clearPage h
  have hopen := State.storeMem_open (s.touch a d.length true alloc) d .plain false (State.fenced_lpddr _ hlpddr)
  simp [State.writeAt, State.runs_clear h, Run.arrive_lpddr s hlpddr, State.noteKv_respected hsome hkv, State.noteAdapters_respected hkv,
    State.rawRuns_lpddr _ hlpddr, State.storeRuns, Run.store, Run.len, hopen]

end
end

end Sys2Proof.Machine
end

