-- ==== Sys2Proof/Proofs/PorterMoves.lean ====
section
/-! How a Porter takes a descriptor up and ends one of a single row (R215 to R221), and what a row from a ring to memory, and one from memory to a
ring, comes to. -/

namespace Sys2Proof.Machine

/-! ## The state of one Porter -/

section
variable (s : State) (p q : PorterRef)

@[simp] theorem State.porter_setRing (r : RingRef) (x : Ring) : (s.setRing r x).porter p = s.porter p := by
  cases p with
  | hamlet d k n =>
    unfold State.porter
    simp only [State.setRing_hamlet_porters]
  | parish d k n => rfl

@[simp] theorem State.porter_busy (m : HamletRef) : (s.busy m).porter p = s.porter p := by
  cases p with
  | hamlet d k n =>
    unfold State.porter
    simp only [State.busy_hamlet_porters]
  | parish d k n => rfl

@[simp] theorem State.porter_stir : s.stir.porter p = s.porter p := by
  rw [State.stir_frame]
  cases p <;> rfl

/-- Cache marks are no part of a Porter. -/
@[simp] theorem State.porter_touch (a n : Nat) (write alloc : Bool) : (s.touch a n write alloc).porter p = s.porter p := by
  cases p with
  | hamlet d k i =>
    rw [State.touch_eq]
    rfl
  | parish d k i =>
    exact congrArg (fun t : Tab Porter => t.get {} i) (State.parish_touch_keeps (·.porters) (fun _ _ _ _ _ => rfl) s a n write alloc ⟨d, k⟩)

@[simp] theorem State.ring_touch (a n : Nat) (write alloc : Bool) (r : RingRef) : (s.touch a n write alloc).ring r = s.ring r := by
  rw [State.touch_eq]
  rfl

/-- An update of a Porter is in its hamlet or parish. -/
theorem State.setPorter_frame (x : Porter) :
    s.setPorter p x = { s with hamlets := (s.setPorter p x).hamlets, parishes := (s.setPorter p x).parishes } := by
  cases p <;> rfl

/-- A Porter at work concerns the power state of the package and the idle time of its hamlet. -/
theorem State.porterBusy_frame : s.porterBusy p = { s.stir with hamlets := (s.porterBusy p).hamlets } := by
  cases p <;> rfl

theorem State.porterBusy_alike : s.AccessAlike (s.porterBusy p) := by
  cases p with
  | hamlet d k n => exact State.AccessAlike.stir.busy ⟨d, k⟩
  | parish d k n => exact State.AccessAlike.stir

@[simp] theorem State.porter_porterBusy : (s.porterBusy p).porter q = s.porter q := by
  cases p with
  | hamlet d k n => exact (State.porter_busy ..).trans (State.porter_stir ..)
  | parish d k n => exact State.porter_stir ..

theorem State.porterBusy_rings (k : HamletRef) : ((s.porterBusy p).hamlet k).rings = (s.hamlet k).rings := by
  have hstir : (s.stir.hamlet k).rings = (s.hamlet k).rings := by
    rw [State.stir_frame]
    rfl
  cases p with
  | hamlet d j n => exact (State.busy_hamlet_rings ..).trans hstir
  | parish d j n => exact hstir

theorem State.hand_porterBusy (h : HandRef) : (s.porterBusy p).hand h = s.hand h := by
  have hstir : s.stir.hand h = s.hand h := by
    rw [State.stir_frame]
    rfl
  cases p with
  | hamlet d j n => exact (State.hand_busy ..).trans hstir
  | parish d j n => exact hstir

end

/-! ## A descriptor taken up -/

/-- The Porter works and has taken its oldest descriptor out of the queue. -/
def State.porterTakes (s : State) (p : PorterRef) (rest : List PorterDesc) : State :=
  (s.porterBusy p).modPorter p fun x => { x with queue := rest }

section
variable {s : State} {p : PorterRef} {rest : List PorterDesc}

theorem State.porterTakes_alike : s.AccessAlike (s.porterTakes p rest) := (s.porterBusy_alike p).setPorter p _

theorem State.porterTakes_frame :
    s.porterTakes p rest = { s.stir with hamlets := (s.porterTakes p rest).hamlets, parishes := (s.porterTakes p rest).parishes } := by
  unfold State.porterTakes State.modPorter
  rw [State.setPorter_frame, State.porterBusy_frame]

theorem State.porter_porterTakes : (s.porterTakes p rest).porter p = { s.porter p with queue := rest } := by
  unfold State.porterTakes
  rw [State.porter_modPorter, State.porter_porterBusy]

theorem State.porterTakes_rings (k : HamletRef) : ((s.porterTakes p rest).hamlet k).rings = (s.hamlet k).rings :=
  (State.setPorter_hamlet_rings ..).trans (s.porterBusy_rings p k)

theorem State.ring_porterTakes (r : RingRef) : (s.porterTakes p rest).ring r = s.ring r := by
  unfold State.ring
  rw [State.porterTakes_rings]

/-- A Porter works for the same job as long as the jobs are the same. -/
theorem State.jobOfPorter_congr {t : State} (hjobs : t.jobs = s.jobs) (p : PorterRef) (o : Option HandRef) :
    t.jobOfPorter p o = s.jobOfPorter p o := by
  unfold State.jobOfPorter State.jobAt State.jobOfParish
  rw [hjobs]

theorem State.AccessAlike.porterJob {t : State} (h : s.AccessAlike t) (p : PorterRef) (e : PorterDesc) : t.porterJob p e = s.porterJob p e :=
  State.jobOfPorter_congr (congrArg State.jobs h.frame :) p e.issuer

theorem State.AccessAlike.porterActor {t : State} (h : s.AccessAlike t) (p : PorterRef) (e : PorterDesc) :
    t.porterActor p e = s.porterActor p e := by
  unfold State.porterActor
  rw [h.porterJob]

/-- An idle Porter takes its oldest descriptor up for the command of its TYPE; a reserved TYPE for any (R221). -/
theorem State.runPorter_starts {e : PorterDesc} {ty : Nat} (hruns : s.porterRuns p = true) (hrun : (s.porter p).run = none)
    (hcur : (s.porter p).cur = none) (hhalt : (s.porter p).halted = false) (hqueue : (s.porter p).queue = e :: rest)
    (hty : descType e.desc = ty ∨ porterTypeValid (descType e.desc) = false) : s.runPorter p ty = (s.porterBusy p).porterStart p e rest := by
  unfold State.runPorter
  simp only [hruns, hrun, hcur, hhalt, hqueue, hty, Bool.not_true, Bool.false_eq_true, if_false, if_true, and_self]

/-- The Porter command for a TYPE runs the Porter for it, or the TYPE is reserved. -/
theorem exec_porterCommand (p : PorterRef) (ty : Nat) (s : State) :
    ∃ k, exec (porterCommand p ty) s = s.runPorter p k ∧ (ty = k ∨ porterTypeValid ty = false) := by
  unfold porterCommand
  split
  next => exact ⟨1, rfl, .inl rfl⟩
  next => exact ⟨2, rfl, .inl rfl⟩
  next => exact ⟨3, rfl, .inl rfl⟩
  next h1 h2 h3 =>
    refine ⟨4, rfl, ?_⟩
    have hne : ty ≠ 1 ∧ ty ≠ 2 ∧ ty ≠ 3 := ⟨h1, h2, h3⟩
    simp only [porterTypeValid, Bool.and_eq_false_iff, decide_eq_false_iff_not]
    omega

/-- The command for its oldest descriptor makes an idle Porter start it. -/
theorem porterCommand_starts {e : PorterDesc} (hruns : s.porterRuns p = true) (hrun : (s.porter p).run = none)
    (hcur : (s.porter p).cur = none) (hhalt : (s.porter p).halted = false) (hqueue : (s.porter p).queue = e :: rest) :
    exec (porterCommand p (descType e.desc)) s = (s.porterBusy p).porterStart p e rest := by
  obtain ⟨k, hexec, hty⟩ := exec_porterCommand p (descType e.desc) s
  exact hexec.trans (State.runPorter_starts hruns hrun hcur hhalt hqueue hty)

/-- A valid COPY with the reserved counts clear starts. -/
theorem State.porterStart_copy {e : PorterDesc} (hvalid : porterDescValid e.desc = true) (hrows : porterRowsValid e.desc = true)
    (hty : descType e.desc = 1) :
    (s.porterBusy p).porterStart p e rest =
      .next ((s.porterTakes p rest).porterGo p { desc := e, broken := (s.porterTakes p rest).porterBroken p e }) := by
  have hreduce : ¬ (descType e.desc = 4 ∧ dstRing e.desc = true) := by
    rw [hty]
    exact fun h => absurd h.1 (by decide)
  unfold State.porterStart
  simp only [hvalid, hrows, Bool.not_true, Bool.false_eq_true, if_false, hreduce]
  rfl

/-- A COPY with a ring at one end breaks no rule of R222. -/
theorem State.porterBroken_ring (s : State) (p : PorterRef) {e : PorterDesc} (hty : descType e.desc = 1)
    (hring : srcRing e.desc = true ∨ dstRing e.desc = true) : s.porterBroken p e = false := by
  unfold State.porterBroken
  rcases hring with hsrc | hdst
  · simp [hsrc, hty]
  · simp [hdst, hty]

/-- A descriptor of one row whose row succeeds waits to complete, where its destination slot holds nothing and no bytes are left over (R218, R220). -/
theorem State.porterGo_one {c c' : PorterCur} {q : PorterRings} {t : State} (hrings : s.porterRings p c.desc = .rings q)
    (hcount : rowCount c.desc.desc = 1) (hfirst : c.row = 0) (hhung : c.hung = false) (hrow : s.porterRow p c q = .next c' t)
    (hstream : allBytes c'.stream = []) (hbroken : c'.broken = false) :
    s.porterGo p c = t.modPorter p fun x => { x with cur := none, run := some ⟨c'.desc, c'.poisoned⟩ } := by
  unfold State.porterGo
  rw [hrings]
  simp only [hcount, hfirst, State.porterRows, hhung, hrow, State.porterFinish, hstream, hbroken, List.isEmpty_nil, Bool.not_true,
    Bool.or_self, Bool.false_eq_true, if_false]

/-! ## Rings of a descriptor -/

theorem State.refKind_job {j : Job} {ref : Nat} {r : RingRef} (h : j.ringOf ref = some r) : s.refKind j ref = .job r := by
  simp [State.refKind, h]

/-- A descriptor whose source is a ring of its job. -/
theorem State.porterRings_src {e : PorterDesc} {k : Nat} {j : Job} {r : RingRef} (hjob : s.porterJob p e = some (k, j))
    (hsrc : srcRing e.desc = true) (hdst : dstRing e.desc = false) (hring : j.ringOf (fieldOf e.desc 64 13) = some r) :
    s.porterRings p e = .rings ⟨some r, none⟩ := by
  unfold State.porterRings
  rw [hjob]
  simp only [State.refKind_job hring, hsrc, hdst, hring]
  rfl

/-- A descriptor whose destination is a ring of its job. -/
theorem State.porterRings_dst {e : PorterDesc} {k : Nat} {j : Job} {r : RingRef} (hjob : s.porterJob p e = some (k, j))
    (hsrc : srcRing e.desc = false) (hdst : dstRing e.desc = true) (hring : j.ringOf (fieldOf e.desc 128 13) = some r) :
    s.porterRings p e = .rings ⟨none, some r⟩ := by
  unfold State.porterRings
  rw [hjob]
  simp only [State.refKind_job hring, hsrc, hdst, hring]
  rfl

/-! ## A row from a ring to memory -/

/-- Where the slot that a ring offers is input enough, and nothing is not, an engine takes that slot and releases it. -/
theorem State.gatherSlots_offers {r : RingRef} {i n : Nat} (h : s.offers r i) (a : RingAgent) {enough : List SlotIn → Bool}
    (hnil : enough [] = false) (hone : enough [s.slotIn r i] = true) :
    State.gatherSlots r a enough (n + 1) [] s = ([s.slotIn r i], true, s.setRing r ((s.ring r).used (ringSlot r) a i)) := by
  have hclaim : s.engineSlot r a true = (some i, s.setRing r ((s.ring r).claimed (ringSlot r) a i)) := engineSlot_offers h _
  have hslot : (s.setRing r ((s.ring r).claimed (ringSlot r) a i)).slotIn r i = s.slotIn r i :=
    State.slotIn_setRing (Ring.claimed_base ..) (Ring.claimed_stride ..) i
  have hpower : ((s.setRing r ((s.ring r).claimed (ringSlot r) a i)).hamlet (ringSlot r)).power = .active :=
    (State.setRing_hamlet_power ..).trans h.1
  have hrel : (s.setRing r ((s.ring r).claimed (ringSlot r) a i)).releaseSlot r i = s.setRing r ((s.ring r).used (ringSlot r) a i) :=
    (release_used s r i h a _ rfl _ (State.ring_setRing ..) hpower).trans (State.setRing_setRing ..)
  have henough (t : State) : State.gatherSlots r a enough n [s.slotIn r i] t = ([s.slotIn r i], true, t) := by
    cases n <;> simp [State.gatherSlots, hone]
  simp only [State.gatherSlots, hnil, Bool.false_eq_true, if_false, hclaim, List.nil_append, hslot, hrel, henough]

/-- A row that is moved, not reduced, is delivered whole to a clear page. -/
theorem State.deliverMem_copy {e : PorterDesc} {ea a : Nat} {b : List Byte} (hty : descType e.desc = 1)
    (hclear : s.clearPage (s.porterActor p e) true ea b.length a) (row : Nat) :
    s.deliverMem p e row ea b false = .ok ((s.touch a b.length true (e.desc.getLsbD 10)).store a b .plain false) := by
  unfold State.deliverMem
  simp [hty, State.isRemote_clear hclear, State.writeAt_clear hclear]

/-- The one row of a COPY from a ring to memory is the payload of the slot that the ring offers (R217, R218). -/
theorem State.porterRow_fromRing {e : PorterDesc} {c : PorterCur} {r : RingRef} {i a : Nat} (hc : c = { desc := e })
    (hty : descType e.desc = 1) (hlen : (s.slotIn r i).bytes.length = rowLen e.desc) (hsome : rowLen e.desc ≠ 0) (hoff : s.offers r i)
    (hpoison : (s.slotIn r i).poison = false) (hclear : s.clearPage (s.porterActor p e) true (dstEa e.desc 0) (rowLen e.desc) a) :
    s.porterRow p c ⟨some r, none⟩ = .next { desc := e, row := 1 }
      (((s.setRing r ((s.ring r).used (ringSlot r) (.porter p) i)).touch a (rowLen e.desc) true (e.desc.getLsbD 10)).store a
        (s.slotIn r i).bytes .plain false) := by
  have halike := (State.AccessAlike.refl (s := s)).setRing r ((s.ring r).used (ringSlot r) (.porter p) i)
  have hgather := State.gatherSlots_offers (n := (s.ring r).size) hoff (.porter p)
    (enough := fun l => decide (rowLen e.desc ≤ (allBytes l).length)) (by simpa [allBytes] using hsome) (by simp [allBytes, hlen])
  have hdeliver := State.deliverMem_copy (p := p) (b := (s.slotIn r i).bytes) hty
    (by rw [halike.porterActor, hlen]; exact halike.clearPage hclear) 0
  subst hc
  generalize s.slotIn r i = x at *
  have hdrop : dropStream (rowLen e.desc) [x] = [] := by simp [dropStream, hlen]
  have hclean : ((poisonMap [x]).take (rowLen e.desc)).any id = false := by simp [poisonMap, hpoison]
  have hrow : (allBytes [x]).take (rowLen e.desc) = x.bytes := by simp [allBytes, ← hlen]
  simp [State.porterRow, State.rowWith, hty, hgather, hdrop, hclean, hrow, State.notePoison, State.putRow, hdeliver, hlen]

/-! ## A row from memory to a ring (R169, R172, R218) -/

/-- A field that reads 0 has no bit set. -/
theorem getLsbD_of_fieldOf_eq_zero {n : Nat} {v : BitVec n} {lo len i : Nat} (h : fieldOf v lo len = 0) (hlo : lo ≤ i) (hhi : i < lo + len) :
    v.getLsbD i = false := by
  have hbit : (fieldOf v lo len).testBit (i - lo) = v.toNat.testBit i := by
    unfold fieldOf bitsOf
    rw [Nat.testBit_mod_two_pow, Nat.testBit_shiftRight, Nat.add_sub_cancel' hlo, decide_eq_true (by omega), Bool.true_and]
  rw [BitVec.getLsbD, ← hbit, h, Nat.zero_testBit]

/-- The RSVD bits of header DW0 are three fields (Table 6.2). -/
theorem hdrReserved_fields : ∀ i : Fin 64, hdrReserved.getLsbD i = true →
    (4 ≤ i.val ∧ i.val < 4 + 4) ∨ (17 ≤ i.val ∧ i.val < 17 + 15) ∨ (53 ≤ i.val ∧ i.val < 53 + 11) := by decide

/-- The number that a header word without RSVD bits is. -/
theorem hdrWord_toNat (fmt : BitVec 4) (bias : Byte) (poison : Bool) (len : Nat) :
    (hdrWord fmt bias poison len).toNat = fmt.toNat + bias.toNat * 2 ^ 8 + flag poison * 2 ^ 16 + len % 2 ^ 21 * 2 ^ 32 := by
  have hfmt := fmt.isLt
  have hbias := bias.isLt
  have hpoison : flag poison ≤ 1 := by cases poison <;> decide
  have hlen := Nat.mod_lt len (Nat.two_pow_pos 21)
  rw [hdrWord, BitVec.toNat_ofNat]
  omega

/-- A header word made of its fields is written as it is, unless its FMT is reserved. -/
theorem State.hdrFor_hdrWord (s : State) {fmt : BitVec 4} (hfmt : fmt.toNat < 14) (bias : Byte) (poison : Bool) (len : Nat) :
    s.hdrFor (hdrWord fmt bias poison len) = (hdrWord fmt bias poison len, s) := by
  have hnat := hdrWord_toNat fmt bias poison len
  have hbias := bias.isLt
  have hpoison : flag poison ≤ 1 := by cases poison <;> decide
  have hlen := Nat.mod_lt len (Nat.two_pow_pos 21)
  generalize hdrWord fmt bias poison len = w at *
  have hfields : fieldOf w 4 4 = 0 ∧ fieldOf w 17 15 = 0 ∧ fieldOf w 53 11 = 0 ∧ fieldOf w 0 4 < 14 := by
    simp only [fieldOf, bitsOf, Nat.shiftRight_eq_div_pow, hnat]
    omega
  obtain ⟨hlow, hmid, hhigh, hkind⟩ := hfields
  have hclear : w &&& hdrReserved = 0 := by
    refine BitVec.eq_of_getLsbD_eq fun i hi => ?_
    rw [BitVec.getLsbD_and, show (0 : Word64).getLsbD i = false from BitVec.getLsbD_zero, Bool.and_eq_false_iff]
    by_cases hbit : hdrReserved.getLsbD i = true
    · left
      rcases hdrReserved_fields ⟨i, hi⟩ hbit with ⟨hlo, hhi⟩ | ⟨hlo, hhi⟩ | ⟨hlo, hhi⟩
      · exact getLsbD_of_fieldOf_eq_zero hlow hlo hhi
      · exact getLsbD_of_fieldOf_eq_zero hmid hlo hhi
      · exact getLsbD_of_fieldOf_eq_zero hhigh hlo hhi
    · exact .inr (Bool.eq_false_iff.2 hbit)
  unfold State.hdrFor
  rw [if_neg]
  simp [hclear, Nat.not_le.2 hkind]

/-- LEN of a header word. -/
theorem fieldOf_hdrWord_len (fmt : BitVec 4) (bias : Byte) (poison : Bool) {len : Nat} (hlen : len < 2 ^ 21) :
    fieldOf (hdrWord fmt bias poison len) 32 21 = len := by
  have hfmt := fmt.isLt
  have hbias := bias.isLt
  have hpoison : flag poison ≤ 1 := by cases poison <;> decide
  rw [fieldOf, hdrWord_toNat, bitsOf, Nat.shiftRight_eq_div_pow]
  omega

/-- The capacity of a ring can be told in LEN. -/
theorem Ring.capacity_lt (x : Ring) : x.capacity < 2 ^ 21 := by
  have hstride := x.stride.isLt
  unfold Ring.capacity
  omega

theorem Ring.slot_setSlot_same (x : Ring) (i : Nat) {v : SlotState} (hv : v ≠ .free) : (x.setSlot i v).slot i = v := by
  cases v with
  | free => exact absurd rfl hv
  | _ => exact Tab.get_set_same ..

theorem Ring.slot_setSlot_ne (x : Ring) {i k : Nat} (hk : k ≠ i) {v : SlotState} (hv : v ≠ .free) : (x.setSlot i v).slot k = x.slot k := by
  cases v with
  | free => exact absurd rfl hv
  | _ => exact Tab.get_set_ne _ _ _ hk

/-- The ring after the slot at its PUB, `i`, has become visible, with none that is ready behind it (R172). -/
def Ring.published (x : Ring) (i : Nat) : Ring :=
  { (x.setSlot i .ready).setSlot i .published with pub := x.after i, seq := x.seq + 1 }

/-- PUB moves over the slot there that becomes ready, and no further than the next one, which is not. -/
theorem Ring.advancePub_one {x : Ring} {i : Nat} (hpub : x.pub = i) (hnext : i + 1 < x.size) (hready : x.slot (i + 1) ≠ .ready) :
    Ring.advancePub x.size (x.setSlot i .ready) [] = (x.published i, [i]) := by
  have hafter : x.after i = i + 1 := if_pos hnext
  have hstop : (x.published i).slot (x.published i).pub ≠ .ready := by
    show ((x.setSlot i .ready).setSlot i .published).slot (x.after i) ≠ .ready
    rw [hafter, Ring.slot_setSlot_ne _ (Nat.succ_ne_self i) (by decide), Ring.slot_setSlot_ne _ (Nat.succ_ne_self i) (by decide)]
    exact hready
  have hgo : (x.setSlot i .ready).slot (x.setSlot i .ready).pub = .ready := by
    show (x.setSlot i .ready).slot x.pub = .ready
    rw [hpub]
    exact Ring.slot_setSlot_same _ _ (by decide)
  obtain ⟨n, hn⟩ : ∃ n, x.size = n + 2 := ⟨x.size - 2, by omega⟩
  have hpub' : (x.setSlot i .ready).pub = i := hpub
  rw [hn, Ring.advancePub, hgo, hpub']
  show Ring.advancePub (n + 1) (x.published i) [i] = _
  rw [Ring.advancePub, if_neg (by simpa using hstop)]

/-- Memory with the header of a slot at `a`: DW0, DW1 of zero, and the stamp of its number (R169). -/
def Memory.headed (m : Memory) (a dw0 seq : Nat) : Memory :=
  ((m.writeBytes a (toBytes 8 dw0)).writeBytes (a + 8) (toBytes 8 0)).writeBytes (a + 16) (toBytes 8 seq ++ List.replicate 40 0)

/-- Memory after a slot at `a` has been published: its payload and its header (R169). -/
def Memory.published (m : Memory) (a dw0 seq : Nat) (payload : List Byte) : Memory := (m.writeBytes (a + 64) payload).headed a dw0 seq

section
variable {m : Memory} (hwf : m.wf = true) (a dw0 seq : Nat) (payload : List Byte)
include hwf

theorem Memory.published_payload : (m.published a dw0 seq payload).readBytes (a + 64) payload.length = payload := by
  have h1 := Memory.wf_writeBytes (a + 64) payload hwf
  have h2 := Memory.wf_writeBytes a (toBytes 8 dw0) h1
  have h3 := Memory.wf_writeBytes (a + 8) (toBytes 8 0) h2
  unfold Memory.published Memory.headed
  rw [Memory.readBytes_writeBytes_ne h3 (.inr (by simp [toBytes])), Memory.readBytes_writeBytes_ne h2 (.inr (by simp [toBytes])),
    Memory.readBytes_writeBytes_ne h1 (.inr (by simp [toBytes])), Memory.readBytes_writeBytes hwf]

theorem Memory.published_header : (m.published a dw0 seq payload).readBytes a 8 = toBytes 8 dw0 := by
  have h1 := Memory.wf_writeBytes (a + 64) payload hwf
  have h2 := Memory.wf_writeBytes a (toBytes 8 dw0) h1
  have h3 := Memory.wf_writeBytes (a + 8) (toBytes 8 0) h2
  unfold Memory.published Memory.headed
  rw [Memory.readBytes_writeBytes_ne h3 (.inl (by omega)), Memory.readBytes_writeBytes_ne h2 (.inl (by omega)),
    Memory.readBytes_written h1 _ (by simp [toBytes])]

theorem Memory.published_outside {k : Nat} (hk : k < a ∨ a + 64 + payload.length ≤ k) : (m.published a dw0 seq payload).read k = m.read k := by
  have h1 := Memory.wf_writeBytes (a + 64) payload hwf
  have h2 := Memory.wf_writeBytes a (toBytes 8 dw0) h1
  have h3 := Memory.wf_writeBytes (a + 8) (toBytes 8 0) h2
  have hfar : k < a ∨ a + 64 ≤ k := by omega
  unfold Memory.published Memory.headed
  rw [Memory.read_writeBytes_out h3 _ _ _ (by simp [toBytes]; omega), Memory.read_writeBytes_out h2 _ _ _ (by simp [toBytes]; omega),
    Memory.read_writeBytes_out h1 _ _ _ (by simp [toBytes]; omega), Memory.read_writeBytes_out hwf _ _ _ (by omega)]

end

/-- Addresses of a scratchpad follow its offsets. -/
theorem sramAddr_add (m : HamletRef) (off k : Nat) : sramAddr m (off + k) = sramAddr m off + k := (Nat.add_assoc ..).symm

/-- The header word of a slot whose payload, not poisoned, is of `n` bytes, with the format and the bias of a descriptor (R218). -/
def rowHdr (d : Vec) (n : Nat) : Word64 := hdrWord (BitVec.ofNat 4 (fieldOf d 16 4)) (BitVec.ofNat 8 (fieldOf d 20 8)) false n

/-- A state with other contents of its scratchpads. -/
def State.withPads (s : State) (mem : Memory) (poison : List Nat) : State := { s with mem := mem, sramPoison := poison }

theorem State.withPads_self : s.withPads s.mem s.sramPoison = s := rfl

theorem State.ring_withPads (mem : Memory) (poison : List Nat) (r : RingRef) : (s.withPads mem poison).ring r = s.ring r := rfl

theorem State.porter_withPads (mem : Memory) (poison : List Nat) (p : PorterRef) : (s.withPads mem poison).porter p = s.porter p := rfl

theorem State.setRing_withPads (mem : Memory) (poison : List Nat) (r : RingRef) (x : Ring) :
    (s.withPads mem poison).setRing r x = (s.setRing r x).withPads mem poison := rfl

theorem State.fenced_withPads (mem : Memory) (poison : List Nat) (a : Nat) : (s.withPads mem poison).fenced a = s.fenced a := rfl

/-- Bytes that fit a scratchpad behind no fence are written there. -/
theorem State.padWrite_withPads (mem : Memory) (poison : List Nat) (m : HamletRef) {off : Nat} {d : List Byte}
    (hfit : off + d.length ≤ padBytes) (hopen : s.fenced (sramAddr m off) = false) :
    ∃ q, (s.withPads mem poison).padWrite m off d false = s.withPads (mem.writeBytes (sramAddr m off) d) q := by
  rw [State.padWrite_fit _ _ _ hfit, State.storeMem_open _ _ _ _ ((State.fenced_withPads ..).trans hopen)]
  exact State.store_sram (s.withPads mem poison) (isSram_sramAddr m off) d

section
variable {r : RingRef} {i : Nat} (hpower : (s.hamlet (ringSlot r)).power = .active) (hfit : (s.ring r).slotOff i + 64 ≤ padBytes)
  (hopen : ∀ o, o ≤ 64 → s.fenced (sramAddr (ringSlot r) ((s.ring r).slotOff i) + o) = false)
  (hpub : (s.ring r).pub = i) (hnext : i + 1 < (s.ring r).size) (hready : (s.ring r).slot (i + 1) ≠ .ready)
include hpower hfit hopen hpub hnext hready

/-- The slot at PUB, with nothing else ready behind it, is published by its header, whose LEN the ring holds. -/
theorem State.publishOpen_fits {w : Word64} (hlen : fieldOf w 32 21 ≤ (s.ring r).capacity) (mem : Memory) (poison : List Nat) :
    ∃ q, (s.withPads mem poison).publishOpen r i w (some 0) =
      (s.setRing r ((s.ring r).published i)).withPads
        (mem.headed (sramAddr (ringSlot r) ((s.ring r).slotOff i)) w.toNat (s.ring r).seq.toNat) q := by
  have htoBytes (v : Nat) : (toBytes 8 v).length = 8 := by simp [toBytes]
  have hopen' (k : Nat) (hk : k ≤ 64) : s.fenced (sramAddr (ringSlot r) ((s.ring r).slotOff i + k)) = false := by
    rw [sramAddr_add]
    exact hopen k hk
  have hwake : (s.withPads mem poison).wake (ringSlot r) = s.withPads mem poison := State.wake_active hpower
  have hkeep : ((s.setRing r ((s.ring r).published i)).ring r).slotOff i = (s.ring r).slotOff i := by
    rw [State.ring_setRing]
    rfl
  obtain ⟨q1, h1⟩ := s.padWrite_withPads mem poison (ringSlot r) (off := (s.ring r).slotOff i) (d := toBytes 8 w.toNat)
    (by rw [htoBytes]; omega) (hopen' 0 (Nat.zero_le _))
  obtain ⟨q2, h2⟩ := s.padWrite_withPads (mem.writeBytes (sramAddr (ringSlot r) ((s.ring r).slotOff i)) (toBytes 8 w.toNat)) q1 (ringSlot r)
    (off := (s.ring r).slotOff i + 8) (d := toBytes 8 0) (by rw [htoBytes]; omega) (hopen' 8 (by decide))
  obtain ⟨q3, h3⟩ := (s.setRing r ((s.ring r).published i)).padWrite_withPads
    ((mem.writeBytes (sramAddr (ringSlot r) ((s.ring r).slotOff i)) (toBytes 8 w.toNat)).writeBytes
      (sramAddr (ringSlot r) ((s.ring r).slotOff i + 8)) (toBytes 8 0)) q2 (ringSlot r)
    (off := (s.ring r).slotOff i + 16) (d := toBytes 8 (s.ring r).seq.toNat ++ List.replicate 40 0)
    (by rw [List.length_append, htoBytes, List.length_replicate]; omega) ((State.fenced_setRing ..).trans (hopen' 16 (by decide)))
  refine ⟨q3, ?_⟩
  unfold State.publishOpen
  rw [hwake]
  have hlong : decide ((s.ring r).capacity < fieldOf w 32 21) = false := decide_eq_false (Nat.not_lt.2 hlen)
  dsimp only
  rw [State.ring_withPads, hlong, if_neg Bool.false_ne_true, if_neg Bool.false_ne_true, h1]
  rw [show BitVec.toNat (0 : Word64) = 0 from rfl, h2, State.ring_withPads, Ring.advancePub_one hpub hnext hready, State.setRing_withPads]
  rw [State.stampSlots, State.stampSlots, State.ring_withPads, hkeep, h3, Memory.headed, sramAddr_add, sramAddr_add]

end

/-- A slot of a ring that what was packed for it fits is published at PUB, with nothing else ready behind it: memory has its header and payload, and
the ring has it visible. -/
theorem State.publishFill_fits {r : RingRef} {c : PorterCur} {i : Nat} (hslot : c.slot = some i)
    (hpoison : c.fillPoison = false) (hfmt : fieldOf c.desc.desc 16 4 < 14) (hpower : (s.hamlet (ringSlot r)).power = .active)
    (henable : (s.ring r).enable = true) (hlen : c.fill.length ≤ (s.ring r).capacity)
    (hfit : (s.ring r).slotOff i + 64 + (s.ring r).capacity ≤ padBytes)
    (hopen : ∀ o, o ≤ 64 → s.fenced (sramAddr (ringSlot r) ((s.ring r).slotOff i) + o) = false)
    (hpub : (s.ring r).pub = i) (hnext : i + 1 < (s.ring r).size) (hready : (s.ring r).slot (i + 1) ≠ .ready) :
    ∃ q, s.publishFill r c = (s.setRing r ((s.ring r).published i)).withPads
      (s.mem.published (sramAddr (ringSlot r) ((s.ring r).slotOff i)) (rowHdr c.desc.desc c.fill.length).toNat (s.ring r).seq.toNat c.fill) q := by
  have hcap := (s.ring r).capacity_lt
  have hopen' : s.fenced (sramAddr (ringSlot r) ((s.ring r).slotOff i + 64)) = false := by
    rw [sramAddr_add]
    exact hopen 64 (Nat.le_refl _)
  obtain ⟨q1, h1⟩ := s.padWrite_withPads s.mem s.sramPoison (ringSlot r) (off := (s.ring r).slotOff i + 64) (d := c.fill) (by omega) hopen'
  have hword : hdrWord (BitVec.ofNat 4 (fieldOf c.desc.desc 16 4)) (BitVec.ofNat 8 (fieldOf c.desc.desc 20 8)) c.fillPoison
      (min c.fill.length (2 ^ 21 - 1)) = rowHdr c.desc.desc c.fill.length := by
    rw [hpoison, Nat.min_eq_left (by omega)]
    rfl
  have hhdr (t : State) : t.hdrFor (rowHdr c.desc.desc c.fill.length) = (rowHdr c.desc.desc c.fill.length, t) :=
    State.hdrFor_hdrWord t (by rw [BitVec.toNat_ofNat]; omega) ..
  have hlen' : fieldOf (rowHdr c.desc.desc c.fill.length) 32 21 = c.fill.length := fieldOf_hdrWord_len _ _ _ (by omega)
  obtain ⟨q2, h2⟩ := State.publishOpen_fits hpower (by omega) hopen hpub hnext hready (hlen'.trans_le hlen)
    (s.mem.writeBytes (sramAddr (ringSlot r) ((s.ring r).slotOff i + 64)) c.fill) q1
  refine ⟨q2, ?_⟩
  have htake : c.fill.take (s.ring r).capacity = c.fill := List.take_of_length_le hlen
  rw [State.withPads_self] at h1
  unfold State.publishFill
  rw [hslot]
  simp only [htake, hword, Ring.payloadOff, h1, hhdr]
  unfold State.publishSlot
  exact (if_pos henable).trans h2

/-- The ring after an engine reserved its slot `i`. -/
def Ring.reserved (x : Ring) (m : HamletRef) (a : RingAgent) (i : Nat) : Ring :=
  { x.setSlot i .reserved with rsv := x.after i, grant := portAfter (agentPort m a) }

/-- A row of bytes, the last of its descriptor, fills the slot that a ring accepts and publishes it (R218). -/
theorem State.putRow_toRing {e : PorterDesc} {r : RingRef} {i : Nat} {b : List Byte} (s0 : State) (c0 : PorterCur) (ea : Nat)
    (hcount : rowCount e.desc = 1) (hfmt : fieldOf e.desc 16 4 < 14) (hacc : s.accepts r i) (hlen : b.length ≤ (s.ring r).capacity)
    (hfit : (s.ring r).slotOff i + 64 + (s.ring r).capacity ≤ padBytes)
    (hopen : ∀ o, o ≤ 64 → s.fenced (sramAddr (ringSlot r) ((s.ring r).slotOff i) + o) = false) :
    ∃ q, s.putRow s0 p c0 { desc := e } (some r) ea b false false = .next { desc := e, row := 1 }
      ((s.setRing r (((s.ring r).reserved (ringSlot r) (.porter p) i).published i)).withPads
        (s.mem.published (sramAddr (ringSlot r) ((s.ring r).slotOff i)) (rowHdr e.desc b.length).toNat (s.ring r).seq.toNat b) q) := by
  have hslot : s.engineSlot r (.porter p) false = (some i, s.setRing r ((s.ring r).reserved (ringSlot r) (.porter p) i)) :=
    engineSlot_accepts hacc _
  obtain ⟨hpower, henable, -, -, -, -, -, -, hpub, hnext, hready⟩ := hacc
  have hready' : ((s.ring r).reserved (ringSlot r) (.porter p) i).slot (i + 1) ≠ .ready := by
    have hkept := (s.ring r).slot_setSlot_ne (Nat.succ_ne_self i) (v := .reserved) (by decide)
    exact fun h => hready (hkept.symm.trans h)
  have hring : (s.setRing r ((s.ring r).reserved (ringSlot r) (.porter p) i)).ring r = (s.ring r).reserved (ringSlot r) (.porter p) i :=
    State.ring_setRing ..
  obtain ⟨q, hfill⟩ := State.publishFill_fits (s := s.setRing r ((s.ring r).reserved (ringSlot r) (.porter p) i)) (r := r)
    (c := { desc := e, slot := some i, fill := b, fillRows := 1 }) (i := i) rfl rfl hfmt ((State.setRing_hamlet_power ..).trans hpower)
    (by rw [hring]; exact henable) (by rw [hring]; exact hlen) (by rw [hring]; exact hfit)
    (fun o ho => by rw [hring, State.fenced_setRing]; exact hopen o ho) (by rw [hring]; exact hpub) (by rw [hring]; exact hnext)
    (by rw [hring]; exact hready')
  refine ⟨q, ?_⟩
  rw [hring, State.setRing_setRing] at hfill
  have hpack : (s.setRing r ((s.ring r).reserved (ringSlot r) (.porter p) i)).pack r { desc := e, slot := some i } b false =
      ({ desc := e }, (s.setRing r (((s.ring r).reserved (ringSlot r) (.porter p) i).published i)).withPads
        (s.mem.published (sramAddr (ringSlot r) ((s.ring r).slotOff i)) (rowHdr e.desc b.length).toNat (s.ring r).seq.toNat b) q) := by
    unfold State.pack
    simp only [List.nil_append, Nat.zero_add, hcount, or_true, if_true, hring, Bool.or_self]
    rw [if_pos (show ((s.ring r).reserved (ringSlot r) (.porter p) i).enable = true from henable)]
    exact Prod.ext rfl hfill
  unfold State.putRow
  simp only [hslot, Bool.false_and, Bool.false_eq_true, if_false, hpack, Bool.or_self, Nat.zero_add]

/-- The one row of a COPY from a clear page to a ring is the payload of the slot that it publishes (R217, R218). -/
theorem State.porterRow_toRing {e : PorterDesc} {r : RingRef} {i a : Nat} (hty : descType e.desc = 1) (hcount : rowCount e.desc = 1)
    (hfmt : fieldOf e.desc 16 4 < 14) (hacc : s.accepts r i) (hlen : rowLen e.desc ≤ (s.ring r).capacity)
    (hfit : (s.ring r).slotOff i + 64 + (s.ring r).capacity ≤ padBytes)
    (hopen : ∀ o, o ≤ 64 → s.fenced (sramAddr (ringSlot r) ((s.ring r).slotOff i) + o) = false)
    (hclear : s.clearPage (s.porterActor p e) false (srcEa e.desc 0) (rowLen e.desc) a) :
    ∃ q, s.porterRow p { desc := e } ⟨none, some r⟩ = .next { desc := e, row := 1 }
      (((s.touch a (rowLen e.desc) false (e.desc.getLsbD 10)).setRing r
        (((s.ring r).reserved (ringSlot r) (.porter p) i).published i)).withPads
          (s.mem.published (sramAddr (ringSlot r) ((s.ring r).slotOff i)) (rowHdr e.desc (rowLen e.desc)).toNat (s.ring r).seq.toNat
            (s.mem.readBytes a (rowLen e.desc))) q) := by
  have halike := (State.AccessAlike.refl (s := s)).touch a (rowLen e.desc) false (e.desc.getLsbD 10)
  have hring := s.ring_touch a (rowLen e.desc) false (e.desc.getLsbD 10) r
  have hrings : ((s.touch a (rowLen e.desc) false (e.desc.getLsbD 10)).hamlet (ringSlot r)).rings = (s.hamlet (ringSlot r)).rings := by
    rw [State.touch_eq]
    rfl
  have hfetch : s.porterFetch p { desc := e } (s.porterActor p e) (srcEa e.desc 0) (rowLen e.desc) =
      .bytes (s.mem.readBytes a (rowLen e.desc)) false (s.touch a (rowLen e.desc) false (e.desc.getLsbD 10)) := by
    unfold State.porterFetch
    simp only [State.isRemote_clear hclear, Bool.false_eq_true, if_false, State.readAt_clear hclear]
  obtain ⟨q, hput⟩ := State.putRow_toRing (s := s.touch a (rowLen e.desc) false (e.desc.getLsbD 10)) (p := p)
    (b := s.mem.readBytes a (rowLen e.desc)) s { desc := e } (dstEa e.desc 0) hcount hfmt
    (hacc.congr (halike.power _) hrings (congrArg State.jobs halike.frame :) (congrArg State.torus halike.frame :))
    (by rw [hring, Memory.readBytes_length]; exact hlen) (by rw [hring]; exact hfit)
    (fun o ho => by rw [hring, halike.fenced]; exact hopen o ho)
  refine ⟨q, ?_⟩
  rw [hring, halike.mem, Memory.readBytes_length] at hput
  generalize s.touch a (rowLen e.desc) false (e.desc.getLsbD 10) = v at hfetch hput ⊢
  simp [State.porterRow, State.rowWith, hty, hfetch, State.notePoison, hput]

end

end Sys2Proof.Machine
end

