-- ==== Sys2Proof/Proofs/Porters.lean ====
section
/-! Porters at rings, their window, completion and errors (R168, R169, R215, R217 to R221), put together. -/

namespace Sys2Proof.Machine

/-! ## Frames -/

/-- Of two states only units differ. -/
def State.onlyUnits (s t : State) : Prop := t = { s with hamlets := t.hamlets, parishes := t.parishes }

section
variable {s t : State}

theorem State.onlyUnits.setRing (h : s.onlyUnits t) (r : RingRef) (x : Ring) : s.onlyUnits (t.setRing r x) := by
  unfold State.onlyUnits at *
  rw [h]
  rfl

theorem State.onlyUnits.setPorter (h : s.onlyUnits t) (p : PorterRef) (x : Porter) : s.onlyUnits (t.setPorter p x) := by
  unfold State.onlyUnits at *
  rw [State.setPorter_frame, h]

theorem State.onlyUnits.touch (h : s.onlyUnits t) (a n : Nat) (write alloc : Bool) : s.onlyUnits (t.touch a n write alloc) := by
  unfold State.onlyUnits at *
  rw [State.touch_eq, h]

theorem State.porterTakes_onlyUnits (s : State) (p : PorterRef) (rest : List PorterDesc) : s.stir.onlyUnits (s.porterTakes p rest) :=
  State.porterTakes_frame

end

/-- The units are apart from memory and the poison of its blocks. -/
theorem State.porter_withBlocks (s : State) (m : Memory) (q : List Nat) (p : PorterRef) :
    State.porter { s with mem := m, blkPoison := q } p = s.porter p := rfl

/-! ## A COPY of one row with a ring at one end -/

section
variable {s : State} {p : PorterRef} {e : PorterDesc} {rest : List PorterDesc} {k i a : Nat} {j : Job} {r : RingRef}
  (hruns : s.porterRuns p = true) (hwf : s.mem.wf = true) (hrun : (s.porter p).run = none) (hcur : (s.porter p).cur = none)
  (hhalt : (s.porter p).halted = false) (hqueue : (s.porter p).queue = e :: rest) (hvalid : porterDescValid e.desc = true)
  (hty : descType e.desc = 1) (hsome : rowLen e.desc ≠ 0) (hcount : rowCount e.desc = 1) (hjob : s.porterJob p e = some (k, j))
include hruns hwf hrun hcur hhalt hqueue hvalid hty hsome hcount hjob

omit hwf hjob in
/-- A COPY of one row with a ring at one end starts, and waits to complete once its row has been moved. -/
theorem copy_one {q : PorterRings} {t : State} (hring : srcRing e.desc = true ∨ dstRing e.desc = true)
    (hrings : (s.porterTakes p rest).porterRings p e = .rings q)
    (hrow : (s.porterTakes p rest).porterRow p { desc := e } q = .next { desc := e, row := 1 } t) :
    exec (.copy p) s = .next (t.modPorter p fun x => { x with cur := none, run := some ⟨e, false⟩ }) := by
  have hvalid' : porterRowsValid e.desc = true := by simp [porterRowsValid, hsome, hcount]
  have hstart : exec (.copy p) s = (s.porterBusy p).porterStart p e rest := by
    have h := porterCommand_starts hruns hrun hcur hhalt hqueue
    rwa [hty] at h
  rw [hstart, State.porterStart_copy hvalid hvalid' hty, State.porterBroken_ring _ _ hty hring]
  exact congrArg Host.Outcome.next (State.porterGo_one (c := { desc := e }) hrings hcount rfl rfl hrow rfl rfl)

/-- Clause of O29: a row from a ring to memory. -/
theorem copy_fromRing (hsrc : srcRing e.desc = true) (hdst : dstRing e.desc = false) (href : j.ringOf (fieldOf e.desc 64 13) = some r)
    (hoff : s.offers r i) (hpoison : (s.slotIn r i).poison = false) (hlen : (s.slotIn r i).bytes.length = rowLen e.desc)
    (hclear : s.clearPage (s.porterActor p e) true (dstEa e.desc 0) (rowLen e.desc) a) :
    ∃ t, exec (.copy p) s = .next t ∧ s.memHas t a (s.slotIn r i).bytes ∧ t.ring r = (s.ring r).used (ringSlot r) (.porter p) i ∧
      t.porter p = { s.porter p with queue := rest, run := some ⟨e, false⟩ } ∧
      t = { s.stir with
        hamlets := t.hamlets, parishes := t.parishes, mem := t.mem, blkPoison := t.blkPoison, freeCtr := t.freeCtr } := by
  have halike : s.AccessAlike (s.porterTakes p rest) := State.porterTakes_alike
  have hslot : (s.porterTakes p rest).slotIn r i = s.slotIn r i :=
    halike.slotIn (by rw [State.ring_porterTakes]) (by rw [State.ring_porterTakes]) i
  have hrow := State.porterRow_fromRing (s := s.porterTakes p rest) (p := p) (r := r) (i := i) (a := a) (c := { desc := e }) rfl hty
    (by rw [hslot]; exact hlen) hsome (hoff.congr (halike.power _) (State.porterTakes_rings _)) (by rw [hslot]; exact hpoison)
    (by rw [halike.porterActor]; exact halike.clearPage hclear)
  have hexec := copy_one hruns hrun hcur hhalt hqueue hvalid hty hsome hcount (.inl hsrc)
    (State.porterRings_src (by rw [halike.porterJob]; exact hjob) hsrc hdst href) hrow
  rw [hslot, State.ring_porterTakes] at hexec
  have hlow : isSram a = false := isSram_lpddr hclear.2.1
  have hmem := ((halike.setRing r ((s.ring r).used (ringSlot r) (.porter p) i)).touch a (rowLen e.desc) true (e.desc.getLsbD 10)).mem
  have hring := (State.ring_touch _ a (rowLen e.desc) true (e.desc.getLsbD 10) r).trans
    (State.ring_setRing (s.porterTakes p rest) r ((s.ring r).used (ringSlot r) (.porter p) i))
  have hporter := (State.porter_touch _ p a (rowLen e.desc) true (e.desc.getLsbD 10)).trans
    ((State.porter_setRing _ p r ((s.ring r).used (ringSlot r) (.porter p) i)).trans (State.porter_porterTakes (s := s) (rest := rest)))
  have hframe := ((s.porterTakes_onlyUnits p rest).setRing r ((s.ring r).used (ringSlot r) (.porter p) i)).touch a (rowLen e.desc) true
    (e.desc.getLsbD 10)
  generalize ((s.porterTakes p rest).setRing r ((s.ring r).used (ringSlot r) (.porter p) i)).touch a (rowLen e.desc) true
    (e.desc.getLsbD 10) = v at hexec hmem hring hporter hframe
  obtain ⟨q, hstore⟩ := State.store_lpddr v (s.slotIn r i).bytes hlow
  rw [hstore] at hexec
  refine ⟨_, hexec, State.memHas_write hwf ?_, ?_, ?_, ?_⟩
  · rw [State.modPorter_mem]
    exact congrArg (Memory.writeBytes · a _) hmem
  · rw [State.modPorter, State.ring_setPorter]
    exact hring
  · rw [State.porter_modPorter, State.porter_withBlocks, hporter]
    simp only [hcur]
  · unfold State.onlyUnits at hframe
    rw [State.modPorter, State.setPorter_frame]
    generalize State.hamlets (State.setPorter _ p _) = hs
    generalize State.parishes (State.setPorter _ p _) = ps
    rw [hframe]

/-- Clause of O29: a row from memory to a ring. -/
theorem copy_toRing {off n : Nat} (hn : rowLen e.desc = n) (hsrc : srcRing e.desc = false) (hdst : dstRing e.desc = true)
    (href : j.ringOf (fieldOf e.desc 128 13) = some r) (hacc : s.accepts r i) (hoff : off = sramAddr (ringSlot r) ((s.ring r).slotOff i))
    (hfit : (s.ring r).slotOff i + 64 + (s.ring r).capacity ≤ padBytes) (hopen : ∀ o, o ≤ 64 → s.fenced (off + o) = false)
    (hlen : n ≤ (s.ring r).capacity) (hfmt : fieldOf e.desc 16 4 < 14)
    (hclear : s.clearPage (s.porterActor p e) false (srcEa e.desc 0) n a) :
    ∃ t, exec (.copy p) s = .next t ∧ t.mem.readBytes (off + 64) n = s.mem.readBytes a n ∧
      t.mem.readBytes off 8 = toBytes 8 (hdrWord (BitVec.ofNat 4 (fieldOf e.desc 16 4)) (BitVec.ofNat 8 (fieldOf e.desc 20 8)) false n).toNat ∧
      (∀ q, (q < off ∨ off + 64 + n ≤ q) → t.mem.read q = s.mem.read q) ∧
      (t.ring r).slot i = .published ∧ (t.ring r).pub = i + 1 ∧
      t.porter p = { s.porter p with queue := rest, run := some ⟨e, false⟩ } ∧
      t = { s.stir with
        hamlets := t.hamlets, parishes := t.parishes, mem := t.mem, sramPoison := t.sramPoison, freeCtr := t.freeCtr } := by
  subst hn hoff
  have halike : s.AccessAlike (s.porterTakes p rest) := State.porterTakes_alike
  have hkept : (s.porterTakes p rest).ring r = s.ring r := State.ring_porterTakes r
  obtain ⟨q, hrow⟩ := State.porterRow_toRing (s := s.porterTakes p rest) (p := p) (r := r) (i := i) (a := a) hty hcount hfmt
    (hacc.congr (halike.power _) (State.porterTakes_rings _) (congrArg State.jobs halike.frame :) (congrArg State.torus halike.frame :))
    (by rw [hkept]; exact hlen) (by rw [hkept]; exact hfit) (fun o ho => by rw [hkept, halike.fenced]; exact hopen o ho)
    (by rw [halike.porterActor]; exact halike.clearPage hclear)
  have hexec := copy_one hruns hrun hcur hhalt hqueue hvalid hty hsome hcount (.inr hdst)
    (State.porterRings_dst (by rw [halike.porterJob]; exact hjob) hsrc hdst href) hrow
  rw [hkept, halike.mem] at hexec
  have hporter := (State.porter_setRing _ p r (((s.ring r).reserved (ringSlot r) (.porter p) i).published i)).trans
    ((State.porter_touch _ p a (rowLen e.desc) false (e.desc.getLsbD 10)).trans (State.porter_porterTakes (s := s) (rest := rest)))
  have hframe := ((s.porterTakes_onlyUnits p rest).touch a (rowLen e.desc) false (e.desc.getLsbD 10)).setRing r
    (((s.ring r).reserved (ringSlot r) (.porter p) i).published i)
  have hring := State.ring_setRing ((s.porterTakes p rest).touch a (rowLen e.desc) false (e.desc.getLsbD 10)) r
    (((s.ring r).reserved (ringSlot r) (.porter p) i).published i)
  generalize ((s.porterTakes p rest).touch a (rowLen e.desc) false (e.desc.getLsbD 10)).setRing r
    (((s.ring r).reserved (ringSlot r) (.porter p) i).published i) = v at hexec hporter hframe hring
  have hrowlen : (s.mem.readBytes a (rowLen e.desc)).length = rowLen e.desc := Memory.readBytes_length ..
  generalize s.mem.readBytes a (rowLen e.desc) = b at hexec hrowlen
  obtain ⟨-, -, -, -, -, -, -, -, -, hnext, -⟩ := hacc
  refine ⟨_, hexec, ?_, ?_, fun k hk => ?_, ?_, ?_, ?_, ?_⟩
  · rw [State.modPorter_mem, ← hrowlen]
    exact Memory.published_payload hwf ..
  · rw [State.modPorter_mem]
    exact Memory.published_header hwf ..
  · rw [State.modPorter_mem]
    exact Memory.published_outside hwf _ _ _ _ (by rwa [hrowlen])
  · rw [State.modPorter, State.ring_setPorter, State.ring_withPads, hring]
    exact Ring.slot_setSlot_same _ _ (by decide)
  · rw [State.modPorter, State.ring_setPorter, State.ring_withPads, hring]
    exact if_pos hnext
  · rw [State.porter_modPorter, State.porter_withPads, hporter]
    simp only [hcur]
  · unfold State.onlyUnits at hframe
    rw [State.modPorter, State.setPorter_frame]
    generalize State.hamlets (State.setPorter _ p _) = hs
    generalize State.parishes (State.setPorter _ p _) = ps
    rw [hframe]
    rfl

end

/-! ## The descriptor window (R121, R215) -/

section
variable {s : State} {p : PorterRef}

/-- A store to DESC_WIN7 of a Porter with room appends the window, which one agent assembled. -/
theorem porterDescWinPush_appends (v : Word64) (hroom : (s.porter p).queue.length < 8) (hsole : (s.porter p).winBy.all (· == .reeve) = true) :
    ∃ t, exec (.porterDescWinPush p v) s = .next t ∧ t = { s with hamlets := t.hamlets, parishes := t.parishes } ∧
      t.porter p = { s.porter p with
        win := (s.porter p).win.set 7 v, winBy := []
        queue := (s.porter p).queue ++
          [⟨ofLanes 64 ((List.range 8).map fun i => if i = 7 then v.toNat else ((s.porter p).win.get 0 i).toNat), none, true⟩] } := by
  refine ⟨_, rfl, ?_⟩
  unfold State.pushPorterWin
  simp only [State.winDesc_sole s hsole, Nat.not_le.2 hroom, if_false]
  exact ⟨State.setPorter_frame .., State.porter_setPorter ..⟩

/-- A store to DESC_WIN7 of a full Porter is discarded. -/
theorem porterDescWinPush_drops (v : Word64) (hfull : 8 ≤ (s.porter p).queue.length) :
    ∃ t, exec (.porterDescWinPush p v) s = .next t ∧
      t = { s with hamlets := t.hamlets, parishes := t.parishes, freeCtr := t.freeCtr } ∧
      t.porter p = { s.porter p with win := (s.porter p).win.set 7 v, winBy := [] } := by
  refine ⟨_, rfl, ?_⟩
  obtain ⟨n, hfree⟩ := s.winDesc_free ((s.porter p).win.set 7 v) (s.porter p).winBy .reeve
  unfold State.pushPorterWin
  simp only [hfree, hfull, if_true]
  refine ⟨?_, State.porter_setPorter ..⟩
  rw [State.setPorter_frame]

/-! ## Completion (R220, R317) -/

theorem State.porter_modHand (s : State) (h : HandRef) (f : Hand → Hand) (p : PorterRef) : (s.modHand h f).porter p = s.porter p := by
  cases p with
  | hamlet d k n =>
    unfold State.porter
    simp only [State.modHand_hamlet_porters]
  | parish d k n => rfl

/-- The Bell adds on their way with that of a descriptor, where it asks for one, to the counter that a ring reference names. -/
def State.bellsWith (s : State) (p : PorterRef) (d : Vec) (r : RingRef) : List BellAdd :=
  if d.getLsbD 14 then s.bellFlight ++ [⟨.porter p, (ringSlot r, r.idx % 64), BitVec.ofNat 32 (fieldOf d 464 16)⟩] else s.bellFlight

/-- The Bell add of a descriptor, not of the value 0, sets out for the counter of the job that it names. -/
theorem State.porterBell_eq {e : PorterDesc} {k : Nat} {j : Job} {r : RingRef} (hjob : s.porterJob p e = some (k, j))
    (href : s.refKind j (fieldOf e.desc 448 13) = .job r) (hamount : e.desc.getLsbD 14 = true → fieldOf e.desc 464 16 ≠ 0) :
    s.porterBell p e = { s with bellFlight := s.bellsWith p e.desc r } := by
  unfold State.porterBell State.bellsWith
  split
  next hbell =>
    rw [hjob]
    simp only [State.bellAmount, hamount hbell, if_false, State.sendBell, href, State.castBell]
  next => rfl

/-- A completed descriptor raises the Porter event at its Hand where it asks for it. -/
theorem State.porterEvent_issuer {e : PorterDesc} {h : HandRef} (hissuer : e.issuer = some h) :
    s.porterEvent e = s.modHand h fun x => { x with evPend := x.evPend ||| 16 } := by
  unfold State.porterEvent
  rw [hissuer]
  rfl

/-- A Porter at work, of a state whose units and Bell adds alone differ from those of another. -/
theorem State.porterBusy_units {t : State} {flight : List BellAdd}
    (ht : t = { s with hamlets := t.hamlets, parishes := t.parishes, bellFlight := flight }) (p : PorterRef) :
    t.porterBusy p = { s.stir with
      hamlets := (t.porterBusy p).hamlets, parishes := (t.porterBusy p).parishes, bellFlight := flight } := by
  have hstir : t.stir = { s.stir with hamlets := t.hamlets, parishes := t.parishes, bellFlight := flight } :=
    (congrArg State.stir ht).trans (s.stir_with t.hamlets t.parishes flight)
  rw [State.porterBusy_frame, hstir]

/-- The Porter has completed its descriptor, with these Bell adds on their way. -/
def State.porterEnds (s : State) (p : PorterRef) (flight : List BellAdd) : State :=
  State.modPorter { s with bellFlight := flight } p fun x => { x with run := none, done := x.done + 1 }

theorem State.porter_porterEnds (flight : List BellAdd) :
    (s.porterEnds p flight).porter p = { s.porter p with run := none, done := (s.porter p).done + 1 } := State.porter_modPorter ..

theorem State.hand_porterEnds (flight : List BellAdd) (h : HandRef) : (s.porterEnds p flight).hand h = s.hand h := State.hand_modPorter ..

theorem State.porterEnds_frame (flight : List BellAdd) : s.porterEnds p flight = { s with
    hamlets := (s.porterEnds p flight).hamlets, parishes := (s.porterEnds p flight).parishes, bellFlight := flight } := State.setPorter_frame ..

section
variable {y : PorterRun} {h : HandRef} {k : Nat} {j : Job} {r : RingRef} (hrun : (s.porter p).run = some y)
  (hanswered : s.openReqs (porterDie p) (writesFor p) = false) (hissuer : y.desc.issuer = some h) (hjob : s.jobAt (handSlot h) = some (k, j))
  (href : s.refKind j (fieldOf y.desc.desc 448 13) = .job r) (hamount : y.desc.desc.getLsbD 14 = true → fieldOf y.desc.desc 464 16 ≠ 0)
include hrun hanswered hissuer hjob href hamount

/-- What a Porter does whose descriptor is done and whose writes are answered. -/
theorem exec_porterComplete :
    exec (.porterComplete p) s = .next ((if y.desc.desc.getLsbD 15 || y.poisoned then
        (s.porterEnds p (s.bellsWith p y.desc.desc r)).modHand h fun x => { x with evPend := x.evPend ||| 16 }
      else s.porterEnds p (s.bellsWith p y.desc.desc r)).porterBusy p) := by
  have hjob' : s.porterJob p y.desc = some (k, j) := by
    simp only [State.porterJob, State.jobOfPorter, hissuer, hjob]
  have hexec : exec (.porterComplete p) s = execPorterComplete p s := rfl
  rw [hexec, execPorterComplete, hrun]
  simp only [hanswered, Bool.false_eq_true, if_false, State.porterBell_eq hjob' href hamount, State.porterEvent_issuer hissuer]
  rfl

/-- A Porter that finishes its descriptor. -/
theorem porterComplete_ends :
    ∃ t, exec (.porterComplete p) s = .next t ∧ t.porter p = { s.porter p with run := none, done := (s.porter p).done + 1 } ∧
      (t.hand h).evPend = (if y.desc.desc.getLsbD 15 || y.poisoned then (s.hand h).evPend ||| 16 else (s.hand h).evPend) ∧
      t = { s.stir with
        hamlets := t.hamlets, parishes := t.parishes, bellFlight := s.bellsWith p y.desc.desc r } := by
  refine ⟨_, exec_porterComplete hrun hanswered hissuer hjob href hamount, ?_⟩
  generalize s.bellsWith p y.desc.desc r = flight
  have hframe := s.porterEnds_frame (p := p) flight
  have hporter := s.porter_porterEnds (p := p) flight
  have hhand := s.hand_porterEnds (p := p) flight h
  generalize s.porterEnds p flight = u at hporter hhand hframe ⊢
  rw [State.porter_porterBusy, State.hand_porterBusy]
  split
  next =>
    refine ⟨(State.porter_modHand ..).trans hporter, ?_, State.porterBusy_units ?_ p⟩
    · rw [State.hand_modHand, hhand]
    · rw [hframe]
      rfl
  next => exact ⟨hporter, congrArg Hand.evPend hhand, State.porterBusy_units hframe p⟩

end

/-! ## PORTER_STICKY (R221) -/

/-- Bits written 1 clear. -/
theorem porterHaltedClear_clears {v : Word64} (hv : v &&& porterReserved 0x088 = 0) :
    exec (.porterHaltedClear p v) s = .next (s.modPorter p fun x => x.clearSticky v) := by
  show execPorterHaltedClear p v s = _
  rw [execPorterHaltedClear, State.regValue_clean s hv]

/-! ## A descriptor that is refused (R219, R221) -/

/-- A descriptor of firmware that stops with the first error of its Porter, in its first row. -/
theorem State.porterStop_first {e : PorterDesc} {rest : List PorterDesc} (kind : PorterErr) (hrun : (s.porter p).run = none)
    (hcur : (s.porter p).cur = none) (hissuer : e.issuer = none) (hfirst : (s.porter p).errCause = 0) :
    s.stir.onlyUnits ((s.porterTakes p rest).porterStop p e kind 0) ∧
      ((s.porterTakes p rest).porterStop p e kind 0).porter p = { s.porter p with
        queue := rest, sticky := (s.porter p).sticky.note kind, halted := true, errTile := descTile e.desc, errRow := 0, errCause := kind.code } := by
  unfold State.porterStop State.porterEvent
  rw [hissuer]
  refine ⟨(s.porterTakes_onlyUnits p rest).setPorter p _, ?_⟩
  rw [State.porter_modPorter, State.porter_porterTakes]
  simp [Porter.note, hfirst, hrun, hcur]

/-- A descriptor that Table 7.10 refuses, or a REDUCE into a ring, stops as it is taken up. -/
theorem porterCommand_refuses {e : PorterDesc} {rest : List PorterDesc} {c : Instr} {x : PorterSticky} (hruns : s.porterRuns p = true)
    (hrun : (s.porter p).run = none) (hcur : (s.porter p).cur = none) (hhalt : (s.porter p).halted = false)
    (hqueue : (s.porter p).queue = e :: rest) (hissuer : e.issuer = none) (hfirst : (s.porter p).errCause = 0)
    (hcase : (porterDescValid e.desc = false ∧ c = porterCommand p (descType e.desc) ∧ x = { (s.porter p).sticky with badDesc := true }) ∨
      (porterDescValid e.desc = true ∧ porterRowsValid e.desc = true ∧ descType e.desc = 4 ∧ dstRing e.desc = true ∧ c = .reduce p ∧
        x = { (s.porter p).sticky with badDst := true })) :
    ∃ t, exec c s = .next t ∧ t = { s.stir with hamlets := t.hamlets, parishes := t.parishes } ∧
      t.porter p = { s.porter p with
        queue := rest, sticky := x, halted := true, errTile := descTile e.desc, errRow := 0
        errCause := if porterDescValid e.desc then 3 else 1 } := by
  have hstart := porterCommand_starts hruns hrun hcur hhalt hqueue
  rcases hcase with ⟨hvalid, rfl, rfl⟩ | ⟨hvalid, hrows, hty, hdst, rfl, rfl⟩
  · obtain ⟨hframe, hporter⟩ := State.porterStop_first (e := e) (rest := rest) .badDesc hrun hcur hissuer hfirst
    refine ⟨_, hstart.trans ?_, hframe, ?_⟩
    · unfold State.porterStart
      simp only [hvalid, Bool.not_false, if_true]
      rfl
    · rw [hporter, hvalid]
      rfl
  · obtain ⟨hframe, hporter⟩ := State.porterStop_first (e := e) (rest := rest) .badDst hrun hcur hissuer hfirst
    rw [hty] at hstart
    refine ⟨_, hstart.trans ?_, hframe, ?_⟩
    · unfold State.porterStart
      simp only [hvalid, hrows, hty, hdst, Bool.not_true, Bool.false_eq_true, if_false, and_self, if_true]
      rfl
    · rw [hporter, hvalid]
      rfl

end

/-- Settles O29: COPYs at rings (`copy_fromRing`, `copy_toRing`), the window, completion, PORTER_STICKY and refused descriptors. -/
theorem porterRingsQueueAndErrors : Obligations.PorterRingsQueueAndErrors := by
  unfold Obligations.PorterRingsQueueAndErrors
  refine ⟨fun s p e rest who k i n a j r hruns hwf hrun hcur hhalt hqueue hvalid hty hn hsome hcount hwho hjob => ?_, fun s p => ?_⟩
  · subst hwho
    subst hn
    have hpos : 0 < rowLen e.desc := Nat.pos_of_ne_zero hsome
    refine ⟨fun hsrc hdst href hoff hpoison hlen hres hlpddr hblock hkv => ?_,
      fun off hsrc hdst href hacc hoff hfit hopen hlen hfmt hres hlpddr hblock hpoison hkv => ?_⟩
    · exact copy_fromRing hruns hwf hrun hcur hhalt hqueue hvalid hty hsome hcount hjob hsrc hdst href hoff hpoison hlen
        ⟨hres, hlpddr, hpos, hblock, nofun, hkv⟩
    · exact copy_toRing hruns hwf hrun hcur hhalt hqueue hvalid hty hsome hcount hjob rfl hsrc hdst href hacc hoff hfit hopen hlen hfmt
        ⟨hres, hlpddr, hpos, hblock, fun _ => hpoison, hkv⟩
  · refine ⟨fun v => ⟨porterDescWinPush_appends v, porterDescWinPush_drops v⟩,
      fun y h k j r hrun hanswered hissuer hjob href hamount => porterComplete_ends hrun hanswered hissuer hjob href hamount, fun v hv => ?_,
      fun e rest c x hruns hrun hcur hhalt hqueue hissuer hfirst hcase =>
        porterCommand_refuses hruns hrun hcur hhalt hqueue hissuer hfirst hcase⟩
    exact ⟨_, _, porterHaltedClear_clears hv, State.setPorter_frame .., rfl, State.porter_modPorter ..⟩

end Sys2Proof.Machine
end

