-- ==== Sys2Proof/Proofs/HandScalars.lean ====
section
/-! The scalar instructions of a Hand (R134 to R137): each retires its Hand with its result, and division completes on every operand. -/

namespace Sys2Proof.Machine

/-! ## A retired instruction, read at the state it meets -/

/-- A command that retires its Hand does what the retired function makes of the Hand in this state. -/
theorem State.handDoes_of_retire {s : State} {c : Instr} {h : HandRef} {f g : Hand → Hand} (e : exec c s = .next (s.retire h f))
    (hfg : f (s.hand h) = g (s.hand h)) : s.handDoes c h g :=
  ⟨_, e, (State.hand_retire ..).trans hfg, State.retire_onlyHand ..⟩

section
variable {s : State} {h : HandRef}

/-! ## What each scalar instruction answers -/

theorem exec_int {fn a b d : Nat} (hop : s.handOp h = some (.int fn a b d)) :
    exec (.int h) s = .next (s.retire h fun x => (x.setS d (intResult fn (x.s a) (x.s b))).advance) := by
  show execInt h s = _
  simp only [execInt, hop]

theorem exec_div {fn a b d : Nat} (hop : s.handOp h = some (.div fn a b d)) :
    exec (.div h) s = .next (s.retire h fun x => (x.setS d (divResult fn (x.s a) (x.s b))).advance) := by
  show execDiv h s = _
  simp only [execDiv, hop]

theorem exec_addi {op a d : Nat} {imm : Word64} (hop : s.handOp h = some (.addi op a d imm)) :
    exec (.addi h) s = .next (s.retire h fun x => (x.setS d (intResult (immFn op) (x.s a) imm)).advance) := by
  show execAddi h s = _
  simp only [execAddi, hop]

theorem exec_shi {kind amt a d : Nat} (hop : s.handOp h = some (.shi kind amt a d)) :
    exec (.shi h) s = .next (s.retire h fun x => (x.setS d (shiftResult kind amt (x.s a))).advance) := by
  show execShi h s = _
  simp only [execShi, hop]

theorem exec_lui {d : Nat} {imm : Word64} (hop : s.handOp h = some (.lui d imm)) :
    exec (.lui h) s = .next (s.retire h fun x => (x.setS d (imm <<< 12)).advance) := by
  show execLui h s = _
  simp only [execLui, hop]

theorem exec_luih {d : Nat} {imm : Word64} (hop : s.handOp h = some (.luih d imm)) :
    exec (.luih h) s = .next (s.retire h fun x => (x.setS d (((x.s d).setWidth 32).setWidth 64 + imm <<< 32)).advance) := by
  show execLuih h s = _
  simp only [execLuih, hop]

theorem exec_br {cond a b : Nat} {off : Word64} (hop : s.handOp h = some (.br cond a b off)) :
    exec (.br h) s =
      .next (s.retire h fun x => if condHolds cond (x.s a) (x.s b) then x.goto (x.pc + 4 * off) else x.advance) := by
  show execBr h s = _
  simp only [execBr, hop]

theorem exec_pbr {cond p : Nat} {off : Word64} (hop : s.handOp h = some (.pbr cond p off)) :
    exec (.pbr h) s = .next (s.retire h fun x => if (x.p p != 0) == (cond == 0) then x.goto (x.pc + 4 * off) else x.advance) := by
  show execPbr h s = _
  simp only [execPbr, hop]

theorem exec_jal {d : Nat} {off : Word64} (hop : s.handOp h = some (.jal d off)) :
    exec (.jal h) s = .next (s.retire h fun x => (x.setS d (x.pc + 4)).goto (x.pc + 4 * off)) := by
  show execJal h s = _
  simp only [execJal, hop]

theorem exec_jalr {d a : Nat} {imm : Word64} (hop : s.handOp h = some (.jalr d a imm)) :
    exec (.jalr h) s = .next (s.retire h fun x => (x.setS d (x.pc + 4)).goto ((x.s a + imm) &&& ~~~3#64)) := by
  show execJalr h s = _
  simp only [execJalr, hop]

end

/-! ## Division (R136) -/

/-- The quotient by zero is all ones. -/
theorem divResult_quotient_zero {fn : Nat} (hfn : fn = 0x14 ∨ fn = 0x15) (x : Word64) : divResult fn x 0 = BitVec.allOnes 64 := by
  rcases hfn with rfl | rfl <;> rfl

/-- The remainder by zero is the dividend. -/
theorem divResult_remainder_zero {fn : Nat} (hfn : fn = 0x16 ∨ fn = 0x17) (x : Word64) : divResult fn x 0 = x := by
  rcases hfn with rfl | rfl <;> rfl

/-- The one signed quotient that does not fit wraps to the dividend, with remainder 0. -/
theorem divResult_overflow :
    divResult 0x14 (BitVec.intMin 64) (BitVec.allOnes 64) = BitVec.intMin 64 ∧ divResult 0x16 (BitVec.intMin 64) (BitVec.allOnes 64) = 0 := by
  decide

/-- What DIV does where its result is known. -/
theorem handDoes_div {s : State} {h : HandRef} {fn a b d : Nat} {r : Hand → Word64} (hop : s.handOp h = some (.div fn a b d))
    (hr : divResult fn ((s.hand h).s a) ((s.hand h).s b) = r (s.hand h)) : s.handDoes (.div h) h fun x => (x.setS d (r x)).advance :=
  State.handDoes_of_retire (exec_div hop) (by rw [hr])

/-- Settles O1: each instruction retires its Hand with its result. -/
theorem handIntegerInstructions : Obligations.HandIntegerInstructions := by
  unfold Obligations.HandIntegerInstructions
  intro s h
  refine ⟨fun fn a b d hop => ?int, fun fn a b d hop => ?div, fun op a d imm hop => ?addi, fun kind amt a d hop => ?shi,
    fun d imm hop => ?lui, fun d imm hop => ?luih⟩
  case int => exact State.handDoes_retire (exec_int hop)
  case div => exact State.handDoes_retire (exec_div hop)
  case addi => exact State.handDoes_retire (exec_addi hop)
  case shi => exact State.handDoes_retire (exec_shi hop)
  case lui => exact State.handDoes_retire (exec_lui hop)
  case luih => exact State.handDoes_retire (exec_luih hop)

/-- Settles O2: the result of a division by zero and of the overflow is `divResult`'s, and DIV completes with it. -/
theorem divisionNeverTraps : Obligations.DivisionNeverTraps := by
  unfold Obligations.DivisionNeverTraps
  intro s h fn a b d hop
  refine ⟨fun hzero hfn => ?quotient, fun hzero hfn => ?remainder, fun hmin hones hfn => ?wraps, fun hmin hones hfn => ?exact⟩
  case quotient => exact handDoes_div (r := fun _ => BitVec.allOnes 64) hop (by rw [hzero, divResult_quotient_zero hfn])
  case remainder => exact handDoes_div (r := fun x => x.s a) hop (by rw [hzero, divResult_remainder_zero hfn])
  case wraps => exact handDoes_div (r := fun _ => BitVec.intMin 64) hop (by rw [hmin, hones, hfn, divResult_overflow.1])
  case exact => exact handDoes_div (r := fun _ => 0) hop (by rw [hmin, hones, hfn, divResult_overflow.2])

/-- The test of PBR, as Table 5.2 says it: ANY (0) asks for a set bit, NONE for no set bit. -/
theorem pbrTest_iff (cond : Nat) (p : Word64) : ((p != 0) == (cond == 0)) = true ↔ (cond = 0 ↔ p ≠ 0) := by
  rw [beq_iff_eq, Bool.eq_iff_iff, bne_iff_ne, beq_iff_eq]
  exact Iff.comm

/-- Settles O3: a branch is taken exactly where its test holds, and a jump goes where `exec_jal` and `exec_jalr` say. -/
theorem handControlFlow : Obligations.HandControlFlow := by
  unfold Obligations.HandControlFlow
  intro s h
  refine ⟨fun cond a b off hop => ⟨fun htaken => ?_, fun hnot => ?_⟩, fun cond p off hop => ⟨fun htaken => ?_, fun hnot => ?_⟩,
    fun d off hop => State.handDoes_retire (exec_jal hop), fun d a imm hop => State.handDoes_retire (exec_jalr hop)⟩
  · exact State.handDoes_of_retire (exec_br hop) (if_pos htaken)
  · exact State.handDoes_of_retire (exec_br hop) (if_neg (by simp [hnot]))
  · exact State.handDoes_of_retire (exec_pbr hop) (if_pos ((pbrTest_iff ..).2 htaken))
  · exact State.handDoes_of_retire (exec_pbr hop) (if_neg fun ht => hnot ((pbrTest_iff ..).1 ht))

end Sys2Proof.Machine
end

