-- ==== Sys2Proof/Proofs/HandControls.lean ====
section
/-! Predicates, control registers, lots, Tally registers, system instructions and exceptions of a Hand (R134, R146, R149, R153 to R155, R268). -/

namespace Sys2Proof.Machine

/-! ## Control registers (R155) -/

/-- Where no RSVD bit of s[A] is set, every CSR access keeps the RSVD fields. -/
theorem csrBreaks_eq_false {num op : Nat} {v : Word64} (h : v &&& csrReserved num = 0) : csrBreaks num op v = false := by
  simp [csrBreaks, h]

/-- HSCRATCH (0x00D) is written, set and cleared as a RW register. -/
theorem Hand.scratch_csrWrite (x : Hand) (op : Nat) (old v : Word64) :
    (op = 0 → (x.csrWrite 0xd op old v).scratch = x.scratch) ∧ (op = 1 → (x.csrWrite 0xd op old v).scratch = v) ∧
      (op = 2 → (x.csrWrite 0xd op old v).scratch = old ||| v) ∧ (op = 3 → (x.csrWrite 0xd op old v).scratch = old &&& ~~~v) := by
  refine ⟨?_, ?_, ?_, ?_⟩
  all_goals
    rintro rfl
    rfl

/-- HEVPEND (0x007) is W1C: OP 1 and OP 3 clear the bits that are 1 in the operand, OP 2 leaves it. -/
theorem Hand.evPend_csrWrite (x : Hand) (op : Nat) (old v : Word64) :
    (op = 0 ∨ op = 2 → (x.csrWrite 0x7 op old v).evPend = x.evPend) ∧
      (op = 1 ∨ op = 3 → (x.csrWrite 0x7 op old v).evPend = x.evPend &&& ~~~(v.setWidth 6)) := by
  constructor
  · rintro (rfl | rfl) <;> rfl
  · rintro (rfl | rfl) <;> rfl

/-- A write of a scalar register leaves the control registers. -/
theorem Hand.setS_eq (x : Hand) (n : Nat) (v : Word64) : ∃ t, x.setS n v = { x with sregs := t } := by
  unfold Hand.setS
  split
  · exact ⟨x.sregs, rfl⟩
  · exact ⟨_, rfl⟩

@[simp] theorem Hand.setS_scratch (x : Hand) (n : Nat) (v : Word64) : (x.setS n v).scratch = x.scratch := by
  obtain ⟨t, ht⟩ := x.setS_eq n v
  rw [ht]

@[simp] theorem Hand.setS_evPend (x : Hand) (n : Nat) (v : Word64) : (x.setS n v).evPend = x.evPend := by
  obtain ⟨t, ht⟩ := x.setS_eq n v
  rw [ht]

section
variable {s : State} {h : HandRef}

/-! ## What each instruction answers -/

theorem exec_pr {fn b a d : Nat} (hop : s.handOp h = some (.pr fn b a d)) :
    exec (.pr h) s = .next (s.retire h fun x => (prResult fn b a d x).advance) := by
  show execPr h s = _
  simp only [execPr, hop]

/-- A CSR access that sets no RSVD field. -/
theorem exec_csr {num op a d : Nat} (hop : s.handOp h = some (.csr num op a d)) (hkeeps : csrBreaks num op ((s.hand h).s a) = false) :
    exec (.csr h) s =
      .next (s.retire h fun x => ((x.csrWrite num op (csrRead s h num) ((s.hand h).s a)).setS d (csrRead s h num)).advance) := by
  show execCsr h s = _
  simp only [execCsr, hop, hkeeps, Bool.false_eq_true, if_false]

/-- LOT with a stream that is not the firmware's. -/
theorem exec_lot {a b d : Nat} (hop : s.handOp h = some (.lot a b d)) (hstream : firmwareStream (fieldOf ((s.hand h).s b) 32 32) = false) :
    exec (.lot h) s = .next (s.retire h fun x => (lotResult s.settings.lotSeed a b d x).advance) := by
  show execLot h s = _
  simp only [execLot, hop, hstream, Bool.false_eq_true, if_false]

theorem exec_trd {a d : Nat} (hop : s.handOp h = some (.trd a d)) :
    exec (.trd h) s = .next (s.retire h fun x => (x.setS d (s.tally (tallyFor h (x.s a))).value).advance) := by
  show execTrd h s = _
  simp only [execTrd, hop]

theorem exec_hfence (hop : s.handOp h = some .hfence) : exec (.hfence h) s = .next (s.retire h Hand.advance) := by
  show execHfence h s = _
  simp only [execHfence, hop]

theorem exec_twr {a b : Nat} (hop : s.handOp h = some (.twr a b)) :
    exec (.twr h) s =
      .next ((s.modTally (tallyFor h ((s.hand h).s a)) fun y => { y with value := (s.hand h).s b }).retire h Hand.advance) := by
  show execTwr h s = _
  simp only [execTwr, hop]

theorem exec_wait (hop : s.handOp h = some .wait) :
    exec (.wait h) s = .next (s.retire h fun x => if x.eventEnabled then x.advance else { x with wait := .sleep }) := by
  show execWait h s = _
  simp only [execWait, hop]

theorem exec_eret (hop : s.handOp h = some .eret) : exec (.eret h) s = .next (s.retire h Hand.eret) := by
  show execEret h s = _
  simp only [execEret, hop]

theorem exec_halt (hop : s.handOp h = some .halt) : exec (.halt h) s = .next (s.retire h fun x => { x with mode := .halted }) := by
  show execHalt h s = _
  simp only [execHalt, hop]

theorem exec_trap {code : Nat} (hop : s.handOp h = some (.trap code)) :
    exec (.trap h) s = .next (s.except h .trap (BitVec.ofNat 64 code)) := by
  show execTrap h s = _
  simp only [execTrap, hop]

theorem exec_illegal (hop : s.handOp h = some .illegal) :
    exec (.illegal h) s = .next (s.except h .illegal ((s.hand h).word.setWidth 64)) := by
  show execIllegal h s = _
  simp only [execIllegal, hop]

/-- What an access to HSCRATCH leaves in it and in s[D]. -/
theorem csr_scratch {op a d : Nat} (hd : d ≠ 0) (hop : s.handOp h = some (.csr 0xd op a d)) :
    ∃ t, exec (.csr h) s = .next t ∧
      ((s.hand h).setS d (s.hand h).scratch).pc = (s.hand h).pc ∧ (t.hand h).s d = (s.hand h).scratch ∧
      (op = 0 → (t.hand h).scratch = (s.hand h).scratch) ∧ (op = 1 → (t.hand h).scratch = (s.hand h).s a) ∧
      (op = 2 → (t.hand h).scratch = (s.hand h).scratch ||| (s.hand h).s a) ∧
      (op = 3 → (t.hand h).scratch = (s.hand h).scratch &&& ~~~(s.hand h).s a) := by
  refine ⟨_, exec_csr hop (csrBreaks_eq_false (BitVec.and_zero ..)), Hand.setS_pc .., ?_⟩
  rw [State.hand_retire, Hand.advance_s, Hand.advance_scratch, Hand.setS_scratch]
  exact ⟨Hand.s_setS _ hd, Hand.scratch_csrWrite ..⟩

/-- What an access to HEVPEND leaves in it and in s[D]. -/
theorem csr_evPend {op a d : Nat} (hd : d ≠ 0) (hop : s.handOp h = some (.csr 0x7 op a d)) (hfree : (s.hand h).s a &&& csrReserved 0x7 = 0) :
    ∃ t, exec (.csr h) s = .next t ∧ (t.hand h).s d = (s.hand h).evPend.setWidth 64 ∧
      (op = 0 ∨ op = 2 → (t.hand h).evPend = (s.hand h).evPend) ∧
      (op = 1 ∨ op = 3 → (t.hand h).evPend = (s.hand h).evPend &&& ~~~((s.hand h).s a).setWidth 6) := by
  refine ⟨_, exec_csr hop (csrBreaks_eq_false hfree), ?_⟩
  rw [State.hand_retire, Hand.advance_s, Hand.advance_evPend, Hand.setS_evPend]
  exact ⟨Hand.s_setS _ hd, Hand.evPend_csrWrite ..⟩

/-- A command that changes a Tally unit of a Hand's hamlet and retires the Hand: what it leaves (R151, R268). -/
theorem modTally_retire_effect (s : State) (h : HandRef) (v : Word64) (g : Tally → Tally) (f : Hand → Hand) :
    ((s.modTally (tallyFor h v) g).retire h f).hand h = f (s.hand h) ∧
      ((s.modTally (tallyFor h v) g).retire h f).tally (tallyFor h v) = g (s.tally (tallyFor h v)) ∧
      s.onlyHamlets ((s.modTally (tallyFor h v) g).retire h f) :=
  ⟨by rw [State.hand_retire, State.hand_modTally], by rw [State.tally_retire, State.tally_modTally], rfl⟩

end

/-- Settles O4: each instruction retires its Hand with its result, TWR after it has written its Tally unit; the two registers by `csr_scratch` and
`csr_evPend`. -/
theorem handPredicateControlAndUnitRegisters : Obligations.HandPredicateControlAndUnitRegisters := by
  unfold Obligations.HandPredicateControlAndUnitRegisters
  refine ⟨fun s h => ⟨fun fn b a d hop => ?pr, fun num op a d hop hkeeps => ?csr, fun a b d hop hstream => ?lot, fun a d hop => ?trd,
    fun hop => ?hfence, fun a b hop => ?twr⟩, fun s h op a d hd => ⟨csr_scratch hd, csr_evPend hd⟩⟩
  case pr => exact State.handDoes_retire (exec_pr hop)
  case csr => exact State.handDoes_of_retire (exec_csr hop hkeeps) rfl
  case lot => exact State.handDoes_retire (exec_lot hop hstream)
  case trd => exact State.handDoes_retire (exec_trd hop)
  case hfence => exact State.handDoes_retire (exec_hfence hop)
  case twr => exact ⟨_, exec_twr hop, modTally_retire_effect ..⟩

/-- Settles O7: each instruction retires its Hand with its effect, and `Hand.exception` is that of TRAP and of an illegal word. -/
theorem handSystemInstructions : Obligations.HandSystemInstructions := by
  unfold Obligations.HandSystemInstructions
  intro s h
  refine ⟨fun hop => ⟨fun hevent => ?goes, fun hevent => ?sleeps⟩, fun hop => ?eret, fun hop => ?halt, fun code hop => ?trap, fun hop => ?illegal⟩
  case goes => exact State.handDoes_of_retire (exec_wait hop) (if_pos hevent)
  case sleeps => exact State.handDoes_of_retire (exec_wait hop) (if_neg (by simp [hevent]))
  case eret => exact State.handDoes_retire (exec_eret hop)
  case halt => exact State.handDoes_retire (exec_halt hop)
  case trap => exact State.handDoes_retire (exec_trap hop)
  case illegal => exact State.handDoes_of_retire (exec_illegal hop) rfl

/-! ## Exceptions (R153) -/

/-- A handler address that is a multiple of 4 can be fetched from: HXVEC has 15 bits. -/
theorem pcValid_xvec {v : BitVec 15} (h4 : v.toNat % 4 = 0) : pcValid (v.setWidth 64) = true := by
  have hval : (v.setWidth 64).toNat = v.toNat := by
    rw [BitVec.toNat_setWidth]
    exact Nat.mod_eq_of_lt (by omega)
  simpa [pcValid, hval, h4] using v.isLt

/-- An exception with a handler enters it. -/
theorem Hand.exception_enters {x : Hand} (c : Cause) (v : Word64) (hvec : x.xvec ≠ 0) (hout : x.inHandler = false) (h4 : x.xvec.toNat % 4 = 0) :
    x.exception c v = { x.record c v with inHandler := true, pc := x.xvec.setWidth 64 } := by
  have hvalid := pcValid_xvec h4
  unfold Hand.exception
  simp only [hvec, hout, ne_eq, not_false_eq_true, and_self, if_true, hvalid]

/-- An exception without one, or in one, stops the Hand. -/
theorem Hand.exception_stops {x : Hand} (c : Cause) (v : Word64) (hnone : x.xvec = 0 ∨ x.inHandler = true) :
    x.exception c v = (x.record c v).stopFault :=
  if_neg fun ⟨hvec, hout⟩ => hnone.elim hvec (by simp [hout])

/-- Settles O8: `Hand.exception_enters` and `Hand.exception_stops`, whose records are HEPC, HCAUSE and HTVAL. -/
theorem exceptionEntersHandlerOrStops : Obligations.ExceptionEntersHandlerOrStops := by
  unfold Obligations.ExceptionEntersHandlerOrStops
  intro x c v
  refine ⟨fun hvec hout h4 => ?_, fun hnone => ?_⟩
  · rw [Hand.exception_enters c v hvec hout h4]
    exact ⟨rfl, rfl, rfl, rfl, rfl, rfl, rfl⟩
  · rw [Hand.exception_stops c v hnone]
    exact ⟨rfl, rfl, rfl, rfl, rfl, rfl, rfl, rfl⟩

end Sys2Proof.Machine
end

