-- ==== Sys2Proof/Proofs/HandVectors.lean ====
section
/-! The vector instructions of a Hand (R141 to R145) and their predication (R130). -/

namespace Sys2Proof.Machine

section
variable {s : State} {h : HandRef}

/-! ## What each vector instruction answers -/

theorem exec_vi {op ty p b a d : Nat} (hop : s.handOp h = some (.vi op ty p b a d)) :
    exec (.vi h) s = .next (s.retire h fun x => (viResult op ty p b a d x).advance) := by
  show execVi h s = _
  simp only [execVi, hop]

theorem exec_vf {op ty p b a d : Nat} (hop : s.handOp h = some (.vf op ty p b a d)) :
    exec (.vf h) s = .next (s.retire h fun x => (vfResult op ty p b a d x).advance) := by
  show execVf h s = _
  simp only [execVf, hop]

theorem exec_vx {op ty b a d : Nat} (hop : s.handOp h = some (.vx op ty b a d)) :
    exec (.vx h) s = .next (s.retire h fun x => (vxResult op ty b a d x).advance) := by
  show execVx h s = _
  simp only [execVx, hop]

theorem exec_vrsum {op ty a d : Nat} (hop : s.handOp h = some (.vrsum op ty a d)) :
    exec (.vrsum h) s = .next (s.retire h fun x => (vrsumResult op ty a d x).advance) := by
  show execVrsum h s = _
  simp only [execVrsum, hop]

theorem exec_vc {fn b a d : Nat} (hop : s.handOp h = some (.vc fn b a d)) :
    exec (.vc h) s = .next (s.retire h fun x => (vcResult fn b a d x).advance) := by
  show execVc h s = _
  simp only [execVc, hop]

theorem exec_tern {b a d : Nat} (hop : s.handOp h = some (.tern b a d)) :
    exec (.tern h) s = .next (s.retire h fun x => (ternResult b a d x).advance) := by
  show execTern h s = _
  simp only [execTern, hop]

theorem exec_packt {a d : Nat} (hop : s.handOp h = some (.packt a d)) :
    exec (.packt h) s = .next (s.retire h fun x => (packtResult a d x).advance) := by
  show execPackt h s = _
  simp only [execPackt, hop]

theorem exec_unpackt {a d : Nat} (hop : s.handOp h = some (.unpackt a d)) :
    exec (.unpackt h) s = .next (s.retire h fun x => (unpacktResult a d x).advance) := by
  show execUnpackt h s = _
  simp only [execUnpackt, hop]

end

/-- Settles O5: each instruction retires its Hand with its result. -/
theorem handVectorInstructions : Obligations.HandVectorInstructions := by
  unfold Obligations.HandVectorInstructions
  intro s h
  refine ⟨fun op ty p b a d hop => ?vi, fun op ty p b a d hop => ?vf, fun op ty b a d hop => ?vx, fun op ty a d hop => ?vrsum,
    fun fn b a d hop => ?vc, fun b a d hop => ?tern, fun a d hop => ?packt, fun a d hop => ?unpackt⟩
  case vi => exact State.handDoes_retire (exec_vi hop)
  case vf => exact State.handDoes_retire (exec_vf hop)
  case vx => exact State.handDoes_retire (exec_vx hop)
  case vrsum => exact State.handDoes_retire (exec_vrsum hop)
  case vc => exact State.handDoes_retire (exec_vc hop)
  case tern => exact State.handDoes_retire (exec_tern hop)
  case packt => exact State.handDoes_retire (exec_packt hop)
  case unpackt => exact State.handDoes_retire (exec_unpackt hop)

/-! ## Predication (R130) -/

/-- A VI operation other than a compare or VSEL merges its lanes under p[P]. -/
theorem v_viResult_merged {op : Nat} (hop : op ≤ 11) (ty p b a d : Nat) (x : Hand) :
    ∃ new, (viResult op ty p b a d x).v d = mergeLanes (laneWidth ty) (x.p p) (x.v d) new := by
  have h12 : op ≠ 12 := by omega
  have h13 : op ≠ 13 := by omega
  have h14 : op ≠ 14 := by omega
  simp only [viResult, h12, h13, h14, if_false, Hand.v_setV]
  exact ⟨_, rfl⟩

/-- So does a VF operation other than a compare; its sticky flags are no vector register. -/
theorem v_vfResult_merged {op : Nat} (hop : op ≤ 12) (ty p b a d : Nat) (x : Hand) :
    ∃ new, (vfResult op ty p b a d x).v d = mergeLanes (laneWidth ty) (x.p p) (x.v d) new := by
  have hcompare : ¬(op = 13 ∨ op = 14) := by omega
  simp only [vfResult, hcompare, if_false]
  exact ⟨_, Hand.v_setV ..⟩

/-- Of merged lanes, one whose predicate bit is 0 is the old one. -/
theorem lane_mergeLanes_kept {ty i : Nat} {p : Word64} (old : Vec) (new : List Nat) (hi : i < laneCount ty) (hp : p.getLsbD i = false) :
    lane (laneWidth ty) (mergeLanes (laneWidth ty) p old new) i = lane (laneWidth ty) old i := by
  rw [lane_mergeLanes _ _ _ _ _ hi, hp, if_neg Bool.false_ne_true]

/-- Settles O6: both results are merged lanes (`v_viResult_merged`, `v_vfResult_merged`), of which a lane that its predicate bit does not govern is
kept. -/
theorem predicatedLanesKeepTheirValue : Obligations.PredicatedLanesKeepTheirValue := by
  unfold Obligations.PredicatedLanesKeepTheirValue
  intro s h op ty p b a d i hi hp
  refine ⟨fun hop hle => ⟨_, exec_vi hop, ?_⟩, fun hop hle => ⟨_, exec_vf hop, ?_⟩⟩
  · obtain ⟨new, hnew⟩ := v_viResult_merged hle ty p b a d (s.hand h)
    rw [State.hand_retire, Hand.advance_v, hnew, lane_mergeLanes_kept _ _ hi hp]
  · obtain ⟨new, hnew⟩ := v_vfResult_merged hle ty p b a d (s.hand h)
    rw [State.hand_retire, Hand.advance_v, hnew, lane_mergeLanes_kept _ _ hi hp]

end Sys2Proof.Machine
end

