-- ==== Sys2Proof/Proofs/HandLocals.lean ====
section
/-! Local stores, the exceptions of local accesses, and IBLD (R132, R138, R164). -/

namespace Sys2Proof.Machine

@[simp] theorem length_toBytes (n v : Nat) : (toBytes n v).length = n := by
  induction n generalizing v with
  | zero => rfl
  | succ n ih => simp [toBytes, ih]

@[simp] theorem length_vecBytes (v : Vec) : (vecBytes v).length = 64 := length_toBytes ..

theorem length_take_vecBytes {v : Vec} {n : Nat} (h : n ≤ 64) : ((vecBytes v).take n).length = n := by
  rw [List.length_take, length_vecBytes, Nat.min_eq_left h]

theorem storeCount_eq_true {v : Word64} (h1 : 1 ≤ v.toNat) (h64 : v.toNat ≤ 64) : storeCount v = true := by
  simp [storeCount, h1, h64]

theorem storeCount_eq_false {v : Word64} (h : v.toNat = 0 ∨ 64 < v.toNat) : storeCount v = false := by
  simp only [storeCount, Bool.and_eq_false_iff, decide_eq_false_iff_not]
  omega

/-! ## The exception of a local access (R138) -/

section
variable {ea : Word64} {n align : Nat}

theorem localCause_outside (h : padBytes ≤ localOff ea) : localCause ea n align = some .access := if_pos h

theorem localCause_misaligned (hin : localOff ea < padBytes) (halign : ea.toNat % align ≠ 0) : localCause ea n align = some .align := by
  rw [localCause, if_neg (Nat.not_le.2 hin), if_pos halign]

theorem localCause_runsPast (hin : localOff ea < padBytes) (halign : ea.toNat % align = 0) (hpast : padBytes < localOff ea + n) :
    localCause ea n align = some .access := by
  rw [localCause, if_neg (Nat.not_le.2 hin), if_neg (by simp [halign]), if_pos hpast]

/-- An access without an exception lies in the scratchpad. -/
theorem localOff_fits (h : localCause ea n align = none) : localOff ea + n ≤ padBytes := by
  unfold localCause at h
  split at h
  · cases h
  · split at h
    · cases h
    · split at h
      · cases h
      · exact Nat.not_lt.1 ‹_›

end

section
variable {s : State} {h : HandRef}

/-! ## What each local store answers -/

theorem exec_localStore {op a d : Nat} {imm : Word64} (hop : s.handOp h = some (.localStore op a d imm)) :
    exec (.localStore h) s = s.localStore h ((s.hand h).s a + imm) (toBytes (2 ^ op) ((s.hand h).s d).toNat) (2 ^ op) := by
  show execLocalStore h s = _
  simp only [execLocalStore, hop]

theorem exec_vst {a d : Nat} {off : Word64} (hop : s.handOp h = some (.vst a d off)) :
    exec (.vst h) s = s.localStore h ((s.hand h).s a + off) (vecBytes ((s.hand h).v d)) 4 := by
  show execVst h s = _
  simp only [execVst, hop]

theorem exec_vstn {a b d : Nat} (hop : s.handOp h = some (.vstn a b d)) (hcount : storeCount ((s.hand h).s b) = true) :
    exec (.vstn h) s = s.localStore h ((s.hand h).s a) ((vecBytes ((s.hand h).v d)).take ((s.hand h).s b).toNat) 4 := by
  show execVstn h s = _
  simp only [execVstn, hop, hcount, if_true]

theorem exec_vstn_badCount {a b d : Nat} (hop : s.handOp h = some (.vstn a b d)) (hcount : storeCount ((s.hand h).s b) = false) :
    exec (.vstn h) s = .next (s.except h .illegal (s.wordOf h)) := by
  show execVstn h s = _
  simp only [execVstn, hop, hcount, Bool.false_eq_true, if_false]

theorem exec_gvstn_badCount {a b d : Nat} (hop : s.handOp h = some (.gvstn a b d)) (hcount : storeCount ((s.hand h).s b) = false) :
    exec (.gvstn h) s = .next (s.except h .illegal (s.wordOf h)) := by
  show execGvstn h s = _
  simp only [execGvstn, hop, hcount, Bool.false_eq_true, if_false]

/-- A command that raises an exception changes its Hand only. -/
theorem handDoes_except {c : Instr} {cause : Cause} {v : Word64} (e : exec c s = .next (s.except h cause v)) :
    s.handDoes c h fun x => x.exception cause v :=
  State.handDoes_retire e

/-! ## A local store that meets no exception -/

section
variable {ea : Word64} {data : List Byte} {align : Nat}

/-- A local store that meets no exception writes its bytes at its offset, which may clear poison there, and retires (R138). -/
theorem State.localStore_plain (hcause : localCause ea data.length align = none)
    (hfence : s.fenced (sramAddr (handSlot h) (localOff ea)) = false)
    (hraw : s.rawSlots (s.heldBy h) true (sramAddr (handSlot h) (localOff ea)) data.length = []) :
    ∃ q, s.localStore h ea data align =
      .next ({ s with mem := s.mem.writeBytes (sramAddr (handSlot h) (localOff ea)) data, sramPoison := q }.retire h Hand.advance) := by
  obtain ⟨q, hstore⟩ := s.store_sram (isSram_sramAddr (handSlot h) (localOff ea)) data
  refine ⟨q, ?_⟩
  simp only [State.localStore, hcause, State.localWrite_plain (localOff_fits hcause) hfence hraw, hstore]

/-- So it stores as R138 says. -/
theorem State.handStores_localStore {c : Instr} (hexec : exec c s = s.localStore h ea data align) (hwf : s.mem.wf = true)
    (hcause : localCause ea data.length align = none) (hfence : s.fenced (sramAddr (handSlot h) (localOff ea)) = false)
    (hraw : s.rawSlots (s.heldBy h) true (sramAddr (handSlot h) (localOff ea)) data.length = []) :
    s.handStores c h Hand.advance (sramAddr (handSlot h) (localOff ea)) data := by
  obtain ⟨q, hplain⟩ := State.localStore_plain hcause hfence hraw
  obtain ⟨hothers, hhand⟩ := State.retire_otherHands (s := s)
    (u := { s with mem := s.mem.writeBytes (sramAddr (handSlot h) (localOff ea)) data, sramPoison := q }) h Hand.advance rfl rfl
  exact ⟨_, hexec.trans hplain, hhand, hothers, State.memHas_write hwf rfl, rfl⟩

end

/-! ## A local access that meets one -/

section
variable {ea : Word64} {n align : Nat} {cause : Cause}

theorem State.localLoad_cause (f : List Byte → Hand → Hand) (hcause : localCause ea n align = some cause) :
    s.localLoad h ea n align f = .next (s.except h cause ea) := by
  simp only [State.localLoad, hcause]

theorem State.localStore_cause {data : List Byte} (hlen : data.length = n) (hcause : localCause ea n align = some cause) :
    s.localStore h ea data align = .next (s.except h cause ea) := by
  simp only [State.localStore, hlen, hcause]

/-- A load of poisoned data raises POISON before a register is written (R164). -/
theorem State.localLoad_poison (f : List Byte → Hand → Hand) (hcause : localCause ea n align = none)
    (hfence : s.fenced (sramAddr (handSlot h) (localOff ea)) = false)
    (hpoison : s.poisonedAt (sramAddr (handSlot h) (localOff ea)) n = true) :
    s.localLoad h ea n align f = .next (s.except h .poison ea) := by
  obtain ⟨b, t, hread⟩ := State.localRead_poison hfence hpoison
  simp only [State.localLoad, hcause, hread, if_true]

/-- Hand `h` issues `i`, a local load at `ea` of `n` bytes at an alignment. -/
def State.localLoads (s : State) (h : HandRef) (i : Instr) (ea : Word64) (n align : Nat) : Prop :=
  ∃ f, exec i s = s.localLoad h ea n align f

/-- Hand `h` issues `i`, a local store at `ea` of `n` bytes at an alignment. -/
def State.localStores (s : State) (h : HandRef) (i : Instr) (ea : Word64) (n align : Nat) : Prop :=
  ∃ data, data.length = n ∧ exec i s = s.localStore h ea data align

/-- A local access with an exception raises it with HTVAL = EA. -/
theorem handDoes_localCause {i : Instr} (hissues : s.localLoads h i ea n align ∨ s.localStores h i ea n align)
    (hcause : localCause ea n align = some cause) : s.handDoes i h fun x => x.exception cause ea := by
  rcases hissues with ⟨f, hload⟩ | ⟨data, hlen, hstore⟩
  · exact handDoes_except (hload.trans (State.localLoad_cause f hcause))
  · exact handDoes_except (hstore.trans (State.localStore_cause hlen hcause))

end

end

/-- Settles O10: each store is `State.localStore`, which writes its bytes (`State.handStores_localStore`); a bad count is refused before it. -/
theorem handLocalStores : Obligations.HandLocalStores := by
  unfold Obligations.HandLocalStores
  refine ⟨fun s h ea data align hwf hcause hfence hraw =>
    ⟨fun op a d imm hop hea hdata halign => ?scalar, fun a d off hop hea hdata halign => ?vector,
      fun a b d hop hea hpos hmax hdata halign => ?counted⟩, fun s h a b d hcount => ⟨fun hop => ?vstn, fun hop => ?gvstn⟩⟩
  case scalar =>
    subst hea hdata halign
    exact State.handStores_localStore (exec_localStore hop) hwf hcause hfence hraw
  case vector =>
    subst hea hdata halign
    exact State.handStores_localStore (exec_vst hop) hwf hcause hfence hraw
  case counted =>
    subst hea hdata halign
    exact State.handStores_localStore (exec_vstn hop (storeCount_eq_true hpos hmax)) hwf hcause hfence hraw
  case vstn => exact State.handDoes_of_retire (exec_vstn_badCount hop (storeCount_eq_false hcount)) rfl
  case gvstn => exact State.handDoes_of_retire (exec_gvstn_badCount hop (storeCount_eq_false hcount)) rfl

/-- Settles O11: the access is a local load or a local store, whose exception is `localCause` (`handDoes_localCause`); only a load meets poison. -/
theorem handLocalExceptions : Obligations.HandLocalExceptions := by
  unfold Obligations.HandLocalExceptions
  intro s h ea n align i hissue
  have hkind : s.localLoads h i ea n align ∨ (s.localStores h i ea n align ∧ ¬(i = .localLoad h ∨ i = .vld h)) := by
    rcases hissue with ⟨op, a, d, imm, hop, rfl, rfl, rfl, rfl⟩ | ⟨op, a, d, imm, hop, rfl, rfl, rfl, rfl⟩ | ⟨a, d, off, hop, rfl, rfl, rfl, rfl⟩ |
      ⟨a, d, off, hop, rfl, rfl, rfl, rfl⟩ | ⟨a, b, d, hop, rfl, rfl, hpos, hmax, rfl, rfl⟩
    · exact .inl ⟨_, exec_localLoad hop⟩
    · exact .inr ⟨⟨_, length_toBytes .., exec_localStore hop⟩, by simp⟩
    · exact .inl ⟨_, exec_vld hop⟩
    · exact .inr ⟨⟨_, length_vecBytes .., exec_vst hop⟩, by simp⟩
    · exact .inr ⟨⟨_, length_take_vecBytes hmax, exec_vstn hop (storeCount_eq_true hpos hmax)⟩, by simp⟩
  have hissues := hkind.imp_right And.left
  refine ⟨fun hout => handDoes_localCause hissues (localCause_outside hout),
    fun hin halign => handDoes_localCause hissues (localCause_misaligned hin halign),
    fun hin halign hpast => handDoes_localCause hissues (localCause_runsPast hin halign hpast), fun hload hcause hfence hpoison => ?_⟩
  rcases hkind with ⟨f, hexec⟩ | ⟨-, hstore⟩
  · exact handDoes_except (hexec.trans (State.localLoad_poison f hcause hfence hpoison))
  · exact absurd hload hstore

/-! ## IBLD (R132) -/

section
variable {s : State} {h : HandRef} {a b d : Nat}

theorem exec_ibld_odd {v : Word64} (hop : s.handOp h = some (.ibld a b d))
    (hodd : ibldOdd ((s.hand h).s a) ((s.hand h).s b) ((s.hand h).s d) = some v) :
    exec (.ibld h) s = .next (s.except h .align v) := by
  show execIbld h s = _
  simp only [execIbld, hop, hodd]

theorem exec_ibld_source (hop : s.handOp h = some (.ibld a b d)) (hodd : ibldOdd ((s.hand h).s a) ((s.hand h).s b) ((s.hand h).s d) = none)
    (hsrc : padBytes < ((s.hand h).s a).toNat + ((s.hand h).s d).toNat) :
    exec (.ibld h) s = .next (s.except h .access ((s.hand h).s a)) := by
  show execIbld h s = _
  simp only [execIbld, hop, hodd, hsrc, if_true]

theorem exec_ibld_destination (hop : s.handOp h = some (.ibld a b d)) (hodd : ibldOdd ((s.hand h).s a) ((s.hand h).s b) ((s.hand h).s d) = none)
    (hsrc : ((s.hand h).s a).toNat + ((s.hand h).s d).toNat ≤ padBytes) (hdst : 0x8000 < ((s.hand h).s b).toNat + ((s.hand h).s d).toNat) :
    exec (.ibld h) s = .next (s.except h .access ((s.hand h).s b)) := by
  show execIbld h s = _
  simp only [execIbld, hop, hodd, Nat.not_lt.2 hsrc, hdst, if_false, if_true]

/-- The Hand whose instruction buffer holds the words of some bytes from a place on. -/
def Hand.buffered (x : Hand) (dst : Word64) (l : List Byte) : Hand := { x with ibuf := putWords x.ibuf (dst.toNat / 4) (words 4 l) }

/-- A copy without an uncorrectable word. -/
theorem exec_ibld_copy (hop : s.handOp h = some (.ibld a b d)) (hodd : ibldOdd ((s.hand h).s a) ((s.hand h).s b) ((s.hand h).s d) = none)
    (hsrc : ((s.hand h).s a).toNat + ((s.hand h).s d).toNat ≤ padBytes) (hdst : ((s.hand h).s b).toNat + ((s.hand h).s d).toNat ≤ 0x8000)
    (hsound : s.firstPoison (sramAddr (handSlot h) 0 + ((s.hand h).s a).toNat) ((s.hand h).s d).toNat = none)
    (hfence : s.fenced (sramAddr (handSlot h) ((s.hand h).s a).toNat) = false)
    (hraw : s.rawSlots (s.heldBy h) false (sramAddr (handSlot h) ((s.hand h).s a).toNat) ((s.hand h).s d).toNat = []) :
    exec (.ibld h) s =
      .next ((s.modHand h fun x => x.buffered ((s.hand h).s b)
        (s.mem.readBytes (sramAddr (handSlot h) ((s.hand h).s a).toNat) ((s.hand h).s d).toNat)).retire h Hand.advance) := by
  show execIbld h s = _
  simp only [execIbld, hop, hodd, Nat.not_lt.2 hsrc, Nat.not_lt.2 hdst, if_false, hsound, State.localRead_plain hfence hraw]
  rfl

/-- A copy that an uncorrectable word stops. -/
theorem exec_ibld_poison {w n : Nat} (hop : s.handOp h = some (.ibld a b d))
    (hodd : ibldOdd ((s.hand h).s a) ((s.hand h).s b) ((s.hand h).s d) = none)
    (hsrc : ((s.hand h).s a).toNat + ((s.hand h).s d).toNat ≤ padBytes) (hdst : ((s.hand h).s b).toNat + ((s.hand h).s d).toNat ≤ 0x8000)
    (hpoison : s.firstPoison (sramAddr (handSlot h) 0 + ((s.hand h).s a).toNat) ((s.hand h).s d).toNat = some w)
    (hn : n = 8 * w - (sramAddr (handSlot h) 0 + ((s.hand h).s a).toNat))
    (hfence : s.fenced (sramAddr (handSlot h) ((s.hand h).s a).toNat) = false)
    (hraw : s.rawSlots (s.heldBy h) false (sramAddr (handSlot h) ((s.hand h).s a).toNat) n = []) :
    exec (.ibld h) s =
      .next ((s.modHand h fun x => x.buffered ((s.hand h).s b)
        (s.mem.readBytes (sramAddr (handSlot h) ((s.hand h).s a).toNat) n)).except h .poison
          (BitVec.ofNat 64 (8 * w - sramAddr (handSlot h) 0))) := by
  subst hn
  show execIbld h s = _
  simp only [execIbld, hop, hodd, Nat.not_lt.2 hsrc, Nat.not_lt.2 hdst, if_false, hpoison, State.localRead_plain hfence hraw]
  rfl

/-- A command that changes its Hand in two steps. -/
theorem handDoes_modHand_retire {c : Instr} {f g k : Hand → Hand} (e : exec c s = .next ((s.modHand h f).retire h g))
    (hk : g (f (s.hand h)) = k (s.hand h)) : s.handDoes c h k :=
  ⟨_, e, by rw [State.hand_retire, State.hand_modHand, hk], State.modHand_retire_onlyHand ..⟩

end

/-- Settles O17: the checks of IBLD in their order, then the copy (`exec_ibld_copy`) or its part before an uncorrectable word (`exec_ibld_poison`). -/
theorem instructionBufferLoad : Obligations.InstructionBufferLoad := by
  unfold Obligations.InstructionBufferLoad
  intro s h a b d hop
  refine ⟨fun v hodd => ?odd, fun hodd => ⟨fun hsrc => ?source, fun hsrc hdst => ?destination, fun hsrc hdst hsound hfence hraw => ?copy,
    fun w n hsrc hdst hpoison hn hfence hraw => ?poison⟩⟩
  case odd => exact handDoes_except (exec_ibld_odd hop hodd)
  case source => exact State.handDoes_of_retire (exec_ibld_source hop hodd hsrc) rfl
  case destination => exact State.handDoes_of_retire (exec_ibld_destination hop hodd hsrc hdst) rfl
  case copy => exact handDoes_modHand_retire (exec_ibld_copy hop hodd hsrc hdst hsound hfence hraw) rfl
  case poison => exact handDoes_modHand_retire (exec_ibld_poison hop hodd hsrc hdst hpoison hn hfence hraw) rfl

end Sys2Proof.Machine
end

