-- ==== Sys2Proof/Proofs/HandRings.lean ====
section
/-! RGET, RGETX, RRSV, RREL and RPUB on rings of the Hand's job (R146, R147, R169, R171, R172). -/

namespace Sys2Proof.Machine

section
variable {s : State} {h : HandRef}

/-! ## Taking a slot (R171) -/

section
variable {r : RingRef}

/-- A ring at which nothing waits gives the published slot at CLAIM to the agent that claims one. -/
theorem State.takeSlot_claim (a : RingAgent) (hwaiters : (s.ring r).waiters = []) (hgrants : (s.ring r).grants = [])
    (henable : (s.ring r).enable = true) (hslot : (s.ring r).slot (s.ring r).claim = .published) :
    s.takeSlot r a true = some ((s.ring r).claim, s.setRing r { (s.ring r).setSlot (s.ring r).claim .claimed with
      claim := (s.ring r).after (s.ring r).claim, grant := portAfter (agentPort (ringSlot r) a) }) := by
  have hclaim : (s.ring r).claimSlot = some ((s.ring r).claim,
      { (s.ring r).setSlot (s.ring r).claim .claimed with claim := (s.ring r).after (s.ring r).claim }) := by
    simp [Ring.claimSlot, henable, hslot]
  simp [State.takeSlot, hgrants, hwaiters, hclaim]

/-- And the free slot at RSV to the agent that reserves one. -/
theorem State.takeSlot_reserve (a : RingAgent) (hwaiters : (s.ring r).waiters = []) (hgrants : (s.ring r).grants = [])
    (henable : (s.ring r).enable = true) (hslot : (s.ring r).slot (s.ring r).rsv = .free) :
    s.takeSlot r a false = some ((s.ring r).rsv, s.setRing r { (s.ring r).setSlot (s.ring r).rsv .reserved with
      rsv := (s.ring r).after (s.ring r).rsv, grant := portAfter (agentPort (ringSlot r) a) }) := by
  have hreserve : (s.ring r).reserve = some ((s.ring r).rsv,
      { (s.ring r).setSlot (s.ring r).rsv .reserved with rsv := (s.ring r).after (s.ring r).rsv }) := by
    simp [Ring.reserve, henable, hslot]
  simp [State.takeSlot, hgrants, hwaiters, hreserve]

/-- What an expander decodes of a slot does not depend on the indices and states of its ring. -/
theorem State.expander_setRing {y : Ring} (hbase : y.base = (s.ring r).base) (hstride : y.stride = (s.ring r).stride) (hh i : Nat) :
    (s.setRing r y).expander hh r i = s.expander hh r i := by
  simp only [State.expander, State.slotIn_setRing hbase hstride]
  rfl

/-- The Hand that has been given slot `i` of a ring. -/
def Hand.given (x : Hand) (c : SlotRef) (claim : Bool) (exp : Option Expander) (d : Nat) (ea : Word64) : Hand :=
  ({ x with claims := if claim then x.claims ++ [c] else x.claims
            resvs := if claim then x.resvs else x.resvs ++ [c]
            exp := exp, wait := .none, stalled := false }.setS d ea).advance

/-- The slot that a ring gives to a Hand whose claims or reserves leave room becomes the Hand's (R146, R147). -/
theorem State.holdSlot_given {a d i k : Nat} {claim expand : Bool} {j : Job} {y : Ring} (hjob : s.jobAt (handSlot h) = some (k, j))
    (hroom : (if claim then (s.hand h).claims.length else (s.hand h).resvs.length) < 4)
    (href : s.refKind j (refOf ((s.hand h).s a)) = .job r) (hpower : (s.hamlet (ringSlot r)).power = .active)
    (huse : s.boundUse r claim = s) (htake : s.takeSlot r (.hand h) claim = some (i, s.setRing r y))
    (hbase : y.base = (s.ring r).base) (hstride : y.stride = (s.ring r).stride) :
    ∃ t, s.holdSlot h a d claim expand = .next t ∧ s.onlyHamlets t ∧
      t.hand h = (s.hand h).given ⟨r, i⟩ claim (if expand then some (s.expander j.household r i) else (s.hand h).exp) d (s.payloadEa j r i) ∧
      t.ring r = y := by
  have hgive : s.holdSlot h a d claim expand = .next ((s.setRing r y).giveSlot h j r i d claim expand) := by
    simp only [State.holdSlot, Nat.not_le.2 hroom, if_false, hjob, href, State.wake_active hpower, huse, htake]
  refine ⟨_, hgive, rfl, ?_, ?_⟩
  · rw [State.giveSlot, State.hand_retire, State.hand_setRing, State.expander_setRing hbase hstride, State.payloadEa_setRing hbase hstride]
    cases claim <;> cases expand <;> rfl
  · rw [State.giveSlot, State.ring_retire, State.ring_setRing]

end

theorem exec_rget {a d : Nat} (hop : s.handOp h = some (.rget a d)) : exec (.rget h) s = s.holdSlot h a d true false := by
  show execRget h s = _
  simp only [execRget, hop]

theorem exec_rgetx {a d : Nat} (hop : s.handOp h = some (.rgetx a d)) : exec (.rgetx h) s = s.holdSlot h a d true true := by
  show execRgetx h s = _
  simp only [execRgetx, hop]

theorem exec_rrsv {a d : Nat} (hop : s.handOp h = some (.rrsv a d)) : exec (.rrsv h) s = s.holdSlot h a d false false := by
  show execRrsv h s = _
  simp only [execRrsv, hop]

end

/-- Settles O14: the ring gives the Hand its slot (`State.takeSlot_claim`, `State.takeSlot_reserve`), which `State.holdSlot_given` says it then holds. -/
theorem handTakesRingSlots : Obligations.HandTakesRingSlots := by
  unfold Obligations.HandTakesRingSlots
  intro s h r k j hjob hpower hwaiters hgrants henable hoverlap
  refine ⟨fun i a d hissue href hroom hbind hslot => ?claim, fun a d hop href hroom hreceiving hslot => ?reserve⟩
  case claim =>
    have hgiven (expand : Bool) := State.holdSlot_given (a := a) (d := d) (claim := true) (expand := expand) hjob hroom href hpower
      (State.boundUse_claim hbind hoverlap) (State.takeSlot_claim (.hand h) hwaiters hgrants henable hslot) rfl rfl
    rcases hissue with ⟨rfl, hop⟩ | ⟨rfl, hop⟩
    · rw [exec_rget hop, if_neg (by simp)]
      exact hgiven false
    · rw [exec_rgetx hop, if_pos rfl]
      exact hgiven true
  case reserve =>
    rw [exec_rrsv hop]
    exact State.holdSlot_given (claim := false) (expand := false) hjob hroom href hpower (State.boundUse_reserve hreceiving hoverlap)
      (State.takeSlot_reserve (.hand h) hwaiters hgrants henable hslot) rfl rfl

/-! ## Releasing and publishing -/

section
variable {s : State} {h : HandRef} {k : Nat} {j : Job} (hjob : s.jobAt (handSlot h) = some (k, j))
include hjob

/-- RREL without a claim on the ring. -/
theorem exec_rrel_none {a : Nat} (hop : s.handOp h = some (.rrel a)) (hheld : heldOn (s.hand h).claims j (refOf ((s.hand h).s a)) = none) :
    exec (.rrel h) s = .next (s.except h .rings (s.wordOf h)) := by
  show execRrel h s = _
  simp only [execRrel, hop, hjob, Option.bind_some, hheld]

/-- RREL of a claim. -/
theorem exec_rrel {a : Nat} {c : SlotRef} (hop : s.handOp h = some (.rrel a))
    (hheld : heldOn (s.hand h).claims j (refOf ((s.hand h).s a)) = some c) :
    exec (.rrel h) s =
      if (s.ring c.ring).enable then
        .next ((s.releaseSlot c.ring c.idx).retire h fun y => ({ y with claims := y.claims.erase c }.detach c).advance)
      else .next ((s.handWaits h .disabled).busy (handSlot h)) := by
  show execRrel h s = _
  simp only [execRrel, hop, hjob, Option.bind_some, hheld]

/-- RPUB without a reserve on the ring. -/
theorem exec_rpub_none {a b : Nat} (hop : s.handOp h = some (.rpub a b)) (hheld : heldOn (s.hand h).resvs j (refOf ((s.hand h).s a)) = none) :
    exec (.rpub h) s = .next (s.except h .rings (s.wordOf h)) := by
  show execRpub h s = _
  simp only [execRpub, hop, hjob, Option.bind_some, hheld]

/-- RPUB of a reserve. -/
theorem exec_rpub {a b : Nat} {c : SlotRef} (hop : s.handOp h = some (.rpub a b))
    (hheld : heldOn (s.hand h).resvs j (refOf ((s.hand h).s a)) = some c) :
    exec (.rpub h) s =
      if (s.ring c.ring).enable then
        .next ((((s.hdrFor ((s.hand h).s b)).2.publishSlot c.ring c.idx (s.hdrFor ((s.hand h).s b)).1 none).noteSender h c).retire h
          fun y => { y with resvs := y.resvs.erase c }.advance)
      else .next ((s.handWaits h .disabled).busy (handSlot h)) := by
  show execRpub h s = _
  simp only [execRpub, hop, hjob, Option.bind_some, hheld]

end

section
variable {s : State} {h : HandRef}

/-- A Hand that begins to wait at a disabled ring does nothing else. -/
theorem handDoes_waitsDisabled {c : Instr} (e : exec c s = .next ((s.handWaits h .disabled).busy (handSlot h))) :
    s.handDoes c h fun x => { x with wait := .disabled, waitFrom := s.mclk, stalled := false } :=
  State.handDoes_retire e

/-- A release in a running hamlet of a slot that came over no link returns no credit. -/
theorem State.releaseSlot_local {r : RingRef} {i : Nat} (hpower : (s.hamlet (ringSlot r)).power = .active)
    (henable : (s.ring r).enable = true) (horigin : (s.ring r).origins.find i = none) :
    s.releaseSlot r i = s.modRing r fun x => x.release i := by
  have hnone : ((s.modRing r fun x => x.release i).ring r).origins.find i = none := by
    rw [State.ring_modRing, release_origins, horigin]
  simp only [State.releaseSlot, henable, if_true, State.wake_active hpower, State.returnCredit, hnone]

/-- A header word without RSVD bits and with a defined FMT is written as it is. -/
theorem State.hdrFor_valid {w : Word64} (hclear : w &&& hdrReserved = 0) (hfmt : fieldOf w 0 4 < 14) : s.hdrFor w = (w, s) :=
  if_neg (by simp [hclear, Nat.not_le.2 hfmt])

/-- Memory with DW0 of a slot's header at `a` and the stamp of its number; DW1 is the producer's (R169). -/
def Memory.stamped (m : Memory) (a dw0 seq : Nat) : Memory :=
  (m.writeBytes a (toBytes 8 dw0)).writeBytes (a + 16) (toBytes 8 seq ++ List.replicate 40 0)

section
variable {m : Memory} (hwf : m.wf = true) (a dw0 seq : Nat)
include hwf

theorem Memory.stamped_dw0 : (m.stamped a dw0 seq).readBytes a 8 = toBytes 8 dw0 := by
  have h1 := Memory.wf_writeBytes a (toBytes 8 dw0) hwf
  rw [Memory.stamped, Memory.readBytes_writeBytes_ne h1 (.inl (by omega)), Memory.readBytes_written hwf _ (length_toBytes ..)]

theorem Memory.stamped_number : (m.stamped a dw0 seq).readBytes (a + 16) 48 = toBytes 8 seq ++ List.replicate 40 0 := by
  have h1 := Memory.wf_writeBytes a (toBytes 8 dw0) hwf
  exact Memory.readBytes_written h1 _ (by rw [List.length_append, length_toBytes, List.length_replicate])

theorem Memory.stamped_outside {q : Nat} (hq : q < a ∨ a + 64 ≤ q ∨ (a + 8 ≤ q ∧ q < a + 16)) : (m.stamped a dw0 seq).read q = m.read q := by
  have h1 := Memory.wf_writeBytes a (toBytes 8 dw0) hwf
  rw [Memory.stamped, Memory.read_writeBytes_out h1 _ _ _ (by rw [List.length_append, length_toBytes, List.length_replicate]; omega),
    Memory.read_writeBytes_out hwf _ _ _ (by rw [length_toBytes]; omega)]

end

/-- A Hand's slot at PUB, with nothing else ready behind it, is published by DW0 alone, whose LEN the ring holds (R169, R172). -/
theorem State.publishSlot_hand {r : RingRef} {i : Nat} {w : Word64} (henable : (s.ring r).enable = true)
    (hpower : (s.hamlet (ringSlot r)).power = .active) (hfit : (s.ring r).slotOff i + 64 ≤ padBytes)
    (hopen : s.fenced (sramAddr (ringSlot r) ((s.ring r).slotOff i)) = false)
    (hopen' : s.fenced (sramAddr (ringSlot r) ((s.ring r).slotOff i) + 16) = false) (hlen : fieldOf w 32 21 ≤ (s.ring r).capacity)
    (hpub : (s.ring r).pub = i) (hnext : i + 1 < (s.ring r).size) (hready : (s.ring r).slot (i + 1) ≠ .ready) :
    ∃ q, s.publishSlot r i w none =
      (s.setRing r ((s.ring r).published i)).withPads
        (s.mem.stamped (sramAddr (ringSlot r) ((s.ring r).slotOff i)) w.toNat (s.ring r).seq.toNat) q := by
  have hkeep : ((s.setRing r ((s.ring r).published i)).ring r).slotOff i = (s.ring r).slotOff i := by
    rw [State.ring_setRing]
    rfl
  obtain ⟨q1, h1⟩ := s.padWrite_withPads s.mem s.sramPoison (ringSlot r) (off := (s.ring r).slotOff i) (d := toBytes 8 w.toNat)
    (by rw [length_toBytes]; omega) hopen
  obtain ⟨q2, h2⟩ := (s.setRing r ((s.ring r).published i)).padWrite_withPads
    (s.mem.writeBytes (sramAddr (ringSlot r) ((s.ring r).slotOff i)) (toBytes 8 w.toNat)) q1 (ringSlot r)
    (off := (s.ring r).slotOff i + 16) (d := toBytes 8 (s.ring r).seq.toNat ++ List.replicate 40 0)
    (by rw [List.length_append, length_toBytes, List.length_replicate]; omega)
    (by rw [State.fenced_setRing, sramAddr_add]; exact hopen')
  refine ⟨q2, ?_⟩
  have hlong : decide ((s.ring r).capacity < fieldOf w 32 21) = false := decide_eq_false (Nat.not_lt.2 hlen)
  rw [State.withPads_self] at h1
  rw [State.publishSlot, if_pos henable, State.publishOpen, State.wake_active hpower]
  dsimp only
  rw [hlong, if_neg Bool.false_ne_true, if_neg Bool.false_ne_true, h1, State.ring_withPads, Ring.advancePub_one hpub hnext hready,
    State.setRing_withPads, State.stampSlots, State.stampSlots, State.ring_withPads, hkeep, h2, Memory.stamped, sramAddr_add]

/-- A published slot is visible, PUB stands past it and RING_SEQ has counted it. -/
theorem Ring.published_effect {x : Ring} {i : Nat} (hnext : i + 1 < x.size) :
    (x.published i).pub = i + 1 ∧ (x.published i).slot i = .published ∧ (x.published i).seq = x.seq + 1 :=
  ⟨if_pos hnext, Ring.slot_setSlot_same _ _ (by decide), rfl⟩

/-- That a slot is a MSG of its Hand is noted in its ring alone, whose slots and indices stay. -/
theorem State.noteSender_effect (s : State) (h : HandRef) (c : SlotRef) :
    ∃ hs l, s.noteSender h c = { s with hamlets := hs } ∧ (s.noteSender h c).ring c.ring = { s.ring c.ring with senders := l } ∧
      (s.noteSender h c).hand h = s.hand h := by
  unfold State.noteSender
  split
  · exact ⟨_, _, rfl, State.ring_modRing .., State.hand_modRing ..⟩
  · exact ⟨s.hamlets, (s.ring c.ring).senders, rfl, rfl, rfl⟩

/-- What a Hand that has published a slot leaves. -/
theorem State.published_retire_effect (s : State) (h : HandRef) (c : SlotRef) (mem : Memory) (q : List Nat) (f : Hand → Hand)
    (hnext : c.idx + 1 < (s.ring c.ring).size) :
    ∃ t, t = ((((s.setRing c.ring ((s.ring c.ring).published c.idx)).withPads mem q).noteSender h c).retire h f) ∧
      t.hand h = f (s.hand h) ∧ t.mem = mem ∧ (t.ring c.ring).pub = c.idx + 1 ∧ (t.ring c.ring).slot c.idx = .published ∧
      (t.ring c.ring).seq = (s.ring c.ring).seq + 1 ∧ t = { s with hamlets := t.hamlets, mem := t.mem, sramPoison := t.sramPoison } := by
  obtain ⟨hs, l, hframe, hring, hhand⟩ := State.noteSender_effect ((s.setRing c.ring ((s.ring c.ring).published c.idx)).withPads mem q) h c
  obtain ⟨hpub, hslot, hseq⟩ := Ring.published_effect hnext
  rw [State.ring_withPads, State.ring_setRing] at hring
  refine ⟨_, rfl, ?_, ?_, ?_, ?_, ?_, ?_⟩
  · rw [State.hand_retire, hhand]
    exact congrArg f (State.hand_setRing ..)
  · rw [State.retire_mem, hframe]
    rfl
  · rw [State.ring_retire, hring]
    exact hpub
  · rw [State.ring_retire, hring]
    exact hslot
  · rw [State.ring_retire, hring]
    exact hseq
  · rw [hframe]
    rfl

end

/-- Settles O15: RREL releases the claim (`State.releaseSlot_local`), RPUB publishes the reserve (`State.publishSlot_hand`); neither acts on a ring
that is disabled or on which the Hand holds nothing. -/
theorem handReleasesAndPublishes : Obligations.HandReleasesAndPublishes := by
  unfold Obligations.HandReleasesAndPublishes
  intro s h k j hjob
  refine ⟨fun a hop => ⟨fun hheld => ?rrelNone, fun c hheld hoff => ?rrelWaits, fun c hheld hon hpower horigin => ?rrel⟩,
    fun a b hop => ⟨fun hheld => ?rpubNone, fun c hheld hoff => ?rpubWaits,
      fun c x off hheld hon hpower hx hoff hwf hopen hopen' hfit hclear hfmt hlen hpub hnext hready => ?rpub⟩⟩
  case rrelNone => exact State.handDoes_of_retire (exec_rrel_none hjob hop hheld) rfl
  case rrelWaits => exact handDoes_waitsDisabled ((exec_rrel hjob hop hheld).trans (if_neg (by simp [hoff])))
  case rrel =>
    have hexec := (exec_rrel hjob hop hheld).trans (if_pos hon)
    rw [State.releaseSlot_local hpower hon horigin] at hexec
    exact ⟨_, hexec, rfl, by rw [State.ring_retire, State.ring_modRing], by rw [State.hand_retire, State.hand_modRing]⟩
  case rpubNone => exact State.handDoes_of_retire (exec_rpub_none hjob hop hheld) rfl
  case rpubWaits => exact handDoes_waitsDisabled ((exec_rpub hjob hop hheld).trans (if_neg (by simp [hoff])))
  case rpub =>
    subst hx hoff
    obtain ⟨q, hpublish⟩ := State.publishSlot_hand hon hpower hfit hopen hopen' hlen hpub hnext hready
    obtain ⟨t, ht, hhand, hmem, hpub', hslot, hseq, hframe⟩ := s.published_retire_effect h c
      (s.mem.stamped (sramAddr (ringSlot c.ring) ((s.ring c.ring).slotOff c.idx)) ((s.hand h).s b).toNat (s.ring c.ring).seq.toNat) q
      (fun y => { y with resvs := y.resvs.erase c }.advance) hnext
    have hexec := (exec_rpub hjob hop hheld).trans (if_pos hon)
    rw [State.hdrFor_valid hclear hfmt, hpublish, ← ht] at hexec
    refine ⟨t, hexec, hhand, ?_, ?_, ?_, hpub', hslot, hseq, hframe⟩
    · rw [hmem, Memory.stamped_dw0 hwf]
    · rw [hmem, Memory.stamped_number hwf]
    · intro p hp
      rw [hmem, Memory.stamped_outside hwf _ _ _ hp]

end Sys2Proof.Machine
end

