-- ==== Sys2Proof/Proofs/HandUnits.lean ====
section
/-! VRX, BADD, BREAD, BWAIT, TFEED, events, and the end and the stall of waits (R147, R150, R151, R153, R154, R176, R180, R181, R267). -/

namespace Sys2Proof.Machine

section
variable {s : State} {h : HandRef}

/-! ## The expander (R147, R241) -/

theorem exec_vrx_detached {d : Nat} (hop : s.handOp h = some (.vrx d)) (hexp : (s.hand h).exp = none) :
    exec (.vrx h) s = .next (s.retire h fun x => (x.setV d 0).advance) := by
  show execVrx h s = _
  simp only [execVrx, hop, hexp]

theorem exec_vrx_poisoned {d : Nat} {e : Expander} (hop : s.handOp h = some (.vrx d)) (hexp : (s.hand h).exp = some e) (hpoison : e.poisoned = true) :
    exec (.vrx h) s = .next (s.except h .expand (s.wordOf h)) := by
  show execVrx h s = _
  simp only [execVrx, hop, hexp, hpoison, if_true]

section
variable {k d : Nat} {j : Job} {e e' : Expander} (hjob : s.jobAt (handSlot h) = some (k, j)) (hop : s.handOp h = some (.vrx d))
  (hexp : (s.hand h).exp = some e) (hsound : e.poisoned = false)
include hjob hop hexp hsound

theorem exec_vrx_takes {l : List Byte} (htake : Expander.take (s.imageFor j.household) 34 [] e = (some l, e')) :
    exec (.vrx h) s = .next (s.retire h fun x => ({ x with exp := some e' }.setV d (vecOf (slice l 0 64))).advance) := by
  show execVrx h s = _
  simp only [execVrx, hop, hexp, hsound, hjob, Bool.false_eq_true, if_false, Option.map_some, Option.getD_some, htake]

theorem exec_vrx_damaged (htake : Expander.take (s.imageFor j.household) 34 [] e = (none, e')) :
    exec (.vrx h) s = .next ((s.modHand h fun x => { x with exp := some e' }).except h .expand (s.wordOf h)) := by
  show execVrx h s = _
  simp only [execVrx, hop, hexp, hsound, hjob, Bool.false_eq_true, if_false, Option.map_some, Option.getD_some, htake]

end

/-- A buffer with more than 64 decoded bytes gives the next 64 and keeps the rest. -/
theorem Expander.take_buffered (image : Nat → Option (List Byte)) (n : Nat) {e : Expander} {b : List Byte} {u : List ExpBlock}
    (hbufs : e.bufs = .data b :: u) (hlong : 64 < b.length) :
    Expander.take image (n + 1) [] e = (some (b.take 64), { e with bufs := .data (b.drop 64) :: u }) := by
  simp [Expander.take, hbufs, hlong]

/-! ## Bells (R180, R181) -/

/-- BADD from a Hand with a job. -/
theorem exec_badd {k a b : Nat} {j : Job} {r : RingRef} (hjob : s.jobAt (handSlot h) = some (k, j)) (hop : s.handOp h = some (.badd a b))
    (href : s.refKind j (refOf ((s.hand h).s a)) = .job r) :
    exec (.badd h) s =
      .next ((s.castBell (.hand h) (ringSlot r) r.idx (BitVec.ofNat 32 (fieldOf ((s.hand h).s b) 0 16))).retire h Hand.advance) := by
  show execBadd h s = _
  simp only [execBadd, hop, hjob, State.sendBell, href]

/-- BREAD of a counter in a running hamlet of the job. -/
theorem exec_bread {k a d : Nat} {j : Job} {r : RingRef} (hjob : s.jobAt (handSlot h) = some (k, j)) (hop : s.handOp h = some (.bread a d))
    (href : j.ringOf (refOf ((s.hand h).s a)) = some r) (hpower : (s.hamlet (ringSlot r)).power = .active) :
    exec (.bread h) s = .next (s.retire h fun x => (x.setS d ((s.bell (ringSlot r) r.idx).setWidth 64)).advance) := by
  show execBread h s = _
  simp only [execBread, hop, hjob, Option.bind_some, href, State.wake_active hpower]

/-- BWAIT on a counter of the Hand's own hamlet. -/
theorem exec_bwait {k a b : Nat} {j : Job} {r : RingRef} (hjob : s.jobAt (handSlot h) = some (k, j)) (hop : s.handOp h = some (.bwait a b))
    (href : j.ringOf (refOf ((s.hand h).s a)) = some r) (hown : ringSlot r = handSlot h) :
    exec (.bwait h) s = .next (s.waitBell h r.idx (((s.hand h).s b).setWidth 32)) := by
  show execBwait h s = _
  simp only [execBwait, hop, hjob, Option.bind_some, href, hown, if_true]

/-- A counter that satisfies its target ends the wait at once, and one that does not lets the Hand wait (R181). -/
theorem State.waitBell_eq (s : State) (h : HandRef) (c : Nat) (v : Word32) :
    s.waitBell h c v = s.retire h fun x =>
      if (s.bell (handSlot h) c - v).toNat < 2 ^ 31 then x.advance else { x with wait := .bell c v false, waitFrom := s.mclk, stalled := false } := by
  by_cases hmet : (s.bell (handSlot h) c - v).toNat < 2 ^ 31
  · simp only [State.waitBell, bellMet, hmet, decide_true, if_true]
  · simp only [State.waitBell, bellMet, hmet, decide_false, Bool.false_eq_true, if_false]
    rfl

/-! ## Tally units (R151, R267) -/

/-- A unit at which nothing waits absorbs nothing. -/
theorem State.absorbAll_idle {t : TallyRef} (hidle : (s.tally t).snoopQ = []) : s.absorbAll t = s.modTally t fun y => { y with snoopQ := [] } := by
  simp only [State.absorbAll, hidle, List.foldl_nil]

/-- TFEED to a unit at which nothing waits and whose values are known. -/
theorem exec_tfeed {a b : Nat} (hop : s.handOp h = some (.tfeed a b)) (hidle : (s.tally (tallyFor h ((s.hand h).s b))).snoopQ = [])
    (hknown : (s.tally (tallyFor h ((s.hand h).s b))).wild = false) :
    exec (.tfeed h) s =
      .next (((s.modTally (tallyFor h ((s.hand h).s b)) fun y => { y with snoopQ := [] }).modTally (tallyFor h ((s.hand h).s b))
        fun y => y.feed (vecBytes ((s.hand h).v a))).retire h Hand.advance) := by
  show execTfeed h s = _
  simp only [execTfeed, hop, State.absorbAll_idle hidle, State.feedTally, State.tally_modTally, hknown, Bool.false_eq_true, if_false]

end

/-- Settles O16: each instruction answers as its `exec_` lemma says. -/
theorem handUsesExpanderBellsAndTally : Obligations.HandUsesExpanderBellsAndTally := by
  unfold Obligations.HandUsesExpanderBellsAndTally
  intro s h k j hjob
  refine ⟨fun d hop => ⟨fun hexp => ?detached, fun e hexp hpoison => ?poisoned, fun e b u hexp hsound hbufs hlong => ?buffered,
      fun e l e' hexp hsound htake => ?takes, fun e e' hexp hsound htake => ?damaged⟩,
    fun a b r hop href => ?badd, fun a d r hop href hpower => ?bread, fun a b r hop href hown => ⟨fun hmet => ?satisfied, fun hlater => ?waits⟩,
    fun a b hop hidle hknown => ?tfeed⟩
  case detached => exact State.handDoes_retire (exec_vrx_detached hop hexp)
  case poisoned => exact State.handDoes_of_retire (exec_vrx_poisoned hop hexp hpoison) rfl
  case buffered => exact State.handDoes_retire (exec_vrx_takes hjob hop hexp hsound (Expander.take_buffered _ _ hbufs hlong))
  case takes => exact State.handDoes_retire (exec_vrx_takes hjob hop hexp hsound htake)
  case damaged => exact handDoes_modHand_retire (exec_vrx_damaged hjob hop hexp hsound htake) rfl
  case badd =>
    obtain ⟨hothers, hhand⟩ := State.retire_otherHands (s := s)
      (u := s.castBell (.hand h) (ringSlot r) r.idx (BitVec.ofNat 32 (fieldOf ((s.hand h).s b) 0 16))) h Hand.advance rfl rfl
    exact ⟨_, exec_badd hjob hop href, hhand, hothers, rfl⟩
  case bread => exact State.handDoes_retire (exec_bread hjob hop href hpower)
  case satisfied =>
    exact State.handDoes_of_retire ((exec_bwait hjob hop href hown).trans (congrArg _ (State.waitBell_eq ..))) (if_pos hmet)
  case waits =>
    exact State.handDoes_of_retire ((exec_bwait hjob hop href hown).trans (congrArg _ (State.waitBell_eq ..))) (if_neg (Nat.not_lt.2 hlater))
  case tfeed =>
    refine ⟨_, exec_tfeed hop hidle hknown, by rw [State.hand_retire, State.hand_modTally, State.hand_modTally], rfl, ?_⟩
    rw [State.tally_retire, State.tally_modTally, State.tally_modTally, ← hidle]

/-! ## Events and the end of waits (R150, R153, R154, R176) -/

section
variable {s : State} {h : HandRef}

/-- An event that is due is of those enabled. -/
theorem Hand.eventEnabled_of_due {x : Hand} (hdue : x.eventDue = true) : x.eventEnabled = true := by
  simp only [Hand.eventDue, Bool.and_eq_true] at hdue
  exact hdue.2

/-- A Hand that leaves a wait leaves a ring at most, and is itself as before. -/
theorem State.quitWait_effect (s : State) (h : HandRef) : s.onlyHamlets (s.quitWait h) ∧ (s.quitWait h).hand h = s.hand h := by
  unfold State.quitWait
  split
  · exact ⟨rfl, State.hand_modRing ..⟩
  · exact ⟨rfl, State.hand_modRing ..⟩
  · exact ⟨rfl, rfl⟩

/-- EVENT_TAKE at an instruction boundary at which an event is due. -/
theorem exec_eventTake_boundary (hpower : (s.hamlet (handSlot h)).power = .active) (hmode : (s.hand h).mode = .running)
    (hwait : (s.hand h).wait = .none) (hdue : (s.hand h).eventDue = true) :
    exec (.eventTake h) s = .next (s.retire h fun x => x.takeEvent x.pc) := by
  show execEventTake h s = _
  simp only [execEventTake, hpower, hmode, Hand.eventEnabled_of_due hdue, and_self, if_true, hwait, hdue, State.quitWait]

/-- EVENT_TAKE of a Hand that sleeps in WAIT. -/
theorem exec_eventTake_sleep (hpower : (s.hamlet (handSlot h)).power = .active) (hmode : (s.hand h).mode = .running)
    (hwait : (s.hand h).wait = .sleep) (henabled : (s.hand h).eventEnabled = true) :
    exec (.eventTake h) s =
      .next (s.retire h fun x => if x.eventDue then x.takeEvent (x.pc + 4) else { x with wait := .none }.advance) := by
  show execEventTake h s = _
  simp only [execEventTake, hpower, hmode, henabled, and_self, if_true, hwait]

theorem exec_bwaitSatisfied {c : Nat} {v : Word32} (hwait : (s.hand h).wait = .bell c v true) :
    exec (.bwaitSatisfied h) s = .next (s.retire h fun x => { x with wait := .none, stalled := false }.advance) := by
  show execBwaitSatisfied h s = _
  simp only [execBwaitSatisfied, hwait]

theorem exec_pushStall (hpush : (s.hand h).pushing = true) (hfirst : (s.hand h).stalled = false)
    (hlimit : (s.hamlet (handSlot h)).limit ≤ s.mclk - (s.hand h).waitFrom) :
    exec (.pushStall h) s = .next ((s.modHand h fun x => { x with stalled := true }).raiseEvent h .pushStall) := by
  show execPushStall h s = _
  simp only [execPushStall, hpush, hfirst, hlimit, and_self, if_true]

/-- Hands do not depend on what else of a hamlet changes. -/
theorem State.hand_modHamlet_keeps {f : Hamlet → Hamlet} (hf : ∀ m, (f m).hands = m.hands) (s : State) (m : HamletRef) (g : HandRef) :
    (s.modHamlet m f).hand g = s.hand g := by
  unfold State.hand
  rw [State.hamlet_modHamlet_keeps (·.hands) hf]

/-- A stall raised at a Hand sets its mark and the event, and nothing else of it (R154, R175). -/
theorem State.hand_stalled (s : State) (h : HandRef) (e : EventBit) :
    ((s.modHand h fun x => { x with stalled := true }).raiseEvent h e).hand h =
      { s.hand h with stalled := true, evPend := (s.hand h).evPend ||| BitVec.ofNat 6 (2 ^ e.index) } := by
  rw [State.raiseEvent, State.hand_modHand, State.hand_modHand]

/-- The state in which a BWAIT has stalled, before the stall is counted. -/
def State.bellStalled (s : State) (h : HandRef) : State :=
  ((s.modHamlet (handSlot h) fun m => { m with err := { m.err with waitStall := true } }).modHand h
    fun x => { x with stalled := true }).raiseEvent h .ringStall

theorem State.bellStalled_effect (s : State) (h : HandRef) :
    s.onlyHamlets (s.bellStalled h) ∧ ((s.bellStalled h).hamlet (handSlot h)).err.waitStall = true ∧
      (s.bellStalled h).hand h = { s.hand h with stalled := true, evPend := (s.hand h).evPend ||| 4 } := by
  refine ⟨rfl, ?_, ?_⟩
  · rw [State.bellStalled, State.raiseEvent, State.modHand_hamlet_err, State.modHand_hamlet_err, State.hamlet_modHamlet]
  · rw [State.bellStalled, State.hand_stalled, State.hand_modHamlet_keeps (f := fun m => { m with err := { m.err with waitStall := true } }) fun _ => rfl]
    rfl

theorem exec_waitStall {c : Nat} {v : Word32} (hwait : (s.hand h).wait = .bell c v false) (hfirst : (s.hand h).stalled = false)
    (hlimit : (s.hamlet (handSlot h)).limit ≤ s.mclk - (s.hand h).waitFrom) :
    exec (.waitStall h) s =
      .next ((s.bellStalled h).countStall (handSlot h)) := by
  show execWaitStall h s = _
  simp only [execWaitStall, hwait, hfirst, hlimit, and_self, if_true]
  rfl

theorem exec_hwFault (w : HwPlace) (hmode : (s.hand h).mode = .running) :
    exec (.hwFault h w) s =
      .next ((((s.quitWait h).modHand h fun x => (x.record .hwFault (hwTval w)).stopFault).modHamlet (handSlot h)
        fun m => { m with hwFault := true }).busy (handSlot h)) := by
  show execHwFault h w s = _
  simp only [execHwFault, hmode, if_true]

/-- A counted stall is in the records of jobs alone, and depends on nothing else. -/
theorem State.countStall_eq {s t : State} (hjobs : t.jobs = s.jobs) (m : HamletRef) : t.countStall m = { t with jobs := (s.countStall m).jobs } := by
  have hat : t.jobAt m = s.jobAt m := by rw [State.jobAt, State.jobAt, hjobs]
  unfold State.countStall
  rw [hat]
  split
  · unfold State.modJob
    rw [hjobs]
    split
    · rfl
    · rw [← hjobs]
  · rw [← hjobs]

end

/-- Settles O19: each command answers as its `exec_` lemma says; a stall leaves its Hand as `State.hand_stalled` says. -/
theorem waitsEndAndEventsAreTaken : Obligations.WaitsEndAndEventsAreTaken := by
  unfold Obligations.WaitsEndAndEventsAreTaken
  intro s h
  refine ⟨fun hpower hmode hwait hdue => ?boundary, fun hpower hmode hwait henabled => ⟨fun hdue => ?taken, fun hlater => ?goes⟩,
    fun c t hwait => ?satisfied, fun hpush hfirst hlimit => ?pushStall, fun c v hwait hfirst hlimit => ?waitStall, fun w hmode => ?hwFault⟩
  case boundary => exact State.handDoes_retire (exec_eventTake_boundary hpower hmode hwait hdue)
  case taken => exact State.handDoes_of_retire (exec_eventTake_sleep hpower hmode hwait henabled) (if_pos hdue)
  case goes => exact State.handDoes_of_retire (exec_eventTake_sleep hpower hmode hwait henabled) (if_neg (by simp [hlater]))
  case satisfied => exact State.handDoes_retire (exec_bwaitSatisfied hwait)
  case pushStall => exact ⟨_, exec_pushStall hpush hfirst hlimit, rfl, State.hand_stalled ..⟩
  case waitStall =>
    obtain ⟨-, hmark, hhand⟩ := s.bellStalled_effect h
    have hexec := exec_waitStall hwait hfirst hlimit
    rw [State.countStall_eq (s := s) (t := s.bellStalled h) rfl] at hexec
    exact ⟨_, hexec, rfl, hmark, hhand⟩
  case hwFault =>
    obtain ⟨hframe, hhand⟩ := s.quitWait_effect h
    have hstopped : ((((s.quitWait h).modHand h fun x => (x.record .hwFault (hwTval w)).stopFault).modHamlet (handSlot h)
        fun m => { m with hwFault := true }).busy (handSlot h)).hand h = ((s.hand h).record .hwFault (hwTval w)).stopFault := by
      rw [State.hand_busy, State.hand_modHamlet_keeps (f := fun m => { m with hwFault := true }) fun _ => rfl, State.hand_modHand, hhand]
    refine ⟨_, exec_hwFault w hmode, ?_, ?_, ?_⟩
    · rw [State.onlyHamlets] at hframe
      rw [hframe]
      rfl
    · rw [State.hamlet_busy, State.hamlet_modHamlet]
    · rw [hstopped]
      exact ⟨rfl, rfl, rfl, rfl, rfl, rfl, rfl, rfl⟩

end Sys2Proof.Machine
end

