-- ==== Sys2Proof/Proofs/GlobalAccess.lean ====
section
/-! Accesses by effective address inside one 2 KiB block (R139, R197 to R202, R209, R210, R300, R404): what they reach and what they leave. -/

namespace Sys2Proof.Machine

section
variable {s : State} {h : HandRef} {who : Actor} {write : Bool} {ea n p : Nat} {c : Crypt}

/-! ## One block is one run -/

theorem State.reaches_block (hsome : 0 < n) (hblock : ea % 2048 + n ≤ 2048) : s.reaches who write ea n = (s.resolve who write ea).isSome := by
  simp [State.reaches, runsOf_one hsome hblock]

/-- An access inside one block is one piece of a transfer. -/
theorem pieces_block (hsome : 0 < n) (hblock : ea % 2048 + n ≤ 2048) : pieces 4096 n ea n = [(ea, n)] := by
  obtain ⟨k, rfl⟩ : ∃ k, n = k + 1 := ⟨n - 1, by omega⟩
  have hlen : min (k + 1) (min 4096 (4096 - ea % 4096)) = k + 1 := by omega
  rw [pieces, if_neg (Nat.succ_ne_zero k)]
  dsimp only
  rw [hlen, Nat.sub_self]
  cases k with
  | zero => rfl
  | succ k => rfl

theorem State.runs_mem (hsome : 0 < n) (hblock : ea % 2048 + n ≤ 2048) (hres : s.resolve who write ea = some (.mem p c)) :
    s.runs who write ea n = some [.mem ⟨p, n, c⟩] := by
  simp [State.runs, runsOf_one hsome hblock, hres]

theorem State.runs_hamlet {m : HamletRef} {off : Nat} (hsome : 0 < n) (hblock : ea % 2048 + n ≤ 2048)
    (hres : s.resolve who write ea = some (.reg m off)) : s.runs who write ea n = some [.hamlet m off n] := by
  simp [State.runs, runsOf_one hsome hblock, hres]

theorem State.runs_gran {q : ParishRef} {off : Nat} (hsome : 0 < n) (hblock : ea % 2048 + n ≤ 2048)
    (hres : s.resolve who write ea = some (.granary q off)) : s.runs who write ea n = some [.gran q off n] := by
  simp [State.runs, runsOf_one hsome hblock, hres]

theorem State.runs_ctl {q : CtlRef} {off : Nat} (hsome : 0 < n) (hblock : ea % 2048 + n ≤ 2048)
    (hres : s.resolve who write ea = some (.controller q off)) : s.runs who write ea n = some [.ctl q off n] := by
  simp [State.runs, runsOf_one hsome hblock, hres]

/-! ## An open place (R177, R186, R189) -/

theorem State.fenced_open (hopen : s.openPlace h write p n) : s.fenced p = false := by
  rcases hopen with hlpddr | ⟨-, hfence, -, -⟩
  · exact State.fenced_lpddr s hlpddr
  · exact hfence

/-- An access to an open place wakes no hamlet. -/
theorem State.wakeFor_open (hopen : s.openPlace h write p n) : s.wakeFor p = s := by
  unfold State.wakeFor
  rcases hopen with hlpddr | ⟨-, -, hpower, -⟩
  · rw [slotOfAddr_lpddr hlpddr]
  · split
    next m hslot => exact State.wake_active (hpower m hslot)
    next => rfl

/-- It touches no slot raw. -/
theorem State.rawSlots_open (hopen : s.openPlace h write p n) : s.rawSlots (s.heldBy h) write p n = [] := by
  rcases hopen with hlpddr | ⟨-, -, -, hraw⟩
  · simp only [State.rawSlots, slotOfAddr_lpddr hlpddr]
  · exact hraw

/-- Cache marks concern no ring. -/
theorem State.rawSlots_touch (s : State) (a k : Nat) (alloc : Bool) (held : List SlotRef) :
    (s.touch a k write alloc).rawSlots held write p n = s.rawSlots held write p n := by
  rw [State.touch_eq]
  rfl

theorem Run.arrive_open (hopen : s.openPlace h write p n) (alloc : Bool) :
    Run.arrive write alloc s (.mem ⟨p, n, c⟩) = s.touch p n write alloc := by
  simp only [Run.arrive, State.wakeFor_open hopen]

/-! ## The blocks of a poisoned read (R300) -/

/-- A part of the jobs that an update keeps reads as before in every job. -/
theorem State.find_modJob_keeps {α : Type} (g : Job → α) {f : Job → Job} (hg : ∀ x, g (f x) = g x) (s : State) (k i : Nat) :
    ((s.modJob k f).jobs.find i).map g = (s.jobs.find i).map g := by
  unfold State.modJob
  split
  next x hx =>
    simp only [Tab.find_set]
    split
    next hi => rw [hi, hx, Option.map_some, Option.map_some, hg]
    next => rfl
  next => rfl

/-- A job whose step of serving has read some more poisoned blocks. -/
def Job.noted (bad : List Nat) (j : Job) : Job :=
  if j.serving.active then { j with serving := { j.serving with badBlocks := bad.foldl setInsert j.serving.badBlocks } } else j

/-- Poisoned blocks are noted in a job of the actor, if anywhere. -/
theorem State.noteBad_cases (s : State) (who : Actor) (rs : List Run) : s.noteBad who rs = s ∨ ∃ k bad, s.noteBad who rs = s.modJob k (Job.noted bad) := by
  unfold State.noteBad
  dsimp only
  split
  · exact .inl rfl
  · exact .inl rfl
  · exact .inr ⟨_, _, rfl⟩

/-- What the KV rules read of a job. -/
def Job.kvParts (j : Job) : Bool × Bool × List StepRow × List Nat := (j.serving.kvWild, j.serving.active, j.serving.rows, j.serving.batch)

theorem Job.kvParts_noted (bad : List Nat) (j : Job) : (j.noted bad).kvParts = j.kvParts := by
  unfold Job.noted
  split <;> rfl

/-- Two states whose jobs have the same KV parts, and whose sessions, entries and adapters are the same, respect the KV alike. -/
theorem State.kvRespected_congr {t : State} (hsessions : t.sessions = s.sessions) (hledger : t.ledger = s.ledger) (hadapters : t.adapters = s.adapters)
    (hparts : ∀ k, (t.jobs.find k).map Job.kvParts = (s.jobs.find k).map Job.kvParts) (hkv : s.kvRespected who write ea n) :
    t.kvRespected who write ea n := by
  obtain ⟨hown, hopen, hpinned⟩ := hkv
  refine ⟨fun k j hk hj hactive x hlo hhi => ?_, fun hread x hlo hhi => ?_, fun hwrite q hq => hpinned hwrite q (hadapters ▸ hq)⟩
  · obtain ⟨j', hj', hsame⟩ := Option.map_eq_some_iff.1 ((hparts k).symm.trans (congrArg _ hj))
    simp only [Job.kvParts, Prod.mk.injEq] at hsame
    obtain ⟨-, hactive', hrows, hbatch⟩ := hsame
    have hold := hown k j' hk hj' (hactive'.trans hactive) x hlo hhi
    simp only [State.kvMisuse, Serving.kvMay, hsessions, hledger, ← hrows, ← hbatch] at hold ⊢
    exact hold
  · have hwild (k : Nat) : (t.jobs.find k).map (fun j => j.serving.kvWild) = (s.jobs.find k).map fun j => j.serving.kvWild := by
      have hfirst := congrArg (Option.map Prod.fst) (hparts k)
      rw [Option.map_map, Option.map_map] at hfirst
      exact hfirst
    have hold := hopen hread x hlo hhi
    simp only [State.kvOpenAt, hsessions, hwild] at hold ⊢
    exact hold

/-- A read that has been noted respects the KV as before, and jobs alone may differ. -/
theorem State.noteBad_effect (s : State) (who' : Actor) (rs : List Run) :
    s.noteBad who' rs = { s with jobs := (s.noteBad who' rs).jobs } ∧
      (s.kvRespected who write ea n → (s.noteBad who' rs).kvRespected who write ea n) := by
  rcases s.noteBad_cases who' rs with hnote | ⟨k, bad, hnote⟩
  · rw [hnote]
    exact ⟨rfl, id⟩
  · have hframe : s.modJob k (Job.noted bad) = { s with jobs := (s.modJob k (Job.noted bad)).jobs } := by
      unfold State.modJob
      split <;> rfl
    rw [hnote]
    refine ⟨hframe, fun hkv => State.kvRespected_congr ?_ ?_ ?_ (State.find_modJob_keeps Job.kvParts (Job.kvParts_noted bad) s k) hkv⟩
    all_goals rw [hframe]

/-- A read of on-chip memory is not noted. -/
theorem State.noteBad_sram (who' : Actor) (k : Nat) (c' : Crypt) (hsram : isSram p = true) : s.noteBad who' [.mem ⟨p, k, c'⟩] = s := by
  unfold State.noteBad
  simp [hsram]

/-- Nor is one without poison. -/
theorem State.noteBad_sound (who' : Actor) (c' : Crypt) (hsound : s.poisonedAt p n = false) : s.noteBad who' [.mem ⟨p, n, c'⟩] = s := by
  cases hsram : isSram p with
  | false => exact State.noteBad_clean c' who' hsram hsound
  | true => exact State.noteBad_sram who' n c' hsram

/-! ## Reads -/

/-- The state after a read of a place has left its cache marks and been noted. -/
def State.readMarked (s : State) (who : Actor) (p n : Nat) (c : Crypt) : State := (s.touch p n false true).noteBad who [.mem ⟨p, n, c⟩]

theorem State.readMarked_frame (s : State) (who : Actor) (p n : Nat) (c : Crypt) :
    s.readMarked who p n c = { s with parishes := (s.readMarked who p n c).parishes, jobs := (s.readMarked who p n c).jobs } := by
  obtain ⟨hframe, -⟩ := (s.touch p n false true).noteBad_effect (write := false) (ea := 0) (n := 0) (who := who) who [.mem ⟨p, n, c⟩]
  unfold State.readMarked
  rw [hframe, State.touch_eq]

theorem State.readMarked_kvRespected (p k : Nat) (c : Crypt) (hkv : s.kvRespected who write ea n) :
    (s.readMarked who p k c).kvRespected who write ea n :=
  ((s.touch p k false true).noteBad_effect who [.mem ⟨p, k, c⟩]).2 (State.AccessAlike.kvRespected (State.AccessAlike.refl.touch ..) hkv)

/-- A read without poison leaves the jobs. -/
theorem State.readMarked_sound (who : Actor) (c : Crypt) (hsound : s.poisonedAt p n = false) : (s.readMarked who p n c).jobs = s.jobs := by
  have halike := (State.AccessAlike.refl (s := s)).touch p n false true
  rw [State.readMarked, State.noteBad_sound who c ((halike.poisonedAt p n).trans hsound), State.touch_eq]

theorem State.readMarked_fenced (who : Actor) (c : Crypt) (hopen : s.openPlace h false p n) : (s.readMarked who p n c).fenced p = false := by
  rcases hopen with hlpddr | ⟨hsram, hfence, -, -⟩
  · exact State.fenced_lpddr _ hlpddr
  · have halike := (State.AccessAlike.refl (s := s)).touch p n false true
    rw [State.readMarked, State.noteBad_sram who n c (decide_eq_true hsram), halike.fenced, hfence]

theorem State.readMarked_loadMem (who : Actor) (c : Crypt) (hopen : s.openPlace h false p n) :
    (s.readMarked who p n c).loadMem p n c = (s.bytesAt p n c, s.poisonedAt p n) := by
  rw [State.loadMem, State.readMarked_fenced who c hopen, if_neg Bool.false_ne_true, State.readMarked_frame]
  rfl

theorem State.readMarked_rawRuns (who : Actor) (c : Crypt) (hopen : s.openPlace h false p n) :
    (s.readMarked who p n c).rawRuns (s.heldBy h) false [.mem ⟨p, n, c⟩] = [] := by
  have hraw : (s.readMarked who p n c).rawSlots (s.heldBy h) false p n = s.rawSlots (s.heldBy h) false p n := by
    rw [State.readMarked_frame]
    rfl
  rw [State.rawRuns, List.flatMap_singleton]
  exact hraw.trans (State.rawSlots_open hopen)

/-- A read of an open place gives what the memory holds there. -/
theorem State.readAt_open (hsome : 0 < n) (hblock : ea % 2048 + n ≤ 2048) (hres : s.resolve who false ea = some (.mem p c))
    (hopen : s.openPlace h false p n) (hkv : s.kvRespected who false ea n) :
    s.readAt who (s.heldBy h) true ea n = some ((s.bytesAt p n c, s.poisonedAt p n), s.readMarked who p n c) := by
  have hkv' := State.readMarked_kvRespected p n c hkv
  have hmarked : (s.touch p n false true).noteBad who [.mem ⟨p, n, c⟩] = s.readMarked who p n c := rfl
  simp [State.readAt, State.runs_mem hsome hblock hres, Run.arrive_open hopen, hmarked, State.noteKv_respected hsome hkv',
    State.kvOpen_respected hsome hkv', State.readMarked_rawRuns who c hopen, Run.load, State.readMarked_loadMem who c hopen]

/-- A run of registers that can be reached is read as it is, and the read changes nothing. -/
theorem State.readAt_registers {r : Run} (hsome : 0 < n) (hkv : s.kvRespected who false ea n) (hruns : s.runs who false ea n = some [r])
    (harrive : Run.arrive false true s r = s) (hnote : s.noteBad who [r] = s) (hraw : s.rawRuns (s.heldBy h) false [r] = []) :
    s.readAt who (s.heldBy h) true ea n = some (r.load s, s) := by
  simp [State.readAt, hruns, harrive, hnote, State.noteKv_respected hsome hkv, State.kvOpen_respected hsome hkv, hraw]

/-- Registers are no blocks of LPDDR. -/
theorem State.noteBad_nil (s : State) (who : Actor) {r : Run} (hnone : ∀ p, r ≠ .mem p) : s.noteBad who [r] = s := by
  cases r with
  | mem p => exact absurd rfl (hnone p)
  | _ => simp [State.noteBad]

/-- An access to a block of an Active hamlet wakes none. -/
theorem State.wakeBlock_active {m : HamletRef} (hpower : (s.hamlet m).power = .active) (w : Bool) (off k : Nat) : s.wakeBlock m w off k = s := by
  unfold State.wakeBlock
  split
  · rfl
  · exact State.wake_active hpower

theorem State.behindFence_lowered {m : HamletRef} (hfence : (s.hamlet m).fence = .lowered) : s.behindFence m = false := by
  simp [State.behindFence, hfence]

/-! ## Writes -/

theorem State.putBytes_touch (s : State) (a k : Nat) (alloc : Bool) (p : Nat) (d : List Byte) (c : Crypt) :
    (s.touch a k write alloc).putBytes p d c = s.putBytes p d c := by
  rw [State.touch_eq]
  cases c <;> rfl

/-- Bytes that are not poisoned are stored, and at most poison is cleared. -/
theorem State.store_effect (s : State) (a : Nat) (d : List Byte) (c : Crypt) :
    (s.store a d c false).mem = s.putBytes a d c ∧
      s.store a d c false = { s with
        mem := (s.store a d c false).mem, blkPoison := (s.store a d c false).blkPoison, sramPoison := (s.store a d c false).sramPoison } := by
  have hpoison (t : State) : (t.poisonAfter a d.length false).mem = t.mem ∧ t.poisonAfter a d.length false = { t with
      blkPoison := (t.poisonAfter a d.length false).blkPoison, sramPoison := (t.poisonAfter a d.length false).sramPoison } := by
    unfold State.poisonAfter
    rw [if_neg Bool.false_ne_true, if_neg Bool.false_ne_true]
    split <;> exact ⟨rfl, rfl⟩
  cases c with
  | noKey => exact ⟨rfl, rfl⟩
  | plain =>
    obtain ⟨hmem, hframe⟩ := hpoison { s with mem := s.putBytes a d .plain }
    exact ⟨hmem, hframe.trans (by rw [← hmem]; rfl)⟩
  | key k =>
    obtain ⟨hmem, hframe⟩ := hpoison { s with mem := s.putBytes a d (.key k) }
    exact ⟨hmem, hframe.trans (by rw [← hmem]; rfl)⟩

/-- After the cache marks of a write: the bytes are those that were there, with the ones stored. -/
theorem State.touch_store_effect (s : State) (a k : Nat) (alloc : Bool) (d : List Byte) (c : Crypt) (u : State)
    (hu : u = (s.touch a k write alloc).store a d c false) :
    u.mem = s.putBytes a d c ∧
      u = { s with parishes := u.parishes, mem := u.mem, blkPoison := u.blkPoison, sramPoison := u.sramPoison } := by
  obtain ⟨hmem, hframe⟩ := (s.touch a k write alloc).store_effect a d c
  rw [← hu] at hmem hframe
  refine ⟨hmem.trans (s.putBytes_touch ..), hframe.trans ?_⟩
  rw [State.touch_eq]
  have hparishes : u.parishes = (s.touch a k write alloc).parishes := (congrArg State.parishes hframe :)
  rw [hparishes]

/-- A write to an open place puts the bytes there; besides, cache marks and the poison of what it covers may differ. -/
theorem State.writeAt_open {d : List Byte} (by_ : Writer) (hsome : 0 < d.length) (hblock : ea % 2048 + d.length ≤ 2048)
    (hres : s.resolve who true ea = some (.mem p c)) (hopen : s.openPlace h true p d.length) (hkv : s.kvRespected who true ea d.length) :
    s.writeAt who by_ (s.heldBy h) true ea d false = some ((s.touch p d.length true true).store p d c false) := by
  have halike := (State.AccessAlike.refl (s := s)).touch p d.length true true
  have hkv' := halike.kvRespected hkv
  have hraw : (s.touch p d.length true true).rawRuns (s.heldBy h) true [.mem ⟨p, d.length, c⟩] = [] := by
    rw [State.rawRuns, List.flatMap_singleton]
    exact (s.rawSlots_touch ..).trans (State.rawSlots_open hopen)
  have hstore := State.storeMem_open (s.touch p d.length true true) d c false ((halike.fenced p).trans (State.fenced_open hopen))
  simp [State.writeAt, State.runs_mem hsome hblock hres, Run.arrive_open hopen, State.noteKv_respected hsome hkv',
    State.noteAdapters_respected hkv', hraw, State.storeRuns, Run.store, Run.len, hstore]

/-- A write to a block of an Active hamlet behind no fence writes the registers that it covers whole. -/
theorem State.writeAt_hamlet {m : HamletRef} {off : Nat} {d : List Byte} (by_ : Writer) (hsome : 0 < d.length)
    (hblock : ea % 2048 + d.length ≤ 2048) (hres : s.resolve who true ea = some (.reg m off)) (hpower : (s.hamlet m).power = .active)
    (hfence : (s.hamlet m).fence = .lowered) (hkv : s.kvRespected who true ea d.length) :
    s.writeAt who by_ (s.heldBy h) true ea d false = some ((wholeWords off d).foldl (fun t w => t.writeHamletReg m by_ w.1 w.2) s) := by
  simp [State.writeAt, State.runs_hamlet hsome hblock hres, Run.arrive, State.wakeBlock_active hpower, State.noteKv_respected hsome hkv,
    State.noteAdapters_respected hkv, State.rawRuns, State.storeRuns, Run.store, Run.len, State.behindFence_lowered hfence]

end

end Sys2Proof.Machine
end

