-- ==== Sys2Proof/Proofs/HandGlobals.lean ====
section
/-! Global loads and stores of a Hand (R139): which exception comes first, what is moved, and the request to another package. -/

namespace Sys2Proof.Machine

section
variable {s : State} {h : HandRef} {who : Actor}

theorem exec_gld {a d : Nat} {off : Word64} (hop : s.handOp h = some (.gld a d off)) :
    exec (.gld h) s = s.globalLoad h ((s.hand h).s a + off) 8 8 (putScalar d) := by
  show execGld h s = _
  simp only [execGld, hop]

theorem exec_gvld {a d : Nat} {off : Word64} (hop : s.handOp h = some (.gvld a d off)) :
    exec (.gvld h) s = s.globalLoad h ((s.hand h).s a + off) 64 4 (putVector d) := by
  show execGvld h s = _
  simp only [execGvld, hop]

theorem exec_gst {a d : Nat} {off : Word64} (hop : s.handOp h = some (.gst a d off)) :
    exec (.gst h) s = s.globalStore h ((s.hand h).s a + off) (toBytes 8 ((s.hand h).s d).toNat) 8 := by
  show execGst h s = _
  simp only [execGst, hop]

theorem exec_gvst {a d : Nat} {off : Word64} (hop : s.handOp h = some (.gvst a d off)) :
    exec (.gvst h) s = s.globalStore h ((s.hand h).s a + off) (vecBytes ((s.hand h).v d)) 4 := by
  show execGvst h s = _
  simp only [execGvst, hop]

theorem exec_gvstn {a b d : Nat} (hop : s.handOp h = some (.gvstn a b d)) (hcount : storeCount ((s.hand h).s b) = true) :
    exec (.gvstn h) s = s.globalStore h ((s.hand h).s a) ((vecBytes ((s.hand h).v d)).take ((s.hand h).s b).toNat) 4 := by
  show execGvstn h s = _
  simp only [execGvstn, hop, hcount, if_true]

/-- Every global load is `State.globalLoad`, of some bytes. -/
theorem State.exec_globalLoads {i : Instr} {ea : Word64} {n align : Nat} {f : List Byte → Hand → Hand} (hissue : s.globalLoads h i ea n align f) :
    exec i s = s.globalLoad h ea n align f ∧ 0 < n := by
  obtain ⟨a, d, off, rfl, ⟨hop, rfl, rfl, rfl, rfl⟩ | ⟨hop, rfl, rfl, rfl, rfl⟩⟩ := hissue
  · exact ⟨exec_gld hop, by decide⟩
  · exact ⟨exec_gvld hop, by decide⟩

/-- Every global store is `State.globalStore`, of some bytes. -/
theorem State.exec_globalStores {i : Instr} {ea : Word64} {data : List Byte} {align : Nat} (hissue : s.globalStores h i ea data align) :
    exec i s = s.globalStore h ea data align ∧ 0 < data.length := by
  rcases hissue with ⟨a, d, off, hop, rfl, rfl, rfl, rfl⟩ | ⟨a, d, off, hop, rfl, rfl, rfl, rfl⟩ | ⟨a, b, d, hop, rfl, rfl, hpos, hmax, rfl, rfl⟩
  · exact ⟨exec_gst hop, by rw [length_toBytes]; decide⟩
  · exact ⟨exec_gvst hop, by rw [length_vecBytes]; decide⟩
  · exact ⟨exec_gvstn hop (storeCount_eq_true hpos hmax), by rw [length_take_vecBytes hmax]; exact hpos⟩

/-! ## The exception of a global access (R139) -/

section
variable {write : Bool} {ea : Word64} {n align : Nat}

theorem State.globalCause_unreached (hreach : s.reaches who write ea.toNat n = false) : s.globalCause who write ea n align = some .access := by
  simp only [State.globalCause, hreach, Bool.false_eq_true, if_false]

theorem State.globalCause_misaligned (hreach : s.reaches who write ea.toNat n = true) (halign : ea.toNat % align ≠ 0) :
    s.globalCause who write ea n align = some .align := by
  rw [State.globalCause, if_pos hreach, if_pos halign]

/-- An aligned access in one block that reaches something meets none. -/
theorem State.globalCause_block {x : Target} (hsome : 0 < n) (hblock : ea.toNat % 2048 + n ≤ 2048) (halign : ea.toNat % align = 0)
    (hres : s.resolve who write ea.toNat = some x) : s.globalCause who write ea n align = none := by
  rw [State.globalCause, State.reaches_block hsome hblock, hres]
  simp [halign]

end

/-! ## Another package (R309, R317) -/

/-- The Hand that waits for the answer of another package to a request, or raises ACCESS where it could not be sent. -/
def State.awaits (s : State) (h : HandRef) (ea : Word64) : Option State → State
  | some t => t.retire h fun x => { x with wait := .remote, waitFrom := s.mclk, stalled := false, rbuf := {} }
  | none => s.except h .access ea

/-- A load from another package inside one block asks once. -/
theorem State.remoteAccess_load {ea : Word64} {n : Nat} (hh : Nat) (hsome : 0 < n) (hblock : ea.toNat % 2048 + n ≤ 2048) :
    s.remoteAccess h hh ea n none = s.awaits h ea (s.request h.die 1 ea.toNat hh n [] false (.handLoad h 0)) := by
  unfold State.remoteAccess
  simp only [pieces_block hsome hblock, List.foldl_cons, List.foldl_nil, Option.bind_some, Nat.sub_self]
  cases s.request h.die 1 ea.toNat hh n [] false (.handLoad h 0) <;> rfl

/-- A store to one sends its bytes once. -/
theorem State.remoteAccess_store {ea : Word64} {data : List Byte} (hh : Nat) (hsome : 0 < data.length)
    (hblock : ea.toNat % 2048 + data.length ≤ 2048) :
    s.remoteAccess h hh ea data.length (some data) =
      s.awaits h ea (s.request h.die 0 ea.toNat hh data.length data false (.handStore h)) := by
  have hwhole : slice data 0 data.length = data := by simp [slice]
  unfold State.remoteAccess
  simp only [pieces_block hsome hblock, List.foldl_cons, List.foldl_nil, Option.bind_some, Nat.sub_self, hwhole]
  cases s.request h.die 0 ea.toNat hh data.length data false (.handStore h) <;> rfl

/-! ## Loads -/

section
variable {ea : Word64} {n align : Nat} {f : List Byte → Hand → Hand}

/-- A Hand without a job reaches nothing. -/
theorem State.globalLoad_jobless (hjob : s.handActor h = none) : s.globalLoad h ea n align f = .next (s.except h .access ea) := by
  simp only [State.globalLoad, hjob]

theorem State.globalLoad_cause {cause : Cause} (hwho : s.handActor h = some who) (hcause : s.globalCause who false ea n align = some cause) :
    s.globalLoad h ea n align f = .next (s.except h cause ea) := by
  simp only [State.globalLoad, hwho, hcause]

theorem State.globalLoad_remote (hwho : s.handActor h = some who) (hcause : s.globalCause who false ea n align = none)
    (hremote : s.isRemote who false ea.toNat = true) : s.globalLoad h ea n align f = .next (s.remoteAccess h who.household ea n none) := by
  simp only [State.globalLoad, hwho, hcause, hremote, if_true]

theorem State.globalLoad_read {b : List Byte} {poison : Bool} {t : State} (hwho : s.handActor h = some who)
    (hcause : s.globalCause who false ea n align = none) (hhere : s.isRemote who false ea.toNat = false)
    (hread : s.readAt who (s.heldBy h) true ea.toNat n = some ((b, poison), t)) :
    s.globalLoad h ea n align f = .next (if poison then t.except h .poison ea else t.retire h fun x => (f b x).advance) := by
  simp only [State.globalLoad, hwho, hcause, hhere, hread, Bool.false_eq_true, if_false]
  cases poison <;> rfl

/-- A load from registers that can be reached gives their bytes and changes nothing else. -/
theorem State.handDoes_registers {i : Instr} {r : Run} {b : List Byte} (hexec : exec i s = s.globalLoad h ea n align f)
    (hwho : s.handActor h = some who) (hcause : s.globalCause who false ea n align = none) (hhere : s.isRemote who false ea.toNat = false)
    (hsome : 0 < n) (hkv : s.kvRespected who false ea.toNat n) (hruns : s.runs who false ea.toNat n = some [r])
    (harrive : Run.arrive false true s r = s) (hnone : ∀ p, r ≠ .mem p) (hload : r.load s = (b, false)) :
    s.handDoes i h fun x => (f b x).advance := by
  have hraw : s.rawRuns (s.heldBy h) false [r] = [] := by
    cases r with
    | mem p => exact absurd rfl (hnone p)
    | _ => rfl
  have hread := State.readAt_registers hsome hkv hruns harrive (s.noteBad_nil who hnone) hraw
  rw [hload] at hread
  exact State.handDoes_retire (hexec.trans (State.globalLoad_read hwho hcause hhere hread))

end

/-! ## Stores -/

section
variable {ea : Word64} {data : List Byte} {align : Nat}

theorem State.globalStore_jobless (hjob : s.handActor h = none) : s.globalStore h ea data align = .next (s.except h .access ea) := by
  simp only [State.globalStore, hjob]

theorem State.globalStore_cause {cause : Cause} (hwho : s.handActor h = some who)
    (hcause : s.globalCause who true ea data.length align = some cause) : s.globalStore h ea data align = .next (s.except h cause ea) := by
  simp only [State.globalStore, hwho, hcause]

theorem State.globalStore_remote (hwho : s.handActor h = some who) (hcause : s.globalCause who true ea data.length align = none)
    (hremote : s.isRemote who true ea.toNat = true) :
    s.globalStore h ea data align = .next (s.remoteAccess h who.household ea data.length (some data)) := by
  simp only [State.globalStore, hwho, hcause, hremote, if_true]

theorem State.globalStore_write {t : State} (hwho : s.handActor h = some who) (hcause : s.globalCause who true ea data.length align = none)
    (hhere : s.isRemote who true ea.toNat = false)
    (hwrite : s.writeAt who (.hand h) (s.heldBy h) true ea.toNat data false = some t) :
    s.globalStore h ea data align = .next (t.retire h Hand.advance) := by
  simp only [State.globalStore, hwho, hcause, hhere, hwrite, Bool.false_eq_true, if_false]

end

/-- What an address reaches in this package is not remote. -/
theorem State.isRemote_of_resolve {write : Bool} {ea : Nat} {x : Target} (hres : s.resolve who write ea = some x) (hhere : ∀ e, x ≠ .remote e) :
    s.isRemote who write ea = false := by
  cases x with
  | remote e => exact absurd rfl (hhere e)
  | _ => simp only [State.isRemote, hres]

theorem State.isRemote_remote {write : Bool} {ea e : Nat} (hres : s.resolve who write ea = some (.remote e)) : s.isRemote who write ea = true := by
  simp only [State.isRemote, hres]

end

/-- Settles O12: `State.globalCause` orders ACCESS before ALIGN, one block is one run or one request, and its read is `State.readAt_open` or
`State.readAt_registers`. -/
theorem handGlobalLoads : Obligations.HandGlobalLoads := by
  unfold Obligations.HandGlobalLoads
  intro s h i ea n align f hissue
  obtain ⟨hexec, hsome⟩ := State.exec_globalLoads hissue
  refine ⟨fun hjob => handDoes_except (hexec.trans (State.globalLoad_jobless hjob)), fun who hwho =>
    ⟨fun hreach => handDoes_except (hexec.trans (State.globalLoad_cause hwho (State.globalCause_unreached hreach))),
      fun hreach hodd => handDoes_except (hexec.trans (State.globalLoad_cause hwho (State.globalCause_misaligned hreach hodd))),
      fun halign hblock => ?_⟩⟩
  have hcause {x : Target} (hres : s.resolve who false ea.toNat = some x) : s.globalCause who false ea n align = none :=
    State.globalCause_block hsome hblock halign hres
  refine ⟨fun x hres => ?remote, fun hkv => ⟨fun p c hres hopen => ?memory, fun m off hres hpower hfence => ?hamlet, fun q off hres => ?granary,
    fun q off hres => ?controller⟩⟩
  case remote =>
    rw [hexec, State.globalLoad_remote hwho (hcause hres) (State.isRemote_remote hres), State.remoteAccess_load _ hsome hblock]
    rfl
  case memory =>
    have hread := State.globalLoad_read (f := f) hwho (hcause hres) (State.isRemote_of_resolve hres nofun)
      (State.readAt_open hsome hblock hres hopen hkv)
    have hframe := s.readMarked_frame who p n c
    have hhamlets : (s.readMarked who p n c).hamlets = s.hamlets := (congrArg State.hamlets hframe :)
    have hmclk : (s.readMarked who p n c).mclk = s.mclk := (congrArg State.mclk hframe :)
    refine ⟨fun hsound => ?_, fun hpoison => ?_⟩
    · rw [hsound, if_neg Bool.false_ne_true] at hread
      obtain ⟨hothers, hhand⟩ := State.retire_otherHands h (fun x => (f (s.bytesAt p n c) x).advance) hhamlets hmclk
      refine ⟨_, hexec.trans hread, hhand, hothers, ?_⟩
      rw [hframe, State.readMarked_sound who c hsound]
      rfl
    · rw [hpoison, if_pos rfl] at hread
      obtain ⟨hothers, hhand⟩ := State.retire_otherHands h (fun x => x.exception .poison ea) hhamlets hmclk
      refine ⟨_, hexec.trans hread, hhand, hothers, ?_⟩
      rw [hframe]
      rfl
  case hamlet =>
    exact State.handDoes_registers hexec hwho (hcause hres) (State.isRemote_of_resolve hres nofun) hsome hkv
      (State.runs_hamlet hsome hblock hres) (State.wakeBlock_active hpower ..) nofun (by simp [Run.load, State.behindFence_lowered hfence])
  case granary =>
    exact State.handDoes_registers hexec hwho (hcause hres) (State.isRemote_of_resolve hres nofun) hsome hkv
      (State.runs_gran hsome hblock hres) rfl nofun rfl
  case controller =>
    exact State.handDoes_registers hexec hwho (hcause hres) (State.isRemote_of_resolve hres nofun) hsome hkv
      (State.runs_ctl hsome hblock hres) rfl nofun rfl

/-- Settles O13: as for loads, with `State.writeAt_open` and `State.writeAt_hamlet`. -/
theorem handGlobalStores : Obligations.HandGlobalStores := by
  unfold Obligations.HandGlobalStores
  intro s h i ea data align hissue
  obtain ⟨hexec, hsome⟩ := State.exec_globalStores hissue
  refine ⟨fun hjob => handDoes_except (hexec.trans (State.globalStore_jobless hjob)), fun who hwho =>
    ⟨fun hreach => handDoes_except (hexec.trans (State.globalStore_cause hwho (State.globalCause_unreached hreach))),
      fun hreach hodd => handDoes_except (hexec.trans (State.globalStore_cause hwho (State.globalCause_misaligned hreach hodd))),
      fun halign hblock => ?_⟩⟩
  have hcause {x : Target} (hres : s.resolve who true ea.toNat = some x) : s.globalCause who true ea data.length align = none :=
    State.globalCause_block hsome hblock halign hres
  refine ⟨fun x hres => ?remote, fun hkv => ⟨fun p c hwf hres hopen => ?memory, fun m off hres hpower hfence => ?hamlet⟩⟩
  case remote =>
    rw [hexec, State.globalStore_remote hwho (hcause hres) (State.isRemote_remote hres), State.remoteAccess_store _ hsome hblock]
    rfl
  case memory =>
    have hwrite := State.globalStore_write hwho (hcause hres) (State.isRemote_of_resolve hres nofun)
      (State.writeAt_open (.hand h) hsome hblock hres hopen hkv)
    generalize hstored : (s.touch p data.length true true).store p data c false = u at hwrite
    obtain ⟨hmem, hframe⟩ := s.touch_store_effect p data.length true data c u hstored.symm
    obtain ⟨hothers, hhand⟩ := State.retire_otherHands (s := s) (u := u) h Hand.advance (congrArg State.hamlets hframe :)
      (congrArg State.mclk hframe :)
    refine ⟨_, hexec.trans hwrite, hhand, hothers, hmem, fun hplain => State.memHas_write hwf (hmem.trans (by rw [hplain]; rfl)), ?_⟩
    rw [hframe]
    rfl
  case hamlet =>
    exact hexec.trans (State.globalStore_write hwho (hcause hres) (State.isRemote_of_resolve hres nofun)
      (State.writeAt_hamlet (.hand h) hsome hblock hres hpower hfence hkv))

end Sys2Proof.Machine
end

