-- ==== Sys2Proof/Proofs/JobLoads.lean ====
section
/-! How JOB_LOAD places a job (R31, R188, R355): the checks that find nothing to retire, the slots, and what a job takes. -/

namespace Sys2Proof.Machine

/-! ## A command that runs -/

section
variable {s : State} {k op : Nat} {c : Command}

theorem State.command_runs (hruns : s.commandRuns k op c) (body : Command → Reply) :
    s.command k op body = .next ((body c).state.completeCmd k c (body c).status (body c).result) := by
  obtain ⟨hcur, hserves, hop, hstate, hturn⟩ := hruns
  unfold State.command
  rw [hcur]
  have hgo : ¬(s.serves = false ∨ c.opcode.toNat ≠ op ∨ s.turn k c = false) := by simp [hserves, hop, hturn]
  have hdefined : ¬(s.ident.state = .undefined ∧ runsUndefined op = false) := fun h => by
    rcases hstate with hstate | hstate
    · exact hstate h.1
    · rw [hstate] at h
      exact absurd h.2 (by decide)
  exact (if_neg hgo).trans (if_neg hdefined)

/-- A command that runs replies what its body says. -/
theorem State.replies_of_command {i : Instr} {body : Command → Reply} {r : Reply} (hexec : exec i s = s.command k op body)
    (hruns : s.commandRuns k op c) (hbody : body c = r) : s.replies i k c r.status r.result r.state := by
  unfold State.replies
  rw [hexec, State.command_runs hruns, hbody]

theorem State.forJob_absent {f : Nat → Job → Reply} (h : s.jobs.find (c.arg 0) = none) : s.forJob k c f = refuse s stNotFound := by
  unfold State.forJob
  rw [h]

theorem State.forJob_apart {j : Job} {f : Nat → Job → Reply} (h : s.jobs.find (c.arg 0) = some j) (hbox : s.boxReaches k j.household = false) :
    s.forJob k c f = refuse s stNotFound := by
  unfold State.forJob
  rw [h]
  exact if_neg (by simp [hbox])

theorem State.forJob_reached {j : Job} {f : Nat → Job → Reply} (h : s.jobs.find (c.arg 0) = some j) (hbox : s.boxReaches k j.household = true) :
    s.forJob k c f = f (c.arg 0) j := by
  unfold State.forJob
  rw [h]
  exact if_pos hbox

end

/-! ## Folds -/

/-- Steps that each do nothing. -/
theorem foldl_idle {α β : Type} {f : β → α → β} {l : List α} {b : β} (h : ∀ x ∈ l, f b x = b) : l.foldl f b = b :=
  List.foldlRecOn (motive := fun t => t = b) l f rfl fun t ht x hx => by rw [ht, h x hx]

/-- What one step of a fold brings about, where the invariant `I` holds, and the other steps keep. -/
theorem foldl_reaches {α β : Type} {f : β → α → β} {I P : β → Prop} {l : List α} {x : α} (hx : x ∈ l) {b : β} (hI : I b)
    (hkeeps : ∀ t, I t → ∀ y ∈ l, I (f t y)) (hdoes : ∀ t, I t → P (f t x)) (hstays : ∀ t, I t → P t → ∀ y ∈ l, P (f t y)) :
    P (l.foldl f b) := by
  obtain ⟨l₁, l₂, rfl⟩ := List.append_of_mem hx
  rw [List.foldl_append, List.foldl_cons]
  have h₁ : I (l₁.foldl f b) := List.foldlRecOn l₁ f hI fun t ht y hy => hkeeps t ht y (by simp [hy])
  exact (List.foldlRecOn (motive := fun t => I t ∧ P t) l₂ f ⟨hkeeps _ h₁ x hx, hdoes _ h₁⟩ fun t ht y hy =>
    ⟨hkeeps t ht.1 y (by simp [hy]), hstays t ht.1 ht.2 y (by simp [hy])⟩).2

/-- What no step of a fold changes. -/
theorem foldl_keeps {α β γ : Type} (g : β → γ) {f : β → α → β} (h : ∀ t x, g (f t x) = g t) (l : List α) (b : β) : g (l.foldl f b) = g b :=
  List.foldlRecOn (motive := fun t => g t = g b) l f rfl fun t ht x _ => (h t x).trans ht

/-- A result of a list of partial results is one of them. -/
theorem mem_of_mapM_some {α β : Type} {f : α → Option β} {l : List α} {r : List β} (h : l.mapM f = some r) {y : β} (hy : y ∈ r) :
    ∃ x ∈ l, f x = some y := by
  induction l generalizing r with
  | nil =>
    simp only [List.mapM_nil, Option.pure_def, Option.some.injEq] at h
    subst h
    exact absurd hy (by simp)
  | cons a l ih =>
    simp only [List.mapM_cons, Option.pure_def, Option.bind_eq_bind, Option.bind_eq_some_iff, Option.some.injEq] at h
    obtain ⟨b, hb, t, ht, rfl⟩ := h
    rcases List.mem_cons.1 hy with rfl | hy
    · exact ⟨a, by simp, hb⟩
    · obtain ⟨x, hx, hfx⟩ := ih ht hy
      exact ⟨x, List.mem_cons_of_mem _ hx, hfx⟩

/-! ## The tests before a placement find nothing -/

section
variable {s : State}

/-- No slot reported a hardware fault. -/
theorem State.retireFaulty_sound (h : ∀ x ∈ s.hamlets.cells, x.2.hwFault = false) : s.retireFaulty = s :=
  foldl_idle fun x hx => if_neg (by simp [h x hx])

theorem State.tryGranules_sound (h : s.defects = []) (p : ParishRef) (n : Nat) (l : List Nat) : (s.tryGranules p n l).2 = [] := by
  have hgood (g : Nat) : s.granuleBad p g = false := by simp [State.granuleBad, h]
  induction l generalizing n with
  | nil => cases n <;> rfl
  | cons g l ih =>
    cases n with
    | zero => rfl
    | succ n => simpa [State.tryGranules, hgood g] using ih n

/-- No bank is defective. -/
theorem State.retireBad_sound (h : s.defects = []) (hh hint : Nat) (l : List PlaceSpec) : s.retireBad hh hint l = s :=
  foldl_idle fun x _ => by rw [State.tryGranules_sound h, List.foldl_nil]

/-- No Mill of a slot waits for its test (R97). -/
def Hamlet.sound (x : Hamlet) : Prop := ∀ u ∈ x.mills.cells, u.2.retirePending = false

theorem State.testSlot_sound {m : HamletRef} (h : (s.hamlet m).sound) (repair : List MillRef) : s.testSlot repair m = s := by
  have hdue : (s.hamlet m).mills.cells.filter (fun c => c.2.retirePending) = [] := List.filter_eq_nil_iff.2 fun u hu => by simp [h u hu]
  unfold State.testSlot
  simp [hdue]

/-- A hamlet that the state lists is one of its cells; any other is at its cold values. -/
theorem State.hamlet_sound (h : ∀ x ∈ s.hamlets.cells, x.2.sound) (m : HamletRef) : (s.hamlet m).sound := by
  unfold State.hamlet Tab.get
  cases hfind : s.hamlets.find (slotKey m.die m.slot) with
  | none => exact fun u hu => absurd hu (by simp)
  | some x => exact h _ (Tab.find_mem _ hfind)

theorem State.testFor_sound (h : ∀ x ∈ s.hamlets.cells, x.2.sound) (repair : List MillRef) (w : Nat × Nat) : State.testFor repair s w = s := by
  unfold State.testFor
  simp only [State.testSlot_sound (State.hamlet_sound h _), ite_self]

/-- A free slot has no stand-in to test. -/
theorem State.testFor_free {w : Nat × Nat} (hfree : s.freeSlotAt ⟨w.1, w.2⟩ = true) (h : (s.hamlet ⟨w.1, w.2⟩).sound) (repair : List MillRef) :
    State.testFor repair s w = s := by
  have hgood : (s.hamlet ⟨w.1, w.2⟩).retired = false := by
    simp only [State.freeSlotAt, Bool.and_eq_true, Bool.not_eq_true'] at hfree
    exact hfree.1.1
  unfold State.testFor
  simp [State.testSlot_sound h, hgood]

/-! ## Slots -/

theorem State.available_of_free {d k : Nat} (hfree : s.freeSlotAt ⟨d, k⟩ = true) : s.unavailable d k = false := by
  simp only [State.freeSlotAt, Bool.and_eq_true, Bool.not_eq_true'] at hfree
  simp [State.unavailable, hfree.1.1]

/-- A logical hamlet on its own slot. -/
def JobImage.ownPlace (im : JobImage) (w : Nat × Nat) : Placed := ⟨w.1, w.2, w.2, false, im.hint w.1 w.2⟩

/-- Where the slots are free, each logical hamlet is on its own (R8). -/
theorem State.placeAll_free (im : JobImage) {l : List (Nat × Nat)} (h : ∀ w ∈ l, s.freeSlotAt ⟨w.1, w.2⟩ = true) (acc : List Placed) :
    s.placeAll im acc l = some (acc ++ l.map im.ownPlace) := by
  induction l generalizing acc with
  | nil => simp [State.placeAll]
  | cons w l ih =>
    have hfree := h w List.mem_cons_self
    simp [State.placeAll, State.available_of_free hfree, hfree, ih (fun v hv => h v (List.mem_cons_of_mem _ hv)), JobImage.ownPlace]

theorem State.placeAll_unavailable (im : JobImage) {l : List (Nat × Nat)} (h : ∃ w ∈ l, s.unavailable w.1 w.2 = true) (acc : List Placed) :
    s.placeAll im acc l = none := by
  induction l generalizing acc with
  | nil => simp at h
  | cons w l ih =>
    obtain ⟨v, hv, hout⟩ := h
    rcases List.mem_cons.1 hv with rfl | hv
    · simp [State.placeAll, hout]
    · simp [State.placeAll, ih ⟨v, hv, hout⟩]

/-! ## Granules and the number of the job -/

theorem State.mem_tryGranules {p : ParishRef} {n : Nat} {l : List Nat} {g : Nat} (h : g ∈ (s.tryGranules p n l).1) : g ∈ l := by
  induction l generalizing n with
  | nil => cases n <;> exact absurd h (by simp [State.tryGranules])
  | cons a l ih =>
    cases n with
    | zero => exact absurd h (by simp [State.tryGranules])
    | succ n =>
      unfold State.tryGranules at h
      split at h
      · exact List.mem_cons_of_mem _ (ih h)
      · rcases List.mem_cons.1 h with rfl | h
        · exact List.mem_cons_self
        · exact List.mem_cons_of_mem _ (ih h)

/-- Only granules in cache mode are taken. -/
theorem State.pickGranules_cache {hint : Nat} {l : List PlaceSpec} {gs : List (ParishRef × Nat)} (h : s.pickGranules hint l = some gs)
    {g : ParishRef × Nat} (hg : g ∈ gs) : g.2 < 40 ∧ (s.parish g.1).scratch.getLsbD g.2 = false := by
  obtain ⟨r, hr, rfl⟩ := Option.map_eq_some_iff.1 h
  obtain ⟨y, hy, hgy⟩ := List.mem_flatten.1 hg
  obtain ⟨c, -, hc⟩ := mem_of_mapM_some hr hy
  dsimp only at hc
  split at hc
  · exact absurd hc (by simp)
  · cases hc
    obtain ⟨i, hi, rfl⟩ := List.mem_map.1 hgy
    have hfree := State.mem_tryGranules hi
    simp only [State.freeGranules, List.mem_filter, List.mem_map, Bool.and_eq_true, Bool.not_eq_true'] at hfree
    obtain ⟨⟨x, -, rfl⟩, ⟨hscratch, -⟩, -⟩ := hfree
    exact ⟨Nat.mod_lt _ (by decide), hscratch⟩

theorem State.freeJob_unused {hint n : Nat} (h : s.freeJob hint = some n) : 1 ≤ n ∧ n ≤ 65535 ∧ s.jobs.find n = none := by
  obtain ⟨i, -, hi⟩ := List.mem_map.1 (List.mem_of_find?_eq_some h)
  have hnone := List.find?_some h
  exact ⟨by omega, by omega, by simpa using hnone⟩

end

/-! ## The answers of a placement -/

section
variable {s : State} (hh : Nat) (im : JobImage) (hint : Nat) (repair : List MillRef)

theorem State.placeJob_refused (h : (im.dies ≠ 0 ∧ im.dies ≠ s.dieCount) ∨ im.engineWants.any s.heldEngine = true ∨ s.sliceOk im = false) :
    s.placeJob hh im hint repair = refuse s stUnplaceable := by
  unfold State.placeJob
  refine if_pos ?_
  rcases h with h | h | h
  · exact .inl h
  · exact .inr (.inr (.inr (.inr h)))
  · exact .inr (.inr (.inl h))

theorem State.placeJob_unavailable (hfault : ∀ x ∈ s.hamlets.cells, x.2.hwFault = false) (hdefects : s.defects = [])
    (hsound : ∀ x ∈ s.hamlets.cells, x.2.sound) (hout : ∃ w ∈ im.wants, s.unavailable w.1 w.2 = true) :
    s.placeJob hh im hint repair = refuse s stUnplaceable := by
  have htest : im.wants.foldl (State.testFor repair) s = s := foldl_idle fun w _ => State.testFor_sound hsound repair w
  unfold State.placeJob
  simp only [State.retireFaulty_sound hfault, State.retireBad_sound hdefects, htest, State.placeAll_unavailable im hout]
  split
  · rfl
  · cases s.pickGranules (hint / 65536) im.places <;> rfl

theorem State.placeJob_placed {gs : List (ParishRef × Nat)} {n : Nat} (hdies : im.dies = 0 ∨ im.dies = s.dieCount)
    (hplaces : ∀ p ∈ im.places, p.die < s.dieCount) (hslice : s.sliceOk im = true) (hpeers : s.peers (im :: s.heldImages) ≤ 8192)
    (hengines : im.engineWants.any s.heldEngine = false) (hfault : ∀ x ∈ s.hamlets.cells, x.2.hwFault = false) (hdefects : s.defects = [])
    (hwants : ∀ w ∈ im.wants, s.freeSlotAt ⟨w.1, w.2⟩ = true ∧ (s.hamlet ⟨w.1, w.2⟩).sound)
    (hgranules : s.pickGranules (hint / 65536) im.places = some gs) (hnumber : s.freeJob hint = some n) :
    s.placeJob hh im hint repair = done (s.takeJob n hh im (im.wants.map im.ownPlace) gs) n := by
  have htest : im.wants.foldl (State.testFor repair) s = s :=
    foldl_idle fun w hw => State.testFor_free (hwants w hw).1 (hwants w hw).2 repair
  have hplace := State.placeAll_free im (fun w hw => (hwants w hw).1) []
  have hdie : (im.places.any fun p => decide (s.dieCount ≤ p.die)) = false :=
    List.any_eq_false.2 fun p hp => by simpa using hplaces p hp
  unfold State.placeJob
  rw [if_neg (by rw [hdie, hslice, hengines]; simp; omega)]
  simp only [State.retireFaulty_sound hfault, State.retireBad_sound hdefects, hgranules, htest, hplace, hnumber, List.nil_append]

end

/-! ## What a job takes -/

/-- One value set at several keys. -/
theorem Tab.get_foldl_set {α : Type} (l : List Nat) (t : Tab α) (d v : α) (k : Nat) :
    (l.foldl (fun t i => t.set i v) t).get d k = if k ∈ l then v else t.get d k := by
  induction l generalizing t with
  | nil => simp
  | cons i l ih =>
    rw [List.foldl_cons, ih]
    by_cases hl : k ∈ l
    · simp [hl]
    · by_cases hi : k = i
      · subst hi
        simp [hl]
      · simp [hl, hi]

section
variable (s : State)

/-- A hamlet is known by the key of its slot. -/
theorem State.hamlet_congr {m k : HamletRef} (h : slotKey m.die m.slot = slotKey k.die k.slot) : s.hamlet m = s.hamlet k := by
  unfold State.hamlet
  rw [h]

/-- Of the Hands, those of a slot that is taken are new and know their hamlet. -/
theorem State.hand_takeSlotFor (p : Placed) (h : HandRef) :
    (s.takeSlotFor p).hand h =
      if slotKey h.die h.slot = slotKey p.die p.slot ∧ h.idx < 4 then { hamlet := BitVec.ofNat 4 p.logical } else s.hand h := by
  unfold State.hand
  by_cases hslot : slotKey h.die h.slot = slotKey p.die p.slot
  · rw [State.hamlet_congr _ (m := handSlot h) (k := ⟨p.die, p.slot⟩) hslot, State.hamlet_congr s (m := handSlot h) (k := ⟨p.die, p.slot⟩) hslot,
      State.takeSlotFor, State.hamlet_modHamlet, Tab.get_foldl_set]
    simp [hslot]
  · have hother : (s.takeSlotFor p).hamlet (handSlot h) = s.hamlet (handSlot h) := State.hamlet_modHamlet_ne (h := hslot) ..
    rw [if_neg fun hc => hslot hc.1, hother]

/-- Parish `c.1` has granule `c.2` as scratch of job `n`, and no byte of it is set (R188). -/
def State.granuleTaken (t : State) (n : Nat) (c : ParishRef × Nat) : Prop :=
  (t.parish c.1).scratch.getLsbD c.2 = true ∧ (t.parish c.1).owner.find c.2 = some n ∧
    ∀ x ∈ t.mem, x.1 < granuleAddr c.1.die (granuleNo c.1 c.2) 0 ∨ granuleAddr c.1.die (granuleNo c.1 c.2) 0 + granuleBytes ≤ x.1

variable {s}

/-- A granule that is taken reads as zeros. -/
theorem State.granuleTaken_zero {n : Nat} {c : ParishRef × Nat} (h : s.granuleTaken n c) {o : Nat} (ho : o < 0x100000) :
    s.mem.read (granuleAddr c.1.die (granuleNo c.1 c.2) o) = 0 := by
  obtain ⟨-, -, hclear⟩ := h
  suffices hnone : lookupCell s.mem (granuleAddr c.1.die (granuleNo c.1 c.2) o) = none by
    rw [Memory.read, hnone]
    rfl
  cases hfound : lookupCell s.mem (granuleAddr c.1.die (granuleNo c.1 c.2) o) with
  | none => rfl
  | some v =>
    have hout := hclear _ (lookupCell_mem _ hfound)
    simp only [granuleAddr, granuleBytes] at hout
    omega

theorem State.fillRegion_sound (h : s.defects = []) (a n : Nat) : s.fillRegion a n = s.zeroSram a n := by
  unfold State.fillRegion
  rw [h]
  rfl

theorem State.takeGranule_sound (h : s.defects = []) (n : Nat) (c : ParishRef × Nat) :
    State.takeGranule n s c = (s.zeroSram (granuleAddr c.1.die (granuleNo c.1 c.2) 0) granuleBytes).modParish c.1 fun x =>
      { x.flushed with scratch := x.scratch ||| BitVec.ofNat 40 (2 ^ c.2), owner := x.owner.set c.2 n } := by
  unfold State.takeGranule
  rw [State.fillRegion_sound h]

theorem State.granuleTaken_takeGranule (h : s.defects = []) (n : Nat) {c : ParishRef × Nat} (hc : c.2 < 40) :
    (State.takeGranule n s c).granuleTaken n c := by
  rw [State.takeGranule_sound h]
  refine ⟨?_, ?_, fun x hx => ?_⟩
  · rw [State.parish_modParish]
    simp only [BitVec.getLsbD_or, BitVec.getLsbD_ofNat, Nat.testBit_two_pow_self, decide_eq_true hc, Bool.and_self, Bool.or_true]
  · simp
  · have hkept := (List.mem_filter.1 hx).2
    simpa using hkept

/-- What a change of a parish keeps holds after the change of any parish. -/
theorem State.parish_modParish_holds {P : Parish → Prop} {p q : ParishRef} {f : Parish → Parish} (hf : ∀ x, P x → P (f x)) (h : P (s.parish p)) :
    P ((s.modParish q f).parish p) := by
  by_cases hkey : parKey p = parKey q
  · have hcongr (t : State) : t.parish p = t.parish q := by
      unfold State.parish
      rw [hkey]
    rw [hcongr, State.parish_modParish]
    exact hf _ (hcongr s ▸ h)
  · have hother : (s.modParish q f).parish p = s.parish p := Tab.get_set_ne _ _ _ hkey
    rwa [hother]

/-- A granule stays taken when the job takes another one. -/
theorem State.granuleTaken_stays (h : s.defects = []) {n : Nat} {c : ParishRef × Nat} (hc : s.granuleTaken n c) (x : ParishRef × Nat) :
    (State.takeGranule n s x).granuleTaken n c := by
  obtain ⟨hscratch, howner, hclear⟩ := hc
  rw [State.takeGranule_sound h]
  refine ⟨?_, ?_, fun y hy => hclear y (List.mem_filter.1 hy).1⟩
  · exact State.parish_modParish_holds (P := fun y => y.scratch.getLsbD c.2 = true) (fun y hy => by simp [hy]) hscratch
  · refine State.parish_modParish_holds (P := fun y => y.owner.find c.2 = some n) (fun y hy => ?_) howner
    rw [Tab.find_set]
    split
    · rfl
    · exact hy

/-- An engine that is assigned to a job changes its parish, and not whose granules are memory. -/
theorem State.assignEngine_eq (s : State) (hh : Nat) (im : JobImage) (c : ParishRef × ParishEngine) :
    ∃ f : Parish → Parish, (∀ x, (f x).granules = x.granules) ∧ State.assignEngine hh im s c = s.modParish c.1 f := by
  obtain ⟨p, e⟩ := c
  have hctrl : ∃ v, State.assignEngine hh im s (p, e) = s.writeEngineCtrl p e v := by
    cases e with
    | press => exact ⟨_, rfl⟩
    | merge => exact ⟨_, rfl⟩
  obtain ⟨v, hv⟩ := hctrl
  refine ⟨_, ?_, hv.trans (by rw [State.writeEngineCtrl])⟩
  intro x
  cases e <;> rfl

theorem State.granuleTaken_assignEngine {n : Nat} {c : ParishRef × Nat} (hc : s.granuleTaken n c) (hh : Nat) (im : JobImage)
    (x : ParishRef × ParishEngine) : (State.assignEngine hh im s x).granuleTaken n c := by
  obtain ⟨hscratch, howner, hclear⟩ := hc
  obtain ⟨f, hf, heq⟩ := s.assignEngine_eq hh im x
  have hsame := State.parish_modParish_keeps Parish.granules hf s x.1 c.1
  simp only [Parish.granules, Prod.mk.injEq] at hsame
  rw [heq]
  exact ⟨hsame.1 ▸ hscratch, hsame.2.2 ▸ howner, hclear⟩

/-- The job that a placement makes. -/
def State.loadedJob (s : State) (hh : Nat) (im : JobImage) (ps : List Placed) (gs : List (ParishRef × Nat)) : Job :=
  { state := .loaded, household := hh, image := im, places := ps, granules := gs, mode := maxMode s.settings.detMode im.reqMode }

/-- A job that has taken its slots, and not yet its granules and engines. -/
def State.takeSlots (s : State) (n : Nat) (j : Job) (ps : List Placed) : State := ps.foldl State.takeSlotFor { s with jobs := s.jobs.set n j }

section
variable (n hh : Nat) (im : JobImage) (ps : List Placed) (gs : List (ParishRef × Nat))

theorem State.takeJob_eq : s.takeJob n hh im ps gs =
    im.engineWants.foldl (State.assignEngine hh im) (gs.foldl (State.takeGranule n) (s.takeSlots n (s.loadedJob hh im ps gs) ps)) := rfl

theorem State.assignEngine_jobs (s : State) (c : ParishRef × ParishEngine) : (State.assignEngine hh im s c).jobs = s.jobs := by
  obtain ⟨f, -, heq⟩ := s.assignEngine_eq hh im c
  rw [heq]
  rfl

theorem State.assignEngine_hamlets (s : State) (c : ParishRef × ParishEngine) : (State.assignEngine hh im s c).hamlets = s.hamlets := by
  obtain ⟨f, -, heq⟩ := s.assignEngine_eq hh im c
  rw [heq]
  rfl

theorem State.takeJob_jobs : (s.takeJob n hh im ps gs).jobs = s.jobs.set n (s.loadedJob hh im ps gs) := by
  rw [State.takeJob_eq, foldl_keeps State.jobs (State.assignEngine_jobs hh im), foldl_keeps State.jobs (f := State.takeGranule n) (fun _ _ => rfl),
    State.takeSlots, foldl_keeps State.jobs (f := State.takeSlotFor) (fun _ _ => rfl)]

/-- The Hands of a slot that a job takes know their hamlet, where the places that share the slot agree on it. -/
theorem State.takeJob_hand {p : Placed} (hp : p ∈ ps) {i : Nat} (hi : i < 4)
    (hown : ∀ q ∈ ps, slotKey p.die p.slot = slotKey q.die q.slot → q.logical = p.logical) :
    (s.takeJob n hh im ps gs).hand ⟨p.die, p.slot, i⟩ = { hamlet := BitVec.ofNat 4 p.logical } := by
  have hhamlets : (s.takeJob n hh im ps gs).hamlets = (s.takeSlots n (s.loadedJob hh im ps gs) ps).hamlets := by
    rw [State.takeJob_eq, foldl_keeps State.hamlets (State.assignEngine_hamlets hh im), 
      foldl_keeps State.hamlets (f := State.takeGranule n) (fun _ _ => rfl)]
  have hhand (t u : State) (h : t.hamlets = u.hamlets) (g : HandRef) : t.hand g = u.hand g := by
    unfold State.hand State.hamlet
    rw [h]
  rw [hhand _ _ hhamlets]
  refine foldl_reaches (I := fun _ => True) (P := fun t : State => t.hand ⟨p.die, p.slot, i⟩ = { hamlet := BitVec.ofNat 4 p.logical }) hp trivial
    (fun _ _ _ _ => trivial) (fun t _ => ?_) fun t _ ht q hq => ?_
  · rw [State.hand_takeSlotFor, if_pos ⟨rfl, hi⟩]
  · rw [State.hand_takeSlotFor]
    split
    next hslot => rw [hown q hq hslot.1]
    next => exact ht

theorem State.takeJob_granule (hdefects : s.defects = []) {g : ParishRef × Nat} (hg : g ∈ gs) (hrange : g.2 < 40) :
    (s.takeJob n hh im ps gs).granuleTaken n g := by
  have hslots : (s.takeSlots n (s.loadedJob hh im ps gs) ps).defects = [] :=
    (foldl_keeps State.defects (f := State.takeSlotFor) (fun _ _ => rfl) ps _).trans hdefects
  have htaken : (gs.foldl (State.takeGranule n) (s.takeSlots n (s.loadedJob hh im ps gs) ps)).granuleTaken n g :=
    foldl_reaches (I := fun t : State => t.defects = []) (P := fun t : State => t.granuleTaken n g) hg hslots (fun _ ht _ _ => ht)
      (fun _ ht => State.granuleTaken_takeGranule ht n hrange) fun _ ht hkept y _ => State.granuleTaken_stays ht hkept y
  rw [State.takeJob_eq]
  exact List.foldlRecOn (motive := fun t : State => t.granuleTaken n g) _ _ htaken fun t ht x _ => State.granuleTaken_assignEngine ht hh im x

end

end

end Sys2Proof.Machine
end

