-- ==== Sys2Proof/Proofs/JobStarts.lean ====
section
/-! What JOB_START sets up (R159, R355, R362). `State.SetsUp` says what every step before the Hands start leaves: the jobs, the bytes of LPDDR
and the hamlet that each Hand knows. -/

namespace Sys2Proof.Machine

/-- Of two states the second is the first with units set up: the jobs, the bytes of LPDDR and the HID of every Hand are the same. -/
structure State.SetsUp (s t : State) : Prop where
  jobs : t.jobs = s.jobs
  wf : s.mem.wf = true → t.mem.wf = true
  lpddr : s.mem.wf = true → ∀ a < sramBase, t.mem.read a = s.mem.read a
  hid : ∀ h, (t.hand h).hamlet = (s.hand h).hamlet

section
variable {s₀ s t : State}

theorem State.SetsUp.refl : s.SetsUp s := ⟨rfl, id, fun _ _ _ => rfl, fun _ => rfl⟩

theorem State.SetsUp.trans {u : State} (hs : s.SetsUp t) (ht : t.SetsUp u) : s.SetsUp u where
  jobs := ht.jobs.trans hs.jobs
  wf h := ht.wf (hs.wf h)
  lpddr h a ha := (ht.lpddr (hs.wf h) a ha).trans (hs.lpddr h a ha)
  hid h := (ht.hid h).trans (hs.hid h)

/-- Any state with the jobs, the memory and the hamlets of another. -/
theorem State.SetsUp.congr (hs : s₀.SetsUp s) (hjobs : t.jobs = s.jobs) (hmem : t.mem = s.mem) (hhamlets : t.hamlets = s.hamlets) : s₀.SetsUp t :=
  hs.trans
    { jobs := hjobs
      wf := by rw [hmem]; exact id
      lpddr := by rw [hmem]; exact fun _ _ _ => rfl
      hid := fun h => by
        unfold State.hand State.hamlet
        rw [hhamlets] }

theorem State.SetsUp.foldl {α : Type} {f : State → α → State} {l : List α} (hs : s₀.SetsUp s) (hf : ∀ t x, s₀.SetsUp t → s₀.SetsUp (f t x)) :
    s₀.SetsUp (l.foldl f s) :=
  List.foldlRecOn l f hs fun t ht x _ => hf t x ht

/-- A change of a hamlet that leaves what its Hands know of their hamlet. -/
theorem State.SetsUp.modHamlet {m : HamletRef} {f : Hamlet → Hamlet} (hs : s₀.SetsUp s)
    (hf : ∀ x i, ((f x).hands.get {} i).hamlet = (x.hands.get {} i).hamlet) : s₀.SetsUp (s.modHamlet m f) :=
  hs.trans
    { jobs := rfl
      wf := id
      lpddr := fun _ _ _ => rfl
      hid := fun h => State.hamlet_modHamlet_keeps (fun x => (x.hands.get {} h.idx).hamlet) (fun x => hf x h.idx) s m (handSlot h) }

theorem State.SetsUp.setHamlet {m : HamletRef} {x : Hamlet} (hs : s₀.SetsUp s)
    (hx : ∀ i, (x.hands.get {} i).hamlet = ((s.hamlet m).hands.get {} i).hamlet) : s₀.SetsUp (s.setHamlet m x) :=
  hs.trans
    { jobs := rfl
      wf := id
      lpddr := fun _ _ _ => rfl
      hid := fun h => by
        unfold State.hand
        by_cases hkey : slotKey h.die h.slot = slotKey m.die m.slot
        · rw [State.hamlet_congr _ (m := handSlot h) (k := m) hkey, State.hamlet_congr s (m := handSlot h) (k := m) hkey, State.hamlet_setHamlet,
            hx]
        · have hother : (s.setHamlet m x).hamlet (handSlot h) = s.hamlet (handSlot h) := Tab.get_set_ne _ _ _ hkey
          rw [hother] }

theorem State.SetsUp.setRing {r : RingRef} {x : Ring} (hs : s₀.SetsUp s) : s₀.SetsUp (s.setRing r x) :=
  hs.modHamlet (f := fun y => { y with rings := y.rings.set r.idx x }) fun _ _ => rfl

theorem State.SetsUp.modRing {r : RingRef} {f : Ring → Ring} (hs : s₀.SetsUp s) : s₀.SetsUp (s.modRing r f) := hs.setRing

theorem State.SetsUp.modParish {p : ParishRef} {f : Parish → Parish} (hs : s₀.SetsUp s) : s₀.SetsUp (s.modParish p f) := hs.congr rfl rfl rfl

theorem State.SetsUp.rouse (hs : s₀.SetsUp s) : s₀.SetsUp s.rouse := by
  unfold State.rouse
  split
  · exact hs.congr rfl rfl rfl
  · exact hs

theorem State.SetsUp.freshBytes {n : Nat} (hs : s₀.SetsUp s) : s₀.SetsUp (s.freshBytes n).2 := hs.congr rfl rfl rfl

/-! ## On-chip memory -/

/-- Zeros in on-chip memory. -/
theorem State.SetsUp.zeroSram {m : HamletRef} {n : Nat} (hs : s₀.SetsUp s) : s₀.SetsUp (s.zeroSram (sramAddr m 0) n) :=
  hs.trans
    { jobs := rfl
      wf := Memory.wf_zero _ _
      lpddr := fun hwf _ ha => Memory.read_zero_out hwf (.inl (Nat.lt_of_lt_of_le ha (of_decide_eq_true (isSram_sramAddr m 0))))
      hid := fun _ => rfl }

/-- Bytes of a scratchpad. -/
theorem State.SetsUp.padWrite {m : HamletRef} {off : Nat} {d : List Byte} (hs : s₀.SetsUp s) : s₀.SetsUp (s.padWrite m off d false) := by
  unfold State.padWrite State.storeMem
  split
  · exact hs
  · obtain ⟨q, hq⟩ := s.store_sram (isSram_sramAddr m off) (d.take (padBytes - off))
    rw [hq]
    exact hs.trans
      { jobs := rfl
        wf := Memory.wf_writeBytes _ _
        lpddr := fun hwf a ha =>
          Memory.read_writeBytes_out hwf _ _ a (.inl (Nat.lt_of_lt_of_le ha (of_decide_eq_true (isSram_sramAddr m off))))
        hid := fun _ => rfl }

/-! ## Hamlets -/

/-- A hamlet that wakes up keeps what its Hands know of their hamlet (R160). -/
theorem Hamlet.woken_hid (x : Hamlet) (i : Nat) : (x.woken.hands.get {} i).hamlet = (x.hands.get {} i).hamlet := by
  have hcold : ((x.hands.mapV fun _ y => { hamlet := y.hamlet }).get {} i).hamlet = (x.hands.get {} i).hamlet := by
    rw [Tab.get_mapV _ _ rfl]
  unfold Hamlet.woken
  split
  · rfl
  · rfl
  · exact hcold
  · exact hcold

theorem State.SetsUp.wake {m : HamletRef} (hs : s₀.SetsUp s) : s₀.SetsUp (s.wake m) := by
  dsimp only [State.wake]
  split
  · exact hs
  · split
    · exact hs
    · refine State.SetsUp.rouse (hs.zeroSram.setHamlet ?_)
      exact (s.hamlet m).woken_hid
    · refine State.SetsUp.rouse (hs.setHamlet ?_)
      exact (s.hamlet m).woken_hid

theorem State.SetsUp.freeRing {r : RingRef} (hs : s₀.SetsUp s) : s₀.SetsUp (s.freeRing r) := hs.freshBytes.padWrite

theorem State.SetsUp.disableRing {r : RingRef} (hs : s₀.SetsUp s) : s₀.SetsUp (s.disableRing r) := by
  dsimp only [State.disableRing]
  split
  exacts [hs.setRing.freeRing, hs.setRing]

theorem State.SetsUp.writeRingCfg {r : RingRef} {v : Word64} (hs : s₀.SetsUp s) : s₀.SetsUp (s.writeRingCfg r v) := by
  unfold State.writeRingCfg
  extract_lets _ w
  have hw : s₀.SetsUp w.2 := by
    dsimp only [w]
    split
    exacts [hs, hs.congr rfl rfl rfl]
  split
  · split
    · split
      exacts [hs, hs.disableRing]
    · exact hs.modHamlet fun _ _ => rfl
  · exact hw.setRing

theorem State.SetsUp.startHamlet {j : Job} {p : Placed} (hs : s₀.SetsUp s) : s₀.SetsUp (s.startHamlet j p) := by
  unfold State.startHamlet
  extract_lets m im t u
  have ht : s₀.SetsUp t := hs.wake.modHamlet fun _ _ => rfl
  have hu : s₀.SetsUp u := by
    dsimp only [u]
    split
    exacts [ht.foldl fun _ _ hv => hv.writeRingCfg, ht]
  exact hu.foldl fun _ _ hv => hv.padWrite

/-! ## The steps of a start -/

theorem State.SetsUp.bindRings {j : Job} (hs : s₀.SetsUp s) : s₀.SetsUp (s.bindRings j) :=
  hs.foldl fun _ _ ht => by
    split
    exacts [ht.modRing, ht]

theorem State.SetsUp.startParish {n : Nat} {j : Job} {p : ParishRef} (hs : s₀.SetsUp s) : s₀.SetsUp (s.startParish n j p) := by
  dsimp only [State.startParish]
  split
  exacts [hs.modParish.modParish, hs.modParish]

theorem State.SetsUp.startStrict {j : Job} (hs : s₀.SetsUp s) : s₀.SetsUp (s.startStrict j) := by
  unfold State.startStrict
  extract_lets a b
  have ha : s₀.SetsUp a := hs.foldl fun _ _ ht => ht.modParish
  have hb : s₀.SetsUp b := ha.congr rfl rfl rfl
  exact hb.foldl fun _ _ ht => ht.modHamlet fun _ _ => rfl

end

/-! ## Hands -/

/-- A Hand that is started still knows its hamlet. -/
theorem Hand.started_hamlet (x : Hand) (seed arg : Word64) (c : Option CodeSpec) : (x.started seed arg c).hamlet = x.hamlet := by
  cases c with
  | none => rfl
  | some c => exact Hand.goto_hamlet ..

/-- Of a Hand's past only its hamlet counts at a start (R159). -/
theorem Hand.started_congr {x y : Hand} (h : x.hamlet = y.hamlet) (seed arg : Word64) (c : Option CodeSpec) :
    x.started seed arg c = y.started seed arg c := by
  unfold Hand.started
  rw [h]

section
variable {s₀ s t : State}

/-- One Hand changes: it is known by the key of its slot and its number. -/
theorem State.hand_modHand_cases (s : State) (g h : HandRef) (f : Hand → Hand) :
    (s.modHand g f).hand h = if slotKey h.die h.slot = slotKey g.die g.slot ∧ h.idx = g.idx then f (s.hand h) else s.hand h := by
  unfold State.hand
  by_cases hslot : slotKey h.die h.slot = slotKey g.die g.slot
  · rw [State.hamlet_congr _ (m := handSlot h) (k := handSlot g) hslot, State.hamlet_congr s (m := handSlot h) (k := handSlot g) hslot,
      State.hamlet_modHand]
    by_cases hidx : h.idx = g.idx
    · rw [if_pos ⟨hslot, hidx⟩, hidx, Tab.get_set_same]
      rfl
    · rw [if_neg fun hc => hidx hc.2, Tab.get_set_ne _ _ _ hidx]
  · have hother : (s.modHand g f).hamlet (handSlot h) = s.hamlet (handSlot h) := State.hamlet_modHamlet_ne (h := hslot) ..
    rw [if_neg fun hc => hslot hc.1, hother]

theorem State.SetsUp.startHand {g : HandRef} {seed arg : Word64} {c : Option CodeSpec} (hs : s₀.SetsUp s) :
    s₀.SetsUp (s.modHand g fun x => x.started seed arg c) :=
  hs.trans
    { jobs := rfl
      wf := id
      lpddr := fun _ _ _ => rfl
      hid := fun h => by
        rw [State.hand_modHand_cases]
        split
        · exact Hand.started_hamlet ..
        · rfl }

theorem State.SetsUp.startHands {j : Job} {seed arg : Word64} {p : Placed} (hs : s₀.SetsUp s) : s₀.SetsUp (s.startHands j seed arg p) :=
  hs.foldl fun _ _ ht => ht.startHand

/-- The code section of a Hand of a placed hamlet. -/
def Job.codeOf (j : Job) (p : Placed) (i : Nat) : Option CodeSpec :=
  j.image.codes.find? fun c => c.die == p.die && c.hamlet == p.logical && c.unit == i

/-- The Hands of a placed hamlet start, and no other Hand changes. -/
theorem State.hand_startHands (s : State) (j : Job) (seed arg : Word64) (p : Placed) (h : HandRef) :
    (s.startHands j seed arg p).hand h =
      if slotKey h.die h.slot = slotKey p.die p.slot ∧ h.idx < 4 then (s.hand h).started seed arg (j.codeOf p h.idx) else s.hand h := by
  have hcases (t : State) (i : Nat) : (t.modHand ⟨p.die, p.slot, i⟩ fun x => x.started seed arg (j.codeOf p i)).hand h =
      if slotKey h.die h.slot = slotKey p.die p.slot ∧ h.idx = i then (t.hand h).started seed arg (j.codeOf p i) else t.hand h :=
    State.hand_modHand_cases ..
  split
  next hin =>
    refine foldl_reaches (I := fun t : State => s.SetsUp t) (P := fun t : State => t.hand h = (s.hand h).started seed arg (j.codeOf p h.idx))
      (List.mem_range.2 hin.2) .refl (fun t ht _ _ => ht.startHand) (fun t ht => ?_) fun t ht hdone i _ => ?_
    · exact (hcases t h.idx).trans ((if_pos ⟨hin.1, rfl⟩).trans (Hand.started_congr (ht.hid h) ..))
    · refine (hcases t i).trans ?_
      split
      next hsame =>
        rw [← hsame.2]
        exact Hand.started_congr (ht.hid h) ..
      next => exact hdone
  next hout =>
    refine List.foldlRecOn (motive := fun t : State => t.hand h = s.hand h) _ _ rfl fun t ht i hi => ?_
    exact (hcases t i).trans ((if_neg fun (hc : _ ∧ h.idx = i) => hout ⟨hc.1, hc.2 ▸ List.mem_range.1 hi⟩).trans ht)

/-- Once the Hands of every place have started, those of a place that shares its slot with no other run its code (R159). -/
theorem State.startHands_places {j : Job} {seed arg : Word64} {p : Placed} (hp : p ∈ j.places) {i : Nat} (hi : i < 4) (hs : s₀.SetsUp s)
    (hown : ∀ q ∈ j.places, slotKey p.die p.slot = slotKey q.die q.slot → q = p) :
    (j.places.foldl (fun t q => t.startHands j seed arg q) s).hand ⟨p.die, p.slot, i⟩ =
      (s₀.hand ⟨p.die, p.slot, i⟩).started seed arg (j.codeOf p i) := by
  refine foldl_reaches (I := fun t : State => s₀.SetsUp t)
    (P := fun t : State => t.hand ⟨p.die, p.slot, i⟩ = (s₀.hand ⟨p.die, p.slot, i⟩).started seed arg (j.codeOf p i)) hp hs
    (fun t ht _ _ => ht.startHands) (fun t ht => ?_) fun t ht hdone q hq => ?_
  · rw [State.hand_startHands, if_pos ⟨rfl, hi⟩]
    exact Hand.started_congr (ht.hid _) ..
  · rw [State.hand_startHands]
    split
    next hsame =>
      rw [hown q hq hsame.1]
      exact Hand.started_congr (ht.hid _) ..
    next => exact hdone

/-! ## The start of a job -/

/-- The package when its units are set up, before a job's Hands start. -/
def State.unitsSet (s : State) (n : Nat) (j : Job) (mode : BitVec 2) : State :=
  let c := j.unitParishes.foldl (fun t p => t.startParish n j p) ((j.places.foldl (fun t p => t.startHamlet j p) s).bindRings j)
  if mode = 2 then c.startStrict j else c

theorem State.unitsSet_setsUp (s : State) (n : Nat) (j : Job) (mode : BitVec 2) : s.SetsUp (s.unitsSet n j mode) := by
  have hhamlets : s.SetsUp (j.places.foldl (fun t p => t.startHamlet j p) s) := State.SetsUp.refl.foldl fun _ _ ht => ht.startHamlet
  have hparishes := (hhamlets.bindRings (j := j)).foldl (f := fun t p => t.startParish n j p) (l := j.unitParishes) fun _ _ ht => ht.startParish
  unfold State.unitsSet
  dsimp only
  split
  exacts [hparishes.startStrict, hparishes]

/-- A job that has started. -/
def State.startedJob (s : State) (j : Job) (mode : BitVec 2) (seed arg : Word64) (limit : Nat) : Job :=
  { j with state := .running, mode := mode, seed := seed, argBlock := arg, logKey := s.jobKey j.image, limitMs := limit, startedAt := s.clock }

variable {n : Nat} {j : Job} (mode : BitVec 2) (seed arg : Word64) (limit : Nat)

/-- The package when the Hands of a job have started, before its record says that it runs. -/
def State.handsSet (s : State) (n : Nat) (j : Job) (mode : BitVec 2) (seed arg : Word64) : State :=
  j.places.foldl (fun t p => t.startHands j seed arg p) (s.unitsSet n j mode)

theorem State.handsSet_setsUp (s : State) (n : Nat) (j : Job) : s.SetsUp (s.handsSet n j mode seed arg) :=
  (s.unitsSet_setsUp n j mode).foldl fun _ _ ht => ht.startHands

theorem State.modJob_found (h : s.jobs.find n = some j) (f : Job → Job) : s.modJob n f = { s with jobs := s.jobs.set n (f j) } := by
  unfold State.modJob
  rw [h]

/-- A start is the units set up, the Hands started and the record. -/
theorem State.startJob_frame (hj : s.jobs.find n = some j) :
    (s.startJob n j mode seed arg limit).jobs = s.jobs.set n (s.startedJob j mode seed arg limit) ∧
      (s.startJob n j mode seed arg limit).mem = (s.handsSet n j mode seed arg).mem ∧
      (s.startJob n j mode seed arg limit).hamlets = (s.handsSet n j mode seed arg).hamlets := by
  have hjobs : (s.handsSet n j mode seed arg).jobs = s.jobs := (s.handsSet_setsUp mode seed arg n j).jobs
  have hfound : (s.handsSet n j mode seed arg).jobs.find n = some j := by rw [hjobs, hj]
  have heq : s.startJob n j mode seed arg limit =
      State.stir { s.handsSet n j mode seed arg with jobs := s.jobs.set n (s.startedJob j mode seed arg limit) } := by
    rw [← hjobs]
    exact congrArg State.stir (State.modJob_found hfound _)
  rw [heq, State.stir_frame]
  exact ⟨rfl, rfl, rfl⟩

/-! ## The header of the argument block -/

/-- The interleaved view moves whole blocks (R195). -/
theorem State.dieLocal_offset {x a : Nat} (h : s.dieLocal x = some a) : a % 2048 = x % 2048 := by
  unfold State.dieLocal at h
  split at h
  next =>
    split at h
    · cases h
      rfl
    · exact absurd h (by simp)
  next hbelow =>
    split at h
    · dsimp only at h
      split at h
      · rw [← Option.some.inj h]
        simp only [lpddrBase, viewBase] at hbelow ⊢
        omega
      · exact absurd h (by simp)
    · exact absurd h (by simp)

/-- Translation moves whole pages (R198). -/
theorem State.translate_offset {hh x a : Nat} {write : Bool} {c : Crypt} (h : s.translate hh write x = some (.mem a c)) : a % 2048 = x % 2048 := by
  unfold State.translate at h
  dsimp only at h
  split at h
  · split at h
    · obtain ⟨y, hy, hmem⟩ := Option.map_eq_some_iff.1 h
      cases hmem
      rw [State.dieLocal_offset hy, pageBytes]
      omega
    · exact absurd h (by simp)
  · exact absurd h (by simp)

theorem State.resolveSram_onChip {who : Actor} {o a : Nat} {c : Crypt} (h : s.resolveSram who o = some (.mem a c)) : sramBase ≤ a := by
  unfold State.resolveSram at h
  dsimp only at h
  split at h
  · exact absurd h (by simp)
  split at h
  · split at h
    · split at h
      · obtain ⟨j, -, hj⟩ := Option.bind_eq_some_iff.1 h
        split at hj
        · cases hj
          omega
        · exact absurd hj (by simp)
      · exact absurd h (by simp)
    · exact absurd h (by simp)
  split at h
  · exact absurd h (by simp)
  split at h
  · obtain ⟨m, -, hm⟩ := Option.map_eq_some_iff.1 h
    rw [← (Target.mem.inj hm).1]
    exact of_decide_eq_true (isSram_sramAddr ..)
  · exact absurd h (by simp)

theorem State.resolveRegs_noMem {who : Actor} {write : Bool} {o a : Nat} {c : Crypt} : s.resolveRegs who write o ≠ some (.mem a c) := by
  unfold State.resolveRegs
  dsimp only
  split
  · simp
  split
  · split <;> simp
  split
  · split <;> simp
  split
  · split <;> simp
  · simp

/-- An address of LPDDR keeps its place in its block. -/
theorem State.resolve_offset {who : Actor} {write : Bool} {ea a : Nat} {c : Crypt} (h : s.resolve who write ea = some (.mem a c))
    (hlpddr : a < sramBase) : a % 2048 = ea % 2048 := by
  unfold State.resolve at h
  split at h
  · exact absurd h (by simp)
  split at h
  · split at h <;> exact absurd h (by simp)
  dsimp only at h
  split at h
  · have := State.translate_offset h
    omega
  split at h
  · exact absurd h (by simp)
  split at h
  · exact absurd (State.resolveSram_onChip h) (by omega)
  · exact absurd h State.resolveRegs_noMem

theorem State.length_argHeader (s : State) (n : Nat) (j : Job) (mode : BitVec 2) (seed : Word64) : (s.argHeader n j mode seed).length = 64 := by
  simp [State.argHeader, length_toBytes]

/-- A header that is written to a clear page stands there; besides, only cache marks and poison differ. -/
theorem State.writeMem_clear {who : Actor} {ea a : Nat} {d : List Byte} (h : s.clearPage who true ea d.length a) :
    ∃ t, s.writeMem who ea d false = some t ∧ t.mem = s.mem.writeBytes a d ∧
      t = { s with parishes := t.parishes, mem := t.mem, blkPoison := t.blkPoison, sramPoison := t.sramPoison } := by
  obtain ⟨hres, hlpddr, hsome, hblock, -, -⟩ := h
  have hplaces : s.places who true ea d.length = some [⟨a, d.length, .plain⟩] := by
    simp [State.places, runsOf_one hsome hblock, hres]
  have hwrite : s.writeMem who ea d false = some ((s.touch a d.length true false).store a d .plain false) := by
    simp [State.writeMem, State.writeEa, hplaces, State.arrive, State.wakeFor, slotOfAddr_lpddr hlpddr, State.storePlaces, State.storeMem_open,
      State.fenced_lpddr _ hlpddr, State.rawPlaces, State.rawSlots]
  obtain ⟨hmem, hframe⟩ := State.touch_store_effect s a d.length false d .plain _ rfl
  exact ⟨_, hwrite, hmem, hframe⟩

end

end Sys2Proof.Machine
end

