-- ==== Sys2Proof/Proofs/JobCommands.lean ====
section
/-! JOB_LOAD and JOB_START as commands (R355, R360 to R362), and the commands on a job that there is not. -/

namespace Sys2Proof.Machine

section
variable {s : State} {k : Nat} {c : Command}

/-! ## JOB_LOAD -/

section
variable {hint : Nat} {repair : List MillRef} (hruns : s.commandRuns k 0x0301 c) (hopen : s.isOpen (s.cmdHousehold k c) = true)
  (hlong : 144 ≤ c.arg 2) (hshort : c.arg 2 < 2 ^ 32) (hhost : s.hostFaults (c.arg 1) (c.arg 2) = false)
include hruns hopen hlong hshort hhost

/-- What a placement answers is what JOB_LOAD answers for an image that keeps the rules. -/
theorem jobLoad_replies {im : JobImage} {r : Reply} (himage : parseImage (s.hostMem.readBytes (c.arg 1) (c.arg 2)) (c.arg 2) = some im)
    (hplace : s.placeJob (s.cmdHousehold k c) im hint repair = r) : s.replies (.jobLoad k hint repair) k c r.status r.result r.state := by
  have hread : s.hostRead (c.arg 1) (c.arg 2) = some (s.hostMem.readBytes (c.arg 1) (c.arg 2)) := if_neg (by simp [hhost])
  refine State.replies_of_command rfl hruns ?_
  rw [State.forHousehold, if_pos hopen, if_neg (by omega), hread]
  dsimp only
  rw [himage]
  exact hplace

/-- JOB_LOAD of an image that breaks a rule of the container. -/
theorem jobLoad_refuses (himage : parseImage (s.hostMem.readBytes (c.arg 1) (c.arg 2)) (c.arg 2) = none) :
    s.replies (.jobLoad k hint repair) k c 2 0 s := by
  have hread : s.hostRead (c.arg 1) (c.arg 2) = some (s.hostMem.readBytes (c.arg 1) (c.arg 2)) := if_neg (by simp [hhost])
  refine State.replies_of_command (r := refuse s stArg) rfl hruns ?_
  rw [State.forHousehold, if_pos hopen, if_neg (by omega), hread]
  dsimp only
  rw [himage]

end

/-- A wanted hamlet has one of the 18 slots of its die. -/
theorem JobImage.wants_slot {im : JobImage} {w : Nat × Nat} (hw : w ∈ im.wants) : w.2 < 16 := by
  obtain ⟨d, -, hd⟩ := List.mem_flatMap.1 hw
  obtain ⟨i, hi, rfl⟩ := List.mem_map.1 hd
  exact List.mem_range.1 (List.mem_filter.1 hi).1

/-- What a job that is loaded has taken: its record, its Hands and its granules. -/
theorem State.takeJob_effect {hh n : Nat} {im : JobImage} {gs : List (ParishRef × Nat)} (hdefects : s.defects = [])
    (hgs : ∀ g ∈ gs, g.2 < 40 ∧ (s.parish g.1).scratch.getLsbD g.2 = false) (t : State)
    (ht : t = s.takeJob n hh im (im.wants.map im.ownPlace) gs) :
    t.jobs = s.jobs.set n (s.loadedJob hh im (im.wants.map im.ownPlace) gs) ∧
      (∀ w ∈ im.wants, ∀ i < 4, t.hand ⟨w.1, w.2, i⟩ = { hamlet := BitVec.ofNat 4 w.2 }) ∧
      ∀ g ∈ gs, (s.parish g.1).scratch.getLsbD g.2 = false ∧ (t.parish g.1).scratch.getLsbD g.2 = true ∧
        (t.parish g.1).owner.find g.2 = some n ∧ ∀ o < 0x100000, t.mem.read (granuleAddr g.1.die (granuleNo g.1 g.2) o) = 0 := by
  subst ht
  refine ⟨State.takeJob_jobs .., fun w hw i hi => ?_, fun g hg => ?_⟩
  · refine State.takeJob_hand n hh im _ gs (p := im.ownPlace w) (List.mem_map_of_mem hw) hi fun q hq hkey => ?_
    obtain ⟨v, hv, rfl⟩ := List.mem_map.1 hq
    have hwslot := JobImage.wants_slot hw
    have hvslot := JobImage.wants_slot hv
    simp only [slotKey, JobImage.ownPlace] at hkey ⊢
    omega
  · obtain ⟨hrange, hcache⟩ := hgs g hg
    have htaken := State.takeJob_granule n hh im (im.wants.map im.ownPlace) gs hdefects hg hrange
    have hzero := fun o (ho : o < 0x100000) => State.granuleTaken_zero htaken ho
    obtain ⟨hscratch, howner, -⟩ := htaken
    exact ⟨hcache, hscratch, howner, hzero⟩

/-! ## JOB_START -/

section
variable {n : Nat} {j : Job} (hruns : s.commandRuns k 0x0302 c) (hn : n = c.arg 0) (hj : s.jobs.find n = some j)
  (hbox : s.boxReaches k j.household = true)
include hruns hn hj hbox

/-- JOB_START of a job that is not loaded. -/
theorem jobStart_refuses (hstate : j.state ≠ .loaded) : s.replies (.jobStart k) k c 5 0 s := by
  subst hn
  refine State.replies_of_command (r := refuse s stState) rfl hruns ?_
  rw [State.forJob_reached hj hbox]
  exact if_pos hstate

/-- JOB_START of a loaded job whose header was written. -/
theorem jobStart_replies {t : State} (hstate : j.state = .loaded)
    (hwrite : s.writeMem (actorOf n j) (s.ownEa (c.arg 2))
      (s.argHeader n j (maxMode s.settings.detMode j.image.reqMode) (c.args.getD 1 0)) false = some t) :
    s.replies (.jobStart k) k c 0 0
      (t.startJob n j (maxMode s.settings.detMode j.image.reqMode) (c.args.getD 1 0) (c.args.getD 2 0) (c.arg 3)) := by
  subst hn
  have hseed : BitVec.ofNat 64 (c.arg 1) = c.args.getD 1 0 := BitVec.ofNat_toNat ..
  have harg : BitVec.ofNat 64 (c.arg 2) = c.args.getD 2 0 := BitVec.ofNat_toNat ..
  refine State.replies_of_command
    (r := done (t.startJob (c.arg 0) j (maxMode s.settings.detMode j.image.reqMode) (c.args.getD 1 0) (c.args.getD 2 0) (c.arg 3)) 0) rfl hruns ?_
  rw [State.forJob_reached hj hbox, if_neg (by simp [hstate])]
  dsimp only
  rw [hseed, harg, hwrite]

end

/-- The effect of JOB_START on a loaded job: the record, the header, and the Hands of the job's hamlets. -/
theorem State.startJob_effect {n a limit : Nat} {j : Job} {mode : BitVec 2} {seed arg : Word64} {u t : State} (hj : s.jobs.find n = some j)
    (hwf : s.mem.wf = true) (hblock : a % 2048 + 64 ≤ 2048) (hlpddr : a < sramBase)
    (hmem : u.mem = s.mem.writeBytes a (s.argHeader n j mode seed))
    (hframe : u = { s with parishes := u.parishes, mem := u.mem, blkPoison := u.blkPoison, sramPoison := u.sramPoison })
    (ht : t = u.startJob n j mode seed arg limit) :
    t.jobs = s.jobs.set n (s.startedJob j mode seed arg limit) ∧ t.mem.readBytes a 64 = s.argHeader n j mode seed ∧
      ∀ p ∈ j.places, (∀ q ∈ j.places, q.slot < 18 ∧ (q.die = p.die → q.slot = p.slot → q = p)) → ∀ i < 4,
        t.hand ⟨p.die, p.slot, i⟩ = (s.hand ⟨p.die, p.slot, i⟩).started seed arg (j.codeOf p i) := by
  have hujobs : u.jobs = s.jobs := (congrArg State.jobs hframe :)
  have huhamlets : u.hamlets = s.hamlets := (congrArg State.hamlets hframe :)
  have hustarted : u.startedJob j mode seed arg limit = s.startedJob j mode seed arg limit := by
    rw [hframe]
    rfl
  have hset := u.handsSet_setsUp mode seed arg n j
  obtain ⟨hjobs, htmem, hhamlets⟩ := State.startJob_frame (s := u) mode seed arg limit (by rw [hujobs, hj])
  have huwf : u.mem.wf = true := by
    rw [hmem]
    exact Memory.wf_writeBytes _ _ hwf
  subst ht
  refine ⟨by rw [hjobs, hujobs, hustarted], ?_, fun p hp hown i hi => ?_⟩
  · have hread : (u.handsSet n j mode seed arg).mem.readBytes a 64 = u.mem.readBytes a 64 := by
      rw [Memory.readBytes_eq (hset.wf huwf), Memory.readBytes_eq huwf]
      refine List.map_congr_left fun i hi => hset.lpddr huwf _ ?_
      have hlt := List.mem_range.1 hi
      simp only [sramBase] at hlpddr ⊢
      omega
    rw [htmem, hread, hmem]
    exact Memory.readBytes_written hwf a (State.length_argHeader s n j mode seed)
  · have hsame (v w : State) (h : v.hamlets = w.hamlets) (g : HandRef) : v.hand g = w.hand g := by
      unfold State.hand State.hamlet
      rw [h]
    rw [hsame _ _ hhamlets, ← hsame _ _ huhamlets]
    refine State.startHands_places hp hi (u.unitsSet_setsUp n j mode) fun q hq hkey => ?_
    obtain ⟨hpslot, -⟩ := hown p hp
    obtain ⟨hqslot, honly⟩ := hown q hq
    simp only [slotKey] at hkey
    exact honly (by omega) (by omega)

/-! ## Commands on a job that is not there -/

/-- A command that asks for a job, with its opcode. -/
def asksJob (k : Nat) : List (Instr × Nat) :=
  [(.jobStart k, 0x0302), (.jobKill k, 0x0303), (.jobStatus k, 0x0304), (.jobUnload k, 0x0305), (.digestFlush k, 0x0701)]

/-- Each of them looks its job up first. -/
theorem exec_asksJob {i : Instr} {op : Nat} (h : (i, op) ∈ asksJob k) :
    ∃ f : Command → Nat → Job → Reply, exec i s = s.command k op fun c => s.forJob k c (f c) := by
  simp only [asksJob, List.mem_cons, Prod.mk.injEq, List.not_mem_nil, or_false] at h
  obtain ⟨rfl, rfl⟩ | ⟨rfl, rfl⟩ | ⟨rfl, rfl⟩ | ⟨rfl, rfl⟩ | ⟨rfl, rfl⟩ := h
  all_goals exact ⟨_, rfl⟩

theorem asksJob_absent {i : Instr} {op : Nat} (h : (i, op) ∈ asksJob k) (hruns : s.commandRuns k op c) (hj : s.jobs.find (c.arg 0) = none) :
    s.replies i k c 6 0 s := by
  obtain ⟨f, hexec⟩ := exec_asksJob (s := s) h
  exact State.replies_of_command (r := refuse s stNotFound) hexec hruns (State.forJob_absent hj)

theorem asksJob_apart {i : Instr} {op : Nat} {j : Job} (h : (i, op) ∈ asksJob k) (hruns : s.commandRuns k op c)
    (hj : s.jobs.find (c.arg 0) = some j) (hbox : s.boxReaches k j.household = false) : s.replies i k c 6 0 s := by
  obtain ⟨f, hexec⟩ := exec_asksJob (s := s) h
  exact State.replies_of_command (r := refuse s stNotFound) hexec hruns (State.forJob_apart hj hbox)

end

/-- Settles O48: a placement whose tests find nothing is the own slot of each hamlet; what sets a job up leaves its record, LPDDR and the HID of
every Hand until the Hands start. -/
theorem jobsLoadAndStart : Obligations.JobsLoadAndStart := by
  unfold Obligations.JobsLoadAndStart
  refine fun s k hint repair c => ⟨?load, ?start, ?absent⟩
  case load =>
    rintro hruns _ rfl hopen hlong hshort hhost _ rfl
    refine ⟨jobLoad_refuses hruns hopen hlong hshort hhost, fun im himage => ?_⟩
    have hreplies {r : Reply} := jobLoad_replies (hint := hint) (repair := repair) (r := r) hruns hopen hlong hshort hhost himage
    refine ⟨fun hrefused => hreplies (State.placeJob_refused _ im hint repair hrefused), ?unavailable, ?placed⟩
    case unavailable =>
      intro hsound hdefects hout
      exact hreplies (State.placeJob_unavailable _ im hint repair (fun x hx => (hsound x hx).1) hdefects (fun x hx => (hsound x hx).2) hout)
    case placed =>
      intro gs n hdies hplaces hslice hpeers hengines hfault hdefects hwants hgranules hnumber
      obtain ⟨hone, hmax, hunused⟩ := State.freeJob_unused hnumber
      have hplaced := State.placeJob_placed (s.cmdHousehold k c) im hint repair hdies hplaces hslice hpeers hengines hfault hdefects hwants
        hgranules hnumber
      exact ⟨hone, hmax, hunused, _, hreplies hplaced,
        State.takeJob_effect hdefects (fun g hg => State.pickGranules_cache hgranules hg) _ rfl⟩
  case start =>
    intro hruns n j hn hj hbox
    refine ⟨jobStart_refuses hruns hn hj hbox, fun a mode seed arg hstate hwf hclear hmode hseed harg => ?_⟩
    have hlength := s.length_argHeader n j mode seed
    obtain ⟨u, hwrite, hmem, hframe⟩ := State.writeMem_clear (hlength ▸ hclear)
    obtain ⟨hres, hlpddr, -, hblock, -, -⟩ := hclear
    have hoffset := State.resolve_offset hres hlpddr
    subst hmode hseed harg
    obtain ⟨hjobs, hheader, hhands⟩ := State.startJob_effect hj hwf (by omega) hlpddr hmem hframe rfl
    refine ⟨_, jobStart_replies hruns hn hj hbox hstate hwrite, hjobs, hheader, fun p hp hown i hi y hy => ?_⟩
    have hhand := hhands p hp hown i hi
    subst hy
    refine ⟨fun x hcode => hhand.trans ?_, fun hcode => hhand.trans ?_⟩
    · rw [show j.codeOf p i = some x from hcode]
      rfl
    · rw [show j.codeOf p i = none from hcode]
      rfl
  case absent =>
    exact fun i op h hruns => ⟨asksJob_absent h hruns, fun _ => asksJob_apart h hruns⟩

end Sys2Proof.Machine
end

