-- ==== Sys2Proof/Proofs/RingCommands.lean ====
section
/-! RING_WAIT_END, RING_STALL and RING_CFG_WRITE (R171, R175, R178). -/

namespace Sys2Proof.Machine

theorem State.otherHamlets_setRing (s : State) (r : RingRef) (x : Ring) : s.otherHamlets (s.setRing r x) (ringSlot r) :=
  State.otherHamlets_modHamlet s (ringSlot r) _

/-! ## RING_WAIT_END (R171) -/

/-- Taking a slot leaves the place of a ring in its scratchpad. -/
theorem Ring.taken_place {x y : Ring} {claim : Bool} {i : Nat} (h : (if claim then x.claimSlot else x.reserve) = some (i, y)) :
    y.base = x.base ∧ y.stride = x.stride := by
  cases claim with
  | true =>
    simp only [if_true, Ring.claimSlot] at h
    split at h
    · obtain ⟨rfl, rfl⟩ := h
      exact ⟨Ring.setSlot_base .., Ring.setSlot_stride ..⟩
    · cases h
  | false =>
    simp only [Bool.false_eq_true, if_false, Ring.reserve] at h
    split at h
    · obtain ⟨rfl, rfl⟩ := h
      exact ⟨Ring.setSlot_base .., Ring.setSlot_stride ..⟩
    · cases h

/-- A ring whose slot goes to a waiter: the waiter waits no longer and the grant pointer stands past it (R171). -/
def Ring.granting (y : Ring) (m : HamletRef) (w : Waiter) : Ring :=
  { y with waiters := y.waiters.erase w, grant := portAfter (agentPort m w.agent) }

section
variable {s : State} {r : RingRef}

theorem exec_ringWaitEnd {w : Waiter} {i : Nat} {y : Ring} (hnext : s.nextGrant r = some w)
    (htake : (if w.claim then (s.ring r).claimSlot else (s.ring r).reserve) = some (i, y)) :
    exec (.ringWaitEnd r) s = .next ((s.setRing r (y.granting (ringSlot r) w)).grantSlot r w i) := by
  show execRingWaitEnd r s = _
  simp only [execRingWaitEnd, hnext, htake]
  rfl

/-- The slot granted to a Mill or an engine is kept for it at the ring. -/
theorem State.grantSlot_engine (s : State) (r : RingRef) {w : Waiter} (hengine : ∀ h, w.agent ≠ .hand h) (i : Nat) :
    s.grantSlot r w i = s.modRing r fun x => { x with grants := x.grants ++ [⟨w.agent, w.claim, i⟩] } := by
  unfold State.grantSlot
  split
  next h hhand => exact absurd hhand (hengine h)
  next => rfl

/-- The slot granted to a Hand completes its instruction. -/
theorem State.grantSlot_hand {w : Waiter} {h : HandRef} {k : Nat} {j : Job} (hagent : w.agent = .hand h)
    (hjob : s.jobAt (handSlot h) = some (k, j)) (i : Nat) :
    s.grantSlot r w i = s.giveSlot h j r i (s.hand h).ringDest w.claim w.expand := by
  simp only [State.grantSlot, hagent, hjob]

/-- A Hand that is given slot `i` of a ring whose place has not changed. -/
theorem State.hand_giveSlot {h : HandRef} {y : Ring} (hbase : y.base = (s.ring r).base) (hstride : y.stride = (s.ring r).stride) (j : Job)
    (i d : Nat) (claim expand : Bool) :
    ((s.setRing r y).giveSlot h j r i d claim expand).hand h =
      (s.hand h).given ⟨r, i⟩ claim (if expand then some (s.expander j.household r i) else (s.hand h).exp) d (s.payloadEa j r i) := by
  rw [State.giveSlot, State.hand_retire, State.hand_setRing, State.expander_setRing hbase hstride, State.payloadEa_setRing hbase hstride]
  cases claim <;> cases expand <;> rfl

/-! ## RING_STALL (R175) -/

/-- The state in which waiter `n` of a ring, `w`, has its mark and the ring its bit of RING_STALL. -/
def State.waitMarked (s : State) (r : RingRef) (n : Nat) (w : Waiter) : State :=
  (s.modRing r fun x => { x with waiters := x.waiters.set n { w with stalled := true } }).modHamlet (ringSlot r)
    fun x => { x with ringStall := x.ringStall ||| BitVec.ofNat 64 (2 ^ r.idx) }

/-- And the Hand concerned, if any, its event. -/
def State.waitStalled (s : State) (r : RingRef) (n : Nat) (w : Waiter) : State :=
  match s.stallHand w with
  | some h => (s.waitMarked r n w).raiseEvent h .ringStall
  | none => s.waitMarked r n w

section
variable (s : State) (r : RingRef) (n : Nat) (w : Waiter)

theorem State.waitMarked_effect :
    ((s.waitMarked r n w).ring r).waiters = (s.ring r).waiters.set n { w with stalled := true } ∧
      ((s.waitMarked r n w).hamlet (ringSlot r)).ringStall = (s.hamlet (ringSlot r)).ringStall ||| BitVec.ofNat 64 (2 ^ r.idx) ∧
      ∀ h, (s.waitMarked r n w).hand h = s.hand h := by
  refine ⟨?_, ?_, fun h => ?_⟩
  · rw [State.ring, State.waitMarked, State.hamlet_modHamlet]
    exact congrArg Ring.waiters (State.ring_modRing ..)
  · rw [State.waitMarked, State.hamlet_modHamlet, State.modRing_hamlet_ringStall]
  · rw [State.waitMarked, State.hand_modHamlet_keeps (f := fun x => { x with ringStall := x.ringStall ||| BitVec.ofNat 64 (2 ^ r.idx) }) fun _ => rfl,
      State.hand_modRing]

theorem State.waitStalled_effect :
    s.waitStalled r n w = { s with hamlets := (s.waitStalled r n w).hamlets } ∧
      (∀ h, s.stallHand w = some h → ((s.waitStalled r n w).hand h).evPend = (s.hand h).evPend ||| 4) ∧
      ((s.waitStalled r n w).ring r).waiters = (s.ring r).waiters.set n { w with stalled := true } ∧
      ((s.waitStalled r n w).hamlet (ringSlot r)).ringStall = (s.hamlet (ringSlot r)).ringStall ||| BitVec.ofNat 64 (2 ^ r.idx) := by
  obtain ⟨hwaiters, hstall, hhands⟩ := s.waitMarked_effect r n w
  unfold State.waitStalled
  split
  next g hg =>
    refine ⟨rfl, fun h hh => ?_, ?_, ?_⟩
    · obtain rfl : g = h := Option.some.inj (hg.symm.trans hh)
      rw [State.raiseEvent, State.hand_modHand, hhands]
      rfl
    · rwa [State.raiseEvent, State.ring_modHand]
    · rwa [State.raiseEvent, State.modHand_hamlet_ringStall]
  next hnone => exact ⟨rfl, fun h hh => absurd (hnone.symm.trans hh) (by simp), hwaiters, hstall⟩

end

theorem exec_ringStall {n : Nat} {w : Waiter} (hwaits : (s.ring r).waiters[n]? = some w) (hfirst : w.stalled = false)
    (hcounted : s.countedWait w = true) (hlimit : (s.hamlet (ringSlot r)).limit ≤ s.mclk - w.since) :
    exec (.ringStall r n) s = .next ((s.waitStalled r n w).countStall (ringSlot r)) := by
  show execRingStall r n s = _
  simp only [execRingStall, hwaits, hfirst, hcounted, hlimit, and_self, if_true]
  rfl

/-! ## RING_CFG_WRITE (R178) -/

/-- A valid value written to a disabled ring sets it up. -/
theorem exec_ringCfgWrite_disabled {v : Word64} (henable : (s.ring r).enable = false) (hvalid : cfgValid v = true) :
    exec (.ringCfgWrite r v) s = .next (s.setRing r ((s.ring r).configured v)) := by
  show Host.Outcome.next (s.writeRingCfg r v) = _
  simp only [State.writeRingCfg, henable, hvalid, Bool.false_eq_true, if_false, if_true]

/-- While a ring is enabled a change of a field is discarded. -/
theorem exec_ringCfgWrite_active {v : Word64} (henable : (s.ring r).enable = true)
    (hchange : v &&& ~~~1#64 ≠ (s.ring r).cfgWord &&& ~~~1#64) :
    exec (.ringCfgWrite r v) s = .next (s.modHamlet (ringSlot r) fun m => { m with err := { m.err with cfgActive := true } }) := by
  show Host.Outcome.next (s.writeRingCfg r v) = _
  simp only [State.writeRingCfg, henable, hchange, if_true, if_false]

/-- A value that sets ENABLE starts the ring from index 0 with every slot FREE. -/
theorem Ring.configured_enabled (x : Ring) {v : Word64} (hset : v.getLsbD 0 = true) :
    x.configured v = { x with
      enable := true, base := BitVec.ofNat 17 (fieldOf v 6 17), stride := BitVec.ofNat 15 (fieldOf v 24 15), count := BitVec.ofNat 11 (fieldOf v 40 11)
      head := 0, claim := 0, pub := 0, rsv := 0, seq := 0, slots := {}, grant := 0, grants := [], origins := {}, senders := {} } := by
  simp only [Ring.configured, hset, if_true]

end

/-- Settles O20: a grant is `State.grantSlot_engine` or `State.hand_giveSlot`, a stall `State.waitStalled`, and a written RING_CFG
`Ring.configured_enabled`. -/
theorem ringsGrantStallAndConfigure : Obligations.RingsGrantStallAndConfigure := by
  unfold Obligations.RingsGrantStallAndConfigure
  refine fun s r => ⟨fun w i y hnext hengine htake => ?engine, fun w i y h k j hnext hagent hjob htake => ?hand,
    fun n w hwaits hfirst hcounted hlimit => ?stall, fun v henable hvalid hset => ?setUp, fun v henable hchange => ?discarded⟩
  case engine =>
    have hexec := exec_ringWaitEnd hnext htake
    rw [State.grantSlot_engine _ _ hengine, State.modRing, State.setRing_setRing, State.ring_setRing] at hexec
    exact ⟨_, hexec, rfl, State.otherHamlets_setRing _ _ _, State.ring_setRing ..⟩
  case hand =>
    obtain ⟨hbase, hstride⟩ := Ring.taken_place htake
    have hexec := exec_ringWaitEnd hnext htake
    rw [State.grantSlot_hand hagent (s := s.setRing r _) hjob, State.hand_setRing] at hexec
    exact ⟨_, hexec, rfl, State.hand_giveSlot (y := y.granting (ringSlot r) w) hbase hstride ..⟩
  case stall =>
    obtain ⟨hframe, hevent, hwaiters, hbit⟩ := s.waitStalled_effect r n w
    have hexec := exec_ringStall hwaits hfirst hcounted hlimit
    have hjobs : (s.waitStalled r n w).jobs = s.jobs := (congrArg State.jobs hframe :)
    rw [State.countStall_eq hjobs] at hexec
    refine ⟨_, hexec, ?_, hevent, hwaiters, hbit⟩
    rw [hframe]
  case setUp =>
    refine ⟨_, exec_ringCfgWrite_disabled henable hvalid, rfl, State.otherHamlets_setRing _ _ _, ?_⟩
    rw [State.ring_setRing, Ring.configured_enabled _ hset]
  case discarded =>
    refine ⟨_, exec_ringCfgWrite_active henable hchange, rfl, ?_, ?_⟩
    · rw [State.ring, State.hamlet_modHamlet]
      rfl
    · rw [State.hamlet_modHamlet]

end Sys2Proof.Machine
end

