-- ==== Sys2Proof/Proofs/Bells.lean ====
section
/-! Bell adds at their counter (R180 to R183, R187), and what the packet that carries an add on may change (R327). -/

namespace Sys2Proof.Machine

/-! ## Packets sent -/

/-- Of two states only what the sending of packets changes differs: the flows of the dies, the Landings, the flits that wait for a link and what
leaves the package. -/
def State.sends (s t : State) : Prop :=
  t = { s with dies := t.dies, landings := t.landings, stranded := t.stranded, hostOut := t.hostOut }

section
variable {s t v : State}

theorem State.sends.refl : s.sends s := rfl

theorem State.sends.trans (h : s.sends t) (h' : t.sends v) : s.sends v := by
  unfold State.sends at *
  rw [h', h]

/-- Packets that are sent change no hamlet. -/
theorem State.sends.hamlets (h : s.sends t) : t.hamlets = s.hamlets := (congrArg State.hamlets h :)

theorem State.sends.hamlet (h : s.sends t) (m : HamletRef) : t.hamlet m = s.hamlet m := congrArg (fun l : Tab Hamlet => l.get {} _) h.hamlets

theorem State.sends.bell (h : s.sends t) (m : HamletRef) (c : Nat) : t.bell m c = s.bell m c := congrArg (fun x : Hamlet => x.bells.get 0 c) (h.hamlet m)

theorem State.sends_setLanding (s : State) (l : Nat) (x : Landing) : s.sends (s.setLanding l x) := rfl

theorem State.sends_modLanding (s : State) (l : Nat) (f : Landing → Landing) : s.sends (s.modLanding l f) := rfl

theorem State.sends_emit (s : State) (o : HostOut) : s.sends (s.emit o) := rfl

theorem State.sends_owe (s : State) (l : List (Nat × Nat)) : s.sends (s.owe l) :=
  List.foldlRecOn (motive := fun t => s.sends t) l _ .refl fun _ ht _ _ => ht.trans (State.sends_modLanding ..)

theorem State.sends_pumpLink (n l : Nat) : s.sends (State.pumpLink n s l) := by
  induction n generalizing s with
  | zero => exact .refl
  | succ n ih =>
    dsimp only [State.pumpLink]
    split
    · exact .refl
    · split
      · exact .refl
      · exact (((State.sends_setLanding ..).trans (State.sends_owe ..)).trans (State.sends_emit ..)).trans ih

theorem State.sends_route {p : Packet} (h : s.route p = some t) : s.sends t := by
  obtain ⟨l, -, rfl⟩ := Option.map_eq_some_iff.1 h
  exact (State.sends_modLanding ..).trans (State.sends_pumpLink ..)

theorem State.sends_postPacket (s : State) (p : Packet) : s.sends (s.postPacket p) := by
  have hnumbered : s.sends (s.numbered p).2 := rfl
  dsimp only [State.postPacket]
  split
  next hroute => exact hnumbered.trans (State.sends_route hroute)
  next => exact hnumbered.trans rfl

theorem State.sends_postBell (s : State) (p : Packet) : s.sends (s.postBell p) := by
  dsimp only [State.postBell]
  split
  · split
    exacts [rfl, s.sends_postPacket _]
  · split
    exacts [rfl, s.sends_postPacket _]

/-- An add to a bound counter is carried on in a packet (R183). -/
theorem State.sends_forwardBell (s : State) (m : HamletRef) (ctr : Nat) (amount : Word32) : s.sends (s.forwardBell m ctr amount) := by
  unfold State.forwardBell
  split
  · exact .refl
  · split
    exacts [.refl, s.sends_postBell _]

/-- An add to a counter that is not bound goes no further. -/
theorem State.forwardBell_unbound {m : HamletRef} {ctr : Nat} (h : ∀ k j, s.jobAt m = some (k, j) → j.bellBind m ctr = none) (amount : Word32) :
    s.forwardBell m ctr amount = s := by
  unfold State.forwardBell
  split
  next => rfl
  next k j hjob => rw [h k j hjob]

end

/-! ## An add applied -/

section
variable (s : State)

/-- The state with an add in its counter and the waits on the counter judged (R180, R181). -/
def State.rung (a : BellAdd) : State :=
  s.modHamlet a.dst.1 fun x => { x with
    bells := x.bells.set a.dst.2 (s.bell a.dst.1 a.dst.2 + a.amount)
    hands := x.hands.mapV fun _ y => y.judgeBell a.dst.2 (s.bell a.dst.1 a.dst.2 + a.amount) }

theorem State.bell_rung_same (a : BellAdd) : (s.rung a).bell a.dst.1 a.dst.2 = s.bell a.dst.1 a.dst.2 + a.amount := by
  rw [State.bell, State.rung, State.hamlet_modHamlet]
  exact Tab.get_set_same ..

/-- The other counters of the hamlet keep their values. -/
theorem State.bell_rung_ne (a : BellAdd) {c : Nat} (h : c ≠ a.dst.2) : (s.rung a).bell a.dst.1 c = s.bell a.dst.1 c := by
  rw [State.bell, State.rung, State.hamlet_modHamlet]
  exact Tab.get_set_ne _ _ _ h

theorem State.hands_rung (a : BellAdd) :
    ((s.rung a).hamlet a.dst.1).hands =
      (s.hamlet a.dst.1).hands.mapV fun _ y => y.judgeBell a.dst.2 (s.bell a.dst.1 a.dst.2 + a.amount) := by
  rw [State.rung, State.hamlet_modHamlet]

variable {s}

/-- Behind a fence an add is dropped (R187). -/
theorem State.applyBell_fenced {a : BellAdd} (hfence : (s.hamlet a.dst.1).fence ≠ .lowered) : s.applyBell a = s :=
  if_pos (by simpa using hfence)

/-- In a running hamlet an add is applied, and carried on where its counter is bound. -/
theorem State.applyBell_active {a : BellAdd} (hfence : (s.hamlet a.dst.1).fence = .lowered) (hpower : (s.hamlet a.dst.1).power = .active) :
    s.applyBell a = (s.rung a).forwardBell a.dst.1 a.dst.2 a.amount := by
  simp only [State.applyBell, hfence, bne_self_eq_false, Bool.false_eq_true, if_false, State.wake_active hpower]
  rfl

/-- The state in which add `n` is no longer on its way. -/
def State.landed (s : State) (n : Nat) : State := { s with bellFlight := s.bellFlight.eraseIdx n }

section
variable {n : Nat} {a : BellAdd} (hflight : s.bellFlight[n]? = some a)
include hflight

/-- BELL_ADD_APPLY of an add behind an earlier one of its source. -/
theorem exec_bellAddApply_blocked (hblocked : s.bellBlocked n a = true) : exec (.bellAddApply n) s = .next s := by
  show execBellAddApply n s = _
  simp only [execBellAddApply, hflight, hblocked, if_true]

/-- BELL_ADD_APPLY of an add that nothing holds back. -/
theorem exec_bellAddApply (hfirst : s.bellBlocked n a = false) : exec (.bellAddApply n) s = .next ((s.landed n).applyBell a) := by
  show execBellAddApply n s = _
  simp only [execBellAddApply, hflight, hfirst, Bool.false_eq_true, if_false]
  rfl

end

end

/-- Settles O21: an add that arrives is `State.rung`, and what carries it on is a packet (`State.sends_forwardBell`). -/
theorem bellAddsReachTheirCounter : Obligations.BellAddsReachTheirCounter := by
  unfold Obligations.BellAddsReachTheirCounter
  refine fun s n a hflight => ⟨exec_bellAddApply_blocked hflight, fun hfirst hfence => ?dropped, fun hfirst hfence hpower => ?applied⟩
  case dropped => exact (exec_bellAddApply hflight hfirst).trans (congrArg _ (State.applyBell_fenced (s := s.landed n) hfence))
  case applied =>
    have hexec := exec_bellAddApply hflight hfirst
    rw [State.applyBell_active (s := s.landed n) hfence hpower] at hexec
    have hsends := ((s.landed n).rung a).sends_forwardBell a.dst.1 a.dst.2 a.amount
    refine ⟨_, hexec, fun hunbound => ?_, ?_, ?_, ?_, fun c hc => ?_, ?_⟩
    · rw [State.forwardBell_unbound (s := (s.landed n).rung a) hunbound]
      rfl
    · rw [State.sends] at hsends
      rw [hsends]
      rfl
    · intro k hk
      rw [hsends.hamlets]
      exact State.otherHamlets_modHamlet (s.landed n) a.dst.1 _ k hk
    · rw [hsends.bell, State.bell_rung_same]
      rfl
    · rw [hsends.bell, State.bell_rung_ne _ _ hc]
      rfl
    · rw [hsends.hamlet, State.hands_rung]
      rfl

end Sys2Proof.Machine
end

