-- ==== Sys2Proof/Proofs/FenceAndScrub.lean ====
section
/-! FENCE_AND_SCRUB, SCRUB_FILL, SCRUB_CHECK and GRANULE_SCRUB (R187 to R189, R272, R355). -/

namespace Sys2Proof.Machine

/-! ## Regions filled and read back (R187, R272) -/

/-- A byte that is not what an unlisted address reads as reads as it was written. -/
theorem Memory.read_write (m : Memory) (a : Nat) {b : Byte} (h : b ≠ 0) : (m.write a b).read a = b := by
  rw [Memory.write, if_neg (show b ≠ Memory.unlisted from h), Memory.read, lookupCell_insertCell_same]
  rfl

/-- Memory that reads as something else than an unlisted address lists the byte. -/
theorem Memory.mem_of_read {m : Memory} {a : Nat} (h : m.read a ≠ 0) : ∃ b, (a, b) ∈ m := by
  cases hfound : lookupCell m a with
  | none => exact absurd (by rw [Memory.read, hfound]; rfl) h
  | some b => exact ⟨b, lookupCell_mem _ hfound⟩

section
variable {s : State} {a n o : Nat} {v : Byte}

/-- Where no bank of a region is defective it is filled with zeros. -/
theorem State.fillRegion_outside (h : ∀ c ∈ s.defects, c.1 < a ∨ a + n ≤ c.1) : s.fillRegion a n = s.zeroSram a n := by
  have hnone : s.defects.filter (fun c => decide (a ≤ c.1) && decide (c.1 < a + n)) = [] :=
    List.filter_eq_nil_iff.2 fun c hc => by
      have := h c hc
      simp only [Bool.and_eq_true, decide_eq_true_eq]
      omega
  rw [State.fillRegion, hnone]
  rfl

/-- Zeros read back as digest 0 without NONZERO. -/
theorem State.readback_zeroSram (s : State) (a n : Nat) : (s.zeroSram a n).readback a n = (0, false) := by
  refine if_neg fun hany => ?_
  obtain ⟨c, hc, hin⟩ := List.any_eq_true.1 hany
  have hout := (List.mem_filter.1 hc).2
  simp only [Bool.and_eq_true, Bool.or_eq_true, decide_eq_true_eq] at hin hout
  omega

/-- A byte that is not zero sets NONZERO. -/
theorem State.readback_nonzero (ho : o < n) (h : s.mem.read (a + o) ≠ 0) : (s.readback a n).2 = true := by
  obtain ⟨b, hb⟩ := Memory.mem_of_read h
  have hany : (s.mem.any fun c => decide (a ≤ c.1) && decide (c.1 < a + n)) = true :=
    List.any_eq_true.2 ⟨_, hb, by simp only [Bool.and_eq_true, decide_eq_true_eq]; omega⟩
  rw [State.readback, if_pos hany]

theorem State.addDefects_none (s : State) (a n : Nat) : s.addDefects a n [] = s := by
  simp [State.addDefects]

theorem State.addDefects_one (s : State) (a : Nat) (ho : o < n) (v : Byte) :
    s.addDefects a n [(o, v)] = { s with defects := s.defects ++ [(a + o, v)] } := by
  simp [State.addDefects, ho]

/-- The byte that a defective bank does not let go keeps its value when the region is filled. -/
theorem State.read_fillRegion_defect (s : State) (a : Nat) (ho : o < n) (hv : v ≠ 0) :
    ((s.addDefects a n [(o, v)]).fillRegion a n).mem.read (a + o) = v := by
  have hin : (decide (a ≤ a + o) && decide (a + o < a + n)) = true := by
    simp only [Bool.and_eq_true, decide_eq_true_eq]
    omega
  rw [State.addDefects_one s a ho]
  simp only [State.fillRegion, List.filter_append, List.filter_cons, hin, if_true, List.filter_nil, List.foldl_append, List.foldl_cons,
    List.foldl_nil]
  exact Memory.read_write _ _ hv

/-- And it sets NONZERO when the region is read back. -/
theorem State.readback_defect (s : State) (a : Nat) (ho : o < n) (hv : v ≠ 0) :
    (((s.addDefects a n [(o, v)]).fillRegion a n).readback a n).2 = true :=
  State.readback_nonzero ho (by rwa [State.read_fillRegion_defect s a ho hv])

end

/-! ## FENCE_AND_SCRUB (R187 steps 1 to 3) -/

section
variable {s : State} {m : HamletRef} {n : Nat} {j : Job} {p : Placed}

theorem exec_fenceAndScrub (hdue : s.scrubDue m = some (n, j, p)) (hfence : (s.hamlet m).fence = .lowered)
    (hpower : (s.hamlet m).power = .active) :
    exec (.fenceAndScrub m) s = .next ((s.dropTraffic [m]).modHamlet m fun x => { x.stopUnits with fence := .raised }) := by
  show execFenceAndScrub m s = _
  simp only [execFenceAndScrub, hdue, hfence, Option.isSome_some, and_self, if_true, State.raiseFence, State.wake_active hpower]

/-- The adds that a fence at one hamlet leaves on their way are those to other hamlets. -/
theorem State.dropTraffic_bellFlight (s : State) (m : HamletRef) :
    (s.dropTraffic [m]).bellFlight = s.bellFlight.filter fun a => a.dst.1 != m := by
  simp only [State.dropTraffic, List.contains_cons, List.contains_nil, Bool.or_false]
  rfl

/-! ## SCRUB_FILL (R187 steps 4 and 5) -/

/-- What a fill makes of a hamlet, where the readback gives `d`. -/
def Hamlet.filled (x : Hamlet) (d : Word64 × Bool) : Hamlet :=
  { x with rings := {}, bells := {}, waitLimit := 0x00100000, ringStall := 0, err := {}, fence := .filled
           aliveBefore := (x.tallies.get {} 0).alive
           tallies := x.tallies.set 0 ((x.tallies.get {} 0).scrubbed d padBytes) }

/-- A readback of a scratchpad counts its 786,432 words (R272). -/
theorem padWords : BitVec.ofNat 64 (padBytes / 8) = 786432 := by decide

/-- A fill that leaves zeros. -/
theorem Hamlet.filled_zero (x : Hamlet) :
    x.filled (0, false) = { x with
      rings := {}, bells := {}, waitLimit := 0x00100000, ringStall := 0, err := {}, fence := .filled
      aliveBefore := (x.tallies.get {} 0).alive
      tallies := x.tallies.set 0 { x.tallies.get {} 0 with
        source := 4, alg := 1, value := 0, nonzero := false, alive := (x.tallies.get {} 0).alive + 786432 } } := by
  rw [Hamlet.filled, Tally.scrubbed, padWords, sourceScrub]

theorem exec_scrubFill (hfence : (s.hamlet m).fence = .raised) (stuck : List (Nat × Byte)) :
    exec (.scrubFill m stuck) s = .next ((s.addDefects (sramAddr m 0) padBytes stuck).fillHamlet m) :=
  if_pos hfence

theorem State.hamlet_fillHamlet (s : State) (m : HamletRef) :
    (s.fillHamlet m).hamlet m =
      (s.hamlet m).filled ((s.fillRegion (sramAddr m 0) padBytes).readback (sramAddr m 0) padBytes) := State.hamlet_modHamlet ..

/-- A hamlet whose readback met a byte that is not zero fails the check. -/
theorem Hamlet.filled_nonzero (x : Hamlet) {d : Word64 × Bool} (h : d.2 = true) :
    ((x.filled d).tallies.get {} 0).nonzero = true ∧ (x.filled d).scrubOk = false := by
  have hunit : (x.filled d).tallies.get {} 0 = (x.tallies.get {} 0).scrubbed d padBytes := Tab.get_set_same ..
  rw [Hamlet.scrubOk, hunit]
  simp [Tally.scrubbed, h]

end

/-! ## The end of a job (R355) -/

section
variable {s : State} {n : Nat} {j : Job}

/-- The last scrub of a job ends it and sends its notice; before that nothing changes. -/
theorem State.settleJob_ending {why : JobEnd} (hjob : s.jobs.find n = some j) (hending : j.state = .ending why) :
    s.settleJob n =
      if j.scrubbed then
        (s.modJob n fun x => { x with state := why.final }).notifyHousehold j.household 0xf001 (BitVec.ofNat 64 (n + why.code * 2 ^ 16))
      else s := by
  simp only [State.settleJob, hjob, hending]

/-- A job that is settled is still there with its granules. -/
theorem State.settleJob_granules (hjob : s.jobs.find n = some j) : ((s.settleJob n).jobs.find n).map (·.granules) = some j.granules := by
  simp only [State.settleJob, hjob]
  split
  · split
    · exact congrArg (Option.map (·.granules)) (State.find_modJob s _ hjob)
    · rw [hjob, Option.map_some]
  · rw [hjob, Option.map_some]

theorem State.modJob_frame (s : State) (n : Nat) (f : Job → Job) : s.modJob n f = { s with jobs := (s.modJob n f).jobs } := by
  unfold State.modJob
  split <;> rfl

theorem State.settleJob_frame (s : State) (n : Nat) :
    s.settleJob n = { s with jobs := (s.settleJob n).jobs, noticeQ := (s.settleJob n).noticeQ } := by
  unfold State.settleJob
  split
  · rfl
  · split
    · split
      · rw [State.notifyHousehold, State.notify, State.modJob_frame]
      · rfl
    · rfl

theorem State.settleJob_hamlets (s : State) (n : Nat) : (s.settleJob n).hamlets = s.hamlets := (congrArg State.hamlets (s.settleJob_frame n) :)
theorem State.settleJob_parishes (s : State) (n : Nat) : (s.settleJob n).parishes = s.parishes := (congrArg State.parishes (s.settleJob_frame n) :)
theorem State.parish_settleJob (s : State) (n : Nat) (q : ParishRef) : (s.settleJob n).parish q = s.parish q :=
  congrArg (fun l : Tab Parish => l.get {} _) (s.settleJob_parishes n)
theorem State.settleJob_mem (s : State) (n : Nat) : (s.settleJob n).mem = s.mem := (congrArg State.mem (s.settleJob_frame n) :)
theorem State.settleJob_logNext (s : State) (n : Nat) : (s.settleJob n).logNext = s.logNext := (congrArg State.logNext (s.settleJob_frame n) :)

end

/-! ## SCRUB_CHECK (R187 step 6) -/

/-- The record of the scrub of a slot. -/
def State.scrubRecord (s : State) (m : HamletRef) (p : Placed) : ScrubRec :=
  ⟨p.die, p.logical, (((s.hamlet m).tallies.get {} 0).value).setWidth 32, s.clock.setWidth 32⟩

/-- The state in which a job has the record of the scrub of slot `m`, and the slot is as `x` says. -/
def State.scrubNoted (s : State) (m : HamletRef) (n : Nat) (p : Placed) (x : Hamlet) : State :=
  (s.modJob n fun k => { k with scrubs := k.scrubs ++ [s.scrubRecord m p] }).setHamlet m x

section
variable {s : State} {m : HamletRef} {n : Nat} {j : Job} {p : Placed}

theorem exec_scrubCheck (hdue : s.scrubDue m = some (n, j, p)) (hfence : (s.hamlet m).fence = .filled) :
    exec (.scrubCheck m) s = .next ((s.checkHamlet m n j p).settleJob n) := by
  show execScrubCheck m s = _
  simp only [execScrubCheck, hdue, hfence, if_true]

theorem State.checkHamlet_good (hgood : (s.hamlet m).scrubOk = true) :
    s.checkHamlet m n j p = s.scrubNoted m n p (s.hamlet m).vacated := if_pos hgood

theorem State.checkHamlet_bad (hbad : (s.hamlet m).scrubOk = false) :
    s.checkHamlet m n j p = (s.scrubNoted m n p { (s.hamlet m).vacated with retired := true, fence := (s.hamlet m).fence }).logEvent
      { cls := 12, severity := 2, die := m.die, place := m.slot, household := j.household, job := n, event := 1 } :=
  if_neg (by simp [hbad])

/-- A slot that is not clean is retired behind its fence, Off, and recorded (R28, R187). -/
theorem State.checkHamlet_retires (hbad : (s.hamlet m).scrubOk = false) :
    (s.checkHamlet m n j p).hamlets =
        s.hamlets.set (slotKey m.die m.slot) { (s.hamlet m).vacated with retired := true, fence := (s.hamlet m).fence } ∧
      (s.checkHamlet m n j p).mem = s.mem ∧ (s.checkHamlet m n j p).logNext = s.logNext + 1 := by
  rw [State.checkHamlet_bad hbad, State.logEvent_logNext _ (State.suppressed_of_ne _ (by decide : 2 ≠ 1)), State.logEvent_hamlets,
    State.logEvent_mem]
  simp [State.scrubNoted]

/-- The check of a clean slot leaves the job with its record, and settles it where the record was its last. -/
theorem State.settleJob_scrubNoted {why : JobEnd} {x : Hamlet} {y : Job} (hjob : s.jobs.find n = some j) (hending : j.state = .ending why)
    (hy : y = { j with scrubs := j.scrubs ++ [s.scrubRecord m p] }) :
    (s.scrubNoted m n p x).settleJob n = { s with
      hamlets := s.hamlets.set (slotKey m.die m.slot) x
      jobs := (s.jobs.set n y).set n (if y.scrubbed then { y with state := why.final } else y)
      noticeQ := if y.scrubbed then
          s.noticeQ ++ [⟨s.noticeBox j.household, 0xf001, BitVec.ofNat 64 (n + why.code * 2 ^ 16)⟩] else s.noticeQ } := by
  have hnoted : s.scrubNoted m n p x = { s with hamlets := s.hamlets.set (slotKey m.die m.slot) x, jobs := s.jobs.set n y } := by
    rw [State.scrubNoted, State.modJob_found hjob, hy]
    rfl
  have hfound : (s.scrubNoted m n p x).jobs.find n = some y := by rw [hnoted, Tab.find_set_same]
  have hstate : y.state = .ending why := by rw [hy]; exact hending
  have hhousehold : y.household = j.household := by rw [hy]
  have hsettled := State.settleJob_ending hfound hstate
  rw [hhousehold] at hsettled
  rw [hsettled]
  by_cases hlast : y.scrubbed = true
  · simp only [if_pos hlast]
    rw [State.modJob_found hfound, hnoted]
    rfl
  · simp only [if_neg hlast]
    rw [hnoted, Tab.set_set]

end

/-! ## GRANULE_SCRUB (R188) -/

/-- The state in which a granule is filled and free, and off the list of its job. -/
def State.granuleFreed (s : State) (q : ParishRef) (g n : Nat) : State :=
  ((s.fillRegion (granuleAddr q.die (granuleNo q g) 0) granuleBytes).modParish q fun x =>
    { x.freeGranule g with tallies := if (s.jobOfParish q).isSome then x.tallies else x.tallies.del 0 }).modJob n fun k =>
      { k with granules := k.granules.filter fun c => c != (q, g) }

/-- What the readback of a granule gives. -/
def State.granuleRead (s : State) (q : ParishRef) (g : Nat) : Word64 × Bool :=
  (s.fillRegion (granuleAddr q.die (granuleNo q g) 0) granuleBytes).readback (granuleAddr q.die (granuleNo q g) 0) granuleBytes

section
variable {s : State} {q : ParishRef} {g n : Nat} {j : Job}

theorem granuleAddr_add (d g off k : Nat) : granuleAddr d g (off + k) = granuleAddr d g off + k := (Nat.add_assoc ..).symm

theorem exec_granuleScrub (hdue : s.jobs.cells.find? (fun c => c.2.isEnding && c.2.granules.contains (q, g)) = some (n, j))
    (stuck : List (Nat × Byte)) :
    exec (.granuleScrub q g stuck) s =
      .next (((s.addDefects (granuleAddr q.die (granuleNo q g) 0) granuleBytes stuck).scrubGranule q g n j.household).settleJob n) := by
  show execGranuleScrub q g stuck s = _
  simp only [execGranuleScrub, hdue]

theorem State.scrubGranule_good (hh : Nat) (hread : s.granuleRead q g = (0, false)) : s.scrubGranule q g n hh = s.granuleFreed q g n := by
  refine if_pos ?_
  show (({} : Tally).scrubbed (s.granuleRead q g) granuleBytes).granuleOk = true
  rw [hread]
  decide

theorem State.scrubGranule_bad (hh : Nat) (hread : (s.granuleRead q g).2 = true) :
    s.scrubGranule q g n hh = (s.granuleFreed q g n).retireGranule q g hh n := by
  refine if_neg ?_
  show ¬ (({} : Tally).scrubbed (s.granuleRead q g) granuleBytes).granuleOk = true
  simp [Tally.scrubbed, Tally.granuleOk, hread]

theorem State.parish_granuleFreed (s : State) (q : ParishRef) (g n : Nat) :
    (s.granuleFreed q g n).parish q =
      { (s.parish q).freeGranule g with
        tallies := if (s.jobOfParish q).isSome then (s.parish q).tallies else (s.parish q).tallies.del 0 } := by
  rw [State.parish, State.granuleFreed, State.modJob_parishes]
  exact State.parish_modParish ..

theorem State.granuleFreed_frame (s : State) (q : ParishRef) (g n : Nat) :
    s.granuleFreed q g n = { s with
      parishes := (s.granuleFreed q g n).parishes, mem := (s.granuleFreed q g n).mem, sramPoison := (s.granuleFreed q g n).sramPoison
      jobs := (s.granuleFreed q g n).jobs } := by
  rw [State.granuleFreed, State.modJob_frame]
  rfl

theorem State.granuleFreed_mem (s : State) (q : ParishRef) (g n : Nat) :
    (s.granuleFreed q g n).mem = (s.fillRegion (granuleAddr q.die (granuleNo q g) 0) granuleBytes).mem := State.modJob_mem ..

theorem State.granuleFreed_logNext (s : State) (q : ParishRef) (g n : Nat) : (s.granuleFreed q g n).logNext = s.logNext := State.modJob_logNext ..

theorem State.granuleFreed_job (hjob : s.jobs.find n = some j) :
    (s.granuleFreed q g n).jobs.find n = some { j with granules := j.granules.filter fun c => c != (q, g) } := State.find_modJob _ _ hjob

/-- A granule that is not clean is retired and recorded (R188). -/
theorem State.retireGranule_effect (s : State) (q : ParishRef) (g hh n : Nat) :
    (s.retireGranule q g hh n).mem = s.mem ∧
      ((s.retireGranule q g hh n).parish q).retired = (s.parish q).retired ||| BitVec.ofNat 40 (2 ^ g) ∧
      (s.retireGranule q g hh n).logNext = s.logNext + 1 := by
  unfold State.retireGranule
  refine ⟨State.logEvent_mem .., ?_, State.logEvent_logNext _ (State.suppressed_of_ne _ (by decide : 2 ≠ 1))⟩
  rw [State.parish_logEvent, State.parish_modParish]

end

/-- Settles O33: a fill is `State.fillRegion_outside` or `State.read_fillRegion_defect`, a check `State.settleJob_scrubNoted` or
`State.checkHamlet_retires`, and a granule's scrub `State.granuleFreed`. -/
theorem fenceAndScrubClearsTheHamlet : Obligations.FenceAndScrubClearsTheHamlet := by
  unfold Obligations.FenceAndScrubClearsTheHamlet
  refine fun s m n j => ⟨fun p hdue hfence hpower => ?fence, fun hfence hwf hsound => ?fill, fun o v hfence hwf ho hv => ?defect,
    fun p hdue hfence hbad => ?retires, fun p why y hdue hjob hending hfence hgood hy => ?passes, fun q g hdue hjob hwf =>
      ⟨fun hsound => ?granule, fun o v ho hv => ?badGranule⟩⟩
  case fence =>
    refine ⟨_, exec_fenceAndScrub hdue hfence hpower, State.hamlet_modHamlet .., State.otherHamlets_modHamlet (s.dropTraffic [m]) m _, ?_⟩
    rw [← State.dropTraffic_bellFlight]
    rfl
  case fill =>
    have hexec := exec_scrubFill hfence []
    rw [State.addDefects_none] at hexec
    have hfill := State.fillRegion_outside hsound
    have hmem : (s.fillHamlet m).mem = s.mem.zero (sramAddr m 0) padBytes := by
      show (s.fillRegion (sramAddr m 0) padBytes).mem = _
      rw [hfill]
      rfl
    refine ⟨_, hexec, State.otherHamlets_modHamlet (s.fillRegion (sramAddr m 0) padBytes) m _, fun o ho => ?_, fun a ha => ?_, ?_, rfl⟩
    · rw [hmem]
      exact Memory.read_zero_in _ (by unfold sramAddr; omega)
    · rw [hmem]
      exact Memory.read_zero_out hwf ha
    · rw [State.hamlet_fillHamlet, hfill, State.readback_zeroSram, Hamlet.filled_zero]
  case defect =>
    have hread := State.read_fillRegion_defect s (sramAddr m 0) ho hv
    rw [← sramAddr_add, Nat.zero_add] at hread
    refine ⟨_, exec_scrubFill hfence [(o, v)], hread, ?_⟩
    obtain ⟨hnonzero, hfails⟩ := Hamlet.filled_nonzero ((s.addDefects (sramAddr m 0) padBytes [(o, v)]).hamlet m)
      (State.readback_defect s (sramAddr m 0) ho hv)
    rw [State.hamlet_fillHamlet]
    refine ⟨hnonzero, hfails, ?_⟩
    rw [State.addDefects_one s _ ho, ← sramAddr_add, Nat.zero_add]
    rfl
  case retires =>
    obtain ⟨hhamlets, hmem, hlog⟩ := State.checkHamlet_retires (n := n) (j := j) (p := p) hbad
    have hset : ((s.checkHamlet m n j p).settleJob n).hamlets = _ := (State.settleJob_hamlets ..).trans hhamlets
    rw [hfence] at hset
    have hhamlet : ((s.checkHamlet m n j p).settleJob n).hamlet m = { (s.hamlet m).vacated with retired := true, fence := .filled } := by
      rw [State.hamlet, hset]
      exact Tab.get_set_same ..
    refine ⟨_, exec_scrubCheck hdue hfence, hhamlet, by rw [hhamlet]; rfl, fun k hk => ?_, ?_, ?_⟩
    · rw [hset]
      exact Tab.find_set_ne _ _ hk
    · rw [State.settleJob_mem, hmem]
    · rw [State.settleJob_logNext, hlog]
  case passes =>
    have hexec := exec_scrubCheck hdue hfence
    rw [State.checkHamlet_good hgood, State.settleJob_scrubNoted hjob hending hy] at hexec
    exact ⟨_, hexec, Tab.get_set_same .., fun k hk => Tab.find_set_ne _ _ hk, Tab.find_set_same .., rfl, rfl⟩
  case granule =>
    have hexec := exec_granuleScrub hdue []
    have hfill := State.fillRegion_outside hsound
    have hread : s.granuleRead q g = (0, false) := by
      rw [State.granuleRead, hfill, State.readback_zeroSram]
    rw [State.addDefects_none, State.scrubGranule_good _ hread] at hexec
    have hmem : ((s.granuleFreed q g n).settleJob n).mem = s.mem.zero (granuleAddr q.die (granuleNo q g) 0) granuleBytes := by
      rw [State.settleJob_mem, State.granuleFreed_mem, hfill]
      rfl
    have hparish := (State.parish_settleJob _ n q).trans (s.parish_granuleFreed q g n)
    refine ⟨_, hexec, fun o ho => ?_, fun a ha => ?_, ?_, ?_, ?_, ?_, ?_⟩
    · rw [hmem]
      exact Memory.read_zero_in _ (by unfold granuleAddr; omega)
    · rw [hmem]
      exact Memory.read_zero_out hwf ha
    · rw [hparish]
      rfl
    · rw [hparish]
      rfl
    · rw [hparish]
    · exact State.settleJob_granules (State.granuleFreed_job hjob)
    · rw [State.settleJob_frame, State.granuleFreed_frame]
  case badGranule =>
    have hexec := exec_granuleScrub hdue [(o, v)]
    rw [State.scrubGranule_bad _ (State.readback_defect s _ ho hv)] at hexec
    obtain ⟨hmem, hretired, hlog⟩ := State.retireGranule_effect
      ((s.addDefects (granuleAddr q.die (granuleNo q g) 0) granuleBytes [(o, v)]).granuleFreed q g n) q g j.household n
    have hread := State.read_fillRegion_defect s (granuleAddr q.die (granuleNo q g) 0) ho hv
    rw [← granuleAddr_add, Nat.zero_add] at hread
    refine ⟨_, hexec, ?_, ?_, ?_⟩
    · rw [State.settleJob_mem, hmem, State.granuleFreed_mem, hread]
    · rw [State.parish_settleJob, hretired, State.parish_granuleFreed]
      rfl
    · rw [State.settleJob_logNext, hlog, State.granuleFreed_logNext]
      rfl

end Sys2Proof.Machine
end

