-- ==== Sys2Proof/Proofs/PorterRows.lean ====
section
/-! COPY, GATHER, SCATTER and REDUCE of one row between clear pages of LPDDR (R217, R219): the row is fetched, and put where its descriptor says. -/

namespace Sys2Proof.Machine

/-! ## What a clear page holds -/

section
variable {s : State} {who : Actor} {write alloc : Bool} {ea n a : Nat}

theorem State.places_clear (h : s.clearPage who write ea n a) : s.places who write ea n = some [⟨a, n, .plain⟩] := by
  obtain ⟨hres, -, hsome, hblock, -, -⟩ := h
  simp [State.places, runsOf_one hsome hblock, hres]

/-- A place of LPDDR without poison is loaded as the memory holds it. -/
theorem State.loadPlaces_lpddr (s : State) (hlpddr : a < sramBase) (hsound : s.poisonedAt a n = false) :
    s.loadPlaces [⟨a, n, .plain⟩] = (s.mem.readBytes a n, false) := by
  simp [State.loadPlaces, State.loadMem, State.fenced_lpddr s hlpddr, State.bytesAt, hsound]

/-- Bytes of a clear page are fetched at once (R217). -/
theorem State.porterFetch_clear (p : PorterRef) (c : PorterCur) (h : s.clearPage who false ea n a) :
    s.porterFetch p c who ea n = .bytes (s.mem.readBytes a n) false (s.touch a n false (c.desc.desc.getLsbD 10)) := by
  simp [State.porterFetch, State.isRemote_clear h, State.readAt_clear h]

/-- The granules in scratch mode are the same. -/
theorem State.AccessAlike.reduceDst {t : State} (h : s.AccessAlike t) (ea n : Nat) (remote : Bool) :
    t.reduceDst ea n remote = s.reduceDst ea n remote := by
  have hscratch : t.isScratch = s.isScratch := by
    funext d g
    exact congrArg (fun x : BitVec 40 × BitVec 40 × Tab Nat => decide (g < 160) && x.1.getLsbD (g % 40)) (h.granules ⟨d, g / 40⟩)
  unfold State.reduceDst
  rw [hscratch]

end

/-! ## REDUCE (R219) -/

theorem length_words (n : Nat) (l : List Byte) : (words n l).length = (l.length + (n - 1)) / (if n = 0 then 1 else n) := by
  simp [words, chunks]

theorem reduceSize_pos (op : Nat) : 0 < reduceSize op := by
  unfold reduceSize
  split <;> decide

/-- The sums take as many bytes as the elements. -/
theorem length_reduceBytes (q : ReduceSpec) (base seed : Word64) (free : Nat) {old new : List Byte} (hold : old.length = new.length)
    (hwhole : new.length % reduceSize q.op = 0) : (reduceBytes q base seed free old new).length = new.length := by
  have hpos := reduceSize_pos q.op
  have hwords : (new.length + (reduceSize q.op - 1)) / reduceSize q.op = new.length / reduceSize q.op := by
    obtain ⟨k, hk⟩ := Nat.dvd_of_mod_eq_zero hwhole
    rw [hk, Nat.mul_add_div hpos, Nat.div_eq_of_lt (by omega), Nat.mul_div_cancel_left _ hpos, Nat.add_zero]
  simp only [reduceBytes, List.length_flatMap, length_toBytes, List.map_const', List.sum_replicate, List.length_zipIdx, List.length_zip,
    length_words, hold, Nat.min_self, if_neg hpos.ne', hwords, smul_eq_mul]
  exact Nat.div_mul_cancel (Nat.dvd_of_mod_eq_zero hwhole)

section
variable {s : State} {who : Actor} {ea n a : Nat}

/-- Of two states only the marks and the bytes of an access to LPDDR differ, and the free values that it draws. -/
def State.onlyStores (s t : State) : Prop :=
  t = { s with parishes := t.parishes, mem := t.mem, blkPoison := t.blkPoison, freeCtr := t.freeCtr }

/-- The home adds elements that are not poisoned into a clear page. -/
theorem State.reduceAt_clear (seed : Word64) {q : ReduceSpec} {d : List Byte} (h : s.clearPage who true ea d.length a)
    (hsound : s.poisonedAt a d.length = false) (hwhole : d.length % reduceSize q.op = 0) (alloc : Bool) :
    s.reduceAt who seed q ea d false alloc =
      some (((s.touch a d.length true alloc).store a
        (reduceBytes q s.settings.lotSeed seed s.freeCtr (s.mem.readBytes a d.length) d) .plain false).spendLots q (d.length / reduceSize q.op)) := by
  have halike := (State.AccessAlike.refl (s := s)).touch a d.length true alloc
  obtain ⟨-, hlpddr, hsome, -, -, hkv⟩ := halike.clearPage h
  have hload := State.loadPlaces_lpddr (s.touch a d.length true alloc) hlpddr ((halike.poisonedAt ..).trans hsound)
  have hlen := length_reduceBytes q s.settings.lotSeed seed s.freeCtr (s.mem.readBytes_length a d.length) hwhole
  have harrive : s.arrive true alloc [⟨a, d.length, .plain⟩] = s.touch a d.length true alloc := by
    simp only [State.arrive, List.foldl_cons, List.foldl_nil, State.wakeFor, slotOfAddr_lpddr hlpddr]
  have hopen (b : List Byte) := State.storeMem_open (s.touch a d.length true alloc) b .plain false (State.fenced_lpddr _ hlpddr)
  have hraw (t : State) : t.rawPlaces true [⟨a, d.length, .plain⟩] = [] := by
    simp [State.rawPlaces, State.rawSlots, slotOfAddr_lpddr hlpddr]
  simp [State.reduceAt, State.places_clear h, harrive, hload, halike.mem, State.noteKv_respected hsome hkv, State.noteAdapters_respected hkv,
    hraw, State.storePlaces, hopen, List.take_of_length_le hlen.le]

theorem State.onlyStores_touch (s : State) (a n : Nat) (write alloc : Bool) : s.onlyStores (s.touch a n write alloc) := by
  unfold State.onlyStores
  rw [State.touch_eq]

/-- Bytes stored in LPDDR: those at the place are new, and at most poison is cleared. -/
theorem State.touch_store_lpddr (s : State) (hlpddr : a < sramBase) (k : Nat) (alloc : Bool) (b : List Byte) :
    s.onlyStores ((s.touch a k true alloc).store a b .plain false) ∧
      ((s.touch a k true alloc).store a b .plain false).mem = s.mem.writeBytes a b := by
  obtain ⟨q, hstore⟩ := State.store_lpddr (s.touch a k true alloc) b (isSram_lpddr hlpddr)
  rw [hstore, State.touch_eq]
  exact ⟨rfl, rfl⟩

/-- A unit is apart from what an access to LPDDR stores. -/
theorem State.porter_touch_store (s : State) (p : PorterRef) (hlpddr : a < sramBase) (k : Nat) (alloc : Bool) (b : List Byte) :
    ((s.touch a k true alloc).store a b .plain false).porter p = s.porter p := by
  obtain ⟨q, hstore⟩ := State.store_lpddr (s.touch a k true alloc) b (isSram_lpddr hlpddr)
  rw [hstore, State.porter_withBlocks, State.porter_touch]

theorem State.spendLots_effect (s : State) (q : ReduceSpec) (k : Nat) (p : PorterRef) :
    s.onlyStores (s.spendLots q k) ∧ (s.spendLots q k).mem = s.mem ∧ (s.spendLots q k).porter p = s.porter p := by
  unfold State.spendLots
  split
  · exact ⟨rfl, rfl, by cases p <;> rfl⟩
  · exact ⟨rfl, rfl, rfl⟩

theorem State.onlyStores.trans {t u : State} (h : s.onlyStores t) (h' : t.onlyStores u) : s.onlyStores u := by
  unfold State.onlyStores at *
  rw [h', h]

/-! ## A row delivered to a clear page -/

/-- The bytes that the first row of a descriptor leaves at its destination, where `old` were: those that were fetched, or for a REDUCE the sums
(R217, R219). -/
def State.rowResult (s : State) (p : PorterRef) (e : PorterDesc) (old new : List Byte) : List Byte :=
  if descType e.desc = 4 then
    reduceBytes (reduceSpec e.desc e.byReeve 0) s.settings.lotSeed (((s.porterJob p e).map fun j => j.2.seed).getD 0) s.freeCtr old new
  else new

/-- What R219 asks of a REDUCE of `n` bytes into a clear page. -/
def State.reduceFits (s : State) (e : PorterDesc) (ea a n : Nat) : Prop :=
  descType e.desc = 4 → s.poisonedAt a n = false ∧ s.reduceDst ea n false = true ∧ n % reduceSize (reduceOp e.desc) = 0

/-- The first row of a descriptor is delivered whole to a clear page. -/
theorem State.deliverMem_clear {p : PorterRef} {e : PorterDesc} {b : List Byte}
    (h : s.clearPage (s.porterActor p e) true ea b.length a) (hreduce : s.reduceFits e ea a b.length) :
    ∃ t, s.deliverMem p e 0 ea b false = .ok t ∧ s.onlyStores t ∧
      t.mem = s.mem.writeBytes a (s.rowResult p e (s.mem.readBytes a b.length) b) ∧ t.porter p = s.porter p := by
  have hlpddr := h.2.1
  unfold State.deliverMem State.rowResult
  by_cases hty : descType e.desc = 4
  · obtain ⟨hsound, hdst, hwhole⟩ := hreduce hty
    have hsums := State.reduceAt_clear (q := reduceSpec e.desc e.byReeve 0) (((s.porterJob p e).map fun j => j.2.seed).getD 0) h hsound hwhole
      (e.desc.getLsbD 10)
    simp only [hty, State.isRemote_clear h, hsums, hdst, if_true, if_false, Bool.false_eq_true, and_false,
      reduceCtorEq]
    refine ⟨_, rfl, ?_⟩
    generalize reduceBytes _ _ _ _ _ _ = r
    obtain ⟨hstore, hmem⟩ := s.touch_store_lpddr hlpddr b.length (e.desc.getLsbD 10) r
    obtain ⟨hspend, hkept, hporter⟩ := State.spendLots_effect ((s.touch a b.length true (e.desc.getLsbD 10)).store a r .plain false)
      (reduceSpec e.desc e.byReeve 0) (b.length / reduceSize (reduceSpec e.desc e.byReeve 0).op) p
    exact ⟨hstore.trans hspend, hkept.trans hmem, hporter.trans (s.porter_touch_store p hlpddr ..)⟩
  · simp only [hty, State.isRemote_clear h, State.writeAt_clear h, if_false, Bool.false_eq_true, false_and]
    obtain ⟨hstore, hmem⟩ := s.touch_store_lpddr hlpddr b.length (e.desc.getLsbD 10) b
    exact ⟨_, rfl, hstore, hmem, s.porter_touch_store p hlpddr ..⟩

end

/-! ## The one row of a descriptor -/

/-- The index entry of the first row of a descriptor, where it has one (R217). -/
def firstEntry (d : Vec) (i : Nat) : RowEntry := if descType d = 2 ∨ descType d = 3 then .index i else .plain

/-- Where the first row of a descriptor comes from, and where it goes: a GATHER takes its source row from the index entry, a SCATTER its
destination row (R217). -/
def firstSrc (d : Vec) (i : Nat) : Nat := srcEa d (if descType d = 2 then i else 0)
def firstDst (d : Vec) (i : Nat) : Nat := dstEa d (if descType d = 3 then i else 0)

theorem rowMoves_firstEntry (d : Vec) (i : Nat) : rowMoves d [firstEntry d i] = [(firstSrc d i, firstDst d i)] := by
  unfold rowMoves firstEntry firstSrc firstDst
  by_cases hgather : descType d = 2
  · simp [hgather]
  · by_cases hscatter : descType d = 3
    · simp [hscatter]
    · simp [hgather, hscatter]

/-- An index entry that is sound and not empty names a row (R217). -/
theorem rowEntry_index {d : List Byte} {i : Nat} (hd : ofBytes d = i) (hi : i ≠ 0xffffffff) : rowEntry d false = .index i := by
  simp [rowEntry, hd, hi]

section
variable {s : State} {p : PorterRef} {e : PorterDesc} {i x src dst : Nat}

/-- The index entry of a GATHER or a SCATTER lies in a clear page at `x` and names row `i`. -/
def State.indexed (s : State) (p : PorterRef) (e : PorterDesc) (i x : Nat) : Prop :=
  descType e.desc = 2 ∨ descType e.desc = 3 →
    s.clearPage (s.porterActor p e) false (fieldOf e.desc 384 64) 4 x ∧ ofBytes (s.mem.readBytes x 4) = i ∧ i ≠ 0xffffffff

/-- Row `i` of its source and its destination lie in clear pages. -/
structure State.rowClear (s : State) (p : PorterRef) (e : PorterDesc) (i src dst : Nat) : Prop where
  source : s.clearPage (s.porterActor p e) false (firstSrc e.desc i) (rowLen e.desc) src
  target : s.clearPage (s.porterActor p e) true (firstDst e.desc i) (rowLen e.desc) dst
  reduce : s.reduceFits e (firstDst e.desc i) dst (rowLen e.desc)

theorem State.AccessAlike.rowClear {t : State} (h : s.AccessAlike t) (hrow : s.rowClear p e i src dst) : t.rowClear p e i src dst where
  source := by
    rw [h.porterActor]
    exact h.clearPage hrow.source
  target := by
    rw [h.porterActor]
    exact h.clearPage hrow.target
  reduce hty := by
    rw [h.poisonedAt, h.reduceDst]
    exact hrow.reduce hty

theorem State.AccessAlike.indexed {t : State} (h : s.AccessAlike t) (hindex : s.indexed p e i x) : t.indexed p e i x := fun hty => by
  obtain ⟨hclear, hentry, hsome⟩ := hindex hty
  rw [h.porterActor, h.mem]
  exact ⟨h.clearPage hclear, hentry, hsome⟩

/-- The address of the first index entry. -/
theorem indexEa_zero (d : Vec) : (fieldOf d 384 64 + 4 * 0) % 2 ^ 64 = fieldOf d 384 64 :=
  Nat.mod_eq_of_lt (Nat.mod_lt _ (by decide))

/-- The rows of a clear descriptor lie apart, so that it breaks no rule of R222. -/
theorem State.porterBroken_clear (hrow : s.rowClear p e i src dst) (hindex : s.indexed p e i x) (hcount : rowCount e.desc = 1)
    (hsrc : srcRing e.desc = false) (hdst : dstRing e.desc = false) (hapart : src + rowLen e.desc ≤ dst ∨ dst + rowLen e.desc ≤ src)
    (haligned : descType e.desc = 4 →
      firstSrc e.desc i % reduceSize (reduceOp e.desc) = 0 ∧ firstDst e.desc i % reduceSize (reduceOp e.desc) = 0) :
    s.porterBroken p e = false := by
  have hentries : s.porterIndexes (s.porterActor p e) e.desc = [firstEntry e.desc i] := by
    unfold State.porterIndexes firstEntry
    rw [hcount, List.range_one, List.map_singleton, indexEa_zero]
    split
    next hty =>
      obtain ⟨hclear, hentry, hsome⟩ := hindex hty
      rw [State.places_clear hclear]
      dsimp only
      rw [s.loadPlaces_lpddr hclear.2.1 (hclear.2.2.2.2.1 rfl), rowEntry_index hentry hsome]
    next => rfl
  have hmeet : placesMeet ⟨src, rowLen e.desc, .plain⟩ ⟨dst, rowLen e.desc, .plain⟩ = false := by
    simp only [placesMeet, Bool.and_eq_false_iff, decide_eq_false_iff_not]
    omega
  unfold State.porterBroken
  dsimp only
  rw [hentries, rowMoves_firstEntry]
  by_cases hty : descType e.desc = 4
  · obtain ⟨-, -, hwhole⟩ := hrow.reduce hty
    obtain ⟨hs, hd⟩ := haligned hty
    simp [hsrc, hdst, State.rowPlaces, State.places_clear hrow.source, State.places_clear hrow.target, hmeet, hwhole, hs, hd]
  · simp [hsrc, hdst, State.rowPlaces, State.places_clear hrow.source, State.places_clear hrow.target, hmeet, hty]

/-- Cache marks are no part of what a row comes to. -/
theorem State.rowResult_touch (a n : Nat) (write alloc : Bool) (old new : List Byte) :
    (s.touch a n write alloc).rowResult p e old new = s.rowResult p e old new := by
  rw [State.touch_eq]
  rfl

/-- With its index entry known, the first row is fetched from its source and goes to its destination. -/
theorem State.rowWith_fetches (hsrc : s.clearPage (s.porterActor p e) false (firstSrc e.desc i) (rowLen e.desc) src) (s0 : State) :
    s.rowWith s0 p { desc := e } ⟨none, none⟩ (firstEntry e.desc i) =
      (s.touch src (rowLen e.desc) false (e.desc.getLsbD 10)).putRow s0 p { desc := e } { desc := e } none (firstDst e.desc i)
        (s.mem.readBytes src (rowLen e.desc)) false false := by
  have hfetch := State.porterFetch_clear p { desc := e } hsrc
  unfold State.rowWith firstEntry firstDst
  unfold firstSrc at hfetch
  by_cases hgather : descType e.desc = 2
  · simp only [hgather, if_true, true_or] at hfetch ⊢
    simp [hfetch, State.notePoison]
  · by_cases hscatter : descType e.desc = 3
    · simp [hscatter] at hfetch ⊢
      simp [hfetch, State.notePoison]
    · simp [hgather, hscatter] at hfetch ⊢
      simp [hfetch, State.notePoison]

/-- The first row, once its index entry is known, is fetched and delivered. -/
theorem State.rowWith_clear (hrow : s.rowClear p e i src dst) (s0 : State) :
    ∃ t, s.rowWith s0 p { desc := e } ⟨none, none⟩ (firstEntry e.desc i) = .next { desc := e, row := 1 } t ∧ s.onlyStores t ∧
      t.mem = s.mem.writeBytes dst (s.rowResult p e (s.mem.readBytes dst (rowLen e.desc)) (s.mem.readBytes src (rowLen e.desc))) ∧
      t.porter p = s.porter p := by
  have halike := (State.AccessAlike.refl (s := s)).touch src (rowLen e.desc) false (e.desc.getLsbD 10)
  have hmarked := halike.rowClear hrow
  have hlen : (s.mem.readBytes src (rowLen e.desc)).length = rowLen e.desc := Memory.readBytes_length ..
  obtain ⟨t, hdeliver, hstores, hmem, hporter⟩ := State.deliverMem_clear (b := s.mem.readBytes src (rowLen e.desc))
    (by rw [hlen]; exact hmarked.target) (by rw [hlen]; exact hmarked.reduce)
  rw [hlen, State.rowResult_touch, halike.mem] at hmem
  refine ⟨t, ?_, (State.onlyStores_touch ..).trans hstores, hmem, hporter.trans (State.porter_touch ..)⟩
  · rw [State.rowWith_fetches hrow.source]
    simp only [State.putRow, hdeliver, Bool.false_eq_true, if_false]
    rfl

/-- The first row of a clear descriptor is moved (R217, R219). -/
theorem State.porterRow_clear (hrow : s.rowClear p e i src dst) (hindex : s.indexed p e i x) :
    ∃ t, s.porterRow p { desc := e } ⟨none, none⟩ = .next { desc := e, row := 1 } t ∧ s.onlyStores t ∧
      t.mem = s.mem.writeBytes dst (s.rowResult p e (s.mem.readBytes dst (rowLen e.desc)) (s.mem.readBytes src (rowLen e.desc))) ∧
      t.porter p = s.porter p := by
  unfold State.porterRow
  dsimp only
  split
  next hty =>
    obtain ⟨hclear, hentry, hsome⟩ := hindex hty
    have halike := (State.AccessAlike.refl (s := s)).touch x 4 false (e.desc.getLsbD 10)
    have hfirst : firstEntry e.desc i = .index i := if_pos hty
    rw [indexEa_zero, State.porterFetch_clear p { desc := e } hclear]
    dsimp only
    rw [rowEntry_index hentry hsome, ← hfirst]
    obtain ⟨t, hnext, hstores, hmem, hporter⟩ := State.rowWith_clear (halike.rowClear hrow) s
    rw [State.rowResult_touch, halike.mem] at hmem
    exact ⟨t, hnext, (State.onlyStores_touch ..).trans hstores, hmem, hporter.trans (State.porter_touch ..)⟩
  next hty =>
    have hfirst : firstEntry e.desc i = .plain := if_neg hty
    rw [← hfirst]
    exact State.rowWith_clear hrow s

end

/-! ## The descriptor -/

section
variable {s : State} {p : PorterRef} {e : PorterDesc} {rest : List PorterDesc} {i x src dst : Nat}

/-- A descriptor whose endpoints are both memory names no ring. -/
theorem State.porterRings_memory (hsrc : srcRing e.desc = false) (hdst : dstRing e.desc = false) :
    s.porterRings p e = .rings ⟨none, none⟩ := by
  unfold State.porterRings
  split
  · simp [hsrc, hdst]
  · simp [hsrc, hdst]

/-- A valid descriptor with memory as its destination starts. -/
theorem State.porterStart_memory (hvalid : porterDescValid e.desc = true) (hrows : porterRowsValid e.desc = true) (hdst : dstRing e.desc = false) :
    (s.porterBusy p).porterStart p e rest =
      .next ((s.porterTakes p rest).porterGo p { desc := e, broken := (s.porterTakes p rest).porterBroken p e }) := by
  unfold State.porterStart
  simp only [hvalid, hrows, hdst, Bool.not_true, Bool.false_eq_true, if_false, and_false]
  rfl

/-- What a row comes to does not turn on what a Porter's work changes besides. -/
theorem State.rowResult_porterTakes (old new : List Byte) : (s.porterTakes p rest).rowResult p e old new = s.rowResult p e old new := by
  have hjob : (s.porterTakes p rest).porterJob p e = s.porterJob p e := State.porterTakes_alike.porterJob p e
  have hfree : (s.porterTakes p rest).freeCtr = s.freeCtr := (congrArg State.freeCtr State.porterTakes_alike.frame :)
  have hlots : (s.porterTakes p rest).settings.lotSeed = s.settings.lotSeed := by
    have hstir : s.stir.settings.lotSeed = s.settings.lotSeed := by
      unfold State.stir State.rouse
      split <;> rfl
    rw [State.porterTakes_frame]
    exact hstir
  unfold State.rowResult
  rw [hjob, hfree, hlots]

/-- An idle Porter moves the one row of its oldest descriptor between clear pages that lie apart. -/
theorem porterCommand_moves (hruns : s.porterRuns p = true) (hwf : s.mem.wf = true) (hrun : (s.porter p).run = none)
    (hcur : (s.porter p).cur = none) (hhalt : (s.porter p).halted = false) (hqueue : (s.porter p).queue = e :: rest)
    (hvalid : porterDescValid e.desc = true) (hsome : rowLen e.desc ≠ 0) (hcount : rowCount e.desc = 1) (hsrc : srcRing e.desc = false)
    (hdst : dstRing e.desc = false) (hrow : s.rowClear p e i src dst) (hindex : s.indexed p e i x)
    (hapart : src + rowLen e.desc ≤ dst ∨ dst + rowLen e.desc ≤ src)
    (haligned : descType e.desc = 4 →
      firstSrc e.desc i % reduceSize (reduceOp e.desc) = 0 ∧ firstDst e.desc i % reduceSize (reduceOp e.desc) = 0) :
    ∃ t, exec (porterCommand p (descType e.desc)) s = .next t ∧
      s.memHas t dst (s.rowResult p e (s.mem.readBytes dst (rowLen e.desc)) (s.mem.readBytes src (rowLen e.desc))) ∧
      t.porter p = { s.porter p with queue := rest, run := some ⟨e, false⟩ } ∧
      t = { s.stir with hamlets := t.hamlets, parishes := t.parishes, mem := t.mem, blkPoison := t.blkPoison, freeCtr := t.freeCtr } := by
  have halike : s.AccessAlike (s.porterTakes p rest) := State.porterTakes_alike
  have hbroken := State.porterBroken_clear (halike.rowClear hrow) (halike.indexed hindex) hcount hsrc hdst hapart haligned
  obtain ⟨t, hnext, hstores, hmem, hporter⟩ := State.porterRow_clear (halike.rowClear hrow) (halike.indexed hindex)
  rw [State.rowResult_porterTakes, halike.mem] at hmem
  rw [State.porter_porterTakes] at hporter
  have hexec : exec (porterCommand p (descType e.desc)) s =
      .next (t.modPorter p fun x => { x with cur := none, run := some ⟨e, false⟩ }) := by
    rw [porterCommand_starts hruns hrun hcur hhalt hqueue,
      State.porterStart_memory hvalid (by simp [porterRowsValid, hsome, hcount]) hdst, hbroken]
    exact congrArg Host.Outcome.next
      (State.porterGo_one (c := { desc := e }) (State.porterRings_memory hsrc hdst) hcount rfl rfl hnext rfl rfl)
  refine ⟨_, hexec, State.memHas_write hwf ?_, ?_, ?_⟩
  · rw [State.modPorter_mem, hmem]
  · rw [State.porter_modPorter, hporter]
    simp only [hcur]
  · unfold State.onlyStores at hstores
    rw [State.modPorter, State.setPorter_frame]
    generalize State.hamlets (State.setPorter _ p _) = hs
    generalize State.parishes (State.setPorter _ p _) = ps
    rw [hstores, State.porterTakes_frame]

end

/-- Settles O28: the index entry, the source and the destination lie in clear pages, between which the Porter moves the row
(`porterCommand_moves`). -/
theorem porterMovesRowsOfMemory : Obligations.PorterMovesRowsOfMemory := by
  unfold Obligations.PorterMovesRowsOfMemory
  rintro s p e rest who i src dst n hruns hwf hrun hcur hhalt hqueue hvalid rfl hsome hcount hsrc hdst rfl hindex sea dea rfl rfl
    hsrcRes hsrcLow hsrcBlock hsrcSound hsrcKv hdstKv hdstRes hdstLow hdstBlock hapart hreduce
  have hpos : 0 < rowLen e.desc := Nat.pos_of_ne_zero hsome
  have hrow : s.rowClear p e i src dst := by
    refine ⟨⟨hsrcRes, hsrcLow, hpos, hsrcBlock, fun _ => hsrcSound, hsrcKv⟩, ⟨hdstRes, hdstLow, hpos, hdstBlock, nofun, hdstKv⟩, fun hty => ?_⟩
    obtain ⟨hsound, hkind, hwhole, -, -⟩ := hreduce hty
    exact ⟨hsound, hkind, hwhole⟩
  have haligned (hty : descType e.desc = 4) : firstSrc e.desc i % reduceSize (reduceOp e.desc) = 0 ∧
      firstDst e.desc i % reduceSize (reduceOp e.desc) = 0 := by
    obtain ⟨-, -, -, hs, hd⟩ := hreduce hty
    exact ⟨hs, hd⟩
  by_cases hty : descType e.desc = 2 ∨ descType e.desc = 3
  · obtain ⟨x, hres, hlow, hblock, hsound, hkv, hentry, hnone⟩ := hindex hty
    exact porterCommand_moves hruns hwf hrun hcur hhalt hqueue hvalid hsome hcount hsrc hdst hrow
      (fun _ => ⟨⟨hres, hlow, by decide, hblock, fun _ => hsound, hkv⟩, hentry, hnone⟩) hapart haligned
  · exact porterCommand_moves (x := 0) hruns hwf hrun hcur hhalt hqueue hvalid hsome hcount hsrc hdst hrow (fun h => absurd h hty) hapart haligned

end Sys2Proof.Machine
end

