-- ==== Sys2Proof/Proofs/PageTables.lean ====
section
/-! Page tables in the reserved regions (R192, R193, R198, R200, R206): the copies of a table lie apart from each other and from the data pages, and
`State.Enters` says what writing some entries of a table leaves. -/

namespace Sys2Proof.Machine

/-! ## Reserved regions (R192, R206) -/

section
variable {s : State}

/-- A host die is a die of the package with LPDDR (R206). -/
theorem State.hostDie_has {d h : Nat} (hhost : s.hostDie d = some h) : h < s.dieCount ∧ (s.die h).noLpddr = false := by
  have hmem := List.mem_of_find?_eq_some hhost
  obtain ⟨hrange, hlpddr⟩ := List.mem_filter.1 hmem
  exact ⟨List.mem_range.1 hrange, by simpa using hlpddr⟩

/-- The dies below `d` that die `h` hosts. -/
def State.hostedBelow (s : State) (d h : Nat) : Nat := ((List.range d).filter fun i => (s.die i).noLpddr && s.hostDie i == some h).length

theorem State.hosted_eq (s : State) (h : Nat) : s.hosted h = s.hostedBelow s.dieCount h := rfl

/-- A hosted die counts among those below a later one. -/
theorem State.hostedBelow_lt {d e h : Nat} (hlpddr : (s.die d).noLpddr = true) (hhost : s.hostDie d = some h) (hde : d < e) :
    s.hostedBelow d h < s.hostedBelow e h := by
  have hsub := (List.range_sublist.2 (Nat.succ_le_of_lt hde)).filter fun i => (s.die i).noLpddr && s.hostDie i == some h
  have hlen := hsub.length_le
  rw [List.range_succ, List.filter_append, List.length_append] at hlen
  simp only [List.filter_cons, List.filter_nil, hlpddr, hhost, beq_self_eq_true, Bool.and_self, if_true, List.length_singleton] at hlen
  exact Nat.lt_of_succ_le hlen

theorem State.hosted_le (s : State) (h : Nat) : s.hosted h ≤ 8 := by
  have hlen := List.length_filter_le (fun i => (s.die i).noLpddr && s.hostDie i == some h) (List.range s.dieCount)
  have hdies : s.dieCount ≤ 8 := by
    unfold State.dieCount
    split <;> decide
  rw [List.length_range] at hlen
  exact hlen.trans hdies

/-- The die whose LPDDR holds the reserved region of a die, and how many regions lie above it there: none above a die's own, which is at the top (R192,
R206). -/
def State.regionAt (s : State) (d : Nat) : Nat × Nat :=
  match (if (s.die d).noLpddr then s.hostDie d else none) with
  | some h => (h, s.hosted h - s.hostedBelow d h)
  | none => (d, 0)

theorem State.regionAt_own {d : Nat} (h : (if (s.die d).noLpddr then s.hostDie d else none) = none) : s.regionAt d = (d, 0) := by
  unfold State.regionAt
  rw [h]

theorem State.regionAt_hosted {d h : Nat} (hh : (if (s.die d).noLpddr then s.hostDie d else none) = some h) :
    s.regionAt d = (h, s.hosted h - s.hostedBelow d h) := by
  unfold State.regionAt
  rw [hh]

/-- A die that another one hosts has no LPDDR. -/
theorem State.hosted_cases {d h : Nat} (hh : (if (s.die d).noLpddr then s.hostDie d else none) = some h) :
    (s.die d).noLpddr = true ∧ s.hostDie d = some h := by
  by_cases hlpddr : (s.die d).noLpddr = true
  · rw [if_pos hlpddr] at hh
    exact ⟨hlpddr, hh⟩
  · rw [if_neg hlpddr] at hh
    cases hh

/-- Regions lie at the top of a die's data capacity, 2 GiB each. -/
theorem State.regionAt_le (s : State) (d : Nat) : (s.regionAt d).2 ≤ s.hosted (s.regionAt d).1 := by
  cases hh : (if (s.die d).noLpddr then s.hostDie d else none) with
  | none =>
    rw [State.regionAt_own hh]
    exact Nat.zero_le _
  | some h =>
    rw [State.regionAt_hosted hh]
    exact Nat.sub_le ..

/-- No two dies have the same region. -/
theorem State.regionAt_ne {d e : Nat} (hd : d < s.dieCount) (he : e < s.dieCount) (hne : d ≠ e) : s.regionAt d ≠ s.regionAt e := by
  intro heq
  cases hhd : (if (s.die d).noLpddr then s.hostDie d else none) with
  | none =>
    cases hhe : (if (s.die e).noLpddr then s.hostDie e else none) with
    | none =>
      rw [State.regionAt_own hhd, State.regionAt_own hhe] at heq
      exact hne (congrArg Prod.fst heq)
    | some h =>
      obtain ⟨hlpddr, hhost⟩ := State.hosted_cases hhe
      have hlt := State.hostedBelow_lt hlpddr hhost he
      rw [State.regionAt_own hhd, State.regionAt_hosted hhe, State.hosted_eq] at heq
      have hnone : 0 = _ := congrArg Prod.snd heq
      omega
  | some h =>
    obtain ⟨hlpddr, hhost⟩ := State.hosted_cases hhd
    have hlt := State.hostedBelow_lt hlpddr hhost hd
    cases hhe : (if (s.die e).noLpddr then s.hostDie e else none) with
    | none =>
      rw [State.regionAt_hosted hhd, State.regionAt_own hhe, State.hosted_eq] at heq
      have hnone : _ = 0 := congrArg Prod.snd heq
      omega
    | some h' =>
      obtain ⟨hlpddr', hhost'⟩ := State.hosted_cases hhe
      rw [State.regionAt_hosted hhd, State.regionAt_hosted hhe, Prod.mk.injEq] at heq
      obtain ⟨rfl, hplace⟩ := heq
      have hlt' := State.hostedBelow_lt hlpddr' hhost' he
      rw [State.hosted_eq] at hplace
      rcases Nat.lt_or_gt_of_ne hne with hde | hed
      · have := State.hostedBelow_lt hlpddr hhost hde
        omega
      · have := State.hostedBelow_lt hlpddr' hhost' hed
        omega

theorem dataPages_range (x : Density) : 9 * 1024 ≤ dataPages x ∧ dataPages x * pageBytes ≤ 0xc000000000 := by
  cases x <;> decide

/-- Where the reserved region of a die begins. -/
theorem State.reservedAddr_region {d : Nat} (hd : d < s.dieCount) : s.reservedAddr d 0 =
    lpddrBase (s.regionAt d).1 + (dataPages s.part.density - 1024 * (s.regionAt d).2 - 1024) * pageBytes := by
  have hpages := (dataPages_range s.part.density).1
  cases hh : (if (s.die d).noLpddr then s.hostDie d else none) with
  | none =>
    rw [State.regionAt_own hh]
    unfold State.reservedAddr
    rw [hh]
    simp
  | some h =>
    obtain ⟨hlpddr, hhost⟩ := State.hosted_cases hh
    have hlt := State.hostedBelow_lt hlpddr hhost hd
    have hle := s.hosted_le h
    have htop : s.topPages h = dataPages s.part.density - 1024 - 1024 * s.hosted h := if_neg (by simp [(State.hostDie_has hhost).2])
    rw [State.regionAt_hosted hh]
    unfold State.reservedAddr
    rw [hh]
    dsimp only
    rw [htop]
    rw [← State.hosted_eq] at hlt
    change lpddrBase h + _ + reservedBytes * s.hostedBelow d h + 0 = _
    unfold pageBytes reservedBytes
    omega

/-- An address lies in the reserved region of no die. -/
def State.offRegions (s : State) (a : Nat) : Prop := ∀ d, d < s.dieCount → a < s.reservedAddr d 0 ∨ s.reservedAddr d 0 + reservedBytes ≤ a

/-- The reserved regions of two dies lie apart. -/
theorem State.regions_apart {d e : Nat} (hd : d < s.dieCount) (he : e < s.dieCount) (hne : d ≠ e) :
    s.reservedAddr d 0 + reservedBytes ≤ s.reservedAddr e 0 ∨ s.reservedAddr e 0 + reservedBytes ≤ s.reservedAddr d 0 := by
  have hregions := State.regionAt_ne hd he hne
  obtain ⟨hmin, hmax⟩ := dataPages_range s.part.density
  have hkd := (s.regionAt_le d).trans (s.hosted_le _)
  have hke := (s.regionAt_le e).trans (s.hosted_le _)
  rw [State.reservedAddr_region hd, State.reservedAddr_region he]
  generalize s.regionAt d = x at *
  generalize s.regionAt e = y at *
  have hdiffer : x.1 ≠ y.1 ∨ x.2 ≠ y.2 := by
    by_contra hsame
    rw [not_or, not_not, not_not] at hsame
    exact hregions (Prod.ext hsame.1 hsame.2)
  unfold lpddrBase reservedBytes pageBytes at *
  omega

/-- Data pages lie below the reserved regions of their die (R192). -/
theorem State.offRegions_data {h x : Nat} (hx : x < s.topPages h * pageBytes) : s.offRegions (lpddrBase h + x) := by
  intro d hd
  obtain ⟨hmin, hmax⟩ := dataPages_range s.part.density
  have hk := s.regionAt_le d
  have hk8 := s.hosted_le (s.regionAt d).1
  rw [State.reservedAddr_region hd]
  unfold State.topPages at hx
  split at hx
  · omega
  · generalize s.regionAt d = r at *
    by_cases hsame : r.1 = h
    · rw [hsame] at hk ⊢
      unfold lpddrBase pageBytes reservedBytes at *
      omega
    · unfold lpddrBase pageBytes reservedBytes at *
      omega

end

/-! ## Bytes of entries (Table 7.5) -/

theorem ofBytes_toBytes (n v : Nat) : ofBytes (toBytes n v) = v % 256 ^ n := by
  induction n generalizing v with
  | zero => simp [toBytes, ofBytes, Nat.mod_one]
  | succ n ih =>
    have hsplit : v % 256 ^ (n + 1) = v % 256 + 256 * (v / 256 % 256 ^ n) := by rw [pow_succ', Nat.mod_mul]
    simp [toBytes, ofBytes, ih, hsplit]

/-- An entry is what its bytes spell. -/
theorem ofNat_ofBytes_toBytes (e : Word64) : BitVec.ofNat 64 (ofBytes (toBytes 8 e.toNat)) = e := by
  have hlt : e.toNat < 256 ^ 8 := e.isLt
  rw [ofBytes_toBytes, Nat.mod_eq_of_lt hlt, BitVec.ofNat_toNat, BitVec.setWidth_eq]

/-- The bytes of some entries, as they stand in a table. -/
def pteBytes (l : List Word64) : List Byte := l.flatMap fun e => toBytes 8 e.toNat

theorem length_pteBytes (l : List Word64) : (pteBytes l).length = 8 * l.length := by
  simp [pteBytes, length_toBytes, Nat.mul_comm]

/-- Byte `k` of entry `i`. -/
theorem pteBytes_get (l : List Word64) {i k : Nat} (hi : i < l.length) (hk : k < 8) :
    (pteBytes l)[8 * i + k]? = (toBytes 8 l[i].toNat)[k]? := by
  induction l generalizing i with
  | nil => exact absurd hi (Nat.not_lt_zero i)
  | cons e l ih =>
    have hcons : pteBytes (e :: l) = toBytes 8 e.toNat ++ pteBytes l := rfl
    rw [hcons]
    cases i with
    | zero => rw [List.getElem?_append_left (by rw [length_toBytes]; omega), Nat.mul_zero, Nat.zero_add, List.getElem_cons_zero]
    | succ i =>
      have hplace : 8 * (i + 1) + k - 8 = 8 * i + k := by omega
      rw [List.getElem?_append_right (by rw [length_toBytes]; omega), length_toBytes, hplace, ih (by simpa using hi), List.getElem_cons_succ]

/-- Copies of some bytes at places apart: each reads as written. -/
theorem Memory.read_writeCopies_in {m : Memory} {addr : Nat → Nat} {b : List Byte} {l : List Nat} {d k : Nat} (h : m.wf = true) (hd : d ∈ l)
    (hnodup : l.Nodup) (hapart : ∀ e ∈ l, e ≠ d → addr d + b.length ≤ addr e ∨ addr e + b.length ≤ addr d) (hk : k < b.length) :
    (l.foldl (fun m d => m.writeBytes (addr d) b) m).read (addr d + k) = b[k] := by
  obtain ⟨before, behind, rfl⟩ := List.append_of_mem hd
  have hlast : d ∉ behind := fun hmem => (List.nodup_cons.1 (List.nodup_append.1 hnodup).2.1).1 hmem
  rw [List.foldl_append, List.foldl_cons, Memory.read_writeCopies (Memory.wf_writeBytes _ _ (Memory.wf_writeCopies _ _ _ h)) fun e he => ?_]
  · exact Memory.read_writeBytes_in ..
  · have hfar := hapart e (List.mem_append_right _ (List.mem_cons_of_mem _ he)) fun heq => hlast (heq ▸ he)
    omega

section
variable {s t u : State} {hh : Nat}

/-! ## Entries read -/

/-- An entry is what die 0's copy holds. -/
theorem State.pte_eq (hwf : s.mem.wf = true) (hh page : Nat) :
    s.pte hh page = BitVec.ofNat 64 (ofBytes ((List.range 8).map fun k => s.mem.read (s.pteAddr 0 hh page + k))) := by
  unfold State.pte
  rw [Memory.readBytes_eq hwf]

/-- A household's table lies in the reserved region of each die. -/
theorem State.pteAddr_region (hfits : s.tableFits hh) {page : Nat} (hpage : page < (s.household hh).ptLen) (d : Nat) :
    s.reservedAddr d 0 ≤ s.pteAddr d hh page ∧ s.pteAddr d hh page + 8 ≤ s.reservedAddr d 0 + reservedBytes := by
  unfold State.tableFits at hfits
  unfold State.pteAddr
  rw [s.reservedAddr_add d (_ + _)]
  omega

/-- An address in no reserved region is in no entry. -/
theorem State.offRegions.offTables {a first n : Nat} (ha : s.offRegions a) (hfits : s.tableFits hh)
    (hrange : first + n ≤ (s.household hh).ptLen) : s.offTables hh first n a := by
  intro d hd
  have hregion := ha d hd
  unfold State.tableFits at hfits
  unfold State.pteAddr
  rw [s.reservedAddr_add d (_ + _)]
  omega

/-- Entries of one copy are in no entry of another one, and in that copy only in their own. -/
theorem State.offTables_entry (hfits : s.tableFits hh) {first n page k : Nat} (hrange : first + n ≤ (s.household hh).ptLen)
    (hpage : page < (s.household hh).ptLen) (hout : page < first ∨ first + n ≤ page) (hk : k < 8) :
    s.offTables hh first n (s.pteAddr 0 hh page + k) := by
  intro d hd
  have hdies : 0 < s.dieCount := by
    unfold State.dieCount
    split <;> decide
  by_cases hown : d = 0
  · subst hown
    rw [s.pteAddr_eq 0 hh page, s.pteAddr_eq 0 hh first]
    omega
  · have hregions := State.regions_apart hdies hd (Ne.symm hown)
    have hentry := State.pteAddr_region hfits hpage 0
    unfold State.tableFits at hfits
    have hfirst : s.pteAddr d hh first = s.reservedAddr d 0 + ((s.household hh).ptBase + 8 * first) := s.reservedAddr_add d _
    omega

/-! ## Entries written -/

/-- The state after entries `new` have been written in every copy of a household's table, and those of their pages have left the translation caches
(R198, R200): besides them only memory outside the table and other entries of the caches are as before. -/
structure State.Enters (hh : Nat) (new : Nat → Option Word64) (s t : State) : Prop where
  frame : t = { s with mem := t.mem, dies := t.dies }
  noLpddr : ∀ d, (t.die d).noLpddr = (s.die d).noLpddr
  cache : ∀ d e, e ∈ (t.die d).tcache ↔ e ∈ (s.die d).tcache ∧ ¬(e.1 = hh ∧ (new e.2).isSome = true)
  wf : s.mem.wf = true → t.mem.wf = true
  read : s.mem.wf = true → ∀ a, (∀ i, (new i).isSome = true → s.offTables hh i 1 a) → t.mem.read a = s.mem.read a
  pte : s.mem.wf = true → s.tableFits hh → ∀ i, i < (s.household hh).ptLen → t.pte hh i = (new i).getD (s.pte hh i)

theorem State.Enters.part {new : Nat → Option Word64} (h : s.Enters hh new t) : t.part = s.part := (congrArg State.part h.frame :)

theorem State.Enters.household {new : Nat → Option Word64} (h : s.Enters hh new t) (i : Nat) : t.household i = s.household i := by
  rw [h.frame]
  rfl

theorem State.Enters.pteAddr {new : Nat → Option Word64} (h : s.Enters hh new t) (d page : Nat) : t.pteAddr d hh page = s.pteAddr d hh page := by
  unfold State.pteAddr
  rw [h.household]
  exact State.reservedAddr_congr h.part h.noLpddr d _

theorem State.Enters.offTables {new : Nat → Option Word64} {first n a : Nat} (h : s.Enters hh new t) :
    t.offTables hh first n a ↔ s.offTables hh first n a := by
  unfold State.offTables
  simp only [h.pteAddr, State.dieCount_congr h.part]

theorem State.Enters.tableFits {new : Nat → Option Word64} (h : s.Enters hh new t) (hfits : s.tableFits hh) : t.tableFits hh := by
  unfold State.tableFits at *
  rw [h.household]
  exact hfits

/-- Nothing entered. -/
theorem State.Enters.refl : s.Enters hh (fun _ => none) s :=
  ⟨rfl, fun _ => rfl, fun _ _ => by simp, id, fun _ _ _ => rfl, fun _ _ _ _ => rfl⟩

/-- Entries written after others stand where both name a page. -/
theorem State.Enters.trans {new new' : Nat → Option Word64} (h : s.Enters hh new t) (h' : t.Enters hh new' u) :
    s.Enters hh (fun i => (new' i).or (new i)) u where
  frame := by rw [h'.frame, h.frame]
  noLpddr d := (h'.noLpddr d).trans (h.noLpddr d)
  cache d e := by
    rw [h'.cache, h.cache, Option.isSome_or, Bool.or_eq_true]
    tauto
  wf hwf := h'.wf (h.wf hwf)
  read hwf a ha := by
    rw [h'.read (h.wf hwf) a fun i hi => h.offTables.2 (ha i (by simp [hi])), h.read hwf a fun i hi => ha i (by simp [hi])]
  pte hwf hfits i hi := by
    rw [h'.pte (h.wf hwf) (h.tableFits hfits) i (by rwa [h.household]), h.pte hwf hfits i hi]
    cases new' i <;> rfl

/-- The entries of a list, for consecutive pages. -/
def entriesFrom (first : Nat) (l : List Word64) (i : Nat) : Option Word64 := if first ≤ i then l[i - first]? else none

theorem isSome_entriesFrom {first : Nat} {l : List Word64} {i : Nat} :
    (entriesFrom first l i).isSome = true ↔ first ≤ i ∧ i < first + l.length := by
  unfold entriesFrom
  split <;> simp <;> omega

/-- An address off each of some consecutive entries is off all of them. -/
theorem State.offTables_of_each {first n a : Nat} (h : ∀ i, first ≤ i ∧ i < first + n → s.offTables hh i 1 a) : s.offTables hh first n a := by
  intro d hd
  by_contra hin
  have heach := h (first + (a - s.pteAddr d hh first) / 8) (by omega) d hd
  rw [s.pteAddr_eq d hh first] at *
  rw [s.pteAddr_eq d hh (first + _)] at heach
  omega

/-- A byte of an entry in die 0's copy, after the entries have been written. -/
theorem State.read_mapPages {first j k : Nat} {l : List Word64} (hw : s.mem.wf = true) (hfits : s.tableFits hh)
    (hrange : first + l.length ≤ (s.household hh).ptLen) (hj : j < l.length) (hk : k < 8) :
    (s.mapPages hh first l).mem.read (s.pteAddr 0 hh (first + j) + k) =
      (toBytes 8 l[j].toNat)[k]'(by rw [length_toBytes]; exact hk) := by
  have hdies : 0 < s.dieCount := by
    unfold State.dieCount
    split <;> decide
  have hmem : (s.mapPages hh first l).mem = (List.range s.dieCount).foldl (fun m d => m.writeBytes (s.pteAddr d hh first) (pteBytes l)) s.mem := rfl
  have hplace : s.pteAddr 0 hh (first + j) + k = s.pteAddr 0 hh first + (8 * j + k) := by
    rw [s.pteAddr_eq 0 hh (first + j), s.pteAddr_eq 0 hh first]
    omega
  have hlen : 8 * j + k < (pteBytes l).length := by
    rw [length_pteBytes]
    omega
  have hapart (e : Nat) (he : e ∈ List.range s.dieCount) (hne : e ≠ 0) : s.pteAddr 0 hh first + (pteBytes l).length ≤ s.pteAddr e hh first ∨
      s.pteAddr e hh first + (pteBytes l).length ≤ s.pteAddr 0 hh first := by
    have hregions := State.regions_apart hdies (List.mem_range.1 he) (Ne.symm hne)
    have hplace (d : Nat) : s.pteAddr d hh first = s.reservedAddr d 0 + ((s.household hh).ptBase + 8 * first) := s.reservedAddr_add d _
    unfold State.tableFits at hfits
    rw [length_pteBytes, hplace 0, hplace e]
    omega
  rw [hmem, hplace, Memory.read_writeCopies_in (addr := fun d => s.pteAddr d hh first) hw (List.mem_range.2 hdies) List.nodup_range hapart hlen]
  refine Option.some.inj ?_
  rw [← List.getElem?_eq_getElem hlen, ← List.getElem?_eq_getElem, pteBytes_get l hj hk]

/-- Consecutive entries written (R198, R200). -/
theorem State.enters_mapPages {first : Nat} {l : List Word64} (hrange : first + l.length ≤ (s.household hh).ptLen) :
    s.Enters hh (entriesFrom first l) (s.mapPages hh first l) := by
  have hmem : (s.mapPages hh first l).mem = (List.range s.dieCount).foldl (fun m d => m.writeBytes (s.pteAddr d hh first) (pteBytes l)) s.mem := rfl
  have hdie (d : Nat) : (s.mapPages hh first l).die d = { s.die d with
      tcache := (s.die d).tcache.filter fun e => !(e.1 == hh && decide (first ≤ e.2) && decide (e.2 < first + l.length)) } :=
    Tab.get_mapV _ _ rfl
  have hnoLpddr (d : Nat) : ((s.mapPages hh first l).die d).noLpddr = (s.die d).noLpddr := by rw [hdie]
  have hwf (hw : s.mem.wf = true) : (s.mapPages hh first l).mem.wf = true := by
    rw [hmem]
    exact Memory.wf_writeCopies _ _ _ hw
  have hoff (hw : s.mem.wf = true) {a : Nat} (ha : s.offTables hh first l.length a) : (s.mapPages hh first l).mem.read a = s.mem.read a := by
    rw [hmem]
    refine Memory.read_writeCopies hw fun d hd => ?_
    rw [length_pteBytes]
    exact ha d (List.mem_range.1 hd)
  refine ⟨rfl, hnoLpddr, fun d e => ?_, hwf, fun hw a ha => hoff hw (State.offTables_of_each fun i hi => ha i (isSome_entriesFrom.2 hi)),
    fun hw hfits i hi => ?_⟩
  · rw [hdie, isSome_entriesFrom]
    simp only [List.mem_filter, Bool.not_eq_true', Bool.and_eq_false_iff, beq_eq_false_iff_ne, decide_eq_false_iff_not]
    refine and_congr_right fun _ => ?_
    omega
  · have haddr : (s.mapPages hh first l).pteAddr 0 hh i = s.pteAddr 0 hh i := by
      exact State.reservedAddr_congr (s := s) (t := s.mapPages hh first l) rfl hnoLpddr 0 _
    rw [State.pte_eq (hwf hw), haddr, State.pte_eq hw]
    by_cases hin : first ≤ i ∧ i < first + l.length
    · obtain ⟨j, rfl⟩ := Nat.exists_eq_add_of_le hin.1
      have hj : j < l.length := by omega
      have hbytes : (List.range 8).map (fun k => (s.mapPages hh first l).mem.read (s.pteAddr 0 hh (first + j) + k)) = toBytes 8 l[j].toNat := by
        refine List.ext_getElem (by rw [List.length_map, List.length_range, length_toBytes]) fun k hk _ => ?_
        rw [List.length_map, List.length_range] at hk
        rw [List.getElem_map, List.getElem_range, State.read_mapPages hw hfits hrange hj hk]
      have hentry : entriesFrom first l (first + j) = some l[j] := by
        unfold entriesFrom
        rw [if_pos hin.1, Nat.add_sub_cancel_left, List.getElem?_eq_getElem hj]
      rw [hbytes, hentry, ofNat_ofBytes_toBytes, Option.getD_some]
    · have hnone : entriesFrom first l i = none := by
        rw [← Option.not_isSome_iff_eq_none, isSome_entriesFrom]
        exact hin
      rw [hnone, Option.getD_none]
      congr 2
      refine List.map_congr_left fun k hk => hoff hw (State.offTables_entry hfits hrange hi (by omega) (List.mem_range.1 hk))

/-- Entries that are cleared. -/
def entriesCleared (l : List Nat) (i : Nat) : Option Word64 := if i ∈ l then some 0 else none

theorem isSome_entriesCleared {l : List Nat} {i : Nat} : (entriesCleared l i).isSome = true ↔ i ∈ l := by
  unfold entriesCleared
  split <;> simp [*]

/-- The entries of some pages cleared (R352). -/
theorem State.enters_unmapPages {l : List Nat} (h : ∀ i ∈ l, i < (s.household hh).ptLen) :
    s.Enters hh (entriesCleared l) (s.unmapPages hh l) := by
  induction l generalizing s with
  | nil => exact State.Enters.refl
  | cons i l ih =>
    have hfirst : s.Enters hh (entriesFrom i [0]) (s.mapPages hh i [0]) := State.enters_mapPages (h i (List.mem_cons_self ..))
    have hrest : (s.mapPages hh i [0]).Enters hh (entriesCleared l) (s.unmapPages hh (i :: l)) :=
      ih fun j hj => by
        rw [hfirst.household]
        exact h j (List.mem_cons_of_mem _ hj)
    have hboth : (fun j => (entriesCleared l j).or (entriesFrom i [0] j)) = entriesCleared (i :: l) := by
      funext j
      unfold entriesCleared entriesFrom
      by_cases hl : j ∈ l
      · simp [hl]
      · by_cases hi : j = i
        · subst hi
          simp [hl]
        · by_cases hle : i ≤ j
          · simp [hl, hi, hle]
            omega
          · simp [hl, hi, hle]
    exact hboth ▸ hfirst.trans hrest

/-! ## The valid entries of a table -/

/-- A valid entry has a byte that memory lists. -/
theorem State.pte_listed (hwf : s.mem.wf = true) {page : Nat} (hvalid : pteValid (s.pte hh page) = true) :
    ∃ c ∈ s.mem, c.1 = s.pteAddr 0 hh page := by
  by_contra hnone
  have hread : s.mem.read (s.pteAddr 0 hh page) = 0 := by
    unfold Memory.read
    cases hfound : lookupCell s.mem (s.pteAddr 0 hh page) with
    | none => rfl
    | some b => exact absurd ⟨_, lookupCell_mem _ hfound, rfl⟩ hnone
  have heven : (ofBytes ((List.range 8).map fun k => s.mem.read (s.pteAddr 0 hh page + k))) % 2 = 0 := by
    rw [List.range_succ_eq_map, List.map_cons, Nat.add_zero, hread, ofBytes]
    simp
    omega
  rw [pteValid, State.pte_eq hwf, BitVec.getLsbD_ofNat, Nat.testBit_zero, heven] at hvalid
  exact absurd hvalid (by decide)

/-- The valid entries of a table are those of its pages that read valid. -/
theorem State.mem_ptesOf (hwf : s.mem.wf = true) {e : Nat × Word64} :
    e ∈ s.ptesOf hh ↔ e.1 < (s.household hh).ptLen ∧ e.2 = s.pte hh e.1 ∧ pteValid e.2 = true := by
  constructor
  · intro he
    refine ⟨State.lt_of_mem_ptesOf he, ?_⟩
    obtain ⟨hmap, hvalid⟩ := List.mem_filter.1 he
    obtain ⟨i, -, rfl⟩ := List.mem_map.1 hmap
    exact ⟨rfl, hvalid⟩
  · rintro ⟨hpage, hentry, hvalid⟩
    obtain ⟨c, hc, haddr⟩ := State.pte_listed hwf (hentry ▸ hvalid)
    rw [s.pteAddr_eq 0 hh e.1] at haddr
    refine List.mem_filter.2 ⟨List.mem_map.2 ⟨e.1, List.mem_dedup.2 (List.mem_map.2 ⟨c, List.mem_filter.2 ⟨hc, ?_⟩, ?_⟩), ?_⟩, hvalid⟩
    · rw [Bool.and_eq_true, decide_eq_true_iff, decide_eq_true_iff]
      omega
    · omega
    · rw [← hentry]

/-- The pages of which memory lists a byte of the entry. -/
def State.listedPages (s : State) (hh : Nat) : List Nat :=
  ((s.mem.filter fun c => decide (s.pteAddr 0 hh 0 ≤ c.1) && decide (c.1 < s.pteAddr 0 hh 0 + 8 * (s.household hh).ptLen)).map
    fun c => (c.1 - s.pteAddr 0 hh 0) / 8).dedup

theorem State.ptesOf_eq (s : State) (hh : Nat) : s.ptesOf hh = ((s.listedPages hh).map fun i => (i, s.pte hh i)).filter fun e => pteValid e.2 := rfl

/-- No page is named twice. -/
theorem State.nodup_ptesOf (s : State) (hh : Nat) : ((s.ptesOf hh).map Prod.fst).Nodup := by
  have hsub := (List.filter_sublist (p := fun e : Nat × Word64 => pteValid e.2) (l := (s.listedPages hh).map fun i => (i, s.pte hh i))).map Prod.fst
  rw [List.map_map, ← State.ptesOf_eq] at hsub
  have hpages : (s.listedPages hh).map (Prod.fst ∘ fun i => (i, s.pte hh i)) = s.listedPages hh := List.map_id _
  rw [hpages] at hsub
  exact hsub.nodup (List.nodup_dedup _)

end

end Sys2Proof.Machine
end

