-- ==== Sys2Proof/Proofs/PageCommands.lean ====
section
/-! MEM_MAP and MEM_UNMAP (R199, R200, R352): which pages are taken, that they are zero-filled, and what enters and leaves the tables. -/

namespace Sys2Proof.Machine

/-! ## Free pages -/

/-- What is found is free, each page once, and lies in the places looked at. -/
theorem scanFree_found {free : Nat → Bool} {total f p n : Nat} {ps : List Nat} (h : scanFree free total f p n = some ps) (hf : f ≤ total) :
    ps.length = n ∧ ps.Nodup ∧ ∀ q ∈ ps, free q = true ∧ ∃ i, i < f ∧ q = (p + i) % total := by
  induction f generalizing p n ps with
  | zero =>
    cases n with
    | zero =>
      cases h
      exact ⟨rfl, List.nodup_nil, nofun⟩
    | succ n => cases h
  | succ f ih =>
    cases n with
    | zero =>
      cases h
      exact ⟨rfl, List.nodup_nil, nofun⟩
    | succ n =>
      have hlater {qs : List Nat} {m : Nat} (hq : scanFree free total f (p + 1) m = some qs) {q : Nat} (hmem : q ∈ qs) :
          free q = true ∧ ∃ i, i < f ∧ q = (p + 1 + i) % total := (ih hq (by omega)).2.2 q hmem
      rw [scanFree] at h
      split at h
      next hfree =>
        obtain ⟨qs, hq, rfl⟩ := Option.map_eq_some_iff.1 h
        obtain ⟨hlen, hnodup, -⟩ := ih hq (by omega)
        refine ⟨by rw [List.length_cons, hlen], List.nodup_cons.2 ⟨fun hmem => ?_, hnodup⟩, fun q hmem => ?_⟩
        · obtain ⟨-, i, hi, hsame⟩ := hlater hq hmem
          have hmod : p % total = (p + (1 + i)) % total := by rw [hsame, Nat.add_assoc]
          have hdvd : total ∣ 1 + i := by
            have := (Nat.ModEq.symm hmod : p + (1 + i) ≡ p [MOD total])
            exact (Nat.modEq_zero_iff_dvd).1 (Nat.ModEq.add_left_cancel' p this)
          exact absurd (Nat.le_of_dvd (by omega) hdvd) (by omega)
        · rcases List.mem_cons.1 hmem with rfl | hmem
          · exact ⟨hfree, 0, by omega, rfl⟩
          · obtain ⟨hok, i, hi, rfl⟩ := hlater hq hmem
            exact ⟨hok, 1 + i, by omega, by rw [Nat.add_assoc]⟩
      next =>
        obtain ⟨hlen, hnodup, -⟩ := ih h (by omega)
        refine ⟨hlen, hnodup, fun q hmem => ?_⟩
        obtain ⟨hok, i, hi, rfl⟩ := hlater h hmem
        exact ⟨hok, 1 + i, by omega, by rw [Nat.add_assoc]⟩

/-- Pages that are taken are different, free, and below the number there is. -/
theorem scanFree_pages {free : Nat → Bool} {total f p n : Nat} {ps : List Nat} (h : scanFree free total f p n = some ps) (hf : f ≤ total) :
    ps.length = n ∧ ps.Nodup ∧ (∀ q ∈ ps, free q = true) ∧ ∀ q ∈ ps, q < total := by
  obtain ⟨hlen, hnodup, hpages⟩ := scanFree_found h hf
  refine ⟨hlen, hnodup, fun q hq => (hpages q hq).1, fun q hq => ?_⟩
  obtain ⟨-, i, hi, rfl⟩ := hpages q hq
  exact Nat.mod_lt _ (by omega)

/-! ## Zero-filling -/

section
variable {s : State}

/-- Runs of 64 KiB filled with zeros. -/
def State.zeroed (s : State) (runs : List Nat) : State := runs.foldl (State.zeroRun .plain) s

/-- Only memory and the poison of its blocks change. -/
theorem State.zeroed_frame (s : State) (runs : List Nat) :
    s.zeroed runs = { s with mem := (s.zeroed runs).mem, blkPoison := (s.zeroed runs).blkPoison } := by
  induction runs generalizing s with
  | nil => rfl
  | cons r runs ih =>
    have hrest : s.zeroed (r :: runs) = (State.zeroRun .plain s r).zeroed runs := rfl
    rw [hrest, ih]
    rfl

theorem State.zeroed_wf (hwf : s.mem.wf = true) (runs : List Nat) : (s.zeroed runs).mem.wf = true := by
  induction runs generalizing s with
  | nil => exact hwf
  | cons r runs ih => exact ih (s := State.zeroRun .plain s r) (Memory.wf_zero _ _ hwf)

/-- An address in none of the runs reads as before. -/
theorem State.read_zeroed_out (hwf : s.mem.wf = true) {runs : List Nat} {a : Nat} (ha : ∀ r ∈ runs, a < r ∨ r + 0x10000 ≤ a) :
    (s.zeroed runs).mem.read a = s.mem.read a := by
  induction runs generalizing s with
  | nil => rfl
  | cons r runs ih =>
    have hrest := ih (s := State.zeroRun .plain s r) (Memory.wf_zero _ _ hwf) fun r' hr => ha r' (List.mem_cons_of_mem _ hr)
    exact hrest.trans (Memory.read_zero_out hwf (ha r (List.mem_cons_self ..)))

/-- A zero stays one. -/
theorem State.read_zeroed_zero (hwf : s.mem.wf = true) {a : Nat} (ha : s.mem.read a = 0) (runs : List Nat) : (s.zeroed runs).mem.read a = 0 := by
  induction runs generalizing s with
  | nil => exact ha
  | cons r runs ih =>
    refine ih (s := State.zeroRun .plain s r) (Memory.wf_zero _ _ hwf) ?_
    by_cases hin : r ≤ a ∧ a < r + 0x10000
    · exact Memory.read_zero_in _ hin
    · exact (Memory.read_zero_out hwf (by omega)).trans ha

/-- An address in one of them reads 0. -/
theorem State.read_zeroed_in (hwf : s.mem.wf = true) {runs : List Nat} {r a : Nat} (hr : r ∈ runs) (ha : r ≤ a ∧ a < r + 0x10000) :
    (s.zeroed runs).mem.read a = 0 := by
  obtain ⟨before, behind, rfl⟩ := List.append_of_mem hr
  have hsplit : s.zeroed (before ++ r :: behind) = (State.zeroRun .plain (s.zeroed before) r).zeroed behind := by
    unfold State.zeroed
    rw [List.foldl_append, List.foldl_cons]
  have hzero : (State.zeroRun .plain (s.zeroed before) r).mem.read a = 0 := Memory.read_zero_in (s.zeroed before).mem ha
  rw [hsplit]
  have hwf' : (State.zeroRun .plain (s.zeroed before) r).mem.wf = true := Memory.wf_zero _ _ (State.zeroed_wf hwf before)
  exact State.read_zeroed_zero hwf' hzero behind

/-! ## Where pages lie (R192, R195) -/

/-- Where every die has LPDDR no region but its own lies at the top of a die. -/
theorem State.topPages_all (hall : s.allLpddr = true) {d : Nat} (hd : d < s.dieCount) : s.topPages d = dataPages s.part.density - 1024 := by
  have hlpddr (i : Nat) (hi : i < s.dieCount) : (s.die i).noLpddr = false := by
    have := List.all_eq_true.1 hall i (List.mem_range.2 hi)
    simpa using this
  have hosted : s.hosted d = 0 := by
    unfold State.hosted
    rw [List.filter_eq_nil_iff.2 fun i hi => by simp [hlpddr i (List.mem_range.1 hi)], List.length_nil]
  unfold State.topPages
  rw [hlpddr d hd, hosted, if_neg Bool.false_ne_true, Nat.mul_zero, Nat.sub_zero]

/-- Run `i` of a page of the interleaved view: its granule of 64 KiB is the whole of one at a die (R195). -/
theorem State.pageAddr_run (s : State) (p i : Nat) : s.pageAddr p (0x10000 * i) =
    lpddrBase ((32 * p + i) % s.dieCount) + (32 * p + i) / s.dieCount * 0x10000 := by
  have hgranule : (p * pageBytes + 0x10000 * i) / 0x10000 = 32 * p + i := by
    unfold pageBytes
    omega
  have hwhole : (p * pageBytes + 0x10000 * i) % 0x10000 = 0 := by
    unfold pageBytes
    omega
  unfold State.pageAddr
  dsimp only
  rw [hgranule, hwhole, Nat.add_zero]

/-- Pages of the interleaved view lie in no reserved region. -/
theorem State.offRegions_view {p i o : Nat} (hp : p < s.viewPages) (hi : i < 32) (ho : o < 0x10000) :
    s.offRegions (s.pageAddr p (0x10000 * i) + o) := by
  unfold State.viewPages at hp
  split at hp
  next hall =>
    have hdies : 0 < s.dieCount := by
      unfold State.dieCount
      split <;> decide
    have hdie := Nat.mod_lt (32 * p + i) hdies
    have htop : s.topPages ((32 * p + i) % s.dieCount) = s.topPages 0 := by rw [State.topPages_all hall hdie, State.topPages_all hall hdies]
    have hplace : (32 * p + i) / s.dieCount < 32 * s.topPages 0 := by
      rw [Nat.div_lt_iff_lt_mul hdies]
      calc 32 * p + i < 32 * (p + 1) := by omega
        _ ≤ 32 * (s.dieCount * s.topPages 0) := Nat.mul_le_mul_left 32 hp
        _ = 32 * s.topPages 0 * s.dieCount := by ring
    rw [State.pageAddr_run, Nat.add_assoc]
    refine State.offRegions_data ?_
    rw [htop]
    unfold pageBytes
    omega
  next => omega

/-- Nor do those of a die. -/
theorem State.offRegions_die {d p i o : Nat} (hp : p < s.topPages d) (hi : i < 32) (ho : o < 0x10000) :
    s.offRegions (lpddrBase d + p * pageBytes + 0x10000 * i + o) := by
  have hplace : lpddrBase d + p * pageBytes + 0x10000 * i + o = lpddrBase d + (p * pageBytes + 0x10000 * i + o) := by omega
  rw [hplace]
  refine State.offRegions_data ?_
  unfold pageBytes
  omega

end

/-! ## MEM_MAP (R352) -/

section
variable {s : State} {k hint : Nat} {c : Command} (hruns : s.commandRuns k 0x0106 c) (hopen : s.isOpen (s.cmdHousehold k c) = true)

/-- What MEM_MAP refuses with ARG. -/
def State.mapRefused (s : State) (hh first n f : Nat) : Prop :=
  2 ^ 12 ≤ f ∨ s.unmapped hh first n = false ∨ (bitAt f 8 = true ∧ s.dieCount ≤ bitsOf f 9 3) ∨
    (bitAt f 1 = true ∧ ((s.keySlots.find (bitsOf f 2 6)).map fun x => x.owner == hh).getD false = false)

/-- The pages that MEM_MAP takes: of the die that A3 names, or of the interleaved view. -/
def State.pagesFor (s : State) (f n hint : Nat) : Option (List Nat) :=
  if bitAt f 8 then s.allocDie s.pagesInUse (bitsOf f 9 3) n hint else s.allocView s.pagesInUse n hint

/-- PAGE of such a page. -/
def pageFieldFor (f p : Nat) : Nat := if bitAt f 8 then diePage (bitsOf f 9 3) p else viewPage p

/-- The runs of some such pages. -/
def State.runsFor (s : State) (f : Nat) (ps : List Nat) : List Nat := ps.flatMap fun p => s.pageRuns (!bitAt f 8) (bitsOf f 9 3) p

include hruns hopen in
theorem memMap_refuses (hbad : s.mapRefused (s.cmdHousehold k c) (c.arg 1) (c.arg 2) (c.arg 3)) : s.replies (.memMap k hint) k c 2 0 s := by
  refine State.replies_of_command (r := refuse s stArg) rfl hruns ?_
  rw [State.forHousehold, if_pos hopen]
  exact if_pos hbad

include hruns hopen in
theorem memMap_short (hok : ¬s.mapRefused (s.cmdHousehold k c) (c.arg 1) (c.arg 2) (c.arg 3))
    (hnone : s.pagesFor (c.arg 3) (c.arg 2) hint = none) : s.replies (.memMap k hint) k c 7 0 s := by
  refine State.replies_of_command (r := refuse s stNoMemory) rfl hruns ?_
  rw [State.forHousehold, if_pos hopen]
  refine (if_neg hok).trans ?_
  unfold State.pagesFor at hnone
  rw [hnone]

/-- An entry without PROT is of a page that is kept as it is (R210). -/
theorem State.cryptFor_plain (s : State) (hh : Nat) (w : Bool) (key page : Nat) : s.cryptFor hh (pteWord w false key page) = .plain := by
  have hprot : pteProt (pteWord w false key page) = false := by
    have hsum : (1 + flag w * 2 + page * 2 ^ 21) / 4 % 2 = 0 := by
      unfold flag
      split <;> omega
    unfold pteProt pteWord
    rw [BitVec.getLsbD_ofNat]
    simp [flag, Nat.testBit, Nat.shiftRight_eq_div_pow] at hsum ⊢
    omega
  unfold State.cryptFor
  rw [hprot]
  rfl

/-- What MEM_MAP of unprotected pages leaves, in a state whose pages `ps` are written with zeros and mapped (R352). -/
structure State.MapsPages (s : State) (hh first f : Nat) (ps : List Nat) (t : State) : Prop where
  frame : t = { s with mem := t.mem, blkPoison := t.blkPoison, dies := t.dies }
  cache : ∀ d e, e ∈ (t.die d).tcache ↔ e ∈ (s.die d).tcache ∧ ¬(e.1 = hh ∧ first ≤ e.2 ∧ e.2 < first + ps.length)
  pte : ∀ i (hi : i < ps.length), t.pte hh (first + i) = pteWord (bitAt f 0) false (bitsOf f 2 6) (pageFieldFor f ps[i])
  zero : ∀ r ∈ s.runsFor f ps, ∀ o < 0x10000, t.mem.read (r + o) = 0
  read : ∀ a, (∀ r ∈ s.runsFor f ps, ∀ o < 0x10000, a ≠ r + o) → s.offTables hh first ps.length a → t.mem.read a = s.mem.read a

/-- The pages are mapped as the command says, where they lie in no reserved region. -/
theorem State.mapsPages {hh first f : Nat} {ps : List Nat} (hwf : s.mem.wf = true) (hfits : s.tableFits hh)
    (hrange : first + ps.length ≤ (s.household hh).ptLen) (hoff : ∀ r ∈ s.runsFor f ps, ∀ o < 0x10000, s.offRegions (r + o)) :
    s.MapsPages hh first f ps ((s.zeroed (s.runsFor f ps)).mapPages hh first
      (ps.map fun p => pteWord (bitAt f 0) false (bitsOf f 2 6) (pageFieldFor f p))) := by
  have hframe := s.zeroed_frame (s.runsFor f ps)
  have hwf' := State.zeroed_wf hwf (s.runsFor f ps)
  have hin (r : Nat) (hr : r ∈ s.runsFor f ps) (o : Nat) (ho : o < 0x10000) : (s.zeroed (s.runsFor f ps)).mem.read (r + o) = 0 :=
    State.read_zeroed_in hwf hr (by omega)
  have hout (a : Nat) (ha : ∀ r ∈ s.runsFor f ps, ∀ o < 0x10000, a ≠ r + o) : (s.zeroed (s.runsFor f ps)).mem.read a = s.mem.read a := by
    refine State.read_zeroed_out hwf fun r hr => ?_
    by_contra hnear
    exact ha r hr (a - r) (by omega) (by omega)
  generalize s.zeroed (s.runsFor f ps) = z at *
  have hhouse : z.household hh = s.household hh := by
    rw [hframe]
    rfl
  have htables (n a : Nat) : z.offTables hh first n a ↔ s.offTables hh first n a := by
    rw [hframe]
    exact Iff.rfl
  have hdie (d : Nat) : z.die d = s.die d := by
    rw [hframe]
    rfl
  have hboth {t : State} (ht : t = { z with mem := t.mem, dies := t.dies }) : t = { s with mem := t.mem, blkPoison := t.blkPoison, dies := t.dies } := by
    obtain ⟨m, b, hz⟩ : ∃ m b, z = { s with mem := m, blkPoison := b } := ⟨_, _, hframe⟩
    obtain ⟨m', l, rfl⟩ : ∃ m l, t = { z with mem := m, dies := l } := ⟨_, _, ht⟩
    rw [hz]
  have henters := State.enters_mapPages (s := z) (hh := hh) (first := first)
    (l := ps.map fun p => pteWord (bitAt f 0) false (bitsOf f 2 6) (pageFieldFor f p)) (by rw [hhouse, List.length_map]; exact hrange)
  have hkept (a : Nat) (ha : s.offTables hh first ps.length a) : _ = z.mem.read a := henters.read hwf' a fun i hi => by
    rw [isSome_entriesFrom, List.length_map] at hi
    intro d hd
    have hall := (htables _ a).2 ha d hd
    rw [z.pteAddr_eq d hh first] at hall
    rw [z.pteAddr_eq d hh i]
    omega
  refine ⟨hboth henters.frame, fun d e => ?_, fun i hi => ?_, fun r hr o ho => ?_, fun a ha htable => ?_⟩
  · rw [henters.cache, isSome_entriesFrom, List.length_map, hdie]
  · have hfits' : z.tableFits hh := by
      unfold State.tableFits at *
      rw [hhouse]
      exact hfits
    rw [henters.pte hwf' hfits' (first + i) (by rw [hhouse]; omega)]
    simp [entriesFrom, hi]
  · rw [hkept _ ((hoff r hr o ho).offTables hfits hrange), hin r hr o ho]
  · rw [hkept a htable, hout a ha]

include hruns hopen in
theorem memMap_maps {ps : List Nat} (hok : ¬s.mapRefused (s.cmdHousehold k c) (c.arg 1) (c.arg 2) (c.arg 3)) (hprot : bitAt (c.arg 3) 1 = false)
    (hpages : s.pagesFor (c.arg 3) (c.arg 2) hint = some ps) :
    s.replies (.memMap k hint) k c 0 (BitVec.ofNat 64 (c.arg 2)) ((s.zeroed (s.runsFor (c.arg 3) ps)).mapPages (s.cmdHousehold k c) (c.arg 1)
      (ps.map fun p => pteWord (bitAt (c.arg 3) 0) false (bitsOf (c.arg 3) 2 6) (pageFieldFor (c.arg 3) p))) := by
  refine State.replies_of_command (r := done _ (c.arg 2)) rfl hruns ?_
  rw [State.forHousehold, if_pos hopen]
  refine (if_neg hok).trans ?_
  unfold State.pagesFor at hpages
  rw [hpages]
  dsimp only
  rw [hprot, State.cryptFor_plain]
  rfl

end

end Sys2Proof.Machine
end

