-- ==== Sys2Proof/Proofs/PagesMapped.lean ====
section
/-! MEM_MAP and MEM_UNMAP as the commands reply (R199, R200, R352). -/

namespace Sys2Proof.Machine

/-! ## The pages that MEM_MAP takes -/

section
variable {s : State} {used ps : List Nat} {n hint f : Nat}

/-- Free pages of the interleaved view: as many as asked for, each once. -/
theorem State.allocView_pages (h : s.allocView used n hint = some ps) :
    ps.length = n ∧ ps.Nodup ∧ (∀ p ∈ ps, s.viewFree used p = true) ∧ ∀ p ∈ ps, p < s.viewPages :=
  scanFree_pages h (Nat.min_le_left ..)

/-- Free pages of a die. -/
theorem State.allocDie_pages {d : Nat} (h : s.allocDie used d n hint = some ps) :
    ps.length = n ∧ ps.Nodup ∧ (∀ p ∈ ps, s.dieFree used d p = true) ∧ ∀ p ∈ ps, p < s.topPages d :=
  scanFree_pages h (Nat.min_le_left ..)

/-- The runs of pages of the interleaved view (R195). -/
theorem State.mem_runsFor_view (h : bitAt f 8 = false) {r : Nat} :
    r ∈ s.runsFor f ps ↔ ∃ p ∈ ps, ∃ i < 32, s.pageAddr p (0x10000 * i) = r := by
  simp [State.runsFor, State.pageRuns, h]

/-- The runs of pages of a die. -/
theorem State.mem_runsFor_die (h : bitAt f 8 = true) {r : Nat} :
    r ∈ s.runsFor f ps ↔ ∃ p ∈ ps, ∃ i < 32, lpddrBase (bitsOf f 9 3) + p * pageBytes + 0x10000 * i = r := by
  simp [State.runsFor, State.pageRuns, h]

/-- An entry without PROT. -/
theorem pteWord_plain (w : Bool) (key page : Nat) : pteWord w false key page = BitVec.ofNat 64 (1 + flag w * 2 + page * 2 ^ 21) := by
  simp [pteWord, flag]

/-! ## What mapped pages read -/

section
variable {t : State} {hh first : Nat} (h : s.MapsPages hh first f ps t)
include h

theorem State.MapsPages.pte_view (hview : bitAt f 8 = false) {i : Nat} (hi : i < ps.length) :
    t.pte hh (first + i) = BitVec.ofNat 64 (1 + flag (bitAt f 0) * 2 + viewPage ps[i] * 2 ^ 21) := by
  rw [h.pte i hi, pteWord_plain, pageFieldFor, hview, if_neg Bool.false_ne_true]

theorem State.MapsPages.zero_view (hview : bitAt f 8 = false) {p i o : Nat} (hp : p ∈ ps) (hi : i < 32) (ho : o < 0x10000) :
    t.mem.read (s.pageAddr p (0x10000 * i) + o) = 0 :=
  h.zero _ ((State.mem_runsFor_view hview).2 ⟨p, hp, i, hi, rfl⟩) o ho

theorem State.MapsPages.read_view (hview : bitAt f 8 = false) {a : Nat}
    (ha : ∀ p ∈ ps, ∀ i < 32, ∀ o < 0x10000, a ≠ s.pageAddr p (0x10000 * i) + o) (htable : s.offTables hh first ps.length a) :
    t.mem.read a = s.mem.read a := by
  refine h.read a (fun r hr o ho => ?_) htable
  obtain ⟨p, hp, i, hi, rfl⟩ := (State.mem_runsFor_view hview).1 hr
  exact ha p hp i hi o ho

theorem State.MapsPages.pte_die (hlocal : bitAt f 8 = true) {i : Nat} (hi : i < ps.length) :
    t.pte hh (first + i) = BitVec.ofNat 64 (1 + flag (bitAt f 0) * 2 + diePage (bitsOf f 9 3) ps[i] * 2 ^ 21) := by
  rw [h.pte i hi, pteWord_plain, pageFieldFor, if_pos hlocal]

theorem State.MapsPages.zero_die (hlocal : bitAt f 8 = true) {p o : Nat} (hp : p ∈ ps) (ho : o < 0x200000) :
    t.mem.read (lpddrBase (bitsOf f 9 3) + p * 0x200000 + o) = 0 := by
  have hsplit : lpddrBase (bitsOf f 9 3) + p * 0x200000 + o =
      lpddrBase (bitsOf f 9 3) + p * pageBytes + 0x10000 * (o / 0x10000) + o % 0x10000 := by
    unfold pageBytes
    omega
  rw [hsplit]
  exact h.zero _ ((State.mem_runsFor_die hlocal).2 ⟨p, hp, o / 0x10000, by omega, rfl⟩) _ (by omega)

theorem State.MapsPages.read_die (hlocal : bitAt f 8 = true) {a : Nat}
    (ha : ∀ p ∈ ps, ∀ o < 0x200000, a ≠ lpddrBase (bitsOf f 9 3) + p * 0x200000 + o) (htable : s.offTables hh first ps.length a) :
    t.mem.read a = s.mem.read a := by
  refine h.read a (fun r hr o ho => ?_) htable
  obtain ⟨p, hp, i, hi, rfl⟩ := (State.mem_runsFor_die hlocal).1 hr
  have hplace := ha p hp (0x10000 * i + o) (by omega)
  unfold pageBytes
  omega

end

/-! ## What MEM_MAP refuses -/

theorem State.mapRefused_of {hh first : Nat} (h : 2 ^ 12 ≤ f ∨ s.unmapped hh first n = false ∨ (bitAt f 8 = true ∧ s.dieCount ≤ bitsOf f 9 3) ∨
    (bitAt f 1 = true ∧ ∀ x, s.keySlots.find (bitsOf f 2 6) = some x → x.owner ≠ hh)) : s.mapRefused hh first n f := by
  refine h.imp_right (Or.imp_right (Or.imp_right (And.imp_right fun hslot => ?_)))
  cases hfind : s.keySlots.find (bitsOf f 2 6) with
  | none => rfl
  | some x => simpa using hslot x hfind

theorem State.not_mapRefused {hh first : Nat} (hf : f < 2 ^ 12) (hfree : s.unmapped hh first n = true) (hprot : bitAt f 1 = false)
    (hdie : bitAt f 8 = true → bitsOf f 9 3 < s.dieCount) : ¬s.mapRefused hh first n f := by
  rintro (hbits | hmapped | ⟨hlocal, hnone⟩ | ⟨hkeyed, -⟩)
  · omega
  · exact absurd (hfree.symm.trans hmapped) (by decide)
  · exact absurd (hdie hlocal) (by omega)
  · exact absurd (hprot.symm.trans hkeyed) (by decide)

theorem State.unmapped_range {hh first : Nat} (h : s.unmapped hh first n = true) : first + n ≤ (s.household hh).ptLen := by
  unfold State.unmapped at h
  exact of_decide_eq_true (Bool.and_eq_true_iff.1 h).1

end

/-! ## MEM_MAP (R352) -/

section
variable {s : State} {k hint : Nat} {c : Command} (hruns : s.commandRuns k 0x0106 c) (hopen : s.isOpen (s.cmdHousehold k c) = true)
  (hf : c.arg 3 < 2 ^ 12)
  (hfree : s.unmapped (s.cmdHousehold k c) (c.arg 1) (c.arg 2) = true) (hprot : bitAt (c.arg 3) 1 = false)
include hruns hopen hf hfree hprot

/-- Pages that are there are mapped, where they lie in no reserved region. -/
theorem memMap_mapsPages (hdie : bitAt (c.arg 3) 8 = true → bitsOf (c.arg 3) 9 3 < s.dieCount) (hfits : s.tableFits (s.cmdHousehold k c))
    (hwf : s.mem.wf = true) {ps : List Nat} (hpages : s.pagesFor (c.arg 3) (c.arg 2) hint = some ps) (hlen : ps.length = c.arg 2)
    (hoff : ∀ r ∈ s.runsFor (c.arg 3) ps, ∀ o < 0x10000, s.offRegions (r + o)) :
    ∃ t, s.replies (.memMap k hint) k c 0 (BitVec.ofNat 64 (c.arg 2)) t ∧ s.MapsPages (s.cmdHousehold k c) (c.arg 1) (c.arg 3) ps t :=
  ⟨_, memMap_maps hruns hopen (State.not_mapRefused hf hfree hprot hdie) hprot hpages,
    State.mapsPages hwf hfits (hlen ▸ State.unmapped_range hfree) hoff⟩

/-- MEM_MAP of pages of the interleaved view. -/
theorem memMap_view (hview : bitAt (c.arg 3) 8 = false) (hfits : s.tableFits (s.cmdHousehold k c)) (hwf : s.mem.wf = true) {ps : List Nat}
    (hpages : s.allocView s.pagesInUse (c.arg 2) hint = some ps) :
    ∃ t, s.replies (.memMap k hint) k c 0 (BitVec.ofNat 64 (c.arg 2)) t ∧ s.MapsPages (s.cmdHousehold k c) (c.arg 1) (c.arg 3) ps t := by
  obtain ⟨hlen, -, -, hbelow⟩ := State.allocView_pages hpages
  refine memMap_mapsPages hruns hopen hf hfree hprot (fun hlocal => absurd (hview.symm.trans hlocal) (by decide)) hfits hwf ?_ hlen fun r hr o ho => ?_
  · unfold State.pagesFor
    rw [hview]
    exact hpages
  · obtain ⟨p, hp, i, hi, rfl⟩ := (State.mem_runsFor_view hview).1 hr
    exact State.offRegions_view (hbelow p hp) hi ho

/-- MEM_MAP of pages of a die. -/
theorem memMap_die (hlocal : bitAt (c.arg 3) 8 = true) (hdie : bitsOf (c.arg 3) 9 3 < s.dieCount) (hfits : s.tableFits (s.cmdHousehold k c))
    (hwf : s.mem.wf = true) {ps : List Nat} (hpages : s.allocDie s.pagesInUse (bitsOf (c.arg 3) 9 3) (c.arg 2) hint = some ps) :
    ∃ t, s.replies (.memMap k hint) k c 0 (BitVec.ofNat 64 (c.arg 2)) t ∧ s.MapsPages (s.cmdHousehold k c) (c.arg 1) (c.arg 3) ps t := by
  obtain ⟨hlen, -, -, hbelow⟩ := State.allocDie_pages hpages
  refine memMap_mapsPages hruns hopen hf hfree hprot (fun _ => hdie) hfits hwf ?_ hlen fun r hr o ho => ?_
  · unfold State.pagesFor
    rw [hlocal]
    exact hpages
  · obtain ⟨p, hp, i, hi, rfl⟩ := (State.mem_runsFor_die hlocal).1 hr
    exact State.offRegions_die (hbelow p hp) hi ho

end

/-! ## MEM_UNMAP (R352, R353) -/

section
variable {s : State} {k : Nat} {c : Command}

/-- PAGE of each page that a tensor holds. -/
def State.weightPages (s : State) : List Nat := s.tensors.cells.flatMap fun t => (t.2.pages ++ t.2.mirrorPages).map viewPage

theorem State.mem_weightPages {p : Nat} : p ∈ s.weightPages ↔ ∃ x ∈ s.tensors.cells, ∃ q ∈ x.2.pages ++ x.2.mirrorPages, p = viewPage q := by
  unfold State.weightPages
  simp only [List.mem_flatMap, List.mem_map, eq_comm]

/-- The pages that MEM_UNMAP unmaps: those of the range with a valid entry that names a page of no tensor. -/
def State.pagesLeaving (s : State) (hh first n : Nat) : List Nat :=
  ((s.ptesOf hh).filter fun e => decide (first ≤ e.1) && decide (e.1 < first + n) && !s.weightPages.contains (ptePage e.2)).map Prod.fst

theorem State.mem_pagesLeaving (hwf : s.mem.wf = true) {hh first n i : Nat} (hrange : first + n ≤ (s.household hh).ptLen) :
    i ∈ s.pagesLeaving hh first n ↔ first ≤ i ∧ i < first + n ∧ pteValid (s.pte hh i) = true ∧
      ∀ x ∈ s.tensors.cells, ∀ q ∈ x.2.pages ++ x.2.mirrorPages, ptePage (s.pte hh i) ≠ viewPage q := by
  have hweights : (∀ x ∈ s.tensors.cells, ∀ q ∈ x.2.pages ++ x.2.mirrorPages, ptePage (s.pte hh i) ≠ viewPage q) ↔
      ptePage (s.pte hh i) ∉ s.weightPages := by
    rw [State.mem_weightPages]
    push Not
    rfl
  unfold State.pagesLeaving
  simp only [hweights, List.mem_map, List.mem_filter, State.mem_ptesOf hwf, Bool.and_eq_true, decide_eq_true_iff, Bool.not_eq_true',
    List.contains_eq_mem, decide_eq_false_iff_not]
  constructor
  · rintro ⟨e, ⟨⟨-, hentry, hvalid⟩, ⟨hlow, hhigh⟩, hfree⟩, rfl⟩
    rw [← hentry]
    exact ⟨hlow, hhigh, hvalid, hfree⟩
  · rintro ⟨hlow, hhigh, hvalid, hfree⟩
    exact ⟨(i, s.pte hh i), ⟨⟨by dsimp only; omega, rfl, hvalid⟩, ⟨hlow, hhigh⟩, hfree⟩, rfl⟩

/-- No page leaves twice. -/
theorem State.nodup_pagesLeaving (s : State) (hh first n : Nat) : (s.pagesLeaving hh first n).Nodup :=
  (List.filter_sublist.map Prod.fst).nodup (s.nodup_ptesOf hh)

/-- A list without repetition of the numbers below a bound that pass a test is as long as the range filtered by it. -/
theorem length_eq_filter_range {l : List Nat} {bound : Nat} {p : Nat → Bool} (hnodup : l.Nodup) (hmem : ∀ i, i ∈ l ↔ i < bound ∧ p i = true) :
    l.length = ((List.range bound).filter p).length :=
  ((List.perm_ext_iff_of_nodup hnodup (List.nodup_range.filter p)).2 fun i => by
    rw [hmem, List.mem_filter, List.mem_range]).length_eq

/-- An address off some entries is off those among them. -/
theorem State.offTables.sub {hh first n i m a : Nat} (h : s.offTables hh first n a) (hfirst : first ≤ i) (hlast : i + m ≤ first + n) :
    s.offTables hh i m a := by
  intro d hd
  have htable := h d hd
  rw [s.pteAddr_eq d hh first] at htable
  rw [s.pteAddr_eq d hh i]
  omega

variable (hruns : s.commandRuns k 0x0107 c) (hopen : s.isOpen (s.cmdHousehold k c) = true)
include hruns hopen

theorem memUnmap_refuses (hlong : (s.household (s.cmdHousehold k c)).ptLen < c.arg 1 + c.arg 2) : s.replies (.memUnmap k) k c 2 0 s := by
  refine State.replies_of_command (r := refuse s stArg) rfl hruns ?_
  rw [State.forHousehold, if_pos hopen]
  exact if_pos hlong

theorem memUnmap_clears (hrange : c.arg 1 + c.arg 2 ≤ (s.household (s.cmdHousehold k c)).ptLen) :
    s.replies (.memUnmap k) k c 0 (BitVec.ofNat 64 (s.pagesLeaving (s.cmdHousehold k c) (c.arg 1) (c.arg 2)).length)
      (s.unmapPages (s.cmdHousehold k c) (s.pagesLeaving (s.cmdHousehold k c) (c.arg 1) (c.arg 2))) := by
  refine State.replies_of_command (r := done _ _) rfl hruns ?_
  rw [State.forHousehold, if_pos hopen]
  exact if_neg (Nat.not_lt.2 hrange)

end

/-- Settles O46: scanning for free pages finds different ones that lie outside every reserved region, where the runs are zero-filled and each die's
copy of the table takes the entries; MEM_UNMAP clears the valid entries of the range that name no weight page. -/
theorem pagesAreZeroedMappedAndFreed : Obligations.PagesAreZeroedMappedAndFreed := by
  rintro s k hint h first n f c rfl hopen rfl rfl hfits
  refine ⟨?_, fun hruns => ⟨memUnmap_refuses hruns hopen, ?_⟩⟩
  · rintro hruns rfl
    refine ⟨fun hbad => memMap_refuses hruns hopen (State.mapRefused_of hbad), fun hf hfree hprot hwf => ⟨fun hview => ?_, ?_⟩⟩
    · refine ⟨fun hnone => memMap_short hruns hopen (State.not_mapRefused hf hfree hprot (by simp [hview])) (by simp [State.pagesFor, hview, hnone]),
        fun ps hpages => ?_⟩
      obtain ⟨hlen, hnodup, hpagesFree, -⟩ := State.allocView_pages hpages
      obtain ⟨t, hreplies, hmaps⟩ := memMap_view hruns hopen hf hfree hprot hview hfits hwf hpages
      exact ⟨hlen, hnodup, hpagesFree, t, hreplies, hmaps.frame, hlen ▸ hmaps.cache, fun i _ hi => hmaps.pte_view hview hi,
        fun p hp i hi o ho => hmaps.zero_view hview hp hi ho, fun a ha htable => hmaps.read_view hview ha (hlen ▸ htable)⟩
    · rintro d hlocal rfl hdie
      refine ⟨fun hnone => memMap_short hruns hopen (State.not_mapRefused hf hfree hprot fun _ => hdie) (by simp [State.pagesFor, hlocal, hnone]),
        fun ps hpages => ?_⟩
      obtain ⟨hlen, hnodup, hpagesFree, -⟩ := State.allocDie_pages hpages
      obtain ⟨t, hreplies, hmaps⟩ := memMap_die hruns hopen hf hfree hprot hlocal hdie hfits hwf hpages
      exact ⟨hlen, hnodup, hpagesFree, t, hreplies, hmaps.frame, hlen ▸ hmaps.cache, fun i _ hi => hmaps.pte_die hlocal hi,
        fun p hp o ho => hmaps.zero_die hlocal hp ho, fun a ha htable => hmaps.read_die hlocal ha (hlen ▸ htable)⟩
  · intro gone hrange hwf hgone
    have hleaving (i : Nat) : i ∈ s.pagesLeaving (s.cmdHousehold k c) (c.arg 1) (c.arg 2) ↔ gone i = true :=
      (State.mem_pagesLeaving hwf hrange).trans (hgone i).symm
    have hin (i : Nat) (hi : gone i = true) : c.arg 1 ≤ i ∧ i < c.arg 1 + c.arg 2 := ((hgone i).1 hi).imp_right And.left
    have hlen := length_eq_filter_range (bound := c.arg 1 + c.arg 2) (s.nodup_pagesLeaving (s.cmdHousehold k c) (c.arg 1) (c.arg 2))
      fun i => (hleaving i).trans ⟨fun hi => ⟨(hin i hi).2, hi⟩, And.right⟩
    have hreplies := hlen ▸ memUnmap_clears hruns hopen hrange
    generalize s.pagesLeaving (s.cmdHousehold k c) (c.arg 1) (c.arg 2) = l at hleaving hreplies
    have hcleared := State.enters_unmapPages (s := s) fun i hi => (hin i ((hleaving i).1 hi)).2.trans_le hrange
    refine ⟨_, hreplies, hcleared.frame, fun i hi => ?_, fun a ha => hcleared.read hwf a fun i hi => ?_, fun d e => ?_⟩
    · rw [hcleared.pte hwf hfits i hi]
      unfold entriesCleared
      simp only [hleaving]
      split <;> rfl
    · have hpage := hin i ((hleaving i).1 (isSome_entriesCleared.1 hi))
      exact ha.sub hpage.1 (Nat.succ_le_of_lt hpage.2)
    · rw [hcleared.cache, isSome_entriesCleared, hleaving]

end Sys2Proof.Machine
end

