-- ==== Sys2Proof/Proofs/FaultySectors.lean ====
section
/-! A sector number past the end of a site (R192, R194, R207): it names a block at a controller of the next die. -/

namespace Sys2Proof.Machine

/-- Controller 0 of die 0. -/
def firstCtl : CtlRef := ⟨0, 0⟩

/-- The first sector number past the 128 GiB of a site. -/
def sectorPast : Nat := 2 ^ 28

/-- A read of it that finds more wrong bytes in a codeword than can be corrected. -/
def readPast : Instr := .lpddrRead firstCtl sectorPast [5, 0, 0, 0] ⟨0, 0⟩ 0

/-- The command is one of the table. -/
theorem readPast_wf : readPast.wf = true := by decide +kernel

/-- At reset its address is the first byte of the LPDDR of die 1, which is sound as far as the statement asks. -/
theorem readPast_address : siteAddr firstCtl (512 * sectorPast) = lpddrBase 1 ∧ State.reset.isData (lpddrBase 1) = true ∧
    State.reset.blkPoison.contains (lpddrBase 1 / 2048) = false ∧ State.reset.listSound (lpddrBase 1) := by
  unfold State.listSound
  decide +kernel

/-- The blocks that controllers of dies 0 and 1 have counted as poisoned after a command. -/
def poisonedCounts (c : Instr) (s : State) : Option (BitVec 16 × BitVec 16) :=
  match exec c s with
  | .next t => some ((t.ctl firstCtl).poisoned, (t.ctl ⟨1, 0⟩).poisoned)
  | _ => none

theorem poisonedCounts_next {c : Instr} {s t : State} (h : exec c s = .next t) :
    poisonedCounts c s = some ((t.ctl firstCtl).poisoned, (t.ctl ⟨1, 0⟩).poisoned) := by
  rw [poisonedCounts, h]

/-- The block is counted by controller 0 of die 1. -/
theorem readPast_counted : poisonedCounts readPast State.reset = some (0, 1) := by decide +kernel

/-- Refutes O35: no hypothesis of the statement keeps a sector number below the end of its site, and a sector past it lies at the next die, whose controller
counts the block that is poisoned in place of the one that the command names (`readPast_counted`). -/
theorem not_lpddrControllersReadWriteCorrectAndPoison : ¬ Obligations.LpddrControllersReadWriteCorrectAndPoison := by
  unfold Obligations.LpddrControllersReadWriteCorrectAndPoison
  rintro ⟨hcontroller, -⟩
  obtain ⟨hread, -⟩ := hcontroller State.reset firstCtl rfl (by decide +kernel)
  obtain ⟨haddr, hdata, hsound, hlist⟩ := readPast_address
  obtain ⟨-, -, huncorrectable⟩ := hread sectorPast 0 ⟨0, 0⟩ [5, 0, 0, 0] (lpddrBase 1) haddr.symm hdata hsound rfl rfl
  obtain ⟨t, hexec, -, -, hctl, -, -⟩ := huncorrectable ⟨5, List.mem_cons_self, by decide⟩ hlist
  have hcounts := (poisonedCounts_next hexec).symm.trans readPast_counted
  rw [hctl] at hcounts
  have hcount : satAdd (State.reset.ctl firstCtl).poisoned 1 = 0 := congrArg Prod.fst (Option.some.inj hcounts)
  exact absurd hcount (by decide +kernel)

end Sys2Proof.Machine
end

