-- ==== Sys2Proof/Proofs/FerryWrites.lean ====
section
/-! A WRITE packet that carries poison (R209, R218, R309): the block that it marks is counted by its controller. -/

namespace Sys2Proof.Machine

/-- A WRITE of two bytes, with POISON, to address 0 of household 1. -/
def poisonedWrite : Packet :=
  { cls := clsReq, vl := false, op := 0, dst := 0, dstDie := 0, src := 5, srcDie := 0, household := 1, tag := 9, addr := 0, len := 1, pseq := 0
    poison := true, status := 0, payload := [1, 2] }

/-- Where page 4 of die 0's LPDDR lies. -/
def poisonedPage : Nat := lpddrBase 0 + 4 * pageBytes

/-- That WRITE waits at die 0 of a package whose household 1 is open and has page 4 of die 0, writable, as its page 0: the entry stands at the
start of the reserved region (Table 7.5, R198). -/
def poisonWaits : State :=
  { State.reset with
    mem := Memory.writeBytes [] (State.reset.reservedAddr 0 0) (toBytes 8 (3 + 4 * 2 ^ 21))
    households := ⟨[(1, { isOpen := true, ptLen := 1 })]⟩
    dies := ⟨[(0, { inbox := [poisonedWrite] })]⟩ }

theorem poisonWaits_ready : poisonWaits.packetWaits 0 clsReq 0 poisonedWrite ∧ poisonWaits.hostsPacket poisonedWrite = true ∧
    poisonWaits.mem.wf = true := by
  unfold State.packetWaits
  decide +kernel

/-- The packet acts for no job, and the package has no adapters, so that it misuses no KV. -/
theorem poisonWaits_kvRespected (ea n : Nat) : poisonWaits.kvRespected poisonedWrite.actor true ea n := by
  refine ⟨fun k j hk => ?_, fun h => ?_, fun _ c hc => ?_⟩
  · cases hk
  · cases h
  · have hnone : poisonWaits.adapters.cells = [] := rfl
    rw [hnone] at hc
    cases hc

/-- The page is clear. -/
theorem poisonWaits_clear :
    poisonWaits.clearPage poisonedWrite.actor true (poisonWaits.ownEa poisonedWrite.addr.toNat) poisonedWrite.payload.length poisonedPage := by
  refine ⟨?_, ?_, ?_, ?_, fun h => ?_, poisonWaits_kvRespected ..⟩
  · decide +kernel
  · decide +kernel
  · decide +kernel
  · decide +kernel
  · cases h

/-- The blocks that a controller has counted as poisoned after a command. -/
def poisonedAfter (c : Instr) (s : State) (k : CtlRef) : Option (BitVec 16) :=
  match exec c s with
  | .next t => some (t.ctl k).poisoned
  | _ => none

theorem poisonedAfter_next {c : Instr} {s t : State} (h : exec c s = .next t) (k : CtlRef) : poisonedAfter c s k = some (t.ctl k).poisoned := by
  rw [poisonedAfter, h]

/-- The controller of the page counts the block that the WRITE marks. -/
theorem poisonWaits_counted : poisonedAfter (.write 0) poisonWaits (lpddrCtl poisonedPage) = some 1 := by decide +kernel

/-- Refutes O37: a WRITE that carries POISON marks the block that it writes (R209), which the controller of the block counts (Table 7.11), where the
statement leaves every controller as it is. -/
theorem not_ferryRequestsReadWriteAndReduce : ¬ Obligations.FerryRequestsReadWriteAndReduce := by
  unfold Obligations.FerryRequestsReadWriteAndReduce
  intro h
  obtain ⟨hwaits, hhosts, hwf⟩ := poisonWaits_ready
  obtain ⟨u, hexec, -, -, hframe⟩ := (h poisonWaits 0 poisonedWrite poisonedPage).1 hwaits hhosts hwf poisonWaits_clear
  have hsent : (u.answerPacket 0 poisonedWrite 4 rspOk [] false).controllers = u.controllers :=
    (congrArg State.controllers (u.sends_postPacket _) :)
  have hkept : u.controllers = poisonWaits.controllers := (congrArg State.controllers hframe :)
  have hcounted := (poisonedAfter_next hexec (lpddrCtl poisonedPage)).symm.trans poisonWaits_counted
  unfold State.ctl at hcounted
  rw [hsent, hkept] at hcounted
  exact absurd hcounted (by decide +kernel)

end Sys2Proof.Machine
end

