-- ==== Sys2Proof/Proofs/ResetValues.lean ====
section
/-! The state at reset (R213, R257, R337, R338). -/

namespace Sys2Proof.Machine

theorem State.postbox_reset (k : Nat) : State.reset.postbox k = {} := rfl

/-- There are no VFs at reset. -/
theorem State.vfBox_reset (k : Nat) : State.reset.vfBox k = false := by
  simp [State.vfBox, State.reset]
  omega

/-- Every register of a cold postbox reads 0 (R338). -/
theorem State.boxReg_reset (k off : Nat) : State.reset.boxReg k off = 0 := by
  unfold State.boxReg
  rw [State.postbox_reset, State.vfBox_reset]
  dsimp only
  split <;> rfl

/-- Settles O60: the postboxes by `State.postbox_reset` and `State.boxReg_reset`; the rest are values of fields of `State.reset`. -/
theorem resetStateIsColdAndCanonical : Obligations.ResetStateIsColdAndCanonical :=
  ⟨⟨rfl, rfl⟩, rfl, rfl, rfl, rfl, rfl, rfl, rfl, rfl, fun k => ⟨State.postbox_reset k, State.boxReg_reset k⟩,
    rfl, rfl, rfl, rfl, rfl, rfl, rfl, rfl, rfl, rfl⟩

end Sys2Proof.Machine
end

