-- ==== Sys2Proof/Proofs/HouseholdCommands.lean ====
section
/-! HH_OPEN, HH_CLOSE, HH_QUOTA and BAR2_SET (R198, R298, R335, R351). -/

namespace Sys2Proof.Machine

/-! ## Zero-filled copies of a table -/

theorem Memory.read_zero {m : Memory} (hwf : m.wf = true) (a n k : Nat) :
    (m.zero a n).read k = if a ≤ k ∧ k < a + n then 0 else m.read k := by
  split
  next hin => exact Memory.read_zero_in m hin
  next hout => exact Memory.read_zero_out hwf (by omega)

/-- `n` bytes zeroed at the place of every copy. -/
def Memory.zeroCopies (m : Memory) (addr : Nat → Nat) (n : Nat) (l : List Nat) : Memory := l.foldl (fun m d => m.zero (addr d) n) m

section
variable {m : Memory} {addr : Nat → Nat} {n k : Nat} {l : List Nat}

theorem Memory.read_zeroCopies_out (hwf : m.wf = true) (hout : ∀ d ∈ l, k < addr d ∨ addr d + n ≤ k) :
    (m.zeroCopies addr n l).read k = m.read k := by
  have hboth := List.foldlRecOn (motive := fun x : Memory => x.wf = true ∧ x.read k = m.read k) l (fun m d => m.zero (addr d) n) ⟨hwf, rfl⟩
    fun x hx d hd => ⟨Memory.wf_zero _ _ hx.1, (Memory.read_zero_out hx.1 (hout d hd)).trans hx.2⟩
  exact hboth.2

theorem Memory.read_zeroCopies_in (hwf : m.wf = true) {d : Nat} (hd : d ∈ l) (hin : addr d ≤ k ∧ k < addr d + n) :
    (m.zeroCopies addr n l).read k = 0 := by
  refine foldl_reaches (I := fun x : Memory => x.wf = true) (P := fun x : Memory => x.read k = 0) hd hwf (fun x hx e _ => Memory.wf_zero _ _ hx)
    (fun x _ => Memory.read_zero_in x hin) fun x hx hzero e _ => ?_
  rw [Memory.read_zero hx, hzero, ite_self]

theorem Memory.wf_zeroCopies (hwf : m.wf = true) : (m.zeroCopies addr n l).wf = true :=
  List.foldlRecOn (motive := fun x : Memory => x.wf = true) l _ hwf fun _ hx _ _ => Memory.wf_zero _ _ hx

end

/-! ## HH_OPEN (R351) -/

section
variable {s : State} {k : Nat} {c : Command}

theorem State.dieCount_range (s : State) : 0 < s.dieCount ∧ s.dieCount ≤ 8 := by
  unfold State.dieCount
  split <;> decide

theorem State.topPages_le (s : State) (d : Nat) : s.topPages d ≤ 370085 := by
  have hpages : dataPages s.part.density ≤ 370085 := by
    cases s.part.density <;> decide
  unfold State.topPages
  split <;> omega

/-- A table of an entry for each data page has room in the place of a page table (log entry 102). -/
theorem State.allPages_fit (s : State) : 8 * s.allPages ≤ tableBytes := by
  have hsum : s.allPages ≤ ((List.range s.dieCount).map s.topPages).length • 370085 := by
    unfold State.allPages
    rw [← List.sum_eq_foldl]
    refine List.sum_le_card_nsmul _ _ fun x hx => ?_
    obtain ⟨d, -, rfl⟩ := List.mem_map.1 hx
    exact s.topPages_le d
  have hdies := s.dieCount_range.2
  rw [List.length_map, List.length_range, smul_eq_mul] at hsum
  unfold tableBytes
  omega

/-- An empty table is zeros in the place of every copy (R193, R198). -/
theorem State.emptyTable_eq (s : State) (hh : Nat) : ∃ q, s.emptyTable hh =
    { s with mem := s.mem.zeroCopies (fun d => s.pteAddr d hh 0) tableBytes (List.range s.dieCount), blkPoison := q } := by
  unfold State.emptyTable Memory.zeroCopies
  generalize List.range s.dieCount = l
  suffices hfold : ∀ (m : Memory) (p : List Nat), ∃ q, l.foldl (fun t d =>
      { t with mem := t.mem.zero (t.pteAddr d hh 0) tableBytes,
               blkPoison := setErase t.blkPoison (t.pteAddr d hh 0 / 2048) (tableBytes / 2048) }) { s with mem := m, blkPoison := p } =
      { s with mem := l.foldl (fun m d => m.zero (s.pteAddr d hh 0) tableBytes) m, blkPoison := q } from hfold s.mem s.blkPoison
  induction l with
  | nil => exact fun m p => ⟨p, rfl⟩
  | cons d l ih => exact fun m p => ih _ _

/-- A page whose entry's bytes are zeros. -/
theorem State.pte_zero {hh page : Nat} (hwf : s.mem.wf = true) (h : ∀ i < 8, s.mem.read (s.pteAddr 0 hh page + i) = 0) :
    s.pte hh page = 0 := by
  rw [State.pte_eq hwf, List.map_congr_left (g := fun _ => 0) fun i hi => h i (List.mem_range.1 hi)]
  rfl

/-- The household that HH_OPEN makes. -/
def openedHousehold (h v : Nat) (c : Command) : Household :=
  { isOpen := true, vf := v, ptBase := tableBytes * h, ptLen := c.arg 1, entryQuota := c.arg 2, tokenQuota := c.arg 3 }

/-- The household and the VF of A0. -/
theorem openArg_split {a h v : Nat} (ha : a = h + 256 * v) (hh : h < 64) (hv : v < 16) : a % 64 = h ∧ a / 256 % 16 = v := by omega

section
variable {h v : Nat} (hruns : s.commandRuns k 0x0101 c) (harg : c.arg 0 = h + 256 * v) (hpos : 0 < h) (hh : h < 64) (hv : v < 16)
include hruns harg hpos hh hv

theorem hhOpen_opens (hlen : 0 < c.arg 1) (hfits : c.arg 1 ≤ s.allPages) (hclosed : s.isOpen h = false) (hvf : v = 0 ∨ s.vfHousehold v = 0) :
    s.replies (.hhOpen k) k c 0 0 (State.emptyTable { s with households := s.households.set h (openedHousehold h v c) } h) := by
  obtain ⟨hlow, hhigh⟩ := openArg_split harg hh hv
  refine State.replies_of_command (r := done _ 0) rfl hruns ?_
  dsimp only
  rw [hlow, hhigh, if_neg (by omega), if_neg (by rw [hclosed]; tauto)]
  rfl

theorem hhOpen_refuses (hlen : c.arg 1 = 0 ∨ s.allPages < c.arg 1) : s.replies (.hhOpen k) k c 2 0 s := by
  obtain ⟨hlow, hhigh⟩ := openArg_split harg hh hv
  refine State.replies_of_command (r := refuse s stArg) rfl hruns ?_
  dsimp only
  rw [hlow, hhigh, if_pos (by omega)]

theorem hhOpen_taken (hlen : 0 < c.arg 1) (hfits : c.arg 1 ≤ s.allPages) (htaken : s.isOpen h = true ∨ (v ≠ 0 ∧ s.vfHousehold v ≠ 0)) :
    s.replies (.hhOpen k) k c 5 0 s := by
  obtain ⟨hlow, hhigh⟩ := openArg_split harg hh hv
  refine State.replies_of_command (r := refuse s stState) rfl hruns ?_
  dsimp only
  rw [hlow, hhigh, if_neg (by omega), if_pos htaken]

end

/-- What HH_OPEN leaves: the household with an empty table in each die. -/
theorem State.opened_effect {h v : Nat} {t : State} (hwf : s.mem.wf = true) (hfits : c.arg 1 ≤ s.allPages)
    (ht : t = State.emptyTable { s with households := s.households.set h (openedHousehold h v c) } h) :
    t = { s with households := s.households.set h (openedHousehold h v c), mem := t.mem, blkPoison := t.blkPoison } ∧
      (∀ i, i < c.arg 1 → t.pte h i = 0) ∧
      ∀ a, (∀ d, d < s.dieCount → a < t.pteAddr d h 0 ∨ t.pteAddr d h 0 + tableBytes ≤ a) → t.mem.read a = s.mem.read a := by
  obtain ⟨q, hq⟩ := State.emptyTable_eq { s with households := s.households.set h (openedHousehold h v c) } h
  have hroom := s.allPages_fit
  subst ht
  rw [hq]
  refine ⟨rfl, fun i hi => State.pte_zero (Memory.wf_zeroCopies hwf) fun j hj => ?_, fun a ha => ?_⟩
  · refine Memory.read_zeroCopies_in hwf (d := 0) (List.mem_range.2 s.dieCount_range.1) ?_
    have hentry := State.pteAddr_eq { s with households := s.households.set h (openedHousehold h v c) } 0 h i
    change _ ≤ State.pteAddr { s with households := s.households.set h (openedHousehold h v c) } 0 h i + j ∧
      State.pteAddr { s with households := s.households.set h (openedHousehold h v c) } 0 h i + j < _
    omega
  · exact Memory.read_zeroCopies_out hwf fun d hd => ha d (List.mem_range.1 hd)

end

/-! ## HH_CLOSE (R351) -/

section
variable {s : State} {k hh : Nat} {c : Command}

/-- What a household keeps to itself goes with it: besides what is named only its copies of the page table, its entries in the translation
caches and what its engines wait for change. -/
theorem State.dropHousehold_frame (s : State) (hh : Nat) : s.dropHousehold hh =
    { s with
      dies := (s.cleared hh).dies, mem := (s.cleared hh).mem, parishes := (s.dropHousehold hh).parishes
      pressPend := s.pressPend.filter fun w => w.owner != hh
      households := s.households.del hh
      tensors := s.tensors.mapV fun _ x => { x with maps := x.maps.filter fun m => m.1 != hh }
      keySlots := s.keySlots.keep fun _ x => x.owner != hh
      pressSlots := s.pressSlots.keep fun _ x => x.owner != hh
      bar2Household := if s.bar2Household = hh then 0 else s.bar2Household } := by
  have hframe := (s.unmaps_cleared hh).frame
  unfold State.dropHousehold
  rw [State.forgetHousehold_eq]
  generalize s.cleared hh = z at hframe ⊢
  obtain ⟨m, d, rfl⟩ : ∃ m d, z = { s with mem := m, dies := d } := ⟨_, _, hframe⟩
  rfl

theorem length_pteBytes_zero : (pteBytes [0]).length = 8 := length_pteBytes [0]

/-- A cleared entry leaves each byte as it was, or 0. -/
theorem Memory.read_writeEntry_zero {m : Memory} (hwf : m.wf = true) (b a : Nat) :
    (m.writeBytes b (pteBytes [0])).read a = m.read a ∨ (m.writeBytes b (pteBytes [0])).read a = 0 := by
  have hzeros : pteBytes [0] = List.replicate 8 0 := by decide
  by_cases hin : b ≤ a ∧ a < b + 8
  · right
    obtain ⟨j, rfl⟩ := Nat.exists_eq_add_of_le hin.1
    rw [Memory.read_writeBytes_in _ _ _ _ (by rw [length_pteBytes_zero]; omega)]
    simp only [hzeros, List.getElem_replicate]
  · exact .inl (Memory.read_writeBytes_out hwf _ _ _ (by rw [length_pteBytes_zero]; omega))

theorem State.mapPages_mem (s : State) (hh i : Nat) (l : List Word64) : (s.mapPages hh i l).mem =
    (List.range s.dieCount).foldl (fun m d => m.writeBytes (s.pteAddr d hh i) (pteBytes l)) s.mem := rfl

theorem State.read_mapPages_zero (hwf : s.mem.wf = true) (i a : Nat) :
    (s.mapPages hh i [0]).mem.read a = s.mem.read a ∨ (s.mapPages hh i [0]).mem.read a = 0 := by
  rw [State.mapPages_mem]
  refine (List.foldlRecOn (motive := fun m : Memory => m.wf = true ∧ (m.read a = s.mem.read a ∨ m.read a = 0)) (List.range s.dieCount)
    (fun m d => m.writeBytes (s.pteAddr d hh i) (pteBytes [0])) ⟨hwf, .inl rfl⟩ fun m hm d _ => ⟨Memory.wf_writeBytes _ _ hm.1, ?_⟩).2
  rcases Memory.read_writeEntry_zero hm.1 (s.pteAddr d hh i) a with hkept | hzero
  · rw [hkept]
    exact hm.2
  · exact .inr hzero

/-- The first byte of a cleared entry is 0, whatever else the copies cover. -/
theorem State.read_mapPages_entry (hwf : s.mem.wf = true) (i : Nat) : (s.mapPages hh i [0]).mem.read (s.pteAddr 0 hh i) = 0 := by
  rw [State.mapPages_mem]
  refine foldl_reaches (I := fun m : Memory => m.wf = true) (P := fun m : Memory => m.read (s.pteAddr 0 hh i) = 0)
    (List.mem_range.2 s.dieCount_range.1) hwf (fun m hm d _ => Memory.wf_writeBytes _ _ hm) (fun m hm => ?_) fun m hm hzero d _ => ?_
  · exact Memory.read_writeBytes_in m (s.pteAddr 0 hh i) (pteBytes [0]) 0 (by decide)
  · rcases Memory.read_writeEntry_zero hm (s.pteAddr d hh i) (s.pteAddr 0 hh i) with hkept | hzero'
    · rw [hkept, hzero]
    · exact hzero'

/-- The first byte of an entry says whether it is valid (Table 7.5). -/
theorem pteValid_readBytes {m : Memory} (hwf : m.wf = true) (a : Nat) :
    pteValid (BitVec.ofNat 64 (ofBytes (m.readBytes a 8))) = (m.read a).getLsbD 0 := by
  have hfirst : ofBytes (m.readBytes a 8) % 2 = (m.read a).toNat % 2 := by
    rw [Memory.readBytes_eq hwf, List.range_succ_eq_map, List.map_cons, Nat.add_zero, ofBytes]
    omega
  rw [pteValid, BitVec.getLsbD_ofNat, BitVec.getLsbD, Nat.testBit_zero, Nat.testBit_zero, hfirst]
  rfl

/-- No page of a household is mapped once its pages are cleared. -/
theorem State.cleared_invalid (hwf : s.mem.wf = true) {i : Nat} (hi : i < (s.household hh).ptLen) :
    pteValid (BitVec.ofNat 64 (ofBytes ((s.cleared hh).mem.readBytes (s.pteAddr 0 hh i) 8))) = false := by
  have hforget : s.Unmaps hh (s.forget hh 0 (s.household hh).ptLen) := State.unmaps_forget hh 0 _
  have hstep (t : State) (ht : s.Unmaps hh t) (j : Nat) (hj : j ∈ (s.ptesOf hh).map Prod.fst) : s.Unmaps hh (t.mapPages hh j [0]) := by
    obtain ⟨e, he, rfl⟩ := List.mem_map.1 hj
    refine ht.trans (State.unmaps_mapPages ?_)
    rw [ht.household]
    exact State.lt_of_mem_ptesOf he
  rw [pteValid_readBytes ((s.unmaps_cleared hh).wf hwf)]
  by_cases hvalid : pteValid (s.pte hh i) = true
  · have hmem : i ∈ (s.ptesOf hh).map Prod.fst := List.mem_map.2 ⟨(i, s.pte hh i), (State.mem_ptesOf hwf).2 ⟨hi, rfl, hvalid⟩, rfl⟩
    have hzero : (s.cleared hh).mem.read (s.pteAddr 0 hh i) = 0 := by
      refine foldl_reaches (I := fun t : State => s.Unmaps hh t) (P := fun t : State => t.mem.read (s.pteAddr 0 hh i) = 0) hmem hforget hstep
        (fun t ht => ?_) fun t ht hzero j _ => ?_
      · rw [← ht.pteAddr]
        exact State.read_mapPages_entry (ht.wf hwf) i
      · rcases State.read_mapPages_zero (ht.wf hwf) j (s.pteAddr 0 hh i) with hkept | hzero'
        · rw [hkept, hzero]
        · exact hzero'
    rw [hzero]
    rfl
  · have hbyte : (s.mem.read (s.pteAddr 0 hh i)).getLsbD 0 = false := by
      rw [← pteValid_readBytes hwf]
      exact Bool.eq_false_of_not_eq_true hvalid
    refine (List.foldlRecOn (motive := fun t : State => s.Unmaps hh t ∧ (t.mem.read (s.pteAddr 0 hh i)).getLsbD 0 = false)
      ((s.ptesOf hh).map Prod.fst) _ ⟨hforget, hbyte⟩ fun t ht j hj => ⟨hstep t ht.1 j hj, ?_⟩).2
    rcases State.read_mapPages_zero (ht.1.wf hwf) j (s.pteAddr 0 hh i) with hkept | hzero
    · rw [hkept]
      exact ht.2
    · rw [hzero]
      rfl

/-- The translation caches keep the entries of other households, and those of pages beyond the table. -/
theorem State.cleared_cache (s : State) (hh d : Nat) (e : Nat × Nat) :
    e ∈ ((s.cleared hh).die d).tcache ↔ e ∈ (s.die d).tcache ∧ ¬(e.1 = hh ∧ e.2 < (s.household hh).ptLen) := by
  have hforget : s.Unmaps hh (s.forget hh 0 (s.household hh).ptLen) := State.unmaps_forget hh 0 _
  have hdie : (s.forget hh 0 (s.household hh).ptLen).die d = { s.die d with
      tcache := (s.die d).tcache.filter fun e => !(e.1 == hh && decide (0 ≤ e.2) && decide (e.2 < 0 + (s.household hh).ptLen)) } :=
    Tab.get_mapV _ _ rfl
  have hmapped (i : Nat) (hi : i ∈ (s.ptesOf hh).map Prod.fst) : i < (s.household hh).ptLen := by
    obtain ⟨x, hx, rfl⟩ := List.mem_map.1 hi
    exact State.lt_of_mem_ptesOf hx
  have henters := State.enters_unmapPages (s := s.forget hh 0 (s.household hh).ptLen) (hh := hh) (l := (s.ptesOf hh).map Prod.fst)
    fun i hi => by
      rw [hforget.household]
      exact hmapped i hi
  have hcache := henters.cache d e
  rw [isSome_entriesCleared, hdie] at hcache
  refine hcache.trans ?_
  simp only [List.mem_filter, Bool.not_eq_true', Bool.and_eq_false_iff, beq_eq_false_iff_ne, decide_eq_false_iff_not]
  have hin := hmapped e.2
  constructor
  · rintro ⟨⟨hmem, hkept⟩, -⟩
    exact ⟨hmem, by omega⟩
  · rintro ⟨hmem, hkept⟩
    exact ⟨⟨hmem, by omega⟩, fun hboth => hkept ⟨hboth.1, hin hboth.2⟩⟩

/-- The serving objects of a household closed. -/
def State.withoutServing (s : State) (hh : Nat) : State :=
  { s with
    sessions := s.sessions.keep fun _ x => x.household != hh
    adapters := s.adapters.keep fun _ x => x.household != hh
    grammars := s.grammars.keep fun _ x => x.household != hh }

/-- The entries and the jobs of a household ended. -/
def State.workEnded (s : State) (hh : Nat) : State :=
  let a := (s.entriesWhere fun x => x.household == hh).foldl (fun t e => t.endEntry e finKilled false) s
  (a.jobsOfHousehold hh).foldl State.killNow a

theorem State.closeHousehold_eq (s : State) (hh : Nat) : s.closeHousehold hh = ((s.workEnded hh).withoutServing hh).dropHousehold hh := rfl

/-- A household without entries and jobs has no work to end. -/
theorem State.workEnded_calm (hentries : s.entriesWhere (fun x => x.household == hh) = []) (hjobs : s.jobsOfHousehold hh = []) :
    s.workEnded hh = s := by
  unfold State.workEnded
  rw [hentries]
  dsimp only [List.foldl_nil]
  rw [hjobs, List.foldl_nil]

theorem hhClose_closes (hruns : s.commandRuns k 0x0102 c) (hopen : s.isOpen (c.arg 0 % 64) = true) :
    s.replies (.hhClose k) k c 0 0 (s.closeHousehold (c.arg 0 % 64)) := by
  refine State.replies_of_command (r := done _ 0) rfl hruns ?_
  exact if_pos hopen

theorem hhClose_refuses (hruns : s.commandRuns k 0x0102 c) (hclosed : s.isOpen (c.arg 0 % 64) = false) : s.replies (.hhClose k) k c 6 0 s := by
  refine State.replies_of_command (r := refuse s stNotFound) rfl hruns ?_
  dsimp only
  rw [hclosed]
  rfl

/-- What the close of a household without entries and jobs leaves. -/
theorem State.closed_effect {t : State} (hwf : s.mem.wf = true) (hentries : s.entriesWhere (fun x => x.household == hh) = [])
    (hjobs : s.jobsOfHousehold hh = []) (ht : t = s.closeHousehold hh) :
    t = { s with
        dies := t.dies, mem := t.mem, parishes := t.parishes, pressPend := s.pressPend.filter fun w => w.owner != hh
        sessions := s.sessions.keep fun _ x => x.household != hh
        adapters := s.adapters.keep fun _ x => x.household != hh
        grammars := s.grammars.keep fun _ x => x.household != hh
        households := s.households.del hh
        tensors := s.tensors.mapV fun _ x => { x with maps := x.maps.filter fun m => m.1 != hh }
        keySlots := s.keySlots.keep fun _ x => x.owner != hh
        pressSlots := s.pressSlots.keep fun _ x => x.owner != hh
        bar2Household := if s.bar2Household = hh then 0 else s.bar2Household } ∧
      (∀ i, i < (s.household hh).ptLen → pteValid (BitVec.ofNat 64 (ofBytes (t.mem.readBytes (s.pteAddr 0 hh i) 8))) = false) ∧
      (∀ a, s.offTables hh 0 (s.household hh).ptLen a → t.mem.read a = s.mem.read a) ∧
      ∀ d e, e ∈ (t.die d).tcache ↔ e ∈ (s.die d).tcache ∧ ¬(e.1 = hh ∧ e.2 < (s.household hh).ptLen) := by
  have hframe := State.dropHousehold_frame (s.withoutServing hh) hh
  rw [State.closeHousehold_eq, State.workEnded_calm hentries hjobs] at ht
  rw [← ht] at hframe
  have hmem : t.mem = ((s.withoutServing hh).cleared hh).mem := (congrArg State.mem hframe :)
  have hdie (d : Nat) : t.die d = ((s.withoutServing hh).cleared hh).die d := by
    rw [hframe]
    rfl
  refine ⟨?_, fun i hi => ?_, fun a ha => ?_, fun d e => ?_⟩
  · generalize State.dies _ = ds at hframe
    generalize State.parishes _ = ps at hframe
    generalize State.mem _ = m at hframe
    subst hframe
    rfl
  · rw [hmem]
    exact State.cleared_invalid (s := s.withoutServing hh) hwf hi
  · rw [hmem]
    exact ((s.withoutServing hh).unmaps_cleared hh).read hwf a ha
  · rw [hdie]
    exact State.cleared_cache (s.withoutServing hh) hh d e

/-- Whatever a household held, what is its own is gone once it is closed. -/
theorem State.closed_owns_nothing {t : State} (ht : t = s.closeHousehold hh) :
    (∀ e ∈ t.sessions.cells, e.2.household ≠ hh) ∧ (∀ e ∈ t.adapters.cells, e.2.household ≠ hh) ∧
      (∀ e ∈ t.grammars.cells, e.2.household ≠ hh) ∧ (∀ e ∈ t.keySlots.cells, e.2.owner ≠ hh) ∧
      (∀ e ∈ t.pressSlots.cells, e.2.owner ≠ hh) ∧ ∀ e ∈ t.tensors.cells, ∀ m ∈ e.2.maps, m.1 ≠ hh := by
  rw [State.closeHousehold_eq, State.dropHousehold_frame] at ht
  rw [ht]
  refine ⟨fun e he => by simpa using Tab.mem_keep he, fun e he => by simpa using Tab.mem_keep he,
    fun e he => by simpa using Tab.mem_keep he, fun e he => by simpa using Tab.mem_keep he, fun e he => by simpa using Tab.mem_keep he,
    fun e he m hm => ?_⟩
  obtain ⟨x, hx, rfl⟩ := List.mem_map.1 he
  simpa using (List.mem_filter.1 hm).2

end

/-! ## HH_QUOTA and BAR2_SET -/

section
variable {s : State} {k : Nat} {c : Command}

theorem hhQuota_sets (hruns : s.commandRuns k 0x0103 c) (hopen : s.isOpen (c.arg 0 % 64) = true) :
    s.replies (.hhQuota k) k c 0 0 (s.modHousehold (c.arg 0 % 64) fun x => { x with entryQuota := c.arg 1, tokenQuota := c.arg 2 }) := by
  refine State.replies_of_command (r := done _ 0) rfl hruns ?_
  exact if_pos hopen

theorem hhQuota_refuses (hruns : s.commandRuns k 0x0103 c) (hclosed : s.isOpen (c.arg 0 % 64) = false) : s.replies (.hhQuota k) k c 6 0 s := by
  refine State.replies_of_command (r := refuse s stNotFound) rfl hruns ?_
  dsimp only
  rw [hclosed]
  rfl

section
variable (hruns : s.commandRuns k 0x0108 c)
include hruns

theorem bar2Set_sets (hhouse : c.arg 0 < 64) (hbase : c.arg 1 < 2 ^ 48) (haligned : c.arg 1 % pageBytes = 0) (hopen : c.arg 0 = 0 ∨ s.isOpen (c.arg 0) = true) :
    s.replies (.bar2Set k) k c 0 0 { s with bar2Household := c.arg 0, bar2Base := c.arg 1 } := by
  refine State.replies_of_command (r := done _ 0) rfl hruns ?_
  refine (if_neg (by omega)).trans (if_neg fun h => ?_)
  rcases hopen with hnone | hopen
  · exact h.1 hnone
  · rw [hopen] at h
    exact absurd h.2 (by decide)

theorem bar2Set_unaligned (hunaligned : c.arg 1 % pageBytes ≠ 0) : s.replies (.bar2Set k) k c 2 0 s :=
  State.replies_of_command (r := refuse s stArg) rfl hruns (if_pos (by omega))

theorem bar2Set_closed (hhouse : c.arg 0 < 64) (hbase : c.arg 1 < 2 ^ 48)
    (haligned : c.arg 1 % pageBytes = 0) (hsome : c.arg 0 ≠ 0) (hclosed : s.isOpen (c.arg 0) = false) :
    s.replies (.bar2Set k) k c 6 0 s :=
  State.replies_of_command (r := refuse s stNotFound) rfl hruns ((if_neg (by omega)).trans (if_pos ⟨hsome, hclosed⟩))

end
end

end Sys2Proof.Machine
end

