-- ==== Sys2Proof/Proofs/HouseholdSlots.lean ====
section
/-! Key slots and Press slots of a household (R227, R230, R231, R352). -/

namespace Sys2Proof.Machine

section
variable {s : State} {k hint : Nat} {c : Command}

theorem State.forHousehold_open {f : Nat → Reply} (hopen : s.isOpen (s.cmdHousehold k c) = true) :
    s.forHousehold k c f = f (s.cmdHousehold k c) := if_pos hopen

theorem State.hostRead_fits {a n : Nat} (h : s.hostFaults a n = false) : s.hostRead a n = some (s.hostMem.readBytes a n) := by
  unfold State.hostRead
  rw [h]
  rfl

theorem State.hostRead_faults {a n : Nat} (h : s.hostFaults a n = true) : s.hostRead a n = none := if_pos h

/-! ## KEY_LOAD and KEY_ERASE (R352) -/

section
variable (hopen : s.isOpen (s.cmdHousehold k c) = true) (hslot : c.arg 1 < 64)
include hopen hslot

theorem keyLoad_loads (hruns : s.commandRuns k 0x0104 c) (hread : s.hostFaults (c.arg 2) 64 = false)
    (howner : ∀ x, s.keySlots.find (c.arg 1) = some x → x.owner = s.cmdHousehold k c) : s.replies (.keyLoad k) k c 0 0
      { s with keySlots := s.keySlots.set (c.arg 1) ⟨s.cmdHousehold k c, s.hostMem.readBytes (c.arg 2) 64⟩ } := by
  refine State.replies_of_command (r := done _ 0) rfl hruns ?_
  rw [State.forHousehold_open hopen]
  dsimp only
  rw [if_neg (by omega), State.hostRead_fits hread]
  refine if_neg ?_
  cases hfound : s.keySlots.find (c.arg 1) with
  | none => simp
  | some x => simp [howner x hfound]

theorem keyLoad_refuses {x : KeySlot} (hruns : s.commandRuns k 0x0104 c) (hread : s.hostFaults (c.arg 2) 64 = false)
    (hfound : s.keySlots.find (c.arg 1) = some x) (howner : x.owner ≠ s.cmdHousehold k c) : s.replies (.keyLoad k) k c 5 0 s := by
  refine State.replies_of_command (r := refuse s stState) rfl hruns ?_
  rw [State.forHousehold_open hopen]
  dsimp only
  rw [if_neg (by omega), State.hostRead_fits hread, hfound]
  exact if_pos (by simpa using howner)

theorem keyLoad_faults (hruns : s.commandRuns k 0x0104 c) (hread : s.hostFaults (c.arg 2) 64 = true) : s.replies (.keyLoad k) k c 11 0 s := by
  refine State.replies_of_command (r := refuse s stIo) rfl hruns ?_
  rw [State.forHousehold_open hopen]
  dsimp only
  rw [if_neg (by omega), State.hostRead_faults hread]

theorem keyErase_erases {x : KeySlot} (hruns : s.commandRuns k 0x0105 c) (hfound : s.keySlots.find (c.arg 1) = some x)
    (howner : x.owner = s.cmdHousehold k c) : s.replies (.keyErase k) k c 0 0 { s with keySlots := s.keySlots.del (c.arg 1) } := by
  refine State.replies_of_command (r := done _ 0) rfl hruns ?_
  rw [State.forHousehold_open hopen]
  dsimp only
  rw [if_neg (by omega), hfound]
  exact if_pos (by simpa using howner)

theorem keyErase_refuses (hruns : s.commandRuns k 0x0105 c) (howner : ∀ x, s.keySlots.find (c.arg 1) = some x → x.owner ≠ s.cmdHousehold k c) :
    s.replies (.keyErase k) k c 6 0 s := by
  refine State.replies_of_command (r := refuse s stNotFound) rfl hruns ?_
  rw [State.forHousehold_open hopen]
  dsimp only
  rw [if_neg (by omega)]
  refine if_neg ?_
  cases hfound : s.keySlots.find (c.arg 1) with
  | none => simp
  | some x => simp [howner x hfound]

end

/-! ## PRESS_SLOT (R230, R231) -/

/-- What is picked is one of the numbers looked at, and satisfies the test. -/
theorem pickFree_some {p : Nat → Bool} {lo n hint i : Nat} (h : pickFree p lo n hint = some i) (hn : 0 < n) : p i = true ∧ lo ≤ i ∧ i < lo + n := by
  unfold pickFree at h
  obtain ⟨j, -, rfl⟩ := List.mem_map.1 (List.mem_of_find?_eq_some h)
  rw [if_neg hn.ne'] at *
  have hlt := Nat.mod_lt (hint + j) hn
  exact ⟨List.find?_some h, by omega⟩

/-- Every number is looked at, whatever the hint. -/
theorem pickFree_none {p : Nat → Bool} {lo n hint i : Nat} (h : pickFree p lo n hint = none) (hlo : lo ≤ i) (hi : i < lo + n) : p i = false := by
  unfold pickFree at h
  have hn : 0 < n := by omega
  rw [if_neg hn.ne', List.find?_eq_none] at h
  have hmem : i ∈ (List.range n).map fun j => lo + (hint + j) % n := by
    refine List.mem_map.2 ⟨(i - lo + (n - hint % n)) % n, List.mem_range.2 (Nat.mod_lt _ hn), ?_⟩
    have hhint := Nat.mod_lt hint hn
    have hsum : (hint + (i - lo + (n - hint % n)) % n) % n = i - lo := by
      have hwhole : hint + (i - lo + (n - hint % n)) = (i - lo) + n * (hint / n + 1) := by
        have := Nat.div_add_mod hint n
        rw [Nat.mul_add]
        omega
      rw [Nat.add_mod_mod, hwhole, Nat.add_mul_mod_self_left, Nat.mod_eq_of_lt (by omega)]
    omega
  exact Bool.eq_false_of_not_eq_true (h i hmem)

/-- What becomes of a Press slot that is claimed. -/
def State.slotClaimed (s : State) (hh i : Nat) : State := { s with pressSlots := s.pressSlots.set i { owner := hh } }

/-- The answer to a claim of one slot, or of none where no slot is free. -/
def State.claimAnswer (s : State) (hh : Nat) : Option Nat → Reply
  | none => refuse s stNoSlot
  | some i =>
    if (s.pressSlots.get {} i).owner = 0 then done (s.slotClaimed hh i) i
    else refuse s (if (s.pressSlots.get {} i).owner = hh then stState else stNoSlot)

/-- The free slot that a claim takes where it leaves the choice. -/
def State.freeSlotFrom (s : State) (hint : Nat) : Option Nat := pickFree (fun i => (s.pressSlots.get {} i).owner == 0) 1 15 hint

theorem State.claimSlot_named {hh n : Nat} (hn : n ≠ 0) : s.claimSlot hh n hint = s.claimAnswer hh (some n) := by
  unfold State.claimSlot
  simp only [if_neg hn]
  rfl

theorem State.claimSlot_any (s : State) (hh hint : Nat) : s.claimSlot hh 0 hint = s.claimAnswer hh (s.freeSlotFrom hint) := rfl

/-- A claim that leaves the choice looks at every slot but slot 0. -/
theorem State.freeSlotFrom_none : s.freeSlotFrom hint = none ↔ ∀ i, 0 < i → i < 16 → (s.pressSlots.get {} i).owner ≠ 0 := by
  unfold State.freeSlotFrom
  constructor
  · exact fun h i hpos hi => beq_eq_false_iff_ne.1 (pickFree_none (p := fun i => (s.pressSlots.get {} i).owner == 0) h hpos hi)
  · intro h
    refine Option.eq_none_iff_forall_not_mem.2 fun i hi => ?_
    obtain ⟨hfree, hlow, hhigh⟩ := pickFree_some hi (by decide)
    exact h i hlow hhigh (beq_iff_eq.1 hfree)

theorem State.freeSlotFrom_some {i : Nat} (h : s.freeSlotFrom hint = some i) : 0 < i ∧ i < 16 ∧ (s.pressSlots.get {} i).owner = 0 := by
  obtain ⟨hfree, hlow, hhigh⟩ := pickFree_some h (by decide)
  exact ⟨hlow, hhigh, beq_iff_eq.1 hfree⟩

section
variable (hopen : s.isOpen (s.cmdHousehold k c) = true) (hruns : s.commandRuns k 0x0109 c)
include hopen hruns

/-- A claim that names a slot, or leaves the choice with slot 0. -/
theorem pressSlot_claims {r : Reply} (hop : c.arg 1 = 0) (hslot : c.arg 2 < 16) (hr : s.claimSlot (s.cmdHousehold k c) (c.arg 2) hint = r) :
    s.replies (.pressSlot k hint) k c r.status r.result r.state := by
  refine State.replies_of_command rfl hruns ?_
  rw [State.forHousehold_open hopen]
  dsimp only
  rw [if_neg (by omega), if_pos hop, hr]

theorem pressSlot_claims_named (hop : c.arg 1 = 0) (hpos : 0 < c.arg 2) (hslot : c.arg 2 < 16) (hfree : (s.pressSlots.get {} (c.arg 2)).owner = 0) :
    s.replies (.pressSlot k hint) k c 0 (BitVec.ofNat 64 (c.arg 2)) (s.slotClaimed (s.cmdHousehold k c) (c.arg 2)) :=
  pressSlot_claims hopen hruns (r := done _ (c.arg 2)) hop hslot ((State.claimSlot_named hpos.ne').trans (if_pos hfree))

/-- A claim of a slot that is owned: STATE where it is the household's own, NO_SLOT where it is another's. -/
theorem pressSlot_claims_owned (hop : c.arg 1 = 0) (hpos : 0 < c.arg 2) (hslot : c.arg 2 < 16) (howned : (s.pressSlots.get {} (c.arg 2)).owner ≠ 0) :
    s.replies (.pressSlot k hint) k c (if (s.pressSlots.get {} (c.arg 2)).owner = s.cmdHousehold k c then 5 else 8) 0 s :=
  pressSlot_claims hopen hruns (r := refuse s _) hop hslot ((State.claimSlot_named hpos.ne').trans (if_neg howned))

/-- A claim that leaves the choice gets a free slot where there is one. -/
theorem pressSlot_claims_any (hop : c.arg 1 = 0) (hany : c.arg 2 = 0) (hfree : ∃ i, 0 < i ∧ i < 16 ∧ (s.pressSlots.get {} i).owner = 0) :
    ∃ i, 0 < i ∧ i < 16 ∧ (s.pressSlots.get {} i).owner = 0 ∧
      s.replies (.pressSlot k hint) k c 0 (BitVec.ofNat 64 i) (s.slotClaimed (s.cmdHousehold k c) i) := by
  obtain ⟨j, hj, hj16, hjfree⟩ := hfree
  cases hpick : s.freeSlotFrom hint with
  | none => exact absurd hjfree (State.freeSlotFrom_none.1 hpick j hj hj16)
  | some i =>
    obtain ⟨hlow, hhigh, hfree⟩ := State.freeSlotFrom_some hpick
    refine ⟨i, hlow, hhigh, hfree, pressSlot_claims hopen hruns (r := done _ i) hop (by omega) ?_⟩
    rw [hany, State.claimSlot_any, hpick]
    exact if_pos hfree

theorem pressSlot_claims_none (hop : c.arg 1 = 0) (hany : c.arg 2 = 0) (hbusy : ∀ i, 0 < i → i < 16 → (s.pressSlots.get {} i).owner ≠ 0) :
    s.replies (.pressSlot k hint) k c 8 0 s := by
  refine pressSlot_claims hopen hruns (r := refuse s stNoSlot) hop (by omega) ?_
  rw [hany, State.claimSlot_any, State.freeSlotFrom_none.2 hbusy]
  rfl

section
variable (hpos : 0 < c.arg 2) (hslot : c.arg 2 < 16) (howner : (s.pressSlots.get {} (c.arg 2)).owner = s.cmdHousehold k c)
include hpos hslot howner

theorem pressSlot_releases (hop : c.arg 1 = 1) : s.replies (.pressSlot k hint) k c 0 (BitVec.ofNat 64 (c.arg 2))
    (State.dropWrites { s with pressSlots := s.pressSlots.del (c.arg 2) } fun w => w.slot == c.arg 2) := by
  refine State.replies_of_command (r := done _ (c.arg 2)) rfl hruns ?_
  rw [State.forHousehold_open hopen]
  dsimp only
  rw [if_neg (by omega), if_neg (by omega), if_neg (not_not.2 howner)]
  exact if_pos hop

theorem pressSlot_loads (hop : c.arg 1 = 2) (hread : s.hostFaults (c.arg 3) 128 = false)
    (hvalid : tableValid (s.hostMem.readBytes (c.arg 3) 128) = true) :
    s.replies (.pressSlot k hint) k c 0 (BitVec.ofNat 64 (tableTag (s.hostMem.readBytes (c.arg 3) 128)))
      (State.dropWrites
        { s with pressSlots := s.pressSlots.set (c.arg 2) ⟨s.cmdHousehold k c, some (s.hostMem.readBytes (c.arg 3) 128)⟩ }
        fun w => w.slot == c.arg 2) := by
  refine State.replies_of_command (r := done _ (tableTag (s.hostMem.readBytes (c.arg 3) 128))) rfl hruns ?_
  rw [State.forHousehold_open hopen]
  dsimp only
  rw [if_neg (by omega), if_neg (by omega), if_neg (not_not.2 howner), if_neg (by omega), State.hostRead_fits hread]
  exact if_pos hvalid

theorem pressSlot_refuses (hop : c.arg 1 = 2) (hread : s.hostFaults (c.arg 3) 128 = false)
    (hinvalid : tableValid (s.hostMem.readBytes (c.arg 3) 128) = false) : s.replies (.pressSlot k hint) k c 2 0 s := by
  refine State.replies_of_command (r := refuse s stArg) rfl hruns ?_
  rw [State.forHousehold_open hopen]
  dsimp only
  rw [if_neg (by omega), if_neg (by omega), if_neg (not_not.2 howner), if_neg (by omega), State.hostRead_fits hread]
  exact if_neg (by rw [hinvalid]; exact Bool.false_ne_true)

end
end
end

/-- Settles O45: HH_OPEN by `State.opened_effect`, HH_CLOSE by `State.closed_effect` and `State.closed_owns_nothing`, the slots by what each
command answers. -/
theorem householdsHoldKeysAndPressSlots : Obligations.HouseholdsHoldKeysAndPressSlots := by
  unfold Obligations.HouseholdsHoldKeysAndPressSlots
  refine ⟨fun s k h v c => ⟨fun hruns harg hpos hh hv hwf => ⟨fun hlen hfits hclosed hvf => ?_, hhOpen_refuses hruns harg hpos hh hv,
      hhOpen_taken hruns harg hpos hh hv⟩, ?_, ?_, ?_⟩, ?_⟩
  · exact ⟨_, hhOpen_opens hruns harg hpos hh hv hlen hfits hclosed hvf, State.opened_effect hwf hfits rfl⟩
  · rintro hruns rfl
    exact ⟨hhClose_refuses hruns,
      fun hopen hwf hentries hjobs => ⟨_, hhClose_closes hruns hopen, State.closed_effect hwf hentries hjobs rfl⟩,
      fun hopen => ⟨_, hhClose_closes hruns hopen, State.closed_owns_nothing rfl⟩⟩
  · rintro hruns rfl
    exact ⟨hhQuota_sets hruns, hhQuota_refuses hruns⟩
  · rintro hruns rfl hh hbase
    exact ⟨bar2Set_sets hruns hh hbase, bar2Set_unaligned hruns, bar2Set_closed hruns hh hbase⟩
  rintro s k hint h n c rfl hopen
  refine ⟨?_, ?_, ?_⟩
  · rintro hruns rfl hslot
    exact ⟨keyLoad_loads hopen hslot hruns, fun hread ⟨x, hfound, howner⟩ => keyLoad_refuses hopen hslot hruns hread hfound howner,
      keyLoad_faults hopen hslot hruns⟩
  · rintro hruns rfl hslot
    exact ⟨fun ⟨x, hfound, howner⟩ => keyErase_erases hopen hslot hruns hfound howner, keyErase_refuses hopen hslot hruns⟩
  · rintro hruns rfl
    refine ⟨fun hop hpos hslot => ⟨pressSlot_claims_named hopen hruns hop hpos hslot, fun howned hother => ?_, fun howned hown => ?_⟩,
      fun hop hany => ⟨pressSlot_claims_any hopen hruns hop hany, pressSlot_claims_none hopen hruns hop hany⟩,
      fun hpos hslot howner => ⟨fun hop => ⟨_, pressSlot_releases hopen hruns hpos hslot howner hop, rfl⟩, ?_⟩⟩
    · simpa only [if_neg hother] using pressSlot_claims_owned hopen hruns (hint := hint) hop hpos hslot howned
    · simpa only [if_pos hown] using pressSlot_claims_owned hopen hruns (hint := hint) hop hpos hslot howned
    · rintro hop hread b rfl
      exact ⟨fun hvalid => ⟨_, pressSlot_loads hopen hruns hpos hslot howner hop hread hvalid, rfl⟩,
        pressSlot_refuses hopen hruns hpos hslot howner hop hread⟩

end Sys2Proof.Machine
end

