-- ==== Sys2Proof/Proofs/EngineAccess.lean ====
section
/-! A Press engine between clear pages (R233 to R238): the descriptor that it holds runs at once, its source is read and its output is written whole. -/

namespace Sys2Proof.Machine

/-! ## Marks of an access, and output -/

/-- Of two states only cache marks and Tally units of parishes differ. -/
structure State.Marked (s t : State) : Prop where
  frame : t = { s with parishes := t.parishes }
  press : ∀ k, (t.parish k).press = (s.parish k).press
  granules : ∀ k, (t.parish k).granules = (s.parish k).granules

/-- Bytes `out` have been written at LPDDR address `a`; besides them only cache marks, Tally units and cleared poison differ. -/
structure State.Puts (s t : State) (a : Nat) (out : List Byte) : Prop where
  frame : t = { s with parishes := t.parishes, mem := t.mem, blkPoison := t.blkPoison }
  mem : t.mem = s.mem.writeBytes a out
  press : ∀ k, (t.parish k).press = (s.parish k).press

section
variable {s t u : State}

theorem State.Marked.refl : s.Marked s := ⟨rfl, fun _ => rfl, fun _ => rfl⟩

theorem State.Marked.trans (h : s.Marked t) (h' : t.Marked u) : s.Marked u where
  frame := by rw [h'.frame, h.frame]
  press k := (h'.press k).trans (h.press k)
  granules k := (h'.granules k).trans (h.granules k)

theorem State.Marked.modParish (h : s.Marked t) (p : ParishRef) {f : Parish → Parish} (hpress : ∀ x, (f x).press = x.press)
    (hgranules : ∀ x, (f x).granules = x.granules) : s.Marked (t.modParish p f) where
  frame := by
    rw [h.frame]
    rfl
  press k := (State.parish_modParish_keeps (·.press) hpress t p k).trans (h.press k)
  granules k := (State.parish_modParish_keeps (·.granules) hgranules t p k).trans (h.granules k)

theorem State.marked_touch (s : State) (a n : Nat) (write alloc : Bool) : s.Marked (s.touch a n write alloc) where
  frame := State.touch_eq ..
  press k := State.parish_touch_keeps (·.press) (fun _ _ _ _ _ => rfl) s a n write alloc k
  granules k := State.parish_touch_keeps (·.granules) (fun _ _ _ _ _ => rfl) s a n write alloc k

theorem State.marked_offer (s : State) (d q n source : Nat) (mill : Option Nat) (x : Snooped) :
    s.Marked (s.offer (.parish d q n) source mill x) := by
  have hset (y : Tally) : s.Marked (s.modParish ⟨d, q⟩ fun m => { m with tallies := m.tallies.set n y }) :=
    State.Marked.refl.modParish _ (fun _ => rfl) (fun _ => rfl)
  unfold State.offer
  exact iteInduction (motive := s.Marked) (fun _ => hset _) fun _ => State.Marked.refl

/-- The Tally units of the parish are offered what an engine puts out (R266). -/
theorem State.marked_offerParish (s : State) (p : ParishRef) (source : Nat) (x : Snooped) : s.Marked (s.offerParish p source x) :=
  (s.marked_offer ..).trans (State.marked_offer ..)

/-- No access sees such marks. -/
theorem State.Marked.accessAlike (h : s.Marked t) : s.AccessAlike t where
  frame := by
    rw [h.frame]
  power k := by
    rw [h.frame]
    rfl
  fence k := by
    rw [h.frame]
    rfl
  granules := h.granules

theorem State.Marked.mem (h : s.Marked t) : t.mem = s.mem := h.accessAlike.mem

theorem State.Marked.puts {a : Nat} {out : List Byte} (h : s.Marked t) (h' : t.Puts u a out) : s.Puts u a out where
  frame := by rw [h'.frame, h.frame]
  mem := by rw [h'.mem, h.mem]
  press k := (h'.press k).trans (h.press k)

/-- Bytes that an access to LPDDR stores. -/
theorem State.puts_store (s : State) {a : Nat} (hlpddr : a < sramBase) (k : Nat) (alloc : Bool) (out : List Byte) :
    s.Puts ((s.touch a k true alloc).store a out .plain false) a out := by
  obtain ⟨q, hstore⟩ := State.store_lpddr (s.touch a k true alloc) out (isSram_lpddr hlpddr)
  rw [hstore]
  exact (s.marked_touch a k true alloc).puts ⟨rfl, rfl, fun _ => rfl⟩

theorem State.AccessAlike.trans (h : s.AccessAlike t) (h' : t.AccessAlike u) : s.AccessAlike u where
  frame := by rw [h'.frame, h.frame]
  power k := (h'.power k).trans (h.power k)
  fence k := (h'.fence k).trans (h.fence k)
  granules k := (h'.granules k).trans (h.granules k)

/-- The tables that a household may use, and the pages with PROT, are the same (R230, R236). -/
theorem State.AccessAlike.imageFor (h : s.AccessAlike t) (hh : Nat) : t.imageFor hh = s.imageFor hh := by
  rw [h.frame]
  rfl

theorem State.AccessAlike.touchesProt (h : s.AccessAlike t) (hh ea n : Nat) : t.touchesProt hh ea n = s.touchesProt hh ea n := by
  rw [h.frame]
  rfl

end

/-! ## Input and output of an engine -/

/-- The first bytes of a clear page that is read are a clear page. -/
theorem State.clearPage.take {s : State} {who : Actor} {ea n a m : Nat} (h : s.clearPage who false ea n a) (hm : 0 < m) (hmn : m ≤ n) :
    s.clearPage who false ea m a := by
  obtain ⟨hres, hlpddr, -, hblock, hsound, hkv, hopen, -⟩ := h
  have hfew : s.poisonedAt a m = false := by
    have hall := hsound rfl
    unfold State.poisonedAt at hall ⊢
    rw [isSram_lpddr hlpddr] at hall ⊢
    rw [if_neg Bool.false_ne_true, List.any_eq_false] at hall ⊢
    intro b hb
    obtain ⟨i, hi, rfl⟩ := List.mem_map.1 hb
    refine hall _ (List.mem_map.2 ⟨i, ?_, rfl⟩)
    rw [List.mem_range] at hi ⊢
    omega
  exact ⟨hres, hlpddr, hm, by omega, fun _ => hfew,
    fun k j hk hj hactive x hx hlt => hkv k j hk hj hactive x hx (by omega), fun hread x hx hlt => hopen hread x hx (by omega), nofun⟩

theorem slice_all (l : List Byte) : slice l 0 l.length = l := by
  simp [slice]

section
variable {s : State} {x : EngineCtx} {c : EngineCur} {ea n a : Nat}

/-- A clear page is read at once. -/
theorem State.engineLoad_clear (h : s.clearPage x.actor false ea n a) :
    s.engineLoad x c ea n = some ((s.mem.readBytes a n, false), s.touch a n false (c.desc.getLsbD 10)) := by
  unfold State.engineLoad
  rw [State.isRemote_clear h, if_neg Bool.false_ne_true, State.readAt_clear h]

theorem State.pressInput_clear (hsrc : x.src = none) (h : s.clearPage x.actor false (pressSrc c.desc) n a) :
    s.pressInput x c n = .bytes (s.mem.readBytes a n) (List.replicate n false) c (s.touch a n false (c.desc.getLsbD 10)) := by
  unfold State.pressInput
  rw [hsrc]
  dsimp only
  rw [State.engineLoad_clear h]

theorem poisonErr_sound (n : Nat) : poisonErr (List.replicate n false) = {} := by
  simp [poisonErr]

/-- One part of output goes whole to a clear page. -/
theorem State.writeParts_clear {out : List Byte} (h : s.clearPage x.actor true ea out.length a) (alloc : Bool) :
    s.writeParts x alloc ea [⟨out, false⟩] = ((s.touch a out.length true alloc).store a out .plain false, 1) := by
  have hstore : s.engineStore x.par x.eng x.actor alloc ea (slice out (ea - ea) out.length) false =
      some ((s.touch a out.length true alloc).store a out .plain false) := by
    rw [Nat.sub_self, slice_all]
    unfold State.engineStore
    rw [State.isRemote_clear h, if_neg Bool.false_ne_true, State.writeAt_clear h]
  have hpart : s.writePart x alloc ea ⟨out, false⟩ [(ea, out.length)] =
      ((s.touch a out.length true alloc).store a out .plain false, true) := by
    unfold State.writePart
    dsimp only
    rw [hstore]
    rfl
  unfold State.writeParts
  dsimp only
  rw [runsOf_one h.2.2.1 h.2.2.2.1, hpart]
  rfl

/-- One part of output to a clear page ends the descriptor without an error of its own (R235). -/
theorem State.putOut_clear {out : List Byte} (hdst : x.dst = none) (h : s.clearPage x.actor true (pressDst c.desc) out.length a) (s0 : State)
    (fmt : Nat) (e : PressErr) (result : List OutPart → Nat) :
    ∃ t, s.putOut s0 x c fmt [⟨out, false⟩] e result = .ended t e (result [⟨out, false⟩]) ∧ s.Puts t a out := by
  unfold State.putOut
  rw [hdst]
  dsimp only
  rw [State.writeParts_clear h]
  exact ⟨_, rfl, s.puts_store h.2.1 ..⟩

/-- Output of a descriptor whose input broke no rule is what it comes to. -/
theorem State.outParts_whole (s : State) (h : c.broken = false) (l : List OutPart) : s.outParts c l = (l, s) := by
  induction l with
  | nil => rfl
  | cons p l ih =>
    unfold State.outParts
    rw [h]
    simp [ih]

end

/-! ## A descriptor runs -/

@[simp] theorem State.stir_parish (s : State) (p : ParishRef) : s.stir.parish p = s.parish p := by
  rw [State.stir_frame]
  rfl

/-- The context of a descriptor of a Press engine with memory at both ends. -/
def pressCtx (p : ParishRef) (n : Nat) (j : Job) : EngineCtx := ⟨p, .press, n, j, none, none⟩

@[simp] theorem pressCtx_actor (p : ParishRef) (n : Nat) (j : Job) : (pressCtx p n j).actor = actorOf n j := rfl
@[simp] theorem pressCtx_par (p : ParishRef) (n : Nat) (j : Job) : (pressCtx p n j).par = p := rfl
@[simp] theorem pressCtx_job (p : ParishRef) (n : Nat) (j : Job) : (pressCtx p n j).job = j := rfl
@[simp] theorem pressCtx_src (p : ParishRef) (n : Nat) (j : Job) : (pressCtx p n j).src = none := rfl
@[simp] theorem pressCtx_dst (p : ParishRef) (n : Nat) (j : Job) : (pressCtx p n j).dst = none := rfl

section
variable {s t : State} {p : ParishRef} {n r : Nat} {j : Job} {d : Vec}

/-! What each TYPE of a Press descriptor does. -/

theorem State.engineWork_scan (s : State) (hty : descType d = 1) :
    s.engineWork (pressCtx p n j) { desc := d } = s.pressScan (pressCtx p n j) { desc := d } := by
  simp only [State.engineWork, pressCtx, hty]

theorem State.engineWork_build (s : State) (hty : descType d = 2) :
    s.engineWork (pressCtx p n j) { desc := d } = s.pressBuild (pressCtx p n j) { desc := d } := by
  simp only [State.engineWork, pressCtx, hty]

theorem State.engineWork_encode (s : State) (hty : descType d = 3) :
    s.engineWork (pressCtx p n j) { desc := d } = s.pressEncode (pressCtx p n j) { desc := d } := by
  simp only [State.engineWork, pressCtx, hty]

theorem State.engineWork_decode (s : State) (hty : descType d = 4) :
    s.engineWork (pressCtx p n j) { desc := d } = s.pressDecode (pressCtx p n j) { desc := d } := by
  simp only [State.engineWork, pressCtx, hty]

theorem State.engineWork_loadt (s : State) (hty : descType d = 5) :
    s.engineWork (pressCtx p n j) { desc := d } = s.pressLoadt (pressCtx p n j) { desc := d } := by
  simp only [State.engineWork, pressCtx, hty]

theorem State.engineWork_maskidx (s : State) (hty : descType d = 6) :
    s.engineWork (pressCtx p n j) { desc := d } = s.pressMaskidx (pressCtx p n j) { desc := d } := by
  simp only [State.engineWork, pressCtx, hty]

/-- A descriptor whose work has ended without an error: its parish. -/
theorem State.engineEnd_press (t : State) (p : ParishRef) (d : Vec) (r : Nat) :
    ((t.engineEnd p .press d {} r).parish p).press = { (t.parish p).press with cur := none, run := some ⟨d, 0, BitVec.ofNat 32 r, 0, false⟩ } := by
  unfold State.engineEnd State.setEngine
  rw [State.parish_modParish]
  rfl

theorem State.engineEnd_frame (t : State) (p : ParishRef) (e : ParishEngine) (d : Vec) (err : PressErr) (r : Nat) :
    t.engineEnd p e d err r = { t with parishes := (t.engineEnd p e d err r).parishes } := rfl

/-- A Press engine runs the descriptor that it holds, for the command of its TYPE, where its source is not in another package. -/
theorem State.runEngine_press {err : PressErr} {ty : Nat} (h : s.engineReady p .press n j d) (hty : descType d = ty)
    (hnear : s.stir.farSource (pressCtx p n j) d = false)
    (hwork : s.stir.engineWork (pressCtx p n j) { desc := d } = .ended t err r) :
    s.runEngine p .press ty = .next (t.engineEnd p .press d err r) := by
  obtain ⟨hjob, henable, hrun, hcur, hcheck, hsrc, hdst⟩ := h
  have hcheck' : s.stir.engineCheck j .press d = .ok := by
    rw [State.stir_frame]
    exact hcheck
  have hinside : s.stir.engineOutside j d = false := by
    simp [State.engineOutside, hsrc, hdst]
  have hfetch : s.stir.engineFetchWork (pressCtx p n j) { desc := d } = .ended t err r := by
    unfold State.engineFetchWork
    rw [hnear, if_neg Bool.false_ne_true, hwork]
  unfold pressCtx at hfetch
  unfold State.runEngine
  rw [hjob]
  dsimp only
  rw [henable, hrun, hcur, if_neg (by simp)]
  dsimp only
  rw [if_pos (.inl hty)]
  unfold State.engineGo
  simp only [hcheck', hinside, hsrc, hdst, Bool.false_eq_true, if_false, ne_eq, not_true_eq_false, hfetch]

/-- A clear source is in this package; BUILD has none. -/
theorem State.farSource_clear {k src : Nat} (h : s.clearPage (actorOf n j) false (pressSrc d) k src) :
    s.stir.farSource (pressCtx p n j) d = false := by
  have hlocal := State.isRemote_clear (State.AccessAlike.stir.clearPage h)
  unfold State.farSource
  rw [pressCtx_actor, hlocal, Bool.and_false]

/-- The end of a descriptor that wrote its output: memory has it, and the descriptor waits to complete. -/
theorem State.ended_puts {a : Nat} {out : List Byte} (hwf : s.mem.wf = true) (h : s.stir.Puts t a out) :
    s.memHas (t.engineEnd p .press d {} r) a out ∧
      t.engineEnd p .press d {} r = { s.stir with
        parishes := (t.engineEnd p .press d {} r).parishes, mem := (t.engineEnd p .press d {} r).mem
        blkPoison := (t.engineEnd p .press d {} r).blkPoison } ∧
      ((t.engineEnd p .press d {} r).parish p).press =
        { (s.parish p).press with cur := none, run := some ⟨d, 0, BitVec.ofNat 32 r, 0, false⟩ } := by
  have hmem : s.stir.mem = s.mem := State.AccessAlike.stir.mem
  refine ⟨State.memHas_write hwf (h.mem.trans (by rw [hmem])), ?_, ?_⟩
  · have hframe := h.frame
    rw [State.engineEnd_frame]
    generalize State.parishes (State.engineEnd ..) = ps
    rw [hframe]
  · rw [State.engineEnd_press, h.press, State.stir_parish]

end

end Sys2Proof.Machine
end

