-- ==== Sys2Proof/Proofs/PressTables.lean ====
section
/-! Histograms and tables (R227, R229 to R231, R234, R235): SCAN, BUILD, LOADT and TABLE_SLOT_VISIBLE. -/

namespace Sys2Proof.Machine

section
variable {s : State} {p : ParishRef} {n a : Nat} {j : Job} {d : Vec}

/-- SCAN adds the exponents that it reads to the histogram (Table 8.4). -/
theorem exec_scan (h : s.engineReady p .press n j d) (hty : descType d = 1)
    (hclear : s.clearPage (actorOf n j) false (pressSrc d) (2 * pressCount d) a) :
    ∃ t, exec (.scan p) s = .next t ∧ t = { s.stir with parishes := t.parishes } ∧
      (t.parish p).press = { (s.parish p).press with
        hist := countExps (if d.getLsbD 20 then {} else (s.parish p).press.hist) (words 2 (s.mem.readBytes a (2 * pressCount d)))
        cur := none, run := some ⟨d, 0, BitVec.ofNat 32 (pressCount d), 0, false⟩ } := by
  have hinput := State.pressInput_clear (x := pressCtx p n j) (c := { desc := d }) rfl (State.AccessAlike.stir.clearPage hclear)
  have hmarked := s.stir.marked_touch a (2 * pressCount d) false (d.getLsbD 10)
  generalize s.stir.touch a (2 * pressCount d) false (d.getLsbD 10) = u at hinput hmarked
  have hwork : s.stir.engineWork (pressCtx p n j) { desc := d } =
      .ended (u.countScan p d (s.mem.readBytes a (2 * pressCount d))) {} (pressCount d) := by
    rw [State.engineWork_scan _ hty]
    unfold State.pressScan
    dsimp only
    rw [hinput, State.AccessAlike.stir.mem]
    dsimp only
    rw [poisonErr_sound]
    rfl
  refine ⟨_, State.runEngine_press h hty (State.farSource_clear hclear) hwork, ?_, ?_⟩
  · have hframe := hmarked.frame
    rw [State.engineEnd_frame]
    generalize State.parishes (State.engineEnd ..) = ps
    unfold State.countScan State.modParish State.setParish
    rw [hframe]
  · rw [State.engineEnd_press]
    unfold State.countScan
    rw [State.parish_modParish]
    dsimp only
    rw [hmarked.press, State.stir_parish]

/-- A table on its way to its slot (R231): the engine waits for it. -/
theorem State.install_effect (s : State) (x : EngineCtx) (slot : Nat) (image : List Byte) :
    s.install x slot image =
        { s with
          parishes := (s.install x slot image).parishes
          pressPend := s.pressPend ++ [⟨slot, x.job.household, image, some x.par⟩] } ∧
      ((s.install x slot image).parish x.par).press = { (s.parish x.par).press with installing := true } := by
  refine ⟨rfl, ?_⟩
  unfold State.install
  rw [State.parish_modParish]
  rfl

/-- A descriptor that ends with its table on its way. -/
theorem State.ended_installs {t u : State} {image : List Byte} (hmarked : s.stir.Marked u)
    (ht : t = (u.install (pressCtx p n j) (pressTable d) image).engineEnd p .press d {} (tableTag image)) :
    t = { s.stir with parishes := t.parishes, pressPend := s.pressPend ++ [⟨pressTable d, j.household, image, some p⟩] } ∧
      (t.parish p).press = { (s.parish p).press with
        installing := true, cur := none, run := some ⟨d, 0, BitVec.ofNat 32 (tableTag image), 0, false⟩ } := by
  subst ht
  obtain ⟨hframe, hpress⟩ := u.install_effect (pressCtx p n j) (pressTable d) image
  refine ⟨?_, ?_⟩
  · have hpend : s.stir.pressPend = s.pressPend := by
      rw [State.stir_frame]
    have hmarks := hmarked.frame
    rw [State.engineEnd_frame]
    generalize State.parishes (State.engineEnd ..) = ps
    rw [hframe, hmarks, ← hpend]
    rfl
  · have hpress' : ((u.install (pressCtx p n j) (pressTable d) image).parish p).press = { (u.parish p).press with installing := true } := hpress
    rw [State.engineEnd_press, hpress', hmarked.press, State.stir_parish]

/-- BUILD without a destination puts the table of the histogram on its way (R229). -/
theorem exec_build {image : List Byte} (h : s.engineReady p .press n j d) (hty : descType d = 2) (hdst : pressDst d = 0)
    (hbuild : buildTable ((List.range 256).map fun e => ((s.parish p).press.hist.get 0 e).toNat) = some image) :
    ∃ t, exec (.build p) s = .next t ∧
      t = { s.stir with parishes := t.parishes, pressPend := s.pressPend ++ [⟨pressTable d, j.household, image, some p⟩] } ∧
      (t.parish p).press = { (s.parish p).press with
        installing := true, cur := none, run := some ⟨d, 0, BitVec.ofNat 32 (tableTag image), 0, false⟩ } := by
  have hnear : s.stir.farSource (pressCtx p n j) d = false := by
    simp [State.farSource, pressCtx, hty]
  have hwork : s.stir.engineWork (pressCtx p n j) { desc := d } =
      .ended (s.stir.install (pressCtx p n j) (pressTable d) image) {} (tableTag image) := by
    obtain ⟨-, -, -, -, -, -, hring⟩ := h
    have hhist : buildTable ((List.range 256).map fun e => ((s.stir.parish (pressCtx p n j).par).press.hist.get 0 e).toNat) = some image := by
      rw [State.stir_parish]
      exact hbuild
    rw [State.engineWork_build _ hty]
    unfold State.pressBuild
    rw [hhist]
    exact if_pos ⟨hring, hdst⟩
  exact ⟨_, State.runEngine_press h hty hnear hwork, State.ended_installs State.Marked.refl rfl⟩

/-- LOADT of a valid image puts it on its way (R227, R235). -/
theorem exec_loadt (h : s.engineReady p .press n j d) (hty : descType d = 5) (hclear : s.clearPage (actorOf n j) false (pressSrc d) 128 a)
    (hvalid : tableValid (s.mem.readBytes a 128) = true) :
    ∃ t, exec (.loadt p) s = .next t ∧
      t = { s.stir with
        parishes := t.parishes, pressPend := s.pressPend ++ [⟨pressTable d, j.household, s.mem.readBytes a 128, some p⟩] } ∧
      (t.parish p).press = { (s.parish p).press with
        installing := true, cur := none, run := some ⟨d, 0, BitVec.ofNat 32 (tableTag (s.mem.readBytes a 128)), 0, false⟩ } := by
  have hinput := State.pressInput_clear (x := pressCtx p n j) (c := { desc := d }) rfl (State.AccessAlike.stir.clearPage hclear)
  have hmarked := s.stir.marked_touch a 128 false (d.getLsbD 10)
  generalize s.stir.touch a 128 false (d.getLsbD 10) = u at hinput hmarked
  rw [State.AccessAlike.stir.mem] at hinput
  generalize s.mem.readBytes a 128 = image at hinput hvalid ⊢
  have hwork : s.stir.engineWork (pressCtx p n j) { desc := d } =
      .ended (u.install (pressCtx p n j) (pressTable d) image) {} (tableTag image) := by
    have hsound : (List.replicate 128 false).any id = false := by simp
    rw [State.engineWork_loadt _ hty]
    unfold State.pressLoadt
    rw [hinput]
    dsimp only
    rw [hsound, if_neg Bool.false_ne_true, if_neg Bool.false_ne_true, if_pos hvalid]
  exact ⟨_, State.runEngine_press h hty (State.farSource_clear hclear) hwork, State.ended_installs hmarked rfl⟩

/-- The oldest write of a slot becomes visible, and its engine goes on (R230, R231). -/
theorem exec_tableSlotVisible {slot : Nat} {w : SlotWrite} (hfirst : s.pressPend.find? (fun w => w.slot == slot) = some w) (hby : w.by_ = some p) :
    ∃ t, exec (.tableSlotVisible slot) s = .next t ∧
      t = { s with parishes := t.parishes, pressPend := s.pressPend.filter fun y => !(y == w), pressSlots := t.pressSlots } ∧
      ((s.pressSlots.get {} slot).owner = w.owner → (t.pressSlots.get {} slot).image = some w.image) ∧
      ((s.pressSlots.get {} slot).owner ≠ w.owner → t.pressSlots = s.pressSlots) ∧ (∀ k, k ≠ slot → t.pressSlots.find k = s.pressSlots.find k) ∧
      (t.parish p).press = { (s.parish p).press with installing := false } := by
  have hexec : exec (.tableSlotVisible slot) s = .next (if (s.pressSlots.get {} slot).owner = w.owner then
      { s.dropWrites (fun y => y == w) with
        pressSlots := s.pressSlots.set slot { s.pressSlots.get {} slot with image := some w.image } }
      else s.dropWrites fun y => y == w) := by
    unfold exec execTableSlotVisible
    dsimp only
    rw [hfirst]
    rfl
  have hpress : ((s.dropWrites fun y => y == w).parish p).press = { (s.parish p).press with installing := false } := by
    have hmine : (((s.pressPend.filter fun y => y == w).filterMap (·.by_)).any fun q => parKey q == parKey p) = true := by
      refine List.any_eq_true.2 ⟨p, List.mem_filterMap.2 ⟨w, ?_, hby⟩, beq_self_eq_true _⟩
      exact List.mem_filter.2 ⟨List.mem_of_find?_eq_some hfirst, beq_self_eq_true _⟩
    unfold State.dropWrites State.parish
    dsimp only
    rw [Tab.get_mapV _ _ (by split <;> rfl)]
    rw [if_pos hmine]
  refine ⟨_, hexec, ?_⟩
  by_cases howner : (s.pressSlots.get {} slot).owner = w.owner
  · rw [if_pos howner]
    refine ⟨rfl, fun _ => ?_, fun h => absurd howner h, fun k hk => Tab.find_set_ne _ _ hk, hpress⟩
    dsimp only
    rw [Tab.get_set_same]
  · rw [if_neg howner]
    exact ⟨rfl, fun h => absurd h howner, fun _ => rfl, fun _ _ => rfl, hpress⟩

end

end Sys2Proof.Machine
end

