-- ==== Sys2Proof/Proofs/PressBlocks.lean ====
section
/-! ENCODE, DECODE and MASKIDX between clear pages, and O30 put together (R224 to R226, R235, R236, R238, R239, R241). -/

namespace Sys2Proof.Machine

/-! ## Streams of one block -/

/-- A list that is no longer than a chunk is one. -/
theorem chunks_one {α : Type} {n : Nat} {l : List α} (hsome : 0 < l.length) (hfit : l.length ≤ n) : chunks n l = [l] := by
  have hcount : (l.length + (n - 1)) / n = 1 := by
    rw [Nat.div_eq_iff (by omega)]
    omega
  unfold chunks
  rw [if_neg (by omega), hcount]
  simp [List.take_of_length_le hfit]

/-- A stream of at most 2,048 values without poison is one block. -/
theorem encodeParts_one {table : Option (Nat × List Byte)} {b : List Byte} (hsome : 0 < b.length) (hfit : b.length ≤ 4096) :
    encodeParts table b (List.replicate b.length false) = [⟨encodeBlock table (words 2 b), false⟩] := by
  unfold encodeParts
  rw [chunks_one hsome hfit, chunks_one (by rwa [List.length_replicate]) (by rwa [List.length_replicate])]
  simp

theorem length_flatMap_toBytes (n : Nat) (l : List Nat) : (l.flatMap (toBytes n)).length = n * l.length := by
  simp [length_toBytes, Nat.mul_comm]

theorem partBytes_one (x : OutPart) : partBytes [x] = x.bytes := List.flatMap_singleton ..

theorem firstPoisoned_sound (b : List Byte) : firstPoisoned [⟨b, false⟩] = {} := rfl

/-- OK is no error. -/
theorem PressErr.then_ok (e : PressErr) (k : Nat) : e.then .ok k = e := if_neg fun h => h.2 rfl

/-- What the Tally units of the parish are offered of the output of a Press descriptor (R266). -/
def pressUnit (d : Vec) (out : List Byte) : Snooped :=
  { bytes := out, layer := BitVec.ofNat 32 (fieldOf d 48 16), tile := BitVec.ofNat 32 (fieldOf d 32 16), poison := false, scrub := false }

section
variable {s : State} {p : ParishRef} {n k src dst : Nat} {j : Job} {d : Vec} {out : List Byte}

/-! ## ENCODE (R226, R236) -/

/-- The table that ENCODE uses: none where a page of the destination has PROT. -/
def State.encodeTable (s : State) (j : Job) (d : Vec) : Option (Nat × List Byte) :=
  if s.touchesProt j.household (pressDst d) (2 * pressCount d + 16 * ceilDiv (pressCount d) 2048) then none
  else (s.imageFor j.household (pressTable d)).map fun i => (pressTable d, i)

theorem State.AccessAlike.encodeTable {t : State} (h : s.AccessAlike t) (j : Job) (d : Vec) : t.encodeTable j d = s.encodeTable j d := by
  unfold State.encodeTable
  rw [h.touchesProt, h.imageFor]

/-- A stream of one block is read at once. -/
theorem State.encodeRead_clear (h : s.clearPage (actorOf n j) false (pressSrc d) (2 * pressCount d) src) :
    State.encodeRead (pressCtx p n j) { desc := d } (ceilDiv (pressCount d) 2048) (pressSrc d) (2 * pressCount d) s =
      (s.mem.readBytes src (2 * pressCount d), List.replicate (2 * pressCount d) false, true,
        s.touch src (2 * pressCount d) false (d.getLsbD 10)) := by
  have hload := State.engineLoad_clear (x := pressCtx p n j) (c := { desc := d }) h
  obtain ⟨-, -, hsome, hblock, -⟩ := h
  have hcount : ceilDiv (pressCount d) 2048 = 1 := by
    unfold ceilDiv
    omega
  rw [hcount]
  simp only [State.encodeRead, Nat.min_eq_left (show 2 * pressCount d ≤ 4096 by omega), hload, Memory.readBytes_length, List.append_nil]

/-- One block that is coded to a clear page. -/
theorem State.encodeOut_clear (hdst : s.clearPage (actorOf n j) true (pressDst d) out.length dst) {b : List Byte} (hsome : 0 < b.length)
    (hfit : b.length ≤ 4096) (hindex : pressIndex d = 0) (hout : out = encodeBlock (s.encodeTable j d) (words 2 b)) (s0 : State) :
    ∃ t, s.encodeOut s0 (pressCtx p n j) { desc := d } b (List.replicate b.length false) true = .ended t {} out.length ∧ s.Puts t dst out := by
  have hlocal : s.isRemote (pressCtx p n j).actor true (pressDst d) = false := State.isRemote_clear hdst
  have hoffer := s.marked_offerParish p 3 (pressUnit d out)
  obtain ⟨t, hput, hputs⟩ := State.putOut_clear (x := pressCtx p n j) (c := { desc := d }) rfl (hoffer.accessAlike.clearPage hdst) s0 10 {}
    fun l => (partBytes l).length
  refine ⟨t, ?_, hoffer.puts hputs⟩
  have hparts : encodeParts (s.encodeTable j d) b (List.replicate b.length false) = [⟨out, false⟩] := by
    rw [hout]
    exact encodeParts_one hsome hfit
  unfold State.encodeTable at hparts
  unfold pressUnit at hput
  unfold State.encodeOut
  simp only [hlocal, pressCtx_dst, pressCtx_job, pressCtx_par, Option.isNone_none, Bool.and_false, Bool.true_and, Bool.false_eq_true, if_false,
    hparts, State.outParts_whole, firstPoisoned_sound, PressErr.then_ok, partBytes_one, List.any_cons, List.any_nil, Bool.or_false, if_true, hput]
  exact if_pos (.inl hindex)

/-- ENCODE of one block. -/
theorem exec_encode (h : s.engineReady p .press n j d) (hty : descType d = 3)
    (hsrc : s.clearPage (actorOf n j) false (pressSrc d) (2 * pressCount d) src)
    (hdst : s.clearPage (actorOf n j) true (pressDst d) out.length dst) (hindex : pressIndex d = 0)
    (hout : out = encodeBlock (s.encodeTable j d) (words 2 (s.mem.readBytes src (2 * pressCount d)))) :
    ∃ t, s.runEngine p .press 3 = .next (t.engineEnd p .press d {} out.length) ∧ s.stir.Puts t dst out := by
  have hlen := s.mem.readBytes_length src (2 * pressCount d)
  have hmarked := s.stir.marked_touch src (2 * pressCount d) false (d.getLsbD 10)
  have halike := State.AccessAlike.stir.trans hmarked.accessAlike
  obtain ⟨t, hencode, hputs⟩ := State.encodeOut_clear (s := s.stir.touch src (2 * pressCount d) false (d.getLsbD 10)) (p := p) (n := n)
    (b := s.mem.readBytes src (2 * pressCount d)) (halike.clearPage hdst) (by rw [hlen]; exact hsrc.2.2.1) (by rw [hlen]; have := hsrc.2.2.2.1; omega)
    hindex (by rw [halike.encodeTable, hout]) s.stir
  have hwork : s.stir.engineWork (pressCtx p n j) { desc := d } = .ended t {} out.length := by
    rw [State.engineWork_encode _ hty]
    unfold State.pressEncode
    dsimp only [pressCtx_src]
    rw [State.encodeRead_clear (State.AccessAlike.stir.clearPage hsrc), State.AccessAlike.stir.mem]
    dsimp only
    rw [hlen] at hencode
    exact hencode
  exact ⟨t, State.runEngine_press h hty (State.farSource_clear hsrc) hwork, hmarked.puts hputs⟩

/-! ## DECODE (R238, R241) -/

theorem State.decodeBlocks_one {image : Nat → Option (List Byte)} {v : List Nat} {ea : Nat}
    (hsrc : s.clearPage (actorOf n j) false ea k src) (hlen : k = blockLen (s.mem.readBytes src 16)) (hlong : 16 ≤ k) (husable : lenUsable k = true)
    (hdecode : decodeBlock image (s.mem.readBytes src k) = some v) :
    ∃ t, decodeBlocks image (.memory (pressCtx p n j) { desc := d } ea) 1 0 ⟨[], {}, false, 0⟩ s =
      (⟨[⟨v.flatMap (toBytes 2), false⟩], {}, false, k⟩, t) ∧ s.Marked t := by
  have hhead := hsrc.take (show 0 < 16 by decide) hlong
  have hmarked := s.marked_touch src 16 false (d.getLsbD 10)
  have hget (t : State) (m : Nat) (h : t.clearPage (actorOf n j) false ea m src) :
      (Stream.memory (pressCtx p n j) { desc := d } ea).get t 0 m = some ((t.mem.readBytes src m, false), t.touch src m false (d.getLsbD 10)) := by
    unfold Stream.get
    dsimp only
    rw [Nat.add_zero, State.engineLoad_clear (x := pressCtx p n j) h]
  have hpart : decodedPart image (s.mem.readBytes src k) false = (⟨v.flatMap (toBytes 2), false⟩, .ok) := by
    unfold decodedPart
    rw [hdecode]
    rfl
  have hbody := hget _ k (hmarked.accessAlike.clearPage hsrc)
  rw [hmarked.mem] at hbody
  refine ⟨_, ?_, hmarked.trans (State.marked_touch _ src k false (d.getLsbD 10))⟩
  unfold decodeBlocks
  simp only [hget s 16 hhead, ← hlen, husable, hbody, hpart, Bool.not_true, Bool.false_eq_true, if_false, PressErr.then_ok, List.nil_append,
    Nat.zero_add, decodeBlocks]

/-- DECODE of one sound block. -/
theorem exec_decode {v : List Nat} (h : s.engineReady p .press n j d) (hty : descType d = 4) (hcount : pressCount d = 1)
    (hsrc : s.clearPage (actorOf n j) false (pressSrc d) k src) (hdst : s.clearPage (actorOf n j) true (pressDst d) out.length dst)
    (hlen : k = blockLen (s.mem.readBytes src 16)) (hlong : 16 ≤ k) (husable : lenUsable k = true)
    (hdecode : decodeBlock (s.imageFor j.household) (s.mem.readBytes src k) = some v) (hout : out = v.flatMap (toBytes 2)) :
    ∃ t, s.runEngine p .press 4 = .next (t.engineEnd p .press d {} v.length) ∧ s.stir.Puts t dst out := by
  have hstir : s.AccessAlike s.stir := State.AccessAlike.stir
  obtain ⟨u, hblocks, hmarked⟩ := State.decodeBlocks_one (s := s.stir) (p := p) (d := d) (image := s.imageFor j.household) (hstir.clearPage hsrc)
    (by rw [hstir.mem]; exact hlen) hlong husable (by rw [hstir.mem]; exact hdecode)
  have hoffer := u.marked_offerParish p 3 (pressUnit d out)
  have hboth := hmarked.trans hoffer
  obtain ⟨t, hput, hputs⟩ := State.putOut_clear (x := pressCtx p n j) (c := { desc := d }) rfl
    ((hstir.trans hboth.accessAlike).clearPage hdst) s.stir 3 {} fun l => (partBytes l).length / 2
  have hresult : (partBytes [⟨out, false⟩]).length / 2 = v.length := by
    rw [partBytes_one, hout, length_flatMap_toBytes, Nat.mul_div_cancel_left _ (by decide)]
  have hwork : s.stir.engineWork (pressCtx p n j) { desc := d } = .ended t {} v.length := by
    rw [State.engineWork_decode _ hty]
    unfold State.pressDecode State.decodeOut
    rw [← hout] at hblocks
    unfold pressUnit at hput
    rw [hresult] at hput
    simp only [pressCtx_src, pressCtx_job, pressCtx_par, hstir.imageFor, hcount, hblocks, Nat.not_lt_zero, decide_false, Bool.and_false, Bool.false_eq_true,
      if_false, State.outParts_whole, partBytes_one, List.any_cons, List.any_nil, Bool.or_false, hput]
  exact ⟨t, State.runEngine_press h hty (State.farSource_clear hsrc) hwork, hboth.puts hputs⟩

/-! ## MASKIDX (R239) -/

/-- The padded list of active neurons that MASKIDX writes. -/
def maskEntries (d : Vec) (b : List Byte) : List Nat :=
  padIndex ((activeNeurons (maskTiles d) (maskRows d) b).map fun i => (maskBase d + i) % 2 ^ 32)

theorem exec_maskidx (h : s.engineReady p .press n j d) (hty : descType d = 6)
    (hsrc : s.clearPage (actorOf n j) false (pressSrc d) (maskTiles d * maskRows d * 16) src)
    (hdst : s.clearPage (actorOf n j) true (pressDst d) out.length dst)
    (hout : out = (maskEntries d (s.mem.readBytes src (maskTiles d * maskRows d * 16))).flatMap (toBytes 4)) :
    ∃ t, s.runEngine p .press 6 = .next (t.engineEnd p .press d {}
        (activeNeurons (maskTiles d) (maskRows d) (s.mem.readBytes src (maskTiles d * maskRows d * 16))).length) ∧ s.stir.Puts t dst out := by
  have hstir : s.AccessAlike s.stir := State.AccessAlike.stir
  have hinput := State.pressInput_clear (x := pressCtx p n j) (c := { desc := d }) rfl (hstir.clearPage hsrc)
  have hmarked := s.stir.marked_touch src (maskTiles d * maskRows d * 16) false (d.getLsbD 10)
  obtain ⟨t, hput, hputs⟩ := State.putOut_clear (x := pressCtx p n j) (c := { desc := d }) rfl
    ((hstir.trans hmarked.accessAlike).clearPage hdst) s.stir 0 {}
    fun _ => (activeNeurons (maskTiles d) (maskRows d) (s.mem.readBytes src (maskTiles d * maskRows d * 16))).length
  have hwork : s.stir.engineWork (pressCtx p n j) { desc := d } = .ended t {}
      (activeNeurons (maskTiles d) (maskRows d) (s.mem.readBytes src (maskTiles d * maskRows d * 16))).length := by
    have hsound (m : Nat) : (List.replicate m false).any id = false := by simp
    rw [State.engineWork_maskidx _ hty]
    unfold State.pressMaskidx
    rw [hstir.mem] at hinput
    unfold maskEntries at hout
    simp only [hinput, pressCtx_src, Option.isSome_none, Bool.false_eq_true, if_false, ← hout, hsound, State.outParts_whole, poisonErr_sound]
    exact hput
  exact ⟨t, State.runEngine_press h hty (State.farSource_clear hsrc) hwork, hmarked.puts hputs⟩

end

/-- Settles O30: SCAN, BUILD, LOADT and TABLE_SLOT_VISIBLE by what each leaves; ENCODE, DECODE and MASKIDX each put their output into the clear page
(`State.ended_puts`). -/
theorem pressReadsCountsAndCodes : Obligations.PressReadsCountsAndCodes := by
  unfold Obligations.PressReadsCountsAndCodes
  refine ⟨fun s p n j d h => ⟨fun a hty hclear => exec_scan h hty hclear, fun image hty hdst hbuild => exec_build h hty hdst hbuild,
    fun a hty hclear hvalid => exec_loadt h hty hclear hvalid, fun slot w hfirst hby => exec_tableSlotVisible hfirst hby⟩, ?_⟩
  intro s p n j d src dst k result c out h hwf hsrc hdst hwhich
  suffices hends : ∃ t, exec c s = .next (t.engineEnd p .press d {} result) ∧ s.stir.Puts t dst out by
    obtain ⟨t, hexec, hputs⟩ := hends
    exact ⟨_, hexec, State.ended_puts hwf hputs⟩
  obtain ⟨rfl, hty, rfl, hindex, hout, rfl⟩ | ⟨rfl, hty, hcount, hlen, hlong, husable, v, hdecode, hout, rfl⟩ | ⟨rfl, hty, rfl, hout, rfl⟩ := hwhich
  · exact exec_encode h hty hsrc hdst hindex hout
  · exact exec_decode h hty hcount hsrc hdst hlen hlong husable hdecode hout
  · exact exec_maskidx h hty hsrc hdst hout

end Sys2Proof.Machine
end

