-- ==== Sys2Proof/Proofs/MergedTables.lean ====
section
/-! A MERGE that writes over the page table of its household (R198, R238, R248): no hypothesis of MergeTreeSumsRows keeps the table in a reserved region
(`State.tableFits`), and the first record that is written can unmap the page of the second. -/

namespace Sys2Proof.Machine

/-- A MERGE of two records of one element, from 0x800 to 0. -/
def mergeTwo : Vec := BitVec.ofNat 512 (1 + 0x800 * 2 ^ 64 + 2 * 2 ^ 192 + 2 ^ 208)

/-- Records of rows 0 and 1 (R244). -/
def twoRecords : List Byte := toBytes 16 0 ++ toBytes 4 5 ++ toBytes 16 1 ++ toBytes 4 6

/-- The output: the same two rows (R248). -/
def twoRows : List Byte := twoRecords

/-- Parish 0 of die 0. -/
def mergeParish : ParishRef := ⟨0, 0⟩

/-- A job that holds its merge tree. -/
def mergeJob : Job :=
  { state := .running, household := 1, places := [], granules := []
    image := { dies := 1, places := [{ die := 0, hamlets := 0, hints := 0, granules := [], press := 0, merge := 1 }] } }

/-- Page 4 of die 1's LPDDR. -/
def tablePage : Nat := lpddrBase 1 + 4 * pageBytes

/-- Household 1 has that page, writable, as its page 0, and PT_BASE so far above the reserved region of die 0 that the entry stands in the page's own
first bytes (Table 7.5); the records lie at 0x800 in it, and the merge tree holds the descriptor. -/
def tableInPage : State :=
  { State.reset with
    mem := Memory.writeBytes (Memory.writeBytes [] tablePage (toBytes 8 (tablePage + 3))) (tablePage + 0x800) twoRecords
    households := ⟨[(1, { isOpen := true, ptLen := 1, ptBase := tablePage - State.reset.reservedAddr 0 0 })]⟩
    jobs := ⟨[(1, mergeJob)]⟩
    parishes := ⟨[(0, { merge := { enable := true, cur := some { desc := mergeTwo } } })]⟩ }

theorem tableInPage_ready : tableInPage.engineReady mergeParish .merge 1 mergeJob mergeTwo ∧ tableInPage.mem.wf = true ∧
    mergeExpect mergeTwo * mergeSize mergeTwo = 40 := by
  unfold State.engineReady
  decide +kernel

/-- The rows that the records come to. -/
theorem tableInPage_rows :
    (mergeRecs mergeTwo (tableInPage.mem.readBytes (tablePage + 0x800) 40) false).all (fun r => !r.poison) = true ∧
    (mergeRows (mergeFmt mergeTwo) (mergeSource mergeTwo)
      (sortRecs ((mergeRecs mergeTwo (tableInPage.mem.readBytes (tablePage + 0x800) 40) false).take (mergeExpect mergeTwo)))).flatMap
        MergeRec.bytes = twoRows := by decide +kernel

/-- The package has no sessions and no adapters, so that no access misuses KV. -/
theorem tableInPage_kvRespected (who : Actor) (write : Bool) (ea n : Nat) : tableInPage.kvRespected who write ea n :=
  ⟨fun _ _ _ _ _ _ _ _ => rfl, fun _ _ _ _ => rfl, fun _ _ hc => nomatch hc⟩

/-- Source and destination are clear pages. -/
theorem tableInPage_clear :
    tableInPage.clearPage (actorOf 1 mergeJob) false (pressSrc mergeTwo) 40 (tablePage + 0x800) ∧
    tableInPage.clearPage (actorOf 1 mergeJob) true (pressDst mergeTwo) twoRows.length tablePage := by
  have hsource : tableInPage.resolve (actorOf 1 mergeJob) false (pressSrc mergeTwo) = some (.mem (tablePage + 0x800) .plain) ∧
      tablePage + 0x800 < sramBase ∧ pressSrc mergeTwo % 2048 + 40 ≤ 2048 ∧ tableInPage.poisonedAt (tablePage + 0x800) 40 = false := by
    decide +kernel
  have htarget : tableInPage.resolve (actorOf 1 mergeJob) true (pressDst mergeTwo) = some (.mem tablePage .plain) ∧
      tablePage < sramBase ∧ 0 < twoRows.length ∧ pressDst mergeTwo % 2048 + twoRows.length ≤ 2048 := by
    decide +kernel
  obtain ⟨hres, hlow, hblock, hsound⟩ := hsource
  obtain ⟨hres', hlow', hsome', hblock'⟩ := htarget
  exact ⟨⟨hres, hlow, by decide, hblock, fun _ => hsound, tableInPage_kvRespected ..⟩,
    ⟨hres', hlow', hsome', hblock', nofun, tableInPage_kvRespected ..⟩⟩

/-- CODE of the descriptor of the merge tree that has run, after a command. -/
def mergeCodeAfter (c : Instr) (s : State) : Option Byte :=
  match exec c s with
  | .next t => (t.parish mergeParish).merge.run.map (·.code)
  | _ => none

theorem mergeCodeAfter_next {c : Instr} {s t : State} (h : exec c s = .next t) :
    mergeCodeAfter c s = (t.parish mergeParish).merge.run.map (·.code) := by
  rw [mergeCodeAfter, h]

/-- The record of row 0 makes the entry invalid, and the write of the next record ends the descriptor with XLATE. -/
theorem tableInPage_faults : mergeCodeAfter (.merge mergeParish) tableInPage = some PressCodeVal.xlate.num := by decide +kernel

/-- Refutes O31: a household's page table may lie where the MERGE writes, and then its first record unmaps the page of the next one
(`tableInPage_faults`), where the statement has the descriptor end without an error. -/
theorem not_mergeTreeSumsRows : ¬ Obligations.MergeTreeSumsRows := by
  unfold Obligations.MergeTreeSumsRows
  intro h
  obtain ⟨hready, hwf, hsize⟩ := tableInPage_ready
  obtain ⟨hsound, hrows⟩ := tableInPage_rows
  obtain ⟨hsource, htarget⟩ := tableInPage_clear
  obtain ⟨hmerge, -⟩ := h tableInPage mergeParish 1 mergeJob
  obtain ⟨t, hexec, -, -, hrun⟩ := hmerge mergeTwo (tablePage + 0x800) tablePage _ twoRows hready hwf (by rw [hsize]; decide)
    (by rw [hsize]; exact hsource) rfl (by rw [hsize]; exact hsound) (by rw [hsize]; exact hrows.symm) htarget
  have hcode := (mergeCodeAfter_next hexec).symm.trans tableInPage_faults
  rw [hrun] at hcode
  exact absurd (Option.some.inj hcode) (by decide)

end Sys2Proof.Machine
end
